-- ==== Sys2Proof/Word.lean ====
section
/-! DEFINITION. The word types of the D880 and nothing else: every value the manual treats as bits is
one of these (R1: bit 0 is the least significant bit). -/

namespace Sys2Proof

/-- One byte of any memory or on-chip window. -/
abbrev Byte := BitVec 8

/-- A 16-bit float or half word. -/
abbrev W16 := BitVec 16

/-- A vector, uniform or 32-bit special register; a bank-group command word. -/
abbrev W32 := BitVec 32

/-- A register pair, a virtual address, a 64-bit control register. -/
abbrev W64 := BitVec 64

/-- A DN3 clause header or instruction word (R26). -/
abbrev W96 := BitVec 96

/-- A route register (R37, R225). -/
abbrev W128 := BitVec 128

end Sys2Proof
end

