-- ==== Sys2Proof/Syntax.lean ====
section
/-! DEFINITION. The steps of the part, one constructor per row of spec/opcode_table.json: the 154 native
DN3 forms (R43), the 24 bank-group commands (R284) and the 100 events of the engines, the command
processor, the fabric and the host (95_what_each_step_holds.md).  Native forms carry their operands
decoded; an event carries the identity of the object it happens to and the data the outside brings. -/

namespace Sys2Proof

/-- The type codes 0 to 12 of M[3:0] (R31). -/
inductive Ty
  | i8 | i16 | i32 | i64 | n8 | n16 | n32 | n64 | b32 | b64 | f32 | f16 | bf16
  deriving DecidableEq, Repr

/-- The rounding modes of M[5:4] (R31). -/
inductive Rnd
  | rne | rtz | rup | rdn
  deriving DecidableEq, Repr

/-- The scopes of R76, codes 0 to 5. -/
inductive Scope
  | wave | group | cell | die | device | system
  deriving DecidableEq, Repr

/-- The compare codes of R125. -/
inductive Cmp
  | eq | ne | lt | le
  deriving DecidableEq, Repr

/-- The merge codes of R125. -/
inductive Merge
  | set | andin | orin | dual
  deriving DecidableEq, Repr

/-- The operations of `pbool` (R125, R127). -/
inductive PBool
  | and | or | xor | andn
  deriving DecidableEq, Repr

/-- The operations of `satom`, `atom` and `red`, codes 0 to 8 (R187). -/
inductive AtomOp
  | add | min | max | and | or | xor | exch | cas | fadd
  deriving DecidableEq, Repr

/-- The operations of `wred` and `wscan`, codes 0 to 5 (R164). -/
inductive RedOp
  | add | min | max | and | or | xor
  deriving DecidableEq, Repr

/-- The modes of `shfl` (R162). -/
inductive ShflMode
  | abs | shift | rot | flip
  deriving DecidableEq, Repr

/-- The modes of `vote` (R163). -/
inductive VoteMode
  | all | any | eq | ballot
  deriving DecidableEq, Repr

/-- The kinds of `fence` (R184). -/
inductive FenceKind
  | rel | acq | ar
  deriving DecidableEq, Repr

/-- The order field of `atom` and `red` (R269). -/
inductive AtomOrder
  | none | acq | rel | ar
  deriving DecidableEq, Repr

/-- The forms of `mld` (R205). -/
inductive MldForm
  | a | b | scA | scB
  deriving DecidableEq, Repr

/-- A DST, SA, SB or source C field (R32): the kinds 000 to 110 with the numbers each accepts. -/
inductive Operand
  | v (n : BitVec 8)
  | k (n : BitVec 6)
  | p (n : BitVec 3)
  | sr (n : BitVec 9)
  | imm (x : BitVec 32)
  | acc (n : BitVec 8)
  | none
  deriving DecidableEq, Repr

/-- What every native word carries beside its operands (R29): guard, stall count, flag select, reuse hints. -/
structure Ctl where
  gp : BitVec 3
  gn : Bool
  stall : BitVec 4
  fs : Bool
  ra : Bool
  rb : Bool
  deriving DecidableEq, Repr

/-- A packet a fabric peer sends toward this device (R362 to R380, R390): requests of a peer's copy
engines and the answers to this device's own transfers. -/
inductive Packet
  /-- Bytes of a remote write, to be written at a virtual address (R369). -/
  | write (xfer : Nat) (va : W64) (data : List Byte)
  /-- Words of a remote reduce (R371). -/
  | reduce (xfer : Nat) (rtype : BitVec 2) (va : W64) (data : List Byte)
  /-- A remote read request (R369). -/
  | read (xfer : Nat) (va : W64) (len : Nat)
  /-- A counter increase (R244, R226). -/
  | counter (xfer : Nat) (va : W64)
  /-- The check of a remote reduce's range, or of its counter, before any of its bytes is sent (R244). -/
  | check (xfer : Nat) (va : W64) (len : Nat) (counter : Bool)
  /-- A MODE 1 landing toward a reduction control block (R376 to R379). -/
  | reduction (xfer : Nat) (rcb base : W64) (off : Nat) (data : List Byte)
  /-- A multicast copy of a round's result with its counter (R374, R378). -/
  | multicast (grp : Nat) (va : W64) (data : List Byte) (ctr : W64)
  /-- A member's contribution to a collective instance (R383, R390): tag, instance, digest, source bytes. -/
  | collective (tag inst digest : Nat) (data : List Byte)
  /-- A member's status for an instance that failed there (R390). -/
  | collectiveFail (tag inst : Nat) (status : Nat)
  /-- The answer to a transfer of this device: status of R237, address, data of a read. -/
  | ack (xfer : Nat) (status : Nat) (addr : W64) (data : List Byte)
  /-- A REDIRECT to the new owner of a page (R329). -/
  | redirect (dev : Nat) (va : W64) (owner : Nat)
  /-- Bytes of a page that migrates between devices, toward the frame that the destination's leaf holds for it (R327), and
  whether the page has BS = 1 (R338): no bytes when it asks for the leaf's check, `last` when the leaf takes the page. -/
  | pageCopy (xfer : Nat) (va : W64) (frame : Nat) (bs : Bool) (data : List Byte) (last : Bool)
  /-- CHASE for a transfer of this device (R330). -/
  | chase (xfer : Nat) (dev : Nat) (va : W64)
  deriving DecidableEq, Repr

/-- One step of the part.  The docstring of each constructor names its row's rule. -/
inductive Instr
  /-- R124 -/
  | nop (c : Ctl)
  /-- R119 -/
  | bra (c : Ctl) (u : Bool) (n : BitVec 4) (disp : BitVec 28)
  /-- R119 -/
  | brx (c : Ctl) (u : Bool) (n : BitVec 4) (a : Operand)
  /-- R120 -/
  | call (c : Ctl) (u : Bool) (d : Operand) (disp : BitVec 28)
  /-- R120 -/
  | callx (c : Ctl) (u : Bool) (d a : Operand)
  /-- R119 -/
  | ret (c : Ctl) (u : Bool) (n : BitVec 4) (a : Operand)
  /-- R121 -/
  | exit (c : Ctl)
  /-- R109 -/
  | tokOpen (c : Ctl) (disp : BitVec 28)
  /-- R122 -/
  | tokLeave (c : Ctl) (n : BitVec 4)
  /-- R123 -/
  | rpt (c : Ctl) (a : Operand) (disp : BitVec 28)
  /-- R124 -/
  | yield (c : Ctl)
  /-- R51 -/
  | brk (c : Ctl)
  /-- R124 -/
  | trap (c : Ctl) (code : BitVec 16)
  /-- R126 -/
  | setp (c : Ctl) (ty : Ty) (cmp : Cmp) (mrg : Merge) (d a b e : Operand)
  /-- R126 -/
  | fsetp (c : Ctl) (ty : Ty) (cmp : Cmp) (mrg : Merge) (d a b e : Operand)
  /-- R127 -/
  | pbool (c : Ctl) (op : PBool) (d a b : Operand)
  /-- R128 -/
  | pmovSave (c : Ctl) (d : Operand)
  /-- R128 -/
  | pmovLoad (c : Ctl) (a : Operand) (mask : BitVec 7)
  /-- R130 -/
  | getsr (c : Ctl) (ty : Ty) (w : BitVec 2) (d : Operand) (sr : BitVec 9)
  /-- R130 -/
  | setsr (c : Ctl) (ty : Ty) (w : BitVec 2) (sr : BitVec 9) (a : Operand)
  /-- R138 -/
  | mov (c : Ctl) (ty : Ty) (one : Bool) (d a : Operand)
  /-- R138 -/
  | movi (c : Ctl) (ty : Ty) (one : Bool) (d : Operand) (x : BitVec 32)
  /-- R139 -/
  | add (c : Ctl) (ty : Ty) (sat : Bool) (d a b : Operand)
  /-- R139 -/
  | sub (c : Ctl) (ty : Ty) (sat : Bool) (d a b : Operand)
  /-- R139 -/
  | mul (c : Ctl) (ty : Ty) (sat : Bool) (d a b : Operand)
  /-- R139 -/
  | mulhi (c : Ctl) (ty : Ty) (d a b : Operand)
  /-- R139 -/
  | mad (c : Ctl) (ty : Ty) (sat : Bool) (d a b e : Operand)
  /-- R140 -/
  | addc (c : Ctl) (ci co : BitVec 3) (d a b : Operand)
  /-- R140 -/
  | subb (c : Ctl) (ci co : BitVec 3) (d a b : Operand)
  /-- R141 -/
  | abs (c : Ctl) (ty : Ty) (sat : Bool) (d a : Operand)
  /-- R141 -/
  | min (c : Ctl) (ty : Ty) (d a b : Operand)
  /-- R141 -/
  | max (c : Ctl) (ty : Ty) (d a b : Operand)
  /-- R142 -/
  | and (c : Ctl) (ty : Ty) (d a b : Operand)
  /-- R142 -/
  | or (c : Ctl) (ty : Ty) (d a b : Operand)
  /-- R142 -/
  | xor (c : Ctl) (ty : Ty) (d a b : Operand)
  /-- R142 -/
  | not (c : Ctl) (ty : Ty) (d a : Operand)
  /-- R143 -/
  | shl (c : Ctl) (ty : Ty) (d a b : Operand)
  /-- R143 -/
  | shr (c : Ctl) (ty : Ty) (d a b : Operand)
  /-- R143 -/
  | sra (c : Ctl) (ty : Ty) (d a b : Operand)
  /-- R143 -/
  | rot (c : Ctl) (ty : Ty) (d a b : Operand)
  /-- R144 -/
  | bfe (c : Ctl) (ty : Ty) (d a b : Operand)
  /-- R144 -/
  | bfi (c : Ctl) (d a b e : Operand)
  /-- R145 -/
  | popc (c : Ctl) (ty : Ty) (d a : Operand)
  /-- R145 -/
  | clz (c : Ctl) (ty : Ty) (d a : Operand)
  /-- R145 -/
  | brev (c : Ctl) (ty : Ty) (d a : Operand)
  /-- R146 -/
  | prmt (c : Ctl) (d a b e : Operand)
  /-- R147 -/
  | sel (c : Ctl) (ty : Ty) (d a b e : Operand)
  /-- R147 -/
  | lea (c : Ctl) (ty : Ty) (sh : BitVec 2) (d a b : Operand)
  /-- R148 -/
  | dp4 (c : Ctl) (ty : Ty) (sat xb : Bool) (d a b e : Operand)
  /-- R149 -/
  | mix32 (c : Ctl) (d a b : Operand)
  /-- R151 -/
  | fadd (c : Ctl) (ty : Ty) (rnd : Rnd) (d a b : Operand)
  /-- R151 -/
  | fsub (c : Ctl) (ty : Ty) (rnd : Rnd) (d a b : Operand)
  /-- R151 -/
  | fmul (c : Ctl) (ty : Ty) (rnd : Rnd) (d a b : Operand)
  /-- R151 -/
  | ffma (c : Ctl) (ty : Ty) (rnd : Rnd) (d a b e : Operand)
  /-- R152 -/
  | fmin (c : Ctl) (ty : Ty) (d a b : Operand)
  /-- R152 -/
  | fmax (c : Ctl) (ty : Ty) (d a b : Operand)
  /-- R152 -/
  | fclamp (c : Ctl) (ty : Ty) (d a b e : Operand)
  /-- R153 -/
  | frnd (c : Ctl) (ty : Ty) (rnd : Rnd) (d a : Operand)
  /-- R153 -/
  | fclass (c : Ctl) (ty : Ty) (d a : Operand)
  /-- R154 -/
  | lg2 (c : Ctl) (d a : Operand)
  /-- R154 -/
  | ex2 (c : Ctl) (d a : Operand)
  /-- R154 -/
  | rcp (c : Ctl) (d a : Operand)
  /-- R154 -/
  | rsq (c : Ctl) (d a : Operand)
  /-- R154 -/
  | sqrt (c : Ctl) (d a : Operand)
  /-- R155 -/
  | hadd2 (c : Ctl) (d a b : Operand)
  /-- R155 -/
  | hmul2 (c : Ctl) (d a b : Operand)
  /-- R155 -/
  | hfma2 (c : Ctl) (d a b e : Operand)
  /-- R155 -/
  | hmax2 (c : Ctl) (d a b : Operand)
  /-- R156 -/
  | cvt (c : Ctl) (dty : Ty) (rnd : Rnd) (sat : Bool) (sty : BitVec 4) (f19 : Bool) (d a b : Operand)
  /-- R157 -/
  | pack (c : Ctl) (rnd : Rnd) (sat : Bool) (fmt : BitVec 4) (hi : Bool) (d a b e : Operand)
  /-- R158 -/
  | unpk (c : Ctl) (ty : Ty) (fmt : BitVec 4) (el : BitVec 3) (d a : Operand)
  /-- R160 -/
  | qswap (c : Ctl) (ty : Ty) (pat : BitVec 2) (d a : Operand)
  /-- R160 -/
  | qbcast (c : Ctl) (ty : Ty) (pos : BitVec 2) (d a : Operand)
  /-- R162 -/
  | shfl (c : Ctl) (ty : Ty) (mode : ShflMode) (seg : BitVec 3) (koff : BitVec 6) (d a b e : Operand)
  /-- R163 -/
  | vote (c : Ctl) (mode : VoteMode) (d a b : Operand)
  /-- R163 -/
  | matchv (c : Ctl) (ty : Ty) (d a b : Operand)
  /-- R164 -/
  | wred (c : Ctl) (ty : Ty) (rnd : Rnd) (op : RedOp) (d a b : Operand)
  /-- R165 -/
  | wmaxi (c : Ctl) (ty : Ty) (d a b e : Operand)
  /-- R164 -/
  | wscan (c : Ctl) (ty : Ty) (rnd : Rnd) (op : RedOp) (excl : Bool) (d a b : Operand)
  /-- R163 -/
  | elect (c : Ctl) (d a : Operand)
  /-- R173 -/
  | ld (c : Ctl) (ty : Ty) (acq : Bool) (scope : Scope) (fresh nf : Bool) (vec : BitVec 2) (d a b : Operand) (off : BitVec 12)
  /-- R173 -/
  | st (c : Ctl) (ty : Ty) (rel : Bool) (scope : Scope) (vec : BitVec 2) (a b : Operand) (off : BitVec 12)
  /-- R173 -/
  | lds (c : Ctl) (ty : Ty) (vec : BitVec 2) (d a : Operand) (off : BitVec 12)
  /-- R173 -/
  | sts (c : Ctl) (ty : Ty) (vec : BitVec 2) (a b : Operand) (off : BitVec 12)
  /-- R177 -/
  | ldk (c : Ctl) (ty : Ty) (one sp : Bool) (vec : BitVec 2) (d a : Operand) (off : BitVec 12)
  /-- R178 -/
  | gather (c : Ctl) (ty : Ty) (fresh bs : Bool) (cnt : BitVec 6) (d a b : Operand) (off : BitVec 12)
  /-- R179 -/
  | ldblk (c : Ctl) (sp fresh : Bool) (cnt : BitVec 6) (d a : Operand) (off : BitVec 12)
  /-- R181 -/
  | prefetch (c : Ctl) (l1 : Bool) (a : Operand) (off : BitVec 12)
  /-- R182 -/
  | discard (c : Ctl) (line : Bool) (a : Operand) (off : BitVec 12)
  /-- R183 -/
  | l1inv (c : Ctl)
  /-- R184 -/
  | fence (c : Ctl) (kind : FenceKind) (scope : Scope)
  /-- R87 -/
  | xfence (c : Ctl) (p q : BitVec 7) (scope : Scope)
  /-- R188 -/
  | satom (c : Ctl) (ty : Ty) (op : AtomOp) (d a b e : Operand) (off : BitVec 12)
  /-- R189 -/
  | mwait (c : Ctl) (ty : Ty) (acq : Bool) (scope : Scope) (d a b : Operand) (off : BitVec 12)
  /-- R192 -/
  | qinit (c : Ctl) (a b : Operand) (off : BitVec 12)
  /-- R193 -/
  | qpush (c : Ctl) (once : Bool) (d a b : Operand) (off : BitVec 12)
  /-- R193 -/
  | qpop (c : Ctl) (once : Bool) (d a b : Operand) (off : BitVec 12)
  /-- R196 -/
  | barrInit (c : Ctl) (a b : Operand) (off : BitVec 12)
  /-- R196 -/
  | barrArrive (c : Ctl) (chk : Bool) (a b : Operand) (off : BitVec 12)
  /-- R196 -/
  | barrExpect (c : Ctl) (a b : Operand) (off : BitVec 12)
  /-- R197 -/
  | barrWait (c : Ctl) (d a b : Operand) (off : BitVec 12)
  /-- R197 -/
  | barrQuery (c : Ctl) (d a : Operand) (off : BitVec 12)
  /-- R271 -/
  | atom (c : Ctl) (ty : Ty) (op : AtomOp) (order : AtomOrder) (scope : Scope) (d a b e : Operand) (off : BitVec 12)
  /-- R271 -/
  | red (c : Ctl) (ty : Ty) (op : AtomOp) (order : AtomOrder) (scope : Scope) (a b : Operand) (off : BitVec 12)
  /-- R275 -/
  | acall (c : Ctl) (routine : BitVec 2) (args : BitVec 3) (res : BitVec 3) (d a b : Operand) (off : BitVec 12)
  /-- R214 -/
  | mma (c : Ctl) (d a b e : Operand)
  /-- R215 -/
  | mmp (c : Ctl) (d a b e : Operand)
  /-- R221 -/
  | mld (c : Ctl) (form : MldForm) (d a b e : Operand)
  /-- R206 -/
  | aalloc (c : Ctl) (pair : Bool) (d a : Operand)
  /-- R207 -/
  | awin (c : Ctl) (a b e : Operand)
  /-- R208 -/
  | afree (c : Ctl) (a : Operand)
  /-- R220 -/
  | azero (c : Ctl) (rows : BitVec 4) (d : Operand)
  /-- R220 -/
  | ald (c : Ctl) (first cnt : BitVec 4) (d a : Operand)
  /-- R220 -/
  | ast (c : Ctl) (first cnt : BitVec 4) (d a : Operand)
  /-- R224 -/
  | mret (c : Ctl) (rows : BitVec 4) (sp : Bool) (a b e : Operand)
  /-- R226 -/
  | mretRoute (c : Ctl) (rows : BitVec 4) (route : BitVec 2) (a b e : Operand)
  /-- R222 -/
  | epcfg (c : Ctl) (a b e : Operand)
  /-- R258 -/
  | ckick (c : Ctl) (a : Operand) (off : BitVec 12)
  /-- R259 -/
  | cpoll (c : Ctl) (d a : Operand) (off : BitVec 12)
  /-- R260 -/
  | cntw (c : Ctl) (d a b : Operand) (off : BitVec 12)
  /-- R261 -/
  | cnta (c : Ctl) (a b : Operand) (off : BitVec 12)
  /-- R262 -/
  | trec (c : Ctl) (a b : Operand)
  /-- R309 -/
  | bgload (c : Ctl) (d a : Operand) (off : BitVec 12)
  /-- R310 -/
  | bgx (c : Ctl) (a : Operand) (off : BitVec 12)
  /-- R305 -/
  | bfence (c : Ctl) (a : Operand)
  /-- R312 -/
  | bgwait (c : Ctl) (d a : Operand) (off : BitVec 12)
  /-- R313 -/
  | bgstatEng (c : Ctl) (d a : Operand)
  /-- R313 -/
  | bgstatRmap (c : Ctl) (d a : Operand)
  /-- R337 -/
  | pgreq (c : Ctl) (w : Bool) (d a : Operand) (off : BitVec 12)
  /-- R338 -/
  | pgmig (c : Ctl) (d a b : Operand)
  /-- R339 -/
  | tlbinvPage (c : Ctl) (a b : Operand)
  /-- R339 -/
  | tlbinvAll (c : Ctl)
  /-- R340 -/
  | pocinvPage (c : Ctl) (a b : Operand)
  /-- R340 -/
  | pocinvAll (c : Ctl)
  /-- R347 -/
  | rcall (c : Ctl) (l2 again : Bool) (cnt : BitVec 4) (m : BitVec 5) (d a b e : Operand)
  /-- R353 -/
  | rwait (c : Ctl) (d : Operand)
  /-- R352 -/
  | rret (c : Ctl)
  /-- R354 -/
  | rstat (c : Ctl) (l2 : Bool) (d a : Operand)
  /-- R389 -/
  | cplan (c : Ctl) (d a : Operand) (off : BitVec 12)
  /-- R390 -/
  | cgo (c : Ctl) (a : Operand)
  /-- R391 -/
  | cwait (c : Ctl) (d a : Operand)
  /-- R392 -/
  | netslot (c : Ctl) (d a : Operand) (off : BitVec 12)
  /-- R392 -/
  | netslotOff (c : Ctl) (d : Operand)
  /-- R428 -/
  | spawn (c : Ctl) (q : BitVec 2) (a : Operand)
  /-- R429 -/
  | jwait (c : Ctl) (d a : Operand) (off : BitVec 12)
  /-- R430 -/
  | rfe (c : Ctl)
  /-- R430 -/
  | halt (c : Ctl) (code : BitVec 16)
  /-- R431 -/
  | sleep (c : Ctl) (a : Operand)
  /-- R432 -/
  | dlset (c : Ctl) (a : Operand)
  /-- R433 -/
  | qend (c : Ctl)
  /-- R433 -/
  | qsync (c : Ctl)
  /-- R434 -/
  | pwrq (c : Ctl) (d : Operand)
  /-- R435 -/
  | crd (c : Ctl) (ty : Ty) (d a : Operand)
  /-- R435 -/
  | cwr (c : Ctl) (ty : Ty) (a b : Operand)
  /-- R284 -/
  | bgEnd
  /-- R284 -/
  | bgOpen (bm : BitVec 4) (x : BitVec 3) (i : BitVec 16)
  /-- R284 -/
  | bgClose (bm : BitVec 4)
  /-- R284 -/
  | bgRd (bm : BitVec 4) (x : BitVec 3) (i : BitVec 16)
  /-- R285 -/
  | bgMac (bm : BitVec 4) (as : BitVec 2) (f : Bool)
  /-- R285 -/
  | bgRmac (bm : BitVec 4) (x : BitVec 3) (as : BitVec 2) (f : Bool) (i : BitVec 16)
  /-- R285 -/
  | bgAdd (bm : BitVec 4) (as : BitVec 2)
  /-- R285 -/
  | bgMax (bm : BitVec 4) (as : BitVec 2)
  /-- R285 -/
  | bgScale (bm : BitVec 4) (as : BitVec 2) (i : BitVec 16)
  /-- R284 -/
  | bgScaleScl (x : BitVec 3) (i : BitVec 16)
  /-- R286 -/
  | bgWr (bm : BitVec 4) (x : BitVec 3) (as : BitVec 2) (f : Bool) (i : BitVec 16)
  /-- R284 -/
  | bgZero (bm : BitVec 4) (as : BitVec 2)
  /-- R284 -/
  | bgLdx (x : BitVec 3) (i : BitVec 23)
  /-- R284 -/
  | bgAddx (x : BitVec 3) (i : BitVec 23)
  /-- R287 -/
  | bgLoop (x : BitVec 3) (i : BitVec 23)
  /-- R287 -/
  | bgNext
  /-- R284 -/
  | bgBnz (x : BitVec 3) (t : BitVec 8)
  /-- R284 -/
  | bgVld (bm : BitVec 4) (x : BitVec 3) (i : BitVec 16)
  /-- R290 -/
  | bgSync
  /-- R287 -/
  | bgBtl (d src : BitVec 3) (o : BitVec 8)
  /-- R291 -/
  | bgAttn (x : BitVec 3) (as : BitVec 2) (i : BitVec 16)
  /-- R286 -/
  | bgEmit (x : BitVec 3) (as : BitVec 2) (f : Bool) (i : BitVec 16)
  /-- R287 -/
  | bgIdx (d src : BitVec 3) (o : BitVec 8)
  /-- R284 -/
  | bgNopc
  /-- R43: the word -/
  | unassignedOpcode (w : W96)
  /-- R288: the command word -/
  | unassignedCommandCode (w : W32)
  /-- R39: the pending operation whose result lands -/
  | longLatencyCompletion (op : Nat)
  /-- R81: the store queue entry that drains -/
  | storeReachesVisibility (entry : Nat)
  /-- R216 -/
  | matrixOpCommit (op : Nat)
  /-- R231: the core whose request engine fetches -/
  | requestEngineFetch (core : Nat)
  /-- R238: the request in flight -/
  | linearCopy (req : Nat)
  /-- R239: the request in flight -/
  | tensorCopy (req : Nat)
  /-- R240: the request in flight -/
  | gatherRequest (req : Nat)
  /-- R241: the request in flight -/
  | scatterAdd (req : Nat)
  /-- R242: the request in flight -/
  | layoutTransform (req : Nat)
  /-- R243: the request in flight -/
  | fill (req : Nat)
  /-- R244: the request in flight -/
  | remoteRead (req : Nat)
  /-- R244: the request in flight -/
  | remoteWrite (req : Nat)
  /-- R371: the request in flight -/
  | remoteReduce (req : Nat)
  /-- R245, R383: the collective instance -/
  | collectiveStep (inst : Nat)
  /-- R245 -/
  | barrierSignal (req : Nat)
  /-- R254: the request and which of its pieces lands -/
  | copyLanding (req : Nat) (piece : Nat)
  /-- R244, R226: the pending increase -/
  | counterIncrease (id : Nat)
  /-- R254 -/
  | copyRetire (req : Nat)
  /-- R271: the queued operation -/
  | atOperation (op : Nat)
  /-- R275: the queued call -/
  | acallRoutine (op : Nat)
  /-- R293: the bank queue, 0 to 3 -/
  | bankQueueTake (q : Nat)
  /-- R296 -/
  | bankLaunchAdmission (l : Nat)
  /-- R309 -/
  | storeLoadDispatch (l : Nat)
  /-- R302 -/
  | bankReexecution (l inst : Nat)
  /-- R292 -/
  | attentionMerge (l : Nat)
  /-- R297 -/
  | bankCompletion (l : Nat)
  /-- R300: the dirty L2 sector whose writeback arrives -/
  | coreAccessArrives (sector : Nat)
  /-- R326 -/
  | migrationStart (m : Nat)
  /-- R326 -/
  | migrationPassEnd (m : Nat)
  /-- R326 -/
  | migrationSwitch (m : Nat)
  /-- R329: the pending access at the stub -/
  | stubForward (op : Nat)
  /-- R329: the pending redirect -/
  | redirect (id : Nat)
  /-- R330 -/
  | chase (op : Nat)
  /-- R333 -/
  | stubReclaimQuery (stub die : Nat)
  /-- R333 -/
  | stubReclaimReply (stub : Nat)
  /-- R358 -/
  | rcallArrival (call : Nat)
  /-- R349 -/
  | calleeStart (call : Nat)
  /-- R347 -/
  | rcallReply (call : Nat)
  /-- R357 -/
  | rcallTimeout (call : Nat)
  /-- R358 -/
  | dedupEntryExpiry (entry : Nat)
  /-- R372 -/
  | fabricTransferTimeout (xfer : Nat)
  /-- R373 -/
  | rateTableRecovery (rank : Nat)
  /-- R379: the landing that waits at the interface -/
  | reductionLanding (id : Nat)
  /-- R391 -/
  | collectiveInstanceComplete (inst : Nat)
  /-- R393 -/
  | networkFrameBoundary
  /-- R402: the compute queue whose head is taken -/
  | launchRecordCheck (q : Nat)
  /-- R403 -/
  | groupRange (q : Nat)
  /-- R424 -/
  | resumptionRecord (q : Nat)
  /-- R398: copy queue 4 or 5 -/
  | copyQueueRequest (q : Nat)
  /-- R404 -/
  | cellPlacement (part : Nat)
  /-- R407 -/
  | groupEnd (grp : Nat)
  /-- R407 -/
  | launchCompletion (l : Nat)
  /-- R413 -/
  | deadlineExpiry (l : Nat)
  /-- R417 -/
  | groupQuiet (grp : Nat)
  /-- R417 -/
  | handlerStart (part : Nat)
  /-- R418 -/
  | handlerReservation (part : Nat)
  /-- R420 -/
  | preemptDrainComplete (part : Nat)
  /-- R92 -/
  | quantumCommitStart (l : Nat)
  /-- R92 -/
  | quantumCommitComplete (l : Nat)
  /-- R197 -/
  | barrWaitLimit (op : Nat)
  /-- R190 -/
  | mwaitRecompare (op : Nat)
  /-- R431 -/
  | sleepExpiry (grp tid : Nat)
  /-- R448 -/
  | atsTranslationCompletion (addr : Nat)
  /-- R410: partition and its measured power in milliwatts -/
  | grantWindow (part measured : Nat)
  /-- R324 -/
  | pageRequestRingWrite
  /-- R412 -/
  | errorRecordWrite
  /-- R373 -/
  | congestionNotice (rank : Nat)
  /-- R368: sender, plane, content -/
  | fabricPacketArrival (src plane : Nat) (pkt : Packet)
  /-- R363 -/
  | portTraining (port lanes : Nat)
  /-- R451 -/
  | moduleReset
  /-- R4 -/
  | pcieFundamentalReset
  /-- R447 -/
  | bar2Access (write : Bool) (off len : Nat) (data : List Byte)
  /-- R448 -/
  | atsInvalidation (addr : Nat)
  /-- R453: the sensor bits that left their band -/
  | alarmLevel1 (sensor : BitVec 6)
  /-- R453 -/
  | alarmLevel2 (sensor : BitVec 6)
  /-- R455 -/
  | softErrorCorrected (src : BitVec 16) (cls : BitVec 8) (pa : W64)
  /-- R455 -/
  | uncorrectableError (src : BitVec 16) (cls : BitVec 8) (pa : W64)
  /-- R443: the object and where its sections are mapped -/
  | codeObjectLoad (obj : List Byte) (text data : W64)
  /-- R230 -/
  | coreKick (core : Nat) (v : W64)
  /-- R399 -/
  | cpPush (q : Nat) (v : W32)
  /-- R325 -/
  | prDone (v : W32)
  /-- R325 -/
  | prSize (v : W32)
  /-- R420 -/
  | partCmdPreempt (n : Nat)
  /-- R419 -/
  | partCmdResume (n : Nat)
  /-- R417 -/
  | partCmdAbort (n : Nat)
  /-- R420 -/
  | partCmdResumePlacing (n : Nat)
  /-- R404 -/
  | partRect (n : Nat) (v : W32)
  /-- R418 -/
  | partHandler (n : Nat) (v : W64)
  /-- R409 -/
  | paShares (n : Nat) (v : W32)
  /-- R409 -/
  | paBank (v : W32)
  /-- R411 -/
  | paTableid (v : W64)
  /-- R365 -/
  | fabId (v : W32)
  /-- R366 -/
  | fabCtl (v : W32)
  /-- R365 -/
  | fabRoot (v : W64)
  /-- R450 -/
  | dbgCtl (v : W32)
  /-- R451 -/
  | bootCmd (v : W32)
  /-- R452 -/
  | attCmd (v : W64)
  /-- R3: 64-bit or 32-bit access, BAR0 offset, value -/
  | registerWrite (wide : Bool) (off : Nat) (v : W64)
  deriving DecidableEq, Repr

end Sys2Proof
end

