-- ==== Sys2Proof/WellFormed.lean ====
section
/-! DEFINITION. Which steps are well formed: for a native form, every encoding limit of R30 to R42 and of
the instruction's own encoding table that the word alone decides.  What depends on the launch (registers per
thread, valid flag sets, privilege) is checked where the instruction issues. -/

set_option linter.unusedVariables false

namespace Sys2Proof

/-! Codes of the fields (R31, R76, R117, R125, R162 to R164, R171, R187, R205, R269). -/

def Ty.code : Ty → BitVec 4
  | .i8 => 0 | .i16 => 1 | .i32 => 2 | .i64 => 3 | .n8 => 4 | .n16 => 5 | .n32 => 6 | .n64 => 7
  | .b32 => 8 | .b64 => 9 | .f32 => 10 | .f16 => 11 | .bf16 => 12

def Ty.ofCode (x : BitVec 4) : Option Ty :=
  match x.toNat with
  | 0 => some .i8 | 1 => some .i16 | 2 => some .i32 | 3 => some .i64
  | 4 => some .n8 | 5 => some .n16 | 6 => some .n32 | 7 => some .n64
  | 8 => some .b32 | 9 => some .b64 | 10 => some .f32 | 11 => some .f16 | 12 => some .bf16
  | _ => none

def Rnd.code : Rnd → BitVec 2 | .rne => 0 | .rtz => 1 | .rup => 2 | .rdn => 3
def Rnd.ofCode (x : BitVec 2) : Rnd :=
  match x.toNat with | 0 => .rne | 1 => .rtz | 2 => .rup | _ => .rdn

def Scope.code : Scope → BitVec 3
  | .wave => 0 | .group => 1 | .cell => 2 | .die => 3 | .device => 4 | .system => 5
def Scope.ofCode (x : BitVec 3) : Option Scope :=
  match x.toNat with
  | 0 => some .wave | 1 => some .group | 2 => some .cell | 3 => some .die | 4 => some .device | 5 => some .system
  | _ => none

def Cmp.code : Cmp → BitVec 2 | .eq => 0 | .ne => 1 | .lt => 2 | .le => 3
def Cmp.ofCode (x : BitVec 2) : Cmp := match x.toNat with | 0 => .eq | 1 => .ne | 2 => .lt | _ => .le

def Merge.code : Merge → BitVec 2 | .set => 0 | .andin => 1 | .orin => 2 | .dual => 3
def Merge.ofCode (x : BitVec 2) : Merge := match x.toNat with | 0 => .set | 1 => .andin | 2 => .orin | _ => .dual

def PBool.code : PBool → BitVec 2 | .and => 0 | .or => 1 | .xor => 2 | .andn => 3
def PBool.ofCode (x : BitVec 2) : PBool := match x.toNat with | 0 => .and | 1 => .or | 2 => .xor | _ => .andn

def AtomOp.code : AtomOp → BitVec 4
  | .add => 0 | .min => 1 | .max => 2 | .and => 3 | .or => 4 | .xor => 5 | .exch => 6 | .cas => 7 | .fadd => 8
def AtomOp.ofCode (x : BitVec 4) : Option AtomOp :=
  match x.toNat with
  | 0 => some .add | 1 => some .min | 2 => some .max | 3 => some .and | 4 => some .or | 5 => some .xor
  | 6 => some .exch | 7 => some .cas | 8 => some .fadd | _ => none

def RedOp.code : RedOp → BitVec 3 | .add => 0 | .min => 1 | .max => 2 | .and => 3 | .or => 4 | .xor => 5
def RedOp.ofCode (x : BitVec 3) : Option RedOp :=
  match x.toNat with
  | 0 => some .add | 1 => some .min | 2 => some .max | 3 => some .and | 4 => some .or | 5 => some .xor | _ => none

def ShflMode.code : ShflMode → BitVec 2 | .abs => 0 | .shift => 1 | .rot => 2 | .flip => 3
def ShflMode.ofCode (x : BitVec 2) : ShflMode := match x.toNat with | 0 => .abs | 1 => .shift | 2 => .rot | _ => .flip

def VoteMode.code : VoteMode → BitVec 2 | .all => 0 | .any => 1 | .eq => 2 | .ballot => 3
def VoteMode.ofCode (x : BitVec 2) : VoteMode := match x.toNat with | 0 => .all | 1 => .any | 2 => .eq | _ => .ballot

def FenceKind.code : FenceKind → BitVec 2 | .rel => 0 | .acq => 1 | .ar => 2
def FenceKind.ofCode (x : BitVec 2) : Option FenceKind :=
  match x.toNat with | 0 => some .rel | 1 => some .acq | 2 => some .ar | _ => none

def AtomOrder.code : AtomOrder → BitVec 2 | .none => 0 | .acq => 1 | .rel => 2 | .ar => 3
def AtomOrder.ofCode (x : BitVec 2) : AtomOrder := match x.toNat with | 0 => .none | 1 => .acq | 2 => .rel | _ => .ar

def MldForm.code : MldForm → BitVec 2 | .a => 0 | .b => 1 | .scA => 2 | .scB => 3
def MldForm.ofCode (x : BitVec 2) : MldForm := match x.toNat with | 0 => .a | 1 => .b | 2 => .scA | _ => .scB

/-! Types by the sets the encoding tables name. -/

def Ty.wide : Ty → Bool
  | .i64 | .n64 | .b64 => true
  | _ => false
def Ty.isFloat : Ty → Bool
  | .f32 | .f16 | .bf16 => true
  | _ => false
def Ty.isB : Ty → Bool
  | .b32 | .b64 => true
  | _ => false
def Ty.isInt (t : Ty) : Bool := !t.isFloat
def Ty.isNum (t : Ty) : Bool := t.isInt && !t.isB
def Ty.signOk (t : Ty) : Bool := !t.isB
def Ty.isHs : Ty → Bool
  | .f32 | .f16 => true
  | _ => false
def Ty.isSigned : Ty → Bool
  | .i8 | .i16 | .i32 | .i64 => true
  | _ => false
/-- Element width in bits (R172). -/
def Ty.bits : Ty → Nat
  | .i8 | .n8 => 8
  | .i16 | .n16 | .f16 | .bf16 => 16
  | .i32 | .n32 | .b32 | .f32 => 32
  | .i64 | .n64 | .b64 => 64

/-! Special registers (R37). -/

/-- Width of an assigned special register, none for an unassigned number. -/
def srWidth (n : BitVec 9) : Option Nat :=
  match n.toNat with
  | 0x000 | 0x001 | 0x002 | 0x003 | 0x005 | 0x006 | 0x007 | 0x008 | 0x009 | 0x00A => some 32
  | 0x004 | 0x010 | 0x011 => some 64
  | 0x018 | 0x019 | 0x01A => some 32
  | 0x01B => some 64
  | 0x020 | 0x021 | 0x022 | 0x023 => some 32
  | 0x028 | 0x029 | 0x02A | 0x02B => some 128
  | 0x030 => some 32
  | 0x031 | 0x032 => some 64
  | 0x100 | 0x101 | 0x102 | 0x103 => some 64
  | 0x104 | 0x105 | 0x106 | 0x107 => some 32
  | _ => none

/-- The registers marked W in R37. -/
def srWritable (n : BitVec 9) : Bool :=
  (0x28 ≤ n.toNat && n.toNat ≤ 0x2B) || n = 0x31 || (0x100 ≤ n.toNat && n.toNat ≤ 0x107)

/-- The word and type combinations of R130. -/
def srWord (ty : Ty) (w : BitVec 2) (n : BitVec 9) : Bool :=
  match srWidth n with
  | some 32 => ty == .b32 && w = 0
  | some 64 => (ty == .b64 && w = 0) || (ty == .b32 && w.toNat < 2)
  | some 128 => ty == .b32
  | _ => false

/-! Operand kinds (R32, R34, R134). -/

def Operand.isV : Operand → Bool | .v _ => true | _ => false
def Operand.isP : Operand → Bool | .p _ => true | _ => false
def Operand.isNone : Operand → Bool | .none => true | _ => false
def Operand.isImm : Operand → Bool | .imm _ => true | _ => false
def Operand.isAcc : Operand → Bool | .acc _ => true | _ => false
/-- Kind 000, an even register. -/
def Operand.evenV : Operand → Bool | .v n => n.toNat % 2 == 0 | _ => false
def Operand.quadV : Operand → Bool | .v n => n.toNat % 4 == 0 | _ => false
def Operand.isVK : Operand → Bool | .v _ | .k _ => true | _ => false
def Operand.evenVK : Operand → Bool | .v n => n.toNat % 2 == 0 | .k n => n.toNat % 2 == 0 | _ => false
/-- Kind 000, `n` registers from it within v0 to v255. -/
def Operand.spanV (n : Nat) : Operand → Bool | .v x => x.toNat + n ≤ 256 | _ => false
/-- A vector destination of a type: even for a pair (R32). -/
def Operand.dst (t : Ty) (o : Operand) : Bool := if t.wide then o.evenV else o.isV
/-- Source shorthand r: kinds 000, 001 and 011, pairs even, an assigned special register (R134, R37). -/
def Operand.srcR (t : Ty) : Operand → Bool
  | .v n => !t.wide || n.toNat % 2 == 0
  | .k n => !t.wide || n.toNat % 2 == 0
  | .sr n => (srWidth n).isSome
  | _ => false
/-- Source shorthand ri: r, or an immediate (R134). -/
def Operand.srcOf (t : Ty) (o : Operand) : Bool := o.isImm || o.srcR t
/-- Data operand of a store or atomic: kinds 000, 001 and 011 (R171, R269). -/
def Operand.data (t : Ty) (o : Operand) : Bool := o.srcR t

def Operand.srNo : Operand → Option (BitVec 9) | .sr n => Option.some n | _ => Option.none

/-! Per-instruction limits. -/

/-- A fixed-latency form holds FS = 0 (R39). -/
def fixed (c : Ctl) : Bool := !c.fs
/-- The guard of the gathered and quad forms (R30). -/
def always (c : Ctl) : Bool := c.gp = 7 && !c.gn
def oneImm (a b : Operand) : Bool := !(a.isImm && b.isImm)
/-- C is a predicate exactly for `.dual`, and names another predicate than the destination, pt apart (R125, R126). -/
def dualOk (m : Merge) (d e : Operand) : Bool :=
  if m == .dual then e.isP && (d != e || d == .p 7) else e.isNone
/-- `.one` exactly with a uniform destination (R138). -/
def destOne (one : Bool) (t : Ty) : Operand → Bool
  | .v n => !one && (!t.wide || n.toNat % 2 == 0)
  | .k n => one && (!t.wide || n.toNat % 2 == 0)
  | _ => false
def cvtSrcOk (s : BitVec 4) : Bool := s.toNat < 15 && s.toNat != 8 && s.toNat != 9
def cvtWide (s : BitVec 4) : Bool := s.toNat == 3 || s.toNat == 7
/-- R158. -/
def unpkOk (t : Ty) (fmt : BitVec 4) (el : BitVec 3) : Bool :=
  match fmt.toNat with
  | 0 | 1 => t == .f32 && el.toNat < 2
  | 3 | 4 | 5 => t == .f32 && el.toNat < 4
  | 10 | 11 | 14 => t == .f32
  | 12 => t == .i32 && el.toNat < 4
  | 13 => t == .i32
  | 15 => t == .n32 && el.toNat < 4
  | _ => false
/-- R159, R164. -/
def redOk (t : Ty) (r : Rnd) (op : RedOp) : Bool :=
  (match op with
    | .add | .min | .max => t == .i32 || t == .n32 || t == .f32
    | _ => t == .b32) && (r == .rne || (t == .f32 && op == .add))
/-- R172. -/
def vecCount (v : BitVec 2) : Nat := match v.toNat with | 0 => 1 | 1 => 2 | _ => 4
def vecOk (t : Ty) (v : BitVec 2) : Bool :=
  v.toNat < 3 && (v = 0 || (32 ≤ t.bits && vecCount v * t.bits ≤ 128))
/-- Data registers of a typed access (R172). -/
def vecRegs (t : Ty) (v : BitVec 2) : Nat := (vecCount v * t.bits + 31) / 32
def Operand.dstVec (t : Ty) (v : BitVec 2) : Operand → Bool
  | .v n => n.toNat % vecRegs t v == 0
  | _ => false
def Operand.dstVecK (t : Ty) (v : BitVec 2) : Operand → Bool
  | .k n => n.toNat % vecRegs t v == 0 && n.toNat + vecRegs t v ≤ 64
  | _ => false
def Operand.dataVec (t : Ty) (v : BitVec 2) : Operand → Bool
  | .v n => n.toNat % vecRegs t v == 0
  | .k n => n.toNat % vecRegs t v == 0 && n.toNat + vecRegs t v ≤ 64
  | .sr n => v = 0 && (srWidth n).isSome
  | _ => false
def overlaps (a n b m : Nat) : Bool := a < b + m && b < a + n
/-- R178. -/
def gatherOk (t : Ty) (cnt : BitVec 6) (d a b : Operand) : Bool :=
  match d, b with
  | .v dn, .v bn =>
    let n := cnt.toNat + 1
    let dr := if t.wide then 2 * n else n
    (!t.wide || (dn.toNat % 2 == 0 && n ≤ 32)) && dn.toNat + dr ≤ 256 && bn.toNat + n ≤ 256 &&
      !overlaps dn.toNat dr bn.toNat n &&
      (match a with
        | .v an => !overlaps an.toNat 2 dn.toNat dr && !overlaps an.toNat 2 bn.toNat n
        | _ => true)
  | _, _ => false
/-- R179. -/
def ldblkOk (sp : Bool) (cnt : BitVec 6) (d a : Operand) : Bool :=
  match d with
  | .v dn => dn.toNat + (cnt.toNat + 1) ≤ 256 &&
      (match a with
        | .v an => !overlaps an.toNat (if sp then 1 else 2) dn.toNat (cnt.toNat + 1)
        | _ => true)
  | _ => false
/-- The pairings of R187. -/
def atomTyOk (t : Ty) (op : AtomOp) : Bool :=
  match op with
  | .add | .min | .max => t == .i32 || t == .n32 || t == .i64 || t == .n64
  | .and | .or | .xor | .exch | .cas => t.isB
  | .fadd => t == .f32 || t == .bf16
/-- The compare-and-swap forms take source C and offset 0, the others no source C (R34). -/
def casOk (t : Ty) (op : AtomOp) (e : Operand) (off : BitVec 12) : Bool :=
  if op == .cas then e.data t && off = 0 else e.isNone
/-- Register ranges of `acall` within the register file (R269). -/
def acallOk (args res : BitVec 3) (d b : Operand) : Bool :=
  d.spanV (res.toNat + 1) && b.spanV (args.toNat + 1)

/-- The opcode field of a word (R29). -/
def wordOpc (w : W96) : Nat := (w.extractLsb' 84 11).toNat

/-- Whether R43 assigns an opcode. -/
def opcAssigned (n : Nat) : Bool :=
  n ≤ 0x012 || (0x080 ≤ n && n ≤ 0x09D) || (0x100 ≤ n && n ≤ 0x114) || (0x180 ≤ n && n ≤ 0x188) ||
  (0x200 ≤ n && n ≤ 0x215) || (0x280 ≤ n && n ≤ 0x282) || (0x300 ≤ n && n ≤ 0x30A) ||
  (0x380 ≤ n && n ≤ 0x384) || (0x400 ≤ n && n ≤ 0x404) || (0x480 ≤ n && n ≤ 0x483) ||
  (0x500 ≤ n && n ≤ 0x503) || (0x580 ≤ n && n ≤ 0x583) || (0x600 ≤ n && n ≤ 0x60A)

/-- Well formed: the word encodes a form the manual gives (R42, R43 and the encoding tables).  DEDUCED, log entry 18. -/
def Instr.wf : Instr → Bool
  | .nop c => fixed c
  | .bra c _ _ _ => fixed c
  | .brx c _ _ a => fixed c && a.evenVK
  | .call c _ d _ => fixed c && d.evenV
  | .callx c _ d a => fixed c && d.evenV && a.evenVK
  | .ret c _ _ a => fixed c && a.evenVK
  | .exit c => fixed c
  | .tokOpen c _ => fixed c && always c
  | .tokLeave c n => fixed c && n != 0
  | .rpt c a _ => fixed c && a.isVK
  | .yield c => fixed c
  | .brk c => c == ⟨7, false, 0, false, false, false⟩
  | .trap c _ => fixed c
  | .setp c ty cmp mrg d a b e => fixed c && ty.isInt && (ty.signOk || cmp == .eq || cmp == .ne) && d.isP &&
      a.srcOf ty && b.srcOf ty && oneImm a b && dualOk mrg d e && (!a.isImm && !b.isImm || mrg == .set)
  | .fsetp c ty _ mrg d a b e => fixed c && ty.isFloat && d.isP &&
      a.srcOf ty && b.srcOf ty && oneImm a b && dualOk mrg d e && (!a.isImm && !b.isImm || mrg == .set)
  | .pbool c _ d a b => fixed c && d.isP && a.isP && b.isP
  | .pmovSave c d => fixed c && d.isV
  | .pmovLoad c a _ => fixed c && a.isVK
  | .getsr c ty w d sr => fixed c && (if ty == .b64 then d.evenV else d.isV) && srWord ty w sr
  | .setsr c ty w sr a => fixed c && srWord ty w sr && srWritable sr &&
      (if ty == .b64 then a.evenVK else a.isVK || a.isImm)
  | .mov c ty one d a => fixed c && ty.isB && destOne one ty d && a.srcR ty
  | .movi c ty one d _ => fixed c && (ty == .b32 || ty == .i64 || ty == .n64 || ty == .b64) && destOne one ty d
  | .add c ty _ d a b => fixed c && ty.isNum && d.dst ty && a.srcR ty && b.srcOf ty
  | .sub c ty _ d a b => fixed c && ty.isNum && d.dst ty && a.srcR ty && b.srcOf ty
  | .mul c ty _ d a b => fixed c && ty.isNum && d.dst ty && a.srcR ty && b.srcOf ty
  | .mulhi c ty d a b => fixed c && (ty == .i32 || ty == .n32 || ty == .i64 || ty == .n64) && d.dst ty && a.srcR ty && b.srcOf ty
  | .mad c ty _ d a b e => fixed c && ty.isNum && d.dst ty && a.srcR ty && b.srcR ty && e.srcR ty
  | .addc c _ _ d a b => fixed c && d.isV && a.srcR .n32 && b.srcR .n32
  | .subb c _ _ d a b => fixed c && d.isV && a.srcR .n32 && b.srcR .n32
  | .abs c ty _ d a => fixed c && ty.isSigned && d.dst ty && a.srcR ty
  | .min c ty d a b => fixed c && ty.isNum && d.dst ty && a.srcR ty && b.srcOf ty
  | .max c ty d a b => fixed c && ty.isNum && d.dst ty && a.srcR ty && b.srcOf ty
  | .and c ty d a b => fixed c && ty.isB && d.dst ty && a.srcR ty && b.srcOf ty
  | .or c ty d a b => fixed c && ty.isB && d.dst ty && a.srcR ty && b.srcOf ty
  | .xor c ty d a b => fixed c && ty.isB && d.dst ty && a.srcR ty && b.srcOf ty
  | .not c ty d a => fixed c && ty.isB && d.dst ty && a.srcR ty
  | .shl c ty d a b => fixed c && ty.isB && d.dst ty && a.srcR ty && b.srcOf .b32
  | .shr c ty d a b => fixed c && ty.isB && d.dst ty && a.srcR ty && b.srcOf .b32
  | .sra c ty d a b => fixed c && ty.isB && d.dst ty && a.srcR ty && b.srcOf .b32
  | .rot c ty d a b => fixed c && ty.isB && d.dst ty && a.srcR ty && b.srcOf .b32
  | .bfe c ty d a b => fixed c && (ty == .i32 || ty == .n32) && d.isV && a.srcR .b32 && b.srcOf .b32
  | .bfi c d a b e => fixed c && d.isV && a.srcR .b32 && b.srcR .b32 && e.srcR .b32
  | .popc c ty d a => fixed c && ty.isB && d.isV && a.srcR ty
  | .clz c ty d a => fixed c && ty.isB && d.isV && a.srcR ty
  | .brev c ty d a => fixed c && ty.isB && d.dst ty && a.srcR ty
  | .prmt c d a b e => fixed c && d.isV && a.srcR .b32 && b.srcOf .b32 && (e.isNone || e.srcR .b32 && !b.isImm)
  | .sel c ty d a b e => fixed c && ty.isB && d.dst ty && a.srcR ty && b.srcR ty && e.isP
  | .lea c ty _ d a b => fixed c && (ty == .i32 || ty == .n32) && d.evenV && a.srcR .b64 && b.srcOf .b32
  | .dp4 c ty _ _ d a b e => fixed c && (ty == .i8 || ty == .n8) && d.isV && a.srcR .b32 && b.srcR .b32 && e.srcR .b32
  | .mix32 c d a b => fixed c && d.isV && a.srcR .b32 && b.srcOf .b32
  | .fadd c ty _ d a b => fixed c && ty.isHs && d.isV && a.srcR ty && b.srcOf ty
  | .fsub c ty _ d a b => fixed c && ty.isHs && d.isV && a.srcR ty && b.srcOf ty
  | .fmul c ty _ d a b => fixed c && ty.isHs && d.isV && a.srcR ty && b.srcOf ty
  | .ffma c ty _ d a b e => fixed c && ty.isHs && d.isV && a.srcR ty && b.srcR ty && e.srcR ty
  | .fmin c ty d a b => fixed c && ty.isHs && d.isV && a.srcR ty && b.srcOf ty
  | .fmax c ty d a b => fixed c && ty.isHs && d.isV && a.srcR ty && b.srcOf ty
  | .fclamp c ty d a b e => fixed c && ty.isHs && d.isV && a.srcR ty && b.srcR ty && e.srcR ty
  | .frnd c ty _ d a => fixed c && ty.isHs && d.isV && a.srcR ty
  | .fclass c ty d a => fixed c && ty.isFloat && d.isV && a.srcR ty
  | .lg2 _ d a => d.isV && a.srcR .f32
  | .ex2 _ d a => d.isV && a.srcR .f32
  | .rcp _ d a => d.isV && a.srcR .f32
  | .rsq _ d a => d.isV && a.srcR .f32
  | .sqrt _ d a => d.isV && a.srcR .f32
  | .hadd2 c d a b => fixed c && d.isV && a.srcR .b32 && b.srcOf .b32
  | .hmul2 c d a b => fixed c && d.isV && a.srcR .b32 && b.srcOf .b32
  | .hfma2 c d a b e => fixed c && d.isV && a.srcR .b32 && b.srcR .b32 && e.srcR .b32
  | .hmax2 c d a b => fixed c && d.isV && a.srcR .b32 && b.srcOf .b32
  | .cvt c dty rnd sat sty f19 d a b => fixed c && !dty.isB && d.dst dty && cvtSrcOk sty &&
      (if cvtWide sty then a.srcR .b64 else a.srcR .b32) && (b.isP || b.isNone) && (!f19 || dty == .f32) &&
      (sty != 14 || (dty == .f32 && !f19 && rnd == .rne && !sat)) &&
      (!(dty.isInt && sty.toNat < 8) || rnd == .rne)
  | .pack c rnd _ fmt _ d a b e => fixed c && d.isV && a.srcR .f32 && b.srcR .f32 &&
      (fmt == 0 || fmt == 1 || fmt == 3 || fmt == 4 || fmt == 5 || fmt == 12 || fmt == 15) &&
      (fmt != 5 || rnd == .rne) && (e.isNone || (e.srcR .b32 && fmt != 0 && fmt != 1))
  | .unpk c ty fmt el d a => fixed c && d.isV && a.srcR .b32 && unpkOk ty fmt el
  | .qswap c ty pat d a => fixed c && always c && ty.isB && pat != 3 && d.dst ty && a.srcR ty
  | .qbcast c ty _ d a => fixed c && always c && ty.isB && d.dst ty && a.srcR ty
  | .shfl c ty _ seg _ d a b e => always c && ty.isB && seg.toNat < 6 && d.dst ty && a.srcR ty && b.srcR .b32 &&
      (e.isNone || e.srcR .b32)
  | .vote c mode d a b => always c && (if mode == .ballot then d.isV else d.isP) && a.isP && b.srcOf .b32
  | .matchv c ty d a b => always c && ty.isB && d.isV && a.srcR ty && b.srcOf .b32
  | .wred c ty rnd op d a b => always c && redOk ty rnd op && d.isV && a.srcR ty && b.srcR .b32
  | .wmaxi c ty d a b e => always c && (ty == .f32 || ty == .i32 || ty == .n32) && d.evenV && a.srcR ty && b.srcR .b32 && e.srcR .b32
  | .wscan c ty rnd op _ d a b => always c && redOk ty rnd op && d.isV && a.srcR ty && b.srcR .b32
  | .elect c d a => always c && d.isP && a.srcOf .b32
  | .ld _ ty acq scope _ nf vec d a b _ => ty.isInt && (acq || scope == .wave) && vecOk ty vec && d.dstVec ty vec && a.evenVK &&
      (if nf then b.isP else b.isNone)
  | .st c ty rel scope vec a b _ => fixed c && ty.isInt && (rel || scope == .wave) && vecOk ty vec && a.evenVK && b.dataVec ty vec
  | .lds _ ty vec d a _ => ty.isInt && vecOk ty vec && d.dstVec ty vec && a.isVK
  | .sts c ty vec a b _ => fixed c && ty.isInt && vecOk ty vec && a.isVK && b.dataVec ty vec
  | .ldk _ ty _ sp vec d a _ => ty.isB && vecOk ty vec && d.dstVecK ty vec && (if sp then a.isVK else a.evenVK)
  | .gather _ ty _ _ cnt d a b _ => ty.isB && a.evenVK && gatherOk ty cnt d a b
  | .ldblk _ sp _ cnt d a _ => (if sp then a.isVK else a.evenVK) && ldblkOk sp cnt d a
  | .prefetch c _ a _ => fixed c && a.evenVK
  | .discard c _ a _ => fixed c && a.evenVK
  | .l1inv c => fixed c
  | .fence c _ _ => fixed c
  | .xfence c p q _ => fixed c && p != 0 && q != 0 && !p.getLsbD 4 && !q.getLsbD 4
  | .satom _ ty op d a b e off => atomTyOk ty op && d.dst ty && a.isVK && b.data ty && casOk ty op e off
  | .mwait _ ty acq scope d a b _ => ty.isB && (acq || scope == .wave) && d.dst ty && a.evenVK && b.data ty
  | .qinit c a b _ => fixed c && a.isVK && b.evenV
  | .qpush _ once d a b _ => (if once then d.isP else d.isNone) && a.isVK && b.isV
  | .qpop _ once d a b _ => (if once then b.isP else b.isNone) && a.isVK && d.isV
  | .barrInit c a b _ => fixed c && a.isVK && b.isVK
  | .barrArrive c _ a b _ => fixed c && a.isVK && (b.isVK || b.isNone)
  | .barrExpect c a b _ => fixed c && a.isVK && b.isVK
  | .barrWait _ d a b _ => d.isP && a.isVK && b.evenV
  | .barrQuery _ d a _ => d.quadV && a.isVK
  | .atom _ ty op order scope d a b e off => atomTyOk ty op && (order != .none || scope == .wave) && d.dst ty && a.evenVK &&
      b.data ty && casOk ty op e off
  | .red c ty op order scope a b _ => fixed c && atomTyOk ty op && op != .exch && op != .cas && (order == .none || order == .rel) &&
      (order != .none || scope == .wave) && a.evenVK && b.data ty
  | .acall _ _ args res d a b _ => res.toNat < 5 && d.isV && a.evenVK && b.isV && acallOk args res d b
  | .mma c d a b e => always c && d.isAcc && a.isVK && b.quadV && e.isV
  | .mmp c d a b e => always c && d.isAcc && a.isVK && b.quadV && e.isV
  | .mld _ form d a b e => (if form == .b then d.quadV else d.isNone) && a.evenVK && b.isV && (if form == .b then e.isNone else e.isVK)
  | .aalloc c pair d a => fixed c && d.isV && (if pair then a.evenVK else a.isVK)
  | .awin c a b e => fixed c && a.isVK && b.isVK && e.isVK
  | .afree c a => fixed c && a.isVK
  | .azero c _ d => fixed c && d.isAcc
  | .ald _ first cnt d a => d.isV && a.isAcc && first.toNat + cnt.toNat < 16
  | .ast _ first cnt d a => d.isAcc && a.isV && first.toNat + cnt.toNat < 16
  | .mret _ _ sp a b e => (if sp then a.isVK else a.evenVK) && b.isAcc && e.isV
  | .mretRoute _ _ _ a b e => a.evenVK && b.isAcc && e.isV
  | .epcfg c a b e => fixed c && a.isVK && b.isVK && e.isVK
  | .ckick c a _ => fixed c && a.isVK
  | .cpoll _ d a _ => d.evenV && a.isVK
  | .cntw _ d a b _ => d.evenV && a.evenVK && b.evenV
  | .cnta c a b _ => fixed c && a.evenVK && b.data .b32
  | .trec c a b => fixed c && a.evenVK && b.isV
  | .bgload _ d a _ => d.isV && a.evenVK
  | .bgx c a _ => fixed c && a.evenVK
  | .bfence _ a => a.isNone || a.evenVK
  | .bgwait _ d a _ => d.evenV && a.evenVK
  | .bgstatEng _ d a => d.isV && a.isVK
  | .bgstatRmap _ d a => d.isV && a.evenVK
  | .pgreq _ _ d a _ => d.isV && a.evenVK
  | .pgmig _ d a b => d.isV && a.evenVK && b.evenV
  | .tlbinvPage _ a b => a.evenVK && b.isVK
  | .tlbinvAll _ => true
  | .pocinvPage _ a b => a.evenVK && b.isVK
  | .pocinvAll _ => true
  | .rcall _ _ _ cnt m d a b e => m.toNat < 17 && (if m = 0 then d.isNone else d.spanV m.toNat) && a.evenVK && b.evenVK && e.spanV (cnt.toNat + 1)
  | .rwait _ d => d.isV
  | .rret c => fixed c
  | .rstat _ _ d a => d.isV && a.evenVK
  | .cplan _ d a _ => d.evenV && a.evenVK
  | .cgo c a => fixed c && a.isVK
  | .cwait _ d a => d.isV && a.isVK
  | .netslot _ d a _ => d.isV && a.evenVK
  | .netslotOff _ d => d.isV
  | .spawn c _ a => fixed c && a.evenVK
  | .jwait _ d a _ => d.evenV && a.evenVK
  | .rfe c => fixed c
  | .halt c _ => fixed c
  | .sleep c a => fixed c && (a.isVK || a.isImm)
  | .dlset c a => fixed c && a.evenVK
  | .qend c => fixed c
  | .qsync _ => true
  | .pwrq _ d => d.isV
  | .crd _ ty d a => ty.isB && (if ty == .b64 then d.evenV else d.isV) && a.isVK
  | .cwr c ty a b => fixed c && ty.isB && a.isVK && (if ty == .b64 then b.evenVK else b.isVK)
  | .bgEnd => true
  | .bgOpen _ _ _ => true
  | .bgClose _ => true
  | .bgRd _ _ _ => true
  | .bgMac _ _ _ => true
  | .bgRmac _ _ _ _ _ => true
  | .bgAdd _ _ => true
  | .bgMax _ _ => true
  | .bgScale _ _ _ => true
  | .bgScaleScl _ _ => true
  | .bgWr _ _ _ _ _ => true
  | .bgZero _ _ => true
  | .bgLdx _ _ => true
  | .bgAddx _ _ => true
  | .bgLoop _ _ => true
  | .bgNext => true
  | .bgBnz _ _ => true
  | .bgVld _ _ _ => true
  | .bgSync => true
  | .bgBtl _ _ _ => true
  | .bgAttn _ _ _ => true
  | .bgEmit _ _ _ _ => true
  | .bgIdx _ _ _ => true
  | .bgNopc => true
  | .longLatencyCompletion _ => true
  | .storeReachesVisibility _ => true
  | .matrixOpCommit _ => true
  | .requestEngineFetch _ => true
  | .linearCopy _ => true
  | .tensorCopy _ => true
  | .gatherRequest _ => true
  | .scatterAdd _ => true
  | .layoutTransform _ => true
  | .fill _ => true
  | .remoteRead _ => true
  | .remoteWrite _ => true
  | .remoteReduce _ => true
  | .collectiveStep _ => true
  | .barrierSignal _ => true
  | .copyLanding _ _ => true
  | .counterIncrease _ => true
  | .copyRetire _ => true
  | .atOperation _ => true
  | .acallRoutine _ => true
  | .bankQueueTake _ => true
  | .bankLaunchAdmission _ => true
  | .storeLoadDispatch _ => true
  | .bankReexecution _ _ => true
  | .attentionMerge _ => true
  | .bankCompletion _ => true
  | .coreAccessArrives _ => true
  | .pageRequestRingWrite => true
  | .migrationStart _ => true
  | .migrationPassEnd _ => true
  | .migrationSwitch _ => true
  | .stubForward _ => true
  | .redirect _ => true
  | .chase _ => true
  | .stubReclaimQuery _ _ => true
  | .stubReclaimReply _ => true
  | .rcallArrival _ => true
  | .calleeStart _ => true
  | .rcallReply _ => true
  | .rcallTimeout _ => true
  | .dedupEntryExpiry _ => true
  | .fabricPacketArrival _ _ _ => true
  | .fabricTransferTimeout _ => true
  | .congestionNotice _ => true
  | .rateTableRecovery _ => true
  | .reductionLanding _ => true
  | .collectiveInstanceComplete _ => true
  | .networkFrameBoundary => true
  | .portTraining _ _ => true
  | .grantWindow _ _ => true
  | .launchRecordCheck _ => true
  | .groupRange _ => true
  | .resumptionRecord _ => true
  | .copyQueueRequest _ => true
  | .cellPlacement _ => true
  | .groupEnd _ => true
  | .launchCompletion _ => true
  | .deadlineExpiry _ => true
  | .groupQuiet _ => true
  | .handlerStart _ => true
  | .handlerReservation _ => true
  | .preemptDrainComplete _ => true
  | .quantumCommitStart _ => true
  | .quantumCommitComplete _ => true
  | .errorRecordWrite => true
  | .barrWaitLimit _ => true
  | .mwaitRecompare _ => true
  | .sleepExpiry _ _ => true
  | .moduleReset => true
  | .pcieFundamentalReset => true
  | .bar2Access _ _ _ _ => true
  | .atsInvalidation _ => true
  | .atsTranslationCompletion _ => true
  | .alarmLevel1 _ => true
  | .alarmLevel2 _ => true
  | .softErrorCorrected _ _ _ => true
  | .uncorrectableError _ _ _ => true
  | .codeObjectLoad _ _ _ => true
  | .coreKick _ _ => true
  | .cpPush _ _ => true
  | .prDone _ => true
  | .prSize _ => true
  | .partCmdPreempt _ => true
  | .partCmdResume _ => true
  | .partCmdAbort _ => true
  | .partCmdResumePlacing _ => true
  | .partRect _ _ => true
  | .partHandler _ _ => true
  | .paShares _ _ => true
  | .paBank _ => true
  | .paTableid _ => true
  | .fabId _ => true
  | .fabCtl _ => true
  | .fabRoot _ => true
  | .dbgCtl _ => true
  | .bootCmd _ => true
  | .attCmd _ => true
  | .registerWrite _ _ _ => true
  | .unassignedOpcode w => !w.msb && !opcAssigned (wordOpc w)
  | .unassignedCommandCode w => 0x17 ≤ w.toNat / 2 ^ 26

end Sys2Proof
end

