-- ==== Sys2Proof/Decode.lean ====
section
/-! DEFINITION. Reading a DN3 word (R26 to R34, R43) or a bank-group command word (R283, R284) into a step,
total on every word and rejecting by answering none; after it the encoder written from the same tables. -/

set_option linter.unusedVariables false

namespace Sys2Proof

/-- Modifier bits placed from M[i] up (R31). -/
def mAt (i : Nat) (x : BitVec n) : BitVec 20 := (x.zeroExtend 20) <<< i
def mBit (i : Nat) (b : Bool) : BitVec 20 := if b then 1 <<< i else 0
def mTy (t : Ty) : BitVec 20 := mAt 0 t.code
def mRnd (r : Rnd) : BitVec 20 := mAt 4 r.code

/-- An operand field: kind and number, an immediate carrying M[8:0] (R32, R33). -/
def opField (m : BitVec 20) : Operand → BitVec 12
  | .v n => (0 : BitVec 3) ++ (n.zeroExtend 9)
  | .k n => (1 : BitVec 3) ++ (n.zeroExtend 9)
  | .p n => (2 : BitVec 3) ++ (n.zeroExtend 9)
  | .sr n => (3 : BitVec 3) ++ n
  | .imm _ => (4 : BitVec 3) ++ (m.extractLsb' 0 9)
  | .acc n => (5 : BitVec 3) ++ (n.zeroExtend 9)
  | .none => (6 : BitVec 3) ++ (0 : BitVec 9)

/-- EXT: the immediate of the one immediate source, else source C and M (R29, R33). -/
def extOf (a b : Operand) (c12 : BitVec 12) (m : BitVec 20) : BitVec 32 :=
  match a, b with
  | .imm x, _ => x
  | _, .imm x => x
  | _, _ => c12 ++ m

/-- The 96 bits from their fields (R29). -/
def packWord (c : Ctl) (opc : BitVec 11) (d a b : BitVec 12) (ext : BitVec 32) : W96 :=
  (0 : BitVec 1) ++ opc ++ BitVec.ofBool c.gn ++ c.gp ++ d ++ a ++ b ++ ext ++ c.stall ++
    BitVec.ofBool c.fs ++ BitVec.ofBool c.ra ++ BitVec.ofBool c.rb ++ (0 : BitVec 5)

/-- A word with source C in EXT[43:32], or an immediate. -/
def encWord (c : Ctl) (opc : BitVec 11) (d a b e : Operand) (m : BitVec 20) : W96 :=
  packWord c opc (opField m d) (opField m a) (opField m b) (extOf a b (opField m e) m)

/-- A word with a memory offset in EXT[43:32] (R34). -/
def encMem (c : Ctl) (opc : BitVec 11) (d a b : Operand) (off : BitVec 12) (m : BitVec 20) : W96 :=
  packWord c opc (opField m d) (opField m a) (opField m b) (off ++ m)

/-- The immediate of `xfence` (R171). -/
def xfenceImm (p q : BitVec 7) (s : Scope) : BitVec 32 :=
  p.zeroExtend 32 ||| (q.zeroExtend 32 <<< 8) ||| (s.code.zeroExtend 32 <<< 16)

/-- The word of a native form (R29, R43 and the encoding tables); none for other steps.  An unassigned
opcode is its own word.  DEDUCED, log entry 13. -/
def encode : Instr → Option W96
  | .nop c => some <| encWord c 0x000 .none .none .none .none 0
  | .bra c u n disp => some <| encWord c 0x001 .none (.imm (n ++ disp)) .none .none (mBit 7 u)
  | .brx c u n a => some <| encWord c 0x002 .none a .none .none (mBit 7 u ||| mAt 8 n)
  | .call c u d disp => some <| encWord c 0x003 d (.imm (disp.zeroExtend 32)) .none .none (mBit 7 u)
  | .callx c u d a => some <| encWord c 0x004 d a .none .none (mBit 7 u)
  | .ret c u n a => some <| encWord c 0x005 .none a .none .none (mBit 7 u ||| mAt 8 n)
  | .exit c => some <| encWord c 0x006 .none .none .none .none 0
  | .tokOpen c disp => some <| encWord c 0x007 .none (.imm (disp.zeroExtend 32)) .none .none 0
  | .tokLeave c n => some <| encWord c 0x008 .none .none .none .none (mAt 8 n)
  | .rpt c a disp => some <| encWord c 0x009 .none a (.imm (disp.zeroExtend 32)) .none 0
  | .yield c => some <| encWord c 0x00A .none .none .none .none 0
  | .brk c => some <| encWord c 0x00B .none .none .none .none 0
  | .trap c code => some <| encWord c 0x00C .none (.imm (code.zeroExtend 32)) .none .none 0
  | .setp c ty cmp mrg d a b e => some <| encWord c 0x00D d a b e (mTy ty ||| mAt 7 cmp.code ||| mAt 9 mrg.code)
  | .fsetp c ty cmp mrg d a b e => some <| encWord c 0x00E d a b e (mTy ty ||| mAt 7 cmp.code ||| mAt 9 mrg.code)
  | .pbool c op d a b => some <| encWord c 0x00F d a b .none (mAt 7 op.code)
  | .pmovSave c d => some <| encWord c 0x010 d .none .none .none 0
  | .pmovLoad c a mask => some <| encWord c 0x010 .none a (.imm (mask.zeroExtend 32)) .none (mBit 7 true)
  | .getsr c ty w d sr => some <| encWord c 0x011 d (.sr sr) .none .none (mTy ty ||| mAt 7 w)
  | .setsr c ty w sr a => some <| encWord c 0x012 (.sr sr) a .none .none (mTy ty ||| mAt 7 w)
  | .mov c ty one d a => some <| encWord c 0x080 d a .none .none (mTy ty ||| mBit 7 one)
  | .movi c ty one d x => some <| encWord c 0x081 d (.imm x) .none .none (mTy ty ||| mBit 7 one)
  | .add c ty sat d a b => some <| encWord c 0x082 d a b .none (mTy ty ||| mBit 6 sat)
  | .sub c ty sat d a b => some <| encWord c 0x083 d a b .none (mTy ty ||| mBit 6 sat)
  | .mul c ty sat d a b => some <| encWord c 0x084 d a b .none (mTy ty ||| mBit 6 sat)
  | .mulhi c ty d a b => some <| encWord c 0x085 d a b .none (mTy ty)
  | .mad c ty sat d a b e => some <| encWord c 0x086 d a b e (mTy ty ||| mBit 6 sat)
  | .addc c ci co d a b => some <| encWord c 0x087 d a b .none (mTy .n32 ||| mAt 7 ci ||| mAt 10 co)
  | .subb c ci co d a b => some <| encWord c 0x088 d a b .none (mTy .n32 ||| mAt 7 ci ||| mAt 10 co)
  | .abs c ty sat d a => some <| encWord c 0x089 d a .none .none (mTy ty ||| mBit 6 sat)
  | .min c ty d a b => some <| encWord c 0x08A d a b .none (mTy ty)
  | .max c ty d a b => some <| encWord c 0x08B d a b .none (mTy ty)
  | .and c ty d a b => some <| encWord c 0x08C d a b .none (mTy ty)
  | .or c ty d a b => some <| encWord c 0x08D d a b .none (mTy ty)
  | .xor c ty d a b => some <| encWord c 0x08E d a b .none (mTy ty)
  | .not c ty d a => some <| encWord c 0x08F d a .none .none (mTy ty)
  | .shl c ty d a b => some <| encWord c 0x090 d a b .none (mTy ty)
  | .shr c ty d a b => some <| encWord c 0x091 d a b .none (mTy ty)
  | .sra c ty d a b => some <| encWord c 0x092 d a b .none (mTy ty)
  | .rot c ty d a b => some <| encWord c 0x093 d a b .none (mTy ty)
  | .bfe c ty d a b => some <| encWord c 0x094 d a b .none (mTy ty)
  | .bfi c d a b e => some <| encWord c 0x095 d a b e (mTy .b32)
  | .popc c ty d a => some <| encWord c 0x096 d a .none .none (mTy ty)
  | .clz c ty d a => some <| encWord c 0x097 d a .none .none (mTy ty)
  | .brev c ty d a => some <| encWord c 0x098 d a .none .none (mTy ty)
  | .prmt c d a b e => some <| encWord c 0x099 d a b e (mTy .b32)
  | .sel c ty d a b e => some <| encWord c 0x09A d a b e (mTy ty)
  | .lea c ty sh d a b => some <| encWord c 0x09B d a b .none (mTy ty ||| mAt 7 sh)
  | .dp4 c ty sat xb d a b e => some <| encWord c 0x09C d a b e (mTy ty ||| mBit 6 sat ||| mBit 7 xb)
  | .mix32 c d a b => some <| encWord c 0x09D d a b .none (mTy .b32)
  | .fadd c ty rnd d a b => some <| encWord c 0x100 d a b .none (mTy ty ||| mRnd rnd)
  | .fsub c ty rnd d a b => some <| encWord c 0x101 d a b .none (mTy ty ||| mRnd rnd)
  | .fmul c ty rnd d a b => some <| encWord c 0x102 d a b .none (mTy ty ||| mRnd rnd)
  | .ffma c ty rnd d a b e => some <| encWord c 0x103 d a b e (mTy ty ||| mRnd rnd)
  | .fmin c ty d a b => some <| encWord c 0x104 d a b .none (mTy ty)
  | .fmax c ty d a b => some <| encWord c 0x105 d a b .none (mTy ty)
  | .fclamp c ty d a b e => some <| encWord c 0x106 d a b e (mTy ty)
  | .frnd c ty rnd d a => some <| encWord c 0x107 d a .none .none (mTy ty ||| mRnd rnd)
  | .fclass c ty d a => some <| encWord c 0x108 d a .none .none (mTy ty)
  | .lg2 c d a => some <| encWord c 0x109 d a .none .none (mTy .f32)
  | .ex2 c d a => some <| encWord c 0x10A d a .none .none (mTy .f32)
  | .rcp c d a => some <| encWord c 0x10B d a .none .none (mTy .f32)
  | .rsq c d a => some <| encWord c 0x10C d a .none .none (mTy .f32)
  | .sqrt c d a => some <| encWord c 0x10D d a .none .none (mTy .f32)
  | .hadd2 c d a b => some <| encWord c 0x10E d a b .none (mTy .bf16)
  | .hmul2 c d a b => some <| encWord c 0x10F d a b .none (mTy .bf16)
  | .hfma2 c d a b e => some <| encWord c 0x110 d a b e (mTy .bf16)
  | .hmax2 c d a b => some <| encWord c 0x111 d a b .none (mTy .bf16)
  | .cvt c dty rnd sat sty f19 d a b => some <| encWord c 0x112 d a b .none (mTy dty ||| mRnd rnd ||| mBit 6 sat ||| mAt 7 sty ||| mBit 11 f19)
  | .pack c rnd sat fmt hi d a b e => some <| encWord c 0x113 d a b e (mTy .f32 ||| mRnd rnd ||| mBit 6 sat ||| mAt 7 fmt ||| mBit 11 hi)
  | .unpk c ty fmt el d a => some <| encWord c 0x114 d a .none .none (mTy ty ||| mAt 7 fmt ||| mAt 11 el)
  | .qswap c ty pat d a => some <| encWord c 0x180 d a .none .none (mTy ty ||| mAt 7 pat)
  | .qbcast c ty pos d a => some <| encWord c 0x181 d a .none .none (mTy ty ||| mAt 7 pos)
  | .shfl c ty mode seg koff d a b e => some <| encWord c 0x182 d a b e (mTy ty ||| mAt 7 mode.code ||| mAt 9 seg ||| mAt 12 koff)
  | .vote c mode d a b => some <| encWord c 0x183 d a b .none (mAt 7 mode.code)
  | .matchv c ty d a b => some <| encWord c 0x184 d a b .none (mTy ty)
  | .wred c ty rnd op d a b => some <| encWord c 0x185 d a b .none (mTy ty ||| mRnd rnd ||| mAt 7 op.code)
  | .wmaxi c ty d a b e => some <| encWord c 0x186 d a b e (mTy ty)
  | .wscan c ty rnd op excl d a b => some <| encWord c 0x187 d a b .none (mTy ty ||| mRnd rnd ||| mAt 7 op.code ||| mBit 10 excl)
  | .elect c d a => some <| encWord c 0x188 d a .none .none 0
  | .ld c ty acq scope fresh nf vec d a b off => some <| encMem c 0x200 d a b off (mTy ty ||| mBit 7 acq ||| mAt 8 scope.code ||| mBit 11 fresh ||| mBit 12 nf ||| mAt 13 vec)
  | .st c ty rel scope vec a b off => some <| encMem c 0x201 .none a b off (mTy ty ||| mBit 7 rel ||| mAt 8 scope.code ||| mAt 13 vec)
  | .lds c ty vec d a off => some <| encMem c 0x202 d a .none off (mTy ty ||| mAt 13 vec)
  | .sts c ty vec a b off => some <| encMem c 0x203 .none a b off (mTy ty ||| mAt 13 vec)
  | .ldk c ty one sp vec d a off => some <| encMem c 0x204 d a .none off (mTy ty ||| mBit 7 one ||| mBit 8 sp ||| mAt 13 vec)
  | .gather c ty fresh bs cnt d a b off => some <| encMem c 0x205 d a b off (mTy ty ||| mBit 11 fresh ||| mAt 13 cnt ||| mBit 19 bs)
  | .ldblk c sp fresh cnt d a off => some <| encMem c 0x206 d a .none off (mTy .b32 ||| mBit 8 sp ||| mBit 11 fresh ||| mAt 13 cnt)
  | .prefetch c l1 a off => some <| encMem c 0x207 .none a .none off (mBit 7 l1)
  | .discard c line a off => some <| encMem c 0x208 .none a .none off (mBit 7 line)
  | .l1inv c => some <| encWord c 0x209 .none .none .none .none 0
  | .fence c kind scope => some <| encWord c 0x20A .none .none .none .none (mAt 8 scope.code ||| mAt 11 kind.code)
  | .xfence c p q scope => some <| encWord c 0x20B .none (.imm (xfenceImm p q scope)) .none .none 0
  | .satom c ty op d a b e off => if op == .cas then some <| encWord c 0x20C d a b e (mTy ty ||| mAt 7 op.code) else some <| encMem c 0x20C d a b off (mTy ty ||| mAt 7 op.code)
  | .mwait c ty acq scope d a b off => some <| encMem c 0x20D d a b off (mTy ty ||| mBit 7 acq ||| mAt 8 scope.code)
  | .qinit c a b off => some <| encMem c 0x20E .none a b off 0
  | .qpush c once d a b off => some <| encMem c 0x20F d a b off (mBit 7 once)
  | .qpop c once d a b off => some <| encMem c 0x210 d a b off (mBit 7 once)
  | .barrInit c a b off => some <| encMem c 0x211 .none a b off 0
  | .barrArrive c chk a b off => some <| encMem c 0x212 .none a b off (mBit 7 chk)
  | .barrExpect c a b off => some <| encMem c 0x213 .none a b off 0
  | .barrWait c d a b off => some <| encMem c 0x214 d a b off 0
  | .barrQuery c d a off => some <| encMem c 0x215 d a .none off 0
  | .atom c ty op order scope d a b e off => if op == .cas then some <| encWord c 0x280 d a b e (mTy ty ||| mAt 7 op.code ||| mAt 11 order.code ||| mAt 13 scope.code) else some <| encMem c 0x280 d a b off (mTy ty ||| mAt 7 op.code ||| mAt 11 order.code ||| mAt 13 scope.code)
  | .red c ty op order scope a b off => some <| encMem c 0x281 .none a b off (mTy ty ||| mAt 7 op.code ||| mAt 11 order.code ||| mAt 13 scope.code)
  | .acall c routine args res d a b off => some <| encMem c 0x282 d a b off (mAt 7 routine ||| mAt 9 args ||| mAt 12 res)
  | .mma c d a b e => some <| encWord c 0x300 d a b e 0
  | .mmp c d a b e => some <| encWord c 0x301 d a b e 0
  | .mld c form d a b e => some <| encWord c 0x302 d a b e (mAt 7 form.code)
  | .aalloc c pair d a => some <| encWord c 0x303 d a .none .none (mBit 7 pair)
  | .awin c a b e => some <| encWord c 0x304 .none a b e 0
  | .afree c a => some <| encWord c 0x305 .none a .none .none 0
  | .azero c rows d => some <| encWord c 0x306 d .none .none .none (mAt 7 rows)
  | .ald c first cnt d a => some <| encWord c 0x307 d a .none .none (mAt 7 first ||| mAt 11 cnt)
  | .ast c first cnt d a => some <| encWord c 0x308 d a .none .none (mAt 7 first ||| mAt 11 cnt)
  | .mret c rows sp a b e => some <| encWord c 0x309 .none a b e (mAt 7 rows ||| mBit 11 sp)
  | .mretRoute c rows route a b e => some <| encWord c 0x309 .none a b e (mAt 7 rows ||| mBit 12 true ||| mAt 13 route)
  | .epcfg c a b e => some <| encWord c 0x30A .none a b e 0
  | .ckick c a off => some <| encMem c 0x380 .none a .none off 0
  | .cpoll c d a off => some <| encMem c 0x381 d a .none off 0
  | .cntw c d a b off => some <| encMem c 0x382 d a b off 0
  | .cnta c a b off => some <| encMem c 0x383 .none a b off 0
  | .trec c a b => some <| encWord c 0x384 .none a b .none 0
  | .bgload c d a off => some <| encMem c 0x400 d a .none off 0
  | .bgx c a off => some <| encMem c 0x401 .none a .none off 0
  | .bfence c a => some <| encWord c 0x402 .none a .none .none 0
  | .bgwait c d a off => some <| encMem c 0x403 d a .none off 0
  | .bgstatEng c d a => some <| encWord c 0x404 d a .none .none 0
  | .bgstatRmap c d a => some <| encWord c 0x404 d a .none .none (mBit 7 true)
  | .pgreq c w d a off => some <| encMem c 0x480 d a .none off (mBit 7 w)
  | .pgmig c d a b => some <| encWord c 0x481 d a b .none 0
  | .tlbinvPage c a b => some <| encWord c 0x482 .none a b .none 0
  | .tlbinvAll c => some <| encWord c 0x482 .none .none .none .none (mBit 7 true)
  | .pocinvPage c a b => some <| encWord c 0x483 .none a b .none 0
  | .pocinvAll c => some <| encWord c 0x483 .none .none .none .none (mBit 7 true)
  | .rcall c l2 again cnt m d a b e => some <| encWord c 0x500 d a b e (mBit 7 l2 ||| mBit 8 again ||| mAt 9 cnt ||| mAt 13 m)
  | .rwait c d => some <| encWord c 0x501 d .none .none .none 0
  | .rret c => some <| encWord c 0x502 .none .none .none .none 0
  | .rstat c l2 d a => some <| encWord c 0x503 d a .none .none (mBit 7 l2)
  | .cplan c d a off => some <| encMem c 0x580 d a .none off 0
  | .cgo c a => some <| encWord c 0x581 .none a .none .none 0
  | .cwait c d a => some <| encWord c 0x582 d a .none .none 0
  | .netslot c d a off => some <| encMem c 0x583 d a .none off 0
  | .netslotOff c d => some <| encWord c 0x583 d .none .none .none (mBit 7 true)
  | .spawn c q a => some <| encWord c 0x600 .none a .none .none (mAt 7 q)
  | .jwait c d a off => some <| encMem c 0x601 d a .none off 0
  | .rfe c => some <| encWord c 0x602 .none .none .none .none 0
  | .halt c code => some <| encWord c 0x603 .none (.imm (code.zeroExtend 32)) .none .none 0
  | .sleep c a => some <| encWord c 0x604 .none a .none .none 0
  | .dlset c a => some <| encWord c 0x605 .none a .none .none 0
  | .qend c => some <| encWord c 0x606 .none .none .none .none 0
  | .qsync c => some <| encWord c 0x607 .none .none .none .none 0
  | .pwrq c d => some <| encWord c 0x608 d .none .none .none 0
  | .crd c ty d a => some <| encWord c 0x609 d a .none .none (mTy ty)
  | .cwr c ty a b => some <| encWord c 0x60A .none a b .none (mTy ty)
  | .unassignedOpcode w => some w
  | .bgEnd => none
  | .bgOpen _ _ _ => none
  | .bgClose _ => none
  | .bgRd _ _ _ => none
  | .bgMac _ _ _ => none
  | .bgRmac _ _ _ _ _ => none
  | .bgAdd _ _ => none
  | .bgMax _ _ => none
  | .bgScale _ _ _ => none
  | .bgScaleScl _ _ => none
  | .bgWr _ _ _ _ _ => none
  | .bgZero _ _ => none
  | .bgLdx _ _ => none
  | .bgAddx _ _ => none
  | .bgLoop _ _ => none
  | .bgNext => none
  | .bgBnz _ _ => none
  | .bgVld _ _ _ => none
  | .bgSync => none
  | .bgBtl _ _ _ => none
  | .bgAttn _ _ _ => none
  | .bgEmit _ _ _ _ => none
  | .bgIdx _ _ _ => none
  | .bgNopc => none
  | .longLatencyCompletion _ => none
  | .storeReachesVisibility _ => none
  | .matrixOpCommit _ => none
  | .requestEngineFetch _ => none
  | .linearCopy _ => none
  | .tensorCopy _ => none
  | .gatherRequest _ => none
  | .scatterAdd _ => none
  | .layoutTransform _ => none
  | .fill _ => none
  | .remoteRead _ => none
  | .remoteWrite _ => none
  | .remoteReduce _ => none
  | .collectiveStep _ => none
  | .barrierSignal _ => none
  | .copyLanding _ _ => none
  | .counterIncrease _ => none
  | .copyRetire _ => none
  | .atOperation _ => none
  | .acallRoutine _ => none
  | .bankQueueTake _ => none
  | .bankLaunchAdmission _ => none
  | .storeLoadDispatch _ => none
  | .bankReexecution _ _ => none
  | .attentionMerge _ => none
  | .bankCompletion _ => none
  | .coreAccessArrives _ => none
  | .pageRequestRingWrite => none
  | .migrationStart _ => none
  | .migrationPassEnd _ => none
  | .migrationSwitch _ => none
  | .stubForward _ => none
  | .redirect _ => none
  | .chase _ => none
  | .stubReclaimQuery _ _ => none
  | .stubReclaimReply _ => none
  | .rcallArrival _ => none
  | .calleeStart _ => none
  | .rcallReply _ => none
  | .rcallTimeout _ => none
  | .dedupEntryExpiry _ => none
  | .fabricPacketArrival _ _ _ => none
  | .fabricTransferTimeout _ => none
  | .congestionNotice _ => none
  | .rateTableRecovery _ => none
  | .reductionLanding _ => none
  | .collectiveInstanceComplete _ => none
  | .networkFrameBoundary => none
  | .portTraining _ _ => none
  | .grantWindow _ _ => none
  | .launchRecordCheck _ => none
  | .groupRange _ => none
  | .resumptionRecord _ => none
  | .copyQueueRequest _ => none
  | .cellPlacement _ => none
  | .groupEnd _ => none
  | .launchCompletion _ => none
  | .deadlineExpiry _ => none
  | .groupQuiet _ => none
  | .handlerStart _ => none
  | .handlerReservation _ => none
  | .preemptDrainComplete _ => none
  | .quantumCommitStart _ => none
  | .quantumCommitComplete _ => none
  | .errorRecordWrite => none
  | .barrWaitLimit _ => none
  | .mwaitRecompare _ => none
  | .sleepExpiry _ _ => none
  | .moduleReset => none
  | .pcieFundamentalReset => none
  | .bar2Access _ _ _ _ => none
  | .atsInvalidation _ => none
  | .atsTranslationCompletion _ => none
  | .alarmLevel1 _ => none
  | .alarmLevel2 _ => none
  | .softErrorCorrected _ _ _ => none
  | .uncorrectableError _ _ _ => none
  | .codeObjectLoad _ _ _ => none
  | .coreKick _ _ => none
  | .cpPush _ _ => none
  | .prDone _ => none
  | .prSize _ => none
  | .partCmdPreempt _ => none
  | .partCmdResume _ => none
  | .partCmdAbort _ => none
  | .partCmdResumePlacing _ => none
  | .partRect _ _ => none
  | .partHandler _ _ => none
  | .paShares _ _ => none
  | .paBank _ => none
  | .paTableid _ => none
  | .fabId _ => none
  | .fabCtl _ => none
  | .fabRoot _ => none
  | .dbgCtl _ => none
  | .bootCmd _ => none
  | .attCmd _ => none
  | .registerWrite _ _ _ => none
  | .unassignedCommandCode _ => none

/-- The fields of a word as read (R29, R32, R33): with an immediate source, `m` holds M[8:0] from that
source's field, `x` the immediate and `e` nothing. -/
structure Fields where
  d : Operand
  a : Operand
  b : Operand
  e : Operand
  m : BitVec 20
  x : BitVec 32
  off : BitVec 12
  deriving DecidableEq, Repr

def Fields.bit (f : Fields) (i : Nat) : Bool := f.m.getLsbD i
def Fields.ty (f : Fields) : Option Ty := Ty.ofCode (f.m.extractLsb' 0 4)
def Fields.rnd (f : Fields) : Rnd := Rnd.ofCode (f.m.extractLsb' 4 2)

/-- An operand field read: none for kind 111 or a number outside its kind's range (R32). -/
def readOp (x : BitVec 12) (imm : BitVec 32) : Option Operand :=
  let n := x.extractLsb' 0 9
  match (x.extractLsb' 9 3).toNat with
  | 0 => if n.toNat < 256 then some (.v (n.extractLsb' 0 8)) else none
  | 1 => if n.toNat < 64 then some (.k (n.extractLsb' 0 6)) else none
  | 2 => if n.toNat < 8 then some (.p (n.extractLsb' 0 3)) else none
  | 3 => some (.sr n)
  | 4 => some (.imm imm)
  | 5 => if n.toNat < 256 then some (.acc (n.extractLsb' 0 8)) else none
  | 6 => if n = 0 then some .none else none
  | _ => none

/-- What every native word carries (R29). -/
def wordCtl (w : W96) : Ctl :=
  ⟨w.extractLsb' 80 3, w.getLsbD 83, w.extractLsb' 8 4, w.getLsbD 7, w.getLsbD 6, w.getLsbD 5⟩

/-- The fields, DST given apart so that R32's uniform-write rule can try others. -/
def wordFields (w : W96) (dst : BitVec 12) : Option Fields :=
  let a := w.extractLsb' 56 12
  let b := w.extractLsb' 44 12
  let x := w.extractLsb' 12 32
  let aImm := a.extractLsb' 9 3 = 4
  let bImm := b.extractLsb' 9 3 = 4
  let m : BitVec 20 := if aImm then (a.extractLsb' 0 9).zeroExtend 20
    else if bImm then (b.extractLsb' 0 9).zeroExtend 20 else w.extractLsb' 12 20
  let c12 := w.extractLsb' 32 12
  match readOp dst x, readOp a x, readOp b x with
  | some d, some a', some b' =>
    some ⟨d, a', b', if aImm || bImm then .none else (readOp c12 0).getD .none, m, x, c12⟩
  | _, _, _ => none

/-- The instruction of an opcode over read fields (R43). -/
def build (opc : Nat) (c : Ctl) (f : Fields) : Option Instr :=
  match opc with
  | 0x000 => some (.nop c)
  | 0x001 => some (.bra c (f.bit 7) (f.x.extractLsb' 28 4) (f.x.extractLsb' 0 28))
  | 0x002 => some (.brx c (f.bit 7) (f.m.extractLsb' 8 4) f.a)
  | 0x003 => some (.call c (f.bit 7) f.d (f.x.extractLsb' 0 28))
  | 0x004 => some (.callx c (f.bit 7) f.d f.a)
  | 0x005 => some (.ret c (f.bit 7) (f.m.extractLsb' 8 4) f.a)
  | 0x006 => some (.exit c)
  | 0x007 => some (.tokOpen c (f.x.extractLsb' 0 28))
  | 0x008 => some (.tokLeave c (f.m.extractLsb' 8 4))
  | 0x009 => some (.rpt c f.a (f.x.extractLsb' 0 28))
  | 0x00A => some (.yield c)
  | 0x00B => some (.brk c)
  | 0x00C => some (.trap c (f.x.extractLsb' 0 16))
  | 0x00D => f.ty.map fun ty => .setp c ty (Cmp.ofCode (f.m.extractLsb' 7 2)) (Merge.ofCode (f.m.extractLsb' 9 2)) f.d f.a f.b f.e
  | 0x00E => f.ty.map fun ty => .fsetp c ty (Cmp.ofCode (f.m.extractLsb' 7 2)) (Merge.ofCode (f.m.extractLsb' 9 2)) f.d f.a f.b f.e
  | 0x00F => some (.pbool c (PBool.ofCode (f.m.extractLsb' 7 2)) f.d f.a f.b)
  | 0x010 => if f.bit 7 then some (.pmovLoad c f.a (f.x.extractLsb' 0 7)) else some (.pmovSave c f.d)
  | 0x011 => f.ty.bind fun ty => f.a.srNo.map fun sr => .getsr c ty (f.m.extractLsb' 7 2) f.d sr
  | 0x012 => f.ty.bind fun ty => f.d.srNo.map fun sr => .setsr c ty (f.m.extractLsb' 7 2) sr f.a
  | 0x080 => (f.ty).map fun ty => .mov c ty (f.bit 7) f.d f.a
  | 0x081 => (f.ty).map fun ty => .movi c ty (f.bit 7) f.d f.x
  | 0x082 => (f.ty).map fun ty => .add c ty (f.bit 6) f.d f.a f.b
  | 0x083 => (f.ty).map fun ty => .sub c ty (f.bit 6) f.d f.a f.b
  | 0x084 => (f.ty).map fun ty => .mul c ty (f.bit 6) f.d f.a f.b
  | 0x085 => (f.ty).map fun ty => .mulhi c ty f.d f.a f.b
  | 0x086 => (f.ty).map fun ty => .mad c ty (f.bit 6) f.d f.a f.b f.e
  | 0x087 => some (.addc c (f.m.extractLsb' 7 3) (f.m.extractLsb' 10 3) f.d f.a f.b)
  | 0x088 => some (.subb c (f.m.extractLsb' 7 3) (f.m.extractLsb' 10 3) f.d f.a f.b)
  | 0x089 => (f.ty).map fun ty => .abs c ty (f.bit 6) f.d f.a
  | 0x08A => (f.ty).map fun ty => .min c ty f.d f.a f.b
  | 0x08B => (f.ty).map fun ty => .max c ty f.d f.a f.b
  | 0x08C => (f.ty).map fun ty => .and c ty f.d f.a f.b
  | 0x08D => (f.ty).map fun ty => .or c ty f.d f.a f.b
  | 0x08E => (f.ty).map fun ty => .xor c ty f.d f.a f.b
  | 0x08F => (f.ty).map fun ty => .not c ty f.d f.a
  | 0x090 => (f.ty).map fun ty => .shl c ty f.d f.a f.b
  | 0x091 => (f.ty).map fun ty => .shr c ty f.d f.a f.b
  | 0x092 => (f.ty).map fun ty => .sra c ty f.d f.a f.b
  | 0x093 => (f.ty).map fun ty => .rot c ty f.d f.a f.b
  | 0x094 => (f.ty).map fun ty => .bfe c ty f.d f.a f.b
  | 0x095 => some (.bfi c f.d f.a f.b f.e)
  | 0x096 => (f.ty).map fun ty => .popc c ty f.d f.a
  | 0x097 => (f.ty).map fun ty => .clz c ty f.d f.a
  | 0x098 => (f.ty).map fun ty => .brev c ty f.d f.a
  | 0x099 => some (.prmt c f.d f.a f.b f.e)
  | 0x09A => (f.ty).map fun ty => .sel c ty f.d f.a f.b f.e
  | 0x09B => (f.ty).map fun ty => .lea c ty (f.m.extractLsb' 7 2) f.d f.a f.b
  | 0x09C => (f.ty).map fun ty => .dp4 c ty (f.bit 6) (f.bit 7) f.d f.a f.b f.e
  | 0x09D => some (.mix32 c f.d f.a f.b)
  | 0x100 => (f.ty).map fun ty => .fadd c ty f.rnd f.d f.a f.b
  | 0x101 => (f.ty).map fun ty => .fsub c ty f.rnd f.d f.a f.b
  | 0x102 => (f.ty).map fun ty => .fmul c ty f.rnd f.d f.a f.b
  | 0x103 => (f.ty).map fun ty => .ffma c ty f.rnd f.d f.a f.b f.e
  | 0x104 => (f.ty).map fun ty => .fmin c ty f.d f.a f.b
  | 0x105 => (f.ty).map fun ty => .fmax c ty f.d f.a f.b
  | 0x106 => (f.ty).map fun ty => .fclamp c ty f.d f.a f.b f.e
  | 0x107 => (f.ty).map fun ty => .frnd c ty f.rnd f.d f.a
  | 0x108 => (f.ty).map fun ty => .fclass c ty f.d f.a
  | 0x109 => some (.lg2 c f.d f.a)
  | 0x10A => some (.ex2 c f.d f.a)
  | 0x10B => some (.rcp c f.d f.a)
  | 0x10C => some (.rsq c f.d f.a)
  | 0x10D => some (.sqrt c f.d f.a)
  | 0x10E => some (.hadd2 c f.d f.a f.b)
  | 0x10F => some (.hmul2 c f.d f.a f.b)
  | 0x110 => some (.hfma2 c f.d f.a f.b f.e)
  | 0x111 => some (.hmax2 c f.d f.a f.b)
  | 0x112 => (f.ty).map fun dty => .cvt c dty f.rnd (f.bit 6) (f.m.extractLsb' 7 4) (f.bit 11) f.d f.a f.b
  | 0x113 => some (.pack c f.rnd (f.bit 6) (f.m.extractLsb' 7 4) (f.bit 11) f.d f.a f.b f.e)
  | 0x114 => (f.ty).map fun ty => .unpk c ty (f.m.extractLsb' 7 4) (f.m.extractLsb' 11 3) f.d f.a
  | 0x180 => (f.ty).map fun ty => .qswap c ty (f.m.extractLsb' 7 2) f.d f.a
  | 0x181 => (f.ty).map fun ty => .qbcast c ty (f.m.extractLsb' 7 2) f.d f.a
  | 0x182 => (f.ty).map fun ty => .shfl c ty (ShflMode.ofCode (f.m.extractLsb' 7 2)) (f.m.extractLsb' 9 3) (f.m.extractLsb' 12 6) f.d f.a f.b f.e
  | 0x183 => some (.vote c (VoteMode.ofCode (f.m.extractLsb' 7 2)) f.d f.a f.b)
  | 0x184 => (f.ty).map fun ty => .matchv c ty f.d f.a f.b
  | 0x185 => (f.ty).bind fun ty => (RedOp.ofCode (f.m.extractLsb' 7 3)).map fun op => .wred c ty f.rnd op f.d f.a f.b
  | 0x186 => (f.ty).map fun ty => .wmaxi c ty f.d f.a f.b f.e
  | 0x187 => (f.ty).bind fun ty => (RedOp.ofCode (f.m.extractLsb' 7 3)).map fun op => .wscan c ty f.rnd op (f.bit 10) f.d f.a f.b
  | 0x188 => some (.elect c f.d f.a)
  | 0x200 => (f.ty).bind fun ty => (Scope.ofCode (f.m.extractLsb' 8 3)).map fun scope => .ld c ty (f.bit 7) scope (f.bit 11) (f.bit 12) (f.m.extractLsb' 13 2) f.d f.a f.b f.off
  | 0x201 => (f.ty).bind fun ty => (Scope.ofCode (f.m.extractLsb' 8 3)).map fun scope => .st c ty (f.bit 7) scope (f.m.extractLsb' 13 2) f.a f.b f.off
  | 0x202 => (f.ty).map fun ty => .lds c ty (f.m.extractLsb' 13 2) f.d f.a f.off
  | 0x203 => (f.ty).map fun ty => .sts c ty (f.m.extractLsb' 13 2) f.a f.b f.off
  | 0x204 => (f.ty).map fun ty => .ldk c ty (f.bit 7) (f.bit 8) (f.m.extractLsb' 13 2) f.d f.a f.off
  | 0x205 => (f.ty).map fun ty => .gather c ty (f.bit 11) (f.bit 19) (f.m.extractLsb' 13 6) f.d f.a f.b f.off
  | 0x206 => some (.ldblk c (f.bit 8) (f.bit 11) (f.m.extractLsb' 13 6) f.d f.a f.off)
  | 0x207 => some (.prefetch c (f.bit 7) f.a f.off)
  | 0x208 => some (.discard c (f.bit 7) f.a f.off)
  | 0x209 => some (.l1inv c)
  | 0x20A => (Scope.ofCode (f.m.extractLsb' 8 3)).bind fun scope => (FenceKind.ofCode (f.m.extractLsb' 11 2)).map fun kind => .fence c kind scope
  | 0x20D => (f.ty).bind fun ty => (Scope.ofCode (f.m.extractLsb' 8 3)).map fun scope => .mwait c ty (f.bit 7) scope f.d f.a f.b f.off
  | 0x20E => some (.qinit c f.a f.b f.off)
  | 0x20F => some (.qpush c (f.bit 7) f.d f.a f.b f.off)
  | 0x210 => some (.qpop c (f.bit 7) f.d f.a f.b f.off)
  | 0x211 => some (.barrInit c f.a f.b f.off)
  | 0x212 => some (.barrArrive c (f.bit 7) f.a f.b f.off)
  | 0x213 => some (.barrExpect c f.a f.b f.off)
  | 0x214 => some (.barrWait c f.d f.a f.b f.off)
  | 0x215 => some (.barrQuery c f.d f.a f.off)
  | 0x20B => (Scope.ofCode (f.x.extractLsb' 16 3)).map fun scope => .xfence c (f.x.extractLsb' 0 7) (f.x.extractLsb' 8 7) scope
  | 0x20C => (f.ty).bind fun ty => (AtomOp.ofCode (f.m.extractLsb' 7 4)).map fun op =>
      if op == .cas then .satom c ty op f.d f.a f.b f.e 0 else .satom c ty op f.d f.a f.b .none f.off
  | 0x281 => (f.ty).bind fun ty => (AtomOp.ofCode (f.m.extractLsb' 7 4)).bind fun op => (Scope.ofCode (f.m.extractLsb' 13 3)).map fun scope => .red c ty op (AtomOrder.ofCode (f.m.extractLsb' 11 2)) scope f.a f.b f.off
  | 0x282 => some (.acall c (f.m.extractLsb' 7 2) (f.m.extractLsb' 9 3) (f.m.extractLsb' 12 3) f.d f.a f.b f.off)
  | 0x280 => (f.ty).bind fun ty => (AtomOp.ofCode (f.m.extractLsb' 7 4)).bind fun op => (Scope.ofCode (f.m.extractLsb' 13 3)).map fun scope =>
      let order := AtomOrder.ofCode (f.m.extractLsb' 11 2)
      if op == .cas then .atom c ty op order scope f.d f.a f.b f.e 0 else .atom c ty op order scope f.d f.a f.b .none f.off
  | 0x300 => some (.mma c f.d f.a f.b f.e)
  | 0x301 => some (.mmp c f.d f.a f.b f.e)
  | 0x302 => some (.mld c (MldForm.ofCode (f.m.extractLsb' 7 2)) f.d f.a f.b f.e)
  | 0x303 => some (.aalloc c (f.bit 7) f.d f.a)
  | 0x304 => some (.awin c f.a f.b f.e)
  | 0x305 => some (.afree c f.a)
  | 0x306 => some (.azero c (f.m.extractLsb' 7 4) f.d)
  | 0x307 => some (.ald c (f.m.extractLsb' 7 4) (f.m.extractLsb' 11 4) f.d f.a)
  | 0x308 => some (.ast c (f.m.extractLsb' 7 4) (f.m.extractLsb' 11 4) f.d f.a)
  | 0x309 => if f.bit 12 then some (.mretRoute c (f.m.extractLsb' 7 4) (f.m.extractLsb' 13 2) f.a f.b f.e)
      else some (.mret c (f.m.extractLsb' 7 4) (f.bit 11) f.a f.b f.e)
  | 0x30A => some (.epcfg c f.a f.b f.e)
  | 0x380 => some (.ckick c f.a f.off)
  | 0x381 => some (.cpoll c f.d f.a f.off)
  | 0x382 => some (.cntw c f.d f.a f.b f.off)
  | 0x383 => some (.cnta c f.a f.b f.off)
  | 0x384 => some (.trec c f.a f.b)
  | 0x400 => some (.bgload c f.d f.a f.off)
  | 0x401 => some (.bgx c f.a f.off)
  | 0x402 => some (.bfence c f.a)
  | 0x403 => some (.bgwait c f.d f.a f.off)
  | 0x404 => if f.bit 7 then some (.bgstatRmap c f.d f.a) else some (.bgstatEng c f.d f.a)
  | 0x480 => some (.pgreq c (f.bit 7) f.d f.a f.off)
  | 0x481 => some (.pgmig c f.d f.a f.b)
  | 0x482 => if f.bit 7 then some (.tlbinvAll c) else some (.tlbinvPage c f.a f.b)
  | 0x483 => if f.bit 7 then some (.pocinvAll c) else some (.pocinvPage c f.a f.b)
  | 0x500 => some (.rcall c (f.bit 7) (f.bit 8) (f.m.extractLsb' 9 4) (f.m.extractLsb' 13 5) f.d f.a f.b f.e)
  | 0x501 => some (.rwait c f.d)
  | 0x502 => some (.rret c)
  | 0x503 => some (.rstat c (f.bit 7) f.d f.a)
  | 0x580 => some (.cplan c f.d f.a f.off)
  | 0x581 => some (.cgo c f.a)
  | 0x582 => some (.cwait c f.d f.a)
  | 0x583 => if f.bit 7 then some (.netslotOff c f.d) else some (.netslot c f.d f.a f.off)
  | 0x600 => some (.spawn c (f.m.extractLsb' 7 2) f.a)
  | 0x601 => some (.jwait c f.d f.a f.off)
  | 0x602 => some (.rfe c)
  | 0x603 => some (.halt c (f.x.extractLsb' 0 16))
  | 0x604 => some (.sleep c f.a)
  | 0x605 => some (.dlset c f.a)
  | 0x606 => some (.qend c)
  | 0x607 => some (.qsync c)
  | 0x608 => some (.pwrq c f.d)
  | 0x609 => f.ty.map fun ty => .crd c ty f.d f.a
  | 0x60A => f.ty.map fun ty => .cwr c ty f.a f.b
  | _ => none

/-- A word read with a given DST field: accepted when the form is well formed and encodes to exactly the
word, so that no reserved bit is dropped (R2, R42). -/
def readWith (w : W96) (dst : BitVec 12) : Option Instr :=
  match wordFields w dst with
  | none => none
  | some f =>
    match build (wordOpc w) (wordCtl w) f with
    | none => none
    | some i =>
      if i.wf && encode i = some ((w &&& ~~~((0xFFF : W96) <<< 68)) ||| (dst.zeroExtend 96 <<< 68)) then some i
      else none

/-- A native word: the instruction it encodes, the step of an unassigned opcode, or none where an encoding
check of R42 fails. -/
def decode (w : W96) : Option Instr :=
  if w.msb then none
  else if !opcAssigned (wordOpc w) then some (.unassignedOpcode w)
  else readWith w (w.extractLsb' 68 12)

/-- The legal forms of a word whose only encoding fault is a kind-001 destination that its entry does not list (R32, R35,
R42): the same number or one of its parity as a vector register, so that an odd number for a 64-bit value is a fault of
its own; where the entry takes no vector register, a predicate, an accumulator row, a special register or no destination.
DEDUCED, log entry 16. -/
def uniformForms (w : W96) : List Instr :=
  let dst := w.extractLsb' 68 12
  if !w.msb && dst.extractLsb' 9 3 = 1 && (dst.extractLsb' 0 9).toNat < 64 && (decode w).isNone && opcAssigned (wordOpc w) then
    let vs := fun (odd : BitVec 12) => ([0, 2, 4, 8, 16, 32, 64].map fun n => n ||| odd).filterMap fun d => readWith w d
    let own := ((readWith w (dst &&& 0x1FF)).map fun i => [i]).getD [] ++ vs (dst &&& 1)
    if own.isEmpty && (vs 0).isEmpty then [0x400, 0x401, 0xC00, 0xA00, 0x628, 0x631, 0x704].filterMap fun d => readWith w d else own
  else []

def uniformFault (w : W96) : Bool := !(uniformForms w).isEmpty

/-! Bank-group command words (R283, R284). -/

def bgB (code : BitVec 6) (bm : BitVec 4) (x : BitVec 3) (as : BitVec 2) (f : Bool) (i : BitVec 16) : W32 :=
  code ++ bm ++ x ++ as ++ BitVec.ofBool f ++ i
def bgX (code : BitVec 6) (x : BitVec 3) (i : BitVec 23) : W32 := code ++ x ++ i
def bgI (code : BitVec 6) (d s : BitVec 3) (o : BitVec 8) : W32 := code ++ d ++ s ++ (0 : BitVec 12) ++ o

/-- The word of a bank-group command; none for other steps. -/
def encodeBg : Instr → Option W32
  | .bgEnd => some (bgB 0x00 0 0 0 false 0)
  | .bgOpen bm x i => some (bgB 0x01 bm x 0 false i)
  | .bgClose bm => some (bgB 0x02 bm 0 0 false 0)
  | .bgRd bm x i => some (bgB 0x03 bm x 0 false i)
  | .bgMac bm as f => some (bgB 0x04 bm 0 as f 0)
  | .bgRmac bm x as f i => some (bgB 0x05 bm x as f i)
  | .bgAdd bm as => some (bgB 0x06 bm 0 as false 0)
  | .bgMax bm as => some (bgB 0x07 bm 0 as false 0)
  | .bgScale bm as i => some (bgB 0x08 bm 0 as false i)
  | .bgScaleScl x i => some (bgB 0x08 0 x 0 true i)
  | .bgWr bm x as f i => some (bgB 0x09 bm x as f i)
  | .bgZero bm as => some (bgB 0x0A bm 0 as false 0)
  | .bgLdx x i => some (bgX 0x0B x i)
  | .bgAddx x i => some (bgX 0x0C x i)
  | .bgLoop x i => some (bgX 0x0D x i)
  | .bgNext => some (bgB 0x0E 0 0 0 false 0)
  | .bgBnz x t => some (bgX 0x0F x (t.zeroExtend 23))
  | .bgVld bm x i => some (bgB 0x10 bm x 0 false i)
  | .bgSync => some (bgB 0x11 0 0 0 false 0)
  | .bgBtl d src o => some (bgI 0x12 d src o)
  | .bgAttn x as i => some (bgB 0x13 15 x as false i)
  | .bgEmit x as f i => some (bgB 0x14 15 x as f i)
  | .bgIdx d src o => some (bgI 0x15 d src o)
  | .bgNopc => some (bgB 0x16 0 0 0 false 0)
  | .unassignedCommandCode w => some w
  | _ => none

/-- The command of a code over the fields of its form (R284). -/
def buildBg (w : W32) : Option Instr :=
  let bm := w.extractLsb' 22 4
  let x := w.extractLsb' 19 3
  let as := w.extractLsb' 17 2
  let f := w.getLsbD 16
  let imm := w.extractLsb' 0 16
  let xr := w.extractLsb' 23 3
  match (w.extractLsb' 26 6).toNat with
  | 0x00 => some .bgEnd
  | 0x01 => some (.bgOpen bm x imm)
  | 0x02 => some (.bgClose bm)
  | 0x03 => some (.bgRd bm x imm)
  | 0x04 => some (.bgMac bm as f)
  | 0x05 => some (.bgRmac bm x as f imm)
  | 0x06 => some (.bgAdd bm as)
  | 0x07 => some (.bgMax bm as)
  | 0x08 => if f then some (.bgScaleScl x imm) else some (.bgScale bm as imm)
  | 0x09 => some (.bgWr bm x as f imm)
  | 0x0A => some (.bgZero bm as)
  | 0x0B => some (.bgLdx xr (w.extractLsb' 0 23))
  | 0x0C => some (.bgAddx xr (w.extractLsb' 0 23))
  | 0x0D => some (.bgLoop xr (w.extractLsb' 0 23))
  | 0x0E => some .bgNext
  | 0x0F => some (.bgBnz xr (w.extractLsb' 0 8))
  | 0x10 => some (.bgVld bm x imm)
  | 0x11 => some .bgSync
  | 0x12 => some (.bgBtl xr (w.extractLsb' 20 3) (w.extractLsb' 0 8))
  | 0x13 => some (.bgAttn x as imm)
  | 0x14 => some (.bgEmit x as f imm)
  | 0x15 => some (.bgIdx xr (w.extractLsb' 20 3) (w.extractLsb' 0 8))
  | 0x16 => some .bgNopc
  | _ => none

/-- A command word: the command, the step of a code that is no command, or none where a field that the
command does not use is nonzero (R288). -/
def decodeBg (w : W32) : Option Instr :=
  if 0x17 ≤ (w.extractLsb' 26 6).toNat then some (.unassignedCommandCode w)
  else
    match buildBg w with
    | none => none
    | some i => if encodeBg i = some w then some i else none

/-- The instruction of a table row's bits: 32 bits are a bank-group command, 96 a native word. -/
def decodeTableWord (nbits w : Nat) : Option Instr :=
  if nbits ≤ 32 then decodeBg (BitVec.ofNat 32 w) else decode (BitVec.ofNat 96 w)

end Sys2Proof
end

