-- ==== Sys2Proof/Config.lean ====
section
/-! DEFINITION. What the manual leaves open and the model leaves free: opaque constants with no body,
so no proof can use a value of them.  Each is named in the assumption log. -/

namespace Sys2Proof

/-! The Gweja portable form as its text reads (R436 to R438). -/

/-- The type of a Gweja register: one of R31, or `pred` (R437). -/
inductive GwTy
  | of (t : Ty)
  | pred
  deriving DecidableEq, Repr, Inhabited

/-- An operand: the register it names with the type written there, and the type that the operation takes (R437). -/
structure GwArg where
  reg : Option String
  ty : Option GwTy
  takes : Option GwTy
  deriving DecidableEq, Repr, Inhabited

/-- An operation: its DN3 name, whether it names a system register, whether a scheduling hint or a flag stands with it. -/
structure GwOp where
  name : String
  args : List GwArg
  sysreg : Bool
  hinted : Bool
  deriving DecidableEq, Repr, Inhabited

/-- The terminators (R436), their registers as operands. -/
inductive GwEnd
  | next (l : String)
  | cond (p : GwArg) (l1 l2 : String)
  | indir (a : GwArg)
  | call (d : GwArg) (l r : String)
  | ret (a : GwArg)
  | exit
  deriving DecidableEq, Repr, Inhabited

/-- A segment: its offset in the object's text, its name, its operations and its one terminator (R436). -/
structure GwSeg where
  at_ : Nat
  name : String
  ops : List GwOp
  last : GwEnd
  deriving DecidableEq, Repr, Inhabited

/-- A procedure; one of `.entry` is a launch's. -/
structure GwProc where
  entry : Bool
  segs : List GwSeg
  deriving DecidableEq, Repr, Inhabited

/-- What the translator makes of an object: clauses, the offset of each segment's first clause, and for each template the
registers of a thread and the stack it adds, as the fields REGS and STKSZ count them (R439). -/
structure GwText where
  text : List Byte
  clauses : List (String × Nat)
  regs : List Nat
  spill : List Nat
  deriving DecidableEq, Repr, Inhabited

end Sys2Proof

namespace Sys2Proof.Config

/-- A free choice at a step number, for a purpose and its keys: which of several permitted moves comes
next, which of two permitted values a read returns, how many words a piece holds (R36, R79, R80, R254, R322).  DESIGN CHOICE, log entry 2. -/
opaque choose : Nat → List Nat → Nat

/-- A free 32-bit value at a step number, for its keys: a value the manual calls unspecified. -/
opaque freeWord : Nat → List Nat → W32

/-- A free byte at a step number, for its keys (R182, R237, R378). -/
opaque freeByte : Nat → List Nat → Byte

/-- What an unwritten scratchpad or accumulator byte reads as inside an allocation (R406): placement, offset. -/
opaque scratchByte : Nat → Nat → Byte

/-- What host memory holds at a PCIe address the device has not written (R79). -/
opaque hostByte : Nat → Byte

/-- ATS answer for a PCIe address (R448): whether the host allows it.  DEDUCED, log entry 70. -/
opaque atsAllows : Nat → Bool

/-- SHAKE256 of a byte string (R451, R443); the function stands in FIPS 202, not in the manual.  DESIGN CHOICE, log entry 120. -/
opaque shake256 : List Byte → List Byte

/-- Whether an image or a record carries a valid SLH-DSA-SHAKE-256s signature of the vendor (FIPS 205, R451). -/
opaque vendorSigned : List Byte → Bool

/-- Whether reading the flash failed at a boot (R450). -/
opaque flashError : Nat → Bool

/-- Whether a configuration record permits debug (R451); the layout of the record is not in the manual. -/
opaque debugPermit : List Byte → Bool

/-- PA_BUDGET and the initial PA_BANK that a configuration record holds (R451). -/
opaque recordBudget : List Byte → BitVec 32
opaque recordBank : List Byte → BitVec 32

/-- What an array class number of R455 names: 1 a register file, 2 the state of a bank-group engine, 3 a link or a
base-die path, else a memory; the manual gives no numbers. -/
opaque arrayClass : BitVec 8 → Nat

/-- The SLH-DSA-SHAKE-256s signature of the attestation report (R452). -/
opaque slhSign : List Byte → List Byte

/-- The identity public key the PUF seed yields through the activation code (R452). -/
opaque identityKey : List Byte → List Byte

/-- KMAC256 truncated to 64 bits under the image key of a boot (NIST SP 800-185, R422, R460):
boot number, slot offset in the set, block bytes. -/
opaque imageTag : Nat → Nat → List Byte → W64

/-- What the text of a Gweja object says, none where it is no text of that form: the manual does not lay out its bytes
(R442).  DESIGN CHOICE, log entry 121. -/
opaque gwejaText : List Byte → Option (List GwProc)

/-- The lowering of the translator gwjt (R439): object bytes, device figures.  DESIGN CHOICE, log entry 121. -/
opaque gwjt : List Byte → List Nat → GwText

/-- How many 64 KiB pages the writable data of a code object take, the constants following: no field of its header tells.  DEDUCED, log entry 122. -/
opaque rodataPage : List Byte → Nat

/-- The set of its slice that a line falls into: the manual gives the ways of a slice and no set number (R8).  DESIGN CHOICE,
log entry 128. -/
opaque l2Set : Nat → Nat

/-- Whether the stripe map marks a row-set engine-eligible: stack, channel, pseudo-channel, group, row (R307).  DESIGN CHOICE, log entry 123. -/
opaque eligible : Nat → Nat → Nat → Nat → Nat → Bool

end Sys2Proof.Config
end

