-- ==== Sys2Proof/Machine/Float.lean ====
section
/-! DEFINITION. The number formats of the D880 (R52 to R69) as exact values, one rounding function over
them, and the float operations of the vector unit (R151 to R158) and the matrix step (R70 to R72). -/

set_option linter.unusedVariables false

namespace Sys2Proof.Machine

/-- An exact value: not a number, an infinity, or plus or minus `man` times two to the `exp`. -/
inductive FVal
  | nan
  | inf (neg : Bool)
  | fin (neg : Bool) (man : Nat) (exp : Int)
  deriving DecidableEq, Repr

/-- A binary format with a sign, `eb` exponent bits and `fb` fraction bits; `max` is the magnitude code
of the largest finite value; `infs` says that the codes above it are infinity and NaN (R52). -/
structure Fmt where
  eb : Nat
  fb : Nat
  bias : Nat
  max : Nat
  infs : Bool
  deriving DecidableEq, Repr

def fp32 : Fmt := ⟨8, 23, 127, 0x7F7FFFFF, true⟩
def fp16 : Fmt := ⟨5, 10, 15, 0x7BFF, true⟩
def bf16 : Fmt := ⟨8, 7, 127, 0x7F7F, true⟩
/-- F19 in its own 19 bits; `f19Word` places them in bits 31 to 13 (R52). -/
def f19 : Fmt := ⟨8, 10, 127, 0x3FBFF, true⟩
def e5m2 : Fmt := ⟨5, 2, 15, 0x7B, true⟩
def e4m3 : Fmt := ⟨4, 3, 7, 0x7E, false⟩
def e3m2 : Fmt := ⟨3, 2, 3, 0x1F, false⟩
def e2m3 : Fmt := ⟨2, 3, 1, 0x1F, false⟩
def e2m1 : Fmt := ⟨2, 1, 1, 0x7, false⟩

def Fmt.width (f : Fmt) : Nat := 1 + f.eb + f.fb

/-- The value of a magnitude code of an IEEE-style format (R53). -/
def Fmt.magVal (f : Fmt) (neg : Bool) (c : Nat) : FVal :=
  if f.infs && f.max < c then (if c = f.max + 1 then .inf neg else .nan)
  else if !f.infs && f.max < c then .nan
  else if c < 2 ^ f.fb then .fin neg c (1 - f.bias - f.fb)
  else .fin neg (2 ^ f.fb + c % 2 ^ f.fb) ((c / 2 ^ f.fb : Nat) - f.bias - f.fb)

/-- The value of a code (R53). -/
def Fmt.val (f : Fmt) (c : Nat) : FVal :=
  f.magVal (c / 2 ^ (f.eb + f.fb) % 2 == 1) (c % 2 ^ (f.eb + f.fb))

/-- The exponent of the leading bit of a nonzero magnitude. -/
def lead (man : Nat) (exp : Int) : Int := Nat.log2 man + exp

/-- Whether a rounded-down magnitude with remainder `rem` out of `2^sh` goes up by one (R61). -/
def roundUp (r : Rnd) (neg : Bool) (q rem sh : Nat) : Bool :=
  match r with
  | .rne => 2 ^ (sh - 1) < rem || (rem == 2 ^ (sh - 1) && q % 2 == 1)
  | .rtz => false
  | .rup => !neg && rem != 0
  | .rdn => neg && rem != 0

/-- `man × 2^exp` rounded to an integer multiple of `2^q`, as that multiple (R61). -/
def quantize (r : Rnd) (neg : Bool) (man : Nat) (exp q : Int) : Nat :=
  if q ≤ exp then man * 2 ^ (exp - q).toNat
  else
    let sh := (q - exp).toNat
    let k := man / 2 ^ sh
    if roundUp r neg k (man % 2 ^ sh) sh then k + 1 else k

/-- The magnitude code nearest a nonzero magnitude under a mode, the exponent range unbounded above (R61). -/
def Fmt.magCode (f : Fmt) (r : Rnd) (neg : Bool) (man : Nat) (exp : Int) : Nat :=
  let q := Max.max (lead man exp - f.fb) (1 - f.bias - f.fb)
  let m := quantize r neg man exp q
  if m < 2 ^ f.fb then m
  else
    let field := (q + f.fb + f.bias).toNat
    if m < 2 ^ (f.fb + 1) then field * 2 ^ f.fb + (m - 2 ^ f.fb) else (field + 1) * 2 ^ f.fb

/-- Overflow gives the largest finite value, not infinity (R61's table). -/
def overSat (r : Rnd) (neg : Bool) : Bool :=
  match r with
  | .rne => false
  | .rtz => true
  | .rup => neg
  | .rdn => !neg

/-- The canonical NaN of a format (R62); zero where the format has none. -/
def Fmt.nanCode (f : Fmt) : Nat :=
  if f.infs then (if f.fb = 2 then f.max + 3 else f.max + 1 + 2 ^ (f.fb - 1))
  else if f.eb = 4 then 0x7F else 0

/-- A sign placed over a magnitude code. -/
def Fmt.signed (f : Fmt) (neg : Bool) (m : Nat) : Nat := if neg then 2 ^ (f.eb + f.fb) + m else m

/-- An exact value rounded to a code of the format (R61, R62, R64, R65); `sat` is the `.sat` rule of R61. -/
def Fmt.round (f : Fmt) (r : Rnd) (sat : Bool) : FVal → Nat
  | .nan => f.nanCode
  | .inf neg => f.signed neg (if f.infs && !sat then f.max + 1 else f.max)
  | .fin neg 0 _ => f.signed neg 0
  | .fin neg man exp =>
    let m := f.magCode r neg man exp
    f.signed neg (if m ≤ f.max then m else if !f.infs || sat || overSat r neg then f.max else f.max + 1)

/-- The sign of the exact zero sum of operands of opposite sign (R61). -/
def zeroSum (r : Rnd) : FVal := .fin (r == .rdn) 0 0

/-- Minus or plus a magnitude, as an integer multiple of `2^q` (q at most the exponent). -/
def scaled (neg : Bool) (man : Nat) (exp q : Int) : Int :=
  let m : Int := (man * 2 ^ (exp - q).toNat : Nat)
  if neg then -m else m

/-- The exact sum (R151): infinities of opposite sign and NaN give NaN, zeros by R61. -/
def FVal.add (r : Rnd) : FVal → FVal → FVal
  | .nan, _ => .nan
  | _, .nan => .nan
  | .inf a, .inf b => if a == b then .inf a else .nan
  | .inf a, .fin _ _ _ => .inf a
  | .fin _ _ _, .inf b => .inf b
  | .fin n1 m1 e1, .fin n2 m2 e2 =>
    if m1 = 0 && m2 = 0 then (if n1 == n2 then .fin n1 0 0 else zeroSum r)
    else
      let q := Min.min e1 e2
      let z := scaled n1 m1 e1 q + scaled n2 m2 e2 q
      if z = 0 then zeroSum r else .fin (z < 0) z.natAbs q

def FVal.neg : FVal → FVal
  | .nan => .nan
  | .inf a => .inf (!a)
  | .fin n m e => .fin (!n) m e

/-- The exact product (R151): zero times infinity is NaN. -/
def FVal.mul : FVal → FVal → FVal
  | .nan, _ => .nan
  | _, .nan => .nan
  | .inf a, .inf b => .inf (a != b)
  | .inf a, .fin b m _ => if m = 0 then .nan else .inf (a != b)
  | .fin a m _, .inf b => if m = 0 then .nan else .inf (a != b)
  | .fin a m1 e1, .fin b m2 e2 => .fin (a != b) (m1 * m2) (e1 + e2)

def FVal.isNan : FVal → Bool
  | .nan => true
  | _ => false

def FVal.isNeg : FVal → Bool
  | .nan => false
  | .inf n => n
  | .fin n _ _ => n

/-- Comparison of two numbers over the reals, minus zero equal to plus zero (R126). -/
def FVal.lt : FVal → FVal → Bool
  | .nan, _ => false
  | _, .nan => false
  | .inf a, .inf b => a && !b
  | .inf a, .fin _ _ _ => a
  | .fin _ _ _, .inf b => !b
  | .fin n1 m1 e1, .fin n2 m2 e2 => scaled n1 m1 e1 (Min.min e1 e2) < scaled n2 m2 e2 (Min.min e1 e2)

def FVal.eqv (x y : FVal) : Bool := !x.isNan && !y.isNan && !x.lt y && !y.lt x

/-- `lt` with minus zero below plus zero (R152, R165). -/
def FVal.ltz (x y : FVal) : Bool := x.lt y || (x.eqv y && x.isNeg && !y.isNeg)

/-- minimumNumber (R152). -/
def FVal.min (x y : FVal) : FVal := if x.isNan then y else if y.isNan then x else if y.ltz x then y else x

/-- maximumNumber (R152). -/
def FVal.max (x y : FVal) : FVal := if x.isNan then y else if y.isNan then x else if x.ltz y then y else x

/-- Rounded to an integral value in place, the sign of a zero kept (R153). -/
def FVal.integral (r : Rnd) : FVal → FVal
  | .fin n m e => if 0 ≤ e then .fin n m e else .fin n (quantize r n m e 0) 0
  | x => x

/-- The integer a finite value rounds to (R68). -/
def FVal.toInt (r : Rnd) : FVal → Int
  | .fin n m e => let k : Int := (quantize r n m e 0 : Nat); if n then -k else k
  | _ => 0

/-- An integer as an exact value. -/
def FVal.ofInt (z : Int) : FVal := .fin (z < 0) z.natAbs 0

/-! The lean and codebook formats (R54, R55). -/

/-- The value of an L8 or L4 code with `fb` fraction and 7 or 3 magnitude bits (R54). -/
def leanVal (eb fb bias c : Nat) : FVal :=
  if c % 2 ^ (1 + eb + fb) = 0 then .fin false 0 0
  else .fin (c / 2 ^ (eb + fb) % 2 == 1) (2 ^ fb + c % 2 ^ fb) ((c % 2 ^ (eb + fb) / 2 ^ fb : Nat) - bias - fb)

def l8Val (c : Nat) : FVal := leanVal 4 3 7 c
def l4Val (c : Nat) : FVal := leanVal 2 1 1 c

/-- The QN4 magnitudes in units of 2^-13 (R55): each is an exact BF16 value. -/
def qn4Mag (c : Nat) : Nat :=
  match c % 8 with
  | 0 => 344 | 1 => 1040 | 2 => 1768 | 3 => 2544 | 4 => 3408 | 5 => 4448 | 6 => 5792 | _ => 8192

def qn4Val (c : Nat) : FVal := .fin (c % 16 / 8 == 1) (qn4Mag c) (-13)

/-- Whether code `a` is a better rounding of `x` than code `b` among the candidates of R66: nearer; on a
tie fraction bit 0; on that tie plus zero. -/
def leanBetter (val : Nat → FVal) (x : FVal) (a b : Nat) : Bool :=
  let dist := fun c => match FVal.add .rne x (val c).neg with | .fin _ m e => FVal.fin false m e | y => y
  (dist a).lt (dist b) || ((dist a).eqv (dist b) && (a % 2 < b % 2 || (a % 2 == b % 2 && a == 0)))

/-- The best of the codes `n` and below, starting from `best`. -/
def leanSearch (val : Nat → FVal) (x : FVal) : Nat → Nat → Nat
  | 0, best => if leanBetter val x 0 best then 0 else best
  | n + 1, best => leanSearch val x n (if leanBetter val x (n + 1) best then n + 1 else best)

/-- Conversion into L8 or L4, `n` codes, largest positive code `top` (R66). -/
def leanRound (val : Nat → FVal) (n top : Nat) (x : FVal) : Nat :=
  match x with
  | .nan => 0
  | .inf neg => if neg then n / 2 + top else top
  | .fin _ 0 _ => 0
  | x => leanSearch val x (n - 2) (n - 1)

def l8Round (x : FVal) : Nat := leanRound l8Val 256 0x7F x
def l4Round (x : FVal) : Nat := leanRound l4Val 16 7 x

/-- An integer clamped to a range (R60). -/
def clampInt (lo hi z : Int) : Int := if z < lo then lo else if hi < z then hi else z

/-- A float converted to an integer range: saturated, NaN to 0 (R68). -/
def FVal.toRange (r : Rnd) (lo hi : Int) : FVal → Int
  | .nan => 0
  | .inf neg => if neg then lo else hi
  | x => clampInt lo hi (x.toInt r)

/-! FP32 and packed forms. -/

def f32Of (x : W32) : FVal := fp32.val x.toNat
def f16Of (x : W32) : FVal := fp16.val (x.toNat % 2 ^ 16)
def bf16Of (x : W32) : FVal := bf16.val (x.toNat % 2 ^ 16)
/-- An F19 container read: bits 12 to 0 ignored (R52). -/
def f19Of (x : W32) : FVal := f19.val (x.toNat / 2 ^ 13)
def toF32 (r : Rnd) (x : FVal) : W32 := BitVec.ofNat 32 (fp32.round r false x)
def toF19 (r : Rnd) (sat : Bool) (x : FVal) : W32 := BitVec.ofNat 32 (f19.round r sat x * 2 ^ 13)

/-- A register operand read in a float type (R135). -/
def fOf (ty : Ty) (x : W32) : FVal :=
  match ty with
  | .f16 => f16Of x
  | .bf16 => bf16Of x
  | _ => f32Of x

/-- A float result written in its type, the upper half zero for the 16-bit types (R135). -/
def ofF (ty : Ty) (r : Rnd) (sat : Bool) (x : FVal) : W32 :=
  BitVec.ofNat 32 (match ty with
    | .f16 => fp16.round r sat x
    | .bf16 => bf16.round r sat x
    | _ => fp32.round r sat x)

/-- The classification word of R153. -/
def classify (f : Fmt) (x : FVal) : W32 :=
  match x with
  | .nan => 256
  | .inf n => if n then 1 else 128
  | .fin n 0 _ => if n then 8 else 16
  | .fin n m e =>
    if lead m e < 1 - f.bias then (if n then 4 else 32) else (if n then 2 else 64)

/-! Square roots and the special functions (R154), each exact value squeezed between two dyadic
numbers 2^-180 apart and rounded once; the half unit added stands for the irrational rest. -/

/-- Integer square root, bit by bit from bit `b`. -/
def isqrtFrom : Nat → Nat → Nat → Nat
  | 0, n, r => if (r + 1) * (r + 1) ≤ n then r + 1 else r
  | b + 1, n, r => isqrtFrom b n (if (r + 2 ^ (b + 1)) * (r + 2 ^ (b + 1)) ≤ n then r + 2 ^ (b + 1) else r)

def isqrt (n : Nat) : Nat := isqrtFrom (Nat.log2 n / 2 + 1) n 0

/-- A magnitude known to lie at `k × 2^q`, exactly or strictly above and below the next multiple. -/
def sticky (neg exact : Bool) (k : Nat) (q : Int) : FVal :=
  if exact then .fin neg k q else .fin neg (2 * k + 1) (q - 1)

def sqrtVal : FVal → FVal
  | .nan => .nan
  | .inf n => if n then .nan else .inf false
  | .fin n 0 _ => .fin n 0 0
  | .fin n m e =>
    if n then .nan
    else
      let m := if e % 2 = 0 then m * 2 ^ 64 else m * 2 ^ 65
      let q := if e % 2 = 0 then (e - 64) / 2 else (e - 65) / 2
      let k := isqrt m
      sticky false (k * k == m) k q

def rcpVal : FVal → FVal
  | .nan => .nan
  | .inf n => .fin n 0 0
  | .fin n 0 _ => .inf n
  | .fin n m e => sticky n (2 ^ 64 % m == 0) (2 ^ 64 / m) (-64 - e)

def rsqVal : FVal → FVal
  | .nan => .nan
  | .inf n => if n then .nan else .fin false 0 0
  | .fin n 0 _ => .inf n
  | .fin n m e =>
    if n then .nan
    else
      let m := if e % 2 = 0 then m else 2 * m
      let h := if e % 2 = 0 then e / 2 else (e - 1) / 2
      let k := isqrt (2 ^ 128 / m)
      sticky false (k * k * m == 2 ^ 128) k (-64 - h)

/-- The fixed point of the special functions: `2^fpOne`. -/
def fpOne : Nat := 256

/-- floor of ln 2 times 2^256. -/
def ln2Fix : Nat := 80260960185991308862233904206310070533990667611589946606122867505419956976171

/-- The Taylor sum of e^y from term `k` on, `y` and `term` in fixed point (fuel first). -/
def expSum : Nat → Nat → Nat → Nat → Nat
  | 0, _, _, _ => 0
  | n + 1, k, term, y => term + expSum n (k + 1) (term * y / 2 ^ fpOne / k) y

/-- The sum of z^(2k+1)/(2k+1) from term `k` on (fuel first): the inverse hyperbolic tangent of z. -/
def atanhSum : Nat → Nat → Nat → Nat → Nat
  | 0, _, _, _ => 0
  | n + 1, k, zp, zz => zp / (2 * k + 1) + atanhSum n (k + 1) (zp * zz / 2 ^ fpOne) zz

/-- DEDUCED, log entry 125. -/
def ex2Val : FVal → FVal
  | .nan => .nan
  | .inf n => if n then .fin false 0 0 else .inf false
  | .fin n m e =>
    let w : Int := scaled n m e (-fpOne)
    if 0 ≤ e || w % 2 ^ fpOne = 0 then
      let k := if 0 ≤ e then scaled n m e 0 else w / 2 ^ fpOne
      if k < -400 then .fin false 1 (-400) else if 400 < k then .fin false 1 400 else .fin false 1 k
    else
      let k := w / 2 ^ fpOne
      let f := (w % 2 ^ fpOne).toNat
      if k < -400 then .fin false 1 (-400) else if 400 < k then .fin false 1 400
      else sticky false false (expSum 80 1 (2 ^ fpOne) (f * ln2Fix / 2 ^ fpOne) / 2 ^ 60) (k - fpOne + 60)

def lg2Val : FVal → FVal
  | .nan => .nan
  | .inf n => if n then .nan else .inf false
  | .fin n 0 _ => .inf true
  | .fin n m e =>
    if n then .nan
    else
      let l := Nat.log2 m
      if m = 2 ^ l then FVal.ofInt (l + e)
      else
        let z := (m - 2 ^ l) * 2 ^ fpOne / (m + 2 ^ l)
        let frac := 2 * atanhSum 90 0 z (z * z / 2 ^ fpOne) * 2 ^ fpOne / ln2Fix
        let total : Int := (l + e) * 2 ^ fpOne + frac
        sticky (total < 0) false (total.natAbs / 2 ^ 60) (60 - fpOne)

/-! The matrix step (R70 to R72). -/

/-- Every value is a NaN-free number. -/
def anyNan (xs : List FVal) : Bool := xs.any (·.isNan)

def isInf (neg : Bool) : FVal → Bool
  | .inf n => n == neg
  | _ => false

/-- The largest leading exponent over the nonzero terms, none when there is none. -/
def emaxOf : List FVal → Option Int
  | [] => none
  | .fin _ m e :: xs =>
    if m = 0 then emaxOf xs
    else some (match emaxOf xs with | none => lead m e | some k => Max.max k (lead m e))
  | _ :: xs => emaxOf xs

/-- The sum of the terms truncated toward zero to multiples of `2^q`, in those units (R71). -/
def truncSum (q : Int) : List FVal → Int
  | [] => 0
  | .fin n m e :: xs =>
    let k : Int := (if q ≤ e then m * 2 ^ (e - q).toNat else m / 2 ^ (q - e).toNat : Nat)
    (if n then -k else k) + truncSum q xs
  | _ :: xs => truncSum q xs

/-- One float-class step: the accumulator and the products, combined in the 60-bit window (R71). -/
def stepFloat (c : FVal) (ps : List FVal) : W32 :=
  let ts := c :: ps
  if anyNan ts || (ts.any (isInf false) && ts.any (isInf true)) then 0x7FC00000
  else if ts.any (isInf false) then 0x7F800000
  else if ts.any (isInf true) then 0xFF800000
  else match emaxOf ts with
    | none => if ts.all (·.isNeg) then 0x80000000 else 0
    | some k =>
      let z := truncSum (k - 60) ts
      if z = 0 then 0 else toF32 .rne (.fin (z < 0) z.natAbs (k - 60))

/-- One integer-class step modulo 2^32 (R72). -/
def stepInt (c : W32) (ps : List Int) : W32 := c + BitVec.ofInt 32 (ps.foldl (· + ·) 0)

/-- The fold of one reduced element in FP32, rank order, every addition rounded RNE (R74). -/
def foldF32 (acc : W32) (xs : List FVal) : W32 :=
  xs.foldl (fun a x => toF32 .rne (FVal.add .rne (f32Of a) x)) acc

end Sys2Proof.Machine
end

