-- ==== Sys2Proof/Machine/Alu.lean ====
section
/-! DEFINITION. The per-thread arithmetic of the vector unit (R125 to R158): one value per instruction,
over operands already read.  No state stands here; the meanings of Machine/Vector.lean, and the atomic
service's routines (R275), call these. -/

set_option linter.unusedVariables false

namespace Sys2Proof.Machine

/-- One register write of an instruction: a vector register, a uniform register or a predicate. -/
inductive Wr
  | v (n : Nat) (x : W32)
  | k (n : Nat) (x : W32)
  | p (n : Nat) (b : Bool)
  deriving DecidableEq, Repr

/-- How an instruction reads a source at a type: the low half is the register's word, the whole the pair. -/
abbrev Reader := Ty → Operand → W64

/-- Width in bits of a type (R31). -/
def tyWidth : Ty → Nat
  | .i8 | .n8 => 8
  | .i16 | .n16 | .f16 | .bf16 => 16
  | .i32 | .n32 | .b32 | .f32 => 32
  | .i64 | .n64 | .b64 => 64

def tyWide (t : Ty) : Bool := tyWidth t == 64

def tySigned : Ty → Bool
  | .i8 | .i16 | .i32 | .i64 => true
  | _ => false

def tyMin (t : Ty) : Int := if tySigned t then -(2 ^ (tyWidth t - 1)) else 0
def tyMax (t : Ty) : Int := if tySigned t then 2 ^ (tyWidth t - 1) - 1 else 2 ^ tyWidth t - 1

/-- The integer a source holds at a type: its low bits, signed or natural (R135). -/
def intAt (t : Ty) (x : W64) : Int :=
  let n : Nat := x.toNat % 2 ^ tyWidth t
  if tySigned t && 2 ^ (tyWidth t - 1) ≤ n then (n : Int) - 2 ^ tyWidth t else n

/-- An integer result: reduced modulo the width, or clamped under `.sat`, then extended (R60, R135). -/
def intRes (t : Ty) (sat : Bool) (z : Int) : W64 :=
  let z := if sat then clampInt (tyMin t) (tyMax t) z else z
  BitVec.ofInt 64 (intAt t (BitVec.ofInt 64 z))

/-- A word written to a destination operand; a predicate or absent destination takes none. -/
def wrReg (d : Operand) (x : W32) : List Wr :=
  match d with
  | .v n => [.v n.toNat x]
  | .k n => [.k n.toNat x]
  | _ => []

/-- A value written at a type: one register, or the even and odd registers of a pair (R135). -/
def wrTy (t : Ty) (d : Operand) (x : W64) : List Wr :=
  match d with
  | .v n => if tyWide t then [.v n.toNat (x.extractLsb' 0 32), .v (n.toNat + 1) (x.extractLsb' 32 32)]
            else [.v n.toNat (x.extractLsb' 0 32)]
  | .k n => if tyWide t then [.k n.toNat (x.extractLsb' 0 32), .k (n.toNat + 1) (x.extractLsb' 32 32)]
            else [.k n.toNat (x.extractLsb' 0 32)]
  | _ => []

/-- A predicate destination. -/
def wrP (d : Operand) (b : Bool) : List Wr :=
  match d with
  | .p n => [.p n.toNat b]
  | _ => []

def rd32 (rd : Reader) (o : Operand) : W32 := (rd .b32 o).extractLsb' 0 32
def rdInt (rd : Reader) (t : Ty) (o : Operand) : Int := intAt t (rd t o)
def rdP (rd : Reader) (o : Operand) : Bool := rd .b32 o != 0
def rdF (rd : Reader) (t : Ty) (o : Operand) : FVal := fOf t (rd32 rd o)

/-- The comparisons of `setp` and `fsetp` (R126). -/
def cmpInt (c : Cmp) (x y : Int) : Bool :=
  match c with
  | .eq => x == y
  | .ne => x != y
  | .lt => x < y
  | .le => x ≤ y

def cmpF (c : Cmp) (x y : FVal) : Bool :=
  if x.isNan || y.isNan then c == .ne
  else match c with
    | .eq => x.eqv y
    | .ne => !x.eqv y
    | .lt => x.lt y
    | .le => !y.lt x

/-- The predicate writes of a compare under its merge code (R126). -/
def mergeP (rd : Reader) (m : Merge) (d e : Operand) (r : Bool) : List Wr :=
  match m with
  | .set => wrP d r
  | .andin => wrP d (rdP rd d && r)
  | .orin => wrP d (rdP rd d || r)
  | .dual => wrP d r ++ wrP e !r

def pbool (op : PBool) (x y : Bool) : Bool :=
  match op with
  | .and => x && y
  | .or => x || y
  | .xor => x != y
  | .andn => x && !y

/-- The shifts and rotation of R143, at the type's width. -/
def shlAt (t : Ty) (x n : Nat) : Nat := if n < tyWidth t then x * 2 ^ n % 2 ^ tyWidth t else 0
def shrAt (t : Ty) (x n : Nat) : Nat := if n < tyWidth t then x / 2 ^ n else 0
def sraAt (t : Ty) (x n : Nat) : Nat :=
  if n < tyWidth t then
    (if x < 2 ^ (tyWidth t - 1) then x / 2 ^ n
     else x / 2 ^ n + (2 ^ tyWidth t - 2 ^ (tyWidth t - n)))
  else if x < 2 ^ (tyWidth t - 1) then 0 else 2 ^ tyWidth t - 1
def rotAt (t : Ty) (x n : Nat) : Nat :=
  let w := tyWidth t
  (x * 2 ^ (n % w) % 2 ^ w) + x / 2 ^ (w - n % w)

/-- Field length of a `bfe`/`bfi` control word (R144). -/
def fieldLen (ctl : W32) : Nat := Min.min (ctl.extractLsb' 8 8).toNat 32
def fieldPos (ctl : W32) : Nat := (ctl.extractLsb' 0 8).toNat

def bfeVal (signed : Bool) (a ctl : W32) : W32 :=
  let len := fieldLen ctl
  if len = 0 then 0
  else
    let wide : BitVec 320 := if signed then a.signExtend 320 else a.zeroExtend 320
    let f := (wide >>> fieldPos ctl).toNat % 2 ^ len
    BitVec.ofNat 32 (if signed && 2 ^ (len - 1) ≤ f then f + (2 ^ 32 - 2 ^ len) else f)

def bfiVal (a ctl c : W32) : W32 :=
  let mask : BitVec 32 := BitVec.ofNat 32 ((2 ^ fieldLen ctl - 1) * 2 ^ fieldPos ctl)
  (c &&& ~~~mask) ||| ((a <<< fieldPos ctl) &&& mask)

def popcount (w : Nat) (x : W64) : Nat := (List.range w).countP (fun i => x.getLsbD i)
def clzAt (w : Nat) (x : W64) : Nat :=
  let n := x.toNat % 2 ^ w
  if n = 0 then w else w - 1 - Nat.log2 n
def brevAt (w : Nat) (x : W64) : W64 :=
  (List.range w).foldl (fun acc i => if x.getLsbD (w - 1 - i) then acc ||| (1 : W64) <<< i else acc) 0

/-- One byte of `prmt`, from its control and the byte below it (R146). -/
def prmtByte (pool : W64) (k : BitVec 5) (below : Option Byte) : Byte :=
  let s := pool.extractLsb' (8 * (k.toNat % 8)) 8
  match k.toNat / 8 with
  | 0 => s
  | 1 => if (below.getD s).msb then 0xFF else 0
  | 2 => 0
  | _ => 0xFF

def prmtVal (a ctl c : W32) : W32 :=
  let pool : W64 := c ++ a
  let b0 := prmtByte pool (ctl.extractLsb' 0 5) none
  let b1 := prmtByte pool (ctl.extractLsb' 5 5) (some b0)
  let b2 := prmtByte pool (ctl.extractLsb' 10 5) (some b1)
  let b3 := prmtByte pool (ctl.extractLsb' 15 5) (some b2)
  b3 ++ b2 ++ b1 ++ b0

def leaShift (sh : BitVec 2) : Nat := match sh.toNat with | 0 => 0 | n => n + 1

/-- Byte `i` of a word, signed or natural (R148). -/
def byteInt (signed : Bool) (x : W32) (i : Nat) : Int :=
  let b := x.extractLsb' (8 * i) 8
  if signed then b.toInt else b.toNat

def dp4Val (t : Ty) (sat xb : Bool) (a b c : W32) : W32 :=
  let sa := t == .i8
  let sb := sa != xb
  let z := c.toInt + ((List.range 4).map fun i => byteInt sa a i * byteInt sb b i).foldl (· + ·) 0
  BitVec.ofInt 32 (if sat then clampInt (-(2 ^ 31)) (2 ^ 31 - 1) z else z)

/-- R149. -/
def mix32Val (a b : W32) : W32 :=
  let t := a + b * 0x6C8E9CF5
  let t := t ^^^ (t >>> 16)
  let t := t * 0xB5AD4ECF
  let t := t ^^^ (t >>> 13)
  let t := t * 0x2C1B3C6D
  t ^^^ (t >>> 16)

/-- The two halves of a packed BF16 operation (R155). -/
def halves (f : FVal → FVal → FVal → FVal) (a b c : W32) : W32 :=
  let h := fun (sh : Nat) =>
    BitVec.ofNat 16 (bf16.round .rne false (f (bf16Of (a >>> sh)) (bf16Of (b >>> sh)) (bf16Of (c >>> sh))))
  h 16 ++ h 0

/-- The exact value a `cvt` source holds (R156). -/
def cvtSource (sty : BitVec 4) (x : W64) : FVal :=
  match sty.toNat with
  | 0 => .ofInt (intAt .i8 x) | 1 => .ofInt (intAt .i16 x) | 2 => .ofInt (intAt .i32 x) | 3 => .ofInt (intAt .i64 x)
  | 4 => .ofInt (intAt .n8 x) | 5 => .ofInt (intAt .n16 x) | 6 => .ofInt (intAt .n32 x) | 7 => .ofInt (intAt .n64 x)
  | 10 => f32Of (x.extractLsb' 0 32)
  | 11 => f16Of (x.extractLsb' 0 32)
  | 12 => bf16Of (x.extractLsb' 0 32)
  | 13 => f19Of (x.extractLsb' 0 32)
  | _ => .fin false (2 * (x.toNat % 2 ^ 32) + 1) (-33)

/-- The integer type of a `cvt` source code below 8 (R156). -/
def cvtIntTy : Nat → Ty
  | 0 => .i8 | 1 => .i16 | 2 => .i32 | 3 => .i64 | 4 => .n8 | 5 => .n16 | 6 => .n32 | _ => .n64

/-- Whether the float destination holds every value of the float source, so that `.sat` does nothing
(R61, R63, R156): source codes 10 FP32, 11 FP16, 12 BF16, 13 F19. -/
def cvtWidens (sty : Nat) (dty : Ty) (f19d : Bool) : Bool :=
  match sty, dty with
  | 10, .f32 => !f19d
  | 11, .f32 => true
  | 11, .f16 => true
  | 12, .f32 => true
  | 12, .bf16 => true
  | 13, .f32 => true
  | _, _ => false

def cvtVal (dty : Ty) (rnd : Rnd) (sat : Bool) (sty : BitVec 4) (f19d : Bool) (x : W64) : W64 :=
  let v := cvtSource sty x
  if dty == .f32 || dty == .f16 || dty == .bf16 then
    let s := sat && !cvtWidens sty.toNat dty f19d
    (if f19d then toF19 rnd s v else ofF dty rnd s v).zeroExtend 64
  else if sty.toNat < 8 then intRes dty sat (intAt (cvtIntTy sty.toNat) x)
  else intRes dty false (v.toRange rnd (tyMin dty) (tyMax dty))

/-- The invalid report of a float to integer conversion (R68, R156). -/
def cvtInvalid (dty : Ty) (sty : BitVec 4) (x : W64) : Bool :=
  !(dty == .f32 || dty == .f16 || dty == .bf16) && (cvtSource sty x).isNan

/-- One converted element of `pack` and of the epilogue (R157, R223): format code, value. -/
def packElem (fmt : Nat) (rnd : Rnd) (sat : Bool) (x : FVal) : Nat :=
  match fmt with
  | 0 => bf16.round rnd sat x
  | 1 => fp16.round rnd sat x
  | 3 => e4m3.round rnd sat x
  | 4 => e5m2.round rnd sat x
  | 5 => l8Round x
  | 12 => (x.toRange rnd (-128) 127 % 256).toNat
  | _ => (x.toRange rnd 0 255 % 256).toNat

def packVal (rnd : Rnd) (sat : Bool) (fmt : BitVec 4) (hi : Bool) (a b c : W32) : W32 :=
  let ea := packElem fmt.toNat rnd sat (f32Of a)
  let eb := packElem fmt.toNat rnd sat (f32Of b)
  if fmt = 0 || fmt = 1 then BitVec.ofNat 16 eb ++ BitVec.ofNat 16 ea
  else if hi then BitVec.ofNat 8 eb ++ BitVec.ofNat 8 ea ++ c.extractLsb' 0 16
  else c.extractLsb' 16 16 ++ BitVec.ofNat 8 eb ++ BitVec.ofNat 8 ea

def unpkVal (fmt : BitVec 4) (el : BitVec 3) (a : W32) : W32 :=
  let n := a.toNat
  let h := n / 2 ^ (16 * el.toNat) % 2 ^ 16
  let b := n / 2 ^ (8 * el.toNat) % 2 ^ 8
  let q := n / 2 ^ (4 * el.toNat) % 16
  match fmt.toNat with
  | 0 => toF32 .rne (bf16.val h)
  | 1 => toF32 .rne (fp16.val h)
  | 3 => toF32 .rne (e4m3.val b)
  | 4 => toF32 .rne (e5m2.val b)
  | 5 => toF32 .rne (l8Val b)
  | 10 => toF32 .rne (e2m1.val q)
  | 11 => toF32 .rne (l4Val q)
  | 14 => toF32 .rne (qn4Val q)
  | 12 => (BitVec.ofNat 8 b).signExtend 32
  | 13 => (BitVec.ofNat 4 q).signExtend 32
  | _ => BitVec.ofNat 32 b

/-- The seven predicates as a word (R128). -/
def predWord (rd : Reader) : W32 :=
  (List.range 7).foldl (fun acc i => if rdP rd (.p (BitVec.ofNat 3 i)) then acc ||| (1 : W32) <<< i else acc) 0

def opF1 (rd : Reader) (t : Ty) (r : Rnd) (d a : Operand) (f : FVal → FVal) : List Wr :=
  wrReg d (ofF t r false (f (rdF rd t a)))

def opF2 (rd : Reader) (t : Ty) (r : Rnd) (d a b : Operand) (f : FVal → FVal → FVal) : List Wr :=
  wrReg d (ofF t r false (f (rdF rd t a) (rdF rd t b)))

def opB (rd : Reader) (t : Ty) (d a b : Operand) (f : W64 → W64 → W64) : List Wr :=
  wrTy t d (f (rd t a) (rd t b))

def opSh (rd : Reader) (t : Ty) (d a b : Operand) (f : Ty → Nat → Nat → Nat) : List Wr :=
  wrTy t d (BitVec.ofNat 64 (f t ((rd t a).toNat % 2 ^ tyWidth t) (rd32 rd b).toNat))

def carry (rd : Reader) (ci : BitVec 3) : Int := if ci = 7 then 0 else if rdP rd (.p ci) then 1 else 0

/-- The register and predicate writes of one per-thread instruction of the vector unit or of the
predicate block, its sources read by `rd`; none for an instruction of another kind. -/
def aluWrites (rd : Reader) : Instr → Option (List Wr)
  | .setp _ ty cmp mrg d a b e => some (mergeP rd mrg d e (cmpInt cmp (rdInt rd ty a) (rdInt rd ty b)))
  | .fsetp _ ty cmp mrg d a b e => some (mergeP rd mrg d e (cmpF cmp (rdF rd ty a) (rdF rd ty b)))
  | .pbool _ op d a b => some (wrP d (Sys2Proof.Machine.pbool op (rdP rd a) (rdP rd b)))
  | .pmovSave _ d => some (wrReg d (predWord rd))
  | .pmovLoad _ a mask => some ((List.range 7).filterMap fun i =>
      if mask.getLsbD i then some (.p i ((rd32 rd a).getLsbD i)) else none)
  | .mov _ ty _ d a => some (wrTy ty d (rd ty a))
  | .movi _ ty _ d x => some (wrTy ty d (rd ty (.imm x)))
  | .add _ ty sat d a b => some (wrTy ty d (intRes ty sat (rdInt rd ty a + rdInt rd ty b)))
  | .sub _ ty sat d a b => some (wrTy ty d (intRes ty sat (rdInt rd ty a - rdInt rd ty b)))
  | .mul _ ty sat d a b => some (wrTy ty d (intRes ty sat (rdInt rd ty a * rdInt rd ty b)))
  | .mulhi _ ty d a b => some (wrTy ty d (intRes ty false (rdInt rd ty a * rdInt rd ty b / 2 ^ tyWidth ty)))
  | .mad _ ty sat d a b e => some (wrTy ty d (intRes ty sat (rdInt rd ty a * rdInt rd ty b + rdInt rd ty e)))
  | .addc _ ci co d a b =>
    let z := rdInt rd .n32 a + rdInt rd .n32 b + carry rd ci
    some (wrTy .n32 d (intRes .n32 false z) ++ (if co = 7 then [] else [.p co.toNat (2 ^ 32 ≤ z)]))
  | .subb _ ci co d a b =>
    let z := rdInt rd .n32 a - rdInt rd .n32 b - carry rd ci
    some (wrTy .n32 d (intRes .n32 false z) ++ (if co = 7 then [] else [.p co.toNat (z < 0)]))
  | .abs _ ty sat d a => some (wrTy ty d (intRes ty sat (rdInt rd ty a).natAbs))
  | .min _ ty d a b => some (wrTy ty d (intRes ty false (Min.min (rdInt rd ty a) (rdInt rd ty b))))
  | .max _ ty d a b => some (wrTy ty d (intRes ty false (Max.max (rdInt rd ty a) (rdInt rd ty b))))
  | .and _ ty d a b => some (opB rd ty d a b (· &&& ·))
  | .or _ ty d a b => some (opB rd ty d a b (· ||| ·))
  | .xor _ ty d a b => some (opB rd ty d a b (· ^^^ ·))
  | .not _ ty d a => some (wrTy ty d (~~~(rd ty a)))
  | .shl _ ty d a b => some (opSh rd ty d a b shlAt)
  | .shr _ ty d a b => some (opSh rd ty d a b shrAt)
  | .sra _ ty d a b => some (opSh rd ty d a b sraAt)
  | .rot _ ty d a b => some (opSh rd ty d a b rotAt)
  | .bfe _ ty d a b => some (wrReg d (bfeVal (ty == .i32) (rd32 rd a) (rd32 rd b)))
  | .bfi _ d a b e => some (wrReg d (bfiVal (rd32 rd a) (rd32 rd b) (rd32 rd e)))
  | .popc _ ty d a => some (wrReg d (BitVec.ofNat 32 (popcount (tyWidth ty) (rd ty a))))
  | .clz _ ty d a => some (wrReg d (BitVec.ofNat 32 (clzAt (tyWidth ty) (rd ty a))))
  | .brev _ ty d a => some (wrTy ty d (brevAt (tyWidth ty) (rd ty a)))
  | .prmt _ d a b e => some (wrReg d (prmtVal (rd32 rd a) (rd32 rd b) (rd32 rd e)))
  | .sel _ ty d a b e => some (wrTy ty d (if rdP rd e then rd ty a else rd ty b))
  | .lea _ ty sh d a b => some (wrTy .b64 d (BitVec.ofInt 64
      (rdInt rd .n64 a + rdInt rd ty b * 2 ^ leaShift sh)))
  | .dp4 _ ty sat xb d a b e => some (wrReg d (dp4Val ty sat xb (rd32 rd a) (rd32 rd b) (rd32 rd e)))
  | .mix32 _ d a b => some (wrReg d (mix32Val (rd32 rd a) (rd32 rd b)))
  | .fadd _ ty rnd d a b => some (opF2 rd ty rnd d a b (FVal.add rnd))
  | .fsub _ ty rnd d a b => some (opF2 rd ty rnd d a b (fun x y => FVal.add rnd x y.neg))
  | .fmul _ ty rnd d a b => some (opF2 rd ty rnd d a b FVal.mul)
  | .ffma _ ty rnd d a b e => some (wrReg d (ofF ty rnd false
      (FVal.add rnd (FVal.mul (rdF rd ty a) (rdF rd ty b)) (rdF rd ty e))))
  | .fmin _ ty d a b => some (opF2 rd ty .rne d a b FVal.min)
  | .fmax _ ty d a b => some (opF2 rd ty .rne d a b FVal.max)
  | .fclamp _ ty d a b e => some (wrReg d (ofF ty .rne false
      (((rdF rd ty a).max (rdF rd ty b)).min (rdF rd ty e))))
  | .frnd _ ty rnd d a => some (opF1 rd ty rnd d a (FVal.integral rnd))
  | .fclass _ ty d a => some (wrReg d (classify
      (match ty with | .f16 => fp16 | .bf16 => Sys2Proof.Machine.bf16 | _ => fp32) (rdF rd ty a)))
  | .lg2 _ d a => some (opF1 rd .f32 .rne d a lg2Val)
  | .ex2 _ d a => some (opF1 rd .f32 .rne d a ex2Val)
  | .rcp _ d a => some (opF1 rd .f32 .rne d a rcpVal)
  | .rsq _ d a => some (opF1 rd .f32 .rne d a rsqVal)
  | .sqrt _ d a => some (opF1 rd .f32 .rne d a sqrtVal)
  | .hadd2 _ d a b => some (wrReg d (halves (fun x y _ => FVal.add .rne x y) (rd32 rd a) (rd32 rd b) 0))
  | .hmul2 _ d a b => some (wrReg d (halves (fun x y _ => FVal.mul x y) (rd32 rd a) (rd32 rd b) 0))
  | .hfma2 _ d a b e => some (wrReg d (halves (fun x y z => FVal.add .rne (FVal.mul x y) z)
      (rd32 rd a) (rd32 rd b) (rd32 rd e)))
  | .hmax2 _ d a b => some (wrReg d (halves (fun x y _ => FVal.max x y) (rd32 rd a) (rd32 rd b) 0))
  | .cvt _ dty rnd sat sty f19 d a b =>
    let t := if sty = 3 || sty = 7 then Ty.b64 else .b32
    some (wrTy dty d (cvtVal dty rnd sat sty f19 (rd t a)) ++ wrP b (cvtInvalid dty sty (rd t a)))
  | .pack _ rnd sat fmt hi d a b e => some (wrReg d (packVal rnd sat fmt hi (rd32 rd a) (rd32 rd b) (rd32 rd e)))
  | .unpk _ _ fmt el d a => some (wrReg d (unpkVal fmt el (rd32 rd a)))
  | _ => none

end Sys2Proof.Machine
end

