-- ==== Sys2Proof/Machine/State.lean ====
section
/-! DEFINITION. The state of one D880 module as plain data: every register, memory, queue, table and
object in flight that the manual names, and the state after a module reset (R4, R451).  INVENTORY.md lists
each with its rule and reset value. -/

set_option linter.unusedVariables false

namespace Sys2Proof.Machine

/-- Why a step stops with a fault.  No instruction of the manual stops the machine; the one fault is raised
by the memory operations for an address outside every home, which the address checks of R18 rule out
before it (safe). -/
inductive Fault
  /-- An access past the checks of R18 reached no home.  Raised by no meaning of this model; safe. -/
  | noSuchAddress
  deriving DecidableEq, Repr

/-- Why a step is refused. -/
inductive Refusal
  /-- An instruction with no meaning yet.  Safe. -/
  | notModelled (mnemonic : String)
  deriving DecidableEq, Repr

/-- The access paths of R15 and R86. -/
inductive Path
  | ls | cp | mx | at | bg | rc | host
  deriving DecidableEq, Repr

/-- Whose registers an instruction works on: a thread of a group, or a remote-call callee (R349). -/
inductive TRef
  | thr (group tid : Nat)
  | callee (id : Nat)
  deriving DecidableEq, Repr

/-- A fixed-latency result in flight (R36): the cycle it is delivered in, and the write. -/
structure Pend where
  due : Nat
  w : Wr
  deriving DecidableEq, Repr

/-- R102: not parked, parked at a rejoin clause, or at a gathered instruction with the member mask read
when it parked. -/
inductive Park
  | no
  | rejoin
  | gathered (mask : W32)
  deriving DecidableEq, Repr

/-- The repeat state of R102 and R123. -/
structure Rep where
  remaining : W32
  body : W64
  retPc : W64
  retSlot : BitVec 4
  iteration : W32
  deriving DecidableEq, Repr

/-- An address a memory instruction touches: physical, with the path of the page (R318, R319). -/
structure Loc where
  pa : Nat
  len : Nat
  deriving DecidableEq, Repr

/-- One entry of a quantum-mode thread's commit list, in program order (R91, R92): a store, or a deferred operation with
the slot that issued it and the global word it acts on, which is translated again at the commit (R95, R278). -/
inductive QItem
  | store (pa : Nat) (data : List Byte) (bypass : Bool)
  | spad (core off : Nat) (data : List Byte)
  | op (id : Nat) (slot : BitVec 4) (at_ : Option (W64 × Nat))
  deriving DecidableEq, Repr

/-- The issue and register state of one thread (R35, R37, R102, R116, R415). -/
structure Thread where
  tid : Nat
  lane : Nat
  wave : Nat
  v : List W32
  p : BitVec 7
  sp : W64
  routes : List W128
  pc : W64
  slot : BitVec 4
  depth : Nat
  innermost : Nat
  park : Park
  /-- The first cycle in which the stall count has run out (R40). -/
  wakeAt : Nat
  /-- The cycle in which the thread is not picked for a yield (R41, R124). -/
  yieldAt : Nat
  flags : List Nat
  rep : Option Rep
  starve : Nat
  exited : Bool
  /-- Stopped at a trap until the group resumes (R414). -/
  stopped : Bool
  stepOver : Bool
  skid : Nat
  prog : W32
  trapcode : W32
  trapaddr : W64
  rcstat : W32
  rcseq : W16
  /-- The cycle at whose end a token released it (R104, R111). -/
  releasedAt : Nat
  pend : List Pend
  /-- Operations that every later access of the thread follows as parties of a scope see it (R77, R83, acquire). -/
  acq : List (Nat × Scope)
  /-- Queued writes that must be visible at a scope before any later write of the thread (R83, release). -/
  rel : List (Nat × Scope)
  /-- Operations that must have been performed, with the writes they observe visible at a scope, before any later
  write of the thread is visible (R83, R85). -/
  relOps : List (Nat × Scope)
  /-- Operations pending at a `fence.ar`, and queued writes they have observed since, which must be visible at its
  scope before any later access (R83). -/
  arOps : List (Nat × Scope)
  arW : List (Nat × Scope)
  /-- The operation the thread waits for before its next instruction (R103). -/
  wait : Option Nat
  quantum : List QItem
  qcount : Nat
  qended : Bool
  /-- The cycle in which a `sleep` ends (R431). -/
  sleep : Option Nat
  /-- Commits completed while the thread stood at its waiting instruction (R93). -/
  qwait : Nat
  /-- The gathered set that the last commit put the thread into (R132). -/
  gset : Option Nat
  /-- The thread stands where its group began, and no instruction has moved it there (R41). -/
  fresh : Bool
  deriving DecidableEq, Repr

/-- R108. -/
structure Token where
  valid : Bool
  rejoin : W64
  parent : Option Nat
  expected : W32
  arrived : W32
  deriving DecidableEq, Repr

/-- One wave (R13, R37, R203, R204, R222). -/
structure Wave where
  idx : Nat
  core : Nat
  slot : Nat
  freed : Bool
  tokens : List Token
  accbase : W32
  acclim : W32
  mbind : W32
  fmtdiv : W32
  bias : W32
  scale : W32
  stride : W32
  /-- Instructions issued since the group's halt (R416). -/
  skid : Nat
  deriving DecidableEq, Repr

/-- What stopped a group (R416, R417, R420, R413, R430). -/
inductive HaltWhy
  | trap (cause : Nat)
  | preempt
  | deadline
  | ended
  deriving DecidableEq, Repr

/-- The halt of a group: its reason, the trap of the thread that decided it, whether the group is quiet
and its image written. -/
structure Halt where
  why : HaltWhy
  decider : Nat
  quiet : Bool
  /-- The block where its trap image begins and the slots of PART_AREA that hold it, core by core, once written (R417). -/
  image : Option (Nat × List Nat)
  /-- The cycle the halt was sent in (R417). -/
  since : Nat
  deriving DecidableEq, Repr

/-- An older value a uniform register may still read as for threads the write has not been ordered
before (R35): register, old value, writer, released, threads that have acquired since.  DEDUCED, log entry 15. -/
structure KOld where
  reg : Nat
  old : W32
  writer : Nat
  released : Bool
  seen : List Nat
  /-- The cycle from which the writer itself reads the new value (R36). -/
  due : Nat
  deriving DecidableEq, Repr

/-- A resident group (R13, R405, R406). -/
structure Group where
  id : Nat
  launch : Nat
  index : Nat
  cellPos : Nat
  part : Nat
  lead : Nat
  pair : Bool
  stackSlot : Option Nat
  spadOff : Nat
  accOrg : Nat
  k : List W32
  kOld : List KOld
  waves : List Wave
  threads : List Thread
  halt : Option Halt
  /-- Code stores made visible after this stamp are not seen by this group's fetches (R28). -/
  fetchStamp : Nat
  /-- The group whose trap this handler group handles (R417). -/
  handles : Option Nat
  deriving DecidableEq, Repr

/-- The fields of a launch record (R401). -/
structure LaunchRec where
  va : W64
  entry : W64
  ngrp : Nat
  args : W64
  join : W64
  threads : Nat
  cell : Nat
  regs : Nat
  scratch : Nat
  accrows : Nat
  power : Nat
  deadline : Nat
  quant : Bool
  narrow : Bool
  pair : Bool
  prio : Nat
  qlen : Nat
  slots : W64
  comp : W64
  rout : List W64
  pmask : Nat
  stkn : Nat
  stksz : Nat
  stack : W64
  deriving DecidableEq, Repr

/-- A launch (R402, R403): the record, its context, the range of groups still to place, and the outcome
that an error has fixed. -/
structure Launch where
  id : Nat
  rc : LaunchRec
  root : Nat
  first : Nat
  count : Nat
  /-- Groups that the ranges made so far cover (R403). -/
  upto : Nat
  placed : Nat
  ended : Nat
  args : W64
  join : W64
  priv : Bool
  /-- D, none until its first group is admitted (R413). -/
  dl : Option Nat
  outcome : Option (Nat × Nat)
  done : Bool
  stamp : Nat
  order : Nat
  quantum : Nat
  committing : Bool
  /-- Partitions it has been admitted into (R274), and stack slots that its saved images hold (R421). -/
  parts : List Nat
  saved : List Nat
  deriving DecidableEq, Repr

/-- A clause header's fields (R38). -/
structure Header where
  cnt : Nat
  wait : BitVec 12
  sav : Bool
  saf : Nat
  sbv : Bool
  sbf : Nat
  kind : Nat
  yld : Bool
  deriving DecidableEq, Repr

/-- The gang being issued (R104): where, which threads, the clause and slot, and the level it runs at. -/
structure Gang where
  core : Nat
  slice : Nat
  pc : W64
  slot : BitVec 4
  hdr : Header
  members : List TRef
  priv : Bool
  deriving DecidableEq, Repr

/-- One sector of the L2 (R8, R299, R300). -/
structure Sector where
  base : Nat
  data : List Byte
  dirty : Bool
  /-- The way partition its line stands in (R8, R318). -/
  ways : Nat
  deriving DecidableEq, Repr

/-- One line of a core's read-only L1 (R82). -/
structure L1Line where
  base : Nat
  data : List Byte
  deriving DecidableEq, Repr

/-- How far a queued write has become visible (R76, R81): on its own path only, to the engines of its core, to every
party. -/
inductive Reach
  | own | core | all
  deriving DecidableEq, Repr

/-- A write on its way to its point of visibility (R81, R87). -/
structure QWrite where
  id : Nat
  path : Path
  core : Nat
  pa : Nat
  data : List Byte
  bypass : Bool
  issuer : Option TRef
  obs : List TRef
  /-- Writes that must be visible at a scope first (R83). -/
  after : List (Nat × Scope)
  /-- Accesses that must have been performed first, and the scope at which what they observe must be visible (R83). -/
  afterOps : List (Nat × Scope)
  reach : Reach
  /-- The completion that tells a thread of this write (R87): request, operation or object. -/
  tag : Nat
  /-- Acquires of a narrow scope that the write may be performed ahead of (R77). -/
  under : List (Nat × Scope)
  /-- The group and wave whose register a window write goes to (R20). -/
  holder : Option (Nat × Nat)
  deriving DecidableEq, Repr

/-- A byte changed at its point of visibility while launches were resident, for R28: stamp, address, old byte. -/
structure Undo where
  stamp : Nat
  pa : Nat
  old : Byte
  deriving DecidableEq, Repr

/-- The memories of the module and the writes in flight toward them. -/
structure Memory where
  dram : List Host.Cell
  hostw : List Host.Cell
  l2 : List Sector
  /-- Writes made visible beyond their path come first, in the order that happened; the others in the order of entry. -/
  wq : List QWrite
  undo : List Undo
  /-- For each 4-byte word a thread has written, the thread and those whose read-modify-writes followed (R84). -/
  heads : List (Nat × List TRef)
  deriving DecidableEq, Repr

/-! The work in flight of the load/store unit, the matrix unit, the copy engines and the atomic service. -/

/-- A place a copy engine, an epilogue or a window access writes or reads (R17, R19 to R22, R235). -/
inductive Place
  | mem (pa : Nat)
  | spad (core off : Nat)
  | reg (core slot reg lane byte : Nat)
  | acc (core off : Nat)
  | ctl (core off : Nat)
  | nowhere
  deriving DecidableEq, Repr

/-- One aligned word, or part of one, that a load still has to read or has read (R78). -/
structure Part where
  at_ : Place
  len : Nat
  bypass : Bool
  got : Option (List Byte)
  /-- Its bytes, with the threads whose writes they are, when a later write of the thread was performed ahead of it (R77). -/
  was : Option (List Byte × List TRef)
  deriving DecidableEq, Repr

/-- One run of bits still to move: from a place, or cyclically from given bytes when the place is nowhere, to a
place; the add of a scatter-add or reduce by element type (R239 to R243, R371). -/
structure Piece where
  src : Place
  bytes : List Byte
  sbit : Nat
  dst : Place
  dbit : Nat
  bits : Nat
  add : Option Nat
  bypass : Bool
  /-- The source's page has the bypass policy (R319). -/
  sby : Bool
  /-- The virtual addresses of source and destination (R234). -/
  sva : Nat
  dva : Nat
  deriving DecidableEq, Repr

/-- Where a load's bytes go: the registers of a typed load (vector or uniform), or gathered elements (R178). -/
inductive Fin
  | regs (uniform : Bool) (first : Nat) (ty : Ty) (count : Nat)
  | elems (first : Nat) (ty : Ty) (count : Nat)
  | none
  deriving DecidableEq, Repr

/-- A read-modify-write at a home slice (R187, R270): operation, type, address, operands. -/
structure Rmw where
  op : AtomOp
  ty : Ty
  pa : Nat
  b : W64
  c : W64
  bypass : Bool
  deriving DecidableEq, Repr

/-- An update of a barrier object kept for a commit (R200). -/
inductive BarrUp
  | init (e : Nat)
  | arrive (n : Nat) (chk : Bool)
  | expect (b : Nat)
  deriving DecidableEq, Repr

/-- What a pending operation of a thread does when it is performed, and what it writes (R39). -/
inductive OpKind
  /-- Values already fixed: special functions, collectives, scratchpad steps, register reads. -/
  | result (ws : List Wr)
  /-- A load: whether the L1 may serve it, its parts, its destination, further writes with it. -/
  | load (l1 : Bool) (parts : List Part) (fin : Fin) (extra : List Wr)
  /-- `mwait`: address, width in bytes, value, destination type, armed, the value that ended it (R189). -/
  | mwait (pa : Nat) (ty : Ty) (val : W64) (dst : Nat) (armed : Bool) (hit : Option W64)
  /-- `cntw` (R260) and `jwait` (R429) wait for a counter at least a value, or a count of zero. -/
  | cntw (pa : Nat) (val : W64) (dst : Nat) (armed : Bool) (hit : Option W64)
  | jwait (pa : Nat) (dst : Nat) (armed : Bool) (hit : Option W64)
  /-- `barr.wait`: core, offset, phase seen, last cycle, destination predicate, outcome (R197). -/
  | barrWait (core off : Nat) (seen : Nat) (limit : Option Nat) (dst : Nat) (hit : Option Bool)
  /-- An atomic at its home slice: gang run, operation, destination register or none (R271, R272). -/
  | atomic (run : Nat) (m : Rmw) (dst : Option Nat)
  /-- `acall`: address, routine, registers, status register, results (R275). -/
  | acall (run pa : Nat) (va : W64) (entry : W64) (root : Nat) (args : List W32) (dst res : Nat) (bypass : Bool)
  /-- `ast` and `azero`: physical rows and words to write once no queued operation writes the row (R220). -/
  | accWrite (core row first : Nat) (words : List W32)
  /-- `ald`: core, row, first word, destination, words (R220). -/
  | accRead (core row first dst count : Nat)
  /-- A matrix operation in its core's queue; the flags fall at its commit (R214). -/
  | matrix
  /-- `mld`: runs still to read, the destination range or registers, and its bytes so far (R221). -/
  | mld (runs : List Piece) (core off : Nat) (dst : Option Nat) (img : List Byte)
  /-- An `mld` kept for a commit (R228): form, record, coordinates, scratchpad address, first register. -/
  | mldq (form : MldForm) (va : W64) (cs : List Nat) (dst : W32) (reg : Nat)
  /-- `mret`: the pieces still to write (R224). -/
  | mret (pieces : List (Place × Bool × List Byte))
  /-- A routed `mret` kept for a commit: its route register, its rows at their destinations (R226). -/
  | mroute (route : W128) (rows : List (W64 × List Byte))
  /-- `bgload`: the load descriptor's address, destination (R309); `bgwait`: completion word, destination, armed, the value
  that ended it (R312). -/
  | bgload (va : W64) (dst : Nat)
  /-- `bgstat.eng` kept for a commit (R315): engine, destination. -/
  | bgstat (eng dst : Nat)
  | bgwait (pa : Nat) (dst : Nat) (armed : Bool) (hit : Option W64)
  /-- `bfence`: its channel mask and stack mask (R305, R311). -/
  | bfence (chMask stMask : Nat)
  /-- `pgreq` waiting for its answer (R337), `pgmig` (R338), invalidations (R339, R340). -/
  | pgreq (va : W64) (write : Bool) (dst : Nat) (tag : Option Nat)
  | pgmig (m : Nat) (dst : Nat)
  | inval (frames : List (Nat × Nat))
  /-- `rcall`: the call, its reply registers (R347); `rwait`: the destination, its result (R353); `rstat` (R354). -/
  | rcall (call dst m : Nat)
  | rwait (dst : Nat)
  /-- `cwait`: the instance waited for, the destination (R391). -/
  | cwait (plan : Nat) (dst : Nat)
  /-- `cplan` kept for a commit (R396): descriptor, destination. -/
  | cplan (va : W64) (dst : Nat)
  /-- Deferred scratchpad work of quantum mode (R200): `satom` and barrier updates, at core and offset. -/
  | satom (core off : Nat) (m : Rmw) (dst : Nat)
  /-- A `discard` kept for the commit (R200): the first byte, how many, the page's policy. -/
  | discard (pa n : Nat) (bypass : Bool)
  | barrUp (core off : Nat) (u : BarrUp)
  /-- Work kept for the commit of a quantum (R92): a kick, a bank launch, a collective step, a pushed record. -/
  | ckick (core : Nat) (head : W64)
  | bgx (va : W64)
  | cgo (plan : Nat)
  | spawn (q : Nat) (va : W64)
  /-- `qsync` and commit waits (R92, R433). -/
  | qsync (commit : Nat)
  deriving DecidableEq, Repr

/-- A pending operation (R39): the thread, the flag it lowers, the kind, the acquire its return performs,
and what the thread comes to observe by it (R87).  DEDUCED, log entry 30. -/
structure Op where
  id : Nat
  thr : TRef
  core : Nat
  flag : Option Nat
  kind : OpKind
  acq : Option Scope
  /-- Accesses that must have been performed first, with the scope of what they observe (R83, R273). -/
  before : List (Nat × Scope)
  /-- Acquires of a narrow scope that a load has been issued after and may run ahead of (R77). -/
  under : List (Nat × Scope)
  /-- The threads whose writes the operation has read (R84). -/
  from_ : List TRef
  /-- Completions its return tells the thread of: the tags of their writes (R87). -/
  sees : List Nat
  /-- Released writes it carries, for an atomic with release order (R273). -/
  after : List (Nat × Scope)
  /-- Destinations a fixed-latency write has been issued to since (R36): vn as n, pn as 256 + n, kn as 512 + n. -/
  clob : List Nat
  /-- The step that issued it, one for all lanes of a gang (R172). -/
  run : Nat
  deriving DecidableEq, Repr

/-- A matrix operation in a core's queue (R216, R227). -/
structure MuOp where
  id : Nat
  group : Nat
  core : Nat
  quartet : Nat
  pair : Bool
  row : Nat
  addr : W32
  vb : Nat
  fmt : W32
  elected : Nat
  /-- The registers that named row, address and format word of the elected thread (R218). -/
  locks : List Operand
  /-- The rows it writes, as they stood at issue (R216): follower or leader, position, first row counted from the group's. -/
  rows : List (Bool × Nat × Nat)
  /-- The B registers at issue, by 32 × position + lane (R36, R212, R218). -/
  breg : List (List W32)
  members : List Nat
  flags : List (Nat × Nat)
  abandoned : Bool
  /-- The cycle before which it does not commit (R217). -/
  due : Nat
  deriving DecidableEq, Repr

/-- A kick held by a request engine (R230): head offset, wave slot, the thread that kicked. -/
structure Kick where
  head : Nat
  slot : Nat
  by_ : Option TRef
  group : Nat
  deriving DecidableEq, Repr

/-- A copy request in flight (R231 to R237, R254). -/
structure Req where
  id : Nat
  chain : Nat
  pos : Nat
  core : Nat
  cluster : Nat
  group : Nat
  root : Nat
  addr : Place
  body : List Byte
  by_ : Option TRef
  began : Bool
  pieces : List Piece
  code : Option (Nat × W64)
  total : Nat
  landed : Nat
  bar : Option (Nat × Nat)
  sbr : Option (Nat × Nat × Nat)
  /-- How many fabric transfers of the request are not answered yet, where there are any (R369). -/
  xfer : Option Nat
  /-- Retired; kept while writes it landed wait to be seen (R87). -/
  retired : Bool
  deriving DecidableEq, Repr

/-- One core (R10, R22, R49, R185). -/
structure Core where
  id : Nat
  spad : List Host.Cell
  /-- Scratchpad ranges as placements left them unspecified, latest first: offset, length, placement (R406). -/
  spadAlloc : List (Nat × Nat × Nat)
  /-- Committed accumulator rows that have been written (R202). -/
  rows : List (Nat × List W32)
  /-- Shadow copies of the rows that an operation has written (R202, R214). -/
  shadow : List (Nat × List W32)
  /-- Accumulator row ranges as placements left them unspecified, latest first (R406). -/
  rowAlloc : List (Nat × Nat × Nat)
  l1 : List L1Line
  stat : W32
  bpaddr : List W64
  bpctl : List W32
  /-- Breakpoint registers written in this cycle, %bpaddrN by N and %bpctlN by N + 4 (R130). -/
  bpSet : List (Nat × W64)
  kicks : List Kick
  /-- The chain being fetched: its kick, next request offset, chain number, next position. -/
  chain : Option (Kick × Nat × Nat × Nat)
  mu : List MuOp
  /-- Slices that have issued in this cycle. -/
  issued : List Nat
  deriving DecidableEq, Repr

/-! Translation, migration and stubs (R317 to R340). -/

/-- Whose translation cache an access goes through (R321): a core's, a cluster's walk-ahead TLB, or the die's alone. -/
inductive TlbUser
  | core (id : Nat)
  | walk (cluster : Nat)
  | die
  deriving DecidableEq, Repr

/-- A translation in a die's last-level TLB (R321, R322): root frame, VA[56:16], effective leaf, and the core and
walk-ahead TLBs that hold it too. -/
structure TlbEnt where
  die : Nat
  root : Nat
  page : Nat
  leaf : W64
  held : List TlbUser
  deriving DecidableEq, Repr

/-- A shadow stub (R329): the page and the table it was mapped through, its die, old frame, new rank and frame,
when installed (ns), the dies still to be queried and still to reply. -/
structure Stub where
  id : Nat
  va : W64
  root : Nat
  die : Nat
  old : Nat
  rank : Nat
  new : Nat
  since : Nat
  queries : List Nat
  waiting : List Nat
  deriving DecidableEq, Repr

/-- The step a migration stands at (R326). -/
inductive MigPhase
  | waiting | copying | final | ended
  deriving DecidableEq, Repr

/-- A page migration in progress (R326, R338): the operation of its `pgmig`, the leaf, the frames, the
passes made and the sectors still to copy. -/
structure Mig where
  id : Nat
  op : Nat
  va : W64
  root : Nat
  leafPa : Nat
  old : Nat
  rank : Nat
  new : Nat
  phase : MigPhase
  passes : Nat
  dirty : List Nat
  deriving DecidableEq, Repr

/-- A page request not yet answered (R324). -/
structure PageReq where
  root : Nat
  page : Nat
  write : Bool
  tag : Nat
  die : Nat
  deriving DecidableEq, Repr

/-- A record held on chip for the page-request ring (R324). -/
structure PrRecord where
  lo : W64
  hi : W64
  tag : Option Nat
  deriving DecidableEq, Repr

/-- One entry of a page owner cache (R321). -/
structure PocEnt where
  die : Nat
  rank : Nat
  page : Nat
  owner : Nat
  deriving DecidableEq, Repr

/-- A REDIRECT on its way to the caches of a die (R329). -/
structure Redir where
  id : Nat
  die : Nat
  root : Nat
  old : Nat
  new : Option Nat
  deriving DecidableEq, Repr

structure Xlat where
  tlb : List TlbEnt
  stubs : List Stub
  migs : List Mig
  redirs : List Redir
  poc : List PocEnt
  /-- Operations forwarded once already, with the hops they have taken (R330). -/
  hops : List (Nat × Nat)
  prBase : W64
  prSize : W32
  prTail : W32
  prHead : W32
  prHeld : List PrRecord
  prOut : List PageReq
  prTag : Nat
  deriving DecidableEq, Repr

/-! Bank-group engines, launches and row ownership (R280 to R304). -/

/-- One bank-group engine (R281): number 256 × stack + e. -/
structure Engine where
  id : Nat
  store : List W32
  pc : Nat
  x : List (BitVec 24)
  loops : List (Nat × Nat)
  vin : List Byte
  latch : List (List Byte)
  tags : List Nat
  /-- Set s, bank b, lane i at index 64 s + 16 b + i. -/
  acc : List W32
  scl : List Byte
  rows : List (Option Nat)
  /-- The instance whose run it performs: launch, instance number. -/
  run : Option (Nat × Nat)
  lastStatus : Nat
  lastRex : Nat
  deriving DecidableEq, Repr

/-- Kinds of row ownership entries (R298). -/
inductive RotKind
  | read | write | emit
  deriving DecidableEq, Repr

/-- A row ownership entry (R298): channel number 32 × stack + ch. -/
structure RotEnt where
  chan : Nat
  rlo : Nat
  rhi : Nat
  pcm : BitVec 2
  bgm : BitVec 4
  kind : RotKind
  excl : Bool
  launch : Nat
  lowEng : Nat
  deriving DecidableEq, Repr

/-- One program instance (R294): its engines (leader first), its run's mode, re-executions, signatures by
channel, commands issued, the status that ended it and the engine that failed. -/
structure Inst where
  engines : List Nat
  spec : Bool
  rex : Nat
  excl : Bool
  conflict : Bool
  sigs : List (Nat × BitVec 1024)
  cmds : Nat
  /-- What its runs wrote, address and length (R288). -/
  wrote : List (Nat × Nat)
  status : Option Nat
  bad : Option Nat
  deriving DecidableEq, Repr

/-- Where a bank-queue entry stands. -/
inductive BankPhase
  | queued | running | ended
  deriving DecidableEq, Repr

/-- A bank launch or store load taken from a ring (R293 to R297, R309). -/
structure BankLaunch where
  id : Nat
  load : Bool
  va : W64
  root : Nat
  part : Nat
  prio : Nat
  stack : Nat
  body : List Byte
  readable : Bool
  phase : BankPhase
  insts : List Inst
  vins : List (Nat × List Byte)
  emitPa : List (Nat × Nat)
  /-- Where its completion word goes and whether under bypass, once admission has translated it (R296); none where it now
  lies on another device. -/
  comp : Option (Nat × Bool)
  status : Nat
  merged : Bool
  /-- The `bgload` operation that waits for the status. -/
  op : Option Nat
  /-- The launch whose thread posted it. -/
  launch : Option Nat
  deriving DecidableEq, Repr

structure Bank where
  engines : List Engine
  launches : List BankLaunch
  rot : List RotEnt
  /-- ROT_CONFLICTS and RMAP_ADDR by channel controller, where written (R304). -/
  conflicts : List (Nat × Nat)
  rmapAddr : List (Nat × W32)
  /-- The engine whose command is being issued, leader of its instance (R290). -/
  cur : Nat
  /-- Words of data in which an uncorrectable error stands: engine or row-set addresses (R288). -/
  bad : List Nat
  deriving DecidableEq, Repr

/-! Remote calls (R343 to R358). -/

/-- Where a call stands: on its way or queued, running, or with its reply on the way back. -/
inductive CallPhase
  | sent | queued | running | replied
  deriving DecidableEq, Repr

/-- The key of a deduplication entry: core, wave slot, lane and SEQ (R358). -/
structure CallKey where
  core : Nat
  slot : Nat
  lane : Nat
  seq : Nat
  deriving DecidableEq, Repr

/-- A remote call (R347): the caller, the executor (stack core 4 s + k, or 32 + cluster index over the
module), what was sent, and the reply. -/
structure Call where
  id : Nat
  op : Nat
  key : CallKey
  again : Bool
  l2 : Bool
  exec : Nat
  va : W64
  pa : Nat
  leafW : Bool
  /-- The target's page has the bypass policy (R319). -/
  bypass : Bool
  entry : W64
  root : Nat
  args : List W32
  m : Nat
  dst : Nat
  sentAt : Nat
  phase : CallPhase
  hops : Nat
  fwd : Bool
  cached : Bool
  code : Nat
  faultVa : W64
  reply : List W32
  /-- The caller has already completed with LOST (R357). -/
  lost : Bool
  deriving DecidableEq, Repr

/-- A running callee (R349): its call, its thread, the instructions executed, the frame it works in. -/
structure Callee where
  id : Nat
  call : Nat
  exec : Nat
  th : Thread
  count : Nat
  deriving DecidableEq, Repr

/-- A deduplication entry (R358). -/
structure Dedup where
  id : Nat
  exec : Nat
  key : CallKey
  call : Nat
  done : Option Nat
  code : Nat
  faultVa : W64
  reply : List W32
  deriving DecidableEq, Repr

structure Remote where
  calls : List Call
  callees : List Callee
  dedup : List Dedup
  timeout : W32
  lost : W64
  cached : W64
  deriving DecidableEq, Repr

/-! The fabric (R362 to R394). -/

/-- A transfer of this device toward a peer, not yet acknowledged (R369, R372): what waits for it. -/
inductive XferOf
  | req (id : Nat)
  | route (grp core part : Nat) (dest : W64) (cnt : Option W64)
  | routeCtr (core part : Nat) (dest : W64)
  | coll (inst : Nat)
  | page (mig : Nat)
  /-- The result of a round, to the group that `dev` then numbers (R378). -/
  | cast
  deriving DecidableEq, Repr

structure Xfer where
  id : Nat
  dev : Nat
  of : XferOf
  pkt : Packet
  sentAt : Option Nat
  /-- The die whose copy engines inject it, and the port whose queue holds it (R362). -/
  die : Nat
  port : Option Nat
  deriving DecidableEq, Repr

/-- A counter increase that follows landed bytes (R226, R244): the request or mret it belongs to, the counter's address
here, or its virtual address on another device with the transfer that will carry the increase there. -/
structure CtrInc where
  id : Nat
  pa : Nat
  req : Option Nat
  obs : List TRef
  /-- The counter's page has the bypass policy (R319). -/
  bypass : Bool
  far : Option (Nat × XferOf)
  deriving DecidableEq, Repr

/-- A MODE 1 landing that waits at the interface or is held for the next round (R378, R379). -/
structure RedLand where
  id : Nat
  src : Nat
  rcb : W64
  base : W64
  off : Nat
  data : List Byte
  /-- The plane it came over, 18 for one of this device's own (R362, R368). -/
  plane : Nat
  deriving DecidableEq, Repr

/-- An open round (R378): its control block, the bytes landed in each slot, twice-landed marks. -/
structure Round where
  rcb : W64
  die : Nat
  landed : List (Nat × Nat)
  slots : List (Nat × List (Nat × List Byte))
  doubled : Bool
  deriving DecidableEq, Repr

/-- A collective plan (R389): handle, launch, descriptor bytes, instances started. -/
structure Plan where
  handle : Nat
  launch : Nat
  root : Nat
  desc : List Byte
  started : Nat
  deriving DecidableEq, Repr

/-- An instance of a plan (R390): contributions received by rank, status, whether it has ended. -/
structure CollInst where
  id : Nat
  plan : Nat
  launch : Nat
  desc : List Byte
  root : Nat
  n : Nat
  by_ : Option TRef
  begun : Bool
  contrib : List (Nat × List Byte)
  /-- Destination chunks that have landed with their counters raised (R385). -/
  chunks : List Nat
  status : Nat
  done : Bool
  bad : Bool
  deriving DecidableEq, Repr

/-- A packet of an instance this device has not started yet (R385). -/
structure EarlyColl where
  tag : Nat
  n : Nat
  src : Nat
  digest : Nat
  data : List Byte
  status : Nat
  deriving DecidableEq, Repr

structure Fabric where
  id : W32
  ctl : W32
  root : W64
  timeout : W32
  lanes : List Nat
  retries : List Nat
  err : W64
  mgrp : List W64
  xfers : List Xfer
  waiting : List RedLand
  rounds : List Round
  plans : List Plan
  insts : List CollInst
  early : List EarlyColl
  slotTable : Option (List Byte)
  /-- The table to install, or none to remove, at the next frame boundary (R392). -/
  slotNext : Option (Option (List Byte))
  slotByLaunch : Bool
  rate : List (Nat × Nat)
  /-- The time of a rank's last notice or recovery step, and that before which no further packet toward it begins (R373). -/
  rateSeen : List (Nat × Nat)
  rateFree : List (Nat × Nat)
  deriving DecidableEq, Repr

/-! The command processor, the host attachment and the security controller. -/

/-- An entry a device-side push has appended to a ring that has been accepted, or waits (R400). -/
structure Push where
  q : Nat
  bytes : List Byte
  root : Option Nat
  part : Nat
  op : Option Nat
  /-- The launch of the pushing thread. -/
  launch : Option Nat
  deriving DecidableEq, Repr

/-- One queue (R398, R399): registers, the entries accepted and not yet taken with who pushed each. -/
structure Queue where
  base : W64
  size : W32
  pushed : W32
  head : W32
  root : W64
  /-- Accepted entries that the device pushed, by their count in the ring; the others are the host's. -/
  entries : List (Nat × Push)
  /-- When entries were pushed, for the code that a launch may fetch (R28): first count, how many, stamp. -/
  stamps : List (W32 × Nat × Nat)
  deriving DecidableEq, Repr

/-- The head of a compute queue once taken: what it places (R403). -/
inductive QHead
  | range (launch : Nat)
  | resume (set : Nat) (launchVa : W64)
  deriving DecidableEq, Repr

/-- Where a pre-emption of a partition stands (R420). -/
inductive Preempt
  | none | halting
  deriving DecidableEq, Repr

/-- What stands reserved for a partition's handler group (R418): nothing, a record not read yet, one that cannot
be used, one that waits for room, or its wave slots, scratchpad and rows on a core. -/
inductive Resv
  | none | unread | bad
  | pending (rc : LaunchRec)
  | held (rc : LaunchRec) (core : Nat) (slots : List Nat) (spad row : Nat)
  deriving DecidableEq, Repr

/-- One partition (R404, R409, R418, R420). -/
structure Part_ where
  rect : W32
  root : W64
  handler : W64
  area : W64
  save : W64
  dlLimit : W64
  shares : W32
  stall : Bool
  saveBad : Bool
  stopped : Bool
  preempt : Preempt
  /-- What is reserved for a handler group (R418). -/
  reserved : Resv
  /-- A new handler address that waits for the running handler to end (R418). -/
  handlerNext : Option W64
  /-- Quiet groups that wait for the handler, in the order they became quiet (R418). -/
  quietQ : List Nat
  routines : List W64
  deriving DecidableEq, Repr

/-- An error record held for the ring (R412). -/
structure ErrRec where
  time : W64
  src : W16
  kind : Nat
  part : Nat
  addr : W64
  detail : W64
  deriving DecidableEq, Repr

/-- The command processor (R397 to R408). -/
structure Cp where
  queues : List Queue
  /-- Heads taken from compute rings, by queue, that place groups (R403, R404). -/
  heads : List (Nat × QHead)
  waitPush : List Push
  parts : List Part_
  erBase : W64
  erSize : W32
  erTail : W32
  erHead : W32
  erHeld : List ErrRec
  erLoss : Bool
  paBank : W32
  paBudget : W32
  paTable : W64
  /-- Copy-queue requests running: request, queue, ring entry address (R398). -/
  copyRun : List (Nat × Nat × Nat)
  /-- Image sets that a pre-emption wrote: address, launch (R403, R424). -/
  images : List (Nat × Nat)
  /-- Launch records that a kind-0 reference has had accepted: address, root frame (R403). -/
  accepted : List (Nat × Nat)
  /-- Queued matrix operations that an image keeps by: launch, group index, operation (R423). -/
  kept : List (Nat × Nat × MuOp)
  deriving DecidableEq, Repr

/-- A section of a loaded code object: where it is mapped, what it holds, whether its pages may be written and run (R457). -/
structure CodeSection where
  va : Nat
  bytes : List Byte
  w : Bool
  x : Bool
  deriving DecidableEq, Repr

/-- A code object that the loader has checked: its status (R443), its templates with relocated addresses, its sections. -/
structure LoadedObj where
  status : Nat
  templates : List Byte
  sections : List CodeSection
  deriving DecidableEq, Repr

/-- The boot and security block and the host attachment (R446 to R455). -/
structure Boot where
  stat : W32
  bar2 : W64
  dbg : W32
  attStat : W32
  alarm : W32
  flash : List Byte
  staged : List Host.Cell
  m0 : List Byte
  m1 : List Byte
  /-- The signed configuration record in flash (R451). -/
  config : List Byte
  debugOk : Bool
  /-- The activation code; none once a level-2 alarm has erased it (R452, R453). -/
  activation : Option (List Byte)
  keysErased : Bool
  /-- The report buffer of an attestation that waits for its host translation (R452). -/
  att : Option Nat
  /-- The number of boots, naming the image key of this one (R422, R452). -/
  boots : Nat
  /-- PCIe addresses with a valid ATS translation cached, and those waiting (R448). -/
  ats : List Nat
  atsWait : List Nat
  /-- MSI-X raises so far, vectors 0 and 1 (R448). -/
  msix : List Nat
  /-- The answer to the last host read: register or memory bytes, none for an Unsupported Request. -/
  reply : Option (List Byte)
  /-- Code objects loaded (R442, R443, R457). -/
  objects : List LoadedObj
  deriving DecidableEq, Repr

/-- What runs next: a slice's gang, an engine's command, a callee's instruction, an event, or the clock. -/
inductive Turn
  | gang (core slice : Nat)
  | engine (e : Nat)
  | callee (id : Nat)
  | event (i : Instr)
  | cycle
  deriving DecidableEq, Repr

/-- The state of the module. -/
structure State where
  /-- Core cycles since module reset, `%clk` (R37); the GTSC follows from it (R454). -/
  clk : Nat
  /-- GTSC nanoseconds at module reset (R454). -/
  gtsc0 : Nat
  /-- Steps performed: the key of every free value (the model's own). -/
  tick : Nat
  nextId : Nat
  stamp : Nat
  gang : Gang
  turns : List Turn
  mem : Memory
  cores : List Core
  launches : List Launch
  groups : List Group
  ops : List Op
  reqs : List Req
  incs : List CtrInc
  xlat : Xlat
  bank : Bank
  remote : Remote
  fab : Fabric
  cp : Cp
  boot : Boot
  deriving DecidableEq, Repr

/-! The state after a module reset: every register at its Reset column value (R4), memories zero (R451). -/

def Header.reset : Header := ⟨0, 0, false, 0, false, 0, 0, false⟩

def Gang.reset : Gang := ⟨0, 0, 0, 0, Header.reset, [], false⟩

def Memory.reset : Memory := ⟨[], [], [], [], [], []⟩

/-- No breakpoint is set.  DESIGN CHOICE, log entry 4. -/
def Core.reset (id : Nat) : Core :=
  ⟨id, [], [], [], [], [], [], 0, [0, 0, 0, 0], [0, 0, 0, 0], [], [], none, [], []⟩

def Xlat.reset : Xlat := ⟨[], [], [], [], [], [], 0, 0, 0, 0, [], [], 0⟩

/-- DESIGN CHOICE, log entry 3. -/
def Engine.reset (id : Nat) : Engine :=
  ⟨id, List.replicate 256 0, 0, List.replicate 8 0, [], List.replicate 1024 0,
   List.replicate 4 (List.replicate 32 0), List.replicate 4 0, List.replicate 256 0, List.replicate 8 127,
   List.replicate 4 none, none, 0, 0⟩

def Bank.reset : Bank := ⟨[], [], [], [], [], 0, []⟩

def Remote.reset : Remote := ⟨[], [], [], 0x32, 0, 0⟩

def Fabric.reset : Fabric :=
  ⟨0, 0, 0, 0x64, List.replicate 18 0, List.replicate 18 0, 0, List.replicate 32 0, [], [], [], [], [], [],
   none, none, false, [], [], []⟩

def Queue.reset : Queue := ⟨0, 0, 0, 0, 0, [], []⟩

def Part_.reset : Part_ := ⟨0, 0, 0, 0, 0, 0, 0, false, false, false, .none, .none, none, [], [0, 0, 0, 0]⟩

/-- DEDUCED, log entry 47; DEDUCED, log entry 115. -/
def Cp.reset : Cp :=
  ⟨List.replicate 10 Queue.reset, [], [], List.replicate 16 Part_.reset, 0, 0, 0, 0, [], false,
   0x800, 0x3840, 0, [], [], [], []⟩

/-- BOOT_STAT reads booting until the boot ROM has run (R450, R451); the flash image, the configuration record
and the activation code are what the vendor programmed, held as empty byte strings (log entry 3). -/
def Boot.reset : Boot :=
  ⟨0, 0, 0, 0, 0, [], [], [], [], [], false, some [], false, none, 0, [], [], [0, 0], none, []⟩

def State.reset : State :=
  ⟨0, 0, 0, 0, 0, Gang.reset, [], Memory.reset, [], [], [], [], [], [], Xlat.reset, Bank.reset,
   Remote.reset, Fabric.reset, Cp.reset, Boot.reset⟩

end Sys2Proof.Machine
end

