-- ==== Sys2Proof/Machine/Memory.lean ====
section
/-! DEFINITION. The memories by themselves: cells in canonical form, the L2 sectors over the DRAM cells, and
the overlay of the writes still queued on an access path (R17, R78, R79, R81, R299).  No translation, no thread. -/

set_option linter.unusedVariables false

namespace Sys2Proof.Machine

/-- The byte listed at an address. -/
def cellFind : List Host.Cell → Nat → Option Byte
  | [], _ => none
  | (b, y) :: l, a => if a = b then some y else if a < b then none else cellFind l a

/-- The list with one byte listed, addresses rising. -/
def cellPut (a : Nat) (x : Byte) : List Host.Cell → List Host.Cell
  | [] => [(a, x)]
  | (b, y) :: l => if a < b then (a, x) :: (b, y) :: l else if a = b then (a, x) :: l else (b, y) :: cellPut a x l

def cellDel (a : Nat) : List Host.Cell → List Host.Cell
  | [] => []
  | (b, y) :: l => if a < b then (b, y) :: l else if a = b then l else (b, y) :: cellDel a l

/-- A write where an unlisted address reads zero: zero removes the entry. -/
def cellSet0 (a : Nat) (x : Byte) (l : List Host.Cell) : List Host.Cell :=
  if x = 0 then cellDel a l else cellPut a x l

/-- Addresses strictly rising. -/
def cellsRise : List Host.Cell → Bool
  | [] => true
  | [_] => true
  | (a, _) :: (b, y) :: l => a < b && cellsRise ((b, y) :: l)

/-- Canonical form over an unlisted zero. -/
def cellsZero (l : List Host.Cell) : Bool := cellsRise l && l.all fun c => c.2 != 0

/-- The list with `x` in the place of the records that satisfy `p`, or before them all. -/
def listPut (p : α → Bool) (x : α) (l : List α) : List α := if l.any p then l.map fun y => if p y then x else y else x :: l

/-- Bytes put at consecutive addresses. -/
def putBytes (put : Nat → Byte → List Host.Cell → List Host.Cell) : Nat → List Byte → List Host.Cell → List Host.Cell
  | _, [], l => l
  | a, x :: xs, l => putBytes put (a + 1) xs (put a x l)

/-! Little-endian words over byte lists (R1, R2). -/

def bytesToNat : List Byte → Nat
  | [] => 0
  | b :: l => b.toNat + 256 * bytesToNat l

def natToBytes : Nat → Nat → List Byte
  | 0, _ => []
  | n + 1, x => BitVec.ofNat 8 x :: natToBytes n (x / 256)

def toW32 (l : List Byte) : W32 := BitVec.ofNat 32 (bytesToNat l)
def toW64 (l : List Byte) : W64 := BitVec.ofNat 64 (bytesToNat l)
def bytes4 (x : W32) : List Byte := natToBytes 4 x.toNat
def bytes8 (x : W64) : List Byte := natToBytes 8 x.toNat

/-- Bytes `off` to `off + len - 1` of a byte list, zero beyond its end. -/
def sliceB (l : List Byte) (off len : Nat) : List Byte := (List.range len).map fun i => l.getD (off + i) 0
def natAt (l : List Byte) (off len : Nat) : Nat := bytesToNat (sliceB l off len)
/-- Bits `hi` to `lo` of a number. -/
def bitsOf (x hi lo : Nat) : Nat := x / 2 ^ lo % 2 ^ (hi + 1 - lo)
def bitAt (x i : Nat) : Bool := x / 2 ^ i % 2 == 1

/-! Physical addresses (R17, R19). -/

def paHome (pa : Nat) : Nat := pa / 2 ^ 48
def paOff (pa : Nat) : Nat := pa % 2 ^ 48

/-- Whether a home and offset exist (R17); the window kinds are checked where they are reached. -/
def paExists (pa : Nat) : Bool :=
  let h := paHome pa
  if h < 4 then paOff pa < 2 ^ 37 else if h < 8 then paOff pa < 2 ^ 38 else h == 8 || h == 15

/-- Homes 0x0 to 0x7. -/
def paDevice (pa : Nat) : Bool := paHome pa < 8 && paExists pa

/-- The die of a home 0x0 to 0x7 (R17). -/
def paDie (pa : Nat) : Nat := paHome pa % 4

/-- Die and cluster of a core, numbered by its CORE_ID value (R22). -/
def coreDie (c : Nat) : Nat := c / 256
def coreCluster (c : Nat) : Nat := c / 4
def corePair (c : Nat) : Nat := c / 2

/-! The point of visibility (R79, R81, R299). -/

/-- DEDUCED, log entry 5. -/
def Memory.dramByte (m : Memory) (a : Nat) : Byte := (cellFind m.dram a).getD 0

def Memory.dramBytes (m : Memory) (a len : Nat) : List Byte := (List.range len).map fun i => m.dramByte (a + i)

def Memory.sector? (m : Memory) (a : Nat) : Option Sector := m.l2.find? fun x => x.base == a / 32 * 32

/-- The byte at its point of visibility: host memory, the L2 sector, or the DRAM. -/
def Memory.visByte (m : Memory) (a : Nat) : Byte :=
  if paHome a = 8 then (cellFind m.hostw a).getD (Config.hostByte a)
  else match m.sector? a with
    | some x => x.data.getD (a % 32) 0
    | none => m.dramByte a

def Memory.visBytes (m : Memory) (a len : Nat) : List Byte := (List.range len).map fun i => m.visByte (a + i)

def putSector (x : Sector) (l : List Sector) : List Sector :=
  if l.any (fun y => y.base == x.base) then l.map fun y => if y.base == x.base then x else y else x :: l

/-- The way partition that the line of an address stands in, or the one given where it is not held (R8). -/
def Memory.waysOf (m : Memory) (a ways : Nat) : Nat := ((m.l2.find? fun x => x.base / 128 == a / 128).map (·.ways)).getD ways

/-- A clean copy of a sector is brought in on a read (R299), into a way partition (R318). -/
def Memory.fill (m : Memory) (a ways : Nat) : Memory :=
  match m.sector? a with
  | some _ => m
  | none => { m with l2 := ⟨a / 32 * 32, m.dramBytes (a / 32 * 32) 32, false, ways⟩ :: m.l2 }

/-- A dirty sector is written back and kept clean, or dropped (R299, R300). -/
def Memory.writeback (m : Memory) (base : Nat) (keep : Bool) : Memory :=
  match m.sector? base with
  | none => m
  | some x =>
    let m := if x.dirty then { m with dram := putBytes cellSet0 x.base x.data m.dram } else m
    { m with l2 := if keep then putSector { x with dirty := false } m.l2
                   else m.l2.filter fun y => y.base != x.base }

/-- The sectors a byte range touches. -/
def sectorsOf (pa len : Nat) : List Nat :=
  if len = 0 then [] else (List.range ((pa % 32 + len + 31) / 32)).map fun i => (pa / 32 + i) * 32

/-- The sectors a store fetches: of each line it misses those it does not wholly overwrite, of a line held those it touches
in part and that are not held (R299). -/
def Memory.storeFetches (m : Memory) (pa len : Nat) : List Nat :=
  if paHome pa < 4 then
    ((sectorsOf pa len).map fun b =>
      let held := m.l2.any fun x => x.base / 128 == b / 128
      (sectorsOf (b / 128 * 128) 128).filter fun c =>
        (m.sector? c).isNone && !(pa ≤ c && c + 32 ≤ pa + len) && (!held || c == b)).flatten.eraseDups
  else []

/-- Bytes written at a sector, the rest of the sector kept. -/
def mergeSector (base : Nat) (old : List Byte) (pa : Nat) (data : List Byte) : List Byte :=
  (List.range 32).map fun i =>
    if pa ≤ base + i && base + i < pa + data.length then data.getD (base + i - pa) 0 else old.getD i 0

/-- A write performed at its point of visibility (R81): host memory, or the L2 slice of the home die; under
bypass the slice keeps no copy (R319). -/
def Memory.perform (m : Memory) (pa : Nat) (data : List Byte) (bypass : Bool) (ways : Nat) : Memory :=
  if paHome pa = 8 then { m with hostw := putBytes cellPut pa data m.hostw }
  else (sectorsOf pa data.length).foldl (fun m b =>
      let old := m.visBytes b 32
      let m := { m with l2 := putSector ⟨b, mergeSector b old pa data, true, m.waysOf b ways⟩ m.l2 }
      if bypass then m.writeback b false else m)
    (if bypass then m else (m.storeFetches pa data.length).foldl (fun m b => m.fill b (m.waysOf b ways)) m)

/-- A write by a bank-group engine, past the L2 (R299). -/
def Memory.dramWrite (m : Memory) (pa : Nat) (data : List Byte) : Memory :=
  { m with dram := putBytes cellSet0 pa data m.dram }

/-- Canonical form of the memories: rising addresses, no listed DRAM byte zero. -/
def Memory.wf (m : Memory) : Bool := cellsZero m.dram && cellsRise m.hostw

/-! Queued writes (R79 to R81). -/

/-- Who reads: the access path, where it stands, and how near a write must be visible to reach it. -/
structure Reader_ where
  path : Path
  core : Nat
  level : Reach
  deriving DecidableEq, Repr

/-- The reader of a core's load/store or matrix unit. -/
def coreReader (p : Path) (core : Nat) : Reader_ := ⟨p, core, .core⟩
/-- The reader of a cluster's copy engine (R76). -/
def clusterReader (core : Nat) : Reader_ := ⟨.cp, core, .all⟩
/-- The reader of an engine named only at die scope (R77). -/
def dieReader (p : Path) (die : Nat) : Reader_ := ⟨p, die * 256, .all⟩

def Reach.rank : Reach → Nat
  | .own => 0 | .core => 1 | .all => 2

/-- Whether a place with a level lies within a reach around a core: past its own core a write is seen only at its point
of visibility (R76, R81). -/
def reachCovers (r : Reach) (at_ : Nat) (level : Reach) (core : Nat) : Bool :=
  match r with
  | .own => false
  | .core => level == .core && at_ == core
  | .all => true

/-- Whether a queued write is seen by a reader: forwarded on its own path, on the LS path within its core
only, or made visible as far as the reader (R79, R81). -/
def QWrite.seenBy (e : QWrite) (r : Reader_) : Bool :=
  (e.path == r.path && (e.path != .ls || e.core == r.core)) || reachCovers e.reach e.core r.level r.core

def overlapsAt (a la b lb : Nat) : Bool := a < b + lb && b < a + la

/-- Whether two ranges touch one aligned 4-byte word (R78, R80). -/
def sameWord (a la b lb : Nat) : Bool := a / 4 * 4 < b + lb && b / 4 * 4 < a + la

/-- Bytes with one write laid over them. -/
def overlay (pa : Nat) (bytes : List Byte) (wa : Nat) (data : List Byte) : List Byte :=
  if overlapsAt pa bytes.length wa data.length then
    (List.range bytes.length).map fun i =>
      if wa ≤ pa + i && pa + i < wa + data.length then data.getD (pa + i - wa) 0 else bytes.getD i 0
  else bytes

/-- The queued writes that reach a reader and touch a range: those made visible beyond their path first, in the order
that happened, then its own path's in order of entry. -/
def Memory.seen (m : Memory) (r : Reader_) (pa len : Nat) : List QWrite :=
  m.wq.filter fun e => e.seenBy r && overlapsAt e.pa e.data.length pa len

/-- What a reader finds past the L1 (R79, R81): the point of visibility under the queued writes it sees. -/
def Memory.read (m : Memory) (r : Reader_) (pa len : Nat) : List Byte :=
  (m.seen r pa len).foldl (fun b e => overlay pa b e.pa e.data) (m.visBytes pa len)

/-- The threads whose writes a load of a range reads at its point of visibility (R84). -/
def Memory.headsAt (m : Memory) (pa len : Nat) : List TRef :=
  ((m.heads.filter fun h => sameWord (4 * h.1) 4 pa len).map (·.2)).flatten.eraseDups

/-- A thread's store to a range begins its words' order of read-modify-writes anew; a read-modify-write follows (R84). -/
def Memory.headPut (m : Memory) (pa len : Nat) (t : TRef) (rmw : Bool) : Memory :=
  { m with heads := (List.range ((pa % 4 + len + 3) / 4)).foldl (fun l i =>
      let w := pa / 4 + i
      let old := if rmw then ((l.find? fun h => h.1 == w).map (·.2)).getD [] else []
      listPut (fun h => h.1 == w) (w, (t :: old).eraseDups) l) m.heads }

/-- A code byte as it stood at a stamp (R28). -/
def Memory.codeByte (m : Memory) (stamp a : Nat) : Byte :=
  match m.undo.find? fun u => u.pa == a && stamp < u.stamp with
  | some u => u.old
  | none => m.visByte a

end Sys2Proof.Machine
end

