-- ==== Sys2Proof/Machine/Ops.lean ====
section
/-! DEFINITION. The named operations every meaning is written over: finding and changing the objects of the
state, free choices, time, error records, row ownership of an address, writes to their points of visibility,
taking a trap and halting a group. -/

set_option linter.unusedVariables false

namespace Sys2Proof.Machine

/-! Lists of records. -/

/-- The list with `x` in the place of the records that satisfy `p`, or at its end. -/
def listSet (p : α → Bool) (x : α) (l : List α) : List α :=
  if l.any p then l.map fun y => if p y then x else y else l ++ [x]

def listUpd (p : α → Bool) (f : α → α) (l : List α) : List α := l.map fun y => if p y then f y else y

/-- One element of a list, by free choice when there are several (R36, R80, R104). -/
def State.pick (s : State) (keys : List Nat) : List α → Option α
  | [] => none
  | [x] => some x
  | x :: y :: l => some ((x :: y :: l).getD (Config.choose s.tick keys % (l.length + 2)) x)

/-- A free yes or no. -/
def State.flip (s : State) (keys : List Nat) : Bool := Config.choose s.tick keys % 2 == 1

/-- A new identity, and the state in which it is used up. -/
def State.fresh (s : State) : Nat × State := (s.nextId, { s with nextId := s.nextId + 1 })

/-- The global time stamp counter in ns: 1 GHz against the 1.3 GHz core clock (R12, R454).  DEDUCED, log entry 10. -/
def State.gtsc (s : State) : Nat := s.gtsc0 + s.clk * 10 / 13

/-! Objects. -/

def State.coreAt (s : State) (c : Nat) : Core := (s.cores.find? fun k => k.id == c).getD (Core.reset c)
def State.setCore (s : State) (k : Core) : State := { s with cores := listSet (fun x => x.id == k.id) k s.cores }
def State.updCore (s : State) (c : Nat) (f : Core → Core) : State := s.setCore (f (s.coreAt c))

def State.group? (s : State) (g : Nat) : Option Group := s.groups.find? fun x => x.id == g
def State.updGroup (s : State) (g : Nat) (f : Group → Group) : State :=
  { s with groups := listUpd (fun x => x.id == g) f s.groups }
def State.launch? (s : State) (l : Nat) : Option Launch := s.launches.find? fun x => x.id == l
def State.updLaunch (s : State) (l : Nat) (f : Launch → Launch) : State :=
  { s with launches := listUpd (fun x => x.id == l) f s.launches }

def State.op? (s : State) (o : Nat) : Option Op := s.ops.find? fun x => x.id == o
def State.updOp (s : State) (o : Nat) (f : Op → Op) : State := { s with ops := listUpd (fun x => x.id == o) f s.ops }
def State.dropOp (s : State) (o : Nat) : State := { s with ops := s.ops.filter fun x => x.id != o }

def State.req? (s : State) (r : Nat) : Option Req := s.reqs.find? fun x => x.id == r
def State.updReq (s : State) (r : Nat) (f : Req → Req) : State := { s with reqs := listUpd (fun x => x.id == r) f s.reqs }

def State.call? (s : State) (c : Nat) : Option Call := s.remote.calls.find? fun x => x.id == c
def State.updCall (s : State) (c : Nat) (f : Call → Call) : State :=
  { s with remote := { s.remote with calls := listUpd (fun x => x.id == c) f s.remote.calls } }
def State.callee? (s : State) (c : Nat) : Option Callee := s.remote.callees.find? fun x => x.id == c
def State.updCallee (s : State) (c : Nat) (f : Callee → Callee) : State :=
  { s with remote := { s.remote with callees := listUpd (fun x => x.id == c) f s.remote.callees } }

def State.engine (s : State) (e : Nat) : Engine := (s.bank.engines.find? fun x => x.id == e).getD (Engine.reset e)
def State.setEngine (s : State) (e : Engine) : State :=
  { s with bank := { s.bank with engines := listSet (fun x => x.id == e.id) e s.bank.engines } }
def State.bankLaunch? (s : State) (l : Nat) : Option BankLaunch := s.bank.launches.find? fun x => x.id == l
def State.updBank (s : State) (l : Nat) (f : BankLaunch → BankLaunch) : State :=
  { s with bank := { s.bank with launches := listUpd (fun x => x.id == l) f s.bank.launches } }

def State.partAt (s : State) (n : Nat) : Part_ := s.cp.parts.getD n Part_.reset
def State.updPart (s : State) (n : Nat) (f : Part_ → Part_) : State :=
  { s with cp := { s.cp with parts := s.cp.parts.set n (f (s.partAt n)) } }
def State.queueAt (s : State) (q : Nat) : Queue := s.cp.queues.getD q Queue.reset
def State.updQueue (s : State) (q : Nat) (f : Queue → Queue) : State :=
  { s with cp := { s.cp with queues := s.cp.queues.set q (f (s.queueAt q)) } }

/-! Threads. -/

/-- DESIGN CHOICE, log entry 4. -/
def Thread.blank : Thread :=
  { tid := 0, lane := 0, wave := 0, v := [], p := 0, sp := 0, routes := [0, 0, 0, 0], pc := 0, slot := 0,
    depth := 0, innermost := 0, park := .no, wakeAt := 0, yieldAt := 0, flags := List.replicate 12 0,
    rep := none, starve := 0, exited := false, stopped := false, stepOver := false, skid := 0, prog := 0,
    trapcode := 0, trapaddr := 0, rcstat := 0, rcseq := 0, releasedAt := 0, pend := [], acq := [], rel := [],
    relOps := [], arOps := [], arW := [], wait := none, quantum := [], qcount := 0, qended := false,
    sleep := none, qwait := 0, gset := none, fresh := false }

def State.thread? (s : State) : TRef → Option Thread
  | .thr g i => (s.group? g).bind fun G => G.threads.find? fun x => x.tid == i
  | .callee c => (s.callee? c).map (·.th)

def State.thread (s : State) (t : TRef) : Thread := (s.thread? t).getD Thread.blank

def State.updThread (s : State) (t : TRef) (f : Thread → Thread) : State :=
  match t with
  | .thr g i => s.updGroup g fun G => { G with threads := listUpd (fun x => x.tid == i) f G.threads }
  | .callee c => s.updCallee c fun C => { C with th := f C.th }

/-- The group of a thread; a callee has none (R350). -/
def TRef.group : TRef → Option Nat
  | .thr g _ => some g
  | .callee _ => none

def State.groupOf (s : State) (t : TRef) : Option Group := t.group.bind s.group?

def Wave.blank : Wave :=
  { idx := 0, core := 0, slot := 0, freed := false, tokens := [], accbase := 0, acclim := 0, mbind := 0,
    fmtdiv := 0, bias := 0, scale := 0x3F800000, stride := 64, skid := 0 }

def State.waveOf (s : State) (t : TRef) : Wave :=
  ((s.groupOf t).bind fun G => G.waves.find? fun w => w.idx == (s.thread t).wave).getD Wave.blank

def State.updWave (s : State) (g w : Nat) (f : Wave → Wave) : State :=
  s.updGroup g fun G => { G with waves := listUpd (fun x => x.idx == w) f G.waves }

/-! The launch a thread runs in. -/

def LaunchRec.blank : LaunchRec :=
  { va := 0, entry := 0, ngrp := 0, args := 0, join := 0, threads := 0, cell := 0, regs := 0, scratch := 0,
    accrows := 0, power := 0, deadline := 0, quant := false, narrow := false, pair := false, prio := 0,
    qlen := 0, slots := 0, comp := 0, rout := [], pmask := 0, stkn := 0, stksz := 0, stack := 0 }

def Launch.blank : Launch :=
  { id := 0, rc := LaunchRec.blank, root := 0, first := 0, count := 0, upto := 0, placed := 0, ended := 0, args := 0,
    join := 0, priv := false, dl := none, outcome := none, done := false, stamp := 0, order := 0, quantum := 0,
    committing := false, parts := [], saved := [] }

def State.launchOf (s : State) (t : TRef) : Launch :=
  ((s.groupOf t).bind fun G => s.launch? G.launch).getD Launch.blank

/-- Registers per thread (R401); a callee has 32 (R343). -/
def LaunchRec.regCount (r : LaunchRec) : Nat := (r.regs + 1) * 8
def LaunchRec.threadCount (r : LaunchRec) : Nat := r.threads + 1
def LaunchRec.scratchBytes (r : LaunchRec) : Nat := r.scratch * 16
/-- Groups per cell (R401). -/
def LaunchRec.cellSize (r : LaunchRec) : Nat := 2 ^ r.cell

/-- Where a remote call runs: stack core 4 s + k of die s / 2, or a cluster's service wave (R343). -/
def execDie (e : Nat) : Nat := if e < 32 then e / 8 else (e - 32) / 40
/-- A core number standing for the place of an executor: its die, and its cluster for a service wave. -/
def execCore (e : Nat) : Nat :=
  if e < 32 then execDie e * 256 else execDie e * 256 + ((e - 32) % 40) * 4

/-- What an instruction needs to know of the thread it runs for: where, in which address space, at which
level, with how many registers. -/
structure Ctx where
  core : Nat
  die : Nat
  slot : Nat
  root : Nat
  regs : Nat
  priv : Bool
  part : Nat
  quant : Bool
  callee : Bool
  deriving DecidableEq, Repr

def State.ctx (s : State) (t : TRef) : Ctx :=
  match t with
  | .thr g _ =>
    let w := s.waveOf t
    let L := s.launchOf t
    { core := w.core, die := coreDie w.core, slot := w.slot, root := L.root, regs := L.rc.regCount,
      priv := L.priv, part := ((s.group? g).map (·.part)).getD 0, quant := L.rc.quant, callee := false }
  | .callee c =>
    let k := (s.callee? c).bind fun C => s.call? C.call
    let e := (k.map (·.exec)).getD 0
    { core := execCore e, die := execDie e, slot := 0, root := (k.map (·.root)).getD 0, regs := 32,
      priv := false, part := 0, quant := false, callee := true }

/-- The reader a thread's loads use: its core's load/store unit, or its executor on the RC path (R15). -/
def State.readerOf (s : State) (t : TRef) : Reader_ :=
  let c := s.ctx t
  if c.callee then ⟨.rc, c.core, .all⟩ else coreReader .ls c.core

/-! Error records (R412). -/

/-- A record for the error ring, held on chip; past 256 the oldest is lost. -/
def State.pushErr (s : State) (kind part : Nat) (src : W16) (addr detail : W64) : State :=
  let r : ErrRec := ⟨BitVec.ofNat 64 s.gtsc, src, kind, part, addr, detail⟩
  let held := s.cp.erHeld ++ [r]
  if held.length > 256 then { s with cp := { s.cp with erHeld := held.drop 1, erLoss := true } }
  else { s with cp := { s.cp with erHeld := held } }

/-- Source number of the command processor on CD0 (R454). -/
def srcCp : W16 := 0x0400

/-- The frame that a root register names, none while it is not valid (R317, R399, R409). -/
def rootOf (x : W64) : Option Nat := if x.getLsbD 0 then some (x.extractLsb' 16 36).toNat else none

/-! HBM layout and row ownership (R251, R298 to R301). -/

/-- Channel number 32 × stack + ch of an HBM address. -/
def hbmChan (pa : Nat) : Nat :=
  let o := paOff pa
  32 * (2 * paHome pa + bitsOf o 20 20) + bitsOf o 19 15
def hbmPc (pa : Nat) : Nat := bitsOf (paOff pa) 14 14
def hbmBg (pa : Nat) : Nat := bitsOf (paOff pa) 13 12
def hbmRow (pa : Nat) : Nat := bitsOf (paOff pa) 36 21
/-- The address of a column of a bank (R251): stack, channel, pseudo-channel, group, row, bank, column. -/
def hbmAddr (stack ch pc bg row bank col : Nat) : Nat :=
  (stack / 2) * 2 ^ 48 + row * 2 ^ 21 + (stack % 2) * 2 ^ 20 + ch * 2 ^ 15 + pc * 2 ^ 14 + bg * 2 ^ 12 +
    col * 2 ^ 7 + bank * 2 ^ 5

/-- The entry that covers an address, an exclusive one first (R298). -/
def State.rotAt (s : State) (pa : Nat) : Option RotEnt :=
  if paHome pa < 4 then
    let es := s.bank.rot.filter fun e => e.chan == hbmChan pa && e.rlo ≤ hbmRow pa && hbmRow pa ≤ e.rhi &&
      e.pcm.getLsbD (hbmPc pa) && e.bgm.getLsbD (hbmBg pa)
    (es.find? fun e => e.excl && e.kind != .read).orElse fun _ =>
      (es.find? fun e => e.excl).orElse fun _ => es.head?
  else none

/-- Whether a core read that reaches the controller is performed now (R300). -/
def State.dramReadOk (s : State) (pa : Nat) : Bool :=
  match s.rotAt pa with
  | some e => !(e.excl && e.kind != .read)
  | none => true

/-- Whether a core read is performed now: served by the L2, or by the controller (R299, R300). -/
def State.coreReadOk (s : State) (pa : Nat) : Bool := (s.mem.sector? pa).isSome || s.dramReadOk pa

/-- Whether a core write that reaches the controller is performed now (R300). -/
def State.coreWriteOk (s : State) (pa : Nat) : Bool :=
  match s.rotAt pa with
  | some e => !e.excl
  | none => true

/-- The same under a cache policy: a bypassing read always reaches the controller (R299, R319). -/
def State.readRowsOk (s : State) (pa len : Nat) (bypass : Bool) : Bool :=
  (sectorsOf pa len).all fun b => if bypass then s.dramReadOk b else s.coreReadOk b

/-- Whether the rows let a core write go on now: a bypassing write reaches the controller at once; any other needs the
sectors it fetches (R299, R300). -/
def State.writeRowsOk (s : State) (pa len : Nat) (bypass : Bool) : Bool :=
  if bypass then (sectorsOf pa len).all fun b => s.coreWriteOk b
  else (s.mem.storeFetches pa len).all fun b => s.dramReadOk b

/-- Key and hash positions of a row-set in a signature (R301). -/
def rowKey (row pc bg : Nat) : Nat := 8 * row + 4 * pc + bg
def sigBits (k : Nat) : List Nat :=
  [k % 2 ^ 10, k / 2 ^ 9 % 2 ^ 10, Nat.xor (32 * (k % 32) + k / 32 % 32) (k / 2 ^ 9 % 2 ^ 10)]
def sigAdd (sig : BitVec 1024) (k : Nat) : BitVec 1024 := (sigBits k).foldl (fun g b => g ||| (1 : BitVec 1024) <<< b) sig
def sigMember (sig : BitVec 1024) (k : Nat) : Bool := (sigBits k).all fun b => sig.getLsbD b

/-- A core write tested against every running speculative signature of its channel (R300, R301). -/
def State.testWrite (s : State) (pa : Nat) : State :=
  if paHome pa < 4 then
    let ch := hbmChan pa
    let k := rowKey (hbmRow pa) (hbmPc pa) (hbmBg pa)
    let hits := fun (i : Inst) => i.spec && i.status.isNone && !i.conflict &&
      i.sigs.any fun g => g.1 == ch && sigMember g.2 k
    let n := (s.bank.launches.map fun l => if l.phase == .running then l.insts.countP hits else 0).foldl (· + ·) 0
    if n = 0 then s
    else { s with bank := { s.bank with
      launches := s.bank.launches.map fun l =>
        if l.phase == .running then
          { l with insts := l.insts.map fun i => if hits i then { i with conflict := true } else i } else l
      conflicts := listSet (fun c => c.1 == ch)
        (ch, Nat.min (((s.bank.conflicts.find? fun c => c.1 == ch).map (·.2)).getD 0 + n) (2 ^ 64 - 1)) s.bank.conflicts } }
  else s

/-- A dirty sector is written back, its arrival tested as every core write is (R299 to R301). -/
def State.writeback (s : State) (base : Nat) (keep : Bool) : State :=
  match s.mem.sector? base with
  | none => s
  | some x =>
    let s := if x.dirty then s.testWrite x.base else s
    { s with mem := s.mem.writeback x.base keep }

/-- Whether a sector can leave the L2 now (R300). -/
def State.writebackOk (s : State) (base : Nat) : Bool :=
  match s.mem.sector? base with
  | none => true
  | some x => !x.dirty || s.coreWriteOk x.base

/-- The slice of a die that keeps an address: PA[47:7] over its 80 slices (R8, R266). -/
def sliceOf (pa : Nat) : Nat × Nat := (paDie pa, bitsOf pa 47 7 % 80)

/-- Lines a slice holds: 1 MiB of 128 bytes (R8). -/
def sliceLines : Nat := 8192

/-- Sets of a slice: 16 ways of 128 bytes each (R8). -/
def sliceSets : Nat := sliceLines / 16

/-- The way partition that fills of a page may use: its leaf's WPART, by a translation cached of it, else a free one
(R318).  DESIGN CHOICE, log entry 128. -/
def State.partitionOf (s : State) (pa : Nat) : Nat :=
  let f := pa / 2 ^ 16
  let mine := fun (e : TlbEnt) =>
    let b := (e.leaf.extractLsb' 16 36).toNat
    let n := match (e.leaf.extractLsb' 52 2).toNat with | 1 => 32 | 2 => 8192 | _ => 1
    b / n == f / n
  match s.xlat.tlb.find? mine with
  | some e => (e.leaf.extractLsb' 10 3).toNat
  | none => Config.choose s.tick [0x408, f] % 8

/-- Room for the line of an address in its slice: where the two ways of its partition in its set are taken, a line that can
leave them does, dirty sectors written back; none where none can (R8, R299, R300, R318).  DESIGN CHOICE, log entry 128. -/
def State.l2Room (s : State) (pa : Nat) : Option State :=
  let line := pa / 128
  let set_ := fun (l : Nat) => Config.l2Set l % sliceSets
  let near := s.mem.l2.filter fun x => sliceOf x.base == sliceOf pa
  let lines := ((near.filter fun x => x.ways == s.partitionOf pa && set_ (x.base / 128) == set_ line).map fun x => x.base / 128).eraseDups
  if paHome pa = 8 || s.mem.l2.any (fun x => x.base / 128 == line) || near.length < 2 || lines.length < 2 then some s
  else (s.pick [0x406, line] (lines.filter fun l => (sectorsOf (128 * l) 128).all fun b => s.writebackOk b)).map fun l =>
    (sectorsOf (128 * l) 128).foldl (fun s b => s.writeback b false) s

/-- The lines a byte range touches. -/
def linesOf (pa len : Nat) : List Nat := ((sectorsOf pa len).map fun b => b / 128 * 128).eraseDups

/-- Room for every line of a range. -/
def State.l2RoomAll (s : State) (pa len : Nat) : State := (linesOf pa len).foldl (fun s b => (s.l2Room b).getD s) s
def State.l2Fits (s : State) (pa len : Nat) : Bool := (linesOf pa len).all fun b => (s.l2Room b).isSome

/-! Writes at their point of visibility. -/

/-- The word a monitor compares, and whether it ends its wait (R189, R260, R429). -/
def State.wakeOne (s : State) (pa len : Nat) (o : Op) : Op :=
  let at8 := fun (a : Nat) => toW64 (s.mem.visBytes a 8)
  let hit := fun (a n : Nat) (k : OpKind) => { o with kind := k, from_ := s.mem.headsAt a n }
  match o.kind with
  | .mwait a ty val dst true none =>
    let n := if tyWide ty then 8 else 4
    let x := toW64 (s.mem.visBytes a n)
    if overlapsAt a n pa len && x != val then hit a n (.mwait a ty val dst true (some x)) else o
  | .cntw a val dst true none =>
    if overlapsAt a 8 pa len && val.ule (at8 a) then hit a 8 (.cntw a val dst true (some (at8 a))) else o
  | .jwait a dst true none =>
    if overlapsAt a 8 pa len && (at8 a).extractLsb' 0 32 == 0 then hit a 8 (.jwait a dst true (some (at8 a))) else o
  | .bgwait a dst true none =>
    if overlapsAt a 8 pa len && (at8 a).msb then hit a 8 (.bgwait a dst true (some (at8 a))) else o
  | _ => o

/-- Every monitor armed on the written bytes is compared (R189, R190). -/
def State.wake (s : State) (pa len : Nat) : State := { s with ops := s.ops.map fun o => s.wakeOne pa len o }

/-- The shadow stub that stands at an address (R329). -/
def State.stubAt (s : State) (pa : Nat) : Option Stub := s.xlat.stubs.find? fun b => b.old == pa / 2 ^ 16

/-- `%rank` and `%nranks` (R365, R366); without address extension a last rank above 1,023 acts as 1,023 (R364). -/
def State.rank (s : State) : Nat := if s.fab.ctl.getLsbD 0 then (s.fab.id.extractLsb' 0 12).toNat else 0
def State.nranks (s : State) : Nat :=
  let last := (s.fab.id.extractLsb' 16 12).toNat
  if s.fab.ctl.getLsbD 0 then (if s.fab.ctl.getLsbD 1 then last else Nat.min last 1023) + 1 else 1

/-- Where an access made in one step is performed: past the shadow stubs of this device, and by a fresh walk where there
are more than two, which finds the same page (R329, R330). -/
def State.resolve (s : State) (pa : Nat) : Nat :=
  s.xlat.stubs.foldl (fun a _ => match s.stubAt a with
    | some b => if b.rank == s.rank then b.new * 2 ^ 16 + a % 2 ^ 16 else a
    | none => a) pa

/-- Whether the page of an address has moved to another device (R327, R329). -/
def State.movedAway (s : State) (pa : Nat) : Bool := (s.stubAt (s.resolve pa)).isSome

/-- The addresses at which an operation still has to be performed. -/
def OpKind.places : OpKind → List Nat
  | .load _ parts _ _ => parts.filterMap fun p => match p.at_, p.got with | .mem a, none => some a | _, _ => none
  | .mwait a _ _ _ false none | .cntw a _ _ false none | .jwait a _ false none | .bgwait a _ false none => [a]
  | .atomic _ m _ => [m.pa]
  | .acall _ a _ _ _ _ _ _ _ => [a]
  | .mld runs _ _ _ _ => runs.filterMap fun p => match p.src with | .mem a => some a | _ => none
  | .mret ps => ps.filterMap fun p => match p.1 with | .mem a => some a | _ => none
  | .discard a _ _ => [a]
  | _ => []

def Piece.places (p : Piece) : List Nat :=
  (match p.src with | .mem a => [a] | _ => []) ++ (match p.dst with | .mem a => [a] | _ => [])

/-- The accesses issued before `id` that are still to be performed in frames (R333, R339), of a die or of all: those on
their way, remote calls and what their callees go on to access, completion words of bank launches, buffered stores. -/
def State.pendingIn (s : State) (id : Nat) (die : Option Nat) (frame : Nat → Bool) : Bool :=
  let here := fun (core : Nat) => match die with | some d => core / 256 == d | none => true
  (s.remote.calls.any fun k => k.id < id && k.phase != .replied && (here k.key.core || here (execCore k.exec)) && frame (k.pa / 2 ^ 16)) ||
  (s.bank.launches.any fun l => l.id < id && here (l.stack / 2 * 256) && match l.comp with
    | some c => frame (c.1 / 2 ^ 16)
    | none => false) ||
  (s.groups.any fun G => here G.lead && G.threads.any fun x => x.quantum.any fun q => match q with
    | .store pa _ _ => frame (pa / 2 ^ 16)
    | _ => false) ||
  (s.mem.wq.any fun e => e.id < id && here e.core && frame (e.pa / 2 ^ 16)) ||
  (s.ops.any fun o => o.id < id && here o.core && o.kind.places.any fun a => frame (a / 2 ^ 16)) ||
  (s.reqs.any fun r => r.id < id && here r.core && r.pieces.any fun p => p.places.any fun a => frame (a / 2 ^ 16)) ||
  s.incs.any fun c => c.id < id && c.far.isNone && frame (c.pa / 2 ^ 16)

/-- Whose translation cache an access goes through is its requester (R321, R331): what it has still to be performed, with
its identity. -/
def State.onTheWay (s : State) (u : TlbUser) : List (Nat × Nat) :=
  let engine := fun (k : OpKind) => match k with | .mld .. | .mret _ => true | _ => false
  let ops := fun (p : Op → Bool) => ((s.ops.filter p).map fun o => o.kind.places.map fun a => (o.id, a)).flatten
  let wq := fun (p : QWrite → Bool) => (s.mem.wq.filter p).map fun e => (e.id, e.pa)
  match u with
  | .core k => wq (fun e => e.path == .ls && e.core == k) ++ ops fun o => o.core == k && !engine o.kind
  | .walk c => wq (fun e => e.path == .mx && coreCluster e.core == c) ++ ops (fun o => coreCluster o.core == c && engine o.kind) ++
      ((s.reqs.filter fun r => r.cluster == c).map fun r => (r.pieces.map fun p => p.places.map fun a => (r.id, a)).flatten ++
        (s.incs.filter fun i => i.req == some r.id && i.far.isNone).map fun i => (i.id, i.pa)).flatten
  | .die => []

/-- An access along the new path of a page waits for the requester's accesses that go through a stub to it (R331). -/
def State.redirHeld (s : State) (u : TlbUser) (pa : Nat) : Bool :=
  !s.xlat.stubs.isEmpty && (s.onTheWay u).any fun x =>
    if x.2 / 2 ^ 16 == pa / 2 ^ 16 then (s.stubAt pa).isNone && s.xlat.hops.any fun h => h.1 == x.1
    else (s.stubAt x.2).isSome && s.resolve x.2 / 2 ^ 16 == s.resolve pa / 2 ^ 16

def State.updMigs (s : State) (f : Mig → Mig) : State := { s with xlat := { s.xlat with migs := s.xlat.migs.map f } }

/-! The on-chip window (R19 to R24). -/

/-- What a home-0xF address names; nowhere when its fields name nothing (R19 to R22). -/
def windowPlace (pa : Nat) : Place :=
  let o := bitsOf pa 35 0
  let core := bitsOf pa 47 46 * 256 + bitsOf pa 45 40 * 4 + bitsOf pa 39 38
  if paHome pa != 15 || 40 ≤ bitsOf pa 45 40 then .nowhere
  else match bitsOf pa 37 36 with
    | 0 => if bitsOf o 35 20 = 0 then .reg core (bitsOf o 19 15) (bitsOf o 14 7) (bitsOf o 6 2) (bitsOf o 1 0) else .nowhere
    | 1 => if o < 384 * 1024 then .spad core o else .nowhere
    | 2 => if o < 2048 * 64 then .acc core o else .nowhere
    | _ => .ctl core o

/-- The group and wave that occupy a wave slot of a core. -/
def State.slotWave (s : State) (core slot : Nat) : Option (Group × Wave) :=
  s.groups.findSome? fun G => (G.waves.find? fun w => w.core == core && w.slot == slot && !w.freed).map fun w => (G, w)

/-- Whether a window byte can be reached now: a register only while its wave holds the slot (R20). -/
def State.windowOk (s : State) (pa : Nat) : Bool :=
  match windowPlace pa with
  | .nowhere => false
  | .reg core slot reg _ _ =>
    match s.slotWave core slot with
    | some (G, _) => reg < ((s.launch? G.launch).getD Launch.blank).rc.regCount
    | none => false
  | _ => true

/-- The window address of a scratchpad byte (R19, R21). -/
def spadWindow (core off : Nat) : Nat :=
  15 * 2 ^ 48 + core / 256 * 2 ^ 46 + core % 256 / 4 * 2 ^ 40 + core % 4 * 2 ^ 38 + 2 ^ 36 + off

/-- A queued window write takes place: a register word, where a lane that holds no thread keeps nothing, or
scratchpad bytes (R20, R21, R24). -/
def State.pokeWindow (s : State) (pa : Nat) (data : List Byte) : State :=
  match windowPlace pa with
  | .reg core slot reg lane byte =>
    match s.slotWave core slot with
    | some (G, w) =>
      let put := fun (x : Thread) => { x with v := x.v.set reg (toW32 (overlay 0 (bytes4 (x.v.getD reg 0)) byte data)) }
      let mine := fun (x : Thread) => x.wave == w.idx && x.lane == lane
      s.updGroup G.id fun G => { G with threads := listUpd mine put G.threads }
    | none => s
  | .spad core off => s.updCore core fun k => { k with spad := putBytes cellPut off data k.spad }
  | _ => s

/-- Nothing runs or waits to run that could fetch code as it stood before a store (R28). -/
def State.codeIdle (s : State) : Bool :=
  s.groups.isEmpty && s.launches.isEmpty && s.cp.queues.all fun k => k.pushed == k.head

/-- The 256-byte sectors of a page under migration that a write touches are marked to be copied again (R326, R328). -/
def State.markDirty (s : State) (pa len : Nat) : State :=
  s.updMigs fun m =>
    if (m.phase == MigPhase.copying || m.phase == MigPhase.final) && m.old == pa / 2 ^ 16 then
      { m with dirty := List.eraseDups (((List.range ((pa % 256 + len + 255) / 256)).map fun i => pa % 2 ^ 16 / 256 + i) ++ m.dirty) }
    else m

/-- A write performed at its point of visibility, whatever its path (R81, R326 step 2): the bytes, the code
history of R28, the dirty marks of a migration's sectors, the monitors, the signatures of a bypass write. -/
def State.perform (s : State) (pa : Nat) (data : List Byte) (bypass : Bool) : State :=
  if paHome pa = 15 then s.pokeWindow pa data else
  let undo := if s.codeIdle || paHome pa = 8 then s.mem.undo
    else s.mem.undo ++ ((List.range data.length).map fun i => (⟨s.stamp + 1, pa + i, s.mem.visByte (pa + i)⟩ : Undo))
  let s := if bypass then s else s.l2RoomAll pa data.length
  let s := { s with stamp := s.stamp + 1, mem := { s.mem.perform pa data bypass (s.partitionOf pa) with undo := undo } }
  let s := if bypass then (sectorsOf pa data.length).foldl (fun s b => s.testWrite b) s else s
  (s.markDirty pa data.length).wake pa data.length

/-- How far a write must get to be visible to a scope's parties: those on other cores see it only at its point of
visibility (R76, R81).  DEDUCED, log entry 27. -/
def scopeReach (sc : Scope) (pair : Bool) : Reach :=
  match sc with
  | .wave => .own
  | .group => if pair then .all else .core
  | .cell | .die | .device | .system => .all

def State.inPair (s : State) (t : TRef) : Bool := ((s.groupOf t).map (·.pair)).getD false

/-- How far a scope of a write's issuer reaches. -/
def State.reachOf (s : State) (t : Option TRef) (sc : Scope) : Reach := scopeReach sc ((t.map s.inPair).getD false)

/-- A core's L1 loses the lines a write of its own touches (R82). -/
def State.l1Drop (s : State) (core pa len : Nat) : State :=
  s.updCore core fun k => { k with l1 := k.l1.filter fun l => !overlapsAt l.base 128 pa len }

def State.l1Clear (s : State) (core : Nat) : State := s.updCore core fun k => { k with l1 := [] }

def State.updWq (s : State) (f : QWrite → QWrite) : State := { s with mem := { s.mem with wq := s.mem.wq.map f } }

/-- No migration stands in its final pass over a page (R326). -/
def State.pageOpen (s : State) (pa : Nat) : Bool :=
  s.xlat.migs.all fun m => !(m.phase == MigPhase.final && m.old == pa / 2 ^ 16)

/-- Whether a window write's register still belongs to the wave it was written for (R20). -/
def State.holds (s : State) (e : QWrite) : Bool :=
  match e.holder, windowPlace e.pa with
  | some h, .reg core slot _ _ _ => ((s.slotWave core slot).map fun (w : Group × Wave) => (w.1.id, w.2.idx)) == some h
  | _, _ => true

/-- A load's part in memory whose bytes can be had now (R300, R329). -/
def State.partReads (s : State) (p : Part) : Bool :=
  p.got.isSome || p.was.isSome || match p.at_ with
    | .mem pa => paHome pa < 8 && (s.stubAt pa).isNone && s.readRowsOk pa p.len p.bypass
    | _ => false

/-- Whether a write may be performed ahead of acquires of a narrow scope: those still open are loads whose bytes are kept as
they stand (R77).  DEDUCED, log entry 129. -/
def State.aheadOk (s : State) (l : List (Nat × Scope)) : Bool :=
  l.all fun a => match s.op? a.1 with
    | none => true
    | some o => match o.kind with
      | .load _ ps _ _ => ps.all s.partReads
      | _ => false

/-- Whether a queued write may reach its point of visibility now as far as it alone goes: what a release puts before it
has been performed, its page is at hand and stands at no stub and in no final pass, its rows answer (R83, R300, R326,
R329, R448). -/
def State.drainable (s : State) (e : QWrite) : Bool :=
  e.afterOps.all (fun o => (s.op? o.1).isNone) && s.aheadOk e.under && (paHome e.pa != 8 || s.boot.ats.contains (e.pa / 2 ^ 12)) &&
  (s.stubAt e.pa).isNone && s.pageOpen e.pa &&
  s.writeRowsOk e.pa e.data.length e.bypass && (e.bypass || s.l2Fits e.pa e.data.length)

/-- The bytes that a thread's pending load would read of a part: the point of visibility under the thread's earlier stores. -/
def State.partNow (s : State) (o : Op) (pa len : Nat) : List Byte :=
  (s.mem.wq.filter fun e => e.path == .ls && e.issuer == some o.thr && e.id < o.id && overlapsAt e.pa e.data.length pa len).foldl
    (fun b e => overlay pa b e.pa e.data) (s.mem.visBytes pa len)

/-- A write goes ahead of open acquires: of each the bytes are kept that it would have read now, so that no party of its
scope can tell (R77).  DEDUCED, log entry 129. -/
def State.passAhead (s : State) (l : List (Nat × Scope)) : State :=
  if l.isEmpty then s else
  let keep := fun (o : Op) (p : Part) => match p.at_, p.got, p.was with
    | .mem pa, none, none => { p with was := some (s.partNow o pa p.len, s.mem.headsAt pa p.len) }
    | _, _, _ => p
  { s with ops := s.ops.map fun o => if l.any (fun a => a.1 == o.id) then
      match o.kind with
      | .load l1 ps fin extra => { o with kind := .load l1 (ps.map (keep o)) fin extra }
      | _ => o
    else o }

/-- A queued write leaves the queue and is performed (R81); a window write to a register that its wave has left is gone with
the register (R20). -/
def State.performQueued (s : State) (e : QWrite) : State :=
  let s := ({ s with mem := { s.mem with wq := s.mem.wq.filter fun x => x.id != e.id } } : State).passAhead e.under
  match e.path with
  | .ls =>
    let s := match e.issuer with
      | some t => { s with mem := s.mem.headPut e.pa e.data.length t false }
      | none => s
    (s.perform e.pa e.data e.bypass).l1Drop e.core e.pa e.data.length
  | _ => if s.holds e then s.perform e.pa e.data e.bypass else s

/-- Two writes to one word on one path, on the LS path from one core (R79). -/
def QWrite.onPath (e x : QWrite) : Bool :=
  x.path == e.path && (e.path != .ls || x.core == e.core) && sameWord x.pa x.data.length e.pa e.data.length

/-- The queued writes that come before one in the coherence order of its words: those of its path entered before it, and
those that parties beyond their own path have seen before it (R79). -/
def Memory.priors (m : Memory) (e : QWrite) : List QWrite :=
  (m.wq.takeWhile fun x => x.id != e.id).filter fun x =>
    e.onPath x || (x.reach != .own && sameWord x.pa x.data.length e.pa e.data.length)

/-- A queued write becomes visible as far as a reach: it joins those made visible before it (R76, R79). -/
def Memory.raise (m : Memory) (id : Nat) (r : Reach) : Memory :=
  let up := fun (x : QWrite) => { x with reach := if x.reach.rank < r.rank then r else x.reach }
  { m with wq := (m.wq.filter fun x => x.reach != .own).map (fun x => if x.id == id then up x else x) ++
      (m.wq.filter fun x => x.reach == .own && x.id == id).map up ++ m.wq.filter fun x => x.reach == .own && x.id != id }

/-- A queued write made visible at least as far as a scope's reach, with everything that must come before it: the
writes its release orders, and the earlier writes of its words (R79, R83). -/
def State.force : Nat → Reach → State → Nat → State
  | 0, _, s, _ => s
  | n + 1, r, s, id =>
    match s.mem.wq.find? fun x => x.id == id with
    | none => s
    | some e =>
      if r.rank ≤ e.reach.rank then s
      else
        let s := e.after.foldl (fun s a => State.force n (s.reachOf e.issuer a.2) s a.1) s
        if r == .all then
          let s := (s.mem.priors e).foldl (fun s x => State.force n .all s x.id) s
          if (s.mem.wq.any fun x => x.id == id) then s.performQueued e else s
        else
          let s := ((s.mem.priors e).filter e.onPath).foldl (fun s x => State.force n r s x.id) s
          { s with mem := s.mem.raise id r }

/-- Fuel that covers every chain of queued writes. -/
def State.forceFuel (s : State) : Nat := 2 * s.mem.wq.length + 1

def State.forceAll (s : State) (ids : List Nat) (r : Reach) : State :=
  ids.foldl (fun s id => State.force s.forceFuel r s id) s

/-- The queued writes a thread issued or has observed on the given paths (R83, R87): its own, those whose
value or completion it has seen, and those already visible as far as its core. -/
def State.observed (s : State) (t : TRef) (paths : Path → Bool) : List QWrite :=
  let r := s.readerOf t
  s.mem.wq.filter fun e => paths e.path &&
    (e.issuer == some t || e.obs.contains t || reachCovers e.reach e.core r.level r.core)

/-- A write entered in the queue of its path (R81, R87). -/
def State.enqueue (s : State) (e : QWrite) : State :=
  { s with nextId := s.nextId + 1, mem := { s.mem with wq := s.mem.wq ++ [{ e with id := s.nextId }] } }

/-- A thread comes to observe queued writes it has read or whose completion it has seen (R83, R87). -/
def State.observe (s : State) (t : TRef) (p : QWrite → Bool) : State :=
  s.updWq fun e => if p e && !e.obs.contains t then { e with obs := t :: e.obs } else e

/-- The scopes at which what an operation observes must be visible, each with the writes it has observed (R83). -/
def owed (o : Nat) (es : List Nat) (l : List (Nat × Scope)) : List (Nat × Scope) :=
  ((l.filter fun a => a.1 == o).map fun a => es.map fun e => (e, a.2)).flatten

/-- A pending operation of a thread reads queued writes of others: every release and fence that follows it in program order
carries them (R83, R85). -/
def State.observeBy (s : State) (o : Nat) (t : TRef) (es : List Nat) : State :=
  let s := s.observe t fun e => es.contains e.id
  let s := s.updWq fun e => { e with after := (e.after ++ owed o (es.filter fun i => i != e.id) e.afterOps).eraseDups }
  let s : State := { s with ops := s.ops.map fun (x : Op) => { x with after := (x.after ++ owed o es x.before).eraseDups } }
  s.updThread t fun x => { x with rel := (x.rel ++ owed o es x.relOps).eraseDups, arW := (x.arW ++ owed o es x.arOps).eraseDups }

/-- A register of the on-chip window (R20). -/
def windowReg (pa : Nat) : Bool := match windowPlace pa with | .reg .. => true | _ => false

/-- A thread observes the completion of writes (R87); window writes into registers among them have taken place (R24). -/
def State.seeDone (s : State) (t : TRef) (p : QWrite → Bool) : State :=
  let ids := (s.mem.wq.filter fun e => p e && windowReg e.pa).map (·.id)
  (s.forceAll ids .all).observe t p

/-! Uniform registers across the threads of a group (R35). -/

/-- The writes a thread has ordered by a release of group scope or wider. -/
def State.releaseK (s : State) (t : TRef) : State :=
  match t with
  | .thr g i =>
    let f := fun (k : KOld) => if k.writer == i || k.seen.contains i then { k with released := true } else k
    s.updGroup g fun G => { G with kOld := G.kOld.map f }
  | .callee _ => s

/-- The writes a thread sees from an acquire of group scope or wider on. -/
def State.acquireK (s : State) (t : TRef) : State :=
  match t with
  | .thr g i =>
    let f := fun (k : KOld) => if k.released && !k.seen.contains i then { k with seen := i :: k.seen } else k
    s.updGroup g fun G => { G with kOld := G.kOld.map f }
  | .callee _ => s

/-! Releases and acquires (R83 to R85). -/

/-- What a releasing write of a thread at a scope carries: the writes before it and the accesses before it. -/
def State.releaseSet (s : State) (t : TRef) (sc : Scope) : List (Nat × Scope) :=
  (s.observed t fun p => p == .ls || p == Path.at).map fun e => (e.id, sc)

/-- A thread's accesses still to be performed (R83). -/
def OpKind.isAccess : OpKind → Bool
  | .load .. | .mwait .. | .cntw .. | .jwait .. | .atomic .. | .acall .. | .bgwait .. => true
  | _ => false

def State.pendingAccesses (s : State) (t : TRef) : List Nat :=
  (s.ops.filter fun o => o.thr == t && o.kind.isAccess).map (·.id)

/-- The same, with the scope at which what they come to observe must be visible (R83). -/
def State.pendingWith (s : State) (t : TRef) (sc : Scope) : List (Nat × Scope) := (s.pendingAccesses t).map fun o => (o, sc)

/-- An atomic of a thread still to be performed: its address and length (R271, R275). -/
def OpKind.atomicAt : OpKind → Option (Nat × Nat)
  | .atomic _ m _ => some (m.pa, if tyWide m.ty then 8 else 4)
  | .acall _ a _ _ _ _ _ _ _ => some (a / 128 * 128, 128)
  | _ => none

/-- A thread's atomics still to be performed on the words of a range (R80, R272). -/
def State.pendingAtomics (s : State) (t : TRef) (pa len : Nat) : List (Nat × Scope) :=
  (s.ops.filter fun o => o.thr == t && match o.kind.atomicAt with
    | some (a, n) => sameWord a n pa len
    | none => false).map fun o => (o.id, .wave)

/-- Whether a thread has an atomic still to be performed (R87). -/
def State.atomicsOpen (s : State) (t : TRef) : Bool := s.ops.any fun o => o.thr == t && o.kind.atomicAt.isSome

/-- `fence.rel` and every release that is no store (R83, R194, R198): later writes of the thread wait for the
earlier and observed ones. -/
def State.release (s : State) (t : TRef) (sc : Scope) : State :=
  let s := s.updThread t fun x => { x with rel := (x.rel ++ s.releaseSet t sc).eraseDups,
                                            relOps := (x.relOps ++ s.pendingWith t sc).eraseDups }
  if sc == .wave then s else s.releaseK t

/-- The L1 effect and the uniform-register effect of an acquire (R82, R35). -/
def State.acquireNow (s : State) (t : TRef) (sc : Scope) : State :=
  let s := if sc == .die || sc == .device || sc == .system then s.l1Clear (s.ctx t).core else s
  if sc == .wave then s else s.acquireK t

/-- `fence.acq`: later accesses follow every earlier load of the thread (R83). -/
def State.acquire (s : State) (t : TRef) (sc : Scope) : State :=
  (s.updThread t fun x => { x with acq := (x.acq ++ s.pendingWith t sc).eraseDups }).acquireNow t sc

/-- Every earlier and observed write made visible at the scope (R83, `fence.ar`). -/
def State.flush (s : State) (t : TRef) (sc : Scope) (paths : Path → Bool) : State :=
  s.forceAll ((s.observed t paths).map (·.id)) (s.reachOf (some t) sc)

/-- Whether a queued write, what its release orders before it and the earlier writes of its words can all become
visible now (R79, R83, R300, R272). -/
def State.canForce : Nat → State → Reach → Nat → Bool
  | 0, _, _, _ => true
  | n + 1, s, r, id =>
    match s.mem.wq.find? fun x => x.id == id with
    | none => true
    | some e =>
      r.rank ≤ e.reach.rank || (s.drainable e &&
        (e.after.all fun a => State.canForce n s (s.reachOf e.issuer a.2) a.1) &&
        ((s.mem.priors e).filter fun x => r == .all || e.onPath x).all fun x => State.canForce n s r x.id)

def State.canForceAll (s : State) (ids : List Nat) (r : Reach) : Bool := ids.all fun i => State.canForce s.forceFuel s r i

/-- Whether everything that a flush would make visible can become visible now (R300, R272). -/
def State.flushable (s : State) (t : TRef) (sc : Scope) (paths : Path → Bool) : Bool :=
  s.canForceAll ((s.observed t paths).map (·.id)) (s.reachOf (some t) sc)

/-! Releases at later writes (R83, R84). -/

/-- What a release puts before a write, made visible for its issuer's scopes. -/
def State.forceOwed (s : State) (t : TRef) (l : List (Nat × Scope)) : State :=
  l.foldl (fun s a => State.force s.forceFuel (s.reachOf (some t) a.2) s a.1) s
def State.canForceOwed (s : State) (t : TRef) (l : List (Nat × Scope)) : Bool :=
  l.all fun a => State.canForce s.forceFuel s (s.reachOf (some t) a.2) a.1

/-- Accesses that a release puts before a write and that are still to be performed. -/
def State.opsOpen (s : State) (l : List (Nat × Scope)) : Bool := l.any fun o => (s.op? o.1).isSome

/-- Whether a queued write can become visible to any other party at all: what its release orders before it can be (R83). -/
def State.ripe (s : State) (e : QWrite) : Bool :=
  !s.opsOpen e.afterOps && !s.opsOpen e.under && e.after.all fun a => State.canForce s.forceFuel s (s.reachOf e.issuer a.2) a.1

/-- A write that a thread makes in one step, outside the store queue, waits for what its releases put before it (R83, R84). -/
def State.relHeld (s : State) (t : TRef) : Bool :=
  s.opsOpen (s.thread t).relOps || !s.canForceOwed t (s.thread t).rel
def State.relFlush (s : State) (t : TRef) : State := s.forceOwed t (s.thread t).rel

/-! Writes already visible beyond their path come before any later one to the word (R79, R81). -/

def Memory.raised (m : Memory) (pa len : Nat) : List Nat :=
  (m.wq.filter fun x => x.reach != .own && sameWord x.pa x.data.length pa len).map (·.id)
def State.settled (s : State) (pa len : Nat) : Bool := s.canForceAll (s.mem.raised pa len) .all
def State.settle (s : State) (pa len : Nat) : State := s.forceAll (s.mem.raised pa len) .all

/-! Flags and pending operations (R39). -/

def Thread.flag (x : Thread) (i : Nat) : Nat := x.flags.getD i 0
def Thread.flagUp (x : Thread) (i : Nat) : Thread := { x with flags := x.flags.set i (Nat.min 7 (x.flag i + 1)) }
def Thread.flagDown (x : Thread) (i : Nat) : Thread := { x with flags := x.flags.set i (x.flag i - 1) }

def State.flagDown (s : State) (t : TRef) (f : Option Nat) : State :=
  match f with
  | some i => s.updThread t fun x => x.flagDown i
  | none => s

/-! Halts and traps (R414 to R417). -/

/-- Queued matrix operations of a group abandoned (R227). -/
def State.abandon (s : State) (g : Nat) : State :=
  { s with cores := s.cores.map fun k => { k with mu := k.mu.map fun m => if m.group == g then { m with abandoned := true } else m } }

/-- A halt to every wave of a group; a sleep ends with it (R416, R431), its queued matrix operations are abandoned (R227).
DEDUCED, log entry 25. -/
def State.haltGroup (s : State) (g : Nat) (why : HaltWhy) (decider : Nat) : State :=
  (s.abandon g).updGroup g fun G =>
    match G.halt with
    | some _ => G
    | none => { G with
        halt := some ⟨why, decider, false, none, s.clk⟩
        waves := G.waves.map fun w => { w with skid := 0 }
        threads := G.threads.map fun x => { x with skid := 0, trapcode := 0, trapaddr := 0, sleep := none } }

/-- Where a thread of a group stands, for the choice among traps of one cycle (R417). -/
def Group.trapRank (G : Group) (tid : Nat) : Nat :=
  match G.threads.find? fun x => x.tid == tid with
  | none => 0
  | some x =>
    let w := (G.waves.find? fun w => w.idx == x.wave).getD Wave.blank
    (w.core % 2) * 4096 + w.slot * 64 + x.lane

/-- `%trapcode` (R415): cause, slot, write access, software code. -/
def trapWord (cause : Nat) (slot : BitVec 4) (write : Bool) (code : BitVec 16) : W32 :=
  code ++ (0 : BitVec 3) ++ BitVec.ofBool write ++ slot ++ BitVec.ofNat 8 cause

/-- The reply of a remote-call executor: the callee is gone, the call goes back with its status (R347, R348). -/
def State.endCallee (s : State) (id code : Nat) (va : W64) : State :=
  match s.callee? id with
  | none => s
  | some C =>
    let m := ((s.call? C.call).map (·.m)).getD 0
    let reply := if code = 0 then (List.range m).map fun i => C.th.v.getD (2 + i) 0 else []
    let s := s.updCall C.call fun k => { k with phase := .replied, code := code, faultVa := va, reply := reply }
    let f := fun (d : Dedup) => if d.exec == C.exec && d.call == C.call then
      { d with done := some s.clk, code := code, faultVa := va, reply := reply } else d
    { s with remote := { s.remote with callees := s.remote.callees.filter (fun x => x.id != id), dedup := s.remote.dedup.map f }
             ops := s.ops.filter fun o => o.thr != .callee id }

/-- The status a callee ends with where a thread would trap (R348, R350, R351). -/
def calleeStatus (cause : Nat) : Nat :=
  match cause with
  | 6 | 7 => 1
  | _ => 3

/-- TAKING A TRAP, the one operation for every cause (R414 to R416): the thread stops at its instruction with
`%trapcode` and `%trapaddr` written, and its group is halted; of several traps of one cycle the lowest core,
wave slot and lane decides (R417).  In a callee the call ends with a status (R351). -/
def State.trap (s : State) (t : TRef) (cause : Nat) (addr : W64) (write : Bool) (code : BitVec 16) : State :=
  match t with
  | .callee c => s.endCallee c (calleeStatus cause) addr
  | .thr g i =>
    let f := fun (x : Thread) =>
      { x with stopped := true, park := .no, trapcode := trapWord cause x.slot write code, trapaddr := addr }
    let s := (s.haltGroup g (.trap cause) i).updThread t f
    s.updGroup g fun G =>
      match G.halt with
      | some ⟨.trap c, d, q, m, n⟩ =>
        if n == s.clk && G.trapRank i < G.trapRank d then { G with halt := some (Halt.mk (.trap cause) i q m n) } else G
      | _ => G

/-- The causes of R415. -/
def causeIllegal : Nat := 1
def causePrivilege : Nat := 2
def causeUniformity : Nat := 3
def causeFormat : Nat := 4
def causeWindow : Nat := 5
def causePage : Nat := 6
def causeProtection : Nat := 7
def causeTarget : Nat := 8
def causeToken : Nat := 9
def causeOverrun : Nat := 10
def causeUniformWrite : Nat := 11
def causeDeadline : Nat := 12
def causeSoftware : Nat := 13
def causeBreakpoint : Nat := 14

end Sys2Proof.Machine
end

