-- ==== Sys2Proof/Machine/Operands.lean ====
section
/-! DEFINITION. Every operand form (R32 to R37): reading vector, uniform, predicate, special, immediate and
accumulator-row operands for a thread, and delivering register writes now or after a fixed latency. -/

set_option linter.unusedVariables false

namespace Sys2Proof.Machine

/-! Reading. -/

def State.vreg (s : State) (t : TRef) (n : Nat) : W32 := (s.thread t).v.getD n 0

/-- A predicate; pt is 1 (R32). -/
def Thread.pred (x : Thread) (n : Nat) : Bool := n == 7 || x.p.getLsbD n

/-- The values a uniform register may have for a thread at a cycle, given its writes latest first: back to the latest that is
the thread's own and delivered (R36), or another's and ordered for it, what it replaced as well while another's is not
ordered (R35). -/
def kView (clk i : Nat) : W32 → List KOld → List W32
  | cur, [] => [cur]
  | cur, e :: l =>
    if e.writer == i then (if e.due ≤ clk then [cur] else kView clk i e.old l)
    else if e.seen.contains i then [cur] else cur :: kView clk i e.old l

/-- The writes of one register, latest first, each with the value it wrote. -/
def kNews : W32 → List KOld → List (KOld × W32)
  | _, [] => []
  | cur, k :: l => (k, cur) :: kNews k.old l

/-- A uniform register as a thread reads it: its own write once delivered, another thread's write once
ordered, the old or the new value until then (R35); in quantum mode another thread's write is seen from the commit on
(R94).  DEDUCED, log entry 131. -/
def State.kreg (s : State) (t : TRef) (n : Nat) : W32 :=
  match t, s.groupOf t with
  | .thr _ i, some G =>
    let cur := G.k.getD n 0
    let es := G.kOld.filter fun k => k.reg == n
    if (s.launchOf t).rc.quant then
      let own := (kNews cur es).filter fun k => k.1.writer == i && k.1.due ≤ s.clk
      ((own.head?).map (·.2)).getD ((es.getLast?.map (·.old)).getD cur)
    else (s.pick [0x100, n, i] (kView s.clk i cur es)).getD cur
  | _, _ => 0

/-- Where a window's older bounds stand among the group's older values (R207). -/
def winKey (w : Nat) : Nat := 64 + 2 * w

/-- The bounds of a wave's window as a thread has them: a change that thread 0 has made is ordered for it as a uniform
register's is (R35, R207). -/
def State.winOf (s : State) (t : TRef) (w : Wave) : W32 × W32 :=
  let cur := (w.accbase, w.acclim)
  match t, s.groupOf t with
  | .thr _ i, some G =>
    let at_ := fun (n : Nat) => G.kOld.filter fun k => k.reg == winKey w.idx + n
    let es := (at_ 0).zip (at_ 1)
    let old := fun (e : KOld × KOld) => (e.1.old, e.2.old)
    if es.any fun e => e.1.writer == i then cur
    else if (s.launchOf t).rc.quant then (es.getLast?.map old).getD cur
    else (s.pick [0x101, w.idx, i] (cur :: (es.filter fun e => !e.1.seen.contains i).map old)).getD cur
  | _, _ => cur

/-- `%live`: the lanes of a wave that hold a thread that has not exited (R116). -/
def Group.live (G : Group) (w : Nat) : W32 :=
  G.threads.foldl (fun m x => if x.wave == w && !x.exited then m ||| (1 : W32) <<< x.lane else m) 0

/-- A special register as it stands (R37, R116, R203, R406, R413 to R416, R348).  DEDUCED, log entry 12. -/
def State.sreg (s : State) (t : TRef) (n : Nat) : W128 :=
  let x := s.thread t
  let w := s.waveOf t
  let G := s.groupOf t
  let c := s.ctx t
  let nat := fun (v : Nat) => BitVec.ofNat 128 v
  match n with
  | 0x000 => nat x.tid
  | 0x001 => nat x.lane
  | 0x002 => nat (x.lane / 4)
  | 0x003 => nat x.wave
  | 0x004 => nat ((G.map (·.index)).getD 0)
  | 0x005 => nat ((G.map (·.cellPos)).getD 0)
  | 0x006 => nat c.core
  | 0x007 => nat (w.slot / 8)
  | 0x008 => nat s.rank
  | 0x009 => nat s.nranks
  | 0x00A => ((G.map fun (g : Group) => g.live x.wave).getD 0).zeroExtend 128
  | 0x010 => nat s.clk
  | 0x011 => nat s.gtsc
  | 0x018 => x.prog.zeroExtend 128
  | 0x019 => nat x.skid
  | 0x01A => x.trapcode.zeroExtend 128
  | 0x01B => x.trapaddr.zeroExtend 128
  | 0x020 => (s.winOf t w).1.zeroExtend 128
  | 0x021 => (s.winOf t w).2.zeroExtend 128
  | 0x022 => w.mbind.zeroExtend 128
  | 0x023 => w.fmtdiv.zeroExtend 128
  | 0x028 | 0x029 | 0x02A | 0x02B => x.routes.getD (n - 0x28) 0
  | 0x030 => x.rcstat.zeroExtend 128
  | 0x031 => x.sp.zeroExtend 128
  | 0x032 => nat (((s.launchOf t).dl).getD 0)
  | 0x100 | 0x101 | 0x102 | 0x103 => ((s.coreAt c.core).bpaddr.getD (n - 0x100) 0).zeroExtend 128
  | 0x104 | 0x105 | 0x106 | 0x107 => ((s.coreAt c.core).bpctl.getD (n - 0x104) 0).zeroExtend 128
  | _ => 0

/-- A source operand at a type: a register or a pair, an immediate extended by its type (R32, R33). -/
def State.src (s : State) (t : TRef) (ty : Ty) (o : Operand) : W64 :=
  match o with
  | .v n => if tyWide ty then s.vreg t (n.toNat + 1) ++ s.vreg t n.toNat else (s.vreg t n.toNat).zeroExtend 64
  | .k n => if tyWide ty then s.kreg t (n.toNat + 1) ++ s.kreg t n.toNat else (s.kreg t n.toNat).zeroExtend 64
  | .p n => if (s.thread t).pred n.toNat then 1 else 0
  | .sr n => if tyWide ty then (s.sreg t n.toNat).extractLsb' 0 64 else ((s.sreg t n.toNat).extractLsb' 0 32).zeroExtend 64
  | .imm x => if ty == .i64 then x.signExtend 64 else x.zeroExtend 64
  | .acc n => (s.vreg t n.toNat).zeroExtend 64
  | .none => 0

def State.src32 (s : State) (t : TRef) (o : Operand) : W32 := (s.src t .b32 o).extractLsb' 0 32
def State.src64 (s : State) (t : TRef) (o : Operand) : W64 := s.src t .b64 o

/-- The number a register operand names. -/
def opNum : Operand → Nat
  | .v n => n.toNat
  | .k n => n.toNat
  | .p n => n.toNat
  | .sr n => n.toNat
  | .acc n => n.toNat
  | _ => 0

def opUniform : Operand → Bool
  | .k _ => true
  | _ => false

/-- The register words of a store's or push's data operand (R172): consecutive registers, or the value of a
special register. -/
def State.dataWords (s : State) (t : TRef) (ty : Ty) (o : Operand) (n : Nat) : List W32 :=
  match o with
  | .v r => (List.range n).map fun i => s.vreg t (r.toNat + i)
  | .k r => (List.range n).map fun i => s.kreg t (r.toNat + i)
  | _ => [(s.src t ty o).extractLsb' 0 32, (s.src t ty o).extractLsb' 32 32].take n

/-- The guard of an instruction (R30). -/
def State.guard (s : State) (t : TRef) (c : Ctl) : Bool := (s.thread t).pred c.gp.toNat != c.gn

/-! Writing. -/

def Thread.setV (x : Thread) (n : Nat) (y : W32) : Thread := { x with v := x.v.set n y }
def Thread.setP (x : Thread) (n : Nat) (b : Bool) : Thread :=
  if 7 ≤ n then x
  else { x with p := if b then x.p ||| (1 : BitVec 7) <<< n else x.p &&& ~~~((1 : BitVec 7) <<< n) }

/-- A uniform register written for the group at a cycle; the other threads' view of the old value is kept (R35). -/
def State.setK (s : State) (t : TRef) (n : Nat) (y : W32) (due : Nat) : State :=
  match t with
  | .thr g i => s.updGroup g fun G =>
      { G with k := G.k.set n y, kOld := ⟨n, G.k.getD n 0, i, false, [], due⟩ :: G.kOld }
  | .callee _ => s

/-- A register write that lands now. -/
def State.write (s : State) (t : TRef) (w : Wr) : State :=
  match w with
  | .v n y => s.updThread t fun x => x.setV n y
  | .p n b => s.updThread t fun x => x.setP n b
  | .k n y => s.setK t n y s.clk

def State.writeAll (s : State) (t : TRef) (ws : List Wr) : State := ws.foldl (fun s w => s.write t w) s

/-- Whether two writes go to one register. -/
def Wr.same : Wr → Wr → Bool
  | .v n _, .v m _ => n == m
  | .k n _, .k m _ => n == m
  | .p n _, .p m _ => n == m
  | _, _ => false

/-- The number of a destination among those of an operation: vn as n, pn as 256 + n, kn as 512 + n. -/
def Wr.code : Wr → Nat
  | .v n _ => n
  | .p n _ => 256 + n
  | .k n _ => 512 + n

/-- The destinations of a pending operation (R36). -/
def OpKind.dests : OpKind → List Nat
  | .result ws => ws.map Wr.code
  | .load _ _ (.regs u n ty c) ws => (List.range ((tyWidth ty * c + 31) / 32)).map (n + (if u then 512 else 0) + ·) ++ ws.map Wr.code
  | .load _ _ (.elems n ty c) _ => (List.range ((tyWidth ty * c + 31) / 32)).map (n + ·)
  | .mwait _ ty _ d _ _ => if tyWide ty then [d, d + 1] else [d]
  | .cntw _ _ d _ _ => [d, d + 1]
  | .jwait _ d _ _ => [d, d + 1]
  | .barrWait _ _ _ _ d _ => [256 + d]
  | .atomic _ m (some d) => if tyWide m.ty then [d, d + 1] else [d]
  | .acall _ _ _ _ _ _ d n _ => (List.range (n + 1)).map (d + ·)
  | .accRead _ _ _ d n => (List.range n).map (d + ·)
  | .bgload _ d => [d]
  | .bgstat _ d => [d]
  | .bgwait _ d _ _ => [d, d + 1]
  | .pgreq _ _ d _ => [d]
  | .pgmig _ d => [d]
  | .mld _ _ _ (some d) img => (List.range (img.length / 4)).map (d + ·)
  | .satom _ _ m d => if tyWide m.ty then [d, d + 1] else [d]
  | .rwait d => [d]
  | .cwait _ d => [d]
  | .rcall _ d m => (List.range m).map (d + ·) ++ [256 + 6]
  | .cplan _ d => [d, d + 1]
  | _ => []

/-- A fixed-latency write issued now and delivered after its latency, in program order (R36, R43). -/
def State.later (s : State) (t : TRef) (lat : Nat) (w : Wr) : State :=
  let s : State := match w with
    | .k n y => s.setK t n y (s.clk + lat)
    | w => s.updThread t fun x => { x with pend := x.pend ++ [⟨s.clk + lat, w⟩] }
  { s with ops := s.ops.map fun o => if o.thr == t && o.kind.dests.contains w.code then { o with clob := w.code :: o.clob } else o }

def State.laterAll (s : State) (t : TRef) (lat : Nat) (ws : List Wr) : State := ws.foldl (fun s w => s.later t lat w) s

/-- Thread with one register write landed. -/
def Thread.put (x : Thread) : Wr → Thread
  | .v n y => x.setV n y
  | .p n b => x.setP n b
  | .k _ _ => x

/-- The results that have come due land, in program order; an older result to a register that a younger one
has reached is dropped (R36). -/
def Thread.settle (clk : Nat) (x : Thread) : Thread :=
  let x' := x.pend.foldl (fun y e => if e.due ≤ clk then y.put e.w else y) x
  let rec keep : List Pend → List Pend
    | [] => []
    | e :: l => if e.due ≤ clk || l.any (fun f => f.due ≤ clk && f.w.same e.w) then keep l else e :: keep l
  { x' with pend := keep x.pend }

/-- A free yes or no at a thread's instruction; in quantum mode it depends on the launch alone (R94). -/
def State.flipAt (s : State) (t : TRef) (keys : List Nat) : Bool :=
  let x := s.thread t
  if (s.launchOf t).rc.quant then
    Config.choose 0 ([(s.launchOf t).quantum, ((s.groupOf t).map (·.index)).getD 0, x.tid, x.qcount] ++ keys) % 2 == 1
  else s.flip keys

/-- A long-latency result lands (R36): a destination that a fixed-latency write has been issued to since keeps one of the
two values by free choice; else the fixed-latency results still on their way to it are older and land no more. -/
def State.land (s : State) (t : TRef) (clob : List Nat) (w : Wr) : State :=
  if clob.contains w.code && s.flipAt t [0x101, w.code] then s
  else (s.updThread t fun x => { x with pend := x.pend.filter fun e => !e.w.same w }).write t w

def State.landAll (s : State) (t : TRef) (clob : List Nat) (ws : List Wr) : State :=
  ws.foldl (fun s w => s.land t clob w) s

/-! Limits that depend on the launch (R32, R172, R178). -/

/-- One past the highest vector register an operand of `n` registers names. -/
def opTop (n : Nat) : Operand → Nat
  | .v x => x.toNat + n
  | .acc x => x.toNat + 1
  | _ => 0

def tyRegs (t : Ty) : Nat := if tyWide t then 2 else 1

end Sys2Proof.Machine
end

