-- ==== Sys2Proof/Machine/Translate.lean ====
section
/-! DEFINITION. Address translation (R317 to R322) and the checks every access makes: the page walk, the
cached translations of a die, and an access's pages, physical ranges and faults (R18, R23, R168 to R170, R351). -/

set_option linter.unusedVariables false

namespace Sys2Proof.Machine

/-! Leaf fields (R318). -/

def lfV (x : W64) : Bool := x.getLsbD 0
def lfW (x : W64) : Bool := x.getLsbD 1
def lfX (x : W64) : Bool := x.getLsbD 2
def lfU (x : W64) : Bool := x.getLsbD 3
def lfG (x : W64) : Bool := x.getLsbD 4
def lfD (x : W64) : Bool := x.getLsbD 6
def lfN (x : W64) : Bool := x.getLsbD 7
def lfBypass (x : W64) : Bool := x.extractLsb' 8 2 == 3
def lfBS (x : W64) : Bool := x.getLsbD 14
def lfM (x : W64) : Bool := x.getLsbD 15
def lfFrame (x : W64) : Nat := (x.extractLsb' 16 36).toNat
def lfSize (x : W64) : Nat := (x.extractLsb' 52 2).toNat
def lfSetFrame (x : W64) (f : Nat) : W64 := (x &&& ~~~((0xFFFFFFFFF : W64) <<< 16)) ||| (BitVec.ofNat 64 (f % 2 ^ 36) <<< 16)
def lfSetSize (x : W64) (n : Nat) : W64 := (x &&& ~~~((3 : W64) <<< 52)) ||| (BitVec.ofNat 64 n <<< 52)
/-- A forward leaf (R327). -/
def lfForward (x : W64) : Bool := lfN x && lfM x && lfFrame x / 2 ^ 32 == 0xE
/-- A leaf through which an access of any level may go: present, valid and resident. -/
def lfThere (x : W64) : Bool := lfV x && !lfN x
/-- A leaf without A and D, for comparing a cached one with the table. -/
def lfPlain (x : W64) : W64 := x &&& ~~~(0x60 : W64)

/-- A table or leaf entry at its point of visibility; no entry where no home stands, or an uncorrectable error does
(R320, R455). -/
def State.tableEntry (s : State) (frame idx : Nat) : Nat × W64 :=
  let pa := frame * 2 ^ 16 + idx * 8
  (pa, if paExists pa && paHome pa != 15 && !s.bank.bad.contains (2 ^ 61 + pa / 8) then toW64 (s.mem.visBytes pa 8) else 0)

/-- The walk (R317, R318): the leaf's address and the leaf as it serves the 64 KiB page of the address, its
frame that page's; none where a table pointer on the way is not valid. -/
def State.walk (s : State) (root : Nat) (va : Nat) : Option (Nat × W64) :=
  let e0 := (s.tableEntry root (bitsOf va 56 55)).2
  if !lfV e0 then none
  else
    let e1 := (s.tableEntry (lfFrame e0) (bitsOf va 54 42)).2
    if !lfV e1 then none
    else
      let r2 := s.tableEntry (lfFrame e1) (bitsOf va 41 29)
      let e2 := r2.2
      if !lfV e2 || lfSize e2 == 3 then none
      else if lfSize e2 == 2 then
        some (r2.1, lfSetFrame e2 (lfFrame e2 / 2 ^ 13 * 2 ^ 13 + bitsOf va 28 16))
      else
        let r3 := s.tableEntry (lfFrame e2) (bitsOf va 28 16)
        if 2 ≤ lfSize r3.2 then none else some r3

/-- Whether the 32 leaves of a 2 MiB page agree (R319). -/
def State.wholePage (s : State) (leafPa : Nat) (va : Nat) (leaf : W64) : Bool :=
  let i := bitsOf va 20 16
  let base := leafPa - 8 * i
  let f0 := lfFrame leaf - i
  i ≤ lfFrame leaf && f0 % 32 == 0 && (List.range 32).all fun j =>
    lfPlain (toW64 (s.mem.visBytes (base + 8 * j) 8)) == lfPlain (lfSetFrame leaf (f0 + j))

/-- A translation found for an access: the leaf, where it stands in the table, and whether the table was walked; or a
walk that has to wait for rows a bank launch holds (R299, R300). -/
structure Look where
  leaf : Option W64
  leafPa : Nat
  fresh : Bool
  wait : Bool
  deriving DecidableEq, Repr

/-- The table words a walk reads. -/
def State.walkReads (s : State) (root va : Nat) : List Nat :=
  let r0 := s.tableEntry root (bitsOf va 56 55)
  let r1 := s.tableEntry (lfFrame r0.2) (bitsOf va 54 42)
  let r2 := s.tableEntry (lfFrame r1.2) (bitsOf va 41 29)
  [r0.1] ++ (if lfV r0.2 then [r1.1] ++ (if lfV r1.2 then [r2.1] ++
    (if lfV r2.2 && lfSize r2.2 < 2 then [(s.tableEntry (lfFrame r2.2) (bitsOf va 28 16)).1] else []) else []) else [])

/-- Whether a walk that misses the L2 is held with the rows of a table (R299, R300), or its bits A and D with the page of
its leaf (R320, R326). -/
def State.walkHeld (s : State) (root va : Nat) : Bool :=
  let rs := s.walkReads root va
  !(rs.all fun a => s.coreReadOk a) || !((rs.getLast?).all fun a => s.pageOpen a)

/-- Pages of 64 KiB that share one cached translation (R317, R319). -/
def tlbSpan (leaf : W64) : Nat := match lfSize leaf with | 1 => 32 | 2 => 8192 | _ => 1

/-- A cached translation as it serves a page (R321). -/
def TlbEnt.serve (e : TlbEnt) (page : Nat) : W64 :=
  let n := tlbSpan e.leaf
  lfSetFrame e.leaf (lfFrame e.leaf / n * n + page % n)

/-- The translation an access uses: the table's leaf, or a leaf still cached on the die, chosen freely (R322);
a write passes over cached leaves with D clear (R320).  DEDUCED, log entry 69. -/
def State.lookup (s : State) (die root : Nat) (va : Nat) (write : Bool) (keys : List Nat) : Look :=
  let w := s.walk root va
  let fresh : Look := ⟨w.map (·.2), (w.map (·.1)).getD 0, true, false⟩
  let page := va / 2 ^ 16
  let hits := (s.xlat.tlb.filter fun e => e.die == die && e.root == root &&
    e.page / tlbSpan e.leaf == page / tlbSpan e.leaf && (!write || lfD e.leaf)).map fun e => e.serve page
  let cached := fun (l : W64) => (⟨some l, fresh.leafPa, false, false⟩ : Look)
  if s.walkHeld root va then (s.pick (0x200 :: keys) (hits.map cached)).getD ⟨none, 0, false, true⟩
  else
    let old := hits.filter fun l => (fresh.leaf.map lfPlain) != some (lfPlain l)
    (s.pick (0x200 :: keys) (fresh :: old.map cached)).getD fresh

/-- Entries of a die's last-level TLB, of a core's and of a walk-ahead TLB (R321). -/
def tlbCap : TlbUser → Nat
  | .core _ => 256
  | .walk _ => 1024
  | .die => 16384

/-- An entry put into a die's TLB and the user's own, another leaving each where it is full; what leaves the die's leaves
the others (R321). -/
def State.tlbPut (s : State) (u : TlbUser) (e : TlbEnt) : State :=
  let l := s.xlat.tlb
  let own := (l.filter fun x => x.held.contains u).map fun x => (x.root, x.page)
  let all := (l.filter fun x => x.die == e.die).map fun x => (x.root, x.page)
  let outU := if own.length < tlbCap u then none else s.pick [0x201, e.page] own
  let out := if all.length < tlbCap .die then none else s.pick [0x202, e.page] all
  let l := l.filter fun x => !(x.die == e.die && out == some (x.root, x.page))
  let l := l.map fun x => if outU == some (x.root, x.page) then { x with held := x.held.filter fun v => v != u } else x
  { s with xlat := { s.xlat with tlb := e :: l } }

/-- An access that passed its checks used a translation: A and D set in the table while the entry still holds
what the walker read, and the translation cached on the die and for its user (R320, R321). -/
def State.fillTlb (s : State) (u : TlbUser) (die root : Nat) (va : Nat) (l : Look) (setD : Bool) : State :=
  match l.fresh, l.leaf with
  | true, some leaf =>
    let bits : W64 := if setD then 0x60 else 0x20
    let now := toW64 (s.mem.visBytes l.leafPa 8)
    let s := if now &&& bits == bits then s else s.perform l.leafPa (bytes8 (now ||| bits)) false
    let whole := lfSize leaf == 2 || (lfSize leaf == 1 && s.wholePage l.leafPa va leaf)
    let leaf := (if whole then leaf else lfSetSize leaf 0) ||| bits
    let n := tlbSpan leaf
    let page := va / 2 ^ 16 % 2 ^ 41
    let same := fun (e : TlbEnt) => e.die == die && e.root == root && e.page == page / n * n &&
      lfPlain e.leaf == lfPlain (lfSetFrame leaf (lfFrame leaf / n * n))
    let mine := if u == .die then [] else [u]
    let ent : TlbEnt := ⟨die, root, page / n * n, lfSetFrame leaf (lfFrame leaf / n * n),
      (mine ++ ((s.xlat.tlb.filter same).map (·.held)).flatten).eraseDups⟩
    ({ s with xlat := { s.xlat with tlb := s.xlat.tlb.filter fun e => !same e } } : State).tlbPut u ent
  | _, _ => s

/-- A requester of a die that meets a stub is sent a REDIRECT (R329). -/
def State.redirectTo (s : State) (die pa : Nat) : State :=
  match s.stubAt pa with
  | none => s
  | some b =>
    if s.xlat.redirs.any fun r => r.die == die && r.old == b.old then s
    else { s with nextId := s.nextId + 1, xlat := { s.xlat with redirs := s.xlat.redirs ++
      [⟨s.nextId, die, b.root, b.old, if b.rank == s.rank then some b.new else none⟩] } }

/-- The page-wise parts of a range: address and length. -/
def splitPages (va len : Nat) : List (Nat × Nat) :=
  if len = 0 then []
  else
    let n := (va % 2 ^ 16 + len + 2 ^ 16 - 1) / 2 ^ 16
    (List.range n).map fun i =>
      let lo := if i = 0 then va else (va / 2 ^ 16 + i) * 2 ^ 16
      let hi := Nat.min (va + len) ((va / 2 ^ 16 + i + 1) * 2 ^ 16)
      (lo, hi - lo)

/-- A physical range an access covers, and whether its page is cached under bypass. -/
structure Range where
  pa : Nat
  len : Nat
  bypass : Bool
  deriving DecidableEq, Repr

/-- How an access ends its checks (R170): its physical ranges and the state with its translations filled in, a
trap cause with the faulting address and the state in which a refused window access has marked its core (R22), a non-resident page where that is no fault (R175, R182), or a walk that waits
(R300). -/
inductive Access
  | ok (rs : List Range) (s : State)
  | fault (cause : Nat) (addr : W64) (s : State)
  | nonres (addr : W64)
  | wait

/-- The trap of one page of an LS or AT access, none when it passes.  Under `nf` N = 1 is left to the caller: for a load once
the other checks pass (R175), for a discard ahead of them (R18, R23, R170, R182). -/
def pageFault (priv write nf : Bool) (leaf : Option W64) : Option Nat :=
  match leaf with
  | none => some causePage
  | some l =>
    if !lfV l then some causePage
    else if lfN l then (if !nf then some causePage else if write || priv || lfU l then none else some causeProtection)
    else if !priv && !lfU l then some causeProtection
    else if write && !lfW l then some causeProtection
    else if !paExists (lfFrame l * 2 ^ 16) || paHome (lfFrame l * 2 ^ 16) == 15 then some causeProtection
    else none

/-- The pages of a range looked up in order. -/
def State.pages (s : State) (die root va len : Nat) (write : Bool) (keys : List Nat) : List (Nat × Nat × Look) :=
  (splitPages va len).map fun p => (p.1, p.2, s.lookup die root p.1 write (p.1 :: keys))

/-- The first page's fault. -/
def firstFault (priv write nf : Bool) : List (Nat × Nat × Look) → Option (Nat × Nat)
  | [] => none
  | (va, _, l) :: ps =>
    match pageFault priv write nf l.leaf with
    | some c => some (c, va)
    | none => firstFault priv write nf ps

def pageRange (p : Nat × Nat × Look) : Range :=
  let l := p.2.2.leaf.getD 0
  ⟨lfFrame l * 2 ^ 16 + p.1 % 2 ^ 16, p.2.1, lfBypass l⟩

/-- An access to host memory asks for a translation that is not at hand (R448). -/
def State.askAts (s : State) (pa : Nat) : State :=
  if paHome pa == 8 && !s.boot.ats.contains (pa / 2 ^ 12) && !s.boot.atsWait.contains (pa / 2 ^ 12) then
    { s with boot := { s.boot with atsWait := s.boot.atsWait ++ [pa / 2 ^ 12] } }
  else s

/-- The host translations that a range needs are asked for where they are not at hand (R448). -/
def State.askRange (s : State) (pa len : Nat) : State :=
  if paHome pa == 8 then (List.range ((pa % 2 ^ 12 + len + 2 ^ 12 - 1) / 2 ^ 12)).foldl (fun s i => s.askAts ((pa / 2 ^ 12 + i) * 2 ^ 12)) s else s

/-- The pages of an access whose checks have passed: their translations are used (R320, R321, R448). -/
def State.fillPages (s : State) (u : TlbUser) (die root : Nat) (ps : List (Nat × Nat × Look)) (setD : Bool) : State :=
  ps.foldl (fun s p => (s.fillTlb u die root p.1 p.2.2 setD).askRange (pageRange p).pa (pageRange p).len) s

/-- A core's CORE_STAT bit set (R22). -/
def State.setStat (s : State) (core bit : Nat) : State := s.updCore core fun k => { k with stat := k.stat ||| (1 : W32) <<< bit }

/-- A refused window access marks the core it names (R20, R22, R23). -/
def State.refuseWindow (s : State) (pa : Nat) : State :=
  if paHome pa == 15 && bitsOf pa 45 40 < 40 then s.setStat (bitsOf pa 47 46 * 256 + bitsOf pa 45 40 * 4 + bitsOf pa 39 38) 0 else s

/-- The same for the page of a range at which an access is refused. -/
def State.markRefused (s : State) (ps : List (Nat × Nat × Look)) (va : Nat) : State :=
  match (ps.find? fun p => p.1 == va).bind fun p => p.2.2.leaf with
  | some l => if lfThere l then s.refuseWindow (lfFrame l * 2 ^ 16 + va % 2 ^ 16) else s
  | none => s

/-- Where the service wave of a line stands (R266): die and cluster. -/
def homeCluster (pa : Nat) : Nat := paOff pa / 2 ^ 7 % 80 / 2

/-- A callee's access (R351): within the page of its target, and for a service wave within its own lines. -/
def State.calleeAccess (s : State) (c : Nat) (va len : Nat) (write : Bool) : Access :=
  match (s.callee? c).bind fun C => s.call? C.call with
  | none => .fault causeProtection (BitVec.ofNat 64 va) s
  | some k =>
    let tva := k.va.toNat
    let pa := k.pa / 2 ^ 16 * 2 ^ 16 + va % 2 ^ 16
    let inPage := va / 2 ^ 16 == tva / 2 ^ 16 && (va + len - 1) / 2 ^ 16 == tva / 2 ^ 16
    let lineOk := fun (a : Nat) => k.exec < 32 || homeCluster a == (k.exec - 32) % 40
    if inPage && lineOk pa && lineOk (pa + len - 1) && (!write || k.leafW) then .ok [⟨pa, len, k.bypass⟩] s
    else .fault causeProtection (BitVec.ofNat 64 va) s

/-- A thread's global access of `len` bytes (R168, R170): address form, then each page in order, through the TLB of its core
or of its cluster's walk-ahead engine (R250, R321).  An access that runs past 2^57 has its pages below checked first, and
then takes the protection trap with the address 2^57.  DESIGN CHOICE, log entry 140. -/
def State.accessVia (s : State) (t : TRef) (u : TlbUser) (va : W64) (len : Nat) (write nf : Bool) (keys : List Nat) : Access :=
  match t with
  | .callee c => s.calleeAccess c va.toNat len write
  | .thr _ _ =>
    let c := s.ctx t
    if 2 ^ 57 ≤ va.toNat then .fault causeProtection va s
    else
      let ps := s.pages c.die c.root va.toNat len write keys
      if ps.any fun p => p.1 < 2 ^ 57 && p.2.2.wait then .wait
      else match firstFault c.priv write nf (ps.filter fun p => p.1 < 2 ^ 57) with
      | some (cause, a) => .fault cause (BitVec.ofNat 64 a) (if cause = causeProtection then s.markRefused ps a else s)
      | none =>
        if 2 ^ 57 < va.toNat + len then .fault causeProtection (BitVec.ofNat 64 (2 ^ 57)) s
        else match ps.find? fun p => (p.2.2.leaf.map lfN).getD false with
          | some p => .nonres (BitVec.ofNat 64 p.1)
          | none => if ps.any fun p => s.redirHeld u (pageRange p).pa then .wait
            else .ok (ps.map pageRange) (s.fillPages u c.die c.root ps write)

/-- The same through the core's TLB. -/
def State.access (s : State) (t : TRef) (va : W64) (len : Nat) (write nf : Bool) (keys : List Nat) : Access :=
  s.accessVia t (.core (s.ctx t).core) va len write nf keys

/-- A global operand's address (R168). -/
def State.addr (s : State) (t : TRef) (a : Operand) (off : BitVec 12) : W64 := s.src64 t a + off.signExtend 64

/-- A scratchpad operand's address (R169). -/
def State.spadAddr (s : State) (t : TRef) (a : Operand) (off : BitVec 12) : W32 := s.src32 t a + off.signExtend 32

/-- The group a scratchpad address of a group selects and the core offset of its byte, for a party on a core (R169).  DEDUCED, log entry 28. -/
def State.spadOf (s : State) (G : Group) (onCore : Nat) (a : W32) (len : Nat) : Option (Group × Nat × Nat) :=
  let L := (s.launch? G.launch).getD Launch.blank
  let off := (a.extractLsb' 0 19).toNat
  let pos := (a.extractLsb' 19 2).toNat
  let peer := a.getLsbD 21
  if a.extractLsb' 22 10 != 0 || (!peer && pos != 0) || (peer && L.rc.cellSize ≤ pos) ||
      L.rc.scratchBytes < off + len then none
  else
    let c := L.rc.cellSize
    let T := if peer then s.groups.find? fun g => g.launch == G.launch && g.index / c == G.index / c && g.cellPos == pos
             else some G
    T.bind fun T =>
      let core := if T.pair then T.lead + onCore % 2 else T.lead
      some (T, core, T.spadOff + off)

/-- The same for a thread; none is the protection trap (R169). -/
def State.spadPlace (s : State) (t : TRef) (a : W32) (len : Nat) : Option (Group × Nat × Nat) :=
  (s.groupOf t).bind fun G => s.spadOf G (s.waveOf t).core a len

/-- A scratchpad byte: what stands written, else what its placement left (R406, R451). -/
def State.spadByte (s : State) (core off : Nat) : Byte :=
  let k := s.coreAt core
  match cellFind k.spad off with
  | some b => b
  | none =>
    match k.spadAlloc.find? fun r => r.1 ≤ off && off < r.1 + r.2.1 with
    | some r => Config.scratchByte r.2.2 off
    | none => 0

def State.spadBytes (s : State) (core off len : Nat) : List Byte := (List.range len).map fun i => s.spadByte core (off + i)

def State.setSpad (s : State) (core off : Nat) (data : List Byte) : State :=
  s.updCore core fun k => { k with spad := putBytes cellPut off data k.spad }

/-! Accumulator rows (R202). -/

/-- A committed row: what stands written; else what an earlier group left in it, zero where none held it (R202, R406, R451). -/
def State.accRow (s : State) (core row : Nat) : List W32 :=
  let k := s.coreAt core
  match k.rows.find? fun r => r.1 == row with
  | some r => r.2
  | none =>
    match k.rowAlloc.filter fun r => r.1 ≤ row && row < r.1 + r.2.1 with
    | r :: _ :: _ => (List.range 16).map fun i => toW32 ((List.range 4).map fun j =>
        Config.scratchByte r.2.2 (2 ^ 20 + row * 64 + 4 * i + j))
    | _ => List.replicate 16 0

def State.setAccRow (s : State) (core row : Nat) (ws : List W32) : State :=
  s.updCore core fun k => { k with rows := (row, ws) :: k.rows.filter fun r => r.1 != row }

end Sys2Proof.Machine
end

