-- ==== Sys2Proof/Machine/Issue.lean ====
section
/-! DEFINITION. What every native instruction shares: the clause and its headers (R26, R27, R38 to R42), the
encoding limits that depend on the launch, the privilege check (R44), the guard, the next slot, transfers with
their target checks, and rejoin tokens (R108 to R112). -/

set_option linter.unusedVariables false

namespace Sys2Proof.Machine

/-! Static facts of the forms. -/

/-- The register operands of a native form with the registers each spans. -/
def instrUses : Instr → List (Operand × Nat)
  | .nop _ => []
  | .bra _ _ _ _ => []
  | .brx _ _ _ a => [(a, 2)]
  | .call _ _ d _ => [(d, 2)]
  | .callx _ _ d a => [(d, 2), (a, 2)]
  | .ret _ _ _ a => [(a, 2)]
  | .exit _ => []
  | .tokOpen _ _ => []
  | .tokLeave _ _ => []
  | .rpt _ a _ => [(a, 1)]
  | .yield _ => []
  | .brk _ => []
  | .trap _ _ => []
  | .setp _ ty _ _ d a b e => [(d, tyRegs ty), (a, tyRegs ty), (b, tyRegs ty), (e, tyRegs ty)]
  | .fsetp _ ty _ _ d a b e => [(d, tyRegs ty), (a, tyRegs ty), (b, tyRegs ty), (e, tyRegs ty)]
  | .pbool _ _ d a b => [(d, 1), (a, 1), (b, 1)]
  | .pmovSave _ d => [(d, 1)]
  | .pmovLoad _ a _ => [(a, 1)]
  | .getsr _ ty _ d _ => [(d, tyRegs ty)]
  | .setsr _ ty _ _ a => [(a, tyRegs ty)]
  | .mov _ ty _ d a => [(d, tyRegs ty), (a, tyRegs ty)]
  | .movi _ ty _ d _ => [(d, tyRegs ty)]
  | .add _ ty _ d a b => [(d, tyRegs ty), (a, tyRegs ty), (b, tyRegs ty)]
  | .sub _ ty _ d a b => [(d, tyRegs ty), (a, tyRegs ty), (b, tyRegs ty)]
  | .mul _ ty _ d a b => [(d, tyRegs ty), (a, tyRegs ty), (b, tyRegs ty)]
  | .mulhi _ ty d a b => [(d, tyRegs ty), (a, tyRegs ty), (b, tyRegs ty)]
  | .mad _ ty _ d a b e => [(d, tyRegs ty), (a, tyRegs ty), (b, tyRegs ty), (e, tyRegs ty)]
  | .addc _ _ _ d a b => [(d, 1), (a, 1), (b, 1)]
  | .subb _ _ _ d a b => [(d, 1), (a, 1), (b, 1)]
  | .abs _ ty _ d a => [(d, tyRegs ty), (a, tyRegs ty)]
  | .min _ ty d a b => [(d, tyRegs ty), (a, tyRegs ty), (b, tyRegs ty)]
  | .max _ ty d a b => [(d, tyRegs ty), (a, tyRegs ty), (b, tyRegs ty)]
  | .and _ ty d a b => [(d, tyRegs ty), (a, tyRegs ty), (b, tyRegs ty)]
  | .or _ ty d a b => [(d, tyRegs ty), (a, tyRegs ty), (b, tyRegs ty)]
  | .xor _ ty d a b => [(d, tyRegs ty), (a, tyRegs ty), (b, tyRegs ty)]
  | .not _ ty d a => [(d, tyRegs ty), (a, tyRegs ty)]
  | .shl _ ty d a b => [(d, tyRegs ty), (a, tyRegs ty), (b, 1)]
  | .shr _ ty d a b => [(d, tyRegs ty), (a, tyRegs ty), (b, 1)]
  | .sra _ ty d a b => [(d, tyRegs ty), (a, tyRegs ty), (b, 1)]
  | .rot _ ty d a b => [(d, tyRegs ty), (a, tyRegs ty), (b, 1)]
  | .bfe _ ty d a b => [(d, tyRegs ty), (a, tyRegs ty), (b, tyRegs ty)]
  | .bfi _ d a b e => [(d, 1), (a, 1), (b, 1), (e, 1)]
  | .popc _ ty d a => [(d, 1), (a, tyRegs ty)]
  | .clz _ ty d a => [(d, 1), (a, tyRegs ty)]
  | .brev _ ty d a => [(d, tyRegs ty), (a, tyRegs ty)]
  | .prmt _ d a b e => [(d, 1), (a, 1), (b, 1), (e, 1)]
  | .sel _ ty d a b e => [(d, tyRegs ty), (a, tyRegs ty), (b, tyRegs ty), (e, tyRegs ty)]
  | .lea _ _ _ d a b => [(d, 2), (a, 2), (b, 1)]
  | .dp4 _ ty _ _ d a b e => [(d, tyRegs ty), (a, tyRegs ty), (b, tyRegs ty), (e, tyRegs ty)]
  | .mix32 _ d a b => [(d, 1), (a, 1), (b, 1)]
  | .fadd _ ty _ d a b => [(d, tyRegs ty), (a, tyRegs ty), (b, tyRegs ty)]
  | .fsub _ ty _ d a b => [(d, tyRegs ty), (a, tyRegs ty), (b, tyRegs ty)]
  | .fmul _ ty _ d a b => [(d, tyRegs ty), (a, tyRegs ty), (b, tyRegs ty)]
  | .ffma _ ty _ d a b e => [(d, tyRegs ty), (a, tyRegs ty), (b, tyRegs ty), (e, tyRegs ty)]
  | .fmin _ ty d a b => [(d, tyRegs ty), (a, tyRegs ty), (b, tyRegs ty)]
  | .fmax _ ty d a b => [(d, tyRegs ty), (a, tyRegs ty), (b, tyRegs ty)]
  | .fclamp _ ty d a b e => [(d, tyRegs ty), (a, tyRegs ty), (b, tyRegs ty), (e, tyRegs ty)]
  | .frnd _ ty _ d a => [(d, tyRegs ty), (a, tyRegs ty)]
  | .fclass _ ty d a => [(d, tyRegs ty), (a, tyRegs ty)]
  | .lg2 _ d a => [(d, 1), (a, 1)]
  | .ex2 _ d a => [(d, 1), (a, 1)]
  | .rcp _ d a => [(d, 1), (a, 1)]
  | .rsq _ d a => [(d, 1), (a, 1)]
  | .sqrt _ d a => [(d, 1), (a, 1)]
  | .hadd2 _ d a b => [(d, 1), (a, 1), (b, 1)]
  | .hmul2 _ d a b => [(d, 1), (a, 1), (b, 1)]
  | .hfma2 _ d a b e => [(d, 1), (a, 1), (b, 1), (e, 1)]
  | .hmax2 _ d a b => [(d, 1), (a, 1), (b, 1)]
  | .cvt _ dty _ _ sty _ d a _ => [(d, tyRegs dty), (a, if cvtWide sty then 2 else 1)]
  | .pack _ _ _ _ _ d a b e => [(d, 1), (a, 1), (b, 1), (e, 1)]
  | .unpk _ _ _ _ d a => [(d, 1), (a, 1)]
  | .qswap _ ty _ d a => [(d, tyRegs ty), (a, tyRegs ty)]
  | .qbcast _ ty _ d a => [(d, tyRegs ty), (a, tyRegs ty)]
  | .shfl _ ty _ _ _ d a b e => [(d, tyRegs ty), (a, tyRegs ty), (b, 1), (e, 1)]
  | .vote _ _ d a b => [(d, 1), (a, 1), (b, 1)]
  | .matchv _ ty d a b => [(d, 1), (a, tyRegs ty), (b, 1)]
  | .wred _ ty _ _ d a b => [(d, tyRegs ty), (a, tyRegs ty), (b, tyRegs ty)]
  | .wmaxi _ _ d a b e => [(d, 2), (a, 1), (b, 1), (e, 1)]
  | .wscan _ ty _ _ _ d a b => [(d, tyRegs ty), (a, tyRegs ty), (b, tyRegs ty)]
  | .elect _ d a => [(d, 1), (a, 1)]
  | .ld _ ty _ _ _ _ vec d a _ _ => [(d, vecRegs ty vec), (a, 2)]
  | .st _ ty _ _ vec a b _ => [(a, 2), (b, vecRegs ty vec)]
  | .lds _ ty vec d a _ => [(d, vecRegs ty vec), (a, 1)]
  | .sts _ ty vec a b _ => [(a, 1), (b, vecRegs ty vec)]
  | .ldk _ ty _ sp vec d a _ => [(d, vecRegs ty vec), (a, if sp then 1 else 2)]
  | .gather _ ty _ _ cnt d a b _ => [(d, (cnt.toNat + 1) * tyRegs ty), (a, 2), (b, cnt.toNat + 1)]
  | .ldblk _ sp _ cnt d a _ => [(d, cnt.toNat + 1), (a, if sp then 1 else 2)]
  | .prefetch _ _ a _ => [(a, 2)]
  | .discard _ _ a _ => [(a, 2)]
  | .l1inv _ => []
  | .fence _ _ _ => []
  | .xfence _ _ _ _ => []
  | .satom _ ty _ d a b e _ => [(d, tyRegs ty), (a, 1), (b, tyRegs ty), (e, tyRegs ty)]
  | .mwait _ ty _ _ d a b _ => [(d, tyRegs ty), (a, 2), (b, tyRegs ty)]
  | .qinit _ a b _ => [(a, 1), (b, 2)]
  | .qpush _ _ _ a b _ => [(a, 1), (b, 1)]
  | .qpop _ _ d a _ _ => [(d, 1), (a, 1)]
  | .barrInit _ a b _ => [(a, 1), (b, 1)]
  | .barrArrive _ _ a b _ => [(a, 1), (b, 1)]
  | .barrExpect _ a b _ => [(a, 1), (b, 1)]
  | .barrWait _ _ a b _ => [(a, 1), (b, 2)]
  | .barrQuery _ d a _ => [(d, 4), (a, 1)]
  | .atom _ ty _ _ _ d a b e _ => [(d, tyRegs ty), (a, 2), (b, tyRegs ty), (e, tyRegs ty)]
  | .red _ ty _ _ _ a b _ => [(a, 2), (b, tyRegs ty)]
  | .acall _ _ args res d a b _ => [(d, res.toNat + 1), (a, 2), (b, args.toNat + 1)]
  | .mma _ d a b e => [(d, 1), (a, 1), (b, 4), (e, 1)]
  | .mmp _ d a b e => [(d, 1), (a, 1), (b, 4), (e, 1)]
  | .mld _ _ d a b e => [(d, 4), (a, 2), (b, 1), (e, 1)]
  | .aalloc _ pair d a => [(d, 1), (a, if pair then 2 else 1)]
  | .awin _ a b e => [(a, 1), (b, 1), (e, 1)]
  | .afree _ a => [(a, 1)]
  | .azero _ _ d => [(d, 1)]
  | .ald _ _ cnt d a => [(d, cnt.toNat + 1), (a, 1)]
  | .ast _ _ cnt d a => [(d, 1), (a, cnt.toNat + 1)]
  | .mret _ _ sp a b e => [(a, if sp then 1 else 2), (b, 1), (e, 1)]
  | .mretRoute _ _ _ a b e => [(a, 2), (b, 1), (e, 1)]
  | .epcfg _ a b e => [(a, 1), (b, 1), (e, 1)]
  | .ckick _ a _ => [(a, 1)]
  | .cpoll _ d a _ => [(d, 2), (a, 1)]
  | .cntw _ d a b _ => [(d, 2), (a, 2), (b, 2)]
  | .cnta _ a b _ => [(a, 2), (b, 1)]
  | .trec _ a b => [(a, 2), (b, 1)]
  | .bgload _ d a _ => [(d, 1), (a, 2)]
  | .bgx _ a _ => [(a, 2)]
  | .bfence _ a => [(a, 2)]
  | .bgwait _ d a _ => [(d, 2), (a, 2)]
  | .bgstatEng _ d a => [(d, 1), (a, 1)]
  | .bgstatRmap _ d a => [(d, 1), (a, 2)]
  | .pgreq _ _ d a _ => [(d, 1), (a, 2)]
  | .pgmig _ d a b => [(d, 1), (a, 2), (b, 2)]
  | .tlbinvPage _ a b => [(a, 2), (b, 1)]
  | .tlbinvAll _ => []
  | .pocinvPage _ a b => [(a, 2), (b, 1)]
  | .pocinvAll _ => []
  | .rcall _ _ _ cnt m d a b e => [(d, m.toNat), (a, 2), (b, 2), (e, cnt.toNat + 1)]
  | .rwait _ d => [(d, 1)]
  | .rret _ => []
  | .rstat _ _ d a => [(d, 1), (a, 2)]
  | .cplan _ d a _ => [(d, 2), (a, 2)]
  | .cgo _ a => [(a, 1)]
  | .cwait _ d a => [(d, 1), (a, 1)]
  | .netslot _ d a _ => [(d, 1), (a, 2)]
  | .netslotOff _ d => [(d, 1)]
  | .spawn _ _ a => [(a, 2)]
  | .jwait _ d a _ => [(d, 2), (a, 2)]
  | .rfe _ => []
  | .halt _ _ => []
  | .sleep _ a => [(a, 1)]
  | .dlset _ a => [(a, 2)]
  | .qend _ => []
  | .qsync _ => []
  | .pwrq _ d => [(d, 1)]
  | .crd _ ty d a => [(d, tyRegs ty), (a, 1)]
  | .cwr _ ty a b => [(a, 1), (b, tyRegs ty)]
  | _ => []

/-- The long-latency forms of R43. -/
def isLong : Instr → Bool
  | .lg2 _ _ _ | .ex2 _ _ _ | .rcp _ _ _ | .rsq _ _ _ | .sqrt _ _ _ | .shfl _ _ _ _ _ _ _ _ _
  | .vote _ _ _ _ _ | .matchv _ _ _ _ _ | .wred _ _ _ _ _ _ _ | .wmaxi _ _ _ _ _ _ | .wscan _ _ _ _ _ _ _ _ | .elect _ _ _
  | .ld _ _ _ _ _ _ _ _ _ _ _ | .lds _ _ _ _ _ _ | .ldk _ _ _ _ _ _ _ _ | .gather _ _ _ _ _ _ _ _ _ | .ldblk _ _ _ _ _ _ _ | .satom _ _ _ _ _ _ _ _
  | .mwait _ _ _ _ _ _ _ _ | .qpush _ _ _ _ _ _ | .qpop _ _ _ _ _ _ | .barrWait _ _ _ _ _ | .barrQuery _ _ _ _ | .atom _ _ _ _ _ _ _ _ _ _
  | .acall _ _ _ _ _ _ _ _ | .mma _ _ _ _ _ | .mmp _ _ _ _ _ | .mld _ _ _ _ _ _ | .ald _ _ _ _ _ | .ast _ _ _ _ _
  | .mret _ _ _ _ _ _ | .mretRoute _ _ _ _ _ _ | .cpoll _ _ _ _ | .cntw _ _ _ _ _ | .bgload _ _ _ _ | .bfence _ _
  | .bgwait _ _ _ _ | .bgstatEng _ _ _ | .bgstatRmap _ _ _ | .pgreq _ _ _ _ _ | .pgmig _ _ _ _ | .tlbinvPage _ _ _
  | .tlbinvAll _ | .pocinvPage _ _ _ | .pocinvAll _ | .rcall _ _ _ _ _ _ _ _ _ | .rwait _ _ | .rstat _ _ _ _
  | .cplan _ _ _ _ | .cwait _ _ _ | .netslot _ _ _ _ | .netslotOff _ _ | .jwait _ _ _ _ | .qsync _
  | .pwrq _ _ | .crd _ _ _ _ => true
  | _ => false

/-- The privileged forms (R44); `getsr` and `setsr` on a system register. -/
def isPrivileged : Instr → Bool
  | .pgmig _ _ _ _ | .tlbinvPage _ _ _ | .tlbinvAll _ | .pocinvPage _ _ _ | .pocinvAll _ | .netslot _ _ _ _
  | .netslotOff _ _ | .halt _ _ | .dlset _ _ | .crd _ _ _ _ | .cwr _ _ _ _ | .rfe _ => true
  | .getsr _ _ _ _ sr => 0x100 ≤ sr.toNat
  | .setsr _ _ _ sr _ => 0x100 ≤ sr.toNat
  | _ => false

/-- The forms that a repeat body forbids (R123). -/
def repeatForbids : Instr → Bool
  | .bra _ _ _ _ | .brx _ _ _ _ | .call _ _ _ _ | .callx _ _ _ _ | .ret _ _ _ _ | .exit _
  | .tokOpen _ _ | .tokLeave _ _ | .rpt _ _ _ => true
  | _ => false

/-- The forms a remote callee may run (R350), leaving its operands aside. -/
def calleeForm : Instr → Bool
  | .nop _ | .setp _ _ _ _ _ _ _ _ | .fsetp _ _ _ _ _ _ _ _ | .pbool _ _ _ _ _ | .pmovSave _ _ | .pmovLoad _ _ _ => true
  | .bra _ _ n _ => n = 0
  | .brx _ _ n _ => n = 0
  | .mov _ _ one _ _ => !one
  | .movi _ _ one _ _ => !one
  | .add _ _ _ _ _ _ | .sub _ _ _ _ _ _ | .mul _ _ _ _ _ _ | .mulhi _ _ _ _ _ | .mad _ _ _ _ _ _ _ | .addc _ _ _ _ _ _
  | .subb _ _ _ _ _ _ | .abs _ _ _ _ _ | .min _ _ _ _ _ | .max _ _ _ _ _ | .and _ _ _ _ _ | .or _ _ _ _ _
  | .xor _ _ _ _ _ | .not _ _ _ _ | .shl _ _ _ _ _ | .shr _ _ _ _ _ | .sra _ _ _ _ _ | .rot _ _ _ _ _
  | .bfe _ _ _ _ _ | .bfi _ _ _ _ _ | .popc _ _ _ _ | .clz _ _ _ _ | .brev _ _ _ _ | .prmt _ _ _ _ _
  | .sel _ _ _ _ _ _ | .lea _ _ _ _ _ _ | .dp4 _ _ _ _ _ _ _ _ | .mix32 _ _ _ _ | .fadd _ _ _ _ _ _ | .fsub _ _ _ _ _ _
  | .fmul _ _ _ _ _ _ | .ffma _ _ _ _ _ _ _ | .fmin _ _ _ _ _ | .fmax _ _ _ _ _ | .fclamp _ _ _ _ _ _ | .frnd _ _ _ _ _
  | .fclass _ _ _ _ | .lg2 _ _ _ | .ex2 _ _ _ | .rcp _ _ _ | .rsq _ _ _ | .sqrt _ _ _
  | .hadd2 _ _ _ _ | .hmul2 _ _ _ _ | .hfma2 _ _ _ _ _ | .hmax2 _ _ _ _ | .cvt _ _ _ _ _ _ _ _ _ | .pack _ _ _ _ _ _ _ _ _
  | .unpk _ _ _ _ _ _ => true
  | .ld _ _ _ _ _ nf _ _ _ _ _ => !nf
  | .st _ _ _ _ _ _ _ _ | .atom _ _ _ _ _ _ _ _ _ _ | .rret _ => true
  | _ => false

def isCalleeOk (i : Instr) : Bool :=
  calleeForm i && (instrUses i).all fun u => match u.1 with | .k _ => false | .sr _ => false | _ => true

/-- Registers a form names lie below a thread's registers (R32). -/
def regsOk (regs : Nat) (i : Instr) : Bool := (instrUses i).all fun u => opTop u.2 u.1 ≤ regs

/-! Headers (R38, R41, R42). -/

def headerOf (w : W96) : Header :=
  { cnt := (w.extractLsb' 91 4).toNat, wait := w.extractLsb' 79 12, sav := w.getLsbD 78,
    saf := (w.extractLsb' 74 4).toNat, sbv := w.getLsbD 73, sbf := (w.extractLsb' 69 4).toNat,
    kind := (w.extractLsb' 66 3).toNat, yld := w.getLsbD 65 }

/-- The header breaks no rule of R38, R41 and R42.  DEDUCED, log entry 23. -/
def headerOk (w : W96) : Bool :=
  let h := headerOf w
  h.cnt != 0 && h.saf < 12 && h.sbf < 12 && h.kind < 4 && !w.getLsbD 64 && w.extractLsb' 0 32 == 0

/-- The flag a long-latency form names, none when its set is not valid (R39). -/
def Header.flagOf (h : Header) (fs : Bool) : Option Nat :=
  if fs then (if h.sbv then some h.sbf else none) else if h.sav then some h.saf else none

/-- The fall-through address of a clause (R26, R27), modulo 2^57 as every clause address.  DEDUCED, log entry 14. -/
def fallAddr (pc : W64) (cnt : Nat) : W64 :=
  BitVec.ofNat 64 ((pc.toNat + (12 * (cnt + 1) + 15) / 16 * 16) % 2 ^ 57)

/-- An immediate target (R118). -/
def immTarget (pc : W64) (d : BitVec 28) : W64 :=
  (pc + (d.signExtend 64) * 16) &&& 0x1FFFFFFFFFFFFFF

/-! Fetching (R27, R28). -/

inductive Fetch
  | word (w : W96) (s : State)
  /-- The trap's cause and the first faulting address (R170, R415). -/
  | fault (cause : Nat) (va : W64)
  /-- The walk or the words wait for rows a bank launch holds (R299, R300). -/
  | wait

/-- The trap of a fetch on one page, none when it passes (R27, R28). -/
def fetchFault (priv : Bool) (leaf : Option W64) : Option Nat :=
  match leaf with
  | none => some causePage
  | some l =>
    if !lfThere l then some causePage
    else if !lfX l || (!priv && !lfU l) || !paExists (lfFrame l * 2 ^ 16) || paHome (lfFrame l * 2 ^ 16) == 15 then
      some causeProtection
    else none

/-- The stamp up to which a thread's fetches see code stores (R28): its group's. -/
def State.fetchStamp (s : State) (t : TRef) : Nat :=
  match t with
  | .thr g _ => ((s.group? g).map (·.fetchStamp)).getD s.stamp
  | .callee c =>
    let o := ((s.callee? c).bind fun C => s.call? C.call).bind fun k => s.op? k.op
    ((o.bind fun o => s.groupOf o.thr).map (·.fetchStamp)).getD s.stamp

/-- The code word at an address in a translation context.  DEDUCED, log entry 22. -/
def State.fetchIn (s : State) (u : TlbUser) (die root : Nat) (priv : Bool) (stamp : Nat) (va : W64) : Fetch :=
  if 2 ^ 57 ≤ va.toNat then .fault causeProtection va
  else
    let ps := s.pages die root va.toNat 12 false [0x300]
    if ps.any fun p => p.2.2.wait then .wait
    else match ps.findSome? fun p => (fetchFault priv p.2.2.leaf).map fun c => (c, p.1) with
    | some f => .fault f.1 (BitVec.ofNat 64 f.2)
    | none =>
      let rs := ps.map pageRange
      if rs.any fun r => s.redirHeld u r.pa || !s.readRowsOk (s.resolve r.pa) r.len r.bypass then .wait
      else
        let bytes := (rs.map fun r => (List.range r.len).map fun i =>
          if s.movedAway r.pa then Config.freeByte s.tick [0x310, r.pa + i] else s.mem.codeByte stamp (s.resolve r.pa + i)).flatten
        .word (BitVec.ofNat 96 (bytesToNat bytes)) (rs.foldl (fun s r => s.redirectTo die r.pa) (s.fillPages u die root ps false))

/-- A fetch refused for a window address marks the core it names (R22, R23, R27). -/
def State.refuseFetch (s : State) (t : TRef) (va : W64) : State :=
  let c := s.ctx t
  if 2 ^ 57 ≤ va.toNat then s
  else
    let ps := s.pages c.die c.root va.toNat 12 false [0x300]
    match ps.find? fun p => (fetchFault c.priv p.2.2.leaf).isSome with
    | some p => if fetchFault c.priv p.2.2.leaf == some causeProtection then s.markRefused ps p.1 else s
    | none => s

def State.fetch (s : State) (t : TRef) (va : W64) : Fetch :=
  let c := s.ctx t
  s.fetchIn (if c.callee then .die else .core c.core) c.die c.root c.priv (s.fetchStamp t) va

/-- The trap of a fetch that failed, or of a target that is no header: its address is the target (R27). -/
def State.trapTarget (s : State) (t : TRef) (cause : Nat) (va : W64) : State := (s.refuseFetch t va).trap t cause va false 0

/-- Threads that stay at their instruction without a trap of their own until their group resumes (R109, R113, R114). -/
def State.holdAll (s : State) (ts : List TRef) : State := ts.foldl (fun s t => s.updThread t fun x => { x with stopped := true }) s

/-- The check of a transfer target (R27): the header's word, or the trap's cause; `%trapaddr` is the target. -/
inductive Target
  | header (w : W96) (s : State)
  | bad (cause : Nat)
  | wait

def Target.isWait : Target → Bool
  | .wait => true
  | _ => false

def State.target (s : State) (t : TRef) (va : W64) : Target :=
  if va.toNat % 16 != 0 || 2 ^ 57 ≤ va.toNat then .bad causeTarget
  else match s.fetch t va with
    | .fault c _ => .bad c
    | .wait => .wait
    | .word w s' => if w.msb then .header w s' else .bad causeTarget

/-! Tokens (R108 to R111). -/

def Token.blank : Token := ⟨false, 0, none, 0, 0⟩
def Wave.token (w : Wave) (i : Nat) : Token := w.tokens.getD i Token.blank

def laneBit (l : Nat) : W32 := (1 : W32) <<< l

/-- A thread leaves its n innermost tokens (R110). -/
def State.leaveTokens : Nat → State → TRef → State
  | 0, s, _ => s
  | n + 1, s, t =>
    match t with
    | .callee _ => s
    | .thr g _ =>
      let x := s.thread t
      if x.depth = 0 then s
      else
        let e := x.innermost
        let parent := ((s.waveOf t).token e).parent
        let s := s.updWave g x.wave fun w => { w with tokens := w.tokens.modify e fun k =>
          { k with expected := k.expected &&& ~~~laneBit x.lane, arrived := k.arrived &&& ~~~laneBit x.lane } }
        let s := s.updThread t fun x => { x with depth := x.depth - 1, innermost := parent.getD 0 }
        State.leaveTokens n s t

/-- The park of a thread whose PC has become a header (R111): at the rejoin clause of its innermost token. -/
def State.rejoinPark (s : State) (t : TRef) : State :=
  let x := s.thread t
  let e := (s.waveOf t).token x.innermost
  if x.slot == 0 && 0 < x.depth && e.valid && e.rejoin == x.pc then s.updThread t fun x => { x with park := .rejoin } else s

/-- A thread moves to slot 0 of a checked header (R27); the step-over mark goes (R51). -/
def State.moveTo (s : State) (t : TRef) (va : W64) : State :=
  (s.updThread t fun x => { x with pc := va, slot := 0, stepOver := false, fresh := false }).rejoinPark t

/-- Arrivals of a wave's parked threads, then one round of releases (R111); whether anything was released. -/
def State.tokenRound (s : State) (g w : Nat) : State × Bool :=
  match s.group? g with
  | none => (s, false)
  | some G =>
    match G.waves.find? fun x => x.idx == w with
    | none => (s, false)
    | some W =>
      let parked := G.threads.filter fun x => x.wave == w && x.park == .rejoin && 0 < x.depth && !x.exited
      let toks := W.tokens.zipIdx.map fun k =>
        let e := k.1
        if e.valid then { e with arrived := (parked.filter fun x => x.innermost == k.2).foldl (fun m x => m ||| laneBit x.lane) e.arrived }
        else e
      let go := fun (i : Nat) => match toks[i]? with
        | some e => e.valid && e.arrived == e.expected && e.expected != 0
        | none => false
      let free := toks.map fun e => if e.valid && (e.expected == 0 || e.arrived == e.expected) then Token.blank else e
      let rel := fun (x : Thread) =>
        if x.wave == w && x.park == .rejoin && 0 < x.depth && !x.exited && go x.innermost then
          let par := (toks.getD x.innermost Token.blank).parent
          let p := free.getD (par.getD 0) Token.blank
          let again := 1 < x.depth && p.valid && p.rejoin == x.pc
          { x with depth := x.depth - 1, innermost := par.getD 0, releasedAt := s.clk + 1,
                   park := if again then Park.rejoin else Park.no }
        else x
      let any := (List.range 16).any go
      (s.updGroup g fun G => { G with threads := G.threads.map rel
                                      waves := listUpd (fun x => x.idx == w) (fun x => { x with tokens := free }) G.waves }, any)

/-- The token changes at the end of a cycle, until nothing changes (R111). -/
def State.tokenEnd : Nat → State → Nat → Nat → State
  | 0, s, _, _ => s
  | n + 1, s, g, w =>
    let r := s.tokenRound g w
    if r.2 then State.tokenEnd n r.1 g w else r.1

/-! The next slot (R27, R123). -/

/-- Where a thread goes after its slot, with the check of a header it enters; the trap that check raises, or a fetch that
waits. -/
inductive Adv
  | ok (s : State)
  | bad (cause : Nat) (va : W64)
  | wait

def Adv.isWait : Adv → Bool
  | .wait => true
  | _ => false

def Adv.isBad : Adv → Bool
  | .bad _ _ => true
  | _ => false

def State.enter (s : State) (t : TRef) (va : W64) : Adv :=
  match s.target t va with
  | .bad c => .bad c va
  | .wait => .wait
  | .header _ s => .ok (s.moveTo t va)

def State.advance (s : State) (t : TRef) : Adv :=
  let x := s.thread t
  if x.slot.toNat < s.gang.hdr.cnt then .ok (s.updThread t fun x => { x with slot := x.slot + 1, stepOver := false })
  else
    match x.rep with
    | some r =>
      if r.body == x.pc then
        if 1 < r.remaining.toNat then
          .ok (s.updThread t fun x => { x with slot := 0, stepOver := false, rep := some { r with
            remaining := r.remaining - 1, iteration := r.iteration + 1 } })
        else
          let s' := s.updThread t fun x => { x with rep := none }
          if r.retSlot = 0 then s'.enter t r.retPc
          else .ok (s'.updThread t fun x => { x with pc := r.retPc, slot := r.retSlot, stepOver := false })
      else s.enter t (fallAddr x.pc s.gang.hdr.cnt)
    | none => s.enter t (fallAddr x.pc s.gang.hdr.cnt)

/-! One gang. -/

/-- What an instruction comes to for one thread. -/
inductive Lane
  /-- Performed; the thread goes to its next slot. -/
  | next (s : State)
  /-- Performed; the thread goes to a header. -/
  | goto (s : State) (pc : W64)
  /-- The thread stays at the instruction. -/
  | stay (s : State)
  /-- Performed; the thread goes nowhere (`exit`, an ended callee). -/
  | stop (s : State)
  /-- A precise trap: nothing performed beyond `s`. -/
  | trap (s : State) (cause : Nat) (addr : W64) (write : Bool)
  /-- A trap whose resume point is the next slot (R124, R196). -/
  | trapNext (s : State) (cause : Nat) (code : BitVec 16)

/-- The outcome of one thread put into the state (R105, R414).  DESIGN CHOICE, log entry 130: where a software trap in a
clause's last slot meets a fall-through that is no valid target, the fall-through's trap is taken in its place. -/
def State.settleLane (s0 : State) (t : TRef) (l : Lane) : State :=
  match l with
  | .next s =>
    match s.advance t with
    | .ok s => s
    | .bad c va => s0.trapTarget t c va
    | .wait => s0
  | .goto s pc =>
    match s.enter t pc with
    | .ok s => s
    | .bad c va => s0.trapTarget t c va
    | .wait => s0
  | .stay s => s
  | .stop s => s
  | .trap s c a w => s.trap t c a w 0
  | .trapNext s c code =>
    let s' := s.trap t c 0 false code
    match s'.advance t with
    | .ok s'' => s''
    | .bad c va => s0.trapTarget t c va
    | .wait => s0

/-- The waves that hold members of the gang. -/
def State.gangWaves (s : State) : List (Nat × Nat) :=
  (s.gang.members.filterMap fun t => t.group.map fun g => (g, (s.thread t).wave)).eraseDups

/-- Issue marks of the gang's threads: stall (R40), yield after the clause (R41), starvation (R104), the
quantum's count (R90), the callee's count (R349), the wave's count after a halt (R416). -/
def State.mark (s : State) (c : Ctl) : State :=
  let yld := s.gang.hdr.yld && s.gang.slot.toNat == s.gang.hdr.cnt
  let f := fun (x : Thread) =>
    { x with wakeAt := s.clk + 1 + c.stall.toNat, yieldAt := if yld then s.clk + 1 else x.yieldAt,
             starve := 0, qcount := x.qcount + 1 }
  let s' := s.gang.members.foldl (fun s t =>
    match t with
    | .callee i => (s.updThread t f).updCallee i fun C => { C with count := C.count + 1 }
    | .thr _ _ => s.updThread t f) s
  s.gangWaves.foldl (fun s gw =>
    match (s.group? gw.1).bind (·.halt) with
    | none => s
    | some _ => s.updGroup gw.1 fun G =>
        { G with waves := listUpd (fun w => w.idx == gw.2) (fun w => { w with skid := w.skid + 1 }) G.waves
                 threads := listUpd (fun x => x.wave == gw.2) (fun x => { x with skid := x.skid + 1 }) G.threads }) s'

/-- The encoding limits of a form that depend on the launch and the clause (R32, R39, R42, R123, R350), then a uniform
destination without `.one` (R35): the cause. -/
def State.encodingFault (s : State) (t : TRef) (c : Ctl) (i : Instr) : Option Nat :=
  let x := s.ctx t
  if !regsOk x.regs i then some causeIllegal
  else if isLong i && (s.gang.hdr.flagOf c.fs).isNone then some causeIllegal
  else if s.gang.hdr.kind == 3 && repeatForbids i then some causeIllegal
  else if x.callee && !isCalleeOk i then some causeIllegal
  else match i with
    | .ldk _ _ false .. => some causeUniformWrite
    | _ => none

/-- The token changes at the end of the cycle; in a quantum launch they wait for the commit (R111, R132). -/
def State.tokenEnds (s : State) : State :=
  s.gangWaves.foldl (fun s gw =>
    if (s.launchOf (.thr gw.1 0)).rc.quant then s else State.tokenEnd 32 s gw.1 gw.2) s

/-- One instruction for the whole gang (R30, R42, R105): encoding checks, privilege, guard, the effect per
thread in ascending lane order, the next slots, and the token changes of the cycle. -/
def native (c : Ctl) (i : Instr) (s : State) (f : State → TRef → Lane) : Host.Outcome State Fault Refusal :=
  let s1 := s.mark c
  let s2 := s.gang.members.foldl (fun s' t =>
    match s.encodingFault t c i with
    | some cause => s'.trap t cause 0 false 0
    | none =>
      match t with
      | .callee id =>
        if 4096 < ((s'.callee? id).map (·.count)).getD 0 then s'.endCallee id 4 0
        else if s'.guard t c then s'.settleLane t (f s' t) else s'.settleLane t (.next s')
      | .thr _ _ =>
        if !s'.guard t c then s'.settleLane t (.next s')
        else if isPrivileged i && !(s'.ctx t).priv then s'.trap t causePrivilege 0 false 0
        else s'.settleLane t (f s' t)) s1
  .next s2.tokenEnds

/-- A callee past its 4,096 instructions (R348). -/
def State.spent (s : State) (t : TRef) : Bool :=
  match t with
  | .callee id => 4096 < ((s.callee? id).map (·.count)).getD 0
  | .thr _ _ => false

/-- A callee that has spent its instructions ends as an overrun (R348). -/
def State.endSpent (s : State) (t : TRef) : State :=
  match t with
  | .callee id => s.endCallee id 4 0
  | .thr _ _ => s

/-- One instruction that acts on the gang as a whole (R113, R161): after the encoding checks of each member,
`f` gives the state in which every member has gone on or taken its trap. -/
def nativeAll (c : Ctl) (i : Instr) (s : State) (f : State → List TRef → State) : Host.Outcome State Fault Refusal :=
  let s1 := s.mark c
  let bad := s.gang.members.filterMap fun t => (s.encodingFault t c i).map fun k => (t, k)
  let s2 := if bad.isEmpty then f ((s1.gang.members.filter s1.spent).foldl (fun s t => s.endSpent t) s1) (s1.gang.members.filter fun t => !s1.spent t)
    else bad.foldl (fun s b => s.trap b.1 b.2 0 false 0) s1
  .next s2.tokenEnds

end Sys2Proof.Machine
end

