-- ==== Sys2Proof/Machine/Flags.lean ====
section
/-! DEFINITION. Completion flags and what keeps a thread at its instruction: raising a flag for a pending
operation (R39), acquires still open (R83), the scoreboard and the kicks behind it (R185, R186), and the locks
of queued matrix operations (R166, R218). -/

set_option linter.unusedVariables false

namespace Sys2Proof.Machine

/-- The flag a long-latency form raises for the gang's clause (R39); 0 is never reached for a checked form. -/
def State.flagFor (s : State) (c : Ctl) : Nat := (s.gang.hdr.flagOf c.fs).getD 0

/-- A selected flag that stands at 7 holds the thread (R39). -/
def State.flagFull (s : State) (t : TRef) (c : Ctl) : Bool := 7 ≤ (s.thread t).flag (s.flagFor c)

/-- A pending operation begins: its flag rises by one (R39). -/
def State.begin_ (s : State) (t : TRef) (c : Ctl) (kind : OpKind) (acq : Option Scope) : State :=
  let f := s.flagFor c
  let o : Op := { id := s.nextId, thr := t, core := (s.ctx t).core, flag := some f, kind := kind, acq := acq,
                  before := [], under := [], from_ := [], sees := [], after := [], clob := [], run := s.tick }
  { (s.updThread t fun x => x.flagUp f) with nextId := s.nextId + 1, ops := s.ops ++ [o] }

/-- Work of a thread that has no flag (reductions, `ast`): tracked so that its group does not end before it. -/
def State.beginQuiet (s : State) (t : TRef) (kind : OpKind) : State :=
  let o : Op := { id := s.nextId, thr := t, core := (s.ctx t).core, flag := none, kind := kind, acq := none,
                  before := [], under := [], from_ := [], sees := [], after := [], clob := [], run := s.tick }
  { s with nextId := s.nextId + 1, ops := s.ops ++ [o] }

/-- Requests a core holds toward the memory system (R10, R103, R268). -/
def State.coreFull (s : State) (core : Nat) : Bool :=
  2048 ≤ s.ops.countP fun o => o.core == core && o.kind.isAccess

/-- A `fence.ar` holds accesses while a load before it is open, or a write it has observed is not yet visible (R83). -/
def State.arOpen (s : State) (t : TRef) : Bool :=
  s.opsOpen (s.thread t).arOps || (s.thread t).arW.any fun a =>
    s.mem.wq.any fun e => e.id == a.1 && e.reach.rank < (s.reachOf (some t) a.2).rank

/-- Accesses wait while an acquire of the thread has not been performed (R83). -/
def State.acqOpen (s : State) (t : TRef) : Bool := s.opsOpen (s.thread t).acq || s.arOpen t

/-- Scopes whose acquires leave the L1 alone and order nothing for parties past the cluster (R77, R82). -/
def scopeNarrow (sc : Scope) : Bool := sc == .wave || sc == .group || sc == .cell

/-- The open acquires of narrow scope: a load may run ahead of one until it is known to synchronise (R77, R84).
DEDUCED, log entry 129. -/
def State.narrowAcqs (s : State) (t : TRef) : List (Nat × Scope) :=
  (s.thread t).acq.filter fun o => (s.op? o.1).isSome && scopeNarrow o.2

/-- What holds a load: a wider acquire, or a `fence.ar` (R77, R83). -/
def State.acqOpenLoad (s : State) (t : TRef) : Bool :=
  s.opsOpen ((s.thread t).acq.filter fun o => !scopeNarrow o.2) || s.arOpen t

/-! The scoreboard (R185, R186). -/

/-- A range of a copy in flight, or of an `mld` that has not finished (R185, R221). -/
def State.onBoard (s : State) (core off len : Nat) : Bool :=
  (s.reqs.any fun r => match r.sbr with
    | some (c, o, n) => c == core && overlapsAt o n off len
    | none => false) ||
  s.ops.any fun p => match p.kind with
    | .mld _ c o none img => c == core && overlapsAt o img.length off len
    | _ => false

/-- A chain the thread has kicked that is not wholly fetched (R186). -/
def State.kickOpen (s : State) (t : TRef) : Bool :=
  s.cores.any fun k => (k.kicks.any fun q => q.by_ == some t) ||
    (match k.chain with | some c => c.1.by_ == some t | none => false)

/-! Locks of queued matrix operations (R218). -/

def fmtScaled (n : Nat) : Bool := (6 ≤ n && n ≤ 11) || n == 14

/-- Bytes of the A region with its scale records (R211). -/
def fmtRegion (f : W32) : Nat :=
  if fmtScaled (f.extractLsb' 0 4).toNat || fmtScaled (f.extractLsb' 4 4).toNat then 2304 else 2048

def State.narrow (s : State) (t : TRef) : Bool := (s.launchOf t).rc.narrow

def State.regLocked (s : State) (t : TRef) (n : Nat) : Bool :=
  match t with
  | .callee _ => false
  | .thr g i => s.cores.any fun k => k.mu.any fun m => m.group == g &&
      ((m.members.contains i && m.vb ≤ n && n < m.vb + (if s.narrow t then 8 else 4)) ||
        (m.elected == i && m.locks.any fun o => o == .v (BitVec.ofNat 8 n) || o == .acc (BitVec.ofNat 8 n)))

/-- A uniform register that a queued operation of the group reads (R218). -/
def State.uniformLocked (s : State) (t : TRef) (n : Nat) : Bool :=
  s.cores.any fun k => k.mu.any fun m => some m.group == t.group && m.locks.contains (.k (BitVec.ofNat 6 n))

/-- A register write that a lock holds (R166, R218). -/
def State.wrLocked (s : State) (t : TRef) (w : Wr) : Bool :=
  match w with
  | .v n _ => s.regLocked t n
  | .k n _ => s.uniformLocked t n
  | .p _ _ => false

/-- A destination of `n` registers that includes a locked one (R166, R201). -/
def State.destLocked (s : State) (t : TRef) (d : Operand) (n : Nat) : Bool :=
  match d with
  | .v r => (List.range n).any fun i => s.regLocked t (r.toNat + i)
  | .k r => (List.range n).any fun i => s.uniformLocked t (r.toNat + i)
  | _ => false

/-- A scratchpad range that meets an operand region of a queued matrix operation (R218). -/
def State.spadLocked (s : State) (core off len : Nat) : Bool :=
  s.cores.any fun k => k.mu.any fun m =>
    match s.group? m.group with
    | none => false
    | some G => (m.core == core || (m.pair && m.core + 1 == core)) &&
        overlapsAt (G.spadOff + m.addr.toNat % 2 ^ 19) (fmtRegion m.fmt) off len

/-- Whether a thread's scratchpad read, or write, is held now (R185, R186, R218). -/
def State.spadReadHeld (s : State) (t : TRef) (core off len : Nat) : Bool := s.onBoard core off len || s.kickOpen t

/-- An earlier load of the thread from a word of the range that a copy in flight still holds (R80, R185). -/
def State.loadOnBoard (s : State) (t : TRef) (core off len : Nat) : Bool :=
  s.ops.any fun o => o.thr == t && match o.kind with
    | .load _ ps _ _ => ps.any fun p => p.got.isNone && match p.at_ with
      | .spad c a => c == core && sameWord a p.len off len && s.onBoard c a p.len
      | _ => false
    | _ => false

def State.spadWriteHeld (s : State) (t : TRef) (core off len : Nat) : Bool :=
  s.spadReadHeld t core off len || s.spadLocked core off len || s.loadOnBoard t core off len

/-- The writes of an operation that need no access: they land at its completion. -/
def State.result (s : State) (t : TRef) (c : Ctl) (ws : List Wr) : State := s.begin_ t c (.result ws) none

end Sys2Proof.Machine
end

