-- ==== Sys2Proof/Machine/Control.lean ====
section
/-! DEFINITION. Control, predicate and special-register instructions: opcodes 0x000 to 0x012 (R117 to R130). -/

set_option linter.unusedVariables false

namespace Sys2Proof.Machine

/-- Members of the gang by group: the parts that R113 and R114 check alone; each callee stands alone. -/
def gangParts : List TRef → List (List TRef)
  | [] => []
  | t :: ts =>
    let rest := gangParts ts
    match t with
    | .callee _ => [t] :: rest
    | .thr g _ =>
      if rest.any fun p => p.head?.bind TRef.group == some g then
        rest.map fun p => if p.head?.bind TRef.group == some g then t :: p else p
      else [t] :: rest

/-- A fixed-latency instruction of the vector unit: its sources read now, its writes delivered after `lat`
cycles (R36, R136); a read-locked destination holds the thread (R166). -/
def fixedAlu (c : Ctl) (lat : Nat) (i : Instr) (s : State) : Host.Outcome State Fault Refusal :=
  native c i s fun s t =>
    match aluWrites (s.src t) i with
    | some ws =>
      if ws.any fun w => s.wrLocked t w then .stay s
      else .next (s.laterAll t lat ws)
    | none => .next s

/-- `.one` forms: with two or more guard-true threads of a group in the gang, each takes the uniform-write trap (R35). -/
def State.oneCrowd (s : State) (t : TRef) (c : Ctl) : Bool :=
  1 < s.gang.members.countP fun u => u.group == t.group && s.guard u c

/-! Transfers (R113, R114, R118 to R120). -/

/-- What a transfer does for one part of the gang: where each taken thread goes, and what it writes. -/
def State.transferPart (c : Ctl) (u : Bool) (leave : Nat) (target : State → TRef → W64)
    (link : State → TRef → State) (s : State) (part : List TRef) : State :=
  let dir := fun (t : TRef) => if s.guard t c then some (target s t) else none
  let lead := part.head?.bind dir
  let odd := if u then part.find? fun t => t.group.isSome && dir t != lead else none
  let deep := part.find? fun t => (dir t).isSome && (s.thread t).depth < leave
  let lost := part.findSome? fun t => (dir t).bind fun va =>
    match s.target t va with
    | .bad k => some (t, k, va)
    | .wait | .header _ _ => none
  let held := part.any fun t => (dir t).any fun va => (s.target t va).isWait
  if odd.isNone && deep.isNone && held then s else
  match odd with
  | some t => (s.holdAll part).trap t causeUniformity 0 false 0
  | none =>
    match deep with
    | some t => (s.holdAll part).trap t causeToken 0 false 0
    | none =>
      match lost with
      | some (t, k, va) => (s.holdAll part).trapTarget t k va
      | none => part.foldl (fun s' t =>
          match dir t with
          | some va => s'.settleLane t (.goto (link (State.leaveTokens leave s' t) t) va)
          | none => s'.settleLane t (.next s')) s

def State.transfer (c : Ctl) (u : Bool) (leave : Nat) (target : State → TRef → W64) (link : State → TRef → State)
    (s : State) (members : List TRef) : State :=
  (gangParts members).foldl (fun s p => State.transferPart c u leave target link s p) s

/-- The return address in a register pair, with latency 4 (R120). -/
def State.linkTo (d : Operand) (s : State) (t : TRef) : State :=
  s.laterAll t 4 (wrTy .b64 d (fallAddr (s.thread t).pc s.gang.hdr.cnt))

def execNop (c : Ctl) (s : State) : Host.Outcome State Fault Refusal := native c (.nop c) s fun s _ => .next s

def execBra (c : Ctl) (u : Bool) (n : BitVec 4) (disp : BitVec 28) (s : State) : Host.Outcome State Fault Refusal :=
  nativeAll c (.bra c u n disp) s fun s ms =>
    s.transfer c u n.toNat (fun s t => immTarget (s.thread t).pc disp) (fun s _ => s) ms

def execBrx (c : Ctl) (u : Bool) (n : BitVec 4) (a : Operand) (s : State) : Host.Outcome State Fault Refusal :=
  nativeAll c (.brx c u n a) s fun s ms => s.transfer c u n.toNat (fun s t => s.src64 t a) (fun s _ => s) ms

def execCall (c : Ctl) (u : Bool) (d : Operand) (disp : BitVec 28) (s : State) : Host.Outcome State Fault Refusal :=
  nativeAll c (.call c u d disp) s fun s ms =>
    s.transfer c u 0 (fun s t => immTarget (s.thread t).pc disp) (State.linkTo d) ms

def execCallx (c : Ctl) (u : Bool) (d a : Operand) (s : State) : Host.Outcome State Fault Refusal :=
  nativeAll c (.callx c u d a) s fun s ms => s.transfer c u 0 (fun s t => s.src64 t a) (State.linkTo d) ms

def execRet (c : Ctl) (u : Bool) (n : BitVec 4) (a : Operand) (s : State) : Host.Outcome State Fault Refusal :=
  nativeAll c (.ret c u n a) s fun s ms => s.transfer c u n.toNat (fun s t => s.src64 t a) (fun s _ => s) ms

/-- R121: every token left, the thread gone from `%live`. -/
def State.exitThread (s : State) (t : TRef) : State :=
  (State.leaveTokens (s.thread t).depth s t).updThread t fun x => { x with exited := true, qended := true }

def execExit (c : Ctl) (s : State) : Host.Outcome State Fault Refusal :=
  native c (.exit c) s fun s t => .stop (s.exitThread t)

/-- A thread stands at its clause's last slot. -/
def State.slotLast (s : State) (t : TRef) : Bool := s.gang.hdr.cnt ≤ (s.thread t).slot.toNat

/-- R109: the checks in order and the token for one gathered set. -/
def State.openToken (disp : BitVec 28) (s0 : State) (ms : List TRef) : State :=
  match ms with
  | [] => s0
  | t0 :: _ =>
    let s := s0
    let s := ms.foldl (fun s t => s.updThread t fun x => { x with park := .no }) s
    let x := s.thread t0
    let tgt := immTarget x.pc disp
    let trapAll := fun (k : Nat) (va : W64) => ms.foldl (fun s t => s.trapTarget t k va) s
    let after := if x.slot.toNat < s.gang.hdr.cnt then none
      else match s.target t0 (fallAddr x.pc s.gang.hdr.cnt) with
        | .bad k => some k
        | .wait | .header _ _ => none
    if (s.target t0 tgt).isWait || (s.slotLast t0 && (s.target t0 (fallAddr x.pc s.gang.hdr.cnt)).isWait) then s0 else
    match s.target t0 tgt with
    | .wait => s0
    | .bad k => trapAll k tgt
    | .header w s1 =>
      if (headerOf w).kind != 1 then trapAll causeTarget tgt
      else
        let deep := ms.filter fun t => (s.thread t).depth == 15
        if !deep.isEmpty then deep.foldl (fun s t => s.trap t causeToken 0 false 0) (s1.holdAll ms)
        else
          let par := if x.depth = 0 then none else some x.innermost
          let W := s.waveOf t0
          let found := (List.range 16).find? fun i => (W.token i).valid && (W.token i).rejoin == tgt && (W.token i).parent == par
          let free := (List.range 16).find? fun i => !(W.token i).valid
          match found.orElse fun _ => free, after with
          | none, _ => ms.foldl (fun s t => s.trap t causeToken 0 false 0) s
          | some _, some k => trapAll k (fallAddr x.pc s.gang.hdr.cnt)
          | some e, none =>
            let m := ms.foldl (fun m t => m ||| laneBit (s.thread t).lane) (0 : W32)
            let old := W.token e
            let tok : Token := if found.isSome then { old with expected := old.expected ||| m } else ⟨true, tgt, par, m, 0⟩
            let s2 := match t0.group with
              | some g => s1.updWave g x.wave fun w => { w with tokens := w.tokens.set e tok }
              | none => s1
            ms.foldl (fun s t =>
              let s := s.updThread t fun x => { x with depth := x.depth + 1, innermost := e }
              s.settleLane t (.next s)) s2

def execTokOpen (c : Ctl) (disp : BitVec 28) (s : State) : Host.Outcome State Fault Refusal :=
  nativeAll c (.tokOpen c disp) s fun s ms => s.openToken disp ms

/-- R122: a thread that lacks the depth keeps its whole part at the instruction. -/
def State.leavePart (c : Ctl) (n : Nat) (s : State) (part : List TRef) : State :=
  match part.find? fun t => s.guard t c && (s.thread t).depth < n with
  | some t => (s.holdAll part).trap t causeToken 0 false 0
  | none => part.foldl (fun s t =>
      let s' := if s.guard t c then State.leaveTokens n s t else s
      s.settleLane t (.next s')) s

def execTokLeave (c : Ctl) (n : BitVec 4) (s : State) : Host.Outcome State Fault Refusal :=
  nativeAll c (.tokLeave c n) s fun s ms => (gangParts ms).foldl (fun s p => State.leavePart c n.toNat s p) s

/-- R123. -/
def State.startRepeat (a : Operand) (disp : BitVec 28) (s : State) (t : TRef) : Lane :=
  let n := s.src32 t a
  let x := s.thread t
  let tgt := immTarget x.pc disp
  if n = 0 then .next s
  else match s.target t tgt with
    | .wait => .stay s
    | .bad k => .trap (s.refuseFetch t tgt) k tgt false
    | .header w s1 =>
      if (headerOf w).kind != 3 then .trap s causeTarget tgt false
      else
        let last := x.slot.toNat == s.gang.hdr.cnt
        let r : Rep := { remaining := n, body := tgt, iteration := 0,
                         retPc := if last then fallAddr x.pc s.gang.hdr.cnt else x.pc,
                         retSlot := if last then 0 else x.slot + 1 }
        .goto (s1.updThread t fun x => { x with rep := some r }) tgt

def execRpt (c : Ctl) (a : Operand) (disp : BitVec 28) (s : State) : Host.Outcome State Fault Refusal :=
  native c (.rpt c a disp) s fun s t => s.startRepeat a disp t

def execYield (c : Ctl) (s : State) : Host.Outcome State Fault Refusal :=
  native c (.yield c) s fun s t => .next (s.updThread t fun x => { x with yieldAt := s.clk + 1 })

def execBrk (c : Ctl) (s : State) : Host.Outcome State Fault Refusal :=
  native c (.brk c) s fun s _ => .trap s causeBreakpoint 0 false

def execTrap (c : Ctl) (code : BitVec 16) (s : State) : Host.Outcome State Fault Refusal :=
  native c (.trap c code) s fun s _ => .trapNext s causeSoftware code

/-! Predicates (R125 to R128). -/

def execSetp (c : Ctl) (ty : Ty) (cmp : Cmp) (mrg : Merge) (d a b e : Operand) (s : State) : Host.Outcome State Fault Refusal :=
  fixedAlu c 4 (.setp c ty cmp mrg d a b e) s
def execFsetp (c : Ctl) (ty : Ty) (cmp : Cmp) (mrg : Merge) (d a b e : Operand) (s : State) : Host.Outcome State Fault Refusal :=
  fixedAlu c 4 (.fsetp c ty cmp mrg d a b e) s
def execPbool (c : Ctl) (op : PBool) (d a b : Operand) (s : State) : Host.Outcome State Fault Refusal :=
  fixedAlu c 4 (.pbool c op d a b) s
def execPmovSave (c : Ctl) (d : Operand) (s : State) : Host.Outcome State Fault Refusal := fixedAlu c 4 (.pmovSave c d) s
def execPmovLoad (c : Ctl) (a : Operand) (mask : BitVec 7) (s : State) : Host.Outcome State Fault Refusal :=
  fixedAlu c 4 (.pmovLoad c a mask) s

/-! Special registers (R129, R130). -/

/-- The value `getsr` writes: the whole register, or one of its words. -/
def State.srWord (s : State) (t : TRef) (ty : Ty) (w : BitVec 2) (sr : BitVec 9) : W64 :=
  let x := s.sreg t sr.toNat
  if ty == .b64 then x.extractLsb' 0 64 else (x.extractLsb' (32 * w.toNat) 32).zeroExtend 64

def execGetsr (c : Ctl) (ty : Ty) (w : BitVec 2) (d : Operand) (sr : BitVec 9) (s : State) : Host.Outcome State Fault Refusal :=
  native c (.getsr c ty w d sr) s fun s t =>
    if s.destLocked t d (tyRegs ty) then .stay s else .next (s.laterAll t 4 (wrTy ty d (s.srWord t ty w sr)))

/-- One 32-bit word of a wider value replaced. -/
def setWord (n : Nat) (x : BitVec n) (w : Nat) (y : W32) : BitVec n :=
  (x &&& ~~~((0xFFFFFFFF : BitVec n) <<< (32 * w))) ||| (y.zeroExtend n <<< (32 * w))

/-- The value `setsr` gives a 64-bit register. -/
def srPut (old : W64) (ty : Ty) (w : BitVec 2) (y : W64) : W64 :=
  if ty == .b64 then y else setWord 64 old w.toNat (y.extractLsb' 0 32)

/-- A breakpoint register with what has been written to it in this cycle: %bpaddrN by N, %bpctlN by N + 4. -/
def Core.bpNow (k : Core) (n : Nat) : W64 :=
  match k.bpSet.find? fun x => x.1 == n with
  | some x => x.2
  | none => if n < 4 then k.bpaddr.getD n 0 else (k.bpctl.getD (n - 4) 0).zeroExtend 64

/-- A write to a breakpoint register, for the instructions of the core from the next cycle. -/
def Core.bpPut (k : Core) (n : Nat) (y : W64) : Core := { k with bpSet := (n, y) :: k.bpSet.filter fun x => x.1 != n }

/-- The breakpoint registers at the turn of a cycle. -/
def Core.bpEnd (k : Core) : Core :=
  if k.bpSet.isEmpty then k
  else { k with bpaddr := (List.range 4).map fun n => k.bpNow n
                bpctl := (List.range 4).map fun n => (k.bpNow (n + 4)).extractLsb' 0 32
                bpSet := [] }

/-- R130, R49: the writable registers; the bits R49 calls zero stay zero.  DEDUCED, log entry 17. -/
def State.setSr (s : State) (t : TRef) (ty : Ty) (w : BitVec 2) (sr : Nat) (y : W64) : State :=
  let core := (s.ctx t).core
  match sr with
  | 0x031 => s.updThread t fun x => { x with sp := srPut x.sp ty w y }
  | 0x028 | 0x029 | 0x02A | 0x02B => s.updThread t fun x =>
      { x with routes := x.routes.set (sr - 0x28) (setWord 128 (x.routes.getD (sr - 0x28) 0) w.toNat (y.extractLsb' 0 32)) }
  | 0x100 | 0x101 | 0x102 | 0x103 => s.updCore core fun k =>
      k.bpPut (sr - 0x100) (srPut (k.bpNow (sr - 0x100)) ty w y &&& 0x1FFFFFFFFFFFFF0)
  | 0x104 | 0x105 | 0x106 | 0x107 => s.updCore core fun k =>
      k.bpPut (sr - 0x100) (y &&& 0x3FFFFF)
  | _ => s

def execSetsr (c : Ctl) (ty : Ty) (w : BitVec 2) (sr : BitVec 9) (a : Operand) (s : State) : Host.Outcome State Fault Refusal :=
  native c (.setsr c ty w sr a) s fun s t => .next (s.setSr t ty w sr.toNat (s.src t ty a))

end Sys2Proof.Machine
end

