-- ==== Sys2Proof/Machine/Vector.lean ====
section
/-! DEFINITION. The vector unit: opcodes 0x080 to 0x114 over Machine/Alu.lean, and the quad and wave
instructions of 0x180 to 0x188 (R134 to R166). -/

set_option linter.unusedVariables false

namespace Sys2Proof.Machine

/-- `mov` and `movi` (R138): with `.one` the uniform-write trap stands before the effect (R35). -/
def moveOne (c : Ctl) (one : Bool) (i : Instr) (s0 : State) : Host.Outcome State Fault Refusal :=
  native c i s0 fun s t =>
    if one && s0.oneCrowd t c then .trap s causeUniformWrite 0 false
    else match aluWrites (s.src t) i with
      | some ws =>
        if ws.any fun w => s.wrLocked t w then .stay s
        else .next (s.laterAll t 4 ws)
      | none => .next s

/-- A special function (R154): the value is fixed at issue and lands under the flag (R43). -/
def specialFn (c : Ctl) (i : Instr) (s : State) : Host.Outcome State Fault Refusal :=
  native c i s fun s t =>
    match aluWrites (s.src t) i with
    | some ws =>
      if s.flagFull t c || ws.any fun w => s.wrLocked t w then .stay s
      else .next (s.result t c ws)
    | none => .next s

def execMov (c : Ctl) (ty : Ty) (one : Bool) (d a : Operand) (s : State) : Host.Outcome State Fault Refusal :=
  moveOne c one (.mov c ty one d a) s
def execMovi (c : Ctl) (ty : Ty) (one : Bool) (d : Operand) (x : BitVec 32) (s : State) : Host.Outcome State Fault Refusal :=
  moveOne c one (.movi c ty one d x) s
def execAdd (c : Ctl) (ty : Ty) (sat : Bool) (d a b : Operand) (s : State) : Host.Outcome State Fault Refusal :=
  fixedAlu c 4 (.add c ty sat d a b) s
def execSub (c : Ctl) (ty : Ty) (sat : Bool) (d a b : Operand) (s : State) : Host.Outcome State Fault Refusal :=
  fixedAlu c 4 (.sub c ty sat d a b) s
def execMul (c : Ctl) (ty : Ty) (sat : Bool) (d a b : Operand) (s : State) : Host.Outcome State Fault Refusal :=
  fixedAlu c 6 (.mul c ty sat d a b) s
def execMulhi (c : Ctl) (ty : Ty) (d a b : Operand) (s : State) : Host.Outcome State Fault Refusal :=
  fixedAlu c 6 (.mulhi c ty d a b) s
def execMad (c : Ctl) (ty : Ty) (sat : Bool) (d a b e : Operand) (s : State) : Host.Outcome State Fault Refusal :=
  fixedAlu c 6 (.mad c ty sat d a b e) s
def execAddc (c : Ctl) (ci co : BitVec 3) (d a b : Operand) (s : State) : Host.Outcome State Fault Refusal :=
  fixedAlu c 4 (.addc c ci co d a b) s
def execSubb (c : Ctl) (ci co : BitVec 3) (d a b : Operand) (s : State) : Host.Outcome State Fault Refusal :=
  fixedAlu c 4 (.subb c ci co d a b) s
def execAbs (c : Ctl) (ty : Ty) (sat : Bool) (d a : Operand) (s : State) : Host.Outcome State Fault Refusal :=
  fixedAlu c 4 (.abs c ty sat d a) s
def execMin (c : Ctl) (ty : Ty) (d a b : Operand) (s : State) : Host.Outcome State Fault Refusal :=
  fixedAlu c 4 (.min c ty d a b) s
def execMax (c : Ctl) (ty : Ty) (d a b : Operand) (s : State) : Host.Outcome State Fault Refusal :=
  fixedAlu c 4 (.max c ty d a b) s
def execAnd (c : Ctl) (ty : Ty) (d a b : Operand) (s : State) : Host.Outcome State Fault Refusal :=
  fixedAlu c 4 (.and c ty d a b) s
def execOr (c : Ctl) (ty : Ty) (d a b : Operand) (s : State) : Host.Outcome State Fault Refusal :=
  fixedAlu c 4 (.or c ty d a b) s
def execXor (c : Ctl) (ty : Ty) (d a b : Operand) (s : State) : Host.Outcome State Fault Refusal :=
  fixedAlu c 4 (.xor c ty d a b) s
def execNot (c : Ctl) (ty : Ty) (d a : Operand) (s : State) : Host.Outcome State Fault Refusal :=
  fixedAlu c 4 (.not c ty d a) s
def execShl (c : Ctl) (ty : Ty) (d a b : Operand) (s : State) : Host.Outcome State Fault Refusal :=
  fixedAlu c 4 (.shl c ty d a b) s
def execShr (c : Ctl) (ty : Ty) (d a b : Operand) (s : State) : Host.Outcome State Fault Refusal :=
  fixedAlu c 4 (.shr c ty d a b) s
def execSra (c : Ctl) (ty : Ty) (d a b : Operand) (s : State) : Host.Outcome State Fault Refusal :=
  fixedAlu c 4 (.sra c ty d a b) s
def execRot (c : Ctl) (ty : Ty) (d a b : Operand) (s : State) : Host.Outcome State Fault Refusal :=
  fixedAlu c 4 (.rot c ty d a b) s
def execBfe (c : Ctl) (ty : Ty) (d a b : Operand) (s : State) : Host.Outcome State Fault Refusal :=
  fixedAlu c 4 (.bfe c ty d a b) s
def execBfi (c : Ctl) (d a b e : Operand) (s : State) : Host.Outcome State Fault Refusal :=
  fixedAlu c 4 (.bfi c d a b e) s
def execPopc (c : Ctl) (ty : Ty) (d a : Operand) (s : State) : Host.Outcome State Fault Refusal :=
  fixedAlu c 4 (.popc c ty d a) s
def execClz (c : Ctl) (ty : Ty) (d a : Operand) (s : State) : Host.Outcome State Fault Refusal :=
  fixedAlu c 4 (.clz c ty d a) s
def execBrev (c : Ctl) (ty : Ty) (d a : Operand) (s : State) : Host.Outcome State Fault Refusal :=
  fixedAlu c 4 (.brev c ty d a) s
def execPrmt (c : Ctl) (d a b e : Operand) (s : State) : Host.Outcome State Fault Refusal :=
  fixedAlu c 4 (.prmt c d a b e) s
def execSel (c : Ctl) (ty : Ty) (d a b e : Operand) (s : State) : Host.Outcome State Fault Refusal :=
  fixedAlu c 4 (.sel c ty d a b e) s
def execLea (c : Ctl) (ty : Ty) (sh : BitVec 2) (d a b : Operand) (s : State) : Host.Outcome State Fault Refusal :=
  fixedAlu c 4 (.lea c ty sh d a b) s
def execDp4 (c : Ctl) (ty : Ty) (sat xb : Bool) (d a b e : Operand) (s : State) : Host.Outcome State Fault Refusal :=
  fixedAlu c 6 (.dp4 c ty sat xb d a b e) s
def execMix32 (c : Ctl) (d a b : Operand) (s : State) : Host.Outcome State Fault Refusal :=
  fixedAlu c 8 (.mix32 c d a b) s
def execFadd (c : Ctl) (ty : Ty) (rnd : Rnd) (d a b : Operand) (s : State) : Host.Outcome State Fault Refusal :=
  fixedAlu c 6 (.fadd c ty rnd d a b) s
def execFsub (c : Ctl) (ty : Ty) (rnd : Rnd) (d a b : Operand) (s : State) : Host.Outcome State Fault Refusal :=
  fixedAlu c 6 (.fsub c ty rnd d a b) s
def execFmul (c : Ctl) (ty : Ty) (rnd : Rnd) (d a b : Operand) (s : State) : Host.Outcome State Fault Refusal :=
  fixedAlu c 6 (.fmul c ty rnd d a b) s
def execFfma (c : Ctl) (ty : Ty) (rnd : Rnd) (d a b e : Operand) (s : State) : Host.Outcome State Fault Refusal :=
  fixedAlu c 6 (.ffma c ty rnd d a b e) s
def execFmin (c : Ctl) (ty : Ty) (d a b : Operand) (s : State) : Host.Outcome State Fault Refusal :=
  fixedAlu c 6 (.fmin c ty d a b) s
def execFmax (c : Ctl) (ty : Ty) (d a b : Operand) (s : State) : Host.Outcome State Fault Refusal :=
  fixedAlu c 6 (.fmax c ty d a b) s
def execFclamp (c : Ctl) (ty : Ty) (d a b e : Operand) (s : State) : Host.Outcome State Fault Refusal :=
  fixedAlu c 6 (.fclamp c ty d a b e) s
def execFrnd (c : Ctl) (ty : Ty) (rnd : Rnd) (d a : Operand) (s : State) : Host.Outcome State Fault Refusal :=
  fixedAlu c 6 (.frnd c ty rnd d a) s
def execFclass (c : Ctl) (ty : Ty) (d a : Operand) (s : State) : Host.Outcome State Fault Refusal :=
  fixedAlu c 6 (.fclass c ty d a) s
def execLg2 (c : Ctl) (d a : Operand) (s : State) : Host.Outcome State Fault Refusal :=
  specialFn c (.lg2 c d a) s
def execEx2 (c : Ctl) (d a : Operand) (s : State) : Host.Outcome State Fault Refusal :=
  specialFn c (.ex2 c d a) s
def execRcp (c : Ctl) (d a : Operand) (s : State) : Host.Outcome State Fault Refusal :=
  specialFn c (.rcp c d a) s
def execRsq (c : Ctl) (d a : Operand) (s : State) : Host.Outcome State Fault Refusal :=
  specialFn c (.rsq c d a) s
def execSqrt (c : Ctl) (d a : Operand) (s : State) : Host.Outcome State Fault Refusal :=
  specialFn c (.sqrt c d a) s
def execHadd2 (c : Ctl) (d a b : Operand) (s : State) : Host.Outcome State Fault Refusal :=
  fixedAlu c 6 (.hadd2 c d a b) s
def execHmul2 (c : Ctl) (d a b : Operand) (s : State) : Host.Outcome State Fault Refusal :=
  fixedAlu c 6 (.hmul2 c d a b) s
def execHfma2 (c : Ctl) (d a b e : Operand) (s : State) : Host.Outcome State Fault Refusal :=
  fixedAlu c 6 (.hfma2 c d a b e) s
def execHmax2 (c : Ctl) (d a b : Operand) (s : State) : Host.Outcome State Fault Refusal :=
  fixedAlu c 6 (.hmax2 c d a b) s
def execCvt (c : Ctl) (dty : Ty) (rnd : Rnd) (sat : Bool) (sty : BitVec 4) (f19 : Bool) (d a b : Operand) (s : State) : Host.Outcome State Fault Refusal :=
  native c (.cvt c dty rnd sat sty f19 d a b) s fun s t =>
    match aluWrites (s.src t) (.cvt c dty rnd sat sty f19 d a b) with
    | some ws =>
      if ws.any fun w => s.wrLocked t w then .stay s
      else .next (ws.foldl (fun s w => s.later t (match w with | .p _ _ => 4 | _ => 6) w) s)
    | none => .next s
def execPack (c : Ctl) (rnd : Rnd) (sat : Bool) (fmt : BitVec 4) (hi : Bool) (d a b e : Operand) (s : State) : Host.Outcome State Fault Refusal :=
  fixedAlu c 6 (.pack c rnd sat fmt hi d a b e) s
def execUnpk (c : Ctl) (ty : Ty) (fmt : BitVec 4) (el : BitVec 3) (d a : Operand) (s : State) : Host.Outcome State Fault Refusal :=
  fixedAlu c 6 (.unpk c ty fmt el d a) s

/-! Quads (R107, R160). -/

/-- A source as read for the thread at a quad position: a helper lane reads any thread of the quad, and a
position without a thread reads zero (R107). -/
def State.quadSrc (s : State) (t : TRef) (ty : Ty) (a : Operand) (pos : Nat) : W64 :=
  let x := s.thread t
  match s.groupOf t with
  | none => 0
  | some G =>
    match G.threads.find? fun y => y.wave == x.wave && y.lane == x.lane / 4 * 4 + pos with
    | some y => s.src (.thr G.id y.tid) ty a
    | none => 0

/-- All threads of a quad instruction read before any writes. -/
def quadOp (c : Ctl) (i : Instr) (ty : Ty) (d a : Operand) (pos : Nat → Nat) (s0 : State) : Host.Outcome State Fault Refusal :=
  native c i s0 fun s t =>
    if s.destLocked t d (tyRegs ty) then .stay s
    else .next (s.laterAll t 6 (wrTy ty d (s0.quadSrc t ty a (pos ((s0.thread t).lane % 4)))))

def execQswap (c : Ctl) (ty : Ty) (pat : BitVec 2) (d a : Operand) (s : State) : Host.Outcome State Fault Refusal :=
  quadOp c (.qswap c ty pat d a) ty d a (fun q => Nat.xor q (pat.toNat + 1)) s

def execQbcast (c : Ctl) (ty : Ty) (pos : BitVec 2) (d a : Operand) (s : State) : Host.Outcome State Fault Refusal :=
  quadOp c (.qbcast c ty pos d a) ty d a (fun _ => pos.toNat) s

/-! Wave collectives (R161 to R165). -/

/-- The lanes a mask may name (R115). -/
def State.laneMask (s : State) (t : TRef) : W32 := if s.narrow t then 0xFFFF else 0xFFFFFFFF

/-- A member mask as a thread reads it. -/
def State.memberMask (s : State) (t : TRef) (o : Operand) : W32 := s.src32 t o &&& s.laneMask t

/-- The mask a member parked with (R106, R161). -/
def State.parkMask (s : State) (t : TRef) (o : Operand) : W32 :=
  match (s.thread t).park with
  | .gathered m => m
  | _ => s.memberMask t o

/-- One collective (R161): it is not ready while a member's flag is full, a destination read-locked (R166) or a member's next
header still to be fetched; a thread whose mask lacks its own lane takes the uniformity trap; the members read their sources
in the issue cycle; `out` gives each member's writes from the lanes and sources of all. -/
def collective (c : Ctl) (i : Instr) (mask : Operand) (d : Operand) (n : Nat)
    (out : State → List TRef → TRef → List Wr) (s0 : State) : Host.Outcome State Fault Refusal :=
  nativeAll c i s0 fun s ms =>
    if ms.any fun t => s.flagFull t c || s.destLocked t d n || (s.advance t).isWait then s
    else
    let odd := ms.filter fun t => !(s.parkMask t mask).getLsbD (s.thread t).lane
    let ok := ms.filter fun t => (s.parkMask t mask).getLsbD (s.thread t).lane
    let s1 := odd.foldl (fun s t => s.trap t causeUniformity 0 false 0) s
    ok.foldl (fun s' t =>
      let s' := s'.updThread t fun x => { x with park := .no }
      s'.settleLane t (.next (s'.result t c (out s ok t)))) s1

def State.laneOf (s : State) (t : TRef) : Nat := (s.thread t).lane

/-- Source lane of `shfl` (R162), none when it leaves the segment. -/
def shflLane (mode : ShflMode) (S l : Nat) (k : Int) : Option Nat :=
  let base := l - l % S
  let j := l - base
  let src : Int :=
    match mode with
    | .abs => base + k % S
    | .shift => (l : Int) - k
    | .rot => base + ((j : Int) - k) % S
    | .flip => base + Nat.xor j (k % S).toNat
  if (base : Int) ≤ src && src < base + S then some src.toNat else none

/-- Segment length (R162, R115). -/
def shflSeg (g : Nat) (narrow : Bool) : Nat := 2 ^ (if narrow then Nat.min g 4 else g)

def execShfl (c : Ctl) (ty : Ty) (mode : ShflMode) (seg : BitVec 3) (koff : BitVec 6) (d a b e : Operand) (s : State) :
    Host.Outcome State Fault Refusal :=
  collective c (.shfl c ty mode seg koff d a b e) b d (tyRegs ty) (fun s ms t =>
    let k : Int := if e == .none then koff.toInt else (s.src32 t e).toInt
    let own := s.src t ty a
    let x := match shflLane mode (shflSeg seg.toNat (s.narrow t)) (s.laneOf t) k with
      | none => own
      | some l => match ms.find? fun u => s.laneOf u == l with
        | some u => s.src u ty a
        | none => own
    wrTy ty d x) s

/-- The lanes of the members for which a predicate holds, as a mask. -/
def State.ballot (s : State) (ms : List TRef) (p : TRef → Bool) : W32 :=
  ms.foldl (fun m t => if p t then m ||| laneBit (s.laneOf t) else m) 0

def execVote (c : Ctl) (mode : VoteMode) (d a b : Operand) (s : State) : Host.Outcome State Fault Refusal :=
  collective c (.vote c mode d a b) b d 1 (fun s ms t =>
    let v := fun (u : TRef) => s.src32 u a != 0
    match mode with
    | .all => wrP d (ms.all v)
    | .any => wrP d (ms.any v)
    | .eq => wrP d (ms.all v || ms.all fun u => !v u)
    | .ballot => wrReg d (s.ballot ms v)) s

def execMatchv (c : Ctl) (ty : Ty) (d a b : Operand) (s : State) : Host.Outcome State Fault Refusal :=
  collective c (.matchv c ty d a b) b d 1 (fun s ms t => wrReg d (s.ballot ms fun u => s.src u ty a == s.src t ty a)) s

/-- One step of a reduction (R164). -/
def redStep (ty : Ty) (rnd : Rnd) (op : RedOp) (x y : W32) : W32 :=
  if ty == .f32 then
    match op with
    | .add => ofF .f32 rnd false (FVal.add rnd (f32Of x) (f32Of y))
    | .min => ofF .f32 .rne false (FVal.min (f32Of x) (f32Of y))
    | _ => ofF .f32 .rne false (FVal.max (f32Of x) (f32Of y))
  else
    let ix := intAt ty (x.zeroExtend 64)
    let iy := intAt ty (y.zeroExtend 64)
    match op with
    | .add => x + y
    | .min => if ix ≤ iy then x else y
    | .max => if ix ≤ iy then y else x
    | .and => x &&& y
    | .or => x ||| y
    | .xor => x ^^^ y

/-- The identity of an operation (R164). -/
def redIdentity (ty : Ty) (op : RedOp) : W32 :=
  match op with
  | .add => if ty == .f32 then 0x80000000 else 0
  | .min => if ty == .f32 then 0x7F800000 else BitVec.ofInt 32 (tyMax ty)
  | .max => if ty == .f32 then 0xFF800000 else BitVec.ofInt 32 (tyMin ty)
  | .and => 0xFFFFFFFF
  | .or | .xor => 0

/-- A left fold in ascending lane order; a NaN that no other value follows is canonical as well (R62). -/
def redFold (ty : Ty) (rnd : Rnd) (op : RedOp) : List W32 → W32
  | [] => redIdentity ty op
  | x :: xs => xs.foldl (redStep ty rnd op) (if ty == .f32 && (f32Of x).isNan then 0x7FC00000 else x)

def execWred (c : Ctl) (ty : Ty) (rnd : Rnd) (op : RedOp) (d a b : Operand) (s : State) : Host.Outcome State Fault Refusal :=
  collective c (.wred c ty rnd op d a b) b d 1 (fun s ms t =>
    wrReg d (redFold ty rnd op (ms.map fun u => s.src32 u a))) s

/-- Whether one pair of `wmaxi` beats another of a higher lane (R165). -/
def wmaxiBeats (ty : Ty) (p q : W32 × W32) : Bool :=
  if ty == .f32 then
    let a := f32Of p.1
    let b := f32Of q.1
    if a.isNan && b.isNan then q.2.ult p.2 == false
    else if a.isNan then false
    else if b.isNan then true
    else if b.ltz a then true
    else if a.ltz b then false
    else q.2.ult p.2 == false
  else
    let a := intAt ty (p.1.zeroExtend 64)
    let b := intAt ty (q.1.zeroExtend 64)
    if b < a then true else if a < b then false else q.2.ult p.2 == false

def wmaxiFold (ty : Ty) : List (W32 × W32) → W32 × W32
  | [] => (0, 0)
  | p :: ps => ps.foldl (fun p q => if wmaxiBeats ty p q then p else q) p

def execWmaxi (c : Ctl) (ty : Ty) (d a b e : Operand) (s : State) : Host.Outcome State Fault Refusal :=
  collective c (.wmaxi c ty d a b e) e d 2 (fun s ms t =>
    let w := wmaxiFold ty (ms.map fun u => (s.src32 u a, s.src32 u b))
    let v := if ty == .f32 && (f32Of w.1).isNan then 0x7FC00000 else w.1
    wrTy .b64 d (w.2 ++ v)) s

def execWscan (c : Ctl) (ty : Ty) (rnd : Rnd) (op : RedOp) (excl : Bool) (d a b : Operand) (s : State) :
    Host.Outcome State Fault Refusal :=
  collective c (.wscan c ty rnd op excl d a b) b d 1 (fun s ms t =>
    let upTo := ms.filter fun u => if excl then s.laneOf u < s.laneOf t else s.laneOf u ≤ s.laneOf t
    wrReg d (redFold ty rnd op (upTo.map fun u => s.src32 u a))) s

def execElect (c : Ctl) (d a : Operand) (s : State) : Host.Outcome State Fault Refusal :=
  collective c (.elect c d a) a d 1 (fun s ms t => wrP d (ms.all fun u => s.laneOf t ≤ s.laneOf u)) s

end Sys2Proof.Machine
end

