-- ==== Sys2Proof/Machine/Access.lean ====
section
/-! DEFINITION. How loads read and stores enter the queue (R78 to R83, R172, R173): words, forwarding, the L1,
pending loads and their order against a thread's own stores, and the landing of their results. -/

set_option linter.unusedVariables false

namespace Sys2Proof.Machine

/-- The aligned 4-byte words a physical range touches, each with the part of it that is touched (R78). -/
def wordsOf (pa len : Nat) : List (Nat × Nat) :=
  if len = 0 then []
  else (List.range ((pa % 4 + len + 3) / 4)).map fun i =>
    let lo := if i = 0 then pa else (pa / 4 + i) * 4
    let hi := Nat.min (pa + len) ((pa / 4 + i + 1) * 4)
    (lo, hi - lo)

/-- Whether an access can be performed at its home now: rows not held (R300), no stub in the way (R329), the
host translation at hand (R448). -/
def State.memReady (s : State) (pa len : Nat) (bypass : Bool) : Bool :=
  if paHome pa == 8 then s.boot.ats.contains (pa / 2 ^ 12)
  else (s.stubAt pa).isNone && s.readRowsOk pa len bypass

/-- A clean copy of every HBM sector read is brought into the L2 where its slice has room, and none under the bypass
policy (R8, R299, R319). -/
def State.fillL2 (s : State) (pa len : Nat) (bypass : Bool) : State :=
  if paHome pa < 4 && !bypass then
    (sectorsOf pa len).foldl (fun s b => match s.l2Room b with
      | some s' => { s' with mem := s'.mem.fill b (s.partitionOf b) }
      | none => s) s
  else s

/-- A clean L2 sector may have been evicted since it was brought in; only a copy that differs from the DRAM
can tell, and a held row is not read again (R299, R300, R303).  DESIGN CHOICE, log entry 26. -/
def State.evict (s : State) (pa len : Nat) : State :=
  (sectorsOf pa len).foldl (fun s b =>
    match s.mem.sector? b with
    | some x => if !x.dirty && x.data != s.mem.dramBytes b 32 && s.dramReadOk b && s.flip [0x400, b] then { s with mem := s.mem.writeback b false } else s
    | none => s) s

/-- Bytes laid over by a quantum-mode thread's own buffered stores (R91). -/
def quantumOver (x : Thread) (place : Place) (bytes : List Byte) : List Byte :=
  x.quantum.foldl (fun b q =>
    match q, place with
    | .store pa d _, .mem a => overlay a b pa d
    | .spad c o d, .spad c' a => if c == c' then overlay a b o d else b
    | _, _ => b) bytes

/-- The queued writes a thread's access reads: its own earlier ones, and those that what their releases order before them
lets become visible (R80, R81, R83). -/
def State.seenBy (s : State) (t : TRef) (op : Option Nat) (r : Reader_) (pa len : Nat) : List QWrite :=
  (s.mem.seen r pa len).filter fun e =>
    if e.issuer == some t then (match op with | some o => e.id < o | none => true) else s.ripe e

/-- Bytes past the L1 under the queued writes that reach a thread's access. -/
def State.seenBytes (s : State) (t : TRef) (op : Option Nat) (r : Reader_) (pa len : Nat) : List Byte :=
  (s.seenBy t op r pa len).foldl (fun b e => overlay pa b e.pa e.data) (s.mem.visBytes pa len)

/-- Lines of a core's read-only L1: 128 KiB of 128 bytes (R10). -/
def l1Lines : Nat := 1024

/-- A line enters a core's L1, another leaving it where it is full (R10, R82). -/
def State.l1Put (s : State) (core line : Nat) (data : List Byte) : State :=
  let out := s.pick [0x407, line] ((s.coreAt core).l1.map (·.base))
  s.updCore core fun k =>
    let l := k.l1.filter fun x => x.base != line
    { k with l1 := ⟨line, data⟩ :: if l.length < l1Lines then l else l.filter fun x => some x.base != out }

/-- The bytes a load of a thread reads now, and the state after: forwarded or made visible writes over the L1
line, the L2 or the memory; the thread observes the queued writes it read, and the operation the threads whose writes
they are (R79 to R85). -/
def State.readMem (s : State) (t : TRef) (op : Option Nat) (r : Reader_) (l1 : Bool) (pa len : Nat) (bypass : Bool) :
    List Byte × State :=
  let s := s.evict pa len
  let s := (s.seenBy t op r pa len).foldl (fun s e => if e.issuer == some t then s
    else e.after.foldl (fun s a => State.force s.forceFuel (s.reachOf e.issuer a.2) s a.1) s) s
  let line := pa / 128 * 128
  let held := if l1 then (s.coreAt r.core).l1.find? fun x => x.base == line else none
  let use := held.isSome && s.flip [0x401, line]
  let now := s.seenBy t op r pa len
  let base := match held with
    | some x => if use then sliceB x.data (pa - line) len else s.mem.visBytes pa len
    | none => s.mem.visBytes pa len
  let bytes := quantumOver (s.thread t) (.mem pa) (now.foldl (fun b e => overlay pa b e.pa e.data) base)
  let ids := now.map (·.id)
  let s := match op with
    | some o => (s.observeBy o t ids).updOp o fun x =>
        { x with from_ := (x.from_ ++ now.filterMap (·.issuer) ++ s.mem.headsAt pa len).eraseDups }
    | none => s.observe t fun e => ids.contains e.id
  let s := if use then s else s.fillL2 pa len bypass
  let s := if l1 && !use && s.readRowsOk line 128 bypass then (s.fillL2 line 128 bypass).l1Put r.core line (s.seenBytes t op r line 128)
    else s
  (bytes, s)

/-- One part of a load performed: from memory or from a scratchpad. -/
def State.readPlace (s : State) (t : TRef) (op : Option Nat) (l1 : Bool) (p : Part) : List Byte × State :=
  match p.at_ with
  | .mem pa => s.readMem t op (s.readerOf t) l1 pa p.len p.bypass
  | .spad core off => (quantumOver (s.thread t) (.spad core off) (s.spadBytes core off p.len), match op with
      | some o => s.updOp o fun x => { x with from_ := (x.from_ ++ s.mem.headsAt (spadWindow core off) p.len).eraseDups }
      | none => s)
  | _ => (List.replicate p.len 0, s)

/-- A place a pending load of a thread can be read at now: its home answers, and no copy in flight is to write it (R185). -/
def State.placeReady (s : State) (t : TRef) (p : Part) : Bool :=
  match p.at_ with
  | .mem pa => s.memReady pa p.len p.bypass
  | .spad core off => !s.onBoard core off p.len
  | _ => true

/-- A party a scope of a thread covers (R76, R84). -/
def State.covers (s : State) (t : TRef) (sc : Scope) (u : TRef) : Bool :=
  if (s.thread? u).isNone then true
  else match sc with
    | .wave => u.group == t.group && (s.thread u).wave == (s.thread t).wave
    | .group => u.group == t.group
    | .cell => coreCluster (s.ctx t).core == coreCluster (s.ctx u).core
    | .die => coreDie (s.ctx t).core == coreDie (s.ctx u).core
    | .device | .system => true

/-- A part that a later write of the thread has been performed ahead of keeps the bytes of that time where what stands there
now comes from a party of the acquire's scope (R77).  DEDUCED, log entry 129. -/
def State.partKept (s : State) (op : Op) (p : Part) : Option (List Byte × List TRef) :=
  match p.was, p.at_ with
  | some w, .mem pa =>
    let scs := ((s.thread op.thr).acq.filter fun a => a.1 == op.id).map (·.2)
    if (s.mem.headsAt pa p.len).any fun u => !w.2.contains u && scs.any fun sc => s.covers op.thr sc u then some w else none
  | _, _ => none

/-- Part `i` of a pending load read, if it has not been and can be. -/
def State.readPart (s : State) (o : Nat) (i : Nat) : State :=
  match s.op? o with
  | some op =>
    match op.kind with
    | .load l1 parts fin extra =>
      match parts[i]? with
      | some p =>
        if p.got.isSome || !s.placeReady op.thr p then s
        else match s.partKept op p with
          | some w => s.updOp o fun x => { x with kind := .load l1 (parts.set i { p with got := some w.1 }) fin extra, from_ := (x.from_ ++ w.2).eraseDups }
          | none =>
            let r := s.readPlace op.thr (some o) l1 p
            r.2.updOp o fun x => { x with kind := .load l1 (parts.set i { p with got := some r.1 }) fin extra }
      | none => s
    | _ => s
  | none => s

/-- Every part of a pending load read that can be, in order. -/
def State.readAll (s : State) (o : Nat) : State :=
  match s.op? o with
  | some op =>
    match op.kind with
    | .load _ parts _ _ => (List.range parts.length).foldl (fun s i => s.readPart o i) s
    | _ => s
  | none => s

def partOverlaps (p : Part) (q : Place) (len : Nat) : Bool :=
  match p.at_, q with
  | .mem a, .mem b => sameWord a p.len b len
  | .spad c a, .spad d b => c == d && sameWord a p.len b len
  | _, _ => false

/-- A thread's loads of a place that are not performed for good: its own later store waits for them (R80, R201). -/
def State.pendingLoads (s : State) (t : TRef) (q : Place) (len : Nat) : List (Nat × Scope) :=
  (s.ops.filter fun o => o.thr == t && match o.kind with
    | .load _ parts _ _ => parts.any fun p => partOverlaps p q len && (p.got.isNone || s.opsOpen o.under)
    | _ => false).map fun o => (o.id, .wave)

/-- The thread's own earlier loads of a scratchpad place are performed before what follows them in program order (R80). -/
def State.settleLoads (s : State) (t : TRef) (q : Place) (len : Nat) : State :=
  (s.ops.filter fun o => o.thr == t).foldl (fun s o =>
    match o.kind with
    | .load _ parts _ _ =>
      (parts.zipIdx.filter fun p => partOverlaps p.1 q len).foldl (fun s p => s.readPart o.id p.2) s
    | _ => s) s

/-- An access of a thread that has not been performed (R83). -/
def State.unperformed (s : State) (t : TRef) : Bool :=
  s.ops.any fun o => o.thr == t && match o.kind with
    | .load _ ps _ _ => (ps.any fun p => p.got.isNone) || s.opsOpen o.under
    | .mwait _ _ _ _ _ hit | .cntw _ _ _ _ hit | .jwait _ _ _ hit | .bgwait _ _ _ hit => hit.isNone
    | k => k.atomicAt.isSome

/-- Every pending load of a thread performed now, where a release without a queued write needs it (R85). -/
def State.forceLoads (s : State) (t : TRef) : State :=
  (s.ops.filter fun o => o.thr == t).foldl (fun s o => s.readAll o.id) s

/-! Values of loads (R173). -/

/-- The registers of `count` elements read from bytes: narrow elements extended by their type, wider ones as words. -/
def loadWords (ty : Ty) (count : Nat) (bytes : List Byte) : List W32 :=
  if tyWidth ty < 32 then
    [(BitVec.ofInt 64 (intAt ty (BitVec.ofNat 64 (bytesToNat bytes)))).extractLsb' 0 32]
  else (List.range (count * tyWidth ty / 32)).map fun i => BitVec.ofNat 32 (natAt bytes (4 * i) 4)

/-- The writes of a finished load. -/
def finWrites (fin : Fin) (bytes : List Byte) : List Wr :=
  match fin with
  | .regs u first ty count =>
    (loadWords ty count bytes).zipIdx.map fun x => if u then Wr.k (first + x.2) x.1 else Wr.v (first + x.2) x.1
  | .elems first ty count =>
    (loadWords (if tyWide ty then .b64 else .b32) count bytes).zipIdx.map fun x => Wr.v (first + x.2) x.1
  | .none => []

/-- The elements of a gather that have been read whole, from the first (R180). -/
def leadDone (size : Nat) (parts : List Part) : Nat :=
  let n := (parts.takeWhile fun p => p.got.isSome).foldl (fun n p => n + p.len) 0
  n / size

/-- Parts of a range of memory or scratchpad. -/
def memParts (rs : List Range) : List Part :=
  (rs.map fun r => (wordsOf r.pa r.len).map fun w => (⟨.mem w.1, w.2, r.bypass, none, none⟩ : Part)).flatten
def spadParts (core off len : Nat) : List Part := (wordsOf off len).map fun w => ⟨.spad core w.1, w.2, false, none, none⟩

/-! Stores. -/

/-- What every write of a thread carries of its earlier releases (R83). -/
def State.carried (s : State) (t : TRef) : List (Nat × Scope) :=
  (s.thread t).rel.filter fun a => s.mem.wq.any fun e => e.id == a.1
def State.carriedOps (s : State) (t : TRef) : List (Nat × Scope) := (s.thread t).relOps.filter fun o => (s.op? o.1).isSome

/-- One word of a store enters the store queue of the core (R81), to be seen after the thread's own loads and atomics of
it (R80, R272). -/
def State.storeWord (s : State) (t : TRef) (rel : Option Scope) (pa : Nat) (data : List Byte) (bypass : Bool)
    (after afterOps : List (Nat × Scope)) : State :=
  let c := s.ctx t
  let s := (s.askAts pa).l1Drop c.core pa data.length
  s.enqueue ⟨0, .ls, c.core, pa, data, bypass, some t, [], after, afterOps ++ s.pendingAtomics t pa data.length ++ s.pendingLoads t (.mem pa) data.length, .own, 0,
    s.narrowAcqs t, none⟩

/-- A store of bytes over physical ranges, word by word (R78, R173); a release carries what stands before it. -/
def State.storeBytes (s : State) (t : TRef) (rel : Option Scope) (rs : List Range) (data : List Byte) : State :=
  let after := s.carried t ++ (match rel with | some sc => s.releaseSet t sc | none => [])
  let afterOps := s.carriedOps t ++ (match rel with | some sc => s.pendingWith t sc | none => [])
  let s := match rel with | some sc => if sc == .wave then s else s.releaseK t | none => s
  let ws := (rs.map fun r => (wordsOf r.pa r.len).map fun w => (w.1, w.2, r.bypass)).flatten
  (ws.foldl (fun (p : State × Nat) w =>
    (p.1.storeWord t rel w.1 (sliceB data p.2 w.2.1) w.2.2 after.eraseDups afterOps.eraseDups, p.2 + w.2.1)) (s, 0)).1

/-- The bytes a store takes from its data registers (R173). -/
def storeData (ty : Ty) (count : Nat) (ws : List W32) : List Byte :=
  ((ws.map bytes4).flatten).take (count * tyWidth ty / 8)

/-! Quantum buffers (R90, R91). -/

/-- Aligned 8-byte words a thread's share holds. -/
def quantumWords (x : Thread) : List (Bool × Nat × Nat) :=
  ((x.quantum.map fun q => match q with
    | .store pa d _ => (List.range ((pa % 8 + d.length + 7) / 8)).map fun i => (false, 0, pa / 8 + i)
    | .spad c o d => (List.range ((o % 8 + d.length + 7) / 8)).map fun i => (true, c, o / 8 + i)
    | .op _ _ _ => []).flatten).eraseDups

/-- Whether a store would overflow the thread's 64-word share (R90). -/
def quantumFull (x : Thread) (qs : List QItem) : Bool := 64 < (quantumWords { x with quantum := x.quantum ++ qs }).length

def State.buffer (s : State) (t : TRef) (q : QItem) : State := s.updThread t fun x => { x with quantum := x.quantum ++ [q] }

/-- An operation kept for the commit (R92): it is pending, and performed in its place of the thread's items. -/
def State.deferAt (s : State) (t : TRef) (at_ : Option (W64 × Nat)) : State :=
  match s.ops.getLast? with
  | some o => s.buffer t (.op o.id (s.thread t).slot at_)
  | none => s
def State.defer (s : State) (t : TRef) : State := s.deferAt t none

/-! The stack core's way to a line (R351). -/

/-- The sectors of every line that bytes lie in. -/
def lineSectors (pa len : Nat) : List Nat := sectorsOf (pa / 128 * 128) ((pa % 128 + len + 127) / 128 * 128)

/-- A stack core's access: the slice's copy of the line is written back and dropped first. -/
def State.scLine (s : State) (pa len : Nat) : State :=
  (lineSectors pa len).foldl (fun s b => s.writeback b false) s

def State.calleeExec (s : State) (t : TRef) : Nat :=
  match t with
  | .callee c => ((s.callee? c).map (·.exec)).getD 0
  | .thr _ _ => 32

/-- Whether a callee's access can be performed now: what a stack core drops from the slice can leave it, and the
rows answer (R300, R351). -/
def State.calleeReady (s : State) (t : TRef) (pa len : Nat) (write bypass : Bool) : Bool :=
  s.memReady pa len (s.calleeExec t < 32 || bypass) && s.settled pa len &&
    (if s.calleeExec t < 32 then ((lineSectors pa len).all fun b => s.writebackOk b) && (!write || (sectorsOf pa len).all fun b => s.coreWriteOk b)
     else !write || (s.writeRowsOk pa len bypass && (bypass || s.l2Fits pa len))) && (!write || s.pageOpen pa)

end Sys2Proof.Machine
end

