-- ==== Sys2Proof/Machine/LoadStore.lean ====
section
/-! DEFINITION. The load/store unit: opcodes 0x200 to 0x215 (R168 to R198, in quantum mode R200). -/

set_option linter.unusedVariables false

namespace Sys2Proof.Machine

/-- What holds any access of a thread: an acquire still open, a full core (R83, R103). -/
def State.accessHeld (s : State) (t : TRef) : Bool := s.acqOpen t || s.coreFull (s.ctx t).core

/-- What holds a long-latency load besides: a full flag (R39), a locked destination (R166). -/
def State.loadHeld (s : State) (t : TRef) (c : Ctl) (d : Operand) (n : Nat) : Bool :=
  s.accessHeld t || s.flagFull t c || s.destLocked t d n

/-- What holds a load that may run ahead of a narrow acquire (R77). -/
def State.ldHeld (s : State) (t : TRef) (c : Ctl) (d : Operand) (n : Nat) : Bool :=
  s.acqOpenLoad t || s.coreFull (s.ctx t).core || s.flagFull t c || s.destLocked t d n

/-- The thread waits at its instruction for an operation (R180). -/
def State.waitFor (s : State) (t : TRef) (o : Nat) : State := s.updThread t fun x => { x with wait := some o }

/-- Later accesses of the thread follow an operation as a scope's parties see it (R77, R83, an acquiring load). -/
def State.acqBy (s : State) (t : TRef) (o : Nat) (sc : Scope) : State := s.updThread t fun x => { x with acq := (o, sc) :: x.acq }

/-- A load begins: in quantum mode its value is that of the last commit and the thread's own buffer (R91), so
all its parts are read at once. -/
def State.beginLoad (s : State) (t : TRef) (c : Ctl) (l1 : Bool) (parts : List Part) (fin : Fin) (extra : List Wr)
    (acq : Option Scope) : State :=
  let id := s.nextId
  let under := s.narrowAcqs t
  let s := (s.begin_ t c (.load l1 parts fin extra) acq).updOp id fun o => { o with under := under }
  let s := match acq with | some sc => s.acqBy t id sc | none => s
  if (s.ctx t).quant then s.readAll id else s

/-- In quantum mode a load waits until all it reads answers, so that it reads the state of the last commit (R91, R94). -/
def State.quantHeld (s : State) (t : TRef) (parts : List Part) : Bool := (s.ctx t).quant && !parts.all fun p => s.placeReady t p

/-- A callee's access at its home: whether it can be performed now; a page that has moved to another device takes or gives
the bytes there (R329, R351). -/
def State.calleeOk (s : State) (t : TRef) (r : Range) (write : Bool) : Bool :=
  s.movedAway r.pa || s.calleeReady t (s.resolve r.pa) r.len write r.bypass

/-- The bytes a callee reads.  DEDUCED, log entry 76. -/
def State.calleeLoad (s : State) (t : TRef) (r : Range) : List Byte × State :=
  let s := s.redirectTo (s.ctx t).die r.pa
  if s.movedAway r.pa then ((List.range r.len).map fun i => Config.freeByte s.tick [0x311, r.pa + i], s)
  else
    let pa := s.resolve r.pa
    let s := s.settle pa r.len
    let s := if s.calleeExec t < 32 then s.scLine pa r.len else s
    (s.mem.read (s.readerOf t) pa r.len, s)

/-- `ld` (R173 to R175). -/
def State.doLd (s : State) (t : TRef) (c : Ctl) (ty : Ty) (acq : Bool) (scope : Scope) (fresh nf : Bool) (vec : BitVec 2)
    (d a b : Operand) (off : BitVec 12) : Lane :=
  let n := vecRegs ty vec
  if acq && s.loadHeld t c d n || s.ldHeld t c d n then .stay s
  else
    let va := s.addr t a off
    let len := vecCount vec * tyWidth ty / 8
    let x := s.ctx t
    match s.access t va len false nf [va.toNat] with
    | .wait => .stay s
    | .fault k f s => .trap s k f false
    | .nonres _ => .next (s.result t c ((List.range n).map (fun i => Wr.v (opNum d + i) 0) ++ wrP b true))
    | .ok rs s' =>
      if x.callee && !(rs.all fun r => s.calleeOk t r false) then .stay s
      else if x.callee then
        let got := rs.foldl (fun (y : List Byte × State) r =>
          let z := y.2.calleeLoad t r
          (y.1 ++ z.1, z.2)) ([], s')
        .next (got.2.result t c (finWrites (.regs false (opNum d) ty (vecCount vec)) got.1))
      else if s'.quantHeld t (memParts rs) then .stay s'
      else
        .next (s'.beginLoad t c (!acq && !fresh && !x.quant) (memParts rs) (.regs false (opNum d) ty (vecCount vec))
          (if nf then wrP b false else []) (if acq && !x.quant then some scope else none))

def execLd (c : Ctl) (ty : Ty) (acq : Bool) (scope : Scope) (fresh nf : Bool) (vec : BitVec 2) (d a b : Operand)
    (off : BitVec 12) (s : State) : Host.Outcome State Fault Refusal :=
  native c (.ld c ty acq scope fresh nf vec d a b off) s fun s t => s.doLd t c ty acq scope fresh nf vec d a b off

/-- A callee's store is performed at the home slice, or past it by a stack core (R351); a page that has moved to another
device takes it there.  DEDUCED, log entry 76. -/
def State.calleeStore (s : State) (t : TRef) (r : Range) (data : List Byte) : State :=
  let s := s.redirectTo (s.ctx t).die r.pa
  let pa := s.resolve r.pa
  if s.movedAway r.pa then s else
  let s := s.settle pa data.length
  if s.calleeExec t < 32 then (s.scLine pa data.length).perform pa data true else s.perform pa data r.bypass

/-- `st` (R173, R174). -/
def State.doSt (s : State) (t : TRef) (ty : Ty) (rel : Bool) (scope : Scope) (vec : BitVec 2) (a b : Operand)
    (off : BitVec 12) : Lane :=
  let n := vecRegs ty vec
  if s.acqOpenLoad t then .stay s
  else
    let va := s.addr t a off
    let len := vecCount vec * tyWidth ty / 8
    let data := storeData ty (vecCount vec) (s.dataWords t ty b n)
    let x := s.ctx t
    match s.access t va len true false [va.toNat] with
    | .wait => .stay s
    | .fault k f s => .trap s k f true
    | .nonres f => .trap s causePage f true
    | .ok rs s' =>
      if x.callee then
        if rs.all fun r => s.calleeOk t r true then
          .next ((rs.foldl (fun (p : State × Nat) r =>
            (p.1.calleeStore t r (sliceB data p.2 r.len), p.2 + r.len)) (s', 0)).1)
        else .stay s
      else if x.quant then
        let q := (rs.foldl (fun (p : List QItem × Nat) r => (p.1 ++ [QItem.store r.pa (sliceB data p.2 r.len) r.bypass], p.2 + r.len)) ([], 0)).1
        if quantumFull (s.thread t) q then .stay (s.updThread t fun x => { x with qended := true })
        else .next (q.foldl (fun s i => s.buffer t i) s')
      else .next (s'.storeBytes t (if rel then some scope else none) rs data)

def execSt (c : Ctl) (ty : Ty) (rel : Bool) (scope : Scope) (vec : BitVec 2) (a b : Operand) (off : BitVec 12) (s : State) :
    Host.Outcome State Fault Refusal :=
  native c (.st c ty rel scope vec a b off) s fun s t => s.doSt t ty rel scope vec a b off

/-- The scratchpad range of an operand, or the protection trap (R169, R170).  A write follows what the thread's releases
put before it (R83, R84), in the state given to `f`. -/
def State.withSpad (s : State) (t : TRef) (a : Operand) (off : BitVec 12) (align len : Nat) (write : Bool)
    (f : State → Group → Nat → Nat → Lane) : Lane :=
  let A := s.spadAddr t a off
  if A.toNat % align != 0 then .trap s causeProtection (A.zeroExtend 64) write
  else match s.spadPlace t A len with
    | none => .trap s causeProtection (A.zeroExtend 64) write
    | some (G, core, o) => if write && s.relHeld t then .stay s else f (if write then s.relFlush t else s) G core o

def execLds (c : Ctl) (ty : Ty) (vec : BitVec 2) (d a : Operand) (off : BitVec 12) (s : State) : Host.Outcome State Fault Refusal :=
  native c (.lds c ty vec d a off) s fun s t =>
    let len := vecCount vec * tyWidth ty / 8
    if s.loadHeld t c d (vecRegs ty vec) then .stay s
    else s.withSpad t a off 1 len false fun s _ core o =>
      if s.spadReadHeld t core o len then .stay s
      else .next (s.beginLoad t c false (spadParts core o len) (.regs false (opNum d) ty (vecCount vec)) [] none)

/-- Bytes written to a scratchpad in one step, after the thread's own loads of them (R80, R169), ahead of narrow acquires still
open (R77); the thread stands among those whose writes the words hold (R84). -/
def State.storeSpad (s : State) (t : TRef) (core off : Nat) (data : List Byte) (rmw : Bool) : State :=
  let s := ((s.settleLoads t (.spad core off) data.length).passAhead (s.narrowAcqs t)).setSpad core off data
  { s with mem := s.mem.headPut (spadWindow core off) data.length t rmw }

/-- What holds a scratchpad write: a wider acquire, or one of narrow scope that it cannot go ahead of (R77, R83). -/
def State.spadAcqHeld (s : State) (t : TRef) : Bool := s.acqOpenLoad t || !s.aheadOk (s.narrowAcqs t)

def execSts (c : Ctl) (ty : Ty) (vec : BitVec 2) (a b : Operand) (off : BitVec 12) (s : State) : Host.Outcome State Fault Refusal :=
  native c (.sts c ty vec a b off) s fun s t =>
    let len := vecCount vec * tyWidth ty / 8
    let data := storeData ty (vecCount vec) (s.dataWords t ty b (vecRegs ty vec))
    if s.spadAcqHeld t then .stay s
    else s.withSpad t a off 1 len true fun s _ core o =>
      if s.spadWriteHeld t core o len then .stay s
      else if (s.ctx t).quant then
        if quantumFull (s.thread t) [.spad core o data] then .stay (s.updThread t fun x => { x with qended := true })
        else .next (s.buffer t (.spad core o data))
      else .next (s.storeSpad t core o data false)

def execLdk (c : Ctl) (ty : Ty) (one sp : Bool) (vec : BitVec 2) (d a : Operand) (off : BitVec 12) (s0 : State) :
    Host.Outcome State Fault Refusal :=
  native c (.ldk c ty one sp vec d a off) s0 fun s t =>
    let len := vecCount vec * tyWidth ty / 8
    let fin := Fin.regs true (opNum d) ty (vecCount vec)
    if s0.oneCrowd t c then .trap s causeUniformWrite 0 false
    else if s.loadHeld t c d (vecRegs ty vec) then .stay s
    else if sp then
      s.withSpad t a off 1 len false fun s _ core o =>
        if s.spadReadHeld t core o len then .stay s
        else .next (s.beginLoad t c false (spadParts core o len) fin [] none)
    else
      let va := s.addr t a off
      match s.access t va len false false [va.toNat] with
      | .wait => .stay s
      | .fault k f s => .trap s k f false
      | .nonres f => .trap s causePage f false
      | .ok rs s' => if s'.quantHeld t (memParts rs) then .stay s' else .next (s'.beginLoad t c false (memParts rs) fin [] none)

/-! Gather and block loads (R178 to R180). -/

/-- What each element still to load comes to. -/
inductive Elem
  | ok (ps : List Part)
  | bad (cause : Nat) (addr : W64)
  | wait

/-- The elements from `%prog` on, up to the first that faults, with the translations they used; a cause of 0 where a walk
has to wait. -/
def State.elemScan (look : State → Nat → Elem × State) : Nat → Nat → State → List (List Part) → State × List (List Part) × Option (Nat × Nat × W64)
  | 0, _, s, acc => (s, acc, none)
  | n + 1, j, s, acc =>
    match look s j with
    | (.ok ps, s') => State.elemScan look n (j + 1) s' (acc ++ [ps])
    | (.bad k a, s') => (s', acc, some (j, k, a))
    | (.wait, s') => (s', acc, some (j, 0, 0))

/-- Elements `first` on read at once and written, where a later element faults (R180). -/
def State.elemsNow (s : State) (t : TRef) (size dst : Nat) (parts : List (List Part)) : State :=
  (parts.foldl (fun (p : State × Nat) ps =>
    let r := ps.foldl (fun (q : List Byte × State) x =>
      let y := q.2.readPlace t none false x
      (q.1 ++ y.1, y.2)) ([], p.1)
    let ws := (List.range (size / 4)).map fun i => Wr.v (dst + p.2 * (size / 4) + i) (BitVec.ofNat 32 (natAt r.1 (4 * i) 4))
    (r.2.landAll t [] ws, p.2 + 1)) (s, 0)).1

/-- A gather-like load of `n` elements of `size` bytes into registers from `dst` (R180).  After a fault in
element j the registers below `%prog` are final and the thread stays; how far `%prog` got is free among the elements that
can be read.  Otherwise the thread waits at the instruction or goes on, freely, until the elements are read, and `%prog`
reads 0.  DEDUCED, log entry 35. -/
def State.doElems (s : State) (t : TRef) (c : Ctl) (l1 : Bool) (n size dst : Nat) (look : State → Nat → Elem × State) : Lane :=
  let p := (s.thread t).prog.toNat
  if n ≤ p then .next (s.updThread t fun x => { x with prog := 0 })
  else
    let r := State.elemScan look (n - p) p s []
    let held := fun (ps : List Part) => ps.any fun x => match x.at_ with | .spad core o => s.spadReadHeld t core o x.len | _ => !s.placeReady t x
    match r.2.2 with
    | some (_, 0, _) => .stay s
    | some (j, k, a) =>
      let got := Config.choose s.tick [0x402, j] % ((r.2.1.takeWhile fun ps => !held ps).length + 1)
      let s1 := (r.1.elemsNow t size (dst + p * (size / 4)) (r.2.1.take got)).updThread t fun x => { x with prog := BitVec.ofNat 32 (p + got) }
      .trap s1 k a false
    | none =>
      if r.1.quantHeld t r.2.1.flatten ||
          r.2.1.any fun ps => ps.any fun x => match x.at_ with | .spad core o => s.spadReadHeld t core o x.len | _ => false then .stay s
      else
        let fin := Fin.elems (dst + p * (size / 4)) (if size == 8 then .b64 else .b32) (n - p)
        let id := r.1.nextId
        let s1 := r.1.beginLoad t c l1 r.2.1.flatten fin [] none
        if !(s.ctx t).quant && s.flip [0x403] then .stay (s1.waitFor t id)
        else .next (s1.updThread t fun x => { x with prog := 0 })

def execGather (c : Ctl) (ty : Ty) (fresh bs : Bool) (cnt : BitVec 6) (d a b : Operand) (off : BitVec 12) (s : State) :
    Host.Outcome State Fault Refusal :=
  native c (.gather c ty fresh bs cnt d a b off) s fun s t =>
    let n := cnt.toNat + 1
    let size := tyWidth ty / 8
    if s.ldHeld t c d (n * tyRegs ty) then .stay s
    else s.doElems t c (!fresh && !(s.ctx t).quant) n size (opNum d) fun s' j =>
      let idx := s.vreg t (opNum b + j)
      let va := s.addr t a off + idx.zeroExtend 64 * BitVec.ofNat 64 (if bs then 1 else size)
      match s'.access t va size false false [va.toNat] with
      | .wait => (.wait, s')
      | .fault k f s' => (.bad k f, s')
      | .nonres f => (.bad causePage f, s')
      | .ok rs s'' => (.ok (memParts rs), s'')

def execLdblk (c : Ctl) (sp fresh : Bool) (cnt : BitVec 6) (d a : Operand) (off : BitVec 12) (s : State) :
    Host.Outcome State Fault Refusal :=
  native c (.ldblk c sp fresh cnt d a off) s fun s t =>
    let n := cnt.toNat + 1
    if (if sp then s.loadHeld t c d n else s.ldHeld t c d n) then .stay s
    else s.doElems t c (!sp && !fresh && !(s.ctx t).quant) n 4 (opNum d) fun s' j =>
      if sp then
        let A := s.spadAddr t a off + BitVec.ofNat 32 (4 * j)
        match s'.spadPlace t A 4 with
        | none => (.bad causeProtection (A.zeroExtend 64), s')
        | some (_, core, o) => (.ok (spadParts core o 4), s')
      else
        let va := s.addr t a off + BitVec.ofNat 64 (4 * j)
        match s'.access t va 4 false false [va.toNat] with
        | .wait => (.wait, s')
        | .fault k f s' => (.bad k f, s')
        | .nonres f => (.bad causePage f, s')
        | .ok rs s'' => (.ok (memParts rs), s'')

/-! Prefetch, discard, invalidation (R181 to R183). -/

def execPrefetch (c : Ctl) (l1 : Bool) (a : Operand) (off : BitVec 12) (s : State) : Host.Outcome State Fault Refusal :=
  native c (.prefetch c l1 a off) s fun s t =>
    let va := (s.addr t a off).toNat / 128 * 128
    match s.access t (BitVec.ofNat 64 va) 1 false false [va] with
    | .ok [r] s' =>
      if (s.ctx t).quant || !s'.memReady r.pa 128 r.bypass || paHome r.pa == 8 then .next s
      else
        let s' := s'.fillL2 r.pa 128 r.bypass
        .next (if l1 then s'.l1Put (s.ctx t).core r.pa (s'.seenBytes t none (s.readerOf t) r.pa 128) else s')
    | _ => .next s

/-- The unspecified bytes a discard leaves in a sector (R182); in quantum mode they depend on the launch and the place of
the instruction in it alone (R94).  DESIGN CHOICE, log entry 36. -/
def State.freeBytes (s : State) (t : TRef) (keys : List Nat) (n : Nat) : List Byte :=
  let at_ := if (s.launchOf t).rc.quant then
      (0, [(s.launchOf t).quantum, ((s.groupOf t).map (·.index)).getD 0, (s.thread t).tid])
    else (s.tick, [])
  (List.range n).map fun i => Config.freeByte at_.1 (i :: (at_.2 ++ keys))

def execDiscard (c : Ctl) (line : Bool) (a : Operand) (off : BitVec 12) (s : State) : Host.Outcome State Fault Refusal :=
  native c (.discard c line a off) s fun s t =>
    let n := if line then 128 else 32
    let va := s.addr t a off
    if s.acqOpenLoad t then .stay s
    else match s.access t va 1 true true [va.toNat] with
    | .wait => .stay s
    | .fault k f s => .trap s k f true
    | .nonres _ => .next s
    | .ok rs s' =>
      let pa := ((rs.head?.map (·.pa)).getD 0) / n * n
      let by_ := (rs.head?.map (·.bypass)).getD false
      if (s.ctx t).quant then
        .next ((s'.beginQuiet t (.discard pa n by_)).defer t)
      else
        .next ((sectorsOf pa n).foldl (fun s b => s.storeWord t none b (s.freeBytes t [0x500, b] 32) by_ (s.carried t) (s.carriedOps t)) s')

def execL1inv (c : Ctl) (s : State) : Host.Outcome State Fault Refusal :=
  native c (.l1inv c) s fun s t => if (s.ctx t).quant then .next s else .next (s.l1Clear (s.ctx t).core)

/-! Fences (R83, R87, R184). -/

def lsAt (p : Path) : Bool := p == .ls || p == Path.at

/-- A `fence.ar`'s hold on later accesses until what the accesses still open come to observe is visible (R83). -/
def State.arBy (s : State) (t : TRef) (sc : Scope) : State :=
  if sc == .wave then s
  else s.updThread t fun x => { x with arOps := (x.arOps ++ s.pendingWith t sc).eraseDups }

/-- `fence` (R83): a release, an acquire, or both with every earlier and observed write made visible first. -/
def State.doFence (s : State) (t : TRef) (kind : FenceKind) (sc : Scope) : Lane :=
  if (s.ctx t).quant then .next s
  else match kind with
    | .rel => .next (s.release t sc)
    | .acq => .next (s.acquire t sc)
    | .ar => if !s.flushable t sc lsAt then .stay s
             else .next ((((s.flush t sc lsAt).release t sc).acquire t sc).arBy t sc)

def execFence (c : Ctl) (kind : FenceKind) (sc : Scope) (s : State) : Host.Outcome State Fault Refusal :=
  native c (.fence c kind sc) s fun s t => s.doFence t kind sc

/-- The paths of a path set (R86). -/
def pathIn (m : BitVec 7) (p : Path) : Bool :=
  m.getLsbD (match p with | .ls => 0 | .cp => 1 | .mx => 2 | .at => 3 | .bg => 4 | .rc => 5 | .host => 6)

def execXfence (c : Ctl) (p q : BitVec 7) (sc : Scope) (s : State) : Host.Outcome State Fault Refusal :=
  native c (.xfence c p q sc) s fun s t =>
    if (s.ctx t).quant then .next s
    else if !s.flushable t sc (pathIn p) || (pathIn p .at && s.atomicsOpen t) then .stay s
    else
      let s := s.flush t sc (pathIn p)
      .next (if pathIn q .ls then s.l1Clear (s.ctx t).core else s)

/-! Read-modify-write operations (R187). -/

/-- The new value of an atomic operation, at its width. -/
def rmwNew (op : AtomOp) (ty : Ty) (old b c : W64) : W64 :=
  let i := fun (x : W64) => intAt ty x
  let lo := fun (x : W64) => x.extractLsb' 0 32
  match op with
  | .add => BitVec.ofInt 64 (i old + i b)
  | .min => if i b < i old then b else old
  | .max => if i old < i b then b else old
  | .and => old &&& b
  | .or => old ||| b
  | .xor => old ^^^ b
  | .exch => b
  | .cas => if i old = i b then c else old
  | .fadd => if ty == .f32 then (ofF .f32 .rne false (FVal.add .rne (f32Of (lo old)) (f32Of (lo b)))).zeroExtend 64
             else (halves (fun x y _ => FVal.add .rne x y) (lo old) (lo b) 0).zeroExtend 64

/-- Width in bytes of an atomic's word: `.bf16` acts on both halves of a word (R270). -/
def atomBytes (ty : Ty) : Nat := if tyWide ty then 8 else 4

def atomVal (ty : Ty) (bytes : List Byte) : W64 := BitVec.ofNat 64 (bytesToNat (bytes.take (atomBytes ty)))

def atomDst (ty : Ty) (d : Nat) (old : W64) : List Wr :=
  if tyWide ty then [.v d (old.extractLsb' 0 32), .v (d + 1) (old.extractLsb' 32 32)] else [.v d (old.extractLsb' 0 32)]

def execSatom (c : Ctl) (ty : Ty) (op : AtomOp) (d a b e : Operand) (off : BitVec 12) (s : State) : Host.Outcome State Fault Refusal :=
  native c (.satom c ty op d a b e off) s fun s t =>
    let n := atomBytes ty
    if s.spadAcqHeld t || s.coreFull (s.ctx t).core || s.flagFull t c || s.destLocked t d (tyRegs ty) then .stay s
    else s.withSpad t a (if op == .cas then 0 else off) n n true fun s _ core o =>
      if s.spadWriteHeld t core o n then .stay s
      else
        let bv := s.src t ty b
        let cv := s.src t ty e
        if (s.ctx t).quant then
          .next (((s.begin_ t c (.satom core o ⟨op, ty, 0, bv, cv, false⟩ (opNum d)) none).defer t).updThread t fun x => { x with qended := true })
        else
          let old := atomVal ty (s.spadBytes core o n)
          let s := s.storeSpad t core o (natToBytes n (rmwNew op ty old bv cv).toNat) true
          .next (s.result t c (atomDst ty (opNum d) old))

/-! Monitored wait (R189, R190). -/

/-- Monitors armed at the slice of an address (R190, R266). -/
def State.monitors (s : State) (pa : Nat) : Nat :=
  s.ops.countP fun o => match o.kind with
    | .mwait a _ _ _ true none | .cntw a _ _ true none | .jwait a _ true none | .bgwait a _ true none => sliceOf a == sliceOf pa
    | _ => false

/-- Whether a wait can be compared at its word now: the home answers, and the thread's own earlier stores to it and those
already visible to it have reached it (R79, R80, R189). -/
def State.waitReady (s : State) (o : Op) (pa n : Nat) : Bool :=
  s.memReady pa n false && (s.mem.raised pa n).isEmpty && s.mem.wq.all fun e =>
    !(e.path == .ls && e.issuer == some o.thr && e.id < o.id && sameWord e.pa e.data.length pa n)

/-- The comparison at the home slice, and the arming where a monitor is free: one step (R189).  DEDUCED, log entry 37. -/
def State.compareArm (s : State) (o : Nat) : State :=
  match s.op? o with
  | none => s
  | some op =>
    let hit := fun (a n : Nat) (k : OpKind) => s.updOp o fun y => { y with kind := k, from_ := s.mem.headsAt a n }
    match op.kind with
    | .mwait pa ty val dst false none =>
      let x := toW64 (s.mem.visBytes pa (atomBytes ty))
      if !s.waitReady op pa (atomBytes ty) then s
      else if x != val then hit pa (atomBytes ty) (.mwait pa ty val dst false (some x))
      else if s.monitors pa < 64 then s.updOp o fun y => { y with kind := .mwait pa ty val dst true none } else s
    | .cntw pa val dst false none =>
      let x := toW64 (s.mem.visBytes pa 8)
      if !s.waitReady op pa 8 then s
      else if val.ule x then hit pa 8 (.cntw pa val dst false (some x))
      else if s.monitors pa < 64 then s.updOp o fun y => { y with kind := .cntw pa val dst true none } else s
    | .jwait pa dst false none =>
      let x := toW64 (s.mem.visBytes pa 8)
      if !s.waitReady op pa 8 then s
      else if x.extractLsb' 0 32 == 0 then hit pa 8 (.jwait pa dst false (some x))
      else if s.monitors pa < 64 then s.updOp o fun y => { y with kind := .jwait pa dst true none } else s
    | .bgwait pa dst false none =>
      let x := toW64 (s.mem.visBytes pa 8)
      if !s.waitReady op pa 8 then s
      else if x.msb then hit pa 8 (.bgwait pa dst false (some x))
      else if s.monitors pa < 64 then s.updOp o fun y => { y with kind := .bgwait pa dst true none } else s
    | _ => s

/-- In quantum mode a waiting instruction ends the quantum before it, and is looked at once after each commit (R90,
R93, R200). -/
def State.queueWait (s : State) (t : TRef) (step : Lane) : Lane :=
  if (s.ctx t).quant && !(s.launchOf t).committing then .stay (s.updThread t fun x => { x with qended := true }) else step

/-- A wait that has not completed keeps its thread at the instruction, where a halt finds it (R199, R314).  DEDUCED, log
entry 39. -/
def State.hold (s : State) (t : TRef) (id : Nat) : Lane := .stay (s.waitFor t id)

/-- A wait whose condition has held. -/
def OpKind.hit : OpKind → Bool
  | .mwait _ _ _ _ _ (some _) | .cntw _ _ _ _ (some _) | .jwait _ _ _ (some _) | .bgwait _ _ _ (some _)
  | .barrWait _ _ _ _ _ (some _) => true
  | _ => false

/-- A wait begins.  Once its condition holds the value is fixed; after a commit a wait that does not hold leaves no
trace (R93). -/
def State.beginWait (s : State) (t : TRef) (c : Ctl) (kind : OpKind) (acq : Option Scope) : Lane :=
  let id := s.nextId
  let s1 := s.begin_ t c kind acq
  let s1 := match acq with | some sc => s1.acqBy t id sc | none => s1
  if (s.ctx t).quant then
    let s2 := s1.compareArm id
    if ((s2.op? id).map fun o => o.kind.hit).getD false then .next s2 else .stay s
  else (if s.flip [0x404] then s1 else s1.compareArm id).hold t id

/-- The global word of an atomic or waiting instruction: aligned, with the permissions of a load or store, in
homes 0x0 to 0x7 (R189, R260, R271, R429). -/
def State.withRange (s : State) (t : TRef) (a : Operand) (off : BitVec 12) (n : Nat) (write : Bool) (f : Range → State → Lane) : Lane :=
  let va := s.addr t a off
  if va.toNat % n != 0 then .trap s causeProtection va write
  else match s.access t va n write false [va.toNat] with
    | .wait => .stay s
    | .fault k x s => .trap s k x write
    | .nonres x => .trap s causePage x write
    | .ok rs s' =>
      match rs with
      | [r] => if paDevice r.pa then f r s' else .trap s causeProtection va write
      | _ => .trap s causeProtection va write

def State.withWord (s : State) (t : TRef) (a : Operand) (off : BitVec 12) (n : Nat) (write : Bool) (f : Nat → State → Lane) : Lane :=
  s.withRange t a off n write fun r s => f r.pa s

def execMwait (c : Ctl) (ty : Ty) (acq : Bool) (scope : Scope) (d a b : Operand) (off : BitVec 12) (s : State) :
    Host.Outcome State Fault Refusal :=
  native c (.mwait c ty acq scope d a b off) s fun s t =>
    s.queueWait t (if s.loadHeld t c d (tyRegs ty) then .stay s
    else s.withWord t a off (atomBytes ty) false fun pa s' =>
      s'.beginWait t c (.mwait pa ty (s.src t ty b) (opNum d) false none)
        (if acq && !(s.ctx t).quant then some scope else none))

/-! Scratchpad queues (R191 to R194). -/

/-- A queue control word's fields. -/
structure QCtl where
  base : W32
  ldepth : Nat
  esize : Nat
  valid : Bool
  head : Nat
  tail : Nat
  deriving DecidableEq, Repr

def qctlOf (b : List Byte) : QCtl :=
  let hi := natAt b 4 4
  ⟨BitVec.ofNat 32 (natAt b 0 4), bitsOf hi 3 0, bitsOf hi 13 8, bitAt hi 16, natAt b 8 2, natAt b 10 2⟩

/-- Bytes of the element region (R191). -/
def QCtl.region (q : QCtl) : Nat := 2 ^ q.ldepth * (q.esize + 1) * 4

/-- The element region lies, 16-byte aligned, in the scratchpad of the group of the control word (R192). -/
def State.queueRegion (s : State) (t : TRef) (g : Group) (q : QCtl) : Option (Nat × Nat) :=
  if 12 < q.ldepth || q.base.toNat % 16 != 0 then none
  else match s.spadPlace t q.base q.region with
    | some (G, core, o) => if G.id == g.id then some (core, o) else none
    | none => none

/-- The reserved bits of a control word's second word (R191). -/
def qctlReserved (x : W32) : Bool := x.extractLsb' 4 4 == 0 && x.extractLsb' 14 2 == 0 && x.extractLsb' 17 15 == 0

def execQinit (c : Ctl) (a b : Operand) (off : BitVec 12) (s : State) : Host.Outcome State Fault Refusal :=
  native c (.qinit c a b off) s fun s t =>
    let hi := s.vreg t (opNum b + 1)
    let word := bytes4 (s.vreg t (opNum b)) ++ bytes4 (hi ||| 0x10000) ++ List.replicate 8 0
    if s.acqOpen t then .stay s
    else s.withSpad t a off 16 16 true fun s G core o =>
      if !qctlReserved hi || (s.queueRegion t G (qctlOf word)).isNone then
        .trap s causeProtection ((s.spadAddr t a off).zeroExtend 64) true
      else if s.spadWriteHeld t core o 16 then .stay s
      else if (s.ctx t).quant then
        if quantumFull (s.thread t) [.spad core o word] then .stay (s.updThread t fun x => { x with qended := true })
        else .next (s.buffer t (.spad core o word))
      else .next (s.storeSpad t core o word false)

/-- A release performed with a scratchpad step waits until the thread's earlier accesses, those on the path AT with them, can
have been performed and what it releases can be visible (R89, R194, R198). -/
def State.releaseHeld (s : State) (t : TRef) (sc : Scope) : Bool :=
  (s.forceLoads t).unperformed t || !(s.forceLoads t).flushable t sc lsAt

/-- A release performed with a scratchpad step (R194, R198): earlier loads performed, earlier and observed
writes visible in the cell. -/
def State.releaseStep (s : State) (t : TRef) (sc : Scope) : State := ((s.forceLoads t).flush t sc lsAt).releaseK t

/-- One push or pop at a valid queue (R193): the control word's address, its region, and what moves. -/
def State.queueStep (s : State) (t : TRef) (c : Ctl) (once push : Bool) (d a b : Operand) (off : BitVec 12) : Lane :=
  let data := if push then b else d
  let pd := if push then d else b
  let regs := (s.ctx t).regs
  let held := s.accessHeld t || s.flagFull t c
  if held then .stay s
  else s.withSpad t a off 16 16 true fun s G core o =>
    let s := s.settleLoads t (.spad core o) 16
    let cw := s.spadBytes core o 16
    let q := qctlOf cw
    match s.queueRegion t G q with
    | none => .trap s causeProtection ((s.spadAddr t a off).zeroExtend 64) true
    | some (rc, ro) =>
      let n := q.esize + 1
      let slot := ro + (if push then q.tail else q.head) % 2 ^ q.ldepth * n * 4
      if !q.valid || !qctlReserved (toW32 (sliceB cw 4 4)) || regs < opNum data + n then
        .trap s causeProtection ((s.spadAddr t a off).zeroExtend 64) true
      else if !push && s.destLocked t d n then .stay s
      else if s.spadWriteHeld t core o 16 then .stay s
      else
        let count := (q.tail + 2 ^ 16 - q.head) % 2 ^ 16
        let full := if push then 2 ^ q.ldepth ≤ count else count == 0
        if full then (if once then .next (s.result t c (wrP pd false)) else .stay s)
        else if s.spadWriteHeld t rc slot (4 * n) || (push && s.releaseHeld t .cell) then .stay s
        else if push then
          let s := s.releaseStep t .cell
          let s := s.storeSpad t rc slot (((s.dataWords t .b32 data n).map bytes4).flatten) false
          let s := s.storeSpad t core (o + 10) (natToBytes 2 (q.tail + 1)) false
          .next (s.result t c (if once then wrP pd true else []))
        else
          let s := s.settleLoads t (.spad rc slot) (4 * n)
          let ws := (List.range n).map fun i => Wr.v (opNum data + i) (toW32 (s.spadBytes rc (slot + 4 * i) 4))
          let s := s.storeSpad t core (o + 8) (natToBytes 2 (q.head + 1)) false
          .next ((s.result t c (ws ++ if once then wrP pd true else [])).acquireNow t .cell)

def execQpush (c : Ctl) (once : Bool) (d a b : Operand) (off : BitVec 12) (s : State) : Host.Outcome State Fault Refusal :=
  native c (.qpush c once d a b off) s fun s t => s.queueWait t (s.queueStep t c once true d a b off)

def execQpop (c : Ctl) (once : Bool) (d a b : Operand) (off : BitVec 12) (s : State) : Host.Outcome State Fault Refusal :=
  native c (.qpop c once d a b off) s fun s t => s.queueWait t (s.queueStep t c once false d a b off)

/-! Barrier objects (R195 to R198). -/

structure Barr where
  exp : Nat
  rem : Nat
  ph : Nat
  ovr : Bool
  bm : Bool
  bytes : Nat
  ovc : Nat
  ts : Nat
  deriving DecidableEq, Repr

def barrOf (b : List Byte) : Barr :=
  ⟨natAt b 0 2, natAt b 2 2, natAt b 4 1 % 16, bitAt (natAt b 4 1) 4, bitAt (natAt b 4 1) 5, natAt b 5 5, natAt b 10 2, natAt b 12 4⟩

def barrBytes (o : Barr) : List Byte :=
  natToBytes 2 o.exp ++ natToBytes 2 o.rem ++ natToBytes 1 (o.ph % 16 + (if o.ovr then 16 else 0) + (if o.bm then 32 else 0)) ++
    natToBytes 5 o.bytes ++ natToBytes 2 o.ovc ++ natToBytes 4 o.ts

def barrComplete (gtsc : Nat) (o : Barr) : Barr :=
  { o with ph := (o.ph + 1) % 16, rem := o.exp, bytes := 0, bm := false, ts := gtsc % 2 ^ 32 }
def barrCheck (gtsc : Nat) (o : Barr) : Barr :=
  if o.rem = 0 && (!o.bm || o.bytes = 0) then barrComplete gtsc o else o
/-- An arrival of n, and whether it overran (R196). -/
def barrArriveN (gtsc n : Nat) (o : Barr) : Barr × Bool :=
  if n = 0 then (o, false)
  else if o.rem < n then (barrComplete gtsc { o with ovr := true, ovc := Nat.min (o.ovc + 1) 65535 }, true)
  else (barrCheck gtsc { o with rem := o.rem - n }, false)
def barrExpectB (gtsc b : Nat) (o : Barr) : Barr := barrCheck gtsc { o with bytes := (o.bytes + b) % 2 ^ 40, bm := true }
def barrLand (gtsc k : Nat) (o : Barr) : Barr := barrCheck gtsc { o with bytes := (o.bytes + 2 ^ 40 - k % 2 ^ 40) % 2 ^ 40 }

/-- One step of an object: written, and every waiter whose phase has passed ends its wait (R196, R197). -/
def State.setBarr (s : State) (core off : Nat) (o : Barr) : State :=
  let s := s.setSpad core off (barrBytes o)
  let f := fun (p : Op) => match p.kind with
    | .barrWait k a seen lim dst none =>
      if k == core && a == off && o.ph != seen then { p with kind := .barrWait k a seen lim dst (some true) } else p
    | _ => p
  { s with ops := s.ops.map f }

def State.barrAt (s : State) (core off : Nat) : Barr := barrOf (s.spadBytes core off 16)

/-- A barrier instruction's object: aligned, in range, not held, the thread's own loads of it performed (R80, R185, R195,
R218). -/
def State.withBarr (s : State) (t : TRef) (a : Operand) (off : BitVec 12) (f : State → Nat → Nat → Lane) : Lane :=
  if s.acqOpen t then .stay s
  else s.withSpad t a off 16 16 true fun s _ core o =>
    if s.spadWriteHeld t core o 16 then .stay s else f (s.settleLoads t (.spad core o) 16) core o

/-- In quantum mode an update of an object is performed at the commit (R200). -/
def State.barrUpdate (s : State) (t : TRef) (core o : Nat) (u : BarrUp) : State :=
  (s.beginQuiet t (.barrUp core o u)).defer t

def execBarrInit (c : Ctl) (a b : Operand) (off : BitVec 12) (s : State) : Host.Outcome State Fault Refusal :=
  native c (.barrInit c a b off) s fun s t =>
    let e := (s.src32 t b).toNat % 2 ^ 16
    s.withBarr t a off fun s core o =>
      if e = 0 then .trap s causeProtection ((s.spadAddr t a off).zeroExtend 64) true
      else if (s.ctx t).quant then .next (s.barrUpdate t core o (.init e))
      else .next (s.setBarr core o ⟨e, e, 0, false, false, 0, 0, 0⟩)

def execBarrArrive (c : Ctl) (chk : Bool) (a b : Operand) (off : BitVec 12) (s : State) : Host.Outcome State Fault Refusal :=
  native c (.barrArrive c chk a b off) s fun s t =>
    let n := if b == .none then 1 else (s.src32 t b).toNat
    s.withBarr t a off fun s core o =>
      if (s.ctx t).quant then .next (s.barrUpdate t core o (.arrive n chk))
      else if s.releaseHeld t .cell then .stay s
      else
        let s := s.releaseStep t .cell
        let r := barrArriveN s.gtsc n (s.barrAt core o)
        let s := if n = 0 then s else s.setBarr core o r.1
        if r.2 && chk then .trapNext s causeOverrun 0 else .next s

def execBarrExpect (c : Ctl) (a b : Operand) (off : BitVec 12) (s : State) : Host.Outcome State Fault Refusal :=
  native c (.barrExpect c a b off) s fun s t =>
    let n := (s.src32 t b).toNat
    s.withBarr t a off fun s core o =>
      if (s.ctx t).quant then .next (s.barrUpdate t core o (.expect n))
      else .next (s.setBarr core o (barrExpectB s.gtsc n (s.barrAt core o)))

/-- `barr.wait` (R197): its return is an acquire of the cell. -/
def execBarrWait (c : Ctl) (d a b : Operand) (off : BitVec 12) (s : State) : Host.Outcome State Fault Refusal :=
  native c (.barrWait c d a b off) s fun s t =>
    let seen := (s.vreg t (opNum b)).toNat % 16
    let lim := (s.vreg t (opNum b + 1)).toNat
    s.queueWait t (if s.accessHeld t || s.flagFull t c then .stay s
    else s.withSpad t a off 16 16 false fun s _ core o =>
      if s.spadReadHeld t core o 16 then .stay s
      else
        let s := s.settleLoads t (.spad core o) 16
        let q := (s.ctx t).quant
        let id := s.nextId
        let hit := if (s.barrAt core o).ph != seen then some true
          else if q && lim != 0 && lim ≤ (s.thread t).qwait then some false else none
        if q && hit.isNone then .stay s
        else
          let limit := if lim = 0 || q then none else some (s.clk + lim)
          let s1 := (s.begin_ t c (.barrWait core o seen limit (opNum d) hit) (some .cell)).acqBy t id .cell
          if hit.isSome then .next s1 else s1.hold t id)

def execBarrQuery (c : Ctl) (d a : Operand) (off : BitVec 12) (s : State) : Host.Outcome State Fault Refusal :=
  native c (.barrQuery c d a off) s fun s t =>
    if s.loadHeld t c d 4 then .stay s
    else s.withSpad t a off 16 16 false fun s _ core o =>
      if s.spadReadHeld t core o 16 then .stay s
      else
        let s := s.settleLoads t (.spad core o) 16
        let b := s.spadBytes core o 16
        let id := s.nextId
        let seen := (s.reqs.filter fun r => r.bar == some (core, o)).map (·.id)
        .next ((s.result t c ((List.range 4).map fun i => Wr.v (opNum d + i) (toW32 (sliceB b (4 * i) 4)))).updOp id
          fun p => { p with sees := seen })

end Sys2Proof.Machine
end

