-- ==== Sys2Proof/Machine/Atomic.lean ====
section
/-! DEFINITION. The atomic service: opcodes 0x280 to 0x282, the operations at the home slice and the registered
routines (R266 to R279). -/

set_option linter.unusedVariables false

namespace Sys2Proof.Machine

/-- A write can be performed at its home slice now: no stub and no held row in the way, no final pass of a migration over
its page, what has been seen of its words written, room in the slice (R79, R300, R326). -/
def State.sliceReady (s : State) (pa len : Nat) (bypass : Bool) : Bool :=
  (if paHome pa == 8 then s.boot.ats.contains (pa / 2 ^ 12) else (s.stubAt pa).isNone) &&
    s.writeRowsOk pa len bypass && s.pageOpen pa && s.settled pa len && (bypass || s.l2Fits pa len)

/-! Issue (R271 to R273, R278). -/

/-- An operation sent to the service wave: its flag if it returns a value, the releases before it. -/
def State.sendAtomic (s : State) (t : TRef) (c : Ctl) (va : W64) (n : Nat) (kind : OpKind) (order : AtomOrder) (sc : Scope)
    (ret : Bool) : State :=
  let q := (s.ctx t).quant
  let rel := !q && (order == .rel || order == .ar)
  let acq := !q && (order == .acq || order == .ar)
  let id := s.nextId
  let under := s.narrowAcqs t
  let after := s.carried t ++ (if rel && sc != .wave then s.releaseSet t sc else [])
  let before := s.carriedOps t ++ (if rel then s.pendingWith t sc else [])
  let s := if rel && sc != .wave then s.releaseK t else s
  let s := if ret then s.begin_ t c kind (if acq then some sc else none) else s.beginQuiet t kind
  let s := s.updOp id fun o => { o with after := after.eraseDups, before := before.eraseDups, under := under }
  let s := if acq then s.acqBy t id sc else s
  if q then
    let s := s.deferAt t (some (va, n))
    if ret then s.updThread t fun x => { x with qended := true } else s
  else s

/-- A callee's `atom`: performed at once where its home answers (R351). -/
def State.calleeAtom (s : State) (t : TRef) (c : Ctl) (m : Rmw) (dst : Nat) : Lane :=
  let s := s.redirectTo (s.ctx t).die m.pa
  let pa := s.resolve m.pa
  let n := atomBytes m.ty
  if s.movedAway m.pa then
    .next (s.result t c (atomDst m.ty dst (Config.freeWord s.tick [0x312, 1] ++ Config.freeWord s.tick [0x312, 0])))
  else if !s.sliceReady pa n (s.calleeExec t < 32 || m.bypass) || !s.calleeReady t pa n true m.bypass then .stay s
  else
    let s := s.settle pa n
    let s := if s.calleeExec t < 32 then s.scLine pa n else s
    let old := atomVal m.ty (s.mem.visBytes pa n)
    let s := s.perform pa (natToBytes n (rmwNew m.op m.ty old m.b m.c).toNat) (s.calleeExec t < 32 || m.bypass)
    .next (s.result t c (atomDst m.ty dst old))

def State.doAtom (s : State) (t : TRef) (c : Ctl) (ty : Ty) (op : AtomOp) (order : AtomOrder) (sc : Scope) (d : Option Operand)
    (a b e : Operand) (off : BitVec 12) : Lane :=
  if s.acqOpenLoad t || s.coreFull (s.ctx t).core || (match d with | some d => s.flagFull t c || s.destLocked t d (tyRegs ty) | none => false) then .stay s
  else s.withRange t a (if op == .cas then 0 else off) (atomBytes ty) true fun r s' =>
    let m : Rmw := ⟨op, ty, r.pa, s.src t ty b, s.src t ty e, r.bypass⟩
    if (s.ctx t).callee then s'.calleeAtom t c m ((d.map opNum).getD 0)
    else .next (s'.sendAtomic t c (s.addr t a (if op == .cas then 0 else off)) (atomBytes ty) (.atomic s.tick m (d.map opNum)) order sc d.isSome)

def execAtom (c : Ctl) (ty : Ty) (op : AtomOp) (order : AtomOrder) (sc : Scope) (d a b e : Operand) (off : BitVec 12) (s : State) :
    Host.Outcome State Fault Refusal :=
  native c (.atom c ty op order sc d a b e off) s fun s t => s.doAtom t c ty op order sc (some d) a b e off

def execRed (c : Ctl) (ty : Ty) (op : AtomOp) (order : AtomOrder) (sc : Scope) (a b : Operand) (off : BitVec 12) (s : State) :
    Host.Outcome State Fault Refusal :=
  native c (.red c ty op order sc a b off) s fun s t => s.doAtom t c ty op order sc Option.none a b .none off

def execAcall (c : Ctl) (routine : BitVec 2) (args res : BitVec 3) (d a b : Operand) (off : BitVec 12) (s : State) :
    Host.Outcome State Fault Refusal :=
  native c (.acall c routine args res d a b off) s fun s t =>
    if s.accessHeld t || s.flagFull t c || s.destLocked t d (res.toNat + 1) then .stay s
    else s.withRange t a off 4 true fun r s' =>
      let part := s.partAt (s.ctx t).part
      let regs := (List.range (args.toNat + 1)).map fun i => s.vreg t (opNum b + i)
      let va := s.addr t a off
      .next (s'.sendAtomic t c va 4 (.acall s.tick r.pa va (part.routines.getD routine.toNat 0) ((rootOf part.root).getD (2 ^ 36))
        regs (opNum d) res.toNat r.bypass) .none .wave true)

/-! At the slice (R267, R270, R272). -/

/-- Address, bytes and gang run of an operation of the service wave. -/
def OpKind.slice : OpKind → Option (Nat × Nat × Nat)
  | .atomic run m _ => some (m.pa, atomBytes m.ty, run)
  | .acall run pa _ _ _ _ _ _ _ => some (pa, 4, run)
  | _ => none

/-- Whether an operation still waits for the commit of its quantum (R278). -/
def State.deferred (s : State) (o : Op) : Bool := (s.thread o.thr).quantum.any fun q =>
  match q with
  | .op id _ _ => id == o.id
  | _ => false

/-- The operations of one gang instruction to one word, in ascending lane order (R272).  DEDUCED, log entry 59. -/
def State.sliceRun (s : State) (o : Op) : List Op :=
  match o.kind.slice with
  | none => []
  | some (pa, n, run) => s.ops.filter fun x => match x.kind.slice with
      | some (a, m, r) => a / n * n == pa / n * n && r == run
      | none => false

/-- The thread's own stores to the bytes that stand before an operation in program order (R272). -/
def State.ownStores (s : State) (o : Op) (pa n : Nat) : List Nat :=
  (s.mem.wq.filter fun e => e.path == .ls && e.issuer == some o.thr && sameWord e.pa e.data.length pa n && e.id < o.id).map (·.id)

/-- The executor of a physical address (R345), none for a home that has none. -/
def executorOf (pa : Nat) (l2 : Bool) : Option Nat :=
  if !paDevice pa then none
  else if paHome pa < 4 && !l2 then some (4 * (hbmChan pa / 32) + hbmChan pa % 32 / 8)
  else some (32 + paDie pa * 40 + homeCluster pa)

/-- Calls that an executor's queue holds, and whether it holds an atomic: one that no commit keeps (R268, R344). -/
def State.callsAt (s : State) (e : Nat) : Nat := s.remote.calls.countP fun k => k.exec == e && k.phase == .queued
def State.atomicAt (s : State) (e : Nat) (o : Op) : Bool := !s.deferred o && match o.kind.slice with
  | some (pa, _, _) => executorOf pa true == some e
  | none => false

/-- Whether an atomic has an entry in its cluster's queue of 512, which calls share (R268, R344). -/
def State.sliceQueued (s : State) (o : Op) (pa : Nat) : Bool :=
  match executorOf pa true with
  | some e => s.callsAt e + (s.ops.countP fun x => x.id < o.id && s.atomicAt e x) < 512
  | none => true

/-- Whether an operation can be performed now: its home ready and its rows not held BANK-EXCL, what it releases visible or
able to be, the thread's earlier operations on the address performed (R272, R273, R279). -/
def State.sliceEnabled (s : State) (o : Op) : Bool :=
  match o.kind.slice with
  | none => false
  | some (pa, n, _) =>
    let (lo, len, byp) := match o.kind with
      | .acall _ _ _ _ _ _ _ _ b => (pa / 128 * 128, 128, b)
      | .atomic _ m _ => (pa, n, m.bypass)
      | _ => (pa, n, false)
    s.sliceQueued o pa && s.sliceReady lo len byp && s.readRowsOk lo len byp && ((sectorsOf lo len).all fun b => s.coreWriteOk b) && !s.opsOpen o.before && s.aheadOk o.under &&
      s.canForceOwed o.thr o.after && s.canForceAll (s.ownStores o lo len) .all &&
      s.ops.all fun x => !(x.thr == o.thr && x.id < o.id && match x.kind.slice with
        | some (a, m, _) => sameWord a m lo len
        | none => false)

/-- An operation has been performed: its return waits to land, or it is over (R268, R271). -/
def State.sliceDone (s : State) (o : Op) (ws : List Wr) : State :=
  match o.flag with
  | some _ => s.updOp o.id fun x => { x with kind := .result ws }
  | none => s.dropOp o.id

/-- What stands before an operation made visible (R272, R273). -/
def State.sliceBefore (s : State) (o : Op) (pa n : Nat) : State :=
  ((s.forceOwed o.thr o.after).forceAll (s.ownStores o pa n) .all).settle pa n

/-- One read-modify-write at its slice (R271). -/
def State.atomicNow (s : State) (o : Op) (m : Rmw) (dst : Option Nat) : State :=
  let n := atomBytes m.ty
  let s := ((s.sliceBefore o m.pa n).passAhead o.under).evict m.pa n
  let old := atomVal m.ty (s.mem.visBytes m.pa n)
  let s := s.updOp o.id fun x => { x with from_ := s.mem.headsAt m.pa n }
  let s : State := { s with mem := s.mem.headPut m.pa n o.thr true }
  let s := s.perform m.pa (natToBytes n (rmwNew m.op m.ty old m.b m.c).toNat) m.bypass
  let s := s.l1Drop o.core m.pa n
  s.sliceDone o (match dst with | some d => atomDst m.ty d old | none => [])

/-! Registered routines (R274 to R276). -/

/-- A routine in progress: its lane, its own cycle count, the stores it holds, the instructions executed. -/
structure Routine where
  th : Thread
  clk : Nat
  hdr : Header
  held : List (Nat × List Byte)
  count : Nat
  deriving DecidableEq, Repr

/-- How a routine ends: its code, registers and stores. -/
structure RoutEnd where
  /-- A fetch has to wait, so nothing has happened (R299, R300). -/
  wait : Bool
  code : Nat
  count : Nat
  v : List W32
  held : List (Nat × List Byte)
  deriving DecidableEq, Repr

/-- Latency of a fixed-latency instruction of the vector unit (R43). -/
def aluLatency : Instr → Nat
  | .mul .. | .mulhi .. | .mad .. | .dp4 .. | .fadd .. | .fsub .. | .fmul .. | .ffma .. | .fmin .. | .fmax .. | .fclamp ..
  | .frnd .. | .fclass .. | .hadd2 .. | .hmul2 .. | .hfma2 .. | .hmax2 .. | .cvt .. | .pack .. | .unpk .. => 6
  | .mix32 .. => 8
  | _ => 4

/-- The same for one of its writes: a predicate is there after 4 cycles (R43, R156). -/
def wrLatency (i : Instr) : Wr → Nat
  | .p _ _ => 4
  | _ => aluLatency i

/-- A source of a routine: its own registers, predicates and immediates (R350). -/
def Thread.srcOf (x : Thread) (ty : Ty) (o : Operand) : W64 :=
  match o with
  | .v n => if tyWide ty then x.v.getD (n.toNat + 1) 0 ++ x.v.getD n.toNat 0 else (x.v.getD n.toNat 0).zeroExtend 64
  | .p n => if x.pred n.toNat then 1 else 0
  | .imm y => if ty == .i64 then y.signExtend 64 else y.zeroExtend 64
  | _ => 0

/-- What a routine needs of the call: line and address, where its code is read. -/
structure RoutCtx where
  va : Nat
  pa : Nat
  die : Nat
  root : Nat
  stamp : Nat
  deriving DecidableEq, Repr

/-- A code word of a routine, or the code of what stands in its way: ILLEGAL, or 16 where the fetch waits.  DEDUCED, log
entry 61. -/
def State.routFetch (s : State) (c : RoutCtx) (va : W64) : (W96 × State) ⊕ Nat :=
  match s.fetchIn .die c.die c.root false c.stamp va with
  | .word w s' => .inl (w, s')
  | .fault _ _ => .inr 2
  | .wait => .inr 16

/-- A clause header a routine enters (R118, R350). -/
def State.routHeader (s : State) (c : RoutCtx) (va : W64) : (W96 × State) ⊕ Nat :=
  if va.toNat % 16 != 0 || 2 ^ 57 ≤ va.toNat then .inr 2
  else match s.routFetch c va with
    | .inl r => if r.1.msb then .inl r else .inr 2
    | .inr k => .inr k

/-- The bytes of a range of the line with the routine's own stores over them (R275). -/
def routRead (s : State) (r : Routine) (pa len : Nat) : List Byte :=
  r.held.foldl (fun b h => overlay pa b h.1 h.2) (s.mem.visBytes pa len)

/-- One slot of a routine (R275, R350): it goes on, or it ends with a code.  A long-latency result is there for the next
slot, and an instruction whose clause goes on to what is no header is not counted as executed.  DESIGN CHOICE, log entry
139. -/
def State.routSlot (s : State) (c : RoutCtx) (r : Routine) (w : W96) : (Routine ⊕ Nat) × State :=
  let x := r.th.settle r.clk
  let ctl := wordCtl w
  let step := fun (x : Thread) => ({ r with th := x, clk := r.clk + 1 + ctl.stall.toNat, count := r.count + 1 } : Routine)
  let next := fun (x : Thread) (held : List (Nat × List Byte)) (s : State) =>
    if x.slot.toNat < r.hdr.cnt then
      ((Sum.inl { (step { x with slot := x.slot + 1 }) with held := held } : Routine ⊕ Nat), s)
    else
      let f := fallAddr x.pc r.hdr.cnt
      match s.routHeader c f with
      | .inl (_, s) => (.inl { (step { x with pc := f, slot := 0 }) with held := held }, s)
      | .inr k => (.inr k, s)
  let goto := fun (x : Thread) (f : W64) =>
    match s.routHeader c f with
    | .inl (_, s) => ((Sum.inl (step { x with pc := f, slot := 0 }) : Routine ⊕ Nat), s)
    | .inr k => (.inr k, s)
  let inLine := fun (va len : Nat) => va / 128 == c.va / 128 && (va + len - 1) / 128 == c.va / 128
  let place := fun (va : Nat) => c.pa / 128 * 128 + va % 128
  match decode w with
  | none => (.inr 2, s)
  | some i =>
    if !isCalleeOk i || !regsOk 32 i || (isLong i && (r.hdr.flagOf ctl.fs).isNone) || (r.hdr.kind == 3 && repeatForbids i) then (.inr 2, s)
    else if (match i with | .atom .. => true | _ => false) then (.inr 2, s)
    else if x.pred ctl.gp.toNat == ctl.gn then next x r.held s
    else match i with
      | .rret _ => (.inr 0, s)
      | .nop _ => next x r.held s
      | .bra _ _ _ disp => goto x (immTarget x.pc disp)
      | .brx _ _ _ a => goto x (x.srcOf .b64 a)
      | .ld _ ty _ _ _ _ vec d a _ off =>
        let va := (x.srcOf .b64 a + off.signExtend 64).toNat
        let len := vecCount vec * tyWidth ty / 8
        if !inLine va len then (.inr 2, s)
        else
          let ws := finWrites (.regs false (opNum d) ty (vecCount vec)) (routRead s r (place va) len)
          next (ws.foldl (fun y w => y.put w) x) r.held s
      | .st _ ty _ _ vec a b off =>
        let va := (x.srcOf .b64 a + off.signExtend 64).toNat
        let len := vecCount vec * tyWidth ty / 8
        if !inLine va len then (.inr 2, s)
        else
          let ws := match b with
            | .v n => (List.range (vecRegs ty vec)).map fun k => x.v.getD (n.toNat + k) 0
            | _ => [(x.srcOf ty b).extractLsb' 0 32, (x.srcOf ty b).extractLsb' 32 32]
          next x (r.held ++ [(place va, storeData ty (vecCount vec) ws)]) s
      | _ =>
        let ws := (aluWrites x.srcOf i).getD []
        if isLong i then next (ws.foldl (fun y w => y.put w) x) r.held s
        else next { x with pend := x.pend ++ ws.map fun w => ⟨r.clk + wrLatency i w, w⟩ } r.held s

/-- A routine runs to its end: at most 64 instructions (R275, R276).  DEDUCED, log entry 60. -/
def State.routRun : Nat → State → RoutCtx → Routine → RoutEnd × State
  | 0, s, _, r => (⟨false, 3, r.count, [], []⟩, s)
  | n + 1, s, c, r =>
    let bad := fun (k : Nat) => (⟨k == 16, k, r.count, [], []⟩ : RoutEnd)
    if 64 ≤ r.count then (bad 3, s)
    else
      let entered : (Routine × State) ⊕ Nat := if r.th.slot = 0 then
          match s.routHeader c r.th.pc with
          | .inl h => if headerOk h.1 then .inl ({ r with hdr := headerOf h.1, th := { r.th with slot := 1 } }, h.2) else .inr 2
          | .inr k => .inr k
        else .inl (r, s)
      match entered with
      | .inr k => (bad k, s)
      | .inl (r, s) =>
        match s.routFetch c (r.th.pc + BitVec.ofNat 64 (12 * r.th.slot.toNat)) with
        | .inr k => (bad k, s)
        | .inl (w, s) =>
          match s.routSlot c r w with
          | (.inl r, s) => State.routRun n s c r
          | (.inr 0, s) => (⟨false, 0, r.count + 1, ((r.th.settle r.clk)).v, r.held⟩, s)
          | (.inr k, s) => (⟨k == 16, k, r.count, [], []⟩, s)

/-- The stores a routine held, applied to its line in one step (R275). -/
def State.routStores (s : State) (t : TRef) (held : List (Nat × List Byte)) (bypass : Bool) : State :=
  match held with
  | [] => s
  | h :: l =>
    let lo := l.foldl (fun n x => Nat.min n x.1) h.1
    let hi := l.foldl (fun n x => Nat.max n (x.1 + x.2.length)) (h.1 + h.2.length)
    let m := held.foldl (fun (m : Memory) x => m.headPut x.1 x.2.length t true) s.mem
    ({ s with mem := m } : State).perform lo (held.foldl (fun b x => overlay lo b x.1 x.2) (s.mem.visBytes lo (hi - lo))) bypass

/-- `acall` at its slice: the routine as one step on its line, its status and its results (R275, R276). -/
def State.acallNow (s0 : State) (o : Op) (pa : Nat) (va entry : W64) (root : Nat) (args : List W32) (dst res : Nat)
    (bypass : Bool) : State :=
  let line := pa / 128 * 128
  let s := (s0.sliceBefore o line 128).evict line 128
  let c : RoutCtx := ⟨va.toNat, pa, paDie pa, root, s.fetchStamp o.thr⟩
  let v := [va.extractLsb' 0 32, va.extractLsb' 32 32] ++ args ++ List.replicate (30 - args.length) 0
  let r : Routine := ⟨{ Thread.blank with v := v, pc := entry }, 0, Header.reset, [], 0⟩
  let out := if entry = 0 then ((⟨false, 1, 0, [], []⟩ : RoutEnd), s) else s.routRun 70 c r
  let e := out.1
  if e.wait then s0 else
  let s := out.2.routStores o.thr e.held bypass
  let s := s.l1Drop o.core line 128
  let status := BitVec.ofNat 32 (e.code + 16 * e.count)
  s.sliceDone o (.v dst status :: (List.range res).map fun i => Wr.v (dst + 1 + i) (if e.code = 0 then e.v.getD (2 + i) 0 else 0))

/-- One operation of the service wave. -/
def State.sliceNow (s : State) (o : Op) : State :=
  match o.kind with
  | .atomic _ m dst => s.atomicNow o m dst
  | .acall _ pa va entry root args dst res b => s.acallNow o pa va entry root args dst res b
  | _ => s

/-- What is performed before any step of a run: the writes that its operations owe to their words, so that none of them
falls between two steps (R271, R272). A routine on a line owns the whole line. -/
def State.sliceOwn (s : State) (x : Op) : State :=
  match x.kind.slice with
  | some (pa, n, _) =>
    if n == 4 && x.kind.atomicAt.any (fun a => a.2 == 128) then s.sliceBefore x (pa / 128 * 128) 128 else s.sliceBefore x pa n
  | none => s

/-- The run of an operation performed as consecutive steps, where each of its members can be (R272). -/
def State.sliceStep (s : State) (o : Op) : Option State :=
  let run := s.sliceRun o
  if run.isEmpty || run.any (fun x => s.deferred x || !s.sliceEnabled x) then none
  else
    some (run.foldl (fun s x => s.sliceNow x) (run.foldl (fun s x => s.sliceOwn x) s))

def execAtOperation (op : Nat) (s : State) : Host.Outcome State Fault Refusal :=
  match s.op? op with
  | some o =>
    match o.kind with
    | .atomic _ _ _ =>
      match s.sliceStep o with
      | some s' => .next s'
      | none => .next s
    | _ => .next s
  | none => .next s

def execAcallRoutine (op : Nat) (s : State) : Host.Outcome State Fault Refusal :=
  match s.op? op with
  | some o =>
    match o.kind with
    | .acall _ _ _ _ _ _ _ _ _ =>
      match s.sliceStep o with
      | some s' => .next s'
      | none => .next s
    | _ => .next s
  | none => .next s

end Sys2Proof.Machine
end

