-- ==== Sys2Proof/Machine/Window.lean ====
section
/-! DEFINITION. How the engines reach memory: translation at user level with a status instead of a trap
(R18, R23, R235, R237), reads and writes of a place in memory, in a scratchpad or in the on-chip window
(R17, R19 to R24), and moving runs of bits between places (R238 to R243, R254). -/

set_option linter.unusedVariables false

namespace Sys2Proof.Machine

/-! The control kind (R22). -/

/-- CORE_SLOTS (R22). -/
def State.coreSlots (s : State) (core : Nat) : W32 :=
  (List.range 32).foldl (fun m i => if (s.slotWave core i).isSome then m ||| (1 : W32) <<< i else m) 0

/-- A byte of the control kind as it reads. -/
def State.ctlByte (s : State) (core off : Nat) : Byte :=
  let reg : W64 := match off / 8 with
    | 0 => BitVec.ofNat 64 core
    | 1 => (s.coreSlots core).zeroExtend 64
    | 3 => ((s.coreAt core).stat).zeroExtend 64
    | _ => 0
  reg.extractLsb' (8 * (off % 8)) 8

/-- A head handed to a request engine (R230): kept, or discarded with CORE_STAT[2]. -/
def State.kickHead (s : State) (core : Nat) (v : W64) (by_ : Option TRef) : State :=
  let head := (v.extractLsb' 0 19).toNat
  let slot := (v.extractLsb' 19 5).toNat
  match s.slotWave core slot with
  | none => s.setStat core 2
  | some (G, _) =>
    let size := ((s.launch? G.launch).getD Launch.blank).rc.scratchBytes
    if head % 64 != 0 || head < G.spadOff || G.spadOff + size < head + 64 then s.setStat core 2
    else s.updCore core fun k => { k with kicks := k.kicks ++ [⟨head, slot, by_, G.id⟩] }

/-- A request engine holds all the kicks it can (R231, R258). -/
def State.kickFull (s : State) (core : Nat) : Bool :=
  let k := s.coreAt core
  16 ≤ k.kicks.length + (if k.chain.isSome then 1 else 0)

/-! Reads and writes of places. -/

/-- One byte of the on-chip window; a lane that holds no thread has a register of no stated value (R20).  DESIGN CHOICE, log
entry 52. -/
def State.windowByte (s : State) (pa : Nat) : Byte :=
  match windowPlace pa with
  | .reg core slot reg lane byte =>
    match s.slotWave core slot with
    | some (G, w) =>
      match G.threads.find? fun x => x.wave == w.idx && x.lane == lane with
      | some x => (x.v.getD reg 0).extractLsb' (8 * byte) 8
      | none => Config.freeByte s.tick [0x604, pa]
    | none => 0
  | .spad core off => s.spadByte core off
  | .acc core off => ((s.accRow core (off / 64)).getD (off % 64 / 4) 0).extractLsb' (8 * (off % 4)) 8
  | .ctl core off => s.ctlByte core off
  | _ => 0

/-- What an engine finds at a place, and the state after (R79, R81, R299). -/
def State.engineRead (s : State) (r : Reader_) (p : Place) (len : Nat) (bypass : Bool) : List Byte × State :=
  match p with
  | .mem pa =>
    if paHome pa == 15 then ((List.range len).map fun i => s.windowByte (pa + i), s)
    else
      let s := s.evict pa len
      (s.mem.read r pa len, s.fillL2 pa len bypass)
  | .spad core off => (s.spadBytes core off len, s)
  | _ => (List.replicate len 0, s)

def State.engineReadOk (s : State) (p : Place) (len : Nat) (bypass : Bool) : Bool :=
  match p with
  | .mem pa => paHome pa == 15 || s.memReady pa len bypass
  | _ => true

/-- The rows a queued operation writes (R214 to R216): core, position, first physical row. -/
def MuOp.rowsAt (m : MuOp) (G : Group) : List (Nat × Nat × Nat) :=
  m.rows.map fun r => (m.core + (if r.1 then 1 else 0), r.2.1, G.accOrg + r.2.2)

/-- A queued matrix operation that will write a physical accumulator row (R216). -/
def State.rowQueued (s : State) (core row : Nat) : Bool :=
  s.cores.any fun k => k.mu.any fun m => !m.abandoned &&
    match s.group? m.group with
    | none => false
    | some G => (m.rowsAt G).any fun r => r.1 == core && r.2.2 ≤ row && row < r.2.2 + 4

/-- Whether an engine's write can land now: home ready, no matrix lock or queued row in the way, room for a kick
(R21, R218, R279, R300, R326). -/
def State.engineWriteOk (s : State) (p : Place) (len : Nat) (bypass : Bool) : Bool :=
  match p with
  | .mem pa =>
    if paHome pa == 15 then
      match windowPlace pa with
      | .spad core off => !s.spadLocked core off len
      | .acc core off => (List.range ((off % 64 + len + 63) / 64)).all fun i => !s.rowQueued core (off / 64 + i)
      | .ctl core _ => !s.kickFull core
      | _ => true
    else s.sliceReady pa len bypass
  | .spad core off => !s.spadLocked core off len
  | _ => true

/-- Bytes of an accumulator row range replaced in the committed copies (R21). -/
def State.setAccBytes (s : State) (core off : Nat) (data : List Byte) : State :=
  (data.zipIdx).foldl (fun s d =>
    let o := off + d.2
    let row := s.accRow core (o / 64)
    let w := toW32 (overlay 0 (bytes4 (row.getD (o % 64 / 4) 0)) (o % 4) [d.1])
    s.setAccRow core (o / 64) (row.set (o % 64 / 4) w)) s

/-- A write of the control kind (R22): CORE_KICK takes a head, CORE_STAT clears the bits written one.  DEDUCED, log entry 53. -/
def State.ctlWrite (s : State) (core off : Nat) (data : List Byte) : State :=
  let at_ := fun (reg n : Nat) => bytesToNat (overlay reg (List.replicate n 0) off data)
  let s := if overlapsAt 0x10 4 off data.length then s.kickHead core (BitVec.ofNat 64 (at_ 0x10 8)) none else s
  if overlapsAt 0x18 4 off data.length then
    s.updCore core fun k => { k with stat := k.stat &&& ~~~(BitVec.ofNat 32 (at_ 0x18 4)) } else s

/-- The whole-register parts of a window range. -/
def regWords (pa len : Nat) : List (Nat × Nat) := wordsOf pa len

/-- The group and wave that hold the register of a window address (R20). -/
def State.holderOf (s : State) (pa : Nat) : Option (Nat × Nat) :=
  match windowPlace pa with
  | .reg core slot _ _ _ => (s.slotWave core slot).map fun (w : Group × Wave) => (w.1.id, w.2.idx)
  | _ => none

/-- An engine's write takes place: in a scratchpad or the window at once, memory at its point of visibility (R81, R254), a
register word in the flight of R24, where the tag names the completion that tells of it.  DEDUCED, log entry 144. -/
def State.engineWrite (s : State) (path : Path) (core tag : Nat) (p : Place) (data : List Byte) (bypass : Bool) : State :=
  let queue := fun (s : State) (pa : Nat) (d : List Byte) =>
    s.enqueue ⟨0, path, core, pa, d, bypass, none, [], [], [], .own, tag, [], s.holderOf pa⟩
  match p with
  | .mem pa =>
    if paHome pa == 15 then
      match windowPlace pa with
      | .reg .. => ((regWords pa data.length).foldl (fun (x : State × Nat) w =>
          (queue x.1 w.1 (sliceB data x.2 w.2), x.2 + w.2)) (s, 0)).1
      | .spad c o => s.setSpad c o data
      | .acc c o => s.setAccBytes c o data
      | .ctl c o => s.ctlWrite c o data
      | _ => s
    else (s.settle pa data.length).perform pa data bypass
  | .spad c o => s.setSpad c o data
  | _ => s

/-! Translation for engines. -/

/-- How a range translated for an engine ends: physical ranges, or a status with the first address found faulty (R237). -/
inductive Xl
  | ok (rs : List Range) (s : State)
  | bad (code : Nat) (addr : Nat) (s : State)
  | wait

/-- FAULT of a refusal that R18 sets out, after which a request writes nothing; it is reported as FAULT. -/
def refused18 : Nat := 17
/-- The completion code as R237 numbers it. -/
def codeOf (c : Nat) : Nat := c % 16

/-- The status of one page at user level: 0, FAULT, NONRES, or the refusal of R18 (R23, R237). -/
def engineFault (write win : Bool) (leaf : Option W64) : Nat :=
  match leaf with
  | none => 1
  | some l =>
    if !lfV l then 1
    else if lfN l then 2
    else if !lfU l || (write && !lfW l) then 1
    else
      let pa := lfFrame l * 2 ^ 16
      if paHome pa == 15 then (if win then 0 else refused18) else if paExists pa then 0 else refused18

/-- The first status of the pages in order. -/
def firstStatus (write win : Bool) : List (Nat × Nat × Look) → Option (Nat × Nat)
  | [] => none
  | (va, _, l) :: ps => if engineFault write win l.leaf = 0 then firstStatus write win ps else some (engineFault write win l.leaf, va)

/-- A range of global memory translated for an engine of a die, through the TLBs it uses (R321). -/
def State.engineXlat (s : State) (u : TlbUser) (die root va len : Nat) (write win : Bool) (keys : List Nat) : Xl :=
  let ps := s.pages die root va len write keys
  if ps.any fun p => p.1 < 2 ^ 57 && p.2.2.wait then .wait
  else match firstStatus write win (ps.filter fun p => p.1 < 2 ^ 57) with
  | some (c, a) => .bad c a (if c = refused18 then s.markRefused ps a else s)
  | none =>
    if 2 ^ 57 < va + len then .bad 1 (Nat.max va (2 ^ 57)) s
    else
      let bad := ps.findSome? fun p =>
        let r := pageRange p
        if paHome r.pa == 15 then
          ((wordsOf r.pa r.len).find? fun w => !s.windowOk w.1).map fun w => (p.1 + (w.1 - r.pa), w.1)
        else none
      match bad with
      | some (a, pa) => .bad refused18 a (s.refuseWindow pa)
      | none =>
        if ps.any fun p => s.redirHeld u (pageRange p).pa then .wait
        else .ok (ps.map pageRange) (s.fillPages u die root ps write)

/-! Moving runs of bits. -/

def Place.plus (p : Place) (n : Nat) : Place :=
  match p with
  | .mem pa => .mem (pa + n)
  | .spad c o => .spad c (o + n)
  | p => p

/-- A stretch of bytes at a place: how many, the policy of its page, its virtual address. -/
structure Spot where
  at_ : Place
  len : Nat
  bypass : Bool
  va : Nat
  deriving DecidableEq, Repr

/-- A source or destination as stretches of bits: place, first bit, length, policy, virtual address. -/
structure Seg where
  at_ : Place
  bit : Nat
  bits : Nat
  bypass : Bool
  va : Nat
  deriving DecidableEq, Repr

/-- Consecutive stretches of bytes seen from a first bit on, for a number of bits. -/
def segsOf : List Spot → Nat → Nat → List Seg
  | [], _, _ => []
  | p :: l, bit, bits =>
    let n := Nat.min bits (p.len * 8 - bit)
    if n = 0 then [] else ⟨p.at_, bit, n, p.bypass, p.va⟩ :: segsOf l 0 (bits - n)

/-- A stretch from its bit `n` on. -/
def Seg.from_ (x : Seg) (n : Nat) : Seg :=
  { x with at_ := x.at_.plus ((x.bit + n) / 8), bit := (x.bit + n) % 8, bits := x.bits - n, va := x.va + (x.bit + n) / 8 }

/-- Two lists of stretches cut where either changes. -/
def zipSegs : Nat → List Seg → List Seg → Option Nat → List Piece
  | 0, _, _, _ => []
  | _ + 1, [], _, _ => []
  | _ + 1, _, [], _ => []
  | f + 1, a :: l, b :: m, add =>
    let n := Nat.min a.bits b.bits
    let cut := fun (x : Seg) (l : List Seg) => if n = x.bits then l else x.from_ n :: l
    ⟨a.at_, [], a.bit, b.at_, b.bit, n, add, b.bypass, a.bypass, a.va, b.va⟩ :: zipSegs f (cut a l) (cut b m) add

/-- The stretches of a translated range from a virtual address on. -/
def rangeSpots : Nat → List Range → List Spot
  | _, [] => []
  | va, r :: l => ⟨.mem r.pa, r.len, r.bypass, va⟩ :: rangeSpots (va + r.len) l

/-- Given bytes toward stretches of a destination, cyclically (R243). -/
def patSegs : List Seg → Nat → List Byte → List Piece
  | [], _, _ => []
  | b :: m, bit, bytes => ⟨.nowhere, bytes, bit, b.at_, b.bit, b.bits, none, b.bypass, false, 0, b.va⟩ :: patSegs m (bit + b.bits) bytes

/-- Bits of a piece from bit `o` on, `n` of them, as a number, and the state after the read; a piece of no source
and no bytes brings free ones (R237). -/
def State.pieceBits (s : State) (r : Reader_) (p : Piece) (o n : Nat) : Nat × State :=
  match p.src with
  | .nowhere =>
    let b := p.sbit + o
    let bytes := (List.range ((b % 8 + n + 7) / 8)).map fun i =>
      if p.bytes.isEmpty then Config.freeByte s.tick [0x603, b / 8 + i] else p.bytes.getD ((b / 8 + i) % p.bytes.length) 0
    (bytesToNat bytes / 2 ^ (b % 8) % 2 ^ n, s)
  | src =>
    let b := p.sbit + o
    let x := s.engineRead r (src.plus (b / 8)) ((b % 8 + n + 7) / 8) p.sby
    (bytesToNat x.1 / 2 ^ (b % 8) % 2 ^ n, x.2)

/-- The bytes that a run of bits makes of those standing at its destination. -/
def mergeBits (old : List Byte) (bit n x : Nat) : List Byte :=
  let o := bytesToNat old
  natToBytes old.length (o % 2 ^ bit + x * 2 ^ bit + o / 2 ^ (bit + n) * 2 ^ (bit + n))

/-- The word a scatter-add or remote reduce leaves (R241, R371): FP32, pairs of BF16, or wrapping integers. -/
def addWord (ty : Nat) (old x : W32) : W32 :=
  match ty with
  | 0 => ofF .f32 .rne false (FVal.add .rne (f32Of old) (f32Of x))
  | 1 => halves (fun a b _ => FVal.add .rne a b) old x 0
  | _ => old + x

/-- Bits `k` to `k + len - 1` of a piece as a piece. -/
def Piece.part (p : Piece) (k len : Nat) : Piece :=
  let src := match p.src with | .nowhere => (p.src, p.sbit + k) | x => (x.plus ((p.sbit + k) / 8), (p.sbit + k) % 8)
  { p with src := src.1, sbit := src.2, sva := p.sva + (p.sbit + k) / 8,
           dst := p.dst.plus ((p.dbit + k) / 8), dbit := (p.dbit + k) % 8, dva := p.dva + (p.dbit + k) / 8, bits := len }

/-- The same once its source bits have been read. -/
def Piece.given (p : Piece) (k len x : Nat) : Piece := { p.part k len with src := .nowhere, bytes := natToBytes ((len + 7) / 8) x, sbit := 0 }

/-- The words of a scatter-add or reduce at a range, each updated in one step at its home (R241, R371); the bytes of a word
that lies in the row only in part take a value no rule states.  DESIGN CHOICE, log entry 50. -/
def State.addWords (s : State) (ty pa len x : Nat) (bypass : Bool) : State :=
  (wordsOf pa len).foldl (fun s w =>
    let s := (s.evict w.1 w.2).settle w.1 w.2
    let b := BitVec.ofNat 32 (x / 2 ^ (8 * (w.1 - pa)))
    let new := if w.2 = 4 then bytes4 (addWord ty (toW32 (s.mem.visBytes w.1 4)) b)
      else (List.range w.2).map fun i => Config.freeByte s.tick [0x605, w.1 + i]
    s.perform w.1 new bypass) s

/-- Pieces that follow on each other land as one (R78, R254). -/
def State.landBits (s : State) (r : Reader_) (path : Path) (core tag : Nat) (ps : List Piece) : State :=
  match ps with
  | [] => s
  | p :: _ =>
    let x := ps.foldl (fun (y : Nat × Nat × State) q =>
      let z := y.2.2.pieceBits r q 0 q.bits
      (y.1 + z.1 * 2 ^ y.2.1, y.2.1 + q.bits, z.2)) (0, 0, s)
    let n := x.2.1
    let len := (p.dbit + n + 7) / 8
    match p.add, p.dst with
    | some ty, .mem pa => x.2.2.addWords ty pa len x.1 p.bypass
    | _, _ =>
      if p.dbit = 0 && n % 8 = 0 then x.2.2.engineWrite path core tag p.dst (natToBytes len x.1) p.bypass
      else
        let old := x.2.2.engineRead r p.dst len p.bypass
        old.2.engineWrite path core tag p.dst (mergeBits old.1 p.dbit n x.1) p.bypass

/-- Whether a piece can move now. -/
def State.pieceOk (s : State) (p : Piece) : Bool :=
  s.engineReadOk p.src ((p.sbit + p.bits + 7) / 8) p.sby && s.engineWriteOk p.dst ((p.dbit + p.bits + 7) / 8) p.bypass

/-- A register of the window that a piece names and that exists no longer: its virtual and its physical address (R20). -/
def State.pieceGone (s : State) (p : Piece) : Option (Nat × Nat) :=
  let gone := fun (at_ : Place) (bit va : Nat) => (match at_ with
    | .mem pa => if paHome pa == 15 then
          ((wordsOf pa ((bit + p.bits + 7) / 8)).find? fun (w : Nat × Nat) => !s.windowOk w.1).map fun w => (va + (w.1 - pa), w.1)
        else none
    | _ => none : Option (Nat × Nat))
  (gone p.src p.sbit p.sva).orElse fun _ => gone p.dst p.dbit p.dva

/-! Which bits land together (R24, R78, R238): whole words of the destination, whatever pieces they come from; of a source word
read in part the rest has been read with it. -/

/-- Where the space of a place stands and how far into it. -/
def Place.spot : Place → Option (Nat × Nat)
  | .mem a => some (0, a)
  | .spad c a => some (c + 1, a)
  | _ => none

/-- The bit of its aligned word at which a bit of a place stands. -/
def Place.wordBit (p : Place) (bit : Nat) : Nat := match p.spot with | some (_, a) => (8 * a + bit) % 32 | none => 0

def follows (a : Place) (bit n : Nat) (b : Place) (bit' : Nat) : Bool :=
  match a.spot, b.spot with
  | some x, some y => x.1 == y.1 && 8 * x.2 + bit + n == 8 * y.2 + bit'
  | _, _ => false

/-- A piece whose destination, or source, goes on in another piece's. -/
def Piece.leads (p q : Piece) : Bool := follows p.dst p.dbit p.bits q.dst q.dbit && p.add == q.add && p.bypass == q.bypass
def Piece.reads (p q : Piece) : Bool := follows p.src p.sbit p.bits q.src q.sbit

/-- What stands before bit `o` of piece `i` in its destination word: pieces with first bit and bits. -/
def spanBack (ps : List Piece) : Nat → Nat → Nat → List (Nat × Nat × Nat)
  | 0, _, _ => []
  | f + 1, i, o =>
    match i, ps[i]?, ps[i - 1]? with
    | j + 1, some p, some q =>
      let k := Nat.min q.bits (p.dst.wordBit p.dbit)
      if o = 0 && k != 0 && q.leads p then spanBack ps f j (q.bits - k) ++ [(j, q.bits - k, k)] else []
    | _, _, _ => []

/-- What stands after the end of piece `i` in its destination word. -/
def spanOn (ps : List Piece) : Nat → Nat → Nat → List (Nat × Nat × Nat)
  | 0, _, _ => []
  | f + 1, i, e =>
    match ps[i]?, ps[i + 1]? with
    | some p, some q =>
      let k := Nat.min q.bits ((32 - p.dst.wordBit (p.dbit + e)) % 32)
      if e = p.bits && k != 0 && p.leads q then (i + 1, 0, k) :: spanOn ps f (i + 1) k else []
    | _, _ => []

/-- Which bits land: from one aligned destination word to another of a piece, by free choice, with what else stands in
the first and the last. -/
def State.landSpan (s : State) (ps : List Piece) (i : Nat) : List (Nat × Nat × Nat) :=
  match ps[i]? with
  | none => []
  | some p =>
    let a := p.dst.wordBit p.dbit
    let words := (a + p.bits + 31) / 32
    let m := Config.choose s.tick [0x800] % words
    let j := Config.choose s.tick [0x801] % (words - m) + 1
    let o := 32 * m - a
    let e := Nat.min p.bits (32 * (m + j) - a)
    spanBack ps 32 i o ++ [(i, o, e - o)] ++ spanOn ps 32 i e

/-- The last, or first, bits of a list of pieces, as many as `k` of one piece, turned into given ones. -/
def State.tailRead (s : State) (r : Reader_) (k : Nat) (ps : List Piece) : List Piece :=
  match ps.getLast? with
  | none => ps
  | some z =>
    let n := Nat.min k z.bits
    let x := (s.pieceBits r z (z.bits - n) n).1
    ps.dropLast ++ (if n = z.bits then [] else [z.part 0 (z.bits - n)]) ++ if n = 0 then [] else [z.given (z.bits - n) n x]
def State.headRead (s : State) (r : Reader_) (k : Nat) (ps : List Piece) : List Piece :=
  match ps with
  | [] => []
  | z :: l =>
    let n := Nat.min k z.bits
    let x := (s.pieceBits r z 0 n).1
    (if n = 0 then [] else [z.given 0 n x]) ++ (if n = z.bits then [] else [z.part n (z.bits - n)]) ++ l

/-- What is left of a list of pieces once a span of them has landed. -/
def State.landLeft (s : State) (r : Reader_) (ps : List Piece) (span : List (Nat × Nat × Nat)) : List Piece :=
  match span.head?, span.getLast? with
  | some (a, o, _), some (b, e, n) =>
    match ps[a]?, ps[b]? with
    | some p, some q =>
      let before := ps.take a ++ if o = 0 then [] else [p.part 0 o]
      let after := (if e + n < q.bits then [q.part (e + n) (q.bits - e - n)] else []) ++ ps.drop (b + 1)
      let joins := o != 0 || match before.getLast? with | some z => z.reads p | none => false
      let goes := e + n < q.bits || match after.head? with | some z => q.reads z | none => false
      (if joins then s.tailRead r (p.src.wordBit (p.sbit + o)) before else before) ++
        if goes then s.headRead r ((32 - q.src.wordBit (q.sbit + e + n)) % 32) after else after
    | _, _ => ps
  | _, _ => ps

/-- Whether two pieces touch the same destination bytes. -/
def Piece.meets (p q : Piece) : Bool :=
  let lp := (p.dbit + p.bits + 7) / 8
  let lq := (q.dbit + q.bits + 7) / 8
  match p.dst, q.dst with
  | .mem a, .mem b => overlapsAt a lp b lq
  | .spad c a, .spad d b => c == d && overlapsAt a lp b lq
  | _, _ => false

end Sys2Proof.Machine
end

