-- ==== Sys2Proof/Machine/Tensor.lean ====
section
/-! DEFINITION. Tensor records (R246, R247), where their elements and scale bytes lie in each layout (R248,
R251 to R253), and the fill of elements out of bounds (R249). -/

set_option linter.unusedVariables false

namespace Sys2Proof.Machine

/-- A tensor record (R246). -/
structure Tensor where
  base : Nat
  sbase : Nat
  dims : List Nat
  strs : List Nat
  box : List Nat
  fmt : Nat
  rank : Nat
  layout : Nat
  valid : Bool
  fill : Nat
  deriving DecidableEq, Repr

def tensorOf (b : List Byte) : Tensor :=
  let f := natAt b 61 2
  { base := natAt b 0 8 % 2 ^ 57, sbase := natAt b 8 8 % 2 ^ 57,
    dims := (List.range 5).map fun i => natAt b (16 + 4 * i) 4,
    strs := (List.range 4).map fun i => natAt b (36 + 5 * i) 5,
    box := (List.range 5).map fun i => natAt b (56 + i) 1 + 1,
    fmt := bitsOf f 4 0, rank := bitsOf f 7 5, layout := bitsOf f 9 8, valid := bitAt f 10, fill := natAt b 63 1 }

/-- Element width in bits of a format code (R70, R246). -/
def fmtWidth (f : Nat) : Nat :=
  match f with
  | 0 | 1 => 16
  | 2 | 16 => 32
  | 8 | 9 => 6
  | 10 | 11 | 13 | 14 => 4
  | _ => 8

/-- Elements per step of a format (R70). -/
def fmtK (f : Nat) : Nat :=
  match fmtWidth f with
  | 32 => 32
  | 16 => 64
  | 4 => 256
  | _ => 128

/-- Formats whose scales stand in an array or stripe (codes 6 to 11). -/
def fmtArray (f : Nat) : Bool := 6 ≤ f && f ≤ 11

def Tensor.w (T : Tensor) : Nat := fmtWidth T.fmt
def Tensor.dim (T : Tensor) (d : Nat) : Nat := T.dims.getD d 1
def Tensor.str (T : Tensor) (d : Nat) : Nat := T.strs.getD (d - 1) 0
def Tensor.boxAt (T : Tensor) (d : Nat) : Nat := if d < T.rank then T.box.getD d 1 else 1

/-- A record that no rule of R247 makes invalid, at an aligned address. -/
def Tensor.ok (T : Tensor) : Bool :=
  T.valid && 1 ≤ T.rank && T.rank ≤ 5 && T.fmt ≤ 16 && T.layout != 3 &&
    ((List.range 5).all fun d => if d < T.rank then T.dim d != 0 else T.dim d == 1) &&
    (T.w < 8 || T.base % (T.w / 8) == 0) &&
    !(fmtArray T.fmt && T.layout != 1 && T.sbase == 0) &&
    !(T.fmt == 14 && (T.dim 0 % 256 != 0 || T.layout != 0)) &&
    !(T.layout == 1 && !(T.rank == 2 && (T.fmt == 0 || T.fmt == 10) && T.base % 4096 == 0 && !(T.fmt == 10 && 4096 < T.dim 0))) &&
    !(T.layout == 2 && !((T.fmt == 10 || T.fmt == 11 || T.fmt == 13) && T.dim 0 % 8 == 0 && T.base % 4 == 0 &&
      T.strs.all fun x => x % 4 == 0))

/-- Data stripes of a bank-striped row, all its stripes, and its first (R252). -/
def Tensor.dataStripes (T : Tensor) : Nat := (T.dim 0 * T.w + 1023) / 1024
def Tensor.rowStripes (T : Tensor) : Nat := T.dataStripes + (if T.fmt == 10 then 1 else 0)
def Tensor.firstStripe (T : Tensor) (r : Nat) : Nat :=
  let L := T.rowStripes
  if L ≤ 32 then
    let m := 32 / L
    32 * (r / m) + L * (r % m)
  else 32 * ((L + 31) / 32) * r
/-- Stripes the whole tensor takes, row-sets written in full (R242, R252). -/
def Tensor.allStripes (T : Tensor) : Nat :=
  let L := T.rowStripes
  if L ≤ 32 then 32 * ((T.dim 1 + 32 / L - 1) / (32 / L)) else 32 * ((L + 31) / 32) * T.dim 1

/-- The index c_d of a coordinate list. -/
def crd (c : List Nat) (d : Nat) : Nat := c.getD d 0

/-- Bytes from BASE to the start of an element's row in the strided layouts. -/
def Tensor.rowOff (T : Tensor) (c : List Nat) : Nat :=
  ((List.range (T.rank - 1)).map fun d => crd c (d + 1) * T.str (d + 1)).foldl (· + ·) 0

/-- The virtual bit address of an element (R248, R252, R253): eight times the byte address plus the bit. -/
def Tensor.elemBit (T : Tensor) (c : List Nat) : Nat :=
  let c0 := crd c 0
  match T.layout with
  | 1 => 8 * (T.base + 128 * T.firstStripe (crd c 1)) + c0 * T.w
  | 2 =>
    let j := c0 % 8
    8 * (T.base + 4 * (c0 / 8) + T.rowOff c) + 4 * (if j < 4 then 2 * j else 2 * (j - 4) + 1)
  | _ =>
    if T.fmt == 14 then 8 * (T.base + T.rowOff c + 136 * (c0 / 256)) + 4 * (c0 % 256)
    else 8 * (T.base + T.rowOff c) + c0 * T.w

/-- The virtual address of an element's scale byte, for codes 6 to 11 (R248, R252). -/
def Tensor.scaleVa (T : Tensor) (c : List Nat) : Nat :=
  let j := crd c 0 / 32
  if T.layout == 1 then T.base + 128 * (T.firstStripe (crd c 1) + T.dataStripes) + j
  else
    let rho := (List.range (T.rank - 1)).reverse.foldl (fun r d => crd c (d + 1) + T.dim (d + 1) * r) 0
    T.sbase + rho * ((T.dim 0 + 31) / 32) + j

/-- R249: in bounds. -/
def Tensor.inside (T : Tensor) (c : List Nat) : Bool := (List.range T.rank).all fun d => crd c d < T.dim d

/-- The code of an element out of bounds as bytes from which its low bits are taken (R249). -/
def Tensor.fillBytes (T : Tensor) : List Byte := List.replicate 4 (BitVec.ofNat 8 T.fill)

/-- A run of element bits: its virtual bit address, none out of bounds; where it goes in a destination; how many; out of bounds,
the bit of the fill it begins at (R249). -/
structure Run where
  src : Option Nat
  dst : Nat
  bits : Nat
  fbit : Nat
  deriving DecidableEq, Repr

/-- Runs that follow on each other in source and destination joined. -/
def joinRuns : List Run → List Run → List Run
  | [], acc => acc.reverse
  | r :: l, [] => joinRuns l [r]
  | r :: l, a :: acc =>
    match a.src, r.src with
    | some x, some y => if x + a.bits == y && a.dst + a.bits == r.dst then joinRuns l ({ a with bits := a.bits + r.bits } :: acc)
        else joinRuns l (r :: a :: acc)
    | _, _ => joinRuns l (r :: a :: acc)

/-- The runs of `n` elements along dimension 0 from coordinates `c`, toward bit `dst` on. -/
def Tensor.rowRuns (T : Tensor) (c : List Nat) (n dst : Nat) : List Run :=
  (List.range n).map fun k =>
    let e := c.set 0 (crd c 0 + k)
    ⟨if T.inside e then some (T.elemBit e) else none, dst + k * T.w, T.w, 0⟩

/-- Coordinates `c` moved by the box indices of row ρ (R239). -/
def Tensor.boxRow (T : Tensor) (c : List Nat) (rho : Nat) : List Nat :=
  let b1 := T.boxAt 1
  let b2 := T.boxAt 2
  let b3 := T.boxAt 3
  (c.zipIdx).map fun x => x.1 + match x.2 with
    | 0 => 0
    | 1 => rho % b1
    | 2 => rho / b1 % b2
    | 3 => rho / (b1 * b2) % b3
    | _ => rho / (b1 * b2 * b3)

def Tensor.boxRows (T : Tensor) : Nat := T.boxAt 1 * T.boxAt 2 * T.boxAt 3 * T.boxAt 4
/-- Bytes of a packed box row (R239). -/
def Tensor.rowBytes (T : Tensor) : Nat := (T.boxAt 0 * T.w + 7) / 8

/-- Coordinates made five long; those at or above the rank are ignored (R239). -/
def Tensor.coords (T : Tensor) (c : List Nat) : List Nat := (List.range 5).map fun d => if d < T.rank then crd c d else 0

end Sys2Proof.Machine
end

