-- ==== Sys2Proof/Machine/Matrix.lean ====
section
/-! DEFINITION. The matrix unit: opcodes 0x300 to 0x30A but the routed `mret`, and the commit of a queued operation
(R202 to R229; the step is R70 to R72). -/

set_option linter.unusedVariables false

namespace Sys2Proof.Machine

/-! Windows and quartets (R203, R204). -/

def mbBound (x : W32) : Bool := x.getLsbD 0
def mbPos (x : W32) : Nat := (x.extractLsb' 1 2).toNat
def mbNum (x : W32) : Nat := (x.extractLsb' 3 3).toNat
def mbPair (x : W32) : Bool := x.getLsbD 6
def mbFoll (x : W32) : Bool := x.getLsbD 7
def mbWord (pos num : Nat) (pair foll : Bool) : W32 :=
  BitVec.ofNat 32 (1 + 2 * pos + 8 * num + (if pair then 64 else 0) + (if foll then 128 else 0))

/-- The wave at a position of a quartet. -/
def Group.member (G : Group) (num pos : Nat) (foll : Bool) : Option Wave :=
  G.waves.find? fun w => mbBound w.mbind && mbNum w.mbind == num && mbPos w.mbind == pos && mbFoll w.mbind == foll

/-- A quartet number in use: some bound wave of it holds a live thread (R204). -/
def Group.quartetTaken (G : Group) (num : Nat) : Bool :=
  G.waves.any fun w => mbBound w.mbind && mbNum w.mbind == num && G.live w.idx != 0

/-- Operations of a quartet in a queue (R207, R208). -/
def State.quartetBusy (s : State) (g num : Nat) : Bool := s.cores.any fun k => k.mu.any fun m => m.group == g && m.quartet == num

/-- Window rows r to r + n - 1 lie in a window (R203). -/
def winHolds (w : W32 × W32) (r n : Nat) : Bool := r + n ≤ w.2.toNat - w.1.toNat

/-! Binding (R206 to R208). -/

/-- The waves that `aalloc` names: index, position, follower. -/
def aallocNames (pair : Bool) (lo hi : W32) : List (Nat × Nat × Bool) :=
  ((List.range 4).map fun p => ((lo.extractLsb' (8 * p) 8).toNat, p, false)) ++
    if pair then (List.range 4).map fun p => ((hi.extractLsb' (8 * p) 8).toNat, p, true) else []

/-- Whether a named wave can be bound (R206). -/
def Group.bindable (G : Group) (pair : Bool) (n : Nat × Nat × Bool) : Bool :=
  match G.waves.find? fun w => w.idx == n.1 with
  | none => false
  | some w => n.1 ≤ 31 && G.live w.idx != 0 && !mbBound w.mbind && w.slot / 8 == n.2.1 &&
      (!pair || (G.pair && w.core == G.lead + if n.2.2 then 1 else 0))

/-- DEDUCED, log entry 43. -/
def State.doAalloc (s : State) (t : TRef) (pair : Bool) (d a : Operand) : Lane :=
  match s.groupOf t with
  | none => .next s
  | some G =>
    let lo := s.src32 t a
    let hi := if pair then (s.src64 t a).extractLsb' 32 32 else 0
    let names := aallocNames pair lo hi
    let free := (List.range 8).find? fun q => !G.quartetTaken q
    let oneCore := (names.map fun n => ((G.waves.find? fun w => w.idx == n.1).map (·.core))).eraseDups.length
    let ok := (names.all fun n => G.bindable pair n) && (names.map (·.1)).eraseDups.length == names.length && (pair || oneCore == 1)
    if s.destLocked t d 1 then .stay s
    else match free, ok with
      | some q, true =>
        let open_ := fun (w : Wave) => if mbBound w.mbind && mbNum w.mbind == q then { w with mbind := 0 } else w
        let s := s.updGroup G.id fun G => { G with waves := G.waves.map open_ }
        let s := names.foldl (fun s n => s.updWave G.id n.1 fun w => { w with mbind := mbWord n.2.1 q pair n.2.2 }) s
        .next (s.laterAll t 4 (wrReg d (BitVec.ofNat 32 q)))
      | _, _ => .next (s.laterAll t 4 (wrReg d 0xFFFFFFFF))

def execAalloc (c : Ctl) (pair : Bool) (d a : Operand) (s : State) : Host.Outcome State Fault Refusal :=
  native c (.aalloc c pair d a) s fun s t => s.doAalloc t pair d a

/-- `awin` (R207). -/
def State.doAwin (s : State) (t : TRef) (a b e : Operand) : Lane :=
  match s.groupOf t with
  | none => .next s
  | some G =>
    let w := (s.src32 t a).toNat
    let base := s.src32 t b
    let lim := s.src32 t e
    let L := (s.launch? G.launch).getD Launch.blank
    match G.waves.find? fun x => x.idx == w with
    | none => .trap s causeWindow 0 false
    | some W =>
      let clash := G.waves.any fun x => x.idx != w && x.core == W.core && base < lim && x.accbase < x.acclim &&
        base < x.acclim && x.accbase < lim
      if (s.thread t).tid != 0 || G.live w = 0 || lim < base || L.rc.accrows < lim.toNat || clash then .trap s causeWindow 0 false
      else if mbBound W.mbind && s.quartetBusy G.id (mbNum W.mbind) then .stay s
      else
        let old := fun (n : Nat) (x : W32) => (⟨winKey w + n, x, (s.thread t).tid, false, [], s.clk⟩ : KOld)
        .next ((s.updWave G.id w fun x => { x with accbase := base, acclim := lim }).updGroup G.id fun G =>
          { G with kOld := old 0 W.accbase :: old 1 W.acclim :: G.kOld })

def execAwin (c : Ctl) (a b e : Operand) (s : State) : Host.Outcome State Fault Refusal :=
  native c (.awin c a b e) s fun s t => s.doAwin t a b e

def execAfree (c : Ctl) (a : Operand) (s : State) : Host.Outcome State Fault Refusal :=
  native c (.afree c a) s fun s t =>
    let q := (s.src32 t a).toNat
    match t.group with
    | none => .next s
    | some g =>
      if s.quartetBusy g q then .stay s
      else
        let f := fun (w : Wave) => if mbBound w.mbind && mbNum w.mbind == q && q ≤ 7 then { w with mbind := 0 } else w
        .next (s.updGroup g fun G => { G with waves := G.waves.map f })

/-! Operand layout (R211 to R213) and the step. -/

/-- The bytes of a scratchpad as the matrix unit reads them: its own queued writes over what stands there (R89, R224). -/
def State.muSpad (s : State) (core off len : Nat) : List Byte :=
  let pa := spadWindow core off
  s.mem.wq.foldl (fun b e => if e.path == .mx then overlay pa b e.pa e.data else b) (s.spadBytes core off len)

/-- The value of an element code before scaling (R52 to R56).  DEDUCED, log entry 51. -/
def elemVal (fmt x : Nat) : FVal :=
  match fmt with
  | 0 => bf16.val x
  | 1 => fp16.val x
  | 2 => f19.val (x / 2 ^ 13)
  | 3 | 6 => e4m3.val x
  | 4 | 7 => e5m2.val x
  | 5 => l8Val x
  | 8 => e3m2.val x
  | 9 => e2m3.val x
  | 10 => e2m1.val x
  | 11 => l4Val x
  | _ => qn4Val x

/-- The integer an element code stands for (R60, R70): I8, I4 and N8. -/
def elemInt (fmt x : Nat) : Int :=
  match fmt with
  | 12 => if x < 128 then x else (x : Int) - 256
  | 13 => if x < 8 then x else (x : Int) - 16
  | _ => x

/-- The value of an element under its scale record (R57, R59, R213). -/
def scaledVal (fmt k x : Nat) (rec_ : List Byte) : FVal :=
  if fmtArray fmt then
    let c := natAt rec_ (k / 32) 1
    if c == 255 then .nan else FVal.mul (elemVal fmt x) (.fin false 1 ((c : Int) - 127))
  else if fmt == 14 then
    let sj := natAt rec_ (k / 64) 1
    let S := f32Of (toW32 (sliceB rec_ 4 4))
    if sj = 0 then .fin false 0 0 else FVal.mul (FVal.mul (qn4Val x) (.fin false sj (-8))) S
  else elemVal fmt x

/-- Element k of a packed bit string. -/
def elemAt (str w k : Nat) : Nat := str / 2 ^ (k * w) % 2 ^ w

/-- Row i of A as a bit string whose element k stands at k × w (R211). -/
def aRow (region : List Byte) (ta : Bool) (w kk i : Nat) : Nat :=
  if ta then
    let all := bytesToNat region
    (List.range kk).foldl (fun acc k => acc + elemAt all w (16 * k + i) * 2 ^ (k * w)) 0
  else natAt region (128 * i) 128

/-- The register a lane of a wave supplies; zero where no thread stands (R212). -/
def Group.laneReg (G : Group) (w lane reg : Nat) : W32 :=
  match G.threads.find? fun x => x.wave == w && x.lane == lane with
  | some x => x.v.getD reg 0
  | none => 0

/-- The B registers of a set as they stand at its issue, by 32 × position + lane (R36, R212). -/
def Group.bRegs (G : Group) (num vb n : Nat) : List (List W32) :=
  ((List.range 4).map fun p =>
    let w := ((G.member num p false).map (·.idx)).getD 0
    (List.range 32).map fun lane => (List.range n).map fun i => G.laneReg w lane (vb + i)).flatten

/-- Column i of the quarter held at a position, as a bit string (R212). -/
def MuOp.bCol (m : MuOp) (pos : Nat) (tb narrow : Bool) (wb kk i : Nat) : Nat :=
  let reg := fun (lane r : Nat) => (m.breg.getD (32 * pos + lane) []).getD r 0
  if tb then
    let word := fun (q : Nat) => if narrow then reg (q / 8) (q % 8) else reg (q / 4) (q % 4)
    let all := (List.range 128).foldl (fun acc q => acc + (word q).toNat * 2 ^ (32 * q)) 0
    (List.range kk).foldl (fun acc k => acc + elemAt all wb (4 * k + i) * 2 ^ (k * wb)) 0
  else
    let word := fun (q : Nat) => if narrow then reg (q % 16) (i + if q < 16 then 0 else 4) else reg q i
    (List.range 32).foldl (fun acc q => acc + (word q).toNat * 2 ^ (32 * q)) 0

/-- The format word's fields (R209). -/
structure FmtWord where
  afmt : Nat
  bfmt : Nat
  acc : Nat
  ta : Bool
  tb : Bool
  ernd : Rnd
  esat : Bool
  eact : Nat
  ebias : Bool
  efmt : Nat
  clean : Bool
  deriving DecidableEq, Repr

def fmtWord (x : W32) : FmtWord :=
  { afmt := (x.extractLsb' 0 4).toNat, bfmt := (x.extractLsb' 4 4).toNat, acc := (x.extractLsb' 8 2).toNat,
    ta := x.getLsbD 10, tb := x.getLsbD 11, ernd := match (x.extractLsb' 12 2).toNat with | 0 => .rne | 1 => .rtz | 2 => .rup | _ => .rdn,
    esat := x.getLsbD 14, eact := (x.extractLsb' 16 3).toNat, ebias := x.getLsbD 19, efmt := (x.extractLsb' 20 4).toNat,
    clean := !x.getLsbD 15 && x.extractLsb' 24 8 == 0 }

def fmtInt (f : Nat) : Bool := f == 12 || f == 13 || f == 15

/-- The checks of R210 on an agreed word. -/
def FmtWord.stepOk (f : FmtWord) : Bool :=
  fmtInt f.afmt == fmtInt f.bfmt && (fmtInt f.afmt == (2 ≤ f.acc)) && f.clean

/-- One output row of a tile: 16 words from an A row with its scale record, the B columns and theirs, and the
incoming words (R71, R72, R214). -/
def stepRow (f : FmtWord) (arow : Nat) (arec : List Byte) (cols : List (Nat × List Byte)) (cin : List W32) : List W32 :=
  let wa := fmtWidth f.afmt
  let wb := fmtWidth f.bfmt
  let kk := Nat.min (fmtK f.afmt) (fmtK f.bfmt)
  (cols.zipIdx).map fun c =>
    let c0 := if f.acc % 2 == 1 then (0 : W32) else cin.getD c.2 0
    if 2 ≤ f.acc then
      stepInt c0 ((List.range kk).map fun k => elemInt f.afmt (elemAt arow wa k) * elemInt f.bfmt (elemAt c.1.1 wb k))
    else
      stepFloat (f32Of c0) ((List.range kk).map fun k =>
        FVal.mul (scaledVal f.afmt k (elemAt arow wa k) arec) (scaledVal f.bfmt k (elemAt c.1.1 wb k) c.1.2))

/-! `mma` and `mmp` (R210, R214, R215). -/

/-- Entries of a core's matrix queue, oldest first (R216). -/
def State.muQueue (s : State) (core : Nat) : List MuOp :=
  ((s.cores.map fun k => k.mu.filter fun m => m.core == core || (m.pair && m.core + 1 == core)).flatten).filter fun m => !m.abandoned

/-- Cycles a step holds the arrays, and cycles from issue to commit with an empty queue (R217). -/
def stepCycles (word : W32) : Nat := if (fmtWord word).afmt == 2 || (fmtWord word).bfmt == 2 then 2 else 1
def stepLatency (pair : Bool) (word : W32) : Nat := (if pair then 23 else 19) + stepCycles word

/-- The earliest cycle at which an operation that enters the queue of its core or cores commits (R216, R217). -/
def State.muDue (s : State) (core : Nat) (pair : Bool) (word : W32) : Nat :=
  let q := s.muQueue core ++ if pair then s.muQueue (core + 1) else []
  q.foldl (fun n m => Nat.max n (m.due + stepCycles word)) (s.clk + stepLatency pair word)

/-- A trap of the whole set: the members leave their park, one of them takes it. -/
def State.trapSet (s : State) (ms : List TRef) (t : TRef) (cause : Nat) (addr : W64) : State :=
  (ms.foldl (fun s t => s.updThread t fun x => { x with park := .no }) s).trap t cause addr false 0

/-- The elected thread: the lowest lane of the wave at position 0 (R214); a set of follower waves has none.  DESIGN CHOICE, log
entry 132. -/
def State.elected (s : State) (G : Group) (num : Nat) (ms : List TRef) : Option TRef :=
  match G.member num 0 false with
  | none => none
  | some w => (ms.filter fun t => (s.thread t).wave == w.idx).foldl (fun best t =>
      match best with
      | none => some t
      | some b => if (s.thread t).lane < (s.thread b).lane then some t else some b) none

/-- The lowest member, by position and lane, whose format word differs from the elected one (R210). -/
def State.dissent (s : State) (G : Group) (ms : List TRef) (e : Operand) (word : W32) : Option TRef :=
  let rank := fun (t : TRef) => mbPos (s.waveOf t).mbind * 32 + (s.thread t).lane
  (ms.filter fun t => s.src32 t e != word).foldl (fun best t =>
    match best with
    | none => some t
    | some b => if rank t < rank b then some t else some b) none

/-- DEDUCED, log entry 140: where an `mmp` outside a leader of a pair quartet stands in the order of checks. -/
def State.matrixIssue (pair : Bool) (c : Ctl) (d a b e : Operand) (s : State) (ms : List TRef) : State :=
  match ms with
  | [] => s
  | t0 :: _ =>
    match s.groupOf t0 with
    | none => s
    | some G =>
      let mb := (s.waveOf t0).mbind
      let num := mbNum mb
      let narrow := s.narrow t0
      let regs := (s.ctx t0).regs
      let vb := opNum b
      let free := fun (core : Nat) => (s.muQueue core).length < 8
      if narrow && (vb % 8 != 0 || regs < vb + 8) then ms.foldl (fun s t => s.trap t causeIllegal 0 false 0) (s.trapSet ms t0 causeIllegal 0)
      else if !mbBound mb then s.trapSet ms t0 causeWindow 0
      else match s.elected G num ms with
        | none => s.trapSet ms t0 causeWindow 0
        | some el =>
          let word := s.src32 el e
          let f := fmtWord word
          let row := (s.vreg el (opNum d)).toNat
          let addr := s.src32 el a
          let core := (s.waveOf el).core
          let setDiv := fun (s : State) (x : W32) => ms.foldl (fun s t => s.updWave G.id (s.thread t).wave fun w => { w with fmtdiv := x }) s
          let waves := (List.range 4).map fun p => (false, p, G.member num p false)
          let folls := if pair then (List.range 4).map fun p => (true, p, G.member num p true) else []
          let win := fun (w : Wave) => s.winOf (((G.threads.find? fun x => x.wave == w.idx && !x.exited).map fun x => TRef.thr G.id x.tid).getD el) w
          let region := fun (onCore : Nat) => s.spadOf G onCore addr (fmtRegion word)
          let own := fun (r : Option (Group × Nat × Nat)) => match r with | some r => r.1.id == G.id | none => false
          match s.dissent G ms e word with
          | some t =>
            setDiv (s.trapSet ms t causeFormat 0) (BitVec.ofNat 32 ((s.thread t).lane + 32 * mbPos (s.waveOf t).mbind + 256))
          | none =>
            if !f.stepOk then setDiv (s.trapSet ms el causeFormat 0) 0
            else if (pair && (!mbPair mb || mbFoll mb)) || waves.any (fun w => match w.2.2 with | some w => G.live w.idx == 0 | none => true) then
              s.trapSet ms el causeWindow 0
            else if (waves ++ folls).any fun w => match w.2.2 with | some w => !winHolds (win w) row 4 | none => true then s.trapSet ms el causeWindow 0
            else if addr.toNat % 16 != 0 || !own (region core) || (pair && !own (region (core + 1))) then
              s.trapSet ms el causeProtection (addr.zeroExtend 64)
            else if !free core || (pair && !free (core + 1)) || ms.any (fun t => s.flagFull t c || (s.advance t).isWait) then s
            else if ms.any fun t => (s.advance t).isBad then
              (ms.filter fun t => (s.advance t).isBad).foldl (fun s t => s.settleLane t (.next s))
                (ms.foldl (fun s t => s.updThread t fun x => { x with park := .no }) s)
            else
              let fl := s.flagFor c
              let tids := ms.map fun t => (s.thread t).tid
              let m : MuOp := ⟨s.nextId, G.id, core, num, pair, row, addr, vb, word, (s.thread el).tid,
                [d, a, e], (waves ++ folls).filterMap fun w => w.2.2.map fun x => (w.1, w.2.1, (win x).1.toNat + row),
                G.bRegs num vb (if narrow then 8 else 4), tids, tids.map fun i => (i, fl), G.halt.isSome, s.muDue core pair word⟩
              let s := { s with nextId := s.nextId + 1 }
              let s := s.updCore core fun k => { k with mu := k.mu ++ [m] }
              ms.foldl (fun s t =>
                let s := s.updThread t fun x => ({ x with park := .no }).flagUp fl
                s.settleLane t (.next s)) s

/-- The oldest abandoned operation of each group that has resumed enters the queue again, where it has room (R216, R227). -/
def State.reissueOne (s : State) (g : Nat) : State :=
  match (s.cores.flatMap (·.mu)).filter fun m => m.abandoned && m.group == g with
  | [] => s
  | x :: l =>
    let m := l.foldl (fun (b x : MuOp) => if x.id < b.id then x else b) x
    let free := fun (core : Nat) => (s.muQueue core).length < 8
    if free m.core && (!m.pair || free (m.core + 1)) then
      let y : MuOp := { m with id := s.nextId, abandoned := false, due := s.muDue m.core m.pair m.fmt }
      { s.updCore m.core fun k => { k with mu := (k.mu.filter fun x => x.id != m.id) ++ [y] } with nextId := s.nextId + 1 }
    else s

/-- The re-issue of abandoned operations, in their order, before a thread of the group issues (R227). -/
def State.reissueAll (s : State) : State :=
  s.groups.foldl (fun s G => if G.halt.isSome then s else (List.range 16).foldl (fun s _ => s.reissueOne G.id) s) s

def execMma (c : Ctl) (d a b e : Operand) (s : State) : Host.Outcome State Fault Refusal :=
  nativeAll c (.mma c d a b e) s fun s ms => s.matrixIssue false c d a b e ms

def execMmp (c : Ctl) (d a b e : Operand) (s : State) : Host.Outcome State Fault Refusal :=
  nativeAll c (.mmp c d a b e) s fun s ms => s.matrixIssue true c d a b e ms

/-! The commit (R214 to R216, R219). -/

/-- Scale record i of a region, from a base (R213). -/
def scaleRec (region : List Byte) (base i : Nat) : List Byte := sliceB region (base + 8 * i) 8

/-- The rows one core's arrays write: A rows `first` on of its own scratchpad, the B quarters of the leader waves. -/
def State.tileRows (s : State) (G : Group) (m : MuOp) (core : Nat) (narrow : Bool) : List (Nat × List W32) :=
  match s.spadOf G core m.addr (fmtRegion m.fmt) with
  | none => []
  | some (_, sc, off) =>
    let f := fmtWord m.fmt
    let region := s.muSpad sc off (fmtRegion m.fmt)
    let kk := Nat.min (fmtK f.afmt) (fmtK f.bfmt)
    let cols := (List.range 16).map fun j => (m.bCol (j / 4) f.tb narrow (fmtWidth f.bfmt) kk (j % 4), scaleRec region 2176 j)
    ((m.rowsAt G).filter fun w => w.1 == core).flatMap fun w =>
      (List.range 4).map fun i =>
        (w.2.2 + i, stepRow f (aRow region f.ta (fmtWidth f.afmt) kk (4 * w.2.1 + i)) (scaleRec region 2048 (4 * w.2.1 + i)) cols
          (s.accRow core (w.2.2 + i)))

/-- A row write or read that can be performed: earlier ones of its order done, for a write no older queued operation
on the row (R220). -/
def State.rowOpOk (s : State) (o : Op) : Bool :=
  !s.opsOpen o.before && match o.kind with
    | .accWrite core row _ _ => s.cores.all fun k => k.mu.all fun m => m.abandoned || o.id < m.id ||
        match s.group? m.group with
        | none => true
        | some G => (m.rowsAt G).all fun r => !(r.1 == core && r.2.2 ≤ row && row < r.2.2 + 4)
    | _ => true

/-- What an operation waits for: earlier row writes of member threads and unfinished `mld`s of the group (R216, R219), and every
`ald` of its rows that can be performed, which reads the old row (R220).  DESIGN CHOICE, log entry 133. -/
def State.muWaits (s : State) (G : Group) (m : MuOp) : Bool :=
  (s.ops.any fun o => o.id < m.id && match o.kind with
    | .accWrite core row _ _ => (m.rowsAt G).any fun r => r.1 == core && r.2.2 ≤ row && row < r.2.2 + 4
    | _ => false) ||
  s.ops.any fun o => match o.kind with
    | .mld _ c off none img =>
      [m.core, m.core + 1].any fun k => (k == m.core || m.pair) && match s.spadOf G k m.addr (fmtRegion m.fmt) with
        | some (_, sc, a) => sc == c && overlapsAt off img.length a (fmtRegion m.fmt)
        | none => false
    | .accRead core row _ _ _ => s.rowOpOk o && (m.rowsAt G).any fun r => r.1 == core && r.2.2 ≤ row && row < r.2.2 + 4
    | _ => false

/-- Rows written to the shadow copies, which then replace the committed ones in one step (R202, R214, R216). -/
def State.setShadow (s : State) (core : Nat) (rs : List (Nat × List W32)) : State :=
  s.updCore core fun k => { k with shadow := rs ++ k.shadow.filter fun x => !rs.any fun r => r.1 == x.1 }

def State.takeShadow (s : State) (core : Nat) (rows : List Nat) : State :=
  rows.foldl (fun s r =>
    match (s.coreAt core).shadow.find? fun x => x.1 == r with
    | some x => s.setAccRow core r x.2
    | none => s.setAccRow core r (List.replicate 16 0)) s

def State.matrixCommit (s : State) (G : Group) (m : MuOp) : State :=
  let narrow := (((s.launch? G.launch).getD Launch.blank).rc).narrow
  let lead := s.tileRows G m m.core narrow
  let foll := if m.pair then s.tileRows G m (m.core + 1) narrow else []
  let s := (s.setShadow m.core lead).takeShadow m.core (lead.map (·.1))
  let s := (s.setShadow (m.core + 1) foll).takeShadow (m.core + 1) (foll.map (·.1))
  let s := m.flags.foldl (fun s f => s.flagDown (.thr G.id f.1) (some f.2)) s
  s.updCore m.core fun k => { k with mu := k.mu.filter fun x => x.id != m.id }

/-- A queued operation commits when it is the oldest of its core, or of both cores of an `mmp` (R216), no earlier than
its latency allows (R217); the power arbiter may make it later. -/
def execMatrixOpCommit (op : Nat) (s : State) : Host.Outcome State Fault Refusal :=
  match (s.cores.map (·.mu)).flatten.find? fun m => m.id == op with
  | none => .next s
  | some m =>
    match s.group? m.group with
    | none => .next s
    | some G =>
      let first := fun (core : Nat) => (s.muQueue core).all fun x => m.id ≤ x.id
      if s.clk < m.due || m.abandoned || !first m.core || (m.pair && !first (m.core + 1)) || s.muWaits G m then
        .next s
      else .next (s.matrixCommit G m)

/-! Rows (R220). -/

/-- A row operand's core and physical row, or the accumulator-window fault (R203). -/
def State.withRow (s : State) (t : TRef) (r : Operand) (n : Nat) (f : Nat → Nat → Lane) : Lane :=
  match s.groupOf t with
  | none => .trap s causeWindow 0 false
  | some G =>
    let w := s.waveOf t
    let x := (s.vreg t (opNum r)).toNat
    let win := s.winOf t w
    if winHolds win x n then f w.core (G.accOrg + win.1.toNat + x) else .trap s causeWindow 0 false

/-- An access to a row follows the thread's own earlier ones, and those of lower lanes of its gang (R220). -/
def State.rowBefore (s : State) (t : TRef) (from_ core row : Nat) : List Nat :=
  (s.ops.filter fun o => (o.thr == t || from_ ≤ o.id) && match o.kind with
    | .accWrite c r _ _ => c == core && r == row
    | .accRead c r _ _ _ => c == core && r == row
    | _ => false).map (·.id)

/-- In a quantum-mode launch an access to rows follows every matrix operation of its group that stands before it: those queued
on the rows, and the sets that the last commit let go on (R94, R132, R228).  DEDUCED, log entry 133. -/
def State.rowsUnder (s : State) (t : TRef) (core row n : Nat) : Bool :=
  (s.ctx t).quant && match s.groupOf t with
  | none => false
  | some G =>
    (G.threads.any fun x => x.gset.isSome && !x.exited && x.park != .no) ||
    s.cores.any fun k => k.mu.any fun m => m.group == G.id && (m.rowsAt G).any fun r => r.1 == core && r.2.2 < row + n && row < r.2.2 + 4

def State.setBefore (s : State) (id : Nat) (l : List Nat) : State := s.updOp id fun o => { o with before := l.map fun i => (i, .wave) }

def execAzero (c : Ctl) (rows : BitVec 4) (d : Operand) (s0 : State) : Host.Outcome State Fault Refusal :=
  native c (.azero c rows d) s0 fun s t =>
    let n := rows.toNat + 1
    s.withRow t d n fun core row =>
      if s.rowsUnder t core row n then .stay s else
      .next ((List.range n).foldl (fun s i =>
        let id := s.nextId
        let b := s.rowBefore t s0.nextId core (row + i)
        (s.beginQuiet t (.accWrite core (row + i) 0 (List.replicate 16 0))).setBefore id b) s)

def execAld (c : Ctl) (first cnt : BitVec 4) (d a : Operand) (s0 : State) : Host.Outcome State Fault Refusal :=
  native c (.ald c first cnt d a) s0 fun s t =>
    let n := cnt.toNat + 1
    if s.flagFull t c || s.destLocked t d n then .stay s
    else s.withRow t a 1 fun core row =>
      if s.rowsUnder t core row 1 then .stay s else
      let id := s.nextId
      let b := s.rowBefore t s0.nextId core row
      .next ((s.begin_ t c (.accRead core row first.toNat (opNum d) n) none).setBefore id b)

def execAst (c : Ctl) (first cnt : BitVec 4) (d a : Operand) (s0 : State) : Host.Outcome State Fault Refusal :=
  native c (.ast c first cnt d a) s0 fun s t =>
    let n := cnt.toNat + 1
    if s.flagFull t c then .stay s
    else s.withRow t d 1 fun core row =>
      if s.rowsUnder t core row 1 then .stay s else
      let id := s.nextId
      let b := s.rowBefore t s0.nextId core row
      let ws := (List.range n).map fun i => s.vreg t (opNum a + i)
      .next ((s.begin_ t c (.accWrite core row first.toNat ws) none).setBefore id b)

/-! `mld` (R221). -/

/-- The runs of a tile form toward bits of its image, before translation (R221); bits past the box have none.  DEDUCED, log
entry 42. -/
def mldRuns (T : Tensor) (form : MldForm) (c : List Nat) (pos q : Nat) (narrow : Bool) : List Run :=
  let c0 := crd c 0
  let at_ := fun (k j : Nat) => (c.set 0 (c0 + k)).set 1 (crd c 1 + j)
  let scale := (List.range 16).map fun i =>
    if T.fmt == 14 then
      let sb := at_ 0 i
      let base := T.elemBit (sb.set 0 (c0 / 256 * 256))
      if T.inside sb then [(⟨some (base + 8 * 128), 64 * i, 64, 0⟩ : Run)] else [⟨none, 64 * i, 64, 0⟩]
    else (List.range (fmtK T.fmt / 32)).map fun j =>
      let e := at_ (32 * j) i
      ⟨if T.inside e then some (8 * T.scaleVa e) else none, 64 * i + 8 * j, 8, 0⟩
  match form with
  | .a => (List.range 16).map (fun i => T.rowRuns (at_ 0 i) (T.boxAt 0) (1024 * i)) |>.flatten
  | .b =>
    ((List.range (if narrow then 8 else 4)).map fun r =>
      let j := 4 * pos + r % 4
      let word := if narrow then q + 16 * (r / 4) else q
      (T.rowRuns (at_ 0 j) (T.boxAt 0) 0).filterMap fun x =>
        let lo := Nat.max x.dst (32 * word)
        let hi := Nat.min (x.dst + x.bits) (32 * word + 32)
        if lo < hi then some ⟨x.src.map fun y => y + (lo - x.dst), 32 * r + (lo - 32 * word), hi - lo, lo - x.dst⟩ else none).flatten
  | _ => scale.flatten

/-! The tensor translation engine (R250, R262). -/

/-- The tile after one of coordinates `c`: further along dimension 0, then the next boxes upward. -/
def Tensor.nextTile (T : Tensor) (c : List Nat) : Nat → Nat → List Nat
  | 0, _ => c
  | n + 1, d =>
    let x := crd c d + T.boxAt d
    if x < T.dim d || T.rank ≤ d + 1 then c.set d x else (c.set d 0) |> fun c => T.nextTile c n (d + 1)

/-- Pages a tile touches. -/
def Tensor.tilePages (T : Tensor) (c : List Nat) : List Nat :=
  (((List.range T.boxRows).map fun r => (joinRuns (T.rowRuns (T.boxRow c r) (T.boxAt 0) 0) []).filterMap fun x =>
    x.src.map fun b => (List.range ((b % 2 ^ 19 + x.bits + 2 ^ 19 - 1) / 2 ^ 19)).map fun i => b / 2 ^ 19 + i).flatten.flatten).eraseDups

/-- A page filled ahead of need, at user level; none where it cannot be translated (R250, R320). -/
def State.fillPage (s : State) (cluster root page : Nat) : Option State :=
  match s.engineXlat (.walk cluster) (cluster / 64) root (page * 2 ^ 16) 1 false false [0x700, page] with
  | .ok _ s' => some s'
  | _ => none

/-- Pages of the tiles that follow one of coordinates `c`, beyond its own and those found, up to 32 (R250). -/
def Tensor.pagesAhead (T : Tensor) (own : List Nat) : Nat → List Nat → List Nat → List Nat
  | 0, _, acc => acc
  | n + 1, c, acc =>
    let top := T.rank - 1
    if 32 ≤ acc.length || T.dim top ≤ crd c top then acc.take 32
    else
      let c := T.nextTile c 5 0
      T.pagesAhead own n c (acc ++ (T.tilePages c).filter fun p => !own.contains p && !acc.contains p)

/-- Walk-ahead from a tile whose pages are translated: so many of the further pages as the free choice says, at most 32; a page
that cannot be translated is skipped (R250). -/
def State.walkAhead (s : State) (cluster root : Nat) (T : Tensor) (c : List Nat) : State :=
  let n := Config.choose s.tick [0x701] % 33
  ((T.pagesAhead (T.tilePages c) (2 ^ 18) c []).take n).foldl (fun s p => (s.fillPage cluster root p).getD s) s

/-- Runs translated for a thread, or the trap of the first page that fails (R221); both none where a walk waits. -/
def State.mldXlat (t : TRef) (u : TlbUser) (fill : List Byte) : List Run → State → List Piece →
    Option (List Piece × State) × Option (Nat × W64 × State)
  | [], s, acc => (some (acc, s), none)
  | r :: l, s, acc =>
    match r.src with
    | none => State.mldXlat t u fill l s (acc ++ [⟨.nowhere, fill, r.fbit, .nowhere, r.dst, r.bits, none, false, false, 0, 0⟩])
    | some b =>
      match s.accessVia t u (BitVec.ofNat 64 (b / 8)) ((b % 8 + r.bits + 7) / 8) false false [b / 8] with
      | .wait => (none, none)
      | .fault k a s => (none, some (k, a, s))
      | .nonres a => (none, some (causePage, a, s))
      | .ok rs s' =>
        let segs := segsOf (rangeSpots (b / 8) rs) (b % 8) r.bits
        let ps := (segs.foldl (fun (x : List Piece × Nat) g =>
          (x.1 ++ [⟨g.at_, [], g.bit, .nowhere, x.2, g.bits, none, false, g.bypass, g.va, 0⟩], x.2 + g.bits)) ([], r.dst)).1
        State.mldXlat t u fill l s' (acc ++ ps)

/-- What an `mld` comes to: the operation that reads its tile, or its trap; a write where its destination is refused. -/
inductive MldPlan
  | go (kind : OpKind) (s : State)
  | trap (cause : Nat) (addr : W64) (write : Bool) (s : State)
  | wait (s : State)

/-- Two places of memory share a word. -/
def placesMeet : Place → Nat → Place → Nat → Bool
  | .mem a, n, .mem b, m => sameWord a n b m
  | _, _, _, _ => false

/-- No earlier matrix-unit access of the thread to a word of the place is still to be performed: a write before any access, a
read before a write (R16, R80). -/
def State.mxTurn (s : State) (t : TRef) (id : Nat) (p : Place) (len : Nat) (write : Bool) : Bool :=
  !s.ops.any fun x => x.thr == t && x.id < id && match x.kind with
    | .mret qs => qs.any fun q => placesMeet q.1 q.2.2.length p len
    | .mld rs _ _ _ _ => write && rs.any fun r => placesMeet r.src ((r.sbit + r.bits + 7) / 8) p len
    | _ => false

/-- A run of a pending `mld` that can be read now, a piece of an `mret` that can be written. -/
def State.mldReady (s : State) (o : Op) (p : Piece) : Bool :=
  let n := (p.sbit + p.bits + 7) / 8
  s.engineReadOk p.src n p.sby && s.mxTurn o.thr o.id p.src n false
def State.mretReady (s : State) (o : Op) (p : Place × Bool × List Byte) : Bool :=
  s.engineWriteOk p.1 p.2.2.length p.2.1 && s.mxTurn o.thr o.id p.1 p.2.2.length true

/-- The record read, the tile translated, the destination checked (R221).  DEDUCED, log entry 140: the order of the checks. -/
def State.mldPlan (s : State) (t : TRef) (id : Nat) (form : MldForm) (va : W64) (coords : List Nat) (A : W32) (reg : Nat) : MldPlan :=
  let x := s.ctx t
  let u : TlbUser := .walk (coreCluster x.core)
  let nreg := if s.narrow t then 8 else 4
  match s.accessVia t u va 64 false false [va.toNat] with
  | .wait => .wait s
  | .fault k f s => .trap k f false s
  | .nonres f => .trap causePage f false s
  | .ok rs s' =>
    if !rs.all fun r => s.memReady r.pa r.len r.bypass && s.mxTurn t id (.mem r.pa) r.len false then .wait s'
    else
      let got := rs.foldl (fun (p : List Byte × State) r =>
        let y := p.2.engineRead (coreReader .mx x.core) (.mem r.pa) r.len r.bypass
        (p.1 ++ y.1, y.2)) ([], s')
      let T := tensorOf got.1
      let c0 := crd coords 0
      let scaled := form == .scA || form == .scB
      let block := if T.fmt == 14 then 256 else 32
      if va.toNat % 64 != 0 || !T.ok then .trap causeProtection va false s
      else if coords.length < T.rank then .trap causeIllegal 0 false s
      else
        let cs := T.coords coords
        if 1024 < T.boxAt 0 * T.w || (scaled && (!(fmtArray T.fmt || T.fmt == 14) || c0 % block != 0)) then
          .trap causeProtection va false s
        else
          let w := s.waveOf t
          let fill := if T.fmt == 14 && scaled then List.replicate 8 0 else if scaled then [BitVec.ofNat 8 T.fill] else T.fillBytes
          let runs := joinRuns (mldRuns T form cs (w.slot / 8) (s.thread t).lane (s.narrow t)) []
          match State.mldXlat t u fill runs got.2 [] with
          | (none, some (k, f, s)) => .trap k f false s
          | (none, none) => .wait s'
          | (some (ps, s2), _) =>
            let s2 := s2.walkAhead (coreCluster x.core) x.root T cs
            if form == .b then .go (.mld ps 0 0 (some reg) (List.replicate (4 * nreg) 0)) s2
            else
              let n := if scaled then 128 else 2048
              match s.spadPlace t A n with
              | none => .trap causeProtection (A.zeroExtend 64) true s
              | some (G, core, off) =>
                if A.toNat % 16 != 0 || some G.id != t.group then .trap causeProtection (A.zeroExtend 64) true s
                else if s.spadWriteHeld t core off n then .wait s'
                else .go (.mld ps core off none (if scaled then s.freeBytes t [0x600, off] 128 else List.replicate 2048 0)) s2

/-- `mld` (R221); in quantum mode its record is read and its tile translated at the commit (R228). -/
def State.doMld (s : State) (t : TRef) (c : Ctl) (form : MldForm) (d a b e : Operand) : Lane :=
  let x := s.ctx t
  let nreg := if s.narrow t then 8 else 4
  let coords := ((List.range 5).filter fun i => opNum b + i < x.regs).map fun i => (s.vreg t (opNum b + i)).toNat
  let A := s.src32 t e
  if s.flagFull t c || s.acqOpen t || (form == .b && s.destLocked t d nreg) then .stay s
  else if form == .b && s.narrow t && (opNum d % 8 != 0 || x.regs < opNum d + 8) then .trap s causeIllegal 0 false
  else if x.quant then .next ((s.begin_ t c (.mldq form (s.src64 t a) coords A (opNum d)) none).defer t)
  else match s.mldPlan t s.nextId form (s.src64 t a) coords A (opNum d) with
    | .wait s' => .stay s'
    | .trap k f w s => .trap s k f w
    | .go kind s' => .next (s'.begin_ t c kind none)

def execMld (c : Ctl) (form : MldForm) (d a b e : Operand) (s : State) : Host.Outcome State Fault Refusal :=
  native c (.mld c form d a b e) s fun s t => s.doMld t c form d a b e

/-- Bits of an image replaced. -/
def setBits (img : List Byte) (bit n x : Nat) : List Byte :=
  let lo := bit / 8
  let len := (bit % 8 + n + 7) / 8
  let new := mergeBits (sliceB img lo len) (bit % 8) n x
  overlay 0 img lo new

/-- Runs of a pending `mld` read: as many as the free choice says, or all (R221); what cannot be read yet stays.  DESIGN CHOICE, log entry 41. -/
def State.mldStep (s : State) (o : Op) (all : Bool) : State :=
  match o.kind with
  | .mld runs core off dst img =>
    let n := if all then runs.length else Config.choose s.tick [0x601, o.id] % (runs.length + 1)
    let r := coreReader .mx o.core
    let step := fun (x : List Piece × List Byte × State) (p : Piece × Nat) =>
      if p.2 < n && x.2.2.mldReady o p.1 then
        let y := x.2.2.pieceBits r p.1 0 p.1.bits
        (x.1, setBits x.2.1 p.1.dbit p.1.bits y.1, y.2)
      else (x.1 ++ [p.1], x.2.1, x.2.2)
    let out := (runs.zipIdx).foldl step ([], img, s)
    out.2.2.updOp o.id fun x => { x with kind := .mld out.1 core off dst out.2.1 }
  | _ => s

/-! The epilogue (R222 to R224). -/

def execEpcfg (c : Ctl) (a b e : Operand) (s : State) : Host.Outcome State Fault Refusal :=
  native c (.epcfg c a b e) s fun s t =>
    let w := (s.thread t).wave
    let lead := s.gang.members.find? fun u => u.group == t.group && (s.thread u).wave == w && s.guard u c
    match t.group with
    | some g =>
      if lead == some t then .next (s.updWave g w fun W => { W with bias := s.src32 t a, scale := s.src32 t b, stride := s.src32 t e })
      else .next s
    | none => .next s

/-- One output element of the epilogue before packing (R223). -/
def epilogueElem (f : FmtWord) (scale bias x : W32) : Nat :=
  let v := if 2 ≤ f.acc then FVal.ofInt x.toInt else f32Of x
  let t := FVal.mul v (f32Of scale)
  let t := if f.ebias then FVal.add f.ernd t (f32Of bias) else t
  let t := match f.eact with
    | 1 => t.max (.fin false 0 0)
    | 2 => (t.max (.fin false 0 0)).min (.fin false 6 0)
    | _ => t
  match f.efmt with
  | 0 => (fp32.round f.ernd f.esat t)
  | 1 => fp16.round f.ernd f.esat t
  | 2 => Sys2Proof.Machine.bf16.round f.ernd f.esat t
  | 3 => e4m3.round f.ernd f.esat t
  | 4 => e5m2.round f.ernd f.esat t
  | 5 => l8Round t
  | 6 => (t.toRange f.ernd (-128) 127 % 256).toNat
  | 7 => (t.toRange f.ernd 0 255).toNat
  | _ => (t.toRange f.ernd (-(2 ^ 31)) (2 ^ 31 - 1) % 2 ^ 32).toNat

/-- Bytes of one element of an output format (R209). -/
def efmtBytes (n : Nat) : Nat := match n with | 0 | 8 => 4 | 1 | 2 => 2 | _ => 1

/-- The checks of R223.  DEDUCED, log entry 141: a mode other than RNE with L8 is a fault of the format word here, not of the encoding. -/
def FmtWord.retireOk (f : FmtWord) : Bool := f.eact < 3 && f.efmt < 9 && f.clean && !(f.efmt == 5 && f.ernd != .rne)

/-- The bytes of the output rows (R223). -/
def State.epilogueRows (s : State) (f : FmtWord) (W : Wave) (bias : List W32) (row n : Nat) : List (List Byte) :=
  (List.range n).map fun i =>
    (((s.accRow W.core (row + i)).zipIdx).map fun x => natToBytes (efmtBytes f.efmt) (epilogueElem f W.scale (bias.getD x.2 0) x.1)).flatten

/-- What every `mret` reads at issue: its rows retired, or its trap (R203, R222, R223).  DEDUCED, log entry 140: the order of the
checks. -/
def State.retire (s : State) (t : TRef) (c : Ctl) (b e : Operand) (n : Nat) (go : List (List Byte) → Wave → Lane) : Lane :=
  let word := s.src32 t e
  let f := fmtWord word
  let W := s.waveOf t
  if s.flagFull t c || s.acqOpen t then .stay s
  else if !f.retireOk then
    .trap (match t.group with | some g => s.updWave g W.idx fun w => { w with fmtdiv := 0 } | none => s) causeFormat 0 false
  else s.withRow t b n fun core row =>
    let own := s.ops.any fun o => o.thr == t && match o.kind with
      | .accWrite k r _ _ => k == core && row ≤ r && r < row + n
      | _ => false
    if own || s.rowsUnder t core row n then .stay s
    else if f.ebias then
      match s.spadPlace t W.bias 64 with
      | none => .trap s causeProtection (W.bias.zeroExtend 64) false
      | some (_, bc, bo) =>
        if s.spadReadHeld t bc bo 64 then .stay s
        else go (s.epilogueRows f W ((List.range 16).map fun i => toW32 (s.spadBytes bc (bo + 4 * i) 4)) row n) W
    else go (s.epilogueRows f W [] row n) W

/-- The aligned words of bytes at a place, each with the policy of its page. -/
def wordPieces (p : Place) (bypass : Bool) (data : List Byte) : List (Place × Bool × List Byte) :=
  let cut := fun (a : Nat) (at_ : Nat → Place) => ((wordsOf a data.length).foldl (fun (x : List (Place × Bool × List Byte) × Nat) w =>
    (x.1 ++ [(at_ w.1, bypass, sliceB data x.2 w.2)], x.2 + w.2)) ([], 0)).1
  match p with
  | .mem pa => cut pa Place.mem
  | .spad core off => cut off fun o => .mem (spadWindow core o)
  | p => [(p, bypass, data)]

/-- The destinations of an unrouted `mret`, or its first trap (R224). -/
def State.retirePlaces (t : TRef) (sp : Bool) : List (W64 × List Byte) → State → List (Place × Bool × List Byte) →
    Option (List (Place × Bool × List Byte) × State) × Option (Nat × W64 × State)
  | [], s, acc => (some (acc, s), none)
  | (va, data) :: l, s, acc =>
    if sp then
      match s.spadPlace t (va.extractLsb' 0 32) data.length with
      | none => (none, some (causeProtection, (va.extractLsb' 0 32).zeroExtend 64, s))
      | some (_, core, off) => State.retirePlaces t sp l s (acc ++ wordPieces (.spad core off) false data)
    else
      match s.accessVia t (.walk (coreCluster (s.ctx t).core)) va data.length true false [va.toNat] with
      | .wait => (none, none)
      | .fault k f s => (none, some (k, f, s))
      | .nonres f => (none, some (causePage, f, s))
      | .ok rs s' =>
        let ps := (rs.foldl (fun (x : List (Place × Bool × List Byte) × Nat) r =>
          (x.1 ++ wordPieces (.mem r.pa) r.bypass (sliceB data x.2 r.len), x.2 + r.len)) ([], 0)).1
        State.retirePlaces t sp l s' (acc ++ ps)

def execMret (c : Ctl) (rows : BitVec 4) (sp : Bool) (a b e : Operand) (s : State) : Host.Outcome State Fault Refusal :=
  native c (.mret c rows sp a b e) s fun s t =>
    s.retire t c b e (rows.toNat + 1) fun out W =>
      let base := if sp then (s.src32 t a).zeroExtend 64 else s.src64 t a
      let dest := out.zipIdx.map fun r => (base + BitVec.ofNat 64 (r.2 * W.stride.toNat), r.1)
      match State.retirePlaces t sp dest s [] with
      | (none, some (k, f, s)) => .trap s k f true
      | (none, none) => .stay s
      | (some (ps, s'), _) =>
        let s2 := s'.begin_ t c (.mret ps) none
        .next (if (s.ctx t).quant then s2.defer t else s2)

/-- A write that the matrix unit's traffic carries, on its way to other paths (R16, R81, R87). -/
def State.mxWrite (s : State) (core tag pa : Nat) (data : List Byte) (bypass : Bool) : State :=
  (s.askAts pa).enqueue ⟨0, .mx, core, pa, data, bypass, none, [], [], [], .own, tag, [], s.holderOf pa⟩

/-- Pieces of an `mret` written on the MX path: as many as the free choice says, or all (R224). -/
def State.mretStep (s : State) (o : Op) (all : Bool) : State :=
  match o.kind with
  | .mret ps =>
    let n := if all then ps.length else Config.choose s.tick [0x602, o.id] % (ps.length + 1)
    let out := (ps.zipIdx).foldl (fun (x : List (Place × Bool × List Byte) × State) p =>
      if p.2 < n && x.2.mretReady o p.1 then
        match p.1.1 with
        | .mem pa => (x.1, x.2.mxWrite o.core o.id pa p.1.2.2 p.1.2.1)
        | _ => x
      else (x.1 ++ [p.1], x.2)) ([], s)
    out.2.updOp o.id fun x => { x with kind := .mret out.1 }
  | _ => s

end Sys2Proof.Machine
end

