-- ==== Sys2Proof/Machine/Copy.lean ====
section
/-! DEFINITION. Copy engines: opcodes 0x380 to 0x384, the request engine, the local request kinds, their landings and
their retirement (R230 to R265). -/

set_option linter.unusedVariables false

namespace Sys2Proof.Machine

/-! Instructions (R257 to R262). -/

def execCkick (c : Ctl) (a : Operand) (off : BitVec 12) (s : State) : Host.Outcome State Fault Refusal :=
  native c (.ckick c a off) s fun s t =>
    let A := s.spadAddr t a off
    match s.spadPlace t A 64 with
    | none => .trap s causeProtection (A.zeroExtend 64) false
    | some (_, core, o) =>
      if A.toNat % 64 != 0 || A.getLsbD 21 then .trap s causeProtection (A.zeroExtend 64) false
      else
        let v : W64 := BitVec.ofNat 64 (o + (s.waveOf t).slot * 2 ^ 19)
        if (s.ctx t).quant then .next ((s.beginQuiet t (.ckick core v)).defer t)
        else if s.kickFull core then .stay s
        else .next (s.kickHead core v (some t))

/-- The requests of a control block that have retired (R255, R259). -/
def State.blockReqs (s : State) (core off : Nat) : List Nat :=
  (s.reqs.filter fun r => r.addr == .spad core off && r.retired).map (·.id)

/-- `cpoll` (R259): R169 is checked over the bytes up to the end of those it reads.  DEDUCED, log entry 142. -/
def execCpoll (c : Ctl) (d a : Operand) (off : BitVec 12) (s : State) : Host.Outcome State Fault Refusal :=
  native c (.cpoll c d a off) s fun s t =>
    s.queueWait t (if s.loadHeld t c d 2 then .stay s
    else s.withSpad t a off 64 16 false fun s _ core o =>
      if s.spadReadHeld t core (o + 8) 8 then .stay s
      else
        let st := toW64 (s.spadBytes core (o + 8) 8)
        let id := s.nextId
        let s := s.result t c (wrTy .b64 d st)
        .next (s.updOp id fun p => { p with sees := if st.getLsbD 1 then s.blockReqs core o else [] }))

/-- `cntw` (R260): its return is an acquire of the device. -/
def execCntw (c : Ctl) (d a b : Operand) (off : BitVec 12) (s : State) : Host.Outcome State Fault Refusal :=
  native c (.cntw c d a b off) s fun s t =>
    s.queueWait t (if s.loadHeld t c d 2 then .stay s
    else s.withWord t a off 8 false fun pa s' =>
      s'.beginWait t c (.cntw pa (s.src64 t b) (opNum d) false none) (if (s.ctx t).quant then none else some .device))

/-- `cnta` (R261): one step at the home slice, a release of the device; deferred in quantum mode (R264). -/
def execCnta (c : Ctl) (a b : Operand) (off : BitVec 12) (s : State) : Host.Outcome State Fault Refusal :=
  native c (.cnta c a b off) s fun s t =>
    if s.accessHeld t then .stay s
    else s.withRange t a off 8 true fun r s' =>
      let m : Rmw := ⟨.add, .n64, r.pa, (s.src32 t b).zeroExtend 64, 0, r.bypass⟩
      .next (s'.sendAtomic t c (s.addr t a off) 8 (.atomic s.tick m none) .rel .device false)

/-- `trec` (R262). -/
def execTrec (c : Ctl) (a b : Operand) (s : State) : Host.Outcome State Fault Refusal :=
  native c (.trec c a b) s fun s t =>
    let x := s.ctx t
    let va := s.src64 t a
    if x.regs < opNum b + 5 then .trap s causeIllegal 0 false
    else if x.quant || va.toNat % 64 != 0 || 2 ^ 57 ≤ va.toNat then .next s
    else match s.engineXlat (.walk (coreCluster x.core)) x.die x.root va.toNat 64 false false [va.toNat] with
      | .bad _ _ _ | .wait => .next s
      | .ok rs s1 =>
        if !rs.all fun r => s1.memReady r.pa r.len r.bypass then .next s
        else
          let got := rs.foldl (fun (p : List Byte × State) r =>
            let y := p.2.engineRead (clusterReader x.core) (.mem r.pa) r.len r.bypass
            (p.1 ++ y.1, y.2)) ([], s1)
          let T := tensorOf got.1
          if !T.ok then .next s
          else
            let cs := T.coords ((List.range 5).map fun i => (s.vreg t (opNum b + i)).toNat)
            match (T.tilePages cs).foldlM (fun s p => s.fillPage (coreCluster x.core) x.root p) got.2 with
            | some s2 => .next (s2.walkAhead (coreCluster x.core) x.root T cs)
            | none => .next s

/-! Requests (R233 to R237). -/

def Req.kind (r : Req) : Nat := natAt r.body 0 8 % 64
def bodyEnd (b : List Byte) : Bool := bitAt (natAt b 0 8) 6
def bodyFence (b : List Byte) : Bool := bitAt (natAt b 0 8) 7
def bodyArv (b : List Byte) : Bool := bitAt (natAt b 0 8) 8
def bodyNext (b : List Byte) : W32 := BitVec.ofNat 32 (natAt b 4 4)
def bodyBv (b : List Byte) : Bool := bitAt (natAt b 16 8) 32
def bodyBar (b : List Byte) : W32 := BitVec.ofNat 32 (natAt b 16 4)
/-- An ADDR field, its reserved bits dropped (R2, R235). -/
def adrField (b : List Byte) (o : Nat) : Nat :=
  let w := natAt b o 8
  if bitAt w 63 then 2 ^ 63 + w % 2 ^ 32 else w % 2 ^ 57
def bodyLen40 (b : List Byte) (o : Nat) : Nat := natAt b o 5

/-- The scratchpad range an ADDR names for a group (R235). -/
def State.adrSpad (s : State) (group core : Nat) (w : Nat) (len : Nat) : Option (Nat × Nat) :=
  (s.group? group).bind fun G => (s.spadOf G core (BitVec.ofNat 32 w) len).map fun x => (x.2.1, x.2.2)

/-- The first address of a scratchpad range that R169 refuses (R237): its start, or the end of the allocation. -/
def State.adrSpadBad (s : State) (group core : Nat) (w : Nat) : Nat :=
  let size := (((s.group? group).bind fun G => s.launch? G.launch).map fun L => L.rc.scratchBytes).getD 0
  match s.adrSpad group core w 1 with
  | some _ => w % 2 ^ 32 + (size - w % 2 ^ 19)
  | none => w % 2 ^ 32

/-- An ADDR field translated for a request (R235). -/
inductive Adr
  | ok (ps : List Spot) (s : State)
  | bad (code addr : Nat) (s : State)
  | wait

def Req.die (r : Req) : Nat := coreDie r.core

/-- The TLB a request goes through: its cluster's (R250, R321). -/
def Req.tlb (r : Req) : TlbUser := .walk r.cluster

/-- The places of `len` bytes from an ADDR on; an address past 2^57 - 1 gives FAULT (R168, R237).  DEDUCED, log entry 48. -/
def State.adr (s : State) (r : Req) (w len : Nat) (write win : Bool) : Adr :=
  if bitAt w 63 then
    match s.adrSpad r.group r.core w len with
      | some (core, off) => .ok [⟨.spad core off, len, false, 0⟩] s
      | none => .bad 1 (s.adrSpadBad r.group r.core w) s
  else if 2 ^ 57 ≤ w then .bad 1 (w % 2 ^ 57) s
  else match s.engineXlat r.tlb r.die r.root (w % 2 ^ 57) len write win [r.id, w] with
    | .ok rs s => .ok (rangeSpots (w % 2 ^ 57) rs) s
    | .bad c a s => .bad c a s
    | .wait => .wait

/-- Bytes read at translated places, each ready (R240). -/
def State.readPlaces (s : State) (r : Req) (ps : List Spot) : List Byte × State :=
  ps.foldl (fun (x : List Byte × State) p =>
    let y := x.2.engineRead (clusterReader r.core) p.at_ p.len p.bypass
    (x.1 ++ y.1, y.2)) ([], s)

/-- DEDUCED, log entry 45. -/
def State.placesReady (s : State) (ps : List Spot) : Bool := ps.all fun p => s.engineReadOk p.at_ p.len p.bypass

/-- What a request comes to when it begins. -/
inductive Plan_
  /-- Its pieces and landing total. -/
  | go (pieces : List Piece) (total : Nat) (s : State)
  /-- Its status, with the pieces that leave its destination unspecified (R237). -/
  | fail (code addr : Nat) (pieces : List Piece) (total : Nat) (s : State)
  /-- A word it has to read first cannot be read now. -/
  | wait (s : State)

/-- Free bytes over what a failed request may have written of a range; none after a status that writes nothing (R18, R237).
DESIGN CHOICE, log entry 41. -/
def State.looseBytes (s : State) (r : Req) (code w len : Nat) (win : Bool) : List Piece :=
  let loose := fun (ps : List Spot) (n : Nat) => patSegs (segsOf ps 0 (8 * n)) 0 []
  if code = refused18 then []
  else if bitAt w 63 then
    match s.adr r w len true win with
    | .ok ps _ => loose ps len
    | _ => []
  else ((splitPages (w % 2 ^ 57) len).map fun p => match s.adr r p.1 p.2 true win with
    | .ok ps _ => loose ps p.2
    | _ => []).flatten

/-- What stretches of bits come to: pieces, the status of the first that fails, or a walk that waits. -/
inductive Moved
  | ok (ps : List Piece) (s : State)
  | bad (code addr : Nat) (s : State)
  | wait

/-- The ADDR of a byte `n` bytes after another. -/
def adrPlus (w n : Nat) : Nat := if bitAt w 63 then 2 ^ 63 + (w % 2 ^ 32 + n) % 2 ^ 32 else if w + n < 2 ^ 57 then w + n else 2 ^ 57 + (w + n) % 2 ^ 57

/-- Stretches of bits from a bit of an ADDR on, handed on where they translate. -/
def State.adrSegs (s : State) (r : Req) (w bit bits : Nat) (write win : Bool) (go : List Seg → State → Moved) : Moved :=
  match s.adr r (adrPlus w (bit / 8)) ((bit % 8 + bits + 7) / 8) write win with
  | .ok ps s => go (segsOf ps (bit % 8) bits) s
  | .bad c a s => .bad c a s
  | .wait => .wait

/-- The bit of a stretch at which the byte of a faulty address first takes part. -/
def faultBit (w bit a : Nat) : Nat :=
  let base := adrPlus w (bit / 8)
  let n := if bitAt base 63 then a % 2 ^ 32 - base % 2 ^ 32 else a - base % 2 ^ 57
  8 * n - bit % 8

/-- Bits moved between two ADDRs, handed on as stretches; of two faulty addresses the one that comes first in the data (R237), of
two that come at the same bit the source.  DEDUCED, log entry 142. -/
def State.adrBoth (s : State) (r : Req) (src sbit dst dbit bits : Nat) (win : Bool) (go : List Piece → State → Moved) : Moved :=
  match s.adrSegs r src sbit bits false win fun ss s => .ok (patSegs ss 0 []) s with
  | .wait => .wait
  | .bad c a s =>
    match s.adrSegs r dst dbit bits true win fun _ s => .ok [] s with
    | .wait => .wait
    | .bad c' a' s' => if faultBit dst dbit a' < faultBit src sbit a then .bad c' a' s' else .bad c a s
    | .ok _ _ => .bad c a s
  | .ok _ _ =>
    s.adrSegs r src sbit bits false win fun ss s => s.adrSegs r dst dbit bits true win fun ds s =>
      go (zipSegs (2 * (ss.length + ds.length)) ss ds none) s

/-- A copy of bytes between two ADDRs (R237). -/
def State.moveBytes (s : State) (r : Req) (src dst len : Nat) (win : Bool) : Plan_ :=
  match s.adrBoth r src 0 dst 0 (8 * len) win fun ps s => .ok ps s with
  | .wait => .wait s
  | .bad c a s => .fail c a (s.looseBytes r c dst len win) len s
  | .ok ps s => .go ps len s

/-- Linear copy (R238). -/
def State.planLinear (s : State) (r : Req) : Plan_ :=
  let src := adrField r.body 24
  let dst := adrField r.body 32
  let len := bodyLen40 r.body 40
  let form := fun (w : Nat) => bitAt w 63
  let low := fun (w : Nat) => if form w then w % 2 ^ 32 else w % 2 ^ 57
  if len = 0 then .fail 3 0 [] len s
  else if form src == form dst && overlapsAt (low src) len (low dst) len then .fail 4 0 [] len s
  else s.moveBytes r src dst len true

/-- Fill (R243). -/
def State.planFill (s : State) (r : Req) : Plan_ :=
  let dst := adrField r.body 24
  let len := bodyLen40 r.body 32
  if len = 0 then .fail 3 0 [] len s
  else match s.adr r dst len true true with
    | .wait => .wait s
    | .bad c a s => .fail c a (s.looseBytes r c dst len true) len s
    | .ok ps s => .go (patSegs (segsOf ps 0 (8 * len)) (8 * (dst % 4)) (sliceB r.body 40 4)) len s

/-- A record read for a request, or not yet. -/
inductive Rec_
  | ok (T : Tensor) (s : State)
  | bad (code addr : Nat) (s : State)
  | wait (s : State)

/-- A tensor record of a request; only a tensor copy reads one in the on-chip window (R235). -/
def State.record (s : State) (r : Req) (w : Nat) : Rec_ :=
  match s.adr r w 64 false (r.kind == 1) with
  | .wait => .wait s
  | .bad c a s => .bad c a s
  | .ok ps s =>
    if !s.placesReady ps then .wait s
    else
      let x := s.readPlaces r ps
      let T := tensorOf x.1
      if w % 64 != 0 || !T.ok then .bad 3 0 x.2 else .ok T x.2

/-- A run between two bit addresses of the request, or from given bytes: virtual, or in a scratchpad box. -/
structure Move where
  src : Option Nat
  dst : Nat
  bits : Nat
  fill : List Byte
  deriving DecidableEq, Repr

def joinMoves : List Move → List Move → List Move
  | [], acc => acc.reverse
  | r :: l, [] => joinMoves l [r]
  | r :: l, a :: acc =>
    match a.src, r.src with
    | some x, some y => if x + a.bits == y && a.dst + a.bits == r.dst then joinMoves l ({ a with bits := a.bits + r.bits } :: acc)
        else joinMoves l (r :: a :: acc)
    | none, none =>
      if a.dst + a.bits == r.dst && a.bits % 8 == 0 && r.bits % 8 == 0 && a.fill == r.fill then
        joinMoves l ({ a with bits := a.bits + r.bits } :: acc)
      else joinMoves l (r :: a :: acc)
    | _, _ => joinMoves l (r :: a :: acc)

/-- Moves between bit offsets of two ADDRs turned into pieces; the first status stops (R237). -/
def State.planMoves (r : Req) (src dst : Nat) (win : Bool) : List Move → State → List Piece → Moved
  | [], s, acc => .ok acc s
  | m :: l, s, acc =>
    match m.src with
    | none => s.adrSegs r dst m.dst m.bits true win fun ds s => State.planMoves r src dst win l s (acc ++ patSegs ds 0 m.fill)
    | some b => s.adrBoth r src b dst m.dst m.bits win fun ps s => State.planMoves r src dst win l s (acc ++ ps)

/-- Free bits over the destinations of moves that translate, after a status that leaves them unspecified (R18, R237). -/
def State.looseMoves (s : State) (r : Req) (code dst : Nat) (win : Bool) (ms : List Move) : List Piece :=
  if code = refused18 then []
  else (ms.map fun m => match s.adr r (adrPlus dst (m.dst / 8)) ((m.dst % 8 + m.bits + 7) / 8) true win with
    | .ok ps _ => patSegs (segsOf ps (m.dst % 8) m.bits) 0 []
    | _ => []).flatten

/-- Whether every page of destination bits is marked eligible; the pages have been translated (R237). -/
def State.pagesEligible (s : State) (root va len : Nat) : Bool :=
  (splitPages va len).all fun p => match s.walk root p.1 with
    | some (_, l) => lfBS l
    | none => false

/-- Tensor copy (R239).  DEDUCED, log entry 49. -/
def State.planTensor (s : State) (r : Req) : Plan_ :=
  let box := adrField r.body 32
  let dir := bitAt (natAt r.body 60 4) 0
  let pitch := bitsOf (natAt r.body 60 4) 31 8
  match s.record r (adrField r.body 24) with
  | .wait s => .wait s
  | .bad c a s => .fail c a [] 0 s
  | .ok T s =>
    let total := T.boxRows * T.rowBytes
    let p := if pitch = 0 then T.rowBytes else pitch
    let cs := T.coords ((List.range 5).map fun i => natAt r.body (40 + 4 * i) 4)
    let runs := fun (rho : Nat) => T.rowRuns (T.boxRow cs rho) (T.boxAt 0) (8 * rho * p)
    let moves := ((List.range T.boxRows).map fun rho => joinMoves ((runs rho).filterMap fun x =>
      x.src.map fun b => ⟨some x.dst, b, x.bits, []⟩) []).flatten
    let box_ := fun (c : Nat) (s : State) => s.looseBytes r c box ((T.boxRows - 1) * p + T.rowBytes) true
    if pitch != 0 && pitch < T.rowBytes then .fail 3 0 (if dir then s.looseMoves r 3 0 true moves else box_ 3 s) total s
    else
      if dir then
        match State.planMoves r box 0 true moves s [] with
        | .wait => .wait s
        | .bad c a s => .fail c a (s.looseMoves r c 0 true moves) total s
        | .ok ps s =>
          if T.layout = 1 && !moves.all fun m => s.pagesEligible r.root (m.dst / 8) ((m.dst % 8 + m.bits + 7) / 8) then
            .fail 5 0 (s.looseMoves r 5 0 true moves) total s
          else .go ps total (s.walkAhead r.cluster r.root T cs)
      else
        let row := fun (rho : Nat) =>
          let n := 8 * T.rowBytes - T.boxAt 0 * T.w
          joinMoves ((runs rho).map fun x => ⟨x.src, x.dst, x.bits, T.fillBytes⟩) [] ++
            if n = 0 then [] else [⟨none, 8 * rho * p + T.boxAt 0 * T.w, n, []⟩]
        match State.planMoves r 0 box true ((List.range T.boxRows).map row).flatten s [] with
        | .wait => .wait s
        | .bad c a s => .fail c a (box_ c s) total s
        | .ok ps s => .go ps total (s.walkAhead r.cluster r.root T cs)

/-- The fields of R240. -/
structure Gath where
  table : Nat
  dense : Nat
  idx : Nat
  count : Nat
  rowb : Nat
  tstr : Nat
  ix64 : Bool
  ety : Nat
  deriving DecidableEq, Repr

def gathOf (b : List Byte) : Gath :=
  let f := natAt b 60 4
  { table := adrField b 24, dense := adrField b 32, idx := adrField b 40, count := natAt b 48 4, rowb := natAt b 52 4,
    tstr := natAt b 56 4, ix64 := bitAt f 0, ety := bitsOf f 2 1 }

def Gath.ok (g : Gath) : Bool :=
  1 ≤ g.count && g.count ≤ 2 ^ 24 && 4 ≤ g.rowb && g.rowb ≤ 65536 && g.rowb % 4 == 0 && g.tstr != 0 &&
    !bitAt g.table 63

/-- Rows of a gather or scatter in list order, or the first status; a row that a scatter-add skips is not touched. -/
def State.planRows (r : Req) (g : Gath) (scatter : Bool) : List (Nat × Nat) → State → List Piece → Moved
  | [], s, acc => .ok acc s
  | (j, x) :: l, s, acc =>
    let ones := x == if g.ix64 then 2 ^ 64 - 1 else 2 ^ 32 - 1
    let row := g.table % 2 ^ 57 + x * g.tstr * 4
    if ones && scatter then State.planRows r g scatter l s acc
    else if ones then s.adrSegs r (adrPlus g.dense (j * g.rowb)) 0 (8 * g.rowb) true false fun ds s =>
      State.planRows r g scatter l s (acc ++ patSegs ds 0 [0])
    else if 2 ^ 57 ≤ row then .bad 1 (row % 2 ^ 57) s
    else if scatter then s.adrBoth r (adrPlus g.dense (j * g.rowb)) 0 row 0 (8 * g.rowb) false fun ps s =>
      match ps.find? fun p => match p.dst with | .mem pa => !paDevice pa | _ => true with
      | some p => .bad 1 p.dva s
      | none => State.planRows r g scatter l s (acc ++ ps.map fun p => { p with add := some g.ety })
    else s.adrBoth r row 0 (adrPlus g.dense (j * g.rowb)) 0 (8 * g.rowb) false fun ps s => State.planRows r g scatter l s (acc ++ ps)

def State.planGather (s : State) (r : Req) (scatter : Bool) : Plan_ :=
  let g := gathOf r.body
  let total := g.count * g.rowb
  let n := if g.ix64 then 8 else 4
  let none_ := scatter || 2 ^ 24 < g.count || 65536 < g.rowb
  let fail := fun (c a : Nat) (s : State) => Plan_.fail c a (if none_ then [] else s.looseBytes r c g.dense total false) total s
  if !g.ok || (scatter && 2 ≤ g.ety) then fail 3 0 s
  else match s.adr r g.idx (g.count * n) false false with
    | .wait => .wait s
    | .bad c a s => fail c a s
    | .ok ps s =>
      if !s.placesReady ps then .wait s
      else
        let x := s.readPlaces r ps
        let list := (List.range g.count).map fun j => (j, natAt x.1 (j * n) n)
        match State.planRows r g scatter list x.2 [] with
        | .ok ps s => .go ps total s
        | .bad c a s => fail c a s
        | .wait => .wait s

/-! Layout transforms (R242, R252). -/

/-- Every coordinate of the dimensions above 0. -/
def Tensor.rowCoords (T : Tensor) : List (List Nat) :=
  ((List.range 5).drop 1).foldl (fun acc d => (acc.map fun c => (List.range (T.dim d)).map fun i => c ++ [i]).flatten) [[0]]

/-- Moves of one destination row, elements and scale bytes. -/
def layoutRow (S D : Tensor) (tr : Bool) (c : List Nat) : List Move :=
  let from_ := fun (e : List Nat) => if tr then (e.set 0 (crd e 1)).set 1 (crd e 0) else e
  if D.fmt == 14 then [⟨some (S.elemBit (c.set 0 0)), D.elemBit (c.set 0 0), D.dim 0 / 256 * 136 * 8, []⟩]
  else
    joinMoves ((List.range (D.dim 0)).map fun k =>
      let e := c.set 0 k
      ⟨some (S.elemBit (from_ e)), D.elemBit e, D.w, []⟩) [] ++
    if fmtArray D.fmt then
      joinMoves ((List.range ((D.dim 0 + 31) / 32)).map fun j =>
        let e := c.set 0 (32 * j)
        ⟨some (8 * S.scaleVa e), 8 * D.scaleVa e, 8, []⟩) []
    else []

/-- What a bank-striped destination holds beyond elements and scales, written zero (R252). -/
def stripePads (D : Tensor) : List Move :=
  let L := D.rowStripes
  let base := 8 * D.base
  let row := fun (r : Nat) =>
    let f := base + 1024 * D.firstStripe r
    let used := D.dim 0 * D.w
    let nb := (D.dim 0 + 31) / 32
    [(⟨none, f + used, 1024 * D.dataStripes - used, [0]⟩ : Move)] ++
      if D.fmt == 10 then [(⟨none, f + 1024 * D.dataStripes + 8 * nb, 1024 - 8 * nb, [0]⟩ : Move)] else []
  let owned := fun (x : Nat) => (List.range (D.dim 1)).any fun r => D.firstStripe r ≤ x && x < D.firstStripe r + L
  let free := (List.range D.allStripes).filter fun x => !owned x
  (((List.range (D.dim 1)).map row).flatten ++ free.map fun x => (⟨none, base + 1024 * x, 1024, [0]⟩ : Move)).filter fun m => m.bits != 0

/-- Layout transform (R242); one into bank-striped form checks every page before it writes (R237). -/
def State.planLayout (s : State) (r : Req) : Plan_ :=
  let tr := bitAt (natAt r.body 40 4) 0
  match s.record r (adrField r.body 24) with
  | .wait s => .wait s
  | .bad c a s => .fail c a [] 0 s
  | .ok S s =>
    match s.record r (adrField r.body 32) with
    | .wait s => .wait s
    | .bad c a s => .fail c a [] 0 s
    | .ok D s =>
      let pair := S.fmt == D.fmt && if tr then S.rank == 2 && D.rank == 2 && S.dim 0 == D.dim 1 && S.dim 1 == D.dim 0 &&
            !(fmtArray S.fmt || S.fmt == 14)
          else S.rank == D.rank && S.dims == D.dims
      if !pair then
        .fail 3 0 (if D.layout = 1 then [] else s.looseMoves r 3 0 false ((D.rowCoords.map fun c => layoutRow D D false c).flatten)) 0 s
      else
        let rows := D.rowCoords
        let rowLen := if D.fmt == 14 then D.dim 0 / 256 * 136
          else (D.dim 0 * D.w + 7) / 8 + if fmtArray D.fmt then (D.dim 0 + 31) / 32 else 0
        let total := if D.layout == 1 then 128 * D.allStripes else rows.length * rowLen
        let moves := (rows.map fun c => layoutRow S D tr c).flatten
        let ahead := fun (s : State) => (s.walkAhead r.cluster r.root S [0, 0, 0, 0, 0]).walkAhead r.cluster r.root D [0, 0, 0, 0, 0]
        match State.planMoves r 0 0 false (if D.layout = 1 then moves ++ stripePads D else moves) s [] with
        | .wait => .wait s
        | .bad c a s => .fail c a (if D.layout = 1 then [] else s.looseMoves r c 0 false moves) total s
        | .ok ps s =>
          if D.layout = 1 && !s.pagesEligible r.root D.base (128 * D.allStripes) then .fail 5 0 [] total s else .go ps total (ahead s)

/-! The request engine (R231). -/

/-- The scratchpad range a request can write, first to last byte (R231); a state that waits while a record it has to read
cannot be. -/
def State.sbRange (s : State) (group core root : Nat) (r : Req) : Option (Nat × Nat × Nat) ⊕ State :=
  let at_ := fun (w len : Nat) => (.inl (if bitAt w 63 && len != 0 then (s.adrSpad group core w len).map fun x => (x.1, x.2, len) else none) :
    Option (Nat × Nat × Nat) ⊕ State)
  match r.kind with
  | 0 => at_ (adrField r.body 32) (bodyLen40 r.body 40)
  | 1 =>
    if bitAt (natAt r.body 60 4) 0 || !bitAt (adrField r.body 32) 63 then .inl none
    else match s.record r (adrField r.body 24) with
      | .ok T _ =>
        let pitch := bitsOf (natAt r.body 60 4) 31 8
        at_ (adrField r.body 32) ((T.boxRows - 1) * (if pitch = 0 then T.rowBytes else pitch) + T.rowBytes)
      | .bad _ _ _ => .inl none
      | .wait s => .inr s
  | 2 => at_ (adrField r.body 32) (natAt r.body 48 4 * natAt r.body 52 4)
  | 5 => at_ (adrField r.body 24) (bodyLen40 r.body 32)
  | 6 => at_ (adrField r.body 24) (bodyLen40 r.body 40)
  | _ => .inl none

/-- An event that has to wait happens only as far as it asks for host translations (R448). -/
def State.orAsk (s s' : State) : Host.Outcome State Fault Refusal := .next { s with boot := s'.boot }

/-- Requests in flight at a cluster's copy engine, and scoreboard entries of a core (R185, R232). -/
def State.copyLoad (s : State) (cluster : Nat) : Nat := s.reqs.countP fun r => r.cluster == cluster && !r.retired
def State.boardLoad (s : State) (core : Nat) : Nat := s.reqs.countP fun r => match r.sbr with
  | some (c, _, _) => c == core
  | none => false

/-- Retired requests that no write in flight names any more are forgotten. -/
def State.pruneReqs (s : State) : State :=
  { s with reqs := s.reqs.filter fun r => !r.retired || s.mem.wq.any fun e => e.tag == r.id }

/-- A request fetched: its body read in one step, its status word marked, its barrier object checked, its range on
the scoreboard, its place at the copy engine (R231, R233); a state that waits while its range cannot be known. -/
def State.fetchReq (s : State) (core : Nat) (k : Kick) (off chain pos : Nat) : State ⊕ State :=
  let body := s.spadBytes core off 64
  let s := s.setSpad core (off + 8) (natToBytes 8 1)
  let root := (((s.group? k.group).bind fun G => s.launch? G.launch).map (·.root)).getD 0
  let barW := bodyBar body
  let barAt := if bodyBv body then s.adrSpad k.group core barW.toNat 16 else none
  let code : Option (Nat × W64) :=
    if bodyBv body && barW.toNat % 16 != 0 then some (3, 0)
    else if bodyBv body && barAt.isNone then some (1, barW.zeroExtend 64)
    else none
  let r : Req := { id := s.nextId, chain := chain, pos := pos, core := core, cluster := coreCluster core, group := k.group, root := root,
                   addr := .spad core off, body := body, by_ := k.by_, began := false, pieces := [], code := code, total := 0, landed := 0,
                   bar := if bodyBv body && barW.toNat % 16 == 0 then barAt else none, sbr := none, xfer := none, retired := false }
  match if code.isSome then .inl none else s.sbRange k.group core root r with
  | .inl sbr => .inl { s with nextId := s.nextId + 1, reqs := s.reqs ++ [{ r with sbr := sbr }] }
  | .inr s' => .inr s'

/-- Where a chain goes on, none at its end; a bad NEXT marks CORE_STAT (R231). -/
def State.chainNext (s : State) (core : Nat) (k : Kick) (body : List Byte) : Option Nat × State :=
  if bodyEnd body then (none, s)
  else
    let n := bodyNext body
    match (s.group? k.group).bind fun G => s.spadOf G core n 64 with
    | some (T, c, o) => if n.toNat % 64 == 0 && T.id == k.group && c == core then (some o, s) else (none, s.setStat core 2)
    | none => (none, s.setStat core 2)

/-- Whether a chain ends, from the request at an offset on; a scratchpad holds 6,144 requests at most. -/
def State.chainEnds (s : State) (core : Nat) (k : Kick) : Nat → Nat → Bool
  | 0, _ => false
  | n + 1, off =>
    match (s.chainNext core k (s.spadBytes core off 64)).1 with
    | none => true
    | some o => s.chainEnds core k n o

/-- A kick whose launch has been ended while its chain's NEXT fields form a cycle: nothing further of it is fetched (R231).  DEDUCED,
log entry 142. -/
def State.chainCut (s : State) (core : Nat) (k : Kick) (off : Nat) : Bool :=
  ((((s.group? k.group).bind fun G => s.launch? G.launch).map fun L => L.outcome.isSome).getD true) && !s.chainEnds core k 6145 off

def execRequestEngineFetch (core : Nat) (s : State) : Host.Outcome State Fault Refusal :=
  let k := s.coreAt core
  let cur := match k.chain with
    | some (q, off, ch, pos) => some (q, off, ch, pos)
    | none => k.kicks.head?.map fun q => (q, q.head, s.nextId, 0)
  match cur with
  | none => .next s
  | some (q, off, ch, pos) =>
    if s.chainCut core q off then
      .next (s.updCore core fun x => { x with kicks := if k.chain.isSome then k.kicks else k.kicks.drop 1, chain := none })
    else
    let s0 := s.pruneReqs
    let s0 := if k.chain.isSome then s0 else { s0 with nextId := s0.nextId + 1 }
    let body := s0.spadBytes core off 64
    match s0.fetchReq core q off ch pos with
    | .inr s' => s.orAsk s'
    | .inl s1 =>
      let owner := ((s1.reqs.getLast?).bind (·.sbr)).map (·.1)
      if 64 ≤ s0.copyLoad (coreCluster core) || (match owner with | some c => 32 ≤ s0.boardLoad c | none => false) then
        .next s
      else
        let nx := s1.chainNext core q body
        let rest := if k.chain.isSome then k.kicks else k.kicks.drop 1
        .next (nx.2.updCore core fun x => { x with kicks := rest, chain := nx.1.map fun o => (q, o, ch, pos + 1) })

/-! Requests begin (R232). -/

/-- A request of a quantum-mode launch: the requests of its chain run one after another and land piece after piece, so that
their bytes do not depend on timing (R94).  DEDUCED, log entry 143. -/
def State.reqQuant (s : State) (r : Req) : Bool :=
  (((s.group? r.group).bind fun G => s.launch? G.launch).map fun L => L.rc.quant).getD false

/-- Requests of one chain begin in order; a fence or a barrier signal waits for the earlier ones to retire. -/
def State.canBegin (s : State) (r : Req) : Bool :=
  !r.began && !r.retired && r.code.isNone &&
    s.reqs.all fun x => x.chain != r.chain || r.pos ≤ x.pos || x.retired ||
      (!(bodyFence r.body || r.kind == 10 || s.reqQuant r) && (x.began || x.code.isSome))

/-- Bytes landed are counted at the barrier object (R196, R254). -/
def State.landCount (s : State) (r : Nat) (k : Nat) : State :=
  match s.req? r with
  | none => s
  | some q =>
    let s := s.updReq r fun q => { q with landed := q.landed + k }
    match q.bar with
    | some (core, off) => if k = 0 then s else s.setBarr core off (barrLand s.gtsc k (s.barrAt core off))
    | none => s

/-- A request whose pieces have all landed lands what remains of its total (R254). -/
def State.landRest (s : State) (r : Nat) : State :=
  match s.req? r with
  | some q => if q.pieces.isEmpty && q.xfer.isNone then s.landCount r (q.total - q.landed) else s
  | none => s

/-- The scoreboard range of a request that begins: its fetch gave it, but a tensor copy's follows the record it then reads. -/
def State.boardOf (s : State) (q : Req) : Option (Nat × Nat × Nat) :=
  if q.kind != 1 then q.sbr else match s.sbRange q.group q.core q.root q with
    | .inl x => x
    | .inr _ => q.sbr

/-- A request begins: its pieces are to land, or it has failed and its remaining count lands at once (R237, R254).  A tensor
copy that reads another record than at its fetch has its scoreboard range follow (R231). -/
def State.begun (s : State) (r : Req) (p : Plan_) : State ⊕ State :=
  match p with
  | .wait s => .inr s
  | .go ps n s =>
    let full := match s.boardOf r with
      | some (c, _, _) => r.sbr.isNone && 32 ≤ s.boardLoad c
      | none => false
    if full then .inr s
    else .inl ((s.updReq r.id fun q => { q with began := true, pieces := ps, total := n, sbr := s.boardOf q }).landRest r.id)
  | .fail c a ps n s => .inl ((s.updReq r.id fun q =>
      { q with began := true, pieces := ps, total := n, code := some (codeOf c, BitVec.ofNat 64 (a % 2 ^ 57)) }).landCount r.id (n - r.landed))

/-- A request of a kind begins by its plan, where it can. -/
def beginReq (kind req : Nat) (s : State) (plan : Req → Plan_) : Host.Outcome State Fault Refusal :=
  match s.req? req with
  | none => .next s
  | some r =>
    if r.kind != kind || !s.canBegin r then .next s
    else match s.begun r (plan r) with
      | .inl s' => .next s'
      | .inr s' => s.orAsk s'

def execLinearCopy (req : Nat) (s : State) : Host.Outcome State Fault Refusal :=
  beginReq 0 req s fun r => s.planLinear r
def execTensorCopy (req : Nat) (s : State) : Host.Outcome State Fault Refusal :=
  beginReq 1 req s fun r => s.planTensor r
def execGatherRequest (req : Nat) (s : State) : Host.Outcome State Fault Refusal :=
  beginReq 2 req s fun r => s.planGather r false
def execScatterAdd (req : Nat) (s : State) : Host.Outcome State Fault Refusal :=
  beginReq 3 req s fun r => s.planGather r true
def execLayoutTransform (req : Nat) (s : State) : Host.Outcome State Fault Refusal :=
  beginReq 4 req s fun r => s.planLayout r
def execFill (req : Nat) (s : State) : Host.Outcome State Fault Refusal :=
  beginReq 5 req s fun r => s.planFill r

/-- A barrier signal (R245). -/
def execBarrierSignal (req : Nat) (s : State) : Host.Outcome State Fault Refusal :=
  beginReq 10 req s fun r =>
    if !bodyBv r.body || natAt r.body 24 2 = 0 then .fail 3 0 [] 0 s else .go [] 0 s

/-! Landings and retirement (R254). -/

/-- A status that a request meets: the first one stands, its remaining count lands at once, it performs nothing more (R237,
R254) and increases no counter (R244). -/
def State.reqStop (s : State) (r : Req) (code addr : Nat) : State :=
  let f := fun (q : Req) => { q with pieces := [], code := q.code.orElse fun _ => some (codeOf code, BitVec.ofNat 64 (addr % 2 ^ 57)) }
  let s : State := { s with incs := s.incs.filter fun c => c.req != some r.id }
  (s.updReq r.id f).landCount r.id (r.total - r.landed)

/-- Who a request's copy engine reads as: a remote read takes what every party sees (R371), the other copies read at the
cluster (R76). -/
def Req.reader (r : Req) : Reader_ := if r.kind == 6 then ⟨.host, 4 * 256, .all⟩ else clusterReader r.core

/-- Part of a request lands from its piece `i` on (R254): what it touches must not be held, adds keep list order (R241); a
window register that is gone by now is refused (R20).  DEDUCED, log entry 58. -/
def State.landPiece (s : State) (r : Req) (i : Nat) : Option State :=
  let quant := s.reqQuant r
  let span := if quant then (r.pieces[i]?).elim [] fun p => [(i, 0, p.bits)] else s.landSpan r.pieces i
  let parts := span.filterMap fun x => (r.pieces[x.1]?).map fun p => p.part x.2.1 x.2.2
  let first := (span.head?.map (·.1)).getD i
  let edge := fun (x : Nat × Nat × Nat) (at_ : Nat → Nat) => (r.pieces[x.1]?).any fun p => p.dst.wordBit (p.dbit + at_ x.2.1) % 32 != 0
  let torn := r.kind == 6 && r.xfer.isSome && ((span.head?.any fun x => edge x id) || span.getLast?.any fun x => edge x (· + x.2.2))
  if parts.isEmpty || torn || (quant && i != 0) || (parts.any (·.add.isSome) && (r.pieces.take first).any fun q => parts.any fun p => q.meets p) then none
  else match parts.findSome? s.pieceGone with
    | some (va, pa) => some ((s.refuseWindow pa).reqStop r 1 va)
    | none =>
      if !parts.all s.pieceOk then none
      else
        let s1 := s.landBits r.reader .cp r.core r.id parts
        let k := Nat.min ((parts.map (·.bits)).foldl (· + ·) 0 / 8) (r.total - r.landed)
        some (((s1.updReq r.id fun q => { q with pieces := s.landLeft r.reader r.pieces span }).landCount r.id k).landRest r.id)

def execCopyLanding (req piece : Nat) (s : State) : Host.Outcome State Fault Refusal :=
  match s.req? req with
  | none => .next s
  | some r =>
    if r.retired then .next s
    else match s.landPiece r piece with
      | some s' => .next s'
      | none => .next s

/-- The die of a port (R362). -/
def portDie (p : Nat) : Nat := if p < 5 then 0 else if p < 9 then 1 else if p < 13 then 2 else 3

/-- The bytes that a packet carries.  DEDUCED, log entry 145. -/
def packetSize : Packet → Nat
  | .write _ _ d | .reduce _ _ _ d | .reduction _ _ _ _ d | .multicast _ _ d _ | .collective _ _ _ d | .pageCopy _ _ _ _ d _ => d.length
  | .counter _ _ => 8
  | _ => 0

/-- A port that carries packets (R363, R365). -/
def State.portUp (s : State) (p : Nat) : Bool := s.fab.ctl.getLsbD 0 && s.fab.lanes.getD p 0 == 4

/-- Whether a port may begin a packet now: a slot of the installed table permits it, or no table has to be installed (R393). -/
def State.portOpen (s : State) (p : Nat) : Bool :=
  s.portUp p && match s.fab.slotTable with
    | some b => bitAt (natAt b (8 * p) 8) (s.gtsc % 4000 * 2 / 125)
    | none => s.nranks ≤ 1024

def State.portQueue (s : State) (p : Nat) : Nat :=
  ((s.fab.xfers.filter fun x => x.port == some p && x.sentAt.isNone).map fun x => packetSize x.pkt).foldl (· + ·) 0

/-- The port that a die's copy engines choose: the one of theirs with the fewest bytes queued, of equal ones the lowest (R362). -/
def State.choosePort (s : State) (die : Nat) : Option Nat :=
  ((List.range 18).filter fun p => portDie p == die && s.portUp p).foldl (fun b p =>
    match b with
    | none => some p
    | some q => if s.portQueue p < s.portQueue q then some p else some q) none

def State.rateOf (s : State) (k : Nat) : Nat := ((s.fab.rate.find? fun x => x.1 == k).map (·.2)).getD 63
def timeOf (l : List (Nat × Nat)) (k : Nat) : Nat := ((l.find? fun x => x.1 == k).map (·.2)).getD 0

/-- A packet that waits takes its port, and begins where the port and the rate of its destination let it (R362, R373, R393): at
100 bytes per ns, (k + 1) / 64 of them toward its rank. -/
def State.injectOne (s : State) (id : Nat) : State :=
  match s.fab.xfers.find? fun x => x.id == id with
  | none => s
  | some x =>
    let port := match x.port with
      | some p => if s.portUp p then some p else s.choosePort x.die
      | none => s.choosePort x.die
    let go := (port.any fun p => s.portOpen p) && timeOf s.fab.rateFree x.dev ≤ s.gtsc
    let put := fun (y : Xfer) => { y with port := port, sentAt := if go then some s.gtsc else none }
    { s with fab := { s.fab with
      xfers := listUpd (fun y => y.id == id) put s.fab.xfers
      rateFree := if go then listSet (fun y => y.1 == x.dev) (x.dev, s.gtsc + (packetSize x.pkt * 64 + 100 * (s.rateOf x.dev + 1) - 1) / (100 * (s.rateOf x.dev + 1)))
        s.fab.rateFree else s.fab.rateFree } }

/-- Packets that have not been injected are, where they now can be. -/
def State.injectAll (s : State) : State :=
  ((s.fab.xfers.filter fun x => x.sentAt.isNone).map (·.id)).foldl State.injectOne s

/-- A transfer to the device of another rank (R327, R372) from a die's copy engines; one not injected yet is not timed. -/
def State.sendXfer (s : State) (die dev : Nat) (of : XferOf) (pkt : Packet) : State :=
  ({ s with nextId := s.nextId + 1, fab := { s.fab with xfers := s.fab.xfers ++ [⟨s.nextId, dev, of, pkt, none, die, none⟩] } } : State).injectAll

/-- A counter increased by 1 in one step at its home slice (R226, R244, R378). -/
def State.countUp (s : State) (pa : Nat) (bypass : Bool) : State :=
  let s := s.settle pa 8
  s.perform pa (bytes8 (toW64 (s.mem.visBytes pa 8) + 1)) bypass

/-- The queued writes that must have landed before a counter increase. -/
def State.incWrites (s : State) (c : CtrInc) : List Nat := (s.mem.wq.filter fun e => some e.tag == c.req).map (·.id)

/-- A counter increase after the bytes of its request have landed (R226, R244): they are visible to every party before
it, one step at the home slice, or a packet to the device that holds the counter. -/
def State.increase (s : State) (c : CtrInc) : State :=
  let s := s.forceAll (s.incWrites c) .all
  let s := match c.far with
    | some (dev, of) =>
      let s := match of with | .req r => s.updReq r fun q => { q with xfer := some 1 } | _ => s
      let die := match of with
        | .routeCtr core _ _ => core / 256
        | _ => ((c.req.bind s.req?).map Req.die).getD 0
      s.sendXfer die dev of (.counter s.nextId (BitVec.ofNat 64 c.pa))
    | none => s.countUp c.pa c.bypass
  { s with incs := s.incs.filter fun y => y.id != c.id }

/-- DEDUCED, log entry 29. -/
def execCounterIncrease (id : Nat) (s : State) : Host.Outcome State Fault Refusal :=
  match s.incs.find? fun c => c.id == id with
  | none => .next s
  | some c =>
    let early := match c.req.bind s.req? with
      | some r => !r.pieces.isEmpty || r.xfer.isSome
      | none => false
    if early || (c.far.isNone && !s.sliceReady c.pa 8 c.bypass) || !s.canForceAll (s.incWrites c) .all then
      .next s
    else .next (s.increase c)

/-- The status word of a retired request (R234). -/
def statusWord (code info : Nat) : W64 := BitVec.ofNat 64 (3 + 4 * code + 128 * (info % 2 ^ 57))

/-- Retirement and arrival (R254); without a valid BAR there is no object for an arrival.  DESIGN CHOICE, log entry 134. -/
def State.retireReq (s : State) (r : Req) : State :=
  let code := match r.code with
    | none => (0, r.total)
    | some (c, a) => (c, if c == 1 || c == 2 then a.toNat else 0)
  let s := s.updReq r.id fun q => { q with sbr := none, retired := true }
  let s := match r.addr with
    | .spad core off => s.setSpad core (off + 8) (bytes8 (statusWord code.1 code.2))
    | .mem pa => s.perform (pa + 8) (bytes8 (statusWord code.1 code.2)) false
    | _ => s
  let n := if r.kind == 10 then (if r.code.isNone then natAt r.body 24 2 else 0) else if bodyArv r.body then 1 else 0
  match r.bar with
  | some (core, off) => if n = 0 then s else s.setBarr core off (barrArriveN s.gtsc n (s.barrAt core off)).1
  | none => s

/-- A request that has run, or one of a reserved kind when it is its turn to begin, retires (R232, R236, R254). -/
def execCopyRetire (req : Nat) (s : State) : Host.Outcome State Fault Refusal :=
  match s.req? req with
  | none => .next s
  | some r =>
    let void := (11 ≤ r.kind || r.kind == 9) && s.canBegin r
    let blocked := match r.addr with | .mem pa => !s.sliceReady pa 64 false | _ => false
    if r.retired || (!r.began && r.code.isNone && !void) || !r.pieces.isEmpty || r.xfer.isSome || blocked ||
        s.incs.any (fun c => c.req == some req) then .next s
    else
      let run := s.cp.copyRun.filter fun c => c.1 != req
      .next (({ s with cp := { s.cp with copyRun := run } } : State).retireReq (if void then { r with code := some (3, 0) } else r))

end Sys2Proof.Machine
end

