-- ==== Sys2Proof/Machine/BankEngine.lean ====
section
/-! DEFINITION. The bank-group engines' commands (R280 to R291): the checks of R288, the effect of each command on
every engine of its program instance, and the end of a run. -/

set_option linter.unusedVariables false

namespace Sys2Proof.Machine

/-! Places of an engine (R280). -/

def engStack (id : Nat) : Nat := id / 256
def engNum (id : Nat) : Nat := id % 256
def engChan (id : Nat) : Nat := 32 * engStack id + engNum id / 8
def engPc (id : Nat) : Nat := engNum id / 4 % 2
def engBg (id : Nat) : Nat := engNum id % 4
/-- The address of a column of one of its banks (R251). -/
def engAddr (id row bank col : Nat) : Nat := hbmAddr (engStack id) (engNum id / 8) (engPc id) (engBg id) row bank col

/-- The run an engine performs: launch, instance number, instance, the leader and the engines of the instance. -/
structure BgRun where
  l : BankLaunch
  k : Nat
  i : Inst
  lead : Engine
  set : List Engine
  deriving DecidableEq, Repr

/-- The run whose command is issued now: its leader's turn (R290). -/
def State.bgRun (s : State) : Option BgRun :=
  let e := s.engine s.bank.cur
  e.run.bind fun r => (s.bankLaunch? r.1).bind fun l => (l.insts[r.2]?).bind fun i =>
    if i.status.isSome || i.engines.head? != some e.id then none else some ⟨l, r.2, i, e, i.engines.map s.engine⟩

/-- Row ownership entries of a launch that cover a row of an engine. -/
def State.rowKinds (s : State) (l : Nat) (id row : Nat) : List RotKind :=
  (s.bank.rot.filter fun e => e.launch == l && e.chan == engChan id && e.rlo ≤ row && row ≤ e.rhi &&
    e.pcm.getLsbD (engPc id) && e.bgm.getLsbD (engBg id)).map (·.kind)

/-- The repair map (R307). -/
def rowEligible (id row : Nat) : Bool := Config.eligible (engStack id) (engNum id / 8) (engPc id) (engBg id) row

/-! Status codes (R297). -/
def bsIllegal : Nat := 1
def bsOverlap : Nat := 2
def bsIneligible : Nat := 3
def bsRange : Nat := 4
def bsFault : Nat := 5
def bsNonres : Nat := 6
def bsRowclosed : Nat := 7
def bsLoop : Nat := 8
def bsDataerr : Nat := 9
def bsLimit : Nat := 10
def bsBaddesc : Nat := 11

/-! Ends of runs. -/

def State.updInst (s : State) (l k : Nat) (f : Inst → Inst) : State := s.updBank l fun b => { b with insts := b.insts.modify k f }

/-- The instance stops (R288): each engine that failed with its own status, the others with that of the lowest; what the
run wrote is unspecified. -/
def State.bgStop (s : State) (r : BgRun) (bad : List (Nat × Nat)) : State :=
  match bad with
  | [] => s
  | b0 :: _ =>
    let low := bad.foldl (fun m b => if b.1 < m.1 then b else m) b0
    let put := fun (s : State) (e : Engine) =>
      let code := ((bad.find? fun b => b.1 == e.id).map (·.2)).getD low.2
      s.setEngine { e with run := none, lastStatus := code, lastRex := r.i.rex }
    let s := r.set.foldl put s
    let s := { s with mem := r.i.wrote.foldl (fun (m : Memory) (w : Nat × Nat) => m.dramWrite w.1 ((List.range w.2).map fun i => Config.freeByte s.tick [0x900, w.1, i])) s.mem }
    s.updInst r.l.id r.k fun i => { i with status := some low.2, bad := some low.1 }

/-- The engines of a run that fail a check on its next command, each with the status of the first it fails (R288). -/
def State.bgFails (s : State) (r : BgRun) (check : Engine → Option Nat) (reads : Engine → List Nat) : List (Nat × Nat) :=
  let test := fun (e : Engine) =>
    if 256 ≤ r.lead.pc then some bsIllegal
    else (check e).orElse fun _ =>
      if 2 ^ 24 ≤ r.i.cmds then some bsLimit
      else if s.bank.bad.contains (2 ^ 60 + e.id) || (reads e).any (fun a => s.bank.bad.contains (a / 4096)) then some bsDataerr
      else none
  r.set.filterMap fun e => (test e).map fun c => (e.id, c)

/-- One command of a run (R288, R290): the checks of every engine in order, then the effect on every engine, the next
address decided by the leader. -/
def bgCommand (s : State) (check : Engine → Option Nat) (reads : Engine → List Nat)
    (act : State → BgRun → Engine → State × Engine) (next : Engine → Nat) : Host.Outcome State Fault Refusal :=
  match s.bgRun with
  | none => .next s
  | some r =>
    let bad := s.bgFails r check reads
    if !bad.isEmpty then .next (s.bgStop r bad)
    else
      let pc := next r.lead
      let s := r.set.foldl (fun s e => let y := act s r e; y.1.setEngine { y.2 with pc := pc }) s
      .next (s.updInst r.l.id r.k fun i => { i with cmds := i.cmds + 1 })

def pcNext (e : Engine) : Nat := e.pc + 1
def noCheck (_ : Engine) : Option Nat := none
def noReads (_ : Engine) : List Nat := []

/-- Banks of a mask. -/
def banksOf (bm : BitVec 4) : List Nat := (List.range 4).filter fun b => bm.getLsbD b
def xAt (e : Engine) (x : BitVec 3) : Nat := (e.x.getD x.toNat 0).toNat
def colOf (e : Engine) (x : BitVec 3) (i : BitVec 16) : Nat := (xAt e x + i.toNat) % 32
def latchOf (e : Engine) (b : Nat) : List Byte := e.latch.getD b []
def accAt (e : Engine) (set bank lane : Nat) : W32 := e.acc.getD (64 * set + 16 * bank + lane) 0
def accPut (e : Engine) (set bank lane : Nat) (x : W32) : Engine := { e with acc := e.acc.set (64 * set + 16 * bank + lane) x }
def sextX (i : BitVec 23) : BitVec 24 := i.signExtend 24

/-- Every lane of the masked banks of a set replaced. -/
def mapLanes (e : Engine) (bm : BitVec 4) (set : Nat) (f : Nat → Nat → W32) : Engine :=
  ((banksOf bm).map fun b => (List.range 16).map fun i => (b, i)).flatten.foldl (fun y x => accPut y set x.1 x.2 (f x.1 x.2)) e

def rne (x : FVal) : W32 := toF32 .rne x
/-- BF16 element n of a byte string. -/
def bfAt (l : List Byte) (n : Nat) : FVal := bf16.val (natAt l (2 * n) 2)

/-! Rows and columns (R284, R286, R287). -/

def execBgNopc (s : State) : Host.Outcome State Fault Refusal := bgCommand s noCheck noReads (fun s _ e => (s, e)) pcNext
def execBgSync (s : State) : Host.Outcome State Fault Refusal := bgCommand s noCheck noReads (fun s _ e => (s, e)) pcNext

/-- A row opened by an instance's engine goes into the signature of a speculative run (R301). -/
def State.sigOpen (s : State) (r : BgRun) (id row : Nat) : State :=
  if !r.i.spec then s
  else
    let ch := engChan id
    let k := rowKey row (engPc id) (engBg id)
    let put := fun (i : Inst) =>
      let old := ((i.sigs.find? fun g => g.1 == ch).map (·.2)).getD 0
      { i with sigs := listSet (fun g => g.1 == ch) (ch, sigAdd old k) i.sigs }
    s.updInst r.l.id r.k put

def openCheck (s : State) (l : Nat) (e : Engine) (row : Nat) : Option Nat :=
  if row != 65535 && (s.rowKinds l e.id row).isEmpty then some bsRange
  else if !rowEligible e.id row then some bsIneligible
  else none

def runLaunch (e : Engine) : Nat := (e.run.map (·.1)).getD 0

def execBgOpen (bm : BitVec 4) (x : BitVec 3) (i : BitVec 16) (s : State) : Host.Outcome State Fault Refusal :=
  let row := fun (e : Engine) => (xAt e x + i.toNat) % 65536
  let lead := (s.bgRun.map fun r => r.l.id).getD 0
  bgCommand s (fun e => if bm = 0 then none else openCheck s lead e (row e)) noReads
    (fun s r e => ((if bm = 0 then s else s.sigOpen r e.id (row e)),
      { e with rows := e.rows.mapIdx fun b o => if bm.getLsbD b then some (row e) else o })) pcNext

def execBgClose (bm : BitVec 4) (s : State) : Host.Outcome State Fault Refusal :=
  bgCommand s noCheck noReads (fun s _ e => (s, { e with rows := e.rows.mapIdx fun b o => if bm.getLsbD b then none else o })) pcNext

/-- The checks of a column read on a bank mask (R288). -/
def readCheck (s : State) (l : Nat) (bm : BitVec 4) (e : Engine) : Option Nat :=
  let open_ := (banksOf bm).map fun b => (e.rows.getD b none)
  if open_.any (·.isNone) then some bsRowclosed
  else if open_.any fun o => match o with
      | some row => (s.rowKinds l e.id row).any fun k => k != .read
      | none => false then some bsRange
  else none

/-- The row-sets a column read touches. -/
def readRows (bm : BitVec 4) (e : Engine) : List Nat :=
  (banksOf bm).filterMap fun b => (e.rows.getD b none).map fun row => engAddr e.id row 0 0

def doRead (s : State) (bm : BitVec 4) (col : Nat) (e : Engine) : Engine :=
  (banksOf bm).foldl (fun y b =>
    let row := (e.rows.getD b none).getD 0
    { y with latch := y.latch.set b (s.mem.dramBytes (engAddr e.id row b col) 32), tags := y.tags.set b col }) e

def cmdLaunch (s : State) : Nat := (s.bgRun.map fun r => r.l.id).getD 0

def execBgRd (bm : BitVec 4) (x : BitVec 3) (i : BitVec 16) (s : State) : Host.Outcome State Fault Refusal :=
  bgCommand s (readCheck s (cmdLaunch s) bm) (readRows bm) (fun s _ e => (s, doRead s bm (colOf e x i) e)) pcNext

/-- Multiply-accumulate (R285). -/
def doMac (bm : BitVec 4) (as : BitVec 2) (f : Bool) (e : Engine) : Engine :=
  mapLanes e bm as.toNat fun b i =>
    let c := e.tags.getD b 0
    let a := f32Of (accAt e as.toNat b i)
    if f then
      let sc := (e.scl.getD (2 * b + i / 8) 0).toNat
      let s := if sc == 255 then FVal.nan else .fin false 1 ((sc : Int) - 127)
      let term := fun (j : Nat) =>
        let n := 4 * i + j
        FVal.mul (FVal.mul (e2m1.val (natAt (latchOf e b) (n / 2) 1 / 16 ^ (n % 2) % 16)) s) (bfAt e.vin (256 * (c % 2) + 64 * b + n))
      let t := (List.range 4).foldl (fun x j => FVal.add .rne x (term j)) (term 0 |> fun _ => .fin true 0 0)
      rne (FVal.add .rne a t)
    else rne (FVal.add .rne a (FVal.mul (bfAt (latchOf e b) i) (bfAt e.vin (64 * (c % 8) + 16 * b + i))))

def execBgMac (bm : BitVec 4) (as : BitVec 2) (f : Bool) (s : State) : Host.Outcome State Fault Refusal :=
  bgCommand s noCheck noReads (fun s _ e => (s, doMac bm as f e)) pcNext

def execBgRmac (bm : BitVec 4) (x : BitVec 3) (as : BitVec 2) (f : Bool) (i : BitVec 16) (s : State) : Host.Outcome State Fault Refusal :=
  bgCommand s (readCheck s (cmdLaunch s) bm) (readRows bm) (fun s _ e => (s, doMac bm as f (doRead s bm (colOf e x i) e))) pcNext

def execBgAdd (bm : BitVec 4) (as : BitVec 2) (s : State) : Host.Outcome State Fault Refusal :=
  bgCommand s noCheck noReads (fun s _ e => (s, mapLanes e bm as.toNat fun b i =>
    rne (FVal.add .rne (f32Of (accAt e as.toNat b i)) (bfAt (latchOf e b) i)))) pcNext

def execBgMax (bm : BitVec 4) (as : BitVec 2) (s : State) : Host.Outcome State Fault Refusal :=
  bgCommand s noCheck noReads (fun s _ e => (s, mapLanes e bm as.toNat fun b i =>
    rne ((f32Of (accAt e as.toNat b i)).max (bfAt (latchOf e b) i)))) pcNext

def execBgScale (bm : BitVec 4) (as : BitVec 2) (i : BitVec 16) (s : State) : Host.Outcome State Fault Refusal :=
  bgCommand s noCheck noReads (fun s _ e => (s, mapLanes e bm as.toNat fun b n =>
    rne (FVal.mul (f32Of (accAt e as.toNat b n)) (bf16.val i.toNat)))) pcNext

def execBgScaleScl (x : BitVec 3) (i : BitVec 16) (s : State) : Host.Outcome State Fault Refusal :=
  bgCommand s noCheck noReads (fun s _ e =>
    let k := (xAt e x + i.toNat) % 16
    (s, { e with scl := sliceB e.latch.flatten (8 * k) 8 })) pcNext

/-- Lanes `lo` to `lo + n - 1` of a bank as FP32 bytes. -/
def laneBytes (e : Engine) (set b lo n : Nat) : List Byte := ((List.range n).map fun i => bytes4 (accAt e set b (lo + i))).flatten

/-- Bytes written past the L2 and noted for R288. -/
def State.bgWrite (s : State) (r : BgRun) (pa : Nat) (data : List Byte) : State :=
  (({ s with mem := s.mem.dramWrite pa data } : State).markDirty pa data.length).updInst r.l.id r.k fun i => { i with wrote := i.wrote ++ [(pa, data.length)] }

def writeCheck (s : State) (l : Nat) (bm : BitVec 4) (e : Engine) : Option Nat :=
  let open_ := (banksOf bm).map fun b => (e.rows.getD b none)
  if open_.any (·.isNone) then some bsRowclosed
  else if open_.any fun o => match o with
      | some row => !(s.rowKinds l e.id row).contains .write
      | none => true then some bsRange
  else none

def execBgWr (bm : BitVec 4) (x : BitVec 3) (as : BitVec 2) (f : Bool) (i : BitVec 16) (s : State) : Host.Outcome State Fault Refusal :=
  bgCommand s (writeCheck s (cmdLaunch s) bm) noReads (fun s r e =>
    let col := colOf e x i
    ((banksOf bm).foldl (fun s b =>
      let row := (e.rows.getD b none).getD 0
      if f then
        (s.bgWrite r (engAddr e.id row b col) (laneBytes e as.toNat b 0 8)).bgWrite r (engAddr e.id row b ((col + 1) % 32)) (laneBytes e as.toNat b 8 8)
      else
        s.bgWrite r (engAddr e.id row b col)
          ((List.range 16).map fun n => natToBytes 2 (bf16.round .rne false (f32Of (accAt e as.toNat b n)))).flatten) s, e)) pcNext

def execBgZero (bm : BitVec 4) (as : BitVec 2) (s : State) : Host.Outcome State Fault Refusal :=
  bgCommand s noCheck noReads (fun s _ e => (s, mapLanes e bm as.toNat fun _ _ => 0)) pcNext

def setX (e : Engine) (x : BitVec 3) (v : BitVec 24) : Engine := { e with x := e.x.set x.toNat v }

def execBgLdx (x : BitVec 3) (i : BitVec 23) (s : State) : Host.Outcome State Fault Refusal :=
  bgCommand s noCheck noReads (fun s _ e => (s, setX e x (sextX i))) pcNext

def execBgAddx (x : BitVec 3) (i : BitVec 23) (s : State) : Host.Outcome State Fault Refusal :=
  bgCommand s noCheck noReads (fun s _ e => (s, setX e x ((e.x.getD x.toNat 0) + sextX i))) pcNext

/-- The matching `next` of a `loop` from an address on, none before address 256 (R287). -/
def matchNext (store : List W32) : Nat → Nat → Nat → Option Nat
  | 0, _, _ => none
  | n + 1, a, depth =>
    if 256 ≤ a then none
    else
      let code := ((store.getD a 0).extractLsb' 26 6).toNat
      if code == 0x0D then matchNext store n (a + 1) (depth + 1)
      else if code == 0x0E then (if depth ≤ 1 then some a else matchNext store n (a + 1) (depth - 1))
      else matchNext store n (a + 1) depth

def loopCount (e : Engine) (x : BitVec 3) (i : BitVec 23) : Nat := ((e.x.getD x.toNat 0) + sextX i).toNat

def execBgLoop (x : BitVec 3) (i : BitVec 23) (s : State) : Host.Outcome State Fault Refusal :=
  let lead := s.engine s.bank.cur
  let n := loopCount lead x i
  let skip := matchNext lead.store 256 (lead.pc + 1) 1
  bgCommand s (fun e => if 4 ≤ e.loops.length || (n = 0 && skip.isNone) then some bsLoop else none) noReads
    (fun s _ e => (s, if n = 0 then e else { e with loops := (lead.pc + 1, n) :: e.loops }))
    fun e => if n = 0 then skip.getD 0 + 1 else e.pc + 1

def execBgNext (s : State) : Host.Outcome State Fault Refusal :=
  let lead := s.engine s.bank.cur
  let again : Bool := match lead.loops with
    | (_, n) :: _ => decide (1 < n)
    | [] => false
  bgCommand s (fun e => if e.loops.isEmpty then some bsLoop else none) noReads
    (fun s _ e => (s, match e.loops with
      | (a, n) :: l => { e with loops := if again then (a, n - 1) :: l else l }
      | [] => e))
    fun e => match e.loops with
      | (a, _) :: _ => if again then a else e.pc + 1
      | [] => e.pc + 1

def execBgBnz (x : BitVec 3) (t : BitVec 8) (s : State) : Host.Outcome State Fault Refusal :=
  bgCommand s noCheck noReads (fun s _ e => (s, e)) fun e => if xAt e x != 0 then t.toNat else e.pc + 1

def execBgVld (bm : BitVec 4) (x : BitVec 3) (i : BitVec 16) (s : State) : Host.Outcome State Fault Refusal :=
  bgCommand s (fun e => if (banksOf bm).any fun b => (e.rows.getD b none).isNone then some bsRowclosed else none) noReads
    (fun s _ e => (s, (banksOf bm).foldl (fun y b =>
      { y with vin := overlay 0 y.vin (((xAt e x + i.toNat) % 32 + b) % 32 * 32) (latchOf e b) }) e)) pcNext

/-- Word w of the block-table row as it stands in DRAM (R287). -/
def State.blockWord (s : State) (id w : Nat) : Nat :=
  bytesToNat (s.mem.dramBytes (engAddr id 65535 (w / 8 % 4) (w / 32 % 32) + 4 * (w % 8)) 4)

def execBgBtl (d src : BitVec 3) (o : BitVec 8) (s : State) : Host.Outcome State Fault Refusal :=
  let word := fun (e : Engine) => (xAt e src + o.toNat) % 1024
  bgCommand s (fun e =>
      if e.rows.getD (word e / 8 % 4) none != some 65535 then some bsRowclosed
      else if (s.rowKinds (cmdLaunch s) e.id 65535).any (· != .read) then some bsRange
      else if 65536 ≤ s.blockWord e.id (word e) then some bsRange else none)
    (fun e => [engAddr e.id 65535 0 0])
    (fun s _ e => (s, setX e d (BitVec.ofNat 24 (s.blockWord e.id (word e))))) pcNext

def execBgIdx (d src : BitVec 3) (o : BitVec 8) (s : State) : Host.Outcome State Fault Refusal :=
  let word := fun (e : Engine) => natAt e.vin (4 * ((xAt e src + o.toNat) % 256)) 4
  bgCommand s (fun e => if 2 ^ 24 ≤ word e then some bsRange else none) noReads
    (fun s _ e => (s, setX e d (BitVec.ofNat 24 (word e)))) pcNext

/-! Emit slots (R286). -/

/-- The DRAM address of an emit slot, by the pages translated at admission. -/
def BankLaunch.slotPa (l : BankLaunch) (slot : Nat) : Nat :=
  ((l.emitPa.find? fun p => p.1 == slot).map (·.2)).getD 0

def bdFirst (b : List Byte) : Nat := natAt b 8 4 % 256
def bdCount (b : List Byte) : Nat := bitsOf (natAt b 8 4) 16 8
def bdEnum (b : List Byte) : Nat := natAt b 104 4

/-- The four banks of a set as a slot's 256 bytes. -/
def setBytes (e : Engine) (set : Nat) : List Byte := ((List.range 4).map fun b => laneBytes e set b 0 16).flatten

def execBgEmit (x : BitVec 3) (as : BitVec 2) (f : Bool) (i : BitVec 16) (s : State) : Host.Outcome State Fault Refusal :=
  let slot := fun (e : Engine) => (xAt e x + i.toNat) % 65536
  let body := (s.bgRun.map fun r => r.l.body).getD []
  bgCommand s (fun e => if bdEnum body ≤ slot e + (if f then 1 else 0) then some bsRange else none) noReads
    (fun s r e =>
      let k := (engNum e.id - bdFirst r.l.body) * bdEnum r.l.body + slot e
      let s := s.bgWrite r (r.l.slotPa k) (setBytes e as.toNat)
      (if f then
        let set := (as.toNat + 1) % 4
        s.bgWrite r (r.l.slotPa (k + 1)) (bytes4 (accAt e set 0 0) ++ bytes4 (accAt e set 0 1) ++ List.replicate 248 0)
      else s, e)) pcNext

/-! Attention (R291, R292). -/

/-- sub of R291. -/
def subInf (x y : FVal) : FVal := if x == .inf true then .inf true else f32Of (rne (FVal.add .rne x y.neg))

/-- rne32 of a value, as a value. -/
def r32 (x : FVal) : FVal := f32Of (rne x)

/-- ex2 of R154, rounded once. -/
def ex2R (x : FVal) : FVal := f32Of (rne (ex2Val x))

/-- The running maximum, sum and outputs of the attention sequence. -/
structure Attn where
  m : FVal
  l : FVal
  o : List FVal
  deriving DecidableEq, Repr

def Attn.start : Attn := ⟨.inf true, .fin false 0 0, List.replicate 64 (.fin false 0 0)⟩

/-- One token: query, key and value elements, score scale. -/
def Attn.token (a : Attn) (q k v : List FVal) (c : FVal) : Attn :=
  let dot := (List.range 64).foldl (fun x i => FVal.add .rne x (FVal.mul (q.getD i .nan) (k.getD i .nan))) (.fin true 0 0)
  let s := r32 (FVal.mul (r32 dot) c)
  let m2 := a.m.max s
  let al := ex2R (subInf a.m m2)
  let p := ex2R (subInf s m2)
  { m := m2, l := r32 (FVal.add .rne (r32 (FVal.mul a.l al)) p),
    o := a.o.zipIdx.map fun x => r32 (FVal.add .rne (r32 (FVal.mul x.1 al)) (r32 (FVal.mul p (v.getD x.2 .nan)))) }

/-- Token j of the page in a row: its 64 elements (R291). -/
def State.tokenRow (s : State) (id row j : Nat) : List FVal :=
  ((List.range 4).map fun b =>
    let col := s.mem.dramBytes (engAddr id row b j) 32
    (List.range 16).map fun i => bfAt col i).flatten

/-- Rows the sequence names: key and value row of each page that holds tokens. -/
def State.attnRows (s : State) (id n : Nat) : List Nat := (List.range (2 * ((n + 31) / 32))).map fun w => s.blockWord id w

def attnCheck (s : State) (l : Nat) (x : BitVec 3) (e : Engine) : Option Nat :=
  let n := xAt e x
  if 16384 < n then some bsRange
  else if n != 0 && !rowEligible e.id 65535 then some bsIneligible
  else if n != 0 && (s.rowKinds l e.id 65535).any (· != .read) then some bsRange
  else (s.attnRows e.id n).findSome? fun row =>
    if !(s.rowKinds l e.id row).contains .read then some bsRange
    else if !rowEligible e.id row then some bsIneligible else none

def execBgAttn (x : BitVec 3) (as : BitVec 2) (i : BitVec 16) (s : State) : Host.Outcome State Fault Refusal :=
  bgCommand s (attnCheck s (cmdLaunch s) x)
    (fun e => if xAt e x = 0 then [] else engAddr e.id 65535 0 0 :: (s.attnRows e.id (xAt e x)).map fun row => engAddr e.id row 0 0)
    (fun s r e =>
      let n := xAt e x
      let rows := s.attnRows e.id n
      let q := (List.range 64).map fun k => bfAt e.vin k
      let a := (List.range n).foldl (fun a t =>
        a.token q (s.tokenRow e.id (rows.getD (t / 32 * 2) 0) (t % 32)) (s.tokenRow e.id (rows.getD (t / 32 * 2 + 1) 0) (t % 32)) (bf16.val i.toNat)) Attn.start
      let s := if n = 0 then s else (65535 :: rows).foldl (fun s row => s.sigOpen r e.id row) s
      let set2 := (as.toNat + 1) % 4
      let e := mapLanes e 15 as.toNat fun b k => rne (a.o.getD (16 * b + k) .nan)
      let e := mapLanes e 15 set2 fun _ _ => 0
      let e := accPut (accPut e set2 0 0 (rne a.m)) set2 0 1 (rne a.l)
      (s, { e with rows := List.replicate 4 none })) pcNext

/-! The end of a run (R284, R300). -/

/-- A run ended by `end`: the instance is over, unless its conflict bit asks for another run, the fifth in exclusive mode
with the read entries of its channels (R300, R302). -/
def State.bgFinish (s : State) (r : BgRun) : State :=
  let last := r.i.conflict && 3 ≤ r.i.rex
  let rex := if r.i.conflict && !last then r.i.rex + 1 else r.i.rex
  let s := r.set.foldl (fun s e => s.setEngine { e with run := none, lastStatus := 0, lastRex := rex }) s
  let chans := r.i.engines.map engChan
  let s := if last then { s with bank := { s.bank with rot := s.bank.rot.map fun e =>
      if e.launch == r.l.id && e.kind == .read && chans.contains e.chan then { e with excl := true } else e } } else s
  s.updInst r.l.id r.k fun i =>
    if i.conflict then { i with rex := rex, excl := last } else { i with status := some 0 }

def execBgEnd (s : State) : Host.Outcome State Fault Refusal :=
  match s.bgRun with
  | none => .next s
  | some r =>
    let bad := s.bgFails r noCheck noReads
    .next (if bad.isEmpty then s.bgFinish r else s.bgStop r bad)

/-- A word that is no command, or that sets a field its command does not use (R288). -/
def State.bgIllegal (s : State) : Host.Outcome State Fault Refusal :=
  match s.bgRun with
  | none => .next s
  | some r => .next (s.bgStop r (r.set.map fun e => (e.id, bsIllegal)))

def execUnassignedCommandCode (w : W32) (s : State) : Host.Outcome State Fault Refusal := s.bgIllegal

end Sys2Proof.Machine
end

