-- ==== Sys2Proof/Machine/Queue.lean ====
section
/-! DEFINITION. The command processor's rings (R398 to R400): where they stand, pushes from the device, taking the
head, the pushes it holds, and its reads in a context of translation. -/

set_option linter.unusedVariables false

namespace Sys2Proof.Machine

/-- Bytes of an entry of ring q (R398).  DEDUCED, log entry 95. -/
def ringEntry (q : Nat) : Nat := if q < 4 then 32 else if q < 6 then 64 else 16

def Queue.slots (k : Queue) : Nat := 2 ^ (4 + Nat.min (k.size.extractLsb' 0 4).toNat 11)
def Queue.basePa (k : Queue) : Nat := (k.base.extractLsb' 6 46).toNat * 64
/-- The address of an entry by its count in the ring. -/
def Queue.entryPa (k : Queue) (q n : Nat) : Nat := k.basePa + n % k.slots * ringEntry q
/-- An enabled ring that stands in device memory. -/
def Queue.on (k : Queue) (q : Nat) : Bool :=
  k.size.getLsbD 4 && paDevice k.basePa && paDevice (k.basePa + k.slots * ringEntry q - 1)
def Queue.used (k : Queue) : Nat := (k.pushed - k.head).toNat
def Queue.room (k : Queue) (q : Nat) : Bool := k.on q && k.used < k.slots

/-- The context of a partition (R398). -/
def State.partRoot (s : State) (n : Nat) : Option Nat := rootOf (s.partAt n).root

/-- A push by the device: into a ring with room, else it waits (R400). -/
def State.pushQ (s : State) (p : Push) : Option State :=
  let k := s.queueAt p.q
  let pa := k.entryPa p.q k.pushed.toNat
  if !k.room p.q || !s.sliceReady pa (ringEntry p.q) false then none
  else some ((s.perform pa p.bytes false).updQueue p.q fun k =>
    { k with pushed := k.pushed + 1, entries := k.entries ++ [(k.pushed.toNat, p)], stamps := k.stamps ++ [(k.pushed, 1, s.stamp)] })

/-- Pushes the command processor holds enter their rings in order as room comes (R400). -/
def State.pushHeld (s : State) : State :=
  let out := s.cp.waitPush.foldl (fun (x : List Push × State) p =>
    if x.1.any fun y => y.q == p.q then (x.1 ++ [p], x.2)
    else match x.2.pushQ p with
      | some s' => (x.1, s')
      | none => (x.1 ++ [p], x.2)) ([], s)
  { out.2 with cp := { out.2.cp with waitPush := out.1 } }

/-- A push made by the command processor itself: in order behind those it holds (R400). -/
def State.pushCp (s : State) (p : Push) : State :=
  ({ s with cp := { s.cp with waitPush := s.cp.waitPush ++ [p] } } : State).pushHeld

/-- The reader that the command processor is: on CD0, seeing what the host has written.  DEDUCED, log entry 94. -/
def cpReader : Reader_ := dieReader .host 0

/-- Whether a count lies in a batch of pushed entries. -/
def inBatch (n : W32) (b : W32 × Nat × Nat) : Bool := decide ((n - b.1).toNat < b.2.1)

/-- When the entry at the head of a ring was pushed (R28): the submission of its launch.  DESIGN CHOICE, log entry 136. -/
def State.headStamp (s : State) (q : Nat) : Nat :=
  (((s.queueAt q).stamps.find? (inBatch (s.queueAt q).head)).map fun b => b.2.2).getD s.stamp

/-- The entry at the head of a ring, with who pushed it; the head taken (R398). -/
def State.ringTake (s : State) (q : Nat) : Option (List Byte × Option Push × State) :=
  let k := s.queueAt q
  let pa := k.entryPa q k.head.toNat
  if !k.on q || k.used = 0 || !s.memReady pa (ringEntry q) false then none
  else
    let b := s.engineRead cpReader (.mem pa) (ringEntry q) false
    let push := (k.entries.find? fun e => e.1 == k.head.toNat).map (·.2)
    let next := fun (k : Queue) => { k with
      head := k.head + 1
      entries := k.entries.filter fun e => e.1 != k.head.toNat
      stamps := k.stamps.filter fun b => inBatch (k.head + 1) b || !inBatch k.head b }
    some (b.1, push, (b.2.updQueue q next).pushHeld)

/-- The context of an entry's addresses: the pusher's partition, or the queue's for one of the host (R398). -/
def State.entryRoot (s : State) (q : Nat) (p : Option Push) : Option Nat :=
  match p with
  | some p => p.root
  | none => rootOf (s.queueAt q).root

/-- How a read for an entry ends: bytes, a status of R237, or a byte that cannot be read yet. -/
inductive CpRead
  | ok (b : List Byte) (s : State)
  | bad (code : Nat) (s : State)
  | wait (s : State)

def State.cpRead (s : State) (die : Nat) (root : Option Nat) (va len : Nat) (r : Reader_) : CpRead :=
  match root with
  | none => .bad 1 s
  | some root =>
    match s.engineXlat .die die root va len false false [va] with
    | .wait => .wait s
    | .bad c _ s => .bad (codeOf c) s
    | .ok rs s =>
      if !rs.all fun x => s.memReady x.pa x.len x.bypass then .wait s
      else
        let out := rs.foldl (fun (x : List Byte × State) y =>
          let z := x.2.engineRead r (.mem y.pa) y.len y.bypass
          (x.1 ++ z.1, z.2)) ([], s)
        .ok out.1 out.2

/-- The place of a word that is to be written: its range, a status, or a walk that waits. -/
inductive CpWord
  | ok (r : Range) (s : State)
  | bad (code : Nat) (s : State)
  | wait

/-- A word the command processor or a stack core will write, at user level in a context: its place, or a status (R402). -/
def State.cpWord (s : State) (die : Nat) (root : Option Nat) (va : Nat) : CpWord :=
  match root with
  | none => .bad 1 s
  | some root =>
    if va % 8 != 0 then .bad 1 s
    else match s.engineXlat .die die root va 8 true false [va, 1] with
      | .wait => .wait
      | .bad c _ s => .bad (codeOf c) s
      | .ok rs s =>
        match rs with
        | [r] => if paDevice r.pa then .ok r s else .bad 1 s
        | _ => .bad 1 s

/-- What holds a thread's post that is a release (R309, R310, R428): an access still to be performed, or a write that
cannot become visible yet. -/
def State.postHeld (s : State) (t : TRef) (paths : Path → Bool) : Bool :=
  s.acqOpen t || !(s.pendingAccesses t).isEmpty || !s.flushable t .device paths

/-- The entry a thread pushes, in the context of its group's partition (R398). -/
def State.threadPush (s : State) (t : TRef) (q : Nat) (bytes : List Byte) (op : Option Nat) : Push :=
  let n := (s.ctx t).part
  ⟨q, bytes, s.partRoot n, n, op, (s.groupOf t).map (·.launch)⟩

end Sys2Proof.Machine
end

