-- ==== Sys2Proof/Machine/Bank.lean ====
section
/-! DEFINITION. Bank launches and store loads: opcodes 0x400 to 0x404, the bank queue, admission, row ownership,
re-execution, merging, completion and the mode-switch fence (R292 to R316). -/

set_option linter.unusedVariables false

namespace Sys2Proof.Machine

/-! Posting (R293, R309, R310). -/

/-- The ring entry of a post (R398). -/
def postBytes (load : Bool) (va : W64) : List Byte :=
  natToBytes 8 (va.toNat % 2 ^ 57 + if load then 2 ^ 63 else 0) ++ List.replicate 8 0

/-- The priority bits of a descriptor as they stand at the post (R295, R309).  DEDUCED, log entry 64. -/
def State.postPrio (s : State) (t : TRef) (load : Bool) (va : W64) : Nat :=
  match s.cpRead (s.ctx t).die (some (s.ctx t).root) va.toNat 16 (s.readerOf t) with
  | .ok b _ => if load then bitsOf (natAt b 12 4) 26 25 else bitsOf (natAt b 0 8) 14 13
  | _ => 0

/-- A descriptor posted, with everything the thread has ordered before it visible; none while it has to wait. -/
def State.post (s : State) (t : TRef) (load : Bool) (va : W64) (op : Option Nat) : Option State :=
  if s.postHeld t lsAt then none
  else
    let s := (s.flush t .device lsAt).releaseK t
    s.pushQ (s.threadPush t (6 + s.postPrio t load va) (postBytes load va) op)

/-- A descriptor operand: aligned, and readable as a load would read it (R308 to R310). -/
def State.withDesc (s : State) (t : TRef) (a : Operand) (off : BitVec 12) (n : Nat) (f : W64 → State → Lane) : Lane :=
  let va := s.addr t a off
  if va.toNat % n != 0 then .trap s causeProtection va false
  else match s.access t va n false false [va.toNat] with
    | .wait => .stay s
    | .fault k x s => .trap s k x false
    | .nonres x => .trap s causePage x false
    | .ok _ s' => f va s'

def execBgload (c : Ctl) (d a : Operand) (off : BitVec 12) (s : State) : Host.Outcome State Fault Refusal :=
  native c (.bgload c d a off) s fun s t =>
    if s.loadHeld t c d 1 then .stay s
    else s.withDesc t a off 32 fun va s' =>
      let id := s'.nextId
      let s1 := s'.begin_ t c (.bgload va (opNum d)) none
      if (s.ctx t).quant then .next (s1.defer t)
      else match s1.post t true va (some id) with
        | some s2 => .next s2
        | none => .stay s

def execBgx (c : Ctl) (a : Operand) (off : BitVec 12) (s : State) : Host.Outcome State Fault Refusal :=
  native c (.bgx c a off) s fun s t =>
    if s.acqOpen t then .stay s
    else s.withDesc t a off 128 fun va s' =>
      if (s.ctx t).quant then .next ((s'.beginQuiet t (.bgx va)).defer t)
      else match s'.post t false va none with
        | some s2 => .next s2
        | none => .stay s

/-! The mode-switch fence (R305, R311). -/

/-- A thread's work that still writes: its accesses, its `mret`s (R305). -/
def OpKind.writesOn : OpKind → Bool
  | .mret _ | .mroute _ _ => true
  | k => k.isAccess

/-- Step 1 of a fence begins: the writes the thread has issued or observed, and its accesses before it. -/
def State.fenceArm (s : State) (t : TRef) (op : Nat) : State :=
  let ws := (s.observed t fun _ => true).map fun e => (e.id, Scope.system)
  let before := (s.ops.filter fun o => o.thr == t && o.kind.writesOn && o.id < op && !s.deferred o).map fun o => (o.id, Scope.system)
  s.updOp op fun o => { o with after := ws, before := before }

def execBfence (c : Ctl) (a : Operand) (s : State) : Host.Outcome State Fault Refusal :=
  native c (.bfence c a) s fun s t =>
    let x := s.src64 t a
    let ch := if a == .none then 2 ^ 32 - 1 else (x.extractLsb' 0 32).toNat
    let st := if a == .none then 255 else (x.extractLsb' 32 8).toNat
    if a != .none && x.extractLsb' 40 24 != 0 then .trap s causeIllegal 0 false
    else if s.acqOpen t || s.flagFull t c then .stay s
    else
      let id := s.nextId
      let s1 := s.begin_ t c (.bfence ch st) none
      .next (if (s.ctx t).quant then s1.defer t else (s1.acqBy t id .system).fenceArm t id)

/-- Whether a fence names the channel of an address, or of an engine. -/
def fenceNames (ch st chan : Nat) : Bool := bitAt ch (chan % 32) && bitAt st (chan / 32)

/-- A fence goes on: its writes visible, the channels' dirty sectors written back and their sectors dropped where the
rows allow it; once none is left the idle engines' banks are closed and the core's L1 is cleared.  None where it
cannot move. -/
def State.fenceStep (s : State) (o : Op) : Option State :=
  match o.kind with
  | .bfence ch st =>
    let ids := (o.after.map (·.1) ++ (s.observed o.thr fun _ => true).map (·.id)).eraseDups
    let mine := fun (s : State) => s.mem.l2.filter fun x => paHome x.base < 4 && fenceNames ch st (hbmChan x.base)
    if s.opsOpen o.before || !s.canForceAll ids .all then none
    else
      let s1 := s.forceAll ids .all
      let go := (mine s1).filter fun x => s1.writebackOk x.base
      if go.isEmpty && !(mine s1).isEmpty then none
      else
        let s2 := go.foldl (fun s x => s.writeback x.base false) s1
        if !(mine s2).isEmpty then some s2
        else
          let closed := s2.bank.engines.map fun e =>
            if e.run.isNone && fenceNames ch st (engChan e.id) then { e with rows := List.replicate 4 none } else e
          some (({ s2 with bank := { s2.bank with engines := closed } } : State).l1Clear o.core |>.updOp o.id
            fun x => { x with kind := .result [] })
  | _ => none

/-! Waiting and reading (R312, R313). -/

def execBgwait (c : Ctl) (d a : Operand) (off : BitVec 12) (s : State) : Host.Outcome State Fault Refusal :=
  native c (.bgwait c d a off) s fun s t =>
    s.queueWait t (if s.loadHeld t c d 2 then .stay s
    else s.withWord t a off 8 false fun pa s' => s'.beginWait t c (.bgwait pa (opNum d) false none) none)

/-- The state code of an engine (R313).  DEDUCED, log entry 57. -/
def State.engineCode (s : State) (id : Nat) : Nat :=
  let held := s.bank.launches.findSome? fun l => if l.phase == .running then
      (l.insts.find? fun i => i.engines.contains id && i.status.isNone) else none
  match held with
  | none => 0
  | some i => if i.rex != 0 || i.excl || i.conflict && (s.engine id).run.isNone then 3 else if i.spec then 1 else 2

/-- The state word of an engine (R313). -/
def State.engineWord (s : State) (id : Nat) : W32 :=
  let e := s.engine id
  BitVec.ofNat 32 (s.engineCode id + 4 * (e.lastStatus % 16) + 64 * (e.lastRex % 4) + 256 * (e.pc % 256))

/-- DEDUCED, log entry 63. -/
def execBgstatEng (c : Ctl) (d a : Operand) (s : State) : Host.Outcome State Fault Refusal :=
  native c (.bgstatEng c d a) s fun s t =>
    let x := (s.src32 t a).toNat
    if 2048 ≤ x then .trap s causeIllegal 0 false
    else if s.flagFull t c || s.destLocked t d 1 then .stay s
    else if (s.ctx t).quant then .next ((s.begin_ t c (.bgstat x (opNum d)) none).defer t)
      else .next (s.result t c [.v (opNum d) (s.engineWord x)])

/-- The engine of a row-set within its stack (R280). -/
def rowEngine (pa : Nat) : Nat := hbmChan pa % 32 * 8 + hbmPc pa * 4 + hbmBg pa

def execBgstatRmap (c : Ctl) (d a : Operand) (s : State) : Host.Outcome State Fault Refusal :=
  native c (.bgstatRmap c d a) s fun s t =>
    let va := s.src64 t a
    let x := s.ctx t
    if s.flagFull t c || s.destLocked t d 1 then .stay s
    else if 2 ^ 57 ≤ va.toNat then .trap s causeProtection va false
    else
      let ps := s.pages x.die x.root va.toNat 1 false [va.toNat]
      if ps.any fun p => p.2.2.wait then .stay s
      else match firstFault false false false ps with
      | some (k, f) => .trap (if k = causeProtection then s.markRefused ps f else s) k (BitVec.ofNat 64 f) false
      | none =>
        let s1 := s.fillPages (.core x.core) x.die x.root ps false
        let pa := ((ps.head?.map pageRange).getD ⟨0, 0, false⟩).pa
        let bs := ((ps.head?.bind fun p => p.2.2.leaf).map lfBS).getD false
        let stack := hbmChan pa / 32
        let ok := bs && rowEligible (256 * stack + rowEngine pa) (hbmRow pa)
        let v := if paHome pa < 4 then (if ok then 1 else 0) + 2 + 4 * stack + 32 * rowEngine pa + 2 ^ 13 * hbmRow pa else 0
        .next (s1.result t c [.v (opNum d) (BitVec.ofNat 32 v)])

/-! The bank queue (R293, R309). -/

/-- The source number of the stack core that serves an engine (R293, R454). -/
def srcStackCore (stack ch : Nat) : W16 := BitVec.ofNat 16 (0x4000 + 4 * stack + ch / 8)

/-- The record of R296 step 1.  DEDUCED, log entry 66. -/
def State.bankRecord (s : State) (part stack first : Nat) (va : W64) (code : Nat) : State :=
  s.pushErr 3 part (srcStackCore stack (first / 8)) va (BitVec.ofNat 64 code)

/-- The `bgx` of a commit is over once its launch is (R92). -/
def State.bgxOver (s : State) (op : Option Nat) : State :=
  { s with ops := s.ops.filter fun x => !(op == some x.id && match x.kind with | .bgx _ => true | _ => false) }

/-- The status of a store load given to its `bgload` (R309). -/
def State.loadStatus (s : State) (op : Option Nat) (code : Nat) : State :=
  match op with
  | some o => (s.updOp o fun x => match x.kind with
      | .bgload _ dst => { x with kind := .result [.v dst (BitVec.ofNat 32 code)] }
      | _ => x).bgxOver op
  | none => s

/-- A status of R237 as one of R297. -/
def bankCode (c : Nat) : Nat := if c = 2 then bsNonres else bsFault

def execBankQueueTake (q : Nat) (s : State) : Host.Outcome State Fault Refusal :=
  if 4 ≤ q then .next s
  else match s.ringTake (6 + q) with
  | none => .next s
  | some (b, push, s1) =>
    let w := natAt b 0 8
    let load := bitAt w 63
    let va := w % 2 ^ 57
    let root := s.entryRoot (6 + q) push
    let op := push.bind (·.op)
    let part := (push.map (·.part)).getD 0xFFFF
    let drop := fun (c : Nat) (s1 : State) =>
      (Host.Outcome.next (((s1.bankRecord part 0 0 (BitVec.ofNat 64 va) (bankCode c))).loadStatus op (bankCode c)) :
        Host.Outcome State Fault Refusal)
    if va % (if load then 32 else 128) != 0 then drop 1 s1
    else match s1.cpRead 0 root va (if load then 32 else 128) cpReader with
      | .wait s' => s.orAsk s'
      | .bad c s1 => drop c s1
      | .ok body s2 =>
        let stack := if load then natAt body 8 4 % 8 else bitsOf (natAt body 0 8) 18 16
        let l : BankLaunch :=
          { id := s2.nextId, load := load, va := BitVec.ofNat 64 va, root := root.getD 0, part := part, prio := q,
            stack := stack, body := body, readable := true, phase := .queued, insts := [], vins := [],
            emitPa := [], comp := none, status := 0, merged := false, op := op, launch := push.bind (·.launch) }
        .next { s2 with nextId := s2.nextId + 1, bank := { s2.bank with launches := s2.bank.launches ++ [l] } }

/-- The entries of a stack and priority wait behind the first (R293). -/
def State.bankHead (s : State) (l : BankLaunch) : Bool :=
  ((s.bank.launches.find? fun x => x.phase == .queued && x.stack == l.stack && x.prio == l.prio).map (·.id)) == some l.id

def State.dropBank (s : State) (l : Nat) : State :=
  let s := s.bgxOver ((s.bankLaunch? l).bind (·.op))
  { s with bank := { s.bank with launches := s.bank.launches.filter fun x => x.id != l } }

/-- Whether an engine performs a run or belongs to an instance that is not over. -/
def State.engineBusy (s : State) (id : Nat) : Bool := s.engineCode id != 0

/-- Fields of a load descriptor. -/
def loadEngines (l : BankLaunch) : List Nat :=
  let w := natAt l.body 8 4
  (List.range (bitsOf w 24 16)).map fun i => 256 * l.stack + bitsOf w 15 8 + i

/-- BADDESC of a load descriptor (R309). -/
def loadBad (b : List Byte) : Bool :=
  let w := natAt b 8 4
  let v := natAt b 12 4
  let n := bitsOf v 16 8
  natAt b 0 8 % 4 != 0 || bitsOf (natAt b 0 8) 63 57 != 0 || bitsOf w 7 3 != 0 || bitsOf w 31 25 != 0 || bitsOf v 24 17 != 0 ||
    bitsOf v 31 27 != 0 || natAt b 16 16 != 0 || bitsOf w 24 16 = 0 || 256 < bitsOf w 24 16 || n = 0 || 256 < n ||
    256 < v % 256 + n || 256 < bitsOf w 15 8 + bitsOf w 24 16

/-- DEDUCED, log entry 65. -/
def execStoreLoadDispatch (l : Nat) (s : State) : Host.Outcome State Fault Refusal :=
  let no : Host.Outcome State Fault Refusal := .next s
  match s.bankLaunch? l with
  | none => no
  | some L =>
    if !L.load || L.phase != .queued || !s.bankHead L then no
    else if loadBad L.body then .next ((s.loadStatus L.op bsBaddesc).dropBank l)
    else
      let v := natAt L.body 12 4
      match s.cpRead (L.stack / 2) (some L.root) (natAt L.body 0 8 % 2 ^ 57) (4 * bitsOf v 16 8) (dieReader .rc (L.stack / 2)) with
      | .wait s' => s.orAsk s'
      | .bad c s1 => .next ((s1.loadStatus L.op (bankCode c)).dropBank l)
      | .ok b s1 =>
        if (loadEngines L).any fun e => s.engineBusy e then no
        else
          let words := (List.range (bitsOf v 16 8)).map fun i => toW32 (sliceB b (4 * i) 4)
          let put := fun (s : State) (id : Nat) =>
            let e := s.engine id
            s.setEngine { e with store := words.zipIdx.foldl (fun st w => st.set (v % 256 + w.2) w.1) e.store }
          .next ((((loadEngines L).foldl put s1).loadStatus L.op 0).dropBank l)

/-! Admission (R296). -/

structure RowSet where
  chan : Nat
  pc : Nat
  bg : Nat
  row : Nat
  deriving DecidableEq, Repr

def rowSetOf (pa : Nat) : RowSet := ⟨hbmChan pa, hbmPc pa, hbmBg pa, hbmRow pa⟩
def RowSet.engine (r : RowSet) : Nat := 256 * (r.chan / 32) + r.chan % 32 * 8 + r.pc * 4 + r.bg

/-- BADDESC of step 2, reserved fields among its causes.  DESIGN CHOICE, log entry 137. -/
def bdBad (b : List Byte) (shares : Nat) : Bool :=
  let w := natAt b 0 8
  let set := bitsOf w 10 9
  let size := match set with | 0 => 4 | 1 => 8 | _ => 256
  let high := fun (o n : Nat) => natAt b o 8 / 2 ^ n != 0
  bitAt w 15 || bitsOf w 63 19 != 0 || bitsOf (natAt b 8 4) 31 17 != 0 || natAt b 12 4 != 0 || high 16 57 || high 24 40 || high 32 57 ||
    high 40 40 || ((List.range 7).any fun i => natAt b (48 + 4 * i) 4 / 2 ^ 24 != 0) || natAt b 76 4 != 0 || high 80 57 || high 96 57 ||
    natAt b 108 4 != 0 || high 112 57 || natAt b 120 8 != 0 || set = 3 || bdCount b = 0 || 256 < bdCount b ||
    256 < bdFirst b + bdCount b || (bitAt w 8 && (bdFirst b % size != 0 || bdCount b % size != 0)) || (bitAt w 12 && bdEnum b < 2) ||
    natAt b 16 8 % 4096 != 0 || natAt b 24 8 % 4096 != 0 || natAt b 32 8 % 4096 != 0 || natAt b 40 8 % 4096 != 0 ||
    natAt b 80 8 % 64 != 0 || 1024 < natAt b 88 4 || natAt b 88 4 % 64 != 0 || (bdEnum b != 0 && natAt b 96 8 % 256 != 0) ||
    65536 < bdEnum b || shares < bdCount b

/-- The parts of a range within 4 KiB each. -/
def split4K (va len : Nat) : List (Nat × Nat) :=
  if len = 0 then []
  else (List.range ((va % 4096 + len + 4095) / 4096)).map fun i =>
    let lo := if i = 0 then va else (va / 4096 + i) * 4096
    (lo, Nat.min (va + len) ((va / 4096 + i + 1) * 4096) - lo)

/-- A part translated: address, length, whether its page has BS. -/
structure BankPart where
  va : Nat
  pa : Nat
  len : Nat
  bs : Bool
  bypass : Bool
  deriving DecidableEq, Repr

/-- How a step of admission ends: what it has worked out, the status that ends the launch, or a walk that waits. -/
inductive Admits (α : Type)
  | ok (x : α) (s : State)
  | bad (code : Nat) (s : State)
  | wait

/-- Parts translated in order, each checked, or the status of the first that fails. -/
def State.bankXlat (die root : Nat) (write : Bool) (test : BankPart → Bool) :
    List (Nat × Nat) → State → List BankPart → Admits (List BankPart)
  | [], s, acc => .ok acc s
  | (va, len) :: l, s, acc =>
    if 2 ^ 57 < va + len then .bad bsFault s
    else
      let page := (va, len, s.lookup die root va write [va])
      if page.2.2.wait then .wait
      else match engineFault write false page.2.2.leaf with
      | 0 =>
        let r := pageRange page
        let p : BankPart := ⟨va, r.pa, len, ((page.2.2.leaf).map lfBS).getD false, r.bypass⟩
        if test p then State.bankXlat die root write test l (s.fillPages .die die root [page] write) (acc ++ [p]) else .bad bsFault s
      | c => .bad (bankCode (codeOf c)) (if c = refused18 then s.markRefused [page] va else s)

/-- What admission has worked out of a descriptor. -/
structure Admit where
  reads : List RowSet
  writes : List RowSet
  emits : List RowSet
  emitPa : List (Nat × Nat)
  vins : List (Nat × List BankPart)
  deriving DecidableEq, Repr

/-- Step 3. -/
def State.admitXlat (s : State) (L : BankLaunch) : Admits Admit :=
  let b := L.body
  let die := L.stack / 2
  let f := bdFirst b
  let n := bdCount b
  let rows := fun (p : BankPart) => paHome p.pa < 4 && hbmChan p.pa / 32 == L.stack && p.bs
  let emitOk := fun (p : BankPart) => paHome p.pa == die
  let emitLen := (n * bdEnum b + if bitAt (natAt b 0 8) 12 then 2 else 0) * 256
  match State.bankXlat die L.root false rows (split4K (natAt b 16 8) (natAt b 24 8)) s [] with
  | .bad c s => .bad c s
  | .wait => .wait
  | .ok rs s =>
    match State.bankXlat die L.root true rows (split4K (natAt b 32 8) (natAt b 40 8)) s [] with
    | .bad c s => .bad c s
    | .wait => .wait
    | .ok ws s =>
      match State.bankXlat die L.root true emitOk (split4K (natAt b 96 8) (if bdEnum b = 0 then 0 else emitLen)) s [] with
      | .bad c s => .bad c s
      | .wait => .wait
      | .ok es s =>
        let src := fun (i : Nat) => split4K (natAt b 80 8 + i * natAt b 92 4) (natAt b 88 4)
        let all := (List.range n).foldl (fun (x : Admits (List (Nat × List BankPart))) i =>
          match x with
          | .ok v s => match State.bankXlat die L.root false (fun _ => true) (src i) s [] with
            | .bad c s => .bad c s
            | .wait => .wait
            | .ok ps s => .ok (v ++ [(256 * L.stack + f + i, ps)]) s
          | x => x) (.ok [] s)
        match all with
        | .bad c s => .bad c s
        | .wait => .wait
        | .ok vins s =>
          let own := fun (r : RowSet) => 256 * L.stack + f ≤ r.engine && r.engine < 256 * L.stack + f + n
          let base := natAt b 96 8
          let slots := (List.range (emitLen / 256)).filterMap fun k =>
            (es.find? fun p => p.va ≤ base + 256 * k && base + 256 * k < p.va + p.len).map fun p => (k, p.pa + (base + 256 * k - p.va))
          .ok ⟨(rs.map fun p => rowSetOf p.pa).eraseDups.filter own, (ws.map fun p => rowSetOf p.pa).eraseDups.filter own,
            (es.map fun p => rowSetOf p.pa).eraseDups, slots, vins⟩ s

/-- Ascending numbers as runs. -/
def runsOf : List Nat → List (Nat × Nat)
  | [] => []
  | r :: l =>
    match runsOf l with
    | (a, b) :: m => if r + 1 = a then (r, b) :: m else (r, r) :: (a, b) :: m
    | [] => [(r, r)]

/-- The entries that cover row-sets of one kind: per channel, runs of rows under their masks (R298). -/
def entriesOf (kind : RotKind) (excl : Bool) (launch : Nat) (rs : List RowSet) : List RotEnt :=
  let chans := (rs.map (·.chan)).eraseDups
  (chans.map fun ch =>
    let places := [(0, 0), (0, 1), (0, 2), (0, 3), (1, 0), (1, 1), (1, 2), (1, 3)]
    let runs := (places.map fun p =>
      (runsOf ((rs.filter fun r => r.chan == ch && r.pc == p.1 && r.bg == p.2).map (·.row) |>.mergeSort)).map fun r => (r, p)).flatten
    let spans := (runs.map (·.1)).eraseDups
    (spans.map fun sp =>
      let mask := fun (pc : Nat) => (List.range 4).foldl (fun m g => if runs.contains (sp, (pc, g)) then m + 2 ^ g else m) 0
      let m0 := mask 0
      let m1 := mask 1
      let low := fun (m : Nat) => ((List.range 4).find? fun g => bitAt m g).getD 0
      let ent := fun (pcm m pc : Nat) => (⟨ch, sp.1, sp.2, BitVec.ofNat 2 pcm, BitVec.ofNat 4 m, kind, excl, launch,
        ch % 32 * 8 + pc * 4 + low m⟩ : RotEnt)
      if m0 = m1 then [ent 3 m0 0]
      else (if m0 = 0 then [] else [ent 1 m0 0]) ++ if m1 = 0 then [] else [ent 2 m1 1]).flatten).flatten

/-- Whether an entry covers a row-set. -/
def RotEnt.covers (e : RotEnt) (r : RowSet) : Bool :=
  e.chan == r.chan && e.rlo ≤ r.row && r.row ≤ e.rhi && e.pcm.getLsbD r.pc && e.bgm.getLsbD r.bg

/-- Step 5: a write or emit row-set is a member of the signature of the reads of its channel (R301). -/
def Admit.overlaps (a : Admit) : Bool :=
  let key := fun (r : RowSet) => rowKey r.row r.pc r.bg
  (a.writes ++ a.emits).any fun w =>
    sigMember ((a.reads.filter fun r => r.chan == w.chan).foldl (fun g r => sigAdd g (key r)) 0) (key w)

/-- Shares that running engines hold (R410). -/
def State.bankShares (s : State) : Nat :=
  (s.bank.launches.map fun l => if l.phase == .running then ((l.insts.filter fun i => i.status.isNone).map fun i => i.engines.length).foldl (· + ·) 0 else 0).foldl (· + ·) 0

/-- Step 6. -/
def State.admitOk (s : State) (L : BankLaunch) (a : Admit) (es : List RotEnt) : Bool :=
  let engines := (List.range (bdCount L.body)).map fun i => 256 * L.stack + bdFirst L.body + i
  let conflict := s.bank.rot.any fun e =>
    (a.writes ++ a.emits).any (fun r => e.covers r) || (e.kind != .read && a.reads.any fun r => e.covers r)
  let room := (es.map (·.chan)).eraseDups.all fun ch =>
    (s.bank.rot.countP fun e => e.chan == ch) + (es.countP fun e => e.chan == ch) ≤ 64
  let pending := s.bank.launches.any fun x => x.load && x.phase == .queued && s.bankHead x && !loadBad x.body &&
    (loadEngines x).any fun e => engines.contains e
  !conflict && room && s.bankShares + bdCount L.body ≤ (s.cp.paBank.extractLsb' 0 14).toNat &&
    !(engines.any fun e => s.engineBusy e) && !pending

/-- The state an engine starts a run with (R282). -/
def startEngine (L : BankLaunch) (run : Nat × Nat) (vin : List Byte) (e : Engine) : Engine :=
  let xs := BitVec.ofNat 24 (engNum e.id - bdFirst L.body) :: (List.range 7).map fun i => BitVec.ofNat 24 (natAt L.body (48 + 4 * i) 4)
  { e with
    pc := natAt L.body 0 1
    loops := []
    x := xs
    vin := sliceB vin 0 1024
    latch := List.replicate 4 (List.replicate 32 0)
    tags := List.replicate 4 0
    acc := List.replicate 256 0
    scl := List.replicate 8 127
    rows := List.replicate 4 none
    run := some run }

def State.startRun (s : State) (L : BankLaunch) (k : Nat) (engines : List Nat) : State :=
  engines.foldl (fun s id =>
    s.setEngine (startEngine L (L.id, k) (((L.vins.find? fun v => v.1 == id).map (·.2)).getD []) (s.engine id))) s

/-- The engines of the instances of a launch (R290, R294). -/
def instEngines (L : BankLaunch) : List (List Nat) :=
  let w := natAt L.body 0 8
  let size := if bitAt w 8 then (match bitsOf w 10 9 with | 0 => 4 | 1 => 8 | _ => 256) else 1
  (List.range (bdCount L.body / size)).map fun k => (List.range size).map fun i => 256 * L.stack + bdFirst L.body + k * size + i

/-- A launch that ends at admission (R296). -/
def State.admitFail (s : State) (L : BankLaunch) (comp : Nat × Bool) (code : Nat) : State :=
  s.updBank L.id fun l => { l with phase := .ended, status := code, comp := some comp }

/-- Step 7. -/
def State.admitGo (s : State) (L : BankLaunch) (a : Admit) (es : List RotEnt) (comp : Nat × Bool) : State :=
  let spec := bitAt (natAt L.body 0 8) 11
  let got := a.vins.foldl (fun (x : List (Nat × List Byte) × State) v =>
    let y := v.2.foldl (fun (z : List Byte × State) p =>
      let r := z.2.engineRead (dieReader .rc (L.stack / 2)) (.mem p.pa) p.len p.bypass
      (z.1 ++ r.1, r.2)) ([], x.2)
    (x.1 ++ [(v.1, y.1)], y.2)) ([], s)
  let insts := (instEngines L).map fun es => (⟨es, spec, 0, false, false, [], 0, [], none, none⟩ : Inst)
  let L' : BankLaunch := { L with phase := .running, insts := insts, vins := got.1, emitPa := a.emitPa, comp := some comp }
  let s := got.2.updBank L.id fun _ => L'
  let s := { s with bank := { s.bank with rot := s.bank.rot ++ es } }
  insts.zipIdx.foldl (fun s i => s.startRun L' i.2 i.1.engines) s

/-- An address that a stack core reads or writes on behalf of a bank launch answers: no rows hold it (R299). -/
def State.bankReady (s : State) (pa : Nat) : Bool :=
  if paHome pa == 8 then s.boot.ats.contains (pa / 2 ^ 12) else (s.stubAt pa).isNone

def execBankLaunchAdmission (l : Nat) (s : State) : Host.Outcome State Fault Refusal :=
  let no : Host.Outcome State Fault Refusal := .next s
  match s.bankLaunch? l with
  | none => no
  | some L =>
    if L.load || L.phase != .queued || !s.bankHead L then no
    else
      let die := L.stack / 2
      match s.cpWord die (some L.root) (natAt L.body 112 8 % 2 ^ 57) with
      | .wait => no
      | .bad c s => .next ((s.bankRecord L.part L.stack (bdFirst L.body) L.va (bankCode c)).dropBank l)
      | .ok r s1 =>
        let comp := (r.pa, r.bypass)
        if bdBad L.body (s.cp.paBank.extractLsb' 0 14).toNat then .next (s1.admitFail L comp bsBaddesc)
        else match s1.admitXlat L with
          | .wait => no
          | .bad c s1 => .next (s1.admitFail L comp c)
          | .ok a s2 =>
            let spec := bitAt (natAt L.body 0 8) 11
            let es := entriesOf .read (!spec) l a.reads ++ entriesOf .write true l a.writes ++ entriesOf .emit true l a.emits
            let many := (es.map (·.chan)).eraseDups.any fun ch => 64 < es.countP fun e => e.chan == ch
            let both := a.reads.any fun r => (a.writes ++ a.emits).contains r
            if both || many || a.writes.any (fun r => r.row == 65535) then .next (s2.admitFail L comp bsBaddesc)
            else if spec && a.overlaps then .next (s2.admitFail L comp bsOverlap)
            else if !s2.admitOk L a es || !(a.vins.all fun v => v.2.all fun p => s2.bankReady p.pa) then
              s.orAsk s2
            else .next (s2.admitGo L a es comp)

/-! Re-execution, merging and completion (R292, R297, R300, R302). -/

def execBankReexecution (l inst : Nat) (s : State) : Host.Outcome State Fault Refusal :=
  let no : Host.Outcome State Fault Refusal := .next s
  match s.bankLaunch? l with
  | none => no
  | some L =>
    match L.insts[inst]? with
    | none => no
    | some i =>
      if L.phase != .running || i.status.isSome || !i.conflict || i.engines.any (fun e => (s.engine e).run.isSome) then no
      else
        let s := s.updInst l inst fun i =>
          { i with conflict := false, sigs := [], cmds := 0, wrote := [], spec := !i.excl }
        .next (s.startRun L inst i.engines)

/-- The FP32 lanes of an emitted slot. -/
def State.slotLanes (s : State) (L : BankLaunch) (slot : Nat) : List FVal :=
  (List.range 64).map fun k => f32Of (toW32 (s.mem.dramBytes (L.slotPa slot + 4 * k) 4))

/-- R292. -/
def State.mergeSlots (s : State) (L : BankLaunch) : State :=
  let n := bdEnum L.body
  let step := fun (a : Attn) (e : Nat) =>
    let o := s.slotLanes L (e * n)
    let ml := s.slotLanes L (e * n + 1)
    let m := ml.getD 0 .nan
    let l := ml.getD 1 .nan
    let m2 := a.m.max m
    let x := ex2R (subInf a.m m2)
    let y := ex2R (subInf m m2)
    ({ m := m2, l := r32 (FVal.add .rne (r32 (FVal.mul a.l x)) (r32 (FVal.mul l y))),
       o := a.o.zipIdx.map fun z => r32 (FVal.add .rne (r32 (FVal.mul z.1 x)) (r32 (FVal.mul (o.getD z.2 .nan) y))) } : Attn)
  let a := (List.range (bdCount L.body)).foldl step Attn.start
  let at_ := bdCount L.body * n
  let o := (a.o.map fun x => bytes4 (rne x)).flatten
  let ml := bytes4 (rne a.m) ++ bytes4 (rne a.l) ++ List.replicate 248 0
  (({ s with mem := (s.mem.dramWrite (L.slotPa at_) o).dramWrite (L.slotPa (at_ + 1)) ml } : State).markDirty (L.slotPa at_) 256).markDirty
    (L.slotPa (at_ + 1)) 256

def execAttentionMerge (l : Nat) (s : State) : Host.Outcome State Fault Refusal :=
  match s.bankLaunch? l with
  | none => .next s
  | some L =>
    if L.phase != .running || !bitAt (natAt L.body 0 8) 12 || L.merged || L.insts.any (fun i => i.status != some 0) then
      .next s
    else .next ((s.mergeSlots L).updBank l fun L => { L with merged := true })

/-- The completion word (R297). -/
def BankLaunch.word (L : BankLaunch) : Nat :=
  let failed := L.insts.filterMap fun i => match i.status, i.bad with
    | some c, some e => if c = 0 then none else some (e, c)
    | _, _ => none
  let low := match failed with
    | [] => none
    | b :: bs => some (bs.foldl (fun (m x : Nat × Nat) => if x.1 < m.1 then x else m) b)
  let rex := L.insts.foldl (fun m i => Nat.max m i.rex) 0
  let excl := L.insts.any (·.excl)
  let code := match low with | some (_, c) => c | none => L.status
  let bad := match low with | some (e, _) => engNum e - bdFirst L.body | none => 0
  code + 16 * rex + (if excl then 64 else 0) + 256 * bad + 2 ^ 63

def execBankCompletion (l : Nat) (s : State) : Host.Outcome State Fault Refusal :=
  let no : Host.Outcome State Fault Refusal := .next s
  match s.bankLaunch? l with
  | none => no
  | some L =>
    let ok := L.insts.all fun i => i.status == some 0
    let done := L.phase == .ended || (L.phase == .running && (L.insts.all fun i => i.status.isSome) &&
      (!(bitAt (natAt L.body 0 8) 12 && ok) || L.merged))
    let free := fun (s : State) =>
      (({ s with bank := { s.bank with rot := s.bank.rot.filter fun e => e.launch != l } } : State).dropBank l)
    if !done then no
    else match L.comp with
      | none => .next (free s)
      | some (pa, bypass) =>
        if !s.bankReady pa || !s.pageOpen pa || !s.settled pa 8 || (s.l2Room pa).isNone then no
        else .next (free ((s.settle pa 8).perform pa (natToBytes 8 L.word) bypass))

/-- A dirty line's writeback arrives at its channel controller (R299, R300): the slice keeps a clean copy or none. -/
def execCoreAccessArrives (sector : Nat) (s : State) : Host.Outcome State Fault Refusal :=
  match s.mem.sector? sector with
  | some x => if x.dirty && s.writebackOk x.base then .next (s.writeback x.base (s.flip [0x901, x.base]))
      else .next s
  | none => .next s

end Sys2Proof.Machine
end

