-- ==== Sys2Proof/Machine/Paging.lean ====
section
/-! DEFINITION. Residency and migration: opcodes 0x480 to 0x483, the page-request ring, migrations, shadow stubs,
redirects and reclamation (R317 to R342). -/

set_option linter.unusedVariables false

namespace Sys2Proof.Machine

/-! The page-request ring (R324, R325). -/

def State.updXlat (s : State) (f : Xlat → Xlat) : State := { s with xlat := f s.xlat }

/-- DEDUCED, log entry 72. -/
def prOn (s : State) : Bool := s.xlat.prSize.getLsbD 3
def prSlots (s : State) : Nat := 2 ^ (6 + Nat.min (s.xlat.prSize.extractLsb' 0 3).toNat 6)

/-- A record for the ring, held on chip until it is written.  DEDUCED, log entry 71. -/
def State.prHold (s : State) (lo hi : Nat) (tag : Option Nat) : State :=
  s.updXlat fun x => { x with prHeld := x.prHeld ++ [⟨BitVec.ofNat 64 lo, BitVec.ofNat 64 hi, tag⟩] }

def execPageRequestRingWrite (s : State) : Host.Outcome State Fault Refusal :=
  let x := s.xlat
  match x.prHeld with
  | [] => .next s
  | r :: rest =>
    let at_ := (x.prBase.extractLsb' 4 48).toNat * 16 + x.prTail.toNat % prSlots s * 16
    let pa := s.resolve at_
    let gone := s.movedAway at_
    if !prOn s || prSlots s ≤ (x.prTail - x.prHead).toNat || !paDevice at_ || (!gone && !s.sliceReady pa 16 false) then
      .next s
    else
      let s := if gone then s else (s.settle pa 16).perform pa (bytes8 r.lo ++ bytes8 r.hi) false
      let s := s.updXlat fun x => { x with prHeld := rest, prTail := x.prTail + 1 }
      .next { s with boot := { s.boot with msix := s.boot.msix.modify 1 (· + 1) } }

/-- The requests of a tag answered (R325). -/
def State.prAnswer (s : State) (tag : Nat) (code : Nat) : State :=
  let f := fun (o : Op) => match o.kind with
    | .pgreq _ _ dst (some t) => if t == tag then { o with kind := .result [.v dst (BitVec.ofNat 32 code)] } else o
    | _ => o
  ({ s with ops := s.ops.map f } : State).updXlat fun x => { x with prOut := x.prOut.filter fun q => q.tag != tag }

def execPrDone (v : W32) (s : State) : Host.Outcome State Fault Refusal :=
  .next (s.prAnswer (v.extractLsb' 0 16).toNat (if v.getLsbD 16 then 1 else 0))

/-- A write of PR_SIZE: clearing the enable discards the records held on chip (R325). -/
def State.setPrSize (s : State) (v : W32) : State :=
  let s1 := s.updXlat fun x => { x with prSize := v &&& 0xF }
  if prOn s && !v.getLsbD 3 then
    let s2 := s.xlat.prHeld.foldl (fun s r => match r.tag with | some t => s.prAnswer t 1 | none => s) s1
    s2.updXlat fun x => { x with prHeld := [] }
  else s1

def execPrSize (v : W32) (s : State) : Host.Outcome State Fault Refusal := .next (s.setPrSize v)

/-! pgreq (R337). -/

/-- A new record for a page's request, with a tag of its own. -/
def State.enterReq (s : State) (o : Nat) (va : W64) (dst : Nat) (w : Bool) (root page die : Nat) : State :=
  let tag := s.xlat.prTag % 2 ^ 16
  let s := s.prHold ((if w then 16 else 0) + page * 2 ^ 16) (tag + die * 2 ^ 16) (some tag)
  let s := s.updXlat fun x => { x with prTag := (tag + 1) % 2 ^ 16, prOut := x.prOut ++ [⟨root, page, w, tag, die⟩] }
  s.updOp o fun x => { x with kind := .pgreq va w dst (some tag) }

/-- The walk and its answer, or the record the request enters or joins. -/
def State.pgreqGo (s : State) (o : Nat) : State :=
  match s.op? o with
  | none => s
  | some op =>
    match op.kind with
    | .pgreq va w dst none =>
      let c := s.ctx op.thr
      let leaf := (s.walk c.root va.toNat).map (·.2)
      let done := fun (n : Nat) => s.updOp o fun x => { x with kind := .result [.v dst (BitVec.ofNat 32 n)] }
      match leaf with
      | none => done 2
      | some l =>
        if !lfV l || !lfU l || (w && !lfW l) then done 2
        else if !lfN l then done 0
        else if !prOn s then done 1
        else
          let page := va.toNat / 2 ^ 16
          let old := s.xlat.prOut.reverse.find? fun q => q.root == c.root && q.page == page
          match old with
          | some q =>
            if w && !q.write then s.enterReq o va dst w c.root page c.die
            else s.updOp o fun x => { x with kind := .pgreq va w dst (some q.tag) }
          | none => s.enterReq o va dst w c.root page c.die
    | _ => s

def execPgreq (c : Ctl) (w : Bool) (d a : Operand) (off : BitVec 12) (s : State) : Host.Outcome State Fault Refusal :=
  native c (.pgreq c w d a off) s fun s t =>
    let va := s.addr t a off
    if s.loadHeld t c d 1 then .stay s
    else if 2 ^ 57 ≤ va.toNat then .trap s causeProtection va false
    else if !(s.ctx t).quant && s.walkHeld (s.ctx t).root va.toNat then .stay s
    else
      let id := s.nextId
      let s1 := s.begin_ t c (.pgreq va w (opNum d) none) none
      let s2 := s1.pgreqGo id
      if (s.ctx t).quant then .next (s1.defer t)
      else if ((s2.op? id).map fun o => match o.kind with | .pgreq _ _ _ _ => true | _ => false).getD false then s2.hold t id
      else .next s2

/-! Invalidation (R339, R340). -/

/-- Cached translations removed; the frames they led to. -/
def State.dropTlb (s : State) (p : TlbEnt → Bool) : List (Nat × Nat) × State :=
  let gone := s.xlat.tlb.filter p
  (gone.map fun e => (lfFrame e.leaf, tlbSpan e.leaf), s.updXlat fun x => { x with tlb := x.tlb.filter fun e => !p e })

def State.inval (s : State) (t : TRef) (c : Ctl) (p : TlbEnt → Bool) : Lane :=
  if s.flagFull t c then .stay s
  else
    let r := s.dropTlb p
    .next (r.2.begin_ t c (.inval r.1) none)

/-- Entries of an address space that `.all` removes. -/
def tlbAll (root : Nat) (e : TlbEnt) : Bool := e.root == root && !lfG e.leaf
def tlbPages (root first n : Nat) (e : TlbEnt) : Bool :=
  e.root == root && n != 0 && e.page < first + n && first < e.page + tlbSpan e.leaf

def execTlbinvPage (c : Ctl) (a b : Operand) (s : State) : Host.Outcome State Fault Refusal :=
  native c (.tlbinvPage c a b) s fun s t =>
    let n := (s.src32 t b).toNat
    let root := (s.ctx t).root
    s.inval t c (if 65536 < n then tlbAll root else tlbPages root ((s.src64 t a).toNat / 2 ^ 16 % 2 ^ 41) n)

def execTlbinvAll (c : Ctl) (s : State) : Host.Outcome State Fault Refusal :=
  native c (.tlbinvAll c) s fun s t => s.inval t c (tlbAll (s.ctx t).root)

/-- An invalidation is complete once every access that used a removed entry has been performed or has reached a stub. -/
def State.invalDone (s : State) (o : Op) (frames : List (Nat × Nat)) : Bool :=
  !s.pendingIn o.id none fun f => (frames.any fun g => g.1 ≤ f && f < g.1 + g.2) && !s.xlat.stubs.any fun b => b.old == f

def execPocinvPage (c : Ctl) (a b : Operand) (s : State) : Host.Outcome State Fault Refusal :=
  native c (.pocinvPage c a b) s fun s t =>
    let page := (s.src64 t a).toNat / 2 ^ 16 % 2 ^ 41
    let rank := (s.src32 t b).toNat
    if s.flagFull t c then .stay s
    else .next ((s.updXlat fun x => { x with poc := x.poc.filter fun e => !(e.rank == rank && e.page == page && rank < s.nranks) }).result t c [])

def execPocinvAll (c : Ctl) (s : State) : Host.Outcome State Fault Refusal :=
  native c (.pocinvAll c) s fun s t =>
    if s.flagFull t c then .stay s
    else .next ((s.updXlat fun x => { x with poc := [] }).result t c [])

/-! Migration (R326 to R328, R338). -/

def State.mig? (s : State) (m : Nat) : Option Mig := s.xlat.migs.find? fun x => x.id == m
def State.setMig (s : State) (m : Mig) : State := s.updMigs fun x => if x.id == m.id then m else x
def State.dropMig (s : State) (m : Nat) : State := s.updXlat fun x => { x with migs := x.migs.filter fun y => y.id != m }

def execPgmig (c : Ctl) (d a b : Operand) (s : State) : Host.Outcome State Fault Refusal :=
  native c (.pgmig c d a b) s fun s t =>
    let dest := s.src64 t b
    if s.flagFull t c || s.destLocked t d 1 then .stay s
    else
      let m := s.nextId
      let s1 := ({ s with nextId := s.nextId + 1 } : State)
      let rank := if dest.extractLsb' 0 16 = 0 then (dest.extractLsb' 52 12).toNat else 2 ^ 12
      let mig : Mig := ⟨m, s1.nextId, s.src64 t a, (s.ctx t).root, 0, 0, rank, (dest.extractLsb' 16 36).toNat, .waiting, 0, []⟩
      .next ((s1.begin_ t c (.pgmig m (opNum d)) none).updXlat fun x => { x with migs := x.migs ++ [mig] })

/-- The page that a migration moves: leaf address and leaf, none where it cannot be moved (NOTPAGE). -/
def State.migPage (s : State) (m : Mig) : Option (Nat × W64) :=
  match s.walk m.root (m.va.toNat % 2 ^ 57) with
  | some (pa, l) =>
    let home := lfFrame l * 2 ^ 16
    if m.va.toNat < 2 ^ 57 && lfV l && !lfN l && lfSize l == 0 && !lfM l && paDevice home then some (pa, l) else none
  | none => none

/-- A frame that a page with BS = 1 cannot be sent to (R307, R338). -/
def bsFrameBad (frame : Nat) : Bool :=
  let pa := frame * 2 ^ 16
  4 ≤ paHome pa || (List.range 16).any fun j =>
    let q := pa + 4096 * j
    !rowEligible (256 * (hbmChan q / 32) + rowEngine q) (hbmRow q)

/-- BADDEST, as far as this device can tell: the repair map of another device is that device's to check (R327, R338). -/
def State.migDestBad (s : State) (m : Mig) (l : W64) : Bool :=
  let pa := m.new * 2 ^ 16
  !paDevice pa || (m.rank == s.rank && m.new == lfFrame l) || s.nranks ≤ m.rank ||
    (lfBS l && if m.rank == s.rank then bsFrameBad m.new else decide (4 ≤ paHome pa))

/-- A migration ends with a status: its `pgmig` is answered; one that had begun leaves M clear and a KIND 2 record.  DEDUCED, log entry 73. -/
def State.migEnd (s : State) (m : Mig) (code : Nat) (begun : Bool) : State :=
  let s := s.updOp m.op fun o => match o.kind with
    | .pgmig _ dst => { o with kind := .result [.v dst (BitVec.ofNat 32 code)] }
    | _ => o
  let s := s.dropMig m.id
  let s := { s with fab := { s.fab with xfers := s.fab.xfers.filter fun x => x.of != .page m.id } }
  if begun then s.prHold (2 + m.old * 2 ^ 16) (code + paDie (m.old * 2 ^ 16) * 2 ^ 16) none else s

/-- Bit M of the leaf cleared where a migration gives up. -/
def State.clearM (s : State) (m : Mig) : State :=
  s.perform m.leafPa (bytes8 (toW64 (s.mem.visBytes m.leafPa 8) &&& ~~~(0x8000 : W64))) false

/-- A row ownership entry covers a row-set of the page (R316). -/
def State.rowsOwned (s : State) (frame : Nat) : Bool := (List.range 16).any fun j => (s.rotAt (frame * 2 ^ 16 + 4096 * j)).isSome

def State.migWaits (s : State) (m : Nat) : Bool := s.fab.xfers.any fun x => x.of == .page m

/-- The packet of a migration toward another rank: the check of its leaf, a sector, or the last one (R327). -/
def State.pagePacket (s : State) (M : Mig) (l : W64) (off : Nat) (data : List Byte) (last : Bool) : Packet :=
  .pageCopy s.nextId (BitVec.ofNat 64 (M.va.toNat / 2 ^ 16 * 2 ^ 16 + off)) M.new (lfBS l) data last

/-- Stubs of a die with those that its migrations in progress will install (R329, R338).  DESIGN CHOICE, log entry 135. -/
def State.stubLoad (s : State) (die : Nat) : Nat :=
  (s.xlat.stubs.countP fun b => b.die == die) + s.xlat.migs.countP fun x =>
    (x.phase == MigPhase.copying || x.phase == MigPhase.final) && paDie (x.old * 2 ^ 16) == die

def execMigrationStart (m : Nat) (s : State) : Host.Outcome State Fault Refusal :=
  let no : Host.Outcome State Fault Refusal := .next s
  match s.mig? m with
  | none => no
  | some M =>
    if M.phase != MigPhase.waiting || s.migWaits m || s.walkHeld M.root (M.va.toNat % 2 ^ 57) then no
    else match s.migPage M with
      | none => .next (s.migEnd M 1 false)
      | some (leafPa, l) =>
        let old := lfFrame l
        let die := paDie (old * 2 ^ 16)
        if s.migDestBad M l then .next (s.migEnd M 2 false)
        else if 4096 ≤ s.stubLoad die then .next (s.migEnd M 3 false)
        else if s.rowsOwned old || !s.sliceReady leafPa 8 false then no
        else
          let M' := { M with leafPa := leafPa, old := old }
          if M.rank != s.rank && M.passes = 0 then
            .next ((s.setMig { M' with passes := 1 }).sendXfer die M.rank (.page m) (s.pagePacket M l 0 [] false))
          else
            let s := (s.settle leafPa 8).perform leafPa (bytes8 (l ||| 0x8000)) false
            .next (s.setMig { M' with phase := MigPhase.copying, passes := 0 })

/-- Sectors copied to the new frame, as copy-engine traffic or as a fabric transfer. -/
def State.migCopy (s : State) (M : Mig) (sectors : List Nat) : State :=
  if M.rank == s.rank then
    sectors.foldl (fun s k => s.perform (M.new * 2 ^ 16 + 256 * k) (s.mem.visBytes (M.old * 2 ^ 16 + 256 * k) 256) false) s
  else sectors.foldl (fun s k =>
    s.sendXfer (paDie (M.old * 2 ^ 16)) M.rank (.page M.id) (s.pagePacket M (toW64 (s.mem.visBytes M.leafPa 8)) (256 * k)
      (s.mem.visBytes (M.old * 2 ^ 16 + 256 * k) 256) false)) s

/-- Whether the sectors can be read and written now: no row-set of the page is a bank launch's, what has been seen of
them beyond its own path can be performed (R79, R316). -/
def State.migReady (s : State) (M : Mig) (sectors : List Nat) : Bool :=
  !s.rowsOwned M.old && s.settled (M.old * 2 ^ 16) (2 ^ 16) && sectors.all fun k => (sectorsOf (M.old * 2 ^ 16 + 256 * k) 256).all fun b => s.coreReadOk b &&
    (M.rank != s.rank || s.sliceReady (M.new * 2 ^ 16 + b % 2 ^ 16) 32 false)

/-- The end of a copy pass (R326): whether a written sector's copy had begun before the write is free.  DESIGN CHOICE, log entry 74. -/
def execMigrationPassEnd (m : Nat) (s : State) : Host.Outcome State Fault Refusal :=
  match s.mig? m with
  | none => .next s
  | some M =>
    let s0 := s
    let sectors := if M.passes = 0 then List.range 256 else M.dirty
    if M.phase != MigPhase.copying || s.migWaits m || !s.migReady M sectors then .next s
    else
      let late := M.dirty.filter fun k => s.flip [0xA00, k]
      let s := (s.settle (M.old * 2 ^ 16) (2 ^ 16)).migCopy M sectors
      if late.length ≤ 64 then .next (s.setMig { M with phase := MigPhase.final, passes := M.passes + 1, dirty := [] })
      else if 8 ≤ M.passes + 1 then
        if s.sliceReady M.leafPa 8 false then .next (((s.settle M.leafPa 8).clearM M).migEnd M 4 true) else .next s0
      else .next (s.setMig { M with passes := M.passes + 1, dirty := [] })

/-! Relocation of pending accesses (R329, R332). -/

def moveAddr (old new : Nat) (a : Nat) : Nat := if a / 2 ^ 16 = old then new * 2 ^ 16 + a % 2 ^ 16 else a
def movePlace (old new : Nat) : Place → Place
  | .mem a => .mem (moveAddr old new a)
  | p => p

def OpKind.moved (old new : Nat) : OpKind → OpKind
  | .load l ps f e => .load l (ps.map fun p => if p.got.isNone then { p with at_ := movePlace old new p.at_ } else p) f e
  | .mwait a ty v d r h => .mwait (moveAddr old new a) ty v d r h
  | .cntw a v d r h => .cntw (moveAddr old new a) v d r h
  | .jwait a d r h => .jwait (moveAddr old new a) d r h
  | .bgwait a d m h => .bgwait (moveAddr old new a) d m h
  | .atomic n m d => .atomic n { m with pa := moveAddr old new m.pa } d
  | .acall n a v e r g d k b => .acall n (moveAddr old new a) v e r g d k b
  | .mld rs c o d g => .mld (rs.map fun p => { p with src := movePlace old new p.src }) c o d g
  | .mret ps => .mret (ps.map fun p => (movePlace old new p.1, p.2))
  | k => k

/-- The pending places of an operation that lie in a frame now on another device: its outcome there is the peer's, a free
one of those its rule leaves possible (R189, R260, R276, R312, R429).  DEDUCED, log entry 76. -/
def State.opGone (s : State) (o : Op) (old : Nat) : State :=
  let free := fun (i : Nat) => Config.freeWord s.tick [0xA10, o.id, i]
  let free64 : W64 := free 1 ++ free 0
  let here := fun (a : Nat) => a / 2 ^ 16 == old
  let put := fun (k : OpKind) => s.updOp o.id fun x => { x with kind := k }
  match o.kind with
  | .load l ps f e => put (.load l (ps.zipIdx.map fun p => match p.1.at_, p.1.got with
      | .mem a, none => if here a then { p.1 with got := some ((List.range p.1.len).map fun j => Config.freeByte s.tick [0xA11, o.id, p.2, j]) } else p.1
      | _, _ => p.1) f e)
  | .mwait a ty v d r _ =>
    let x := if tyWide ty then free64 else (free 0).zeroExtend 64
    put (.mwait a ty v d r (some (if x == v then (if tyWide ty then v + 1 else ((v.extractLsb' 0 32) + 1).zeroExtend 64) else x)))
  | .cntw a v d r _ => put (.cntw a v d r (some (if v.ule free64 then free64 else v)))
  | .jwait a d r _ => put (.jwait a d r (some (free64 &&& ~~~(0xFFFFFFFF : W64))))
  | .bgwait a d m _ => put (.bgwait a d m (some (free64 ||| (1 : W64) <<< 63)))
  | .atomic _ m d => match o.flag, d with
      | some _, some d => put (.result (atomDst m.ty d free64))
      | _, _ => s.dropOp o.id
  | .acall _ _ _ _ _ _ d k _ =>
    let code := (free 0).toNat % 4
    put (.result (.v d (BitVec.ofNat 32 (code + 16 * ((free 0).toNat / 4 % 65))) ::
      (List.range k).map fun i => .v (d + 1 + i) (if code = 0 then free (i + 1) else 0)))
  | .mld rs c q d g => put (.mld (rs.map fun p => match p.src with
      | .mem a => if here a then { p with src := .nowhere, bytes := [] } else p
      | _ => p) c q d g)
  | .mret ps => put (.mret (ps.filter fun p => match p.1 with | .mem a => !here a | _ => true))
  | _ => s

def Piece.moved (old new : Nat) (p : Piece) : Piece := { p with src := movePlace old new p.src, dst := movePlace old new p.dst }
def Piece.gone (old : Nat) (p : Piece) : Piece :=
  let here := fun (x : Place) => match x with | .mem a => a / 2 ^ 16 == old | _ => false
  { p with src := if here p.src then .nowhere else p.src, bytes := if here p.src then [] else p.bytes,
           dst := if here p.dst then .nowhere else p.dst }

/-- A pending object whose next place is at a stub: the stub, its die. -/
structure AtStub where
  b : Stub
  die : Nat
  deriving DecidableEq, Repr

/-- The stub that an access waits at: an operation, a queued write, a request, a counter increase or the completion word of
a bank launch. -/
def State.waitsAt (s : State) (id : Nat) : Option AtStub :=
  let look := fun (core : Nat) (as : List Nat) => as.findSome? fun a => (s.stubAt a).map fun b => (⟨b, core / 256⟩ : AtStub)
  let found : List (Nat × List Nat) :=
    ((s.op? id).map fun o => (o.core, o.kind.places)).toList ++
    ((s.mem.wq.find? fun e => e.id == id).map fun e => (e.core, [e.pa])).toList ++
    ((s.req? id).map fun r => (r.core, (r.pieces.map Piece.places).flatten)).toList ++
    ((s.incs.find? fun c => c.id == id && c.far.isNone).map fun c => (0, [c.pa])).toList ++
    ((s.bankLaunch? id).bind fun l => l.comp.map fun c => (l.stack / 2 * 256, [c.1])).toList
  found.findSome? fun x => look x.1 x.2

/-- The object performed at a new place from now on. -/
def State.relocate (s : State) (id old new : Nat) : State :=
  let s := s.updOp id fun o => { o with kind := o.kind.moved old new }
  let s := s.updWq fun e => if e.id == id then { e with pa := moveAddr old new e.pa } else e
  let s := s.updReq id fun r => { r with pieces := r.pieces.map (Piece.moved old new) }
  let s := s.updBank id fun l => { l with comp := l.comp.map fun c => (moveAddr old new c.1, c.2) }
  { s with incs := s.incs.map fun c => if c.id == id then { c with pa := moveAddr old new c.pa } else c }

/-- The object performed on another device.  DEDUCED, log entry 77. -/
def State.away (s : State) (id old : Nat) : State :=
  let s := match s.op? id with | some o => s.opGone o old | none => s
  let s := { s with mem := { s.mem with wq := s.mem.wq.filter fun e => e.id != id }, incs := s.incs.filter fun c => c.id != id }
  let s := s.updBank id fun l => { l with comp := l.comp.bind fun c => if c.1 / 2 ^ 16 == old then none else some c }
  s.updReq id fun r => { r with pieces := r.pieces.map (Piece.gone old) }

def State.hopsOf (s : State) (id : Nat) : Nat := ((s.xlat.hops.find? fun h => h.1 == id).map (·.2)).getD 0
def State.stubOld (s : State) (b : Stub) : Bool := 4000000 < s.gtsc - b.since

/-- What goes on with an object at a stub: the steps of its gang run to the same frame, which stay one run (R272). -/
def State.stubRun (s : State) (id old : Nat) : List Nat :=
  match s.op? id with
  | none => [id]
  | some o => (id :: ((s.sliceRun o).filter fun x => x.kind.places.any fun a => a / 2 ^ 16 == old).map (·.id)).eraseDups

def execStubForward (op : Nat) (s : State) : Host.Outcome State Fault Refusal :=
  match s.waitsAt op with
  | none => .next s
  | some w =>
    if 2 ≤ s.hopsOf op || s.stubOld w.b then .next s
    else
      let far := w.b.rank != s.rank
      let r : Redir := ⟨s.nextId, w.die, w.b.root, w.b.old, if far then none else some w.b.new⟩
      let ids := s.stubRun op w.b.old
      let hops := ids.map fun i => (i, s.hopsOf i + 1)
      let s := ids.foldl (fun s i => if far then s.away i w.b.old else s.relocate i w.b.old w.b.new) s
      .next (({ s with nextId := s.nextId + 1 } : State).updXlat fun x =>
        { x with redirs := x.redirs ++ [r], hops := hops ++ x.hops.filter fun h => !ids.contains h.1 })

def execRedirect (id : Nat) (s : State) : Host.Outcome State Fault Refusal :=
  match s.xlat.redirs.find? fun r => r.id == id with
  | none => .next s
  | some r =>
    let mine := fun (e : TlbEnt) => e.die == r.die && tlbSpan e.leaf == 1 && lfFrame e.leaf == r.old
    .next (s.updXlat fun x => { x with
      redirs := x.redirs.filter fun y => y.id != id
      tlb := match r.new with
        | some f => x.tlb.map fun e => if mine e then { e with leaf := lfSetFrame e.leaf f } else e
        | none => x.tlb.filter fun e => !mine e })

/-- CHASE (R330): the die's translations of the old frame dropped, the page walked again, the access issued anew, on
another device where the walk ends at a forward leaf; with no resident leaf it waits.  DEDUCED, log entry 75. -/
def execChase (op : Nat) (s : State) : Host.Outcome State Fault Refusal :=
  match s.waitsAt op with
  | none => .next s
  | some w =>
    if !(2 ≤ s.hopsOf op || s.stubOld w.b) || s.walkHeld w.b.root (w.b.va.toNat % 2 ^ 57) then .next s
    else
      let s := s.updXlat fun x => { x with hops := x.hops.filter (fun h => h.1 != op)
                                           tlb := x.tlb.filter fun e => !(e.die == w.die && tlbSpan e.leaf == 1 && lfFrame e.leaf == w.b.old) }
      match s.walk w.b.root (w.b.va.toNat % 2 ^ 57) with
      | some (_, l) =>
        if lfThere l then .next (s.relocate op w.b.old (lfFrame l))
        else if lfForward l then .next (s.away op w.b.old)
        else .next s
      | none => .next s

/-! The switch and reclamation (R326, R332, R333). -/

/-- A monitor moved to the new home is compared there again. -/
def State.moveMonitor (s : State) (o : Op) (old new : Nat) : State :=
  let at8 := fun (a : Nat) => toW64 (s.mem.visBytes (moveAddr old new a) 8)
  let here := fun (a : Nat) => a / 2 ^ 16 == old
  let put := fun (k : OpKind) => s.updOp o.id fun x => { x with kind := k }
  match o.kind with
  | .mwait a ty v d true none =>
    let x := toW64 (s.mem.visBytes (moveAddr old new a) (atomBytes ty))
    if here a then put (.mwait (moveAddr old new a) ty v d true (if x != v then some x else none)) else s
  | .cntw a v d true none =>
    if here a then put (.cntw (moveAddr old new a) v d true (if v.ule (at8 a) then some (at8 a) else none)) else s
  | .jwait a d true none =>
    if here a then put (.jwait (moveAddr old new a) d true (if (at8 a).extractLsb' 0 32 == 0 then some (at8 a) else none)) else s
  | .bgwait a d true none =>
    if here a then put (.bgwait (moveAddr old new a) d true (if (at8 a).msb then some (at8 a) else none)) else s
  | _ => s

/-- The leaf after the switch: the new frame, or the forward leaf to another rank (R326, R327). -/
def switchLeaf (l : W64) (far : Bool) (rank new : Nat) : W64 :=
  if far then (lfSetFrame l (0xE * 2 ^ 32 + rank) ||| 0x8080) else lfSetFrame l new &&& ~~~(0x8000 : W64)

/-- The monitor of a page that has gone to another device is compared there again (R332): it waits at the stub to be sent on,
and the value that then ends its wait is the peer's.  DEDUCED, log entry 38. -/
def State.farMonitor (s : State) (o : Op) (old : Nat) : State :=
  let put := fun (a : Nat) (k : OpKind) => if a / 2 ^ 16 == old then s.updOp o.id fun x => { x with kind := k } else s
  match o.kind with
  | .mwait a ty v d true none => put a (.mwait a ty v d false none)
  | .cntw a v d true none => put a (.cntw a v d false none)
  | .jwait a d true none => put a (.jwait a d false none)
  | .bgwait a d true none => put a (.bgwait a d false none)
  | _ => s

/-- The stores and discards that quantum-mode threads hold toward a page follow it to its new frame (R91, R342). -/
def State.moveBuffered (s : State) (old new : Nat) : State :=
  let item := fun (q : QItem) => match q with
    | .store pa d b => .store (moveAddr old new pa) d b
    | q => q
  { s with
    groups := s.groups.map fun G => { G with threads := G.threads.map fun x => { x with quantum := x.quantum.map item } }
    ops := s.ops.map fun o => match o.kind with
      | .discard a n b => if s.deferred o then { o with kind := .discard (moveAddr old new a) n b } else o
      | _ => o }

def execMigrationSwitch (m : Nat) (s : State) : Host.Outcome State Fault Refusal :=
  match s.mig? m with
  | none => .next s
  | some M =>
    let far := M.rank != s.rank
    if M.phase != MigPhase.final || s.migWaits m || !s.migReady M M.dirty || !s.sliceReady M.leafPa 8 false then
      .next s
    else if far && !M.dirty.isEmpty then .next ((s.migCopy M M.dirty).setMig { M with dirty := [] })
    else if far && M.passes < 100 then
      .next ((s.setMig { M with passes := 100 }).sendXfer (paDie (M.old * 2 ^ 16)) M.rank (.page m) (s.pagePacket M (toW64 (s.mem.visBytes M.leafPa 8)) 0 [] true))
    else
      let s := s.migCopy M M.dirty
      let l := toW64 (s.mem.visBytes M.leafPa 8)
      let s := s.perform M.leafPa (bytes8 (switchLeaf l far M.rank M.new)) false
      let s := { s with mem := { s.mem with l2 := s.mem.l2.filter fun x => x.base / 2 ^ 16 != M.old } }
      let die := paDie (M.old * 2 ^ 16)
      let sharers := (List.range 4).filter fun d => d == die || s.xlat.tlb.any fun e => e.die == d &&
        lfFrame e.leaf ≤ M.old && M.old < lfFrame e.leaf + tlbSpan e.leaf
      let b : Stub := ⟨s.nextId, M.va, M.root, die, M.old, M.rank, M.new, s.gtsc, sharers, []⟩
      let s := ({ s with nextId := s.nextId + 1 } : State).updXlat fun x => { x with stubs := x.stubs ++ [b] }
      let s := s.ops.foldl (fun s o => if far then s.farMonitor o M.old else s.moveMonitor o M.old M.new) s
      let s := if far then s else s.moveBuffered M.old M.new
      .next (s.migEnd M 0 true)

def execStubReclaimQuery (stub die : Nat) (s : State) : Host.Outcome State Fault Refusal :=
  match s.xlat.stubs.find? fun b => b.id == stub with
  | none => .next s
  | some b =>
    if !b.queries.contains die then .next s
    else
      let used := fun (e : TlbEnt) => e.die == die && lfFrame e.leaf ≤ b.old && b.old < lfFrame e.leaf + tlbSpan e.leaf
      .next (s.updXlat fun x => { x with
        tlb := x.tlb.filter fun e => !used e
        stubs := listUpd (fun y => y.id == stub) (fun y => { y with queries := y.queries.filter (· != die), waiting := y.waiting ++ [die] }) x.stubs })

/-- A queried die replies once its accesses to the old frame have passed the stub; after the last reply the stub is
freed and recorded. -/
def execStubReclaimReply (stub : Nat) (s : State) : Host.Outcome State Fault Refusal :=
  match s.xlat.stubs.find? fun b => b.id == stub with
  | none => .next s
  | some b =>
    match b.waiting.find? fun d => !(s.pendingIn s.nextId (some d) fun f => f == b.old) && !s.xlat.redirs.any fun r => r.die == d && r.old == b.old with
    | none => .next s
    | some d =>
      let left := b.waiting.filter (· != d)
      if b.queries.isEmpty && left.isEmpty then
        .next ((s.updXlat fun x => { x with stubs := x.stubs.filter fun y => y.id != stub }).prHold (1 + b.old * 2 ^ 16) (b.die * 2 ^ 16) none)
      else .next (s.updXlat fun x => { x with stubs := listUpd (fun y => y.id == stub) (fun y => { y with waiting := left }) x.stubs })

end Sys2Proof.Machine
end

