-- ==== Sys2Proof/Machine/Remote.lean ====
section
/-! DEFINITION. The remote call: opcodes 0x500 to 0x503, the executors, replies, timeouts and deduplication
(R343 to R361). -/

set_option linter.unusedVariables false

namespace Sys2Proof.Machine

/-- No executor: a call refused at its caller, or one that an executor has dropped. -/
def execNone : Nat := 192

/-- How the target and entry of a call translate (R347). -/
inductive CallXlat
  | send (pa exec : Nat) (leafW bypass : Bool) (s : State)
  | refuse (code : Nat) (va : W64) (s : State)
  /-- A walk has to wait (R299, R300). -/
  | wait

/-- A leaf through which a call goes or waits to go: valid, at user level, no forward leaf. -/
def callLeafOk (l : W64) : Bool := lfV l && lfU l && !lfForward l

/-- The translations of R347 for a caller: the target alone for `rstat`. -/
def State.callXlat (s : State) (t : TRef) (l2 : Bool) (va : W64) (entry : Option W64) : CallXlat :=
  let c := s.ctx t
  let look := fun (a : W64) => if 2 ^ 57 ≤ a.toNat then (⟨none, 0, false, false⟩ : Look) else s.lookup c.die c.root a.toNat false [0xB00, a.toNat]
  let T := look va
  let E := entry.map fun e => (e, look e)
  let tl := T.leaf.getD 0
  let pa := lfFrame tl * 2 ^ 16 + va.toNat % 2 ^ 16
  let eBad := match E with
    | some (e, L) => if callLeafOk (L.leaf.getD 0) && lfX (L.leaf.getD 0) then none else some e
    | none => none
  let eNon := match E with
    | some (e, L) => if lfN (L.leaf.getD 0) then some e else none
    | none => none
  let u : TlbUser := .core c.core
  if T.wait || (E.map fun e => e.2.wait).getD false then .wait
  else if !callLeafOk tl then .refuse 1 va s
  else if !lfN tl && (executorOf pa l2).isNone then .refuse 1 va (s.refuseWindow pa)
  else match eBad with
    | some e => .refuse 1 e s
    | none =>
      if lfN tl then .refuse 2 va s
      else match eNon with
        | some e => .refuse 2 e s
        | none =>
          let s := s.fillTlb u c.die c.root va.toNat T false
          let s := match E with
            | some (e, L) => s.fillTlb u c.die c.root e.toNat L false
            | none => s
          if s.redirHeld u pa then .wait
          else .send pa ((executorOf pa l2).getD 0) (lfW tl) (lfBypass tl) s

def State.dropCall (s : State) (id : Nat) : State :=
  { s with remote := { s.remote with calls := s.remote.calls.filter fun k => k.id != id } }

/-- A call translated and sent, or refused at its caller (R347); sent again after a CHASE, unless its caller has given it up (R356, R357); none where a walk waits.
DEDUCED, log entry 78. -/
def State.rcallGo (s : State) (id : Nat) : Option State :=
  match s.call? id with
  | none => some s
  | some k =>
    match s.op? k.op with
    | none => some (s.dropCall id)
    | some o =>
      match s.callXlat o.thr k.l2 k.va (some k.entry) with
      | .wait => none
      | .refuse code va s => some <| s.updCall id fun k => { k with phase := .replied, exec := execNone, code := code, faultVa := va }
      | .send pa e w b s => some <| s.updCall id fun k => { k with phase := .sent, exec := e, pa := pa, leafW := w, bypass := b, hops := 0 }

def execRcall (c : Ctl) (l2 again : Bool) (cnt : BitVec 4) (m : BitVec 5) (d a b e : Operand) (s : State) :
    Host.Outcome State Fault Refusal :=
  native c (.rcall c l2 again cnt m d a b e) s fun s t =>
    let x := s.ctx t
    let open_ := s.ops.any fun o => o.thr == t && match o.kind with | .rcall _ _ _ => true | _ => false
    let paths := fun (p : Path) => p == Path.ls || p == Path.at
    if open_ || s.flagFull t c || s.destLocked t d m.toNat || (!x.quant && s.postHeld t paths) then .stay s
    else
      let y := s.thread t
      let seq := if again then y.rcseq else y.rcseq + 1
      let s1 := (if x.quant then s else s.flush t .device paths).updThread t fun y => { y with rcseq := seq }
      let id := s1.nextId
      let n := cnt.toNat + 1
      let w := s1.waveOf t
      let k : Call :=
        { id := id, op := id + 1, key := ⟨x.core, w.slot, y.lane, seq.toNat⟩, again := again, l2 := l2, exec := execNone,
          va := s.src64 t a, pa := 0, leafW := false, bypass := false, entry := s.src64 t b, root := x.root,
          args := (List.range n).map fun i => s.vreg t (opNum e + i), m := m.toNat, dst := opNum d, sentAt := s.gtsc,
          phase := .queued, hops := 0, fwd := false, cached := false, code := 0, faultVa := 0, reply := [], lost := false }
      let s2 := { s1 with nextId := id + 1, remote := { s1.remote with calls := s1.remote.calls ++ [k] } }
      let s3 := s2.begin_ t c (.rcall id (opNum d) m.toNat) (some .device)
      if x.quant then .next (s3.defer t)
      else match s3.rcallGo id with
        | some s4 => .next s4
        | none => .stay s

/-! Replies (R347, R348). -/

/-- The status word. -/
def Call.status (k : Call) (code : Nat) : W32 :=
  BitVec.ofNat 32 (code + (if k.cached then 16 else 0) + (if k.fwd then 32 else 0) + k.key.seq % 2 ^ 16 * 2 ^ 16)

/-- The reply registers; a register of a cached reply that the original did not send is free. -/
def State.replyRegs (s : State) (k : Call) (code dst m : Nat) : List Wr :=
  (List.range m).map fun i =>
    if code = 0 then .v (dst + i) (k.reply.getD i (Config.freeWord s.tick [0xB10, i]))
    else if (code = 1 || code = 2) && 2 ≤ m && i < 2 then .v (dst + i) (k.faultVa.extractLsb' (32 * i) 32)
    else .v (dst + i) 0

/-- The completion step, the one write of p6, `%rcstat` and the reply registers; an acquire of the device (R355). -/
def State.callDone (s : State) (k : Call) (code : Nat) : State :=
  match s.op? k.op with
  | none => s
  | some o =>
    match o.kind with
    | .rcall _ dst m =>
      let s := s.landAll o.thr o.clob (s.replyRegs k code dst m ++ [.p 6 (code == 0)])
      let s := s.updThread o.thr fun x => { x with rcstat := k.status code }
      ((s.acquireNow o.thr .device).flagDown o.thr o.flag).dropOp o.id
    | _ => s

/-- RC_TIMEOUT in ns (R357). -/
def State.rcTimeout (s : State) : Nat :=
  let n := (s.remote.timeout.extractLsb' 0 8).toNat
  (if n = 0 then 50 else if 250 < n then 250 else n) * 1000

/-- A call sent to an executor whose timeout has passed; one refused at its caller is not timed (R357). -/
def State.callLate (s : State) (k : Call) : Bool := !(k.phase == .replied && k.exec == execNone) && k.sentAt + s.rcTimeout < s.gtsc

def execRcallReply (call : Nat) (s : State) : Host.Outcome State Fault Refusal :=
  match s.call? call with
  | none => .next s
  | some k =>
    if k.phase != .replied || (!k.lost && s.callLate k) then .next s
    else .next ((if k.lost then s else s.callDone k k.code).dropCall call)

def satAdd (x : W64) : W64 := if x == BitVec.allOnes 64 then x else x + 1

def execRcallTimeout (call : Nat) (s : State) : Host.Outcome State Fault Refusal :=
  match s.call? call with
  | none => .next s
  | some k =>
    let held := match s.op? k.op with | some o => s.deferred o | none => true
    if k.lost || held || !s.callLate k then .next s
    else
      let s := s.callDone { k with cached := false } 6
      let s := { s with remote := { s.remote with lost := satAdd s.remote.lost } }
      .next (if k.exec == execNone then s.dropCall call else s.updCall call fun k => { k with lost := true })

/-! The executors (R343, R344, R349, R356 to R358). -/

/-- The route of a call around a migration: it may stay, must wait for the switch, goes on to a new frame, or is
chased back to its caller (R330, R356). -/
inductive CallRoute
  | here
  | held
  | onward (b : Stub)
  | chased (b : Stub)

/-- DEDUCED, log entry 81. -/
def State.callRoute (s : State) (k : Call) : CallRoute :=
  if s.xlat.migs.any fun m => m.phase == MigPhase.final && m.old == k.pa / 2 ^ 16 then .held
  else match s.stubAt k.pa with
    | none => .here
    | some b => if 2 ≤ k.hops || s.stubOld b || b.rank != s.rank then .chased b else .onward b

/-- The call on its way to the executor of the new frame, the caller's die told by a REDIRECT. -/
def State.callOnward (s : State) (k : Call) (b : Stub) : State :=
  let pa := b.new * 2 ^ 16 + k.pa % 2 ^ 16
  let r : Redir := ⟨s.nextId, k.key.core / 256, b.root, b.old, some b.new⟩
  let s := ({ s with nextId := s.nextId + 1 } : State).updXlat fun x => { x with redirs := x.redirs ++ [r] }
  s.updCall k.id fun k => { k with phase := .sent, pa := pa, exec := (executorOf pa k.l2).getD 0, hops := k.hops + 1, fwd := true }

/-- The caller's die drops the old frame's translations, and the caller walks and sends the call again, once its walk need
not wait.  DEDUCED, log entry 80. -/
def State.callChased (s : State) (k : Call) (b : Stub) : Option State :=
  let die := k.key.core / 256
  (s.updXlat fun x => { x with tlb := x.tlb.filter fun e => !(e.die == die && tlbSpan e.leaf == 1 && lfFrame e.leaf == b.old) }).rcallGo k.id

/-- Calls queued at an executor; a service wave's queue holds its atomics too (R344). -/
def State.callQueue (s : State) (e : Nat) : Nat :=
  s.callsAt e + if e < 32 then 0 else s.ops.countP fun o => s.atomicAt e o

def State.dedupOf (s : State) (k : Call) : Option Dedup := s.remote.dedup.find? fun d => d.exec == k.exec && d.key == k.key

/-- A retry answered from an entry (R358).  DEDUCED, log entry 79. -/
def State.cachedReply (s : State) (k : Call) (d : Dedup) : State :=
  let s := s.updCall k.id fun k => { k with phase := .replied, cached := true, code := d.code, faultVa := d.faultVa, reply := d.reply }
  { s with remote := { s.remote with cached := satAdd s.remote.cached } }

/-- A call reaches an executor: forwarded, chased, answered from the table, or queued (R356, R358). -/
def execRcallArrival (call : Nat) (s : State) : Host.Outcome State Fault Refusal :=
  let no : Host.Outcome State Fault Refusal := .next s
  match s.call? call with
  | none => no
  | some k =>
    if k.phase != .sent || k.exec == execNone then no
    else match s.callRoute k with
      | .held => no
      | .onward b => .next (s.callOnward k b)
      | .chased b => match s.callChased k b with
        | some s' => .next s'
        | none => no
      | .here =>
        match (if k.again then s.dedupOf k else none) with
        | some d => if d.done.isSome then .next (s.cachedReply k d) else no
        | none =>
          if (if k.exec < 32 then 1024 else 512) ≤ s.callQueue k.exec then no
          else .next (s.updCall call fun k => { k with phase := .queued })

/-- The thread a callee starts as (R349). -/
def calleeThread (k : Call) : Thread :=
  { Thread.blank with v := ([k.va.extractLsb' 0 32, k.va.extractLsb' 32 32] ++ k.args ++ List.replicate 30 0).take 32,
                      pc := k.entry }

/-- The status with which an entry refuses to start: a fetch fault, or no clause header of kind 010; none where the fetch waits. -/
def State.entryStatus (s : State) (k : Call) (stamp : Nat) : Option (Nat × State) :=
  if k.entry.toNat % 16 != 0 || 2 ^ 57 ≤ k.entry.toNat then some (3, s)
  else match s.fetchIn .die (execDie k.exec) k.root false stamp k.entry with
    | .wait => none
    | .fault _ _ => some (1, s)
    | .word w s => some (if w.msb && headerOk w && (headerOf w).kind == 2 then (0, s) else (3, s))

/-- A queued call starts: dropped when it is too old, else a callee with its deduplication entry. -/
def execCalleeStart (call : Nat) (s : State) : Host.Outcome State Fault Refusal :=
  let no : Host.Outcome State Fault Refusal := .next s
  match s.call? call with
  | none => no
  | some k =>
    if k.phase != .queued || k.exec == execNone then no
    else match s.callRoute k with
      | .held => no
      | .onward b => .next (s.callOnward k b)
      | .chased b => match s.callChased k b with
        | some s' => .next s'
        | none => no
      | .here =>
        let old := s.dedupOf k
        let lanes := s.remote.callees.countP fun c => c.exec == k.exec
        let kept := s.remote.dedup.countP fun d => d.exec == k.exec
        if s.rcTimeout < s.gtsc - k.sentAt then
          .next (if k.lost then s.dropCall call else s.updCall call fun k => { k with exec := execNone, phase := .sent })
        else if k.again && old.isSome then
          match old with
          | some d => if d.done.isSome then .next (s.cachedReply k d) else no
          | none => no
        else if (if k.exec < 32 then 480 else 24) ≤ lanes || (old.isNone && (if k.exec < 32 then 16384 else 8192) ≤ kept) then no
        else
          let stamp := (((s.op? k.op).bind fun o => s.groupOf o.thr).map (·.fetchStamp)).getD s.stamp
          match s.entryStatus k stamp with
          | none => no
          | some st =>
          let s := st.2
          let id := s.nextId
          let d : Dedup := ⟨id + 1, k.exec, k.key, call, none, 0, 0, []⟩
          let C : Callee := ⟨id, call, k.exec, calleeThread k, 0⟩
          let s := { s with nextId := id + 2
                            remote := { s.remote with
                              callees := s.remote.callees ++ [C]
                              dedup := s.remote.dedup.filter (fun (x : Dedup) => !(x.exec == k.exec && x.key == k.key)) ++ [d] } }
          let s := s.updCall call fun k => { k with phase := .running }
          .next (if st.1 = 0 then s else s.endCallee id st.1 k.entry)

/-- An entry 1 ms after its reply was sent (R358). -/
def execDedupEntryExpiry (entry : Nat) (s : State) : Host.Outcome State Fault Refusal :=
  match s.remote.dedup.find? fun d => d.id == entry with
  | none => .next s
  | some d =>
    match d.done with
    | some n =>
      if n + 1300000 ≤ s.clk then .next { s with remote := { s.remote with dedup := s.remote.dedup.filter fun x => x.id != entry } }
      else .next s
    | none => .next s

/-! rret, rwait, rstat (R352 to R354). -/

/-- In a launch's own code the form is illegal whatever its guard (R346, R352). -/
def execRret (c : Ctl) (s : State) : Host.Outcome State Fault Refusal :=
  let own := s.gang.members.any fun t => t.group.isSome
  native (if own then { c with gp := 7, gn := false } else c) (.rret c) s fun s t =>
    match t with
    | .thr _ _ => .trap s causeIllegal 0 false
    | .callee id => if s.ops.any fun o => o.thr == t then .stay s else .stop (s.endCallee id 0 0)

/-- Whether a remote call that a thread issued before `id` has not been answered (R353). -/
def State.callsOpen (s : State) (t : TRef) (id : Nat) : Bool :=
  s.ops.any fun o => o.thr == t && o.id < id && match o.kind with | .rcall _ _ _ => true | _ => false

def execRwait (c : Ctl) (d : Operand) (s : State) : Host.Outcome State Fault Refusal :=
  native c (.rwait c d) s fun s t =>
    s.queueWait t (if s.flagFull t c || s.destLocked t d 1 then .stay s
    else
      let id := s.nextId
      let s1 := s.begin_ t c (.rwait (opNum d)) none
      if (s.callsOpen t id) = false then .next s1 else if (s.ctx t).quant then .stay s else s1.hold t id)

def execRstat (c : Ctl) (l2 : Bool) (d a : Operand) (s : State) : Host.Outcome State Fault Refusal :=
  native c (.rstat c l2 d a) s fun s t =>
    if s.flagFull t c || s.destLocked t d 1 then .stay s
    else match s.callXlat t l2 (s.src64 t a) none with
      | .wait => .stay s
      | .refuse 2 _ _ => .next (s.result t c [.v (opNum d) 0x800])
      | .refuse _ _ _ => .next (s.result t c [.v (opNum d) 0x1000])
      | .send _ e _ _ s' =>
        let w := if e < 32 then 1 + 4 * (e / 4) + 32 * (e % 4) else 3 + 4 * ((e - 32) / 40) + 32 * ((e - 32) % 40)
        .next (s'.result t c [.v (opNum d) (BitVec.ofNat 32 w)])

end Sys2Proof.Machine
end

