-- ==== Sys2Proof/Machine/Fabric.lean ====
section
/-! DEFINITION. The fabric: remote requests, the routed `mret`, rounds of rank-ordered reduction, network slots and
the packets of peers (R225, R226, R244, R362 to R380, R392 to R397).  What this device answers a peer leaves no trace
in its own state. -/

set_option linter.unusedVariables false

namespace Sys2Proof.Machine

def State.updFab (s : State) (f : Fabric → Fabric) : State := { s with fab := f s.fab }

/-- FAB_TIMEOUT in ns (R365). -/
def State.fabTimeout (s : State) : Nat :=
  let n := (s.fab.timeout.extractLsb' 0 10).toNat
  (if n = 0 then 100 else if 1000 < n then 1000 else n) * 1000

/-- A count of FAB_ERR: 0 dropped landings, 1 multicasts dropped, 2 transfers LOST; each saturates (R365). -/
def State.fabCount (s : State) (i : Nat) : State :=
  if s.fab.err.extractLsb' (16 * i) 16 == 0xFFFF then s
  else s.updFab fun f => { f with err := f.err + (1 : W64) <<< (16 * i) }

/-- Source number of a copy engine of a die (R454).  DEDUCED, log entry 56. -/
def srcCopy (die cluster : Nat) : W16 := BitVec.ofNat 16 (die * 2 ^ 12 + 256 + cluster % 40)

/-! Translation of fabric addresses (R370). -/

/-- How an address that a fabric access carries translates on this device. -/
inductive FabAt
  | ok (rs : List Range) (s : State)
  | bad (code addr : Nat) (s : State)
  | away (rank : Nat)
  | wait

/-- In the fabric translation context; a forward leaf or a stub sends the access on (R327, R329, R370).  DEDUCED, log entry
85. -/
def State.fabAt (s : State) (die va len : Nat) (write win : Bool) (keys : List Nat) : FabAt :=
  match rootOf s.fab.root with
  | none => .bad 1 va s
  | some root =>
    match s.engineXlat .die die root va len write win keys with
    | .wait => .wait
    | .bad c a s' =>
      match (s.walk root (a % 2 ^ 57)).map (·.2) with
      | some l => if lfV l && lfForward l then .away (lfFrame l % 2 ^ 12) else .bad c a s'
      | none => .bad c a s'
    | .ok rs s =>
      match rs.findSome? fun r => s.stubAt (s.resolve r.pa) with
      | some b => .away b.rank
      | none => .ok (rs.map fun r => { r with pa := s.resolve r.pa }) s

/-- The device that holds a page of a rank, as a die's page owner cache has it (R321). -/
def State.owner (s : State) (die dev va : Nat) : Nat :=
  ((s.xlat.poc.find? fun e => e.die == die && e.rank == dev && e.page == va / 2 ^ 16).map (·.owner)).getD dev

/-- Entries of a die's page owner cache (R321). -/
def pocCap : Nat := 2048

/-- An entry of a die's page owner cache, another leaving it where it is full (R321). -/
def State.setOwner (s : State) (die dev va own : Nat) : State :=
  let l := s.xlat.poc.filter fun e => !(e.die == die && e.rank == dev && e.page == va / 2 ^ 16)
  let mine := l.filter fun e => e.die == die
  let out := if mine.length < pocCap then none else s.pick [0xC01, va] mine
  s.updXlat fun x => { x with poc := ⟨die, dev, va / 2 ^ 16, own⟩ :: l.filter fun e => some e != out }

/-- Parts of a fabric access on this device: each with its offset in the access's bytes; a status; or a part that waits. -/
inductive Spans
  | ok (l : List (Nat × Range)) (s : State)
  | bad (code addr : Nat) (s : State)
  | wait

/-- The parts (offset, address, length) that this device holds; what has moved to another is forwarded there (R370). -/
def State.fabSpans (die : Nat) (write win : Bool) (key : Nat) : List (Nat × Nat × Nat) → State → List (Nat × Range) → Spans
  | [], s, acc => .ok acc s
  | (o, va, n) :: l, s, acc =>
    match s.fabAt die va n write win [key, va] with
    | .ok rs s => State.fabSpans die write win key l s
        (acc ++ (rs.foldl (fun (x : List (Nat × Range) × Nat) r => (x.1 ++ [(x.2, r)], x.2 + r.len)) ([], o)).1)
    | .bad c a s => .bad c a s
    | .away _ => State.fabSpans die write win key l s acc
    | .wait => .wait

/-- A range in its pages, from an offset on. -/
def pageParts (o va len : Nat) : List (Nat × Nat × Nat) := (splitPages va len).map fun p => (o + (p.1 - va), p.1, p.2)

/-- The parts of spans that lie in a stretch of the bytes. -/
def cutSpans (l : List (Nat × Range)) (lo n : Nat) : List (Nat × Range) :=
  l.filterMap fun x =>
    let a := Nat.max lo x.1
    let b := Nat.min (lo + n) (x.1 + x.2.len)
    if a < b then some (a - lo, { x.2 with pa := x.2.pa + (a - x.1), len := b - a }) else none

/-- Bytes landed at spans by a path, memory at its points of visibility and window registers in their flight (R24, R369). -/
def State.landFrom (s : State) (path : Path) (core tag : Nat) (l : List (Nat × Range)) (data : List Byte) : State :=
  l.foldl (fun s x => s.engineWrite path core tag (.mem x.2.pa) (sliceB data x.1 x.2.len) x.2.bypass) s
def State.landAt (s : State) (die tag : Nat) (l : List (Nat × Range)) (data : List Byte) : State := s.landFrom .cp (die * 256) tag l data

/-- The same, window registers at once. -/
def State.landNow (s : State) (die tag : Nat) (l : List (Nat × Range)) (data : List Byte) : State :=
  let s := s.landAt die tag l data
  s.forceAll ((s.mem.wq.filter fun e => e.tag == tag && paHome e.pa == 15).map (·.id)) .all

def State.landReady (s : State) (l : List (Nat × Range)) : Bool := l.all fun x => s.engineWriteOk (.mem x.2.pa) x.2.len x.2.bypass

/-- What this device holds of ranges translated for an engine: past the stubs, without pages that have moved to another
device, whose accesses are performed there (R329).  DEDUCED, log entry 76. -/
def State.spansOf (s : State) (rs : List Range) : List (Nat × Range) :=
  (rs.foldl (fun (x : List (Nat × Range) × Nat) r =>
    (if s.movedAway r.pa then x.1 else x.1 ++ [(x.2, { r with pa := s.resolve r.pa })], x.2 + r.len)) ([], 0)).1

def freeBytesAt (s : State) (key len : Nat) : List Byte := (List.range len).map fun i => Config.freeByte s.tick [0xC00, key, i]

/-- Bytes read at spans, free ones where a page has moved away, and the state after. -/
def State.readSpans (s : State) (r : Reader_) (l : List (Nat × Range)) (key len : Nat) : List Byte × State :=
  l.foldl (fun (x : List Byte × State) y =>
    let z := x.2.engineRead r (.mem y.2.pa) y.2.len y.2.bypass
    (overlay 0 x.1 y.1 z.1, z.2)) (freeBytesAt s key len, s)
def State.spansReadable (s : State) (l : List (Nat × Range)) : Bool := l.all fun x => s.engineReadOk (.mem x.2.pa) x.2.len x.2.bypass

/-- An arrival counter: a place on this device, another device, a status, or a walk that waits (R226, R244). -/
inductive CtrAt
  | here (r : Range) (s : State)
  | far (rank : Nat)
  | bad (code : Nat) (s : State)
  | wait

/-- DEDUCED, log entry 88. -/
def State.ctrAt (s : State) (die dev cnt : Nat) : CtrAt :=
  let own := s.owner die dev cnt
  if own != s.rank then .far own
  else match s.fabAt die cnt 8 true false [0xC11, cnt] with
    | .wait => .wait
    | .away k => .far k
    | .bad c _ s => .bad c s
    | .ok rs s => match rs with
      | [r] => if cnt % 8 == 0 && paDevice r.pa then .here r s else .bad 1 s
      | _ => .bad 1 s

/-- The increase that follows the bytes of a request or of an `mret`: here, or a packet to the device that holds the counter. -/
def State.addInc (s : State) (pa : Nat) (req : Nat) (bypass : Bool) (far : Option (Nat × XferOf)) : State :=
  { s with nextId := s.nextId + 1, incs := s.incs ++ [(⟨s.nextId, pa, some req, [], bypass, far⟩ : CtrInc)] }

/-- A packet under the identity of its transfer. -/
def packetWithId (n : Nat) : Packet → Packet
  | .write _ va d => .write n va d
  | .reduce _ t va d => .reduce n t va d
  | .read _ va len => .read n va len
  | .counter _ va => .counter n va
  | .check _ va len c => .check n va len c
  | .reduction _ r b o d => .reduction n r b o d
  | .pageCopy _ va f b d l => .pageCopy n va f b d l
  | p => p

def State.send (s : State) (die dev : Nat) (of : XferOf) (p : Packet) : State := s.sendXfer die dev of (packetWithId s.nextId p)

/-- The page that a packet toward another rank accesses. -/
def packetPage : Packet → Option Nat
  | .write _ va _ | .reduce _ _ va _ | .read _ va _ | .counter _ va | .check _ va _ _ => some (va.toNat / 2 ^ 16)
  | _ => none

/-- Whether an access to a page that a REDIRECT has taken to another rank has to wait: earlier ones of the die that were forwarded on
the way are not complete (R331). -/
def State.fabHeld (s : State) (die dev va : Nat) : Bool :=
  let own := s.owner die dev va
  own != dev && s.fab.xfers.any fun x => x.die == die && x.dev != own && packetPage x.pkt == some (va / 2 ^ 16)

/-- A range in the aligned 256-byte blocks that packets carry (R363): offset, address, length. -/
def blockParts (o va len : Nat) : List (Nat × Nat × Nat) :=
  (List.range ((va % 256 + len + 255) / 256)).map fun i =>
    let lo := Nat.max va ((va / 256 + i) * 256)
    let hi := Nat.min (va + len) ((va / 256 + i + 1) * 256)
    (o + (lo - va), lo, hi - lo)

/-- Whether a peer's packet is one that the ports support (R363). -/
def packetOk (va len : Nat) : Bool := len != 0 && va % 256 + len ≤ 256

/-! Remote requests (R244, R369 to R372). -/

/-- The fields of R244. -/
structure Rem where
  loc : Nat
  rem : Nat
  len : Nat
  dev : Nat
  rty : Nat
  cnt : Nat
  cv : Bool
  deriving DecidableEq, Repr

def remOf (b : List Byte) : Rem :=
  let c := natAt b 56 8
  { loc := adrField b 24, rem := natAt b 32 8 % 2 ^ 57, len := bodyLen40 b 40, dev := natAt b 48 4 % 2 ^ 12, rty := natAt b 52 4 % 4,
    cnt := c % 2 ^ 57, cv := bitAt c 63 }

def Rem.ok (m : Rem) (kind nranks : Nat) : Bool :=
  m.len != 0 && m.dev < nranks && (!m.cv || m.cnt % 8 == 0) &&
    (kind != 8 || (m.rty < 3 && m.loc % 4 == 0 && m.rem % 4 == 0 && m.len % 4 == 0))

/-- What a remote request comes to: its pieces here, its packets with their devices. -/
inductive RemPlan
  | go (ps : List Piece) (out : List (Nat × Packet)) (s : State)
  | bad (code addr : Nat) (s : State)
  | wait (s : State)

/-- The pages of the remote range in order: (offset, address, length) each. -/
def State.remPages (r : Req) (kind : Nat) (m : Rem) :
    List (Nat × Nat × Nat) → State → List Piece → List (Nat × Packet) → RemPlan
  | [], s, ps, out => .go ps out s
  | (o, va, n) :: l, s, ps, out =>
    let away := fun (dev : Nat) (s : State) =>
      match s.adr r (adrPlus m.loc o) n (kind == 6) (kind != 8) with
      | .wait => .wait s
      | .bad c a s => .bad c a s
      | .ok qs s =>
        let blocks := blockParts 0 va n
        if kind == 6 then State.remPages r kind m l s ps (out ++ blocks.map fun b => (dev, .read 0 (BitVec.ofNat 64 b.2.1) b.2.2))
        else if !s.placesReady qs then .wait s
        else
          let x := s.readPlaces r qs
          let p : Nat × Nat × Nat → Packet := fun b =>
            let d := sliceB x.1 b.1 b.2.2
            if kind == 7 then .write 0 (BitVec.ofNat 64 b.2.1) d else .reduce 0 (BitVec.ofNat 2 m.rty) (BitVec.ofNat 64 b.2.1) d
          State.remPages r kind m l x.2 ps (out ++ blocks.map fun b => (dev, p b))
    let own := s.owner r.die m.dev va
    if s.fabHeld r.die m.dev va then .wait s
    else if own != s.rank then away own s
    else match s.fabAt r.die va n (kind != 6) (kind != 8) [r.id, va] with
      | .wait => .wait s
      | .bad c a s => .bad c a s
      | .away k => away k (s.setOwner r.die s.rank va k)
      | .ok rs s =>
        if kind == 8 && !rs.all (fun x => paDevice x.pa) then .bad 1 va s
        else match s.adr r (adrPlus m.loc o) n (kind == 6) (kind != 8) with
        | .wait => .wait s
        | .bad c a s => .bad c a s
        | .ok qs s =>
          let R := segsOf (rangeSpots va rs) 0 (8 * n)
          let Q := segsOf qs 0 (8 * n)
          let fuel := 2 * (R.length + Q.length)
          let new := if kind == 6 then zipSegs fuel R Q none else zipSegs fuel Q R (if kind == 8 then some m.rty else none)
          State.remPages r kind m l s (ps ++ new) out

/-- A request that meets a status: the first one stands, and its counter is not increased (R237, R244). -/
def State.reqFail (s : State) (id code addr : Nat) : State :=
  let s := s.updReq id fun q => if q.code.isSome then q else { q with code := some (codeOf code, BitVec.ofNat 64 (addr % 2 ^ 57)) }
  { s with incs := s.incs.filter fun c => c.req != some id }

/-- The packets of a request sent; their number is what the request waits for. -/
def State.reqSend (s : State) (r : Req) (out : List (Nat × Packet)) : State :=
  out.foldl (fun s p => s.send r.die p.1 (.req r.id) p.2) s

/-- Free bytes over the pages of this device that a failed remote write may have written (R237). -/
def State.looseRem (s : State) (r : Req) (m : Rem) (code : Nat) (pages : List (Nat × Nat × Nat)) : List Piece :=
  if code = refused18 then []
  else ((pages.filter fun p => s.owner r.die m.dev p.2.1 == s.rank).map fun p => match s.fabAt r.die p.2.1 p.2.2 true true [r.id, p.2.1] with
    | .ok rs _ => patSegs (segsOf (rangeSpots p.2.1 rs) 0 (8 * p.2.2)) 0 []
    | _ => []).flatten

/-- What a remote request checks on other devices before any byte of a remote reduce is written (R244). -/
def remChecks (m : Rem) (ctr : Option CtrAt) (out : List (Nat × Packet)) : List (Nat × Packet) :=
  (out.filterMap fun p => match p.2 with
    | .reduce _ _ va d => some (p.1, .check 0 va d.length false)
    | _ => none) ++
  match ctr with
  | some (.far k) => [(k, .check 0 (BitVec.ofNat 64 m.cnt) 8 true)]
  | _ => []

/-- A remote request begins, a remote reduce of other devices with the checks there and, once they are answered, again
(R237, R244).  The status of a bad counter comes before that of a page.  DEDUCED, log entries 11, 83 and 84. -/
def State.remBegin (s : State) (r : Req) (kind : Nat) (again : Bool) : State ⊕ State :=
  let m := remOf r.body
  if !m.ok kind s.nranks then s.begun r (.fail 3 0 [] m.len s)
  else
    let ctr := if m.cv then some (s.ctrAt r.die m.dev m.cnt) else none
    let s := match ctr with
      | some (.here _ s') | some (.bad _ s') => s'
      | _ => s
    let pages := pageParts 0 m.rem m.len
    match kind == 8, ctr with
    | _, some .wait => .inr s
    | true, some (.bad c s) => s.begun r (.fail c m.cnt [] m.len s)
    | _, _ =>
      match State.remPages r kind m pages s [] [] with
      | .wait s => .inr s
      | .bad c a s => s.begun r (.fail c a (if kind = 6 then s.looseBytes r c m.loc m.len true
          else if kind = 8 then [] else s.looseRem r m c pages) m.len s)
      | .go ps out s =>
        let checks := if kind = 8 && !again then remChecks m ctr out else []
        if !checks.isEmpty then
          .inl ((s.updReq r.id fun q => { q with began := true, total := m.len, xfer := some checks.length }).reqSend r checks)
        else
          let n := if out.isEmpty then none else some out.length
          let s := (s.updReq r.id fun q => { q with began := true, pieces := ps, total := m.len, xfer := n }).reqSend r out
          let s := match ctr with
            | some (.here x _) => s.addInc x.pa r.id x.bypass none
            | some (.far k) => s.addInc m.cnt r.id false (some (k, .req r.id))
            | some (.bad c _) => s.reqFail r.id c m.cnt
            | _ => s
          .inl (s.landRest r.id)

def remEvent (kind req : Nat) (s : State) : Host.Outcome State Fault Refusal :=
  match s.req? req with
  | none => .next s
  | some r =>
    let again := r.began && !r.retired && r.code.isNone && r.xfer == some 0
    if r.kind != kind || !(again || s.canBegin r) then .next s
    else match s.remBegin r kind again with
      | .inl s' => .next s'
      | .inr s' => s.orAsk s'

def execRemoteRead (req : Nat) (s : State) : Host.Outcome State Fault Refusal := remEvent 6 req s
def execRemoteWrite (req : Nat) (s : State) : Host.Outcome State Fault Refusal := remEvent 7 req s
def execRemoteReduce (req : Nat) (s : State) : Host.Outcome State Fault Refusal := remEvent 8 req s

/-- One transfer of a request is over; the last check leaves a request that may go on (R244). -/
def State.reqLess (s : State) (id : Nat) (check : Bool) : State :=
  let f := fun (q : Req) =>
    let left := (q.xfer.getD 1) - 1
    { q with xfer := if left = 0 && !(check && q.code.isNone) then none else some left }
  (s.updReq id f).landRest id

/-- Free bytes where a failed remote read lands (R237). -/
def State.looseRead (s : State) (id code : Nat) : State :=
  s.updReq id fun q => { q with pieces := q.pieces ++ s.looseBytes q code (remOf q.body).loc (remOf q.body).len true }

/-- Pieces of a remote read among those that are there, in the order of the addresses they come from. -/
def inOrder (ps new : List Piece) : List Piece :=
  match new with
  | [] => ps
  | n :: _ => (ps.filter fun p => p.sva < n.sva) ++ new ++ ps.filter fun p => n.sva ≤ p.sva

/-- A transfer of a request answered (R237, R369); none while its bytes cannot be placed. -/
def State.ackReq (s : State) (r : Req) (x : Xfer) (status : Nat) (addr : W64) (data : List Byte) : Option State :=
  let m := remOf r.body
  match x.pkt with
  | .check _ va _ _ => some ((if status = 0 then s else s.reqFail r.id status (if va.toNat = m.cnt then m.cnt else addr.toNat)).reqLess r.id true)
  | .counter _ _ => some ((if status = 0 then s else s.reqFail r.id status m.cnt).reqLess r.id false)
  | .read _ va len =>
    if status != 0 then some (((s.reqFail r.id status addr.toNat).looseRead r.id status).reqLess r.id false)
    else match s.adr r (adrPlus m.loc (va.toNat - m.rem)) len true true with
      | .wait => none
      | .bad c a s => some (((s.reqFail r.id c a).looseRead r.id c).reqLess r.id false)
      | .ok qs s =>
        let new := (patSegs (segsOf qs 0 (8 * len)) 0 (sliceB data 0 len)).map fun p => { p with sva := va.toNat + p.sbit / 8 }
        some ((s.updReq r.id fun q => { q with pieces := inOrder q.pieces new }).reqLess r.id false)
  | .write _ _ d | .reduce _ _ _ d =>
    some ((if status = 0 then s.landCount r.id d.length else s.reqFail r.id status addr.toNat).reqLess r.id false)
  | _ => some (s.reqLess r.id false)

/-! The routed `mret` (R225, R226, R376). -/

def rtBase (x : W128) : Nat := (x.extractLsb' 0 57).toNat
def rtDev (x : W128) : Nat := (x.extractLsb' 57 12).toNat
def rtMode (x : W128) : Nat := (x.extractLsb' 69 4).toNat
def rtValid (x : W128) : Bool := x.getLsbD 73
def rtCnt (x : W128) : Nat := (x.extractLsb' 74 54).toNat * 8

/-- The record of a routed `mret` that failed (R226, R412). -/
def State.routeFail (s : State) (core part : Nat) (dest : Nat) (code dev : Nat) : State :=
  s.pushErr 9 part (srcCopy (core / 256) (core % 256 / 4)) (BitVec.ofNat 64 (dest % 2 ^ 57)) (BitVec.ofNat 64 (codeOf code + 16 * dev))

/-- Rows cut at pages: offset in the rows' bytes, address, length. -/
def routeParts (rows : List (W64 × List Byte)) : List (Nat × Nat × Nat) :=
  (rows.foldl (fun (x : List (Nat × Nat × Nat) × Nat) r => (x.1 ++ pageParts x.2 r.1.toNat r.2.length, x.2 + r.2.length)) ([], 0)).1

/-- The rank on which a page of a route's destination lies. -/
def State.routeOwner (s : State) (die dev va : Nat) : Nat :=
  if s.owner die dev va != s.rank then s.owner die dev va
  else match s.fabAt die va 1 true false [0xC12, va] with
    | .away k => k
    | _ => s.rank

/-- The rows handed to the die's copy engines; none where a write of theirs has to wait.  The flag falls at the hand-off.
After a failure the bytes that could be written hold what they may (R226).  DESIGN CHOICE, log entry 41. -/
def State.mrouteGo (s : State) (id : Nat) : Option State :=
  match s.op? id with
  | none => some s
  | some o =>
    match o.kind with
    | .mroute route rows =>
      let c := s.ctx o.thr
      let dev := rtDev route
      let done := fun (s : State) => some (s.updOp id fun x => { x with kind := .result [] })
      let dest := ((rows.head?.map fun (r : W64 × List Byte) => r.1).getD 0).toNat
      let cnt := rtCnt route
      if rtMode route = 1 then
        if dev == s.rank then
          let ls := rows.zipIdx.map fun r =>
            (⟨s.nextId + r.2, s.rank, BitVec.ofNat 64 cnt, BitVec.ofNat 64 (rtBase route),
              (r.1.1.toNat + 2 ^ 57 - rtBase route) % 2 ^ 57, r.1.2, 18⟩ : RedLand)
          done (({ s with nextId := s.nextId + rows.length } : State).updFab fun f => { f with waiting := f.waiting ++ ls })
        else
          done (rows.foldl (fun s r => s.send c.die dev (.route id c.core c.part (BitVec.ofNat 64 dest) none)
            (.reduction 0 (BitVec.ofNat 64 cnt) (BitVec.ofNat 64 (rtBase route)) ((r.1.toNat + 2 ^ 57 - rtBase route) % 2 ^ 57) r.2)) s)
      else
        let parts := routeParts rows
        let bytes := (rows.map fun r => r.2).flatten
        let mine := parts.filter fun p => s.routeOwner c.die dev p.2.1 == s.rank
        let away := parts.filter fun p => s.routeOwner c.die dev p.2.1 != s.rank
        let far := away.flatMap fun p => blockParts p.1 p.2.1 p.2.2
        let ready := fun (s : State) (l : List (Nat × Range)) => l.all fun x =>
          s.engineWriteOk (.mem x.2.pa) x.2.len x.2.bypass && s.mxTurn o.thr id (.mem x.2.pa) x.2.len true
        let put := fun (s : State) (tag : Nat) (l : List (Nat × Range)) (d : List Byte) =>
          l.foldl (fun s x => s.mxWrite c.core tag x.2.pa (sliceB d x.1 x.2.len) x.2.bypass) s
        let failed := fun (s : State) (code : Nat) =>
          let l := (mine.map fun p => match State.fabSpans c.die true false 0xC10 [p] s [] with | .ok l _ => l | _ => []).flatten
          if !ready s l then none
          else done ((put s 0 l (freeBytesAt s dest bytes.length)).routeFail c.core c.part dest code dev)
        if away.any fun p => s.fabHeld c.die dev p.2.1 then none
        else match State.fabSpans c.die true false 0xC10 mine s [] with
        | .wait => none
        | .bad code _ s => failed s code
        | .ok l s => match s.ctrAt c.die dev cnt with
        | .wait => none
        | .bad code s => failed s code
        | ctr =>
          if !ready s l then none
          else
            let s := match ctr with
              | .here _ s' => s'
              | _ => s
            let s1 := put s id l bytes
            let s2 := far.foldl (fun s p => s.send c.die (s.routeOwner c.die dev p.2.1)
              (.route id c.core c.part (BitVec.ofNat 64 dest) (some (BitVec.ofNat 64 cnt))) (.write 0 (BitVec.ofNat 64 p.2.1) (sliceB bytes p.1 p.2.2))) s1
            if !far.isEmpty then done s2
            else match ctr with
              | .here x _ => done (s2.addInc x.pa id x.bypass none)
              | .far k => done (s2.addInc cnt id false (some (k, .routeCtr c.core c.part (BitVec.ofNat 64 dest))))
              | _ => done s2
    | _ => some s

/-- DEDUCED, log entry 46; DESIGN CHOICE, log entry 140: the order of the checks. -/
def execMretRoute (c : Ctl) (rows : BitVec 4) (route : BitVec 2) (a b e : Operand) (s : State) : Host.Outcome State Fault Refusal :=
  native c (.mretRoute c rows route a b e) s fun s t =>
    s.retire t c b e (rows.toNat + 1) fun out W =>
      let R := (s.thread t).routes.getD route.toNat 0
      let f := fmtWord (s.src32 t e)
      let dest := (rtBase R + (s.src64 t a).toNat) % 2 ^ 57
      if !rtValid R || 2 ≤ rtMode R || s.nranks ≤ rtDev R then .trap s causeProtection (BitVec.ofNat 64 dest) true
      else if rtMode R = 1 && (f.efmt != 0 || f.eact != 0 || f.ebias) then
        .trap (match t.group with | some g => s.updWave g W.idx fun w => { w with fmtdiv := 0 } | none => s) causeFormat 0 false
      else
        let ls := out.zipIdx.map fun r => (BitVec.ofNat 64 ((dest + r.2 * W.stride.toNat) % 2 ^ 57), r.1)
        let id := s.nextId
        let s1 := s.begin_ t c (.mroute R ls) none
        if (s.ctx t).quant then .next (s1.defer t)
        else match s1.mrouteGo id with
          | some s2 => .next s2
          | none => .stay s

/-- A transfer of a routed `mret` answered: after the last one of MODE 0 the counter follows; a failure ends them all.  None
while the counter's page cannot be found. -/
def State.ackRoute (s : State) (x : Xfer) (status : Nat) : Option State :=
  let drop := fun (s : State) => s.updFab fun f => { f with xfers := f.xfers.filter fun y => y.id != x.id }
  match x.of with
  | .route g core part dest cnt =>
    if status != 0 then
      some ((s.routeFail core part dest.toNat status x.dev).updFab fun f => { f with xfers := f.xfers.filter fun y =>
        match y.of with | .route h _ _ _ _ => h != g | _ => true })
    else
      let s := drop s
      let more := s.fab.xfers.any fun y => match y.of with | .route h _ _ _ _ => h == g | _ => false
      match cnt with
      | none => some s
      | some a =>
        if more then some s
        else match s.ctrAt (core / 256) x.dev a.toNat with
          | .here r s => some (s.addInc r.pa g r.bypass none)
          | .far k => some (s.addInc a.toNat g false (some (k, .routeCtr core part dest)))
          | .bad c s => some (s.routeFail core part dest.toNat c x.dev)
          | .wait => none
  | .routeCtr core part dest => some (drop (if status = 0 then s else s.routeFail core part dest.toNat status x.dev))
  | _ => some s

/-! Rounds (R376 to R380). -/

/-- A reduction control block (R377). -/
structure Rcb where
  buf : Nat
  out : Nat
  len : Nat
  first : Nat
  count : Nat
  ofmt : Nat
  mv : Bool
  mgrp : Nat
  clean : Bool
  deriving DecidableEq, Repr

def rcbOf (b : List Byte) : Rcb :=
  let x := natAt b 31 1
  { buf := natAt b 8 8, out := natAt b 16 8, len := natAt b 24 4, first := natAt b 28 2, count := natAt b 30 1,
    ofmt := x % 4, mv := bitAt x 2, mgrp := natAt b 32 2,
    clean := natAt b 8 8 < 2 ^ 57 && natAt b 16 8 < 2 ^ 57 && natAt b 28 2 < 2 ^ 12 && x < 8 && natAt b 34 30 == 0 }

def Rcb.size (r : Rcb) : Nat := if r.ofmt = 0 then 4 else 2
def Rcb.ok (r : Rcb) : Bool :=
  r.clean && 64 ≤ r.len && r.len ≤ 2 ^ 24 && r.len % 64 == 0 && 1 ≤ r.count && r.count ≤ 64 && r.ofmt < 3 && r.buf % 64 == 0 &&
    r.out % r.size == 0

/-- A landing dropped at the destination (R379). -/
def State.dropLanding (s : State) (L : RedLand) (die : Nat) : State :=
  let s := (s.fabCount 0).pushErr 4 0xFFFF (srcCopy die (Config.choose s.tick [0xC20])) L.rcb 0
  s.updFab fun f => { f with waiting := f.waiting.filter fun x => x.id != L.id }

/-- The bytes of a slot from its landings. -/
def slotBytes (len : Nat) (ls : List (Nat × List Byte)) : List Byte :=
  ls.foldl (fun b l => overlay 0 b l.1 l.2) (List.replicate len 0)

/-- One FP32 addition of a fold (R74). -/
def foldAdd (a x : W32) : W32 := ofF .f32 .rne false (FVal.add .rne (f32Of a) (f32Of x))

/-- The output bytes of a round (R378). -/
def roundOut (r : Rcb) (slots : List (List Byte)) : List Byte :=
  ((List.range (r.len / 4)).map fun e =>
    let ws := slots.map fun b => toW32 (sliceB b (4 * e) 4)
    let acc := (ws.drop 1).foldl foldAdd (ws.headD 0)
    natToBytes r.size (match r.ofmt with
      | 0 => fp32.round .rne false (f32Of acc)
      | 1 => Sys2Proof.Machine.bf16.round .rne false (f32Of acc)
      | _ => fp16.round .rne false (f32Of acc))).flatten

/-- A multicast group this device may send to (R374). -/
def State.groupKnown (s : State) (g : Nat) : Bool :=
  s.fab.ctl.getLsbD 0 && s.fab.ctl.getLsbD 1 && s.fab.mgrp.any fun x => x.getLsbD 16 && (x.extractLsb' 0 16).toNat == g

def State.freeSpans (s : State) (die key : Nat) (l : List (Nat × Range)) : State :=
  s.landNow die key l (freeBytesAt s key ((l.map fun x => x.1 + x.2.len).foldl Nat.max 0))

/-- A round closes: its result written and counted here, and multicast (R378).  DEDUCED, log entry 138. -/
def State.closeRound (s : State) (die : Nat) (r : Rcb) (rcb : Range) (bufRs outRs : List (Nat × Range)) (R : Round) : State :=
  let slots := (List.range r.count).map fun j => slotBytes r.len (((R.slots.find? fun x => x.1 == j).map (·.2)).getD [])
  let n := r.len / 4 * r.size
  let s := s.freeSpans die r.buf bufRs
  let data := if R.doubled then freeBytesAt s r.out n else roundOut r slots
  let s := (s.landNow die s.nextId outRs data).countUp rcb.pa rcb.bypass
  let s := if !r.mv then s else if s.groupKnown r.mgrp then s.send die r.mgrp .cast (.multicast r.mgrp (BitVec.ofNat 64 r.out) data R.rcb)
    else s.fabCount 1
  s.updFab fun f => { f with rounds := f.rounds.filter fun x => x.rcb != R.rcb }

/-- An earlier landing of the same source over the same plane is still to be performed (R368). -/
def State.landingAfter (s : State) (L : RedLand) : Bool :=
  L.plane < 18 && s.fab.waiting.any fun x => x.src == L.src && x.plane == L.plane && x.id < L.id

def execReductionLanding (id : Nat) (s : State) : Host.Outcome State Fault Refusal :=
  let no : Host.Outcome State Fault Refusal := .next s
  match s.fab.waiting.find? fun x => x.id == id with
  | none => no
  | some L =>
    if s.landingAfter L then no
    else if L.rcb.toNat % 64 != 0 then .next (s.dropLanding L 0)
    else match s.fabAt 0 L.rcb.toNat 64 true false [0xC23, L.rcb.toNat] with
    | .wait => no
    | .bad _ _ s => .next (s.dropLanding L 0)
    | .away _ => .next (s.updFab fun f => { f with waiting := f.waiting.filter fun x => x.id != id })
    | .ok rs s1 =>
      let rcb := rs.headD ⟨0, 0, false⟩
      let pa := rcb.pa
      let die := paDie pa
      if !paDevice pa then .next (s1.dropLanding L 0)
      else if !s1.memReady pa 64 rcb.bypass || !s1.sliceReady pa 8 rcb.bypass then no
      else
        let r := rcbOf (s1.mem.visBytes pa 64)
        let j := L.src - r.first
        if !r.ok || L.src < r.first || r.first + r.count ≤ L.src || r.len < L.off + L.data.length || L.base.toNat != r.out then
          .next (s1.dropLanding L die)
        else match State.fabSpans 0 true true 0xC21 (pageParts 0 r.buf (r.count * r.len)) s1 [] with
          | .wait => no
          | .bad _ _ s2 => .next (s2.dropLanding L die)
          | .ok bufRs s2 => match State.fabSpans 0 true true 0xC22 (pageParts 0 r.out (r.len / 4 * r.size)) s2 [] with
          | .wait => no
          | .bad _ _ s2 => .next (s2.dropLanding L die)
          | .ok outRs s2 =>
            let R := (s2.fab.rounds.find? fun x => x.rcb == L.rcb).getD ⟨L.rcb, die, [], [], false⟩
            let isOpen := s2.fab.rounds.any fun x => x.rcb == L.rcb
            let landed := ((R.landed.find? fun x => x.1 == j).map (·.2)).getD 0
            if (!isOpen && 256 ≤ s2.fab.rounds.countP fun x => x.die == die) || r.len ≤ landed || !s2.landReady bufRs ||
                !s2.landReady outRs then no
            else
              let was := ((R.slots.find? fun x => x.1 == j).map (·.2)).getD []
              let twice := was.any fun w => overlapsAt w.1 w.2.length L.off L.data.length
              let R := { R with landed := listSet (fun x => x.1 == j) (j, landed + L.data.length) R.landed,
                                slots := listSet (fun x => x.1 == j) (j, was ++ [(L.off, L.data)]) R.slots, doubled := R.doubled || twice }
              let full := (List.range r.count).all fun k => r.len ≤ ((R.landed.find? fun x => x.1 == k).map (·.2)).getD 0
              let s3 := (s2.freeSpans die (r.buf + j) (cutSpans bufRs (j * r.len + L.off) L.data.length)).updFab fun f =>
                { f with waiting := f.waiting.filter (fun x => x.id != id), rounds := listSet (fun x => x.rcb == L.rcb) R f.rounds }
              .next (if full then s3.closeRound die r rcb bufRs outRs R else s3)

/-! Network slots (R392, R393). -/

/-- A table that leaves a port with no slot. -/
def slotGap (b : List Byte) : Bool := (List.range 18).any fun p => natAt b (8 * p) 8 == 0

/-- Bytes a privileged thread's instruction reads at issue, at a place its load would read. -/
inductive SlotRead
  | ok (b : List Byte) (s : State)
  | bad (s : State)
  | wait

def State.slotRead (s : State) (t : TRef) (va : W64) (len : Nat) : SlotRead :=
  match s.access t va len false false [va.toNat] with
  | .wait => .wait
  | .fault _ _ s => .bad s
  | .nonres _ => .bad s
  | .ok rs s =>
    let parts := rs.map fun r => (⟨.mem r.pa, r.len, r.bypass, none, none⟩ : Part)
    if !parts.all fun p => s.placeReady t p then .wait
    else
      let x := parts.foldl (fun (x : List Byte × State) p =>
        let y := x.2.readPlace t none false p
        (x.1 ++ y.1, y.2)) ([], s)
      .ok x.1 x.2

/-- DEDUCED, log entry 90. -/
def execNetslot (c : Ctl) (d a : Operand) (off : BitVec 12) (s : State) : Host.Outcome State Fault Refusal :=
  native c (.netslot c d a off) s fun s t =>
    let va := s.addr t a off
    if s.loadHeld t c d 1 then .stay s
    else if va.toNat % 8 != 0 || 2 ^ 57 ≤ va.toNat then .trap s causeProtection va false
    else match s.slotRead t va 144 with
      | .wait => .stay s
      | .bad s => .next (s.result t c [.v (opNum d) 1])
      | .ok b s' =>
        if slotGap b && 1024 < s.nranks then .next (s'.result t c [.v (opNum d) 3])
        else .next ((s'.updFab fun f => { f with slotNext := some (some b), slotByLaunch := false }).result t c [.v (opNum d) 0])

def execNetslotOff (c : Ctl) (d : Operand) (s : State) : Host.Outcome State Fault Refusal :=
  native c (.netslotOff c d) s fun s t =>
    if s.flagFull t c || s.destLocked t d 1 then .stay s
    else .next ((s.updFab fun f => { f with slotNext := some none, slotByLaunch := false }).result t c [.v (opNum d) 0])

/-- A frame begins at every GTSC multiple of 4,000 (R393).  DEDUCED, log entry 93. -/
def State.frameDue (s : State) : Bool := s.gtsc % 4000 == 0 && s.fab.slotNext.isSome

def execNetworkFrameBoundary (s : State) : Host.Outcome State Fault Refusal :=
  if !s.frameDue then .next s
  else .next ((s.updFab fun f => { f with slotTable := (f.slotNext.getD none), slotNext := none }).injectAll)

/-! The rate table, ports, timeouts (R362 to R364, R372, R373). -/

def execCongestionNotice (rank : Nat) (s : State) : Host.Outcome State Fault Refusal :=
  if !s.fab.ctl.getLsbD 0 || !s.fab.ctl.getLsbD 1 || s.nranks ≤ rank then .next s
  else .next (s.updFab fun f => { f with
      rate := listSet (fun x => x.1 == rank) (rank, s.rateOf rank / 2) f.rate
      rateSeen := listSet (fun x => x.1 == rank) (rank, s.gtsc) f.rateSeen })

def execRateTableRecovery (rank : Nat) (s : State) : Host.Outcome State Fault Refusal :=
  if 63 ≤ s.rateOf rank || s.gtsc < timeOf s.fab.rateSeen rank + 2000 then .next s
  else .next (s.updFab fun f => { f with
      rate := listSet (fun x => x.1 == rank) (rank, Nat.min 63 (s.rateOf rank + 4)) f.rate
      rateSeen := listSet (fun x => x.1 == rank) (rank, s.gtsc) f.rateSeen })

/-- DEDUCED, log entry 91. -/
def execPortTraining (port lanes : Nat) (s : State) : Host.Outcome State Fault Refusal :=
  if 18 ≤ port || 4 < lanes || !s.fab.ctl.getLsbD 0 then .next s
  else .next ((s.updFab fun f => { f with lanes := f.lanes.set port lanes }).injectAll)

/-- The migration of a page toward another rank fails (R327, R338). -/
def State.pageFail (s : State) (m code : Nat) : State :=
  match s.mig? m with
  | none => s
  | some M => if M.phase == MigPhase.waiting then s.migEnd M code false else (s.clearM M).migEnd M code true

/-- An instance ends with a status that a member met; the first one stands (R390). -/
def State.collFail (s : State) (inst code : Nat) : State :=
  let g := fun (i : CollInst) => if i.bad || i.done then i else { i with bad := true, status := code }
  s.updFab fun f => { f with insts := listUpd (fun i => i.id == inst) g f.insts }

/-- The ranks of a descriptor's mesh (R381). -/
def collMembers (b : List Byte) : List Nat :=
  (List.range ((List.range 4).foldl (fun n i => n * natAt b (8 + 2 * i) 2) 1)).map (bitsOf (natAt b 0 8) 43 32 + ·)

/-- The status of an instance told to other ranks (R390).  DEDUCED, log entry 138. -/
def State.collTell (s : State) (i : CollInst) (code : Nat) (ranks : List Nat) : State :=
  ranks.foldl (fun s r => if r = s.rank then s else s.send 0 r (.coll i.id) (.collectiveFail (natAt i.desc 0 4) i.n code)) s

/-- An instance ends with a status that this device meets first, which every member then has (R390). -/
def State.collFailHere (s : State) (inst code : Nat) : State :=
  match s.fab.insts.find? fun i => i.id == inst with
  | none => s
  | some i => if i.bad || i.done then s else (s.collFail inst code).collTell i code (collMembers i.desc)

def execFabricTransferTimeout (xfer : Nat) (s : State) : Host.Outcome State Fault Refusal :=
  match s.fab.xfers.find? fun x => x.id == xfer with
  | none => .next s
  | some x =>
    match x.sentAt with
    | none => .next s
    | some t =>
      if s.gtsc ≤ t + s.fabTimeout then .next s
      else
        let s := s.fabCount 2
        let drop := fun (s : State) => s.updFab fun f => { f with xfers := f.xfers.filter fun y => y.id != xfer }
        match x.of with
        | .req r =>
          let s := drop s
          match x.pkt with
          | .read _ _ _ => .next (((s.reqFail r 6 0).looseRead r 6).reqLess r false)
          | _ => .next ((s.reqFail r 6 0).reqLess r false)
        | .route _ _ _ _ _ | .routeCtr _ _ _ => .next ((s.ackRoute x 6).getD s)
        | .coll i => .next ((drop s).collFailHere i 6)
        | .page m => .next ((drop s).pageFail m 5)
        | .cast => .next (drop s)

/-! Packets of peers (R363, R368 to R371). -/

/-- The tag of what a peer has written into the on-chip window (R24). -/
def peerTag (src : Nat) : Nat := 2 ^ 62 + src

/-- A peer's access at the pages this device holds; as it was where it is refused, none where it waits. -/
def State.peerAt (s : State) (die va len : Nat) (write win : Bool) (go : List (Nat × Range) → State → Option State) : Option State :=
  match State.fabSpans die write win 0xC30 (pageParts 0 va len) s [] with
  | .wait => none
  | .bad _ _ s => some s
  | .ok l s => go l s

/-- The words of a peer's reduce at a span, each in one step at its home (R371). -/
def State.reduceAt (s : State) (ty : Nat) (x : Nat × Range) (data : List Byte) : State :=
  (s.addWords ty x.2.pa x.2.len (bytesToNat (sliceB data x.1 x.2.len)) x.2.bypass)

/-- A peer's write, reduce, read, counter increase or page copy performed here; none while its place is held; what is no
supported packet is answered so and does nothing (R363).  DEDUCED, log entry 82. -/
def State.peerAccess (s : State) (src die : Nat) (pkt : Packet) : Option State :=
  match pkt with
  | .write _ va d => if !packetOk va.toNat d.length then some s else s.peerAt die va.toNat d.length true true fun l s =>
      if !s.landReady l then none else some (s.landAt die (peerTag src) l d)
  | .reduce _ ty va d => if !packetOk va.toNat d.length then some s else s.peerAt die va.toNat d.length true false fun l s =>
      if va.toNat % 4 != 0 || d.length % 4 != 0 || ty == 3 || !l.all (fun x => paDevice x.2.pa) then some s
      else if !s.landReady l then none
      else some (l.foldl (fun s x => s.reduceAt ty.toNat x d) s)
  | .read _ va len => if !packetOk va.toNat len then some s else s.peerAt die va.toNat len false true fun l s =>
      if s.spansReadable l then some (l.foldl (fun s x => s.fillL2 x.2.pa x.2.len x.2.bypass) s)
      else none
  | .counter _ va => s.peerAt die va.toNat 8 true false fun l s =>
      match l with
      | [(_, r)] =>
        if va.toNat % 8 != 0 || !paDevice r.pa then some s
        else
          let ids := (s.mem.wq.filter fun e => e.tag == peerTag src).map (·.id)
          if !s.sliceReady r.pa 8 r.bypass || !s.canForceAll ids .all then none
          else some ((s.forceAll ids .all).countUp r.pa r.bypass)
      | _ => some s
  | .pageCopy _ va frame bs d last =>
    match (rootOf s.fab.root).bind fun root => s.walk root (va.toNat % 2 ^ 57) with
    | none => some s
    | some (leafPa, l) =>
      let pa := lfFrame l * 2 ^ 16 + va.toNat % 2 ^ 16
      if !(lfV l && lfN l && lfM l && !lfForward l && lfFrame l == frame && paDevice pa) || (bs && bsFrameBad frame) then some s
      else if !(d.isEmpty || s.sliceReady pa d.length false) || (last && !s.sliceReady leafPa 8 false) then none
      else
        let s := if d.isEmpty then s else (s.settle pa d.length).perform pa d false
        some (if last then (s.settle leafPa 8).perform leafPa (bytes8 (l &&& ~~~(0x8080 : W64))) false else s)
  | _ => some s

/-- A member's packet for an instance (R390): matched, kept until this device starts the instance, or a mismatch;
one for an instance that is over is dropped. -/
def State.collPacket (s : State) (src tag n digest : Nat) (data : List Byte) (status : Nat) (digestOf : List Byte → Nat) : State :=
  match s.fab.insts.find? fun i => natAt i.desc 0 4 == tag && i.n == n && !i.done with
  | none =>
    if s.fab.plans.any fun p => natAt p.desc 0 4 == tag && n ≤ p.started then s
    else s.updFab fun f => { f with early := f.early ++ [⟨tag, n, src, digest, data, status⟩] }
  | some i =>
    if status != 0 then s.collFail i.id status
    else if digest != digestOf i.desc then (s.collFail i.id 7).collTell i 7 [src]
    else
      let g := fun (x : CollInst) => { x with contrib := x.contrib ++ [(src, data)] }
      s.updFab fun f => { f with insts := listUpd (fun x => x.id == i.id) g f.insts }

/-- The descriptor fields that members must agree on, as one number (R390). -/
def collDigest (b : List Byte) : Nat := bytesToNat (sliceB b 0 40 ++ sliceB b 80 48)

/-- A transfer answered; none while what follows has to wait. -/
def State.ackPacket (s : State) (x : Xfer) (status : Nat) (addr : W64) (data : List Byte) : Option State :=
  let drop := fun (s : State) => s.updFab fun f => { f with xfers := f.xfers.filter fun y => y.id != x.id }
  match x.of with
  | .req r => match s.req? r with
    | some q => (drop s).ackReq q x status addr data
    | none => some (drop s)
  | .route _ _ _ _ _ | .routeCtr _ _ _ => s.ackRoute x status
  | .coll i => some (if status = 0 then drop s else (drop s).collFailHere i status)
  | .page m => some (if status = 0 then drop s else (drop s).pageFail m 2)
  | .cast => some (drop s)

/-- DEDUCED, log entry 6. -/
def execFabricPacketArrival (src plane : Nat) (pkt : Packet) (s : State) : Host.Outcome State Fault Refusal :=
  let no : Host.Outcome State Fault Refusal := .next s
  if !s.fab.ctl.getLsbD 0 || 18 ≤ plane || s.nranks ≤ src || src == s.rank || s.fab.lanes.getD plane 0 != 4 then no
  else
    let more := Config.choose s.tick [0xC40] % 2 ^ 16
    let s := s.updFab fun f => { f with retries := f.retries.modify plane fun n => Nat.min 0xFFFF (n + more) }
    let die := portDie plane
    let behind := s.fab.waiting.any fun x => x.src == src && x.plane == plane
    match pkt with
    | .write _ _ _ | .reduce _ _ _ _ | .read _ _ _ | .counter _ _ | .check _ _ _ _ | .pageCopy _ _ _ _ _ _ =>
      if behind then no
      else match s.peerAccess src die pkt with
      | some s' => .next s'
      | none => no
    | .reduction _ rcb base off data =>
      .next (({ s with nextId := s.nextId + 1 } : State).updFab fun f => { f with waiting := f.waiting ++ [(⟨s.nextId, src, rcb, base, off, data, plane⟩ : RedLand)] })
    | .multicast _ va data ctr =>
      if behind then no else if !s.fab.ctl.getLsbD 1 then .next s else
      let failed := fun (s : State) => (s.fabCount 0).pushErr 4 0xFFFF (srcCopy die (Config.choose s.tick [0xC43])) ctr 0
      match State.fabSpans die true true 0xC41 (pageParts 0 va.toNat data.length) s [] with
      | .wait => no
      | .bad _ _ s => .next (failed s)
      | .ok l s => match State.fabSpans die true false 0xC42 (pageParts 0 ctr.toNat 8) s [] with
      | .wait => no
      | .bad _ _ s => .next (failed s)
      | .ok cs s =>
        if ctr.toNat % 8 != 0 || !cs.all fun c => paDevice c.2.pa then .next (failed s)
        else if !s.landReady l || !s.landReady cs then no
        else .next (cs.foldl (fun s c => s.countUp c.2.pa c.2.bypass) (s.landNow die s.nextId l data))
    | .collective tag n digest data => .next (s.collPacket src tag n digest data 0 collDigest)
    | .collectiveFail tag n status => .next (s.collPacket src tag n 0 [] (if status = 0 then 7 else status) collDigest)
    | .ack id status addr data =>
      match s.fab.xfers.find? fun x => x.id == id with
      | some x =>
        if !x.sentAt.any fun t => s.gtsc ≤ t + s.fabTimeout then no
        else match s.ackPacket x status addr data with
          | some s' => .next s'
          | none => no
      | none => .next s
    | .redirect dev va own => .next (s.setOwner die dev va.toNat own)
    | .chase id dev va =>
      let s := s.updXlat fun x => { x with poc := x.poc.filter fun e => !(e.die == die && e.rank == dev && e.page == va.toNat / 2 ^ 16) }
      .next (s.updFab fun f => { f with xfers := listUpd (fun x => x.id == id) (fun x => { x with dev := dev, sentAt := none, port := none }) f.xfers }).injectAll

end Sys2Proof.Machine
end

