-- ==== Sys2Proof/Machine/Collective.lean ====
section
/-! DEFINITION. Collectives: opcodes 0x580 to 0x582, plans, instances, and the element values an exchange leaves
(R381 to R391, R395, R396). -/

set_option linter.unusedVariables false

namespace Sys2Proof.Machine

/-! Descriptors (R381, R382). -/

structure Coll where
  tag : Nat
  first : Nat
  nax : Nat
  ndim : Nat
  etype : Nat
  op : Nat
  lch : Nat
  m : List Nat
  dim : List Nat
  slay : Nat
  dlay : Nat
  src : Nat
  dst : Nat
  buf : Nat
  buflen : Nat
  cnt : Nat
  clean : Bool
  deriving DecidableEq, Repr

def collOf (b : List Byte) : Coll :=
  let w := natAt b 0 8
  { tag := bitsOf w 31 0, first := bitsOf w 43 32, nax := bitsOf w 45 44, ndim := bitsOf w 47 46, etype := bitsOf w 49 48,
    op := bitsOf w 51 50, lch := bitsOf w 56 52,
    m := (List.range 4).map fun i => natAt b (8 + 2 * i) 2, dim := (List.range 4).map fun i => natAt b (16 + 4 * i) 4,
    slay := natAt b 32 2, dlay := natAt b 34 2, src := natAt b 40 8, dst := natAt b 48 8, buf := natAt b 56 8,
    buflen := natAt b 64 8, cnt := natAt b 72 8,
    clean := bitsOf w 63 57 == 0 && natAt b 36 4 == 0 && natAt b 80 48 == 0 && natAt b 40 8 < 2 ^ 57 && natAt b 48 8 < 2 ^ 57 &&
      natAt b 56 8 < 2 ^ 57 && natAt b 64 8 < 2 ^ 40 && natAt b 72 8 < 2 ^ 57 }

def Coll.size (c : Coll) : Nat := if c.etype = 0 || c.etype = 3 then 4 else 2
def Coll.mAt (c : Coll) (a : Nat) : Nat := c.m.getD a 1
def Coll.dimAt (c : Coll) (d : Nat) : Nat := c.dim.getD d 1
/-- Kind and axis of a dimension in a layout. -/
def layKind (lay d : Nat) : Nat := lay / 16 ^ d % 4
def layAxis (lay d : Nat) : Nat := lay / 16 ^ d / 4 % 4

/-- The role of an axis in a layout. -/
inductive Role
  | none
  | shards (d : Nat)
  | partialSum
  deriving DecidableEq, Repr

def roleOf (lay a : Nat) : Role :=
  match (List.range 4).find? fun d => layKind lay d == 1 && layAxis lay d == a with
  | some d => .shards d
  | none => if (List.range 4).any fun d => layKind lay d == 2 && layAxis lay d == a then .partialSum else .none

def Coll.ranks (c : Coll) : Nat := c.m.foldl (· * ·) 1
/-- Coordinate of a rank along an axis. -/
def Coll.coord (c : Coll) (rank a : Nat) : Nat := (rank - c.first) / ((c.m.take a).foldl (· * ·) 1) % c.mAt a
/-- Local elements along a dimension in a layout. -/
def Coll.loc (c : Coll) (lay d : Nat) : Nat := if layKind lay d = 1 then c.dimAt d / c.mAt (layAxis lay d) else c.dimAt d
def Coll.locAll (c : Coll) (lay : Nat) : Nat := ((List.range 4).map fun d => c.loc lay d).foldl (· * ·) 1
/-- An axis over which the exchange folds: partial in the source and not in the destination.  DEDUCED, log entry 86. -/
def Coll.folds (c : Coll) (a : Nat) : Bool := roleOf c.slay a == .partialSum && roleOf c.dlay a != .partialSum
def Coll.g (c : Coll) : Nat := ((List.range 4).map fun a => if c.folds a then c.mAt a else 1).foldl (· * ·) 1

/-- The bytes of BUF that a plan needs (R384). -/
def Coll.need (c : Coll) : Nat :=
  let n := c.locAll c.slay
  if 2 ≤ c.g && c.g ≤ 64 then 4 * c.g * ((n + c.g - 1) / c.g) else 0

/-- BADPLAN (R386). -/
def Coll.bad (c : Coll) (rank nranks : Nat) (ext : Bool) : Bool :=
  let lays := [c.slay, c.dlay]
  let E := c.size
  !c.clean || c.op == 3 || (lays.any fun l => (List.range 4).any fun d => layKind l d == 3) ||
    ((List.range 4).any fun a => if a ≤ c.nax then c.mAt a == 0 else c.mAt a != 1) ||
    4096 < c.ranks || nranks < c.first + c.ranks || rank < c.first || c.first + c.ranks ≤ rank ||
    ((List.range 4).any fun d => c.dimAt d == 0 || (c.ndim < d && c.dimAt d != 1)) ||
    (lays.any fun l => (List.range 4).any fun d => layKind l d != 0 && c.nax < layAxis l d) ||
    (lays.any fun l => (List.range 4).any fun d => (List.range d).any fun e =>
      layKind l d == 1 && layKind l e == 1 && layAxis l d == layAxis l e) ||
    (lays.any fun l => (List.range 4).any fun d => (List.range 4).any fun e =>
      layKind l d == 1 && layKind l e == 2 && layAxis l d == layAxis l e) ||
    (lays.any fun l => (List.range 4).any fun d => layKind l d == 1 && c.dimAt d % c.mAt (layAxis l d) != 0) ||
    c.lch < 12 || 24 < c.lch || c.src % E != 0 || c.dst % E != 0 ||
    overlapsAt c.src (c.locAll c.slay * E) c.dst (c.locAll c.dlay * E) ||
    ((List.range 4).any fun a => roleOf c.dlay a == .partialSum && roleOf c.slay a != .partialSum) ||
    (64 < c.g && !ext)

/-! Element values (R383). -/

/-- Coordinates of a dense index. -/
def unflat (sizes : List Nat) (i : Nat) : List Nat :=
  (sizes.foldl (fun (x : List Nat × Nat) n => (x.1 ++ [x.2 % n], x.2 / n)) ([], i)).1
def flat (sizes xs : List Nat) : Nat := ((sizes.zip xs).foldr (fun (p : Nat × Nat) acc => p.2 + p.1 * acc) 0)

def Coll.sizes (c : Coll) (lay : Nat) : List Nat := (List.range 4).map fun d => c.loc lay d

/-- The global index of a local destination element of a rank. -/
def Coll.global (c : Coll) (rank i : Nat) : List Nat :=
  (unflat (c.sizes c.dlay) i).zipIdx.map fun y =>
    if layKind c.dlay y.2 = 1 then y.1 + c.coord rank (layAxis c.dlay y.2) * (c.dimAt y.2 / c.mAt (layAxis c.dlay y.2)) else y.1

/-- The ranks whose elements make an element, ascending. -/
def Coll.givers (c : Coll) (rank : Nat) (x : List Nat) : List Nat :=
  ((List.range c.ranks).map (c.first + ·)).filter fun q => (List.range 4).all fun a =>
    match roleOf c.slay a with
    | .none => c.coord q a == c.coord rank a
    | .shards d => c.coord q a == x.getD d 0 * c.mAt a / c.dimAt d
    | .partialSum => c.folds a || c.coord q a == c.coord rank a

/-- Its index in each giver's source tensor. -/
def Coll.srcIndex (c : Coll) (x : List Nat) : Nat :=
  flat (c.sizes c.slay) (x.zipIdx.map fun y => if layKind c.slay y.2 = 1 then y.1 % c.loc c.slay y.2 else y.1)

def Coll.val (c : Coll) (x : Nat) : FVal :=
  match c.etype with | 0 => fp32.val x | 1 => Sys2Proof.Machine.bf16.val x | _ => fp16.val x
def Coll.enc (c : Coll) (v : FVal) : Nat :=
  match c.etype with
  | 0 => fp32.round .rne false v
  | 1 => Sys2Proof.Machine.bf16.round .rne false v
  | _ => fp16.round .rne false v

/-- A sum in FP32, each addition rounded (R74). -/
def sumF32 : List FVal → FVal
  | [] => .fin false 0 0
  | v :: l => l.foldl (fun a x => f32Of (BitVec.ofNat 32 (fp32.round .rne false (FVal.add .rne a x)))) v

/-- The contributions of one leaf of the canonical tree after another (R75, R367). -/
def leafGroups : List (Nat × FVal) → List (List FVal)
  | [] => []
  | (q, v) :: l =>
    match leafGroups l, l with
    | g :: gs, (q', _) :: _ => if q / 64 = q' / 64 then (v :: g) :: gs else [v] :: g :: gs
    | gs, _ => [v] :: gs

/-- The value that contributions in ascending rank order fold to.  DEDUCED, log entry 87. -/
def Coll.fold (c : Coll) (xs : List (Nat × Nat)) : Nat :=
  match xs with
  | [] => 0
  | [x] => x.2
  | x :: l =>
    let toI := fun (n : Nat) => (BitVec.ofNat 32 n).toInt
    match c.op, c.etype == 3 with
    | 0, true => (xs.map (·.2)).foldl (· + ·) 0 % 2 ^ 32
    | 1, true => l.foldl (fun a y => if toI y.2 < toI a then y.2 else a) x.2
    | _, true => l.foldl (fun a y => if toI a < toI y.2 then y.2 else a) x.2
    | 0, false =>
      let vs := xs.map fun y => (y.1, c.val y.2)
      c.enc (if 64 < c.g then sumF32 ((leafGroups vs).map sumF32) else sumF32 (vs.map (·.2)))
    | 1, false => c.enc (l.foldl (fun a y => FVal.min a (c.val y.2)) (c.val x.2))
    | _, false => c.enc (l.foldl (fun a y => FVal.max a (c.val y.2)) (c.val x.2))

/-- One local destination element, none while a contribution is still to come. -/
def Coll.elem (c : Coll) (rank : Nat) (contrib : List (Nat × List Byte)) (i : Nat) : Option Nat :=
  let x := c.global rank i
  let k := c.srcIndex x
  let got := (c.givers rank x).map fun q => (contrib.find? fun y => y.1 == q).map fun y => (q, natAt y.2 (k * c.size) c.size)
  if got.all Option.isSome then some (c.fold (got.filterMap id)) else none

/-- The ranks that need this rank's tensor. -/
def Coll.takers (c : Coll) (rank : Nat) : List Nat :=
  ((List.range c.ranks).map (c.first + ·)).filter fun r => r != rank && (List.range 4).all fun a =>
    match roleOf c.slay a with
    | .none => c.coord rank a == c.coord r a
    | .shards d =>
      let n := c.loc c.dlay d
      let lo := if layKind c.dlay d = 1 then c.coord r (layAxis c.dlay d) * n else 0
      lo * c.mAt a / c.dimAt d ≤ c.coord rank a && c.coord rank a ≤ (lo + n - 1) * c.mAt a / c.dimAt d
    | .partialSum => c.folds a || c.coord rank a == c.coord r a

/-! Plans (R389). -/

/-- The status word of R388. -/
def collWord (code handle : Nat) : W32 := BitVec.ofNat 32 (code + 16 * (handle % 64))

/-- A descriptor read for a thread, its plan kept, its status word given to the operation; none where a byte cannot
be read yet.  The second word of a plan that has no requirement stays open.  DESIGN CHOICE, log entry 89. -/
def State.cplanGo (s : State) (id : Nat) : Option State :=
  match s.op? id with
  | none => some s
  | some o =>
    match o.kind with
    | .cplan va dst =>
      let t := o.thr
      let free := Config.freeWord s.tick [0xD00, id]
      let done := fun (s : State) (w x : W32) => some (s.updOp id fun y => { y with kind := .result [.v dst w, .v (dst + 1) x] })
      match s.access t va 128 false true [va.toNat] with
      | .wait => none
      | .fault _ _ s => done s (collWord 1 0) free
      | .nonres _ => done s (collWord 2 0) free
      | .ok rs s1 =>
        let parts := rs.map fun r => (⟨.mem r.pa, r.len, r.bypass, none, none⟩ : Part)
        if !parts.all fun p => s1.placeReady t p then none
        else
          let got := parts.foldl (fun (x : List Byte × State) p =>
            let y := x.2.readPlace t none false p
            (x.1 ++ y.1, y.2)) ([], s1)
          let c := collOf got.1
          let s2 := got.2
          let open_ := (List.range 64).filter fun h => !s2.fab.plans.any fun p => p.handle == h
          if c.bad s2.rank s2.nranks (s2.fab.ctl.getLsbD 0 && s2.fab.ctl.getLsbD 1) then done s2 (collWord 3 0) free
          else
            let units := BitVec.ofNat 32 ((c.need + 63) / 64)
            if c.buflen < c.need then done s2 (collWord 4 0) units
            else match s2.pick [0xD01, id] open_ with
              | none => done s2 (collWord 5 0) units
              | some h =>
                let L := s2.launchOf t
                done (s2.updFab fun f => { f with plans := f.plans ++ [⟨h, L.id, L.root, got.1, 0⟩] }) (collWord 0 h) units
    | _ => some s

def execCplan (c : Ctl) (d a : Operand) (off : BitVec 12) (s : State) : Host.Outcome State Fault Refusal :=
  native c (.cplan c d a off) s fun s t =>
    let va := s.addr t a off
    if s.loadHeld t c d 2 then .stay s
    else if va.toNat % 128 != 0 || 2 ^ 57 ≤ va.toNat then .trap s causeProtection va false
    else
      let id := s.nextId
      let s1 := s.begin_ t c (.cplan va (opNum d)) none
      if (s.ctx t).quant then .next (s1.defer t)
      else match s1.cplanGo id with
        | some s2 => .next s2
        | none => .stay s

/-- A plan of a launch by its handle. -/
def State.planOf (s : State) (launch h : Nat) : Option Plan := s.fab.plans.find? fun p => p.handle == h && p.launch == launch

/-- An instance of a plan starts; a handle that is not valid leaves one that is over with BADHANDLE (R390). -/
def State.cgoGo (s : State) (t : TRef) (launch h : Nat) : State :=
  match s.planOf launch h with
  | none =>
    let i : CollInst :=
      { id := s.nextId, plan := h, launch := launch, desc := [], root := 0, n := 0, by_ := some t, begun := true,
        contrib := [], chunks := [], status := 8, done := true, bad := true }
    { s with nextId := s.nextId + 1 }.updFab fun f => { f with insts := f.insts ++ [i] }
  | some p =>
    let i : CollInst :=
      { id := s.nextId, plan := h, launch := launch, desc := p.desc, root := p.root, n := p.started + 1, by_ := some t, begun := false,
        contrib := [], chunks := [], status := 0, done := false, bad := false }
    { s with nextId := s.nextId + 1 }.updFab fun f => { f with
      insts := f.insts ++ [i]
      plans := listUpd (fun q => q.handle == h) (fun q => { q with started := q.started + 1 }) f.plans }

def execCgo (c : Ctl) (a : Operand) (s : State) : Host.Outcome State Fault Refusal :=
  native c (.cgo c a) s fun s t =>
    let h := (s.src32 t a).toNat
    if (s.ctx t).quant then .next ((s.beginQuiet t (.cgo h)).defer t)
    else if s.postHeld t lsAt then .stay s
    else .next (((s.flush t .system lsAt).releaseK t).cgoGo t (s.launchOf t).id h)

/-- Whether every instance of a plan that this device has started is over. -/
def State.collOver (s : State) (launch h : Nat) : Bool :=
  s.fab.insts.all fun i => i.launch != launch || i.plan != h || i.done

/-- The status of the first instance that did not end OK (R391). -/
def State.collStatus (s : State) (launch h : Nat) : Nat :=
  ((s.fab.insts.find? fun i => i.launch == launch && i.plan == h && i.done && i.status != 0).map (·.status)).getD 0

def execCwait (c : Ctl) (d a : Operand) (s : State) : Host.Outcome State Fault Refusal :=
  native c (.cwait c d a) s fun s t =>
    let h := (s.src32 t a).toNat
    s.queueWait t (if s.loadHeld t c d 1 then .stay s
    else if (s.planOf (s.launchOf t).id h).isNone then
      let id := s.nextId
      .next ((s.begin_ t c (.result [.v (opNum d) (collWord 8 (if h < 64 then h else (Config.freeWord s.tick [0xD02]).toNat))]) (some .device)).acqBy t id .device)
    else
      let id := s.nextId
      let s1 := (s.begin_ t c (.cwait h (opNum d)) (some .device)).acqBy t id .device
      if s.collOver (s.launchOf t).id h then .next s1 else if (s.ctx t).quant then .stay s else s1.hold t id)

/-! Instances (R385, R390, R391). -/

/-- A range of an instance, at user level in its launch's space (R385). -/
def State.collRange (s : State) (i : CollInst) (va len : Nat) (write : Bool) : Spans :=
  match s.engineXlat .die 0 i.root va len write true [0xD10, i.id, va] with
  | .wait => .wait
  | .bad c a s => .bad (codeOf c) a s
  | .ok rs s => .ok (s.spansOf rs) s

def Coll.srcLen (c : Coll) : Nat := c.locAll c.slay * c.size
def Coll.dstLen (c : Coll) : Nat := c.locAll c.dlay * c.size
def Coll.chunks (c : Coll) : Nat := (c.dstLen + 2 ^ c.lch - 1) / 2 ^ c.lch

/-- A range of an instance that may be absent. -/
def State.collOpt (s : State) (i : CollInst) (va len : Nat) : Spans := if len = 0 then .ok [] s else s.collRange i va len true

/-- The chunk counters of an instance (R385). -/
def State.collCtrs (s : State) (i : CollInst) (j n : Nat) : Spans :=
  let c := collOf i.desc
  if c.cnt = 0 then .ok [] s else if c.cnt % 8 != 0 then .bad 1 c.cnt s else s.collOpt i (c.cnt + 8 * j) (8 * n)

/-- The first status of an instance's own addresses, and the translations of its source. -/
def State.collCheck (s : State) (i : CollInst) : Spans :=
  let c := collOf i.desc
  match s.collRange i c.src c.srcLen false with
  | .ok rs s =>
    match s.collRange i c.dst c.dstLen true with
    | .ok _ s =>
      match s.collOpt i c.buf c.need with
      | .ok _ s =>
        match s.collCtrs i 0 c.chunks with
        | .ok _ s => .ok rs s
        | x => x
      | x => x
    | x => x
  | x => x

def State.setInst (s : State) (i : CollInst) : State :=
  s.updFab fun f => { f with insts := listUpd (fun (x : CollInst) => x.id == i.id) (fun _ => i) f.insts }

/-- The packets of an instance that came before it was started. -/
def State.takeEarly (s : State) (i : CollInst) : State :=
  let tag := natAt i.desc 0 4
  let mine := s.fab.early.filter fun e => e.tag == tag && e.n == i.n
  let s := s.updFab fun f => { f with early := f.early.filter fun e => !(e.tag == tag && e.n == i.n) }
  mine.foldl (fun s e => s.collPacket e.src e.tag e.n e.digest e.data e.status collDigest) s

/-- An instance begins: its source read, its packets to the members that need it. -/
def State.collBegin (s : State) (i : CollInst) : Option State :=
  let c := collOf i.desc
  match s.collCheck i with
  | .wait => none
  | .bad k _ s => some (((s.setInst { i with begun := true }).collFailHere i.id k).takeEarly i)
  | .ok rs s1 =>
    if !s1.spansReadable rs then none
    else
      let got := s1.readSpans (dieReader .cp 0) rs i.id c.srcLen
      let s2 := (got.2.setInst { i with begun := true, contrib := i.contrib ++ [(s.rank, got.1)] }).takeEarly i
      some ((c.takers s.rank).foldl (fun s r => s.send 0 r (.coll i.id) (.collective c.tag i.n (collDigest i.desc) got.1)) s2)

/-- The bytes of a chunk, none while a contribution is still to come. -/
def Coll.chunk (c : Coll) (rank : Nat) (contrib : List (Nat × List Byte)) (j : Nat) : Option (List Byte) :=
  let per := 2 ^ c.lch / c.size
  let n := Nat.min per (c.locAll c.dlay - j * per)
  let es := (List.range n).map fun k => c.elem rank contrib (j * per + k)
  if es.all Option.isSome then some ((es.map fun e => natToBytes c.size (e.getD 0)).flatten) else none

/-- One chunk lands, and its counter rises in one step (R385). -/
def State.collChunk (s : State) (i : CollInst) : Option State :=
  let c := collOf i.desc
  let ready := (List.range c.chunks).filter fun j => !i.chunks.contains j && (c.chunk s.rank i.contrib j).isSome
  match s.pick [0xD11, i.id] ready with
  | none => none
  | some j =>
    let data := (c.chunk s.rank i.contrib j).getD []
    match s.collRange i (c.dst + j * 2 ^ c.lch) data.length true with
    | .wait => none
    | .bad k _ s => some (s.collFailHere i.id k)
    | .ok rs s =>
      match s.collCtrs i j 1 with
      | .wait => none
      | .bad k _ s => some (s.collFailHere i.id k)
      | .ok xs s =>
        if !xs.all fun x => paDevice x.2.pa then some (s.collFailHere i.id 1)
        else if !s.landReady rs || !s.landReady xs then none
        else some ((xs.foldl (fun s x => s.countUp x.2.pa x.2.bypass) (s.landNow 0 s.nextId rs data)).setInst { i with chunks := j :: i.chunks })

def execCollectiveStep (inst : Nat) (s : State) : Host.Outcome State Fault Refusal :=
  let no : Host.Outcome State Fault Refusal := .next s
  match s.fab.insts.find? fun i => i.id == inst with
  | none => no
  | some i =>
    let earlier := s.fab.insts.any fun x => x.launch == i.launch && x.plan == i.plan && x.n < i.n && !x.done
    if i.done || i.bad && i.begun || earlier then no
    else match (if i.begun then s.collChunk i else s.collBegin i) with
      | some s' => .next s'
      | none => no

/-- Free bytes over a range of an instance, where it translates and can be written. -/
def State.collLoose (s : State) (i : CollInst) (va len : Nat) : Option State :=
  if len = 0 then some s
  else match s.collRange i va len true with
    | .wait => none
    | .bad _ _ _ => some s
    | .ok rs s1 => if s1.landReady rs then some (s1.freeSpans 0 va rs) else none

/-- An instance is over once its bytes have landed and its sends are acknowledged (R391); a failed one leaves its
destination and counters open, and every one its buffer (R384, R390). -/
def execCollectiveInstanceComplete (inst : Nat) (s : State) : Host.Outcome State Fault Refusal :=
  let no : Host.Outcome State Fault Refusal := .next s
  match s.fab.insts.find? fun i => i.id == inst with
  | none => no
  | some i =>
    let c := collOf i.desc
    let sending := s.fab.xfers.any fun x => x.of == .coll inst
    if i.done || !i.begun || sending || (!i.bad && !(List.range c.chunks).all fun j => i.chunks.contains j) then no
    else
      let s1 := if i.bad then (s.collLoose i c.dst c.dstLen).bind fun s => if c.cnt = 0 then some s else s.collLoose i c.cnt (8 * c.chunks)
        else some s
      match s1.bind fun s => s.collLoose i c.buf c.need with
      | none => no
      | some s2 =>
        let kept := (s2.planOf i.launch i.plan).isSome
        let endIt := fun (x : CollInst) => { x with done := true }
        let left := if kept then listUpd (fun (x : CollInst) => x.id == inst) endIt s2.fab.insts
          else s2.fab.insts.filter fun x => x.id != inst
        .next (s2.updFab fun f => { f with insts := left })

end Sys2Proof.Machine
end

