-- ==== Sys2Proof/Machine/Schedule.lean ====
section
/-! DEFINITION. The command processor's scheduling: launch records and their checks, group ranges, copy-queue
requests, partitions and shares, the placement of cells, join objects and the end of a group (R398 to R410). -/

set_option linter.unusedVariables false

namespace Sys2Proof.Machine

/-! Launch records (R401). -/

def launchOfBytes (va : W64) (b : List Byte) : LaunchRec :=
  let a := natAt b 32 4
  let f := natAt b 56 4
  let adr := fun (o : Nat) => BitVec.ofNat 64 (natAt b o 8 % 2 ^ 57)
  { va := va, entry := adr 0, ngrp := natAt b 8 8 % 2 ^ 40, args := adr 16, join := adr 24,
    threads := bitsOf a 9 0, cell := bitsOf a 11 10, regs := bitsOf a 16 12,
    scratch := bitsOf (natAt b 36 4) 14 0, accrows := bitsOf (natAt b 40 4) 11 0, power := bitsOf (natAt b 44 4) 13 0,
    deadline := natAt b 48 8, quant := bitAt f 0, narrow := bitAt f 1, pair := bitAt f 2, prio := bitsOf f 4 3,
    qlen := bitsOf f 31 16, slots := adr 64, comp := adr 72, rout := [adr 80, adr 88, adr 96, adr 104],
    pmask := bitsOf (natAt b 112 4) 15 0, stkn := bitsOf (natAt b 112 4) 31 16, stksz := natAt b 116 4 % 2 ^ 24,
    stack := adr 120 }

/-- No reserved bit of a launch record is set (R401): R402 has such a record rejected where R2 would ignore the bit.  DESIGN
CHOICE, log entry 137. -/
def launchClean (b : List Byte) : Bool :=
  ([0, 16, 24, 64, 72, 80, 88, 96, 104, 120].all fun o => natAt b o 8 < 2 ^ 57) && natAt b 8 8 < 2 ^ 40 &&
    bitsOf (natAt b 32 4) 31 17 == 0 && bitsOf (natAt b 36 4) 31 15 == 0 && natAt b 40 4 < 2 ^ 12 && natAt b 44 4 < 2 ^ 14 &&
    bitsOf (natAt b 56 4) 15 5 == 0 && natAt b 60 4 == 0 && natAt b 116 4 < 2 ^ 24

/-- Every field of a launch record is within its limits (R401, R402). -/
def LaunchRec.inLimits (r : LaunchRec) : Bool :=
  r.va.toNat % 128 == 0 && r.entry.toNat % 16 == 0 && r.scratch ≤ 24576 && r.accrows ≤ 2048 && 1 ≤ r.power && r.power ≤ 14400 &&
    r.deadline != 0 && r.cell != 3 && !(r.narrow && 511 < r.threads) && !(1 ≤ r.qlen && r.qlen ≤ 1022) && r.pmask != 0 &&
    r.slots.toNat % 8 == 0 &&
    (if r.stksz = 0 then r.stkn == 0 && r.stack == 0 else r.stkn != 0 && r.stack != 0 && r.stack.toNat % 16 == 0)

def LaunchRec.waves (r : LaunchRec) : Nat := if r.narrow then (r.threadCount + 15) / 16 else (r.threadCount + 31) / 32
/-- Instructions in a quantum (R401). -/
def LaunchRec.quantumLen (r : LaunchRec) : Nat := if r.qlen = 0 then 4096 else r.qlen + 1
/-- The waves of a pair group that stand on its leader core (R405). -/
def LaunchRec.leadWaves (r : LaunchRec) : Nat := if r.pair then (r.waves + 1) / 2 else r.waves
/-- DEDUCED, log entry 62. -/
def LaunchRec.namesRoutines (r : LaunchRec) : Bool := r.rout.any fun a => a != 0
def Launch.total (l : Launch) : Nat := l.rc.ngrp + 1

/-! Room on the cores of a cluster (R405). -/

/-- What stands taken on a core: wave slots, registers of each slice, scratchpad and row ranges. -/
structure Room where
  slots : List Nat
  regs : List Nat
  spad : List (Nat × Nat)
  rows : List (Nat × Nat)
  deriving DecidableEq, Repr

def Room.empty : Room := ⟨[], [0, 0, 0, 0], [], []⟩

/-- A wave slot taken with its registers. -/
def Room.take (r : Room) (slot regs : Nat) : Room :=
  { r with slots := slot :: r.slots, regs := r.regs.modify (slot / 8) fun n => n + regs }

def Room.ranges (r : Room) (rc : LaunchRec) (spad row : Nat) : Room :=
  { r with spad := if rc.scratch = 0 then r.spad else (spad, rc.scratchBytes) :: r.spad
           rows := if rc.accrows = 0 then r.rows else (row, rc.accrows) :: r.rows }

/-- What a group holds on one core: the slots and registers of its waves until they are freed, the rest until its end
(R121, R407).  DEDUCED, log entry 97. -/
def Group.roomOn (G : Group) (rc : LaunchRec) (core : Nat) (r : Room) : Room :=
  if G.lead == core || (G.pair && G.lead + 1 == core) then
    ((G.waves.filter fun w => w.core == core && !w.freed).foldl (fun r w => r.take w.slot rc.regCount) r).ranges rc G.spadOff G.accOrg
  else r

/-- What a handler's reservation holds on a core (R418). -/
def Resv.roomOn (v : Resv) (core : Nat) (r : Room) : Room :=
  match v with
  | .held rc c slots spad row =>
    if c == core then (slots.foldl (fun r k => r.take k rc.regCount) r).ranges rc spad row else r
  | _ => r

/-- The highest-numbered core of the highest-numbered cluster of a partition's rectangle (R418). -/
def State.rectTop (p : Part_) : Nat :=
  let r := p.rect.toNat
  bitsOf r 1 0 * 256 + (8 * (bitsOf r 7 5 + bitsOf r 13 11) + bitsOf r 4 2 + bitsOf r 10 8) * 4 + 3

/-- A handler group that stands in the room reserved for it (R418). -/
def Group.inResv (G : Group) : Resv → Bool
  | .held _ c slots _ _ => G.lead == c && G.waves.all fun w => slots.contains w.slot
  | _ => false

def State.roomAt (s : State) (core : Nat) : Room :=
  let r := s.groups.foldl (fun r G =>
    let L := (s.launch? G.launch).getD Launch.blank
    if L.priv && G.inResv (s.partAt G.part).reserved then r else G.roomOn L.rc core r) Room.empty
  s.cp.parts.foldl (fun r p => p.reserved.roomOn core r) r

/-- Wave w takes a free slot of slice w mod 4, else of the lowest slice with a slot and registers (R405). -/
def State.placeWave (s : State) (rc : LaunchRec) (r : Room) (w : Nat) : Option (Nat × Room) :=
  let free := fun (sl : Nat) => ((List.range 8).map (8 * sl + ·)).filter fun k => !r.slots.contains k
  let ok := fun (sl : Nat) => !(free sl).isEmpty && r.regs.getD sl 0 + rc.regCount ≤ 1024
  let sl := if ok (w % 4) then some (w % 4) else (List.range 4).find? ok
  sl.bind fun sl => (s.pick [0xE00, w] (free sl)).map fun k => (k, r.take k rc.regCount)

/-- The lowest aligned start at which `len` free units follow (R405). -/
def lowFree (align total len : Nat) (used : List (Nat × Nat)) : Option Nat :=
  if len = 0 then some 0
  else
    let starts := 0 :: used.map fun u => (u.1 + u.2 + align - 1) / align * align
    (starts.filter fun a => a + len ≤ total && used.all fun u => !overlapsAt u.1 u.2 a len).min?

/-- Where a group is placed: its lead core, the core and slot of each wave, its scratchpad and rows. -/
structure Placed where
  lead : Nat
  waves : List (Nat × Nat)
  spad : Nat
  row : Nat
  deriving DecidableEq, Repr

/-- A group tried at a lead core of a cluster whose cores have the given room. -/
def State.placeAt (s : State) (rc : LaunchRec) (rooms : List Room) (lead : Nat) : Option (Placed × List Room) :=
  let room := fun (rs : List Room) (c : Nat) => rs.getD c Room.empty
  let put := fun (acc : Option (List (Nat × Nat) × List Room)) (w : Nat) =>
    acc.bind fun a =>
      let c := if w < rc.leadWaves then lead else lead + 1
      (s.placeWave rc (room a.2 c) w).map fun k => (a.1 ++ [(c, k.1)], a.2.set c k.2)
  let cores := if rc.pair then [lead, lead + 1] else [lead]
  ((List.range rc.waves).foldl put (some ([], rooms))).bind fun a =>
    (lowFree 16 393216 rc.scratchBytes ((cores.map fun c => (room a.2 c).spad).flatten)).bind fun o =>
      (lowFree 1 2048 rc.accrows ((cores.map fun c => (room a.2 c).rows).flatten)).map fun r =>
        (⟨lead, a.1, o, r⟩, cores.foldl (fun rs c => rs.set c ((room rs c).ranges rc o r)) a.2)

/-- A group takes the lowest core, or the lowest pair, with room; `ok` says whether a core may stand so after it (R405). -/
def State.placeGroup (s : State) (rc : LaunchRec) (rooms : List Room) (ok : Nat → Room → Bool) : Option (Placed × List Room) :=
  (if rc.pair then [0, 2] else [0, 1, 2, 3]).findSome? fun c => (s.placeAt rc rooms c).filter fun p =>
    (if rc.pair then [c, c + 1] else [c]).all fun c => ok c (p.2.getD c Room.empty)

/-- The n groups of a cell, in cell-position order, all or none (R404, R405). -/
def State.placeCell (s : State) (rc : LaunchRec) (ok : Nat → Room → Bool) : Nat → List Room → Option (List Placed × List Room)
  | 0, rooms => some ([], rooms)
  | n + 1, rooms => (s.placeGroup rc rooms ok).bind fun p =>
      (State.placeCell s rc ok n p.2).map fun q => (p.1 :: q.1, q.2)

/-! Partitions (R404, R409, R410). -/

def rectClusters (rect : W32) : List Nat :=
  let r := rect.toNat
  if !bitAt r 14 then []
  else ((List.range (bitsOf r 13 11 + 1)).map fun y => (List.range (bitsOf r 10 8 + 1)).filterMap fun x =>
    let cx := bitsOf r 4 2 + x
    let cy := bitsOf r 7 5 + y
    if cx < 8 && cy < 5 then some (bitsOf r 1 0 * 64 + 8 * cy + cx) else none).flatten

/-- PA_GRANTn: shares of resident groups (R410). -/
def State.paGrant (s : State) (n : Nat) : Nat :=
  ((s.groups.filter fun G => G.part == n).map fun G => ((s.launch? G.launch).getD Launch.blank).rc.power).foldl (· + ·) 0

/-- The handler group of a partition, while one runs (R418). -/
def State.handlerGroup (s : State) (n : Nat) : Option Group :=
  s.groups.find? fun G => G.part == n && ((s.launch? G.launch).getD Launch.blank).priv

/-- Shares kept for the handler group while it does not run (R418). -/
def State.resvPower (s : State) (n : Nat) : Nat :=
  let r := (s.partAt n).reserved
  if s.groups.any fun G => G.part == n && ((s.launch? G.launch).getD Launch.blank).priv && G.inResv r then 0
  else match r with
    | .pending rc => rc.power
    | .held rc _ _ _ _ => rc.power
    | _ => 0

def State.sharesFree (s : State) (n : Nat) : Nat :=
  ((s.partAt n).shares.extractLsb' 0 14).toNat - s.paGrant n - s.resvPower n

/-- A partition that places work (R404, R420). -/
def State.placing (s : State) (n : Nat) : Bool :=
  let p := s.partAt n
  n < 16 && p.rect.getLsbD 14 && !p.stopped && p.preempt == .none

def emptyCluster : List Room := List.replicate 4 Room.empty

/-- The sizes of the cells that n groups from an index make up (R404). -/
def cellSizes (c : Nat) : Nat → Nat → Nat → List Nat
  | 0, _, _ => []
  | _, _, 0 => []
  | k + 1, first, n =>
    let m := Nat.min n (c - first % c)
    m :: cellSizes c k (first + m) (n - m)

/-- Cells placed one after another, each in the first cluster in which it fits (R404). -/
def State.cellsFit (s : State) (rc : LaunchRec) : List Nat → List (List Room) → Bool
  | [], _ => true
  | m :: ms, cls =>
    match (List.range cls.length).findSome? fun i =>
      (s.placeCell rc (fun _ _ => true) m (cls.getD i emptyCluster)).map fun p => cls.set i p.2 with
    | some cls => State.cellsFit s rc ms cls
    | none => false

/-- Whether a partition could hold every group of a launch at once, from a first index (R402): a cluster has wave slots for
128 groups. -/
def State.holdsAll (s : State) (rc : LaunchRec) (n first groups : Nat) : Bool :=
  let p := s.partAt n
  let cls := rectClusters p.rect
  p.rect.getLsbD 14 && groups * rc.power ≤ (p.shares.extractLsb' 0 14).toNat && groups ≤ 128 * cls.length &&
    s.cellsFit rc (cellSizes rc.cellSize (groups + 1) first groups) (cls.map fun _ => emptyCluster)

/-- Whether a core still has what a handler's reservation waits for after a group of a record has taken its room, as far as
the group takes of it (R418).  DEDUCED, log entry 99. -/
def State.leavesRoom (s : State) (core : Nat) (rc : LaunchRec) (after : Room) : Bool :=
  s.cp.parts.all fun p => match p.reserved with
    | .pending v => !p.rect.getLsbD 14 || State.rectTop p != core ||
        ((s.placeAt { v with scratch := 0, accrows := 0 } [after] 0).isSome &&
          (rc.scratch == 0 || (lowFree 16 393216 v.scratchBytes after.spad).isSome) &&
          (rc.accrows == 0 || (lowFree 1 2048 v.accrows after.rows).isSome))
    | .unread => !p.rect.getLsbD 14 || State.rectTop p != core
    | _ => true

def LaunchRec.mayUse (rc : LaunchRec) (n : Nat) : Bool := bitAt rc.pmask n

/-- NOFIT (R402).  DEDUCED, log entry 98. -/
def State.noFit (s : State) (rc : LaunchRec) (first groups : Nat) : Bool :=
  (s.placeCell rc (fun _ _ => true) rc.cellSize emptyCluster).isNone ||
    (List.range 16).all (fun n => !(rc.mayUse n && (s.partAt n).rect.getLsbD 14)) ||
    (rc.quant && ((List.range 16).all (fun n => !(rc.mayUse n && s.holdsAll rc n first groups)) ||
      (rc.stksz != 0 && rc.stkn < groups)))

/-! Checking a launch record (R402). -/

/-- An entry clause: its page, and its header where the page is resident; a routine's page must be resident (R274).  None
while it cannot be read. -/
def State.entryOk (s : State) (root : Nat) (va : W64) (resident : Bool) : Option Bool :=
  let k := s.lookup 0 root va.toNat false [0xE10, va.toNat]
  if k.wait then none
  else match k.leaf with
  | none => some false
  | some l =>
    if !lfV l || !lfX l || !lfU l then some false
    else if lfN l then some !resident
    else match s.fetchIn .die 0 root false s.stamp va with
      | .word w _ => some (w.msb && (headerOf w).kind == 2)
      | .fault _ _ => some false
      | .wait => none

/-- The entry and the routines of a record: whether every one passes, none while one cannot be read. -/
def State.entriesOk (s : State) (root : Nat) (rc : LaunchRec) : Option Bool :=
  let one := fun (a : W64) (resident : Bool) => if a.toNat % 16 != 0 then some false else s.entryOk root a resident
  let all := one rc.entry false :: (rc.rout.filter fun a => a != 0).map fun a => one a true
  if all.contains (some false) then some false else if all.contains none then none else some true

/-- How the check of a launch record ends. -/
inductive RecCheck
  /-- It can be placed. -/
  | ok (rc : LaunchRec) (s : State)
  /-- It fails with a status that its completion word takes. -/
  | bad (rc : LaunchRec) (code : Nat) (s : State)
  /-- It cannot be read, or its completion word cannot be written: KIND 8. -/
  | lost (s : State)
  | wait (s : State)

/-- The slot table a record names, in its context; the bytes, or none where they cannot be read (R392, R394). -/
inductive SlotTable
  | absent
  | ok (b : List Byte) (s : State)
  | bad (s : State)
  | wait (s : State)

def State.slotTableOf (s : State) (root : Nat) (rc : LaunchRec) : SlotTable :=
  if rc.slots = 0 then .absent
  else match s.cpRead 0 (some root) rc.slots.toNat 144 cpReader with
    | .ok b s' => .ok b s'
    | .bad _ s => .bad s
    | .wait s => .wait s

/-- DEDUCED, log entry 96. -/
def State.checkRecord (s : State) (root : Option Nat) (va : Nat) (groups : LaunchRec → Nat × Nat) (checked : Bool) : RecCheck :=
  match root with
  | none => .lost s
  | some frame =>
    match s.cpRead 0 root va 128 cpReader with
    | .wait s => .wait s
    | .bad _ s => .lost s
    | .ok b s1 =>
      let rc := launchOfBytes (BitVec.ofNat 64 va) b
      if checked then .ok rc s1
      else match s1.cpWord 0 root rc.comp.toNat with
        | .wait => .wait s1
        | .bad _ s2 => .lost s2
        | .ok _ s2 =>
          let entries := s2.entriesOk frame rc
          if !launchClean b || !rc.inLimits || entries == some false then .bad rc 1 s2
          else if entries.isNone then .wait s2
          else match s2.slotTableOf frame rc with
            | .wait s => .wait s
            | .bad s => .bad rc 1 s
            | .absent | .ok _ _ => if s2.noFit rc (groups rc).1 (groups rc).2 then .bad rc 2 s2 else .ok rc s2

/-- A completion word (R402). -/
def compWord (code info : Nat) : W64 := BitVec.ofNat 64 (2 ^ 63 + info % 2 ^ 16 * 2 ^ 16 + code)

/-- Bytes of an engine of a die written in one step past the stubs; none while they are held, no effect here where the page
has moved to another device (R329).  DEDUCED, log entry 76. -/
def State.putAt (s : State) (die : Nat) (r : Range) (data : List Byte) : Option State :=
  let s := s.redirectTo die r.pa
  let pa := s.resolve r.pa
  if s.movedAway r.pa then some s
  else if s.sliceReady pa data.length r.bypass then some ((s.settle pa data.length).perform pa data r.bypass)
  else none

/-- A launch's completion word written, or the record of KIND 8 in its place; none while its home holds it (R402, R407). -/
def State.writeComp (s : State) (root : Option Nat) (rc : LaunchRec) (part code info : Nat) : Option State :=
  match s.cpWord 0 root rc.comp.toNat with
  | .wait => none
  | .bad _ s => some (s.pushErr 8 part srcCp rc.va 0)
  | .ok r s => s.putAt 0 r (bytes8 (compWord code info))

/-! Taking compute records (R398, R403). -/

def State.headAt (s : State) (q : Nat) : Option QHead := (s.cp.heads.find? fun h => h.1 == q).map (·.2)
def State.setHead (s : State) (q : Nat) (h : QHead) : State :=
  { s with cp := { s.cp with heads := (q, h) :: s.cp.heads.filter fun x => x.1 != q } }
def State.dropHead (s : State) (q : Nat) : State := { s with cp := { s.cp with heads := s.cp.heads.filter fun x => x.1 != q } }

/-- The partition an error record of an entry names. -/
def pushPart (p : Option Push) : Nat := (p.map (·.part)).getD 0xFFFF

/-- A launch accepted from a queue: its range, its arguments, its join object (R403). -/
def State.newLaunch (s : State) (q : Nat) (rc : LaunchRec) (root stamp first count : Nat) (args join : W64) : State :=
  let l : Launch := { Launch.blank with id := s.nextId, stamp := stamp, rc := rc, root := root, first := first, count := count, upto := count, args := args, join := join }
  ({ s with nextId := s.nextId + 1, launches := s.launches ++ [l] } : State).setHead q (.range l.id)

/-- A kind-0 reference at the head of a ring checked and accepted; a record of no kind dropped (R402, R403). -/
def execLaunchRecordCheck (q : Nat) (s : State) : Host.Outcome State Fault Refusal :=
  let no : Host.Outcome State Fault Refusal := .next s
  if 4 ≤ q || (s.headAt q).isSome then no
  else match s.ringTake q with
  | none => no
  | some (b, push, s1) =>
    let kind := natAt b 0 4 % 16
    let va := bitsOf (natAt b 0 8) 56 4 * 16
    if kind = 1 || kind = 2 then no
    else if 3 ≤ kind then .next (s1.pushErr 5 (pushPart push) srcCp (BitVec.ofNat 64 va) 0)
    else
      let root := s1.entryRoot q push
      match s1.checkRecord root va (fun rc => (0, rc.ngrp + 1)) false with
      | .wait s2 => s.orAsk s2
      | .lost s2 => .next (s2.pushErr 8 (pushPart push) srcCp (BitVec.ofNat 64 va) 0)
      | .bad rc code s2 =>
        match s2.writeComp root rc (pushPart push) code 0 with
        | some s3 => .next s3
        | none => no
      | .ok rc s2 =>
        let frame := root.getD 0
        let s3 := { s2 with cp := { s2.cp with accepted := (va, frame) :: s2.cp.accepted } }
        .next (s3.newLaunch q rc frame (s.headStamp q) 0 (Nat.min (2 ^ 24) (rc.ngrp + 1)) rc.args rc.join)

/-- A kind-1 record at the head of a ring made a launch of its own, or the next range of a kind-0 launch (R403). -/
def execGroupRange (q : Nat) (s : State) : Host.Outcome State Fault Refusal :=
  let no : Host.Outcome State Fault Refusal := .next s
  if 4 ≤ q then no
  else match s.headAt q with
  | some (.range l) =>
    match s.launch? l with
    | none => no
    | some L =>
      if L.count != 0 || L.total ≤ L.upto then no
      else
        let n := Nat.min (2 ^ 24) (L.total - L.upto)
        .next (s.updLaunch l fun L => { L with count := n, upto := L.upto + n })
  | some (.resume _ _) => no
  | none =>
    match s.ringTake q with
    | none => no
    | some (b, push, s1) =>
      let va := bitsOf (natAt b 0 8) 56 4 * 16
      let w := natAt b 24 8
      let n := w % 2 ^ 24 + 1
      if natAt b 0 4 % 16 != 1 then no
      else
        let root := s1.entryRoot q push
        let known := match root with | some f => s1.cp.accepted.contains (va, f) | none => false
        match s1.checkRecord root va (fun _ => (w / 2 ^ 24, n)) known with
        | .wait s2 => s.orAsk s2
        | .lost s2 => .next (s2.pushErr 8 (pushPart push) srcCp (BitVec.ofNat 64 va) 0)
        | .bad rc code s2 =>
          match s2.writeComp root rc (pushPart push) code 0 with
          | some s3 => .next s3
          | none => no
        | .ok rc s2 =>
          .next (s2.newLaunch q { rc with ngrp := n - 1 } (root.getD 0) (s.headStamp q) (w / 2 ^ 24) n (BitVec.ofNat 64 (natAt b 8 8))
            (BitVec.ofNat 64 (natAt b 16 8)))

/-! Copy queues (R398). -/

/-- The ADDR fields of a request, and the one it writes where the body names it. -/
def bodyAdrs (b : List Byte) : List Nat :=
  match natAt b 0 8 % 64 with
  | 0 | 1 | 4 => [adrField b 24, adrField b 32]
  | 2 | 3 => [adrField b 24, adrField b 32, adrField b 40]
  | 5 | 6 | 7 | 8 => [adrField b 24]
  | _ => []

/-- What a body says of the destination: its address, the address of its record, or nothing on this device. -/
inductive BodyDst
  | at_ (va : Nat)
  | record (va : Nat)
  | none
  deriving DecidableEq, Repr

def bodyDst (b : List Byte) : BodyDst :=
  match natAt b 0 8 % 64 with
  | 0 | 2 => .at_ (adrField b 32)
  | 1 => if bitAt (natAt b 60 4) 0 then .record (adrField b 24) else .at_ (adrField b 32)
  | 3 | 5 | 6 => .at_ (adrField b 24)
  | 4 => .record (adrField b 32)
  | _ => .none

/-- A group number that no group has: a copy-queue request belongs to no group. -/
def noGroup : Nat := 2 ^ 62

/-- A request of no group, on a cluster of copy engines (R398). -/
def queueReq (id root die cl pa : Nat) (body : List Byte) : Req :=
  { id := id, chain := id, pos := 0, core := die * 256 + cl * 4, cluster := die * 64 + cl,
    group := noGroup, root := root, addr := .mem pa, body := body, by_ := none, began := false, pieces := [],
    code := none, total := 0, landed := 0, bar := none, sbr := none, xfer := none, retired := false }

/-- The die that homes a destination; a free one where no page of this device does, none while the page, or the record that
names it, cannot be found.  DEDUCED, log entry 55. -/
def State.dstDie (s : State) (root : Nat) (b : List Byte) : Option Nat :=
  let any := Config.choose s.tick [0xE20] % 4
  let home := fun (s : State) (va : Nat) => match s.engineXlat .die 0 root (va % 2 ^ 57) 1 true true [0xE21, va] with
    | .ok rs _ => some ((rs.head?.map fun r => if paDevice r.pa then paDie r.pa else any).getD any)
    | .bad _ _ _ => some any
    | .wait => none
  match bodyDst b with
  | .none => some any
  | .at_ va => home s va
  | .record va => match s.record (queueReq s.nextId root 0 0 0 b) va with
    | .ok T s => home s T.base
    | .bad _ _ _ => some any
    | .wait _ => none

/-- A copy-queue entry becomes a request of a copy engine on the die of its destination, its status word in the ring
entry; one that breaks the conditions of R398 retires with ILLEGAL, one whose queue has no context with FAULT. -/
def execCopyQueueRequest (q : Nat) (s : State) : Host.Outcome State Fault Refusal :=
  let no : Host.Outcome State Fault Refusal := .next s
  let k := s.queueAt q
  let pa := k.entryPa q k.head.toNat
  if q != 4 && q != 5 || !s.sliceReady pa 64 false then no
  else match s.ringTake q with
  | none => no
  | some (b, push, s1) =>
    let s1 := s1.pruneReqs
    let root := rootOf (s1.queueAt q).root
    let frame := root.getD 0
    match s1.dstDie frame b with
    | none => no
    | some die =>
    let cl := Config.choose s1.tick [0xE22] % 40
    let kind := natAt b 0 8 % 64
    let illegal := !bodyEnd b || bodyBv b || bodyArv b || (bodyAdrs b).any (fun w => bitAt w 63) || 11 ≤ kind || kind == 9
    let code : Option (Nat × W64) := if root.isNone then some (1, 0) else if illegal then some (3, 0) else none
    if 64 ≤ s1.copyLoad (die * 64 + cl) then no
    else
      let r : Req := { queueReq s1.nextId frame die cl pa b with code := code }
      let s2 := (s1.settle (pa + 8) 8).perform (pa + 8) (natToBytes 8 1) false
      .next { s2 with nextId := s2.nextId + 1, reqs := s2.reqs ++ [r], cp := { s2.cp with copyRun := (r.id, q, pa) :: s2.cp.copyRun } }

/-! Placing a cell (R404 to R406). -/

/-- One thread of a placed group (R103, R406). -/
def newThread (rc : LaunchRec) (stack : Option Nat) (tid : Nat) : Thread :=
  let per := if rc.narrow then 16 else 32
  let sp : Nat := match stack with
    | none => 0
    | some k => rc.stack.toNat + (k * rc.threadCount + tid + 1) * (rc.stksz * 16)
  { Thread.blank with tid := tid, lane := tid % per, wave := tid / per, v := List.replicate rc.regCount 0, fresh := true,
                      sp := BitVec.ofNat 64 sp, pc := rc.entry }

/-- A group in its starting state (R406). -/
def newGroup (L : Launch) (id part cluster index : Nat) (stack : Option Nat) (stamp : Nat) (p : Placed) : Group :=
  let core := fun (c : Nat) => cluster * 4 + c
  { id := id, launch := L.id, index := index, cellPos := index % L.rc.cellSize, part := part, lead := core p.lead, pair := L.rc.pair,
    stackSlot := stack, spadOff := p.spad, accOrg := p.row,
    k := [L.args.extractLsb' 0 32, L.args.extractLsb' 32 32] ++ List.replicate 62 0, kOld := [],
    waves := p.waves.zipIdx.map fun w => { Wave.blank with idx := w.2, core := core w.1.1, slot := w.1.2, tokens := List.replicate 16 Token.blank },
    threads := (List.range L.rc.threadCount).map fun i => newThread L.rc stack i,
    halt := none, fetchStamp := stamp, handles := none }

/-- A placement takes its scratchpad and rows on a core with contents that are unspecified, but for rows that no earlier
group has held (R202, R406). -/
def Core.taken (k : Core) (spad len row rows key : Nat) : Core :=
  { k with spad := if len = 0 then k.spad else k.spad.filter fun c => !(spad ≤ c.1 && c.1 < spad + len)
           spadAlloc := if len = 0 then k.spadAlloc else (spad, len, key) :: k.spadAlloc
           rows := k.rows.filter fun r => !(row ≤ r.1 && r.1 < row + rows && k.rowAlloc.any fun a => a.1 ≤ r.1 && r.1 < a.1 + a.2.1)
           shadow := k.shadow.filter fun r => !(row ≤ r.1 && r.1 < row + rows && k.rowAlloc.any fun a => a.1 ≤ r.1 && r.1 < a.1 + a.2.1)
           rowAlloc := if rows = 0 then k.rowAlloc else (row, rows, key) :: k.rowAlloc }

def State.takeRoom (s : State) (rc : LaunchRec) (lead spad row key : Nat) : State :=
  let f := fun (k : Core) => k.taken spad rc.scratchBytes row rc.accrows key
  let s := s.updCore lead f
  if rc.pair then s.updCore (lead + 1) f else s

/-- Stack slots of a launch that groups or images of it hold (R405, R421). -/
def State.stackHeld (s : State) (L : Launch) : List Nat :=
  L.saved ++ (s.groups.filter fun G => G.launch == L.id).filterMap (·.stackSlot)

/-- Slots for n groups from an index: the lowest free ones, in quantum mode the group's own (R405); none where they do not suffice. -/
def State.stackSlots (s : State) (L : Launch) (first : Nat) : Nat → List Nat → Option (List (Option Nat))
  | 0, _ => some []
  | n + 1, used =>
    if L.rc.stksz = 0 then (State.stackSlots s L (first + 1) n used).map fun l => none :: l
    else if L.rc.quant then (State.stackSlots s L (first + 1) n used).map fun l => some first :: l
    else
      let free := (List.range (Nat.min L.rc.stkn (used.length + 1))).find? fun k => !used.contains k
      free.bind fun k => (State.stackSlots s L (first + 1) n (k :: used)).map fun l => some k :: l

/-- The routine table of a partition lets a launch in (R274). -/
def Part_.routinesOk (p : Part_) (rc : LaunchRec) : Bool := p.routines.all (fun a => a == 0) || p.routines == rc.rout

/-- The routine table and the slot table let a launch into a partition (R274, R394); the slot table's bytes. -/
def State.tablesOk (s : State) (L : Launch) (n : Nat) : Option (Option (List Byte)) :=
  if !L.parts.contains n && !(s.partAt n).routinesOk L.rc then none
  else if L.dl.isSome then some none
  else match s.slotTableOf L.root L.rc with
    | .absent => some none
    | .ok b _ => if s.fab.slotTable.isNone || s.fab.slotTable == some b then some (some b) else none
    | _ => none

/-- A launch admitted into a partition: its tables, and with its first group its deadline (R274, R394, R413). -/
def State.admitLaunch (s : State) (L : Launch) (n : Nat) (slots : Option (List Byte)) : State :=
  let lim := (s.partAt n).dlLimit.toNat
  let dl := if lim != 0 && lim < L.rc.deadline then lim else L.rc.deadline
  let s := if L.rc.namesRoutines then s.updPart n fun p => { p with routines := L.rc.rout } else s
  let s := match slots with
    | some b => (s.updFab fun f => { f with slotTable := some b, slotByLaunch := true }).injectAll
    | none => s
  let first := L.dl.isNone
  let s := s.updLaunch L.id fun x =>
    { x with parts := if x.parts.contains n then x.parts else x.parts ++ [n]
             dl := if first then some dl else x.dl
             order := if first then s.nextId else x.order }
  { s with nextId := s.nextId + 1 }

/-- A cell of a launch placed in a partition: the first cluster in which it fits (R404). -/
def State.placeIn (s : State) (L : Launch) (n : Nat) : Option State :=
  let c := L.rc.cellSize
  let m := Nat.min L.count (c - L.first % c)
  if s.sharesFree n < m * L.rc.power then none
  else (s.tablesOk L n).bind fun tbl => (s.stackSlots L L.first m (s.stackHeld L)).bind fun sl =>
    let at_ := (rectClusters (s.partAt n).rect).findSome? fun cl =>
      let rooms := (List.range 4).map fun i => s.roomAt (cl * 4 + i)
      (s.placeCell L.rc (fun i r => s.leavesRoom (cl * 4 + i) L.rc r) m rooms).map fun p => (cl, p.1)
    at_.map fun x =>
      let s1 := s.admitLaunch L n tbl
      let L1 := (s1.launch? L.id).getD L
      let s2 := (x.2.zip sl).zipIdx.foldl (fun (s : State) p =>
        let G := newGroup L1 s.nextId n x.1 (L.first + p.2) p.1.2 L1.stamp p.1.1
        (({ s with nextId := s.nextId + 1, groups := s.groups ++ [G] } : State).takeRoom L.rc G.lead G.spadOff G.accOrg G.id)) s1
      s2.updLaunch L.id fun x => { x with first := x.first + m, count := x.count - m, placed := x.placed + m }

/-- Whether a head names a partition: by PMASK and by the root table (R398, R404). -/
def State.headNames (s : State) (L : Launch) (n : Nat) : Bool := L.rc.mayUse n && s.partRoot n == some L.root

/-- The launch behind a resumption: the one that the image set was written for (R403). -/
def State.imageLaunch (s : State) (set : Nat) : Option Launch :=
  (s.cp.images.find? fun i => i.1 == set).bind fun i => s.launch? i.2

/-- A head of a compute queue that a partition may serve (R404). -/
def State.headServes (s : State) (n : Nat) (h : QHead) : Bool :=
  let names := fun (L : Launch) => s.headNames L n && L.outcome.isNone
  match h with
  | .resume set _ => (s.imageLaunch set).any names
  | .range l => (s.launch? l).any names

/-- The compute queue with the highest priority whose head a partition may serve (R404). -/
def State.servedQueue (s : State) (n : Nat) : Option Nat := (List.range 4).find? fun q => (s.headAt q).any (s.headServes n)

/-- A partition places a cell of the head it serves; one that does not fit blocks the lower queues (R404).  A resumption
is placed by its own event (R424). -/
def State.placeFrom (s : State) (n : Nat) : Option State :=
  (s.servedQueue n).bind fun q =>
    match s.headAt q with
    | some (.range l) => (s.launch? l).bind fun L =>
      if L.count = 0 then none
      else (s.placeIn L n).map fun s1 =>
        match s1.launch? l with
        | some L1 => if L1.count = 0 && L1.total ≤ L1.upto then s1.dropHead q else s1
        | none => s1
    | _ => none

/-- The host translations that the slot tables of waiting launches need (R448). -/
def State.slotAsks (s : State) : State :=
  s.launches.foldl (fun s L => if L.dl.isSome then s else match s.slotTableOf L.root L.rc with
    | .wait s' => { s with boot := s'.boot }
    | _ => s) s

def execCellPlacement (part : Nat) (s : State) : Host.Outcome State Fault Refusal :=
  if !s.placing part then .next s
  else match s.placeFrom part with
    | some s' => .next s'
    | none => s.orAsk s.slotAsks

/-! Join objects (R408). -/

/-- One decrement; a state that waits while a home holds it. -/
def State.decrement (s : State) (root : Nat) (part : Nat) (join : W64) : State ⊕ State :=
  let va := join.toNat % 2 ^ 57
  let bad := fun (s : State) => s.pushErr 6 part srcCp (BitVec.ofNat 64 va) 0
  if va % 16 != 0 || join.toNat != va then .inl (bad s)
  else match s.engineXlat .die 0 root va 16 true false [0xE30, va] with
  | .wait => .inr s
  | .bad _ _ s1 => .inl (bad s1)
  | .ok rs s1 =>
    match rs with
    | [r] =>
      let s1 := s1.redirectTo 0 r.pa
      let away := s1.movedAway r.pa
      let pa := s1.resolve r.pa
      let put := fun (a : Nat) (d : List Byte) => if away then s1 else (s1.settle pa 16).perform a d r.bypass
      if !paDevice r.pa then .inl (bad s1)
      else if !away && !s1.sliceReady pa 16 r.bypass then .inr s1
      else
        let b := if away then (List.range 16).map fun i => Config.freeByte s.tick [0xE31, va, i] else (s1.settle pa 16).mem.visBytes pa 16
        let n := natAt b 0 4
        let f := natAt b 4 4
        if n = 0 then .inl (bad (put (pa + 4) (natToBytes 4 (f % 2 ^ 31 + 2 ^ 31))))
        else
          let s2 := put pa (natToBytes 4 (n - 1))
          if n != 1 || !bitAt f 0 then .inl s2
          else
            let next := natAt b 8 8 % 2 ^ 57
            if next % 32 != 0 then .inl (bad s2)
            else match s2.cpRead 0 (s2.partRoot part) next 32 cpReader with
              | .wait s3 => .inr s3
              | .bad _ s2 => .inl (bad s2)
              | .ok rec_ s3 => .inl (s3.pushCp ⟨bitsOf f 2 1, rec_, s3.partRoot part, part, none, none⟩)
    | _ => .inl (bad s1)

/-! The end of a group (R407). -/

/-- Whether a thread's wave slot can be freed: the thread has exited, its flags are clear, its results have landed (R121). -/
def Thread.over (x : Thread) : Bool := x.exited && x.pend.isEmpty && x.flags.all fun n => n == 0

/-- Wave slots freed once every thread of the wave has exited, its results in uniform registers landed too; a quartet all of
whose waves have exited is free (R121, R204).  DEDUCED, log entry 97. -/
def Group.freeWaves (clk : Nat) (G : Group) : Group :=
  let mine := fun (w : Wave) => G.threads.filter fun x => x.wave == w.idx
  let late := fun (w : Wave) => G.kOld.any fun e => clk < e.due && (mine w).any fun x => x.tid == e.writer
  let gone := fun (w : Wave) => (mine w).all Thread.over && !late w
  let left := fun (w : Wave) => (mine w).all fun x => x.exited
  let open_ := fun (w : Wave) => mbBound w.mbind &&
    (G.waves.filter fun u => mbBound u.mbind && mbNum u.mbind == mbNum w.mbind).all left
  { G with waves := G.waves.map fun w => { w with freed := w.freed || gone w, mbind := if open_ w then 0 else w.mbind } }

def State.freeWaves (s : State) : State := { s with groups := s.groups.map (Group.freeWaves s.clk) }

/-- Copy chains of a group that have not retired (R263). -/
def State.chainsOpen (s : State) (g : Nat) : Bool :=
  (s.cores.any fun k => (k.kicks.any fun q => q.group == g) || (match k.chain with | some c => c.1.group == g | none => false)) ||
    s.reqs.any fun r => r.group == g && !r.retired

/-- Posts whose launch runs on without its group (R407). -/
def OpKind.isPost : OpKind → Bool
  | .bgx _ | .cgo _ => true
  | _ => false

/-- Whether a group's own work is over: chains, atomics, `acall`, remote calls, `mret` (R407). -/
def State.groupWork (s : State) (g : Nat) : Bool :=
  s.chainsOpen g || s.ops.any fun o => o.thr.group == some g && !o.kind.isPost

/-- A launch ends with an outcome: what it has not placed is discarded, its groups halt (R402, R417, R430). -/
def State.endLaunch (s : State) (l code info : Nat) : State :=
  match s.launch? l with
  | none => s
  | some L =>
    if L.outcome.isSome then s
    else
      let s := s.updLaunch l fun L => { L with outcome := some (code, info), count := 0 }
      let s := { s with cp := { s.cp with heads := s.cp.heads.filter fun h => h.2 != QHead.range l } }
      (s.groups.filter fun (G : Group) => G.launch == l).foldl (fun (s : State) (G : Group) => s.haltGroup G.id .ended 0) s

/-- A group leaves the machine with what stood for it: its operations, its queued matrix operations. -/
def State.dropGroup (s : State) (g : Nat) : State :=
  { s with groups := s.groups.filter fun G => G.id != g
           ops := s.ops.filter fun o => o.thr.group != some g || o.kind.isPost
           cores := s.cores.map fun k => { k with mu := k.mu.filter fun m => m.group != g }
           cp := { s.cp with parts := s.cp.parts.map fun p => { p with quietQ := p.quietQ.filter fun x => x != g } } }

/-- Queued writes that a group's threads issued or have observed. -/
def State.groupWrites (s : State) (g : Nat) : List Nat :=
  (s.mem.wq.filter fun e => (e.issuer.bind TRef.group) == some g || e.obs.any fun t => t.group == some g).map (·.id)

/-- The plans of a launch all of whose groups have ended are free (R389). -/
def State.freePlans (s : State) (l : Nat) : State :=
  if (s.launch? l).any fun L => L.total ≤ L.ended then s.updFab fun f => { f with plans := f.plans.filter fun p => p.launch != l } else s

/-- A group whose wave slots are free and whose work is over ends: its writes released, what it has still to write on chip written, its
join object decremented (R407, R408).  A handler group that ends so acts as `halt 0` (R417). -/
def execGroupEnd (grp : Nat) (s : State) : Host.Outcome State Fault Refusal :=
  let no : Host.Outcome State Fault Refusal := .next s
  match s.group? grp with
  | none => no
  | some G =>
    let s := s.freeWaves
    let L := (s.launch? G.launch).getD Launch.blank
    let freed := ((s.group? grp).map fun G => G.waves.all fun w => w.freed).getD false
    let buffered := G.threads.any fun x => !x.quantum.isEmpty
    let ids := s.groupWrites grp
    if !freed || buffered || s.groupWork grp || L.outcome.isSome || L.committing || (L.join != 0 && !s.canForceAll ids .all) then no
    else
      let s1 := s.forceAll (if L.join = 0 then (s.mem.wq.filter fun e => ids.contains e.id && paHome e.pa == 15).map (·.id) else ids) .all
      match (if L.join = 0 then .inl s1 else s1.decrement L.root G.part L.join) with
      | .inr s2 => s.orAsk s2
      | .inl s2 =>
        let s3 := ((s2.dropGroup grp).updLaunch L.id fun x => { x with ended := x.ended + 1 }).freePlans L.id
        .next (match G.handles.bind s3.group? with
          | some T => s3.endLaunch T.launch 5 0
          | none => s3)

end Sys2Proof.Machine
end

