-- ==== Sys2Proof/Machine/Sets.lean ====
section
/-! DEFINITION. Gathered sets (R106, R132, R161, R214, R215): the instructions that gather threads, the members' masks, the
sets that parked threads form, and the sets a quantum opens with. -/

set_option linter.unusedVariables false

namespace Sys2Proof.Machine

/-- The address of a slot of a clause (R26). -/
def slotAddr (pc : W64) (slot : BitVec 4) : W64 := BitVec.ofNat 64 ((pc.toNat + 12 * slot.toNat) % 2 ^ 57)

/-- The members' mask of a collective; a set of the others has none (R106). -/
def gatherMask : Instr → Option Operand
  | .shfl _ _ _ _ _ _ _ b _ => some b
  | .vote _ _ _ _ b => some b
  | .matchv _ _ _ _ b => some b
  | .wred _ _ _ _ _ _ b => some b
  | .wscan _ _ _ _ _ _ _ b => some b
  | .wmaxi _ _ _ _ _ e => some e
  | .elect _ _ a => some a
  | _ => none

def isTokOpen : Instr → Bool
  | .tokOpen _ _ => true
  | _ => false

def isMatrix : Instr → Bool
  | .mma _ _ _ _ _ | .mmp _ _ _ _ _ => true
  | _ => false

/-- The gathered instructions (R106). -/
def isGathered (i : Instr) : Bool := (gatherMask i).isSome || isTokOpen i || isMatrix i

/-- The header and the word of the slot a thread stands at, as it fetches them. -/
def State.standing (s : State) (t : TRef) : Option (Header × W96) :=
  let x := s.thread t
  match s.fetch t x.pc, s.fetch t (slotAddr x.pc x.slot) with
  | .word h _, .word w _ => some (headerOf h, w)
  | _, _ => none

/-- Another thread that has parked where a thread has. -/
def Thread.parkedWith (x y : Thread) : Bool := y.pc == x.pc && y.slot == x.slot && y.park == x.park && !y.exited && x.park != .rejoin && x.park != .no

/-- The waves whose live threads make up a matrix set: the leader waves of a bound quartet, else the thread's own. -/
def Group.matrixWaves (G : Group) (w : Wave) : List Wave :=
  if mbBound w.mbind then
    G.waves.filter fun u => mbBound u.mbind && mbNum u.mbind == mbNum w.mbind && mbFoll u.mbind == mbFoll w.mbind
  else [w]

/-- A list by rising key, the order of equal keys kept. -/
def sortOn (key : α → Nat) (l : List α) : List α :=
  l.foldl (fun out x => (out.takeWhile fun y => key y ≤ key x) ++ [x] ++ out.dropWhile fun y => key y ≤ key x) []

/-- The threads of a group by wave slot and lane. -/
def Group.ranked (G : Group) (xs : List Thread) : List Thread :=
  sortOn (fun x => ((G.waves.find? fun w => w.idx == x.wave).getD Wave.blank).slot * 32 + x.lane) xs

/-- The set that a parked thread belongs to by the parks as they stand, once it is complete: its members by wave slot and
lane. -/
def State.setNow (s : State) (t : TRef) : Option (List TRef) :=
  match s.groupOf t, s.standing t with
  | some G, some (_, word) =>
    let x := s.thread t
    let W := s.waveOf t
    let mine := G.threads.filter fun y => y.wave == x.wave && !y.exited
    let refs := fun (l : List Thread) => some ((G.ranked l).map fun y => TRef.thr G.id y.tid)
    match decode word, x.park with
    | some i, .gathered m =>
      if (gatherMask i).isSome then
        let ms := mine.filter fun y => x.parkedWith y
        if (List.range 32).all fun l => !m.getLsbD l || ms.any fun y => y.lane == l then
          refs (ms.filter fun y => m.getLsbD y.lane) else none
      else if isTokOpen i then
        let ms := mine.filter fun y => y.pc == x.pc && y.slot == x.slot && y.depth == x.depth && (x.depth == 0 || y.innermost == x.innermost)
        if ms.all fun y => x.parkedWith y then refs ms else none
      else
        let ws := (G.matrixWaves W).map (·.idx)
        let ms := G.threads.filter fun y => ws.contains y.wave && !y.exited
        if ms.all fun y => x.parkedWith y then refs ms else none
    | _, _ => none
  | _, _ => none

/-- The set that a parked thread belongs to; in quantum mode the one that the last commit put it into (R132). -/
def State.setOf (s : State) (t : TRef) : Option (List TRef) :=
  if (s.ctx t).quant then
    match s.groupOf t, (s.thread t).gset with
    | some G, some k => some ((G.ranked (G.threads.filter fun y => y.gset == some k && !y.exited)).map fun y => TRef.thr G.id y.tid)
    | _, _ => none
  else s.setNow t

/-- The sets a quantum opens with: a parked thread whose set is complete goes on with it, another's quantum is over (R132). -/
def State.openSets (s : State) (order : List TRef) : State :=
  order.foldl (fun s1 t => match (s.thread t).park with
    | .gathered _ =>
      let ms := s.setNow t
      s1.updThread t fun x => { x with qended := ms.isNone, gset := ms.bind fun l => l.head?.map fun u => (s.thread u).tid }
    | _ => s1) s

/-- A thread parks at the gathered instruction it stands at, with the mask it reads there; unparked where it stands at none. -/
def State.gatherAgain (s : State) (t : TRef) : State :=
  let i := (s.standing t).bind fun hw => decode hw.2
  let park := match i with
    | some i => if isGathered i then Park.gathered (((gatherMask i).map fun o => s.memberMask t o).getD 0) else .no
    | none => .no
  s.updThread t fun x => { x with park := park }

end Sys2Proof.Machine
end

