-- ==== Sys2Proof/Machine/Image.lean ====
section
/-! DEFINITION. Stopped groups: images (R421 to R423, R458 to R460), quiet groups and their traps, handlers and their
reservations, resumption, deadlines, the end of a launch, pre-emption and restore (R413, R416 to R425). -/

set_option linter.unusedVariables false

namespace Sys2Proof.Machine

/-! The bytes of an image. -/

/-- A number at a byte offset of a record. -/
structure Field where
  off : Nat
  len : Nat
  x : Nat
  deriving DecidableEq, Repr

/-- A record of `n` bytes with its fields, zero elsewhere. -/
def recordOf (n : Nat) (fs : List Field) : List Byte :=
  fs.foldl (fun b f => overlay 0 b f.off (natToBytes f.len f.x)) (List.replicate n 0)

def padBlock (l : List Byte) : List Byte := l ++ List.replicate ((l.length + 4095) / 4096 * 4096 - l.length) 0

def pcField (pc : W64) (slot : BitVec 4) : Nat := pc.toNat / 16 * 16 + slot.toNat

/-- A thread record (R423). -/
def Thread.image (x : Thread) : List Byte :=
  let park := match x.park with | .no => 0 | .rejoin => 1 | .gathered _ => 2
  let flags := (List.range 12).foldl (fun n i => n + x.flag i * 8 ^ i) 0
  let rep := x.rep.getD ⟨0, 0, 0, 0, 0⟩
  recordOf 96 [⟨0, 8, pcField x.pc x.slot⟩, ⟨8, 1, x.depth + 16 * x.innermost⟩,
    ⟨9, 1, park + (if x.exited then 4 else 0) + (if x.stepOver then 8 else 0)⟩, ⟨10, 1, x.p.toNat⟩, ⟨11, 1, x.skid⟩, ⟨12, 5, flags⟩,
    ⟨20, 4, x.prog.toNat⟩, ⟨24, 4, x.trapcode.toNat⟩, ⟨28, 4, if x.rep.isSome then rep.remaining.toNat else 0⟩, ⟨32, 8, x.sp.toNat⟩,
    ⟨40, 8, x.trapaddr.toNat⟩, ⟨48, 8, rep.body.toNat / 16 * 16⟩, ⟨56, 4, rep.iteration.toNat⟩, ⟨60, 8, pcField rep.retPc rep.retSlot⟩,
    ⟨68, 4, x.rcstat.toNat⟩, ⟨72, 2, x.rcseq.toNat⟩]

/-- A token entry: its first eight bytes. -/
def Token.image (e : Token) : Nat :=
  if e.valid then 1 + 2 * (e.rejoin.toNat / 16) + 2 ^ 54 * (e.parent.getD 16) else 0

/-- A wave record (R460). -/
def Wave.image (w : Wave) : List Byte :=
  recordOf 512 ([⟨0, 4, w.accbase.toNat⟩, ⟨4, 4, w.acclim.toNat⟩, ⟨8, 4, w.mbind.toNat⟩, ⟨12, 4, w.fmtdiv.toNat⟩,
    ⟨16, 4, w.bias.toNat⟩, ⟨20, 4, w.scale.toNat⟩, ⟨24, 4, w.stride.toNat⟩] ++
    ((List.range 16).map fun i =>
      let e := w.tokens.getD i Token.blank
      ([⟨32 + 16 * i, 8, e.image⟩, ⟨40 + 16 * i, 4, e.expected.toNat⟩, ⟨44 + 16 * i, 4, e.arrived.toNat⟩] : List Field)).flatten)

/-- The cores a group stands on: its lead, then the follower of a pair group. -/
def Group.cores (G : Group) : List Nat := if G.pair then [G.lead, G.lead + 1] else [G.lead]
def Group.wavesOn (G : Group) (core : Nat) : List Wave := G.waves.filter fun w => w.core == core
def Group.threadsOn (G : Group) (core : Nat) : List Thread :=
  G.threads.filter fun x => (G.wavesOn core).any fun w => w.idx == x.wave

/-- The cause a halt records: of a trap, or of a deadline (R413, R421). -/
def HaltWhy.cause : HaltWhy → Nat
  | .trap c => c
  | .deadline => causeDeadline
  | _ => 0

def HaltWhy.isTrap : HaltWhy → Bool
  | .trap _ => true
  | _ => false

/-- A group record (R459). -/
def State.groupRecord (s : State) (G : Group) (core : Nat) : List Byte :=
  let why := (G.halt.map (·.why)).getD .preempt
  let ops := (s.cores.map fun k => k.mu.filter fun m => m.group == G.id && m.core == core).flatten
  let ws := G.wavesOn core
  recordOf 4096 ([⟨0, 8, G.index⟩,
    ⟨8, 1, G.cellPos + (if G.pair then 4 else 0) + (if core != G.lead then 8 else 0) + if why.isTrap then 16 else 0⟩,
    ⟨9, 1, why.cause⟩, ⟨10, 2, ws.length⟩, ⟨12, 4, G.stackSlot.getD (2 ^ 32 - 1)⟩, ⟨16, 4, G.spadOff⟩, ⟨20, 4, G.accOrg⟩] ++
    ((List.range 32).map fun j => (⟨24 + j, 1, ((ws[j]?).map (·.slot)).getD 255⟩ : Field)) ++
    ((List.range 64).map fun j => (⟨64 + 4 * j, 4, (G.k.getD j 0).toNat⟩ : Field)) ++ [⟨320, 4, ops.length⟩] ++
    (ops.zipIdx.map fun m =>
      let o := 384 + 32 * m.2
      ([⟨o, 4, m.1.row⟩, ⟨o + 4, 4, m.1.addr.toNat⟩, ⟨o + 8, 4, m.1.fmt.toNat⟩, ⟨o + 12, 1, m.1.quartet + if m.1.pair then 8 else 0⟩,
        ⟨o + 16, 4, m.1.vb⟩] : List Field)).flatten)

/-- Register r of lane l of a wave, lanes without a thread zero (R422). -/
def Group.regBytes (G : Group) (regs wave : Nat) : List Byte :=
  let x := fun (l : Nat) => G.threads.find? fun x => x.wave == wave && x.lane == l
  ((List.range regs).map fun r => ((List.range 32).map fun l => bytes4 (((x l).map fun x => x.v.getD r 0).getD 0)).flatten).flatten

/-- The parts of a section, each padded to its blocks (R422). -/
def State.sectionParts (s : State) (G : Group) (rc : LaunchRec) (core : Nat) : List (List Byte) :=
  let ws := G.wavesOn core
  let xs := G.threadsOn core
  [s.groupRecord G core, (ws.map Wave.image).flatten, (xs.map Thread.image).flatten,
   (xs.map fun x => (x.routes.map fun r => natToBytes 16 r.toNat).flatten).flatten,
   (ws.map fun w => G.regBytes rc.regCount w.idx).flatten, s.spadBytes core G.spadOff rc.scratchBytes,
   ((List.range rc.accrows).map fun i => ((s.accRow core (G.accOrg + i)).map bytes4).flatten).flatten].map padBlock

/-- Bytes of the parts of a section, and where each begins. -/
def sectionLens (rc : LaunchRec) (waves threads : Nat) : List Nat :=
  [4096, 512 * waves, 96 * threads, 64 * threads, waves * rc.regCount * 128, rc.scratchBytes, 64 * rc.accrows].map
    fun n => (n + 4095) / 4096 * 4096
def sectionAt (rc : LaunchRec) (waves threads part : Nat) : Nat := ((sectionLens rc waves threads).take part).foldl (· + ·) 0
def Group.sectionBlocks (G : Group) (rc : LaunchRec) (core : Nat) : Nat :=
  sectionAt rc (G.wavesOn core).length (G.threadsOn core).length 7 / 4096

/-- A rectangle of clusters: die, first column and row, width and height. -/
structure Rect where
  die : Nat
  x0 : Nat
  y0 : Nat
  w : Nat
  h : Nat
  deriving DecidableEq, Repr

def rectOf (r : W32) : Rect :=
  let n := r.toNat
  ⟨bitsOf n 1 0, bitsOf n 4 2, bitsOf n 7 5, bitsOf n 10 8 + 1, bitsOf n 13 11 + 1⟩
def Rect.word (r : Rect) : Nat := r.die + 4 * r.x0 + 32 * r.y0 + 256 * (r.w - 1) + 2048 * (r.h - 1)
/-- A core within a rectangle: its column and row offset, its number in the cluster. -/
def Rect.at_ (r : Rect) (core : Nat) : Nat × Nat × Nat :=
  let cl := core % 256 / 4
  (cl % 8 - r.x0, cl / 8 - r.y0, core % 4)
/-- DEDUCED, log entry 103. -/
def Rect.slot (r : Rect) (core : Nat) : Nat := let p := r.at_ core; (p.2.1 * r.w + p.1) * 4 + p.2.2
/-- The core of a slot. -/
def Rect.core (r : Rect) (slot : Nat) : Nat :=
  r.die * 256 + (8 * (r.y0 + slot / 4 / r.w) + r.x0 + slot / 4 % r.w) * 4 + slot % 4

/-- The bounding rectangle of clusters. -/
def boundRect (cores : List Nat) : Rect :=
  let xs := cores.map fun c => c % 256 / 4 % 8
  let ys := cores.map fun c => c % 256 / 4 / 8
  let lo := fun (l : List Nat) => (l.min?).getD 0
  let hi := fun (l : List Nat) => (l.max?).getD 0
  ⟨((cores.head?).getD 0) / 256, lo xs, lo ys, hi xs - lo xs + 1, hi ys - lo ys + 1⟩

/-- A slot header (R458), with the first block and length of each section. -/
def slotHeader (r : Rect) (core : Nat) (L : Launch) (secs : List (Nat × Nat × Nat × Bool)) : List Byte :=
  let p := r.at_ core
  recordOf 4096 ([⟨0, 8, r.word + 2 ^ 16 * p.2.2 + 2 ^ 18 * p.1 + 2 ^ 21 * p.2.1⟩, ⟨8, 8, L.rc.va.toNat⟩, ⟨16, 8, 1 + 2 ^ 16 * L.root⟩,
    ⟨24, 8, L.dl.getD 0⟩, ⟨32, 8, L.quantum⟩, ⟨40, 2, secs.length⟩] ++
    (secs.zipIdx.map fun e =>
      let o := 64 + 16 * e.2
      ([⟨o, 2, e.1.1⟩, ⟨o + 2, 2, e.1.2.1⟩, ⟨o + 8, 8, e.1.2.2.1 + if e.1.2.2.2 then 2 ^ 40 else 0⟩] : List Field)).flatten)

/-- The tag of a block, or of the tags themselves (R422, R460).  DEDUCED, log entry 105. -/
def State.tag (s : State) (slotOff : Nat) (b : List Byte) : W64 := Config.imageTag s.boot.boots slotOff b

/-- Bytes written at a physical address in blocks. -/
def State.putBlocks (s : State) (pa : Nat) (bs : List (Nat × List Byte)) : State :=
  bs.foldl (fun s b => (s.settle (pa + 4096 * b.1) 4096).perform (pa + 4096 * b.1) b.2 false) s

/-- Blocks of a slot with their tags in block 511, where `old` gives the tags of blocks left as they are. -/
def State.putSlot (s : State) (pa slotOff : Nat) (bs : List (Nat × List Byte)) (old : List Byte) : State :=
  let tags := ((List.range 511).map fun b => match bs.find? fun x => x.1 == b with
    | some x => bytes8 (s.tag slotOff x.2)
    | none => sliceB old (8 * b) 8).flatten
  s.putBlocks pa (bs ++ [(511, tags ++ bytes8 (s.tag slotOff tags))])

/-- A section as numbered blocks from its first. -/
def blocksFrom (first : Nat) (parts : List (List Byte)) : List (Nat × List Byte) :=
  let all := parts.flatten
  (List.range (all.length / 4096)).map fun i => (first + i, sliceB all (4096 * i) 4096)

/-- Blocks 0 to 510 of a slot, zero where none is given. -/
def fullSlot (bs : List (Nat × List Byte)) : List (Nat × List Byte) :=
  (List.range 511).map fun b => (b, ((bs.find? fun x => x.1 == b).map (·.2)).getD (List.replicate 4096 0))

/-! Trap images (R417, R422). -/

/-- Where a partition's trap area begins. -/
def State.areaOf (s : State) (n : Nat) : Option Nat :=
  let a := (s.partAt n).area
  let pa := (a.extractLsb' 21 31).toNat * 2 ^ 21
  let r := rectOf (s.partAt n).rect
  if a.getLsbD 0 && paDevice pa && paDevice (pa + r.w * r.h * 4 * 2 ^ 21 - 1) then some pa else none

/-- The rectangle that a launch occupies in a partition (R422, R458). -/
def State.launchRect (s : State) (n l : Nat) : Rect :=
  boundRect ((s.groups.filter fun G => G.part == n && G.launch == l).map Group.cores).flatten

/-- The sections that stand in a slot of the trap area: first block, length, group index, follower. -/
def State.heldSecs (s : State) (n slot : Nat) : List (Nat × Nat × Nat × Bool) :=
  s.groups.filterMap fun G => (G.halt.bind (·.image)).bind fun e =>
    if G.part != n then none
    else ((G.cores.zip e.2).find? fun c => c.2 == slot).map fun c =>
      (e.1, G.sectionBlocks ((s.launch? G.launch).getD Launch.blank).rc c.1, G.index, c.1 != G.lead)

/-- The lowest block at which a group's sections fit in each of its slots. -/
def State.imageBlock (s : State) (G : Group) (rc : LaunchRec) (at_ : List (Nat × Nat)) : Option Nat :=
  let secs := fun (k : Nat) => s.heldSecs G.part k
  let starts := 1 :: ((at_.map fun c => secs c.2).flatten.map fun e => e.1 + e.2.1)
  let ok := fun (b : Nat) => at_.all fun c =>
    b + G.sectionBlocks rc c.1 ≤ 511 && (secs c.2).all fun e => !overlapsAt e.1 e.2.1 b (G.sectionBlocks rc c.1)
  (starts.filter ok).min?

/-- The image of a quiet group written into the trap slots of its cores, by the place of each in the launch's rectangle; the
sections of other groups that stand there stay, every other block is zero; the state unchanged where the partition has no
area.  None while its memory is held.  DEDUCED, log entry 103. -/
def State.writeTrapImage (s : State) (g : Nat) : Option State :=
  match s.group? g with
  | none => some s
  | some G =>
    let L := (s.launch? G.launch).getD Launch.blank
    let r := s.launchRect G.part G.launch
    let at_ := G.cores.map fun c => (c, r.slot c)
    match s.areaOf G.part, s.imageBlock G L.rc at_ with
    | some area, some first =>
      let base := fun (k : Nat) => area + k * 2 ^ 21
      if !at_.all (fun c => (List.range 512).all fun b => s.sliceReady (base c.2 + 4096 * b) 4096 false) then none
      else
        let put := fun (s1 : State) (c : Nat × Nat) =>
          let held := s.heldSecs G.part c.2
          let mine := (first, G.sectionBlocks L.rc c.1, G.index, c.1 != G.lead)
          let new := (0, slotHeader r c.1 L (held ++ [mine])) :: blocksFrom first (s.sectionParts G L.rc c.1)
          let kept := fun (b : Nat) => held.any fun e => e.1 ≤ b && b < e.1 + e.2.1
          s1.putSlot (base c.2) (c.2 * 2 ^ 21) ((fullSlot new).filter fun b => !kept b.1)
            (s.mem.visBytes (base c.2 + 511 * 4096) 4088)
        let s2 := at_.foldl put s
        some (s2.updGroup g fun G => { G with halt := G.halt.map fun h => { h with image := some (first, at_.map (·.2)) } })
    | _, _ => some s

/-! A group becomes quiet (R416, R417, R180, R199, R227). -/

/-- Operations that stand while a group is quiet: posts, matrix operations, what a commit keeps and the `qsync` that waits
for it (R90, R92, R227, R407). -/
def State.stands (s : State) (o : Op) : Bool :=
  o.kind.isPost || s.deferred o || (match o.kind with | .matrix | .qsync _ => true | _ => false)

def OpKind.isPgreq : OpKind → Bool
  | .pgreq .. => true
  | _ => false

/-- The operation that keeps a thread at its instruction is dropped: a gather keeps the elements it has read (R180). -/
def State.cancelHeld (s : State) (t : TRef) : State :=
  match (s.thread t).wait.bind s.op? with
  | none => s.updThread t fun x => { x with wait := none }
  | some o =>
    let s := match o.kind with
      | .load _ parts (.elems first ty count) _ =>
        let size := tyWidth (if tyWide ty then .b64 else .b32) / 8
        let n := leadDone size parts
        let bytes := (parts.map fun (p : Part) => p.got.getD (List.replicate p.len 0)).flatten
        let ws := finWrites (.elems first ty n) (bytes.take (n * size))
        (s.landAll t o.clob ws).updThread t fun x => { x with prog := x.prog + BitVec.ofNat 32 n }
      | _ => s
    ((s.flagDown t o.flag).dropOp o.id).updThread t fun x =>
      { x with wait := none, acq := x.acq.filter fun a => a.1 != o.id }

/-- Whether every instruction a group has issued has completed, but for those that keep their thread at them and a commit's
page requests, which are issued afresh (R180, R199, R314, R341, R359, R395), and what stands. -/
def State.quietOk (s : State) (G : Group) : Bool :=
  (G.threads.all fun x => x.pend.isEmpty) &&
    s.ops.all fun o => o.thr.group != some G.id || s.stands o || (s.thread o.thr).wait == some o.id || o.kind.isPgreq

/-- A `pgreq` that a commit has begun is an entry of its thread again (R95, R341). -/
def State.pgreqBack (s : State) (g : Nat) : State :=
  let mine := fun (o : Op) => o.thr.group == some g && o.kind.isPgreq && !s.deferred o && (s.launchOf o.thr).rc.quant
  (s.ops.filter mine).foldr (fun o s =>
    let k := match o.kind with | .pgreq va w dst _ => OpKind.pgreq va w dst none | k => k
    (s.updOp o.id fun x => { x with kind := k }).updThread o.thr fun x => { x with quantum := .op o.id 0 none :: x.quantum }) s

/-- Whether a partition's handler can take a trap (R417, R418). -/
def State.hasHandler (s : State) (n : Nat) : Bool :=
  let p := s.partAt n
  p.handler != 0 && p.reserved != .bad && p.reserved != .none

/-- DETAIL of a KIND 1 or 2 record (R412). -/
def groupDetail (cause index : Nat) : W64 := BitVec.ofNat 64 (cause + 256 * (index % 2 ^ 32))

/-- What follows once a trapped group is quiet and its image written (R417).  DEDUCED, log entry 102. -/
def State.handleTrap (s : State) (g cause : Nat) : State :=
  match s.group? g with
  | none => s
  | some G =>
    let L := (s.launch? G.launch).getD Launch.blank
    let imaged := ((G.halt.bind (·.image))).isSome
    if L.outcome.isSome then s
    else if L.priv then
      let s1 := s.endLaunch L.id 4 cause
      let s2 := match G.handles.bind s1.group? with
        | some T => s1.endLaunch T.launch 4 ((T.halt.map fun (h : Halt) => h.why.cause).getD 0)
        | none => s1
      s2.updGroup g fun G => { G with handles := none }
    else if imaged && s.hasHandler G.part then s.updPart G.part fun p => { p with quietQ := p.quietQ ++ [g] }
    else if cause = causeBreakpoint then s
    else (s.endLaunch L.id 4 cause).pushErr 2 G.part srcCp L.rc.va (groupDetail cause G.index)

/-- Quiet groups that wait for a handler the partition turns out not to have go on as without one (R417, R418). -/
def State.flushQuiet (s : State) (n : Nat) : State :=
  (s.partAt n).quietQ.foldl (fun s g => match s.group? g with
    | some G => s.handleTrap g ((G.halt.map fun h => h.why.cause).getD 0)
    | none => s) (s.updPart n fun p => { p with quietQ := [] })

def execGroupQuiet (grp : Nat) (s : State) : Host.Outcome State Fault Refusal :=
  let no : Host.Outcome State Fault Refusal := .next s
  match s.group? grp with
  | none => no
  | some G =>
    match G.halt with
    | none => no
    | some h =>
      if h.quiet || !s.quietOk G then no
      else
        let s1 := G.threads.foldl (fun s x => s.cancelHeld (.thr grp x.tid)) s
        let s2 := ((s1.pgreqBack grp).abandon grp).updGroup grp fun G => { G with halt := some { h with quiet := true } }
        match h.why with
        | .trap c =>
          match s2.writeTrapImage grp with
          | some s3 => .next (s3.handleTrap grp c)
          | none => no
        | _ => .next s2

/-! Resumption (R131, R419). -/

/-- The alarm stands at level 1 or above: no group resumes until module reset (R453). -/
def State.alarmed (s : State) : Bool := s.boot.alarm.extractLsb' 0 2 != 0

/-- A group goes on: its fetched words are discarded, its matrix operations issued again in their order, step-over marks
where asked (R28, R51, R227). -/
def State.unhalt (s : State) (g : Nat) (mark : Bool) : State :=
  if s.alarmed then s else
  let f := fun (x : Thread) => { x with stopped := false, starve := 0, wakeAt := s.clk + 1, stepOver := mark || x.stepOver }
  let s1 := s.updGroup g fun G =>
    { G with halt := none, threads := G.threads.map f, fetchStamp := s.stamp }
  match s1.group? g with
  | some G => if (s1.partAt G.part).preempt == .halting && !((s1.launch? G.launch).getD Launch.blank).rc.quant then
      s1.haltGroup g .preempt 0 else s1
  | none => s1

/-- What the image of a thread holds now: registers, predicates, PC and `%sp` (R419). -/
def State.imageThread (s : State) (G : Group) (rc : LaunchRec) (sec : Nat) (core : Nat) (x : Thread) : Thread :=
  let ws := G.wavesOn core
  let xs := G.threadsOn core
  let at_ := fun (p : Nat) => sec + sectionAt rc ws.length xs.length p
  let j := xs.findIdx fun y => y.tid == x.tid
  let w := ws.findIdx fun y => y.idx == x.wave
  let b := s.mem.visBytes (at_ 2 + 96 * j) 96
  let v := (List.range rc.regCount).map fun r => toW32 (s.mem.visBytes (at_ 4 + ((w * rc.regCount + r) * 32 + x.lane) * 4) 4)
  let pc := natAt b 0 8
  { x with v := v, p := BitVec.ofNat 7 (natAt b 10 1), pc := BitVec.ofNat 64 (bitsOf pc 56 4 * 16), slot := BitVec.ofNat 4 pc,
           sp := BitVec.ofNat 64 (natAt b 32 8) }

/-- A handler's change of a thread's PC (R131): its park, its token, its repeat state; a PC that is no target traps, at its next fetch where its words are held now (`State.arrive`). -/
def State.movedThread (s : State) (t : TRef) : State :=
  let x := s.thread t
  let s := if x.park == .rejoin then State.leaveTokens 1 s t else s
  let s := s.updThread t fun x => { x with park := .no, rep := none }
  match s.target t x.pc with
  | .bad c => s.trap t c x.pc false 0
  | .wait => s.rejoinPark t
  | .header w s1 => if (headerOf w).cnt < x.slot.toNat then s1.trap t causeTarget x.pc false 0 else s1.rejoinPark t

/-- `rfe` and PART_CMDn[1] (R419): threads reloaded from the image where there is one, the group resumed. -/
def State.resumeGroup (s : State) (g : Nat) : State :=
  if s.alarmed then s else
  match s.group? g with
  | none => s
  | some G =>
    let rc := ((s.launch? G.launch).getD Launch.blank).rc
    match G.halt.bind (·.image), s.areaOf G.part with
    | some (first, slots), some area =>
      let load := fun (x : Thread) =>
        let core := ((G.waves.find? fun w => w.idx == x.wave).map (·.core)).getD G.lead
        let slot := (((G.cores.zip slots).find? fun c => c.1 == core).map (·.2)).getD 0
        s.imageThread G rc (area + slot * 2 ^ 21 + 4096 * first) core x
      let new := G.threads.map load
      let moved := (G.threads.zip new).filterMap fun p =>
        if !p.1.exited && (p.1.pc != p.2.pc || p.1.slot != p.2.slot) then some (TRef.thr g p.1.tid) else none
      let s1 := (s.updGroup g fun G => { G with threads := new }).unhalt g true
      let s2 := moved.foldl (fun s t => s.movedThread t) s1
      if moved.isEmpty || rc.quant then s2 else G.waves.foldl (fun s w => State.tokenEnd 32 s g w.idx) s2
    | _, _ => s.unhalt g true

/-! Handlers (R417, R418). -/

/-- PART_HANDLERn takes a value while no handler runs (R418). -/
def State.setHandler (s : State) (n : Nat) (v : W64) : State :=
  let s1 := s.updPart n fun p => { p with handler := v, reserved := if v = 0 then .none else .unread, handlerNext := none }
  if v = 0 then s1.flushQuiet n else s1

/-- A handler record is read, or its reservation made once its core has room and its shares are free (R418). -/
def execHandlerReservation (part : Nat) (s : State) : Host.Outcome State Fault Refusal :=
  let no : Host.Outcome State Fault Refusal := .next s
  let p := s.partAt part
  if 16 ≤ part || (s.handlerGroup part).isSome then no
  else match p.handlerNext with
  | some v => .next (s.setHandler part v)
  | none =>
    match p.reserved with
    | .unread =>
      let set := fun (s : State) (r : Resv) =>
        let s1 := s.updPart part fun p => { p with reserved := r }
        (Host.Outcome.next (if r == .bad then s1.flushQuiet part else s1) : Host.Outcome State Fault Refusal)
      if !p.rect.getLsbD 14 then no
      else match s.checkRecord (s.partRoot part) (p.handler.toNat % 2 ^ 57) (fun rc => (0, rc.ngrp + 1)) false with
        | .wait s1 => s.orAsk s1
        | .lost s1 => set s1 .bad
        | .bad _ _ s1 => set s1 .bad
        | .ok rc s1 => set s1 (if rc.ngrp != 0 || rc.pair || rc.quant || rc.cell != 0 then .bad else .pending rc)
    | .pending rc =>
      let core := State.rectTop p
      let shares := (p.shares.extractLsb' 0 14).toNat
      if !p.rect.getLsbD 14 || shares < s.paGrant part + rc.power then no
      else match s.placeAt rc [s.roomAt core] 0 with
        | some (q, _) => .next (s.updPart part fun p => { p with reserved := .held rc core (q.waves.map (·.2)) q.spad q.row })
        | none => no
    | _ => no

/-- The first of a partition's quiet groups that may have its handler now gets it: any, or during a pre-emption one of a
quantum launch, whose commits need it (R95, R417, R420).  DEDUCED, log entry 101. -/
def execHandlerStart (part : Nat) (s : State) : Host.Outcome State Fault Refusal :=
  let no : Host.Outcome State Fault Refusal := .next s
  let p := s.partAt part
  let may := fun (g : Nat) => p.preempt == .none ||
    ((s.group? g).bind fun G => s.launch? G.launch).any fun L => L.rc.quant
  if 16 ≤ part || (s.handlerGroup part).isSome || p.handlerNext.isSome then no
  else match p.reserved, (p.quietQ.find? may).bind s.group? with
  | .held rc core slots spad row, some G =>
    let id := s.nextId
    let L : Launch := { Launch.blank with id := id, rc := rc, root := (s.partRoot part).getD 0, upto := 1, placed := 1, args := rc.args,
                                          join := rc.join, priv := true, stamp := s.stamp }
    match s.tablesOk L part with
    | none => s.orAsk (match s.slotTableOf L.root rc with | .wait s' => s' | _ => s)
    | some tbl =>
      let slot := (((G.halt.bind (·.image)).bind fun e => e.2.head?).getD 0)
      let off := BitVec.ofNat 64 (slot * 2 ^ 21)
      let s1 := ({ s with nextId := id + 1, launches := s.launches ++ [L] } : State).admitLaunch L part tbl
      let H0 := newGroup L s1.nextId part (core / 4) 0 (if rc.stksz = 0 then none else some 0) s.stamp
        ⟨core % 4, slots.map fun k => (core % 4, k), spad, row⟩
      let H := { H0 with handles := some G.id
                         k := ((H0.k.set 2 (off.extractLsb' 0 32)).set 3 (off.extractLsb' 32 32)).set 4 (BitVec.ofNat 32 part) }
      let s2 : State := { s1 with nextId := s1.nextId + 1, groups := s1.groups ++ [H] }
      .next ((s2.takeRoom rc core spad row H.id).updPart part fun p => { p with quietQ := p.quietQ.erase G.id })
  | _, _ => no

/-- A handler group has acted: its threads end (R430). -/
def State.endHandler (s : State) (h : Nat) : State :=
  match s.group? h with
  | none => s
  | some H =>
    let s1 := H.threads.foldl (fun s x => s.exitThread (.thr h x.tid)) s
    s1.updGroup h fun H => { H with handles := none }

/-! Deadlines and the end of a launch (R407, R413). -/

def State.launchGroups (s : State) (l : Nat) : List Group := s.groups.filter fun G => G.launch == l

def execDeadlineExpiry (l : Nat) (s : State) : Host.Outcome State Fault Refusal :=
  let no : Host.Outcome State Fault Refusal := .next s
  match s.launch? l with
  | none => no
  | some L =>
    let gs := s.launchGroups l
    if L.dl != some 0 || L.outcome.isSome || gs.isEmpty then no
    else
      let low := ((gs.map (·.index)).min?).getD 0
      let parts := gs.map (·.part)
      let s1 := s.updLaunch l fun L => { L with outcome := some (3, low), count := 0 }
      let s2 : State := { s1 with cp := { s1.cp with heads := s1.cp.heads.filter fun h => h.2 != QHead.range l } }
      .next ((s.groups.filter fun (G : Group) => parts.contains G.part).foldl (fun (s : State) (G : Group) => s.haltGroup G.id .deadline 0) s2)

/-- Whether the bank launches, collective instances and chains that a launch has had accepted are done; with `steps` instances
may be open. -/
def State.postsDone (s : State) (l : Nat) (steps : Bool) : Bool :=
  let held := fun (p : Push) => p.launch == some l
  !(s.bank.launches.any fun b => b.launch == some l) && !(s.cp.waitPush.any held) &&
    (s.cp.queues.drop 6).all (fun k => !k.entries.any fun e => held e.2) &&
    (steps || !(s.fab.insts.any fun i => i.launch == l && !i.done)) &&
    (s.launchGroups l).all fun G => !s.chainsOpen G.id

/-- Whether the work that a launch has had accepted is done (R25). -/
def State.launchDrained (s : State) (l : Nat) : Bool :=
  s.postsDone l false && (s.launchGroups l).all fun G => s.ops.all fun o =>
    o.thr.group != some G.id || s.stands o

/-- The queued writes that no thread of another resident launch issued. -/
def State.launchWrites (s : State) (l : Nat) : List Nat :=
  let other := fun (g : Nat) => s.groups.any fun G => G.id == g && G.launch != l
  (s.mem.wq.filter fun e => match e.issuer with
    | some (.thr g _) => !other g
    | some (.callee _) => false
    | none => match s.req? e.tag with
      | some r => !other r.group
      | none => true).map (·.id)

/-- Routine tables that no launch holds any more are cleared (R274). -/
def State.clearRoutines (s : State) : State :=
  let held := fun (n : Nat) => s.launches.any fun L => L.parts.contains n && L.rc.namesRoutines
  { s with cp := { s.cp with parts := s.cp.parts.zipIdx.map fun p => if held p.2 then p.1 else { p.1 with routines := [0, 0, 0, 0] } } }

/-- A launch leaves the machine: its groups, plans, tables, and its saved images (R389, R394).  DEDUCED, log entry 106. -/
def State.dropLaunch (s : State) (l : Nat) : State :=
  let s1 := (s.launchGroups l).foldl (fun (s : State) (G : Group) => s.dropGroup G.id) s
  let s2 : State := { s1 with launches := s1.launches.filter fun L => L.id != l
                              cp := { s1.cp with heads := s1.cp.heads.filter fun h => h.2 != QHead.range l
                                                 kept := s1.cp.kept.filter fun k => k.1 != l }
                              fab := { s1.fab with plans := s1.fab.plans.filter fun p => p.launch != l
                                                   insts := s1.fab.insts.filter fun i => i.launch != l || !i.done } }
  let named := s2.launches.any fun L => L.rc.slots != 0 && L.dl.isSome
  let s3 := if s2.fab.slotByLaunch && !named then (s2.updFab fun f => { f with slotTable := none, slotByLaunch := false }).injectAll else s2
  s3.clearRoutines

/-- Images of a launch that overran its deadline, in the trap areas that stand (R413). -/
def State.deadlineImages (s : State) : List Nat → Option State
  | [] => some s
  | g :: gs =>
    let imaged := ((s.group? g).bind fun G => G.halt.bind (·.image)).isSome
    (if imaged then some s else s.writeTrapImage g).bind fun s1 => State.deadlineImages s1 gs

/-- After a deadline the groups of other launches that have not ended go on (R413). -/
def State.resumeOthers (s : State) (parts : List Nat) : State :=
  let due := fun (n : Nat) => s.launches.any fun L => L.outcome.any (fun o => o.1 == 3) && (s.launchGroups L.id).any fun G => G.part == n
  let ended := fun (G : Group) => ((s.launch? G.launch).getD Launch.blank).outcome.isSome
  (s.groups.filter fun (G : Group) => parts.contains G.part && !due G.part && !ended G && (G.halt.map fun h => h.why == .deadline).getD false).foldl
    (fun (s : State) (G : Group) => s.unhalt G.id false) s

/-- The completion word of a launch (R402, R407, R413, R430): every group ended, or its outcome fixed and its groups
quiet; R25 holds; every write of the launch is visible before it. -/
def execLaunchCompletion (l : Nat) (s : State) : Host.Outcome State Fault Refusal :=
  let no : Host.Outcome State Fault Refusal := .next s
  match s.launch? l with
  | none => no
  | some L =>
    let gs := s.launchGroups l
    let ids := s.launchWrites l
    let part := ((gs.head?.map (·.part)).orElse fun _ => L.parts.head?).getD 0xFFFF
    let ready := match L.outcome with
      | none => L.upto == L.total && L.count == 0 && L.ended == L.total && gs.isEmpty
      | some _ => gs.all fun G => (G.halt.map (·.quiet)).getD false
    if !ready || !s.launchDrained l || !s.canForceAll ids .all then no
    else
      let s1 := s.forceAll ids .all
      let (code, info) := L.outcome.getD (0, 0)
      let s2 := if code = 3 then
          (s1.deadlineImages (gs.map (·.id))).map fun s => s.pushErr 1 part srcCp L.rc.va (groupDetail 12 info)
        else some s1
      match s2.bind fun s => s.writeComp (some L.root) L.rc part code (if code = 3 then 0 else info) with
      | none => no
      | some s3 =>
        let handled := gs.filterMap (·.handles)
        let s4 := s3.dropLaunch l
        let s5 := handled.foldl (fun (s : State) g => match s.group? g with
          | some T => s.endLaunch T.launch 5 0
          | none => s) s4
        .next (if code = 3 then s5.resumeOthers (gs.map (·.part)) else s5)

/-! System software's commands (R417, R420). -/

/-- The groups of a partition that a trap left halted for system software. -/
def State.leftHalted (s : State) (n : Nat) : List Group :=
  s.groups.filter fun G => G.part == n && (G.halt.map fun h => h.quiet && h.why.isTrap).getD false &&
    !(s.partAt n).quietQ.contains G.id && !(s.groups.any fun H => H.handles == some G.id) &&
    (((s.launch? G.launch).getD Launch.blank).outcome).isNone

def execPartCmdResume (n : Nat) (s : State) : Host.Outcome State Fault Refusal :=
  .next ((s.leftHalted n).foldl (fun (s : State) (G : Group) => s.resumeGroup G.id) s)

def execPartCmdAbort (n : Nat) (s : State) : Host.Outcome State Fault Refusal :=
  .next ((s.leftHalted n).foldl (fun (s : State) (G : Group) => s.endLaunch G.launch 5 0) s)

/-- Launches with resident groups in a partition (R409). -/
def State.partLaunches (s : State) (n : Nat) : List Nat := ((s.groups.filter fun G => G.part == n).map (·.launch)).eraseDups

/-- A save area holds `size` × 8 MiB of device memory at its address (R409). -/
def saveBase (x : W64) : Nat := (x.extractLsb' 21 31).toNat * 2 ^ 21
def saveSize (x : W64) : Nat := (x.extractLsb' 1 16).toNat

/-- Every group halts, a handler's too; a quantum launch halts between its commits, and while the partition holds one its
handlers run on, since a trapped group keeps the commits waiting (R95, R420).  DEDUCED, log entry 101. -/
def execPartCmdPreempt (n : Nat) (s : State) : Host.Outcome State Fault Refusal :=
  let p := s.partAt n
  if 16 ≤ n || p.stopped || p.preempt != .none then .next s
  else
    let need := (rectOf p.rect).w * (rectOf p.rect).h * (s.partLaunches n).length
    if !p.save.getLsbD 0 || saveSize p.save < need then .next (s.updPart n fun p => { p with saveBad := true })
    else
      let s1 := s.updPart n fun p => { p with saveBad := false, preempt := .halting }
      let launch := fun (G : Group) => (s.launch? G.launch).getD Launch.blank
      let quant := s.groups.any fun G => G.part == n && (launch G).rc.quant
      let now := fun (G : Group) => G.part == n && !(launch G).rc.quant && !((launch G).priv && quant)
      .next ((s.groups.filter now).foldl (fun (s : State) (G : Group) => s.haltGroup G.id .preempt 0) s1)

def execPartCmdResumePlacing (n : Nat) (s : State) : Host.Outcome State Fault Refusal :=
  if 16 ≤ n then .next s else .next (s.updPart n fun p => { p with stopped := false })

/-! The image sets of a pre-emption (R420 to R423). -/

/-- The groups of a set on a core, with the first block of each section.  DEDUCED, log entry 104. -/
def layoutSecs (rc : LaunchRec) (core : Nat) : Nat → List Group → List (Nat × Group)
  | _, [] => []
  | b, G :: gs => (b, G) :: layoutSecs rc core (b + G.sectionBlocks rc core) gs

def State.writeSetSlot (s : State) (L : Launch) (r : Rect) (base slot : Nat) (gs : List Group) : State :=
  let core := r.core slot
  let secs := layoutSecs L.rc core 1 (gs.filter fun G => G.cores.contains core)
  let hdr := slotHeader r core L (secs.map fun e => (e.1, e.2.sectionBlocks L.rc core, e.2.index, core != e.2.lead))
  let bs := (0, hdr) :: (secs.map fun e => blocksFrom e.1 (s.sectionParts e.2 L.rc core)).flatten
  s.putSlot (base + slot * 2 ^ 21) (slot * 2 ^ 21) (fullSlot bs) []

/-- One image set, its kind-2 record, and its groups gone; the start of the next set with it. -/
def State.saveLaunch (s : State) (n base : Nat) (L : Launch) : Nat × State :=
  let gs := (s.launchGroups L.id).filter fun G => G.part == n
  let r := boundRect ((gs.map Group.cores).flatten)
  let s1 := (List.range (r.w * r.h * 4)).foldl (fun s k => s.writeSetSlot L r base k gs) s
  let kept := (gs.map fun G => ((s.cores.map fun k => k.mu.filter fun m => m.group == G.id).flatten).map fun m =>
    (L.id, G.index, { m with core := m.core - G.lead })).flatten
  let s2 : State := { s1 with cp := { s1.cp with images := (base, L.id) :: s1.cp.images.filter fun i => i.1 != base
                                                 kept := s1.cp.kept ++ kept } }
  let s3 := gs.foldl (fun (s : State) (G : Group) => s.dropGroup G.id) s2
  let s4 := s3.updLaunch L.id fun x => { x with saved := x.saved ++ gs.filterMap (·.stackSlot), parts := x.parts.filter fun k => k != n }
  let rec_ := natToBytes 8 (base / 16 * 16 + 2) ++ natToBytes 8 L.rc.va.toNat ++ List.replicate 16 0
  (base + r.w * r.h * 4 * 2 ^ 21, s4.pushCp ⟨L.rc.prio, rec_, none, n, none, none⟩)

/-- Whether a group can be saved: quiet, its copies retired, its replies landed, its instances over (R420 step 3). -/
def State.savable (s : State) (G : Group) : Bool :=
  (G.halt.map fun h => h.quiet && (h.why == .preempt || h.why.isTrap)).getD false && !s.chainsOpen G.id &&
    (s.ops.all fun o => o.thr.group != some G.id || o.kind.isPost || o.kind == .matrix) &&
    (G.threads.all fun x => x.quantum.isEmpty) &&
    (s.fab.insts.all fun i => i.done || (i.by_.bind TRef.group) != some G.id) && s.canForceAll (s.groupWrites G.id) .all

def execPreemptDrainComplete (part : Nat) (s : State) : Host.Outcome State Fault Refusal :=
  let no : Host.Outcome State Fault Refusal := .next s
  let p := s.partAt part
  let gs := s.groups.filter fun G => G.part == part
  let ls := (s.launches.filter fun L => gs.any fun G => G.launch == L.id).mergeSort fun a b => a.order ≤ b.order
  let size := (rectOf p.rect).w * (rectOf p.rect).h * ls.length
  let base := saveBase p.save
  let ready := fun (pa : Nat) => s.sliceReady pa 4096 false
  if 16 ≤ part || p.preempt != .halting || !gs.all s.savable || ls.any (fun L => L.outcome.isSome || L.committing) then no
  else if size != 0 && !(paDevice base && paDevice (base + size * 2 ^ 23 - 1) && (List.range (size * 2048)).all fun i => ready (base + 4096 * i)) then no
  else
    let s1 := gs.foldl (fun (s : State) (G : Group) => s.forceAll (s.groupWrites G.id) .all) s
    let s2 := (ls.foldl (fun (x : Nat × State) L => x.2.saveLaunch part x.1 L) (base, s1)).2
    .next (s2.clearRoutines.updPart part fun p =>
      { p with preempt := .none, stopped := true, save := p.save &&& ~~~(1 : W64) })

/-! Restore (R424, R425). -/

/-- A group of a set read back: its section on a slot, the slot it goes to. -/
structure SecIn where
  pa : Nat
  core : Nat
  deriving DecidableEq, Repr

def threadOfImage (tid lane wave : Nat) (b routes : List Byte) (v : List W32) : Thread :=
  let pc := natAt b 0 8
  let park := natAt b 9 1 % 4
  let ret := natAt b 60 8
  let n := natAt b 28 4
  let rep : Option Rep := if n = 0 then none
    else some ⟨BitVec.ofNat 32 n, BitVec.ofNat 64 (bitsOf (natAt b 48 8) 56 4 * 16), BitVec.ofNat 64 (bitsOf ret 56 4 * 16),
      BitVec.ofNat 4 ret, BitVec.ofNat 32 (natAt b 56 4)⟩
  { Thread.blank with
    tid := tid, lane := lane, wave := wave, v := v, p := BitVec.ofNat 7 (natAt b 10 1), sp := BitVec.ofNat 64 (natAt b 32 8),
    routes := (List.range 4).map fun i => BitVec.ofNat 128 (natAt routes (16 * i) 16), pc := BitVec.ofNat 64 (bitsOf pc 56 4 * 16),
    slot := BitVec.ofNat 4 pc, depth := natAt b 8 1 % 16, innermost := natAt b 8 1 / 16, park := if park = 1 then .rejoin else if park = 2 then .gathered 0 else .no,
    flags := (List.range 12).map fun i => bitsOf (natAt b 12 5) (3 * i + 2) (3 * i), rep := rep, exited := bitAt (natAt b 9 1) 2,
    stepOver := bitAt (natAt b 9 1) 3, skid := natAt b 11 1, prog := BitVec.ofNat 32 (natAt b 20 4),
    trapcode := BitVec.ofNat 32 (natAt b 24 4), trapaddr := BitVec.ofNat 64 (natAt b 40 8), rcstat := BitVec.ofNat 32 (natAt b 68 4),
    rcseq := BitVec.ofNat 16 (natAt b 72 2) }

def waveOfImage (idx core slot : Nat) (b : List Byte) : Wave :=
  let tok := fun (i : Nat) =>
    let w := natAt b (32 + 16 * i) 8
    if bitAt w 0 then
      (⟨true, BitVec.ofNat 64 (bitsOf w 53 1 * 16), if bitAt w 58 then none else some (bitsOf w 57 54),
        toW32 (sliceB b (40 + 16 * i) 4), toW32 (sliceB b (44 + 16 * i) 4)⟩ : Token)
    else Token.blank
  let f := fun (o : Nat) => toW32 (sliceB b o 4)
  { Wave.blank with idx := idx, core := core, slot := slot, tokens := (List.range 16).map tok, accbase := f 0, acclim := f 4,
                    mbind := f 8, fmtdiv := f 12, bias := f 16, scale := f 20, stride := f 24 }

/-- Waves and threads of a group on a core, from its section (R422). -/
def State.readSection (s : State) (rc : LaunchRec) (e : SecIn) (follower : Bool) : List Wave × List Thread :=
  let per := if rc.narrow then 16 else 32
  let g := s.mem.visBytes e.pa 4096
  let nw := natAt g 10 2
  let w0 := if follower then rc.leadWaves else 0
  let tids := (List.range rc.threadCount).filter fun t => w0 ≤ t / per && t / per < w0 + nw
  let at_ := fun (p : Nat) => e.pa + sectionAt rc nw tids.length p
  let ws := (List.range nw).map fun j => waveOfImage (w0 + j) e.core (natAt g (24 + j) 1) (s.mem.visBytes (at_ 1 + 512 * j) 512)
  let xs := tids.zipIdx.map fun t =>
    let w := t.1 / per - w0
    let v := (List.range rc.regCount).map fun r => toW32 (s.mem.visBytes (at_ 4 + ((w * rc.regCount + r) * 32 + t.1 % per) * 4) 4)
    threadOfImage t.1 (t.1 % per) (t.1 / per) (s.mem.visBytes (at_ 2 + 96 * t.2) 96) (s.mem.visBytes (at_ 3 + 64 * t.2) 64) v
  (ws, xs)

/-- The scratchpad and rows of a section back on a core. -/
def State.loadRanges (s : State) (rc : LaunchRec) (e : SecIn) (nw nt spad row key : Nat) : State :=
  let at_ := fun (p : Nat) => e.pa + sectionAt rc nw nt p
  let s1 := s.updCore e.core fun k => k.taken spad rc.scratchBytes row rc.accrows key
  let s2 := s1.setSpad e.core spad (s.mem.visBytes (at_ 5) rc.scratchBytes)
  (List.range rc.accrows).foldl (fun s1 i =>
    s1.setAccRow e.core (row + i) ((List.range 16).map fun j => toW32 (s.mem.visBytes (at_ 6 + 64 * i + 4 * j) 4))) s2

/-- A group restored from its section, or its two sections.  DEDUCED, log entry 107. -/
def State.restoreGroup (s : State) (L : Launch) (part : Nat) (lead : SecIn) (foll : Option SecIn) : State :=
  let rc := L.rc
  let g := s.mem.visBytes lead.pa 4096
  let f := natAt g 8 1
  let a := s.readSection rc lead false
  let b := (foll.map fun e => s.readSection rc e true).getD ([], [])
  let cause := natAt g 9 1
  let ts := a.2 ++ b.2
  let dec := ((ts.find? fun x => x.trapcode.toNat % 256 == cause && cause != 0).map (·.tid)).getD 0
  let stack := natAt g 12 4
  let id := s.nextId
  let G : Group :=
    { id := id, launch := L.id, index := natAt g 0 8 % 2 ^ 40, cellPos := f % 4, part := part, lead := lead.core, pair := bitAt f 2,
      stackSlot := if stack = 2 ^ 32 - 1 then none else some stack, spadOff := natAt g 16 4, accOrg := natAt g 20 4,
      k := (List.range 64).map fun j => toW32 (sliceB g (64 + 4 * j) 4), kOld := [], waves := a.1 ++ b.1,
      threads := ts.map fun x => { x with
        wakeAt := s.clk + 1
        stopped := bitAt f 4 && x.trapcode != 0
        fresh := x.pc == rc.entry && x.slot == 0 },
      halt := if bitAt f 4 then some ⟨.trap cause, dec, true, none, s.clk⟩ else none, fetchStamp := s.stamp, handles := none }
  let mine := fun (k : Nat × Nat × MuOp) => k.1 == L.id && k.2.1 == G.index
  let mus := (s.cp.kept.filter mine).map fun k => { k.2.2 with group := id, core := lead.core + k.2.2.core, abandoned := true }
  let s1 : State := { s with nextId := id + 1, groups := s.groups ++ [G], cp := { s.cp with kept := s.cp.kept.filter fun k => !mine k } }
  let s2 := s1.loadRanges rc lead a.1.length a.2.length G.spadOff G.accOrg id
  let s3 := (foll.map fun e => s2.loadRanges rc e b.1.length b.2.length G.spadOff G.accOrg id).getD s2
  let s4 := mus.foldl (fun s m => s.updCore m.core fun k => { k with mu := k.mu ++ [m] }) s3
  s4.updLaunch L.id fun x => { x with saved := match G.stackSlot with | some n => x.saved.erase n | none => x.saved }

/-- A trap that stood unresolved when the group was saved is handled where the group is restored (R424). -/
def State.restoredTrap (s : State) (g : Nat) : Option State :=
  match s.group? g with
  | none => some s
  | some G =>
    if !(G.halt.map fun h => h.why.isTrap).getD false then some s
    else (s.writeTrapImage g).map fun s1 =>
      let imaged := ((s1.group? g).bind fun G => G.halt.bind (·.image)).isSome
      if imaged && s1.hasHandler G.part then s1.updPart G.part fun p => { p with quietQ := p.quietQ ++ [g] } else s1

/-- What the first slot header of a set says: rectangle, launch record, context. -/
structure SetHead where
  rect : Rect
  va : W64
  root : Option Nat
  deriving DecidableEq, Repr

def setHeadOf (b : List Byte) : SetHead :=
  ⟨rectOf (BitVec.ofNat 32 (natAt b 0 8 % 2 ^ 14)), BitVec.ofNat 64 (natAt b 8 8 % 2 ^ 57), rootOf (BitVec.ofNat 64 (natAt b 16 8))⟩

/-- Whether the tags of some blocks of a slot hold (R422, R425). -/
def State.tagsHold (s : State) (pa slotOff : Nat) (blocks : List Nat) : Bool :=
  let t := s.mem.visBytes (pa + 511 * 4096) 4096
  toW64 (sliceB t 4088 8) == s.tag slotOff (sliceB t 0 4088) &&
    blocks.all fun b => toW64 (sliceB t (8 * b) 8) == s.tag slotOff (s.mem.visBytes (pa + 4096 * b) 4096)

/-- Blocks in which an uncorrectable error stands (R288, R425, R455). -/
def State.imageBad (s : State) (pa : Nat) : Bool := s.bank.bad.any fun b => b == pa / 4096

/-- The sections of a set: slot, first block, group index, follower. -/
def State.setSections (s : State) (set : Nat) (r : Rect) : List (Nat × Nat × Nat × Bool) :=
  ((List.range (r.w * r.h * 4)).map fun k =>
    let b := s.mem.visBytes (set + k * 2 ^ 21) 4096
    (List.range (Nat.min 32 (natAt b 40 2))).map fun i =>
      let o := 64 + 16 * i
      (k, natAt b o 2, natAt b (o + 8) 8 % 2 ^ 40, bitAt (natAt b (o + 8) 8) 40)).flatten

/-- Whether a set passes the checks of R425 for a launch record: the header of every slot, which says whether the slot holds
a group, and every block of the slots that do. -/
def State.setOk (s : State) (set : Nat) (va : W64) : Bool :=
  let h := setHeadOf (s.mem.visBytes set 4096)
  let at_ := fun (k : Nat) => set + k * 2 ^ 21
  let ok := fun (k : Nat) (bs : List Nat) => s.tagsHold (at_ k) (k * 2 ^ 21) bs && !((511 :: bs).any fun b => s.imageBad (at_ k + 4096 * b))
  (s.imageLaunch set).isSome && !s.boot.keysErased && h.va == va && ok 0 [0] &&
    (List.range (h.rect.w * h.rect.h * 4)).all (fun k => ok k [0]) &&
    ((s.setSections set h.rect).map (·.1)).eraseDups.all fun k => ok k (List.range 511)

/-- A set that fails: nothing placed, KIND 7, and CTX-LOST for the launch that a header passing its tag names (R425).  DEDUCED, log entry 108. -/
def State.setFails (s : State) (set : Nat) : State ⊕ State :=
  let orWait := fun (s : State) (x : Option State) => (match x with | some s' => .inl s' | none => .inr s : State ⊕ State)
  let h := setHeadOf (s.mem.visBytes set 4096)
  let s1 := s.pushErr 7 0xFFFF srcCp (BitVec.ofNat 64 set) 0
  if s.boot.keysErased || !s.tagsHold set 0 [0] || s.imageBad set then .inl s1
  else match s.imageLaunch set with
  | some L => .inl (s1.endLaunch L.id 6 0)
  | none =>
    match s.cpRead 0 h.root h.va.toNat 128 cpReader with
    | .wait s2 => .inr s2
    | .bad _ s2 => .inl ((s2.pushErr 7 0xFFFF srcCp (BitVec.ofNat 64 set) 0).pushErr 8 0xFFFF srcCp h.va 0)
    | .ok b s2 => orWait s ((s2.pushErr 7 0xFFFF srcCp (BitVec.ofNat 64 set) 0).writeComp h.root (launchOfBytes h.va b) 0xFFFF 6 0)

/-- The lowest origin, by y then x, of a free rectangle of a shape in a partition (R424). -/
def State.freeRect (s : State) (n : Nat) (r : Rect) (coresUsed : Rect → List Nat) : Option Rect :=
  let p := rectOf (s.partAt n).rect
  let cs := rectClusters (s.partAt n).rect
  let try_ := fun (o : Nat × Nat) => (⟨p.die, p.x0 + o.1, p.y0 + o.2, r.w, r.h⟩ : Rect)
  let origins := ((List.range (p.h + 1 - r.h)).map fun y => (List.range (p.w + 1 - r.w)).map fun x => (x, y)).flatten
  let clusters := fun (q : Rect) => (List.range (r.w * r.h)).map fun i => q.core (4 * i) / 4
  let busy := fun (cl : Nat) => s.groups.any fun G => G.lead / 4 == cl
  let kept := fun (q : Rect) => s.cp.parts.any fun p => match p.reserved with
    | .held _ c _ _ _ => (coresUsed q).contains c
    | .pending _ => (coresUsed q).contains (State.rectTop p)
    | _ => false
  ((origins.map try_).filter fun q => (clusters q).all (fun cl => cs.contains cl && !busy cl) && !kept q).head?

/-- D and the commit index of a launch none of whose groups is resident, from its image (R424). -/
def State.restoreCounts (s : State) (L : Launch) (set : Nat) : State :=
  let b := s.mem.visBytes set 4096
  if (s.launchGroups L.id).isEmpty then s.updLaunch L.id fun L => { L with dl := some (natAt b 24 8), quantum := natAt b 32 8 } else s

/-- Every group of a set placed; its parked threads stand in their sets again (R132, R424). -/
def State.restoreSet (s : State) (L : Launch) (n set : Nat) (old new : Rect) : Option State :=
  let secs := s.setSections set old
  let sec := fun (e : Nat × Nat × Nat × Bool) => (⟨set + e.1 * 2 ^ 21 + 4096 * e.2.1, new.core e.1⟩ : SecIn)
  let leads := secs.filter fun e => !e.2.2.2
  let foll := fun (e : Nat × Nat × Nat × Bool) => (secs.find? fun x => x.2.2.2 && x.2.2.1 == e.2.2.1).map sec
  let first := s.nextId
  let s1 := leads.foldl (fun s e => s.restoreGroup ((s.launch? L.id).getD L) n (sec e) (foll e)) (s.restoreCounts L set)
  let back := s1.groups.filter fun (G : Group) => first ≤ G.id
  let parked := (back.map fun G => (G.threads.filter fun x => x.park == .gathered 0).map fun x => TRef.thr G.id x.tid).flatten
  let s2 : State := { s1 with cp := { s1.cp with images := s1.cp.images.filter fun i => i.1 != set } }
  let s3 := if L.rc.quant then (parked.foldl State.gatherAgain s2).openSets parked
    else parked.foldl (fun s t => s.updThread t fun x => { x with park := .no }) s2
  back.foldl (fun (x : Option State) (G : Group) => x.bind fun s => s.restoredTrap G.id) (some s3)

/-- A kind-2 record (R403, R424, R425): one that a thread has spawned is dropped (R428), another is taken as its queue's head, then checked, and its set restored by the first
partition of PMASK with a free rectangle of its shape. -/
def execResumptionRecord (q : Nat) (s : State) : Host.Outcome State Fault Refusal :=
  let no : Host.Outcome State Fault Refusal := .next s
  if 4 ≤ q then no
  else match s.headAt q with
  | none =>
    match s.ringTake q with
    | none => no
    | some (b, push, s1) =>
      if natAt b 0 4 % 16 != 2 then no
      else if push.any fun p => p.launch.isSome then
        .next (s1.pushErr 5 (pushPart push) srcCp (BitVec.ofNat 64 (bitsOf (natAt b 0 8) 56 4 * 16)) 0)
      else .next (s1.setHead q (.resume (bitsOf (natAt b 0 8) 56 4 * 16) (BitVec.ofNat 64 (natAt b 8 8))))
  | some (.range _) => no
  | some (.resume set va) =>
    let gone := (s.cp.images.any fun i => i.1 == set) && (s.imageLaunch set).isNone
    if !paDevice set || !paDevice (set + 2 ^ 21 - 1) then .next ((s.pushErr 7 0xFFFF srcCp (BitVec.ofNat 64 set) 0).dropHead q)
    else if gone then
      .next (({ s with cp := { s.cp with images := s.cp.images.filter fun i => i.1 != set } } : State).dropHead q)
    else if !s.setOk set va then
      match s.setFails set with
      | .inl s1 => .next (s1.dropHead q)
      | .inr s1 => s.orAsk s1
    else match s.imageLaunch set with
    | none => no
    | some L =>
      let h := setHeadOf (s.mem.visBytes set 4096)
      let secs := s.setSections set h.rect
      let used := fun (r : Rect) => secs.map fun e => r.core e.1
      let groups := secs.countP fun e => !e.2.2.2
      if L.outcome.isSome then .next (s.dropHead q)
      else
        let at_ := (List.range 16).findSome? fun n =>
          if s.placing n && s.servedQueue n == some q && !s.alarmed then (s.freeRect n h.rect used).map fun r => (n, r) else none
        match at_ with
        | none => no
        | some (n, r) =>
          if s.sharesFree n < groups * L.rc.power then no
          else match s.tablesOk L n with
            | none => s.orAsk s.slotAsks
            | some tbl =>
              match (s.admitLaunch L n tbl).restoreSet L n set h.rect r with
              | some s1 => .next (s1.dropHead q)
              | none => no

end Sys2Proof.Machine
end

