-- ==== Sys2Proof/Machine/Gweja.lean ====
section
/-! DEFINITION. The Gweja portable form (R436 to R440): which objects the translator rejects, the segments that
divergences come together in, and what its clauses hold for them. -/

set_option linter.unusedVariables false

namespace Sys2Proof

open Machine

/-! Text made of clauses. -/

/-- Text made of clauses that follow R26. -/
def clausesOk : Nat → List Byte → Bool
  | 0, b => b.isEmpty
  | n + 1, b =>
    let len := 12 * (bitsOf (natAt b 0 12) 94 91 + 1)
    let w := fun (k : Nat) => bitAt (natAt b (12 * k) 12) 95
    if b.isEmpty then true
    else if (b.take 16).all fun x => x == 0 then clausesOk n (b.drop 16)
    else w 0 && len != 12 && len ≤ b.length && ((List.range (len / 12 - 1)).all fun k => !w (k + 1)) && clausesOk n (b.drop ((len + 15) / 16 * 16))

/-- The header word at an offset of a text, where one stands. -/
def headerAt (text : List Byte) (o : Nat) : Option Header :=
  let w := BitVec.ofNat 96 (natAt text o 12)
  if o % 16 == 0 && o + 12 ≤ text.length && w.msb then some (headerOf w) else none

/-- Whether some clause of a text opens a token that names the clause at an offset (R109). -/
def opensToken (text : List Byte) (o : Nat) : Bool :=
  (List.range (text.length / 16)).any fun i => match headerAt text (16 * i) with
    | none => false
    | some h => (List.range h.cnt).any fun k =>
      match decode (BitVec.ofNat 96 (natAt text (16 * i + 12 * (k + 1)) 12)) with
      | some (.tokOpen _ d) => (immTarget (BitVec.ofNat 64 (16 * i)) d).toNat == o
      | _ => false

/-! Registers (R437). -/

def GwTy.width : GwTy → Nat
  | .of t => tyWidth t
  | .pred => 1

def GwTy.raw : GwTy → Bool
  | .of .b32 | .of .b64 => true
  | _ => false

/-- A register of a type may stand where an operation takes a type: the raw types match by width alone (R437). -/
def GwTy.fits (reg takes : GwTy) : Bool :=
  reg == takes || (reg != .pred && takes != .pred && (reg.raw || takes.raw) && reg.width == takes.width)

/-- The operand a terminator reads or writes: a predicate, or a 64-bit register (R436). -/
def GwEnd.args : GwEnd → List GwArg
  | .cond p _ _ => [{ p with takes := some .pred }]
  | .indir a | .ret a | .call a _ _ => [{ a with takes := some (.of .b64) }]
  | .next _ | .exit => []

def GwSeg.args (g : GwSeg) : List GwArg := (g.ops.map (·.args)).flatten ++ g.last.args

/-- Operands in the order of the text: a register's type is fixed where it first appears (R437). -/
def typesOk : List GwArg → List (String × GwTy) → Bool
  | [], _ => true
  | a :: l, env =>
    match a.reg with
    | none => typesOk l env
    | some n =>
      match ((env.find? fun e => e.1 == n).map (·.2)).orElse fun _ => a.ty with
      | none => false
      | some t => a.ty.all (fun u => u == t) && a.takes.all (fun u => t.fits u) && typesOk l ((n, t) :: env)

/-! What a segment may hold (R436, R438). -/

/-- The mnemonics that the terminators replace (R438). -/
def replacedOps : List String := ["bra", "brx", "call", "callx", "ret", "tok.open", "tok.leave", "rpt"]

/-- The privileged forms (R44). -/
def GwOp.privileged (o : GwOp) : Bool :=
  ["pgmig", "tlbinv", "pocinv", "netslot", "halt", "dlset", "crd", "cwr", "rfe"].contains o.name ||
    (o.sysreg && ["getsr", "setsr"].contains o.name)

def GwOp.ok (o : GwOp) (handler : Bool) : Bool := !o.hinted && !replacedOps.contains o.name && (handler || !o.privileged)

/-- Where control may pass inside the procedure after a terminator; a call comes back to its return segment (R436). -/
def GwProc.succ (p : GwProc) : GwEnd → List String
  | .next l => [l]
  | .cond _ a b => [a, b]
  | .indir _ => p.segs.map (·.name)
  | .call _ _ r => [r]
  | .ret _ | .exit => []

/-- The names a terminator writes out. -/
def GwEnd.names : GwEnd → List String
  | .next l => [l]
  | .cond _ a b => [a, b]
  | .call _ l r => [l, r]
  | .indir _ | .ret _ | .exit => []

/-- Whether the translator accepts an object (R436 to R438). -/
def gwAccepts (handler : Bool) (ps : List GwProc) : Bool :=
  let all := (ps.map (·.segs)).flatten
  let names := all.map (·.name)
  names.eraseDups.length == names.length && ps.all fun p =>
    typesOk ((p.segs.map GwSeg.args).flatten) [] && p.segs.all fun g =>
      (g.ops.all fun o => o.ok handler) && g.last.names.all names.contains

/-! Post-dominators (R440). -/

def GwProc.find (p : GwProc) (n : String) : Option GwSeg := p.segs.find? fun g => g.name == n

/-- The segments that paths from some segments reach without entering one. -/
def GwProc.reach (p : GwProc) (avoid : String) : Nat → List String → List String
  | 0, l => l
  | n + 1, l =>
    let more := (l.map fun x => match p.find x with | some g => p.succ g.last | none => []).flatten
    GwProc.reach p avoid n ((l ++ more).eraseDups.filter fun x => x != avoid)

/-- The segments that every path from a terminator to an end of the procedure enters. -/
def GwProc.mustReach (p : GwProc) (e : GwEnd) : List String :=
  let from_ := p.succ e
  let ends := fun (x : String) => match p.find x with | some g => (p.succ g.last).isEmpty | none => true
  (p.segs.map (·.name)).filter fun n => !((p.reach n p.segs.length (from_.filter fun x => x != n)).any ends)

/-- The nearest of them, the immediate post-dominator: one that is reached before any other (R440). -/
def GwProc.postDom (p : GwProc) (e : GwEnd) : Option String :=
  let from_ := p.succ e
  let ms := p.mustReach e
  ms.find? fun n => ms.all fun m => m == n || from_.contains n || (p.reach m p.segs.length (from_.filter fun x => x != m)).contains n

/-- Whether a terminator may send threads to several segments. -/
def GwEnd.diverges : GwEnd → Bool
  | .cond _ _ _ | .indir _ => true
  | _ => false

/-! The translator's text (R439, R440). -/

/-- The offset of a segment's first clause. -/
def GwText.clause (t : GwText) (n : String) : Option Nat := (t.clauses.find? fun c => c.1 == n).map (·.2)

/-- What holds of the text of an accepted object: clauses that follow R26, one at the head of each segment, and for every
divergence with a post-dominator a token that names its clause, of kind 001. -/
def GwText.ok (t : GwText) (ps : List GwProc) : Bool :=
  clausesOk t.text.length t.text && ps.all fun p => p.segs.all fun g =>
    ((t.clause g.name).bind (headerAt t.text)).isSome &&
      (!g.last.diverges || match p.postDom g.last with
        | none => true
        | some d => match t.clause d with
          | none => false
          | some o => ((headerAt t.text o).map (·.kind)) == some 1 && opensToken t.text o)

/-- The object that the translator makes, none where it rejects the object: a text that does not hold what R439 and R440 say
is no translation.  DESIGN CHOICE, log entry 121. -/
def gwTranslate (obj : List Byte) (handler : Bool) (figures : List Nat) : Option (List GwProc × GwText) :=
  (Config.gwejaText obj).bind fun ps =>
    let t := Config.gwjt obj figures
    if gwAccepts handler ps && t.ok ps then some (ps, t) else none

end Sys2Proof
end

