-- ==== Sys2Proof/Machine/Attach.lean ====
section
/-! DEFINITION. The host attachment, start-up and security (R442 to R455): boot, BAR2, ATS, MSI-X and the error ring,
attestation, the alarm, soft errors and the loader. -/

set_option linter.unusedVariables false

namespace Sys2Proof.Machine

/-! Start-up (R4, R451). -/

/-- BOOT_STAT[1:0]. -/
def State.bootMode (s : State) : Nat := (s.boot.stat.extractLsb' 0 2).toNat
def bootReady : Nat := 1
def bootRecovery : Nat := 2

/-- Bytes of the staging buffer (R451). -/
def stagingSize : Nat := 2 ^ 26

/-- The boot ROM's steps on an image (R451): measured, verified, its configuration record too, whose power shares and
permission for debug hold from then on; the firmware zeroes every memory; ready, or recovery with its failure code.
DEDUCED, log entry 115. -/
def State.bootRun (s : State) (image : List Byte) : State :=
  let b := { s.boot with m0 := Config.shake256 image }
  if Config.flashError b.boots then { s with boot := { b with stat := 0x32 } }
  else if !Config.vendorSigned image then { s with boot := { b with stat := 0x12 } }
  else
    let b := { b with m1 := Config.shake256 b.config }
    if !Config.vendorSigned b.config then { s with boot := { b with stat := 0x26 } }
    else { s with mem := { Memory.reset with hostw := s.mem.hostw }, cores := [],
                  cp := { s.cp with paBudget := Config.recordBudget b.config &&& 0x3FFF, paBank := Config.recordBank b.config &&& 0x3FFF },
                  boot := { b with stat := 0xD, debugOk := Config.debugPermit b.config, flash := image } }

/-- Every register at its Reset column and nothing resident (R4); the flash, the activation code and the host's memory
are not the module's registers, and identities go on. -/
def State.registersReset (s : State) : State :=
  { State.reset with
    tick := s.tick, nextId := s.nextId, mem := { Memory.reset with hostw := s.mem.hostw },
    boot := { Boot.reset with flash := s.boot.flash, config := s.boot.config, activation := s.boot.activation,
                              boots := s.boot.boots + 1, msix := s.boot.msix } }

def execModuleReset (s : State) : Host.Outcome State Fault Refusal := .next (s.registersReset.bootRun s.boot.flash)

/-- A PCIe fundamental reset leaves the registers as a module reset does (R4), BOOT_STAT among them.  DEDUCED, log entry 116. -/
def execPcieFundamentalReset (s : State) : Host.Outcome State Fault Refusal := .next (s.registersReset.bootRun s.boot.flash)

/-- BOOT_CMD[0] in recovery: the steps again on the staged image, which replaces the flash image when it passes (R451). -/
def execBootCmd (v : W32) (s : State) : Host.Outcome State Fault Refusal :=
  if !v.getLsbD 0 || s.bootMode != bootRecovery then .next s
  else
    let image := (List.range ((s.boot.staged.map (·.1 + 1)).max?.getD 0)).map fun a => (cellFind s.boot.staged a).getD 0
    .next (s.bootRun image)

/-! BAR2 (R18, R23, R447). -/

/-- BAR2_BASE (R450).  DEDUCED, log entry 117. -/
def State.bar2Base (s : State) : Nat := (s.boot.bar2.extractLsb' 29 23).toNat * 2 ^ 29

/-- The ranges of a host access, none where one of its addresses is refused (R18, R20, R23). -/
def State.hostPlaces (s : State) (pa len : Nat) : Option (List Range) :=
  let ps := splitPages pa len
  let ok := fun (p : Nat × Nat) =>
    p.1 < 2 ^ 52 && (if paHome p.1 == 15 then s.boot.dbg.getLsbD 0 && (wordsOf p.1 p.2).all fun w => s.windowOk w.1
      else paExists p.1 && paExists (p.1 + p.2 - 1))
  if ps.all ok then some (ps.map fun p => ⟨p.1, p.2, false⟩) else none

def State.setReply (s : State) (r : Option (List Byte)) : State := { s with boot := { s.boot with reply := r } }

/-- A refused window access marks the core it names (R20, R22). -/
def State.hostRefused (s : State) (pa : Nat) : State :=
  (s.refuseWindow pa).setReply none

/-- The staging buffer in recovery (R451). -/
def State.stagingAccess (s : State) (write : Bool) (off len : Nat) (data : List Byte) : State :=
  if stagingSize < off + len then s.setReply none
  else if write then
    { s with boot := { s.boot with staged := putBytes cellSet0 off (data.take len) s.boot.staged, reply := some [] } }
  else s.setReply (some ((List.range len).map fun i => (cellFind s.boot.staged (off + i)).getD 0))

/-- A host access through BAR2, 1 to 256 bytes at an offset of a window of 512 GiB; an Unsupported Request answers with no
bytes.  An access to home 0x8 waits for its translation, which it asks for. -/
def execBar2Access (write : Bool) (off len : Nat) (data : List Byte) (s : State) : Host.Outcome State Fault Refusal :=
  let no : Host.Outcome State Fault Refusal := .next s
  let len := if write then data.length else len
  let pa := s.bar2Base + off
  if len = 0 || 256 < len || 2 ^ 39 < off + len then no
  else if s.bootMode = 0 then .next (s.setReply none)
  else if s.bootMode = bootRecovery then .next (s.stagingAccess write off len data)
  else match s.hostPlaces pa len with
  | none => .next (s.hostRefused pa)
  | some rs =>
    match rs.find? fun r => paHome r.pa == 8 && !s.boot.ats.contains (r.pa / 2 ^ 12) with
    | some r => .next (s.askAts r.pa)
    | none =>
      let l := s.spansOf rs
      if write then
        if !s.landReady l then no
        else .next ((s.landFrom .host 0 s.nextId l data).setReply (some []))
      else if !s.spansReadable l then no
      else
        let out := s.readSpans (dieReader .host 0) l off len
        .next (out.2.setReply (some out.1))

/-! ATS and MSI-X (R448). -/

/-- The 4 KiB page of a PCIe address as the device's home 0x8 names it. -/
def atsPage (addr : Nat) : Nat := (8 * 2 ^ 48 + addr % 2 ^ 48) / 2 ^ 12

/-- An access of the device to a page of host memory that is still to be performed. -/
def State.atsPending (s : State) (page : Nat) : Bool :=
  (s.mem.wq.any fun e => e.pa / 2 ^ 12 == page) || (s.ops.any fun o => o.kind.places.any fun a => a / 2 ^ 12 == page) ||
    s.reqs.any fun r => r.pieces.any fun p => p.places.any fun a => a / 2 ^ 12 == page

/-- An invalidation from the host; accesses still to be performed ask again. -/
def execAtsInvalidation (addr : Nat) (s : State) : Host.Outcome State Fault Refusal :=
  let p := atsPage addr
  let wait := if s.atsPending p && !s.boot.atsWait.contains p then s.boot.atsWait ++ [p] else s.boot.atsWait
  .next { s with boot := { s.boot with ats := s.boot.ats.filter fun x => x != p, atsWait := wait } }

/-! Attestation (R452). -/

/-- The report on a nonce. -/
def State.report (s : State) (nonce code : List Byte) : List Byte :=
  let body := nonce ++ (s.boot.m0 ++ List.replicate 64 0).take 64 ++ (s.boot.m1 ++ List.replicate 64 0).take 64 ++
    natToBytes 8 s.gtsc ++ natToBytes 8 0x880 ++ (Config.identityKey code ++ List.replicate 64 0).take 64
  body ++ (Config.slhSign body ++ List.replicate 29792 0).take 29792

def State.attEnd (s : State) (code : Nat) : State :=
  { s with boot := { s.boot with attStat := BitVec.ofNat 32 (2 * code), att := none } }

/-- The report written at the buffer once every page of it is translated; ATT_STAT[0] falls.  DEDUCED, log entry 118. -/
def State.attGo (s : State) : State :=
  match s.boot.att, s.boot.activation with
  | none, _ => s
  | some _, none => s.attEnd 1
  | some a, some code =>
    let pa := 8 * 2 ^ 48 + a
    let pages := (List.range 9).map fun i => pa + i * 4096
    let need := pages.filter fun p => p / 4096 ≤ (pa + 30031) / 4096
    if 2 ^ 48 < a + 30032 then s.attEnd 2
    else if need.all fun p => s.boot.ats.contains (p / 4096) then
      let r := s.engineRead (dieReader .host 0) (.mem pa) 32 false
      let out := r.2.report r.1 code
      (((List.range 939).foldl (fun s i => s.perform (pa + 32 * i) (sliceB out (32 * i) (Nat.min 32 (30032 - 32 * i))) false) r.2)).attEnd 0
    else need.foldl (fun s p => s.askAts p) s

/-- A write to ATT_CMD starts a report; ignored while one is busy. -/
def execAttCmd (v : W64) (s : State) : Host.Outcome State Fault Refusal :=
  if s.boot.attStat.getLsbD 0 then .next s
  else
    let s1 : State := { s with boot := { s.boot with attStat := 1, att := some ((v.extractLsb' 6 51).toNat * 64) } }
    .next s1.attGo

/-- The host's answer to a translation request. -/
def execAtsTranslationCompletion (addr : Nat) (s : State) : Host.Outcome State Fault Refusal :=
  let p := atsPage addr
  if !s.boot.atsWait.contains p then .next s
  else if !Config.atsAllows p then .next s
  else
    let s1 : State := { s with boot := { s.boot with ats := p :: s.boot.ats, atsWait := s.boot.atsWait.filter fun x => x != p } }
    .next s1.attGo

/-! The error ring (R412). -/

def erSlots (size : W32) : Nat := 2 ^ (6 + Nat.min (size.extractLsb' 0 4).toNat 6)

/-- The bytes of an error record. -/
def ErrRec.bytes (r : ErrRec) (loss : Bool) : List Byte :=
  bytes8 r.time ++ natToBytes 4 (r.src.toNat + r.kind % 256 * 2 ^ 16 + if loss then 2 ^ 31 else 0) ++ natToBytes 4 r.part ++
    bytes8 (r.addr &&& 0x1FFFFFFFFFFFFFF) ++ bytes8 r.detail

/-- The oldest held record goes to the ring, and MSI-X vector 0 tells of it (R448). -/
def execErrorRecordWrite (s : State) : Host.Outcome State Fault Refusal :=
  let no : Host.Outcome State Fault Refusal := .next s
  let n := erSlots s.cp.erSize
  let pa := (s.cp.erBase.extractLsb' 5 47).toNat * 32 + s.cp.erTail.toNat % n * 32
  match s.cp.erHeld with
  | [] => no
  | r :: rest =>
    if !s.cp.erSize.getLsbD 4 || !paDevice pa || !paDevice (pa + 31) || n ≤ (s.cp.erTail - s.cp.erHead).toNat ||
        !s.sliceReady pa 32 false then no
    else
      let s1 := (s.settle pa 32).perform pa (r.bytes s.cp.erLoss) false
      .next { s1 with cp := { s1.cp with erHeld := rest, erTail := s1.cp.erTail + 1, erLoss := false }
                      boot := { s1.boot with msix := s1.boot.msix.modify 0 (· + 1) } }

/-! The alarm (R453). -/

/-- The source number of the security controller (R454). -/
def srcSec : W16 := 0x5000

def State.setAlarm (s : State) (level : Nat) (sensor : W32) : State :=
  let l := Nat.max level (s.boot.alarm.extractLsb' 0 2).toNat
  { s with boot := { s.boot with alarm := ((s.boot.alarm ||| sensor <<< 2) &&& ~~~(3 : W32)) ||| BitVec.ofNat 32 l } }

/-- Level 1 reached: KIND 18, BOOT_STAT alarmed, every group halted.  DEDUCED, log entry 124. -/
def State.raiseOne (s : State) (sensor : W32) : State :=
  if s.alarmed then s.setAlarm 1 sensor
  else
    let s1 := (s.pushErr 18 0xFFFF srcSec 0 0).setAlarm 1 sensor
    let s2 : State := { s1 with boot := { s1.boot with stat := s1.boot.stat ||| 3 } }
    s2.groups.foldl (fun (s : State) (G : Group) => s.haltGroup G.id .preempt 0) s2

/-- Voltage, clock or temperature outside a level-1 band.  DESIGN CHOICE, log entry 126. -/
def execAlarmLevel1 (sensor : BitVec 6) (s : State) : Host.Outcome State Fault Refusal :=
  let x := (sensor &&& 7).zeroExtend 32
  if x = 0 then .next s else .next (s.raiseOne x)

/-- A reading outside a level-2 band lies outside its level-1 band too; the tamper mesh raises level 2 directly.  DEDUCED, log entry 119. -/
def execAlarmLevel2 (sensor : BitVec 6) (s : State) : Host.Outcome State Fault Refusal :=
  let x := (sensor &&& 15).zeroExtend 32
  if x = 0 then .next s
  else
    let s1 := if x &&& 7 = 0 then s else s.raiseOne (x &&& 7)
    let two := s1.boot.alarm.extractLsb' 0 2 == 2
    let s2 := s1.setAlarm 2 x
    if two then .next s2
    else
      let s3 : State := { s2 with boot := { s2.boot with activation := none, keysErased := true } }
      .next (s3.pushErr 19 0xFFFF srcSec 0 0)

/-! Soft errors (R316, R357, R455). -/

/-- The core, or the channel controller, a source number names (R454): its unit index on its die. -/
def srcDie (src : W16) : Nat := (src.extractLsb' 12 4).toNat
def srcClass (src : W16) : Nat := (src.extractLsb' 8 4).toNat
def srcUnit (src : W16) : Nat := (src.extractLsb' 0 8).toNat

/-- A corrected error: KIND 16; in a core's register file, CORE_STAT[1] (R22). -/
def execSoftErrorCorrected (src : BitVec 16) (cls : BitVec 8) (pa : W64) (s : State) : Host.Outcome State Fault Refusal :=
  let s1 := s.pushErr 16 0xFFFF src 0 ((pa <<< 8) ||| cls.zeroExtend 64)
  .next (if Config.arrayClass cls = 1 && srcClass src = 0 && srcDie src < 4 then s1.setStat (srcDie src * 256 + srcUnit src) 1 else s1)

/-- An uncorrectable error: KIND 17; a bad row of memory, a bad bank-group engine, or a call lost on a link.  DEDUCED, log entry 67; DEDUCED, log entry 92. -/
def execUncorrectableError (src : BitVec 16) (cls : BitVec 8) (pa : W64) (s : State) : Host.Outcome State Fault Refusal :=
  let s1 := s.pushErr 17 0xFFFF src 0 0
  let mark := fun (l : List Nat) => ({ s1 with bank := { s1.bank with bad := l ++ s1.bank.bad } } : State)
  match Config.arrayClass cls with
  | 1 => .next s1
  | 2 =>
    let ch := srcDie src * 64 + srcUnit src % 64
    .next (mark [2 ^ 60 + 256 * (ch / 32) + ch % 32 * 8 + Config.choose s.tick [0xF10] % 8])
  | 3 =>
    let moving := s1.remote.calls.filter fun k => (k.phase == .sent || k.phase == .replied) && k.exec != execNone
    match s1.pick [0xF11] moving with
    | some k => .next (if k.lost then s1.dropCall k.id else s1.updCall k.id fun k => { k with exec := execNone, phase := .sent })
    | none => .next s1
  | _ => .next (if paDevice pa.toNat then mark [pa.toNat / 4096, 2 ^ 61 + pa.toNat / 8] else s1)

/-! The loader (R442 to R445). -/

/-- The size class of a number of ranks (R442). -/
def fabClass (nranks : Nat) : Nat := if nranks ≤ 64 then 1 else if nranks ≤ 1024 then 2 else 3

/-- A code object's header. -/
structure ObjHead where
  form : Nat
  narrow : Bool
  handler : Bool
  version : Nat
  cls : Nat
  ntemp : Nat
  pwrid : Nat
  text : Nat
  tlen : Nat
  data : Nat
  dlen : Nat
  syms : Nat
  deriving DecidableEq, Repr

def objOf (b : List Byte) : ObjHead :=
  ⟨natAt b 6 1 % 4, bitAt (natAt b 7 1) 0, bitAt (natAt b 7 1) 1, natAt b 5 1 * 256 + natAt b 4 1, natAt b 8 2 % 4, natAt b 10 2,
   natAt b 16 8, natAt b 24 8, natAt b 32 8, natAt b 40 8, natAt b 48 8, natAt b 56 8⟩

def templateAt (b : List Byte) (i : Nat) : List Byte := sliceB b (64 + 128 * i) 128

/-- BADOBJ of the first check (R443): a wrong MAGIC, a reserved FORM, a bit set that the header or a template reserves or that
only the other form holds, a section beyond the object (R442). -/
def objBad (b : List Byte) : Bool :=
  let h := objOf b
  b.length < 64 || natAt b 0 4 != 0x314A5747 || 2 ≤ h.form || natAt b 6 1 / 4 != 0 || natAt b 7 1 / 4 != 0 || natAt b 8 2 / 4 != 0 ||
    natAt b 12 4 != 0 || (h.form == 0 && (h.cls != 0 || h.pwrid != 0)) || b.length < 64 + 128 * h.ntemp ||
    b.length < h.text + h.tlen || b.length < h.data + h.dlen || b.length < h.syms ||
    (List.range h.ntemp).any fun i => !launchClean (templateAt b i)

/-- An offset of a template relocated to where its section stands; zero names nothing. -/
def relocate (h : ObjHead) (text data : W64) (off : Nat) : Nat :=
  if off = 0 then 0
  else if h.text ≤ off && off < h.text + h.tlen then text.toNat + (off - h.text)
  else data.toNat + (off - h.data)

/-- The same for an offset of Gweja text: the first clause of the segment there (R436, R439). -/
def relocateGw (h : ObjHead) (ps : List GwProc) (t : GwText) (text data : W64) (off : Nat) : Nat :=
  let seg := ((ps.map (·.segs)).flatten).find? fun g => g.at_ == off
  match if off = 0 then none else seg.bind fun g => t.clause g.name with
  | some o => text.toNat + o
  | none => relocate h text data off

/-- Fields of a template that hold offsets: ENTRY, ARGS, SLOTS, ROUT0 to ROUT3 (R442). -/
def templateAdrs : List Nat := [0, 16, 64, 80, 88, 96, 104]

/-- A template relocated, with the NARROW flag of its object (R442, R444). -/
def relocateOne (h : ObjHead) (f : Nat → Nat) (t : List Byte) : List Byte :=
  let t := templateAdrs.foldl (fun t o => overlay 0 t o (natToBytes 8 (f (natAt t o 8)))) t
  if h.narrow then overlay 0 t 56 (natToBytes 1 (natAt t 56 1 / 4 * 4 + 2 + natAt t 56 1 % 2)) else t

/-- The register count and the stack that the translator chose for a template (R439). -/
def gwTemplate (regs spill : Nat) (t : List Byte) : List Byte :=
  let a := natAt t 32 4
  let t := overlay 0 t 32 (natToBytes 4 (a / 2 ^ 17 * 2 ^ 17 + regs % 32 * 2 ^ 12 + a % 2 ^ 12))
  overlay 0 t 116 (natToBytes 4 ((natAt t 116 4 + spill) % 2 ^ 24))

/-- The templates of an object: of one of clauses, or of one that the translator has made clauses of, whose entries are the
first segments of its `.entry` procedures in their order (R436). -/
def relocated (h : ObjHead) (b : List Byte) (gw : Option (List GwProc × GwText)) (text data : W64) : List Byte :=
  ((List.range h.ntemp).map fun i =>
    let t := templateAt b i
    match gw with
    | none => relocateOne h (relocate h text data) t
    | some (ps, g) =>
      let t1 := gwTemplate (g.regs.getD i 0) (g.spill.getD i 0) (relocateOne h (relocateGw h ps g text data) t)
      match (((ps.filter (·.entry))[i]?).bind fun p => p.segs.head?).bind fun s => g.clause s.name with
      | some o => overlay 0 t1 0 (natToBytes 8 (text.toNat + o))
      | none => t1).flatten

/-- The statuses of R443 in the model's own numbers. -/
def loadOk : Nat := 0
def loadBadObj : Nat := 1
def loadFeature : Nat := 2
def loadBinding : Nat := 3

/-- What the loader finds of an object: its status, its text as it is loaded, and the translation of a Gweja object. -/
structure LoadCheck where
  status : Nat
  text : List Byte
  gw : Option (List GwProc × GwText)
  deriving DecidableEq, Repr

/-- The check of an object in the order of R443. -/
def State.loadCheck (s : State) (b : List Byte) : LoadCheck :=
  let h := objOf b
  let text := sliceB b h.text h.tlen
  let no := fun (n : Nat) => (⟨n, [], none⟩ : LoadCheck)
  if objBad b then no loadBadObj
  else if 0x302 < h.version then no loadFeature
  else if h.form = 1 then
    if h.cls != fabClass s.nranks || h.pwrid = 0 || h.pwrid != s.cp.paTable.toNat then no loadBinding
    else if h.text % 16 != 0 || !clausesOk text.length text then no loadBadObj
    else ⟨loadOk, text, none⟩
  else match gwTranslate b h.handler [fabClass s.nranks, s.cp.paTable.toNat] with
    | none => no loadBadObj
    | some g => ⟨loadOk, g.2.text, some g⟩

/-- A multiple of 64 KiB at which the loader maps a section (R457). -/
def sectionVa (va : W64) : W64 := va &&& ~~~(0xFFFF : W64)

/-- Pages of 64 KiB that bytes take. -/
def pageCount (b : List Byte) : Nat := (b.length + 0xFFFF) / 0x10000

/-- The data section's place: the one asked for, or behind the text where the two would share a page (R457). -/
def dataVa (text data : W64) (t d : List Byte) : W64 :=
  if overlapsAt (sectionVa text).toNat (pageCount t * 2 ^ 16) (sectionVa data).toNat (pageCount d * 2 ^ 16) then
    sectionVa text + BitVec.ofNat 64 (pageCount t * 2 ^ 16) else sectionVa data

/-- The sections of an object that passes: text, data and the constants behind it, each on pages of its own (R457). -/
def objSections (obj text d : List Byte) (tva dva : W64) : List CodeSection :=
  let n := Nat.min d.length (Config.rodataPage obj * 2 ^ 16)
  [⟨tva.toNat, text, false, true⟩, ⟨dva.toNat, d.take n, true, false⟩, ⟨dva.toNat + n, d.drop n, false, false⟩]

/-- A page of a section: where it is mapped, what it holds, its leaf's permissions. -/
def CodeSection.pages (c : CodeSection) : List (Nat × List Byte × Bool × Bool) :=
  (List.range (pageCount c.bytes)).map fun i => (c.va + i * 2 ^ 16, sliceB c.bytes (i * 2 ^ 16) (Nat.min (2 ^ 16) (c.bytes.length - i * 2 ^ 16)), c.w, c.x)

/-- The leaf of a page that the loader maps (R318, R457): valid, at user level, in a frame. -/
def codeLeaf (frame : Nat) (w x : Bool) : W64 :=
  BitVec.ofNat 64 (1 + (if w then 2 else 0) + (if x then 4 else 0) + 8 + frame % 2 ^ 36 * 2 ^ 16)

/-- Pages written into frames and mapped in an address space, as far as its tables reach; the state unchanged where a page
has no frame in device memory.  None while a home holds a write. -/
def State.mapPages (s : State) (root : Nat) : List ((Nat × List Byte × Bool × Bool) × Nat) → Option State
  | [] => some s
  | (p, frame) :: l =>
    let pa := frame * 2 ^ 16
    if !paDevice pa then State.mapPages s root l
    else if !s.sliceReady pa 0x10000 false then none
    else
      let s1 := (s.settle pa p.2.1.length).perform pa p.2.1 false
      match s1.walk root p.1 with
      | none => State.mapPages s1 root l
      | some e =>
        if !s1.sliceReady e.1 8 false then none
        else State.mapPages ((s1.settle e.1 8).perform e.1 (bytes8 (codeLeaf frame p.2.2.1 p.2.2.2)) false) root l

/-- What the loader makes of an object. -/
def State.loadedObj (s : State) (obj : List Byte) (text data : W64) : LoadedObj :=
  let h := objOf obj
  let r := s.loadCheck obj
  let d := sliceB obj h.data h.dlen
  let tva := sectionVa text
  let dva := dataVa text data r.text d
  if r.status = loadOk then ⟨r.status, relocated h obj r.gw tva dva, objSections obj r.text d tva dva⟩ else ⟨r.status, [], []⟩

/-- The address space the loader maps an object in, and the frames that take its pages: the manual names no register for
either.  DESIGN CHOICE, log entry 122. -/
def State.loaderRoot (s : State) : Option Nat := rootOf (Config.freeWord s.tick [0xF26, 1] ++ Config.freeWord s.tick [0xF26, 0])
def State.loaderFrame (s : State) (i : Nat) : Nat := Config.choose s.tick [0xF27, i] % 2 ^ 36

/-- An object entered in the loader's list, its pages written and mapped; none while a home holds a write of theirs. -/
def State.objPlaced (s : State) (out : LoadedObj) : Option State :=
  let s1 : State := { s with boot := { s.boot with objects := s.boot.objects ++ [out] } }
  match s.loaderRoot with
  | none => some s1
  | some r => s1.mapPages r (((out.sections.map CodeSection.pages).flatten).zipIdx.map fun p => (p.1, s.loaderFrame p.2))

/-- An object loaded: its status, its templates, and its sections (R443, R457).  DEDUCED, log entry 122. -/
def execCodeObjectLoad (obj : List Byte) (text data : W64) (s : State) : Host.Outcome State Fault Refusal :=
  match s.objPlaced (s.loadedObj obj text data) with
  | some s2 => .next s2
  | none => .next s

end Sys2Proof.Machine
end

