-- ==== Sys2Proof/Machine/Registers.lean ====
section
/-! DEFINITION. The control space (R3, R449): every register of the boot and security block (R450), the scheduling block
(R399, R409), the translation block (R325), the remote-call block (R357), the fabric block (R365) and the channel
controllers (R304), with the writes that act. -/

set_option linter.unusedVariables false

namespace Sys2Proof.Machine

/-- One register of the control space. -/
inductive Reg
  | bootStat | bootCmd | bar2Base | dbgCtl | attCmd | attStat | alarmStat | gtscNow
  | cpQbase (q : Nat) | cpQsize (q : Nat) | cpPush (q : Nat) | cpHead (q : Nat) | cpQroot (q : Nat)
  | partRect (n : Nat) | partRoot (n : Nat) | partHandler (n : Nat) | partArea (n : Nat) | partSave (n : Nat)
  | dlLimit (n : Nat) | paShares (n : Nat) | paGrant (n : Nat) | partCmd (n : Nat) | partStat (n : Nat)
  | erBase | erSize | erTail | erHead | paBank | paBudget | paTableid
  | prBase | prSize | prTail | prHead | prDone | stubUsed (d : Nat)
  | rcTimeout | rcLost | rcCached
  | fabId | fabCtl | fabRoot | fabTimeout | fabPort (p : Nat) | fabSlot | fabErr | fabMgrp (j : Nat)
  | rotEntry (c n : Nat) | rotTag (c n : Nat) | rotState (c : Nat) | rotConflicts (c : Nat)
  | rmapAddr (c : Nat) | rmapElig (c : Nat)
  deriving DecidableEq, Repr

/-- The registers that are 64 bits wide. -/
def Reg.wide : Reg → Bool
  | .bar2Base | .attCmd | .gtscNow | .cpQbase _ | .cpQroot _ | .partRoot _ | .partHandler _ | .partArea _ | .partSave _
  | .dlLimit _ | .erBase | .paTableid | .prBase | .rcLost | .rcCached | .fabRoot | .fabPort _ | .fabErr | .fabMgrp _
  | .rotEntry _ _ | .rotConflicts _ => true
  | _ => false

/-! Offsets (R449). -/

/-- The boot and security block. -/
def bootReg (o : Nat) : Option Reg :=
  match o with
  | 0x000 => some .bootStat | 0x008 => some .bootCmd | 0x010 => some .bar2Base | 0x018 => some .dbgCtl | 0x020 => some .attCmd
  | 0x028 => some .attStat | 0x030 => some .alarmStat | 0x040 => some .gtscNow | _ => none

/-- The scheduling block. -/
def schedReg (o : Nat) : Option Reg :=
  if o < 0x140 then
    let q := o / 0x20
    match o % 0x20 with
    | 0x00 => some (.cpQbase q) | 0x08 => some (.cpQsize q) | 0x10 => some (.cpPush q) | 0x18 => some (.cpHead q) | _ => none
  else if 0x200 ≤ o && o < 0x250 then (if o % 8 = 0 then some (.cpQroot ((o - 0x200) / 8)) else none)
  else if 0x400 ≤ o && o < 0x800 then
    let n := (o - 0x400) / 0x40
    match o % 0x40 with
    | 0x00 => some (.partRect n) | 0x08 => some (.partRoot n) | 0x10 => some (.partHandler n) | 0x18 => some (.partArea n)
    | 0x20 => some (.partSave n) | 0x28 => some (.dlLimit n) | 0x30 => some (.paShares n) | 0x34 => some (.paGrant n)
    | 0x38 => some (.partCmd n) | 0x3C => some (.partStat n) | _ => none
  else match o with
    | 0x800 => some .erBase | 0x808 => some .erSize | 0x810 => some .erTail | 0x818 => some .erHead | 0x820 => some .paBank
    | 0x828 => some .paBudget | 0x830 => some .paTableid | _ => none

def xlatReg (o : Nat) : Option Reg :=
  match o with
  | 0x00 => some .prBase | 0x08 => some .prSize | 0x10 => some .prTail | 0x18 => some .prHead | 0x20 => some .prDone
  | 0x30 => some (.stubUsed 0) | 0x34 => some (.stubUsed 1) | 0x38 => some (.stubUsed 2) | 0x3C => some (.stubUsed 3) | _ => none

def remoteReg (o : Nat) : Option Reg :=
  match o with
  | 0x00 => some .rcTimeout | 0x08 => some .rcLost | 0x10 => some .rcCached | _ => none

def fabReg (o : Nat) : Option Reg :=
  if 0x020 ≤ o && o < 0x0B0 then (if o % 8 = 0 then some (.fabPort ((o - 0x20) / 8)) else none)
  else if 0x100 ≤ o && o < 0x200 then (if o % 8 = 0 then some (.fabMgrp ((o - 0x100) / 8)) else none)
  else match o with
    | 0x000 => some .fabId | 0x008 => some .fabCtl | 0x010 => some .fabRoot | 0x018 => some .fabTimeout | 0x0B0 => some .fabSlot
    | 0x0B8 => some .fabErr | _ => none

/-- Channel controller c = 32 × stack + ch. -/
def chanReg (c o : Nat) : Option Reg :=
  if o < 0x400 then (match o % 16 with | 0 => some (.rotEntry c (o / 16)) | 8 => some (.rotTag c (o / 16)) | _ => none)
  else match o with
    | 0x400 => some (.rotState c) | 0x408 => some (.rotConflicts c) | 0x410 => some (.rmapAddr c) | 0x414 => some (.rmapElig c)
    | _ => none

/-- The register at an offset of the control space, none where none stands. -/
def regAt (o : Nat) : Option Reg :=
  let r := o % 0x10000
  if o < 0x10000 then bootReg r
  else match o / 0x10000 with
    | 0x10 => schedReg r | 0x11 => xlatReg r | 0x12 => remoteReg r | 0x13 => fabReg r
    | _ => if 0x1000000 ≤ o && o < 0x1100000 then chanReg ((o - 0x1000000) / 0x1000) (o % 0x1000) else none

/-! Reads. -/

def w64 (n : Nat) : W64 := BitVec.ofNat 64 n
def wOf (x : W32) : W64 := x.zeroExtend 64

def State.rotOn (s : State) (c : Nat) : List RotEnt := s.bank.rot.filter fun e => e.chan == c

/-- ROT_ENTRYn (R304). -/
def rotWord (e : RotEnt) : W64 :=
  let k := match e.kind with | .read => 0 | .write => 1 | .emit => 2
  w64 (e.rlo % 2 ^ 16 + 2 ^ 16 * (e.rhi % 2 ^ 16) + 2 ^ 32 * e.pcm.toNat + 2 ^ 34 * e.bgm.toNat + 2 ^ 38 * k + 2 ^ 40 * (if e.excl then 2 else 1))

/-- ROT_TAGn: the tag that the stack core chose is free.  DESIGN CHOICE, log entry 68. -/
def rotTagWord (e : RotEnt) : W64 := w64 ((Config.freeWord 0 [0xF20, e.launch]).toNat % 2 ^ 16 + 2 ^ 16 * (e.lowEng % 256))

/-- ROT_STATE: entries in use, running instances, banks that idle engines hold open. -/
def State.rotState (s : State) (c : Nat) : W64 :=
  let on := fun (e : Nat) => engChan e == c
  let insts := (s.bank.launches.map fun l => if l.phase == .running then
    l.insts.countP fun i => i.status.isNone && i.engines.any on else 0).foldl (· + ·) 0
  let open_ := s.bank.engines.any fun e => on e.id && e.run.isNone && e.rows.any Option.isSome
  w64 ((s.rotOn c).length % 128 + 256 * (insts % 256) + if open_ then 2 ^ 16 else 0)

def State.rmapOf (s : State) (c : Nat) : W32 := ((s.bank.rmapAddr.find? fun x => x.1 == c).map (·.2)).getD 0

/-- PART_STATn. -/
def State.partStat (s : State) (n : Nat) : W64 :=
  let p := s.partAt n
  let b := fun (x : Bool) (i : Nat) => if x then 2 ^ i else 0
  w64 (b (s.placing n) 0 + b (s.groups.any fun G => G.part == n && G.halt.isSome) 1 + b p.saveBad 2 + b p.stopped 3 +
    256 * ((s.partLaunches n).length % 256))

/-- The value of a register under R3; a WO register reads zero.  DEDUCED, log entry 113. -/
def State.regRead (s : State) (r : Reg) : W64 :=
  match r with
  | .bootStat => wOf s.boot.stat
  | .bar2Base => s.boot.bar2
  | .dbgCtl => wOf s.boot.dbg
  | .attStat => wOf s.boot.attStat
  | .alarmStat => wOf s.boot.alarm
  | .gtscNow => w64 s.gtsc
  | .cpQbase q => (s.queueAt q).base
  | .cpQsize q => wOf (s.queueAt q).size
  | .cpHead q => wOf (s.queueAt q).head
  | .cpQroot q => (s.queueAt q).root
  | .partRect n => wOf (s.partAt n).rect
  | .partRoot n => (s.partAt n).root
  | .partHandler n => ((s.partAt n).handlerNext).getD (s.partAt n).handler
  | .partArea n => (s.partAt n).area
  | .partSave n => (s.partAt n).save
  | .dlLimit n => (s.partAt n).dlLimit
  | .paShares n => wOf (s.partAt n).shares
  | .paGrant n => w64 (s.paGrant n % 2 ^ 14 + if (s.partAt n).stall then 2 ^ 14 else 0)
  | .partStat n => s.partStat n
  | .erBase => s.cp.erBase
  | .erSize => wOf s.cp.erSize
  | .erTail => wOf s.cp.erTail
  | .erHead => wOf s.cp.erHead
  | .paBank => wOf s.cp.paBank
  | .paBudget => wOf s.cp.paBudget
  | .paTableid => s.cp.paTable
  | .prBase => s.xlat.prBase
  | .prSize => wOf s.xlat.prSize
  | .prTail => wOf s.xlat.prTail
  | .prHead => wOf s.xlat.prHead
  | .stubUsed d => w64 (s.xlat.stubs.countP fun b => b.die == d)
  | .rcTimeout => wOf s.remote.timeout
  | .rcLost => s.remote.lost
  | .rcCached => s.remote.cached
  | .fabId => wOf s.fab.id
  | .fabCtl => wOf s.fab.ctl
  | .fabRoot => s.fab.root
  | .fabTimeout => wOf s.fab.timeout
  | .fabPort p =>
    let n := if s.fab.ctl.getLsbD 0 then s.fab.lanes.getD p 0 else 0
    w64 ((if n = 4 then 1 else 0) + 2 * n + 2 ^ 16 * (s.fab.retries.getD p 0 % 2 ^ 16))
  | .fabSlot => if s.fab.slotTable.isSome then 1 else 0
  | .fabErr => s.fab.err
  | .fabMgrp j => s.fab.mgrp.getD j 0
  | .rotEntry c n => (((s.rotOn c)[n]?).map rotWord).getD 0
  | .rotTag c n => (((s.rotOn c)[n]?).map rotTagWord).getD 0
  | .rotState c => s.rotState c
  | .rotConflicts c => w64 (((s.bank.conflicts.find? fun x => x.1 == c).map (·.2)).getD 0)
  | .rmapAddr c => wOf (s.rmapOf c)
  | .rmapElig c =>
    let x := s.rmapOf c
    if Config.eligible (c / 32) (c % 32) (if x.getLsbD 16 then 1 else 0) (x.extractLsb' 17 2).toNat (x.extractLsb' 0 16).toNat then 1 else 0
  | .bootCmd | .attCmd | .cpPush _ | .partCmd _ | .prDone => 0

/-! Writes that act. -/

/-- The state a write leaves. -/
def outState (s : State) : Host.Outcome State Fault Refusal → State
  | .next s' => s'
  | _ => s

def setCp (s : State) (f : Cp → Cp) : State := { s with cp := f s.cp }

/-- Two rectangles of clusters that meet. -/
def rectsMeet (a b : W32) : Bool := (rectClusters a).any fun c => (rectClusters b).contains c

/-- PART_RECTn: no effect where it would overlap another valid partition; it ends a stop, and a handler's room is sought
anew (R404, R418, R420).  DEDUCED, log entry 100. -/
def execPartRect (n : Nat) (v : W32) (s : State) : Host.Outcome State Fault Refusal :=
  let v := v &&& 0x7FFF
  let clash := s.cp.parts.zipIdx.any fun p => p.2 != n && rectsMeet v p.1.rect
  if 16 ≤ n || clash then .next s
  else .next (s.updPart n fun p => { p with rect := v, stopped := false, reserved := if p.handler = 0 then .none else .unread })

/-- PART_HANDLERn: taken once no handler group of the partition runs (R418). -/
def execPartHandler (n : Nat) (v : W64) (s : State) : Host.Outcome State Fault Refusal :=
  let v := v &&& 0x1FFFFFFFFFFFFFF
  if 16 ≤ n then .next s
  else if (s.handlerGroup n).isSome then .next (s.updPart n fun p => { p with handlerNext := some v })
  else .next (s.setHandler n v)

/-- The sum of all shares (R409). -/
def sharesSum (parts : List Part_) (bank : W32) : Nat :=
  (parts.map fun p => (p.shares.extractLsb' 0 14).toNat).foldl (· + ·) 0 + (bank.extractLsb' 0 14).toNat

def execPaShares (n : Nat) (v : W32) (s : State) : Host.Outcome State Fault Refusal :=
  let s1 := s.updPart n fun p => { p with shares := v &&& 0x3FFF }
  .next (if s.cp.paBudget.toNat < sharesSum s1.cp.parts s.cp.paBank then s else s1)

def execPaBank (v : W32) (s : State) : Host.Outcome State Fault Refusal :=
  .next (if s.cp.paBudget.toNat < sharesSum s.cp.parts (v &&& 0x3FFF) then s else setCp s fun c => { c with paBank := v &&& 0x3FFF })

def execPaTableid (v : W64) (s : State) : Host.Outcome State Fault Refusal := .next (setCp s fun c => { c with paTable := v })

/-- CP_PUSHq (R399). -/
def execCpPush (q : Nat) (v : W32) (s : State) : Host.Outcome State Fault Refusal :=
  .next ((s.updQueue q fun k => { k with pushed := v, stamps := k.stamps ++ [(k.pushed, (v - k.pushed).toNat, s.stamp)] }).pushHeld)

/-- Whether the device holds no launch and no fabric or bank work (R365). -/
def State.fabIdle (s : State) : Bool :=
  s.groups.isEmpty && (s.cp.images.all fun i => (s.launch? i.2).isNone) && s.fab.xfers.isEmpty && s.fab.waiting.isEmpty &&
    s.fab.rounds.isEmpty && s.incs.isEmpty && (s.mem.wq.all fun e => e.path != .mx) && (s.fab.insts.all fun i => i.done) && s.bank.launches.isEmpty &&
    s.reqs.all fun r => r.retired || !(6 ≤ r.kind && r.kind ≤ 8)

/-- A rank below the rank count, and one that the fabric can address (R365). -/
def fabOk (id ctl : W32) : Bool :=
  !ctl.getLsbD 0 || ((id.extractLsb' 0 12).ule (id.extractLsb' 16 12) && (ctl.getLsbD 1 || (id.extractLsb' 0 12).ule 1023))

def execFabId (v : W32) (s : State) : Host.Outcome State Fault Refusal :=
  let v := v &&& 0x0FFF0FFF
  .next (if s.fabIdle && fabOk v s.fab.ctl then s.updFab fun f => { f with id := v } else s)

/-- FAB_CTL; a disabled fabric holds its ports down (R366). -/
def execFabCtl (v : W32) (s : State) : Host.Outcome State Fault Refusal :=
  let v := v &&& 3
  .next (if s.fabIdle && fabOk s.fab.id v then
    s.updFab fun f => { f with ctl := v, lanes := if v.getLsbD 0 then f.lanes else List.replicate 18 0 } else s)

def execFabRoot (v : W64) (s : State) : Host.Outcome State Fault Refusal :=
  .next (if s.fabIdle then s.updFab fun f => { f with root := v &&& 0x000FFFFFFFFF0001 } else s)

/-- DBG_CTL: writable only where the configuration record permits debug (R450). -/
def execDbgCtl (v : W32) (s : State) : Host.Outcome State Fault Refusal :=
  .next (if s.boot.debugOk then { s with boot := { s.boot with dbg := v &&& 1 } } else s)

/-- PART_CMDn: each bit that is set acts, from bit 0 (R409). -/
def State.partCmd (s : State) (n : Nat) (v : W64) : State :=
  let s := if v.getLsbD 0 then outState s (execPartCmdPreempt n s) else s
  let s := if v.getLsbD 1 then outState s (execPartCmdResume n s) else s
  let s := if v.getLsbD 2 then outState s (execPartCmdAbort n s) else s
  if v.getLsbD 3 then outState s (execPartCmdResumePlacing n s) else s

/-- A write of a register under R3: reserved bits have no effect (R2), RO registers ignore it, W1C registers clear the
bits written one, and the registers above act.  DEDUCED, log entry 114. -/
def State.regWrite (s : State) (r : Reg) (v : W64) : State :=
  let x := v.extractLsb' 0 32
  let act := outState s
  match r with
  | .bootCmd => act (execBootCmd x s)
  | .bar2Base => { s with boot := { s.boot with bar2 := v &&& 0x000FFFFFE0000000 } }
  | .dbgCtl => act (execDbgCtl x s)
  | .attCmd => act (execAttCmd v s)
  | .cpQbase q => s.updQueue q fun k => { k with base := v &&& 0x000FFFFFFFFFFFC0 }
  | .cpQsize q => (s.updQueue q fun k => { k with size := x &&& 0x1F }).pushHeld
  | .cpPush q => act (execCpPush q x s)
  | .cpQroot q => s.updQueue q fun k => { k with root := v &&& 0x000FFFFFFFFF0001 }
  | .partRect n => act (execPartRect n x s)
  | .partRoot n => s.updPart n fun p => { p with root := v &&& 0x000FFFFFFFFF0001 }
  | .partHandler n => act (execPartHandler n v s)
  | .partArea n => s.updPart n fun p => { p with area := v &&& 0x000FFFFFFFE00001 }
  | .partSave n => s.updPart n fun p => { p with save := v &&& 0x000FFFFFFFE1FFFF }
  | .dlLimit n => s.updPart n fun p => { p with dlLimit := v }
  | .paShares n => act (execPaShares n x s)
  | .partCmd n => s.partCmd n v
  | .erBase => setCp s fun c => { c with erBase := v &&& 0x000FFFFFFFFFFFE0 }
  | .erSize => setCp s fun c => { c with erSize := x &&& 0x1F }
  | .erHead => setCp s fun c => { c with erHead := x }
  | .paBank => act (execPaBank x s)
  | .paTableid => act (execPaTableid v s)
  | .prBase => s.updXlat fun y => { y with prBase := v &&& 0x000FFFFFFFFFFFF0 }
  | .prSize => act (execPrSize x s)
  | .prHead => s.updXlat fun y => { y with prHead := x }
  | .prDone => act (execPrDone x s)
  | .rcTimeout => { s with remote := { s.remote with timeout := x &&& 0xFF } }
  | .rcLost => { s with remote := { s.remote with lost := s.remote.lost &&& ~~~v } }
  | .rcCached => { s with remote := { s.remote with cached := s.remote.cached &&& ~~~v } }
  | .fabId => act (execFabId x s)
  | .fabCtl => act (execFabCtl x s)
  | .fabRoot => act (execFabRoot v s)
  | .fabTimeout => s.updFab fun f => { f with timeout := x &&& 0x3FF }
  | .fabErr => s.updFab fun f => { f with err := f.err &&& ~~~v }
  | .fabMgrp j => s.updFab fun f => { f with mgrp := f.mgrp.set j (v &&& 0x3FFFF) }
  | .rotConflicts c =>
    let old := w64 (((s.bank.conflicts.find? fun y => y.1 == c).map (·.2)).getD 0)
    { s with bank := { s.bank with conflicts := listSet (fun y => y.1 == c) (c, (old &&& ~~~v).toNat) s.bank.conflicts } }
  | .rmapAddr c => { s with bank := { s.bank with rmapAddr := listSet (fun y => y.1 == c) (c, x &&& 0x7FFFF) s.bank.rmapAddr } }
  | .bootStat | .attStat | .alarmStat | .gtscNow | .cpHead _ | .paGrant _ | .partStat _ | .erTail | .paBudget | .prTail
  | .stubUsed _ | .fabPort _ | .fabSlot | .rotEntry _ _ | .rotTag _ _ | .rotState _ | .rmapElig _ => s

/-- A read at an offset: zero where no register stands; a width that is not the register's own gives a free value. -/
def State.ctlRead (s : State) (wide : Bool) (o : Nat) : W64 :=
  match regAt o with
  | some r => if r.wide == wide then s.regRead r else (Config.freeWord s.tick [0xF21, o]).zeroExtend 64
  | none => 0

/-- A write at an offset: no effect where no register of that width stands. -/
def State.ctlPut (s : State) (wide : Bool) (o : Nat) (v : W64) : State :=
  match regAt o with
  | some r => if r.wide == wide then s.regWrite r v else s
  | none => s

/-- A write by the host to the control space. -/
def execRegisterWrite (wide : Bool) (off : Nat) (v : W64) (s : State) : Host.Outcome State Fault Refusal := .next (s.ctlPut wide off v)

/-- A write of CORE_KICK by the host (R22, R230).  DEDUCED, log entry 54. -/
def execCoreKick (core : Nat) (v : W64) (s : State) : Host.Outcome State Fault Refusal :=
  if 1024 ≤ core || 160 ≤ core % 256 || s.kickFull core || !s.boot.dbg.getLsbD 0 then .next s else .next (s.kickHead core v none)

/-- A grant window of a partition begins (R410): PA_GRANTn[14] stands when the power measured in the window before it
exceeds the shares held.  DESIGN CHOICE, log entry 109. -/
def execGrantWindow (part measured : Nat) (s : State) : Host.Outcome State Fault Refusal :=
  if 16 ≤ part || s.gtsc % 1000 != 0 then .next s
  else .next (s.updPart part fun p => { p with stall := s.paGrant part * 250 < measured })

end Sys2Proof.Machine
end

