-- ==== Sys2Proof/Machine/System.lean ====
section
/-! DEFINITION. Scheduling instructions: opcodes 0x600 to 0x60B (R426 to R435). -/

set_option linter.unusedVariables false

namespace Sys2Proof.Machine

/-! spawn and jwait (R428, R429). -/

/-- A record pushed for a thread, read as the push is accepted; none while the ring has no room or its bytes are held. -/
def State.spawnGo (s : State) (t : TRef) (q : Nat) (r : Range) : Option State :=
  let s := s.redirectTo 0 r.pa
  let l := s.spansOf [r]
  if !s.spansReadable l then none
  else
    let b := s.readSpans cpReader l r.pa 32
    b.2.pushQ (b.2.threadPush t q b.1 none)

/-- DEDUCED, log entry 111. -/
def execSpawn (c : Ctl) (q : BitVec 2) (a : Operand) (s : State) : Host.Outcome State Fault Refusal :=
  native c (.spawn c q a) s fun s t =>
    let va := s.src64 t a
    if va.toNat % 32 != 0 then .trap s causeProtection va false
    else match s.access t va 32 false false [va.toNat] with
    | .wait => .stay s
    | .fault k x s => .trap s k x false
    | .nonres x => .trap s causePage x false
    | .ok rs s' =>
      let r := rs.headD ⟨0, 32, false⟩
      if !paDevice r.pa then .trap s causeProtection va false
      else if (s.ctx t).quant then .next ((s'.beginQuiet t (.spawn q.toNat va)).defer t)
      else if s'.postHeld t fun _ => true then .stay s
      else match ((s'.flush t .device fun _ => true).releaseK t).spawnGo t q.toNat r with
        | some s2 => .next s2
        | none => .stay s

/-- DEDUCED, log entry 40. -/
def execJwait (c : Ctl) (d a : Operand) (off : BitVec 12) (s : State) : Host.Outcome State Fault Refusal :=
  native c (.jwait c d a off) s fun s t =>
    s.queueWait t (if s.loadHeld t c d 2 then .stay s
    else s.withWord t a off 16 false fun pa s' =>
      s'.beginWait t c (.jwait pa (opNum d) false none) (if (s.ctx t).quant then none else some .device))

/-! rfe, halt, dlset (R430, R432). -/

/-- The act of a handler: on the group it handles, after which the handler launch ends; the illegal-instruction trap
outside a handler. -/
def State.handlerAct (s : State) (t : TRef) (act : State → Nat → State) : Lane :=
  if (s.thread t).exited then .stop s
  else match t.group, (s.launchOf t).priv with
    | some h, true => .stop ((match (s.groupOf t).bind (·.handles) with | some g => act s g | none => s).endHandler h)
    | _, _ => .trap s causeIllegal 0 false

def execRfe (c : Ctl) (s : State) : Host.Outcome State Fault Refusal :=
  native c (.rfe c) s fun s t => s.handlerAct t fun s g => s.resumeGroup g

def execHalt (c : Ctl) (code : BitVec 16) (s : State) : Host.Outcome State Fault Refusal :=
  native c (.halt c code) s fun s t => s.handlerAct t fun s g =>
    match s.group? g with
    | some G => s.endLaunch G.launch 5 code.toNat
    | none => s

def execDlset (c : Ctl) (a : Operand) (s : State) : Host.Outcome State Fault Refusal :=
  native c (.dlset c a) s fun s t =>
    match ((s.groupOf t).bind (·.handles)).bind s.group? with
    | some G => .next (s.updLaunch G.launch fun L => { L with dl := some (s.src64 t a).toNat })
    | none => .next s

/-! sleep, qend, qsync, pwrq (R431, R433, R434). -/

/-- DEDUCED, log entry 112. -/
def execSleep (c : Ctl) (a : Operand) (s : State) : Host.Outcome State Fault Refusal :=
  native c (.sleep c a) s fun s t =>
    let n := (s.src32 t a).toNat
    if (s.ctx t).quant || n = 0 then .next s
    else .next (s.updThread t fun x => { x with sleep := some (s.clk + 1 + n) })

def execQend (c : Ctl) (s : State) : Host.Outcome State Fault Refusal :=
  native c (.qend c) s fun s t => .next (if (s.ctx t).quant then s.updThread t fun x => { x with qended := true } else s)

def execQsync (c : Ctl) (s : State) : Host.Outcome State Fault Refusal :=
  native c (.qsync c) s fun s t =>
    if s.flagFull t c then .stay s
    else if (s.ctx t).quant then
      .next ((s.begin_ t c (.qsync (s.launchOf t).quantum) none).updThread t fun x => { x with qended := true })
    else .next (s.result t c [])

def execPwrq (c : Ctl) (d : Operand) (s : State) : Host.Outcome State Fault Refusal :=
  native c (.pwrq c d) s fun s t =>
    if s.flagFull t c || s.destLocked t d 1 then .stay s
    else
      let x := s.ctx t
      let stall := !x.quant && (s.partAt x.part).stall
      .next (s.result t c [.v (opNum d) (BitVec.ofNat 32 ((s.launchOf t).rc.power % 2 ^ 14 + if stall then 2 ^ 14 else 0))])

/-! crd and cwr (R435). -/

/-- An offset that breaks R435. -/
def ctlBad (ty : Ty) (o : Nat) : Bool := o % (if tyWide ty then 8 else 4) != 0 || 2 ^ 26 ≤ o

/-- Memory accesses of a thread that a `fence.ar.system` puts before its `crd` and `cwr`, still to be performed (R83, R435). -/
def State.ctlHeld (s : State) (t : TRef) : Bool :=
  let x := s.thread t
  let wide := fun (l : List (Nat × Scope)) => l.filter fun e => e.2 == .system
  s.opsOpen (wide x.arOps) || (wide x.arW).any fun e => s.mem.wq.any fun w => w.id == e.1

def execCrd (c : Ctl) (ty : Ty) (d a : Operand) (s : State) : Host.Outcome State Fault Refusal :=
  native c (.crd c ty d a) s fun s t =>
    let o := s.src32 t a
    if ctlBad ty o.toNat then .trap s causeProtection (o.zeroExtend 64) false
    else if s.flagFull t c || s.destLocked t d (tyRegs ty) || s.ctlHeld t then .stay s
    else .next (s.result t c (wrTy ty d (s.ctlRead (tyWide ty) o.toNat)))

def execCwr (c : Ctl) (ty : Ty) (a b : Operand) (s : State) : Host.Outcome State Fault Refusal :=
  native c (.cwr c ty a b) s fun s t =>
    let o := s.src32 t a
    if ctlBad ty o.toNat then .trap s causeProtection (o.zeroExtend 64) true
    else if s.ctlHeld t then .stay s
    else .next (s.ctlPut (tyWide ty) o.toNat (s.src t ty b))

end Sys2Proof.Machine
end

