-- ==== Sys2Proof/Machine/Pick.lean ====
section
/-! DEFINITION. How a thread comes to stand at an instruction (R27, R39, R50, R102, R103, R106): breakpoints, the
header and its WAIT, the fetch of its word, parking at a gathered instruction, and where its set issues. -/

set_option linter.unusedVariables false

namespace Sys2Proof.Machine

/-- Flags named in WAIT are clear (R39).  DEDUCED, log entry 24. -/
def Thread.waitClear (x : Thread) (h : Header) : Bool := (List.range 12).all fun i => !h.wait.getLsbD i || x.flag i = 0

/-- An enabled breakpoint that fires for a thread where it stands (R49 to R51). -/
def State.breaksAt (s : State) (t : TRef) : Bool :=
  let x := s.thread t
  let k := s.coreAt (s.ctx t).core
  !x.stepOver && t.group.isSome && (List.range 4).any fun i =>
    let c := k.bpctl.getD i 0
    c.getLsbD 0 && k.bpaddr.getD i 0 == x.pc && c.extractLsb' 1 4 == x.slot &&
      (!c.getLsbD 5 || match x.rep with
        | some r => r.body == x.pc && r.iteration == (c.extractLsb' 6 16).zeroExtend 32
        | none => false)

/-- A gang of given members where the first of them stands. -/
def State.asGang (s : State) (core slice : Nat) (h : Header) (ms : List TRef) : State :=
  let t := ms.headD (.callee 0)
  let x := s.thread t
  { s with gang := ⟨core, slice, x.pc, x.slot, h, ms, (s.ctx t).priv⟩ }

/-- A thread parks at its gathered instruction with the mask it reads there; one whose mask lacks its own lane takes the
uniformity trap (R106, R161).  In quantum mode the park ends its quantum (R132). -/
def State.parkAt (s : State) (t : TRef) (i : Instr) : State :=
  let x := s.thread t
  let mask := match gatherMask i with
    | some o => s.memberMask t o
    | none => 0
  if (gatherMask i).isSome && !mask.getLsbD x.lane then s.trap t causeUniformity 0 false 0
  else s.updThread t fun x => { x with park := .gathered mask, gset := none, qended := x.qended || (s.ctx t).quant }

/-- A collective whose destination is read-locked by a queued matrix operation: its thread is not ready (R106, R166). -/
def State.destsLocked (s : State) (t : TRef) (i : Instr) : Bool :=
  ((instrUses i).head?.map fun u => s.destLocked t u.1 u.2).getD false

/-- A thread at slot 1 or later: a breakpoint, the fetch of its word, the park at a gathered instruction. -/
def State.arriveSlot (s : State) (t : TRef) (h : Header) : State :=
  let x := s.thread t
  let va := slotAddr x.pc x.slot
  if s.breaksAt t then s.trap t causeBreakpoint 0 false 0
  else match s.fetch t va with
    | .fault c a => (s.refuseFetch t va).trap t c a false 0
    | .wait => s
    | .word w s1 =>
      match decode w with
      | some i =>
        let g := s1.asGang (s.ctx t).core 0 h [t]
        if isGathered i && (g.encodingFault t (wordCtl w) i).isNone && !(isLong i && g.flagFull t (wordCtl w)) &&
            !((gatherMask i).isSome && s.destsLocked t i) then s1.parkAt t i
        else s1
      | none => s1

/-- A thread that is not parked comes to its slot: at slot 0 the header is evaluated, and the thread stands at slot 1 once
its WAIT is clear (R39, R103).  A thread that an image or a handler put behind the slots of its clause takes the misaligned-target
trap (R27, R419).  DEDUCED, log entry 23. -/
def State.arrive (s : State) (t : TRef) : State :=
  let x := s.thread t
  if x.slot = 0 then
    if s.breaksAt t then s.trap t causeBreakpoint 0 false 0
    else match s.fetch t x.pc with
      | .fault c a => (s.refuseFetch t x.pc).trap t c a false 0
      | .wait => s
      | .word w s1 =>
        if !w.msb || (t.group.isSome && x.fresh && x.pc == (s.launchOf t).rc.entry && (headerOf w).kind != 2) then s1.trap t causeTarget x.pc false 0
        else if !headerOk w then s1.trap t causeIllegal 0 false 0
        else if x.waitClear (headerOf w) then
          (s1.updThread t fun x => { x with slot := 1, stepOver := false, fresh := false }).arriveSlot t (headerOf w)
        else s1
  else match s.fetch t x.pc with
    | .fault c a => (s.refuseFetch t x.pc).trap t c a false 0
    | .wait => s
    | .word w s1 =>
      if !w.msb || (headerOf w).cnt < x.slot.toNat then s1.trap t causeTarget x.pc false 0 else s1.arriveSlot t (headerOf w)

/-! Who may issue (R103, R416). -/

/-- Whether a thread's group lets it issue: not halted, or within the instructions a wave still issues after a halt, which
is a free choice cycle by cycle (R416). -/
def State.groupRuns (s : State) (G : Group) (w : Wave) : Bool :=
  match G.halt with
  | none => s.cores.all fun k => k.mu.all fun m => !(m.abandoned && m.group == G.id)
  | some h => !h.quiet && w.skid < 24 && Config.choose s.clk [0xA00, G.id, w.idx] % 2 == 1

/-- A thread that could issue if its instruction were not held, its park aside. -/
def State.mayRun (s : State) (G : Group) (x : Thread) : Bool :=
  let L := (s.launch? G.launch).getD Launch.blank
  let w := (G.waves.find? fun w => w.idx == x.wave).getD Wave.blank
  s.groupRuns G w && !x.exited && !x.stopped && x.wait.isNone && x.sleep.isNone && !L.committing &&
    (!L.rc.quant || (!x.qended && x.qcount < L.rc.quantumLen))

/-- The cycle is not one in which the thread stalls or yields (R40, R41, R124). -/
def Thread.timeUp (x : Thread) (clk : Nat) : Bool := x.wakeAt ≤ clk && !(x.yieldAt == clk && clk != 0)

/-- The waves of a slice, each with its group, by wave slot. -/
def State.sliceWaves (s : State) (core slice : Nat) : List (Group × Wave) :=
  (List.range 8).filterMap fun i => s.slotWave core (slice * 8 + i)

/-- The threads of a slice by wave slot and lane. -/
def State.sliceThreads (s : State) (core slice : Nat) : List TRef :=
  ((s.sliceWaves core slice).map fun gw =>
    (List.range 32).filterMap fun l =>
      (gw.1.threads.find? fun x => x.wave == gw.2.idx && x.lane == l).map fun x => TRef.thr gw.1.id x.tid).flatten

/-- Whether a thread stands free to come to its slot in this cycle. -/
def State.arrives (s : State) (t : TRef) : Bool :=
  match s.groupOf t with
  | some G => s.mayRun G (s.thread t) && (s.thread t).park == .no && (s.thread t).timeUp s.clk
  | none => false

/-- The threads of a slice come to their slots (R103). -/
def State.prepare (s : State) (core slice : Nat) : State :=
  (s.sliceThreads core slice).foldl (fun s t => if s.arrives t then s.arrive t else s) s

/-- The core and slice that issue a set: those of its wave at position 0 (R214).  DEDUCED, log entry 44. -/
def State.setHome (s : State) (ms : List TRef) : Nat × Nat :=
  let ws := ms.map s.waveOf
  let w := (ws.find? fun w => mbPos w.mbind == 0).getD (ws.headD Wave.blank)
  (w.core, w.slot / 8)

/-! Words that are no instruction (R42). -/

/-- The trap of a word that fails an encoding check, for every thread of the gang: the uniform-write trap where a uniform
destination is its only fault, those that depend on the launch and the clause among them (R32, R35, R42). -/
def State.badWord (s : State) (w : W96) : State :=
  let forms := uniformForms w
  let cause := fun (t : TRef) =>
    if forms.any fun i => (s.encodingFault t (wordCtl w) i).isNone then causeUniformWrite else causeIllegal
  s.gang.members.foldl (fun s' t => s'.trap t (cause t) 0 false 0) (s.mark (wordCtl w))

/-- An unassigned opcode raises the illegal-instruction trap at its slot (R42, R43). -/
def execUnassignedOpcode (w : W96) (s : State) : Host.Outcome State Fault Refusal :=
  .next (s.gang.members.foldl (fun s t => s.trap t causeIllegal 0 false 0) (s.mark (wordCtl w)))

end Sys2Proof.Machine
end

