-- ==== Sys2Proof/Machine/Commit.lean ====
section
/-! DEFINITION. The commits of quantum-mode launches (R90 to R95, R132): when a commit begins, the entries it applies
in the order of R92, and what follows once it is complete. -/

set_option linter.unusedVariables false

namespace Sys2Proof.Machine

/-! Entries (R92). -/

/-- What comes of an entry: it is applied, it faults and stays the next one (R95), or it has to wait. -/
inductive Entry
  | applied (s : State)
  /-- Part of its work is done, and it stays the next one. -/
  | moved (s : State)
  | faulted (s : State)
  /-- It has to wait; the state in which it has asked for host translations (R448). -/
  | waits (s : State)

/-- The trap of an entry, attributed to the slot that issued it (R95).  DEDUCED, log entry 32. -/
def State.entryTrap (s : State) (t : TRef) (slot : BitVec 4) (cause : Nat) (addr : W64) (write : Bool) : State :=
  (s.trap t cause addr write 0).updThread t fun x => { x with trapcode := trapWord cause slot write 0 }

def State.setKind (s : State) (o : Nat) (k : OpKind) : State := s.updOp o fun x => { x with kind := k }

/-- A buffered store at its point of visibility: where its page stands now; a page that has moved to another device takes
its bytes there.  DEDUCED, log entry 33. -/
def State.entryStore (s : State) (t : TRef) (pa : Nat) (data : List Byte) (bypass : Bool) : Entry :=
  let s := s.redirectTo (s.ctx t).die pa
  let a := s.resolve pa
  if s.movedAway pa then .applied s
  else if s.sliceReady a data.length bypass then .applied ((s.settle a data.length).perform a data bypass) else .waits (s.askAts a)

/-- An operation of the service wave whose word has been translated again. -/
def OpKind.movedTo (k : OpKind) (r : Range) : OpKind :=
  match k with
  | .atomic run m dst => .atomic run { m with pa := r.pa, bypass := r.bypass } dst
  | .acall run _ va entry root args dst res _ => .acall run r.pa va entry root args dst res r.bypass
  | k => k

/-- The image of a finished `mld` written, and its flag falls with the operation (R221). -/
def State.mldEnd (s : State) (o : Op) : State :=
  match o.kind with
  | .mld _ core off dst img =>
    let s := match dst with
      | some d => s.landAll o.thr o.clob ((List.range (img.length / 4)).map fun i => Wr.v (d + i) (toW32 (sliceB img (4 * i) 4)))
      | none => s.setSpad core off img
    (s.flagDown o.thr o.flag).dropOp o.id
  | _ => s

/-- A barrier update at its object (R195, R196, R200). -/
def State.entryBarr (s : State) (t : TRef) (slot : BitVec 4) (id core off : Nat) (u : BarrUp) : State :=
  let put := fun (b : Barr) => (s.setBarr core off b).dropOp id
  match u with
  | .init e => put ⟨e, e, 0, false, false, 0, 0, 0⟩
  | .expect b => put (barrExpectB s.gtsc b (s.barrAt core off))
  | .arrive n chk =>
    let r := barrArriveN s.gtsc n (s.barrAt core off)
    let s := if n = 0 then s.dropOp id else put r.1
    if r.2 && chk then s.entryTrap t slot causeOverrun 0 false else s

/-- An `mld` whose runs are known, all of it done at once (R221, R228). -/
def State.entryMld (s : State) (id : Nat) : Entry :=
  let s1 := match s.op? id with | some o => s.mldStep o true | none => s
  match s1.op? id with
  | some o1 =>
    match o1.kind with
    | .mld [] core off dst img => if dst.isNone && s1.spadLocked core off img.length then .waits s else .applied (s1.mldEnd o1)
    | _ => .waits s
  | none => .applied s

/-- A deferred operation performed in its place. -/
def State.entryOp (s : State) (t : TRef) (slot : BitVec 4) (o : Op) : Entry :=
  let L := s.launchOf t
  let after := fun (x : Option State) => match x with | some s' => Entry.applied s' | none => Entry.waits s
  let drop := fun (s : State) => s.dropOp o.id
  match o.kind with
  | .atomic _ _ _ | .acall _ _ _ _ _ _ _ _ _ =>
    if !s.sliceEnabled o then .waits s
    else
      let s1 := s.sliceNow o
      match (s1.op? o.id).map fun (x : Op) => x.kind with
      | some (.acall _ _ _ _ _ _ _ _ _) => .waits s
      | _ => .applied s1
  | .ckick core head => if s.kickFull core then .waits s else .applied (drop (s.kickHead core head (some t)))
  | .bgx va => after ((s.pushQ (s.threadPush t (6 + s.postPrio t false va) (postBytes false va) none)).map drop)
  | .bgload va _ => after (s.pushQ (s.threadPush t (6 + s.postPrio t true va) (postBytes true va) (some o.id)))
  | .bfence _ _ =>
    let s1 := s.fenceArm t o.id
    match (s1.op? o.id).bind s1.fenceStep with
    | some s2 => match (s2.op? o.id).map (fun (x : Op) => x.kind) with
      | some (.bfence _ _) => .moved s2
      | _ => .applied s2
    | none => .waits s
  | .discard pa n by_ =>
    let here := (sectorsOf pa n).filter fun b => !s.movedAway b
    if here.all fun b => s.sliceReady (s.resolve b) 32 by_ then
      .applied (here.foldl (fun s b =>
        (s.settle (s.resolve b) 32).perform (s.resolve b) (s.freeBytes t [0x500, b, (s.thread t).quantum.length] 32) by_) (drop s))
    else .waits s
  | .bgstat eng dst => .applied (s.setKind o.id (.result [.v dst (s.engineWord eng)]))
  | .cgo h => .applied (drop (s.cgoGo t L.id h))
  | .cplan _ _ => after (s.cplanGo o.id)
  | .spawn q va =>
    match s.access t va 32 false false [va.toNat] with
    | .wait => .waits s
    | .fault k a s => .faulted (s.entryTrap t slot k a false)
    | .nonres a => .faulted (s.entryTrap t slot causePage a false)
    | .ok rs s1 => after ((s1.spawnGo t q (rs.headD ⟨0, 32, false⟩)).map drop)
  | .pgreq va _ _ _ => if s.walkHeld (s.ctx o.thr).root va.toNat then .waits s else .applied (s.pgreqGo o.id)
  | .rcall call _ _ => after ((s.updCall call fun k => { k with sentAt := s.gtsc }).rcallGo call)
  | .mroute _ _ => after (s.mrouteGo o.id)
  | .mret _ =>
    let s1 := s.mretStep o true
    let ids := (s1.mem.wq.filter fun e => e.tag == o.id).map (·.id)
    let left := match (s1.op? o.id).map (·.kind) with | some (.mret []) => false | _ => true
    if left || !s1.canForceAll ids .all then .waits s else .applied ((s1.forceAll ids .all).setKind o.id (.result []))
  | .mld _ _ _ _ _ => s.entryMld o.id
  | .mldq form va cs dst reg =>
    match s.mldPlan t o.id form va cs dst reg with
    | .wait s' => .waits s'
    | .trap c a w s' => .faulted (s'.entryTrap t slot c a w)
    | .go k s' => (s'.setKind o.id k).entryMld o.id
  | .satom core off m dst =>
    let n := atomBytes m.ty
    if s.spadLocked core off n || s.onBoard core off n then .waits s
    else
      let old := atomVal m.ty (s.spadBytes core off n)
      .applied ((s.setSpad core off (natToBytes n (rmwNew m.op m.ty old m.b m.c).toNat)).setKind o.id (.result (atomDst m.ty dst old)))
  | .barrUp core off u => if s.spadLocked core off 16 || s.onBoard core off 16 then .waits s else .applied (s.entryBarr t slot o.id core off u)
  | _ => .applied s

/-- One entry of a thread (R92); the word of an atomic is translated again, and a fault there stops the commit (R95, R278). -/
def State.entry (s : State) (t : TRef) (q : QItem) : Entry :=
  match q with
  | .store pa data bypass => s.entryStore t pa data bypass
  | .spad core off data => if s.spadLocked core off data.length || s.onBoard core off data.length then .waits s else .applied (s.setSpad core off data)
  | .op id slot at_ =>
    match s.op? id, at_ with
    | none, _ => .applied s
    | some o, none => s.entryOp t slot o
    | some o, some (va, n) =>
      match s.access t va n true false [va.toNat] with
      | .wait => .waits s
      | .fault k a s => .faulted (s.entryTrap t slot k a true)
      | .nonres a => .faulted (s.entryTrap t slot causePage a true)
      | .ok rs s1 =>
        match rs with
        | [r] => if paDevice r.pa then (s1.setKind id (o.kind.movedTo r)).entryOp t slot { o with kind := o.kind.movedTo r }
                 else .faulted (s.entryTrap t slot causeProtection va true)
        | _ => .faulted (s.entryTrap t slot causeProtection va true)

/-- Host pages that an entry still needs a translation for (R448). -/
def State.entryAsks (s : State) (q : QItem) : State :=
  match q with
  | .store pa _ _ => s.askAts pa
  | .spad _ _ _ => s
  | .op id _ _ => match s.op? id with
    | some o => o.kind.places.foldl (fun s a => s.askAts a) s
    | none => s

/-! The order of a commit (R92). -/

/-- A launch's threads by group index, then thread index. -/
def State.commitOrder (s : State) (l : Nat) : List TRef :=
  ((sortOn (fun (G : Group) => G.index) (s.launchGroups l)).map fun G =>
    (sortOn (fun (x : Thread) => x.tid) G.threads).map fun x => TRef.thr G.id x.tid).flatten

def State.commitNext (s : State) (l : Nat) : Option (TRef × QItem) :=
  (s.commitOrder l).findSome? fun t => (s.thread t).quantum.head?.map fun q => (t, q)

/-- A halted group stops the commits of its whole launch (R95). -/
def State.commitHeld (s : State) (l : Nat) : Bool := (s.launchGroups l).any fun G => G.halt.isSome

/-- Whether the next entry may be applied: what the entries before it have started has completed, so that it comes after
them in the order of R92.  Collective steps that follow one another may go on together, since each may need the next, and so
may page requests, which share their records (R324).  DEDUCED, log entry 143. -/
def State.entryTurn (s : State) (l : Nat) (q : QItem) : Bool :=
  let step := match q with
    | .op id _ _ => match (s.op? id).map fun (o : Op) => o.kind with
      | some (.cgo _) => true
      | _ => false
    | _ => false
  let runs := fun (o : Op) => match o.kind with
    | .rcall _ _ _ | .bgload _ _ | .mret _ => !s.deferred o
    | _ => false
  s.postsDone l step && (s.launchGroups l).all fun G => s.ops.all fun o => o.thr.group != some G.id || !runs o

/-- Entries applied in order as far as they go; whether anything was done. -/
def State.commitRun (l : Nat) : Nat → State → Bool → State × Bool
  | 0, s, moved => (s, moved)
  | n + 1, s, moved =>
    if s.commitHeld l then (s, moved)
    else match s.commitNext l with
      | none => (s, moved)
      | some (t, q) =>
        if !s.entryTurn l q then (s, moved)
        else match s.entry t q with
        | .moved s1 => (s1, true)
        | .applied s1 => State.commitRun l n (s1.updThread t fun x => { x with quantum := x.quantum.drop 1 }) true
        | .faulted s1 => (s1, true)
        | .waits s' =>
          let s1 := ({ s with boot := s'.boot } : State).entryAsks q
          (s1, moved || s1.boot.atsWait.length != s.boot.atsWait.length)

def State.commitFuel (s : State) (l : Nat) : Nat := ((s.commitOrder l).map fun t => (s.thread t).quantum.length).foldl (· + ·) 1

/-- A thread that has ended its quantum (R90, R132). -/
def Thread.quantumOver (x : Thread) (n : Nat) : Bool := x.exited || x.qended || x.park == .rejoin || n ≤ x.qcount

/-- Whether every thread of a launch that has not exited has ended its quantum: all its groups are placed, and none is
saved in an image (R92).  DEDUCED, log entry 34. -/
def State.commitDue (s : State) (l : Nat) : Bool :=
  match s.launch? l with
  | none => false
  | some L => L.rc.quant && !L.committing && L.outcome.isNone && L.count = 0 && L.total ≤ L.upto && !(s.launchGroups l).isEmpty &&
      (s.cp.images.all fun i => i.2 != l) && !s.commitHeld l &&
      (s.launchGroups l).all fun G => G.threads.all fun x => x.quantumOver L.rc.quantumLen

/-- Commit k begins and applies its entries; it goes on where an entry had to wait or a group was halted (R92, R95). -/
def execQuantumCommitStart (l : Nat) (s : State) : Host.Outcome State Fault Refusal :=
  if s.commitDue l then
    let s1 := s.updLaunch l fun L => { L with committing := true }
    let cores := (((s.launchGroups l).map fun G => G.waves.map (·.core)).flatten).eraseDups
    let s2 := cores.foldl (fun s c => s.l1Clear c) s1
    .next (State.commitRun l (s2.commitFuel l) s2 false).1
  else if ((s.launch? l).map fun L => L.committing && L.outcome.isNone).getD false && (s.commitNext l).isSome then
    let r := State.commitRun l (s.commitFuel l) s false
    if r.2 then .next r.1 else .next s
  else .next s

/-! After the last entry (R92, R93, R132). -/

/-- The waiting instructions of R90. -/
def execWaiting (i : Instr) (s : State) : Option State :=
  match i with
  | .barrWait c d a b off => some (outState s (execBarrWait c d a b off s))
  | .mwait c ty acq sc d a b off => some (outState s (execMwait c ty acq sc d a b off s))
  | .qpush c once d a b off => some (outState s (execQpush c once d a b off s))
  | .qpop c once d a b off => some (outState s (execQpop c once d a b off s))
  | .jwait c d a off => some (outState s (execJwait c d a off s))
  | .cntw c d a b off => some (outState s (execCntw c d a b off s))
  | .cwait c d a => some (outState s (execCwait c d a s))
  | .rwait c d => some (outState s (execRwait c d s))
  | .bgwait c d a off => some (outState s (execBgwait c d a off s))
  | .cpoll c d a off => some (outState s (execCpoll c d a off s))
  | _ => none

/-- A thread at a waiting instruction looks once at the committed state (R93): it goes on, or ends its next quantum
with nothing to commit.  DEDUCED, log entry 31. -/
def State.lookAgain (s : State) (t : TRef) : State :=
  let x := s.thread t
  if x.exited || x.stopped || x.park != .no || x.slot = 0 || s.breaksAt t then s
  else match s.standing t with
  | none => s
  | some (h, w) =>
    match decode w with
    | none => s
    | some i =>
      let s0 := s.updThread t fun x => { x with qwait := x.qwait + 1 }
      match execWaiting i (s0.asGang (s.ctx t).core ((s.waveOf t).slot / 8) h [t]) with
      | none => s
      | some s1 =>
        let y := s1.thread t
        if y.pc == x.pc && y.slot == x.slot && y.rep == x.rep && !y.stopped then
          s0.updThread t fun x => { x with qended := true, qcount := 0 }
        else s1.updThread t fun x => { x with qwait := 0 }

/-- Whether everything a quantum has deferred has completed (R92). -/
def State.commitDrained (s : State) (l : Nat) : Bool :=
  let gs := s.launchGroups l
  (s.commitNext l).isNone && !s.commitHeld l && s.postsDone l false &&
    s.ops.all fun o => !(gs.any fun G => o.thr.group == some G.id) || (match o.kind with | .qsync _ => true | _ => false)

/-- The uniform registers after a commit: of one register's writes in the quantum the latest thread's last one stands
(R35, R92, R94).  DEDUCED, log entry 131. -/
def Group.kCommit (G : Group) : Group :=
  let last := fun (n : Nat) (cur : W32) =>
    let es := kNews cur (G.kOld.filter fun k => k.reg == n)
    let top := es.foldl (fun m e => Nat.max m e.1.writer) 0
    ((es.find? fun e => e.1.writer == top).map (·.2)).getD cur
  { G with k := G.k.zipIdx.map fun x => last x.2 x.1, kOld := [] }

/-- The next quantum opens: counts start again, `qsync` returns, releases and complete sets are decided, waiting
instructions look once at the committed state, and a pre-emption of the partition halts the groups (R92, R93, R95, R132). -/
def State.openQuantum (s : State) (l : Nat) : State :=
  let gs := s.launchGroups l
  let mine := fun (o : Op) => gs.any fun G => o.thr.group == some G.id
  let fresh := fun (x : Thread) => { x with qcount := 0, qended := false, gset := none }
  let s1 := (s.updLaunch l fun L => { L with quantum := L.quantum + 1 })
  let s2 := gs.foldl (fun (s : State) (G : Group) => s.updGroup G.id fun G => { G.kCommit with threads := G.threads.map fresh }) s1
  let s3 : State := { s2 with ops := s2.ops.map fun o => match o.kind with
    | .qsync _ => if mine o then { o with kind := .result [] } else o
    | _ => o }
  let s4 := gs.foldl (fun (s : State) (G : Group) => G.waves.foldl (fun s w => State.tokenEnd 32 s G.id w.idx) s) s3
  let order := s4.commitOrder l
  let s5 := s4.openSets order
  let s6 := order.foldl (fun s t => s.lookAgain t) s5
  let s7 := s6.updLaunch l fun L => { L with committing := false }
  gs.foldl (fun (s : State) (G : Group) => if (s.partAt G.part).preempt == Preempt.halting then s.haltGroup G.id .preempt 0 else s) s7

/-- DEDUCED, log entry 110. -/
def execQuantumCommitComplete (l : Nat) (s : State) : Host.Outcome State Fault Refusal :=
  match s.launch? l with
  | none => .next s
  | some L =>
    if !L.committing || L.outcome.isSome || !s.commitDrained l then .next s
    else .next (s.openQuantum l)

end Sys2Proof.Machine
end

