-- ==== Sys2Proof/Machine/Complete.lean ====
section
/-! DEFINITION. What becomes of work in flight on its own: long-latency results and completions (R36, R39), queued
stores on their way (R81), and the ends of waits and sleeps (R190, R197, R431). -/

set_option linter.unusedVariables false

namespace Sys2Proof.Machine

/-! Long-latency results (R36, R39). -/

/-- A thread that its operation has kept at its instruction goes on to the next slot; none where that slot traps (R27). -/
def State.goOn (s : State) (t : TRef) : Adv :=
  match s.fetch t (s.thread t).pc with
  | .wait => .wait
  | .fault c a => .bad c a
  | .word h s1 => (s1.asGang (s.ctx t).core 0 (headerOf h) [t]).advance t

/-- An acquire has been performed.  Where what it read comes from a party of its scope, the loads that ran ahead of it read
again; those that no longer stand under another may finish (R77, R83, R84).  DEDUCED, log entry 129. -/
def State.reread (s : State) (o : Op) : State :=
  let f := fun (x : Op) => match x.under.find? fun a => a.1 == o.id with
    | none => x
    | some a =>
      let x := { x with under := x.under.filter fun b => b.1 != o.id }
      match x.kind with
      | .load l1 parts fin extra =>
        if o.from_.any fun u => s.covers o.thr a.2 u then
          { x with kind := .load l1 (parts.map fun p => match p.at_ with | .mem _ => { p with got := none } | _ => p) fin extra }
        else x
      | _ => x
  { s with ops := s.ops.map f }

/-- The results land, the completion is observed (R87), an acquire takes effect, the L1 loses its lines once more where an
acquire of a wide scope stands on the operation (R82, R85), and the flag falls (R39). -/
def State.landOp (s : State) (o : Op) (ws : List Wr) (acq : Bool) : State :=
  let s1 := (s.landAll o.thr o.clob ws).seeDone o.thr fun e => o.sees.contains e.tag
  let s2 := match o.acq, acq with
    | some sc, true => s1.acquireNow o.thr sc
    | _, _ => s1
  let s2 := if (s.thread o.thr).acq.any fun a => a.1 == o.id && !scopeNarrow a.2 then s2.l1Clear o.core else s2
  ((s2.reread o).flagDown o.thr o.flag).dropOp o.id

/-- An operation ends with its results.  Where it has kept its thread at the instruction, the thread goes on; if its next
slot traps, the operation has done nothing. -/
def State.finish (s : State) (o : Op) (ws : List Wr) (acq : Bool) : State :=
  if (s.thread o.thr).wait != some o.id then s.landOp o ws acq
  else
    let s0 := s.updThread o.thr fun x => { x with wait := none }
    match s0.goOn o.thr with
    | .wait => s
    | .bad c va => (((s0.flagDown o.thr o.flag).dropOp o.id).trap o.thr c va false 0)
    | .ok s1 =>
      let s2 := s1.landOp o ws acq
      match o.thr with
      | .thr g _ => if (s2.ctx o.thr).quant then s2 else State.tokenEnd 32 s2 g (s2.thread o.thr).wave
      | .callee _ => s2

/-- A gather that has read its elements: `%prog` of a thread it has kept reads 0 as the flag falls (R180). -/
def State.finishElems (s : State) (o : Op) (ws : List Wr) : State :=
  if (s.thread o.thr).wait != some o.id then s.landOp o ws true
  else (s.updThread o.thr fun x => { x with prog := 0 }).finish o ws true

/-- One part of a load read, after the parts of the thread's earlier loads of its word and those of the lanes before it in
the gang (R80, R172). -/
def State.loadStep (s : State) (o : Op) (parts : List Part) : Option State :=
  let older := s.ops.filter fun x => (x.thr == o.thr || x.run == o.run) && x.id < o.id
  let meets : Part → Op → List (Part × Nat) := fun p x => match x.kind with
    | .load _ ps _ _ => ps.zipIdx.filter fun q => q.1.got.isNone && partOverlaps q.1 p.at_ p.len
    | _ => []
  let ready := fun (p : Part) => p.got.isNone && s.placeReady o.thr p && older.all fun x => (meets p x).all fun q => s.placeReady x.thr q.1
  (s.pick [0x410, o.id] ((parts.zipIdx.filter fun p => ready p.1).map (·.2))).map fun i =>
    let p := parts.getD i ⟨.nowhere, 0, false, none, none⟩
    (older.foldl (fun s x => (meets p x).foldl (fun s q => s.readPart x.id q.2) s) s).readPart o.id i

/-- The copies whose landings a barrier's completion tells of (R87). -/
def State.barrSees (s : State) (o : Op) : Op :=
  match o.kind with
  | .barrWait core off _ _ _ _ => { o with sees := o.sees ++ (s.reqs.filter fun r => r.bar == some (core, off)).map (·.id) }
  | _ => o

/-- The words a committed row holds after a write of some of them (R220). -/
def rowPut (row : List W32) (first : Nat) (ws : List W32) : List W32 :=
  (List.range 16).map fun i => if first ≤ i && i < first + ws.length then ws.getD (i - first) 0 else row.getD i 0

/-- What an operation does next of its own accord: another part of its work, or its end; none where it has to wait. -/
def State.complete (s : State) (o : Op) : Option State :=
  match o.kind with
  | .result ws => some (s.finish o ws true)
  | .load _ parts fin extra =>
    if (parts.all fun p => p.got.isSome) && s.opsOpen o.under then none
    else if parts.all fun p => p.got.isSome then
      let bytes := (parts.map fun p => p.got.getD []).flatten
      match fin with
      | .elems _ _ _ => some (s.finishElems o (finWrites fin bytes ++ extra))
      | _ => some (s.finish o (finWrites fin bytes ++ extra) true)
    else s.loadStep o parts
  | .mwait _ ty _ dst _ (some x) => some (s.finish o (atomDst ty dst x) true)
  | .cntw _ _ dst _ (some x) => some (s.finish o (atomDst .b64 dst x) true)
  | .jwait _ dst _ (some x) => some (s.finish o (atomDst .b64 dst x) true)
  | .bgwait _ dst _ (some x) => some (s.finish o (atomDst .b64 dst x) true)
  | .barrWait _ _ _ _ dst (some hit) => some (s.finish (if hit then s.barrSees o else o) [.p dst hit] hit)
  | .accRead core row first dst count =>
    if s.rowOpOk o then
      some (s.finish o ((List.range count).map fun i => Wr.v (dst + i) ((s.accRow core row).getD (first + i) 0)) true)
    else none
  | .accWrite core row first ws =>
    if s.rowOpOk o then some ((s.setAccRow core row (rowPut (s.accRow core row) first ws)).finish o [] true) else none
  | .mld runs _ _ _ _ =>
    if runs.isEmpty then some (s.mldEnd o)
    else if runs.any fun p => s.mldReady o p then some (s.mldStep o false) else none
  | .mret pieces =>
    if pieces.isEmpty then
      if s.mem.wq.any fun e => e.tag == o.id && paHome e.pa != 15 then none
      else some (s.finish { o with sees := o.id :: o.sees } [] true)
    else if pieces.any fun p => s.mretReady o p then some (s.mretStep o false) else none
  | .bfence _ _ => s.fenceStep o
  | .inval frames => if s.invalDone o frames then some (s.finish o [] true) else none
  | .rwait dst => if s.callsOpen o.thr o.id then none else some (s.finish o [.v dst (s.thread o.thr).rcstat] true)
  | .cwait plan dst =>
    let l := (s.launchOf o.thr).id
    if s.collOver l plan then some (s.finish o [.v dst (collWord (s.collStatus l plan) plan)] true) else none
  | _ => none

def execLongLatencyCompletion (op : Nat) (s : State) : Host.Outcome State Fault Refusal :=
  match s.op? op with
  | none => .next s
  | some o =>
    if s.deferred o then .next s
    else match s.complete o with
      | some s' => .next s'
      | none => .next s

/-! Queued stores (R76, R81). -/

/-- A queued write reaches its point of visibility (R81). -/
def execStoreReachesVisibility (entry : Nat) (s : State) : Host.Outcome State Fault Refusal :=
  match s.mem.wq.find? fun e => e.id == entry with
  | none => .next s
  | some e =>
    if !State.canForce s.forceFuel s .all entry then .next s
    else .next (State.force s.forceFuel .all s entry)

/-! Ends of waits. -/

/-- The cycles of a `barr.wait` have passed (R197). -/
def execBarrWaitLimit (op : Nat) (s : State) : Host.Outcome State Fault Refusal :=
  match s.op? op with
  | none => .next s
  | some o =>
    match o.kind with
    | .barrWait core off seen (some lim) dst none =>
      if lim ≤ s.clk then .next (s.setKind op (.barrWait core off seen (some lim) dst (some false)))
      else .next s
    | _ => .next s

/-- A wait not yet armed is compared at its slice (R189, R190). -/
def execMwaitRecompare (op : Nat) (s : State) : Host.Outcome State Fault Refusal :=
  let s' := s.compareArm op
  if (s'.op? op).map (·.kind) == (s.op? op).map (·.kind) then .next s else .next s'

def execSleepExpiry (grp tid : Nat) (s : State) : Host.Outcome State Fault Refusal :=
  match (s.thread (.thr grp tid)).sleep with
  | some n =>
    if n ≤ s.clk then .next (s.updThread (.thr grp tid) fun x => { x with sleep := none })
    else .next s
  | none => .next s

end Sys2Proof.Machine
end

