-- ==== Sys2Proof/Machine/Dispatch.lean ====
section
/-! DEFINITION. One arm per constructor of Instr, each one direct call of its meaning. -/

namespace Sys2Proof.Machine

def exec (i : Instr) (s : State) : Host.Outcome State Fault Refusal :=
  match i with
  | .nop c => Sys2Proof.Machine.execNop c s
  | .bra c u n disp => Sys2Proof.Machine.execBra c u n disp s
  | .brx c u n a => Sys2Proof.Machine.execBrx c u n a s
  | .call c u d disp => Sys2Proof.Machine.execCall c u d disp s
  | .callx c u d a => Sys2Proof.Machine.execCallx c u d a s
  | .ret c u n a => Sys2Proof.Machine.execRet c u n a s
  | .exit c => Sys2Proof.Machine.execExit c s
  | .tokOpen c disp => Sys2Proof.Machine.execTokOpen c disp s
  | .tokLeave c n => Sys2Proof.Machine.execTokLeave c n s
  | .rpt c a disp => Sys2Proof.Machine.execRpt c a disp s
  | .yield c => Sys2Proof.Machine.execYield c s
  | .brk c => Sys2Proof.Machine.execBrk c s
  | .trap c code => Sys2Proof.Machine.execTrap c code s
  | .setp c ty cmp mrg d a b e => Sys2Proof.Machine.execSetp c ty cmp mrg d a b e s
  | .fsetp c ty cmp mrg d a b e => Sys2Proof.Machine.execFsetp c ty cmp mrg d a b e s
  | .pbool c op d a b => Sys2Proof.Machine.execPbool c op d a b s
  | .pmovSave c d => Sys2Proof.Machine.execPmovSave c d s
  | .pmovLoad c a mask => Sys2Proof.Machine.execPmovLoad c a mask s
  | .getsr c ty w d sr => Sys2Proof.Machine.execGetsr c ty w d sr s
  | .setsr c ty w sr a => Sys2Proof.Machine.execSetsr c ty w sr a s
  | .mov c ty one d a => Sys2Proof.Machine.execMov c ty one d a s
  | .movi c ty one d x => Sys2Proof.Machine.execMovi c ty one d x s
  | .add c ty sat d a b => Sys2Proof.Machine.execAdd c ty sat d a b s
  | .sub c ty sat d a b => Sys2Proof.Machine.execSub c ty sat d a b s
  | .mul c ty sat d a b => Sys2Proof.Machine.execMul c ty sat d a b s
  | .mulhi c ty d a b => Sys2Proof.Machine.execMulhi c ty d a b s
  | .mad c ty sat d a b e => Sys2Proof.Machine.execMad c ty sat d a b e s
  | .addc c ci co d a b => Sys2Proof.Machine.execAddc c ci co d a b s
  | .subb c ci co d a b => Sys2Proof.Machine.execSubb c ci co d a b s
  | .abs c ty sat d a => Sys2Proof.Machine.execAbs c ty sat d a s
  | .min c ty d a b => Sys2Proof.Machine.execMin c ty d a b s
  | .max c ty d a b => Sys2Proof.Machine.execMax c ty d a b s
  | .and c ty d a b => Sys2Proof.Machine.execAnd c ty d a b s
  | .or c ty d a b => Sys2Proof.Machine.execOr c ty d a b s
  | .xor c ty d a b => Sys2Proof.Machine.execXor c ty d a b s
  | .not c ty d a => Sys2Proof.Machine.execNot c ty d a s
  | .shl c ty d a b => Sys2Proof.Machine.execShl c ty d a b s
  | .shr c ty d a b => Sys2Proof.Machine.execShr c ty d a b s
  | .sra c ty d a b => Sys2Proof.Machine.execSra c ty d a b s
  | .rot c ty d a b => Sys2Proof.Machine.execRot c ty d a b s
  | .bfe c ty d a b => Sys2Proof.Machine.execBfe c ty d a b s
  | .bfi c d a b e => Sys2Proof.Machine.execBfi c d a b e s
  | .popc c ty d a => Sys2Proof.Machine.execPopc c ty d a s
  | .clz c ty d a => Sys2Proof.Machine.execClz c ty d a s
  | .brev c ty d a => Sys2Proof.Machine.execBrev c ty d a s
  | .prmt c d a b e => Sys2Proof.Machine.execPrmt c d a b e s
  | .sel c ty d a b e => Sys2Proof.Machine.execSel c ty d a b e s
  | .lea c ty sh d a b => Sys2Proof.Machine.execLea c ty sh d a b s
  | .dp4 c ty sat xb d a b e => Sys2Proof.Machine.execDp4 c ty sat xb d a b e s
  | .mix32 c d a b => Sys2Proof.Machine.execMix32 c d a b s
  | .fadd c ty rnd d a b => Sys2Proof.Machine.execFadd c ty rnd d a b s
  | .fsub c ty rnd d a b => Sys2Proof.Machine.execFsub c ty rnd d a b s
  | .fmul c ty rnd d a b => Sys2Proof.Machine.execFmul c ty rnd d a b s
  | .ffma c ty rnd d a b e => Sys2Proof.Machine.execFfma c ty rnd d a b e s
  | .fmin c ty d a b => Sys2Proof.Machine.execFmin c ty d a b s
  | .fmax c ty d a b => Sys2Proof.Machine.execFmax c ty d a b s
  | .fclamp c ty d a b e => Sys2Proof.Machine.execFclamp c ty d a b e s
  | .frnd c ty rnd d a => Sys2Proof.Machine.execFrnd c ty rnd d a s
  | .fclass c ty d a => Sys2Proof.Machine.execFclass c ty d a s
  | .lg2 c d a => Sys2Proof.Machine.execLg2 c d a s
  | .ex2 c d a => Sys2Proof.Machine.execEx2 c d a s
  | .rcp c d a => Sys2Proof.Machine.execRcp c d a s
  | .rsq c d a => Sys2Proof.Machine.execRsq c d a s
  | .sqrt c d a => Sys2Proof.Machine.execSqrt c d a s
  | .hadd2 c d a b => Sys2Proof.Machine.execHadd2 c d a b s
  | .hmul2 c d a b => Sys2Proof.Machine.execHmul2 c d a b s
  | .hfma2 c d a b e => Sys2Proof.Machine.execHfma2 c d a b e s
  | .hmax2 c d a b => Sys2Proof.Machine.execHmax2 c d a b s
  | .cvt c dty rnd sat sty f19 d a b => Sys2Proof.Machine.execCvt c dty rnd sat sty f19 d a b s
  | .pack c rnd sat fmt hi d a b e => Sys2Proof.Machine.execPack c rnd sat fmt hi d a b e s
  | .unpk c ty fmt el d a => Sys2Proof.Machine.execUnpk c ty fmt el d a s
  | .qswap c ty pat d a => Sys2Proof.Machine.execQswap c ty pat d a s
  | .qbcast c ty pos d a => Sys2Proof.Machine.execQbcast c ty pos d a s
  | .shfl c ty mode seg koff d a b e => Sys2Proof.Machine.execShfl c ty mode seg koff d a b e s
  | .vote c mode d a b => Sys2Proof.Machine.execVote c mode d a b s
  | .matchv c ty d a b => Sys2Proof.Machine.execMatchv c ty d a b s
  | .wred c ty rnd op d a b => Sys2Proof.Machine.execWred c ty rnd op d a b s
  | .wmaxi c ty d a b e => Sys2Proof.Machine.execWmaxi c ty d a b e s
  | .wscan c ty rnd op excl d a b => Sys2Proof.Machine.execWscan c ty rnd op excl d a b s
  | .elect c d a => Sys2Proof.Machine.execElect c d a s
  | .ld c ty acq scope fresh nf vec d a b off => Sys2Proof.Machine.execLd c ty acq scope fresh nf vec d a b off s
  | .st c ty rel scope vec a b off => Sys2Proof.Machine.execSt c ty rel scope vec a b off s
  | .lds c ty vec d a off => Sys2Proof.Machine.execLds c ty vec d a off s
  | .sts c ty vec a b off => Sys2Proof.Machine.execSts c ty vec a b off s
  | .ldk c ty one sp vec d a off => Sys2Proof.Machine.execLdk c ty one sp vec d a off s
  | .gather c ty fresh bs cnt d a b off => Sys2Proof.Machine.execGather c ty fresh bs cnt d a b off s
  | .ldblk c sp fresh cnt d a off => Sys2Proof.Machine.execLdblk c sp fresh cnt d a off s
  | .prefetch c l1 a off => Sys2Proof.Machine.execPrefetch c l1 a off s
  | .discard c line a off => Sys2Proof.Machine.execDiscard c line a off s
  | .l1inv c => Sys2Proof.Machine.execL1inv c s
  | .fence c kind scope => Sys2Proof.Machine.execFence c kind scope s
  | .xfence c p q scope => Sys2Proof.Machine.execXfence c p q scope s
  | .satom c ty op d a b e off => Sys2Proof.Machine.execSatom c ty op d a b e off s
  | .mwait c ty acq scope d a b off => Sys2Proof.Machine.execMwait c ty acq scope d a b off s
  | .qinit c a b off => Sys2Proof.Machine.execQinit c a b off s
  | .qpush c once d a b off => Sys2Proof.Machine.execQpush c once d a b off s
  | .qpop c once d a b off => Sys2Proof.Machine.execQpop c once d a b off s
  | .barrInit c a b off => Sys2Proof.Machine.execBarrInit c a b off s
  | .barrArrive c chk a b off => Sys2Proof.Machine.execBarrArrive c chk a b off s
  | .barrExpect c a b off => Sys2Proof.Machine.execBarrExpect c a b off s
  | .barrWait c d a b off => Sys2Proof.Machine.execBarrWait c d a b off s
  | .barrQuery c d a off => Sys2Proof.Machine.execBarrQuery c d a off s
  | .atom c ty op order scope d a b e off => Sys2Proof.Machine.execAtom c ty op order scope d a b e off s
  | .red c ty op order scope a b off => Sys2Proof.Machine.execRed c ty op order scope a b off s
  | .acall c routine args res d a b off => Sys2Proof.Machine.execAcall c routine args res d a b off s
  | .mma c d a b e => Sys2Proof.Machine.execMma c d a b e s
  | .mmp c d a b e => Sys2Proof.Machine.execMmp c d a b e s
  | .mld c form d a b e => Sys2Proof.Machine.execMld c form d a b e s
  | .aalloc c pair d a => Sys2Proof.Machine.execAalloc c pair d a s
  | .awin c a b e => Sys2Proof.Machine.execAwin c a b e s
  | .afree c a => Sys2Proof.Machine.execAfree c a s
  | .azero c rows d => Sys2Proof.Machine.execAzero c rows d s
  | .ald c first cnt d a => Sys2Proof.Machine.execAld c first cnt d a s
  | .ast c first cnt d a => Sys2Proof.Machine.execAst c first cnt d a s
  | .mret c rows sp a b e => Sys2Proof.Machine.execMret c rows sp a b e s
  | .mretRoute c rows route a b e => Sys2Proof.Machine.execMretRoute c rows route a b e s
  | .epcfg c a b e => Sys2Proof.Machine.execEpcfg c a b e s
  | .ckick c a off => Sys2Proof.Machine.execCkick c a off s
  | .cpoll c d a off => Sys2Proof.Machine.execCpoll c d a off s
  | .cntw c d a b off => Sys2Proof.Machine.execCntw c d a b off s
  | .cnta c a b off => Sys2Proof.Machine.execCnta c a b off s
  | .trec c a b => Sys2Proof.Machine.execTrec c a b s
  | .bgload c d a off => Sys2Proof.Machine.execBgload c d a off s
  | .bgx c a off => Sys2Proof.Machine.execBgx c a off s
  | .bfence c a => Sys2Proof.Machine.execBfence c a s
  | .bgwait c d a off => Sys2Proof.Machine.execBgwait c d a off s
  | .bgstatEng c d a => Sys2Proof.Machine.execBgstatEng c d a s
  | .bgstatRmap c d a => Sys2Proof.Machine.execBgstatRmap c d a s
  | .pgreq c w d a off => Sys2Proof.Machine.execPgreq c w d a off s
  | .pgmig c d a b => Sys2Proof.Machine.execPgmig c d a b s
  | .tlbinvPage c a b => Sys2Proof.Machine.execTlbinvPage c a b s
  | .tlbinvAll c => Sys2Proof.Machine.execTlbinvAll c s
  | .pocinvPage c a b => Sys2Proof.Machine.execPocinvPage c a b s
  | .pocinvAll c => Sys2Proof.Machine.execPocinvAll c s
  | .rcall c l2 again cnt m d a b e => Sys2Proof.Machine.execRcall c l2 again cnt m d a b e s
  | .rwait c d => Sys2Proof.Machine.execRwait c d s
  | .rret c => Sys2Proof.Machine.execRret c s
  | .rstat c l2 d a => Sys2Proof.Machine.execRstat c l2 d a s
  | .cplan c d a off => Sys2Proof.Machine.execCplan c d a off s
  | .cgo c a => Sys2Proof.Machine.execCgo c a s
  | .cwait c d a => Sys2Proof.Machine.execCwait c d a s
  | .netslot c d a off => Sys2Proof.Machine.execNetslot c d a off s
  | .netslotOff c d => Sys2Proof.Machine.execNetslotOff c d s
  | .spawn c q a => Sys2Proof.Machine.execSpawn c q a s
  | .jwait c d a off => Sys2Proof.Machine.execJwait c d a off s
  | .rfe c => Sys2Proof.Machine.execRfe c s
  | .halt c code => Sys2Proof.Machine.execHalt c code s
  | .sleep c a => Sys2Proof.Machine.execSleep c a s
  | .dlset c a => Sys2Proof.Machine.execDlset c a s
  | .qend c => Sys2Proof.Machine.execQend c s
  | .qsync c => Sys2Proof.Machine.execQsync c s
  | .pwrq c d => Sys2Proof.Machine.execPwrq c d s
  | .crd c ty d a => Sys2Proof.Machine.execCrd c ty d a s
  | .cwr c ty a b => Sys2Proof.Machine.execCwr c ty a b s
  | .bgEnd => Sys2Proof.Machine.execBgEnd s
  | .bgOpen bm x imm => Sys2Proof.Machine.execBgOpen bm x imm s
  | .bgClose bm => Sys2Proof.Machine.execBgClose bm s
  | .bgRd bm x imm => Sys2Proof.Machine.execBgRd bm x imm s
  | .bgMac bm as f => Sys2Proof.Machine.execBgMac bm as f s
  | .bgRmac bm x as f imm => Sys2Proof.Machine.execBgRmac bm x as f imm s
  | .bgAdd bm as => Sys2Proof.Machine.execBgAdd bm as s
  | .bgMax bm as => Sys2Proof.Machine.execBgMax bm as s
  | .bgScale bm as imm => Sys2Proof.Machine.execBgScale bm as imm s
  | .bgScaleScl x imm => Sys2Proof.Machine.execBgScaleScl x imm s
  | .bgWr bm x as f imm => Sys2Proof.Machine.execBgWr bm x as f imm s
  | .bgZero bm as => Sys2Proof.Machine.execBgZero bm as s
  | .bgLdx x imm => Sys2Proof.Machine.execBgLdx x imm s
  | .bgAddx x imm => Sys2Proof.Machine.execBgAddx x imm s
  | .bgLoop x imm => Sys2Proof.Machine.execBgLoop x imm s
  | .bgNext => Sys2Proof.Machine.execBgNext s
  | .bgBnz x t => Sys2Proof.Machine.execBgBnz x t s
  | .bgVld bm x imm => Sys2Proof.Machine.execBgVld bm x imm s
  | .bgSync => Sys2Proof.Machine.execBgSync s
  | .bgBtl d src o => Sys2Proof.Machine.execBgBtl d src o s
  | .bgAttn x as imm => Sys2Proof.Machine.execBgAttn x as imm s
  | .bgEmit x as f imm => Sys2Proof.Machine.execBgEmit x as f imm s
  | .bgIdx d src o => Sys2Proof.Machine.execBgIdx d src o s
  | .bgNopc => Sys2Proof.Machine.execBgNopc s
  | .unassignedOpcode w => Sys2Proof.Machine.execUnassignedOpcode w s
  | .unassignedCommandCode w => Sys2Proof.Machine.execUnassignedCommandCode w s
  | .longLatencyCompletion op => Sys2Proof.Machine.execLongLatencyCompletion op s
  | .storeReachesVisibility entry => Sys2Proof.Machine.execStoreReachesVisibility entry s
  | .matrixOpCommit op => Sys2Proof.Machine.execMatrixOpCommit op s
  | .requestEngineFetch core => Sys2Proof.Machine.execRequestEngineFetch core s
  | .linearCopy req => Sys2Proof.Machine.execLinearCopy req s
  | .tensorCopy req => Sys2Proof.Machine.execTensorCopy req s
  | .gatherRequest req => Sys2Proof.Machine.execGatherRequest req s
  | .scatterAdd req => Sys2Proof.Machine.execScatterAdd req s
  | .layoutTransform req => Sys2Proof.Machine.execLayoutTransform req s
  | .fill req => Sys2Proof.Machine.execFill req s
  | .remoteRead req => Sys2Proof.Machine.execRemoteRead req s
  | .remoteWrite req => Sys2Proof.Machine.execRemoteWrite req s
  | .remoteReduce req => Sys2Proof.Machine.execRemoteReduce req s
  | .collectiveStep inst => Sys2Proof.Machine.execCollectiveStep inst s
  | .barrierSignal req => Sys2Proof.Machine.execBarrierSignal req s
  | .copyLanding req piece => Sys2Proof.Machine.execCopyLanding req piece s
  | .counterIncrease id => Sys2Proof.Machine.execCounterIncrease id s
  | .copyRetire req => Sys2Proof.Machine.execCopyRetire req s
  | .atOperation op => Sys2Proof.Machine.execAtOperation op s
  | .acallRoutine op => Sys2Proof.Machine.execAcallRoutine op s
  | .bankQueueTake q => Sys2Proof.Machine.execBankQueueTake q s
  | .bankLaunchAdmission l => Sys2Proof.Machine.execBankLaunchAdmission l s
  | .storeLoadDispatch l => Sys2Proof.Machine.execStoreLoadDispatch l s
  | .bankReexecution l inst => Sys2Proof.Machine.execBankReexecution l inst s
  | .attentionMerge l => Sys2Proof.Machine.execAttentionMerge l s
  | .bankCompletion l => Sys2Proof.Machine.execBankCompletion l s
  | .coreAccessArrives sector => Sys2Proof.Machine.execCoreAccessArrives sector s
  | .migrationStart m => Sys2Proof.Machine.execMigrationStart m s
  | .migrationPassEnd m => Sys2Proof.Machine.execMigrationPassEnd m s
  | .migrationSwitch m => Sys2Proof.Machine.execMigrationSwitch m s
  | .stubForward op => Sys2Proof.Machine.execStubForward op s
  | .redirect id => Sys2Proof.Machine.execRedirect id s
  | .chase op => Sys2Proof.Machine.execChase op s
  | .stubReclaimQuery stub die => Sys2Proof.Machine.execStubReclaimQuery stub die s
  | .stubReclaimReply stub => Sys2Proof.Machine.execStubReclaimReply stub s
  | .rcallArrival call => Sys2Proof.Machine.execRcallArrival call s
  | .calleeStart call => Sys2Proof.Machine.execCalleeStart call s
  | .rcallReply call => Sys2Proof.Machine.execRcallReply call s
  | .rcallTimeout call => Sys2Proof.Machine.execRcallTimeout call s
  | .dedupEntryExpiry entry => Sys2Proof.Machine.execDedupEntryExpiry entry s
  | .fabricTransferTimeout xfer => Sys2Proof.Machine.execFabricTransferTimeout xfer s
  | .rateTableRecovery rank => Sys2Proof.Machine.execRateTableRecovery rank s
  | .reductionLanding id => Sys2Proof.Machine.execReductionLanding id s
  | .collectiveInstanceComplete inst => Sys2Proof.Machine.execCollectiveInstanceComplete inst s
  | .networkFrameBoundary => Sys2Proof.Machine.execNetworkFrameBoundary s
  | .launchRecordCheck q => Sys2Proof.Machine.execLaunchRecordCheck q s
  | .groupRange q => Sys2Proof.Machine.execGroupRange q s
  | .resumptionRecord q => Sys2Proof.Machine.execResumptionRecord q s
  | .copyQueueRequest q => Sys2Proof.Machine.execCopyQueueRequest q s
  | .cellPlacement part => Sys2Proof.Machine.execCellPlacement part s
  | .groupEnd grp => Sys2Proof.Machine.execGroupEnd grp s
  | .launchCompletion l => Sys2Proof.Machine.execLaunchCompletion l s
  | .deadlineExpiry l => Sys2Proof.Machine.execDeadlineExpiry l s
  | .groupQuiet grp => Sys2Proof.Machine.execGroupQuiet grp s
  | .handlerStart part => Sys2Proof.Machine.execHandlerStart part s
  | .handlerReservation part => Sys2Proof.Machine.execHandlerReservation part s
  | .preemptDrainComplete part => Sys2Proof.Machine.execPreemptDrainComplete part s
  | .quantumCommitStart l => Sys2Proof.Machine.execQuantumCommitStart l s
  | .quantumCommitComplete l => Sys2Proof.Machine.execQuantumCommitComplete l s
  | .barrWaitLimit op => Sys2Proof.Machine.execBarrWaitLimit op s
  | .mwaitRecompare op => Sys2Proof.Machine.execMwaitRecompare op s
  | .sleepExpiry grp tid => Sys2Proof.Machine.execSleepExpiry grp tid s
  | .atsTranslationCompletion addr => Sys2Proof.Machine.execAtsTranslationCompletion addr s
  | .grantWindow part measured => Sys2Proof.Machine.execGrantWindow part measured s
  | .pageRequestRingWrite => Sys2Proof.Machine.execPageRequestRingWrite s
  | .errorRecordWrite => Sys2Proof.Machine.execErrorRecordWrite s
  | .congestionNotice rank => Sys2Proof.Machine.execCongestionNotice rank s
  | .fabricPacketArrival src plane pkt => Sys2Proof.Machine.execFabricPacketArrival src plane pkt s
  | .portTraining port lanes => Sys2Proof.Machine.execPortTraining port lanes s
  | .moduleReset => Sys2Proof.Machine.execModuleReset s
  | .pcieFundamentalReset => Sys2Proof.Machine.execPcieFundamentalReset s
  | .bar2Access write off len data => Sys2Proof.Machine.execBar2Access write off len data s
  | .atsInvalidation addr => Sys2Proof.Machine.execAtsInvalidation addr s
  | .alarmLevel1 sensor => Sys2Proof.Machine.execAlarmLevel1 sensor s
  | .alarmLevel2 sensor => Sys2Proof.Machine.execAlarmLevel2 sensor s
  | .softErrorCorrected src cls pa => Sys2Proof.Machine.execSoftErrorCorrected src cls pa s
  | .uncorrectableError src cls pa => Sys2Proof.Machine.execUncorrectableError src cls pa s
  | .codeObjectLoad obj text data => Sys2Proof.Machine.execCodeObjectLoad obj text data s
  | .coreKick core v => Sys2Proof.Machine.execCoreKick core v s
  | .cpPush q v => Sys2Proof.Machine.execCpPush q v s
  | .prDone v => Sys2Proof.Machine.execPrDone v s
  | .prSize v => Sys2Proof.Machine.execPrSize v s
  | .partCmdPreempt n => Sys2Proof.Machine.execPartCmdPreempt n s
  | .partCmdResume n => Sys2Proof.Machine.execPartCmdResume n s
  | .partCmdAbort n => Sys2Proof.Machine.execPartCmdAbort n s
  | .partCmdResumePlacing n => Sys2Proof.Machine.execPartCmdResumePlacing n s
  | .partRect n v => Sys2Proof.Machine.execPartRect n v s
  | .partHandler n v => Sys2Proof.Machine.execPartHandler n v s
  | .paShares n v => Sys2Proof.Machine.execPaShares n v s
  | .paBank v => Sys2Proof.Machine.execPaBank v s
  | .paTableid v => Sys2Proof.Machine.execPaTableid v s
  | .fabId v => Sys2Proof.Machine.execFabId v s
  | .fabCtl v => Sys2Proof.Machine.execFabCtl v s
  | .fabRoot v => Sys2Proof.Machine.execFabRoot v s
  | .dbgCtl v => Sys2Proof.Machine.execDbgCtl v s
  | .bootCmd v => Sys2Proof.Machine.execBootCmd v s
  | .attCmd v => Sys2Proof.Machine.execAttCmd v s
  | .registerWrite wide off v => Sys2Proof.Machine.execRegisterWrite wide off v s

end Sys2Proof.Machine
end

