-- ==== Sys2Proof/Machine/Picker.lean ====
section
/-! DEFINITION. The picker of a slice (R103, R104, R106): the candidates of a cycle, the choice among them, the gang and the
starvation counts; one command of a bank-group engine (R290) and one instruction of a remote callee (R349). -/

set_option linter.unusedVariables false

namespace Sys2Proof.Machine

/-- What follows a next state. -/
def onNext (f : State → State) (o : Host.Outcome State Fault Refusal) : Host.Outcome State Fault Refusal :=
  match o with
  | .next s => .next (f s)
  | .fault r => .fault r
  | .refused r => .refused r

/-! Issue of one word. -/

/-- The word issued for the gang that stands in the state (R42, R105). -/
def State.issueWord (s : State) (w : W96) : Host.Outcome State Fault Refusal :=
  match decode w with
  | some i => exec i s
  | none => .next (s.badWord w)

/-- Whether an issue has moved a thread: it has gone on, trapped, ended, or ended its quantum.  DEDUCED, log entry 20. -/
def Thread.movedBy (x y : Thread) : Bool :=
  !(x.pc == y.pc && x.slot == y.slot && x.rep == y.rep && x.park == y.park && x.stopped == y.stopped && x.exited == y.exited &&
    x.wait == y.wait && x.prog == y.prog && x.qended == y.qended)

/-- Whether the word would be issued for these threads: no stall of its own holds all of them (R103). -/
def State.wouldIssue (s : State) (core slice : Nat) (h : Header) (w : W96) (ms : List TRef) : Bool :=
  match (s.asGang core slice h ms).issueWord w with
  | .next s' => ms.any fun t => (s.thread t).movedBy (s'.thread t) || (s'.thread? t).isNone
  | _ => true

/-! Candidates (R104). -/

/-- A candidate: a launch, a place in its code, the word there, and threads by wave slot and lane. -/
structure Cand where
  launch : Nat
  pc : W64
  slot : BitVec 4
  hdr : Header
  word : W96
  set : Bool
  members : List TRef
  deriving DecidableEq, Repr

/-- A word that a thread of its own does not issue: a gathered instruction waits for its set (R106). -/
def State.gathers (s : State) (h : Header) (w : W96) (t : TRef) : Bool :=
  match decode w with
  | some i => isGathered i && ((s.asGang (s.ctx t).core 0 h [t]).encodingFault t (wordCtl w) i).isNone
  | none => false

/-- A ready thread as a candidate of its own. -/
def State.readyCand (s : State) (core slice : Nat) (t : TRef) : Option Cand :=
  let x := s.thread t
  if !s.arrives t || x.slot = 0 then none
  else (s.standing t).bind fun hw =>
    if !s.gathers hw.1 hw.2 t && s.wouldIssue core slice hw.1 hw.2 [t] then some ⟨(s.launchOf t).id, x.pc, x.slot, hw.1, hw.2, false, [t]⟩ else none

/-- Whether a parked thread's group lets it issue. -/
def State.parkedRuns (s : State) (t : TRef) : Bool :=
  match s.groupOf t with
  | some G => s.mayRun G (s.thread t)
  | none => false

/-- The complete set of a parked thread, where this slice issues it and nothing holds it. -/
def State.setCand (s : State) (core slice : Nat) (t : TRef) : Option Cand :=
  let x := s.thread t
  match x.park with
  | .gathered _ =>
    (s.setOf t).bind fun ms => (s.standing t).bind fun hw =>
      if s.setHome ms == (core, slice) && ms.all s.parkedRuns && s.wouldIssue core slice hw.1 hw.2 ms then
        some ⟨(s.launchOf t).id, x.pc, x.slot, hw.1, hw.2, true, ms⟩ else none
  | _ => none

/-- Ready threads that stand at one place form one candidate. -/
def joinCands : List Cand → List Cand
  | [] => []
  | c :: cs =>
    let rest := joinCands cs
    let same := fun (d : Cand) => d.launch == c.launch && d.pc == c.pc && d.slot == c.slot && d.word == c.word && d.hdr == c.hdr
    if rest.any same then rest.map fun d => if same d then { d with members := c.members ++ d.members } else d
    else c :: rest

/-- The candidates of a slice in a cycle. -/
def State.cands (s : State) (core slice : Nat) : List Cand :=
  let ts := s.sliceThreads core slice
  joinCands (ts.filterMap fun t => s.readyCand core slice t) ++ (ts.filterMap fun t => s.setCand core slice t).eraseDups

def Cand.place (c : Cand) : Nat := c.pc.toNat * 16 + c.slot.toNat

/-- The elements with the least key. -/
def leastBy (key : α → Nat) (l : List α) : List α :=
  match (l.map key).min? with
  | some m => l.filter fun x => key x == m
  | none => l

/-- A thread that has starved for 64 cycles and longest, by wave slot and lane (R104). -/
def State.starving (s : State) (core slice : Nat) (cs : List Cand) : Option TRef :=
  let n := fun (t : TRef) => (s.thread t).starve
  ((s.sliceThreads core slice).filter fun t => 64 ≤ n t && cs.any fun c => c.members.contains t).foldl (fun best t =>
    match best with
    | some b => if n b < n t then some t else best
    | none => some t) none

/-- Threads of a candidate released from a token in the previous cycle. -/
def State.justReleased (s : State) (c : Cand) : Nat :=
  c.members.countP fun t => (s.thread t).releasedAt == s.clk && s.clk != 0

/-- The candidate of the cycle, with the starving thread that decided it.  DESIGN CHOICE, log entry 21. -/
def State.choice (s : State) (core slice : Nat) : Option (Cand × Option TRef) :=
  let cs := s.cands core slice
  let depth := fun (c : Cand) => ((c.members.map fun t => (s.thread t).depth).min?).getD 0
  match s.starving core slice cs with
  | some t => (cs.find? fun c => c.members.contains t).map fun c => (c, some t)
  | none =>
    let rel := cs.filter fun c => 0 < s.justReleased c
    let best :=
      if rel.isEmpty then leastBy Cand.place (leastBy depth (leastBy (fun c => 1024 - c.members.length) cs))
      else leastBy Cand.place (leastBy (fun c => 1024 - s.justReleased c) rel)
    (s.pick [0xA01, core, slice] best).map fun c => (c, none)

/-- The gang of a candidate: a set whole; else on each lane the thread in the lowest wave slot, the starving thread on its own (R104). -/
def State.gangOf (s : State) (c : Cand) (t : Option TRef) : List TRef :=
  if c.set then c.members
  else (List.range 32).filterMap fun l =>
    match t with
    | some u => if s.laneOf u == l then some u else c.members.find? fun x => s.laneOf x == l
    | none => c.members.find? fun x => s.laneOf x == l

/-- The starvation counts after the issue of a gang, from the state before it (R104).  DEDUCED, log entry 19. -/
def State.starveAfter (s0 : State) (core slice : Nat) (gang : List TRef) (s : State) : State :=
  let ready := ((s0.cands core slice).filter fun c => !c.set).flatMap fun c => c.members
  (s0.sliceThreads core slice).foldl (fun s t =>
    if gang.contains t then s
    else if ready.contains t then s.updThread t fun x => { x with starve := Nat.min 1023 (x.starve + 1) }
    else if (s0.thread t).yieldAt == s0.clk && s0.clk != 0 then s
    else s.updThread t fun x => { x with starve := 0 }) s

/-- The slice marked as having issued in this cycle, its threads come to their slots. -/
def State.slicePrepared (s : State) (core slice : Nat) : State :=
  (s.prepare core slice).updCore core fun k => { k with issued := slice :: k.issued }

/-- One cycle of a slice: the chosen gang issues its instruction. -/
def State.issueSlice (s : State) (core slice : Nat) : Host.Outcome State Fault Refusal :=
  let s1 := s.slicePrepared core slice
  match s1.choice core slice with
  | none => .next (s1.starveAfter core slice [] s1)
  | some (c, t) =>
    let ms := s1.gangOf c t
    onNext (s1.starveAfter core slice ms) ((s1.asGang core slice c.hdr ms).issueWord c.word)

/-! Engines and callees. -/

/-- One command of the instance that an engine leads (R288, R290). -/
def State.issueEngine (s : State) (e : Nat) : Host.Outcome State Fault Refusal :=
  let s1 : State := { s with bank := { s.bank with cur := e } }
  let x := s1.engine e
  if 256 ≤ x.pc then s1.bgIllegal
  else match decodeBg (x.store.getD x.pc 0) with
    | some i => exec i s1
    | none => s1.bgIllegal

/-- One instruction of a callee, or its entry into a clause (R349); an instruction that is held leaves it where it stands. -/
def State.issueCallee (s : State) (id : Nat) : Host.Outcome State Fault Refusal :=
  let t := TRef.callee id
  let core := (s.ctx t).core
  let x := s.thread t
  let no : Host.Outcome State Fault Refusal := .next s
  if (s.callee? id).isNone || !x.timeUp s.clk then no
  else if x.slot = 0 then
    let s1 := s.arrive t
    if (s1.callee? id).isNone || (s1.thread t).slot != 0 then .next s1 else no
  else match s.fetch t x.pc with
    | .wait => no
    | .fault _ _ => .next (s.arrive t)
    | .word h _ =>
      match s.fetch t (slotAddr x.pc x.slot) with
      | .wait => no
      | .fault _ _ => .next (s.arrive t)
      | .word w s1 => if s1.wouldIssue core 0 (headerOf h) w [t] then (s1.asGang core 0 (headerOf h) [t]).issueWord w else no

end Sys2Proof.Machine
end

