-- ==== Sys2Proof/Machine/Turns.lean ====
section
/-! DEFINITION. What the module can do next: the events that can happen of its own accord, the passing of a cycle, and one
turn of any of them. -/

set_option linter.unusedVariables false

namespace Sys2Proof.Machine

/-! Events. -/

/-- The steps that are no instruction of a thread or an engine. -/
def isEvent (i : Instr) : Bool :=
  (encode i).isNone && (encodeBg i).isNone && (match i with | .unassignedOpcode _ => false | _ => true)

/-- Events of operations and queued writes. -/
def State.opEvents (s : State) : List Instr :=
  [s.ops.flatMap fun o => [Instr.longLatencyCompletion o.id, Instr.atOperation o.id, Instr.acallRoutine o.id, Instr.barrWaitLimit o.id,
      Instr.mwaitRecompare o.id],
    s.mem.wq.map fun e => Instr.storeReachesVisibility e.id,
    (s.cores.flatMap fun k => k.mu).map fun m => Instr.matrixOpCommit m.id,
    s.mem.l2.map fun x => Instr.coreAccessArrives x.base].flatten

/-- Events of the copy engines. -/
def State.copyEvents (s : State) : List Instr :=
  [s.cores.map fun k => Instr.requestEngineFetch k.id,
    s.reqs.flatMap fun r => [Instr.linearCopy r.id, Instr.tensorCopy r.id, Instr.gatherRequest r.id, Instr.scatterAdd r.id,
      Instr.layoutTransform r.id, Instr.fill r.id, Instr.remoteRead r.id, Instr.remoteWrite r.id, Instr.remoteReduce r.id,
      Instr.barrierSignal r.id, Instr.copyRetire r.id],
    s.reqs.flatMap fun r => (List.range r.pieces.length).map fun j => Instr.copyLanding r.id j,
    s.incs.map fun c => Instr.counterIncrease c.id].flatten

/-- Events of bank launches. -/
def State.bankEvents (s : State) : List Instr :=
  [(List.range 4).map fun q => Instr.bankQueueTake q,
    s.bank.launches.flatMap fun b => [Instr.bankLaunchAdmission b.id, Instr.storeLoadDispatch b.id, Instr.attentionMerge b.id,
      Instr.bankCompletion b.id],
    s.bank.launches.flatMap fun b => (List.range b.insts.length).map fun k => Instr.bankReexecution b.id k].flatten

/-- Events of translation, stubs and migrations. -/
def State.pageEvents (s : State) : List Instr :=
  let ids := (s.ops.map (·.id) ++ s.mem.wq.map (·.id) ++ s.reqs.map (·.id) ++ s.incs.map (·.id) ++ s.bank.launches.map (·.id)).eraseDups
  [[Instr.pageRequestRingWrite],
    s.xlat.migs.flatMap fun m => [Instr.migrationStart m.id, Instr.migrationPassEnd m.id, Instr.migrationSwitch m.id],
    ids.flatMap fun i => [Instr.stubForward i, Instr.chase i],
    s.xlat.redirs.map fun r => Instr.redirect r.id,
    s.xlat.stubs.map fun b => Instr.stubReclaimReply b.id,
    s.xlat.stubs.flatMap fun b => (List.range 4).map fun d => Instr.stubReclaimQuery b.id d,
    s.boot.atsWait.map fun p => Instr.atsTranslationCompletion (p * 2 ^ 12)].flatten

/-- Events of remote calls and the fabric. -/
def State.fabricEvents (s : State) : List Instr :=
  [s.remote.calls.flatMap fun k => [Instr.rcallArrival k.id, Instr.calleeStart k.id, Instr.rcallReply k.id, Instr.rcallTimeout k.id],
    s.remote.dedup.map fun d => Instr.dedupEntryExpiry d.id,
    s.fab.xfers.map fun x => Instr.fabricTransferTimeout x.id,
    s.fab.rate.map fun x => Instr.rateTableRecovery x.1,
    s.fab.waiting.map fun x => Instr.reductionLanding x.id,
    s.fab.insts.flatMap fun i => [Instr.collectiveStep i.id, Instr.collectiveInstanceComplete i.id],
    [Instr.networkFrameBoundary]].flatten

/-- Events of the command processor: queues, partitions, groups, launches, the error ring, the power arbiter's windows. -/
def State.cpEvents (s : State) : List Instr :=
  [(List.range 4).flatMap fun q => [Instr.launchRecordCheck q, Instr.groupRange q, Instr.resumptionRecord q],
    [Instr.copyQueueRequest 4, Instr.copyQueueRequest 5, Instr.errorRecordWrite],
    (List.range 16).flatMap fun n => [Instr.cellPlacement n, Instr.handlerStart n, Instr.handlerReservation n, Instr.preemptDrainComplete n],
    (List.range 16).map fun n => Instr.grantWindow n (Config.choose s.tick [0xB20, n]),
    s.groups.flatMap fun G => [Instr.groupEnd G.id, Instr.groupQuiet G.id],
    s.groups.flatMap fun G => (G.threads.filter fun x => x.sleep.isSome).map fun x => Instr.sleepExpiry G.id x.tid,
    s.launches.flatMap fun L => [Instr.launchCompletion L.id, Instr.deadlineExpiry L.id, Instr.quantumCommitStart L.id,
      Instr.quantumCommitComplete L.id]].flatten

/-- The events that the module's own objects call for, whether or not they can happen now. -/
def State.events (s : State) : List Instr :=
  [s.opEvents, s.copyEvents, s.bankEvents, s.pageEvents, s.fabricEvents, s.cpEvents].flatten

/-- Whether a turn of the module does something: a turn whose object is not ready leaves the state as it is.  DEDUCED, log
entry 7. -/
def State.moves (s : State) (o : Host.Outcome State Fault Refusal) : Bool :=
  match o with
  | .next t => t != s
  | _ => false

/-! Cycles (R12, R40, R413). -/

/-- Whether a slice still has to issue in this cycle: a thread stands free, or parks at a gathered instruction. -/
def State.sliceDue (s : State) (core slice : Nat) : Bool :=
  !(s.coreAt core).issued.contains slice && (s.sliceThreads core slice).any fun t =>
    s.arrives t || ((match (s.thread t).park with | .gathered _ => true | _ => false) && s.parkedRuns t)

def State.busyCores (s : State) : List Nat := (s.groups.flatMap fun G => G.waves.map (·.core)).eraseDups

def State.dueSlices (s : State) : List (Nat × Nat) :=
  s.busyCores.flatMap fun c => ((List.range 4).filter fun k => s.sliceDue c k).map fun k => (c, k)

/-- Events that belong to a cycle and have not happened in it: ends of sleeps and of limited waits, deadlines, frames. -/
def State.overdue (s : State) : Bool :=
  s.frameDue ||
  (s.groups.any fun G => G.threads.any fun x => match x.sleep with | some n => n ≤ s.clk | none => false) ||
  (s.ops.any fun o => match o.kind with | .barrWait _ _ _ (some lim) _ none => lim ≤ s.clk | _ => false) ||
  (s.remote.calls.any fun k => s.moves (execRcallTimeout k.id s)) || (s.remote.dedup.any fun d => s.moves (execDedupEntryExpiry d.id s)) ||
  (s.fab.rate.any fun x => s.moves (execRateTableRecovery x.1 s)) || (s.fab.xfers.any fun x => s.moves (execFabricTransferTimeout x.id s)) ||
  s.launches.any fun L => s.moves (execDeadlineExpiry L.id s)

/-- The cycle can pass: every slice has issued, and nothing of this cycle is left. -/
def State.cycleOver (s : State) : Bool := s.dueSlices.isEmpty && !s.overdue

/-- A thread at the turn of a cycle: fixed-latency results land; one whose slice has not issued was not ready (R36, R104). -/
def Thread.tickOver (clk : Nat) (issued : Bool) (x : Thread) : Thread :=
  let y := x.settle (clk + 1)
  if issued || (y.yieldAt == clk && clk != 0) then y else { y with starve := 0 }

/-- A core cycle passes. -/
def State.nextCycle (s : State) : State :=
  let issued := fun (G : Group) (x : Thread) =>
    match G.waves.find? fun w => w.idx == x.wave with
    | some w => (s.coreAt w.core).issued.contains (w.slot / 8)
    | none => false
  let held := fun (l : Nat) => s.groups.any fun G => G.launch == l
  ({ s with
      clk := s.clk + 1
      cores := s.cores.map fun k => { k.bpEnd with issued := [] }
      groups := s.groups.map fun G => { G with threads := G.threads.map fun x => x.tickOver s.clk (issued G x) }
      launches := s.launches.map fun L => if held L.id then { L with dl := L.dl.map fun n => n - 1 } else L
      remote := { s.remote with callees := s.remote.callees.map fun C => { C with th := C.th.settle (s.clk + 1) } } } : State).freeWaves.reissueAll.injectAll

/-! Turns. -/

/-- One turn. -/
def State.turn (s : State) (t : Turn) : Host.Outcome State Fault Refusal :=
  match t with
  | .gang core slice =>
    if (s.coreAt core).issued.contains slice then .next s else s.issueSlice core slice
  | .engine e => s.issueEngine e
  | .callee id => s.issueCallee id
  | .event i => if isEvent i then exec i s else .next s
  | .cycle => if s.cycleOver then .next s.nextCycle else .next s

/-- What can come next.  DESIGN CHOICE, log entry 8. -/
def State.enabled (s : State) : List Turn :=
  (s.dueSlices.map fun x => Turn.gang x.1 x.2) ++
  ((s.bank.engines.filter fun e => s.moves (s.issueEngine e.id)).map fun e => Turn.engine e.id) ++
  ((s.remote.callees.filter fun c => s.moves (s.issueCallee c.id)).map fun c => Turn.callee c.id) ++
  ((s.events.filter fun i => s.moves (exec i s)).map fun i => Turn.event i) ++
  if s.cycleOver then [Turn.cycle] else []

/-- The turn that comes next of the module's own accord: a free choice among those that can. -/
def State.nextTurn (s : State) : Turn := (s.pick [0xA02] s.enabled).getD .cycle

/-! The first instruction (for `withFetchWord`). -/

/-- A run of one engine that stands at a command word. -/
def State.withCommand (s : State) (w : W32) : State :=
  let e := s.engine 0
  let l : BankLaunch :=
    { id := s.nextId, load := false, va := 0, root := 0, part := 0, prio := 0, stack := 0, body := [], readable := true, phase := .running,
      insts := [{ engines := [0], spec := false, rex := 0, excl := true, conflict := false, sigs := [], cmds := 0, wrote := [], status := none, bad := none }],
      vins := [], emitPa := [], comp := none, status := 0, merged := false, op := none, launch := none }
  let s1 : State := { s with nextId := s.nextId + 1, bank := { s.bank with launches := l :: s.bank.launches } }
  { s1.setEngine { e with store := e.store.set 0 w, pc := 0, run := some (l.id, 0) } with turns := [.engine 0] }

/-- The page tables of the placed group: one table page a level, its code page at VA 0x10000. -/
def placedTables : List (Nat × W64) :=
  [(0x100000, 0x110001), (0x110000, 0x120001), (0x120000, 0x130001), (0x130008, 0x14006F)]

/-- A header of an entry clause of one instruction with both flag sets valid (R41). -/
def placedHeader : W96 := ((0x88004228 : W96) <<< 64)

/-- A group of one thread at slot 0 of a clause that holds a word. -/
def State.withWord96 (s : State) (w : W96) : State :=
  let code := 0x140000
  let bytes := fun (x : W96) => natToBytes 12 x.toNat
  let mem := placedTables.foldl (fun (m : List Host.Cell) e => putBytes cellSet0 e.1 (bytes8 e.2) m) s.mem.dram
  let mem := [(code, placedHeader), (code + 12, w), (code + 32, placedHeader)].foldl (fun (m : List Host.Cell) e => putBytes cellSet0 e.1 (bytes e.2) m) mem
  let rc := { LaunchRec.blank with entry := 0x10000, regs := 31, deadline := 1000 }
  let l := s.nextId
  let L := { Launch.blank with id := l, rc := rc, root := 0x10, upto := 1, placed := 1, dl := some 1000, stamp := s.stamp }
  let x := { Thread.blank with v := List.replicate 256 0, pc := 0x10000 }
  let W := { Wave.blank with tokens := List.replicate 16 Token.blank }
  let G : Group :=
    { id := l + 1, launch := l, index := 0, cellPos := 0, part := 0, lead := 0, pair := false, stackSlot := none, spadOff := 0, accOrg := 0,
      k := List.replicate 64 0, kOld := [], waves := [W], threads := [x], halt := none, fetchStamp := s.stamp, handles := none }
  { s with nextId := l + 2, mem := { s.mem with dram := mem }, launches := L :: s.launches, groups := G :: s.groups, turns := [.gang 0 0] }

end Sys2Proof.Machine
end

