-- ==== Sys2Proof/Machine/Step.lean ====
section
/-! DEFINITION. One step of the module: the boot ROM's run after reset, the turn at the head of the list of turns, or a turn
freely chosen among those that can come next. -/

namespace Sys2Proof.Machine

/-- One step.  Each is counted, and the count keys the free choices made in it.  DEDUCED, log entry 1. -/
def step (s : State) : Host.Outcome State Fault Refusal :=
  let s1 : State := { s with tick := s.tick + 1 }
  if s.bootMode = 0 then .next (s1.bootRun s.boot.flash)
  else match s.turns with
    | t :: rest => ({ s1 with turns := rest } : State).turn t
    | [] => s1.turn s1.nextTurn

/-- The state with an instruction placed where the next step fetches it: 32 bits are a command word of engine 0, 96 an
instruction word of a group of one thread; the module has booted. -/
def State.withFetchWord (s : State) (nbits w : Nat) : State :=
  let s1 : State := { s with boot := { s.boot with stat := 0xD } }
  if nbits ≤ 32 then s1.withCommand (BitVec.ofNat 32 w) else s1.withWord96 (BitVec.ofNat 96 w)

end Sys2Proof.Machine
end

