-- ==== Sys2Proof/Machine/Terms.lean ====
section
/-! DEFINITION. The terms in which the statements about this machine are written: an instruction issued for one thread or
for a gathered set, what follows an issue, and the parts of the state that a frame speaks of.  No meaning calls them. -/

set_option linter.unusedVariables false

namespace Sys2Proof.Machine

/-- The gang is one thread of a group, the form breaks no limit of the launch or the clause (R32, R39, R42), the level may run
it (R44) and the guard is true (R30). -/
def solo (c : Ctl) (i : Instr) (s : State) (t : TRef) : Bool :=
  s.gang.members == [t] && t.group.isSome && (s.encodingFault t c i).isNone && (s.mark c).guard t c &&
    (!isPrivileged i || ((s.mark c).ctx t).priv)

/-- One thread issues an instruction; `s1` is the state with the marks of the issue made (R40, R41, R104). -/
def Runs (c : Ctl) (i : Instr) (s : State) (t : TRef) (s1 : State) : Prop := solo c i s t = true ∧ s1 = s.mark c

/-- A set of threads of groups issues an instruction that breaks no limit for any of them. -/
def team (c : Ctl) (i : Instr) (s : State) (ms : List TRef) : Bool :=
  s.gang.members == ms && ms.all (fun t => t.group.isSome && (s.encodingFault t c i).isNone)

def RunsAll (c : Ctl) (i : Instr) (s : State) (ms : List TRef) (s1 : State) : Prop := team c i s ms = true ∧ s1 = s.mark c

/-- What one thread's issue comes to: its lane settled (R27, R105), the tokens of the cycle's end (R111). -/
def State.endsWith (s1 : State) (t : TRef) (l : Lane) : State := (s1.settleLane t l).tokenEnds

/-- The instruction performed, and the thread at its next slot. -/
def State.ends (s1 : State) (t : TRef) (s2 : State) : State := s1.endsWith t (.next s2)

/-- The members of a set go on in order, each with its writes pending under its flag (R161). -/
def State.endsAll (s1 : State) (c : Ctl) (ms : List TRef) (w : TRef → List Wr) : State :=
  (ms.foldl (fun s t => let s := s.updThread t fun x => { x with park := .no }
                        s.settleLane t (.next (s.result t c (w t)))) s1).tokenEnds

/-- A gang of any size goes on, each thread whose guard is true with an effect of its own (R30, R105). -/
def State.gangEnds (s : State) (c : Ctl) (f : State → TRef → State) : State :=
  (s.gang.members.foldl (fun s' t => s'.settleLane t (.next (if s'.guard t c then f s' t else s'))) (s.mark c)).tokenEnds

/-- The gang's threads belong to groups and the form breaks no limit for any of them. -/
def gangOk (c : Ctl) (i : Instr) (s : State) : Bool :=
  s.gang.members.all fun t => t.group.isSome && (s.encodingFault t c i).isNone

/-- No matrix operation stands in a queue, so that no register or scratchpad range is locked (R218). -/
def State.noMatrix (s : State) : Bool := s.cores.all fun k => k.mu.isEmpty

/-! Answers of checks. -/

def Access.isOk : Access → Bool
  | .ok _ _ => true
  | _ => false
/-- The ranges of an access that passed, and the state with its translations filled in. -/
def Access.rs : Access → List Range
  | .ok rs _ => rs
  | _ => []
def Access.st : Access → State
  | .ok _ s => s
  | _ => State.reset
/-- Cause and address of a fault. -/
def Access.bad : Access → Option (Nat × W64)
  | .fault k a _ => some (k, a)
  | _ => none
/-- The page where N = 1. -/
def Access.away : Access → Option W64
  | .nonres a => some a
  | _ => none

/-- The header word of a transfer target that passed, the state after its fetch, and the cause of one that did not. -/
def Target.word : Target → Option W96
  | .header w _ => some w
  | _ => none
def Target.st : Target → State
  | .header _ s => s
  | _ => State.reset
def Target.cause : Target → Option Nat
  | .bad k => some k
  | _ => none

/-- The word that a fetch gave, and the state after it. -/
def Fetch.got : Fetch → Option W96
  | .word w _ => some w
  | _ => none
def Fetch.st : Fetch → State
  | .word _ s => s
  | _ => State.reset

/-- The slot table that a read gave, the state after it, and the state after one that failed. -/
def SlotRead.got : SlotRead → Option (List Byte)
  | .ok b _ => some b
  | _ => none
def SlotRead.st : SlotRead → State
  | .ok _ s => s
  | .bad s => s
  | .wait => State.reset
def SlotRead.failed : SlotRead → Bool
  | .bad _ => true
  | _ => false

/-- The operation that an `mld` has come to, and the state in which it begins. -/
def MldPlan.kind : MldPlan → Option OpKind
  | .go k _ => some k
  | _ => none
def MldPlan.st : MldPlan → State
  | .go _ s => s
  | .trap _ _ _ s => s
  | .wait s => s

/-- Whether a thread could go on after its slot, and the state in which it has. -/
def Adv.isOk : Adv → Bool
  | .ok _ => true
  | _ => false
def Adv.st : Adv → State
  | .ok s => s
  | _ => State.reset

/-- The bytes of checked ranges as a unit reads them, and the state after. -/
def State.readRanges (s : State) (r : Reader_) (rs : List Range) : List Byte × State :=
  rs.foldl (fun (p : List Byte × State) x => let y := p.2.engineRead r (.mem x.pa) x.len x.bypass; (p.1 ++ y.1, y.2)) ([], s)

def Xl.isOk : Xl → Bool
  | .ok _ _ => true
  | _ => false
def Xl.rs : Xl → List Range
  | .ok rs _ => rs
  | _ => []
def Xl.st : Xl → State
  | .ok _ s => s
  | .bad _ _ s => s
  | .wait => State.reset

/-- The status with which a call is refused at its caller; the executor of one that is sent, and the state then. -/
def CallXlat.refused : CallXlat → Option Nat
  | .refuse k _ _ => some k
  | _ => none
def CallXlat.exec : CallXlat → Option Nat
  | .send _ e _ _ _ => some e
  | _ => none
def CallXlat.st : CallXlat → State
  | .refuse _ _ s => s
  | .send _ _ _ _ s => s
  | .wait => State.reset

/-- The record that a check has passed, and the one it has failed with its status; the state after. -/
def RecCheck.okRc : RecCheck → Option LaunchRec
  | .ok rc _ => some rc
  | _ => none
def RecCheck.badRc : RecCheck → Option (LaunchRec × Nat)
  | .bad rc k _ => some (rc, k)
  | _ => none
def RecCheck.isLost : RecCheck → Bool
  | .lost _ => true
  | _ => false
def RecCheck.st : RecCheck → State
  | .ok _ s => s
  | .bad _ _ s => s
  | .lost s => s
  | .wait s => s

/-- What a read of the command processor or a stack core gave. -/
def CpRead.bytes : CpRead → Option (List Byte)
  | .ok b _ => some b
  | _ => none
def CpRead.code : CpRead → Option Nat
  | .bad c _ => some c
  | _ => none
def CpRead.st : CpRead → State
  | .ok _ s => s
  | .bad _ s => s
  | .wait s => s

/-- What a request does that begins with no status: its pieces, its landing total, the state after its translations. -/
def Plan_.goes : Plan_ → Option (List Piece × Nat)
  | .go ps n _ => some (ps, n)
  | _ => none
def Plan_.st : Plan_ → State
  | .go _ _ s => s
  | .fail _ _ _ _ s => s
  | .wait s => s

/-- A request underway with its pieces (R232); one with none has landed (R254). -/
def State.underWay (s : State) (r : Nat) (ps : List Piece) (n : Nat) : State :=
  (s.updReq r fun q => { q with began := true, pieces := ps, total := n, sbr := s.boardOf q }).landRest r

/-- The place of a word to be written that passed, and the state with its translation filled in. -/
def CpWord.got : CpWord → Option Range
  | .ok r _ => some r
  | _ => none
def CpWord.st : CpWord → State
  | .ok _ s => s
  | .bad _ s => s
  | .wait => State.reset

/-- What a check of admission gave, and the state after it. -/
def Admits.got {α : Type} : Admits α → Option α
  | .ok x _ => some x
  | _ => none
def Admits.st {α : Type} : Admits α → State
  | .ok _ s => s
  | .bad _ s => s
  | .wait => State.reset

/-- The ranges of a fabric access that passed, and the state with its translations filled in. -/
def Spans.got : Spans → Option (List (Nat × Range))
  | .ok l _ => some l
  | _ => none
def Spans.st : Spans → State
  | .ok _ s => s
  | .bad _ _ s => s
  | .wait => State.reset

/-- A fabric access that stays on this device. -/
def FabAt.isOk : FabAt → Bool
  | .ok _ _ => true
  | _ => false
def FabAt.rs : FabAt → List Range
  | .ok rs _ => rs
  | _ => []
def FabAt.st : FabAt → State
  | .ok _ s => s
  | _ => State.reset

/-- A call stays at the executor it has reached. -/
def CallRoute.stays : CallRoute → Bool
  | .here => true
  | _ => false

/-! Bank-group engines. -/

/-- The engine whose turn it is leads a run that may issue: no engine of it stands at a limit or at a word in error (R288). -/
def bgGo (s : State) (r : BgRun) : Bool :=
  s.bgRun == some r && decide (r.lead.pc < 256) && decide (r.i.cmds < 2 ^ 24) && r.set.all fun e => !s.bank.bad.contains (2 ^ 60 + e.id)

/-- A command performed on every engine of a run: its effect, then the address of the next command and the count (R288, R290). -/
def State.bgDone (s : State) (r : BgRun) (pc : Nat) (act : State → BgRun → Engine → State × Engine) : State :=
  (r.set.foldl (fun s e => let y := act s r e; y.1.setEngine { y.2 with pc := pc }) s).updInst r.l.id r.k fun i => { i with cmds := i.cmds + 1 }

/-- A command that changes the engines alone. -/
def State.bgEach (s : State) (r : BgRun) (pc : Nat) (f : Engine → Engine) : State := s.bgDone r pc fun s _ e => (s, f e)

/-- None of an engine's row-sets of a list stands in error. -/
def readsClean (s : State) (r : BgRun) (reads : Engine → List Nat) : Bool :=
  r.set.all fun e => !(reads e).any fun a => s.bank.bad.contains (a / 4096)

/-! Parts of the state. -/

/-- The architectural registers of every group: uniform, vector, predicate and special registers, trap registers, and the
special registers of its waves. -/
def State.regs (s : State) : List (Nat × List W32 × List (Nat × List W32 × BitVec 7 × W64 × List W128 × W32 × W32 × W64 × W32) ×
    List (Nat × W32 × W32 × W32 × W32 × W32 × W32 × W32)) :=
  s.groups.map fun G => (G.id, G.k,
    G.threads.map fun x => (x.tid, x.v, x.p, x.sp, x.routes, x.prog, x.trapcode, x.trapaddr, x.rcstat),
    G.waves.map fun w => (w.idx, w.accbase, w.acclim, w.mbind, w.fmtdiv, w.bias, w.scale, w.stride))

/-- Everything but the groups and the operations in flight stands as it did. -/
def State.restSame (s t : State) : Prop :=
  t.clk = s.clk ∧ t.gtsc0 = s.gtsc0 ∧ t.mem = s.mem ∧ t.cores = s.cores ∧ t.launches = s.launches ∧ t.reqs = s.reqs ∧ t.incs = s.incs ∧
    t.xlat = s.xlat ∧ t.bank = s.bank ∧ t.remote = s.remote ∧ t.fab = s.fab ∧ t.cp = s.cp ∧ t.boot = s.boot

/-- Everything but the bank-group engines and their launches stands as it did. -/
def State.bankOnly (s t : State) : Prop :=
  t.clk = s.clk ∧ t.gtsc0 = s.gtsc0 ∧ t.mem = s.mem ∧ t.cores = s.cores ∧ t.launches = s.launches ∧ t.groups = s.groups ∧ t.ops = s.ops ∧
    t.reqs = s.reqs ∧ t.incs = s.incs ∧ t.xlat = s.xlat ∧ t.remote = s.remote ∧ t.fab = s.fab ∧ t.cp = s.cp ∧ t.boot = s.boot

/-- Every L2 sector is 32 aligned bytes. -/
def Memory.l2Ok (m : Memory) : Bool := m.l2.all fun x => x.data.length == 32 && x.base % 32 == 0

/-- The memories in their form: host memory and DRAM canonical, L2 sectors whole, scratchpad bytes by rising address. -/
def State.formOk (s : State) : Bool := s.mem.wf && s.mem.l2Ok && s.cores.all fun k => cellsRise k.spad

/-- The threads of the gang stand before the last slot of their clause, so that going on enters no other clause. -/
def midClause (s : State) : Bool := s.gang.members.all fun t => (s.thread t).slot.toNat < s.gang.hdr.cnt

/-- Opcode-table latencies of the fixed-latency forms (R43).  DESIGN CHOICE, log entry 9. -/
def fixedLatency : Instr → Option (Ctl × Nat)
  | .setp c _ _ _ _ _ _ _ => some (c, 4)
  | .fsetp c _ _ _ _ _ _ _ => some (c, 4)
  | .pbool c _ _ _ _ => some (c, 4)
  | .pmovSave c _ => some (c, 4)
  | .pmovLoad c _ _ => some (c, 4)
  | .mov c _ one _ _ => if one then none else some (c, 4)
  | .movi c _ one _ _ => if one then none else some (c, 4)
  | .add c _ _ _ _ _ => some (c, 4)
  | .sub c _ _ _ _ _ => some (c, 4)
  | .mul c _ _ _ _ _ => some (c, 6)
  | .mulhi c _ _ _ _ => some (c, 6)
  | .mad c _ _ _ _ _ _ => some (c, 6)
  | .addc c _ _ _ _ _ => some (c, 4)
  | .subb c _ _ _ _ _ => some (c, 4)
  | .abs c _ _ _ _ => some (c, 4)
  | .min c _ _ _ _ => some (c, 4)
  | .max c _ _ _ _ => some (c, 4)
  | .and c _ _ _ _ => some (c, 4)
  | .or c _ _ _ _ => some (c, 4)
  | .xor c _ _ _ _ => some (c, 4)
  | .not c _ _ _ => some (c, 4)
  | .shl c _ _ _ _ => some (c, 4)
  | .shr c _ _ _ _ => some (c, 4)
  | .sra c _ _ _ _ => some (c, 4)
  | .rot c _ _ _ _ => some (c, 4)
  | .bfe c _ _ _ _ => some (c, 4)
  | .bfi c _ _ _ _ => some (c, 4)
  | .popc c _ _ _ => some (c, 4)
  | .clz c _ _ _ => some (c, 4)
  | .brev c _ _ _ => some (c, 4)
  | .prmt c _ _ _ _ => some (c, 4)
  | .sel c _ _ _ _ _ => some (c, 4)
  | .lea c _ _ _ _ _ => some (c, 4)
  | .dp4 c _ _ _ _ _ _ _ => some (c, 6)
  | .mix32 c _ _ _ => some (c, 8)
  | .fadd c _ _ _ _ _ => some (c, 6)
  | .fsub c _ _ _ _ _ => some (c, 6)
  | .fmul c _ _ _ _ _ => some (c, 6)
  | .ffma c _ _ _ _ _ _ => some (c, 6)
  | .fmin c _ _ _ _ => some (c, 6)
  | .fmax c _ _ _ _ => some (c, 6)
  | .fclamp c _ _ _ _ _ => some (c, 6)
  | .frnd c _ _ _ _ => some (c, 6)
  | .fclass c _ _ _ => some (c, 6)
  | .hadd2 c _ _ _ => some (c, 6)
  | .hmul2 c _ _ _ => some (c, 6)
  | .hfma2 c _ _ _ _ => some (c, 6)
  | .hmax2 c _ _ _ => some (c, 6)
  | .cvt c _ _ _ _ _ _ _ _ => some (c, 6)
  | .pack c _ _ _ _ _ _ _ _ => some (c, 6)
  | .unpk c _ _ _ _ _ => some (c, 6)
  | _ => none

/-- The latency of one write: the predicate that `cvt` writes has that of a predicate (R156). -/
def formLatency (i : Instr) (lat : Nat) (w : Wr) : Nat :=
  match i, w with
  | .cvt _ _ _ _ _ _ _ _ _, .p _ _ => 4
  | _, _ => lat

/-- The control bits of a native form (R29): guard, stall count, flag set, reuse hints. -/
def ctlOf : Instr → Option Ctl
  | .nop c => some c
  | .bra c _ _ _ => some c
  | .brx c _ _ _ => some c
  | .call c _ _ _ => some c
  | .callx c _ _ _ => some c
  | .ret c _ _ _ => some c
  | .exit c => some c
  | .tokOpen c _ => some c
  | .tokLeave c _ => some c
  | .rpt c _ _ => some c
  | .yield c => some c
  | .brk c => some c
  | .trap c _ => some c
  | .setp c _ _ _ _ _ _ _ => some c
  | .fsetp c _ _ _ _ _ _ _ => some c
  | .pbool c _ _ _ _ => some c
  | .pmovSave c _ => some c
  | .pmovLoad c _ _ => some c
  | .getsr c _ _ _ _ => some c
  | .setsr c _ _ _ _ => some c
  | .mov c _ _ _ _ => some c
  | .movi c _ _ _ _ => some c
  | .add c _ _ _ _ _ => some c
  | .sub c _ _ _ _ _ => some c
  | .mul c _ _ _ _ _ => some c
  | .mulhi c _ _ _ _ => some c
  | .mad c _ _ _ _ _ _ => some c
  | .addc c _ _ _ _ _ => some c
  | .subb c _ _ _ _ _ => some c
  | .abs c _ _ _ _ => some c
  | .min c _ _ _ _ => some c
  | .max c _ _ _ _ => some c
  | .and c _ _ _ _ => some c
  | .or c _ _ _ _ => some c
  | .xor c _ _ _ _ => some c
  | .not c _ _ _ => some c
  | .shl c _ _ _ _ => some c
  | .shr c _ _ _ _ => some c
  | .sra c _ _ _ _ => some c
  | .rot c _ _ _ _ => some c
  | .bfe c _ _ _ _ => some c
  | .bfi c _ _ _ _ => some c
  | .popc c _ _ _ => some c
  | .clz c _ _ _ => some c
  | .brev c _ _ _ => some c
  | .prmt c _ _ _ _ => some c
  | .sel c _ _ _ _ _ => some c
  | .lea c _ _ _ _ _ => some c
  | .dp4 c _ _ _ _ _ _ _ => some c
  | .mix32 c _ _ _ => some c
  | .fadd c _ _ _ _ _ => some c
  | .fsub c _ _ _ _ _ => some c
  | .fmul c _ _ _ _ _ => some c
  | .ffma c _ _ _ _ _ _ => some c
  | .fmin c _ _ _ _ => some c
  | .fmax c _ _ _ _ => some c
  | .fclamp c _ _ _ _ _ => some c
  | .frnd c _ _ _ _ => some c
  | .fclass c _ _ _ => some c
  | .lg2 c _ _ => some c
  | .ex2 c _ _ => some c
  | .rcp c _ _ => some c
  | .rsq c _ _ => some c
  | .sqrt c _ _ => some c
  | .hadd2 c _ _ _ => some c
  | .hmul2 c _ _ _ => some c
  | .hfma2 c _ _ _ _ => some c
  | .hmax2 c _ _ _ => some c
  | .cvt c _ _ _ _ _ _ _ _ => some c
  | .pack c _ _ _ _ _ _ _ _ => some c
  | .unpk c _ _ _ _ _ => some c
  | .qswap c _ _ _ _ => some c
  | .qbcast c _ _ _ _ => some c
  | .shfl c _ _ _ _ _ _ _ _ => some c
  | .vote c _ _ _ _ => some c
  | .matchv c _ _ _ _ => some c
  | .wred c _ _ _ _ _ _ => some c
  | .wmaxi c _ _ _ _ _ => some c
  | .wscan c _ _ _ _ _ _ _ => some c
  | .elect c _ _ => some c
  | .ld c _ _ _ _ _ _ _ _ _ _ => some c
  | .st c _ _ _ _ _ _ _ => some c
  | .lds c _ _ _ _ _ => some c
  | .sts c _ _ _ _ _ => some c
  | .ldk c _ _ _ _ _ _ _ => some c
  | .gather c _ _ _ _ _ _ _ _ => some c
  | .ldblk c _ _ _ _ _ _ => some c
  | .prefetch c _ _ _ => some c
  | .discard c _ _ _ => some c
  | .l1inv c => some c
  | .fence c _ _ => some c
  | .xfence c _ _ _ => some c
  | .satom c _ _ _ _ _ _ _ => some c
  | .mwait c _ _ _ _ _ _ _ => some c
  | .qinit c _ _ _ => some c
  | .qpush c _ _ _ _ _ => some c
  | .qpop c _ _ _ _ _ => some c
  | .barrInit c _ _ _ => some c
  | .barrArrive c _ _ _ _ => some c
  | .barrExpect c _ _ _ => some c
  | .barrWait c _ _ _ _ => some c
  | .barrQuery c _ _ _ => some c
  | .atom c _ _ _ _ _ _ _ _ _ => some c
  | .red c _ _ _ _ _ _ _ => some c
  | .acall c _ _ _ _ _ _ _ => some c
  | .mma c _ _ _ _ => some c
  | .mmp c _ _ _ _ => some c
  | .mld c _ _ _ _ _ => some c
  | .aalloc c _ _ _ => some c
  | .awin c _ _ _ => some c
  | .afree c _ => some c
  | .azero c _ _ => some c
  | .ald c _ _ _ _ => some c
  | .ast c _ _ _ _ => some c
  | .mret c _ _ _ _ _ => some c
  | .mretRoute c _ _ _ _ _ => some c
  | .epcfg c _ _ _ => some c
  | .ckick c _ _ => some c
  | .cpoll c _ _ _ => some c
  | .cntw c _ _ _ _ => some c
  | .cnta c _ _ _ => some c
  | .trec c _ _ => some c
  | .bgload c _ _ _ => some c
  | .bgx c _ _ => some c
  | .bfence c _ => some c
  | .bgwait c _ _ _ => some c
  | .bgstatEng c _ _ => some c
  | .bgstatRmap c _ _ => some c
  | .pgreq c _ _ _ _ => some c
  | .pgmig c _ _ _ => some c
  | .tlbinvPage c _ _ => some c
  | .tlbinvAll c => some c
  | .pocinvPage c _ _ => some c
  | .pocinvAll c => some c
  | .rcall c _ _ _ _ _ _ _ _ => some c
  | .rwait c _ => some c
  | .rret c => some c
  | .rstat c _ _ _ => some c
  | .cplan c _ _ _ => some c
  | .cgo c _ => some c
  | .cwait c _ _ => some c
  | .netslot c _ _ _ => some c
  | .netslotOff c _ => some c
  | .spawn c _ _ => some c
  | .jwait c _ _ _ => some c
  | .rfe c => some c
  | .halt c _ => some c
  | .sleep c _ => some c
  | .dlset c _ => some c
  | .qend c => some c
  | .qsync c => some c
  | .pwrq c _ => some c
  | .crd c _ _ _ => some c
  | .cwr c _ _ _ => some c
  | _ => none

/-- The forms that act for a gang or a gathered set as a whole (R106, R113). -/
def actsWhole : Instr → Bool
  | .bra _ _ _ _ => true
  | .brx _ _ _ _ => true
  | .ret _ _ _ _ => true
  | .call _ _ _ _ => true
  | .callx _ _ _ _ => true
  | .tokOpen _ _ => true
  | .tokLeave _ _ => true
  | .shfl _ _ _ _ _ _ _ _ _ => true
  | .vote _ _ _ _ _ => true
  | .matchv _ _ _ _ _ => true
  | .wred _ _ _ _ _ _ _ => true
  | .wmaxi _ _ _ _ _ _ => true
  | .wscan _ _ _ _ _ _ _ _ => true
  | .elect _ _ _ => true
  | .mma _ _ _ _ _ => true
  | .mmp _ _ _ _ _ => true
  | _ => false

end Sys2Proof.Machine
end

