-- ==== Sys2Proof/Certificates/Slice0/Obligations.lean ====
section
/-! DEFINITION. The statements about this machine, for the provers; OBLIGATIONS.json lists each with the rules it rests on. -/

set_option linter.unusedVariables false

open Sys2Proof Sys2Proof.Machine

/-- For one thread whose guard is true and whose form breaks no limit: nop only goes on; yield is not picked in the next cycle; exit leaves every token, clears its live bit and never issues again; brk takes the breakpoint trap at its own slot; trap takes the software trap with its code and the thread stands at the next slot; rpt with a count of 0 goes on, and with another count enters the repeat body with the count, iteration 0 and the return point; tok.leave leaves its n innermost tokens. Where the rules leave a choice it takes the model's, log entries 14, 18, 20. -/
def Obligations.ControlCompletes : Prop :=
    (∀ (c : Ctl) (s s1 : State) (t : TRef),
      Runs c (.nop c) s t s1 →
      exec (.nop c) s = .next (s1.ends t (s1)))
    ∧ (∀ (c : Ctl) (s s1 : State) (t : TRef),
      Runs c (.yield c) s t s1 →
      exec (.yield c) s = .next (s1.ends t (s1.updThread t fun x => { x with yieldAt := s1.clk + 1 })))
    ∧ (∀ (c : Ctl) (s s1 : State) (t : TRef),
      Runs c (.exit c) s t s1 →
      exec (.exit c) s = .next (s1.endsWith t ((.stop (s1.exitThread t)))))
    ∧ (∀ (c : Ctl) (s s1 : State) (t : TRef),
      Runs c (.brk c) s t s1 →
      exec (.brk c) s = .next ((s1.trap t causeBreakpoint 0 false 0).tokenEnds))
    ∧ (∀ (c : Ctl) (code : BitVec 16) (s s1 : State) (t : TRef),
      Runs c (.trap c code) s t s1 →
      ((s1.trap t causeSoftware 0 false code).advance t).isOk = true →
      exec (.trap c code) s = .next (((s1.trap t causeSoftware 0 false code).advance t).st.tokenEnds))
    ∧ (∀ (c : Ctl) (a : Operand) (disp : BitVec 28) (s s1 : State) (t : TRef),
      Runs c (.rpt c a disp) s t s1 →
      s1.src32 t a = 0 →
      exec (.rpt c a disp) s = .next (s1.ends t (s1)))
    ∧ (∀ (c : Ctl) (a : Operand) (disp : BitVec 28) (s s1 : State) (t : TRef) (w : W96),
      Runs c (.rpt c a disp) s t s1 →
      s1.src32 t a ≠ 0 →
      (s1.target t (immTarget (s1.thread t).pc disp)).word = some w →
      (headerOf w).kind = 3 →
      exec (.rpt c a disp) s = .next (s1.endsWith t ((.goto ((s1.target t (immTarget (s1.thread t).pc disp)).st.updThread t fun x => { x with rep := some { remaining := s1.src32 t a, body := immTarget (s1.thread t).pc disp, iteration := 0, retPc := if (s1.thread t).slot.toNat == s1.gang.hdr.cnt then fallAddr (s1.thread t).pc s1.gang.hdr.cnt else (s1.thread t).pc, retSlot := if (s1.thread t).slot.toNat == s1.gang.hdr.cnt then 0 else (s1.thread t).slot + 1 } }) (immTarget (s1.thread t).pc disp)))))
    ∧ (∀ (c : Ctl) (n : BitVec 4) (s s1 : State) (t : TRef),
      RunsAll c (.tokLeave c n) s [t] s1 →
      s1.guard t c = true →
      n.toNat ≤ (s1.thread t).depth →
      exec (.tokLeave c n) s = .next (s1.ends t (State.leaveTokens n.toNat s1 t)))

/-- bra, brx, ret, call and callx of one thread whose guard is true, whose depth is at least n and whose target is a header: the n innermost tokens are left, call and callx write the fall-through address of the clause to the pair with latency 4, and the thread stands at slot 0 of the target. A thread whose guard is false goes on to the next slot. Where the rules leave a choice it takes the model's, log entries 14, 23. -/
def Obligations.TransfersComplete : Prop :=
    (∀ (c : Ctl) (u : Bool) (n : BitVec 4) (disp : BitVec 28) (s s1 : State) (t : TRef),
      RunsAll c (.bra c u n disp) s [t] s1 →
      s1.guard t c = true →
      n.toNat ≤ (s1.thread t).depth →
      (s1.target t (immTarget (s1.thread t).pc disp)).word.isSome = true →
      exec (.bra c u n disp) s = .next (s1.endsWith t (.goto ((State.leaveTokens n.toNat s1 t)) (immTarget (s1.thread t).pc disp))))
    ∧ (∀ (c : Ctl) (u : Bool) (n : BitVec 4) (a : Operand) (s s1 : State) (t : TRef),
      RunsAll c (.brx c u n a) s [t] s1 →
      s1.guard t c = true →
      n.toNat ≤ (s1.thread t).depth →
      (s1.target t (s1.src64 t a)).word.isSome = true →
      exec (.brx c u n a) s = .next (s1.endsWith t (.goto ((State.leaveTokens n.toNat s1 t)) (s1.src64 t a))))
    ∧ (∀ (c : Ctl) (u : Bool) (n : BitVec 4) (a : Operand) (s s1 : State) (t : TRef),
      RunsAll c (.ret c u n a) s [t] s1 →
      s1.guard t c = true →
      n.toNat ≤ (s1.thread t).depth →
      (s1.target t (s1.src64 t a)).word.isSome = true →
      exec (.ret c u n a) s = .next (s1.endsWith t (.goto ((State.leaveTokens n.toNat s1 t)) (s1.src64 t a))))
    ∧ (∀ (c : Ctl) (u : Bool) (d : Operand) (disp : BitVec 28) (s s1 : State) (t : TRef),
      RunsAll c (.call c u d disp) s [t] s1 →
      s1.guard t c = true →
      (s1.target t (immTarget (s1.thread t).pc disp)).word.isSome = true →
      exec (.call c u d disp) s = .next (s1.endsWith t (.goto (State.linkTo d (s1) t) (immTarget (s1.thread t).pc disp))))
    ∧ (∀ (c : Ctl) (u : Bool) (d a : Operand) (s s1 : State) (t : TRef),
      RunsAll c (.callx c u d a) s [t] s1 →
      s1.guard t c = true →
      (s1.target t (s1.src64 t a)).word.isSome = true →
      exec (.callx c u d a) s = .next (s1.endsWith t (.goto (State.linkTo d (s1) t) (s1.src64 t a))))
    ∧ (∀ (c : Ctl) (u : Bool) (n : BitVec 4) (disp : BitVec 28) (d a : Operand) (s s1 : State) (t : TRef) (i : Instr),
      i ∈ [Instr.bra c u n disp, .brx c u n a, .ret c u n a, .call c u d disp, .callx c u d a] →
      RunsAll c i s [t] s1 → s1.guard t c = false → exec i s = .next (s1.ends t s1))

/-- In a gang whose threads all belong to one group: with .u, if some thread differs in direction from the first, the first such thread takes the uniformity trap; else if a guard-true thread lacks the depth, the first such takes the token trap; else if a target is not a header, the first such takes that fetch trap at the branch. In each case no thread of the gang moves: all of them are held until the group resumes, and a fetch refused by the home is marked. -/
def Obligations.TransferChecks : Prop :=
    (∀ (c : Ctl) (u : Bool) (n : BitVec 4) (disp : BitVec 28) (s : State) (ms : List TRef) (s1 : State) (g : Nat) (t0 t : TRef) (rest : List TRef),
      RunsAll c (.bra c u n disp) s ms s1 → ms = t0 :: rest → (ms.all fun x => x.group == some g) = true → u = true →
      ms.find? (fun x => s1.guard x c != s1.guard t0 c || (s1.guard x c && immTarget (s1.thread x).pc disp != immTarget (s1.thread t0).pc disp)) = some t →
      exec (.bra c u n disp) s = .next ((s1.holdAll ms).trap t causeUniformity 0 false 0).tokenEnds)
    ∧ (∀ (c : Ctl) (n : BitVec 4) (disp : BitVec 28) (s : State) (ms : List TRef) (s1 : State) (g : Nat) (t : TRef),
      RunsAll c (.bra c false n disp) s ms s1 → ms ≠ [] → (ms.all fun x => x.group == some g) = true →
      ms.find? (fun x => s1.guard x c && (s1.thread x).depth < n.toNat) = some t →
      exec (.bra c false n disp) s = .next ((s1.holdAll ms).trap t causeToken 0 false 0).tokenEnds)
    ∧ (∀ (c : Ctl) (disp : BitVec 28) (s : State) (t : TRef) (s1 : State) (k : Nat),
      RunsAll c (.bra c false 0 disp) s [t] s1 → s1.guard t c = true → (s1.target t (immTarget (s1.thread t).pc disp)).cause = some k →
      exec (.bra c false 0 disp) s = .next ((s1.holdAll [t]).trapTarget t k (immTarget (s1.thread t).pc disp)).tokenEnds)

/-- A gathered set of one wave whose target is a rejoin header, whose members are below depth 15, and for which a token entry matches (valid, the same rejoin clause and parent) or is free: the members are added to the matching entry, or a new entry holds them with nobody arrived; each member goes one deeper with that entry innermost, and goes on. -/
def Obligations.TokenOpens : Prop :=
    (∀ (c : Ctl) (disp : BitVec 28) (s s1 : State) (ms : List TRef) (t0 : TRef) (rest : List TRef) (g : Nat) (w : W96) (e : Nat),
      RunsAll c (.tokOpen c disp) s ms s1 →
      ms = t0 :: rest →
      t0.group = some g →
      ((ms.foldl (fun s t => s.updThread t fun x => { x with park := .no }) s1).target t0 (immTarget ((ms.foldl (fun s t => s.updThread t fun x => { x with park := .no }) s1).thread t0).pc disp)).word = some w →
      (headerOf w).kind = 1 →
      (ms.all fun t => ((ms.foldl (fun s t => s.updThread t fun x => { x with park := .no }) s1).thread t).depth != 15) = true →
      ((ms.foldl (fun s t => s.updThread t fun x => { x with park := .no }) s1).thread t0).slot.toNat < s1.gang.hdr.cnt →
      (List.range 16).find? (fun i => (((ms.foldl (fun s t => s.updThread t fun x => { x with park := .no }) s1).waveOf t0).token i).valid && (((ms.foldl (fun s t => s.updThread t fun x => { x with park := .no }) s1).waveOf t0).token i).rejoin == immTarget ((ms.foldl (fun s t => s.updThread t fun x => { x with park := .no }) s1).thread t0).pc disp && (((ms.foldl (fun s t => s.updThread t fun x => { x with park := .no }) s1).waveOf t0).token i).parent == (if ((ms.foldl (fun s t => s.updThread t fun x => { x with park := .no }) s1).thread t0).depth = 0 then none else some ((ms.foldl (fun s t => s.updThread t fun x => { x with park := .no }) s1).thread t0).innermost)) = some e →
      exec (.tokOpen c disp) s = .next ((ms.foldl (fun s t => (s.updThread t fun x => { x with depth := x.depth + 1, innermost := e }).settleLane t (.next (s.updThread t fun x => { x with depth := x.depth + 1, innermost := e }))) (((ms.foldl (fun s t => s.updThread t fun x => { x with park := .no }) s1).target t0 (immTarget ((ms.foldl (fun s t => s.updThread t fun x => { x with park := .no }) s1).thread t0).pc disp)).st.updWave g ((ms.foldl (fun s t => s.updThread t fun x => { x with park := .no }) s1).thread t0).wave fun w => { w with tokens := w.tokens.set e ({ ((ms.foldl (fun s t => s.updThread t fun x => { x with park := .no }) s1).waveOf t0).token e with expected := (((ms.foldl (fun s t => s.updThread t fun x => { x with park := .no }) s1).waveOf t0).token e).expected ||| (ms.foldl (fun m t => m ||| laneBit ((ms.foldl (fun s t => s.updThread t fun x => { x with park := .no }) s1).thread t).lane) (0 : W32)) } : Token) })).tokenEnds))
    ∧ (∀ (c : Ctl) (disp : BitVec 28) (s s1 : State) (ms : List TRef) (t0 : TRef) (rest : List TRef) (g : Nat) (w : W96) (e : Nat),
      RunsAll c (.tokOpen c disp) s ms s1 →
      ms = t0 :: rest →
      t0.group = some g →
      ((ms.foldl (fun s t => s.updThread t fun x => { x with park := .no }) s1).target t0 (immTarget ((ms.foldl (fun s t => s.updThread t fun x => { x with park := .no }) s1).thread t0).pc disp)).word = some w →
      (headerOf w).kind = 1 →
      (ms.all fun t => ((ms.foldl (fun s t => s.updThread t fun x => { x with park := .no }) s1).thread t).depth != 15) = true →
      ((ms.foldl (fun s t => s.updThread t fun x => { x with park := .no }) s1).thread t0).slot.toNat < s1.gang.hdr.cnt →
      (List.range 16).find? (fun i => (((ms.foldl (fun s t => s.updThread t fun x => { x with park := .no }) s1).waveOf t0).token i).valid && (((ms.foldl (fun s t => s.updThread t fun x => { x with park := .no }) s1).waveOf t0).token i).rejoin == immTarget ((ms.foldl (fun s t => s.updThread t fun x => { x with park := .no }) s1).thread t0).pc disp && (((ms.foldl (fun s t => s.updThread t fun x => { x with park := .no }) s1).waveOf t0).token i).parent == (if ((ms.foldl (fun s t => s.updThread t fun x => { x with park := .no }) s1).thread t0).depth = 0 then none else some ((ms.foldl (fun s t => s.updThread t fun x => { x with park := .no }) s1).thread t0).innermost)) = none →
      (List.range 16).find? (fun i => !(((ms.foldl (fun s t => s.updThread t fun x => { x with park := .no }) s1).waveOf t0).token i).valid) = some e →
      exec (.tokOpen c disp) s = .next ((ms.foldl (fun s t => (s.updThread t fun x => { x with depth := x.depth + 1, innermost := e }).settleLane t (.next (s.updThread t fun x => { x with depth := x.depth + 1, innermost := e }))) (((ms.foldl (fun s t => s.updThread t fun x => { x with park := .no }) s1).target t0 (immTarget ((ms.foldl (fun s t => s.updThread t fun x => { x with park := .no }) s1).thread t0).pc disp)).st.updWave g ((ms.foldl (fun s t => s.updThread t fun x => { x with park := .no }) s1).thread t0).wave fun w => { w with tokens := w.tokens.set e (⟨true, immTarget ((ms.foldl (fun s t => s.updThread t fun x => { x with park := .no }) s1).thread t0).pc disp, if ((ms.foldl (fun s t => s.updThread t fun x => { x with park := .no }) s1).thread t0).depth = 0 then none else some ((ms.foldl (fun s t => s.updThread t fun x => { x with park := .no }) s1).thread t0).innermost, (ms.foldl (fun m t => m ||| laneBit ((ms.foldl (fun s t => s.updThread t fun x => { x with park := .no }) s1).thread t).lane) (0 : W32)), 0⟩ : Token) })).tokenEnds))

/-- A thread before its last slot stands at the next slot. At the last slot of a clause outside a repeat it enters slot 0 of the next 16-byte boundary after the clause when a header stands there, and takes the trap of the target check with that address otherwise. At the last slot of a repeat body with more than one pass left it starts the body again with one pass less and the next iteration index. Where the rules leave a choice it takes the model's, log entry 14. -/
def Obligations.NextSlot : Prop :=
    (∀ (s1 s2 : State) (t : TRef), (s2.thread t).slot.toNat < s2.gang.hdr.cnt →
      s1.ends t s2 = (s2.updThread t fun x => { x with slot := x.slot + 1, stepOver := false }).tokenEnds)
    ∧ (∀ (s1 s2 : State) (t : TRef), (s2.thread t).slot.toNat = s2.gang.hdr.cnt → (s2.thread t).rep = none →
      (s2.target t (fallAddr (s2.thread t).pc s2.gang.hdr.cnt)).word.isSome = true →
      s1.ends t s2 = ((s2.target t (fallAddr (s2.thread t).pc s2.gang.hdr.cnt)).st.moveTo t (fallAddr (s2.thread t).pc s2.gang.hdr.cnt)).tokenEnds)
    ∧ (∀ (s1 s2 : State) (t : TRef) (k : Nat), (s2.thread t).slot.toNat = s2.gang.hdr.cnt → (s2.thread t).rep = none →
      (s2.target t (fallAddr (s2.thread t).pc s2.gang.hdr.cnt)).cause = some k →
      s1.ends t s2 = (s1.trapTarget t k (fallAddr (s2.thread t).pc s2.gang.hdr.cnt)).tokenEnds)
    ∧ (∀ (s1 s2 : State) (t : TRef) (r : Rep), (s2.thread t).slot.toNat = s2.gang.hdr.cnt → (s2.thread t).rep = some r → r.body = (s2.thread t).pc →
      1 < r.remaining.toNat → s1.ends t s2 = (s2.updThread t fun x => { x with slot := 0, stepOver := false, rep := some { r with remaining := r.remaining - 1, iteration := r.iteration + 1 } }).tokenEnds)

/-- For one thread: getsr writes the value of the named special register in the issue cycle, whole under .b64 and word w under .b32, with latency 4; setsr writes the stack pointer, a word of a route register, or (privileged) a breakpoint register of its core from the next cycle. The time stamp %clk reads the core cycle count and %tid, %lane and %wave read the thread's own numbers. Where the rules leave a choice it takes the model's, log entries 12, 17. -/
def Obligations.SpecialRegistersComplete : Prop :=
    (∀ (c : Ctl) (ty : Ty) (w : BitVec 2) (d : Operand) (sr : BitVec 9) (s s1 : State) (t : TRef),
      Runs c (.getsr c ty w d sr) s t s1 →
      s1.destLocked t d (tyRegs ty) = false →
      exec (.getsr c ty w d sr) s = .next (s1.ends t (s1.laterAll t 4 (wrTy ty d (s1.srWord t ty w sr)))))
    ∧ (∀ (c : Ctl) (ty : Ty) (w : BitVec 2) (sr : BitVec 9) (a : Operand) (s s1 : State) (t : TRef),
      Runs c (.setsr c ty w sr a) s t s1 →
      exec (.setsr c ty w sr a) s = .next (s1.ends t (s1.setSr t ty w sr.toNat (s1.src t ty a))))
    ∧ (∀ (s : State) (t : TRef), s.sreg t 0x010 = BitVec.ofNat 128 s.clk ∧ s.sreg t 0x011 = BitVec.ofNat 128 s.gtsc ∧ s.sreg t 0x000 = BitVec.ofNat 128 (s.thread t).tid ∧
      s.sreg t 0x001 = BitVec.ofNat 128 (s.thread t).lane ∧ s.sreg t 0x002 = BitVec.ofNat 128 ((s.thread t).lane / 4) ∧ s.sreg t 0x003 = BitVec.ofNat 128 (s.thread t).wave)
    ∧ (∀ (s : State) (t : TRef) (w : BitVec 2) (y : W64), s.setSr t .b64 w 0x031 y = s.updThread t (fun x => { x with sp := y }) ∧
      s.setSr t .b64 w 0x100 y = s.updCore (s.ctx t).core (fun k => k.bpPut 0 (y &&& 0x1FFFFFFFFFFFFF0)))

/-- For a gang of any size whose threads belong to groups, whose form breaks no limit, with no matrix operation queued: each thread whose guard is true reads its sources in the issue cycle, in ascending order of the gang, and its results are delivered after the latency of the opcode table (4, 6 or 8 cycles; 4 for the predicate that cvt writes); every thread goes on to its next slot. Where the rules leave a choice it takes the model's, log entries 12, 13. -/
def Obligations.AluCompletes : Prop :=
    ∀ (c : Ctl) (i : Instr) (lat : Nat) (s : State), fixedLatency i = some (c, lat) → gangOk c i s = true → s.noMatrix = true →
      exec i s = .next (s.gangEnds c fun s t => ((aluWrites (s.src t) i).getD []).foldl (fun s w => s.later t (formLatency i lat w) w) s)

/-- A mov or movi carrying .one, issued for one guard-true thread of the group, writes the uniform register with latency 4. Where the rules leave a choice it takes the model's, log entry 15. -/
def Obligations.UniformMoveCompletes : Prop :=
    (∀ (c : Ctl) (ty : Ty) (one : Bool) (d a : Operand) (s s1 : State) (t : TRef),
      Runs c (.mov c ty one d a) s t s1 →
      s1.noMatrix = true →
      exec (.mov c ty one d a) s = .next (s1.ends t (s1.laterAll t 4 ((aluWrites (s1.src t) (.mov c ty one d a)).getD []))))
    ∧ (∀ (c : Ctl) (ty : Ty) (one : Bool) (d : Operand) (x : BitVec 32) (s s1 : State) (t : TRef),
      Runs c (.movi c ty one d x) s t s1 →
      s1.noMatrix = true →
      exec (.movi c ty one d x) s = .next (s1.ends t (s1.laterAll t 4 ((aluWrites (s1.src t) (.movi c ty one d x)).getD []))))

/-- lg2, ex2, rcp, rsq and sqrt of one thread whose flag does not stand at 7, with no register locked: the result is fixed in the issue cycle and becomes a pending operation that has raised the flag. For one thread: qswap with pattern p delivers, after 6 cycles, the source of the thread at quad position q xor (p + 1), where q is its own; qbcast that of the thread at the named position. A position that holds no thread reads zero. Where the rules leave a choice it takes the model's, log entry 125. -/
def Obligations.SpecialAndQuadFunctionsComplete : Prop :=
    (∀ (c : Ctl) (d a : Operand) (i : Instr) (s s1 : State) (t : TRef), i ∈ [Instr.lg2 c d a, .ex2 c d a, .rcp c d a, .rsq c d a, .sqrt c d a] →
      Runs c i s t s1 → s1.flagFull t c = false → s1.noMatrix = true → exec i s = .next (s1.ends t (s1.result t c ((aluWrites (s1.src t) i).getD []))))
    ∧ (∀ (c : Ctl) (ty : Ty) (pat : BitVec 2) (d a : Operand) (s s1 : State) (t : TRef),
      Runs c (.qswap c ty pat d a) s t s1 →
      s1.destLocked t d (tyRegs ty) = false →
      exec (.qswap c ty pat d a) s = .next (s1.ends t (s1.laterAll t 6 (wrTy ty d (s.quadSrc t ty a (Nat.xor ((s.thread t).lane % 4) (pat.toNat + 1)))))))
    ∧ (∀ (c : Ctl) (ty : Ty) (pos : BitVec 2) (d a : Operand) (s s1 : State) (t : TRef),
      Runs c (.qbcast c ty pos d a) s t s1 →
      s1.destLocked t d (tyRegs ty) = false →
      exec (.qbcast c ty pos d a) s = .next (s1.ends t (s1.laterAll t 6 (wrTy ty d (s.quadSrc t ty a pos.toNat)))))

/-- For a gathered set whose members' masks name their own lanes, with no member's flag at 7, no destination locked and no fetch of the next slot outstanding: every member leaves its park with a pending result under its flag, made from the lanes and sources of all members as R162 to R165 say (for vote.ballot the mask of the lanes whose value is not 0, for elect whether it is the lowest lane). Where the rules leave a choice it takes the model's, log entry 13. -/
def Obligations.CollectivesComplete : Prop :=
    (∀ (c : Ctl) (ty : Ty) (mode : ShflMode) (seg : BitVec 3) (koff : BitVec 6) (d a b e : Operand) (s s1 : State) (ms : List TRef),
      RunsAll c (.shfl c ty mode seg koff d a b e) s ms s1 →
      (ms.all fun t => (s1.parkMask t b).getLsbD (s1.thread t).lane) = true →
      (ms.any fun t => s1.flagFull t c || s1.destLocked t d (tyRegs ty) || (s1.advance t).isWait) = false →
      exec (.shfl c ty mode seg koff d a b e) s = .next (s1.endsAll c ms fun t => wrTy ty d (match shflLane mode (shflSeg seg.toNat (s1.narrow t)) (s1.laneOf t) (if e == .none then koff.toInt else (s1.src32 t e).toInt) with | none => s1.src t ty a | some l => match ms.find? (fun u => s1.laneOf u == l) with | some u => s1.src u ty a | none => s1.src t ty a)))
    ∧ (∀ (c : Ctl) (mode : VoteMode) (d a b : Operand) (s s1 : State) (ms : List TRef),
      RunsAll c (.vote c mode d a b) s ms s1 →
      (ms.all fun t => (s1.parkMask t b).getLsbD (s1.thread t).lane) = true →
      (ms.any fun t => s1.flagFull t c || s1.destLocked t d 1 || (s1.advance t).isWait) = false →
      exec (.vote c mode d a b) s = .next (s1.endsAll c ms fun t => match mode with | .all => wrP d (ms.all fun u => s1.src32 u a != 0) | .any => wrP d (ms.any fun u => s1.src32 u a != 0) | .eq => wrP d (ms.all (fun u => s1.src32 u a != 0) || ms.all fun u => !(s1.src32 u a != 0)) | .ballot => wrReg d (s1.ballot ms fun u => s1.src32 u a != 0)))
    ∧ (∀ (c : Ctl) (ty : Ty) (d a b : Operand) (s s1 : State) (ms : List TRef),
      RunsAll c (.matchv c ty d a b) s ms s1 →
      (ms.all fun t => (s1.parkMask t b).getLsbD (s1.thread t).lane) = true →
      (ms.any fun t => s1.flagFull t c || s1.destLocked t d 1 || (s1.advance t).isWait) = false →
      exec (.matchv c ty d a b) s = .next (s1.endsAll c ms fun t => wrReg d (s1.ballot ms fun u => s1.src u ty a == s1.src t ty a)))
    ∧ (∀ (c : Ctl) (ty : Ty) (rnd : Rnd) (op : RedOp) (d a b : Operand) (s s1 : State) (ms : List TRef),
      RunsAll c (.wred c ty rnd op d a b) s ms s1 →
      (ms.all fun t => (s1.parkMask t b).getLsbD (s1.thread t).lane) = true →
      (ms.any fun t => s1.flagFull t c || s1.destLocked t d 1 || (s1.advance t).isWait) = false →
      exec (.wred c ty rnd op d a b) s = .next (s1.endsAll c ms fun t => wrReg d (redFold ty rnd op (ms.map fun u => s1.src32 u a))))
    ∧ (∀ (c : Ctl) (ty : Ty) (d a b e : Operand) (s s1 : State) (ms : List TRef),
      RunsAll c (.wmaxi c ty d a b e) s ms s1 →
      (ms.all fun t => (s1.parkMask t e).getLsbD (s1.thread t).lane) = true →
      (ms.any fun t => s1.flagFull t c || s1.destLocked t d 2 || (s1.advance t).isWait) = false →
      exec (.wmaxi c ty d a b e) s = .next (s1.endsAll c ms fun t => wrTy .b64 d ((wmaxiFold ty (ms.map fun u => (s1.src32 u a, s1.src32 u b))).2 ++ (if ty == .f32 && (f32Of (wmaxiFold ty (ms.map fun u => (s1.src32 u a, s1.src32 u b))).1).isNan then (0x7FC00000 : W32) else (wmaxiFold ty (ms.map fun u => (s1.src32 u a, s1.src32 u b))).1))))
    ∧ (∀ (c : Ctl) (ty : Ty) (rnd : Rnd) (op : RedOp) (excl : Bool) (d a b : Operand) (s s1 : State) (ms : List TRef),
      RunsAll c (.wscan c ty rnd op excl d a b) s ms s1 →
      (ms.all fun t => (s1.parkMask t b).getLsbD (s1.thread t).lane) = true →
      (ms.any fun t => s1.flagFull t c || s1.destLocked t d 1 || (s1.advance t).isWait) = false →
      exec (.wscan c ty rnd op excl d a b) s = .next (s1.endsAll c ms fun t => wrReg d (redFold ty rnd op ((ms.filter fun u => if excl then s1.laneOf u < s1.laneOf t else s1.laneOf u ≤ s1.laneOf t).map fun u => s1.src32 u a))))
    ∧ (∀ (c : Ctl) (d a : Operand) (s s1 : State) (ms : List TRef),
      RunsAll c (.elect c d a) s ms s1 →
      (ms.all fun t => (s1.parkMask t a).getLsbD (s1.thread t).lane) = true →
      (ms.any fun t => s1.flagFull t c || s1.destLocked t d 1 || (s1.advance t).isWait) = false →
      exec (.elect c d a) s = .next (s1.endsAll c ms fun t => wrP d (ms.all fun u => s1.laneOf t ≤ s1.laneOf u)))

/-- For one thread whose access may go on (no acquire open, its flag below 7, no locked destination): ld whose pages pass the checks raises its flag with one part per aligned word of its ranges, the L1 serving only a load that is neither an acquire nor fresh nor in quantum mode, with an acquire of its scope for .acq, and .nf clears its predicate; ld.nf of a page that is not resident writes zeros and sets the predicate; lds reads its scratchpad bytes, ldk a uniform register, once nothing in flight holds the range. Where the rules leave a choice it takes the model's, log entries 9, 26. -/
def Obligations.LoadsComplete : Prop :=
    (∀ (c : Ctl) (ty : Ty) (acq : Bool) (scope : Scope) (fresh nf : Bool) (vec : BitVec 2) (d a b : Operand) (off : BitVec 12) (s s1 : State) (t : TRef),
      Runs c (.ld c ty acq scope fresh nf vec d a b off) s t s1 →
      (acq && s1.loadHeld t c d (vecRegs ty vec) || s1.ldHeld t c d (vecRegs ty vec)) = false →
      (s1.access t (s1.addr t a off) (vecCount vec * tyWidth ty / 8) false nf [(s1.addr t a off).toNat]).isOk = true →
      (s1.access t (s1.addr t a off) (vecCount vec * tyWidth ty / 8) false nf [(s1.addr t a off).toNat]).st.quantHeld t (memParts (s1.access t (s1.addr t a off) (vecCount vec * tyWidth ty / 8) false nf [(s1.addr t a off).toNat]).rs) = false →
      exec (.ld c ty acq scope fresh nf vec d a b off) s = .next (s1.ends t ((s1.access t (s1.addr t a off) (vecCount vec * tyWidth ty / 8) false nf [(s1.addr t a off).toNat]).st.beginLoad t c (!acq && !fresh && !(s1.ctx t).quant) (memParts (s1.access t (s1.addr t a off) (vecCount vec * tyWidth ty / 8) false nf [(s1.addr t a off).toNat]).rs) (.regs false (opNum d) ty (vecCount vec)) (if nf then wrP b false else []) (if acq && !(s1.ctx t).quant then some scope else none))))
    ∧ (∀ (c : Ctl) (ty : Ty) (acq : Bool) (scope : Scope) (fresh nf : Bool) (vec : BitVec 2) (d a b : Operand) (off : BitVec 12) (s s1 : State) (t : TRef),
      Runs c (.ld c ty acq scope fresh nf vec d a b off) s t s1 →
      (acq && s1.loadHeld t c d (vecRegs ty vec) || s1.ldHeld t c d (vecRegs ty vec)) = false →
      (s1.access t (s1.addr t a off) (vecCount vec * tyWidth ty / 8) false nf [(s1.addr t a off).toNat]).away.isSome = true →
      exec (.ld c ty acq scope fresh nf vec d a b off) s = .next (s1.ends t (s1.result t c ((List.range (vecRegs ty vec)).map (fun i => Wr.v (opNum d + i) 0) ++ wrP b true))))
    ∧ (∀ (c : Ctl) (ty : Ty) (vec : BitVec 2) (d a : Operand) (off : BitVec 12) (s s1 : State) (t : TRef) (core o : Nat),
      Runs c (.lds c ty vec d a off) s t s1 →
      s1.loadHeld t c d (vecRegs ty vec) = false →
      (s1.spadPlace t (s1.spadAddr t a off) (vecCount vec * tyWidth ty / 8)).map (·.2) = some (core, o) →
      s1.spadReadHeld t core o (vecCount vec * tyWidth ty / 8) = false →
      exec (.lds c ty vec d a off) s = .next (s1.ends t (s1.beginLoad t c false (spadParts core o (vecCount vec * tyWidth ty / 8)) (.regs false (opNum d) ty (vecCount vec)) [] none)))
    ∧ (∀ (c : Ctl) (ty : Ty) (one sp : Bool) (vec : BitVec 2) (d a : Operand) (off : BitVec 12) (s s1 : State) (t : TRef) (core o : Nat),
      Runs c (.ldk c ty one sp vec d a off) s t s1 →
      sp = true →
      s1.loadHeld t c d (vecRegs ty vec) = false →
      (s1.spadPlace t (s1.spadAddr t a off) (vecCount vec * tyWidth ty / 8)).map (·.2) = some (core, o) →
      s1.spadReadHeld t core o (vecCount vec * tyWidth ty / 8) = false →
      exec (.ldk c ty one sp vec d a off) s = .next (s1.ends t (s1.beginLoad t c false (spadParts core o (vecCount vec * tyWidth ty / 8)) (.regs true (opNum d) ty (vecCount vec)) [] none)))
    ∧ (∀ (c : Ctl) (ty : Ty) (one sp : Bool) (vec : BitVec 2) (d a : Operand) (off : BitVec 12) (s s1 : State) (t : TRef),
      Runs c (.ldk c ty one sp vec d a off) s t s1 →
      sp = false →
      s1.loadHeld t c d (vecRegs ty vec) = false →
      (s1.access t (s1.addr t a off) (vecCount vec * tyWidth ty / 8) false false [(s1.addr t a off).toNat]).isOk = true →
      (s1.access t (s1.addr t a off) (vecCount vec * tyWidth ty / 8) false false [(s1.addr t a off).toNat]).st.quantHeld t (memParts (s1.access t (s1.addr t a off) (vecCount vec * tyWidth ty / 8) false false [(s1.addr t a off).toNat]).rs) = false →
      exec (.ldk c ty one sp vec d a off) s = .next (s1.ends t ((s1.access t (s1.addr t a off) (vecCount vec * tyWidth ty / 8) false false [(s1.addr t a off).toNat]).st.beginLoad t c false (memParts (s1.access t (s1.addr t a off) (vecCount vec * tyWidth ty / 8) false false [(s1.addr t a off).toNat]).rs) (.regs true (opNum d) ty (vecCount vec)) [] none)))

/-- For one thread whose access may go on: once %prog has reached the element count the instruction is over and %prog is 0; before that, when no element left faults and none is held, the elements from %prog on are begun as one pending read under the flag, and the thread waits at the instruction or goes on, freely, to the clause that waits for the flag. Where the rules leave a choice it takes the model's, log entries 35, 39. -/
def Obligations.LongLoadsComplete : Prop :=
    (∀ (c : Ctl) (ty : Ty) (fresh bs : Bool) (cnt : BitVec 6) (d a b : Operand) (off : BitVec 12) (s s1 : State) (t : TRef),
      Runs c (.gather c ty fresh bs cnt d a b off) s t s1 →
      s1.ldHeld t c d ((cnt.toNat + 1) * tyRegs ty) = false →
      cnt.toNat + 1 ≤ (s1.thread t).prog.toNat →
      exec (.gather c ty fresh bs cnt d a b off) s = .next (s1.ends t (s1.updThread t fun x => { x with prog := 0 })))
    ∧ (∀ (c : Ctl) (ty : Ty) (fresh bs : Bool) (cnt : BitVec 6) (d a b : Operand) (off : BitVec 12) (s s1 : State) (t : TRef),
      Runs c (.gather c ty fresh bs cnt d a b off) s t s1 →
      s1.ldHeld t c d ((cnt.toNat + 1) * tyRegs ty) = false →
      (s1.thread t).prog.toNat < cnt.toNat + 1 →
      (State.elemScan (fun s' j => match s'.access t (s1.addr t a off + (s1.vreg t (opNum b + j)).zeroExtend 64 * BitVec.ofNat 64 (if bs then 1 else tyWidth ty / 8)) (tyWidth ty / 8) false false [(s1.addr t a off + (s1.vreg t (opNum b + j)).zeroExtend 64 * BitVec.ofNat 64 (if bs then 1 else tyWidth ty / 8)).toNat] with
          | .wait => (Elem.wait, s')
          | .fault k f s' => (Elem.bad k f, s')
          | .nonres f => (Elem.bad causePage f, s')
          | .ok rs s'' => (Elem.ok (memParts rs), s'')) (cnt.toNat + 1 - (s1.thread t).prog.toNat) (s1.thread t).prog.toNat s1 []).2.2 = none →
      (State.elemScan (fun s' j => match s'.access t (s1.addr t a off + (s1.vreg t (opNum b + j)).zeroExtend 64 * BitVec.ofNat 64 (if bs then 1 else tyWidth ty / 8)) (tyWidth ty / 8) false false [(s1.addr t a off + (s1.vreg t (opNum b + j)).zeroExtend 64 * BitVec.ofNat 64 (if bs then 1 else tyWidth ty / 8)).toNat] with
          | .wait => (Elem.wait, s')
          | .fault k f s' => (Elem.bad k f, s')
          | .nonres f => (Elem.bad causePage f, s')
          | .ok rs s'' => (Elem.ok (memParts rs), s'')) (cnt.toNat + 1 - (s1.thread t).prog.toNat) (s1.thread t).prog.toNat s1 []).1.quantHeld t (State.elemScan (fun s' j => match s'.access t (s1.addr t a off + (s1.vreg t (opNum b + j)).zeroExtend 64 * BitVec.ofNat 64 (if bs then 1 else tyWidth ty / 8)) (tyWidth ty / 8) false false [(s1.addr t a off + (s1.vreg t (opNum b + j)).zeroExtend 64 * BitVec.ofNat 64 (if bs then 1 else tyWidth ty / 8)).toNat] with
          | .wait => (Elem.wait, s')
          | .fault k f s' => (Elem.bad k f, s')
          | .nonres f => (Elem.bad causePage f, s')
          | .ok rs s'' => (Elem.ok (memParts rs), s'')) (cnt.toNat + 1 - (s1.thread t).prog.toNat) (s1.thread t).prog.toNat s1 []).2.1.flatten = false →
      ((State.elemScan (fun s' j => match s'.access t (s1.addr t a off + (s1.vreg t (opNum b + j)).zeroExtend 64 * BitVec.ofNat 64 (if bs then 1 else tyWidth ty / 8)) (tyWidth ty / 8) false false [(s1.addr t a off + (s1.vreg t (opNum b + j)).zeroExtend 64 * BitVec.ofNat 64 (if bs then 1 else tyWidth ty / 8)).toNat] with
          | .wait => (Elem.wait, s')
          | .fault k f s' => (Elem.bad k f, s')
          | .nonres f => (Elem.bad causePage f, s')
          | .ok rs s'' => (Elem.ok (memParts rs), s'')) (cnt.toNat + 1 - (s1.thread t).prog.toNat) (s1.thread t).prog.toNat s1 []).2.1.any fun ps => ps.any fun x => match x.at_ with | .spad core o => s1.spadReadHeld t core o x.len | _ => false) = false →
      exec (.gather c ty fresh bs cnt d a b off) s = .next (s1.endsWith t ((if !(s1.ctx t).quant && s1.flip [0x403] then .stay (((State.elemScan (fun s' j => match s'.access t (s1.addr t a off + (s1.vreg t (opNum b + j)).zeroExtend 64 * BitVec.ofNat 64 (if bs then 1 else tyWidth ty / 8)) (tyWidth ty / 8) false false [(s1.addr t a off + (s1.vreg t (opNum b + j)).zeroExtend 64 * BitVec.ofNat 64 (if bs then 1 else tyWidth ty / 8)).toNat] with
          | .wait => (Elem.wait, s')
          | .fault k f s' => (Elem.bad k f, s')
          | .nonres f => (Elem.bad causePage f, s')
          | .ok rs s'' => (Elem.ok (memParts rs), s'')) (cnt.toNat + 1 - (s1.thread t).prog.toNat) (s1.thread t).prog.toNat s1 []).1.beginLoad t c (!fresh && !(s1.ctx t).quant) (State.elemScan (fun s' j => match s'.access t (s1.addr t a off + (s1.vreg t (opNum b + j)).zeroExtend 64 * BitVec.ofNat 64 (if bs then 1 else tyWidth ty / 8)) (tyWidth ty / 8) false false [(s1.addr t a off + (s1.vreg t (opNum b + j)).zeroExtend 64 * BitVec.ofNat 64 (if bs then 1 else tyWidth ty / 8)).toNat] with
          | .wait => (Elem.wait, s')
          | .fault k f s' => (Elem.bad k f, s')
          | .nonres f => (Elem.bad causePage f, s')
          | .ok rs s'' => (Elem.ok (memParts rs), s'')) (cnt.toNat + 1 - (s1.thread t).prog.toNat) (s1.thread t).prog.toNat s1 []).2.1.flatten (.elems (opNum d + (s1.thread t).prog.toNat * ((tyWidth ty / 8) / 4)) (if (tyWidth ty / 8) == 8 then .b64 else .b32) (cnt.toNat + 1 - (s1.thread t).prog.toNat)) [] none).waitFor t (State.elemScan (fun s' j => match s'.access t (s1.addr t a off + (s1.vreg t (opNum b + j)).zeroExtend 64 * BitVec.ofNat 64 (if bs then 1 else tyWidth ty / 8)) (tyWidth ty / 8) false false [(s1.addr t a off + (s1.vreg t (opNum b + j)).zeroExtend 64 * BitVec.ofNat 64 (if bs then 1 else tyWidth ty / 8)).toNat] with
          | .wait => (Elem.wait, s')
          | .fault k f s' => (Elem.bad k f, s')
          | .nonres f => (Elem.bad causePage f, s')
          | .ok rs s'' => (Elem.ok (memParts rs), s'')) (cnt.toNat + 1 - (s1.thread t).prog.toNat) (s1.thread t).prog.toNat s1 []).1.nextId) else .next (((State.elemScan (fun s' j => match s'.access t (s1.addr t a off + (s1.vreg t (opNum b + j)).zeroExtend 64 * BitVec.ofNat 64 (if bs then 1 else tyWidth ty / 8)) (tyWidth ty / 8) false false [(s1.addr t a off + (s1.vreg t (opNum b + j)).zeroExtend 64 * BitVec.ofNat 64 (if bs then 1 else tyWidth ty / 8)).toNat] with
          | .wait => (Elem.wait, s')
          | .fault k f s' => (Elem.bad k f, s')
          | .nonres f => (Elem.bad causePage f, s')
          | .ok rs s'' => (Elem.ok (memParts rs), s'')) (cnt.toNat + 1 - (s1.thread t).prog.toNat) (s1.thread t).prog.toNat s1 []).1.beginLoad t c (!fresh && !(s1.ctx t).quant) (State.elemScan (fun s' j => match s'.access t (s1.addr t a off + (s1.vreg t (opNum b + j)).zeroExtend 64 * BitVec.ofNat 64 (if bs then 1 else tyWidth ty / 8)) (tyWidth ty / 8) false false [(s1.addr t a off + (s1.vreg t (opNum b + j)).zeroExtend 64 * BitVec.ofNat 64 (if bs then 1 else tyWidth ty / 8)).toNat] with
          | .wait => (Elem.wait, s')
          | .fault k f s' => (Elem.bad k f, s')
          | .nonres f => (Elem.bad causePage f, s')
          | .ok rs s'' => (Elem.ok (memParts rs), s'')) (cnt.toNat + 1 - (s1.thread t).prog.toNat) (s1.thread t).prog.toNat s1 []).2.1.flatten (.elems (opNum d + (s1.thread t).prog.toNat * ((tyWidth ty / 8) / 4)) (if (tyWidth ty / 8) == 8 then .b64 else .b32) (cnt.toNat + 1 - (s1.thread t).prog.toNat)) [] none).updThread t fun x => { x with prog := 0 })))))
    ∧ (∀ (c : Ctl) (sp fresh : Bool) (cnt : BitVec 6) (d a : Operand) (off : BitVec 12) (s s1 : State) (t : TRef),
      Runs c (.ldblk c sp fresh cnt d a off) s t s1 →
      (if sp then s1.loadHeld t c d (cnt.toNat + 1) else s1.ldHeld t c d (cnt.toNat + 1)) = false →
      cnt.toNat + 1 ≤ (s1.thread t).prog.toNat →
      exec (.ldblk c sp fresh cnt d a off) s = .next (s1.ends t (s1.updThread t fun x => { x with prog := 0 })))
    ∧ (∀ (c : Ctl) (sp fresh : Bool) (cnt : BitVec 6) (d a : Operand) (off : BitVec 12) (s s1 : State) (t : TRef),
      Runs c (.ldblk c sp fresh cnt d a off) s t s1 →
      (if sp then s1.loadHeld t c d (cnt.toNat + 1) else s1.ldHeld t c d (cnt.toNat + 1)) = false →
      (s1.thread t).prog.toNat < cnt.toNat + 1 →
      (State.elemScan (fun s' j => if sp then (match s'.spadPlace t (s1.spadAddr t a off + BitVec.ofNat 32 (4 * j)) 4 with
            | none => (Elem.bad causeProtection ((s1.spadAddr t a off + BitVec.ofNat 32 (4 * j)).zeroExtend 64), s')
            | some (_, core, o) => (Elem.ok (spadParts core o 4), s'))
          else match s'.access t (s1.addr t a off + BitVec.ofNat 64 (4 * j)) 4 false false [(s1.addr t a off + BitVec.ofNat 64 (4 * j)).toNat] with
            | .wait => (Elem.wait, s')
            | .fault k f s' => (Elem.bad k f, s')
            | .nonres f => (Elem.bad causePage f, s')
            | .ok rs s'' => (Elem.ok (memParts rs), s'')) (cnt.toNat + 1 - (s1.thread t).prog.toNat) (s1.thread t).prog.toNat s1 []).2.2 = none →
      (State.elemScan (fun s' j => if sp then (match s'.spadPlace t (s1.spadAddr t a off + BitVec.ofNat 32 (4 * j)) 4 with
            | none => (Elem.bad causeProtection ((s1.spadAddr t a off + BitVec.ofNat 32 (4 * j)).zeroExtend 64), s')
            | some (_, core, o) => (Elem.ok (spadParts core o 4), s'))
          else match s'.access t (s1.addr t a off + BitVec.ofNat 64 (4 * j)) 4 false false [(s1.addr t a off + BitVec.ofNat 64 (4 * j)).toNat] with
            | .wait => (Elem.wait, s')
            | .fault k f s' => (Elem.bad k f, s')
            | .nonres f => (Elem.bad causePage f, s')
            | .ok rs s'' => (Elem.ok (memParts rs), s'')) (cnt.toNat + 1 - (s1.thread t).prog.toNat) (s1.thread t).prog.toNat s1 []).1.quantHeld t (State.elemScan (fun s' j => if sp then (match s'.spadPlace t (s1.spadAddr t a off + BitVec.ofNat 32 (4 * j)) 4 with
            | none => (Elem.bad causeProtection ((s1.spadAddr t a off + BitVec.ofNat 32 (4 * j)).zeroExtend 64), s')
            | some (_, core, o) => (Elem.ok (spadParts core o 4), s'))
          else match s'.access t (s1.addr t a off + BitVec.ofNat 64 (4 * j)) 4 false false [(s1.addr t a off + BitVec.ofNat 64 (4 * j)).toNat] with
            | .wait => (Elem.wait, s')
            | .fault k f s' => (Elem.bad k f, s')
            | .nonres f => (Elem.bad causePage f, s')
            | .ok rs s'' => (Elem.ok (memParts rs), s'')) (cnt.toNat + 1 - (s1.thread t).prog.toNat) (s1.thread t).prog.toNat s1 []).2.1.flatten = false →
      ((State.elemScan (fun s' j => if sp then (match s'.spadPlace t (s1.spadAddr t a off + BitVec.ofNat 32 (4 * j)) 4 with
            | none => (Elem.bad causeProtection ((s1.spadAddr t a off + BitVec.ofNat 32 (4 * j)).zeroExtend 64), s')
            | some (_, core, o) => (Elem.ok (spadParts core o 4), s'))
          else match s'.access t (s1.addr t a off + BitVec.ofNat 64 (4 * j)) 4 false false [(s1.addr t a off + BitVec.ofNat 64 (4 * j)).toNat] with
            | .wait => (Elem.wait, s')
            | .fault k f s' => (Elem.bad k f, s')
            | .nonres f => (Elem.bad causePage f, s')
            | .ok rs s'' => (Elem.ok (memParts rs), s'')) (cnt.toNat + 1 - (s1.thread t).prog.toNat) (s1.thread t).prog.toNat s1 []).2.1.any fun ps => ps.any fun x => match x.at_ with | .spad core o => s1.spadReadHeld t core o x.len | _ => false) = false →
      exec (.ldblk c sp fresh cnt d a off) s = .next (s1.endsWith t ((if !(s1.ctx t).quant && s1.flip [0x403] then .stay (((State.elemScan (fun s' j => if sp then (match s'.spadPlace t (s1.spadAddr t a off + BitVec.ofNat 32 (4 * j)) 4 with
            | none => (Elem.bad causeProtection ((s1.spadAddr t a off + BitVec.ofNat 32 (4 * j)).zeroExtend 64), s')
            | some (_, core, o) => (Elem.ok (spadParts core o 4), s'))
          else match s'.access t (s1.addr t a off + BitVec.ofNat 64 (4 * j)) 4 false false [(s1.addr t a off + BitVec.ofNat 64 (4 * j)).toNat] with
            | .wait => (Elem.wait, s')
            | .fault k f s' => (Elem.bad k f, s')
            | .nonres f => (Elem.bad causePage f, s')
            | .ok rs s'' => (Elem.ok (memParts rs), s'')) (cnt.toNat + 1 - (s1.thread t).prog.toNat) (s1.thread t).prog.toNat s1 []).1.beginLoad t c (!sp && !fresh && !(s1.ctx t).quant) (State.elemScan (fun s' j => if sp then (match s'.spadPlace t (s1.spadAddr t a off + BitVec.ofNat 32 (4 * j)) 4 with
            | none => (Elem.bad causeProtection ((s1.spadAddr t a off + BitVec.ofNat 32 (4 * j)).zeroExtend 64), s')
            | some (_, core, o) => (Elem.ok (spadParts core o 4), s'))
          else match s'.access t (s1.addr t a off + BitVec.ofNat 64 (4 * j)) 4 false false [(s1.addr t a off + BitVec.ofNat 64 (4 * j)).toNat] with
            | .wait => (Elem.wait, s')
            | .fault k f s' => (Elem.bad k f, s')
            | .nonres f => (Elem.bad causePage f, s')
            | .ok rs s'' => (Elem.ok (memParts rs), s'')) (cnt.toNat + 1 - (s1.thread t).prog.toNat) (s1.thread t).prog.toNat s1 []).2.1.flatten (.elems (opNum d + (s1.thread t).prog.toNat * (4 / 4)) (if 4 == 8 then .b64 else .b32) (cnt.toNat + 1 - (s1.thread t).prog.toNat)) [] none).waitFor t (State.elemScan (fun s' j => if sp then (match s'.spadPlace t (s1.spadAddr t a off + BitVec.ofNat 32 (4 * j)) 4 with
            | none => (Elem.bad causeProtection ((s1.spadAddr t a off + BitVec.ofNat 32 (4 * j)).zeroExtend 64), s')
            | some (_, core, o) => (Elem.ok (spadParts core o 4), s'))
          else match s'.access t (s1.addr t a off + BitVec.ofNat 64 (4 * j)) 4 false false [(s1.addr t a off + BitVec.ofNat 64 (4 * j)).toNat] with
            | .wait => (Elem.wait, s')
            | .fault k f s' => (Elem.bad k f, s')
            | .nonres f => (Elem.bad causePage f, s')
            | .ok rs s'' => (Elem.ok (memParts rs), s'')) (cnt.toNat + 1 - (s1.thread t).prog.toNat) (s1.thread t).prog.toNat s1 []).1.nextId) else .next (((State.elemScan (fun s' j => if sp then (match s'.spadPlace t (s1.spadAddr t a off + BitVec.ofNat 32 (4 * j)) 4 with
            | none => (Elem.bad causeProtection ((s1.spadAddr t a off + BitVec.ofNat 32 (4 * j)).zeroExtend 64), s')
            | some (_, core, o) => (Elem.ok (spadParts core o 4), s'))
          else match s'.access t (s1.addr t a off + BitVec.ofNat 64 (4 * j)) 4 false false [(s1.addr t a off + BitVec.ofNat 64 (4 * j)).toNat] with
            | .wait => (Elem.wait, s')
            | .fault k f s' => (Elem.bad k f, s')
            | .nonres f => (Elem.bad causePage f, s')
            | .ok rs s'' => (Elem.ok (memParts rs), s'')) (cnt.toNat + 1 - (s1.thread t).prog.toNat) (s1.thread t).prog.toNat s1 []).1.beginLoad t c (!sp && !fresh && !(s1.ctx t).quant) (State.elemScan (fun s' j => if sp then (match s'.spadPlace t (s1.spadAddr t a off + BitVec.ofNat 32 (4 * j)) 4 with
            | none => (Elem.bad causeProtection ((s1.spadAddr t a off + BitVec.ofNat 32 (4 * j)).zeroExtend 64), s')
            | some (_, core, o) => (Elem.ok (spadParts core o 4), s'))
          else match s'.access t (s1.addr t a off + BitVec.ofNat 64 (4 * j)) 4 false false [(s1.addr t a off + BitVec.ofNat 64 (4 * j)).toNat] with
            | .wait => (Elem.wait, s')
            | .fault k f s' => (Elem.bad k f, s')
            | .nonres f => (Elem.bad causePage f, s')
            | .ok rs s'' => (Elem.ok (memParts rs), s'')) (cnt.toNat + 1 - (s1.thread t).prog.toNat) (s1.thread t).prog.toNat s1 []).2.1.flatten (.elems (opNum d + (s1.thread t).prog.toNat * (4 / 4)) (if 4 == 8 then .b64 else .b32) (cnt.toNat + 1 - (s1.thread t).prog.toNat)) [] none).updThread t fun x => { x with prog := 0 })))))

/-- For one thread with no acquire open that holds it: st whose pages pass the write checks enters its words in the store queue (with .rel carrying what precedes it), or in quantum mode in the thread's buffer while its share holds it; sts writes its scratchpad bytes in one step once nothing holds the range, or buffers them in quantum mode. Where the rules leave a choice it takes the model's, log entries 27, 31. -/
def Obligations.StoresComplete : Prop :=
    (∀ (c : Ctl) (ty : Ty) (rel : Bool) (scope : Scope) (vec : BitVec 2) (a b : Operand) (off : BitVec 12) (s s1 : State) (t : TRef),
      Runs c (.st c ty rel scope vec a b off) s t s1 →
      s1.acqOpenLoad t = false →
      (s1.ctx t).quant = false →
      (s1.access t (s1.addr t a off) (vecCount vec * tyWidth ty / 8) true false [(s1.addr t a off).toNat]).isOk = true →
      exec (.st c ty rel scope vec a b off) s = .next (s1.ends t ((s1.access t (s1.addr t a off) (vecCount vec * tyWidth ty / 8) true false [(s1.addr t a off).toNat]).st.storeBytes t (if rel then some scope else none) (s1.access t (s1.addr t a off) (vecCount vec * tyWidth ty / 8) true false [(s1.addr t a off).toNat]).rs (storeData ty (vecCount vec) (s1.dataWords t ty b (vecRegs ty vec))))))
    ∧ (∀ (c : Ctl) (ty : Ty) (rel : Bool) (scope : Scope) (vec : BitVec 2) (a b : Operand) (off : BitVec 12) (s s1 : State) (t : TRef),
      Runs c (.st c ty rel scope vec a b off) s t s1 →
      s1.acqOpenLoad t = false →
      (s1.ctx t).quant = true →
      (s1.access t (s1.addr t a off) (vecCount vec * tyWidth ty / 8) true false [(s1.addr t a off).toNat]).isOk = true →
      quantumFull (s1.thread t) (((s1.access t (s1.addr t a off) (vecCount vec * tyWidth ty / 8) true false [(s1.addr t a off).toNat]).rs.foldl (fun (p : List QItem × Nat) r => (p.1 ++ [QItem.store r.pa (sliceB (storeData ty (vecCount vec) (s1.dataWords t ty b (vecRegs ty vec))) p.2 r.len) r.bypass], p.2 + r.len)) ([], 0)).1) = false →
      exec (.st c ty rel scope vec a b off) s = .next (s1.ends t ((((s1.access t (s1.addr t a off) (vecCount vec * tyWidth ty / 8) true false [(s1.addr t a off).toNat]).rs.foldl (fun (p : List QItem × Nat) r => (p.1 ++ [QItem.store r.pa (sliceB (storeData ty (vecCount vec) (s1.dataWords t ty b (vecRegs ty vec))) p.2 r.len) r.bypass], p.2 + r.len)) ([], 0)).1).foldl (fun s i => s.buffer t i) (s1.access t (s1.addr t a off) (vecCount vec * tyWidth ty / 8) true false [(s1.addr t a off).toNat]).st)))
    ∧ (∀ (c : Ctl) (ty : Ty) (vec : BitVec 2) (a b : Operand) (off : BitVec 12) (s s1 : State) (t : TRef) (core o : Nat),
      Runs c (.sts c ty vec a b off) s t s1 →
      s1.spadAcqHeld t = false →
      (s1.spadPlace t (s1.spadAddr t a off) (vecCount vec * tyWidth ty / 8)).map (·.2) = some (core, o) →
      s1.relHeld t = false →
      (s1.relFlush t).spadWriteHeld t core o (vecCount vec * tyWidth ty / 8) = false →
      ((s1.relFlush t).ctx t).quant = false →
      exec (.sts c ty vec a b off) s = .next (s1.ends t ((s1.relFlush t).storeSpad t core o (storeData ty (vecCount vec) (s1.dataWords t ty b (vecRegs ty vec))) false)))
    ∧ (∀ (c : Ctl) (ty : Ty) (vec : BitVec 2) (a b : Operand) (off : BitVec 12) (s s1 : State) (t : TRef) (core o : Nat),
      Runs c (.sts c ty vec a b off) s t s1 →
      s1.spadAcqHeld t = false →
      (s1.spadPlace t (s1.spadAddr t a off) (vecCount vec * tyWidth ty / 8)).map (·.2) = some (core, o) →
      s1.relHeld t = false →
      (s1.relFlush t).spadWriteHeld t core o (vecCount vec * tyWidth ty / 8) = false →
      ((s1.relFlush t).ctx t).quant = true →
      quantumFull ((s1.relFlush t).thread t) [.spad core o (storeData ty (vecCount vec) (s1.dataWords t ty b (vecRegs ty vec)))] = false →
      exec (.sts c ty vec a b off) s = .next (s1.ends t ((s1.relFlush t).buffer t (.spad core o (storeData ty (vecCount vec) (s1.dataWords t ty b (vecRegs ty vec)))))))

/-- For one thread: prefetch goes on, bringing the line into the L2 (and the L1) only when its page passes and its home can answer, and doing nothing otherwise; discard leaves unspecified bytes in each sector it covers, as stores, in quantum mode at the commit; l1.inv empties the L1 of its core; fence.rel releases, fence.acq acquires, fence.ar first makes every earlier and observed write visible at its scope; xfence does so for the paths it names and drops the L1 when it names LS. In quantum mode the fences and l1.inv do nothing. Where the rules leave a choice it takes the model's, log entries 27, 36. -/
def Obligations.CacheAndFenceComplete : Prop :=
    (∀ (c : Ctl) (l1 : Bool) (a : Operand) (off : BitVec 12) (s s1 : State) (t : TRef),
      Runs c (.prefetch c l1 a off) s t s1 →
      (s1.access t (BitVec.ofNat 64 ((s1.addr t a off).toNat / 128 * 128)) 1 false false [(s1.addr t a off).toNat / 128 * 128]).isOk = false →
      exec (.prefetch c l1 a off) s = .next (s1.ends t (s1)))
    ∧ (∀ (c : Ctl) (l1 : Bool) (a : Operand) (off : BitVec 12) (s s1 : State) (t : TRef) (r : Range),
      Runs c (.prefetch c l1 a off) s t s1 →
      (s1.access t (BitVec.ofNat 64 ((s1.addr t a off).toNat / 128 * 128)) 1 false false [(s1.addr t a off).toNat / 128 * 128]).isOk = true →
      (s1.access t (BitVec.ofNat 64 ((s1.addr t a off).toNat / 128 * 128)) 1 false false [(s1.addr t a off).toNat / 128 * 128]).rs = [r] →
      ((s1.ctx t).quant || !(s1.access t (BitVec.ofNat 64 ((s1.addr t a off).toNat / 128 * 128)) 1 false false [(s1.addr t a off).toNat / 128 * 128]).st.memReady r.pa 128 r.bypass || paHome r.pa == 8) = false →
      exec (.prefetch c l1 a off) s = .next (s1.ends t (if l1 then ((s1.access t (BitVec.ofNat 64 ((s1.addr t a off).toNat / 128 * 128)) 1 false false [(s1.addr t a off).toNat / 128 * 128]).st.fillL2 r.pa 128 r.bypass).l1Put (s1.ctx t).core r.pa (((s1.access t (BitVec.ofNat 64 ((s1.addr t a off).toNat / 128 * 128)) 1 false false [(s1.addr t a off).toNat / 128 * 128]).st.fillL2 r.pa 128 r.bypass).seenBytes t none (s1.readerOf t) r.pa 128) else (s1.access t (BitVec.ofNat 64 ((s1.addr t a off).toNat / 128 * 128)) 1 false false [(s1.addr t a off).toNat / 128 * 128]).st.fillL2 r.pa 128 r.bypass)))
    ∧ (∀ (c : Ctl) (line : Bool) (a : Operand) (off : BitVec 12) (s s1 : State) (t : TRef),
      Runs c (.discard c line a off) s t s1 →
      s1.acqOpenLoad t = false →
      (s1.access t (s1.addr t a off) (1) true true [(s1.addr t a off).toNat]).away.isSome = true →
      exec (.discard c line a off) s = .next (s1.ends t (s1)))
    ∧ (∀ (c : Ctl) (line : Bool) (a : Operand) (off : BitVec 12) (s s1 : State) (t : TRef) (r : Range),
      Runs c (.discard c line a off) s t s1 →
      s1.acqOpenLoad t = false →
      (s1.access t (s1.addr t a off) (1) true true [(s1.addr t a off).toNat]).isOk = true →
      (s1.access t (s1.addr t a off) (1) true true [(s1.addr t a off).toNat]).rs = [r] →
      (s1.ctx t).quant = false →
      exec (.discard c line a off) s = .next (s1.ends t ((sectorsOf (r.pa / (if line then 128 else 32) * (if line then 128 else 32)) (if line then 128 else 32)).foldl (fun s b => s.storeWord t none b (s.freeBytes t [0x500, b] 32) r.bypass (s.carried t) (s.carriedOps t)) (s1.access t (s1.addr t a off) (1) true true [(s1.addr t a off).toNat]).st)))
    ∧ (∀ (c : Ctl) (line : Bool) (a : Operand) (off : BitVec 12) (s s1 : State) (t : TRef) (r : Range),
      Runs c (.discard c line a off) s t s1 →
      s1.acqOpenLoad t = false →
      (s1.access t (s1.addr t a off) (1) true true [(s1.addr t a off).toNat]).isOk = true →
      (s1.access t (s1.addr t a off) (1) true true [(s1.addr t a off).toNat]).rs = [r] →
      (s1.ctx t).quant = true →
      exec (.discard c line a off) s = .next (s1.ends t (((s1.access t (s1.addr t a off) (1) true true [(s1.addr t a off).toNat]).st.beginQuiet t (.discard (r.pa / (if line then 128 else 32) * (if line then 128 else 32)) (if line then 128 else 32) r.bypass)).defer t)))
    ∧ (∀ (c : Ctl) (s s1 : State) (t : TRef),
      Runs c (.l1inv c) s t s1 →
      exec (.l1inv c) s = .next (s1.ends t (if (s1.ctx t).quant then s1 else s1.l1Clear (s1.ctx t).core)))
    ∧ (∀ (c : Ctl) (kind : FenceKind) (scope : Scope) (s s1 : State) (t : TRef),
      Runs c (.fence c kind scope) s t s1 →
      (s1.ctx t).quant = true →
      exec (.fence c kind scope) s = .next (s1.ends t (s1)))
    ∧ (∀ (c : Ctl) (kind : FenceKind) (scope : Scope) (s s1 : State) (t : TRef),
      Runs c (.fence c kind scope) s t s1 →
      kind = .rel →
      (s1.ctx t).quant = false →
      exec (.fence c kind scope) s = .next (s1.ends t (s1.release t scope)))
    ∧ (∀ (c : Ctl) (kind : FenceKind) (scope : Scope) (s s1 : State) (t : TRef),
      Runs c (.fence c kind scope) s t s1 →
      kind = .acq →
      (s1.ctx t).quant = false →
      exec (.fence c kind scope) s = .next (s1.ends t (s1.acquire t scope)))
    ∧ (∀ (c : Ctl) (kind : FenceKind) (scope : Scope) (s s1 : State) (t : TRef),
      Runs c (.fence c kind scope) s t s1 →
      kind = .ar →
      (s1.ctx t).quant = false →
      s1.flushable t scope lsAt = true →
      exec (.fence c kind scope) s = .next (s1.ends t ((((s1.flush t scope lsAt).release t scope).acquire t scope).arBy t scope)))
    ∧ (∀ (c : Ctl) (p q : BitVec 7) (scope : Scope) (s s1 : State) (t : TRef),
      Runs c (.xfence c p q scope) s t s1 →
      (s1.ctx t).quant = true →
      exec (.xfence c p q scope) s = .next (s1.ends t (s1)))
    ∧ (∀ (c : Ctl) (p q : BitVec 7) (scope : Scope) (s s1 : State) (t : TRef),
      Runs c (.xfence c p q scope) s t s1 →
      (s1.ctx t).quant = false →
      s1.flushable t scope (pathIn p) = true →
      (pathIn p .at && s1.atomicsOpen t) = false →
      exec (.xfence c p q scope) s = .next (s1.ends t (if pathIn q .ls then (s1.flush t scope (pathIn p)).l1Clear ((s1.flush t scope (pathIn p)).ctx t).core else s1.flush t scope (pathIn p))))

/-- For one thread whose access may go on, outside quantum mode, at an aligned object in range that nothing holds: satom stores the new value and returns the old one under its flag; qinit writes the control word; qpush to a queue with room (once what it releases can become visible) releases at cell scope, stores its element at the tail and raises the tail; qpop of a non-empty queue takes the element at the head, raises the head and acquires at cell scope; the .once forms of a full or empty queue clear their predicate and change nothing else. In quantum mode satom is kept for the commit. Where the rules leave a choice it takes the model's, log entry 28. -/
def Obligations.ScratchpadAtomicsComplete : Prop :=
    (∀ (c : Ctl) (ty : Ty) (op : AtomOp) (d a b e : Operand) (off : BitVec 12) (s s1 : State) (t : TRef) (core o : Nat),
      Runs c (.satom c ty op d a b e off) s t s1 →
      (s1.spadAcqHeld t || s1.coreFull (s1.ctx t).core || s1.flagFull t c || s1.destLocked t d (tyRegs ty)) = false →
      (s1.spadAddr t a (if op == .cas then 0 else off)).toNat % atomBytes ty = 0 →
      (s1.spadPlace t (s1.spadAddr t a (if op == .cas then 0 else off)) (atomBytes ty)).map (·.2) = some (core, o) →
      s1.relHeld t = false →
      (s1.relFlush t).spadWriteHeld t core o (atomBytes ty) = false →
      ((s1.relFlush t).ctx t).quant = false →
      exec (.satom c ty op d a b e off) s = .next (s1.ends t (((s1.relFlush t).storeSpad t core o (natToBytes (atomBytes ty) (rmwNew op ty (atomVal ty ((s1.relFlush t).spadBytes core o (atomBytes ty))) ((s1.relFlush t).src t ty b) ((s1.relFlush t).src t ty e)).toNat) true).result t c (atomDst ty (opNum d) (atomVal ty ((s1.relFlush t).spadBytes core o (atomBytes ty)))))))
    ∧ (∀ (c : Ctl) (ty : Ty) (op : AtomOp) (d a b e : Operand) (off : BitVec 12) (s s1 : State) (t : TRef) (core o : Nat),
      Runs c (.satom c ty op d a b e off) s t s1 →
      (s1.spadAcqHeld t || s1.coreFull (s1.ctx t).core || s1.flagFull t c || s1.destLocked t d (tyRegs ty)) = false →
      (s1.spadAddr t a (if op == .cas then 0 else off)).toNat % atomBytes ty = 0 →
      (s1.spadPlace t (s1.spadAddr t a (if op == .cas then 0 else off)) (atomBytes ty)).map (·.2) = some (core, o) →
      s1.relHeld t = false →
      (s1.relFlush t).spadWriteHeld t core o (atomBytes ty) = false →
      ((s1.relFlush t).ctx t).quant = true →
      exec (.satom c ty op d a b e off) s = .next (s1.ends t ((((s1.relFlush t).begin_ t c (.satom core o ⟨op, ty, 0, (s1.relFlush t).src t ty b, (s1.relFlush t).src t ty e, false⟩ (opNum d)) none).defer t).updThread t fun x => { x with qended := true })))
    ∧ (∀ (c : Ctl) (a b : Operand) (off : BitVec 12) (s s1 : State) (t : TRef) (G : Group) (core o : Nat),
      Runs c (.qinit c a b off) s t s1 →
      s1.acqOpen t = false →
      (s1.spadAddr t a off).toNat % 16 = 0 →
      s1.spadPlace t (s1.spadAddr t a off) 16 = some (G, core, o) →
      qctlReserved (s1.vreg t (opNum b + 1)) = true →
      s1.relHeld t = false →
      ((s1.relFlush t).queueRegion t G (qctlOf (bytes4 (s1.vreg t (opNum b)) ++ bytes4 (s1.vreg t (opNum b + 1) ||| 0x10000) ++ List.replicate 8 0))).isSome = true →
      (s1.relFlush t).spadWriteHeld t core o 16 = false →
      ((s1.relFlush t).ctx t).quant = false →
      exec (.qinit c a b off) s = .next (s1.ends t ((s1.relFlush t).storeSpad t core o (bytes4 (s1.vreg t (opNum b)) ++ bytes4 (s1.vreg t (opNum b + 1) ||| 0x10000) ++ List.replicate 8 0) false)))
    ∧ (∀ (c : Ctl) (once : Bool) (d a b : Operand) (off : BitVec 12) (s s1 : State) (t : TRef) (G : Group) (core o rc ro : Nat),
      Runs c (.qpush c once d a b off) s t s1 →
      (s1.ctx t).quant = false →
      (s1.accessHeld t || s1.flagFull t c) = false →
      (s1.spadAddr t a off).toNat % 16 = 0 →
      s1.spadPlace t (s1.spadAddr t a off) 16 = some (G, core, o) →
      s1.relHeld t = false →
      ((s1.relFlush t).settleLoads t (.spad core o) 16).queueRegion t G (qctlOf (((s1.relFlush t).settleLoads t (.spad core o) 16).spadBytes core o 16)) = some (rc, ro) →
      (!(qctlOf (((s1.relFlush t).settleLoads t (.spad core o) 16).spadBytes core o 16)).valid || !qctlReserved (toW32 (sliceB (((s1.relFlush t).settleLoads t (.spad core o) 16).spadBytes core o 16) 4 4)) || (s1.ctx t).regs < opNum b + ((qctlOf (((s1.relFlush t).settleLoads t (.spad core o) 16).spadBytes core o 16)).esize + 1)) = false →
      ((s1.relFlush t).settleLoads t (.spad core o) 16).spadWriteHeld t core o 16 = false →
      ((qctlOf (((s1.relFlush t).settleLoads t (.spad core o) 16).spadBytes core o 16)).tail + 2 ^ 16 - (qctlOf (((s1.relFlush t).settleLoads t (.spad core o) 16).spadBytes core o 16)).head) % 2 ^ 16 < 2 ^ (qctlOf (((s1.relFlush t).settleLoads t (.spad core o) 16).spadBytes core o 16)).ldepth →
      ((s1.relFlush t).settleLoads t (.spad core o) 16).spadWriteHeld t rc (ro + (qctlOf (((s1.relFlush t).settleLoads t (.spad core o) 16).spadBytes core o 16)).tail % 2 ^ (qctlOf (((s1.relFlush t).settleLoads t (.spad core o) 16).spadBytes core o 16)).ldepth * ((qctlOf (((s1.relFlush t).settleLoads t (.spad core o) 16).spadBytes core o 16)).esize + 1) * 4) (4 * ((qctlOf (((s1.relFlush t).settleLoads t (.spad core o) 16).spadBytes core o 16)).esize + 1)) = false →
      ((s1.relFlush t).settleLoads t (.spad core o) 16).releaseHeld t .cell = false →
      exec (.qpush c once d a b off) s = .next (s1.ends t ((((((s1.relFlush t).settleLoads t (.spad core o) 16).releaseStep t .cell).storeSpad t rc (ro + (qctlOf (((s1.relFlush t).settleLoads t (.spad core o) 16).spadBytes core o 16)).tail % 2 ^ (qctlOf (((s1.relFlush t).settleLoads t (.spad core o) 16).spadBytes core o 16)).ldepth * ((qctlOf (((s1.relFlush t).settleLoads t (.spad core o) 16).spadBytes core o 16)).esize + 1) * 4) ((((((s1.relFlush t).settleLoads t (.spad core o) 16).releaseStep t .cell).dataWords t .b32 b ((qctlOf (((s1.relFlush t).settleLoads t (.spad core o) 16).spadBytes core o 16)).esize + 1)).map bytes4).flatten) false).storeSpad t core (o + 10) (natToBytes 2 ((qctlOf (((s1.relFlush t).settleLoads t (.spad core o) 16).spadBytes core o 16)).tail + 1)) false).result t c (if once then wrP d true else []))))
    ∧ (∀ (c : Ctl) (once : Bool) (d a b : Operand) (off : BitVec 12) (s s1 : State) (t : TRef) (G : Group) (core o rc ro : Nat),
      Runs c (.qpush c once d a b off) s t s1 →
      (s1.ctx t).quant = false →
      (s1.accessHeld t || s1.flagFull t c) = false →
      (s1.spadAddr t a off).toNat % 16 = 0 →
      s1.spadPlace t (s1.spadAddr t a off) 16 = some (G, core, o) →
      s1.relHeld t = false →
      ((s1.relFlush t).settleLoads t (.spad core o) 16).queueRegion t G (qctlOf (((s1.relFlush t).settleLoads t (.spad core o) 16).spadBytes core o 16)) = some (rc, ro) →
      (!(qctlOf (((s1.relFlush t).settleLoads t (.spad core o) 16).spadBytes core o 16)).valid || !qctlReserved (toW32 (sliceB (((s1.relFlush t).settleLoads t (.spad core o) 16).spadBytes core o 16) 4 4)) || (s1.ctx t).regs < opNum b + ((qctlOf (((s1.relFlush t).settleLoads t (.spad core o) 16).spadBytes core o 16)).esize + 1)) = false →
      ((s1.relFlush t).settleLoads t (.spad core o) 16).spadWriteHeld t core o 16 = false →
      2 ^ (qctlOf (((s1.relFlush t).settleLoads t (.spad core o) 16).spadBytes core o 16)).ldepth ≤ ((qctlOf (((s1.relFlush t).settleLoads t (.spad core o) 16).spadBytes core o 16)).tail + 2 ^ 16 - (qctlOf (((s1.relFlush t).settleLoads t (.spad core o) 16).spadBytes core o 16)).head) % 2 ^ 16 →
      once = true →
      exec (.qpush c once d a b off) s = .next (s1.ends t (((s1.relFlush t).settleLoads t (.spad core o) 16).result t c (wrP d false))))
    ∧ (∀ (c : Ctl) (once : Bool) (d a b : Operand) (off : BitVec 12) (s s1 : State) (t : TRef) (G : Group) (core o rc ro : Nat),
      Runs c (.qpop c once d a b off) s t s1 →
      (s1.ctx t).quant = false →
      (s1.accessHeld t || s1.flagFull t c) = false →
      (s1.spadAddr t a off).toNat % 16 = 0 →
      s1.spadPlace t (s1.spadAddr t a off) 16 = some (G, core, o) →
      s1.relHeld t = false →
      ((s1.relFlush t).settleLoads t (.spad core o) 16).queueRegion t G (qctlOf (((s1.relFlush t).settleLoads t (.spad core o) 16).spadBytes core o 16)) = some (rc, ro) →
      (!(qctlOf (((s1.relFlush t).settleLoads t (.spad core o) 16).spadBytes core o 16)).valid || !qctlReserved (toW32 (sliceB (((s1.relFlush t).settleLoads t (.spad core o) 16).spadBytes core o 16) 4 4)) || (s1.ctx t).regs < opNum d + ((qctlOf (((s1.relFlush t).settleLoads t (.spad core o) 16).spadBytes core o 16)).esize + 1)) = false →
      ((s1.relFlush t).settleLoads t (.spad core o) 16).destLocked t d ((qctlOf (((s1.relFlush t).settleLoads t (.spad core o) 16).spadBytes core o 16)).esize + 1) = false →
      ((s1.relFlush t).settleLoads t (.spad core o) 16).spadWriteHeld t core o 16 = false →
      ((qctlOf (((s1.relFlush t).settleLoads t (.spad core o) 16).spadBytes core o 16)).tail + 2 ^ 16 - (qctlOf (((s1.relFlush t).settleLoads t (.spad core o) 16).spadBytes core o 16)).head) % 2 ^ 16 ≠ 0 →
      ((s1.relFlush t).settleLoads t (.spad core o) 16).spadWriteHeld t rc (ro + (qctlOf (((s1.relFlush t).settleLoads t (.spad core o) 16).spadBytes core o 16)).head % 2 ^ (qctlOf (((s1.relFlush t).settleLoads t (.spad core o) 16).spadBytes core o 16)).ldepth * ((qctlOf (((s1.relFlush t).settleLoads t (.spad core o) 16).spadBytes core o 16)).esize + 1) * 4) (4 * ((qctlOf (((s1.relFlush t).settleLoads t (.spad core o) 16).spadBytes core o 16)).esize + 1)) = false →
      exec (.qpop c once d a b off) s = .next (s1.ends t ((((((s1.relFlush t).settleLoads t (.spad core o) 16).settleLoads t (.spad rc (ro + (qctlOf (((s1.relFlush t).settleLoads t (.spad core o) 16).spadBytes core o 16)).head % 2 ^ (qctlOf (((s1.relFlush t).settleLoads t (.spad core o) 16).spadBytes core o 16)).ldepth * ((qctlOf (((s1.relFlush t).settleLoads t (.spad core o) 16).spadBytes core o 16)).esize + 1) * 4)) (4 * ((qctlOf (((s1.relFlush t).settleLoads t (.spad core o) 16).spadBytes core o 16)).esize + 1))).storeSpad t core (o + 8) (natToBytes 2 ((qctlOf (((s1.relFlush t).settleLoads t (.spad core o) 16).spadBytes core o 16)).head + 1)) false).result t c (((List.range ((qctlOf (((s1.relFlush t).settleLoads t (.spad core o) 16).spadBytes core o 16)).esize + 1)).map fun i => Wr.v (opNum d + i) (toW32 ((((s1.relFlush t).settleLoads t (.spad core o) 16).settleLoads t (.spad rc (ro + (qctlOf (((s1.relFlush t).settleLoads t (.spad core o) 16).spadBytes core o 16)).head % 2 ^ (qctlOf (((s1.relFlush t).settleLoads t (.spad core o) 16).spadBytes core o 16)).ldepth * ((qctlOf (((s1.relFlush t).settleLoads t (.spad core o) 16).spadBytes core o 16)).esize + 1) * 4)) (4 * ((qctlOf (((s1.relFlush t).settleLoads t (.spad core o) 16).spadBytes core o 16)).esize + 1))).spadBytes rc (ro + (qctlOf (((s1.relFlush t).settleLoads t (.spad core o) 16).spadBytes core o 16)).head % 2 ^ (qctlOf (((s1.relFlush t).settleLoads t (.spad core o) 16).spadBytes core o 16)).ldepth * ((qctlOf (((s1.relFlush t).settleLoads t (.spad core o) 16).spadBytes core o 16)).esize + 1) * 4 + 4 * i) 4))) ++ if once then wrP b true else [])).acquireNow t .cell)))
    ∧ (∀ (c : Ctl) (once : Bool) (d a b : Operand) (off : BitVec 12) (s s1 : State) (t : TRef) (G : Group) (core o rc ro : Nat),
      Runs c (.qpop c once d a b off) s t s1 →
      (s1.ctx t).quant = false →
      (s1.accessHeld t || s1.flagFull t c) = false →
      (s1.spadAddr t a off).toNat % 16 = 0 →
      s1.spadPlace t (s1.spadAddr t a off) 16 = some (G, core, o) →
      s1.relHeld t = false →
      ((s1.relFlush t).settleLoads t (.spad core o) 16).queueRegion t G (qctlOf (((s1.relFlush t).settleLoads t (.spad core o) 16).spadBytes core o 16)) = some (rc, ro) →
      (!(qctlOf (((s1.relFlush t).settleLoads t (.spad core o) 16).spadBytes core o 16)).valid || !qctlReserved (toW32 (sliceB (((s1.relFlush t).settleLoads t (.spad core o) 16).spadBytes core o 16) 4 4)) || (s1.ctx t).regs < opNum d + ((qctlOf (((s1.relFlush t).settleLoads t (.spad core o) 16).spadBytes core o 16)).esize + 1)) = false →
      ((s1.relFlush t).settleLoads t (.spad core o) 16).destLocked t d ((qctlOf (((s1.relFlush t).settleLoads t (.spad core o) 16).spadBytes core o 16)).esize + 1) = false →
      ((s1.relFlush t).settleLoads t (.spad core o) 16).spadWriteHeld t core o 16 = false →
      ((qctlOf (((s1.relFlush t).settleLoads t (.spad core o) 16).spadBytes core o 16)).tail + 2 ^ 16 - (qctlOf (((s1.relFlush t).settleLoads t (.spad core o) 16).spadBytes core o 16)).head) % 2 ^ 16 = 0 →
      once = true →
      exec (.qpop c once d a b off) s = .next (s1.ends t (((s1.relFlush t).settleLoads t (.spad core o) 16).result t c (wrP b false))))

/-- For one thread with no acquire open, at an aligned object in range that nothing holds: barr.init with a count from 1 writes the object with that count expected and remaining; barr.arrive releases at cell scope and takes its count off (an overrun traps after the step only for the checked form); barr.expect adds bytes; barr.query returns the object; barr.wait on an object whose phase has moved on is a pending result with the predicate 1 that acquires at cell scope, and on an object still in its phase it stays and waits with its limit counted in cycles. In quantum mode init, arrive and expect are kept for the commit. Where the rules leave a choice it takes the model's, log entries 28, 40. -/
def Obligations.BarriersComplete : Prop :=
    (∀ (c : Ctl) (a b : Operand) (off : BitVec 12) (s s1 : State) (t : TRef) (core o : Nat),
      Runs c (.barrInit c a b off) s t s1 →
      s1.acqOpen t = false →
      (s1.spadAddr t a off).toNat % 16 = 0 →
      (s1.spadPlace t (s1.spadAddr t a off) (16)).map (·.2) = some (core, o) →
      s1.relHeld t = false →
      (s1.relFlush t).spadWriteHeld t core o 16 = false →
      (((s1.relFlush t).settleLoads t (.spad core o) 16).ctx t).quant = false →
      ((s1.src32 t b).toNat % 2 ^ 16) ≠ 0 →
      exec (.barrInit c a b off) s = .next (s1.ends t (((s1.relFlush t).settleLoads t (.spad core o) 16).setBarr core o ⟨((s1.src32 t b).toNat % 2 ^ 16), ((s1.src32 t b).toNat % 2 ^ 16), 0, false, false, 0, 0, 0⟩)))
    ∧ (∀ (c : Ctl) (a b : Operand) (off : BitVec 12) (s s1 : State) (t : TRef) (core o : Nat),
      Runs c (.barrInit c a b off) s t s1 →
      s1.acqOpen t = false →
      (s1.spadAddr t a off).toNat % 16 = 0 →
      (s1.spadPlace t (s1.spadAddr t a off) (16)).map (·.2) = some (core, o) →
      s1.relHeld t = false →
      (s1.relFlush t).spadWriteHeld t core o 16 = false →
      (((s1.relFlush t).settleLoads t (.spad core o) 16).ctx t).quant = true →
      ((s1.src32 t b).toNat % 2 ^ 16) ≠ 0 →
      exec (.barrInit c a b off) s = .next (s1.ends t (((s1.relFlush t).settleLoads t (.spad core o) 16).barrUpdate t core o (.init ((s1.src32 t b).toNat % 2 ^ 16)))))
    ∧ (∀ (c : Ctl) (chk : Bool) (a b : Operand) (off : BitVec 12) (s s1 : State) (t : TRef) (core o : Nat),
      Runs c (.barrArrive c chk a b off) s t s1 →
      s1.acqOpen t = false →
      (s1.spadAddr t a off).toNat % 16 = 0 →
      (s1.spadPlace t (s1.spadAddr t a off) (16)).map (·.2) = some (core, o) →
      s1.relHeld t = false →
      (s1.relFlush t).spadWriteHeld t core o 16 = false →
      (((s1.relFlush t).settleLoads t (.spad core o) 16).ctx t).quant = false →
      ((s1.relFlush t).settleLoads t (.spad core o) 16).releaseHeld t .cell = false →
      ((barrArriveN (((s1.relFlush t).settleLoads t (.spad core o) 16).releaseStep t .cell).gtsc (if b == .none then 1 else (s1.src32 t b).toNat) ((((s1.relFlush t).settleLoads t (.spad core o) 16).releaseStep t .cell).barrAt core o)).2 && chk) = false →
      exec (.barrArrive c chk a b off) s = .next (s1.ends t (if (if b == .none then 1 else (s1.src32 t b).toNat) = 0 then ((s1.relFlush t).settleLoads t (.spad core o) 16).releaseStep t .cell else (((s1.relFlush t).settleLoads t (.spad core o) 16).releaseStep t .cell).setBarr core o (barrArriveN (((s1.relFlush t).settleLoads t (.spad core o) 16).releaseStep t .cell).gtsc (if b == .none then 1 else (s1.src32 t b).toNat) ((((s1.relFlush t).settleLoads t (.spad core o) 16).releaseStep t .cell).barrAt core o)).1)))
    ∧ (∀ (c : Ctl) (chk : Bool) (a b : Operand) (off : BitVec 12) (s s1 : State) (t : TRef) (core o : Nat),
      Runs c (.barrArrive c chk a b off) s t s1 →
      s1.acqOpen t = false →
      (s1.spadAddr t a off).toNat % 16 = 0 →
      (s1.spadPlace t (s1.spadAddr t a off) (16)).map (·.2) = some (core, o) →
      s1.relHeld t = false →
      (s1.relFlush t).spadWriteHeld t core o 16 = false →
      (((s1.relFlush t).settleLoads t (.spad core o) 16).ctx t).quant = true →
      exec (.barrArrive c chk a b off) s = .next (s1.ends t (((s1.relFlush t).settleLoads t (.spad core o) 16).barrUpdate t core o (.arrive (if b == .none then 1 else (s1.src32 t b).toNat) chk))))
    ∧ (∀ (c : Ctl) (a b : Operand) (off : BitVec 12) (s s1 : State) (t : TRef) (core o : Nat),
      Runs c (.barrExpect c a b off) s t s1 →
      s1.acqOpen t = false →
      (s1.spadAddr t a off).toNat % 16 = 0 →
      (s1.spadPlace t (s1.spadAddr t a off) (16)).map (·.2) = some (core, o) →
      s1.relHeld t = false →
      (s1.relFlush t).spadWriteHeld t core o 16 = false →
      (((s1.relFlush t).settleLoads t (.spad core o) 16).ctx t).quant = false →
      exec (.barrExpect c a b off) s = .next (s1.ends t (((s1.relFlush t).settleLoads t (.spad core o) 16).setBarr core o (barrExpectB ((s1.relFlush t).settleLoads t (.spad core o) 16).gtsc (s1.src32 t b).toNat (((s1.relFlush t).settleLoads t (.spad core o) 16).barrAt core o)))))
    ∧ (∀ (c : Ctl) (a b : Operand) (off : BitVec 12) (s s1 : State) (t : TRef) (core o : Nat),
      Runs c (.barrExpect c a b off) s t s1 →
      s1.acqOpen t = false →
      (s1.spadAddr t a off).toNat % 16 = 0 →
      (s1.spadPlace t (s1.spadAddr t a off) (16)).map (·.2) = some (core, o) →
      s1.relHeld t = false →
      (s1.relFlush t).spadWriteHeld t core o 16 = false →
      (((s1.relFlush t).settleLoads t (.spad core o) 16).ctx t).quant = true →
      exec (.barrExpect c a b off) s = .next (s1.ends t (((s1.relFlush t).settleLoads t (.spad core o) 16).barrUpdate t core o (.expect (s1.src32 t b).toNat))))
    ∧ (∀ (c : Ctl) (d a b : Operand) (off : BitVec 12) (s s1 : State) (t : TRef) (core o : Nat),
      Runs c (.barrWait c d a b off) s t s1 →
      (s1.ctx t).quant = false →
      (s1.accessHeld t || s1.flagFull t c) = false →
      (s1.spadAddr t a off).toNat % 16 = 0 →
      (s1.spadPlace t (s1.spadAddr t a off) (16)).map (·.2) = some (core, o) →
      s1.spadReadHeld t core o 16 = false →
      ((s1.settleLoads t (.spad core o) 16).ctx t).quant = false →
      ((s1.settleLoads t (.spad core o) 16).barrAt core o).ph ≠ ((s1.vreg t (opNum b)).toNat % 16) →
      exec (.barrWait c d a b off) s = .next (s1.ends t (((s1.settleLoads t (.spad core o) 16).begin_ t c (.barrWait core o ((s1.vreg t (opNum b)).toNat % 16) (if (s1.vreg t (opNum b + 1)).toNat = 0 then none else some ((s1.settleLoads t (.spad core o) 16).clk + (s1.vreg t (opNum b + 1)).toNat)) (opNum d) (some true)) (some .cell)).acqBy t (s1.settleLoads t (.spad core o) 16).nextId .cell)))
    ∧ (∀ (c : Ctl) (d a b : Operand) (off : BitVec 12) (s s1 : State) (t : TRef) (core o : Nat),
      Runs c (.barrWait c d a b off) s t s1 →
      (s1.ctx t).quant = false →
      (s1.accessHeld t || s1.flagFull t c) = false →
      (s1.spadAddr t a off).toNat % 16 = 0 →
      (s1.spadPlace t (s1.spadAddr t a off) (16)).map (·.2) = some (core, o) →
      s1.spadReadHeld t core o 16 = false →
      ((s1.settleLoads t (.spad core o) 16).ctx t).quant = false →
      ((s1.settleLoads t (.spad core o) 16).barrAt core o).ph = ((s1.vreg t (opNum b)).toNat % 16) →
      exec (.barrWait c d a b off) s = .next (s1.endsWith t (((((s1.settleLoads t (.spad core o) 16).begin_ t c (.barrWait core o ((s1.vreg t (opNum b)).toNat % 16) (if (s1.vreg t (opNum b + 1)).toNat = 0 then none else some ((s1.settleLoads t (.spad core o) 16).clk + (s1.vreg t (opNum b + 1)).toNat)) (opNum d) none) (some .cell)).acqBy t (s1.settleLoads t (.spad core o) 16).nextId .cell).hold t (s1.settleLoads t (.spad core o) 16).nextId))))
    ∧ (∀ (c : Ctl) (d a : Operand) (off : BitVec 12) (s s1 : State) (t : TRef) (core o : Nat),
      Runs c (.barrQuery c d a off) s t s1 →
      s1.loadHeld t c d 4 = false →
      (s1.spadAddr t a off).toNat % 16 = 0 →
      (s1.spadPlace t (s1.spadAddr t a off) (16)).map (·.2) = some (core, o) →
      s1.spadReadHeld t core o 16 = false →
      exec (.barrQuery c d a off) s = .next (s1.ends t (((s1.settleLoads t (.spad core o) 16).result t c ((List.range 4).map fun i => Wr.v (opNum d + i) (toW32 (sliceB ((s1.settleLoads t (.spad core o) 16).spadBytes core o 16) (4 * i) 4)))).updOp (s1.settleLoads t (.spad core o) 16).nextId fun p => { p with sees := ((s1.settleLoads t (.spad core o) 16).reqs.filter fun r => r.bar == some (core, o)).map (·.id) })))

/-- For one thread whose access may go on, at an aligned word of a page that passes the checks, in homes 0x0 to 0x7: mwait begins its wait outside quantum mode (compared at the word now or later, the thread kept at it until then); atom and acall send their operation under their flag and red without one; acall takes the routine of its number from the partition's table and its argument registers. Where the rules leave a choice it takes the model's, log entries 37, 39, 59. -/
def Obligations.WaitsAndAtomicsComplete : Prop :=
    (∀ (c : Ctl) (ty : Ty) (acq : Bool) (scope : Scope) (d a b : Operand) (off : BitVec 12) (s s1 : State) (t : TRef) (r : Range),
      Runs c (.mwait c ty acq scope d a b off) s t s1 →
      (s1.ctx t).quant = false →
      s1.loadHeld t c d (tyRegs ty) = false →
      (s1.addr t a off).toNat % (atomBytes ty) = 0 →
      (s1.access t (s1.addr t a off) ((atomBytes ty)) false false [(s1.addr t a off).toNat]).isOk = true →
      (s1.access t (s1.addr t a off) ((atomBytes ty)) false false [(s1.addr t a off).toNat]).rs = [r] →
      paDevice r.pa = true →
      exec (.mwait c ty acq scope d a b off) s = .next (s1.endsWith t (((s1.access t (s1.addr t a off) ((atomBytes ty)) false false [(s1.addr t a off).toNat]).st.beginWait t c (.mwait r.pa ty (s1.src t ty b) (opNum d) false none) (if acq then some scope else none)))))
    ∧ (∀ (c : Ctl) (ty : Ty) (op : AtomOp) (order : AtomOrder) (scope : Scope) (d a b e : Operand) (off : BitVec 12) (s s1 : State) (t : TRef) (r : Range),
      Runs c (.atom c ty op order scope d a b e off) s t s1 →
      (s1.acqOpenLoad t || s1.coreFull (s1.ctx t).core || (s1.flagFull t c || s1.destLocked t d (tyRegs ty))) = false →
      (s1.addr t a (if op == .cas then 0 else off)).toNat % (atomBytes ty) = 0 →
      (s1.access t (s1.addr t a (if op == .cas then 0 else off)) ((atomBytes ty)) true false [(s1.addr t a (if op == .cas then 0 else off)).toNat]).isOk = true →
      (s1.access t (s1.addr t a (if op == .cas then 0 else off)) ((atomBytes ty)) true false [(s1.addr t a (if op == .cas then 0 else off)).toNat]).rs = [r] →
      paDevice r.pa = true →
      exec (.atom c ty op order scope d a b e off) s = .next (s1.ends t ((s1.access t (s1.addr t a (if op == .cas then 0 else off)) ((atomBytes ty)) true false [(s1.addr t a (if op == .cas then 0 else off)).toNat]).st.sendAtomic t c (s1.addr t a (if op == .cas then 0 else off)) (atomBytes ty) (.atomic s1.tick ⟨op, ty, r.pa, s1.src t ty b, s1.src t ty e, r.bypass⟩ (some (opNum d))) order scope true)))
    ∧ (∀ (c : Ctl) (ty : Ty) (op : AtomOp) (order : AtomOrder) (scope : Scope) (a b : Operand) (off : BitVec 12) (s s1 : State) (t : TRef) (r : Range),
      Runs c (.red c ty op order scope a b off) s t s1 →
      (s1.acqOpenLoad t || s1.coreFull (s1.ctx t).core) = false →
      (s1.addr t a (if op == .cas then 0 else off)).toNat % (atomBytes ty) = 0 →
      (s1.access t (s1.addr t a (if op == .cas then 0 else off)) ((atomBytes ty)) true false [(s1.addr t a (if op == .cas then 0 else off)).toNat]).isOk = true →
      (s1.access t (s1.addr t a (if op == .cas then 0 else off)) ((atomBytes ty)) true false [(s1.addr t a (if op == .cas then 0 else off)).toNat]).rs = [r] →
      paDevice r.pa = true →
      exec (.red c ty op order scope a b off) s = .next (s1.ends t ((s1.access t (s1.addr t a (if op == .cas then 0 else off)) ((atomBytes ty)) true false [(s1.addr t a (if op == .cas then 0 else off)).toNat]).st.sendAtomic t c (s1.addr t a (if op == .cas then 0 else off)) (atomBytes ty) (.atomic s1.tick ⟨op, ty, r.pa, s1.src t ty b, s1.src t ty .none, r.bypass⟩ none) order scope false)))
    ∧ (∀ (c : Ctl) (routine : BitVec 2) (args res : BitVec 3) (d a b : Operand) (off : BitVec 12) (s s1 : State) (t : TRef) (r : Range),
      Runs c (.acall c routine args res d a b off) s t s1 →
      (s1.accessHeld t || s1.flagFull t c || s1.destLocked t d (res.toNat + 1)) = false →
      (s1.addr t a off).toNat % 4 = 0 →
      (s1.access t (s1.addr t a off) (4) true false [(s1.addr t a off).toNat]).isOk = true →
      (s1.access t (s1.addr t a off) (4) true false [(s1.addr t a off).toNat]).rs = [r] →
      paDevice r.pa = true →
      exec (.acall c routine args res d a b off) s = .next (s1.ends t ((s1.access t (s1.addr t a off) (4) true false [(s1.addr t a off).toNat]).st.sendAtomic t c (s1.addr t a off) 4 (.acall s1.tick r.pa (s1.addr t a off) ((s1.partAt (s1.ctx t).part).routines.getD routine.toNat 0) ((rootOf (s1.partAt (s1.ctx t).part).root).getD (2 ^ 36)) ((List.range (args.toNat + 1)).map fun i => s1.vreg t (opNum b + i)) (opNum d) res.toNat r.bypass) .none .wave true)))

/-- For one thread: aalloc binds the waves it names to the lowest free quartet number and writes it with latency 4, and writes 0xFFFF_FFFF and binds nothing when a wave cannot be bound or no number is free; awin by thread 0 gives a live wave a window inside the launch's rows that meets no other; afree unbinds the waves of an idle quartet; azero, ald and ast start their row accesses after the earlier ones on the row (in quantum mode once no matrix operation of the group stands on it); epcfg sets the epilogue registers of the wave. Where the rules leave a choice it takes the model's, log entry 43. -/
def Obligations.MatrixRegistersComplete : Prop :=
    (∀ (c : Ctl) (pair : Bool) (d a : Operand) (s s1 : State) (t : TRef) (G : Group) (q : Nat),
      Runs c (.aalloc c pair d a) s t s1 →
      s1.groupOf t = some G →
      s1.destLocked t d 1 = false →
      (List.range 8).find? (fun q => !G.quartetTaken q) = some q →
      (((aallocNames pair (s1.src32 t a) (if pair then (s1.src64 t a).extractLsb' 32 32 else 0)).all fun n => G.bindable pair n) && ((aallocNames pair (s1.src32 t a) (if pair then (s1.src64 t a).extractLsb' 32 32 else 0)).map (·.1)).eraseDups.length == (aallocNames pair (s1.src32 t a) (if pair then (s1.src64 t a).extractLsb' 32 32 else 0)).length && (pair || ((aallocNames pair (s1.src32 t a) (if pair then (s1.src64 t a).extractLsb' 32 32 else 0)).map fun n => ((G.waves.find? fun w => w.idx == n.1).map (·.core))).eraseDups.length == 1)) = true →
      exec (.aalloc c pair d a) s = .next (s1.ends t (((aallocNames pair (s1.src32 t a) (if pair then (s1.src64 t a).extractLsb' 32 32 else 0)).foldl (fun s n => s.updWave G.id n.1 fun w => { w with mbind := mbWord n.2.1 q pair n.2.2 }) (s1.updGroup G.id fun G => { G with waves := G.waves.map fun w => if mbBound w.mbind && mbNum w.mbind == q then { w with mbind := 0 } else w })).laterAll t 4 (wrReg d (BitVec.ofNat 32 q)))))
    ∧ (∀ (c : Ctl) (pair : Bool) (d a : Operand) (s s1 : State) (t : TRef) (G : Group),
      Runs c (.aalloc c pair d a) s t s1 →
      s1.groupOf t = some G →
      s1.destLocked t d 1 = false →
      ((List.range 8).find? (fun q => !G.quartetTaken q)).isNone = true ∨ (((aallocNames pair (s1.src32 t a) (if pair then (s1.src64 t a).extractLsb' 32 32 else 0)).all fun n => G.bindable pair n) && ((aallocNames pair (s1.src32 t a) (if pair then (s1.src64 t a).extractLsb' 32 32 else 0)).map (·.1)).eraseDups.length == (aallocNames pair (s1.src32 t a) (if pair then (s1.src64 t a).extractLsb' 32 32 else 0)).length && (pair || ((aallocNames pair (s1.src32 t a) (if pair then (s1.src64 t a).extractLsb' 32 32 else 0)).map fun n => ((G.waves.find? fun w => w.idx == n.1).map (·.core))).eraseDups.length == 1)) = false →
      exec (.aalloc c pair d a) s = .next (s1.ends t (s1.laterAll t 4 (wrReg d 0xFFFFFFFF))))
    ∧ (∀ (c : Ctl) (a b e : Operand) (s s1 : State) (t : TRef) (G : Group) (W : Wave),
      Runs c (.awin c a b e) s t s1 →
      s1.groupOf t = some G →
      G.waves.find? (fun x => x.idx == (s1.src32 t a).toNat) = some W →
      (s1.thread t).tid = 0 →
      G.live (s1.src32 t a).toNat ≠ 0 →
      ¬ s1.src32 t e < s1.src32 t b →
      (s1.src32 t e).toNat ≤ ((s1.launch? G.launch).getD Launch.blank).rc.accrows →
      (G.waves.any fun x => x.idx != (s1.src32 t a).toNat && x.core == W.core && s1.src32 t b < s1.src32 t e && x.accbase < x.acclim && s1.src32 t b < x.acclim && x.accbase < s1.src32 t e) = false →
      (mbBound W.mbind && s1.quartetBusy G.id (mbNum W.mbind)) = false →
      exec (.awin c a b e) s = .next (s1.ends t ((s1.updWave G.id (s1.src32 t a).toNat fun x => { x with accbase := s1.src32 t b, acclim := s1.src32 t e }).updGroup G.id fun G => { G with kOld := (⟨winKey (s1.src32 t a).toNat, W.accbase, (s1.thread t).tid, false, [], s1.clk⟩ : KOld) :: ⟨winKey (s1.src32 t a).toNat + 1, W.acclim, (s1.thread t).tid, false, [], s1.clk⟩ :: G.kOld })))
    ∧ (∀ (c : Ctl) (a : Operand) (s s1 : State) (t : TRef) (g : Nat),
      Runs c (.afree c a) s t s1 →
      t.group = some g →
      s1.quartetBusy g (s1.src32 t a).toNat = false →
      exec (.afree c a) s = .next (s1.ends t (s1.updGroup g fun G => { G with waves := G.waves.map fun w => if mbBound w.mbind && mbNum w.mbind == (s1.src32 t a).toNat && (s1.src32 t a).toNat ≤ 7 then { w with mbind := 0 } else w })))
    ∧ (∀ (c : Ctl) (rows : BitVec 4) (d : Operand) (s s1 : State) (t : TRef) (G : Group),
      Runs c (.azero c rows d) s t s1 →
      s1.groupOf t = some G →
      winHolds (s1.winOf t (s1.waveOf t)) (s1.vreg t (opNum d)).toNat (rows.toNat + 1) = true →
      s1.rowsUnder t (s1.waveOf t).core (G.accOrg + (s1.winOf t (s1.waveOf t)).1.toNat + (s1.vreg t (opNum d)).toNat) (rows.toNat + 1) = false →
      exec (.azero c rows d) s = .next (s1.ends t ((List.range (rows.toNat + 1)).foldl (fun s' i => (s'.beginQuiet t (.accWrite (s1.waveOf t).core ((G.accOrg + (s1.winOf t (s1.waveOf t)).1.toNat + (s1.vreg t (opNum d)).toNat) + i) 0 (List.replicate 16 0))).setBefore s'.nextId (s'.rowBefore t s.nextId (s1.waveOf t).core ((G.accOrg + (s1.winOf t (s1.waveOf t)).1.toNat + (s1.vreg t (opNum d)).toNat) + i))) s1)))
    ∧ (∀ (c : Ctl) (first cnt : BitVec 4) (d a : Operand) (s s1 : State) (t : TRef) (G : Group),
      Runs c (.ald c first cnt d a) s t s1 →
      s1.flagFull t c = false →
      s1.destLocked t d (cnt.toNat + 1) = false →
      s1.groupOf t = some G →
      winHolds (s1.winOf t (s1.waveOf t)) (s1.vreg t (opNum a)).toNat 1 = true →
      s1.rowsUnder t (s1.waveOf t).core (G.accOrg + (s1.winOf t (s1.waveOf t)).1.toNat + (s1.vreg t (opNum a)).toNat) 1 = false →
      exec (.ald c first cnt d a) s = .next (s1.ends t ((s1.begin_ t c (.accRead (s1.waveOf t).core (G.accOrg + (s1.winOf t (s1.waveOf t)).1.toNat + (s1.vreg t (opNum a)).toNat) first.toNat (opNum d) (cnt.toNat + 1)) none).setBefore s1.nextId (s1.rowBefore t s.nextId (s1.waveOf t).core (G.accOrg + (s1.winOf t (s1.waveOf t)).1.toNat + (s1.vreg t (opNum a)).toNat)))))
    ∧ (∀ (c : Ctl) (first cnt : BitVec 4) (d a : Operand) (s s1 : State) (t : TRef) (G : Group),
      Runs c (.ast c first cnt d a) s t s1 →
      s1.flagFull t c = false →
      s1.groupOf t = some G →
      winHolds (s1.winOf t (s1.waveOf t)) (s1.vreg t (opNum d)).toNat 1 = true →
      s1.rowsUnder t (s1.waveOf t).core (G.accOrg + (s1.winOf t (s1.waveOf t)).1.toNat + (s1.vreg t (opNum d)).toNat) 1 = false →
      exec (.ast c first cnt d a) s = .next (s1.ends t ((s1.begin_ t c (.accWrite (s1.waveOf t).core (G.accOrg + (s1.winOf t (s1.waveOf t)).1.toNat + (s1.vreg t (opNum d)).toNat) first.toNat ((List.range (cnt.toNat + 1)).map fun i => s1.vreg t (opNum a + i))) none).setBefore s1.nextId (s1.rowBefore t s.nextId (s1.waveOf t).core (G.accOrg + (s1.winOf t (s1.waveOf t)).1.toNat + (s1.vreg t (opNum d)).toNat)))))
    ∧ (∀ (c : Ctl) (a b e : Operand) (s s1 : State) (t : TRef) (g : Nat),
      Runs c (.epcfg c a b e) s t s1 →
      t.group = some g →
      s1.guard t c = true →
      s1.gang.members = [t] →
      exec (.epcfg c a b e) s = .next (s1.ends t (s1.updWave g (s1.thread t).wave fun W => { W with bias := s1.src32 t a, scale := s1.src32 t b, stride := s1.src32 t e })))

/-- For the gathered set of a bound quartet whose members agree on a legal format word, whose waves are live and whose windows hold the rows, with an aligned operand region in the scratchpad room in the queue of each core, and a next slot every member can reach: the operation enters the queue with the elected thread's row and address, every member leaves its park with its flag raised and goes on. A queued operation that is the oldest of its core (of both cores for mmp), whose earliest cycle has come and that waits for no row write or operand load, commits: its rows take the step's results, its members' flags fall and it leaves the queue. Where the rules leave a choice it takes the model's, log entries 9, 44. -/
def Obligations.MatrixStepsComplete : Prop :=
    (∀ (c : Ctl) (d a b e : Operand) (s s1 : State) (ms : List TRef) (t0 : TRef) (rest : List TRef) (G : Group) (el : TRef),
      RunsAll c (.mma c d a b e) s ms s1 →
      ms = t0 :: rest →
      s1.groupOf t0 = some G →
      (s1.narrow t0 && (opNum b % 8 != 0 || (s1.ctx t0).regs < opNum b + 8)) = false →
      mbBound (s1.waveOf t0).mbind = true →
      s1.elected G (mbNum (s1.waveOf t0).mbind) ms = some el →
      s1.dissent G ms e (s1.src32 el e) = none →
      (fmtWord (s1.src32 el e)).stepOk = true →
      (((List.range 4).map fun p => (false, p, G.member (mbNum (s1.waveOf t0).mbind) p false)).any fun w => match w.2.2 with | some w => G.live w.idx == 0 | none => true) = false →
      ((((List.range 4).map fun p => (false, p, G.member (mbNum (s1.waveOf t0).mbind) p false))).any fun w => match w.2.2 with | some w => !winHolds (s1.winOf (((G.threads.find? fun x => x.wave == w.idx && !x.exited).map fun x => TRef.thr G.id x.tid).getD el) w) (s1.vreg el (opNum d)).toNat 4 | none => true) = false →
      (s1.src32 el a).toNat % 16 = 0 →
      (match s1.spadOf G (s1.waveOf el).core (s1.src32 el a) (fmtRegion (s1.src32 el e)) with | some r => r.1.id == G.id | none => false) = true →
      (s1.muQueue (s1.waveOf el).core).length < 8 →
      (ms.any fun t => s1.flagFull t c || (s1.advance t).isWait) = false →
      (ms.any fun t => (s1.advance t).isBad) = false →
      exec (.mma c d a b e) s = .next ((ms.foldl (fun s' t => (s'.updThread t fun x => ({ x with park := .no }).flagUp (s1.flagFor c)).settleLane t (.next (s'.updThread t fun x => ({ x with park := .no }).flagUp (s1.flagFor c)))) (({ s1 with nextId := s1.nextId + 1 } : State).updCore (s1.waveOf el).core fun k => { k with mu := k.mu ++ [(⟨s1.nextId, G.id, (s1.waveOf el).core, (mbNum (s1.waveOf t0).mbind), false, (s1.vreg el (opNum d)).toNat, s1.src32 el a, opNum b, (s1.src32 el e), (s1.thread el).tid, [d, a, e], (((List.range 4).map fun p => (false, p, G.member (mbNum (s1.waveOf t0).mbind) p false))).filterMap (fun w => w.2.2.map fun w0 => (w.1, w.2.1, ((s1.winOf (((G.threads.find? fun x => x.wave == w0.idx && !x.exited).map fun x => TRef.thr G.id x.tid).getD el) w0)).1.toNat + (s1.vreg el (opNum d)).toNat)), G.bRegs (mbNum (s1.waveOf t0).mbind) (opNum b) (if s1.narrow t0 then 8 else 4), ms.map (fun t => (s1.thread t).tid), (ms.map fun t => (s1.thread t).tid).map (fun i => (i, s1.flagFor c)), G.halt.isSome, s1.muDue (s1.waveOf el).core false (s1.src32 el e)⟩ : MuOp)] })).tokenEnds))
    ∧ (∀ (c : Ctl) (d a b e : Operand) (s s1 : State) (ms : List TRef) (t0 : TRef) (rest : List TRef) (G : Group) (el : TRef),
      RunsAll c (.mmp c d a b e) s ms s1 →
      ms = t0 :: rest →
      s1.groupOf t0 = some G →
      (s1.narrow t0 && (opNum b % 8 != 0 || (s1.ctx t0).regs < opNum b + 8)) = false →
      mbBound (s1.waveOf t0).mbind = true →
      s1.elected G (mbNum (s1.waveOf t0).mbind) ms = some el →
      s1.dissent G ms e (s1.src32 el e) = none →
      (fmtWord (s1.src32 el e)).stepOk = true →
      (mbPair (s1.waveOf t0).mbind && !mbFoll (s1.waveOf t0).mbind) = true →
      (((List.range 4).map fun p => (false, p, G.member (mbNum (s1.waveOf t0).mbind) p false)).any fun w => match w.2.2 with | some w => G.live w.idx == 0 | none => true) = false →
      ((((List.range 4).map fun p => (false, p, G.member (mbNum (s1.waveOf t0).mbind) p false)) ++ ((List.range 4).map fun p => (true, p, G.member (mbNum (s1.waveOf t0).mbind) p true))).any fun w => match w.2.2 with | some w => !winHolds (s1.winOf (((G.threads.find? fun x => x.wave == w.idx && !x.exited).map fun x => TRef.thr G.id x.tid).getD el) w) (s1.vreg el (opNum d)).toNat 4 | none => true) = false →
      (s1.src32 el a).toNat % 16 = 0 →
      (match s1.spadOf G (s1.waveOf el).core (s1.src32 el a) (fmtRegion (s1.src32 el e)) with | some r => r.1.id == G.id | none => false) = true →
      (match s1.spadOf G ((s1.waveOf el).core + 1) (s1.src32 el a) (fmtRegion (s1.src32 el e)) with | some r => r.1.id == G.id | none => false) = true →
      (s1.muQueue (s1.waveOf el).core).length < 8 →
      (s1.muQueue ((s1.waveOf el).core + 1)).length < 8 →
      (ms.any fun t => s1.flagFull t c || (s1.advance t).isWait) = false →
      (ms.any fun t => (s1.advance t).isBad) = false →
      exec (.mmp c d a b e) s = .next ((ms.foldl (fun s' t => (s'.updThread t fun x => ({ x with park := .no }).flagUp (s1.flagFor c)).settleLane t (.next (s'.updThread t fun x => ({ x with park := .no }).flagUp (s1.flagFor c)))) (({ s1 with nextId := s1.nextId + 1 } : State).updCore (s1.waveOf el).core fun k => { k with mu := k.mu ++ [(⟨s1.nextId, G.id, (s1.waveOf el).core, (mbNum (s1.waveOf t0).mbind), true, (s1.vreg el (opNum d)).toNat, s1.src32 el a, opNum b, (s1.src32 el e), (s1.thread el).tid, [d, a, e], (((List.range 4).map fun p => (false, p, G.member (mbNum (s1.waveOf t0).mbind) p false)) ++ ((List.range 4).map fun p => (true, p, G.member (mbNum (s1.waveOf t0).mbind) p true))).filterMap (fun w => w.2.2.map fun w0 => (w.1, w.2.1, ((s1.winOf (((G.threads.find? fun x => x.wave == w0.idx && !x.exited).map fun x => TRef.thr G.id x.tid).getD el) w0)).1.toNat + (s1.vreg el (opNum d)).toNat)), G.bRegs (mbNum (s1.waveOf t0).mbind) (opNum b) (if s1.narrow t0 then 8 else 4), ms.map (fun t => (s1.thread t).tid), (ms.map fun t => (s1.thread t).tid).map (fun i => (i, s1.flagFor c)), G.halt.isSome, s1.muDue (s1.waveOf el).core true (s1.src32 el e)⟩ : MuOp)] })).tokenEnds))
    ∧ (∀ (op : Nat) (s : State) (m : MuOp) (G : Group),
      (s.cores.map (·.mu)).flatten.find? (fun m => m.id == op) = some m →
      s.group? m.group = some G →
      m.due ≤ s.clk →
      m.abandoned = false →
      ((s.muQueue m.core).all fun x => m.id ≤ x.id) = true →
      (m.pair && !((s.muQueue (m.core + 1)).all fun x => m.id ≤ x.id)) = false →
      s.muWaits G m = false →
      exec (.matrixOpCommit op) s = .next (s.matrixCommit G m))

/-- For one thread with no acquire open and its flag below 7: mld with a valid, aligned, readable tensor record that no earlier mret of the thread has still to write, a box that fits a tile and mapped elements begins the reads of its runs toward its registers or its scratchpad tile; mret with a legal format word, rows inside the window and mapped destinations retires its rows through the epilogue and begins their writes; a routed mret through a valid unicast or scatter-add route begins its transfer. In quantum mode the work is kept for the commit. Where the rules leave a choice it takes the model's, log entries 41, 42, 46. -/
def Obligations.MatrixMovesComplete : Prop :=
    (∀ (c : Ctl) (form : MldForm) (d a b e : Operand) (s s1 : State) (t : TRef),
      Runs c (.mld c form d a b e) s t s1 →
      (s1.flagFull t c || s1.acqOpen t || (form == .b && s1.destLocked t d (if s1.narrow t then 8 else 4))) = false →
      (form == .b && s1.narrow t && (opNum d % 8 != 0 || (s1.ctx t).regs < opNum d + 8)) = false →
      (s1.ctx t).quant = true →
      exec (.mld c form d a b e) s = .next (s1.ends t ((s1.begin_ t c (.mldq form (s1.src64 t a) (((List.range 5).filter fun i => opNum b + i < (s1.ctx t).regs).map fun i => (s1.vreg t (opNum b + i)).toNat) (s1.src32 t e) (opNum d)) none).defer t)))
    ∧ (∀ (c : Ctl) (form : MldForm) (d a b e : Operand) (s s1 : State) (t : TRef),
      Runs c (.mld c form d a b e) s t s1 →
      form = .b →
      (s1.flagFull t c || s1.acqOpen t || (form == .b && s1.destLocked t d (if s1.narrow t then 8 else 4))) = false →
      (form == .b && s1.narrow t && (opNum d % 8 != 0 || (s1.ctx t).regs < opNum d + 8)) = false →
      (s1.ctx t).quant = false →
      (s1.accessVia t (.walk (coreCluster (s1.ctx t).core)) (s1.src64 t a) 64 false false [(s1.src64 t a).toNat]).isOk = true →
      ((s1.accessVia t (.walk (coreCluster (s1.ctx t).core)) (s1.src64 t a) 64 false false [(s1.src64 t a).toNat]).rs.all fun r => s1.memReady r.pa r.len r.bypass && s1.mxTurn t s1.nextId (.mem r.pa) r.len false) = true →
      (s1.src64 t a).toNat % 64 = 0 →
      (tensorOf ((s1.accessVia t (.walk (coreCluster (s1.ctx t).core)) (s1.src64 t a) 64 false false [(s1.src64 t a).toNat]).st.readRanges (coreReader .mx (s1.ctx t).core) (s1.accessVia t (.walk (coreCluster (s1.ctx t).core)) (s1.src64 t a) 64 false false [(s1.src64 t a).toNat]).rs).1).ok = true →
      (tensorOf ((s1.accessVia t (.walk (coreCluster (s1.ctx t).core)) (s1.src64 t a) 64 false false [(s1.src64 t a).toNat]).st.readRanges (coreReader .mx (s1.ctx t).core) (s1.accessVia t (.walk (coreCluster (s1.ctx t).core)) (s1.src64 t a) 64 false false [(s1.src64 t a).toNat]).rs).1).rank ≤ (((List.range 5).filter fun i => opNum b + i < (s1.ctx t).regs).map fun i => (s1.vreg t (opNum b + i)).toNat).length →
      (tensorOf ((s1.accessVia t (.walk (coreCluster (s1.ctx t).core)) (s1.src64 t a) 64 false false [(s1.src64 t a).toNat]).st.readRanges (coreReader .mx (s1.ctx t).core) (s1.accessVia t (.walk (coreCluster (s1.ctx t).core)) (s1.src64 t a) 64 false false [(s1.src64 t a).toNat]).rs).1).boxAt 0 * (tensorOf ((s1.accessVia t (.walk (coreCluster (s1.ctx t).core)) (s1.src64 t a) 64 false false [(s1.src64 t a).toNat]).st.readRanges (coreReader .mx (s1.ctx t).core) (s1.accessVia t (.walk (coreCluster (s1.ctx t).core)) (s1.src64 t a) 64 false false [(s1.src64 t a).toNat]).rs).1).w ≤ 1024 →
      ((form == .scA || form == .scB) && (!(fmtArray (tensorOf ((s1.accessVia t (.walk (coreCluster (s1.ctx t).core)) (s1.src64 t a) 64 false false [(s1.src64 t a).toNat]).st.readRanges (coreReader .mx (s1.ctx t).core) (s1.accessVia t (.walk (coreCluster (s1.ctx t).core)) (s1.src64 t a) 64 false false [(s1.src64 t a).toNat]).rs).1).fmt || (tensorOf ((s1.accessVia t (.walk (coreCluster (s1.ctx t).core)) (s1.src64 t a) 64 false false [(s1.src64 t a).toNat]).st.readRanges (coreReader .mx (s1.ctx t).core) (s1.accessVia t (.walk (coreCluster (s1.ctx t).core)) (s1.src64 t a) 64 false false [(s1.src64 t a).toNat]).rs).1).fmt == 14) || crd (((List.range 5).filter fun i => opNum b + i < (s1.ctx t).regs).map fun i => (s1.vreg t (opNum b + i)).toNat) 0 % (if (tensorOf ((s1.accessVia t (.walk (coreCluster (s1.ctx t).core)) (s1.src64 t a) 64 false false [(s1.src64 t a).toNat]).st.readRanges (coreReader .mx (s1.ctx t).core) (s1.accessVia t (.walk (coreCluster (s1.ctx t).core)) (s1.src64 t a) 64 false false [(s1.src64 t a).toNat]).rs).1).fmt == 14 then 256 else 32) != 0)) = false →
      (State.mldXlat t (.walk (coreCluster (s1.ctx t).core)) (if (tensorOf ((s1.accessVia t (.walk (coreCluster (s1.ctx t).core)) (s1.src64 t a) 64 false false [(s1.src64 t a).toNat]).st.readRanges (coreReader .mx (s1.ctx t).core) (s1.accessVia t (.walk (coreCluster (s1.ctx t).core)) (s1.src64 t a) 64 false false [(s1.src64 t a).toNat]).rs).1).fmt == 14 && (form == .scA || form == .scB) then List.replicate 8 0 else if (form == .scA || form == .scB) then [BitVec.ofNat 8 (tensorOf ((s1.accessVia t (.walk (coreCluster (s1.ctx t).core)) (s1.src64 t a) 64 false false [(s1.src64 t a).toNat]).st.readRanges (coreReader .mx (s1.ctx t).core) (s1.accessVia t (.walk (coreCluster (s1.ctx t).core)) (s1.src64 t a) 64 false false [(s1.src64 t a).toNat]).rs).1).fill] else (tensorOf ((s1.accessVia t (.walk (coreCluster (s1.ctx t).core)) (s1.src64 t a) 64 false false [(s1.src64 t a).toNat]).st.readRanges (coreReader .mx (s1.ctx t).core) (s1.accessVia t (.walk (coreCluster (s1.ctx t).core)) (s1.src64 t a) 64 false false [(s1.src64 t a).toNat]).rs).1).fillBytes) (joinRuns (mldRuns (tensorOf ((s1.accessVia t (.walk (coreCluster (s1.ctx t).core)) (s1.src64 t a) 64 false false [(s1.src64 t a).toNat]).st.readRanges (coreReader .mx (s1.ctx t).core) (s1.accessVia t (.walk (coreCluster (s1.ctx t).core)) (s1.src64 t a) 64 false false [(s1.src64 t a).toNat]).rs).1) form ((tensorOf ((s1.accessVia t (.walk (coreCluster (s1.ctx t).core)) (s1.src64 t a) 64 false false [(s1.src64 t a).toNat]).st.readRanges (coreReader .mx (s1.ctx t).core) (s1.accessVia t (.walk (coreCluster (s1.ctx t).core)) (s1.src64 t a) 64 false false [(s1.src64 t a).toNat]).rs).1).coords (((List.range 5).filter fun i => opNum b + i < (s1.ctx t).regs).map fun i => (s1.vreg t (opNum b + i)).toNat)) ((s1.waveOf t).slot / 8) (s1.thread t).lane (s1.narrow t)) []) ((s1.accessVia t (.walk (coreCluster (s1.ctx t).core)) (s1.src64 t a) 64 false false [(s1.src64 t a).toNat]).st.readRanges (coreReader .mx (s1.ctx t).core) (s1.accessVia t (.walk (coreCluster (s1.ctx t).core)) (s1.src64 t a) 64 false false [(s1.src64 t a).toNat]).rs).2 []).1.isSome = true →
      exec (.mld c form d a b e) s = .next (s1.ends t ((((State.mldXlat t (.walk (coreCluster (s1.ctx t).core)) (if (tensorOf ((s1.accessVia t (.walk (coreCluster (s1.ctx t).core)) (s1.src64 t a) 64 false false [(s1.src64 t a).toNat]).st.readRanges (coreReader .mx (s1.ctx t).core) (s1.accessVia t (.walk (coreCluster (s1.ctx t).core)) (s1.src64 t a) 64 false false [(s1.src64 t a).toNat]).rs).1).fmt == 14 && (form == .scA || form == .scB) then List.replicate 8 0 else if (form == .scA || form == .scB) then [BitVec.ofNat 8 (tensorOf ((s1.accessVia t (.walk (coreCluster (s1.ctx t).core)) (s1.src64 t a) 64 false false [(s1.src64 t a).toNat]).st.readRanges (coreReader .mx (s1.ctx t).core) (s1.accessVia t (.walk (coreCluster (s1.ctx t).core)) (s1.src64 t a) 64 false false [(s1.src64 t a).toNat]).rs).1).fill] else (tensorOf ((s1.accessVia t (.walk (coreCluster (s1.ctx t).core)) (s1.src64 t a) 64 false false [(s1.src64 t a).toNat]).st.readRanges (coreReader .mx (s1.ctx t).core) (s1.accessVia t (.walk (coreCluster (s1.ctx t).core)) (s1.src64 t a) 64 false false [(s1.src64 t a).toNat]).rs).1).fillBytes) (joinRuns (mldRuns (tensorOf ((s1.accessVia t (.walk (coreCluster (s1.ctx t).core)) (s1.src64 t a) 64 false false [(s1.src64 t a).toNat]).st.readRanges (coreReader .mx (s1.ctx t).core) (s1.accessVia t (.walk (coreCluster (s1.ctx t).core)) (s1.src64 t a) 64 false false [(s1.src64 t a).toNat]).rs).1) form ((tensorOf ((s1.accessVia t (.walk (coreCluster (s1.ctx t).core)) (s1.src64 t a) 64 false false [(s1.src64 t a).toNat]).st.readRanges (coreReader .mx (s1.ctx t).core) (s1.accessVia t (.walk (coreCluster (s1.ctx t).core)) (s1.src64 t a) 64 false false [(s1.src64 t a).toNat]).rs).1).coords (((List.range 5).filter fun i => opNum b + i < (s1.ctx t).regs).map fun i => (s1.vreg t (opNum b + i)).toNat)) ((s1.waveOf t).slot / 8) (s1.thread t).lane (s1.narrow t)) []) ((s1.accessVia t (.walk (coreCluster (s1.ctx t).core)) (s1.src64 t a) 64 false false [(s1.src64 t a).toNat]).st.readRanges (coreReader .mx (s1.ctx t).core) (s1.accessVia t (.walk (coreCluster (s1.ctx t).core)) (s1.src64 t a) 64 false false [(s1.src64 t a).toNat]).rs).2 []).1.getD ([], s1)).2.walkAhead (coreCluster (s1.ctx t).core) (s1.ctx t).root (tensorOf ((s1.accessVia t (.walk (coreCluster (s1.ctx t).core)) (s1.src64 t a) 64 false false [(s1.src64 t a).toNat]).st.readRanges (coreReader .mx (s1.ctx t).core) (s1.accessVia t (.walk (coreCluster (s1.ctx t).core)) (s1.src64 t a) 64 false false [(s1.src64 t a).toNat]).rs).1) ((tensorOf ((s1.accessVia t (.walk (coreCluster (s1.ctx t).core)) (s1.src64 t a) 64 false false [(s1.src64 t a).toNat]).st.readRanges (coreReader .mx (s1.ctx t).core) (s1.accessVia t (.walk (coreCluster (s1.ctx t).core)) (s1.src64 t a) 64 false false [(s1.src64 t a).toNat]).rs).1).coords (((List.range 5).filter fun i => opNum b + i < (s1.ctx t).regs).map fun i => (s1.vreg t (opNum b + i)).toNat))).begin_ t c (.mld ((State.mldXlat t (.walk (coreCluster (s1.ctx t).core)) (if (tensorOf ((s1.accessVia t (.walk (coreCluster (s1.ctx t).core)) (s1.src64 t a) 64 false false [(s1.src64 t a).toNat]).st.readRanges (coreReader .mx (s1.ctx t).core) (s1.accessVia t (.walk (coreCluster (s1.ctx t).core)) (s1.src64 t a) 64 false false [(s1.src64 t a).toNat]).rs).1).fmt == 14 && (form == .scA || form == .scB) then List.replicate 8 0 else if (form == .scA || form == .scB) then [BitVec.ofNat 8 (tensorOf ((s1.accessVia t (.walk (coreCluster (s1.ctx t).core)) (s1.src64 t a) 64 false false [(s1.src64 t a).toNat]).st.readRanges (coreReader .mx (s1.ctx t).core) (s1.accessVia t (.walk (coreCluster (s1.ctx t).core)) (s1.src64 t a) 64 false false [(s1.src64 t a).toNat]).rs).1).fill] else (tensorOf ((s1.accessVia t (.walk (coreCluster (s1.ctx t).core)) (s1.src64 t a) 64 false false [(s1.src64 t a).toNat]).st.readRanges (coreReader .mx (s1.ctx t).core) (s1.accessVia t (.walk (coreCluster (s1.ctx t).core)) (s1.src64 t a) 64 false false [(s1.src64 t a).toNat]).rs).1).fillBytes) (joinRuns (mldRuns (tensorOf ((s1.accessVia t (.walk (coreCluster (s1.ctx t).core)) (s1.src64 t a) 64 false false [(s1.src64 t a).toNat]).st.readRanges (coreReader .mx (s1.ctx t).core) (s1.accessVia t (.walk (coreCluster (s1.ctx t).core)) (s1.src64 t a) 64 false false [(s1.src64 t a).toNat]).rs).1) form ((tensorOf ((s1.accessVia t (.walk (coreCluster (s1.ctx t).core)) (s1.src64 t a) 64 false false [(s1.src64 t a).toNat]).st.readRanges (coreReader .mx (s1.ctx t).core) (s1.accessVia t (.walk (coreCluster (s1.ctx t).core)) (s1.src64 t a) 64 false false [(s1.src64 t a).toNat]).rs).1).coords (((List.range 5).filter fun i => opNum b + i < (s1.ctx t).regs).map fun i => (s1.vreg t (opNum b + i)).toNat)) ((s1.waveOf t).slot / 8) (s1.thread t).lane (s1.narrow t)) []) ((s1.accessVia t (.walk (coreCluster (s1.ctx t).core)) (s1.src64 t a) 64 false false [(s1.src64 t a).toNat]).st.readRanges (coreReader .mx (s1.ctx t).core) (s1.accessVia t (.walk (coreCluster (s1.ctx t).core)) (s1.src64 t a) 64 false false [(s1.src64 t a).toNat]).rs).2 []).1.getD ([], s1)).1 0 0 (some (opNum d)) (List.replicate (4 * (if s1.narrow t then 8 else 4)) 0)) none)))
    ∧ (∀ (c : Ctl) (form : MldForm) (d a b e : Operand) (s s1 : State) (t : TRef) (G : Group) (core o : Nat),
      Runs c (.mld c form d a b e) s t s1 →
      form ≠ .b →
      (s1.flagFull t c || s1.acqOpen t || (form == .b && s1.destLocked t d (if s1.narrow t then 8 else 4))) = false →
      (form == .b && s1.narrow t && (opNum d % 8 != 0 || (s1.ctx t).regs < opNum d + 8)) = false →
      (s1.ctx t).quant = false →
      (s1.accessVia t (.walk (coreCluster (s1.ctx t).core)) (s1.src64 t a) 64 false false [(s1.src64 t a).toNat]).isOk = true →
      ((s1.accessVia t (.walk (coreCluster (s1.ctx t).core)) (s1.src64 t a) 64 false false [(s1.src64 t a).toNat]).rs.all fun r => s1.memReady r.pa r.len r.bypass && s1.mxTurn t s1.nextId (.mem r.pa) r.len false) = true →
      (s1.src64 t a).toNat % 64 = 0 →
      (tensorOf ((s1.accessVia t (.walk (coreCluster (s1.ctx t).core)) (s1.src64 t a) 64 false false [(s1.src64 t a).toNat]).st.readRanges (coreReader .mx (s1.ctx t).core) (s1.accessVia t (.walk (coreCluster (s1.ctx t).core)) (s1.src64 t a) 64 false false [(s1.src64 t a).toNat]).rs).1).ok = true →
      (tensorOf ((s1.accessVia t (.walk (coreCluster (s1.ctx t).core)) (s1.src64 t a) 64 false false [(s1.src64 t a).toNat]).st.readRanges (coreReader .mx (s1.ctx t).core) (s1.accessVia t (.walk (coreCluster (s1.ctx t).core)) (s1.src64 t a) 64 false false [(s1.src64 t a).toNat]).rs).1).rank ≤ (((List.range 5).filter fun i => opNum b + i < (s1.ctx t).regs).map fun i => (s1.vreg t (opNum b + i)).toNat).length →
      (tensorOf ((s1.accessVia t (.walk (coreCluster (s1.ctx t).core)) (s1.src64 t a) 64 false false [(s1.src64 t a).toNat]).st.readRanges (coreReader .mx (s1.ctx t).core) (s1.accessVia t (.walk (coreCluster (s1.ctx t).core)) (s1.src64 t a) 64 false false [(s1.src64 t a).toNat]).rs).1).boxAt 0 * (tensorOf ((s1.accessVia t (.walk (coreCluster (s1.ctx t).core)) (s1.src64 t a) 64 false false [(s1.src64 t a).toNat]).st.readRanges (coreReader .mx (s1.ctx t).core) (s1.accessVia t (.walk (coreCluster (s1.ctx t).core)) (s1.src64 t a) 64 false false [(s1.src64 t a).toNat]).rs).1).w ≤ 1024 →
      ((form == .scA || form == .scB) && (!(fmtArray (tensorOf ((s1.accessVia t (.walk (coreCluster (s1.ctx t).core)) (s1.src64 t a) 64 false false [(s1.src64 t a).toNat]).st.readRanges (coreReader .mx (s1.ctx t).core) (s1.accessVia t (.walk (coreCluster (s1.ctx t).core)) (s1.src64 t a) 64 false false [(s1.src64 t a).toNat]).rs).1).fmt || (tensorOf ((s1.accessVia t (.walk (coreCluster (s1.ctx t).core)) (s1.src64 t a) 64 false false [(s1.src64 t a).toNat]).st.readRanges (coreReader .mx (s1.ctx t).core) (s1.accessVia t (.walk (coreCluster (s1.ctx t).core)) (s1.src64 t a) 64 false false [(s1.src64 t a).toNat]).rs).1).fmt == 14) || crd (((List.range 5).filter fun i => opNum b + i < (s1.ctx t).regs).map fun i => (s1.vreg t (opNum b + i)).toNat) 0 % (if (tensorOf ((s1.accessVia t (.walk (coreCluster (s1.ctx t).core)) (s1.src64 t a) 64 false false [(s1.src64 t a).toNat]).st.readRanges (coreReader .mx (s1.ctx t).core) (s1.accessVia t (.walk (coreCluster (s1.ctx t).core)) (s1.src64 t a) 64 false false [(s1.src64 t a).toNat]).rs).1).fmt == 14 then 256 else 32) != 0)) = false →
      (State.mldXlat t (.walk (coreCluster (s1.ctx t).core)) (if (tensorOf ((s1.accessVia t (.walk (coreCluster (s1.ctx t).core)) (s1.src64 t a) 64 false false [(s1.src64 t a).toNat]).st.readRanges (coreReader .mx (s1.ctx t).core) (s1.accessVia t (.walk (coreCluster (s1.ctx t).core)) (s1.src64 t a) 64 false false [(s1.src64 t a).toNat]).rs).1).fmt == 14 && (form == .scA || form == .scB) then List.replicate 8 0 else if (form == .scA || form == .scB) then [BitVec.ofNat 8 (tensorOf ((s1.accessVia t (.walk (coreCluster (s1.ctx t).core)) (s1.src64 t a) 64 false false [(s1.src64 t a).toNat]).st.readRanges (coreReader .mx (s1.ctx t).core) (s1.accessVia t (.walk (coreCluster (s1.ctx t).core)) (s1.src64 t a) 64 false false [(s1.src64 t a).toNat]).rs).1).fill] else (tensorOf ((s1.accessVia t (.walk (coreCluster (s1.ctx t).core)) (s1.src64 t a) 64 false false [(s1.src64 t a).toNat]).st.readRanges (coreReader .mx (s1.ctx t).core) (s1.accessVia t (.walk (coreCluster (s1.ctx t).core)) (s1.src64 t a) 64 false false [(s1.src64 t a).toNat]).rs).1).fillBytes) (joinRuns (mldRuns (tensorOf ((s1.accessVia t (.walk (coreCluster (s1.ctx t).core)) (s1.src64 t a) 64 false false [(s1.src64 t a).toNat]).st.readRanges (coreReader .mx (s1.ctx t).core) (s1.accessVia t (.walk (coreCluster (s1.ctx t).core)) (s1.src64 t a) 64 false false [(s1.src64 t a).toNat]).rs).1) form ((tensorOf ((s1.accessVia t (.walk (coreCluster (s1.ctx t).core)) (s1.src64 t a) 64 false false [(s1.src64 t a).toNat]).st.readRanges (coreReader .mx (s1.ctx t).core) (s1.accessVia t (.walk (coreCluster (s1.ctx t).core)) (s1.src64 t a) 64 false false [(s1.src64 t a).toNat]).rs).1).coords (((List.range 5).filter fun i => opNum b + i < (s1.ctx t).regs).map fun i => (s1.vreg t (opNum b + i)).toNat)) ((s1.waveOf t).slot / 8) (s1.thread t).lane (s1.narrow t)) []) ((s1.accessVia t (.walk (coreCluster (s1.ctx t).core)) (s1.src64 t a) 64 false false [(s1.src64 t a).toNat]).st.readRanges (coreReader .mx (s1.ctx t).core) (s1.accessVia t (.walk (coreCluster (s1.ctx t).core)) (s1.src64 t a) 64 false false [(s1.src64 t a).toNat]).rs).2 []).1.isSome = true →
      s1.spadPlace t (s1.src32 t e) (if (form == .scA || form == .scB) then 128 else 2048) = some (G, core, o) →
      (s1.src32 t e).toNat % 16 = 0 →
      some G.id = t.group →
      s1.spadWriteHeld t core o (if (form == .scA || form == .scB) then 128 else 2048) = false →
      exec (.mld c form d a b e) s = .next (s1.ends t ((((State.mldXlat t (.walk (coreCluster (s1.ctx t).core)) (if (tensorOf ((s1.accessVia t (.walk (coreCluster (s1.ctx t).core)) (s1.src64 t a) 64 false false [(s1.src64 t a).toNat]).st.readRanges (coreReader .mx (s1.ctx t).core) (s1.accessVia t (.walk (coreCluster (s1.ctx t).core)) (s1.src64 t a) 64 false false [(s1.src64 t a).toNat]).rs).1).fmt == 14 && (form == .scA || form == .scB) then List.replicate 8 0 else if (form == .scA || form == .scB) then [BitVec.ofNat 8 (tensorOf ((s1.accessVia t (.walk (coreCluster (s1.ctx t).core)) (s1.src64 t a) 64 false false [(s1.src64 t a).toNat]).st.readRanges (coreReader .mx (s1.ctx t).core) (s1.accessVia t (.walk (coreCluster (s1.ctx t).core)) (s1.src64 t a) 64 false false [(s1.src64 t a).toNat]).rs).1).fill] else (tensorOf ((s1.accessVia t (.walk (coreCluster (s1.ctx t).core)) (s1.src64 t a) 64 false false [(s1.src64 t a).toNat]).st.readRanges (coreReader .mx (s1.ctx t).core) (s1.accessVia t (.walk (coreCluster (s1.ctx t).core)) (s1.src64 t a) 64 false false [(s1.src64 t a).toNat]).rs).1).fillBytes) (joinRuns (mldRuns (tensorOf ((s1.accessVia t (.walk (coreCluster (s1.ctx t).core)) (s1.src64 t a) 64 false false [(s1.src64 t a).toNat]).st.readRanges (coreReader .mx (s1.ctx t).core) (s1.accessVia t (.walk (coreCluster (s1.ctx t).core)) (s1.src64 t a) 64 false false [(s1.src64 t a).toNat]).rs).1) form ((tensorOf ((s1.accessVia t (.walk (coreCluster (s1.ctx t).core)) (s1.src64 t a) 64 false false [(s1.src64 t a).toNat]).st.readRanges (coreReader .mx (s1.ctx t).core) (s1.accessVia t (.walk (coreCluster (s1.ctx t).core)) (s1.src64 t a) 64 false false [(s1.src64 t a).toNat]).rs).1).coords (((List.range 5).filter fun i => opNum b + i < (s1.ctx t).regs).map fun i => (s1.vreg t (opNum b + i)).toNat)) ((s1.waveOf t).slot / 8) (s1.thread t).lane (s1.narrow t)) []) ((s1.accessVia t (.walk (coreCluster (s1.ctx t).core)) (s1.src64 t a) 64 false false [(s1.src64 t a).toNat]).st.readRanges (coreReader .mx (s1.ctx t).core) (s1.accessVia t (.walk (coreCluster (s1.ctx t).core)) (s1.src64 t a) 64 false false [(s1.src64 t a).toNat]).rs).2 []).1.getD ([], s1)).2.walkAhead (coreCluster (s1.ctx t).core) (s1.ctx t).root (tensorOf ((s1.accessVia t (.walk (coreCluster (s1.ctx t).core)) (s1.src64 t a) 64 false false [(s1.src64 t a).toNat]).st.readRanges (coreReader .mx (s1.ctx t).core) (s1.accessVia t (.walk (coreCluster (s1.ctx t).core)) (s1.src64 t a) 64 false false [(s1.src64 t a).toNat]).rs).1) ((tensorOf ((s1.accessVia t (.walk (coreCluster (s1.ctx t).core)) (s1.src64 t a) 64 false false [(s1.src64 t a).toNat]).st.readRanges (coreReader .mx (s1.ctx t).core) (s1.accessVia t (.walk (coreCluster (s1.ctx t).core)) (s1.src64 t a) 64 false false [(s1.src64 t a).toNat]).rs).1).coords (((List.range 5).filter fun i => opNum b + i < (s1.ctx t).regs).map fun i => (s1.vreg t (opNum b + i)).toNat))).begin_ t c (.mld ((State.mldXlat t (.walk (coreCluster (s1.ctx t).core)) (if (tensorOf ((s1.accessVia t (.walk (coreCluster (s1.ctx t).core)) (s1.src64 t a) 64 false false [(s1.src64 t a).toNat]).st.readRanges (coreReader .mx (s1.ctx t).core) (s1.accessVia t (.walk (coreCluster (s1.ctx t).core)) (s1.src64 t a) 64 false false [(s1.src64 t a).toNat]).rs).1).fmt == 14 && (form == .scA || form == .scB) then List.replicate 8 0 else if (form == .scA || form == .scB) then [BitVec.ofNat 8 (tensorOf ((s1.accessVia t (.walk (coreCluster (s1.ctx t).core)) (s1.src64 t a) 64 false false [(s1.src64 t a).toNat]).st.readRanges (coreReader .mx (s1.ctx t).core) (s1.accessVia t (.walk (coreCluster (s1.ctx t).core)) (s1.src64 t a) 64 false false [(s1.src64 t a).toNat]).rs).1).fill] else (tensorOf ((s1.accessVia t (.walk (coreCluster (s1.ctx t).core)) (s1.src64 t a) 64 false false [(s1.src64 t a).toNat]).st.readRanges (coreReader .mx (s1.ctx t).core) (s1.accessVia t (.walk (coreCluster (s1.ctx t).core)) (s1.src64 t a) 64 false false [(s1.src64 t a).toNat]).rs).1).fillBytes) (joinRuns (mldRuns (tensorOf ((s1.accessVia t (.walk (coreCluster (s1.ctx t).core)) (s1.src64 t a) 64 false false [(s1.src64 t a).toNat]).st.readRanges (coreReader .mx (s1.ctx t).core) (s1.accessVia t (.walk (coreCluster (s1.ctx t).core)) (s1.src64 t a) 64 false false [(s1.src64 t a).toNat]).rs).1) form ((tensorOf ((s1.accessVia t (.walk (coreCluster (s1.ctx t).core)) (s1.src64 t a) 64 false false [(s1.src64 t a).toNat]).st.readRanges (coreReader .mx (s1.ctx t).core) (s1.accessVia t (.walk (coreCluster (s1.ctx t).core)) (s1.src64 t a) 64 false false [(s1.src64 t a).toNat]).rs).1).coords (((List.range 5).filter fun i => opNum b + i < (s1.ctx t).regs).map fun i => (s1.vreg t (opNum b + i)).toNat)) ((s1.waveOf t).slot / 8) (s1.thread t).lane (s1.narrow t)) []) ((s1.accessVia t (.walk (coreCluster (s1.ctx t).core)) (s1.src64 t a) 64 false false [(s1.src64 t a).toNat]).st.readRanges (coreReader .mx (s1.ctx t).core) (s1.accessVia t (.walk (coreCluster (s1.ctx t).core)) (s1.src64 t a) 64 false false [(s1.src64 t a).toNat]).rs).2 []).1.getD ([], s1)).1 core o none (if (form == .scA || form == .scB) then s1.freeBytes t [0x600, o] 128 else List.replicate 2048 0)) none)))
    ∧ (∀ (c : Ctl) (rows : BitVec 4) (sp : Bool) (a b e : Operand) (s s1 : State) (t : TRef) (G : Group),
      Runs c (.mret c rows sp a b e) s t s1 →
      s1.flagFull t c = false →
      s1.acqOpen t = false →
      (fmtWord (s1.src32 t e)).retireOk = true →
      s1.groupOf t = some G →
      winHolds (s1.winOf t (s1.waveOf t)) (s1.vreg t (opNum b)).toNat (rows.toNat + 1) = true →
      (s1.ops.any fun o => o.thr == t && match o.kind with | .accWrite k r _ _ => k == (s1.waveOf t).core && (G.accOrg + (s1.winOf t (s1.waveOf t)).1.toNat + (s1.vreg t (opNum b)).toNat) ≤ r && r < (G.accOrg + (s1.winOf t (s1.waveOf t)).1.toNat + (s1.vreg t (opNum b)).toNat) + (rows.toNat + 1) | _ => false) = false →
      s1.rowsUnder t (s1.waveOf t).core (G.accOrg + (s1.winOf t (s1.waveOf t)).1.toNat + (s1.vreg t (opNum b)).toNat) (rows.toNat + 1) = false →
      ((match s1.spadPlace t (s1.waveOf t).bias 64 with | some x => !s1.spadReadHeld t x.2.1 x.2.2 64 | none => false) || !(fmtWord (s1.src32 t e)).ebias) = true →
      (State.retirePlaces t sp ((s1.epilogueRows (fmtWord (s1.src32 t e)) (s1.waveOf t) (if (fmtWord (s1.src32 t e)).ebias then (match s1.spadPlace t (s1.waveOf t).bias 64 with | some x => (List.range 16).map fun i => toW32 (s1.spadBytes x.2.1 (x.2.2 + 4 * i) 4) | none => []) else []) (G.accOrg + (s1.winOf t (s1.waveOf t)).1.toNat + (s1.vreg t (opNum b)).toNat) (rows.toNat + 1)).zipIdx.map fun r => ((if sp then (s1.src32 t a).zeroExtend 64 else s1.src64 t a) + BitVec.ofNat 64 (r.2 * (s1.waveOf t).stride.toNat), r.1)) s1 []).1.isSome = true →
      exec (.mret c rows sp a b e) s = .next (s1.ends t (if (s1.ctx t).quant then (((State.retirePlaces t sp ((s1.epilogueRows (fmtWord (s1.src32 t e)) (s1.waveOf t) (if (fmtWord (s1.src32 t e)).ebias then (match s1.spadPlace t (s1.waveOf t).bias 64 with | some x => (List.range 16).map fun i => toW32 (s1.spadBytes x.2.1 (x.2.2 + 4 * i) 4) | none => []) else []) (G.accOrg + (s1.winOf t (s1.waveOf t)).1.toNat + (s1.vreg t (opNum b)).toNat) (rows.toNat + 1)).zipIdx.map fun r => ((if sp then (s1.src32 t a).zeroExtend 64 else s1.src64 t a) + BitVec.ofNat 64 (r.2 * (s1.waveOf t).stride.toNat), r.1)) s1 []).1.getD ([], s1)).2.begin_ t c (.mret ((State.retirePlaces t sp ((s1.epilogueRows (fmtWord (s1.src32 t e)) (s1.waveOf t) (if (fmtWord (s1.src32 t e)).ebias then (match s1.spadPlace t (s1.waveOf t).bias 64 with | some x => (List.range 16).map fun i => toW32 (s1.spadBytes x.2.1 (x.2.2 + 4 * i) 4) | none => []) else []) (G.accOrg + (s1.winOf t (s1.waveOf t)).1.toNat + (s1.vreg t (opNum b)).toNat) (rows.toNat + 1)).zipIdx.map fun r => ((if sp then (s1.src32 t a).zeroExtend 64 else s1.src64 t a) + BitVec.ofNat 64 (r.2 * (s1.waveOf t).stride.toNat), r.1)) s1 []).1.getD ([], s1)).1) none).defer t else (((State.retirePlaces t sp ((s1.epilogueRows (fmtWord (s1.src32 t e)) (s1.waveOf t) (if (fmtWord (s1.src32 t e)).ebias then (match s1.spadPlace t (s1.waveOf t).bias 64 with | some x => (List.range 16).map fun i => toW32 (s1.spadBytes x.2.1 (x.2.2 + 4 * i) 4) | none => []) else []) (G.accOrg + (s1.winOf t (s1.waveOf t)).1.toNat + (s1.vreg t (opNum b)).toNat) (rows.toNat + 1)).zipIdx.map fun r => ((if sp then (s1.src32 t a).zeroExtend 64 else s1.src64 t a) + BitVec.ofNat 64 (r.2 * (s1.waveOf t).stride.toNat), r.1)) s1 []).1.getD ([], s1)).2.begin_ t c (.mret ((State.retirePlaces t sp ((s1.epilogueRows (fmtWord (s1.src32 t e)) (s1.waveOf t) (if (fmtWord (s1.src32 t e)).ebias then (match s1.spadPlace t (s1.waveOf t).bias 64 with | some x => (List.range 16).map fun i => toW32 (s1.spadBytes x.2.1 (x.2.2 + 4 * i) 4) | none => []) else []) (G.accOrg + (s1.winOf t (s1.waveOf t)).1.toNat + (s1.vreg t (opNum b)).toNat) (rows.toNat + 1)).zipIdx.map fun r => ((if sp then (s1.src32 t a).zeroExtend 64 else s1.src64 t a) + BitVec.ofNat 64 (r.2 * (s1.waveOf t).stride.toNat), r.1)) s1 []).1.getD ([], s1)).1) none))))
    ∧ (∀ (c : Ctl) (rows : BitVec 4) (route : BitVec 2) (a b e : Operand) (s s1 : State) (t : TRef) (G : Group),
      Runs c (.mretRoute c rows route a b e) s t s1 →
      s1.flagFull t c = false →
      s1.acqOpen t = false →
      (fmtWord (s1.src32 t e)).retireOk = true →
      s1.groupOf t = some G →
      winHolds (s1.winOf t (s1.waveOf t)) (s1.vreg t (opNum b)).toNat (rows.toNat + 1) = true →
      (s1.ops.any fun o => o.thr == t && match o.kind with | .accWrite k r _ _ => k == (s1.waveOf t).core && (G.accOrg + (s1.winOf t (s1.waveOf t)).1.toNat + (s1.vreg t (opNum b)).toNat) ≤ r && r < (G.accOrg + (s1.winOf t (s1.waveOf t)).1.toNat + (s1.vreg t (opNum b)).toNat) + (rows.toNat + 1) | _ => false) = false →
      s1.rowsUnder t (s1.waveOf t).core (G.accOrg + (s1.winOf t (s1.waveOf t)).1.toNat + (s1.vreg t (opNum b)).toNat) (rows.toNat + 1) = false →
      ((match s1.spadPlace t (s1.waveOf t).bias 64 with | some x => !s1.spadReadHeld t x.2.1 x.2.2 64 | none => false) || !(fmtWord (s1.src32 t e)).ebias) = true →
      rtValid ((s1.thread t).routes.getD route.toNat 0) = true →
      rtMode ((s1.thread t).routes.getD route.toNat 0) < 2 →
      rtDev ((s1.thread t).routes.getD route.toNat 0) < s1.nranks →
      (rtMode ((s1.thread t).routes.getD route.toNat 0) == 1 && ((fmtWord (s1.src32 t e)).efmt != 0 || (fmtWord (s1.src32 t e)).eact != 0 || (fmtWord (s1.src32 t e)).ebias)) = false →
      (s1.ctx t).quant = true →
      exec (.mretRoute c rows route a b e) s = .next (s1.ends t ((s1.begin_ t c (.mroute ((s1.thread t).routes.getD route.toNat 0) ((s1.epilogueRows (fmtWord (s1.src32 t e)) (s1.waveOf t) (if (fmtWord (s1.src32 t e)).ebias then (match s1.spadPlace t (s1.waveOf t).bias 64 with | some x => (List.range 16).map fun i => toW32 (s1.spadBytes x.2.1 (x.2.2 + 4 * i) 4) | none => []) else []) (G.accOrg + (s1.winOf t (s1.waveOf t)).1.toNat + (s1.vreg t (opNum b)).toNat) (rows.toNat + 1)).zipIdx.map fun r => (BitVec.ofNat 64 ((((rtBase ((s1.thread t).routes.getD route.toNat 0) + (s1.src64 t a).toNat) % 2 ^ 57) + r.2 * (s1.waveOf t).stride.toNat) % 2 ^ 57), r.1))) none).defer t)))
    ∧ (∀ (c : Ctl) (rows : BitVec 4) (route : BitVec 2) (a b e : Operand) (s s1 : State) (t : TRef) (G : Group),
      Runs c (.mretRoute c rows route a b e) s t s1 →
      s1.flagFull t c = false →
      s1.acqOpen t = false →
      (fmtWord (s1.src32 t e)).retireOk = true →
      s1.groupOf t = some G →
      winHolds (s1.winOf t (s1.waveOf t)) (s1.vreg t (opNum b)).toNat (rows.toNat + 1) = true →
      (s1.ops.any fun o => o.thr == t && match o.kind with | .accWrite k r _ _ => k == (s1.waveOf t).core && (G.accOrg + (s1.winOf t (s1.waveOf t)).1.toNat + (s1.vreg t (opNum b)).toNat) ≤ r && r < (G.accOrg + (s1.winOf t (s1.waveOf t)).1.toNat + (s1.vreg t (opNum b)).toNat) + (rows.toNat + 1) | _ => false) = false →
      s1.rowsUnder t (s1.waveOf t).core (G.accOrg + (s1.winOf t (s1.waveOf t)).1.toNat + (s1.vreg t (opNum b)).toNat) (rows.toNat + 1) = false →
      ((match s1.spadPlace t (s1.waveOf t).bias 64 with | some x => !s1.spadReadHeld t x.2.1 x.2.2 64 | none => false) || !(fmtWord (s1.src32 t e)).ebias) = true →
      rtValid ((s1.thread t).routes.getD route.toNat 0) = true →
      rtMode ((s1.thread t).routes.getD route.toNat 0) < 2 →
      rtDev ((s1.thread t).routes.getD route.toNat 0) < s1.nranks →
      (rtMode ((s1.thread t).routes.getD route.toNat 0) == 1 && ((fmtWord (s1.src32 t e)).efmt != 0 || (fmtWord (s1.src32 t e)).eact != 0 || (fmtWord (s1.src32 t e)).ebias)) = false →
      (s1.ctx t).quant = false →
      ((s1.begin_ t c (.mroute ((s1.thread t).routes.getD route.toNat 0) ((s1.epilogueRows (fmtWord (s1.src32 t e)) (s1.waveOf t) (if (fmtWord (s1.src32 t e)).ebias then (match s1.spadPlace t (s1.waveOf t).bias 64 with | some x => (List.range 16).map fun i => toW32 (s1.spadBytes x.2.1 (x.2.2 + 4 * i) 4) | none => []) else []) (G.accOrg + (s1.winOf t (s1.waveOf t)).1.toNat + (s1.vreg t (opNum b)).toNat) (rows.toNat + 1)).zipIdx.map fun r => (BitVec.ofNat 64 ((((rtBase ((s1.thread t).routes.getD route.toNat 0) + (s1.src64 t a).toNat) % 2 ^ 57) + r.2 * (s1.waveOf t).stride.toNat) % 2 ^ 57), r.1))) none).mrouteGo s1.nextId).isSome = true →
      exec (.mretRoute c rows route a b e) s = .next (s1.ends t (((s1.begin_ t c (.mroute ((s1.thread t).routes.getD route.toNat 0) ((s1.epilogueRows (fmtWord (s1.src32 t e)) (s1.waveOf t) (if (fmtWord (s1.src32 t e)).ebias then (match s1.spadPlace t (s1.waveOf t).bias 64 with | some x => (List.range 16).map fun i => toW32 (s1.spadBytes x.2.1 (x.2.2 + 4 * i) 4) | none => []) else []) (G.accOrg + (s1.winOf t (s1.waveOf t)).1.toNat + (s1.vreg t (opNum b)).toNat) (rows.toNat + 1)).zipIdx.map fun r => (BitVec.ofNat 64 ((((rtBase ((s1.thread t).routes.getD route.toNat 0) + (s1.src64 t a).toNat) % 2 ^ 57) + r.2 * (s1.waveOf t).stride.toNat) % 2 ^ 57), r.1))) none).mrouteGo s1.nextId).getD s1)))

/-- For one thread: ckick of an aligned head in its group's scratchpad hands it to the request engine that is not full (in quantum mode at the commit); cpoll returns the status word of its control block; cntw begins its wait for a counter; cnta sends its increase as a release of the device; trec with a valid readable record and a tile all of whose pages translate brings their translations in and walks ahead, and in quantum mode, with an unusable record or with a page of the tile that does not translate does nothing. Where the rules leave a choice it takes the model's, log entries 37, 39. -/
def Obligations.CopyInstructionsComplete : Prop :=
    (∀ (c : Ctl) (a : Operand) (off : BitVec 12) (s s1 : State) (t : TRef) (core o : Nat),
      Runs c (.ckick c a off) s t s1 →
      (s1.spadPlace t (s1.spadAddr t a off) 64).map (·.2) = some (core, o) →
      (s1.spadAddr t a off).toNat % 64 = 0 →
      (s1.spadAddr t a off).getLsbD 21 = false →
      (s1.ctx t).quant = true →
      exec (.ckick c a off) s = .next (s1.ends t ((s1.beginQuiet t (.ckick core (BitVec.ofNat 64 (o + (s1.waveOf t).slot * 2 ^ 19)))).defer t)))
    ∧ (∀ (c : Ctl) (a : Operand) (off : BitVec 12) (s s1 : State) (t : TRef) (core o : Nat),
      Runs c (.ckick c a off) s t s1 →
      (s1.spadPlace t (s1.spadAddr t a off) 64).map (·.2) = some (core, o) →
      (s1.spadAddr t a off).toNat % 64 = 0 →
      (s1.spadAddr t a off).getLsbD 21 = false →
      (s1.ctx t).quant = false →
      s1.kickFull core = false →
      exec (.ckick c a off) s = .next (s1.ends t (s1.kickHead core (BitVec.ofNat 64 (o + (s1.waveOf t).slot * 2 ^ 19)) (some t))))
    ∧ (∀ (c : Ctl) (d a : Operand) (off : BitVec 12) (s s1 : State) (t : TRef) (core o : Nat),
      Runs c (.cpoll c d a off) s t s1 →
      (s1.ctx t).quant = false →
      s1.loadHeld t c d 2 = false →
      (s1.spadAddr t a off).toNat % 64 = 0 →
      (s1.spadPlace t (s1.spadAddr t a off) (16)).map (·.2) = some (core, o) →
      s1.spadReadHeld t core (o + 8) 8 = false →
      exec (.cpoll c d a off) s = .next (s1.ends t ((s1.result t c (wrTy .b64 d (toW64 (s1.spadBytes core (o + 8) 8)))).updOp s1.nextId fun p => { p with sees := if (toW64 (s1.spadBytes core (o + 8) 8)).getLsbD 1 then (s1.result t c (wrTy .b64 d (toW64 (s1.spadBytes core (o + 8) 8)))).blockReqs core o else [] })))
    ∧ (∀ (c : Ctl) (d a b : Operand) (off : BitVec 12) (s s1 : State) (t : TRef) (r : Range),
      Runs c (.cntw c d a b off) s t s1 →
      (s1.ctx t).quant = false →
      s1.loadHeld t c d 2 = false →
      (s1.addr t a off).toNat % 8 = 0 →
      (s1.access t (s1.addr t a off) (8) false false [(s1.addr t a off).toNat]).isOk = true →
      (s1.access t (s1.addr t a off) (8) false false [(s1.addr t a off).toNat]).rs = [r] →
      paDevice r.pa = true →
      exec (.cntw c d a b off) s = .next (s1.endsWith t (((s1.access t (s1.addr t a off) (8) false false [(s1.addr t a off).toNat]).st.beginWait t c (.cntw r.pa (s1.src64 t b) (opNum d) false none) (some .device)))))
    ∧ (∀ (c : Ctl) (a b : Operand) (off : BitVec 12) (s s1 : State) (t : TRef) (r : Range),
      Runs c (.cnta c a b off) s t s1 →
      s1.accessHeld t = false →
      (s1.addr t a off).toNat % 8 = 0 →
      (s1.access t (s1.addr t a off) (8) true false [(s1.addr t a off).toNat]).isOk = true →
      (s1.access t (s1.addr t a off) (8) true false [(s1.addr t a off).toNat]).rs = [r] →
      paDevice r.pa = true →
      exec (.cnta c a b off) s = .next (s1.ends t ((s1.access t (s1.addr t a off) (8) true false [(s1.addr t a off).toNat]).st.sendAtomic t c (s1.addr t a off) 8 (.atomic s1.tick ⟨.add, .n64, r.pa, (s1.src32 t b).zeroExtend 64, 0, r.bypass⟩ none) .rel .device false)))
    ∧ (∀ (c : Ctl) (a b : Operand) (s s1 : State) (t : TRef),
      Runs c (.trec c a b) s t s1 →
      opNum b + 5 ≤ (s1.ctx t).regs →
      ((s1.ctx t).quant || (s1.src64 t a).toNat % 64 != 0 || (2 ^ 57 : Nat) ≤ (s1.src64 t a).toNat) = true →
      exec (.trec c a b) s = .next (s1.ends t (s1)))
    ∧ (∀ (c : Ctl) (a b : Operand) (s s1 : State) (t : TRef),
      Runs c (.trec c a b) s t s1 →
      opNum b + 5 ≤ (s1.ctx t).regs →
      (s1.ctx t).quant = false →
      (s1.src64 t a).toNat % 64 = 0 →
      (s1.src64 t a).toNat < 2 ^ 57 →
      (s1.engineXlat (.walk (coreCluster (s1.ctx t).core)) (s1.ctx t).die (s1.ctx t).root (s1.src64 t a).toNat 64 false false [(s1.src64 t a).toNat]).isOk = true →
      ((s1.engineXlat (.walk (coreCluster (s1.ctx t).core)) (s1.ctx t).die (s1.ctx t).root (s1.src64 t a).toNat 64 false false [(s1.src64 t a).toNat]).rs.all fun r => (s1.engineXlat (.walk (coreCluster (s1.ctx t).core)) (s1.ctx t).die (s1.ctx t).root (s1.src64 t a).toNat 64 false false [(s1.src64 t a).toNat]).st.memReady r.pa r.len r.bypass) = true →
      (tensorOf ((s1.engineXlat (.walk (coreCluster (s1.ctx t).core)) (s1.ctx t).die (s1.ctx t).root (s1.src64 t a).toNat 64 false false [(s1.src64 t a).toNat]).st.readRanges (clusterReader (s1.ctx t).core) (s1.engineXlat (.walk (coreCluster (s1.ctx t).core)) (s1.ctx t).die (s1.ctx t).root (s1.src64 t a).toNat 64 false false [(s1.src64 t a).toNat]).rs).1).ok = true →
      (((((tensorOf ((s1.engineXlat (.walk (coreCluster (s1.ctx t).core)) (s1.ctx t).die (s1.ctx t).root (s1.src64 t a).toNat 64 false false [(s1.src64 t a).toNat]).st.readRanges (clusterReader (s1.ctx t).core) (s1.engineXlat (.walk (coreCluster (s1.ctx t).core)) (s1.ctx t).die (s1.ctx t).root (s1.src64 t a).toNat 64 false false [(s1.src64 t a).toNat]).rs).1).tilePages ((tensorOf ((s1.engineXlat (.walk (coreCluster (s1.ctx t).core)) (s1.ctx t).die (s1.ctx t).root (s1.src64 t a).toNat 64 false false [(s1.src64 t a).toNat]).st.readRanges (clusterReader (s1.ctx t).core) (s1.engineXlat (.walk (coreCluster (s1.ctx t).core)) (s1.ctx t).die (s1.ctx t).root (s1.src64 t a).toNat 64 false false [(s1.src64 t a).toNat]).rs).1).coords ((List.range 5).map fun i => (s1.vreg t (opNum b + i)).toNat))).foldlM (fun s p => s.fillPage (coreCluster (s1.ctx t).core) (s1.ctx t).root p) ((s1.engineXlat (.walk (coreCluster (s1.ctx t).core)) (s1.ctx t).die (s1.ctx t).root (s1.src64 t a).toNat 64 false false [(s1.src64 t a).toNat]).st.readRanges (clusterReader (s1.ctx t).core) (s1.engineXlat (.walk (coreCluster (s1.ctx t).core)) (s1.ctx t).die (s1.ctx t).root (s1.src64 t a).toNat 64 false false [(s1.src64 t a).toNat]).rs).2)) : Option State).isSome = true →
      exec (.trec c a b) s = .next (s1.ends t (((((((tensorOf ((s1.engineXlat (.walk (coreCluster (s1.ctx t).core)) (s1.ctx t).die (s1.ctx t).root (s1.src64 t a).toNat 64 false false [(s1.src64 t a).toNat]).st.readRanges (clusterReader (s1.ctx t).core) (s1.engineXlat (.walk (coreCluster (s1.ctx t).core)) (s1.ctx t).die (s1.ctx t).root (s1.src64 t a).toNat 64 false false [(s1.src64 t a).toNat]).rs).1).tilePages ((tensorOf ((s1.engineXlat (.walk (coreCluster (s1.ctx t).core)) (s1.ctx t).die (s1.ctx t).root (s1.src64 t a).toNat 64 false false [(s1.src64 t a).toNat]).st.readRanges (clusterReader (s1.ctx t).core) (s1.engineXlat (.walk (coreCluster (s1.ctx t).core)) (s1.ctx t).die (s1.ctx t).root (s1.src64 t a).toNat 64 false false [(s1.src64 t a).toNat]).rs).1).coords ((List.range 5).map fun i => (s1.vreg t (opNum b + i)).toNat))).foldlM (fun s p => s.fillPage (coreCluster (s1.ctx t).core) (s1.ctx t).root p) ((s1.engineXlat (.walk (coreCluster (s1.ctx t).core)) (s1.ctx t).die (s1.ctx t).root (s1.src64 t a).toNat 64 false false [(s1.src64 t a).toNat]).st.readRanges (clusterReader (s1.ctx t).core) (s1.engineXlat (.walk (coreCluster (s1.ctx t).core)) (s1.ctx t).die (s1.ctx t).root (s1.src64 t a).toNat 64 false false [(s1.src64 t a).toNat]).rs).2)) : Option State).getD s1).walkAhead (coreCluster (s1.ctx t).core) (s1.ctx t).root (tensorOf ((s1.engineXlat (.walk (coreCluster (s1.ctx t).core)) (s1.ctx t).die (s1.ctx t).root (s1.src64 t a).toNat 64 false false [(s1.src64 t a).toNat]).st.readRanges (clusterReader (s1.ctx t).core) (s1.engineXlat (.walk (coreCluster (s1.ctx t).core)) (s1.ctx t).die (s1.ctx t).root (s1.src64 t a).toNat 64 false false [(s1.src64 t a).toNat]).rs).1) ((tensorOf ((s1.engineXlat (.walk (coreCluster (s1.ctx t).core)) (s1.ctx t).die (s1.ctx t).root (s1.src64 t a).toNat 64 false false [(s1.src64 t a).toNat]).st.readRanges (clusterReader (s1.ctx t).core) (s1.engineXlat (.walk (coreCluster (s1.ctx t).core)) (s1.ctx t).die (s1.ctx t).root (s1.src64 t a).toNat 64 false false [(s1.src64 t a).toNat]).rs).1).coords ((List.range 5).map fun i => (s1.vreg t (opNum b + i)).toNat)))))
    ∧ (∀ (c : Ctl) (a b : Operand) (s s1 : State) (t : TRef),
      Runs c (.trec c a b) s t s1 →
      opNum b + 5 ≤ (s1.ctx t).regs →
      (s1.ctx t).quant = false →
      (s1.src64 t a).toNat % 64 = 0 →
      (s1.src64 t a).toNat < 2 ^ 57 →
      ((s1.engineXlat (.walk (coreCluster (s1.ctx t).core)) (s1.ctx t).die (s1.ctx t).root (s1.src64 t a).toNat 64 false false [(s1.src64 t a).toNat]).isOk && ((s1.engineXlat (.walk (coreCluster (s1.ctx t).core)) (s1.ctx t).die (s1.ctx t).root (s1.src64 t a).toNat 64 false false [(s1.src64 t a).toNat]).rs.all fun r => (s1.engineXlat (.walk (coreCluster (s1.ctx t).core)) (s1.ctx t).die (s1.ctx t).root (s1.src64 t a).toNat 64 false false [(s1.src64 t a).toNat]).st.memReady r.pa r.len r.bypass) && (tensorOf ((s1.engineXlat (.walk (coreCluster (s1.ctx t).core)) (s1.ctx t).die (s1.ctx t).root (s1.src64 t a).toNat 64 false false [(s1.src64 t a).toNat]).st.readRanges (clusterReader (s1.ctx t).core) (s1.engineXlat (.walk (coreCluster (s1.ctx t).core)) (s1.ctx t).die (s1.ctx t).root (s1.src64 t a).toNat 64 false false [(s1.src64 t a).toNat]).rs).1).ok && (((((tensorOf ((s1.engineXlat (.walk (coreCluster (s1.ctx t).core)) (s1.ctx t).die (s1.ctx t).root (s1.src64 t a).toNat 64 false false [(s1.src64 t a).toNat]).st.readRanges (clusterReader (s1.ctx t).core) (s1.engineXlat (.walk (coreCluster (s1.ctx t).core)) (s1.ctx t).die (s1.ctx t).root (s1.src64 t a).toNat 64 false false [(s1.src64 t a).toNat]).rs).1).tilePages ((tensorOf ((s1.engineXlat (.walk (coreCluster (s1.ctx t).core)) (s1.ctx t).die (s1.ctx t).root (s1.src64 t a).toNat 64 false false [(s1.src64 t a).toNat]).st.readRanges (clusterReader (s1.ctx t).core) (s1.engineXlat (.walk (coreCluster (s1.ctx t).core)) (s1.ctx t).die (s1.ctx t).root (s1.src64 t a).toNat 64 false false [(s1.src64 t a).toNat]).rs).1).coords ((List.range 5).map fun i => (s1.vreg t (opNum b + i)).toNat))).foldlM (fun s p => s.fillPage (coreCluster (s1.ctx t).core) (s1.ctx t).root p) ((s1.engineXlat (.walk (coreCluster (s1.ctx t).core)) (s1.ctx t).die (s1.ctx t).root (s1.src64 t a).toNat 64 false false [(s1.src64 t a).toNat]).st.readRanges (clusterReader (s1.ctx t).core) (s1.engineXlat (.walk (coreCluster (s1.ctx t).core)) (s1.ctx t).die (s1.ctx t).root (s1.src64 t a).toNat 64 false false [(s1.src64 t a).toNat]).rs).2)) : Option State).isSome) = false →
      exec (.trec c a b) s = .next (s1.ends t (s1)))

/-- For one thread whose access may go on: bgload and bgx of a descriptor that passes its checks post it to the bank queue that takes it (in quantum mode at the commit); bfence begins its wait for the engines of its masks; bgwait begins its wait at the completion word; bgstat.eng returns the status word of an engine below 2,048; bgstat.rmap returns where its page's address lies in the row map, 0 for an address that is not in HBM. Where the rules leave a choice it takes the model's, log entries 57, 63, 64. -/
def Obligations.BankInstructionsComplete : Prop :=
    (∀ (c : Ctl) (d a : Operand) (off : BitVec 12) (s s1 : State) (t : TRef),
      Runs c (.bgload c d a off) s t s1 →
      s1.loadHeld t c d 1 = false →
      (s1.addr t a off).toNat % 32 = 0 →
      (s1.access t (s1.addr t a off) (32) false false [(s1.addr t a off).toNat]).isOk = true →
      (s1.ctx t).quant = true →
      exec (.bgload c d a off) s = .next (s1.ends t (((s1.access t (s1.addr t a off) (32) false false [(s1.addr t a off).toNat]).st.begin_ t c (.bgload (s1.addr t a off) (opNum d)) none).defer t)))
    ∧ (∀ (c : Ctl) (d a : Operand) (off : BitVec 12) (s s1 : State) (t : TRef),
      Runs c (.bgload c d a off) s t s1 →
      s1.loadHeld t c d 1 = false →
      (s1.addr t a off).toNat % 32 = 0 →
      (s1.access t (s1.addr t a off) (32) false false [(s1.addr t a off).toNat]).isOk = true →
      (s1.ctx t).quant = false →
      (((s1.access t (s1.addr t a off) (32) false false [(s1.addr t a off).toNat]).st.begin_ t c (.bgload (s1.addr t a off) (opNum d)) none).post t true (s1.addr t a off) (some (s1.access t (s1.addr t a off) (32) false false [(s1.addr t a off).toNat]).st.nextId)).isSome = true →
      exec (.bgload c d a off) s = .next (s1.ends t ((((s1.access t (s1.addr t a off) (32) false false [(s1.addr t a off).toNat]).st.begin_ t c (.bgload (s1.addr t a off) (opNum d)) none).post t true (s1.addr t a off) (some (s1.access t (s1.addr t a off) (32) false false [(s1.addr t a off).toNat]).st.nextId)).getD s1)))
    ∧ (∀ (c : Ctl) (a : Operand) (off : BitVec 12) (s s1 : State) (t : TRef),
      Runs c (.bgx c a off) s t s1 →
      s1.acqOpen t = false →
      (s1.addr t a off).toNat % 128 = 0 →
      (s1.access t (s1.addr t a off) (128) false false [(s1.addr t a off).toNat]).isOk = true →
      (s1.ctx t).quant = true →
      exec (.bgx c a off) s = .next (s1.ends t (((s1.access t (s1.addr t a off) (128) false false [(s1.addr t a off).toNat]).st.beginQuiet t (.bgx (s1.addr t a off))).defer t)))
    ∧ (∀ (c : Ctl) (a : Operand) (off : BitVec 12) (s s1 : State) (t : TRef),
      Runs c (.bgx c a off) s t s1 →
      s1.acqOpen t = false →
      (s1.addr t a off).toNat % 128 = 0 →
      (s1.access t (s1.addr t a off) (128) false false [(s1.addr t a off).toNat]).isOk = true →
      (s1.ctx t).quant = false →
      ((s1.access t (s1.addr t a off) (128) false false [(s1.addr t a off).toNat]).st.post t false (s1.addr t a off) none).isSome = true →
      exec (.bgx c a off) s = .next (s1.ends t (((s1.access t (s1.addr t a off) (128) false false [(s1.addr t a off).toNat]).st.post t false (s1.addr t a off) none).getD s1)))
    ∧ (∀ (c : Ctl) (a : Operand) (s s1 : State) (t : TRef),
      Runs c (.bfence c a) s t s1 →
      (a != .none && (s1.src64 t a).extractLsb' 40 24 != 0) = false →
      (s1.acqOpen t || s1.flagFull t c) = false →
      exec (.bfence c a) s = .next (s1.ends t (if (s1.ctx t).quant then (s1.begin_ t c (.bfence (if a == .none then 2 ^ 32 - 1 else ((s1.src64 t a).extractLsb' 0 32).toNat) (if a == .none then 255 else ((s1.src64 t a).extractLsb' 32 8).toNat)) none).defer t else ((s1.begin_ t c (.bfence (if a == .none then 2 ^ 32 - 1 else ((s1.src64 t a).extractLsb' 0 32).toNat) (if a == .none then 255 else ((s1.src64 t a).extractLsb' 32 8).toNat)) none).acqBy t s1.nextId .system).fenceArm t s1.nextId)))
    ∧ (∀ (c : Ctl) (d a : Operand) (off : BitVec 12) (s s1 : State) (t : TRef) (r : Range),
      Runs c (.bgwait c d a off) s t s1 →
      (s1.ctx t).quant = false →
      s1.loadHeld t c d 2 = false →
      (s1.addr t a off).toNat % 8 = 0 →
      (s1.access t (s1.addr t a off) (8) false false [(s1.addr t a off).toNat]).isOk = true →
      (s1.access t (s1.addr t a off) (8) false false [(s1.addr t a off).toNat]).rs = [r] →
      paDevice r.pa = true →
      exec (.bgwait c d a off) s = .next (s1.endsWith t (((s1.access t (s1.addr t a off) (8) false false [(s1.addr t a off).toNat]).st.beginWait t c (.bgwait r.pa (opNum d) false none) none))))
    ∧ (∀ (c : Ctl) (d a : Operand) (s s1 : State) (t : TRef),
      Runs c (.bgstatEng c d a) s t s1 →
      (s1.src32 t a).toNat < 2048 →
      (s1.flagFull t c || s1.destLocked t d 1) = false →
      exec (.bgstatEng c d a) s = .next (s1.ends t (if (s1.ctx t).quant then (s1.begin_ t c (.bgstat (s1.src32 t a).toNat (opNum d)) none).defer t else s1.result t c [.v (opNum d) (s1.engineWord (s1.src32 t a).toNat)])))
    ∧ (∀ (c : Ctl) (d a : Operand) (s s1 : State) (t : TRef),
      Runs c (.bgstatRmap c d a) s t s1 →
      (s1.flagFull t c || s1.destLocked t d 1) = false →
      (s1.src64 t a).toNat < 2 ^ 57 →
      ((s1.pages (s1.ctx t).die (s1.ctx t).root (s1.src64 t a).toNat 1 false [(s1.src64 t a).toNat]).any fun p => p.2.2.wait) = false →
      firstFault false false false (s1.pages (s1.ctx t).die (s1.ctx t).root (s1.src64 t a).toNat 1 false [(s1.src64 t a).toNat]) = none →
      exec (.bgstatRmap c d a) s = .next (s1.ends t ((s1.fillPages (.core (s1.ctx t).core) (s1.ctx t).die (s1.ctx t).root (s1.pages (s1.ctx t).die (s1.ctx t).root (s1.src64 t a).toNat 1 false [(s1.src64 t a).toNat]) false).result t c [.v (opNum d) (BitVec.ofNat 32 (if paHome ((((s1.pages (s1.ctx t).die (s1.ctx t).root (s1.src64 t a).toNat 1 false [(s1.src64 t a).toNat]).head?.map pageRange).getD ⟨0, 0, false⟩).pa) < 4 then (if ((((s1.pages (s1.ctx t).die (s1.ctx t).root (s1.src64 t a).toNat 1 false [(s1.src64 t a).toNat]).head?.bind fun p => p.2.2.leaf).map lfBS).getD false) && rowEligible (256 * (hbmChan (((s1.pages (s1.ctx t).die (s1.ctx t).root (s1.src64 t a).toNat 1 false [(s1.src64 t a).toNat]).head?.map pageRange).getD ⟨0, 0, false⟩).pa / 32) + rowEngine ((((s1.pages (s1.ctx t).die (s1.ctx t).root (s1.src64 t a).toNat 1 false [(s1.src64 t a).toNat]).head?.map pageRange).getD ⟨0, 0, false⟩).pa)) (hbmRow ((((s1.pages (s1.ctx t).die (s1.ctx t).root (s1.src64 t a).toNat 1 false [(s1.src64 t a).toNat]).head?.map pageRange).getD ⟨0, 0, false⟩).pa)) then 1 else 0) + 2 + 4 * (hbmChan (((s1.pages (s1.ctx t).die (s1.ctx t).root (s1.src64 t a).toNat 1 false [(s1.src64 t a).toNat]).head?.map pageRange).getD ⟨0, 0, false⟩).pa / 32) + 32 * rowEngine ((((s1.pages (s1.ctx t).die (s1.ctx t).root (s1.src64 t a).toNat 1 false [(s1.src64 t a).toNat]).head?.map pageRange).getD ⟨0, 0, false⟩).pa) + 2 ^ 13 * hbmRow ((((s1.pages (s1.ctx t).die (s1.ctx t).root (s1.src64 t a).toNat 1 false [(s1.src64 t a).toNat]).head?.map pageRange).getD ⟨0, 0, false⟩).pa) else 0))])))

/-- For one thread: pgreq of an address below 2^57 begins a request that waits for its page's answer or returns at once, and in quantum mode is kept for the commit; at privileged level pgmig begins a migration of its page to the frame and rank of its destination word, tlbinv drops the cached translations of its pages (all of its address space above 65,536 pages) and completes when the accesses that used them have, and pocinv drops the page-owner entries it names and completes. Where the rules leave a choice it takes the model's, log entry 71. -/
def Obligations.PagingInstructionsComplete : Prop :=
    (∀ (c : Ctl) (w : Bool) (d a : Operand) (off : BitVec 12) (s s1 : State) (t : TRef),
      Runs c (.pgreq c w d a off) s t s1 →
      s1.loadHeld t c d 1 = false →
      (s1.addr t a off).toNat < 2 ^ 57 →
      (s1.ctx t).quant = true →
      exec (.pgreq c w d a off) s = .next (s1.ends t ((s1.begin_ t c (.pgreq (s1.addr t a off) w (opNum d) none) none).defer t)))
    ∧ (∀ (c : Ctl) (w : Bool) (d a : Operand) (off : BitVec 12) (s s1 : State) (t : TRef),
      Runs c (.pgreq c w d a off) s t s1 →
      s1.loadHeld t c d 1 = false →
      (s1.addr t a off).toNat < 2 ^ 57 →
      (s1.ctx t).quant = false →
      s1.walkHeld (s1.ctx t).root (s1.addr t a off).toNat = false →
      exec (.pgreq c w d a off) s = .next (s1.endsWith t ((if ((((s1.begin_ t c (.pgreq (s1.addr t a off) w (opNum d) none) none).pgreqGo s1.nextId).op? s1.nextId).map fun o => match o.kind with | .pgreq _ _ _ _ => true | _ => false).getD false then ((s1.begin_ t c (.pgreq (s1.addr t a off) w (opNum d) none) none).pgreqGo s1.nextId).hold t s1.nextId else .next ((s1.begin_ t c (.pgreq (s1.addr t a off) w (opNum d) none) none).pgreqGo s1.nextId)))))
    ∧ (∀ (c : Ctl) (d a b : Operand) (s s1 : State) (t : TRef),
      Runs c (.pgmig c d a b) s t s1 →
      (s1.flagFull t c || s1.destLocked t d 1) = false →
      exec (.pgmig c d a b) s = .next (s1.ends t (((({ s1 with nextId := s1.nextId + 1 } : State).begin_ t c (.pgmig s1.nextId (opNum d)) none).updXlat fun x => { x with migs := x.migs ++ [⟨s1.nextId, s1.nextId + 1, s1.src64 t a, (s1.ctx t).root, 0, 0, if (s1.src64 t b).extractLsb' 0 16 = 0 then ((s1.src64 t b).extractLsb' 52 12).toNat else 2 ^ 12, ((s1.src64 t b).extractLsb' 16 36).toNat, .waiting, 0, []⟩] }))))
    ∧ (∀ (c : Ctl) (a b : Operand) (s s1 : State) (t : TRef),
      Runs c (.tlbinvPage c a b) s t s1 →
      s1.flagFull t c = false →
      exec (.tlbinvPage c a b) s = .next (s1.ends t ((s1.dropTlb (if 65536 < (s1.src32 t b).toNat then tlbAll (s1.ctx t).root else tlbPages (s1.ctx t).root ((s1.src64 t a).toNat / 2 ^ 16 % 2 ^ 41) (s1.src32 t b).toNat)).2.begin_ t c (.inval (s1.dropTlb (if 65536 < (s1.src32 t b).toNat then tlbAll (s1.ctx t).root else tlbPages (s1.ctx t).root ((s1.src64 t a).toNat / 2 ^ 16 % 2 ^ 41) (s1.src32 t b).toNat)).1) none)))
    ∧ (∀ (c : Ctl) (s s1 : State) (t : TRef),
      Runs c (.tlbinvAll c) s t s1 →
      s1.flagFull t c = false →
      exec (.tlbinvAll c) s = .next (s1.ends t ((s1.dropTlb (tlbAll (s1.ctx t).root)).2.begin_ t c (.inval (s1.dropTlb (tlbAll (s1.ctx t).root)).1) none)))
    ∧ (∀ (c : Ctl) (a b : Operand) (s s1 : State) (t : TRef),
      Runs c (.pocinvPage c a b) s t s1 →
      s1.flagFull t c = false →
      exec (.pocinvPage c a b) s = .next (s1.ends t ((s1.updXlat fun x => { x with poc := x.poc.filter fun e => !(e.rank == (s1.src32 t b).toNat && e.page == (s1.src64 t a).toNat / 2 ^ 16 % 2 ^ 41 && (s1.src32 t b).toNat < s1.nranks) }).result t c [])))
    ∧ (∀ (c : Ctl) (s s1 : State) (t : TRef),
      Runs c (.pocinvAll c) s t s1 →
      s1.flagFull t c = false →
      exec (.pocinvAll c) s = .next (s1.ends t ((s1.updXlat fun x => { x with poc := [] }).result t c [])))

/-- For one thread with no call open and its flag below 7: rcall makes its earlier writes visible to the device, takes the next sequence number (the same one for .again) and sends a call with its arguments, which its translation accepts or refuses (in quantum mode at the commit); rwait returns the status word at once when no call is open; rstat returns where a call to its address would run; rret of a callee with nothing in flight ends the callee and its reply is ready. Where the rules leave a choice it takes the model's, log entry 78. -/
def Obligations.RemoteInstructionsComplete : Prop :=
    (∀ (c : Ctl) (l2 again : Bool) (cnt : BitVec 4) (m : BitVec 5) (d a b e : Operand) (s s1 : State) (t : TRef),
      Runs c (.rcall c l2 again cnt m d a b e) s t s1 →
      (s1.ctx t).quant = true →
      (s1.ops.any fun o => o.thr == t && match o.kind with | .rcall _ _ _ => true | _ => false) = false →
      (s1.flagFull t c || s1.destLocked t d m.toNat) = false →
      exec (.rcall c l2 again cnt m d a b e) s = .next (s1.ends t ((({ ((if (s1.ctx t).quant then s1 else s1.flush t .device (fun p => p == Path.ls || p == Path.at)).updThread t fun y => { y with rcseq := if again then (s1.thread t).rcseq else (s1.thread t).rcseq + 1 }) with nextId := ((if (s1.ctx t).quant then s1 else s1.flush t .device (fun p => p == Path.ls || p == Path.at)).updThread t fun y => { y with rcseq := if again then (s1.thread t).rcseq else (s1.thread t).rcseq + 1 }).nextId + 1, remote := { ((if (s1.ctx t).quant then s1 else s1.flush t .device (fun p => p == Path.ls || p == Path.at)).updThread t fun y => { y with rcseq := if again then (s1.thread t).rcseq else (s1.thread t).rcseq + 1 }).remote with calls := ((if (s1.ctx t).quant then s1 else s1.flush t .device (fun p => p == Path.ls || p == Path.at)).updThread t fun y => { y with rcseq := if again then (s1.thread t).rcseq else (s1.thread t).rcseq + 1 }).remote.calls ++ [({ id := ((if (s1.ctx t).quant then s1 else s1.flush t .device (fun p => p == Path.ls || p == Path.at)).updThread t fun y => { y with rcseq := if again then (s1.thread t).rcseq else (s1.thread t).rcseq + 1 }).nextId, op := ((if (s1.ctx t).quant then s1 else s1.flush t .device (fun p => p == Path.ls || p == Path.at)).updThread t fun y => { y with rcseq := if again then (s1.thread t).rcseq else (s1.thread t).rcseq + 1 }).nextId + 1, key := ⟨(s1.ctx t).core, (((if (s1.ctx t).quant then s1 else s1.flush t .device (fun p => p == Path.ls || p == Path.at)).updThread t fun y => { y with rcseq := if again then (s1.thread t).rcseq else (s1.thread t).rcseq + 1 }).waveOf t).slot, (s1.thread t).lane, (if again then (s1.thread t).rcseq else (s1.thread t).rcseq + 1).toNat⟩, again := again, l2 := l2, exec := execNone, va := s1.src64 t a, pa := 0, leafW := false, bypass := false, entry := s1.src64 t b, root := (s1.ctx t).root, args := (List.range (cnt.toNat + 1)).map fun i => s1.vreg t (opNum e + i), m := m.toNat, dst := opNum d, sentAt := s1.gtsc, phase := .queued, hops := 0, fwd := false, cached := false, code := 0, faultVa := 0, reply := [], lost := false } : Call)] } } : State).begin_ t c (.rcall ((if (s1.ctx t).quant then s1 else s1.flush t .device (fun p => p == Path.ls || p == Path.at)).updThread t fun y => { y with rcseq := if again then (s1.thread t).rcseq else (s1.thread t).rcseq + 1 }).nextId (opNum d) m.toNat) (some .device)).defer t)))
    ∧ (∀ (c : Ctl) (l2 again : Bool) (cnt : BitVec 4) (m : BitVec 5) (d a b e : Operand) (s s1 : State) (t : TRef),
      Runs c (.rcall c l2 again cnt m d a b e) s t s1 →
      (s1.ctx t).quant = false →
      (s1.ops.any fun o => o.thr == t && match o.kind with | .rcall _ _ _ => true | _ => false) = false →
      (s1.flagFull t c || s1.destLocked t d m.toNat) = false →
      s1.postHeld t (fun p => p == Path.ls || p == Path.at) = false →
      ((({ ((if (s1.ctx t).quant then s1 else s1.flush t .device (fun p => p == Path.ls || p == Path.at)).updThread t fun y => { y with rcseq := if again then (s1.thread t).rcseq else (s1.thread t).rcseq + 1 }) with nextId := ((if (s1.ctx t).quant then s1 else s1.flush t .device (fun p => p == Path.ls || p == Path.at)).updThread t fun y => { y with rcseq := if again then (s1.thread t).rcseq else (s1.thread t).rcseq + 1 }).nextId + 1, remote := { ((if (s1.ctx t).quant then s1 else s1.flush t .device (fun p => p == Path.ls || p == Path.at)).updThread t fun y => { y with rcseq := if again then (s1.thread t).rcseq else (s1.thread t).rcseq + 1 }).remote with calls := ((if (s1.ctx t).quant then s1 else s1.flush t .device (fun p => p == Path.ls || p == Path.at)).updThread t fun y => { y with rcseq := if again then (s1.thread t).rcseq else (s1.thread t).rcseq + 1 }).remote.calls ++ [({ id := ((if (s1.ctx t).quant then s1 else s1.flush t .device (fun p => p == Path.ls || p == Path.at)).updThread t fun y => { y with rcseq := if again then (s1.thread t).rcseq else (s1.thread t).rcseq + 1 }).nextId, op := ((if (s1.ctx t).quant then s1 else s1.flush t .device (fun p => p == Path.ls || p == Path.at)).updThread t fun y => { y with rcseq := if again then (s1.thread t).rcseq else (s1.thread t).rcseq + 1 }).nextId + 1, key := ⟨(s1.ctx t).core, (((if (s1.ctx t).quant then s1 else s1.flush t .device (fun p => p == Path.ls || p == Path.at)).updThread t fun y => { y with rcseq := if again then (s1.thread t).rcseq else (s1.thread t).rcseq + 1 }).waveOf t).slot, (s1.thread t).lane, (if again then (s1.thread t).rcseq else (s1.thread t).rcseq + 1).toNat⟩, again := again, l2 := l2, exec := execNone, va := s1.src64 t a, pa := 0, leafW := false, bypass := false, entry := s1.src64 t b, root := (s1.ctx t).root, args := (List.range (cnt.toNat + 1)).map fun i => s1.vreg t (opNum e + i), m := m.toNat, dst := opNum d, sentAt := s1.gtsc, phase := .queued, hops := 0, fwd := false, cached := false, code := 0, faultVa := 0, reply := [], lost := false } : Call)] } } : State).begin_ t c (.rcall ((if (s1.ctx t).quant then s1 else s1.flush t .device (fun p => p == Path.ls || p == Path.at)).updThread t fun y => { y with rcseq := if again then (s1.thread t).rcseq else (s1.thread t).rcseq + 1 }).nextId (opNum d) m.toNat) (some .device)).rcallGo ((if (s1.ctx t).quant then s1 else s1.flush t .device (fun p => p == Path.ls || p == Path.at)).updThread t fun y => { y with rcseq := if again then (s1.thread t).rcseq else (s1.thread t).rcseq + 1 }).nextId).isSome = true →
      exec (.rcall c l2 again cnt m d a b e) s = .next (s1.ends t (((({ ((if (s1.ctx t).quant then s1 else s1.flush t .device (fun p => p == Path.ls || p == Path.at)).updThread t fun y => { y with rcseq := if again then (s1.thread t).rcseq else (s1.thread t).rcseq + 1 }) with nextId := ((if (s1.ctx t).quant then s1 else s1.flush t .device (fun p => p == Path.ls || p == Path.at)).updThread t fun y => { y with rcseq := if again then (s1.thread t).rcseq else (s1.thread t).rcseq + 1 }).nextId + 1, remote := { ((if (s1.ctx t).quant then s1 else s1.flush t .device (fun p => p == Path.ls || p == Path.at)).updThread t fun y => { y with rcseq := if again then (s1.thread t).rcseq else (s1.thread t).rcseq + 1 }).remote with calls := ((if (s1.ctx t).quant then s1 else s1.flush t .device (fun p => p == Path.ls || p == Path.at)).updThread t fun y => { y with rcseq := if again then (s1.thread t).rcseq else (s1.thread t).rcseq + 1 }).remote.calls ++ [({ id := ((if (s1.ctx t).quant then s1 else s1.flush t .device (fun p => p == Path.ls || p == Path.at)).updThread t fun y => { y with rcseq := if again then (s1.thread t).rcseq else (s1.thread t).rcseq + 1 }).nextId, op := ((if (s1.ctx t).quant then s1 else s1.flush t .device (fun p => p == Path.ls || p == Path.at)).updThread t fun y => { y with rcseq := if again then (s1.thread t).rcseq else (s1.thread t).rcseq + 1 }).nextId + 1, key := ⟨(s1.ctx t).core, (((if (s1.ctx t).quant then s1 else s1.flush t .device (fun p => p == Path.ls || p == Path.at)).updThread t fun y => { y with rcseq := if again then (s1.thread t).rcseq else (s1.thread t).rcseq + 1 }).waveOf t).slot, (s1.thread t).lane, (if again then (s1.thread t).rcseq else (s1.thread t).rcseq + 1).toNat⟩, again := again, l2 := l2, exec := execNone, va := s1.src64 t a, pa := 0, leafW := false, bypass := false, entry := s1.src64 t b, root := (s1.ctx t).root, args := (List.range (cnt.toNat + 1)).map fun i => s1.vreg t (opNum e + i), m := m.toNat, dst := opNum d, sentAt := s1.gtsc, phase := .queued, hops := 0, fwd := false, cached := false, code := 0, faultVa := 0, reply := [], lost := false } : Call)] } } : State).begin_ t c (.rcall ((if (s1.ctx t).quant then s1 else s1.flush t .device (fun p => p == Path.ls || p == Path.at)).updThread t fun y => { y with rcseq := if again then (s1.thread t).rcseq else (s1.thread t).rcseq + 1 }).nextId (opNum d) m.toNat) (some .device)).rcallGo ((if (s1.ctx t).quant then s1 else s1.flush t .device (fun p => p == Path.ls || p == Path.at)).updThread t fun y => { y with rcseq := if again then (s1.thread t).rcseq else (s1.thread t).rcseq + 1 }).nextId).getD s1)))
    ∧ (∀ (c : Ctl) (d : Operand) (s s1 : State) (t : TRef),
      Runs c (.rwait c d) s t s1 →
      (s1.ctx t).quant = false →
      (s1.flagFull t c || s1.destLocked t d 1) = false →
      s1.callsOpen t s1.nextId = false →
      exec (.rwait c d) s = .next (s1.ends t (s1.begin_ t c (.rwait (opNum d)) none)))
    ∧ (∀ (c : Ctl) (l2 : Bool) (d a : Operand) (s s1 : State) (t : TRef) (k : Nat),
      Runs c (.rstat c l2 d a) s t s1 →
      (s1.flagFull t c || s1.destLocked t d 1) = false →
      (s1.callXlat t l2 (s1.src64 t a) none).refused = some k →
      exec (.rstat c l2 d a) s = .next (s1.ends t (s1.result t c [.v (opNum d) (if k = 2 then 0x800 else 0x1000)])))
    ∧ (∀ (c : Ctl) (l2 : Bool) (d a : Operand) (s s1 : State) (t : TRef) (x : Nat),
      Runs c (.rstat c l2 d a) s t s1 →
      (s1.flagFull t c || s1.destLocked t d 1) = false →
      (s1.callXlat t l2 (s1.src64 t a) none).exec = some x →
      exec (.rstat c l2 d a) s = .next (s1.ends t ((s1.callXlat t l2 (s1.src64 t a) none).st.result t c [.v (opNum d) (BitVec.ofNat 32 (if x < 32 then 1 + 4 * (x / 4) + 32 * (x % 4) else 3 + 4 * ((x - 32) / 40) + 32 * ((x - 32) % 40)))])))
    ∧ (∀ (c : Ctl) (s : State) (id : Nat), s.gang.members = [.callee id] → (s.encodingFault (.callee id) c (.rret c)).isNone = true → (s.mark c).guard (.callee id) c = true →
      (((s.mark c).callee? id).map (·.count)).getD 0 ≤ 4096 → ((s.mark c).ops.any fun o => o.thr == .callee id) = false →
      exec (.rret c) s = .next ((s.mark c).endCallee id 0 0).tokenEnds)

/-- For one thread whose access may go on: cplan of an aligned descriptor below 2^57 makes its plan (in quantum mode at the commit); cgo starts an instance as a release of the system; cwait of a handle that names no plan of the launch returns at once with the bad-handle status, an acquire all the same, and of one that names a plan waits for its instance; at privileged level netslot keeps a readable slot table for the next frame boundary (status 0), refuses one with gaps above 1,024 ranks (status 3) and one it cannot read (status 1), and its off form removes the table at the next frame boundary. Where the rules leave a choice it takes the model's, log entries 11, 89, 90. -/
def Obligations.CollectiveInstructionsComplete : Prop :=
    (∀ (c : Ctl) (d a : Operand) (off : BitVec 12) (s s1 : State) (t : TRef),
      Runs c (.cplan c d a off) s t s1 →
      s1.loadHeld t c d 2 = false →
      (s1.addr t a off).toNat % 128 = 0 →
      (s1.addr t a off).toNat < 2 ^ 57 →
      (s1.ctx t).quant = true →
      exec (.cplan c d a off) s = .next (s1.ends t ((s1.begin_ t c (.cplan (s1.addr t a off) (opNum d)) none).defer t)))
    ∧ (∀ (c : Ctl) (d a : Operand) (off : BitVec 12) (s s1 : State) (t : TRef),
      Runs c (.cplan c d a off) s t s1 →
      s1.loadHeld t c d 2 = false →
      (s1.addr t a off).toNat % 128 = 0 →
      (s1.addr t a off).toNat < 2 ^ 57 →
      (s1.ctx t).quant = false →
      ((s1.begin_ t c (.cplan (s1.addr t a off) (opNum d)) none).cplanGo s1.nextId).isSome = true →
      exec (.cplan c d a off) s = .next (s1.ends t (((s1.begin_ t c (.cplan (s1.addr t a off) (opNum d)) none).cplanGo s1.nextId).getD s1)))
    ∧ (∀ (c : Ctl) (a : Operand) (s s1 : State) (t : TRef),
      Runs c (.cgo c a) s t s1 →
      (s1.ctx t).quant = true →
      exec (.cgo c a) s = .next (s1.ends t ((s1.beginQuiet t (.cgo (s1.src32 t a).toNat)).defer t)))
    ∧ (∀ (c : Ctl) (a : Operand) (s s1 : State) (t : TRef),
      Runs c (.cgo c a) s t s1 →
      (s1.ctx t).quant = false →
      s1.postHeld t lsAt = false →
      exec (.cgo c a) s = .next (s1.ends t (((s1.flush t .system lsAt).releaseK t).cgoGo t (s1.launchOf t).id (s1.src32 t a).toNat)))
    ∧ (∀ (c : Ctl) (d a : Operand) (s s1 : State) (t : TRef),
      Runs c (.cwait c d a) s t s1 →
      (s1.ctx t).quant = false →
      s1.loadHeld t c d 1 = false →
      (s1.planOf (s1.launchOf t).id (s1.src32 t a).toNat).isNone = true →
      exec (.cwait c d a) s = .next (s1.ends t ((s1.begin_ t c (.result [.v (opNum d) (collWord 8 (if (s1.src32 t a).toNat < 64 then (s1.src32 t a).toNat else (Config.freeWord s1.tick [0xD02]).toNat))]) (some .device)).acqBy t s1.nextId .device)))
    ∧ (∀ (c : Ctl) (d a : Operand) (s s1 : State) (t : TRef),
      Runs c (.cwait c d a) s t s1 →
      (s1.ctx t).quant = false →
      s1.loadHeld t c d 1 = false →
      (s1.planOf (s1.launchOf t).id (s1.src32 t a).toNat).isSome = true →
      exec (.cwait c d a) s = .next (s1.endsWith t ((if s1.collOver (s1.launchOf t).id (s1.src32 t a).toNat then .next ((s1.begin_ t c (.cwait (s1.src32 t a).toNat (opNum d)) (some .device)).acqBy t s1.nextId .device) else ((s1.begin_ t c (.cwait (s1.src32 t a).toNat (opNum d)) (some .device)).acqBy t s1.nextId .device).hold t s1.nextId))))
    ∧ (∀ (c : Ctl) (d a : Operand) (off : BitVec 12) (s s1 : State) (t : TRef) (x : List Byte),
      Runs c (.netslot c d a off) s t s1 →
      s1.loadHeld t c d 1 = false →
      (s1.addr t a off).toNat % 8 = 0 →
      (s1.addr t a off).toNat < 2 ^ 57 →
      (s1.slotRead t (s1.addr t a off) 144).got = some x →
      exec (.netslot c d a off) s = .next (s1.ends t ((if slotGap x && 1024 < s1.nranks then (s1.slotRead t (s1.addr t a off) 144).st.result t c [.v (opNum d) 3] else ((s1.slotRead t (s1.addr t a off) 144).st.updFab fun f => { f with slotNext := some (some x), slotByLaunch := false }).result t c [.v (opNum d) 0]))))
    ∧ (∀ (c : Ctl) (d a : Operand) (off : BitVec 12) (s s1 : State) (t : TRef),
      Runs c (.netslot c d a off) s t s1 →
      s1.loadHeld t c d 1 = false →
      (s1.addr t a off).toNat % 8 = 0 →
      (s1.addr t a off).toNat < 2 ^ 57 →
      (s1.slotRead t (s1.addr t a off) 144).failed = true →
      exec (.netslot c d a off) s = .next (s1.ends t ((s1.slotRead t (s1.addr t a off) 144).st.result t c [.v (opNum d) 1])))
    ∧ (∀ (c : Ctl) (d : Operand) (s s1 : State) (t : TRef),
      Runs c (.netslotOff c d) s t s1 →
      (s1.flagFull t c || s1.destLocked t d 1) = false →
      exec (.netslotOff c d) s = .next (s1.ends t ((s1.updFab fun f => { f with slotNext := some none, slotByLaunch := false }).result t c [.v (opNum d) 0])))

/-- For one thread: spawn of an aligned readable record in device memory pushes it to its queue as a release of the device (in quantum mode at the commit); jwait begins its wait for the join count; sleep n stops the thread for n cycles and sleep 0 does nothing; qend ends the thread's quantum; qsync completes with the commit in quantum mode and at once outside it; pwrq returns the granted power and the stall bit; at privileged level crd and cwr read and write a control register at an aligned offset once a fence.ar.system before them has let what it orders be performed, dlset sets the deadline of the launch it handles, and rfe and halt act on the group they handle, which then resumes or ends with its launch. Where the rules leave a choice it takes the model's, log entries 40, 102, 111, 112. -/
def Obligations.SchedulingInstructionsComplete : Prop :=
    (∀ (c : Ctl) (q : BitVec 2) (a : Operand) (s s1 : State) (t : TRef),
      Runs c (.spawn c q a) s t s1 →
      (s1.src64 t a).toNat % 32 = 0 →
      (s1.access t (s1.src64 t a) 32 false false [(s1.src64 t a).toNat]).isOk = true →
      paDevice ((s1.access t (s1.src64 t a) 32 false false [(s1.src64 t a).toNat]).rs.headD ⟨0, 32, false⟩).pa = true →
      (s1.ctx t).quant = true →
      exec (.spawn c q a) s = .next (s1.ends t (((s1.access t (s1.src64 t a) 32 false false [(s1.src64 t a).toNat]).st.beginQuiet t (.spawn q.toNat (s1.src64 t a))).defer t)))
    ∧ (∀ (c : Ctl) (q : BitVec 2) (a : Operand) (s s1 : State) (t : TRef),
      Runs c (.spawn c q a) s t s1 →
      (s1.src64 t a).toNat % 32 = 0 →
      (s1.access t (s1.src64 t a) 32 false false [(s1.src64 t a).toNat]).isOk = true →
      paDevice ((s1.access t (s1.src64 t a) 32 false false [(s1.src64 t a).toNat]).rs.headD ⟨0, 32, false⟩).pa = true →
      (s1.ctx t).quant = false →
      ((s1.access t (s1.src64 t a) 32 false false [(s1.src64 t a).toNat]).st.postHeld t fun _ => true) = false →
      ((((s1.access t (s1.src64 t a) 32 false false [(s1.src64 t a).toNat]).st.flush t .device fun _ => true).releaseK t).spawnGo t q.toNat ((s1.access t (s1.src64 t a) 32 false false [(s1.src64 t a).toNat]).rs.headD ⟨0, 32, false⟩)).isSome = true →
      exec (.spawn c q a) s = .next (s1.ends t (((((s1.access t (s1.src64 t a) 32 false false [(s1.src64 t a).toNat]).st.flush t .device fun _ => true).releaseK t).spawnGo t q.toNat ((s1.access t (s1.src64 t a) 32 false false [(s1.src64 t a).toNat]).rs.headD ⟨0, 32, false⟩)).getD s1)))
    ∧ (∀ (c : Ctl) (d a : Operand) (off : BitVec 12) (s s1 : State) (t : TRef) (r : Range),
      Runs c (.jwait c d a off) s t s1 →
      (s1.ctx t).quant = false →
      s1.loadHeld t c d 2 = false →
      (s1.addr t a off).toNat % 16 = 0 →
      (s1.access t (s1.addr t a off) (16) false false [(s1.addr t a off).toNat]).isOk = true →
      (s1.access t (s1.addr t a off) (16) false false [(s1.addr t a off).toNat]).rs = [r] →
      paDevice r.pa = true →
      exec (.jwait c d a off) s = .next (s1.endsWith t (((s1.access t (s1.addr t a off) (16) false false [(s1.addr t a off).toNat]).st.beginWait t c (.jwait r.pa (opNum d) false none) (some .device)))))
    ∧ (∀ (c : Ctl) (a : Operand) (s s1 : State) (t : TRef),
      Runs c (.sleep c a) s t s1 →
      exec (.sleep c a) s = .next (s1.ends t (if (s1.ctx t).quant || (s1.src32 t a).toNat = 0 then s1 else s1.updThread t fun x => { x with sleep := some (s1.clk + 1 + (s1.src32 t a).toNat) })))
    ∧ (∀ (c : Ctl) (s s1 : State) (t : TRef),
      Runs c (.qend c) s t s1 →
      exec (.qend c) s = .next (s1.ends t (if (s1.ctx t).quant then s1.updThread t fun x => { x with qended := true } else s1)))
    ∧ (∀ (c : Ctl) (s s1 : State) (t : TRef),
      Runs c (.qsync c) s t s1 →
      s1.flagFull t c = false →
      exec (.qsync c) s = .next (s1.ends t (if (s1.ctx t).quant then (s1.begin_ t c (.qsync (s1.launchOf t).quantum) none).updThread t fun x => { x with qended := true } else s1.result t c [])))
    ∧ (∀ (c : Ctl) (d : Operand) (s s1 : State) (t : TRef),
      Runs c (.pwrq c d) s t s1 →
      (s1.flagFull t c || s1.destLocked t d 1) = false →
      exec (.pwrq c d) s = .next (s1.ends t (s1.result t c [.v (opNum d) (BitVec.ofNat 32 ((s1.launchOf t).rc.power % 2 ^ 14 + if !(s1.ctx t).quant && (s1.partAt (s1.ctx t).part).stall then 2 ^ 14 else 0))])))
    ∧ (∀ (c : Ctl) (ty : Ty) (d a : Operand) (s s1 : State) (t : TRef),
      Runs c (.crd c ty d a) s t s1 →
      ctlBad ty (s1.src32 t a).toNat = false →
      (s1.flagFull t c || s1.destLocked t d (tyRegs ty) || s1.ctlHeld t) = false →
      exec (.crd c ty d a) s = .next (s1.ends t (s1.result t c (wrTy ty d (s1.ctlRead (tyWide ty) (s1.src32 t a).toNat)))))
    ∧ (∀ (c : Ctl) (ty : Ty) (a b : Operand) (s s1 : State) (t : TRef),
      Runs c (.cwr c ty a b) s t s1 →
      ctlBad ty (s1.src32 t a).toNat = false →
      s1.ctlHeld t = false →
      exec (.cwr c ty a b) s = .next (s1.ends t (s1.ctlPut (tyWide ty) (s1.src32 t a).toNat (s1.src t ty b))))
    ∧ (∀ (c : Ctl) (a : Operand) (s s1 : State) (t : TRef) (G : Group),
      Runs c (.dlset c a) s t s1 →
      ((s1.groupOf t).bind (·.handles)).bind s1.group? = some G →
      exec (.dlset c a) s = .next (s1.ends t (s1.updLaunch G.launch fun L => { L with dl := some (s1.src64 t a).toNat })))
    ∧ (∀ (c : Ctl) (s s1 : State) (t : TRef) (h g : Nat),
      Runs c (.rfe c) s t s1 →
      (s1.thread t).exited = false →
      t.group = some h →
      (s1.launchOf t).priv = true →
      (s1.groupOf t).bind (·.handles) = some g →
      exec (.rfe c) s = .next (s1.endsWith t ((.stop ((s1.resumeGroup g).endHandler h)))))
    ∧ (∀ (c : Ctl) (code : BitVec 16) (s s1 : State) (t : TRef) (h g : Nat),
      Runs c (.halt c code) s t s1 →
      (s1.thread t).exited = false →
      t.group = some h →
      (s1.launchOf t).priv = true →
      (s1.groupOf t).bind (·.handles) = some g →
      exec (.halt c code) s = .next (s1.endsWith t ((.stop ((match s1.group? g with | some G => s1.endLaunch G.launch 5 code.toNat | none => s1).endHandler h)))))

/-- On every engine of a run that may issue: mac adds to each accumulator lane of the masked banks the product of its latch and VIN elements, each sum rounded once (with .f4 the scaled sum of four products), rmac reads the column first when its row is open and owned for reading, add and max take the BF16 latch element, scale multiplies by its constant, scale.scl loads the scale bytes from the latches, zero clears the lanes; then the engine stands at its next word. -/
def Obligations.BankArithmeticCompletes : Prop :=
    (∀ (bm : BitVec 4) (as : BitVec 2) (f : Bool) (s : State) (r : BgRun),
      bgGo s r = true →
      exec (.bgMac bm as f) s = .next (s.bgEach r (r.lead.pc + 1) (doMac bm as f)))
    ∧ (∀ (bm : BitVec 4) (x : BitVec 3) (as : BitVec 2) (f : Bool) (i : BitVec 16) (s : State) (r : BgRun),
      bgGo s r = true →
      (r.set.all fun e => (readCheck s r.l.id bm e).isNone) = true →
      readsClean s r (readRows bm) = true →
      exec (.bgRmac bm x as f i) s = .next (s.bgDone r (r.lead.pc + 1) (fun s _ e => (s, doMac bm as f (doRead s bm (colOf e x i) e)))))
    ∧ (∀ (bm : BitVec 4) (as : BitVec 2) (s : State) (r : BgRun),
      bgGo s r = true →
      exec (.bgAdd bm as) s = .next (s.bgEach r (r.lead.pc + 1) (fun e => mapLanes e bm as.toNat fun b n => rne (FVal.add .rne (f32Of (accAt e as.toNat b n)) (bfAt (latchOf e b) n)))))
    ∧ (∀ (bm : BitVec 4) (as : BitVec 2) (s : State) (r : BgRun),
      bgGo s r = true →
      exec (.bgMax bm as) s = .next (s.bgEach r (r.lead.pc + 1) (fun e => mapLanes e bm as.toNat fun b n => rne ((f32Of (accAt e as.toNat b n)).max (bfAt (latchOf e b) n)))))
    ∧ (∀ (bm : BitVec 4) (as : BitVec 2) (i : BitVec 16) (s : State) (r : BgRun),
      bgGo s r = true →
      exec (.bgScale bm as i) s = .next (s.bgEach r (r.lead.pc + 1) (fun e => mapLanes e bm as.toNat fun b n => rne (FVal.mul (f32Of (accAt e as.toNat b n)) (bf16.val i.toNat)))))
    ∧ (∀ (x : BitVec 3) (i : BitVec 16) (s : State) (r : BgRun),
      bgGo s r = true →
      exec (.bgScaleScl x i) s = .next (s.bgEach r (r.lead.pc + 1) (fun e => { e with scl := sliceB e.latch.flatten (8 * ((xAt e x + i.toNat) % 16)) 8 })))
    ∧ (∀ (bm : BitVec 4) (as : BitVec 2) (s : State) (r : BgRun),
      bgGo s r = true →
      exec (.bgZero bm as) s = .next (s.bgEach r (r.lead.pc + 1) (fun e => mapLanes e bm as.toNat fun _ _ => 0)))

/-- On every engine of a run that may issue and whose checks pass: open opens its row in the masked banks (with an empty mask none) and close closes them; rd loads the latches and their columns; wr writes the lanes as BF16, or as FP32 over two columns, to the open row of each masked bank; vld moves latches into VIN, btl loads an index register from the block-table row, idx from VIN; emit writes a set to its slot, with .ml the maximum and sum of the next set to the slot after it; attn leaves the outputs in a set, maximum and sum in the next, and every row closed. Where the rules leave a choice it takes the model's, log entry 67. -/
def Obligations.BankRowCommandsComplete : Prop :=
    (∀ (bm : BitVec 4) (x : BitVec 3) (i : BitVec 16) (s : State) (r : BgRun),
      bgGo s r = true →
      (r.set.all fun e => (if bm = 0 then none else openCheck s r.l.id e ((xAt e x + i.toNat) % 65536)).isNone) = true →
      exec (.bgOpen bm x i) s = .next (s.bgDone r (r.lead.pc + 1) (fun s r e => (if bm = 0 then s else s.sigOpen r e.id ((xAt e x + i.toNat) % 65536), { e with rows := e.rows.mapIdx fun b o => if bm.getLsbD b then some ((xAt e x + i.toNat) % 65536) else o }))))
    ∧ (∀ (bm : BitVec 4) (s : State) (r : BgRun),
      bgGo s r = true →
      exec (.bgClose bm) s = .next (s.bgEach r (r.lead.pc + 1) (fun e => { e with rows := e.rows.mapIdx fun b o => if bm.getLsbD b then none else o })))
    ∧ (∀ (bm : BitVec 4) (x : BitVec 3) (i : BitVec 16) (s : State) (r : BgRun),
      bgGo s r = true →
      (r.set.all fun e => (readCheck s r.l.id bm e).isNone) = true →
      readsClean s r (readRows bm) = true →
      exec (.bgRd bm x i) s = .next (s.bgDone r (r.lead.pc + 1) (fun s _ e => (s, doRead s bm (colOf e x i) e))))
    ∧ (∀ (bm : BitVec 4) (x : BitVec 3) (as : BitVec 2) (f : Bool) (i : BitVec 16) (s : State) (r : BgRun),
      bgGo s r = true →
      f = false →
      (r.set.all fun e => (writeCheck s r.l.id bm e).isNone) = true →
      exec (.bgWr bm x as f i) s = .next (s.bgDone r (r.lead.pc + 1) (fun s r e => ((banksOf bm).foldl (fun s b => s.bgWrite r (engAddr e.id ((e.rows.getD b none).getD 0) b (colOf e x i)) ((List.range 16).map fun n => natToBytes 2 (bf16.round .rne false (f32Of (accAt e as.toNat b n)))).flatten) s, e))))
    ∧ (∀ (bm : BitVec 4) (x : BitVec 3) (as : BitVec 2) (f : Bool) (i : BitVec 16) (s : State) (r : BgRun),
      bgGo s r = true →
      f = true →
      (r.set.all fun e => (writeCheck s r.l.id bm e).isNone) = true →
      exec (.bgWr bm x as f i) s = .next (s.bgDone r (r.lead.pc + 1) (fun s r e => ((banksOf bm).foldl (fun s b => (s.bgWrite r (engAddr e.id ((e.rows.getD b none).getD 0) b (colOf e x i)) (laneBytes e as.toNat b 0 8)).bgWrite r (engAddr e.id ((e.rows.getD b none).getD 0) b ((colOf e x i + 1) % 32)) (laneBytes e as.toNat b 8 8)) s, e))))
    ∧ (∀ (bm : BitVec 4) (x : BitVec 3) (i : BitVec 16) (s : State) (r : BgRun),
      bgGo s r = true →
      (r.set.all fun e => (if (banksOf bm).any fun b => (e.rows.getD b none).isNone then some bsRowclosed else none).isNone) = true →
      exec (.bgVld bm x i) s = .next (s.bgEach r (r.lead.pc + 1) (fun e => (banksOf bm).foldl (fun y b => { y with vin := overlay 0 y.vin (((xAt e x + i.toNat) % 32 + b) % 32 * 32) (latchOf e b) }) e)))
    ∧ (∀ (d src : BitVec 3) (o : BitVec 8) (s : State) (r : BgRun),
      bgGo s r = true →
      (r.set.all fun e => e.rows.getD (((xAt e src + o.toNat) % 1024) / 8 % 4) none == some 65535 && !((s.rowKinds r.l.id e.id 65535).any (· != .read)) && decide (s.blockWord e.id ((xAt e src + o.toNat) % 1024) < 65536)) = true →
      readsClean s r (fun e => [engAddr e.id 65535 0 0]) = true →
      exec (.bgBtl d src o) s = .next (s.bgDone r (r.lead.pc + 1) (fun s _ e => (s, setX e d (BitVec.ofNat 24 (s.blockWord e.id ((xAt e src + o.toNat) % 1024)))))))
    ∧ (∀ (d src : BitVec 3) (o : BitVec 8) (s : State) (r : BgRun),
      bgGo s r = true →
      (r.set.all fun e => decide ((natAt e.vin (4 * ((xAt e src + o.toNat) % 256)) 4) < 2 ^ 24)) = true →
      exec (.bgIdx d src o) s = .next (s.bgEach r (r.lead.pc + 1) (fun e => setX e d (BitVec.ofNat 24 (natAt e.vin (4 * ((xAt e src + o.toNat) % 256)) 4)))))
    ∧ (∀ (x : BitVec 3) (as : BitVec 2) (f : Bool) (i : BitVec 16) (s : State) (r : BgRun),
      bgGo s r = true →
      (r.set.all fun e => decide (((xAt e x + i.toNat) % 65536) + (if f then 1 else 0) < bdEnum r.l.body)) = true →
      exec (.bgEmit x as f i) s = .next (s.bgDone r (r.lead.pc + 1) (fun s r e => (if f then (s.bgWrite r (r.l.slotPa ((engNum e.id - bdFirst r.l.body) * bdEnum r.l.body + ((xAt e x + i.toNat) % 65536))) (setBytes e as.toNat)).bgWrite r (r.l.slotPa (((engNum e.id - bdFirst r.l.body) * bdEnum r.l.body + ((xAt e x + i.toNat) % 65536)) + 1)) (bytes4 (accAt e ((as.toNat + 1) % 4) 0 0) ++ bytes4 (accAt e ((as.toNat + 1) % 4) 0 1) ++ List.replicate 248 0) else s.bgWrite r (r.l.slotPa ((engNum e.id - bdFirst r.l.body) * bdEnum r.l.body + ((xAt e x + i.toNat) % 65536))) (setBytes e as.toNat), e))))
    ∧ (∀ (x : BitVec 3) (as : BitVec 2) (i : BitVec 16) (s : State) (r : BgRun),
      bgGo s r = true →
      (r.set.all fun e => (attnCheck s r.l.id x e).isNone) = true →
      readsClean s r (fun e => if xAt e x = 0 then [] else engAddr e.id 65535 0 0 :: (s.attnRows e.id (xAt e x)).map fun row => engAddr e.id row 0 0) = true →
      exec (.bgAttn x as i) s = .next (s.bgDone r (r.lead.pc + 1) (fun s r e => (if xAt e x = 0 then s else (65535 :: (s.attnRows e.id (xAt e x))).foldl (fun s row => s.sigOpen r e.id row) s, { (accPut (accPut (mapLanes (mapLanes e 15 as.toNat fun b k => rne (((List.range (xAt e x)).foldl (fun (a : Attn) t => a.token ((List.range 64).map fun k => bfAt e.vin k) (s.tokenRow e.id ((s.attnRows e.id (xAt e x)).getD (t / 32 * 2) 0) (t % 32)) (s.tokenRow e.id ((s.attnRows e.id (xAt e x)).getD (t / 32 * 2 + 1) 0) (t % 32)) (bf16.val i.toNat)) Attn.start).o.getD (16 * b + k) .nan)) 15 ((as.toNat + 1) % 4) fun _ _ => 0) ((as.toNat + 1) % 4) 0 0 (rne ((List.range (xAt e x)).foldl (fun (a : Attn) t => a.token ((List.range 64).map fun k => bfAt e.vin k) (s.tokenRow e.id ((s.attnRows e.id (xAt e x)).getD (t / 32 * 2) 0) (t % 32)) (s.tokenRow e.id ((s.attnRows e.id (xAt e x)).getD (t / 32 * 2 + 1) 0) (t % 32)) (bf16.val i.toNat)) Attn.start).m)) ((as.toNat + 1) % 4) 0 1 (rne ((List.range (xAt e x)).foldl (fun (a : Attn) t => a.token ((List.range 64).map fun k => bfAt e.vin k) (s.tokenRow e.id ((s.attnRows e.id (xAt e x)).getD (t / 32 * 2) 0) (t % 32)) (s.tokenRow e.id ((s.attnRows e.id (xAt e x)).getD (t / 32 * 2 + 1) 0) (t % 32)) (bf16.val i.toNat)) Attn.start).l)) with rows := List.replicate 4 none }))))

/-- On every engine of a run that may issue: nopc and sync only go on; ldx and addx write an index register; loop pushes its return address and count, or with a count of 0 goes past its next; next goes back while the count is above 1, else ends its loop; bnz goes to its target while its register is not 0; end ends the run of its instance with status 0; a word that is no command stops the instance with ILLEGAL. -/
def Obligations.BankControlCompletes : Prop :=
    (∀ (s : State) (r : BgRun),
      bgGo s r = true →
      exec .bgNopc s = .next (s.bgEach r (r.lead.pc + 1) id))
    ∧ (∀ (s : State) (r : BgRun),
      bgGo s r = true →
      exec .bgSync s = .next (s.bgEach r (r.lead.pc + 1) id))
    ∧ (∀ (x : BitVec 3) (i : BitVec 23) (s : State) (r : BgRun),
      bgGo s r = true →
      exec (.bgLdx x i) s = .next (s.bgEach r (r.lead.pc + 1) (fun e => setX e x (sextX i))))
    ∧ (∀ (x : BitVec 3) (i : BitVec 23) (s : State) (r : BgRun),
      bgGo s r = true →
      exec (.bgAddx x i) s = .next (s.bgEach r (r.lead.pc + 1) (fun e => setX e x (e.x.getD x.toNat 0 + sextX i))))
    ∧ (∀ (x : BitVec 3) (i : BitVec 23) (s : State) (r : BgRun),
      bgGo s r = true →
      loopCount r.lead x i ≠ 0 →
      (r.set.all fun e => decide (e.loops.length < 4)) = true →
      exec (.bgLoop x i) s = .next (s.bgEach r (r.lead.pc + 1) (fun e => { e with loops := (r.lead.pc + 1, loopCount r.lead x i) :: e.loops })))
    ∧ (∀ (x : BitVec 3) (i : BitVec 23) (s : State) (r : BgRun) (a : Nat),
      bgGo s r = true →
      loopCount r.lead x i = 0 →
      (r.set.all fun e => decide (e.loops.length < 4)) = true →
      matchNext r.lead.store 256 (r.lead.pc + 1) 1 = some a →
      exec (.bgLoop x i) s = .next (s.bgEach r (a + 1) id))
    ∧ (∀ (s : State) (r : BgRun) (a n : Nat) (l : List (Nat × Nat)),
      bgGo s r = true →
      r.lead.loops = (a, n) :: l →
      1 < n →
      (r.set.all fun e => !e.loops.isEmpty) = true →
      exec .bgNext s = .next (s.bgEach r (a) (fun e => match e.loops with | (a, n) :: l => { e with loops := (a, n - 1) :: l } | [] => e)))
    ∧ (∀ (s : State) (r : BgRun) (a n : Nat) (l : List (Nat × Nat)),
      bgGo s r = true →
      r.lead.loops = (a, n) :: l →
      n ≤ 1 →
      (r.set.all fun e => !e.loops.isEmpty) = true →
      exec .bgNext s = .next (s.bgEach r (r.lead.pc + 1) (fun e => { e with loops := e.loops.tail })))
    ∧ (∀ (x : BitVec 3) (t : BitVec 8) (s : State) (r : BgRun),
      bgGo s r = true →
      exec (.bgBnz x t) s = .next (s.bgEach r (if xAt r.lead x ≠ 0 then t.toNat else r.lead.pc + 1) id))
    ∧ (∀ (s : State) (r : BgRun),
      bgGo s r = true →
      exec .bgEnd s = .next (s.bgFinish r))
    ∧ (∀ (w : W32) (s : State) (r : BgRun),
      s.bgRun = some r →
      exec (.unassignedCommandCode w) s = .next (s.bgStop r (r.set.map fun e => (e.id, bsIllegal))))

/-- A pending operation whose results are fixed, or a load all of whose parts have been read, lands its results and lowers its flag; a load reads one more part that it may read now; a queued write reaches its point of visibility; an atomic or acall run whose members may all be performed is performed in order, after the writes its members owe to their words; a barr.wait past its limit ends with a false predicate; an mwait ends when its word differs from its value, else it is armed while its line has fewer than 64 monitors; a sleep whose cycle has come ends. Where the rules leave a choice it takes the model's, log entries 8, 9, 59. -/
def Obligations.OperationEventsComplete : Prop :=
    (∀ (op : Nat) (s : State) (o : Op) (ws : List Wr),
      s.op? op = some o →
      s.deferred o = false →
      o.kind = .result ws →
      (s.thread o.thr).wait ≠ some o.id →
      exec (.longLatencyCompletion op) s = .next (s.landOp o ws true))
    ∧ (∀ (op : Nat) (s : State) (o : Op) (l1 : Bool) (parts : List Part) (u : Bool) (first : Nat) (ty : Ty) (n : Nat) (more : List Wr),
      s.op? op = some o →
      s.deferred o = false →
      o.kind = .load l1 parts (.regs u first ty n) more →
      (parts.all fun p => p.got.isSome) = true →
      s.opsOpen o.under = false →
      (s.thread o.thr).wait ≠ some o.id →
      exec (.longLatencyCompletion op) s = .next (s.landOp o (finWrites (.regs u first ty n) (parts.map fun p => p.got.getD []).flatten ++ more) true))
    ∧ (∀ (op : Nat) (s : State) (o : Op) (l1 : Bool) (parts : List Part) (fin : Fin) (more : List Wr),
      s.op? op = some o →
      s.deferred o = false →
      o.kind = .load l1 parts fin more →
      (parts.all fun p => p.got.isSome) = false →
      (s.loadStep o parts).isSome = true →
      exec (.longLatencyCompletion op) s = .next ((s.loadStep o parts).getD s))
    ∧ (∀ (entry : Nat) (s : State),
      (s.mem.wq.find? fun e => e.id == entry).isSome = true →
      State.canForce s.forceFuel s .all entry = true →
      exec (.storeReachesVisibility entry) s = .next (State.force s.forceFuel .all s entry))
    ∧ (∀ (op : Nat) (s : State) (o : Op) (run : Nat) (m : Rmw) (dst : Option Nat),
      s.op? op = some o →
      o.kind = .atomic run m dst →
      (s.sliceRun o).isEmpty = false →
      ((s.sliceRun o).any fun x => s.deferred x || !s.sliceEnabled x) = false →
      exec (.atOperation op) s = .next ((s.sliceRun o).foldl (fun s x => s.sliceNow x) ((s.sliceRun o).foldl (fun s x => s.sliceOwn x) s)))
    ∧ (∀ (op : Nat) (s : State) (o : Op) (run pa : Nat) (va en : W64) (root : Nat) (args : List W32) (dst res : Nat) (by_ : Bool),
      s.op? op = some o →
      o.kind = .acall run pa va en root args dst res by_ →
      (s.sliceRun o).isEmpty = false →
      ((s.sliceRun o).any fun x => s.deferred x || !s.sliceEnabled x) = false →
      exec (.acallRoutine op) s = .next ((s.sliceRun o).foldl (fun s x => s.sliceNow x) ((s.sliceRun o).foldl (fun s x => s.sliceOwn x) s)))
    ∧ (∀ (op : Nat) (s : State) (o : Op) (core off seen lim dst : Nat),
      s.op? op = some o →
      o.kind = .barrWait core off seen (some lim) dst none →
      lim ≤ s.clk →
      exec (.barrWaitLimit op) s = .next (s.setKind op (.barrWait core off seen (some lim) dst (some false))))
    ∧ (∀ (op : Nat) (s : State) (o : Op) (pa : Nat) (ty : Ty) (val : W64) (dst : Nat),
      s.op? op = some o →
      o.kind = .mwait pa ty val dst false none →
      s.waitReady o pa (atomBytes ty) = true →
      (toW64 (s.mem.visBytes pa (atomBytes ty))) ≠ val →
      exec (.mwaitRecompare op) s = .next (s.updOp op fun y => { y with kind := .mwait pa ty val dst false (some (toW64 (s.mem.visBytes pa (atomBytes ty)))), from_ := s.mem.headsAt pa (atomBytes ty) }))
    ∧ (∀ (op : Nat) (s : State) (o : Op) (pa : Nat) (ty : Ty) (val : W64) (dst : Nat),
      s.op? op = some o →
      o.kind = .mwait pa ty val dst false none →
      s.waitReady o pa (atomBytes ty) = true →
      (toW64 (s.mem.visBytes pa (atomBytes ty))) = val →
      s.monitors pa < 64 →
      exec (.mwaitRecompare op) s = .next (s.updOp op fun y => { y with kind := .mwait pa ty val dst true none }))
    ∧ (∀ (grp tid : Nat) (s : State) (n : Nat),
      (s.thread (.thr grp tid)).sleep = some n →
      n ≤ s.clk →
      exec (.sleepExpiry grp tid) s = .next (s.updThread (.thr grp tid) fun x => { x with sleep := none }))

/-- A request engine with a kick and no chain under way fetches its first request, when the copy engine has fewer than 64 requests and the scoreboard of the core it writes fewer than 32 entries; a request of each kind that may begin, meets no status and, where it names its scratchpad only now, finds room on that scoreboard, is under way with its pieces; a remote request sends or moves its pages; a piece lands between aligned words, and ends its request with FAULT where the register it names is gone; a counter increase adds 1 after the bytes before it; a request with nothing left to land retires, one of a reserved kind with ILLEGAL. Where the rules leave a choice it takes the model's, log entries 48, 49, 50, 55, 58. -/
def Obligations.CopyEventsComplete : Prop :=
    (∀ (core : Nat) (s : State) (q : Kick) (qs : List Kick) (s1 : State),
      (s.coreAt core).chain = none →
      (s.coreAt core).kicks = q :: qs →
      s.chainCut core q q.head = false →
      ({ s.pruneReqs with nextId := s.nextId + 1 } : State).copyLoad (coreCluster core) < 64 →
      (({ s.pruneReqs with nextId := s.nextId + 1 } : State).fetchReq core q q.head s.nextId 0).getLeft? = some s1 →
      (match ((s1.reqs.getLast?).bind (·.sbr)).map (·.1) with | some c => decide (32 ≤ ({ s.pruneReqs with nextId := s.nextId + 1 } : State).boardLoad c) | none => false) = false →
      exec (.requestEngineFetch core) s = .next ((s1.chainNext core q (({ s.pruneReqs with nextId := s.nextId + 1 } : State).spadBytes core q.head 64)).2.updCore core fun x => { x with kicks := qs, chain := (s1.chainNext core q (({ s.pruneReqs with nextId := s.nextId + 1 } : State).spadBytes core q.head 64)).1.map fun o => (q, o, s.nextId, 1) }))
    ∧ (∀ (req : Nat) (s : State) (r : Req) (ps : List Piece) (n : Nat),
      s.req? req = some r →
      r.kind = 0 →
      s.canBegin r = true →
      (s.planLinear r).goes = some (ps, n) →
      (match (s.planLinear r).st.boardOf r with | some x => r.sbr.isNone && decide (32 ≤ (s.planLinear r).st.boardLoad x.1) | none => false) = false →
      exec (.linearCopy req) s = .next ((s.planLinear r).st.underWay r.id ps n))
    ∧ (∀ (req : Nat) (s : State) (r : Req) (ps : List Piece) (n : Nat),
      s.req? req = some r →
      r.kind = 1 →
      s.canBegin r = true →
      (s.planTensor r).goes = some (ps, n) →
      (match (s.planTensor r).st.boardOf r with | some x => r.sbr.isNone && decide (32 ≤ (s.planTensor r).st.boardLoad x.1) | none => false) = false →
      exec (.tensorCopy req) s = .next ((s.planTensor r).st.underWay r.id ps n))
    ∧ (∀ (req : Nat) (s : State) (r : Req) (ps : List Piece) (n : Nat),
      s.req? req = some r →
      r.kind = 2 →
      s.canBegin r = true →
      (s.planGather r false).goes = some (ps, n) →
      (match (s.planGather r false).st.boardOf r with | some x => r.sbr.isNone && decide (32 ≤ (s.planGather r false).st.boardLoad x.1) | none => false) = false →
      exec (.gatherRequest req) s = .next ((s.planGather r false).st.underWay r.id ps n))
    ∧ (∀ (req : Nat) (s : State) (r : Req) (ps : List Piece) (n : Nat),
      s.req? req = some r →
      r.kind = 3 →
      s.canBegin r = true →
      (s.planGather r true).goes = some (ps, n) →
      (match (s.planGather r true).st.boardOf r with | some x => r.sbr.isNone && decide (32 ≤ (s.planGather r true).st.boardLoad x.1) | none => false) = false →
      exec (.scatterAdd req) s = .next ((s.planGather r true).st.underWay r.id ps n))
    ∧ (∀ (req : Nat) (s : State) (r : Req) (ps : List Piece) (n : Nat),
      s.req? req = some r →
      r.kind = 4 →
      s.canBegin r = true →
      (s.planLayout r).goes = some (ps, n) →
      (match (s.planLayout r).st.boardOf r with | some x => r.sbr.isNone && decide (32 ≤ (s.planLayout r).st.boardLoad x.1) | none => false) = false →
      exec (.layoutTransform req) s = .next ((s.planLayout r).st.underWay r.id ps n))
    ∧ (∀ (req : Nat) (s : State) (r : Req) (ps : List Piece) (n : Nat),
      s.req? req = some r →
      r.kind = 5 →
      s.canBegin r = true →
      (s.planFill r).goes = some (ps, n) →
      (match (s.planFill r).st.boardOf r with | some x => r.sbr.isNone && decide (32 ≤ (s.planFill r).st.boardLoad x.1) | none => false) = false →
      exec (.fill req) s = .next ((s.planFill r).st.underWay r.id ps n))
    ∧ (∀ (req : Nat) (s : State) (r : Req),
      s.req? req = some r →
      r.kind = 6 →
      s.canBegin r = true →
      (s.remBegin r 6 false).getLeft?.isSome = true →
      exec (.remoteRead req) s = .next ((s.remBegin r 6 false).getLeft?.getD s))
    ∧ (∀ (req : Nat) (s : State) (r : Req),
      s.req? req = some r →
      r.kind = 7 →
      s.canBegin r = true →
      (s.remBegin r 7 false).getLeft?.isSome = true →
      exec (.remoteWrite req) s = .next ((s.remBegin r 7 false).getLeft?.getD s))
    ∧ (∀ (req : Nat) (s : State) (r : Req),
      s.req? req = some r →
      r.kind = 8 →
      s.canBegin r = true →
      (s.remBegin r 8 false).getLeft?.isSome = true →
      exec (.remoteReduce req) s = .next ((s.remBegin r 8 false).getLeft?.getD s))
    ∧ (∀ (req : Nat) (s : State) (r : Req),
      s.req? req = some r →
      r.kind = 10 →
      s.canBegin r = true →
      bodyBv r.body = true →
      0 < natAt r.body 24 2 →
      exec (.barrierSignal req) s = .next (s.underWay r.id [] 0))
    ∧ (∀ (req piece : Nat) (s : State) (r : Req),
      s.req? req = some r →
      r.retired = false →
      s.reqQuant r = false →
      (r.kind == 6 && r.xfer.isSome) = false →
      ((s.landSpan r.pieces piece).filterMap fun x => (r.pieces[x.1]?).map fun p => p.part x.2.1 x.2.2).isEmpty = false →
      (((s.landSpan r.pieces piece).filterMap fun x => (r.pieces[x.1]?).map fun p => p.part x.2.1 x.2.2).any (·.add.isSome) && (r.pieces.take (((s.landSpan r.pieces piece).head?.map (·.1)).getD piece)).any fun q => ((s.landSpan r.pieces piece).filterMap fun x => (r.pieces[x.1]?).map fun p => p.part x.2.1 x.2.2).any fun p => q.meets p) = false →
      ((s.landSpan r.pieces piece).filterMap fun x => (r.pieces[x.1]?).map fun p => p.part x.2.1 x.2.2).findSome? s.pieceGone = none →
      ((s.landSpan r.pieces piece).filterMap fun x => (r.pieces[x.1]?).map fun p => p.part x.2.1 x.2.2).all s.pieceOk = true →
      exec (.copyLanding req piece) s = .next (((((s.landBits r.reader .cp r.core r.id ((s.landSpan r.pieces piece).filterMap fun x => (r.pieces[x.1]?).map fun p => p.part x.2.1 x.2.2)).updReq r.id fun q => { q with pieces := s.landLeft r.reader r.pieces (s.landSpan r.pieces piece) }).landCount r.id (Nat.min ((((s.landSpan r.pieces piece).filterMap fun x => (r.pieces[x.1]?).map fun p => p.part x.2.1 x.2.2).map (·.bits)).foldl (· + ·) 0 / 8) (r.total - r.landed))).landRest r.id)))
    ∧ (∀ (req piece : Nat) (s : State) (r : Req) (x : Nat × Nat),
      s.req? req = some r →
      r.retired = false →
      s.reqQuant r = false →
      (r.kind == 6 && r.xfer.isSome) = false →
      ((s.landSpan r.pieces piece).filterMap fun x => (r.pieces[x.1]?).map fun p => p.part x.2.1 x.2.2).isEmpty = false →
      (((s.landSpan r.pieces piece).filterMap fun x => (r.pieces[x.1]?).map fun p => p.part x.2.1 x.2.2).any (·.add.isSome) && (r.pieces.take (((s.landSpan r.pieces piece).head?.map (·.1)).getD piece)).any fun q => ((s.landSpan r.pieces piece).filterMap fun x => (r.pieces[x.1]?).map fun p => p.part x.2.1 x.2.2).any fun p => q.meets p) = false →
      ((s.landSpan r.pieces piece).filterMap fun x => (r.pieces[x.1]?).map fun p => p.part x.2.1 x.2.2).findSome? s.pieceGone = some x →
      exec (.copyLanding req piece) s = .next ((s.refuseWindow x.2).reqStop r 1 x.1))
    ∧ (∀ (id : Nat) (s : State) (x : CtrInc),
      (s.incs.find? fun x => x.id == id) = some x →
      (match x.req.bind s.req? with | some r => !r.pieces.isEmpty || r.xfer.isSome | none => false) = false →
      (x.far.isNone && !s.sliceReady x.pa 8 x.bypass) = false →
      s.canForceAll (s.incWrites x) .all = true →
      exec (.counterIncrease id) s = .next (s.increase x))
    ∧ (∀ (req : Nat) (s : State) (r : Req),
      s.req? req = some r →
      r.retired = false →
      (r.began || r.code.isSome) = true →
      r.pieces = [] →
      r.xfer = none →
      (match r.addr with | .mem pa => s.sliceReady pa 64 false | _ => true) = true →
      (s.incs.any fun x => x.req == some req) = false →
      exec (.copyRetire req) s = .next (({ s with cp := { s.cp with copyRun := s.cp.copyRun.filter fun x => x.1 != req } } : State).retireReq r))
    ∧ (∀ (req : Nat) (s : State) (r : Req),
      s.req? req = some r →
      r.retired = false →
      (decide (11 ≤ r.kind) || r.kind == 9) = true →
      s.canBegin r = true →
      r.pieces = [] →
      r.xfer = none →
      (match r.addr with | .mem pa => s.sliceReady pa 64 false | _ => true) = true →
      (s.incs.any fun x => x.req == some req) = false →
      exec (.copyRetire req) s = .next (({ s with cp := { s.cp with copyRun := s.cp.copyRun.filter fun x => x.1 != req } } : State).retireReq { r with code := some (3, 0) }))

/-- The entry at the head of a bank queue is read with its aligned descriptor and queued; a store load with a good descriptor, readable words and idle engines writes its words to every engine; a launch that passes the checks of admission starts its runs; an instance with a conflict whose engines have ended starts again, without speculation once it is exclusive; merging and completion follow the instances' statuses; a dirty sector goes back to its channel. Where the rules leave a choice it takes the model's, log entries 56, 65, 66. -/
def Obligations.BankEventsComplete : Prop :=
    (∀ (q : Nat) (s : State) (b : List Byte) (push : Option Push) (body : List Byte),
      q < 4 →
      (s.ringTake (6 + q)).map (fun x => (x.1, x.2.1)) = some (b, push) →
      (natAt b 0 8) % 2 ^ 57 % (if bitAt (natAt b 0 8) 63 then 32 else 128) = 0 →
      ((((s.ringTake (6 + q)).map fun x => x.2.2).getD s).cpRead 0 (s.entryRoot (6 + q) push) ((natAt b 0 8) % 2 ^ 57) (if bitAt (natAt b 0 8) 63 then 32 else 128) cpReader).bytes = some body →
      exec (.bankQueueTake q) s = .next ({ ((((s.ringTake (6 + q)).map fun x => x.2.2).getD s).cpRead 0 (s.entryRoot (6 + q) push) ((natAt b 0 8) % 2 ^ 57) (if bitAt (natAt b 0 8) 63 then 32 else 128) cpReader).st with nextId := ((((s.ringTake (6 + q)).map fun x => x.2.2).getD s).cpRead 0 (s.entryRoot (6 + q) push) ((natAt b 0 8) % 2 ^ 57) (if bitAt (natAt b 0 8) 63 then 32 else 128) cpReader).st.nextId + 1, bank := { ((((s.ringTake (6 + q)).map fun x => x.2.2).getD s).cpRead 0 (s.entryRoot (6 + q) push) ((natAt b 0 8) % 2 ^ 57) (if bitAt (natAt b 0 8) 63 then 32 else 128) cpReader).st.bank with launches := ((((s.ringTake (6 + q)).map fun x => x.2.2).getD s).cpRead 0 (s.entryRoot (6 + q) push) ((natAt b 0 8) % 2 ^ 57) (if bitAt (natAt b 0 8) 63 then 32 else 128) cpReader).st.bank.launches ++ [({ id := ((((s.ringTake (6 + q)).map fun x => x.2.2).getD s).cpRead 0 (s.entryRoot (6 + q) push) ((natAt b 0 8) % 2 ^ 57) (if bitAt (natAt b 0 8) 63 then 32 else 128) cpReader).st.nextId, load := bitAt (natAt b 0 8) 63, va := BitVec.ofNat 64 ((natAt b 0 8) % 2 ^ 57), root := (s.entryRoot (6 + q) push).getD 0, part := (push.map (·.part)).getD 0xFFFF, prio := q, stack := if bitAt (natAt b 0 8) 63 then natAt body 8 4 % 8 else bitsOf (natAt body 0 8) 18 16, body := body, readable := true, phase := .queued, insts := [], vins := [], emitPa := [], comp := none, status := 0, merged := false, op := push.bind (·.op), launch := push.bind (·.launch) } : BankLaunch)] } }))
    ∧ (∀ (l : Nat) (s : State) (L : BankLaunch) (b : List Byte),
      s.bankLaunch? l = some L →
      L.load = true →
      L.phase = .queued →
      s.bankHead L = true →
      loadBad L.body = false →
      (s.cpRead (L.stack / 2) (some L.root) (natAt L.body 0 8 % 2 ^ 57) (4 * bitsOf (natAt L.body 12 4) 16 8) (dieReader .rc (L.stack / 2))).bytes = some b →
      ((loadEngines L).any fun e => s.engineBusy e) = false →
      exec (.storeLoadDispatch l) s = .next ((((loadEngines L).foldl (fun s id => s.setEngine { s.engine id with store := ((List.range (bitsOf (natAt L.body 12 4) 16 8)).map fun i => toW32 (sliceB b (4 * i) 4)).zipIdx.foldl (fun st w => st.set (natAt L.body 12 4 % 256 + w.2) w.1) (s.engine id).store }) (s.cpRead (L.stack / 2) (some L.root) (natAt L.body 0 8 % 2 ^ 57) (4 * bitsOf (natAt L.body 12 4) 16 8) (dieReader .rc (L.stack / 2))).st).loadStatus L.op 0).dropBank l))
    ∧ (∀ (l : Nat) (s : State) (L : BankLaunch) (comp : Range) (a : Admit),
      s.bankLaunch? l = some L →
      L.load = false →
      L.phase = .queued →
      s.bankHead L = true →
      (s.cpWord (L.stack / 2) (some L.root) (natAt L.body 112 8 % 2 ^ 57)).got = some comp →
      bdBad L.body (s.cp.paBank.extractLsb' 0 14).toNat = false →
      ((s.cpWord (L.stack / 2) (some L.root) (natAt L.body 112 8 % 2 ^ 57)).st.admitXlat L).got = some a →
      (a.reads.any fun r => (a.writes ++ a.emits).contains r) = false →
      (((entriesOf .read (!bitAt (natAt L.body 0 8) 11) l a.reads ++ entriesOf .write true l a.writes ++ entriesOf .emit true l a.emits).map (·.chan)).eraseDups.any fun ch => 64 < (entriesOf .read (!bitAt (natAt L.body 0 8) 11) l a.reads ++ entriesOf .write true l a.writes ++ entriesOf .emit true l a.emits).countP fun e => e.chan == ch) = false →
      (a.writes.any fun r => r.row == 65535) = false →
      (bitAt (natAt L.body 0 8) 11 && a.overlaps) = false →
      ((s.cpWord (L.stack / 2) (some L.root) (natAt L.body 112 8 % 2 ^ 57)).st.admitXlat L).st.admitOk L a (entriesOf .read (!bitAt (natAt L.body 0 8) 11) l a.reads ++ entriesOf .write true l a.writes ++ entriesOf .emit true l a.emits) = true →
      (a.vins.all fun v => v.2.all fun p => ((s.cpWord (L.stack / 2) (some L.root) (natAt L.body 112 8 % 2 ^ 57)).st.admitXlat L).st.bankReady p.pa) = true →
      exec (.bankLaunchAdmission l) s = .next (((s.cpWord (L.stack / 2) (some L.root) (natAt L.body 112 8 % 2 ^ 57)).st.admitXlat L).st.admitGo L a (entriesOf .read (!bitAt (natAt L.body 0 8) 11) l a.reads ++ entriesOf .write true l a.writes ++ entriesOf .emit true l a.emits) (comp.pa, comp.bypass)))
    ∧ (∀ (l inst : Nat) (s : State) (L : BankLaunch) (i : Inst),
      s.bankLaunch? l = some L →
      L.insts[inst]? = some i →
      L.phase = .running →
      i.status = none →
      i.conflict = true →
      (i.engines.any fun e => (s.engine e).run.isSome) = false →
      exec (.bankReexecution l inst) s = .next ((s.updInst l inst fun i => { i with conflict := false, sigs := [], cmds := 0, wrote := [], spec := !i.excl }).startRun L inst i.engines))
    ∧ (∀ (l : Nat) (s : State) (L : BankLaunch),
      s.bankLaunch? l = some L →
      L.phase = .running →
      bitAt (natAt L.body 0 8) 12 = true →
      L.merged = false →
      (L.insts.any fun i => i.status != some 0) = false →
      exec (.attentionMerge l) s = .next ((s.mergeSlots L).updBank l fun L => { L with merged := true }))
    ∧ (∀ (l : Nat) (s : State) (L : BankLaunch) (pa : Nat) (by_ : Bool),
      s.bankLaunch? l = some L →
      L.comp = some (pa, by_) →
      (L.phase = .ended ∨ L.phase = .running ∧ (L.insts.all fun i => i.status.isSome) = true ∧ ((bitAt (natAt L.body 0 8) 12 && L.insts.all fun i => i.status == some 0) = false ∨ L.merged = true)) →
      s.bankReady pa = true →
      s.pageOpen pa = true →
      s.settled pa 8 = true →
      (s.l2Room pa).isSome = true →
      exec (.bankCompletion l) s = .next (({ ((s.settle pa 8).perform pa (natToBytes 8 L.word) by_) with bank := { ((s.settle pa 8).perform pa (natToBytes 8 L.word) by_).bank with rot := ((s.settle pa 8).perform pa (natToBytes 8 L.word) by_).bank.rot.filter fun e => e.launch != l } } : State).dropBank l))
    ∧ (∀ (sector : Nat) (s : State) (x : Sector),
      s.mem.sector? sector = some x →
      x.dirty = true →
      s.writebackOk x.base = true →
      exec (.coreAccessArrives sector) s = .next (s.writeback x.base (s.flip [0x901, x.base])))

/-- A migration whose page can be moved sets bit M and copies; its pass ends with a final pass when at most 64 sectors were written during it; its switch writes the new leaf, leaves a stub and ends with status 0. An access at a stub is forwarded at most twice, with the members of its run at the page and a redirect to its die, and after that chased. A redirect changes the cached translations of its frame; a reclaimed stub's dies drop theirs and answer once nothing of theirs, access or redirect, still names its frame; the ring takes the oldest held record when it has room; a page-request answer completes its requests; a translation that the host gives is cached, and an invalidation drops it. Where the rules leave a choice it takes the model's, log entries 70, 73, 74, 75, 76. -/
def Obligations.PagingEventsComplete : Prop :=
    (∀ (m : Nat) (s : State) (M : Mig) (leafPa : Nat) (leaf : W64),
      s.mig? m = some M →
      M.phase = .waiting →
      s.migWaits m = false →
      s.walkHeld M.root (M.va.toNat % 2 ^ 57) = false →
      s.migPage M = some (leafPa, leaf) →
      s.migDestBad M leaf = false →
      s.stubLoad (paDie (lfFrame leaf * 2 ^ 16)) < 4096 →
      s.rowsOwned (lfFrame leaf) = false →
      s.sliceReady leafPa 8 false = true →
      M.rank = s.rank →
      exec (.migrationStart m) s = .next (((s.settle leafPa 8).perform leafPa (bytes8 (leaf ||| 0x8000)) false).setMig { M with leafPa := leafPa, old := lfFrame leaf, phase := .copying, passes := 0 }))
    ∧ (∀ (m : Nat) (s : State) (M : Mig) (leafPa : Nat) (leaf : W64),
      s.mig? m = some M →
      M.phase = .waiting →
      s.migWaits m = false →
      s.walkHeld M.root (M.va.toNat % 2 ^ 57) = false →
      s.migPage M = some (leafPa, leaf) →
      s.migDestBad M leaf = false →
      s.stubLoad (paDie (lfFrame leaf * 2 ^ 16)) < 4096 →
      s.rowsOwned (lfFrame leaf) = false →
      s.sliceReady leafPa 8 false = true →
      M.rank ≠ s.rank →
      M.passes = 0 →
      exec (.migrationStart m) s = .next ((s.setMig { M with leafPa := leafPa, old := lfFrame leaf, passes := 1 }).sendXfer (paDie (lfFrame leaf * 2 ^ 16)) M.rank (.page m) (.pageCopy s.nextId (BitVec.ofNat 64 (M.va.toNat / 2 ^ 16 * 2 ^ 16)) M.new (lfBS leaf) [] false)))
    ∧ (∀ (m : Nat) (s : State) (M : Mig),
      s.mig? m = some M →
      M.phase = .copying →
      s.migWaits m = false →
      s.migReady M (if M.passes = 0 then List.range 256 else M.dirty) = true →
      M.dirty.length ≤ 64 →
      exec (.migrationPassEnd m) s = .next (((s.settle (M.old * 2 ^ 16) (2 ^ 16)).migCopy M (if M.passes = 0 then List.range 256 else M.dirty)).setMig { M with phase := .final, passes := M.passes + 1, dirty := [] }))
    ∧ (∀ (m : Nat) (s : State) (M : Mig),
      s.mig? m = some M →
      M.phase = .final →
      s.migWaits m = false →
      s.migReady M M.dirty = true →
      s.sliceReady M.leafPa 8 false = true →
      M.rank = s.rank →
      exec (.migrationSwitch m) s = .next (let a := s.migCopy M M.dirty
      let b := a.perform M.leafPa (bytes8 (switchLeaf (toW64 (a.mem.visBytes M.leafPa 8)) false M.rank M.new)) false
      let d : State := { b with mem := { b.mem with l2 := b.mem.l2.filter fun x => x.base / 2 ^ 16 != M.old } }
      let sharers := (List.range 4).filter fun k => k == paDie (M.old * 2 ^ 16) || d.xlat.tlb.any fun e => e.die == k && lfFrame e.leaf ≤ M.old && M.old < lfFrame e.leaf + tlbSpan e.leaf
      let e := ({ d with nextId := d.nextId + 1 } : State).updXlat fun x => { x with stubs := x.stubs ++ [⟨d.nextId, M.va, M.root, paDie (M.old * 2 ^ 16), M.old, M.rank, M.new, d.gtsc, sharers, []⟩] }
      ((e.ops.foldl (fun s o => s.moveMonitor o M.old M.new) e).moveBuffered M.old M.new).migEnd M 0 true))
    ∧ (∀ (op : Nat) (s : State) (w : AtStub),
      s.waitsAt op = some w →
      s.hopsOf op < 2 →
      s.stubOld w.b = false →
      w.b.rank = s.rank →
      exec (.stubForward op) s = .next (let ids := s.stubRun op w.b.old
      let a := ids.foldl (fun s i => s.relocate i w.b.old w.b.new) s
      ({ a with nextId := a.nextId + 1 } : State).updXlat fun x => { x with redirs := x.redirs ++ [⟨s.nextId, w.die, w.b.root, w.b.old, some w.b.new⟩], hops := (ids.map fun i => (i, s.hopsOf i + 1)) ++ x.hops.filter fun h => !ids.contains h.1 }))
    ∧ (∀ (id : Nat) (s : State) (r : Redir),
      (s.xlat.redirs.find? fun r => r.id == id) = some r →
      exec (.redirect id) s = .next (s.updXlat fun x => { x with redirs := x.redirs.filter fun y => y.id != id, tlb := match r.new with | some f => x.tlb.map fun e => if (e.die == r.die && tlbSpan e.leaf == 1 && lfFrame e.leaf == r.old) then { e with leaf := lfSetFrame e.leaf f } else e | none => x.tlb.filter fun e => !(e.die == r.die && tlbSpan e.leaf == 1 && lfFrame e.leaf == r.old) }))
    ∧ (∀ (op : Nat) (s : State) (w : AtStub) (f : Nat),
      s.waitsAt op = some w →
      (2 ≤ s.hopsOf op ∨ s.stubOld w.b = true) →
      s.walkHeld w.b.root (w.b.va.toNat % 2 ^ 57) = false →
      (((s.updXlat fun x => { x with hops := x.hops.filter (fun h => h.1 != op), tlb := x.tlb.filter fun e => !(e.die == w.die && tlbSpan e.leaf == 1 && lfFrame e.leaf == w.b.old) }).walk w.b.root (w.b.va.toNat % 2 ^ 57)).bind fun x => if lfThere x.2 then some (lfFrame x.2) else none) = some f →
      exec (.chase op) s = .next ((s.updXlat fun x => { x with hops := x.hops.filter (fun h => h.1 != op), tlb := x.tlb.filter fun e => !(e.die == w.die && tlbSpan e.leaf == 1 && lfFrame e.leaf == w.b.old) }).relocate op w.b.old f))
    ∧ (∀ (stub die : Nat) (s : State) (b : Stub),
      (s.xlat.stubs.find? fun b => b.id == stub) = some b →
      b.queries.contains die = true →
      exec (.stubReclaimQuery stub die) s = .next (s.updXlat fun x => { x with tlb := x.tlb.filter fun e => !(e.die == die && lfFrame e.leaf ≤ b.old && b.old < lfFrame e.leaf + tlbSpan e.leaf), stubs := listUpd (fun y => y.id == stub) (fun y => { y with queries := y.queries.filter (· != die), waiting := y.waiting ++ [die] }) x.stubs }))
    ∧ (∀ (stub : Nat) (s : State) (b : Stub) (d : Nat),
      (s.xlat.stubs.find? fun b => b.id == stub) = some b →
      (b.waiting.find? fun d => !(s.pendingIn s.nextId (some d) fun f => f == b.old) && !s.xlat.redirs.any fun r => r.die == d && r.old == b.old) = some d →
      (b.queries.isEmpty && (b.waiting.filter (· != d)).isEmpty) = true →
      exec (.stubReclaimReply stub) s = .next ((s.updXlat fun x => { x with stubs := x.stubs.filter fun y => y.id != stub }).prHold (1 + b.old * 2 ^ 16) (b.die * 2 ^ 16) none))
    ∧ (∀ (stub : Nat) (s : State) (b : Stub) (d : Nat),
      (s.xlat.stubs.find? fun b => b.id == stub) = some b →
      (b.waiting.find? fun d => !(s.pendingIn s.nextId (some d) fun f => f == b.old) && !s.xlat.redirs.any fun r => r.die == d && r.old == b.old) = some d →
      (b.queries.isEmpty && (b.waiting.filter (· != d)).isEmpty) = false →
      exec (.stubReclaimReply stub) s = .next (s.updXlat fun x => { x with stubs := listUpd (fun y => y.id == stub) (fun y => { y with waiting := (b.waiting.filter (· != d)) }) x.stubs }))
    ∧ (∀ (s : State) (r : PrRecord) (rest : List PrRecord),
      s.xlat.prHeld = r :: rest →
      prOn s = true →
      (s.xlat.prTail - s.xlat.prHead).toNat < prSlots s →
      paDevice ((s.xlat.prBase.extractLsb' 4 48).toNat * 16 + s.xlat.prTail.toNat % prSlots s * 16) = true →
      s.movedAway ((s.xlat.prBase.extractLsb' 4 48).toNat * 16 + s.xlat.prTail.toNat % prSlots s * 16) = false →
      s.sliceReady (s.resolve ((s.xlat.prBase.extractLsb' 4 48).toNat * 16 + s.xlat.prTail.toNat % prSlots s * 16)) 16 false = true →
      exec .pageRequestRingWrite s = .next ({ (((s.settle (s.resolve ((s.xlat.prBase.extractLsb' 4 48).toNat * 16 + s.xlat.prTail.toNat % prSlots s * 16)) 16).perform (s.resolve ((s.xlat.prBase.extractLsb' 4 48).toNat * 16 + s.xlat.prTail.toNat % prSlots s * 16)) (bytes8 r.lo ++ bytes8 r.hi) false).updXlat fun x => { x with prHeld := rest, prTail := x.prTail + 1 }) with boot := { (((s.settle (s.resolve ((s.xlat.prBase.extractLsb' 4 48).toNat * 16 + s.xlat.prTail.toNat % prSlots s * 16)) 16).perform (s.resolve ((s.xlat.prBase.extractLsb' 4 48).toNat * 16 + s.xlat.prTail.toNat % prSlots s * 16)) (bytes8 r.lo ++ bytes8 r.hi) false).updXlat fun x => { x with prHeld := rest, prTail := x.prTail + 1 }).boot with msix := (((s.settle (s.resolve ((s.xlat.prBase.extractLsb' 4 48).toNat * 16 + s.xlat.prTail.toNat % prSlots s * 16)) 16).perform (s.resolve ((s.xlat.prBase.extractLsb' 4 48).toNat * 16 + s.xlat.prTail.toNat % prSlots s * 16)) (bytes8 r.lo ++ bytes8 r.hi) false).updXlat fun x => { x with prHeld := rest, prTail := x.prTail + 1 }).boot.msix.modify 1 (· + 1) } }))
    ∧ (∀ (v : W32) (s : State),
      exec (.prDone v) s = .next (s.prAnswer (v.extractLsb' 0 16).toNat (if v.getLsbD 16 then 1 else 0)))
    ∧ (∀ (v : W32) (s : State),
      exec (.prSize v) s = .next (s.setPrSize v))
    ∧ (∀ (addr : Nat) (s : State),
      s.boot.atsWait.contains (atsPage addr) = true →
      exec (.atsTranslationCompletion addr) s = .next (if Config.atsAllows (atsPage addr) then ({ s with boot := { s.boot with ats := (atsPage addr) :: s.boot.ats, atsWait := s.boot.atsWait.filter fun x => x != (atsPage addr) } } : State).attGo else s))
    ∧ (∀ (addr : Nat) (s : State),
      exec (.atsInvalidation addr) s = .next ({ s with boot := { s.boot with ats := s.boot.ats.filter fun x => x != (atsPage addr), atsWait := if s.atsPending (atsPage addr) && !s.boot.atsWait.contains (atsPage addr) then s.boot.atsWait ++ [(atsPage addr)] else s.boot.atsWait } }))

/-- A call that reaches its executor and may stay there is queued while the queue has room; a queued call starts a callee in a free lane with a new deduplication entry, and one with a faulting entry replies at once; a reply completes the call at its caller (registers, p6, the status word) unless the call was lost, and only within its timeout; a call past its timeout completes with LOST and is counted; an entry done 1,300,000 cycles ago expires. Where the rules leave a choice it takes the model's, log entries 61, 80, 81. -/
def Obligations.RemoteCallEventsComplete : Prop :=
    (∀ (call : Nat) (s : State) (k : Call),
      s.call? call = some k →
      k.phase = .sent →
      k.exec ≠ execNone →
      (s.callRoute k).stays = true →
      (k.again && (s.dedupOf k).isSome) = false →
      s.callQueue k.exec < (if k.exec < 32 then 1024 else 512) →
      exec (.rcallArrival call) s = .next (s.updCall call fun k => { k with phase := .queued }))
    ∧ (∀ (call : Nat) (s : State) (k : Call),
      s.call? call = some k →
      k.phase = .queued →
      k.exec ≠ execNone →
      (s.callRoute k).stays = true →
      s.gtsc - k.sentAt ≤ s.rcTimeout →
      (k.again && (s.dedupOf k).isSome) = false →
      (s.remote.callees.countP fun x => x.exec == k.exec) < (if k.exec < 32 then 480 else 24) →
      ((s.dedupOf k).isSome = true ∨ (s.remote.dedup.countP fun d => d.exec == k.exec) < (if k.exec < 32 then 16384 else 8192)) →
      (s.entryStatus k ((((s.op? k.op).bind fun o => s.groupOf o.thr).map (·.fetchStamp)).getD s.stamp)).isSome = true →
      exec (.calleeStart call) s = .next (if ((s.entryStatus k ((((s.op? k.op).bind fun o => s.groupOf o.thr).map (·.fetchStamp)).getD s.stamp)).getD (0, s)).1 = 0 then (({ ((s.entryStatus k ((((s.op? k.op).bind fun o => s.groupOf o.thr).map (·.fetchStamp)).getD s.stamp)).getD (0, s)).2 with nextId := ((s.entryStatus k ((((s.op? k.op).bind fun o => s.groupOf o.thr).map (·.fetchStamp)).getD s.stamp)).getD (0, s)).2.nextId + 2, remote := { ((s.entryStatus k ((((s.op? k.op).bind fun o => s.groupOf o.thr).map (·.fetchStamp)).getD s.stamp)).getD (0, s)).2.remote with callees := ((s.entryStatus k ((((s.op? k.op).bind fun o => s.groupOf o.thr).map (·.fetchStamp)).getD s.stamp)).getD (0, s)).2.remote.callees ++ [⟨((s.entryStatus k ((((s.op? k.op).bind fun o => s.groupOf o.thr).map (·.fetchStamp)).getD s.stamp)).getD (0, s)).2.nextId, call, k.exec, calleeThread k, 0⟩], dedup := ((s.entryStatus k ((((s.op? k.op).bind fun o => s.groupOf o.thr).map (·.fetchStamp)).getD s.stamp)).getD (0, s)).2.remote.dedup.filter (fun x => !(x.exec == k.exec && x.key == k.key)) ++ [⟨((s.entryStatus k ((((s.op? k.op).bind fun o => s.groupOf o.thr).map (·.fetchStamp)).getD s.stamp)).getD (0, s)).2.nextId + 1, k.exec, k.key, call, none, 0, 0, []⟩] } } : State).updCall call fun k => { k with phase := .running }) else (({ ((s.entryStatus k ((((s.op? k.op).bind fun o => s.groupOf o.thr).map (·.fetchStamp)).getD s.stamp)).getD (0, s)).2 with nextId := ((s.entryStatus k ((((s.op? k.op).bind fun o => s.groupOf o.thr).map (·.fetchStamp)).getD s.stamp)).getD (0, s)).2.nextId + 2, remote := { ((s.entryStatus k ((((s.op? k.op).bind fun o => s.groupOf o.thr).map (·.fetchStamp)).getD s.stamp)).getD (0, s)).2.remote with callees := ((s.entryStatus k ((((s.op? k.op).bind fun o => s.groupOf o.thr).map (·.fetchStamp)).getD s.stamp)).getD (0, s)).2.remote.callees ++ [⟨((s.entryStatus k ((((s.op? k.op).bind fun o => s.groupOf o.thr).map (·.fetchStamp)).getD s.stamp)).getD (0, s)).2.nextId, call, k.exec, calleeThread k, 0⟩], dedup := ((s.entryStatus k ((((s.op? k.op).bind fun o => s.groupOf o.thr).map (·.fetchStamp)).getD s.stamp)).getD (0, s)).2.remote.dedup.filter (fun x => !(x.exec == k.exec && x.key == k.key)) ++ [⟨((s.entryStatus k ((((s.op? k.op).bind fun o => s.groupOf o.thr).map (·.fetchStamp)).getD s.stamp)).getD (0, s)).2.nextId + 1, k.exec, k.key, call, none, 0, 0, []⟩] } } : State).updCall call fun k => { k with phase := .running }).endCallee ((s.entryStatus k ((((s.op? k.op).bind fun o => s.groupOf o.thr).map (·.fetchStamp)).getD s.stamp)).getD (0, s)).2.nextId ((s.entryStatus k ((((s.op? k.op).bind fun o => s.groupOf o.thr).map (·.fetchStamp)).getD s.stamp)).getD (0, s)).1 k.entry))
    ∧ (∀ (call : Nat) (s : State) (k : Call),
      s.call? call = some k →
      k.phase = .replied →
      (k.lost || !s.callLate k) = true →
      exec (.rcallReply call) s = .next ((if k.lost then s else s.callDone k k.code).dropCall call))
    ∧ (∀ (call : Nat) (s : State) (k : Call) (o : Op),
      s.call? call = some k →
      s.op? k.op = some o →
      s.deferred o = false →
      k.lost = false →
      s.callLate k = true →
      exec (.rcallTimeout call) s = .next (if k.exec = execNone then ({ (s.callDone { k with cached := false } 6) with remote := { (s.callDone { k with cached := false } 6).remote with lost := satAdd (s.callDone { k with cached := false } 6).remote.lost } } : State).dropCall call else ({ (s.callDone { k with cached := false } 6) with remote := { (s.callDone { k with cached := false } 6).remote with lost := satAdd (s.callDone { k with cached := false } 6).remote.lost } } : State).updCall call fun k => { k with lost := true }))
    ∧ (∀ (entry : Nat) (s : State) (d : Dedup) (n : Nat),
      (s.remote.dedup.find? fun d => d.id == entry) = some d →
      d.done = some n →
      n + 1300000 ≤ s.clk →
      exec (.dedupEntryExpiry entry) s = .next ({ s with remote := { s.remote with dedup := s.remote.dedup.filter fun x => x.id != entry } }))

/-- The rate table of a known rank halves on a congestion notice while the fabric and its notices are enabled, and an entry below 63 that has seen neither for 2 microseconds recovers by 4, to at most 63; a port trains to its lanes and packets that wait are injected where they can be; a frame boundary installs the next slot table; a transfer past FAB_TIMEOUT is counted and ends: its request with LOST (a read leaves its bytes unspecified), its route with LOST, its instance with LOST, which the other members are told, its migration with its status, the multicast of a round's result with nothing more. Where the rules leave a choice it takes the model's, log entries 82, 83, 84, 85, 86, 87, 88, 91, 93. -/
def Obligations.FabricEventsComplete : Prop :=
    (∀ (rank : Nat) (s : State),
      s.rateOf rank < 63 →
      timeOf s.fab.rateSeen rank + 2000 ≤ s.gtsc →
      exec (.rateTableRecovery rank) s = .next (s.updFab fun f => { f with rate := listSet (fun x => x.1 == rank) (rank, Nat.min 63 (s.rateOf rank + 4)) f.rate, rateSeen := listSet (fun x => x.1 == rank) (rank, s.gtsc) f.rateSeen }))
    ∧ (∀ (rank : Nat) (s : State),
      s.fab.ctl.getLsbD 0 = true →
      s.fab.ctl.getLsbD 1 = true →
      rank < s.nranks →
      exec (.congestionNotice rank) s = .next (s.updFab fun f => { f with rate := listSet (fun x => x.1 == rank) (rank, s.rateOf rank / 2) f.rate, rateSeen := listSet (fun x => x.1 == rank) (rank, s.gtsc) f.rateSeen }))
    ∧ (∀ (port lanes : Nat) (s : State),
      s.fab.ctl.getLsbD 0 = true →
      port < 18 →
      lanes ≤ 4 →
      exec (.portTraining port lanes) s = .next ((s.updFab fun f => { f with lanes := f.lanes.set port lanes }).injectAll))
    ∧ (∀ (s : State) (table : Option (List Byte)),
      s.gtsc % 4000 = 0 →
      s.fab.slotNext = some table →
      exec .networkFrameBoundary s = .next ((s.updFab fun f => { f with slotTable := table, slotNext := none }).injectAll))
    ∧ (∀ (xfer : Nat) (s : State) (x : Xfer) (t r : Nat),
      (s.fab.xfers.find? fun x => x.id == xfer) = some x →
      x.sentAt = some t →
      t + s.fabTimeout < s.gtsc →
      x.of = .req r →
      (match x.pkt with | .read _ _ _ => true | _ => false) = false →
      exec (.fabricTransferTimeout xfer) s = .next ((((s.fabCount 2).updFab fun f => { f with xfers := f.xfers.filter fun y => y.id != xfer }).reqFail r 6 0).reqLess r false))
    ∧ (∀ (xfer : Nat) (s : State) (x : Xfer) (t r n : Nat) (va : W64) (len : Nat),
      (s.fab.xfers.find? fun x => x.id == xfer) = some x →
      x.sentAt = some t →
      t + s.fabTimeout < s.gtsc →
      x.of = .req r →
      x.pkt = .read n va len →
      exec (.fabricTransferTimeout xfer) s = .next (((((s.fabCount 2).updFab fun f => { f with xfers := f.xfers.filter fun y => y.id != xfer }).reqFail r 6 0).looseRead r 6).reqLess r false))
    ∧ (∀ (xfer : Nat) (s : State) (x : Xfer) (t i : Nat),
      (s.fab.xfers.find? fun x => x.id == xfer) = some x →
      x.sentAt = some t →
      t + s.fabTimeout < s.gtsc →
      x.of = .coll i →
      exec (.fabricTransferTimeout xfer) s = .next (((s.fabCount 2).updFab fun f => { f with xfers := f.xfers.filter fun y => y.id != xfer }).collFailHere i 6))
    ∧ (∀ (xfer : Nat) (s : State) (x : Xfer) (t : Nat),
      (s.fab.xfers.find? fun x => x.id == xfer) = some x →
      x.sentAt = some t →
      t + s.fabTimeout < s.gtsc →
      x.of = .cast →
      exec (.fabricTransferTimeout xfer) s = .next (((s.fabCount 2).updFab fun f => { f with xfers := f.xfers.filter fun y => y.id != xfer })))
    ∧ (∀ (xfer : Nat) (s : State) (x : Xfer) (t m : Nat),
      (s.fab.xfers.find? fun x => x.id == xfer) = some x →
      x.sentAt = some t →
      t + s.fabTimeout < s.gtsc →
      x.of = .page m →
      exec (.fabricTransferTimeout xfer) s = .next (((s.fabCount 2).updFab fun f => { f with xfers := f.xfers.filter fun y => y.id != xfer }).pageFail m 5))
    ∧ (∀ (xfer : Nat) (s : State) (x : Xfer) (t : Nat),
      (s.fab.xfers.find? fun x => x.id == xfer) = some x →
      x.sentAt = some t →
      t + s.fabTimeout < s.gtsc →
      (match x.of with | .route _ _ _ _ _ | .routeCtr _ _ _ => true | _ => false) = true →
      ((s.fabCount 2).ackRoute x 6).isSome = true →
      exec (.fabricTransferTimeout xfer) s = .next (((s.fabCount 2).ackRoute x 6).getD s))

/-- While the fabric is enabled, a packet of a known peer on a port whose four lanes are up counts the retries of its port and is performed, once no reduction landing of the same peer and plane waits before it: a write, reduce, read, counter increase or page copy that its place lets in, at its address; a reduction landing waits at the interface; a contribution or a failure of a collective joins its instance, or is kept until it starts; a redirect enters the page-owner cache. Where the rules leave a choice it takes the model's, log entry 85. -/
def Obligations.FabricArrivalsComplete : Prop :=
    (∀ (src plane n : Nat) (va : W64) (d : List Byte) (s : State),
      s.fab.ctl.getLsbD 0 = true →
      plane < 18 →
      src < s.nranks →
      src ≠ s.rank →
      s.fab.lanes.getD plane 0 = 4 →
      (s.fab.waiting.any fun x => x.src == src && x.plane == plane) = false →
      ((s.updFab fun f => { f with retries := f.retries.modify plane fun n => Nat.min 0xFFFF (n + Config.choose s.tick [0xC40] % 2 ^ 16) }).peerAccess src (portDie plane) (.write n va d)).isSome = true →
      exec (.fabricPacketArrival src plane (.write n va d)) s = .next (((s.updFab fun f => { f with retries := f.retries.modify plane fun n => Nat.min 0xFFFF (n + Config.choose s.tick [0xC40] % 2 ^ 16) }).peerAccess src (portDie plane) (.write n va d)).getD s))
    ∧ (∀ (src plane n : Nat) (ty : BitVec 2) (va : W64) (d : List Byte) (s : State),
      s.fab.ctl.getLsbD 0 = true →
      plane < 18 →
      src < s.nranks →
      src ≠ s.rank →
      s.fab.lanes.getD plane 0 = 4 →
      (s.fab.waiting.any fun x => x.src == src && x.plane == plane) = false →
      ((s.updFab fun f => { f with retries := f.retries.modify plane fun n => Nat.min 0xFFFF (n + Config.choose s.tick [0xC40] % 2 ^ 16) }).peerAccess src (portDie plane) (.reduce n ty va d)).isSome = true →
      exec (.fabricPacketArrival src plane (.reduce n ty va d)) s = .next (((s.updFab fun f => { f with retries := f.retries.modify plane fun n => Nat.min 0xFFFF (n + Config.choose s.tick [0xC40] % 2 ^ 16) }).peerAccess src (portDie plane) (.reduce n ty va d)).getD s))
    ∧ (∀ (src plane n : Nat) (va : W64) (len : Nat) (s : State),
      s.fab.ctl.getLsbD 0 = true →
      plane < 18 →
      src < s.nranks →
      src ≠ s.rank →
      s.fab.lanes.getD plane 0 = 4 →
      (s.fab.waiting.any fun x => x.src == src && x.plane == plane) = false →
      ((s.updFab fun f => { f with retries := f.retries.modify plane fun n => Nat.min 0xFFFF (n + Config.choose s.tick [0xC40] % 2 ^ 16) }).peerAccess src (portDie plane) (.read n va len)).isSome = true →
      exec (.fabricPacketArrival src plane (.read n va len)) s = .next (((s.updFab fun f => { f with retries := f.retries.modify plane fun n => Nat.min 0xFFFF (n + Config.choose s.tick [0xC40] % 2 ^ 16) }).peerAccess src (portDie plane) (.read n va len)).getD s))
    ∧ (∀ (src plane n : Nat) (va : W64) (s : State),
      s.fab.ctl.getLsbD 0 = true →
      plane < 18 →
      src < s.nranks →
      src ≠ s.rank →
      s.fab.lanes.getD plane 0 = 4 →
      (s.fab.waiting.any fun x => x.src == src && x.plane == plane) = false →
      ((s.updFab fun f => { f with retries := f.retries.modify plane fun n => Nat.min 0xFFFF (n + Config.choose s.tick [0xC40] % 2 ^ 16) }).peerAccess src (portDie plane) (.counter n va)).isSome = true →
      exec (.fabricPacketArrival src plane (.counter n va)) s = .next (((s.updFab fun f => { f with retries := f.retries.modify plane fun n => Nat.min 0xFFFF (n + Config.choose s.tick [0xC40] % 2 ^ 16) }).peerAccess src (portDie plane) (.counter n va)).getD s))
    ∧ (∀ (src plane n : Nat) (va : W64) (frame : Nat) (bs : Bool) (d : List Byte) (last : Bool) (s : State),
      s.fab.ctl.getLsbD 0 = true →
      plane < 18 →
      src < s.nranks →
      src ≠ s.rank →
      s.fab.lanes.getD plane 0 = 4 →
      (s.fab.waiting.any fun x => x.src == src && x.plane == plane) = false →
      ((s.updFab fun f => { f with retries := f.retries.modify plane fun n => Nat.min 0xFFFF (n + Config.choose s.tick [0xC40] % 2 ^ 16) }).peerAccess src (portDie plane) (.pageCopy n va frame bs d last)).isSome = true →
      exec (.fabricPacketArrival src plane (.pageCopy n va frame bs d last)) s = .next (((s.updFab fun f => { f with retries := f.retries.modify plane fun n => Nat.min 0xFFFF (n + Config.choose s.tick [0xC40] % 2 ^ 16) }).peerAccess src (portDie plane) (.pageCopy n va frame bs d last)).getD s))
    ∧ (∀ (src plane n : Nat) (rcb base : W64) (off : Nat) (data : List Byte) (s : State),
      s.fab.ctl.getLsbD 0 = true →
      plane < 18 →
      src < s.nranks →
      src ≠ s.rank →
      s.fab.lanes.getD plane 0 = 4 →
      exec (.fabricPacketArrival src plane (.reduction n rcb base off data)) s = .next (({ (s.updFab fun f => { f with retries := f.retries.modify plane fun n => Nat.min 0xFFFF (n + Config.choose s.tick [0xC40] % 2 ^ 16) }) with nextId := (s.updFab fun f => { f with retries := f.retries.modify plane fun n => Nat.min 0xFFFF (n + Config.choose s.tick [0xC40] % 2 ^ 16) }).nextId + 1 } : State).updFab fun f => { f with waiting := f.waiting ++ [⟨(s.updFab fun f => { f with retries := f.retries.modify plane fun n => Nat.min 0xFFFF (n + Config.choose s.tick [0xC40] % 2 ^ 16) }).nextId, src, rcb, base, off, data, plane⟩] }))
    ∧ (∀ (src plane tag n digest : Nat) (data : List Byte) (s : State),
      s.fab.ctl.getLsbD 0 = true →
      plane < 18 →
      src < s.nranks →
      src ≠ s.rank →
      s.fab.lanes.getD plane 0 = 4 →
      exec (.fabricPacketArrival src plane (.collective tag n digest data)) s = .next ((s.updFab fun f => { f with retries := f.retries.modify plane fun n => Nat.min 0xFFFF (n + Config.choose s.tick [0xC40] % 2 ^ 16) }).collPacket src tag n digest data 0 collDigest))
    ∧ (∀ (src plane tag n status : Nat) (s : State),
      s.fab.ctl.getLsbD 0 = true →
      plane < 18 →
      src < s.nranks →
      src ≠ s.rank →
      s.fab.lanes.getD plane 0 = 4 →
      exec (.fabricPacketArrival src plane (.collectiveFail tag n status)) s = .next ((s.updFab fun f => { f with retries := f.retries.modify plane fun n => Nat.min 0xFFFF (n + Config.choose s.tick [0xC40] % 2 ^ 16) }).collPacket src tag n 0 [] (if status = 0 then 7 else status) collDigest))
    ∧ (∀ (src plane dev : Nat) (va : W64) (own : Nat) (s : State),
      s.fab.ctl.getLsbD 0 = true →
      plane < 18 →
      src < s.nranks →
      src ≠ s.rank →
      s.fab.lanes.getD plane 0 = 4 →
      exec (.fabricPacketArrival src plane (.redirect dev va own)) s = .next ((s.updFab fun f => { f with retries := f.retries.modify plane fun n => Nat.min 0xFFFF (n + Config.choose s.tick [0xC40] % 2 ^ 16) }).setOwner (portDie plane) dev va.toNat own))

/-- A reduction landing behind no earlier one of its peer and plane, whose control block is not aligned, is dropped and counted; one whose block is readable and valid and whose buffer and output can be written lands in its member's slot of its round, which it opens where the die has fewer than 256 open, and the round closes when every slot is full. The oldest instance of a plan that is not over begins, or lands one chunk and raises its counter; one whose chunks have all landed and whose packets are answered is over, its buffer left unspecified. Where the rules leave a choice it takes the model's, log entry 90. -/
def Obligations.RoundsAndCollectivesComplete : Prop :=
    (∀ (id : Nat) (s : State) (L : RedLand),
      (s.fab.waiting.find? fun x => x.id == id) = some L →
      s.landingAfter L = false →
      L.rcb.toNat % 64 ≠ 0 →
      exec (.reductionLanding id) s = .next (s.dropLanding L 0))
    ∧ (∀ (id : Nat) (s : State) (L : RedLand) (rcb : Range) (buf out : List (Nat × Range)),
      (s.fab.waiting.find? fun x => x.id == id) = some L →
      s.landingAfter L = false →
      L.rcb.toNat % 64 = 0 →
      (s.fabAt 0 L.rcb.toNat 64 true false [0xC23, L.rcb.toNat]).isOk = true →
      (s.fabAt 0 L.rcb.toNat 64 true false [0xC23, L.rcb.toNat]).rs.headD ⟨0, 0, false⟩ = rcb →
      paDevice rcb.pa = true →
      (s.fabAt 0 L.rcb.toNat 64 true false [0xC23, L.rcb.toNat]).st.memReady rcb.pa 64 rcb.bypass = true →
      (s.fabAt 0 L.rcb.toNat 64 true false [0xC23, L.rcb.toNat]).st.sliceReady rcb.pa 8 rcb.bypass = true →
      (rcbOf ((s.fabAt 0 L.rcb.toNat 64 true false [0xC23, L.rcb.toNat]).st.mem.visBytes rcb.pa 64)).ok = true →
      (rcbOf ((s.fabAt 0 L.rcb.toNat 64 true false [0xC23, L.rcb.toNat]).st.mem.visBytes rcb.pa 64)).first ≤ L.src →
      L.src < (rcbOf ((s.fabAt 0 L.rcb.toNat 64 true false [0xC23, L.rcb.toNat]).st.mem.visBytes rcb.pa 64)).first + (rcbOf ((s.fabAt 0 L.rcb.toNat 64 true false [0xC23, L.rcb.toNat]).st.mem.visBytes rcb.pa 64)).count →
      L.off + L.data.length ≤ (rcbOf ((s.fabAt 0 L.rcb.toNat 64 true false [0xC23, L.rcb.toNat]).st.mem.visBytes rcb.pa 64)).len →
      L.base.toNat = (rcbOf ((s.fabAt 0 L.rcb.toNat 64 true false [0xC23, L.rcb.toNat]).st.mem.visBytes rcb.pa 64)).out →
      (State.fabSpans 0 true true 0xC21 (pageParts 0 (rcbOf ((s.fabAt 0 L.rcb.toNat 64 true false [0xC23, L.rcb.toNat]).st.mem.visBytes rcb.pa 64)).buf ((rcbOf ((s.fabAt 0 L.rcb.toNat 64 true false [0xC23, L.rcb.toNat]).st.mem.visBytes rcb.pa 64)).count * (rcbOf ((s.fabAt 0 L.rcb.toNat 64 true false [0xC23, L.rcb.toNat]).st.mem.visBytes rcb.pa 64)).len)) (s.fabAt 0 L.rcb.toNat 64 true false [0xC23, L.rcb.toNat]).st []).got = some buf →
      (State.fabSpans 0 true true 0xC22 (pageParts 0 (rcbOf ((s.fabAt 0 L.rcb.toNat 64 true false [0xC23, L.rcb.toNat]).st.mem.visBytes rcb.pa 64)).out ((rcbOf ((s.fabAt 0 L.rcb.toNat 64 true false [0xC23, L.rcb.toNat]).st.mem.visBytes rcb.pa 64)).len / 4 * (rcbOf ((s.fabAt 0 L.rcb.toNat 64 true false [0xC23, L.rcb.toNat]).st.mem.visBytes rcb.pa 64)).size)) (State.fabSpans 0 true true 0xC21 (pageParts 0 (rcbOf ((s.fabAt 0 L.rcb.toNat 64 true false [0xC23, L.rcb.toNat]).st.mem.visBytes rcb.pa 64)).buf ((rcbOf ((s.fabAt 0 L.rcb.toNat 64 true false [0xC23, L.rcb.toNat]).st.mem.visBytes rcb.pa 64)).count * (rcbOf ((s.fabAt 0 L.rcb.toNat 64 true false [0xC23, L.rcb.toNat]).st.mem.visBytes rcb.pa 64)).len)) (s.fabAt 0 L.rcb.toNat 64 true false [0xC23, L.rcb.toNat]).st []).st []).got = some out →
      (((State.fabSpans 0 true true 0xC22 (pageParts 0 (rcbOf ((s.fabAt 0 L.rcb.toNat 64 true false [0xC23, L.rcb.toNat]).st.mem.visBytes rcb.pa 64)).out ((rcbOf ((s.fabAt 0 L.rcb.toNat 64 true false [0xC23, L.rcb.toNat]).st.mem.visBytes rcb.pa 64)).len / 4 * (rcbOf ((s.fabAt 0 L.rcb.toNat 64 true false [0xC23, L.rcb.toNat]).st.mem.visBytes rcb.pa 64)).size)) (State.fabSpans 0 true true 0xC21 (pageParts 0 (rcbOf ((s.fabAt 0 L.rcb.toNat 64 true false [0xC23, L.rcb.toNat]).st.mem.visBytes rcb.pa 64)).buf ((rcbOf ((s.fabAt 0 L.rcb.toNat 64 true false [0xC23, L.rcb.toNat]).st.mem.visBytes rcb.pa 64)).count * (rcbOf ((s.fabAt 0 L.rcb.toNat 64 true false [0xC23, L.rcb.toNat]).st.mem.visBytes rcb.pa 64)).len)) (s.fabAt 0 L.rcb.toNat 64 true false [0xC23, L.rcb.toNat]).st []).st []).st.fab.rounds.any fun x => x.rcb == L.rcb) = true ∨ ((State.fabSpans 0 true true 0xC22 (pageParts 0 (rcbOf ((s.fabAt 0 L.rcb.toNat 64 true false [0xC23, L.rcb.toNat]).st.mem.visBytes rcb.pa 64)).out ((rcbOf ((s.fabAt 0 L.rcb.toNat 64 true false [0xC23, L.rcb.toNat]).st.mem.visBytes rcb.pa 64)).len / 4 * (rcbOf ((s.fabAt 0 L.rcb.toNat 64 true false [0xC23, L.rcb.toNat]).st.mem.visBytes rcb.pa 64)).size)) (State.fabSpans 0 true true 0xC21 (pageParts 0 (rcbOf ((s.fabAt 0 L.rcb.toNat 64 true false [0xC23, L.rcb.toNat]).st.mem.visBytes rcb.pa 64)).buf ((rcbOf ((s.fabAt 0 L.rcb.toNat 64 true false [0xC23, L.rcb.toNat]).st.mem.visBytes rcb.pa 64)).count * (rcbOf ((s.fabAt 0 L.rcb.toNat 64 true false [0xC23, L.rcb.toNat]).st.mem.visBytes rcb.pa 64)).len)) (s.fabAt 0 L.rcb.toNat 64 true false [0xC23, L.rcb.toNat]).st []).st []).st.fab.rounds.countP fun x => x.die == paDie rcb.pa) < 256) →
      ((((((State.fabSpans 0 true true 0xC22 (pageParts 0 (rcbOf ((s.fabAt 0 L.rcb.toNat 64 true false [0xC23, L.rcb.toNat]).st.mem.visBytes rcb.pa 64)).out ((rcbOf ((s.fabAt 0 L.rcb.toNat 64 true false [0xC23, L.rcb.toNat]).st.mem.visBytes rcb.pa 64)).len / 4 * (rcbOf ((s.fabAt 0 L.rcb.toNat 64 true false [0xC23, L.rcb.toNat]).st.mem.visBytes rcb.pa 64)).size)) (State.fabSpans 0 true true 0xC21 (pageParts 0 (rcbOf ((s.fabAt 0 L.rcb.toNat 64 true false [0xC23, L.rcb.toNat]).st.mem.visBytes rcb.pa 64)).buf ((rcbOf ((s.fabAt 0 L.rcb.toNat 64 true false [0xC23, L.rcb.toNat]).st.mem.visBytes rcb.pa 64)).count * (rcbOf ((s.fabAt 0 L.rcb.toNat 64 true false [0xC23, L.rcb.toNat]).st.mem.visBytes rcb.pa 64)).len)) (s.fabAt 0 L.rcb.toNat 64 true false [0xC23, L.rcb.toNat]).st []).st []).st.fab.rounds.find? fun x => x.rcb == L.rcb).getD ⟨L.rcb, paDie rcb.pa, [], [], false⟩).landed.find? fun x => x.1 == (L.src - (rcbOf ((s.fabAt 0 L.rcb.toNat 64 true false [0xC23, L.rcb.toNat]).st.mem.visBytes rcb.pa 64)).first)).map (·.2)).getD 0) < (rcbOf ((s.fabAt 0 L.rcb.toNat 64 true false [0xC23, L.rcb.toNat]).st.mem.visBytes rcb.pa 64)).len →
      (State.fabSpans 0 true true 0xC22 (pageParts 0 (rcbOf ((s.fabAt 0 L.rcb.toNat 64 true false [0xC23, L.rcb.toNat]).st.mem.visBytes rcb.pa 64)).out ((rcbOf ((s.fabAt 0 L.rcb.toNat 64 true false [0xC23, L.rcb.toNat]).st.mem.visBytes rcb.pa 64)).len / 4 * (rcbOf ((s.fabAt 0 L.rcb.toNat 64 true false [0xC23, L.rcb.toNat]).st.mem.visBytes rcb.pa 64)).size)) (State.fabSpans 0 true true 0xC21 (pageParts 0 (rcbOf ((s.fabAt 0 L.rcb.toNat 64 true false [0xC23, L.rcb.toNat]).st.mem.visBytes rcb.pa 64)).buf ((rcbOf ((s.fabAt 0 L.rcb.toNat 64 true false [0xC23, L.rcb.toNat]).st.mem.visBytes rcb.pa 64)).count * (rcbOf ((s.fabAt 0 L.rcb.toNat 64 true false [0xC23, L.rcb.toNat]).st.mem.visBytes rcb.pa 64)).len)) (s.fabAt 0 L.rcb.toNat 64 true false [0xC23, L.rcb.toNat]).st []).st []).st.landReady buf = true →
      (State.fabSpans 0 true true 0xC22 (pageParts 0 (rcbOf ((s.fabAt 0 L.rcb.toNat 64 true false [0xC23, L.rcb.toNat]).st.mem.visBytes rcb.pa 64)).out ((rcbOf ((s.fabAt 0 L.rcb.toNat 64 true false [0xC23, L.rcb.toNat]).st.mem.visBytes rcb.pa 64)).len / 4 * (rcbOf ((s.fabAt 0 L.rcb.toNat 64 true false [0xC23, L.rcb.toNat]).st.mem.visBytes rcb.pa 64)).size)) (State.fabSpans 0 true true 0xC21 (pageParts 0 (rcbOf ((s.fabAt 0 L.rcb.toNat 64 true false [0xC23, L.rcb.toNat]).st.mem.visBytes rcb.pa 64)).buf ((rcbOf ((s.fabAt 0 L.rcb.toNat 64 true false [0xC23, L.rcb.toNat]).st.mem.visBytes rcb.pa 64)).count * (rcbOf ((s.fabAt 0 L.rcb.toNat 64 true false [0xC23, L.rcb.toNat]).st.mem.visBytes rcb.pa 64)).len)) (s.fabAt 0 L.rcb.toNat 64 true false [0xC23, L.rcb.toNat]).st []).st []).st.landReady out = true →
      exec (.reductionLanding id) s = .next (let r := (rcbOf ((s.fabAt 0 L.rcb.toNat 64 true false [0xC23, L.rcb.toNat]).st.mem.visBytes rcb.pa 64))
      let R := (((State.fabSpans 0 true true 0xC22 (pageParts 0 (rcbOf ((s.fabAt 0 L.rcb.toNat 64 true false [0xC23, L.rcb.toNat]).st.mem.visBytes rcb.pa 64)).out ((rcbOf ((s.fabAt 0 L.rcb.toNat 64 true false [0xC23, L.rcb.toNat]).st.mem.visBytes rcb.pa 64)).len / 4 * (rcbOf ((s.fabAt 0 L.rcb.toNat 64 true false [0xC23, L.rcb.toNat]).st.mem.visBytes rcb.pa 64)).size)) (State.fabSpans 0 true true 0xC21 (pageParts 0 (rcbOf ((s.fabAt 0 L.rcb.toNat 64 true false [0xC23, L.rcb.toNat]).st.mem.visBytes rcb.pa 64)).buf ((rcbOf ((s.fabAt 0 L.rcb.toNat 64 true false [0xC23, L.rcb.toNat]).st.mem.visBytes rcb.pa 64)).count * (rcbOf ((s.fabAt 0 L.rcb.toNat 64 true false [0xC23, L.rcb.toNat]).st.mem.visBytes rcb.pa 64)).len)) (s.fabAt 0 L.rcb.toNat 64 true false [0xC23, L.rcb.toNat]).st []).st []).st.fab.rounds.find? fun x => x.rcb == L.rcb).getD ⟨L.rcb, paDie rcb.pa, [], [], false⟩)
      let R1 : Round := { R with landed := listSet (fun x => x.1 == (L.src - (rcbOf ((s.fabAt 0 L.rcb.toNat 64 true false [0xC23, L.rcb.toNat]).st.mem.visBytes rcb.pa 64)).first)) ((L.src - (rcbOf ((s.fabAt 0 L.rcb.toNat 64 true false [0xC23, L.rcb.toNat]).st.mem.visBytes rcb.pa 64)).first), ((((((State.fabSpans 0 true true 0xC22 (pageParts 0 (rcbOf ((s.fabAt 0 L.rcb.toNat 64 true false [0xC23, L.rcb.toNat]).st.mem.visBytes rcb.pa 64)).out ((rcbOf ((s.fabAt 0 L.rcb.toNat 64 true false [0xC23, L.rcb.toNat]).st.mem.visBytes rcb.pa 64)).len / 4 * (rcbOf ((s.fabAt 0 L.rcb.toNat 64 true false [0xC23, L.rcb.toNat]).st.mem.visBytes rcb.pa 64)).size)) (State.fabSpans 0 true true 0xC21 (pageParts 0 (rcbOf ((s.fabAt 0 L.rcb.toNat 64 true false [0xC23, L.rcb.toNat]).st.mem.visBytes rcb.pa 64)).buf ((rcbOf ((s.fabAt 0 L.rcb.toNat 64 true false [0xC23, L.rcb.toNat]).st.mem.visBytes rcb.pa 64)).count * (rcbOf ((s.fabAt 0 L.rcb.toNat 64 true false [0xC23, L.rcb.toNat]).st.mem.visBytes rcb.pa 64)).len)) (s.fabAt 0 L.rcb.toNat 64 true false [0xC23, L.rcb.toNat]).st []).st []).st.fab.rounds.find? fun x => x.rcb == L.rcb).getD ⟨L.rcb, paDie rcb.pa, [], [], false⟩).landed.find? fun x => x.1 == (L.src - (rcbOf ((s.fabAt 0 L.rcb.toNat 64 true false [0xC23, L.rcb.toNat]).st.mem.visBytes rcb.pa 64)).first)).map (·.2)).getD 0) + L.data.length) R.landed, slots := listSet (fun x => x.1 == (L.src - (rcbOf ((s.fabAt 0 L.rcb.toNat 64 true false [0xC23, L.rcb.toNat]).st.mem.visBytes rcb.pa 64)).first)) ((L.src - (rcbOf ((s.fabAt 0 L.rcb.toNat 64 true false [0xC23, L.rcb.toNat]).st.mem.visBytes rcb.pa 64)).first), ((((((State.fabSpans 0 true true 0xC22 (pageParts 0 (rcbOf ((s.fabAt 0 L.rcb.toNat 64 true false [0xC23, L.rcb.toNat]).st.mem.visBytes rcb.pa 64)).out ((rcbOf ((s.fabAt 0 L.rcb.toNat 64 true false [0xC23, L.rcb.toNat]).st.mem.visBytes rcb.pa 64)).len / 4 * (rcbOf ((s.fabAt 0 L.rcb.toNat 64 true false [0xC23, L.rcb.toNat]).st.mem.visBytes rcb.pa 64)).size)) (State.fabSpans 0 true true 0xC21 (pageParts 0 (rcbOf ((s.fabAt 0 L.rcb.toNat 64 true false [0xC23, L.rcb.toNat]).st.mem.visBytes rcb.pa 64)).buf ((rcbOf ((s.fabAt 0 L.rcb.toNat 64 true false [0xC23, L.rcb.toNat]).st.mem.visBytes rcb.pa 64)).count * (rcbOf ((s.fabAt 0 L.rcb.toNat 64 true false [0xC23, L.rcb.toNat]).st.mem.visBytes rcb.pa 64)).len)) (s.fabAt 0 L.rcb.toNat 64 true false [0xC23, L.rcb.toNat]).st []).st []).st.fab.rounds.find? fun x => x.rcb == L.rcb).getD ⟨L.rcb, paDie rcb.pa, [], [], false⟩).slots.find? fun x => x.1 == (L.src - (rcbOf ((s.fabAt 0 L.rcb.toNat 64 true false [0xC23, L.rcb.toNat]).st.mem.visBytes rcb.pa 64)).first)).map (·.2)).getD []) ++ [(L.off, L.data)]) R.slots, doubled := R.doubled || ((((((State.fabSpans 0 true true 0xC22 (pageParts 0 (rcbOf ((s.fabAt 0 L.rcb.toNat 64 true false [0xC23, L.rcb.toNat]).st.mem.visBytes rcb.pa 64)).out ((rcbOf ((s.fabAt 0 L.rcb.toNat 64 true false [0xC23, L.rcb.toNat]).st.mem.visBytes rcb.pa 64)).len / 4 * (rcbOf ((s.fabAt 0 L.rcb.toNat 64 true false [0xC23, L.rcb.toNat]).st.mem.visBytes rcb.pa 64)).size)) (State.fabSpans 0 true true 0xC21 (pageParts 0 (rcbOf ((s.fabAt 0 L.rcb.toNat 64 true false [0xC23, L.rcb.toNat]).st.mem.visBytes rcb.pa 64)).buf ((rcbOf ((s.fabAt 0 L.rcb.toNat 64 true false [0xC23, L.rcb.toNat]).st.mem.visBytes rcb.pa 64)).count * (rcbOf ((s.fabAt 0 L.rcb.toNat 64 true false [0xC23, L.rcb.toNat]).st.mem.visBytes rcb.pa 64)).len)) (s.fabAt 0 L.rcb.toNat 64 true false [0xC23, L.rcb.toNat]).st []).st []).st.fab.rounds.find? fun x => x.rcb == L.rcb).getD ⟨L.rcb, paDie rcb.pa, [], [], false⟩).slots.find? fun x => x.1 == (L.src - (rcbOf ((s.fabAt 0 L.rcb.toNat 64 true false [0xC23, L.rcb.toNat]).st.mem.visBytes rcb.pa 64)).first)).map (·.2)).getD []).any fun w => overlapsAt w.1 w.2.length L.off L.data.length }
      let s3 := ((State.fabSpans 0 true true 0xC22 (pageParts 0 (rcbOf ((s.fabAt 0 L.rcb.toNat 64 true false [0xC23, L.rcb.toNat]).st.mem.visBytes rcb.pa 64)).out ((rcbOf ((s.fabAt 0 L.rcb.toNat 64 true false [0xC23, L.rcb.toNat]).st.mem.visBytes rcb.pa 64)).len / 4 * (rcbOf ((s.fabAt 0 L.rcb.toNat 64 true false [0xC23, L.rcb.toNat]).st.mem.visBytes rcb.pa 64)).size)) (State.fabSpans 0 true true 0xC21 (pageParts 0 (rcbOf ((s.fabAt 0 L.rcb.toNat 64 true false [0xC23, L.rcb.toNat]).st.mem.visBytes rcb.pa 64)).buf ((rcbOf ((s.fabAt 0 L.rcb.toNat 64 true false [0xC23, L.rcb.toNat]).st.mem.visBytes rcb.pa 64)).count * (rcbOf ((s.fabAt 0 L.rcb.toNat 64 true false [0xC23, L.rcb.toNat]).st.mem.visBytes rcb.pa 64)).len)) (s.fabAt 0 L.rcb.toNat 64 true false [0xC23, L.rcb.toNat]).st []).st []).st.freeSpans (paDie rcb.pa) (r.buf + (L.src - (rcbOf ((s.fabAt 0 L.rcb.toNat 64 true false [0xC23, L.rcb.toNat]).st.mem.visBytes rcb.pa 64)).first)) (cutSpans buf ((L.src - (rcbOf ((s.fabAt 0 L.rcb.toNat 64 true false [0xC23, L.rcb.toNat]).st.mem.visBytes rcb.pa 64)).first) * r.len + L.off) L.data.length)).updFab fun f => { f with waiting := f.waiting.filter (fun x => x.id != id), rounds := listSet (fun x => x.rcb == L.rcb) R1 f.rounds }
      if (List.range r.count).all fun k => r.len ≤ ((R1.landed.find? fun x => x.1 == k).map (·.2)).getD 0 then s3.closeRound (paDie rcb.pa) r rcb buf out R1 else s3))
    ∧ (∀ (inst : Nat) (s : State) (i : CollInst),
      (s.fab.insts.find? fun i => i.id == inst) = some i →
      i.done = false →
      i.begun = false →
      (s.fab.insts.any fun x => x.launch == i.launch && x.plan == i.plan && x.n < i.n && !x.done) = false →
      (s.collBegin i).isSome = true →
      exec (.collectiveStep inst) s = .next ((s.collBegin i).getD s))
    ∧ (∀ (inst : Nat) (s : State) (i : CollInst),
      (s.fab.insts.find? fun i => i.id == inst) = some i →
      i.done = false →
      i.begun = true →
      i.bad = false →
      (s.fab.insts.any fun x => x.launch == i.launch && x.plan == i.plan && x.n < i.n && !x.done) = false →
      (s.collChunk i).isSome = true →
      exec (.collectiveStep inst) s = .next ((s.collChunk i).getD s))
    ∧ (∀ (inst : Nat) (s : State) (i : CollInst),
      (s.fab.insts.find? fun i => i.id == inst) = some i →
      i.done = false →
      i.begun = true →
      (s.fab.xfers.any fun x => x.of == .coll inst) = false →
      i.bad = false →
      ((List.range (collOf i.desc).chunks).all fun j => i.chunks.contains j) = true →
      (s.collLoose i (collOf i.desc).buf (collOf i.desc).need).isSome = true →
      exec (.collectiveInstanceComplete inst) s = .next (let s2 := (s.collLoose i (collOf i.desc).buf (collOf i.desc).need).getD s
      s2.updFab fun f => { f with insts := if (s2.planOf i.launch i.plan).isSome then listUpd (fun x => x.id == inst) (fun x => { x with done := true }) s2.fab.insts else s2.fab.insts.filter fun x => x.id != inst }))

/-- A kind-0 record that passes its check becomes a launch of its groups, at the head of its queue, and is remembered as accepted; one that fails writes its completion word; a reserved kind leaves an error record. A kind-1 record makes a launch of its range, and a head whose range is placed takes the next range. A kind-2 record that no launch pushed becomes its queue's head, and one that a launch pushed leaves an error record. A copy-queue entry becomes a request of a copy engine. A partition places a cell of the head it serves, the first of its queues in priority whose head names it. A group whose waves are free and whose work is done ends; a launch whose groups have ended writes its completion word and leaves; one past its deadline halts the groups of its partitions. Where the rules leave a choice it takes the model's, log entries 94, 95, 96, 97, 98. -/
def Obligations.LaunchEventsComplete : Prop :=
    (∀ (q : Nat) (s : State) (b : List Byte) (push : Option Push) (rc : LaunchRec),
      q < 4 →
      (s.headAt q).isNone = true →
      (s.ringTake q).map (fun x => (x.1, x.2.1)) = some (b, push) →
      natAt b 0 4 % 16 = 0 →
      ((((s.ringTake q).map fun x => x.2.2).getD s).checkRecord ((((s.ringTake q).map fun x => x.2.2).getD s).entryRoot q push) (bitsOf (natAt b 0 8) 56 4 * 16) (fun rc => (0, rc.ngrp + 1)) false).okRc = some rc →
      exec (.launchRecordCheck q) s = .next (({ ((((s.ringTake q).map fun x => x.2.2).getD s).checkRecord ((((s.ringTake q).map fun x => x.2.2).getD s).entryRoot q push) (bitsOf (natAt b 0 8) 56 4 * 16) (fun rc => (0, rc.ngrp + 1)) false).st with cp := { ((((s.ringTake q).map fun x => x.2.2).getD s).checkRecord ((((s.ringTake q).map fun x => x.2.2).getD s).entryRoot q push) (bitsOf (natAt b 0 8) 56 4 * 16) (fun rc => (0, rc.ngrp + 1)) false).st.cp with accepted := ((bitsOf (natAt b 0 8) 56 4 * 16), ((((s.ringTake q).map fun x => x.2.2).getD s).entryRoot q push).getD 0) :: ((((s.ringTake q).map fun x => x.2.2).getD s).checkRecord ((((s.ringTake q).map fun x => x.2.2).getD s).entryRoot q push) (bitsOf (natAt b 0 8) 56 4 * 16) (fun rc => (0, rc.ngrp + 1)) false).st.cp.accepted } } : State).newLaunch q rc (((((s.ringTake q).map fun x => x.2.2).getD s).entryRoot q push).getD 0) (s.headStamp q) 0 (Nat.min (2 ^ 24) (rc.ngrp + 1)) rc.args rc.join))
    ∧ (∀ (q : Nat) (s : State) (b : List Byte) (push : Option Push) (rc : LaunchRec) (code : Nat),
      q < 4 →
      (s.headAt q).isNone = true →
      (s.ringTake q).map (fun x => (x.1, x.2.1)) = some (b, push) →
      natAt b 0 4 % 16 = 0 →
      ((((s.ringTake q).map fun x => x.2.2).getD s).checkRecord ((((s.ringTake q).map fun x => x.2.2).getD s).entryRoot q push) (bitsOf (natAt b 0 8) 56 4 * 16) (fun rc => (0, rc.ngrp + 1)) false).badRc = some (rc, code) →
      (((((s.ringTake q).map fun x => x.2.2).getD s).checkRecord ((((s.ringTake q).map fun x => x.2.2).getD s).entryRoot q push) (bitsOf (natAt b 0 8) 56 4 * 16) (fun rc => (0, rc.ngrp + 1)) false).st.writeComp ((((s.ringTake q).map fun x => x.2.2).getD s).entryRoot q push) rc (pushPart push) code 0).isSome = true →
      exec (.launchRecordCheck q) s = .next ((((((s.ringTake q).map fun x => x.2.2).getD s).checkRecord ((((s.ringTake q).map fun x => x.2.2).getD s).entryRoot q push) (bitsOf (natAt b 0 8) 56 4 * 16) (fun rc => (0, rc.ngrp + 1)) false).st.writeComp ((((s.ringTake q).map fun x => x.2.2).getD s).entryRoot q push) rc (pushPart push) code 0).getD s))
    ∧ (∀ (q : Nat) (s : State) (b : List Byte) (push : Option Push),
      q < 4 →
      (s.headAt q).isNone = true →
      (s.ringTake q).map (fun x => (x.1, x.2.1)) = some (b, push) →
      3 ≤ natAt b 0 4 % 16 →
      exec (.launchRecordCheck q) s = .next ((((s.ringTake q).map fun x => x.2.2).getD s).pushErr 5 (pushPart push) srcCp (BitVec.ofNat 64 (bitsOf (natAt b 0 8) 56 4 * 16)) 0))
    ∧ (∀ (q : Nat) (s : State) (l : Nat) (L : Launch),
      q < 4 →
      s.headAt q = some (.range l) →
      s.launch? l = some L →
      L.count = 0 →
      L.upto < L.total →
      exec (.groupRange q) s = .next (s.updLaunch l fun x => { x with count := Nat.min (2 ^ 24) (L.total - L.upto), upto := x.upto + Nat.min (2 ^ 24) (L.total - L.upto) }))
    ∧ (∀ (q : Nat) (s : State) (b : List Byte) (push : Option Push) (rc : LaunchRec),
      q < 4 →
      (s.headAt q).isNone = true →
      (s.ringTake q).map (fun x => (x.1, x.2.1)) = some (b, push) →
      natAt b 0 4 % 16 = 1 →
      ((((s.ringTake q).map fun x => x.2.2).getD s).checkRecord ((((s.ringTake q).map fun x => x.2.2).getD s).entryRoot q push) (bitsOf (natAt b 0 8) 56 4 * 16) (fun _ => (natAt b 24 8 / 2 ^ 24, (natAt b 24 8 % 2 ^ 24 + 1))) (match ((((s.ringTake q).map fun x => x.2.2).getD s).entryRoot q push) with | some f => (((s.ringTake q).map fun x => x.2.2).getD s).cp.accepted.contains ((bitsOf (natAt b 0 8) 56 4 * 16), f) | none => false)).okRc = some rc →
      exec (.groupRange q) s = .next (((((s.ringTake q).map fun x => x.2.2).getD s).checkRecord ((((s.ringTake q).map fun x => x.2.2).getD s).entryRoot q push) (bitsOf (natAt b 0 8) 56 4 * 16) (fun _ => (natAt b 24 8 / 2 ^ 24, (natAt b 24 8 % 2 ^ 24 + 1))) (match ((((s.ringTake q).map fun x => x.2.2).getD s).entryRoot q push) with | some f => (((s.ringTake q).map fun x => x.2.2).getD s).cp.accepted.contains ((bitsOf (natAt b 0 8) 56 4 * 16), f) | none => false)).st.newLaunch q { rc with ngrp := (natAt b 24 8 % 2 ^ 24 + 1) - 1 } (((((s.ringTake q).map fun x => x.2.2).getD s).entryRoot q push).getD 0) (s.headStamp q) (natAt b 24 8 / 2 ^ 24) (natAt b 24 8 % 2 ^ 24 + 1) (BitVec.ofNat 64 (natAt b 8 8)) (BitVec.ofNat 64 (natAt b 16 8))))
    ∧ (∀ (q : Nat) (s : State) (b : List Byte) (push : Option Push),
      q < 4 →
      (s.headAt q).isNone = true →
      (s.ringTake q).map (fun x => (x.1, x.2.1)) = some (b, push) →
      natAt b 0 4 % 16 = 2 →
      (push.any fun p => p.launch.isSome) = true →
      exec (.resumptionRecord q) s = .next ((((s.ringTake q).map fun x => x.2.2).getD s).pushErr 5 (pushPart push) srcCp (BitVec.ofNat 64 (bitsOf (natAt b 0 8) 56 4 * 16)) 0))
    ∧ (∀ (q : Nat) (s : State) (b : List Byte) (push : Option Push),
      q < 4 →
      (s.headAt q).isNone = true →
      (s.ringTake q).map (fun x => (x.1, x.2.1)) = some (b, push) →
      natAt b 0 4 % 16 = 2 →
      (push.any fun p => p.launch.isSome) = false →
      exec (.resumptionRecord q) s = .next ((((s.ringTake q).map fun x => x.2.2).getD s).setHead q (.resume (bitsOf (natAt b 0 8) 56 4 * 16) (BitVec.ofNat 64 (natAt b 8 8)))))
    ∧ (∀ (q : Nat) (s : State) (b : List Byte) (push : Option Push) (die : Nat),
      (q = 4 ∨ q = 5) →
      s.sliceReady ((s.queueAt q).entryPa q (s.queueAt q).head.toNat) 64 false = true →
      (s.ringTake q).map (fun x => (x.1, x.2.1)) = some (b, push) →
      (((((s.ringTake q).map fun x => x.2.2).getD s).pruneReqs).dstDie ((rootOf (((((s.ringTake q).map fun x => x.2.2).getD s).pruneReqs).queueAt q).root).getD 0) b) = some die →
      ((((s.ringTake q).map fun x => x.2.2).getD s).pruneReqs).copyLoad (die * 64 + (Config.choose ((((s.ringTake q).map fun x => x.2.2).getD s).pruneReqs).tick [0xE22] % 40)) < 64 →
      exec (.copyQueueRequest q) s = .next ({ ((((((s.ringTake q).map fun x => x.2.2).getD s).pruneReqs).settle (((s.queueAt q).entryPa q (s.queueAt q).head.toNat) + 8) 8).perform (((s.queueAt q).entryPa q (s.queueAt q).head.toNat) + 8) (natToBytes 8 1) false) with nextId := ((((((s.ringTake q).map fun x => x.2.2).getD s).pruneReqs).settle (((s.queueAt q).entryPa q (s.queueAt q).head.toNat) + 8) 8).perform (((s.queueAt q).entryPa q (s.queueAt q).head.toNat) + 8) (natToBytes 8 1) false).nextId + 1, reqs := ((((((s.ringTake q).map fun x => x.2.2).getD s).pruneReqs).settle (((s.queueAt q).entryPa q (s.queueAt q).head.toNat) + 8) 8).perform (((s.queueAt q).entryPa q (s.queueAt q).head.toNat) + 8) (natToBytes 8 1) false).reqs ++ [({ id := ((((s.ringTake q).map fun x => x.2.2).getD s).pruneReqs).nextId, chain := ((((s.ringTake q).map fun x => x.2.2).getD s).pruneReqs).nextId, pos := 0, core := die * 256 + (Config.choose ((((s.ringTake q).map fun x => x.2.2).getD s).pruneReqs).tick [0xE22] % 40) * 4, cluster := die * 64 + (Config.choose ((((s.ringTake q).map fun x => x.2.2).getD s).pruneReqs).tick [0xE22] % 40), group := noGroup, root := (rootOf (((((s.ringTake q).map fun x => x.2.2).getD s).pruneReqs).queueAt q).root).getD 0, addr := .mem ((s.queueAt q).entryPa q (s.queueAt q).head.toNat), body := b, by_ := none, began := false, pieces := [], code := if (rootOf (((((s.ringTake q).map fun x => x.2.2).getD s).pruneReqs).queueAt q).root).isNone then some (1, 0) else if (!bodyEnd b || bodyBv b || bodyArv b || (bodyAdrs b).any (fun w => bitAt w 63) || 11 ≤ natAt b 0 8 % 64 || natAt b 0 8 % 64 == 9) then some (3, 0) else none, total := 0, landed := 0, bar := none, sbr := none, xfer := none, retired := false } : Req)], cp := { ((((((s.ringTake q).map fun x => x.2.2).getD s).pruneReqs).settle (((s.queueAt q).entryPa q (s.queueAt q).head.toNat) + 8) 8).perform (((s.queueAt q).entryPa q (s.queueAt q).head.toNat) + 8) (natToBytes 8 1) false).cp with copyRun := (((((s.ringTake q).map fun x => x.2.2).getD s).pruneReqs).nextId, q, ((s.queueAt q).entryPa q (s.queueAt q).head.toNat)) :: ((((((s.ringTake q).map fun x => x.2.2).getD s).pruneReqs).settle (((s.queueAt q).entryPa q (s.queueAt q).head.toNat) + 8) 8).perform (((s.queueAt q).entryPa q (s.queueAt q).head.toNat) + 8) (natToBytes 8 1) false).cp.copyRun } }))
    ∧ (∀ (part : Nat) (s : State),
      s.placing part = true →
      (s.placeFrom part).isSome = true →
      exec (.cellPlacement part) s = .next ((s.placeFrom part).getD s))
    ∧ (∀ (grp : Nat) (s : State) (G : Group) (L : Launch),
      s.group? grp = some G →
      ((s.freeWaves.group? grp).map fun G => G.waves.all fun w => w.freed) = some true →
      (G.threads.any fun x => !x.quantum.isEmpty) = false →
      s.freeWaves.groupWork grp = false →
      s.freeWaves.launch? G.launch = some L →
      L.outcome = none →
      L.committing = false →
      L.join = 0 →
      G.handles = none →
      exec (.groupEnd grp) s = .next ((((s.freeWaves.forceAll ((s.freeWaves.mem.wq.filter fun e => (s.freeWaves.groupWrites grp).contains e.id && paHome e.pa == 15).map (·.id)) .all).dropGroup grp).updLaunch L.id fun x => { x with ended := x.ended + 1 }).freePlans L.id))
    ∧ (∀ (l : Nat) (s : State) (L : Launch),
      s.launch? l = some L →
      L.outcome = none →
      L.upto = L.total →
      L.count = 0 →
      L.ended = L.total →
      s.launchGroups l = [] →
      s.launchDrained l = true →
      s.canForceAll (s.launchWrites l) .all = true →
      ((s.forceAll (s.launchWrites l) .all).writeComp (some L.root) L.rc (L.parts.head?.getD 0xFFFF) 0 0).isSome = true →
      exec (.launchCompletion l) s = .next ((((s.forceAll (s.launchWrites l) .all).writeComp (some L.root) L.rc (L.parts.head?.getD 0xFFFF) 0 0).getD s).dropLaunch l))
    ∧ (∀ (l : Nat) (s : State) (L : Launch),
      s.launch? l = some L →
      L.dl = some 0 →
      L.outcome = none →
      (s.launchGroups l).isEmpty = false →
      exec (.deadlineExpiry l) s = .next ((s.groups.filter fun (G : Group) => ((s.launchGroups l).map (·.part)).contains G.part).foldl (fun (s : State) (G : Group) => s.haltGroup G.id .deadline 0) ({ (s.updLaunch l fun L => { L with outcome := some (3, (((s.launchGroups l).map (·.index)).min?).getD 0), count := 0 }) with cp := { (s.updLaunch l fun L => { L with outcome := some (3, (((s.launchGroups l).map (·.index)).min?).getD 0), count := 0 }).cp with heads := (s.updLaunch l fun L => { L with outcome := some (3, (((s.launchGroups l).map (·.index)).min?).getD 0), count := 0 }).cp.heads.filter fun h => h.2 != QHead.range l } } : State)))

/-- A halted group with nothing in flight becomes quiet: held operations are cancelled, a pgreq under way is taken back, queued matrix operations are abandoned, and after a trap its image is written and it goes to its handler, else its launch ends. A handler record is read and its room reserved; the reserved handler starts for the first quiet group. Pre-emption halts the partition's groups (those of a quantum launch not before its commit, and beside one a handler runs on), and when all can be saved writes their images; the partition's commands resume, abort and place again. A quantum commits when all its threads have ended it, and the next opens when its work is drained. A grant window sets the stall bit. Where the rules leave a choice it takes the model's, log entries 99, 100, 101, 102, 103, 106, 107, 109, 110. -/
def Obligations.TrapEventsComplete : Prop :=
    (∀ (grp : Nat) (s : State) (G : Group) (h : Halt),
      s.group? grp = some G →
      G.halt = some h →
      h.quiet = false →
      s.quietOk G = true →
      h.why.isTrap = false →
      exec (.groupQuiet grp) s = .next (((((G.threads.foldl (fun s x => s.cancelHeld (.thr grp x.tid)) s).pgreqBack grp).abandon grp).updGroup grp fun G => { G with halt := some { h with quiet := true } })))
    ∧ (∀ (grp : Nat) (s : State) (G : Group) (h : Halt) (k : Nat),
      s.group? grp = some G →
      G.halt = some h →
      h.quiet = false →
      s.quietOk G = true →
      h.why = .trap k →
      (((((G.threads.foldl (fun s x => s.cancelHeld (.thr grp x.tid)) s).pgreqBack grp).abandon grp).updGroup grp fun G => { G with halt := some { h with quiet := true } }).writeTrapImage grp).isSome = true →
      exec (.groupQuiet grp) s = .next (((((((G.threads.foldl (fun s x => s.cancelHeld (.thr grp x.tid)) s).pgreqBack grp).abandon grp).updGroup grp fun G => { G with halt := some { h with quiet := true } }).writeTrapImage grp).getD s).handleTrap grp k))
    ∧ (∀ (part : Nat) (s : State) (p : Part_) (v : W64),
      part < 16 →
      (s.handlerGroup part).isNone = true →
      s.partAt part = p →
      p.handlerNext = some v →
      exec (.handlerReservation part) s = .next (s.setHandler part v))
    ∧ (∀ (part : Nat) (s : State) (p : Part_) (rc : LaunchRec),
      part < 16 →
      (s.handlerGroup part).isNone = true →
      s.partAt part = p →
      p.handlerNext = none →
      p.reserved = .unread →
      p.rect.getLsbD 14 = true →
      (s.checkRecord (s.partRoot part) (p.handler.toNat % 2 ^ 57) (fun rc => (0, rc.ngrp + 1)) false).okRc = some rc →
      exec (.handlerReservation part) s = .next (if rc.ngrp != 0 || rc.pair || rc.quant || rc.cell != 0 then ((s.checkRecord (s.partRoot part) (p.handler.toNat % 2 ^ 57) (fun rc => (0, rc.ngrp + 1)) false).st.updPart part fun p => { p with reserved := .bad }).flushQuiet part else (s.checkRecord (s.partRoot part) (p.handler.toNat % 2 ^ 57) (fun rc => (0, rc.ngrp + 1)) false).st.updPart part fun p => { p with reserved := .pending rc }))
    ∧ (∀ (part : Nat) (s : State) (p : Part_) (rc : LaunchRec),
      part < 16 →
      (s.handlerGroup part).isNone = true →
      s.partAt part = p →
      p.handlerNext = none →
      p.reserved = .pending rc →
      p.rect.getLsbD 14 = true →
      s.paGrant part + rc.power ≤ (p.shares.extractLsb' 0 14).toNat →
      (s.placeAt rc [s.roomAt (State.rectTop p)] 0).isSome = true →
      exec (.handlerReservation part) s = .next (match (s.placeAt rc [s.roomAt (State.rectTop p)] 0) with | some (q, _) => s.updPart part fun p => { p with reserved := .held rc (State.rectTop p) (q.waves.map (·.2)) q.spad q.row } | none => s))
    ∧ (∀ (part : Nat) (s : State) (p : Part_) (rc : LaunchRec) (core : Nat) (slots : List Nat) (spad row g : Nat) (rest : List Nat) (G : Group) (tbl : Option (List Byte)),
      part < 16 →
      (s.handlerGroup part).isNone = true →
      s.partAt part = p →
      p.preempt = .none →
      p.handlerNext = none →
      p.reserved = .held rc core slots spad row →
      p.quietQ = g :: rest →
      s.group? g = some G →
      s.tablesOk ({ Launch.blank with id := s.nextId, rc := rc, root := (s.partRoot part).getD 0, upto := 1, placed := 1, args := rc.args, join := rc.join, priv := true, stamp := s.stamp } : Launch) part = some tbl →
      exec (.handlerStart part) s = .next (let L : Launch := ({ Launch.blank with id := s.nextId, rc := rc, root := (s.partRoot part).getD 0, upto := 1, placed := 1, args := rc.args, join := rc.join, priv := true, stamp := s.stamp } : Launch)
      let off := BitVec.ofNat 64 (((G.halt.bind (·.image)).bind fun e => e.2.head?).getD 0 * 2 ^ 21)
      let s1 := ({ s with nextId := s.nextId + 1, launches := s.launches ++ [L] } : State).admitLaunch L part tbl
      let H0 := newGroup L s1.nextId part (core / 4) 0 (if rc.stksz = 0 then none else some 0) s.stamp ⟨core % 4, slots.map fun k => (core % 4, k), spad, row⟩
      let H : Group := { H0 with handles := some G.id, k := ((H0.k.set 2 (off.extractLsb' 0 32)).set 3 (off.extractLsb' 32 32)).set 4 (BitVec.ofNat 32 part) }
      ((({ s1 with nextId := s1.nextId + 1, groups := s1.groups ++ [H] } : State).takeRoom rc core spad row H.id).updPart part fun p => { p with quietQ := p.quietQ.erase G.id })))
    ∧ (∀ (part : Nat) (s : State) (p : Part_),
      part < 16 →
      s.partAt part = p →
      p.preempt = .halting →
      (s.groups.filter fun G => G.part == part).all s.savable = true →
      (((s.launches.filter fun L => (s.groups.filter fun G => G.part == part).any fun G => G.launch == L.id).mergeSort fun a b => a.order ≤ b.order).any fun L => L.outcome.isSome || L.committing) = false →
      (((rectOf p.rect).w * (rectOf p.rect).h * ((s.launches.filter fun L => (s.groups.filter fun G => G.part == part).any fun G => G.launch == L.id).mergeSort fun a b => a.order ≤ b.order).length) = 0 ∨ (paDevice (saveBase p.save) && paDevice (saveBase p.save + ((rectOf p.rect).w * (rectOf p.rect).h * ((s.launches.filter fun L => (s.groups.filter fun G => G.part == part).any fun G => G.launch == L.id).mergeSort fun a b => a.order ≤ b.order).length) * 2 ^ 23 - 1) && (List.range (((rectOf p.rect).w * (rectOf p.rect).h * ((s.launches.filter fun L => (s.groups.filter fun G => G.part == part).any fun G => G.launch == L.id).mergeSort fun a b => a.order ≤ b.order).length) * 2048)).all fun i => s.sliceReady (saveBase p.save + 4096 * i) 4096 false) = true) →
      exec (.preemptDrainComplete part) s = .next (((((s.launches.filter fun L => (s.groups.filter fun G => G.part == part).any fun G => G.launch == L.id).mergeSort fun a b => a.order ≤ b.order).foldl (fun (x : Nat × State) L => x.2.saveLaunch part x.1 L) (saveBase p.save, (s.groups.filter fun G => G.part == part).foldl (fun (s : State) (G : Group) => s.forceAll (s.groupWrites G.id) .all) s)).2.clearRoutines).updPart part fun p => { p with preempt := .none, stopped := true, save := p.save &&& ~~~(1 : W64) }))
    ∧ (∀ (n : Nat) (s : State) (p : Part_),
      n < 16 →
      s.partAt n = p →
      p.stopped = false →
      p.preempt = .none →
      p.save.getLsbD 0 = true →
      ((rectOf p.rect).w * (rectOf p.rect).h * (s.partLaunches n).length) ≤ saveSize p.save →
      exec (.partCmdPreempt n) s = .next ((s.groups.filter fun (G : Group) => G.part == n && !((s.launch? G.launch).getD Launch.blank).rc.quant && !(((s.launch? G.launch).getD Launch.blank).priv && s.groups.any fun G => G.part == n && ((s.launch? G.launch).getD Launch.blank).rc.quant)).foldl (fun (s : State) (G : Group) => s.haltGroup G.id .preempt 0) (s.updPart n fun p => { p with saveBad := false, preempt := .halting })))
    ∧ (∀ (n : Nat) (s : State) (p : Part_),
      n < 16 →
      s.partAt n = p →
      p.stopped = false →
      p.preempt = .none →
      (p.save.getLsbD 0 = false ∨ saveSize p.save < ((rectOf p.rect).w * (rectOf p.rect).h * (s.partLaunches n).length)) →
      exec (.partCmdPreempt n) s = .next (s.updPart n fun p => { p with saveBad := true }))
    ∧ (∀ (n : Nat) (s : State),
      exec (.partCmdResume n) s = .next ((s.leftHalted n).foldl (fun (s : State) (G : Group) => s.resumeGroup G.id) s))
    ∧ (∀ (n : Nat) (s : State),
      exec (.partCmdAbort n) s = .next ((s.leftHalted n).foldl (fun (s : State) (G : Group) => s.endLaunch G.launch 5 0) s))
    ∧ (∀ (n : Nat) (s : State),
      n < 16 →
      exec (.partCmdResumePlacing n) s = .next (s.updPart n fun p => { p with stopped := false }))
    ∧ (∀ (l : Nat) (s : State),
      s.commitDue l = true →
      exec (.quantumCommitStart l) s = .next ((State.commitRun l (((((s.launchGroups l).map fun G => G.waves.map (·.core)).flatten).eraseDups.foldl (fun s c => s.l1Clear c) (s.updLaunch l fun L => { L with committing := true })).commitFuel l) ((((s.launchGroups l).map fun G => G.waves.map (·.core)).flatten).eraseDups.foldl (fun s c => s.l1Clear c) (s.updLaunch l fun L => { L with committing := true })) false).1))
    ∧ (∀ (l : Nat) (s : State) (L : Launch),
      s.launch? l = some L →
      L.committing = true →
      L.outcome = none →
      s.commitDrained l = true →
      exec (.quantumCommitComplete l) s = .next (s.openQuantum l))
    ∧ (∀ (part measured : Nat) (s : State),
      part < 16 →
      s.gtsc % 1000 = 0 →
      exec (.grantWindow part measured) s = .next (s.updPart part fun p => { p with stall := s.paGrant part * 250 < measured }))

/-- A module reset and a PCIe reset put every register to its reset value and run the boot ROM on the flash image; BOOT_CMD runs it on the staged image in recovery; a BAR2 access within the space, to places that are there and ready, reads or writes them; register writes act as their registers say; alarms, soft errors, uncorrectable errors and, once its pages can be written, a code object leave their records; the error ring takes the oldest record. Where the rules leave a choice it takes the model's, log entries 6, 92, 113, 114, 116, 117, 118, 119, 122. -/
def Obligations.HostEventsComplete : Prop :=
    (∀ (s : State),
      exec .moduleReset s = .next (s.registersReset.bootRun s.boot.flash))
    ∧ (∀ (s : State),
      exec .pcieFundamentalReset s = .next (s.registersReset.bootRun s.boot.flash))
    ∧ (∀ (v : W32) (s : State),
      v.getLsbD 0 = true →
      s.bootMode = bootRecovery →
      exec (.bootCmd v) s = .next (s.bootRun ((List.range ((s.boot.staged.map (·.1 + 1)).max?.getD 0)).map fun a => (cellFind s.boot.staged a).getD 0)))
    ∧ (∀ (v : W64) (s : State),
      s.boot.attStat.getLsbD 0 = false →
      exec (.attCmd v) s = .next (({ s with boot := { s.boot with attStat := 1, att := some ((v.extractLsb' 6 51).toNat * 64) } } : State).attGo))
    ∧ (∀ (v : W32) (s : State),
      s.boot.debugOk = true →
      exec (.dbgCtl v) s = .next ({ s with boot := { s.boot with dbg := v &&& 1 } }))
    ∧ (∀ (write : Bool) (off len : Nat) (data : List Byte) (s : State) (rs : List Range),
      write = true →
      data ≠ [] →
      data.length ≤ 256 →
      off + data.length ≤ 2 ^ 39 →
      s.bootMode ≠ 0 →
      s.bootMode ≠ bootRecovery →
      s.hostPlaces (s.bar2Base + off) data.length = some rs →
      (rs.find? fun r => paHome r.pa == 8 && !s.boot.ats.contains (r.pa / 2 ^ 12)) = none →
      s.landReady (s.spansOf rs) = true →
      exec (.bar2Access write off len data) s = .next ((s.landFrom .host 0 s.nextId (s.spansOf rs) data).setReply (some [])))
    ∧ (∀ (write : Bool) (off len : Nat) (data : List Byte) (s : State) (rs : List Range),
      write = false →
      0 < len →
      len ≤ 256 →
      off + len ≤ 2 ^ 39 →
      s.bootMode ≠ 0 →
      s.bootMode ≠ bootRecovery →
      s.hostPlaces (s.bar2Base + off) len = some rs →
      (rs.find? fun r => paHome r.pa == 8 && !s.boot.ats.contains (r.pa / 2 ^ 12)) = none →
      s.spansReadable (s.spansOf rs) = true →
      exec (.bar2Access write off len data) s = .next ((s.readSpans (dieReader .host 0) (s.spansOf rs) off len).2.setReply (some (s.readSpans (dieReader .host 0) (s.spansOf rs) off len).1)))
    ∧ (∀ (s : State) (r : ErrRec) (rest : List ErrRec),
      s.cp.erHeld = r :: rest →
      s.cp.erSize.getLsbD 4 = true →
      paDevice ((s.cp.erBase.extractLsb' 5 47).toNat * 32 + s.cp.erTail.toNat % erSlots s.cp.erSize * 32) = true →
      paDevice (((s.cp.erBase.extractLsb' 5 47).toNat * 32 + s.cp.erTail.toNat % erSlots s.cp.erSize * 32) + 31) = true →
      (s.cp.erTail - s.cp.erHead).toNat < erSlots s.cp.erSize →
      s.sliceReady ((s.cp.erBase.extractLsb' 5 47).toNat * 32 + s.cp.erTail.toNat % erSlots s.cp.erSize * 32) 32 false = true →
      exec .errorRecordWrite s = .next ({ ((s.settle ((s.cp.erBase.extractLsb' 5 47).toNat * 32 + s.cp.erTail.toNat % erSlots s.cp.erSize * 32) 32).perform ((s.cp.erBase.extractLsb' 5 47).toNat * 32 + s.cp.erTail.toNat % erSlots s.cp.erSize * 32) (r.bytes s.cp.erLoss) false) with cp := { ((s.settle ((s.cp.erBase.extractLsb' 5 47).toNat * 32 + s.cp.erTail.toNat % erSlots s.cp.erSize * 32) 32).perform ((s.cp.erBase.extractLsb' 5 47).toNat * 32 + s.cp.erTail.toNat % erSlots s.cp.erSize * 32) (r.bytes s.cp.erLoss) false).cp with erHeld := rest, erTail := ((s.settle ((s.cp.erBase.extractLsb' 5 47).toNat * 32 + s.cp.erTail.toNat % erSlots s.cp.erSize * 32) 32).perform ((s.cp.erBase.extractLsb' 5 47).toNat * 32 + s.cp.erTail.toNat % erSlots s.cp.erSize * 32) (r.bytes s.cp.erLoss) false).cp.erTail + 1, erLoss := false }, boot := { ((s.settle ((s.cp.erBase.extractLsb' 5 47).toNat * 32 + s.cp.erTail.toNat % erSlots s.cp.erSize * 32) 32).perform ((s.cp.erBase.extractLsb' 5 47).toNat * 32 + s.cp.erTail.toNat % erSlots s.cp.erSize * 32) (r.bytes s.cp.erLoss) false).boot with msix := ((s.settle ((s.cp.erBase.extractLsb' 5 47).toNat * 32 + s.cp.erTail.toNat % erSlots s.cp.erSize * 32) 32).perform ((s.cp.erBase.extractLsb' 5 47).toNat * 32 + s.cp.erTail.toNat % erSlots s.cp.erSize * 32) (r.bytes s.cp.erLoss) false).boot.msix.modify 0 (· + 1) } }))
    ∧ (∀ (sensor : BitVec 6) (s : State),
      sensor &&& 7 ≠ 0 →
      exec (.alarmLevel1 sensor) s = .next (s.raiseOne ((sensor &&& 7).zeroExtend 32)))
    ∧ (∀ (sensor : BitVec 6) (s : State),
      sensor &&& 15 ≠ 0 →
      (if ((sensor &&& 15).zeroExtend 32 : W32) &&& 7 = 0 then s else s.raiseOne (((sensor &&& 15).zeroExtend 32 : W32) &&& 7)).boot.alarm.extractLsb' 0 2 ≠ 2 →
      exec (.alarmLevel2 sensor) s = .next (({ ((if ((sensor &&& 15).zeroExtend 32 : W32) &&& 7 = 0 then s else s.raiseOne (((sensor &&& 15).zeroExtend 32 : W32) &&& 7)).setAlarm 2 ((sensor &&& 15).zeroExtend 32 : W32)) with boot := { ((if ((sensor &&& 15).zeroExtend 32 : W32) &&& 7 = 0 then s else s.raiseOne (((sensor &&& 15).zeroExtend 32 : W32) &&& 7)).setAlarm 2 ((sensor &&& 15).zeroExtend 32 : W32)).boot with activation := none, keysErased := true } } : State).pushErr 19 0xFFFF srcSec 0 0))
    ∧ (∀ (src : BitVec 16) (cls : BitVec 8) (pa : W64) (s : State),
      ∃ t, exec (.softErrorCorrected src cls pa) s = .next t ∧ t.cp = (s.pushErr 16 0xFFFF src 0 ((pa <<< 8) ||| cls.zeroExtend 64)).cp ∧ t.mem = s.mem ∧ t.groups = s.groups)
    ∧ (∀ (src : BitVec 16) (cls : BitVec 8) (pa : W64) (s : State),
      ∃ t, exec (.uncorrectableError src cls pa) s = .next t ∧ t.cp = (s.pushErr 17 0xFFFF src 0 0).cp ∧ t.mem = s.mem ∧ t.groups = s.groups)
    ∧ (∀ (obj : List Byte) (text data : W64) (s : State),
      (s.loadCheck obj).status ≠ loadOk →
      exec (.codeObjectLoad obj text data) s = .next ({ s with boot := { s.boot with objects := s.boot.objects ++ [⟨(s.loadCheck obj).status, [], []⟩] } }))
    ∧ (∀ (obj : List Byte) (text data : W64) (s : State),
      (s.objPlaced (s.loadedObj obj text data)).isSome = true →
      ∃ t, exec (.codeObjectLoad obj text data) s = .next t ∧ t.boot.objects = s.boot.objects ++ [(if (s.loadCheck obj).status = loadOk then (⟨loadOk, relocated (objOf obj) obj (s.loadCheck obj).gw (sectionVa text) (dataVa text data (s.loadCheck obj).text (sliceB obj (objOf obj).data (objOf obj).dlen)), objSections obj (s.loadCheck obj).text (sliceB obj (objOf obj).data (objOf obj).dlen) (sectionVa text) (dataVa text data (s.loadCheck obj).text (sliceB obj (objOf obj).data (objOf obj).dlen))⟩ : LoadedObj) else ⟨(s.loadCheck obj).status, [], []⟩)])
    ∧ (∀ (core : Nat) (v : W64) (s : State),
      core < 1024 →
      core % 256 < 160 →
      s.kickFull core = false →
      s.boot.dbg.getLsbD 0 = true →
      exec (.coreKick core v) s = .next (s.kickHead core v none))
    ∧ (∀ (q : Nat) (v : W32) (s : State),
      exec (.cpPush q v) s = .next ((s.updQueue q fun k => { k with pushed := v, stamps := k.stamps ++ [(k.pushed, (v - k.pushed).toNat, s.stamp)] }).pushHeld))
    ∧ (∀ (n : Nat) (v : W32) (s : State),
      n < 16 →
      (s.cp.parts.zipIdx.any fun p => p.2 != n && rectsMeet (v &&& 0x7FFF) p.1.rect) = false →
      exec (.partRect n v) s = .next (s.updPart n fun p => { p with rect := (v &&& 0x7FFF), stopped := false, reserved := if p.handler = 0 then .none else .unread }))
    ∧ (∀ (n : Nat) (v : W64) (s : State),
      n < 16 →
      exec (.partHandler n v) s = .next (if (s.handlerGroup n).isSome then s.updPart n fun p => { p with handlerNext := some (v &&& 0x1FFFFFFFFFFFFFF) } else s.setHandler n (v &&& 0x1FFFFFFFFFFFFFF)))
    ∧ (∀ (n : Nat) (v : W32) (s : State),
      exec (.paShares n v) s = .next (if s.cp.paBudget.toNat < sharesSum (s.updPart n fun p => { p with shares := v &&& 0x3FFF }).cp.parts s.cp.paBank then s else s.updPart n fun p => { p with shares := v &&& 0x3FFF }))
    ∧ (∀ (v : W32) (s : State),
      exec (.paBank v) s = .next (if s.cp.paBudget.toNat < sharesSum s.cp.parts (v &&& 0x3FFF) then s else { s with cp := { s.cp with paBank := v &&& 0x3FFF } }))
    ∧ (∀ (v : W64) (s : State),
      exec (.paTableid v) s = .next ({ s with cp := { s.cp with paTable := v } }))
    ∧ (∀ (v : W32) (s : State),
      s.fabIdle = true →
      fabOk (v &&& 0x0FFF0FFF) s.fab.ctl = true →
      exec (.fabId v) s = .next (s.updFab fun f => { f with id := v &&& 0x0FFF0FFF }))
    ∧ (∀ (v : W32) (s : State),
      s.fabIdle = true →
      fabOk s.fab.id (v &&& 3) = true →
      exec (.fabCtl v) s = .next (s.updFab fun f => { f with ctl := v &&& 3, lanes := if (v &&& 3).getLsbD 0 then f.lanes else List.replicate 18 0 }))
    ∧ (∀ (v : W64) (s : State),
      s.fabIdle = true →
      exec (.fabRoot v) s = .next (s.updFab fun f => { f with root := v &&& 0x000FFFFFFFFF0001 }))
    ∧ (∀ (wide : Bool) (off : Nat) (v : W64) (s : State) (r : Reg),
      regAt off = some r →
      r.wide = wide →
      exec (.registerWrite wide off v) s = .next (s.regWrite r v))
    ∧ (∀ (wide : Bool) (off : Nat) (v : W64) (s : State),
      regAt off = none →
      exec (.registerWrite wide off v) s = .next (s))

/-- For every integer type of width w and operands read at it, the value written by add, sub, mul or mad, read as the type, is the exact a + b, a - b, a * b or a * b + c, clamped to the type's range under sat and reduced modulo 2^w otherwise; that of mulhi is floor(a * b / 2^w) modulo 2^w. (A signed value modulo 2^w is the one in the type's range.) -/
def Obligations.IntegerArithmetic : Prop :=
    (∀ (rd : Reader) (c : Ctl) (ty : Ty) (sat : Bool) (d a b e : Operand), ty.isNum = true →
      ∃ y : W64, aluWrites rd (.add c ty sat d a b) = some (wrTy ty d y) ∧ (if tySigned ty then y.toInt else (y.toNat : Int)) = (if sat then max (tyMin ty) (min (tyMax ty) (rdInt rd ty a + rdInt rd ty b)) else if tySigned ty then Int.bmod (rdInt rd ty a + rdInt rd ty b) (2 ^ tyWidth ty) else (rdInt rd ty a + rdInt rd ty b) % 2 ^ tyWidth ty))
    ∧ (∀ (rd : Reader) (c : Ctl) (ty : Ty) (sat : Bool) (d a b e : Operand), ty.isNum = true →
      ∃ y : W64, aluWrites rd (.sub c ty sat d a b) = some (wrTy ty d y) ∧ (if tySigned ty then y.toInt else (y.toNat : Int)) = (if sat then max (tyMin ty) (min (tyMax ty) (rdInt rd ty a - rdInt rd ty b)) else if tySigned ty then Int.bmod (rdInt rd ty a - rdInt rd ty b) (2 ^ tyWidth ty) else (rdInt rd ty a - rdInt rd ty b) % 2 ^ tyWidth ty))
    ∧ (∀ (rd : Reader) (c : Ctl) (ty : Ty) (sat : Bool) (d a b e : Operand), ty.isNum = true →
      ∃ y : W64, aluWrites rd (.mul c ty sat d a b) = some (wrTy ty d y) ∧ (if tySigned ty then y.toInt else (y.toNat : Int)) = (if sat then max (tyMin ty) (min (tyMax ty) (rdInt rd ty a * rdInt rd ty b)) else if tySigned ty then Int.bmod (rdInt rd ty a * rdInt rd ty b) (2 ^ tyWidth ty) else (rdInt rd ty a * rdInt rd ty b) % 2 ^ tyWidth ty))
    ∧ (∀ (rd : Reader) (c : Ctl) (ty : Ty) (sat : Bool) (d a b e : Operand), ty.isNum = true →
      ∃ y : W64, aluWrites rd (.mad c ty sat d a b e) = some (wrTy ty d y) ∧ (if tySigned ty then y.toInt else (y.toNat : Int)) = (if sat then max (tyMin ty) (min (tyMax ty) (rdInt rd ty a * rdInt rd ty b + rdInt rd ty e)) else if tySigned ty then Int.bmod (rdInt rd ty a * rdInt rd ty b + rdInt rd ty e) (2 ^ tyWidth ty) else (rdInt rd ty a * rdInt rd ty b + rdInt rd ty e) % 2 ^ tyWidth ty))
    ∧ (∀ (rd : Reader) (c : Ctl) (ty : Ty) (d a b : Operand), ty.isNum = true →
      ∃ y : W64, aluWrites rd (.mulhi c ty d a b) = some (wrTy ty d y) ∧ (if tySigned ty then y.toInt else (y.toNat : Int)) = (if false then max (tyMin ty) (min (tyMax ty) (rdInt rd ty a * rdInt rd ty b / 2 ^ tyWidth ty)) else if tySigned ty then Int.bmod (rdInt rd ty a * rdInt rd ty b / 2 ^ tyWidth ty) (2 ^ tyWidth ty) else (rdInt rd ty a * rdInt rd ty b / 2 ^ tyWidth ty) % 2 ^ tyWidth ty))

/-- For b32 and b64, with n source B read as a 32-bit natural: shl, shr, sra and rot write a shifted left, shifted right as a natural, shifted right as a signed value and rotated left by n at the type's width; an amount of the width or more gives 0, 0, the sign in every bit, and the rotation by n modulo the width. With pos = ctl[7:0] and len = min(ctl[15:8], 32): bfi keeps c but for bits pos to pos + len - 1 below 32, which hold a[0], a[1], ...; bfe of length 0 gives 0, otherwise bit i below len is a[pos + i], or beyond bit 31 a[31] for i32 and 0 for n32, and the bits from len up are bit len - 1 of the field for i32 and 0 for n32. At the width w of b32 or b64: popc writes the number of 1 bits of a among its w bits; clz writes n such that the n highest of the w bits are 0 and, when n < w, the next one is 1; brev writes bit i from bit w - 1 - i. -/
def Obligations.ShiftsAndBitFields : Prop :=
    (∀ (rd : Reader) (c : Ctl) (d a b : Operand), aluWrites rd (.shl c .b32 d a b) = some (wrTy .b32 d (BitVec.zeroExtend 64 (((rd .b32 a).extractLsb' 0 32) <<< (rd32 rd b).toNat))))
    ∧ (∀ (rd : Reader) (c : Ctl) (d a b : Operand), aluWrites rd (.shl c .b64 d a b) = some (wrTy .b64 d ((rd .b64 a) <<< (rd32 rd b).toNat)))
    ∧ (∀ (rd : Reader) (c : Ctl) (d a b : Operand), aluWrites rd (.shr c .b32 d a b) = some (wrTy .b32 d (BitVec.zeroExtend 64 (((rd .b32 a).extractLsb' 0 32) >>> (rd32 rd b).toNat))))
    ∧ (∀ (rd : Reader) (c : Ctl) (d a b : Operand), aluWrites rd (.shr c .b64 d a b) = some (wrTy .b64 d ((rd .b64 a) >>> (rd32 rd b).toNat)))
    ∧ (∀ (rd : Reader) (c : Ctl) (d a b : Operand), aluWrites rd (.sra c .b32 d a b) = some (wrTy .b32 d (BitVec.zeroExtend 64 (((rd .b32 a).extractLsb' 0 32).sshiftRight (rd32 rd b).toNat))))
    ∧ (∀ (rd : Reader) (c : Ctl) (d a b : Operand), aluWrites rd (.sra c .b64 d a b) = some (wrTy .b64 d ((rd .b64 a).sshiftRight (rd32 rd b).toNat)))
    ∧ (∀ (rd : Reader) (c : Ctl) (d a b : Operand), aluWrites rd (.rot c .b32 d a b) = some (wrTy .b32 d (BitVec.zeroExtend 64 (((rd .b32 a).extractLsb' 0 32).rotateLeft (rd32 rd b).toNat))))
    ∧ (∀ (rd : Reader) (c : Ctl) (d a b : Operand), aluWrites rd (.rot c .b64 d a b) = some (wrTy .b64 d ((rd .b64 a).rotateLeft (rd32 rd b).toNat)))
    ∧ (∀ (rd : Reader) (c : Ctl) (d a b e : Operand), ∃ y : W32, aluWrites rd (.bfi c d a b e) = some (wrReg d y) ∧ ∀ i, i < 32 →
      y.getLsbD i = if ((rd32 rd b).toNat % 256) ≤ i ∧ i < ((rd32 rd b).toNat % 256) + (min ((rd32 rd b).toNat / 256 % 256) 32) then (rd32 rd a).getLsbD (i - ((rd32 rd b).toNat % 256)) else (rd32 rd e).getLsbD i)
    ∧ (∀ (rd : Reader) (c : Ctl) (ty : Ty) (d a b : Operand), ty = .i32 ∨ ty = .n32 → ∃ (y : W32) (f : Nat → Bool), aluWrites rd (.bfe c ty d a b) = some (wrReg d y) ∧
      (∀ i, f i = if ((rd32 rd b).toNat % 256) + i < 32 then (rd32 rd a).getLsbD (((rd32 rd b).toNat % 256) + i) else ty == .i32 && (rd32 rd a).getLsbD 31) ∧
      ∀ i, i < 32 → y.getLsbD i = if (min ((rd32 rd b).toNat / 256 % 256) 32) = 0 then false else if i < (min ((rd32 rd b).toNat / 256 % 256) 32) then f i else ty == .i32 && f ((min ((rd32 rd b).toNat / 256 % 256) 32) - 1))
    ∧ (∀ (rd : Reader) (c : Ctl) (ty : Ty) (d a : Operand), ty.isB = true → aluWrites rd (.popc c ty d a) = some (wrReg d (BitVec.ofNat 32 (((List.range (tyWidth ty)).filter fun i => (rd ty a).getLsbD i).length))))
    ∧ (∀ (rd : Reader) (c : Ctl) (ty : Ty) (d a : Operand), ty.isB = true → ∃ n, n ≤ tyWidth ty ∧ aluWrites rd (.clz c ty d a) = some (wrReg d (BitVec.ofNat 32 n)) ∧
      (∀ i, tyWidth ty ≤ i + n → i < tyWidth ty → (rd ty a).getLsbD i = false) ∧ (n < tyWidth ty → (rd ty a).getLsbD (tyWidth ty - 1 - n) = true))
    ∧ (∀ (rd : Reader) (c : Ctl) (ty : Ty) (d a : Operand), ty.isB = true → ∃ y : W64, aluWrites rd (.brev c ty d a) = some (wrTy ty d y) ∧ ∀ i, i < tyWidth ty → y.getLsbD i = (rd ty a).getLsbD (tyWidth ty - 1 - i))

/-- addc writes a + b + ci modulo 2^32 and, unless the carry-out field is 7, its predicate := whether the sum reaches 2^32; subb writes a - b - ci modulo 2^32 and the borrow. A carry-in field of 7 is a carry-in of 0. -/
def Obligations.CarryChain : Prop :=
    (∀ (rd : Reader) (c : Ctl) (ci co : BitVec 3) (d a b : Operand) (z : BitVec 33), z = (rd32 rd a).zeroExtend 33 + (rd32 rd b).zeroExtend 33 + (BitVec.ofBool (if ci = 7 then false else rdP rd (.p ci))).zeroExtend 33 →
      rd .n32 a = (rd32 rd a).zeroExtend 64 → rd .n32 b = (rd32 rd b).zeroExtend 64 →
      aluWrites rd (.addc c ci co d a b) = some (wrReg d (z.extractLsb' 0 32) ++ if co = 7 then [] else [.p co.toNat z.msb]))
    ∧ (∀ (rd : Reader) (c : Ctl) (ci co : BitVec 3) (d a b : Operand) (z : BitVec 33), z = (rd32 rd a).zeroExtend 33 - (rd32 rd b).zeroExtend 33 - (BitVec.ofBool (if ci = 7 then false else rdP rd (.p ci))).zeroExtend 33 →
      rd .n32 a = (rd32 rd a).zeroExtend 64 → rd .n32 b = (rd32 rd b).zeroExtend 64 →
      aluWrites rd (.subb c ci co d a b) = some (wrReg d (z.extractLsb' 0 32) ++ if co = 7 then [] else [.p co.toNat z.msb]))

/-- pbool writes pA and pB, pA or pB, pA xor pB, or pA and not pB; pmov.save writes a word whose bits 6 to 0 are p6 to p0 and whose other bits are 0; pmov.load, applied to any thread, sets each predicate pi of p0 to p6 with mask[i] = 1 to bit i of the source and leaves the other predicates. -/
def Obligations.PredicateForms : Prop :=
    (∀ (rd : Reader) (c : Ctl) (op : PBool) (d a b : Operand), aluWrites rd (.pbool c op d a b) = some (wrP d
      (match op with | .and => rdP rd a && rdP rd b | .or => rdP rd a || rdP rd b | .xor => Bool.xor (rdP rd a) (rdP rd b) | .andn => rdP rd a && !rdP rd b)))
    ∧ (∀ (rd : Reader) (c : Ctl) (d : Operand), ∃ y : W32, aluWrites rd (.pmovSave c d) = some (wrReg d y) ∧ ∀ i, y.getLsbD i = (decide (i < 7) && rdP rd (.p (BitVec.ofNat 3 i))))
    ∧ (∀ (rd : Reader) (c : Ctl) (a : Operand) (mask : BitVec 7), ∃ ws, aluWrites rd (.pmovLoad c a mask) = some ws ∧
      ∀ (x : Thread) (i : Nat), i < 7 → (ws.foldl Thread.put x).pred i = if mask.getLsbD i then (rd32 rd a).getLsbD i else x.pred i)

/-- For f32 and f16: a NaN operand, and 0 times infinity in fmul and ffma, give the canonical NaN 0x7FC0_0000 or 0x7E00; fmin and fmax with one NaN operand give the other operand rounded to its own format, and the canonical NaN when both are NaN; fadd and fmul do not depend on the order of their sources; a finite value minus itself is +0, and -0 under rdn. -/
def Obligations.FloatSpecialCases : Prop :=
    (∀ (rd : Reader) (c : Ctl) (ty : Ty) (rnd : Rnd) (d a b : Operand) (i : Instr), (ty = .f32 ∨ ty = .f16) → ((rdF rd ty a).isNan || (rdF rd ty b).isNan) = true →
      i ∈ [Instr.fadd c ty rnd d a b, .fsub c ty rnd d a b, .fmul c ty rnd d a b] → aluWrites rd i = some (wrReg d (if ty == .f32 then (0x7FC00000 : W32) else 0x7E00)))
    ∧ (∀ (rd : Reader) (c : Ctl) (ty : Ty) (rnd : Rnd) (d a b e : Operand) (n m : Bool) (k : Int), (ty = .f32 ∨ ty = .f16) → rdF rd ty a = .fin n 0 k → isInf m (rdF rd ty b) = true →
      aluWrites rd (.fmul c ty rnd d a b) = some (wrReg d (if ty == .f32 then (0x7FC00000 : W32) else 0x7E00)) ∧ aluWrites rd (.ffma c ty rnd d a b e) = some (wrReg d (if ty == .f32 then (0x7FC00000 : W32) else 0x7E00)))
    ∧ (∀ (rd : Reader) (c : Ctl) (ty : Ty) (d a b : Operand), (ty = .f32 ∨ ty = .f16) → (rdF rd ty a).isNan = true →
      (aluWrites rd (.fmin c ty d a b) = some (wrReg d (if (rdF rd ty b).isNan then (if ty == .f32 then (0x7FC00000 : W32) else 0x7E00) else ofF ty .rne false (rdF rd ty b)))) ∧
      (aluWrites rd (.fmax c ty d b a) = some (wrReg d (if (rdF rd ty b).isNan then (if ty == .f32 then (0x7FC00000 : W32) else 0x7E00) else ofF ty .rne false (rdF rd ty b)))))
    ∧ (∀ (rd : Reader) (c : Ctl) (ty : Ty) (rnd : Rnd) (d a b : Operand), aluWrites rd (.fadd c ty rnd d a b) = aluWrites rd (.fadd c ty rnd d b a) ∧
      aluWrites rd (.fmul c ty rnd d a b) = aluWrites rd (.fmul c ty rnd d b a))
    ∧ (∀ (rd : Reader) (c : Ctl) (ty : Ty) (rnd : Rnd) (d a : Operand) (n : Bool) (m : Nat) (k : Int), (ty = .f32 ∨ ty = .f16) → rdF rd ty a = .fin n m k →
      aluWrites rd (.fsub c ty rnd d a a) = some (wrReg d (if rnd = .rdn then (if ty == .f32 then (0x80000000 : W32) else 0x8000) else 0)))

/-- For one thread and any native form but rret: a vector register at or above the launch's registers, a long-latency form whose flag set is not valid, or a transfer in a repeat body takes the illegal-instruction trap whatever the guard is; past these, a false guard only goes to the next slot, and with a true guard a privileged form at user level takes the privilege trap and does nothing else. -/
def Obligations.ChecksInOrder : Prop :=
    (∀ (i : Instr) (c : Ctl) (s : State) (g n : Nat), ctlOf i = some c → i ≠ .rret c → s.gang.members = [.thr g n] → (regsOk (s.ctx (.thr g n)).regs i = false ∨ (isLong i = true ∧ s.gang.hdr.flagOf c.fs = none) ∨ (s.gang.hdr.kind = 3 ∧ repeatForbids i = true)) →
      exec i s = .next ((s.mark c).trap (.thr g n) causeIllegal 0 false 0).tokenEnds)
    ∧ (∀ (i : Instr) (c : Ctl) (s : State) (g n : Nat), ctlOf i = some c → actsWhole i = false → i ≠ .rret c → s.gang.members = [.thr g n] → s.encodingFault (.thr g n) c i = none →
      (s.mark c).guard (.thr g n) c = false → exec i s = .next ((s.mark c).ends (.thr g n) (s.mark c)))
    ∧ (∀ (i : Instr) (c : Ctl) (s : State) (g n : Nat), ctlOf i = some c → isPrivileged i = true → s.gang.members = [.thr g n] → s.encodingFault (.thr g n) c i = none →
      (s.mark c).guard (.thr g n) c = true → ((s.mark c).ctx (.thr g n)).priv = false → exec i s = .next ((s.mark c).trap (.thr g n) causePrivilege 0 false 0).tokenEnds)
    ∧ (∀ (c : Ctl) (ty : Ty) (w : BitVec 2) (d a b e : Operand) (r : BitVec 9) (cnt : Nat), isPrivileged (.getsr c ty w d r) = decide (0x100 ≤ r.toNat) ∧ isPrivileged (.setsr c ty w r a) = decide (0x100 ≤ r.toNat) ∧
      isPrivileged (.tlbinvAll c) = true ∧ isPrivileged (.pocinvAll c) = true ∧ isPrivileged (.dlset c a) = true ∧ isPrivileged (.crd c ty d a) = true ∧ isPrivileged (.cwr c ty a b) = true ∧ isPrivileged (.rfe c) = true ∧
      isPrivileged (.pgmig c d a b) = true ∧ isPrivileged (.netslotOff c d) = true ∧ isPrivileged (.tlbinvPage c a b) = true ∧ isPrivileged (.pocinvPage c a b) = true)

/-- A word with H = 0 whose opcode lies in one of the ranges that R43 leaves unlisted decodes to the unassigned-opcode step; that step, for one thread of a group, takes the illegal-instruction trap at its slot and does nothing else, whatever the other bits are. -/
def Obligations.UnassignedOpcodes : Prop :=
    (∀ (w : W96) (n : Nat), w.msb = false → n = (w.extractLsb' 84 11).toNat →
      ((0x13 ≤ n ∧ n ≤ 0x7F) ∨ (0x9E ≤ n ∧ n ≤ 0xFF) ∨ (0x115 ≤ n ∧ n ≤ 0x17F) ∨ (0x189 ≤ n ∧ n ≤ 0x1FF) ∨ (0x216 ≤ n ∧ n ≤ 0x27F) ∨ (0x283 ≤ n ∧ n ≤ 0x2FF) ∨ (0x30B ≤ n ∧ n ≤ 0x37F) ∨ (0x385 ≤ n ∧ n ≤ 0x3FF) ∨ (0x405 ≤ n ∧ n ≤ 0x47F) ∨ (0x484 ≤ n ∧ n ≤ 0x4FF) ∨ (0x504 ≤ n ∧ n ≤ 0x57F) ∨ (0x584 ≤ n ∧ n ≤ 0x5FF) ∨ (0x60B ≤ n ∧ n ≤ 0x7FF)) →
      decode w = some (.unassignedOpcode w))
    ∧ (∀ (w : W96) (s : State) (g n : Nat), s.gang.members = [.thr g n] → exec (.unassignedOpcode w) s = .next ((s.mark (wordCtl w)).trap (.thr g n) causeIllegal 0 false 0))

/-- After a trap of a thread: the thread stands at its PC and slot, stopped, its %trapcode holds the cause, slot, write mark and software code and its %trapaddr the address, its registers, predicates, stack pointer, routes, flags and depth as before; its group is halted; every other thread keeps its place and registers; every other group, and all of the state but the groups, is as before, except that the matrix operations its group has queued are marked abandoned. Where the rules leave a choice it takes the model's, log entry 25. -/
def Obligations.TrapEntry : Prop :=
    (∀ (s : State) (g n k : Nat) (a : W64) (w : Bool) (code : BitVec 16) (x y : Thread), s.thread? (.thr g n) = some x → y = (s.trap (.thr g n) k a w code).thread (.thr g n) →
      y.stopped = true ∧ y.park = .no ∧ y.trapcode = code ++ (0 : BitVec 3) ++ BitVec.ofBool w ++ x.slot ++ BitVec.ofNat 8 k ∧ y.trapaddr = a ∧
      y.pc = x.pc ∧ y.slot = x.slot ∧ y.v = x.v ∧ y.p = x.p ∧ y.sp = x.sp ∧ y.routes = x.routes ∧ y.prog = x.prog ∧ y.flags = x.flags ∧ y.depth = x.depth ∧ y.pend = x.pend ∧
      (((s.trap (.thr g n) k a w code).group? g).bind (·.halt)).isSome = true)
    ∧ (∀ (s : State) (g n k m : Nat) (a : W64) (w : Bool) (code : BitVec 16) (x y : Thread), m ≠ n → s.thread? (.thr g m) = some x → y = (s.trap (.thr g n) k a w code).thread (.thr g m) →
      y.pc = x.pc ∧ y.slot = x.slot ∧ y.v = x.v ∧ y.p = x.p ∧ y.sp = x.sp ∧ y.routes = x.routes ∧ y.prog = x.prog ∧ y.flags = x.flags ∧ y.depth = x.depth ∧ y.pend = x.pend ∧ y.park = x.park ∧ y.stopped = x.stopped)
    ∧ (∀ (s : State) (g n k h : Nat) (a : W64) (w : Bool) (code : BitVec 16), h ≠ g → (s.trap (.thr g n) k a w code).group? h = s.group? h ∧ (s.abandon g).restSame (s.trap (.thr g n) k a w code) ∧ (s.trap (.thr g n) k a w code).ops = s.ops)

/-- A result of latency L issued at cycle c is pending until cycle c + L. When results land at a cycle, a vector register holds the last due result written to it in program order, and keeps its value when none is due; the thread's place, stack pointer, routes and flags stay. A write to pt is discarded. -/
def Obligations.FixedResultsLand : Prop :=
    (∀ (s : State) (g n lat r : Nat) (y : W32) (x : Thread), s.thread? (.thr g n) = some x →
      ((s.later (.thr g n) lat (.v r y)).thread (.thr g n)).pend = x.pend ++ [⟨s.clk + lat, .v r y⟩] ∧ ((s.later (.thr g n) lat (.v r y)).thread (.thr g n)).v = x.v)
    ∧ (∀ (x : Thread) (clk due r : Nat) (y : W32) (before after : List Pend), x.pend = before ++ [⟨due, .v r y⟩] ++ after → due ≤ clk → r < x.v.length →
      (∀ e ∈ after, e.due ≤ clk → ∀ z, e.w ≠ .v r z) → (x.settle clk).v.getD r 0 = y)
    ∧ (∀ (x : Thread) (clk r : Nat), (∀ e ∈ x.pend, e.due ≤ clk → ∀ z, e.w ≠ .v r z) → (x.settle clk).v.getD r 0 = x.v.getD r 0)
    ∧ (∀ (x : Thread) (clk r : Nat), (∀ e ∈ x.pend, e.due ≤ clk → ∀ z, e.w ≠ .p r z) → (x.settle clk).pred r = x.pred r)
    ∧ (∀ (x : Thread) (clk : Nat), (x.settle clk).pc = x.pc ∧ (x.settle clk).slot = x.slot ∧ (x.settle clk).sp = x.sp ∧ (x.settle clk).routes = x.routes ∧ (x.settle clk).flags = x.flags ∧
      (x.settle clk).v.length = x.v.length ∧ (x.settle clk).pred 7 = true)

/-- In mid clause, for a gang of threads of groups that breaks no limit: any fixed-latency vector instruction goes to a next state in which every architectural register of every group is as before (results only pend, and land at their latency), and memory, cores, launches, translations, bank engines, remote calls, fabric, command processor and host block are as before. So do nop and, for one thread whose guard is true, the special functions, qswap, qbcast, getsr and yield. -/
def Obligations.RegisterFormsFrame : Prop :=
    (∀ (c : Ctl) (i : Instr) (lat : Nat) (s : State), fixedLatency i = some (c, lat) → gangOk c i s = true → midClause s = true → ∃ t, exec i s = .next t ∧ t.regs = s.regs ∧ s.restSame t)
    ∧ (∀ (c : Ctl) (s : State) (i : Instr), i = .nop c → gangOk c i s = true → midClause s = true → ∃ t, exec i s = .next t ∧ t.regs = s.regs ∧ s.restSame t)
    ∧ (∀ (c : Ctl) (ty : Ty) (d a : Operand) (k w : BitVec 2) (r : BitVec 9) (i : Instr) (s s1 : State) (t0 : TRef), i ∈ [Instr.lg2 c d a, .ex2 c d a, .rcp c d a, .rsq c d a, .sqrt c d a, .qswap c ty k d a, .qbcast c ty k d a, .getsr c ty w d r, .yield c] →
      Runs c i s t0 s1 → midClause s = true → ∃ t, exec i s = .next t ∧ t.regs = s.regs ∧ s.restSame t)

/-- For a memory in canonical form and bytes that stay within one home: after a write is performed, with or without the bypass policy and in whichever ways of the L2, each of its bytes reads as written and every other byte of memory reads as before; so for a bank-group engine's write straight to the DRAM, for the bytes of the DRAM. Bringing a clean sector into the L2, or writing one back and keeping it, changes no byte. -/
def Obligations.MemoryReadsBack : Prop :=
    (∀ (m : Memory) (pa a : Nat) (data : List Byte) (bypass : Bool) (ways : Nat), m.wf = true → pa % 2 ^ 48 + data.length ≤ 2 ^ 48 →
      (m.perform pa data bypass ways).visByte a = if pa ≤ a ∧ a < pa + data.length then data.getD (a - pa) 0 else m.visByte a)
    ∧ (∀ (m : Memory) (pa a : Nat) (data : List Byte), m.wf = true → (m.dramWrite pa data).dramByte a = if pa ≤ a ∧ a < pa + data.length then data.getD (a - pa) 0 else m.dramByte a)
    ∧ (∀ (m : Memory) (a b ways : Nat), (m.fill b ways).visByte a = m.visByte a)
    ∧ (∀ (m : Memory) (a b : Nat), m.wf = true → m.l2Ok = true → (m.writeback b true).visByte a = m.visByte a)

/-- In mid clause, for one thread outside quantum mode whose place passes and is not held: once the writes that an earlier fence.rel makes it wait for are performed, sts leaves every register and every byte of memory as they then are, and every scratchpad byte of every core but the bytes of its element or vector from its place on, which hold its data. A thread with no such fence before it performs no other write. Where the rules leave a choice it takes the model's, log entry 28. -/
def Obligations.ScratchpadStoresFrame : Prop :=
    (∀ (c : Ctl) (ty : Ty) (vec : BitVec 2) (a b : Operand) (off : BitVec 12) (s s1 : State) (t0 : TRef) (core o : Nat) (data : List Byte),
      Runs c (.sts c ty vec a b off) s t0 s1 →
      midClause s = true →
      s1.spadAcqHeld t0 = false →
      s1.relHeld t0 = false →
      ((s1.relFlush t0).ctx t0).quant = false →
      data = storeData ty (vecCount vec) (s1.dataWords t0 ty b (vecRegs ty vec)) →
      (s1.spadPlace t0 (s1.spadAddr t0 a off) (vecCount vec * tyWidth ty / 8)).map (·.2) = some (core, o) →
      (s1.relFlush t0).spadWriteHeld t0 core o (vecCount vec * tyWidth ty / 8) = false →
      s.formOk = true →
      ∃ t, exec (.sts c ty vec a b off) s = .next t ∧ t.regs = (s1.relFlush t0).regs ∧ (∀ x, t.mem.visByte x = (s1.relFlush t0).mem.visByte x) ∧
        ∀ k x, t.spadByte k x = if k = core ∧ o ≤ x ∧ x < o + data.length then data.getD (x - o) 0 else (s1.relFlush t0).spadByte k x)
    ∧ (∀ (c : Ctl) (ty : Ty) (vec : BitVec 2) (a b : Operand) (off : BitVec 12) (s s1 : State) (t0 : TRef) (core o : Nat) (data : List Byte),
      Runs c (.sts c ty vec a b off) s t0 s1 →
      midClause s = true →
      s1.spadAcqHeld t0 = false →
      s1.relHeld t0 = false →
      ((s1.relFlush t0).ctx t0).quant = false →
      data = storeData ty (vecCount vec) (s1.dataWords t0 ty b (vecRegs ty vec)) →
      (s1.spadPlace t0 (s1.spadAddr t0 a off) (vecCount vec * tyWidth ty / 8)).map (·.2) = some (core, o) →
      (s1.relFlush t0).spadWriteHeld t0 core o (vecCount vec * tyWidth ty / 8) = false →
      s.formOk = true →
      (s1.thread t0).rel = [] →
      ∃ t, exec (.sts c ty vec a b off) s = .next t ∧ t.regs = s.regs ∧ (∀ x, t.mem.visByte x = s.mem.visByte x) ∧
        ∀ k x, t.spadByte k x = if k = core ∧ o ≤ x ∧ x < o + data.length then data.getD (x - o) 0 else s.spadByte k x)

/-- In mid clause, for one thread outside quantum mode whose access passes: st without a release leaves every register as before and every byte of memory but the leaf entries of its own pages, whose A and D bits the walk sets; what any reader of any path finds past the L1 outside the stored ranges and those entries is as before; and every write added to the queue lies within the stored ranges. Where the rules leave a choice it takes the model's, log entry 27. -/
def Obligations.StoresFrame : Prop :=
    ∀ (c : Ctl) (ty : Ty) (scope : Scope) (vec : BitVec 2) (a b : Operand) (off : BitVec 12) (s s1 : State) (t0 : TRef),
      Runs c (.st c ty false scope vec a b off) s t0 s1 →
      midClause s = true →
      s1.acqOpenLoad t0 = false →
      (s1.ctx t0).quant = false →
      (s1.access t0 (s1.addr t0 a off) (vecCount vec * tyWidth ty / 8) true false [(s1.addr t0 a off).toNat]).isOk = true → s.formOk = true →
      ∃ t, exec (.st c ty false scope vec a b off) s = .next t ∧ t.regs = s.regs ∧
        (∀ x, (∀ p ∈ (s1.pages (s1.ctx t0).die (s1.ctx t0).root (s1.addr t0 a off).toNat (vecCount vec * tyWidth ty / 8) true [(s1.addr t0 a off).toNat]), x < p.2.2.leafPa ∨ p.2.2.leafPa + 8 ≤ x) → t.mem.visByte x = s.mem.visByte x) ∧
        (∀ x rd, (∀ p ∈ (s1.pages (s1.ctx t0).die (s1.ctx t0).root (s1.addr t0 a off).toNat (vecCount vec * tyWidth ty / 8) true [(s1.addr t0 a off).toNat]), x < p.2.2.leafPa ∨ p.2.2.leafPa + 8 ≤ x) → (∀ r ∈ (s1.access t0 (s1.addr t0 a off) (vecCount vec * tyWidth ty / 8) true false [(s1.addr t0 a off).toNat]).rs, x < r.pa ∨ r.pa + r.len ≤ x) → t.mem.read rd x 1 = s.mem.read rd x 1) ∧
        ∀ q ∈ t.mem.wq, (∃ q0 ∈ s.mem.wq, q0.pa = q.pa ∧ q0.data = q.data) ∨ ∃ r ∈ (s1.access t0 (s1.addr t0 a off) (vecCount vec * tyWidth ty / 8) true false [(s1.addr t0 a off).toNat]).rs, r.pa ≤ q.pa ∧ q.pa + q.data.length ≤ r.pa + r.len

/-- For mac, add, max, scale, scale of scl, zero, ldx, addx, nopc, sync and close on a run that may issue and whose checks pass, there is a next state in which memory, groups, cores, launches, operations, requests, translations, remote calls, fabric, command processor and host block are as before, and the row-ownership table and the signatures too. -/
def Obligations.BankFrame : Prop :=
    ∀ (bm : BitVec 4) (as : BitVec 2) (f : Bool) (x : BitVec 3) (i16 : BitVec 16) (i23 : BitVec 23) (i : Instr) (s : State) (r : BgRun), i ∈ [Instr.bgMac bm as f, .bgAdd bm as, .bgMax bm as, .bgScale bm as i16, .bgScaleScl x i16, .bgZero bm as, .bgLdx x i23, .bgAddx x i23, .bgNopc, .bgSync, .bgClose bm] → bgGo s r = true →
      ∃ t, exec i s = .next t ∧ s.bankOnly t ∧ t.bank.rot = s.bank.rot ∧ t.bank.bad = s.bank.bad

/-- With the module booted and a turn at the head of the list: a slice's turn makes its threads come to their slots, chooses a candidate, and runs exec of the instruction its word decodes to with that gang as issue context, then updates the starvation counts; the word is the one the candidate's thread fetches at its own place, its clause header with it. A word that fails an encoding check traps instead. An engine's turn runs the command its store holds at its address, an event's turn that event, and the turn of a callee the word it fetches. Where the rules leave a choice it takes the model's, log entries 8, 22. -/
def Obligations.StepRunsDecoded : Prop :=
    (∀ (s : State) (core slice : Nat) (rest : List Turn) (cd : Cand) (st : Option TRef) (i : Instr), s.bootMode ≠ 0 →
      s.turns = .gang core slice :: rest →
      (s.coreAt core).issued.contains slice = false →
      (({ s with tick := s.tick + 1, turns := rest } : State).slicePrepared core slice).choice core slice = some (cd, st) → decode cd.word = some i →
      step s = onNext ((({ s with tick := s.tick + 1, turns := rest } : State).slicePrepared core slice).starveAfter core slice ((({ s with tick := s.tick + 1, turns := rest } : State).slicePrepared core slice).gangOf cd st)) (exec i ((({ s with tick := s.tick + 1, turns := rest } : State).slicePrepared core slice).asGang core slice cd.hdr ((({ s with tick := s.tick + 1, turns := rest } : State).slicePrepared core slice).gangOf cd st))))
    ∧ (∀ (s : State) (core slice : Nat) (rest : List Turn) (cd : Cand) (st : Option TRef), s.bootMode ≠ 0 →
      s.turns = .gang core slice :: rest →
      (s.coreAt core).issued.contains slice = false →
      (({ s with tick := s.tick + 1, turns := rest } : State).slicePrepared core slice).choice core slice = some (cd, st) → decode cd.word = none →
      step s = .next ((({ s with tick := s.tick + 1, turns := rest } : State).slicePrepared core slice).starveAfter core slice ((({ s with tick := s.tick + 1, turns := rest } : State).slicePrepared core slice).gangOf cd st) (((({ s with tick := s.tick + 1, turns := rest } : State).slicePrepared core slice).asGang core slice cd.hdr ((({ s with tick := s.tick + 1, turns := rest } : State).slicePrepared core slice).gangOf cd st)).badWord cd.word)))
    ∧ (∀ (s : State) (core slice : Nat) (t : TRef) (cd : Cand), s.readyCand core slice t = some cd →
      s.standing t = some (cd.hdr, cd.word) ∧ cd.pc = (s.thread t).pc ∧ cd.slot = (s.thread t).slot ∧ cd.members = [t])
    ∧ (∀ (s : State) (rest : List Turn) (e : Nat) (i : Instr), s.bootMode ≠ 0 → s.turns = .engine e :: rest → (s.engine e).pc < 256 → decodeBg ((s.engine e).store.getD (s.engine e).pc 0) = some i →
      step s = exec i { s with tick := s.tick + 1, turns := rest, bank := { s.bank with cur := e } })
    ∧ (∀ (s : State) (rest : List Turn) (i : Instr), s.bootMode ≠ 0 → s.turns = .event i :: rest → isEvent i = true → step s = exec i { s with tick := s.tick + 1, turns := rest })
    ∧ (∀ (s : State) (rest : List Turn) (id : Nat) (h w : W96) (i : Instr), s.bootMode ≠ 0 →
      s.turns = .callee id :: rest →
      (({ s with tick := s.tick + 1, turns := rest } : State).callee? id).isSome = true →
      (({ s with tick := s.tick + 1, turns := rest } : State).thread (.callee id)).timeUp s.clk = true →
      (({ s with tick := s.tick + 1, turns := rest } : State).thread (.callee id)).slot ≠ 0 →
      (({ s with tick := s.tick + 1, turns := rest } : State).fetch (.callee id) (({ s with tick := s.tick + 1, turns := rest } : State).thread (.callee id)).pc).got = some h →
      (({ s with tick := s.tick + 1, turns := rest } : State).fetch (.callee id) (slotAddr (({ s with tick := s.tick + 1, turns := rest } : State).thread (.callee id)).pc (({ s with tick := s.tick + 1, turns := rest } : State).thread (.callee id)).slot)).got = some w →
      (({ s with tick := s.tick + 1, turns := rest } : State).fetch (.callee id) (slotAddr (({ s with tick := s.tick + 1, turns := rest } : State).thread (.callee id)).pc (({ s with tick := s.tick + 1, turns := rest } : State).thread (.callee id)).slot)).st.wouldIssue (({ s with tick := s.tick + 1, turns := rest } : State).ctx (.callee id)).core 0 (headerOf h) w [.callee id] = true →
      decode w = some i →
      step s = exec i ((({ s with tick := s.tick + 1, turns := rest } : State).fetch (.callee id) (slotAddr (({ s with tick := s.tick + 1, turns := rest } : State).thread (.callee id)).pc (({ s with tick := s.tick + 1, turns := rest } : State).thread (.callee id)).slot)).st.asGang (({ s with tick := s.tick + 1, turns := rest } : State).ctx (.callee id)).core 0 (headerOf h) [.callee id]))

/-- For a few words written field by field from the encoding tables, the decoder answers the instruction they stand for, and none for a clause header, a nonzero reserved bit, an operand of kind 111 or two immediates. -/
def Obligations.DecodedWords : Prop :=
    (decode 0x103A00A00B00C00D0001A240 = some (.ffma ⟨2, true, 2, false, true, false⟩ .f32 .rtz (.v 10) (.v 11) (.v 12) (.v 13)))
    ∧ (decode 0x0827005005842000003E8100 = some (.add ⟨7, false, 1, false, false, false⟩ .i32 true (.v 5) (.v 5) (.imm 0x3E8)))
    ∧ (decode 0x0011C00800C0010000007000 = some (.bra ⟨1, false, 0, false, false, false⟩ false 1 7))
    ∧ (decode 0x2067010002C000000E008000 = some (.ldblk ⟨7, false, 0, false, false, false⟩ false false 7 (.v 16) (.v 2) 0))
    ∧ (decode 0x3007A0800201000700000000 = some (.mma ⟨7, false, 0, false, false, false⟩ (.acc 8) (.v 2) (.v 16) (.v 7)))
    ∧ (decode 0x280700400200601000006000 = some (.atom ⟨7, false, 0, false, false, false⟩ .n32 .add .none .wave (.v 4) (.v 2) (.v 6) .none 16))
    ∧ (decode 0x500700A00200400602000000 = some (.rcall ⟨7, false, 0, false, false, false⟩ false false 0 1 (.v 10) (.v 2) (.v 4) (.v 6)))
    ∧ (decode 0x6007C00004C00C0000080000 = some (.spawn ⟨7, false, 0, false, false, false⟩ 1 (.v 4)))
    ∧ (decodeBg 0x07F80064 = some (.bgOpen 15 7 0x64))
    ∧ (decodeBg 0x2D800005 = some (.bgLdx 3 5))
    ∧ (decode 0x9004CAE00000000000000000 = none)
    ∧ (decode 0x4017C00004C0000000000001 = none)
    ∧ (decode 0x4017C00004C0E00000000000 = none)
    ∧ (decode 0x082700500880200003E8100 = none ∧ decode 0x0827005808842000003E8100 = none)
    ∧ (decodeBg 0x5A000000 = none)

/-- For every well-formed native instruction, with every operand at every value its encoding admits, decoding its encoding gives it back; and whatever instruction the decoder accepts from a 96-bit word is well formed and encodes to exactly that word, so that two words never stand for one instruction and no bit is dropped. -/
def Obligations.NativeRoundTrip : Prop :=
    (∀ (i : Instr) (w : W96), i.wf = true → encode i = some w → decode w = some i)
    ∧ (∀ (i : Instr) (w : W96), decode w = some i → i.wf = true ∧ encode i = some w)

/-- For every well-formed bank-group command, decoding its encoding gives it back; whatever command the decoder accepts from a 32-bit word encodes to exactly that word; and every word whose code is above the last command decodes to the step of an unassigned code. -/
def Obligations.CommandRoundTrip : Prop :=
    (∀ (i : Instr) (w : W32), i.wf = true → encodeBg i = some w → decodeBg w = some i)
    ∧ (∀ (i : Instr) (w : W32), decodeBg w = some i → i.wf = true ∧ encodeBg i = some w)
    ∧ (∀ w : W32, 0x17 ≤ (w.extractLsb' 26 6).toNat → decodeBg w = some (.unassignedCommandCode w))

/-- At reset every register of the scheduling, translation, remote-call and fabric blocks reads its Reset value: the queue, partition and ring registers 0, PA_BANK 0x800, PA_BUDGET 0x3840, RC_TIMEOUT 0x32, FAB_TIMEOUT 0x64, the fabric's identity, control, root, error and multicast registers 0; no group, launch, operation, request, call or callee is there, and the memory lists nothing and is in canonical form. (That reset memory reads zero where R451 zeroes it is the rule; the cycle count's start at 0 too.) Where the rules leave a choice it takes the model's, log entries 3, 115. -/
def Obligations.ResetState : Prop :=
    (State.reset.formOk = true ∧ State.reset.mem.wf = true ∧ State.reset.mem.dram = [] ∧ State.reset.groups = [] ∧ State.reset.launches = [] ∧ State.reset.ops = [] ∧ State.reset.reqs = [] ∧ State.reset.remote.calls = [] ∧ State.reset.remote.callees = [] ∧ State.reset.clk = 0)
    ∧ (∀ q : Fin 10, State.reset.regRead (.cpQbase q) = 0 ∧ State.reset.regRead (.cpQsize q) = 0 ∧ State.reset.regRead (.cpHead q) = 0 ∧ State.reset.regRead (.cpQroot q) = 0)
    ∧ (∀ n : Fin 16, State.reset.regRead (.partRect n) = 0 ∧ State.reset.regRead (.partRoot n) = 0 ∧ State.reset.regRead (.partHandler n) = 0 ∧ State.reset.regRead (.partArea n) = 0 ∧ State.reset.regRead (.partSave n) = 0 ∧
      State.reset.regRead (.dlLimit n) = 0 ∧ State.reset.regRead (.paShares n) = 0 ∧ State.reset.regRead (.partStat n) = 0)
    ∧ (State.reset.regRead .erBase = 0 ∧ State.reset.regRead .erTail = 0 ∧ State.reset.regRead .erHead = 0 ∧ State.reset.regRead .paBank = 0x800 ∧ State.reset.regRead .paBudget = 0x3840 ∧ State.reset.regRead .paTableid = 0 ∧
      State.reset.regRead .prBase = 0 ∧ State.reset.regRead .prTail = 0 ∧ State.reset.regRead .prHead = 0 ∧ State.reset.regRead .rcTimeout = 0x32 ∧ State.reset.regRead .rcLost = 0 ∧
      State.reset.regRead .fabId = 0 ∧ State.reset.regRead .fabCtl = 0 ∧ State.reset.regRead .fabRoot = 0 ∧ State.reset.regRead .fabTimeout = 0x64 ∧ State.reset.regRead .fabErr = 0 ∧ State.reset.regRead .bar2Base = 0 ∧ State.reset.regRead .dbgCtl = 0)

/-- From every state, reached by a run or not, whose memories are in form (host memory and DRAM by strictly rising addresses, no DRAM byte listed that an unlisted address reads as, every L2 sector 32 aligned bytes, every scratchpad's bytes by rising address), any step that answers a next state leaves them in form: a boot, a gang's instruction, an engine's command, a callee's instruction, any event, the turn of a cycle. Where the rules leave a choice it takes the model's, log entry 5. -/
def Obligations.MemoryFormKept : Prop :=
    ∀ s t : State, s.formOk = true → step s = .next t → t.formOk = true
end

