-- ==== Sys2Proof/Laws/Encoding.lean ====
section
/-! SUPPORT. What each field of a packed word reads as, and reading back an operand field. -/

namespace Sys2Proof

variable (c : Ctl) (opc : BitVec 11) (d a b : BitVec 12) (ext : BitVec 32)

theorem packWord_opc : (packWord c opc d a b ext).extractLsb' 84 11 = opc := by
  ext i hi
  simp only [packWord, BitVec.getElem_extractLsb', BitVec.getLsbD_append]
  repeat rw [if_neg (by omega)]
  rw [if_pos (by omega), ← BitVec.getLsbD_eq_getElem]
  congr 1
  omega

theorem packWord_gp : (packWord c opc d a b ext).extractLsb' 80 3 = c.gp := by
  ext i hi
  simp only [packWord, BitVec.getElem_extractLsb', BitVec.getLsbD_append]
  repeat rw [if_neg (by omega)]
  rw [if_pos (by omega), ← BitVec.getLsbD_eq_getElem]
  congr 1
  omega

theorem packWord_dst : (packWord c opc d a b ext).extractLsb' 68 12 = d := by
  ext i hi
  simp only [packWord, BitVec.getElem_extractLsb', BitVec.getLsbD_append]
  repeat rw [if_neg (by omega)]
  rw [if_pos (by omega), ← BitVec.getLsbD_eq_getElem]
  congr 1
  omega

theorem packWord_a : (packWord c opc d a b ext).extractLsb' 56 12 = a := by
  ext i hi
  simp only [packWord, BitVec.getElem_extractLsb', BitVec.getLsbD_append]
  repeat rw [if_neg (by omega)]
  rw [if_pos (by omega), ← BitVec.getLsbD_eq_getElem]
  congr 1
  omega

theorem packWord_b : (packWord c opc d a b ext).extractLsb' 44 12 = b := by
  ext i hi
  simp only [packWord, BitVec.getElem_extractLsb', BitVec.getLsbD_append]
  repeat rw [if_neg (by omega)]
  rw [if_pos (by omega), ← BitVec.getLsbD_eq_getElem]
  congr 1
  omega

theorem packWord_ext : (packWord c opc d a b ext).extractLsb' 12 32 = ext := by
  ext i hi
  simp only [packWord, BitVec.getElem_extractLsb', BitVec.getLsbD_append]
  repeat rw [if_neg (by omega)]
  rw [if_pos (by omega), ← BitVec.getLsbD_eq_getElem]
  congr 1
  omega

theorem packWord_stall : (packWord c opc d a b ext).extractLsb' 8 4 = c.stall := by
  ext i hi
  simp only [packWord, BitVec.getElem_extractLsb', BitVec.getLsbD_append]
  repeat rw [if_neg (by omega)]
  rw [if_pos (by omega), ← BitVec.getLsbD_eq_getElem]
  congr 1
  omega

theorem packWord_gn : (packWord c opc d a b ext).getLsbD 83 = c.gn := by
  simp only [packWord, BitVec.getLsbD_append, BitVec.getLsbD_ofBool]
  simp

theorem packWord_fs : (packWord c opc d a b ext).getLsbD 7 = c.fs := by
  simp only [packWord, BitVec.getLsbD_append, BitVec.getLsbD_ofBool]
  simp

theorem packWord_ra : (packWord c opc d a b ext).getLsbD 6 = c.ra := by
  simp only [packWord, BitVec.getLsbD_append, BitVec.getLsbD_ofBool]
  simp

theorem packWord_rb : (packWord c opc d a b ext).getLsbD 5 = c.rb := by
  simp only [packWord, BitVec.getLsbD_append, BitVec.getLsbD_ofBool]
  simp

theorem packWord_msb : (packWord c opc d a b ext).msb = false := by
  rw [BitVec.msb_eq_getLsbD_last]
  simp only [packWord, BitVec.getLsbD_append]
  repeat rw [if_neg (by omega)]
  simp

theorem wordCtl_packWord : wordCtl (packWord c opc d a b ext) = c := by
  simp only [wordCtl, packWord_gp, packWord_gn, packWord_stall, packWord_fs, packWord_ra, packWord_rb]

theorem wordOpc_packWord : wordOpc (packWord c opc d a b ext) = opc.toNat := by
  simp only [wordOpc, packWord_opc]

/-- A field's kind and number apart. -/
theorem readOp_append (k : BitVec 3) (n : BitVec 9) (x : BitVec 32) : readOp (k ++ n) x =
    match k.toNat with
    | 0 => if n.toNat < 256 then some (.v (n.extractLsb' 0 8)) else none
    | 1 => if n.toNat < 64 then some (.k (n.extractLsb' 0 6)) else none
    | 2 => if n.toNat < 8 then some (.p (n.extractLsb' 0 3)) else none
    | 3 => some (.sr n)
    | 4 => some (.imm x)
    | 5 => if n.toNat < 256 then some (.acc (n.extractLsb' 0 8)) else none
    | 6 => if n = 0 then some .none else none
    | _ => none := by
  have hk : (k ++ n).extractLsb' 9 3 = k := by
    ext i hi
    simp only [BitVec.getElem_extractLsb', BitVec.getLsbD_append]
    rw [if_neg (by omega), ← BitVec.getLsbD_eq_getElem]
    congr 1; omega
  have hn : (k ++ n).extractLsb' 0 9 = n := by
    ext i hi
    simp only [BitVec.getElem_extractLsb', BitVec.getLsbD_append]
    rw [if_pos (by omega), ← BitVec.getLsbD_eq_getElem]
    congr 1; omega
  simp only [readOp, hk, hn] <;> rfl

theorem zeroExtend_back {w : Nat} (n : BitVec w) (h : w ≤ 9) : (n.zeroExtend 9).extractLsb' 0 w = n := by
  ext i hi
  simp only [BitVec.getElem_extractLsb', BitVec.zeroExtend, BitVec.getLsbD_setWidth, Nat.zero_add]
  simp only [show i < 9 by omega, decide_true, Bool.true_and, BitVec.getLsbD_eq_getElem hi]

/-- An operand's field reads back as the operand; an immediate as the word's immediate. -/
theorem readOp_opField (m : BitVec 20) (o : Operand) (x : BitVec 32) :
    readOp (opField m o) x = some (match o with | .imm _ => .imm x | o => o) := by
  cases o with
  | v n => simp [opField, readOp_append, zeroExtend_back]; omega
  | k n => simp [opField, readOp_append, zeroExtend_back]; omega
  | p n => simp [opField, readOp_append, zeroExtend_back]; omega
  | sr n => simp [opField, readOp_append]
  | imm y => simp [opField, readOp_append]
  | acc n => simp [opField, readOp_append, zeroExtend_back]; omega
  | none =>
    rw [opField, readOp_append]
    rfl

end Sys2Proof
end

