-- ==== Sys2Proof/Laws/State.lean ====
section
/-! SUPPORT. What each named update of the state leaves alone: one lemma per field per update, so that no later
proof unfolds a record update.  A thread's update changes its group, or its callee. -/

namespace Sys2Proof.Machine

/-! `State.setCore`. -/

@[simp] theorem State.setCore_clk (s : State) (k : Core) : (s.setCore k).clk = s.clk := rfl
@[simp] theorem State.setCore_gtsc0 (s : State) (k : Core) : (s.setCore k).gtsc0 = s.gtsc0 := rfl
@[simp] theorem State.setCore_tick (s : State) (k : Core) : (s.setCore k).tick = s.tick := rfl
@[simp] theorem State.setCore_nextId (s : State) (k : Core) : (s.setCore k).nextId = s.nextId := rfl
@[simp] theorem State.setCore_stamp (s : State) (k : Core) : (s.setCore k).stamp = s.stamp := rfl
@[simp] theorem State.setCore_gang (s : State) (k : Core) : (s.setCore k).gang = s.gang := rfl
@[simp] theorem State.setCore_turns (s : State) (k : Core) : (s.setCore k).turns = s.turns := rfl
@[simp] theorem State.setCore_mem (s : State) (k : Core) : (s.setCore k).mem = s.mem := rfl
@[simp] theorem State.setCore_launches (s : State) (k : Core) : (s.setCore k).launches = s.launches := rfl
@[simp] theorem State.setCore_groups (s : State) (k : Core) : (s.setCore k).groups = s.groups := rfl
@[simp] theorem State.setCore_ops (s : State) (k : Core) : (s.setCore k).ops = s.ops := rfl
@[simp] theorem State.setCore_reqs (s : State) (k : Core) : (s.setCore k).reqs = s.reqs := rfl
@[simp] theorem State.setCore_incs (s : State) (k : Core) : (s.setCore k).incs = s.incs := rfl
@[simp] theorem State.setCore_xlat (s : State) (k : Core) : (s.setCore k).xlat = s.xlat := rfl
@[simp] theorem State.setCore_bank (s : State) (k : Core) : (s.setCore k).bank = s.bank := rfl
@[simp] theorem State.setCore_remote (s : State) (k : Core) : (s.setCore k).remote = s.remote := rfl
@[simp] theorem State.setCore_fab (s : State) (k : Core) : (s.setCore k).fab = s.fab := rfl
@[simp] theorem State.setCore_cp (s : State) (k : Core) : (s.setCore k).cp = s.cp := rfl
@[simp] theorem State.setCore_boot (s : State) (k : Core) : (s.setCore k).boot = s.boot := rfl

/-! `State.updCore`. -/

@[simp] theorem State.updCore_clk (s : State) (c : Nat) (f : Core → Core) : (s.updCore c f).clk = s.clk := rfl
@[simp] theorem State.updCore_gtsc0 (s : State) (c : Nat) (f : Core → Core) : (s.updCore c f).gtsc0 = s.gtsc0 := rfl
@[simp] theorem State.updCore_tick (s : State) (c : Nat) (f : Core → Core) : (s.updCore c f).tick = s.tick := rfl
@[simp] theorem State.updCore_nextId (s : State) (c : Nat) (f : Core → Core) : (s.updCore c f).nextId = s.nextId := rfl
@[simp] theorem State.updCore_stamp (s : State) (c : Nat) (f : Core → Core) : (s.updCore c f).stamp = s.stamp := rfl
@[simp] theorem State.updCore_gang (s : State) (c : Nat) (f : Core → Core) : (s.updCore c f).gang = s.gang := rfl
@[simp] theorem State.updCore_turns (s : State) (c : Nat) (f : Core → Core) : (s.updCore c f).turns = s.turns := rfl
@[simp] theorem State.updCore_mem (s : State) (c : Nat) (f : Core → Core) : (s.updCore c f).mem = s.mem := rfl
@[simp] theorem State.updCore_launches (s : State) (c : Nat) (f : Core → Core) : (s.updCore c f).launches = s.launches := rfl
@[simp] theorem State.updCore_groups (s : State) (c : Nat) (f : Core → Core) : (s.updCore c f).groups = s.groups := rfl
@[simp] theorem State.updCore_ops (s : State) (c : Nat) (f : Core → Core) : (s.updCore c f).ops = s.ops := rfl
@[simp] theorem State.updCore_reqs (s : State) (c : Nat) (f : Core → Core) : (s.updCore c f).reqs = s.reqs := rfl
@[simp] theorem State.updCore_incs (s : State) (c : Nat) (f : Core → Core) : (s.updCore c f).incs = s.incs := rfl
@[simp] theorem State.updCore_xlat (s : State) (c : Nat) (f : Core → Core) : (s.updCore c f).xlat = s.xlat := rfl
@[simp] theorem State.updCore_bank (s : State) (c : Nat) (f : Core → Core) : (s.updCore c f).bank = s.bank := rfl
@[simp] theorem State.updCore_remote (s : State) (c : Nat) (f : Core → Core) : (s.updCore c f).remote = s.remote := rfl
@[simp] theorem State.updCore_fab (s : State) (c : Nat) (f : Core → Core) : (s.updCore c f).fab = s.fab := rfl
@[simp] theorem State.updCore_cp (s : State) (c : Nat) (f : Core → Core) : (s.updCore c f).cp = s.cp := rfl
@[simp] theorem State.updCore_boot (s : State) (c : Nat) (f : Core → Core) : (s.updCore c f).boot = s.boot := rfl

/-! `State.updGroup`. -/

@[simp] theorem State.updGroup_clk (s : State) (g : Nat) (f : Group → Group) : (s.updGroup g f).clk = s.clk := rfl
@[simp] theorem State.updGroup_gtsc0 (s : State) (g : Nat) (f : Group → Group) : (s.updGroup g f).gtsc0 = s.gtsc0 := rfl
@[simp] theorem State.updGroup_tick (s : State) (g : Nat) (f : Group → Group) : (s.updGroup g f).tick = s.tick := rfl
@[simp] theorem State.updGroup_nextId (s : State) (g : Nat) (f : Group → Group) : (s.updGroup g f).nextId = s.nextId := rfl
@[simp] theorem State.updGroup_stamp (s : State) (g : Nat) (f : Group → Group) : (s.updGroup g f).stamp = s.stamp := rfl
@[simp] theorem State.updGroup_gang (s : State) (g : Nat) (f : Group → Group) : (s.updGroup g f).gang = s.gang := rfl
@[simp] theorem State.updGroup_turns (s : State) (g : Nat) (f : Group → Group) : (s.updGroup g f).turns = s.turns := rfl
@[simp] theorem State.updGroup_mem (s : State) (g : Nat) (f : Group → Group) : (s.updGroup g f).mem = s.mem := rfl
@[simp] theorem State.updGroup_cores (s : State) (g : Nat) (f : Group → Group) : (s.updGroup g f).cores = s.cores := rfl
@[simp] theorem State.updGroup_launches (s : State) (g : Nat) (f : Group → Group) : (s.updGroup g f).launches = s.launches := rfl
@[simp] theorem State.updGroup_ops (s : State) (g : Nat) (f : Group → Group) : (s.updGroup g f).ops = s.ops := rfl
@[simp] theorem State.updGroup_reqs (s : State) (g : Nat) (f : Group → Group) : (s.updGroup g f).reqs = s.reqs := rfl
@[simp] theorem State.updGroup_incs (s : State) (g : Nat) (f : Group → Group) : (s.updGroup g f).incs = s.incs := rfl
@[simp] theorem State.updGroup_xlat (s : State) (g : Nat) (f : Group → Group) : (s.updGroup g f).xlat = s.xlat := rfl
@[simp] theorem State.updGroup_bank (s : State) (g : Nat) (f : Group → Group) : (s.updGroup g f).bank = s.bank := rfl
@[simp] theorem State.updGroup_remote (s : State) (g : Nat) (f : Group → Group) : (s.updGroup g f).remote = s.remote := rfl
@[simp] theorem State.updGroup_fab (s : State) (g : Nat) (f : Group → Group) : (s.updGroup g f).fab = s.fab := rfl
@[simp] theorem State.updGroup_cp (s : State) (g : Nat) (f : Group → Group) : (s.updGroup g f).cp = s.cp := rfl
@[simp] theorem State.updGroup_boot (s : State) (g : Nat) (f : Group → Group) : (s.updGroup g f).boot = s.boot := rfl

/-! `State.updWave`. -/

@[simp] theorem State.updWave_clk (s : State) (g w : Nat) (f : Wave → Wave) : (s.updWave g w f).clk = s.clk := rfl
@[simp] theorem State.updWave_gtsc0 (s : State) (g w : Nat) (f : Wave → Wave) : (s.updWave g w f).gtsc0 = s.gtsc0 := rfl
@[simp] theorem State.updWave_tick (s : State) (g w : Nat) (f : Wave → Wave) : (s.updWave g w f).tick = s.tick := rfl
@[simp] theorem State.updWave_nextId (s : State) (g w : Nat) (f : Wave → Wave) : (s.updWave g w f).nextId = s.nextId := rfl
@[simp] theorem State.updWave_stamp (s : State) (g w : Nat) (f : Wave → Wave) : (s.updWave g w f).stamp = s.stamp := rfl
@[simp] theorem State.updWave_gang (s : State) (g w : Nat) (f : Wave → Wave) : (s.updWave g w f).gang = s.gang := rfl
@[simp] theorem State.updWave_turns (s : State) (g w : Nat) (f : Wave → Wave) : (s.updWave g w f).turns = s.turns := rfl
@[simp] theorem State.updWave_mem (s : State) (g w : Nat) (f : Wave → Wave) : (s.updWave g w f).mem = s.mem := rfl
@[simp] theorem State.updWave_cores (s : State) (g w : Nat) (f : Wave → Wave) : (s.updWave g w f).cores = s.cores := rfl
@[simp] theorem State.updWave_launches (s : State) (g w : Nat) (f : Wave → Wave) : (s.updWave g w f).launches = s.launches := rfl
@[simp] theorem State.updWave_ops (s : State) (g w : Nat) (f : Wave → Wave) : (s.updWave g w f).ops = s.ops := rfl
@[simp] theorem State.updWave_reqs (s : State) (g w : Nat) (f : Wave → Wave) : (s.updWave g w f).reqs = s.reqs := rfl
@[simp] theorem State.updWave_incs (s : State) (g w : Nat) (f : Wave → Wave) : (s.updWave g w f).incs = s.incs := rfl
@[simp] theorem State.updWave_xlat (s : State) (g w : Nat) (f : Wave → Wave) : (s.updWave g w f).xlat = s.xlat := rfl
@[simp] theorem State.updWave_bank (s : State) (g w : Nat) (f : Wave → Wave) : (s.updWave g w f).bank = s.bank := rfl
@[simp] theorem State.updWave_remote (s : State) (g w : Nat) (f : Wave → Wave) : (s.updWave g w f).remote = s.remote := rfl
@[simp] theorem State.updWave_fab (s : State) (g w : Nat) (f : Wave → Wave) : (s.updWave g w f).fab = s.fab := rfl
@[simp] theorem State.updWave_cp (s : State) (g w : Nat) (f : Wave → Wave) : (s.updWave g w f).cp = s.cp := rfl
@[simp] theorem State.updWave_boot (s : State) (g w : Nat) (f : Wave → Wave) : (s.updWave g w f).boot = s.boot := rfl

/-! `State.updLaunch`. -/

@[simp] theorem State.updLaunch_clk (s : State) (l : Nat) (f : Launch → Launch) : (s.updLaunch l f).clk = s.clk := rfl
@[simp] theorem State.updLaunch_gtsc0 (s : State) (l : Nat) (f : Launch → Launch) : (s.updLaunch l f).gtsc0 = s.gtsc0 := rfl
@[simp] theorem State.updLaunch_tick (s : State) (l : Nat) (f : Launch → Launch) : (s.updLaunch l f).tick = s.tick := rfl
@[simp] theorem State.updLaunch_nextId (s : State) (l : Nat) (f : Launch → Launch) : (s.updLaunch l f).nextId = s.nextId := rfl
@[simp] theorem State.updLaunch_stamp (s : State) (l : Nat) (f : Launch → Launch) : (s.updLaunch l f).stamp = s.stamp := rfl
@[simp] theorem State.updLaunch_gang (s : State) (l : Nat) (f : Launch → Launch) : (s.updLaunch l f).gang = s.gang := rfl
@[simp] theorem State.updLaunch_turns (s : State) (l : Nat) (f : Launch → Launch) : (s.updLaunch l f).turns = s.turns := rfl
@[simp] theorem State.updLaunch_mem (s : State) (l : Nat) (f : Launch → Launch) : (s.updLaunch l f).mem = s.mem := rfl
@[simp] theorem State.updLaunch_cores (s : State) (l : Nat) (f : Launch → Launch) : (s.updLaunch l f).cores = s.cores := rfl
@[simp] theorem State.updLaunch_groups (s : State) (l : Nat) (f : Launch → Launch) : (s.updLaunch l f).groups = s.groups := rfl
@[simp] theorem State.updLaunch_ops (s : State) (l : Nat) (f : Launch → Launch) : (s.updLaunch l f).ops = s.ops := rfl
@[simp] theorem State.updLaunch_reqs (s : State) (l : Nat) (f : Launch → Launch) : (s.updLaunch l f).reqs = s.reqs := rfl
@[simp] theorem State.updLaunch_incs (s : State) (l : Nat) (f : Launch → Launch) : (s.updLaunch l f).incs = s.incs := rfl
@[simp] theorem State.updLaunch_xlat (s : State) (l : Nat) (f : Launch → Launch) : (s.updLaunch l f).xlat = s.xlat := rfl
@[simp] theorem State.updLaunch_bank (s : State) (l : Nat) (f : Launch → Launch) : (s.updLaunch l f).bank = s.bank := rfl
@[simp] theorem State.updLaunch_remote (s : State) (l : Nat) (f : Launch → Launch) : (s.updLaunch l f).remote = s.remote := rfl
@[simp] theorem State.updLaunch_fab (s : State) (l : Nat) (f : Launch → Launch) : (s.updLaunch l f).fab = s.fab := rfl
@[simp] theorem State.updLaunch_cp (s : State) (l : Nat) (f : Launch → Launch) : (s.updLaunch l f).cp = s.cp := rfl
@[simp] theorem State.updLaunch_boot (s : State) (l : Nat) (f : Launch → Launch) : (s.updLaunch l f).boot = s.boot := rfl

/-! `State.updOp`. -/

@[simp] theorem State.updOp_clk (s : State) (o : Nat) (f : Op → Op) : (s.updOp o f).clk = s.clk := rfl
@[simp] theorem State.updOp_gtsc0 (s : State) (o : Nat) (f : Op → Op) : (s.updOp o f).gtsc0 = s.gtsc0 := rfl
@[simp] theorem State.updOp_tick (s : State) (o : Nat) (f : Op → Op) : (s.updOp o f).tick = s.tick := rfl
@[simp] theorem State.updOp_nextId (s : State) (o : Nat) (f : Op → Op) : (s.updOp o f).nextId = s.nextId := rfl
@[simp] theorem State.updOp_stamp (s : State) (o : Nat) (f : Op → Op) : (s.updOp o f).stamp = s.stamp := rfl
@[simp] theorem State.updOp_gang (s : State) (o : Nat) (f : Op → Op) : (s.updOp o f).gang = s.gang := rfl
@[simp] theorem State.updOp_turns (s : State) (o : Nat) (f : Op → Op) : (s.updOp o f).turns = s.turns := rfl
@[simp] theorem State.updOp_mem (s : State) (o : Nat) (f : Op → Op) : (s.updOp o f).mem = s.mem := rfl
@[simp] theorem State.updOp_cores (s : State) (o : Nat) (f : Op → Op) : (s.updOp o f).cores = s.cores := rfl
@[simp] theorem State.updOp_launches (s : State) (o : Nat) (f : Op → Op) : (s.updOp o f).launches = s.launches := rfl
@[simp] theorem State.updOp_groups (s : State) (o : Nat) (f : Op → Op) : (s.updOp o f).groups = s.groups := rfl
@[simp] theorem State.updOp_reqs (s : State) (o : Nat) (f : Op → Op) : (s.updOp o f).reqs = s.reqs := rfl
@[simp] theorem State.updOp_incs (s : State) (o : Nat) (f : Op → Op) : (s.updOp o f).incs = s.incs := rfl
@[simp] theorem State.updOp_xlat (s : State) (o : Nat) (f : Op → Op) : (s.updOp o f).xlat = s.xlat := rfl
@[simp] theorem State.updOp_bank (s : State) (o : Nat) (f : Op → Op) : (s.updOp o f).bank = s.bank := rfl
@[simp] theorem State.updOp_remote (s : State) (o : Nat) (f : Op → Op) : (s.updOp o f).remote = s.remote := rfl
@[simp] theorem State.updOp_fab (s : State) (o : Nat) (f : Op → Op) : (s.updOp o f).fab = s.fab := rfl
@[simp] theorem State.updOp_cp (s : State) (o : Nat) (f : Op → Op) : (s.updOp o f).cp = s.cp := rfl
@[simp] theorem State.updOp_boot (s : State) (o : Nat) (f : Op → Op) : (s.updOp o f).boot = s.boot := rfl

/-! `State.dropOp`. -/

@[simp] theorem State.dropOp_clk (s : State) (o : Nat) : (s.dropOp o).clk = s.clk := rfl
@[simp] theorem State.dropOp_gtsc0 (s : State) (o : Nat) : (s.dropOp o).gtsc0 = s.gtsc0 := rfl
@[simp] theorem State.dropOp_tick (s : State) (o : Nat) : (s.dropOp o).tick = s.tick := rfl
@[simp] theorem State.dropOp_nextId (s : State) (o : Nat) : (s.dropOp o).nextId = s.nextId := rfl
@[simp] theorem State.dropOp_stamp (s : State) (o : Nat) : (s.dropOp o).stamp = s.stamp := rfl
@[simp] theorem State.dropOp_gang (s : State) (o : Nat) : (s.dropOp o).gang = s.gang := rfl
@[simp] theorem State.dropOp_turns (s : State) (o : Nat) : (s.dropOp o).turns = s.turns := rfl
@[simp] theorem State.dropOp_mem (s : State) (o : Nat) : (s.dropOp o).mem = s.mem := rfl
@[simp] theorem State.dropOp_cores (s : State) (o : Nat) : (s.dropOp o).cores = s.cores := rfl
@[simp] theorem State.dropOp_launches (s : State) (o : Nat) : (s.dropOp o).launches = s.launches := rfl
@[simp] theorem State.dropOp_groups (s : State) (o : Nat) : (s.dropOp o).groups = s.groups := rfl
@[simp] theorem State.dropOp_reqs (s : State) (o : Nat) : (s.dropOp o).reqs = s.reqs := rfl
@[simp] theorem State.dropOp_incs (s : State) (o : Nat) : (s.dropOp o).incs = s.incs := rfl
@[simp] theorem State.dropOp_xlat (s : State) (o : Nat) : (s.dropOp o).xlat = s.xlat := rfl
@[simp] theorem State.dropOp_bank (s : State) (o : Nat) : (s.dropOp o).bank = s.bank := rfl
@[simp] theorem State.dropOp_remote (s : State) (o : Nat) : (s.dropOp o).remote = s.remote := rfl
@[simp] theorem State.dropOp_fab (s : State) (o : Nat) : (s.dropOp o).fab = s.fab := rfl
@[simp] theorem State.dropOp_cp (s : State) (o : Nat) : (s.dropOp o).cp = s.cp := rfl
@[simp] theorem State.dropOp_boot (s : State) (o : Nat) : (s.dropOp o).boot = s.boot := rfl

/-! `State.setKind`. -/

@[simp] theorem State.setKind_clk (s : State) (o : Nat) (k : OpKind) : (s.setKind o k).clk = s.clk := rfl
@[simp] theorem State.setKind_gtsc0 (s : State) (o : Nat) (k : OpKind) : (s.setKind o k).gtsc0 = s.gtsc0 := rfl
@[simp] theorem State.setKind_tick (s : State) (o : Nat) (k : OpKind) : (s.setKind o k).tick = s.tick := rfl
@[simp] theorem State.setKind_nextId (s : State) (o : Nat) (k : OpKind) : (s.setKind o k).nextId = s.nextId := rfl
@[simp] theorem State.setKind_stamp (s : State) (o : Nat) (k : OpKind) : (s.setKind o k).stamp = s.stamp := rfl
@[simp] theorem State.setKind_gang (s : State) (o : Nat) (k : OpKind) : (s.setKind o k).gang = s.gang := rfl
@[simp] theorem State.setKind_turns (s : State) (o : Nat) (k : OpKind) : (s.setKind o k).turns = s.turns := rfl
@[simp] theorem State.setKind_mem (s : State) (o : Nat) (k : OpKind) : (s.setKind o k).mem = s.mem := rfl
@[simp] theorem State.setKind_cores (s : State) (o : Nat) (k : OpKind) : (s.setKind o k).cores = s.cores := rfl
@[simp] theorem State.setKind_launches (s : State) (o : Nat) (k : OpKind) : (s.setKind o k).launches = s.launches := rfl
@[simp] theorem State.setKind_groups (s : State) (o : Nat) (k : OpKind) : (s.setKind o k).groups = s.groups := rfl
@[simp] theorem State.setKind_reqs (s : State) (o : Nat) (k : OpKind) : (s.setKind o k).reqs = s.reqs := rfl
@[simp] theorem State.setKind_incs (s : State) (o : Nat) (k : OpKind) : (s.setKind o k).incs = s.incs := rfl
@[simp] theorem State.setKind_xlat (s : State) (o : Nat) (k : OpKind) : (s.setKind o k).xlat = s.xlat := rfl
@[simp] theorem State.setKind_bank (s : State) (o : Nat) (k : OpKind) : (s.setKind o k).bank = s.bank := rfl
@[simp] theorem State.setKind_remote (s : State) (o : Nat) (k : OpKind) : (s.setKind o k).remote = s.remote := rfl
@[simp] theorem State.setKind_fab (s : State) (o : Nat) (k : OpKind) : (s.setKind o k).fab = s.fab := rfl
@[simp] theorem State.setKind_cp (s : State) (o : Nat) (k : OpKind) : (s.setKind o k).cp = s.cp := rfl
@[simp] theorem State.setKind_boot (s : State) (o : Nat) (k : OpKind) : (s.setKind o k).boot = s.boot := rfl

/-! `State.updReq`. -/

@[simp] theorem State.updReq_clk (s : State) (r : Nat) (f : Req → Req) : (s.updReq r f).clk = s.clk := rfl
@[simp] theorem State.updReq_gtsc0 (s : State) (r : Nat) (f : Req → Req) : (s.updReq r f).gtsc0 = s.gtsc0 := rfl
@[simp] theorem State.updReq_tick (s : State) (r : Nat) (f : Req → Req) : (s.updReq r f).tick = s.tick := rfl
@[simp] theorem State.updReq_nextId (s : State) (r : Nat) (f : Req → Req) : (s.updReq r f).nextId = s.nextId := rfl
@[simp] theorem State.updReq_stamp (s : State) (r : Nat) (f : Req → Req) : (s.updReq r f).stamp = s.stamp := rfl
@[simp] theorem State.updReq_gang (s : State) (r : Nat) (f : Req → Req) : (s.updReq r f).gang = s.gang := rfl
@[simp] theorem State.updReq_turns (s : State) (r : Nat) (f : Req → Req) : (s.updReq r f).turns = s.turns := rfl
@[simp] theorem State.updReq_mem (s : State) (r : Nat) (f : Req → Req) : (s.updReq r f).mem = s.mem := rfl
@[simp] theorem State.updReq_cores (s : State) (r : Nat) (f : Req → Req) : (s.updReq r f).cores = s.cores := rfl
@[simp] theorem State.updReq_launches (s : State) (r : Nat) (f : Req → Req) : (s.updReq r f).launches = s.launches := rfl
@[simp] theorem State.updReq_groups (s : State) (r : Nat) (f : Req → Req) : (s.updReq r f).groups = s.groups := rfl
@[simp] theorem State.updReq_ops (s : State) (r : Nat) (f : Req → Req) : (s.updReq r f).ops = s.ops := rfl
@[simp] theorem State.updReq_incs (s : State) (r : Nat) (f : Req → Req) : (s.updReq r f).incs = s.incs := rfl
@[simp] theorem State.updReq_xlat (s : State) (r : Nat) (f : Req → Req) : (s.updReq r f).xlat = s.xlat := rfl
@[simp] theorem State.updReq_bank (s : State) (r : Nat) (f : Req → Req) : (s.updReq r f).bank = s.bank := rfl
@[simp] theorem State.updReq_remote (s : State) (r : Nat) (f : Req → Req) : (s.updReq r f).remote = s.remote := rfl
@[simp] theorem State.updReq_fab (s : State) (r : Nat) (f : Req → Req) : (s.updReq r f).fab = s.fab := rfl
@[simp] theorem State.updReq_cp (s : State) (r : Nat) (f : Req → Req) : (s.updReq r f).cp = s.cp := rfl
@[simp] theorem State.updReq_boot (s : State) (r : Nat) (f : Req → Req) : (s.updReq r f).boot = s.boot := rfl

/-! `State.updCall`. -/

@[simp] theorem State.updCall_clk (s : State) (c : Nat) (f : Call → Call) : (s.updCall c f).clk = s.clk := rfl
@[simp] theorem State.updCall_gtsc0 (s : State) (c : Nat) (f : Call → Call) : (s.updCall c f).gtsc0 = s.gtsc0 := rfl
@[simp] theorem State.updCall_tick (s : State) (c : Nat) (f : Call → Call) : (s.updCall c f).tick = s.tick := rfl
@[simp] theorem State.updCall_nextId (s : State) (c : Nat) (f : Call → Call) : (s.updCall c f).nextId = s.nextId := rfl
@[simp] theorem State.updCall_stamp (s : State) (c : Nat) (f : Call → Call) : (s.updCall c f).stamp = s.stamp := rfl
@[simp] theorem State.updCall_gang (s : State) (c : Nat) (f : Call → Call) : (s.updCall c f).gang = s.gang := rfl
@[simp] theorem State.updCall_turns (s : State) (c : Nat) (f : Call → Call) : (s.updCall c f).turns = s.turns := rfl
@[simp] theorem State.updCall_mem (s : State) (c : Nat) (f : Call → Call) : (s.updCall c f).mem = s.mem := rfl
@[simp] theorem State.updCall_cores (s : State) (c : Nat) (f : Call → Call) : (s.updCall c f).cores = s.cores := rfl
@[simp] theorem State.updCall_launches (s : State) (c : Nat) (f : Call → Call) : (s.updCall c f).launches = s.launches := rfl
@[simp] theorem State.updCall_groups (s : State) (c : Nat) (f : Call → Call) : (s.updCall c f).groups = s.groups := rfl
@[simp] theorem State.updCall_ops (s : State) (c : Nat) (f : Call → Call) : (s.updCall c f).ops = s.ops := rfl
@[simp] theorem State.updCall_reqs (s : State) (c : Nat) (f : Call → Call) : (s.updCall c f).reqs = s.reqs := rfl
@[simp] theorem State.updCall_incs (s : State) (c : Nat) (f : Call → Call) : (s.updCall c f).incs = s.incs := rfl
@[simp] theorem State.updCall_xlat (s : State) (c : Nat) (f : Call → Call) : (s.updCall c f).xlat = s.xlat := rfl
@[simp] theorem State.updCall_bank (s : State) (c : Nat) (f : Call → Call) : (s.updCall c f).bank = s.bank := rfl
@[simp] theorem State.updCall_fab (s : State) (c : Nat) (f : Call → Call) : (s.updCall c f).fab = s.fab := rfl
@[simp] theorem State.updCall_cp (s : State) (c : Nat) (f : Call → Call) : (s.updCall c f).cp = s.cp := rfl
@[simp] theorem State.updCall_boot (s : State) (c : Nat) (f : Call → Call) : (s.updCall c f).boot = s.boot := rfl

/-! `State.dropCall`. -/

@[simp] theorem State.dropCall_clk (s : State) (c : Nat) : (s.dropCall c).clk = s.clk := rfl
@[simp] theorem State.dropCall_gtsc0 (s : State) (c : Nat) : (s.dropCall c).gtsc0 = s.gtsc0 := rfl
@[simp] theorem State.dropCall_tick (s : State) (c : Nat) : (s.dropCall c).tick = s.tick := rfl
@[simp] theorem State.dropCall_nextId (s : State) (c : Nat) : (s.dropCall c).nextId = s.nextId := rfl
@[simp] theorem State.dropCall_stamp (s : State) (c : Nat) : (s.dropCall c).stamp = s.stamp := rfl
@[simp] theorem State.dropCall_gang (s : State) (c : Nat) : (s.dropCall c).gang = s.gang := rfl
@[simp] theorem State.dropCall_turns (s : State) (c : Nat) : (s.dropCall c).turns = s.turns := rfl
@[simp] theorem State.dropCall_mem (s : State) (c : Nat) : (s.dropCall c).mem = s.mem := rfl
@[simp] theorem State.dropCall_cores (s : State) (c : Nat) : (s.dropCall c).cores = s.cores := rfl
@[simp] theorem State.dropCall_launches (s : State) (c : Nat) : (s.dropCall c).launches = s.launches := rfl
@[simp] theorem State.dropCall_groups (s : State) (c : Nat) : (s.dropCall c).groups = s.groups := rfl
@[simp] theorem State.dropCall_ops (s : State) (c : Nat) : (s.dropCall c).ops = s.ops := rfl
@[simp] theorem State.dropCall_reqs (s : State) (c : Nat) : (s.dropCall c).reqs = s.reqs := rfl
@[simp] theorem State.dropCall_incs (s : State) (c : Nat) : (s.dropCall c).incs = s.incs := rfl
@[simp] theorem State.dropCall_xlat (s : State) (c : Nat) : (s.dropCall c).xlat = s.xlat := rfl
@[simp] theorem State.dropCall_bank (s : State) (c : Nat) : (s.dropCall c).bank = s.bank := rfl
@[simp] theorem State.dropCall_fab (s : State) (c : Nat) : (s.dropCall c).fab = s.fab := rfl
@[simp] theorem State.dropCall_cp (s : State) (c : Nat) : (s.dropCall c).cp = s.cp := rfl
@[simp] theorem State.dropCall_boot (s : State) (c : Nat) : (s.dropCall c).boot = s.boot := rfl

/-! `State.updCallee`. -/

@[simp] theorem State.updCallee_clk (s : State) (c : Nat) (f : Callee → Callee) : (s.updCallee c f).clk = s.clk := rfl
@[simp] theorem State.updCallee_gtsc0 (s : State) (c : Nat) (f : Callee → Callee) : (s.updCallee c f).gtsc0 = s.gtsc0 := rfl
@[simp] theorem State.updCallee_tick (s : State) (c : Nat) (f : Callee → Callee) : (s.updCallee c f).tick = s.tick := rfl
@[simp] theorem State.updCallee_nextId (s : State) (c : Nat) (f : Callee → Callee) : (s.updCallee c f).nextId = s.nextId := rfl
@[simp] theorem State.updCallee_stamp (s : State) (c : Nat) (f : Callee → Callee) : (s.updCallee c f).stamp = s.stamp := rfl
@[simp] theorem State.updCallee_gang (s : State) (c : Nat) (f : Callee → Callee) : (s.updCallee c f).gang = s.gang := rfl
@[simp] theorem State.updCallee_turns (s : State) (c : Nat) (f : Callee → Callee) : (s.updCallee c f).turns = s.turns := rfl
@[simp] theorem State.updCallee_mem (s : State) (c : Nat) (f : Callee → Callee) : (s.updCallee c f).mem = s.mem := rfl
@[simp] theorem State.updCallee_cores (s : State) (c : Nat) (f : Callee → Callee) : (s.updCallee c f).cores = s.cores := rfl
@[simp] theorem State.updCallee_launches (s : State) (c : Nat) (f : Callee → Callee) : (s.updCallee c f).launches = s.launches := rfl
@[simp] theorem State.updCallee_groups (s : State) (c : Nat) (f : Callee → Callee) : (s.updCallee c f).groups = s.groups := rfl
@[simp] theorem State.updCallee_ops (s : State) (c : Nat) (f : Callee → Callee) : (s.updCallee c f).ops = s.ops := rfl
@[simp] theorem State.updCallee_reqs (s : State) (c : Nat) (f : Callee → Callee) : (s.updCallee c f).reqs = s.reqs := rfl
@[simp] theorem State.updCallee_incs (s : State) (c : Nat) (f : Callee → Callee) : (s.updCallee c f).incs = s.incs := rfl
@[simp] theorem State.updCallee_xlat (s : State) (c : Nat) (f : Callee → Callee) : (s.updCallee c f).xlat = s.xlat := rfl
@[simp] theorem State.updCallee_bank (s : State) (c : Nat) (f : Callee → Callee) : (s.updCallee c f).bank = s.bank := rfl
@[simp] theorem State.updCallee_fab (s : State) (c : Nat) (f : Callee → Callee) : (s.updCallee c f).fab = s.fab := rfl
@[simp] theorem State.updCallee_cp (s : State) (c : Nat) (f : Callee → Callee) : (s.updCallee c f).cp = s.cp := rfl
@[simp] theorem State.updCallee_boot (s : State) (c : Nat) (f : Callee → Callee) : (s.updCallee c f).boot = s.boot := rfl

/-! `State.setEngine`. -/

@[simp] theorem State.setEngine_clk (s : State) (e : Engine) : (s.setEngine e).clk = s.clk := rfl
@[simp] theorem State.setEngine_gtsc0 (s : State) (e : Engine) : (s.setEngine e).gtsc0 = s.gtsc0 := rfl
@[simp] theorem State.setEngine_tick (s : State) (e : Engine) : (s.setEngine e).tick = s.tick := rfl
@[simp] theorem State.setEngine_nextId (s : State) (e : Engine) : (s.setEngine e).nextId = s.nextId := rfl
@[simp] theorem State.setEngine_stamp (s : State) (e : Engine) : (s.setEngine e).stamp = s.stamp := rfl
@[simp] theorem State.setEngine_gang (s : State) (e : Engine) : (s.setEngine e).gang = s.gang := rfl
@[simp] theorem State.setEngine_turns (s : State) (e : Engine) : (s.setEngine e).turns = s.turns := rfl
@[simp] theorem State.setEngine_mem (s : State) (e : Engine) : (s.setEngine e).mem = s.mem := rfl
@[simp] theorem State.setEngine_cores (s : State) (e : Engine) : (s.setEngine e).cores = s.cores := rfl
@[simp] theorem State.setEngine_launches (s : State) (e : Engine) : (s.setEngine e).launches = s.launches := rfl
@[simp] theorem State.setEngine_groups (s : State) (e : Engine) : (s.setEngine e).groups = s.groups := rfl
@[simp] theorem State.setEngine_ops (s : State) (e : Engine) : (s.setEngine e).ops = s.ops := rfl
@[simp] theorem State.setEngine_reqs (s : State) (e : Engine) : (s.setEngine e).reqs = s.reqs := rfl
@[simp] theorem State.setEngine_incs (s : State) (e : Engine) : (s.setEngine e).incs = s.incs := rfl
@[simp] theorem State.setEngine_xlat (s : State) (e : Engine) : (s.setEngine e).xlat = s.xlat := rfl
@[simp] theorem State.setEngine_remote (s : State) (e : Engine) : (s.setEngine e).remote = s.remote := rfl
@[simp] theorem State.setEngine_fab (s : State) (e : Engine) : (s.setEngine e).fab = s.fab := rfl
@[simp] theorem State.setEngine_cp (s : State) (e : Engine) : (s.setEngine e).cp = s.cp := rfl
@[simp] theorem State.setEngine_boot (s : State) (e : Engine) : (s.setEngine e).boot = s.boot := rfl

/-! `State.updBank`. -/

@[simp] theorem State.updBank_clk (s : State) (l : Nat) (f : BankLaunch → BankLaunch) : (s.updBank l f).clk = s.clk := rfl
@[simp] theorem State.updBank_gtsc0 (s : State) (l : Nat) (f : BankLaunch → BankLaunch) : (s.updBank l f).gtsc0 = s.gtsc0 := rfl
@[simp] theorem State.updBank_tick (s : State) (l : Nat) (f : BankLaunch → BankLaunch) : (s.updBank l f).tick = s.tick := rfl
@[simp] theorem State.updBank_nextId (s : State) (l : Nat) (f : BankLaunch → BankLaunch) : (s.updBank l f).nextId = s.nextId := rfl
@[simp] theorem State.updBank_stamp (s : State) (l : Nat) (f : BankLaunch → BankLaunch) : (s.updBank l f).stamp = s.stamp := rfl
@[simp] theorem State.updBank_gang (s : State) (l : Nat) (f : BankLaunch → BankLaunch) : (s.updBank l f).gang = s.gang := rfl
@[simp] theorem State.updBank_turns (s : State) (l : Nat) (f : BankLaunch → BankLaunch) : (s.updBank l f).turns = s.turns := rfl
@[simp] theorem State.updBank_mem (s : State) (l : Nat) (f : BankLaunch → BankLaunch) : (s.updBank l f).mem = s.mem := rfl
@[simp] theorem State.updBank_cores (s : State) (l : Nat) (f : BankLaunch → BankLaunch) : (s.updBank l f).cores = s.cores := rfl
@[simp] theorem State.updBank_launches (s : State) (l : Nat) (f : BankLaunch → BankLaunch) : (s.updBank l f).launches = s.launches := rfl
@[simp] theorem State.updBank_groups (s : State) (l : Nat) (f : BankLaunch → BankLaunch) : (s.updBank l f).groups = s.groups := rfl
@[simp] theorem State.updBank_ops (s : State) (l : Nat) (f : BankLaunch → BankLaunch) : (s.updBank l f).ops = s.ops := rfl
@[simp] theorem State.updBank_reqs (s : State) (l : Nat) (f : BankLaunch → BankLaunch) : (s.updBank l f).reqs = s.reqs := rfl
@[simp] theorem State.updBank_incs (s : State) (l : Nat) (f : BankLaunch → BankLaunch) : (s.updBank l f).incs = s.incs := rfl
@[simp] theorem State.updBank_xlat (s : State) (l : Nat) (f : BankLaunch → BankLaunch) : (s.updBank l f).xlat = s.xlat := rfl
@[simp] theorem State.updBank_remote (s : State) (l : Nat) (f : BankLaunch → BankLaunch) : (s.updBank l f).remote = s.remote := rfl
@[simp] theorem State.updBank_fab (s : State) (l : Nat) (f : BankLaunch → BankLaunch) : (s.updBank l f).fab = s.fab := rfl
@[simp] theorem State.updBank_cp (s : State) (l : Nat) (f : BankLaunch → BankLaunch) : (s.updBank l f).cp = s.cp := rfl
@[simp] theorem State.updBank_boot (s : State) (l : Nat) (f : BankLaunch → BankLaunch) : (s.updBank l f).boot = s.boot := rfl

/-! `State.updInst`. -/

@[simp] theorem State.updInst_clk (s : State) (l k : Nat) (f : Inst → Inst) : (s.updInst l k f).clk = s.clk := rfl
@[simp] theorem State.updInst_gtsc0 (s : State) (l k : Nat) (f : Inst → Inst) : (s.updInst l k f).gtsc0 = s.gtsc0 := rfl
@[simp] theorem State.updInst_tick (s : State) (l k : Nat) (f : Inst → Inst) : (s.updInst l k f).tick = s.tick := rfl
@[simp] theorem State.updInst_nextId (s : State) (l k : Nat) (f : Inst → Inst) : (s.updInst l k f).nextId = s.nextId := rfl
@[simp] theorem State.updInst_stamp (s : State) (l k : Nat) (f : Inst → Inst) : (s.updInst l k f).stamp = s.stamp := rfl
@[simp] theorem State.updInst_gang (s : State) (l k : Nat) (f : Inst → Inst) : (s.updInst l k f).gang = s.gang := rfl
@[simp] theorem State.updInst_turns (s : State) (l k : Nat) (f : Inst → Inst) : (s.updInst l k f).turns = s.turns := rfl
@[simp] theorem State.updInst_mem (s : State) (l k : Nat) (f : Inst → Inst) : (s.updInst l k f).mem = s.mem := rfl
@[simp] theorem State.updInst_cores (s : State) (l k : Nat) (f : Inst → Inst) : (s.updInst l k f).cores = s.cores := rfl
@[simp] theorem State.updInst_launches (s : State) (l k : Nat) (f : Inst → Inst) : (s.updInst l k f).launches = s.launches := rfl
@[simp] theorem State.updInst_groups (s : State) (l k : Nat) (f : Inst → Inst) : (s.updInst l k f).groups = s.groups := rfl
@[simp] theorem State.updInst_ops (s : State) (l k : Nat) (f : Inst → Inst) : (s.updInst l k f).ops = s.ops := rfl
@[simp] theorem State.updInst_reqs (s : State) (l k : Nat) (f : Inst → Inst) : (s.updInst l k f).reqs = s.reqs := rfl
@[simp] theorem State.updInst_incs (s : State) (l k : Nat) (f : Inst → Inst) : (s.updInst l k f).incs = s.incs := rfl
@[simp] theorem State.updInst_xlat (s : State) (l k : Nat) (f : Inst → Inst) : (s.updInst l k f).xlat = s.xlat := rfl
@[simp] theorem State.updInst_remote (s : State) (l k : Nat) (f : Inst → Inst) : (s.updInst l k f).remote = s.remote := rfl
@[simp] theorem State.updInst_fab (s : State) (l k : Nat) (f : Inst → Inst) : (s.updInst l k f).fab = s.fab := rfl
@[simp] theorem State.updInst_cp (s : State) (l k : Nat) (f : Inst → Inst) : (s.updInst l k f).cp = s.cp := rfl
@[simp] theorem State.updInst_boot (s : State) (l k : Nat) (f : Inst → Inst) : (s.updInst l k f).boot = s.boot := rfl

/-! `State.updPart`. -/

@[simp] theorem State.updPart_clk (s : State) (n : Nat) (f : Part_ → Part_) : (s.updPart n f).clk = s.clk := rfl
@[simp] theorem State.updPart_gtsc0 (s : State) (n : Nat) (f : Part_ → Part_) : (s.updPart n f).gtsc0 = s.gtsc0 := rfl
@[simp] theorem State.updPart_tick (s : State) (n : Nat) (f : Part_ → Part_) : (s.updPart n f).tick = s.tick := rfl
@[simp] theorem State.updPart_nextId (s : State) (n : Nat) (f : Part_ → Part_) : (s.updPart n f).nextId = s.nextId := rfl
@[simp] theorem State.updPart_stamp (s : State) (n : Nat) (f : Part_ → Part_) : (s.updPart n f).stamp = s.stamp := rfl
@[simp] theorem State.updPart_gang (s : State) (n : Nat) (f : Part_ → Part_) : (s.updPart n f).gang = s.gang := rfl
@[simp] theorem State.updPart_turns (s : State) (n : Nat) (f : Part_ → Part_) : (s.updPart n f).turns = s.turns := rfl
@[simp] theorem State.updPart_mem (s : State) (n : Nat) (f : Part_ → Part_) : (s.updPart n f).mem = s.mem := rfl
@[simp] theorem State.updPart_cores (s : State) (n : Nat) (f : Part_ → Part_) : (s.updPart n f).cores = s.cores := rfl
@[simp] theorem State.updPart_launches (s : State) (n : Nat) (f : Part_ → Part_) : (s.updPart n f).launches = s.launches := rfl
@[simp] theorem State.updPart_groups (s : State) (n : Nat) (f : Part_ → Part_) : (s.updPart n f).groups = s.groups := rfl
@[simp] theorem State.updPart_ops (s : State) (n : Nat) (f : Part_ → Part_) : (s.updPart n f).ops = s.ops := rfl
@[simp] theorem State.updPart_reqs (s : State) (n : Nat) (f : Part_ → Part_) : (s.updPart n f).reqs = s.reqs := rfl
@[simp] theorem State.updPart_incs (s : State) (n : Nat) (f : Part_ → Part_) : (s.updPart n f).incs = s.incs := rfl
@[simp] theorem State.updPart_xlat (s : State) (n : Nat) (f : Part_ → Part_) : (s.updPart n f).xlat = s.xlat := rfl
@[simp] theorem State.updPart_bank (s : State) (n : Nat) (f : Part_ → Part_) : (s.updPart n f).bank = s.bank := rfl
@[simp] theorem State.updPart_remote (s : State) (n : Nat) (f : Part_ → Part_) : (s.updPart n f).remote = s.remote := rfl
@[simp] theorem State.updPart_fab (s : State) (n : Nat) (f : Part_ → Part_) : (s.updPart n f).fab = s.fab := rfl
@[simp] theorem State.updPart_boot (s : State) (n : Nat) (f : Part_ → Part_) : (s.updPart n f).boot = s.boot := rfl

/-! `State.updQueue`. -/

@[simp] theorem State.updQueue_clk (s : State) (q : Nat) (f : Queue → Queue) : (s.updQueue q f).clk = s.clk := rfl
@[simp] theorem State.updQueue_gtsc0 (s : State) (q : Nat) (f : Queue → Queue) : (s.updQueue q f).gtsc0 = s.gtsc0 := rfl
@[simp] theorem State.updQueue_tick (s : State) (q : Nat) (f : Queue → Queue) : (s.updQueue q f).tick = s.tick := rfl
@[simp] theorem State.updQueue_nextId (s : State) (q : Nat) (f : Queue → Queue) : (s.updQueue q f).nextId = s.nextId := rfl
@[simp] theorem State.updQueue_stamp (s : State) (q : Nat) (f : Queue → Queue) : (s.updQueue q f).stamp = s.stamp := rfl
@[simp] theorem State.updQueue_gang (s : State) (q : Nat) (f : Queue → Queue) : (s.updQueue q f).gang = s.gang := rfl
@[simp] theorem State.updQueue_turns (s : State) (q : Nat) (f : Queue → Queue) : (s.updQueue q f).turns = s.turns := rfl
@[simp] theorem State.updQueue_mem (s : State) (q : Nat) (f : Queue → Queue) : (s.updQueue q f).mem = s.mem := rfl
@[simp] theorem State.updQueue_cores (s : State) (q : Nat) (f : Queue → Queue) : (s.updQueue q f).cores = s.cores := rfl
@[simp] theorem State.updQueue_launches (s : State) (q : Nat) (f : Queue → Queue) : (s.updQueue q f).launches = s.launches := rfl
@[simp] theorem State.updQueue_groups (s : State) (q : Nat) (f : Queue → Queue) : (s.updQueue q f).groups = s.groups := rfl
@[simp] theorem State.updQueue_ops (s : State) (q : Nat) (f : Queue → Queue) : (s.updQueue q f).ops = s.ops := rfl
@[simp] theorem State.updQueue_reqs (s : State) (q : Nat) (f : Queue → Queue) : (s.updQueue q f).reqs = s.reqs := rfl
@[simp] theorem State.updQueue_incs (s : State) (q : Nat) (f : Queue → Queue) : (s.updQueue q f).incs = s.incs := rfl
@[simp] theorem State.updQueue_xlat (s : State) (q : Nat) (f : Queue → Queue) : (s.updQueue q f).xlat = s.xlat := rfl
@[simp] theorem State.updQueue_bank (s : State) (q : Nat) (f : Queue → Queue) : (s.updQueue q f).bank = s.bank := rfl
@[simp] theorem State.updQueue_remote (s : State) (q : Nat) (f : Queue → Queue) : (s.updQueue q f).remote = s.remote := rfl
@[simp] theorem State.updQueue_fab (s : State) (q : Nat) (f : Queue → Queue) : (s.updQueue q f).fab = s.fab := rfl
@[simp] theorem State.updQueue_boot (s : State) (q : Nat) (f : Queue → Queue) : (s.updQueue q f).boot = s.boot := rfl

/-! `State.setHead`. -/

@[simp] theorem State.setHead_clk (s : State) (q : Nat) (h : QHead) : (s.setHead q h).clk = s.clk := rfl
@[simp] theorem State.setHead_gtsc0 (s : State) (q : Nat) (h : QHead) : (s.setHead q h).gtsc0 = s.gtsc0 := rfl
@[simp] theorem State.setHead_tick (s : State) (q : Nat) (h : QHead) : (s.setHead q h).tick = s.tick := rfl
@[simp] theorem State.setHead_nextId (s : State) (q : Nat) (h : QHead) : (s.setHead q h).nextId = s.nextId := rfl
@[simp] theorem State.setHead_stamp (s : State) (q : Nat) (h : QHead) : (s.setHead q h).stamp = s.stamp := rfl
@[simp] theorem State.setHead_gang (s : State) (q : Nat) (h : QHead) : (s.setHead q h).gang = s.gang := rfl
@[simp] theorem State.setHead_turns (s : State) (q : Nat) (h : QHead) : (s.setHead q h).turns = s.turns := rfl
@[simp] theorem State.setHead_mem (s : State) (q : Nat) (h : QHead) : (s.setHead q h).mem = s.mem := rfl
@[simp] theorem State.setHead_cores (s : State) (q : Nat) (h : QHead) : (s.setHead q h).cores = s.cores := rfl
@[simp] theorem State.setHead_launches (s : State) (q : Nat) (h : QHead) : (s.setHead q h).launches = s.launches := rfl
@[simp] theorem State.setHead_groups (s : State) (q : Nat) (h : QHead) : (s.setHead q h).groups = s.groups := rfl
@[simp] theorem State.setHead_ops (s : State) (q : Nat) (h : QHead) : (s.setHead q h).ops = s.ops := rfl
@[simp] theorem State.setHead_reqs (s : State) (q : Nat) (h : QHead) : (s.setHead q h).reqs = s.reqs := rfl
@[simp] theorem State.setHead_incs (s : State) (q : Nat) (h : QHead) : (s.setHead q h).incs = s.incs := rfl
@[simp] theorem State.setHead_xlat (s : State) (q : Nat) (h : QHead) : (s.setHead q h).xlat = s.xlat := rfl
@[simp] theorem State.setHead_bank (s : State) (q : Nat) (h : QHead) : (s.setHead q h).bank = s.bank := rfl
@[simp] theorem State.setHead_remote (s : State) (q : Nat) (h : QHead) : (s.setHead q h).remote = s.remote := rfl
@[simp] theorem State.setHead_fab (s : State) (q : Nat) (h : QHead) : (s.setHead q h).fab = s.fab := rfl
@[simp] theorem State.setHead_boot (s : State) (q : Nat) (h : QHead) : (s.setHead q h).boot = s.boot := rfl

/-! `State.dropHead`. -/

@[simp] theorem State.dropHead_clk (s : State) (q : Nat) : (s.dropHead q).clk = s.clk := rfl
@[simp] theorem State.dropHead_gtsc0 (s : State) (q : Nat) : (s.dropHead q).gtsc0 = s.gtsc0 := rfl
@[simp] theorem State.dropHead_tick (s : State) (q : Nat) : (s.dropHead q).tick = s.tick := rfl
@[simp] theorem State.dropHead_nextId (s : State) (q : Nat) : (s.dropHead q).nextId = s.nextId := rfl
@[simp] theorem State.dropHead_stamp (s : State) (q : Nat) : (s.dropHead q).stamp = s.stamp := rfl
@[simp] theorem State.dropHead_gang (s : State) (q : Nat) : (s.dropHead q).gang = s.gang := rfl
@[simp] theorem State.dropHead_turns (s : State) (q : Nat) : (s.dropHead q).turns = s.turns := rfl
@[simp] theorem State.dropHead_mem (s : State) (q : Nat) : (s.dropHead q).mem = s.mem := rfl
@[simp] theorem State.dropHead_cores (s : State) (q : Nat) : (s.dropHead q).cores = s.cores := rfl
@[simp] theorem State.dropHead_launches (s : State) (q : Nat) : (s.dropHead q).launches = s.launches := rfl
@[simp] theorem State.dropHead_groups (s : State) (q : Nat) : (s.dropHead q).groups = s.groups := rfl
@[simp] theorem State.dropHead_ops (s : State) (q : Nat) : (s.dropHead q).ops = s.ops := rfl
@[simp] theorem State.dropHead_reqs (s : State) (q : Nat) : (s.dropHead q).reqs = s.reqs := rfl
@[simp] theorem State.dropHead_incs (s : State) (q : Nat) : (s.dropHead q).incs = s.incs := rfl
@[simp] theorem State.dropHead_xlat (s : State) (q : Nat) : (s.dropHead q).xlat = s.xlat := rfl
@[simp] theorem State.dropHead_bank (s : State) (q : Nat) : (s.dropHead q).bank = s.bank := rfl
@[simp] theorem State.dropHead_remote (s : State) (q : Nat) : (s.dropHead q).remote = s.remote := rfl
@[simp] theorem State.dropHead_fab (s : State) (q : Nat) : (s.dropHead q).fab = s.fab := rfl
@[simp] theorem State.dropHead_boot (s : State) (q : Nat) : (s.dropHead q).boot = s.boot := rfl

/-! `State.updXlat`. -/

@[simp] theorem State.updXlat_clk (s : State) (f : Xlat → Xlat) : (s.updXlat f).clk = s.clk := rfl
@[simp] theorem State.updXlat_gtsc0 (s : State) (f : Xlat → Xlat) : (s.updXlat f).gtsc0 = s.gtsc0 := rfl
@[simp] theorem State.updXlat_tick (s : State) (f : Xlat → Xlat) : (s.updXlat f).tick = s.tick := rfl
@[simp] theorem State.updXlat_nextId (s : State) (f : Xlat → Xlat) : (s.updXlat f).nextId = s.nextId := rfl
@[simp] theorem State.updXlat_stamp (s : State) (f : Xlat → Xlat) : (s.updXlat f).stamp = s.stamp := rfl
@[simp] theorem State.updXlat_gang (s : State) (f : Xlat → Xlat) : (s.updXlat f).gang = s.gang := rfl
@[simp] theorem State.updXlat_turns (s : State) (f : Xlat → Xlat) : (s.updXlat f).turns = s.turns := rfl
@[simp] theorem State.updXlat_mem (s : State) (f : Xlat → Xlat) : (s.updXlat f).mem = s.mem := rfl
@[simp] theorem State.updXlat_cores (s : State) (f : Xlat → Xlat) : (s.updXlat f).cores = s.cores := rfl
@[simp] theorem State.updXlat_launches (s : State) (f : Xlat → Xlat) : (s.updXlat f).launches = s.launches := rfl
@[simp] theorem State.updXlat_groups (s : State) (f : Xlat → Xlat) : (s.updXlat f).groups = s.groups := rfl
@[simp] theorem State.updXlat_ops (s : State) (f : Xlat → Xlat) : (s.updXlat f).ops = s.ops := rfl
@[simp] theorem State.updXlat_reqs (s : State) (f : Xlat → Xlat) : (s.updXlat f).reqs = s.reqs := rfl
@[simp] theorem State.updXlat_incs (s : State) (f : Xlat → Xlat) : (s.updXlat f).incs = s.incs := rfl
@[simp] theorem State.updXlat_bank (s : State) (f : Xlat → Xlat) : (s.updXlat f).bank = s.bank := rfl
@[simp] theorem State.updXlat_remote (s : State) (f : Xlat → Xlat) : (s.updXlat f).remote = s.remote := rfl
@[simp] theorem State.updXlat_fab (s : State) (f : Xlat → Xlat) : (s.updXlat f).fab = s.fab := rfl
@[simp] theorem State.updXlat_cp (s : State) (f : Xlat → Xlat) : (s.updXlat f).cp = s.cp := rfl
@[simp] theorem State.updXlat_boot (s : State) (f : Xlat → Xlat) : (s.updXlat f).boot = s.boot := rfl

/-! `State.updMigs`. -/

@[simp] theorem State.updMigs_clk (s : State) (f : Mig → Mig) : (s.updMigs f).clk = s.clk := rfl
@[simp] theorem State.updMigs_gtsc0 (s : State) (f : Mig → Mig) : (s.updMigs f).gtsc0 = s.gtsc0 := rfl
@[simp] theorem State.updMigs_tick (s : State) (f : Mig → Mig) : (s.updMigs f).tick = s.tick := rfl
@[simp] theorem State.updMigs_nextId (s : State) (f : Mig → Mig) : (s.updMigs f).nextId = s.nextId := rfl
@[simp] theorem State.updMigs_stamp (s : State) (f : Mig → Mig) : (s.updMigs f).stamp = s.stamp := rfl
@[simp] theorem State.updMigs_gang (s : State) (f : Mig → Mig) : (s.updMigs f).gang = s.gang := rfl
@[simp] theorem State.updMigs_turns (s : State) (f : Mig → Mig) : (s.updMigs f).turns = s.turns := rfl
@[simp] theorem State.updMigs_mem (s : State) (f : Mig → Mig) : (s.updMigs f).mem = s.mem := rfl
@[simp] theorem State.updMigs_cores (s : State) (f : Mig → Mig) : (s.updMigs f).cores = s.cores := rfl
@[simp] theorem State.updMigs_launches (s : State) (f : Mig → Mig) : (s.updMigs f).launches = s.launches := rfl
@[simp] theorem State.updMigs_groups (s : State) (f : Mig → Mig) : (s.updMigs f).groups = s.groups := rfl
@[simp] theorem State.updMigs_ops (s : State) (f : Mig → Mig) : (s.updMigs f).ops = s.ops := rfl
@[simp] theorem State.updMigs_reqs (s : State) (f : Mig → Mig) : (s.updMigs f).reqs = s.reqs := rfl
@[simp] theorem State.updMigs_incs (s : State) (f : Mig → Mig) : (s.updMigs f).incs = s.incs := rfl
@[simp] theorem State.updMigs_bank (s : State) (f : Mig → Mig) : (s.updMigs f).bank = s.bank := rfl
@[simp] theorem State.updMigs_remote (s : State) (f : Mig → Mig) : (s.updMigs f).remote = s.remote := rfl
@[simp] theorem State.updMigs_fab (s : State) (f : Mig → Mig) : (s.updMigs f).fab = s.fab := rfl
@[simp] theorem State.updMigs_cp (s : State) (f : Mig → Mig) : (s.updMigs f).cp = s.cp := rfl
@[simp] theorem State.updMigs_boot (s : State) (f : Mig → Mig) : (s.updMigs f).boot = s.boot := rfl

/-! `State.updFab`. -/

@[simp] theorem State.updFab_clk (s : State) (f : Fabric → Fabric) : (s.updFab f).clk = s.clk := rfl
@[simp] theorem State.updFab_gtsc0 (s : State) (f : Fabric → Fabric) : (s.updFab f).gtsc0 = s.gtsc0 := rfl
@[simp] theorem State.updFab_tick (s : State) (f : Fabric → Fabric) : (s.updFab f).tick = s.tick := rfl
@[simp] theorem State.updFab_nextId (s : State) (f : Fabric → Fabric) : (s.updFab f).nextId = s.nextId := rfl
@[simp] theorem State.updFab_stamp (s : State) (f : Fabric → Fabric) : (s.updFab f).stamp = s.stamp := rfl
@[simp] theorem State.updFab_gang (s : State) (f : Fabric → Fabric) : (s.updFab f).gang = s.gang := rfl
@[simp] theorem State.updFab_turns (s : State) (f : Fabric → Fabric) : (s.updFab f).turns = s.turns := rfl
@[simp] theorem State.updFab_mem (s : State) (f : Fabric → Fabric) : (s.updFab f).mem = s.mem := rfl
@[simp] theorem State.updFab_cores (s : State) (f : Fabric → Fabric) : (s.updFab f).cores = s.cores := rfl
@[simp] theorem State.updFab_launches (s : State) (f : Fabric → Fabric) : (s.updFab f).launches = s.launches := rfl
@[simp] theorem State.updFab_groups (s : State) (f : Fabric → Fabric) : (s.updFab f).groups = s.groups := rfl
@[simp] theorem State.updFab_ops (s : State) (f : Fabric → Fabric) : (s.updFab f).ops = s.ops := rfl
@[simp] theorem State.updFab_reqs (s : State) (f : Fabric → Fabric) : (s.updFab f).reqs = s.reqs := rfl
@[simp] theorem State.updFab_incs (s : State) (f : Fabric → Fabric) : (s.updFab f).incs = s.incs := rfl
@[simp] theorem State.updFab_xlat (s : State) (f : Fabric → Fabric) : (s.updFab f).xlat = s.xlat := rfl
@[simp] theorem State.updFab_bank (s : State) (f : Fabric → Fabric) : (s.updFab f).bank = s.bank := rfl
@[simp] theorem State.updFab_remote (s : State) (f : Fabric → Fabric) : (s.updFab f).remote = s.remote := rfl
@[simp] theorem State.updFab_cp (s : State) (f : Fabric → Fabric) : (s.updFab f).cp = s.cp := rfl
@[simp] theorem State.updFab_boot (s : State) (f : Fabric → Fabric) : (s.updFab f).boot = s.boot := rfl

/-! `State.updWq`. -/

@[simp] theorem State.updWq_clk (s : State) (f : QWrite → QWrite) : (s.updWq f).clk = s.clk := rfl
@[simp] theorem State.updWq_gtsc0 (s : State) (f : QWrite → QWrite) : (s.updWq f).gtsc0 = s.gtsc0 := rfl
@[simp] theorem State.updWq_tick (s : State) (f : QWrite → QWrite) : (s.updWq f).tick = s.tick := rfl
@[simp] theorem State.updWq_nextId (s : State) (f : QWrite → QWrite) : (s.updWq f).nextId = s.nextId := rfl
@[simp] theorem State.updWq_stamp (s : State) (f : QWrite → QWrite) : (s.updWq f).stamp = s.stamp := rfl
@[simp] theorem State.updWq_gang (s : State) (f : QWrite → QWrite) : (s.updWq f).gang = s.gang := rfl
@[simp] theorem State.updWq_turns (s : State) (f : QWrite → QWrite) : (s.updWq f).turns = s.turns := rfl
@[simp] theorem State.updWq_cores (s : State) (f : QWrite → QWrite) : (s.updWq f).cores = s.cores := rfl
@[simp] theorem State.updWq_launches (s : State) (f : QWrite → QWrite) : (s.updWq f).launches = s.launches := rfl
@[simp] theorem State.updWq_groups (s : State) (f : QWrite → QWrite) : (s.updWq f).groups = s.groups := rfl
@[simp] theorem State.updWq_ops (s : State) (f : QWrite → QWrite) : (s.updWq f).ops = s.ops := rfl
@[simp] theorem State.updWq_reqs (s : State) (f : QWrite → QWrite) : (s.updWq f).reqs = s.reqs := rfl
@[simp] theorem State.updWq_incs (s : State) (f : QWrite → QWrite) : (s.updWq f).incs = s.incs := rfl
@[simp] theorem State.updWq_xlat (s : State) (f : QWrite → QWrite) : (s.updWq f).xlat = s.xlat := rfl
@[simp] theorem State.updWq_bank (s : State) (f : QWrite → QWrite) : (s.updWq f).bank = s.bank := rfl
@[simp] theorem State.updWq_remote (s : State) (f : QWrite → QWrite) : (s.updWq f).remote = s.remote := rfl
@[simp] theorem State.updWq_fab (s : State) (f : QWrite → QWrite) : (s.updWq f).fab = s.fab := rfl
@[simp] theorem State.updWq_cp (s : State) (f : QWrite → QWrite) : (s.updWq f).cp = s.cp := rfl
@[simp] theorem State.updWq_boot (s : State) (f : QWrite → QWrite) : (s.updWq f).boot = s.boot := rfl

/-! `State.enqueue`. -/

@[simp] theorem State.enqueue_clk (s : State) (e : QWrite) : (s.enqueue e).clk = s.clk := rfl
@[simp] theorem State.enqueue_gtsc0 (s : State) (e : QWrite) : (s.enqueue e).gtsc0 = s.gtsc0 := rfl
@[simp] theorem State.enqueue_tick (s : State) (e : QWrite) : (s.enqueue e).tick = s.tick := rfl
@[simp] theorem State.enqueue_stamp (s : State) (e : QWrite) : (s.enqueue e).stamp = s.stamp := rfl
@[simp] theorem State.enqueue_gang (s : State) (e : QWrite) : (s.enqueue e).gang = s.gang := rfl
@[simp] theorem State.enqueue_turns (s : State) (e : QWrite) : (s.enqueue e).turns = s.turns := rfl
@[simp] theorem State.enqueue_cores (s : State) (e : QWrite) : (s.enqueue e).cores = s.cores := rfl
@[simp] theorem State.enqueue_launches (s : State) (e : QWrite) : (s.enqueue e).launches = s.launches := rfl
@[simp] theorem State.enqueue_groups (s : State) (e : QWrite) : (s.enqueue e).groups = s.groups := rfl
@[simp] theorem State.enqueue_ops (s : State) (e : QWrite) : (s.enqueue e).ops = s.ops := rfl
@[simp] theorem State.enqueue_reqs (s : State) (e : QWrite) : (s.enqueue e).reqs = s.reqs := rfl
@[simp] theorem State.enqueue_incs (s : State) (e : QWrite) : (s.enqueue e).incs = s.incs := rfl
@[simp] theorem State.enqueue_xlat (s : State) (e : QWrite) : (s.enqueue e).xlat = s.xlat := rfl
@[simp] theorem State.enqueue_bank (s : State) (e : QWrite) : (s.enqueue e).bank = s.bank := rfl
@[simp] theorem State.enqueue_remote (s : State) (e : QWrite) : (s.enqueue e).remote = s.remote := rfl
@[simp] theorem State.enqueue_fab (s : State) (e : QWrite) : (s.enqueue e).fab = s.fab := rfl
@[simp] theorem State.enqueue_cp (s : State) (e : QWrite) : (s.enqueue e).cp = s.cp := rfl
@[simp] theorem State.enqueue_boot (s : State) (e : QWrite) : (s.enqueue e).boot = s.boot := rfl

/-! `State.setReply`. -/

@[simp] theorem State.setReply_clk (s : State) (r : Option (List Byte)) : (s.setReply r).clk = s.clk := rfl
@[simp] theorem State.setReply_gtsc0 (s : State) (r : Option (List Byte)) : (s.setReply r).gtsc0 = s.gtsc0 := rfl
@[simp] theorem State.setReply_tick (s : State) (r : Option (List Byte)) : (s.setReply r).tick = s.tick := rfl
@[simp] theorem State.setReply_nextId (s : State) (r : Option (List Byte)) : (s.setReply r).nextId = s.nextId := rfl
@[simp] theorem State.setReply_stamp (s : State) (r : Option (List Byte)) : (s.setReply r).stamp = s.stamp := rfl
@[simp] theorem State.setReply_gang (s : State) (r : Option (List Byte)) : (s.setReply r).gang = s.gang := rfl
@[simp] theorem State.setReply_turns (s : State) (r : Option (List Byte)) : (s.setReply r).turns = s.turns := rfl
@[simp] theorem State.setReply_mem (s : State) (r : Option (List Byte)) : (s.setReply r).mem = s.mem := rfl
@[simp] theorem State.setReply_cores (s : State) (r : Option (List Byte)) : (s.setReply r).cores = s.cores := rfl
@[simp] theorem State.setReply_launches (s : State) (r : Option (List Byte)) : (s.setReply r).launches = s.launches := rfl
@[simp] theorem State.setReply_groups (s : State) (r : Option (List Byte)) : (s.setReply r).groups = s.groups := rfl
@[simp] theorem State.setReply_ops (s : State) (r : Option (List Byte)) : (s.setReply r).ops = s.ops := rfl
@[simp] theorem State.setReply_reqs (s : State) (r : Option (List Byte)) : (s.setReply r).reqs = s.reqs := rfl
@[simp] theorem State.setReply_incs (s : State) (r : Option (List Byte)) : (s.setReply r).incs = s.incs := rfl
@[simp] theorem State.setReply_xlat (s : State) (r : Option (List Byte)) : (s.setReply r).xlat = s.xlat := rfl
@[simp] theorem State.setReply_bank (s : State) (r : Option (List Byte)) : (s.setReply r).bank = s.bank := rfl
@[simp] theorem State.setReply_remote (s : State) (r : Option (List Byte)) : (s.setReply r).remote = s.remote := rfl
@[simp] theorem State.setReply_fab (s : State) (r : Option (List Byte)) : (s.setReply r).fab = s.fab := rfl
@[simp] theorem State.setReply_cp (s : State) (r : Option (List Byte)) : (s.setReply r).cp = s.cp := rfl

/-! `State.setSpad`. -/

@[simp] theorem State.setSpad_clk (s : State) (core off : Nat) (data : List Byte) : (s.setSpad core off data).clk = s.clk := rfl
@[simp] theorem State.setSpad_gtsc0 (s : State) (core off : Nat) (data : List Byte) : (s.setSpad core off data).gtsc0 = s.gtsc0 := rfl
@[simp] theorem State.setSpad_tick (s : State) (core off : Nat) (data : List Byte) : (s.setSpad core off data).tick = s.tick := rfl
@[simp] theorem State.setSpad_nextId (s : State) (core off : Nat) (data : List Byte) : (s.setSpad core off data).nextId = s.nextId := rfl
@[simp] theorem State.setSpad_stamp (s : State) (core off : Nat) (data : List Byte) : (s.setSpad core off data).stamp = s.stamp := rfl
@[simp] theorem State.setSpad_gang (s : State) (core off : Nat) (data : List Byte) : (s.setSpad core off data).gang = s.gang := rfl
@[simp] theorem State.setSpad_turns (s : State) (core off : Nat) (data : List Byte) : (s.setSpad core off data).turns = s.turns := rfl
@[simp] theorem State.setSpad_mem (s : State) (core off : Nat) (data : List Byte) : (s.setSpad core off data).mem = s.mem := rfl
@[simp] theorem State.setSpad_launches (s : State) (core off : Nat) (data : List Byte) : (s.setSpad core off data).launches = s.launches := rfl
@[simp] theorem State.setSpad_groups (s : State) (core off : Nat) (data : List Byte) : (s.setSpad core off data).groups = s.groups := rfl
@[simp] theorem State.setSpad_ops (s : State) (core off : Nat) (data : List Byte) : (s.setSpad core off data).ops = s.ops := rfl
@[simp] theorem State.setSpad_reqs (s : State) (core off : Nat) (data : List Byte) : (s.setSpad core off data).reqs = s.reqs := rfl
@[simp] theorem State.setSpad_incs (s : State) (core off : Nat) (data : List Byte) : (s.setSpad core off data).incs = s.incs := rfl
@[simp] theorem State.setSpad_xlat (s : State) (core off : Nat) (data : List Byte) : (s.setSpad core off data).xlat = s.xlat := rfl
@[simp] theorem State.setSpad_bank (s : State) (core off : Nat) (data : List Byte) : (s.setSpad core off data).bank = s.bank := rfl
@[simp] theorem State.setSpad_remote (s : State) (core off : Nat) (data : List Byte) : (s.setSpad core off data).remote = s.remote := rfl
@[simp] theorem State.setSpad_fab (s : State) (core off : Nat) (data : List Byte) : (s.setSpad core off data).fab = s.fab := rfl
@[simp] theorem State.setSpad_cp (s : State) (core off : Nat) (data : List Byte) : (s.setSpad core off data).cp = s.cp := rfl
@[simp] theorem State.setSpad_boot (s : State) (core off : Nat) (data : List Byte) : (s.setSpad core off data).boot = s.boot := rfl

/-! `State.setAccRow`. -/

@[simp] theorem State.setAccRow_clk (s : State) (core row : Nat) (ws : List W32) : (s.setAccRow core row ws).clk = s.clk := rfl
@[simp] theorem State.setAccRow_gtsc0 (s : State) (core row : Nat) (ws : List W32) : (s.setAccRow core row ws).gtsc0 = s.gtsc0 := rfl
@[simp] theorem State.setAccRow_tick (s : State) (core row : Nat) (ws : List W32) : (s.setAccRow core row ws).tick = s.tick := rfl
@[simp] theorem State.setAccRow_nextId (s : State) (core row : Nat) (ws : List W32) : (s.setAccRow core row ws).nextId = s.nextId := rfl
@[simp] theorem State.setAccRow_stamp (s : State) (core row : Nat) (ws : List W32) : (s.setAccRow core row ws).stamp = s.stamp := rfl
@[simp] theorem State.setAccRow_gang (s : State) (core row : Nat) (ws : List W32) : (s.setAccRow core row ws).gang = s.gang := rfl
@[simp] theorem State.setAccRow_turns (s : State) (core row : Nat) (ws : List W32) : (s.setAccRow core row ws).turns = s.turns := rfl
@[simp] theorem State.setAccRow_mem (s : State) (core row : Nat) (ws : List W32) : (s.setAccRow core row ws).mem = s.mem := rfl
@[simp] theorem State.setAccRow_launches (s : State) (core row : Nat) (ws : List W32) : (s.setAccRow core row ws).launches = s.launches := rfl
@[simp] theorem State.setAccRow_groups (s : State) (core row : Nat) (ws : List W32) : (s.setAccRow core row ws).groups = s.groups := rfl
@[simp] theorem State.setAccRow_ops (s : State) (core row : Nat) (ws : List W32) : (s.setAccRow core row ws).ops = s.ops := rfl
@[simp] theorem State.setAccRow_reqs (s : State) (core row : Nat) (ws : List W32) : (s.setAccRow core row ws).reqs = s.reqs := rfl
@[simp] theorem State.setAccRow_incs (s : State) (core row : Nat) (ws : List W32) : (s.setAccRow core row ws).incs = s.incs := rfl
@[simp] theorem State.setAccRow_xlat (s : State) (core row : Nat) (ws : List W32) : (s.setAccRow core row ws).xlat = s.xlat := rfl
@[simp] theorem State.setAccRow_bank (s : State) (core row : Nat) (ws : List W32) : (s.setAccRow core row ws).bank = s.bank := rfl
@[simp] theorem State.setAccRow_remote (s : State) (core row : Nat) (ws : List W32) : (s.setAccRow core row ws).remote = s.remote := rfl
@[simp] theorem State.setAccRow_fab (s : State) (core row : Nat) (ws : List W32) : (s.setAccRow core row ws).fab = s.fab := rfl
@[simp] theorem State.setAccRow_cp (s : State) (core row : Nat) (ws : List W32) : (s.setAccRow core row ws).cp = s.cp := rfl
@[simp] theorem State.setAccRow_boot (s : State) (core row : Nat) (ws : List W32) : (s.setAccRow core row ws).boot = s.boot := rfl

/-! `State.setStat`. -/

@[simp] theorem State.setStat_clk (s : State) (core bit : Nat) : (s.setStat core bit).clk = s.clk := rfl
@[simp] theorem State.setStat_gtsc0 (s : State) (core bit : Nat) : (s.setStat core bit).gtsc0 = s.gtsc0 := rfl
@[simp] theorem State.setStat_tick (s : State) (core bit : Nat) : (s.setStat core bit).tick = s.tick := rfl
@[simp] theorem State.setStat_nextId (s : State) (core bit : Nat) : (s.setStat core bit).nextId = s.nextId := rfl
@[simp] theorem State.setStat_stamp (s : State) (core bit : Nat) : (s.setStat core bit).stamp = s.stamp := rfl
@[simp] theorem State.setStat_gang (s : State) (core bit : Nat) : (s.setStat core bit).gang = s.gang := rfl
@[simp] theorem State.setStat_turns (s : State) (core bit : Nat) : (s.setStat core bit).turns = s.turns := rfl
@[simp] theorem State.setStat_mem (s : State) (core bit : Nat) : (s.setStat core bit).mem = s.mem := rfl
@[simp] theorem State.setStat_launches (s : State) (core bit : Nat) : (s.setStat core bit).launches = s.launches := rfl
@[simp] theorem State.setStat_groups (s : State) (core bit : Nat) : (s.setStat core bit).groups = s.groups := rfl
@[simp] theorem State.setStat_ops (s : State) (core bit : Nat) : (s.setStat core bit).ops = s.ops := rfl
@[simp] theorem State.setStat_reqs (s : State) (core bit : Nat) : (s.setStat core bit).reqs = s.reqs := rfl
@[simp] theorem State.setStat_incs (s : State) (core bit : Nat) : (s.setStat core bit).incs = s.incs := rfl
@[simp] theorem State.setStat_xlat (s : State) (core bit : Nat) : (s.setStat core bit).xlat = s.xlat := rfl
@[simp] theorem State.setStat_bank (s : State) (core bit : Nat) : (s.setStat core bit).bank = s.bank := rfl
@[simp] theorem State.setStat_remote (s : State) (core bit : Nat) : (s.setStat core bit).remote = s.remote := rfl
@[simp] theorem State.setStat_fab (s : State) (core bit : Nat) : (s.setStat core bit).fab = s.fab := rfl
@[simp] theorem State.setStat_cp (s : State) (core bit : Nat) : (s.setStat core bit).cp = s.cp := rfl
@[simp] theorem State.setStat_boot (s : State) (core bit : Nat) : (s.setStat core bit).boot = s.boot := rfl

/-! `State.beginQuiet`. -/

@[simp] theorem State.beginQuiet_clk (s : State) (t : TRef) (k : OpKind) : (s.beginQuiet t k).clk = s.clk := rfl
@[simp] theorem State.beginQuiet_gtsc0 (s : State) (t : TRef) (k : OpKind) : (s.beginQuiet t k).gtsc0 = s.gtsc0 := rfl
@[simp] theorem State.beginQuiet_tick (s : State) (t : TRef) (k : OpKind) : (s.beginQuiet t k).tick = s.tick := rfl
@[simp] theorem State.beginQuiet_stamp (s : State) (t : TRef) (k : OpKind) : (s.beginQuiet t k).stamp = s.stamp := rfl
@[simp] theorem State.beginQuiet_gang (s : State) (t : TRef) (k : OpKind) : (s.beginQuiet t k).gang = s.gang := rfl
@[simp] theorem State.beginQuiet_turns (s : State) (t : TRef) (k : OpKind) : (s.beginQuiet t k).turns = s.turns := rfl
@[simp] theorem State.beginQuiet_mem (s : State) (t : TRef) (k : OpKind) : (s.beginQuiet t k).mem = s.mem := rfl
@[simp] theorem State.beginQuiet_cores (s : State) (t : TRef) (k : OpKind) : (s.beginQuiet t k).cores = s.cores := rfl
@[simp] theorem State.beginQuiet_launches (s : State) (t : TRef) (k : OpKind) : (s.beginQuiet t k).launches = s.launches := rfl
@[simp] theorem State.beginQuiet_groups (s : State) (t : TRef) (k : OpKind) : (s.beginQuiet t k).groups = s.groups := rfl
@[simp] theorem State.beginQuiet_reqs (s : State) (t : TRef) (k : OpKind) : (s.beginQuiet t k).reqs = s.reqs := rfl
@[simp] theorem State.beginQuiet_incs (s : State) (t : TRef) (k : OpKind) : (s.beginQuiet t k).incs = s.incs := rfl
@[simp] theorem State.beginQuiet_xlat (s : State) (t : TRef) (k : OpKind) : (s.beginQuiet t k).xlat = s.xlat := rfl
@[simp] theorem State.beginQuiet_bank (s : State) (t : TRef) (k : OpKind) : (s.beginQuiet t k).bank = s.bank := rfl
@[simp] theorem State.beginQuiet_remote (s : State) (t : TRef) (k : OpKind) : (s.beginQuiet t k).remote = s.remote := rfl
@[simp] theorem State.beginQuiet_fab (s : State) (t : TRef) (k : OpKind) : (s.beginQuiet t k).fab = s.fab := rfl
@[simp] theorem State.beginQuiet_cp (s : State) (t : TRef) (k : OpKind) : (s.beginQuiet t k).cp = s.cp := rfl
@[simp] theorem State.beginQuiet_boot (s : State) (t : TRef) (k : OpKind) : (s.beginQuiet t k).boot = s.boot := rfl

/-! `State.updThread`. -/

@[simp] theorem State.updThread_clk (s : State) (t : TRef) (f : Thread → Thread) : (s.updThread t f).clk = s.clk := by cases t <;> rfl
@[simp] theorem State.updThread_gtsc0 (s : State) (t : TRef) (f : Thread → Thread) : (s.updThread t f).gtsc0 = s.gtsc0 := by cases t <;> rfl
@[simp] theorem State.updThread_tick (s : State) (t : TRef) (f : Thread → Thread) : (s.updThread t f).tick = s.tick := by cases t <;> rfl
@[simp] theorem State.updThread_nextId (s : State) (t : TRef) (f : Thread → Thread) : (s.updThread t f).nextId = s.nextId := by cases t <;> rfl
@[simp] theorem State.updThread_stamp (s : State) (t : TRef) (f : Thread → Thread) : (s.updThread t f).stamp = s.stamp := by cases t <;> rfl
@[simp] theorem State.updThread_gang (s : State) (t : TRef) (f : Thread → Thread) : (s.updThread t f).gang = s.gang := by cases t <;> rfl
@[simp] theorem State.updThread_turns (s : State) (t : TRef) (f : Thread → Thread) : (s.updThread t f).turns = s.turns := by cases t <;> rfl
@[simp] theorem State.updThread_mem (s : State) (t : TRef) (f : Thread → Thread) : (s.updThread t f).mem = s.mem := by cases t <;> rfl
@[simp] theorem State.updThread_cores (s : State) (t : TRef) (f : Thread → Thread) : (s.updThread t f).cores = s.cores := by cases t <;> rfl
@[simp] theorem State.updThread_launches (s : State) (t : TRef) (f : Thread → Thread) : (s.updThread t f).launches = s.launches := by cases t <;> rfl
@[simp] theorem State.updThread_ops (s : State) (t : TRef) (f : Thread → Thread) : (s.updThread t f).ops = s.ops := by cases t <;> rfl
@[simp] theorem State.updThread_reqs (s : State) (t : TRef) (f : Thread → Thread) : (s.updThread t f).reqs = s.reqs := by cases t <;> rfl
@[simp] theorem State.updThread_incs (s : State) (t : TRef) (f : Thread → Thread) : (s.updThread t f).incs = s.incs := by cases t <;> rfl
@[simp] theorem State.updThread_xlat (s : State) (t : TRef) (f : Thread → Thread) : (s.updThread t f).xlat = s.xlat := by cases t <;> rfl
@[simp] theorem State.updThread_bank (s : State) (t : TRef) (f : Thread → Thread) : (s.updThread t f).bank = s.bank := by cases t <;> rfl
@[simp] theorem State.updThread_fab (s : State) (t : TRef) (f : Thread → Thread) : (s.updThread t f).fab = s.fab := by cases t <;> rfl
@[simp] theorem State.updThread_cp (s : State) (t : TRef) (f : Thread → Thread) : (s.updThread t f).cp = s.cp := by cases t <;> rfl
@[simp] theorem State.updThread_boot (s : State) (t : TRef) (f : Thread → Thread) : (s.updThread t f).boot = s.boot := by cases t <;> rfl
@[simp] theorem State.updThread_thr_remote (s : State) (g i : Nat) (f : Thread → Thread) : (s.updThread (.thr g i) f).remote = s.remote := rfl
@[simp] theorem State.updThread_callee_groups (s : State) (c : Nat) (f : Thread → Thread) : (s.updThread (.callee c) f).groups = s.groups := rfl

/-! `State.begin_`. -/

@[simp] theorem State.begin_clk (s : State) (t : TRef) (c : Ctl) (k : OpKind) (a : Option Scope) : (s.begin_ t c k a).clk = s.clk := by simp [State.begin_]
@[simp] theorem State.begin_gtsc0 (s : State) (t : TRef) (c : Ctl) (k : OpKind) (a : Option Scope) : (s.begin_ t c k a).gtsc0 = s.gtsc0 := by simp [State.begin_]
@[simp] theorem State.begin_tick (s : State) (t : TRef) (c : Ctl) (k : OpKind) (a : Option Scope) : (s.begin_ t c k a).tick = s.tick := by simp [State.begin_]
@[simp] theorem State.begin_stamp (s : State) (t : TRef) (c : Ctl) (k : OpKind) (a : Option Scope) : (s.begin_ t c k a).stamp = s.stamp := by simp [State.begin_]
@[simp] theorem State.begin_gang (s : State) (t : TRef) (c : Ctl) (k : OpKind) (a : Option Scope) : (s.begin_ t c k a).gang = s.gang := by simp [State.begin_]
@[simp] theorem State.begin_turns (s : State) (t : TRef) (c : Ctl) (k : OpKind) (a : Option Scope) : (s.begin_ t c k a).turns = s.turns := by simp [State.begin_]
@[simp] theorem State.begin_mem (s : State) (t : TRef) (c : Ctl) (k : OpKind) (a : Option Scope) : (s.begin_ t c k a).mem = s.mem := by simp [State.begin_]
@[simp] theorem State.begin_cores (s : State) (t : TRef) (c : Ctl) (k : OpKind) (a : Option Scope) : (s.begin_ t c k a).cores = s.cores := by simp [State.begin_]
@[simp] theorem State.begin_launches (s : State) (t : TRef) (c : Ctl) (k : OpKind) (a : Option Scope) : (s.begin_ t c k a).launches = s.launches := by simp [State.begin_]
@[simp] theorem State.begin_reqs (s : State) (t : TRef) (c : Ctl) (k : OpKind) (a : Option Scope) : (s.begin_ t c k a).reqs = s.reqs := by simp [State.begin_]
@[simp] theorem State.begin_incs (s : State) (t : TRef) (c : Ctl) (k : OpKind) (a : Option Scope) : (s.begin_ t c k a).incs = s.incs := by simp [State.begin_]
@[simp] theorem State.begin_xlat (s : State) (t : TRef) (c : Ctl) (k : OpKind) (a : Option Scope) : (s.begin_ t c k a).xlat = s.xlat := by simp [State.begin_]
@[simp] theorem State.begin_bank (s : State) (t : TRef) (c : Ctl) (k : OpKind) (a : Option Scope) : (s.begin_ t c k a).bank = s.bank := by simp [State.begin_]
@[simp] theorem State.begin_fab (s : State) (t : TRef) (c : Ctl) (k : OpKind) (a : Option Scope) : (s.begin_ t c k a).fab = s.fab := by simp [State.begin_]
@[simp] theorem State.begin_cp (s : State) (t : TRef) (c : Ctl) (k : OpKind) (a : Option Scope) : (s.begin_ t c k a).cp = s.cp := by simp [State.begin_]
@[simp] theorem State.begin_boot (s : State) (t : TRef) (c : Ctl) (k : OpKind) (a : Option Scope) : (s.begin_ t c k a).boot = s.boot := by simp [State.begin_]

/-! `State.haltGroup` and `State.trap` of a thread. -/

@[simp] theorem State.haltGroup_clk (s : State) (g : Nat) (w : HaltWhy) (d : Nat) : (s.haltGroup g w d).clk = s.clk := rfl
@[simp] theorem State.haltGroup_gtsc0 (s : State) (g : Nat) (w : HaltWhy) (d : Nat) : (s.haltGroup g w d).gtsc0 = s.gtsc0 := rfl
@[simp] theorem State.haltGroup_tick (s : State) (g : Nat) (w : HaltWhy) (d : Nat) : (s.haltGroup g w d).tick = s.tick := rfl
@[simp] theorem State.haltGroup_nextId (s : State) (g : Nat) (w : HaltWhy) (d : Nat) : (s.haltGroup g w d).nextId = s.nextId := rfl
@[simp] theorem State.haltGroup_stamp (s : State) (g : Nat) (w : HaltWhy) (d : Nat) : (s.haltGroup g w d).stamp = s.stamp := rfl
@[simp] theorem State.haltGroup_gang (s : State) (g : Nat) (w : HaltWhy) (d : Nat) : (s.haltGroup g w d).gang = s.gang := rfl
@[simp] theorem State.haltGroup_turns (s : State) (g : Nat) (w : HaltWhy) (d : Nat) : (s.haltGroup g w d).turns = s.turns := rfl
@[simp] theorem State.haltGroup_mem (s : State) (g : Nat) (w : HaltWhy) (d : Nat) : (s.haltGroup g w d).mem = s.mem := rfl
@[simp] theorem State.haltGroup_launches (s : State) (g : Nat) (w : HaltWhy) (d : Nat) : (s.haltGroup g w d).launches = s.launches := rfl
@[simp] theorem State.haltGroup_ops (s : State) (g : Nat) (w : HaltWhy) (d : Nat) : (s.haltGroup g w d).ops = s.ops := rfl
@[simp] theorem State.haltGroup_reqs (s : State) (g : Nat) (w : HaltWhy) (d : Nat) : (s.haltGroup g w d).reqs = s.reqs := rfl
@[simp] theorem State.haltGroup_incs (s : State) (g : Nat) (w : HaltWhy) (d : Nat) : (s.haltGroup g w d).incs = s.incs := rfl
@[simp] theorem State.haltGroup_xlat (s : State) (g : Nat) (w : HaltWhy) (d : Nat) : (s.haltGroup g w d).xlat = s.xlat := rfl
@[simp] theorem State.haltGroup_bank (s : State) (g : Nat) (w : HaltWhy) (d : Nat) : (s.haltGroup g w d).bank = s.bank := rfl
@[simp] theorem State.haltGroup_remote (s : State) (g : Nat) (w : HaltWhy) (d : Nat) : (s.haltGroup g w d).remote = s.remote := rfl
@[simp] theorem State.haltGroup_fab (s : State) (g : Nat) (w : HaltWhy) (d : Nat) : (s.haltGroup g w d).fab = s.fab := rfl
@[simp] theorem State.haltGroup_cp (s : State) (g : Nat) (w : HaltWhy) (d : Nat) : (s.haltGroup g w d).cp = s.cp := rfl
@[simp] theorem State.haltGroup_boot (s : State) (g : Nat) (w : HaltWhy) (d : Nat) : (s.haltGroup g w d).boot = s.boot := rfl
@[simp] theorem State.trap_clk (s : State) (g i cause : Nat) (a : W64) (w : Bool) (k : BitVec 16) : (s.trap (.thr g i) cause a w k).clk = s.clk := rfl
@[simp] theorem State.trap_gtsc0 (s : State) (g i cause : Nat) (a : W64) (w : Bool) (k : BitVec 16) : (s.trap (.thr g i) cause a w k).gtsc0 = s.gtsc0 := rfl
@[simp] theorem State.trap_tick (s : State) (g i cause : Nat) (a : W64) (w : Bool) (k : BitVec 16) : (s.trap (.thr g i) cause a w k).tick = s.tick := rfl
@[simp] theorem State.trap_nextId (s : State) (g i cause : Nat) (a : W64) (w : Bool) (k : BitVec 16) : (s.trap (.thr g i) cause a w k).nextId = s.nextId := rfl
@[simp] theorem State.trap_stamp (s : State) (g i cause : Nat) (a : W64) (w : Bool) (k : BitVec 16) : (s.trap (.thr g i) cause a w k).stamp = s.stamp := rfl
@[simp] theorem State.trap_gang (s : State) (g i cause : Nat) (a : W64) (w : Bool) (k : BitVec 16) : (s.trap (.thr g i) cause a w k).gang = s.gang := rfl
@[simp] theorem State.trap_turns (s : State) (g i cause : Nat) (a : W64) (w : Bool) (k : BitVec 16) : (s.trap (.thr g i) cause a w k).turns = s.turns := rfl
@[simp] theorem State.trap_mem (s : State) (g i cause : Nat) (a : W64) (w : Bool) (k : BitVec 16) : (s.trap (.thr g i) cause a w k).mem = s.mem := rfl
@[simp] theorem State.trap_launches (s : State) (g i cause : Nat) (a : W64) (w : Bool) (k : BitVec 16) : (s.trap (.thr g i) cause a w k).launches = s.launches := rfl
@[simp] theorem State.trap_ops (s : State) (g i cause : Nat) (a : W64) (w : Bool) (k : BitVec 16) : (s.trap (.thr g i) cause a w k).ops = s.ops := rfl
@[simp] theorem State.trap_reqs (s : State) (g i cause : Nat) (a : W64) (w : Bool) (k : BitVec 16) : (s.trap (.thr g i) cause a w k).reqs = s.reqs := rfl
@[simp] theorem State.trap_incs (s : State) (g i cause : Nat) (a : W64) (w : Bool) (k : BitVec 16) : (s.trap (.thr g i) cause a w k).incs = s.incs := rfl
@[simp] theorem State.trap_xlat (s : State) (g i cause : Nat) (a : W64) (w : Bool) (k : BitVec 16) : (s.trap (.thr g i) cause a w k).xlat = s.xlat := rfl
@[simp] theorem State.trap_bank (s : State) (g i cause : Nat) (a : W64) (w : Bool) (k : BitVec 16) : (s.trap (.thr g i) cause a w k).bank = s.bank := rfl
@[simp] theorem State.trap_remote (s : State) (g i cause : Nat) (a : W64) (w : Bool) (k : BitVec 16) : (s.trap (.thr g i) cause a w k).remote = s.remote := rfl
@[simp] theorem State.trap_fab (s : State) (g i cause : Nat) (a : W64) (w : Bool) (k : BitVec 16) : (s.trap (.thr g i) cause a w k).fab = s.fab := rfl
@[simp] theorem State.trap_cp (s : State) (g i cause : Nat) (a : W64) (w : Bool) (k : BitVec 16) : (s.trap (.thr g i) cause a w k).cp = s.cp := rfl
@[simp] theorem State.trap_boot (s : State) (g i cause : Nat) (a : W64) (w : Bool) (k : BitVec 16) : (s.trap (.thr g i) cause a w k).boot = s.boot := rfl
@[simp] theorem State.haltGroup_cores (s : State) (g : Nat) (w : HaltWhy) (d : Nat) : (s.haltGroup g w d).cores = (s.abandon g).cores := rfl
@[simp] theorem State.trap_cores (s : State) (g i cause : Nat) (a : W64) (w : Bool) (k : BitVec 16) : (s.trap (.thr g i) cause a w k).cores = (s.abandon g).cores := rfl

/-! `State.abandon`. -/

@[simp] theorem State.abandon_clk (s : State) (g : Nat) : (s.abandon g).clk = s.clk := rfl
@[simp] theorem State.abandon_gtsc0 (s : State) (g : Nat) : (s.abandon g).gtsc0 = s.gtsc0 := rfl
@[simp] theorem State.abandon_tick (s : State) (g : Nat) : (s.abandon g).tick = s.tick := rfl
@[simp] theorem State.abandon_nextId (s : State) (g : Nat) : (s.abandon g).nextId = s.nextId := rfl
@[simp] theorem State.abandon_stamp (s : State) (g : Nat) : (s.abandon g).stamp = s.stamp := rfl
@[simp] theorem State.abandon_gang (s : State) (g : Nat) : (s.abandon g).gang = s.gang := rfl
@[simp] theorem State.abandon_turns (s : State) (g : Nat) : (s.abandon g).turns = s.turns := rfl
@[simp] theorem State.abandon_mem (s : State) (g : Nat) : (s.abandon g).mem = s.mem := rfl
@[simp] theorem State.abandon_launches (s : State) (g : Nat) : (s.abandon g).launches = s.launches := rfl
@[simp] theorem State.abandon_groups (s : State) (g : Nat) : (s.abandon g).groups = s.groups := rfl
@[simp] theorem State.abandon_ops (s : State) (g : Nat) : (s.abandon g).ops = s.ops := rfl
@[simp] theorem State.abandon_reqs (s : State) (g : Nat) : (s.abandon g).reqs = s.reqs := rfl
@[simp] theorem State.abandon_incs (s : State) (g : Nat) : (s.abandon g).incs = s.incs := rfl
@[simp] theorem State.abandon_xlat (s : State) (g : Nat) : (s.abandon g).xlat = s.xlat := rfl
@[simp] theorem State.abandon_bank (s : State) (g : Nat) : (s.abandon g).bank = s.bank := rfl
@[simp] theorem State.abandon_remote (s : State) (g : Nat) : (s.abandon g).remote = s.remote := rfl
@[simp] theorem State.abandon_fab (s : State) (g : Nat) : (s.abandon g).fab = s.fab := rfl
@[simp] theorem State.abandon_cp (s : State) (g : Nat) : (s.abandon g).cp = s.cp := rfl
@[simp] theorem State.abandon_boot (s : State) (g : Nat) : (s.abandon g).boot = s.boot := rfl

end Sys2Proof.Machine
end

