-- ==== Sys2Proof/Laws/Memory.lean ====
section
/-! SUPPORT. The laws of the memories: a byte reads as it was last written, a write leaves every other byte alone, and
every memory operation keeps the canonical form. -/

namespace Sys2Proof.Machine

/-! Cells. -/

/-- Every listed address lies above a bound. -/
def cellsAbove (a : Nat) (l : List Host.Cell) : Prop := ∀ c ∈ l, a < c.1

theorem cellsRise_cons (a : Nat) (x : Byte) (l : List Host.Cell) :
    cellsRise ((a, x) :: l) = true ↔ cellsAbove a l ∧ cellsRise l = true := by
  induction l generalizing a x with
  | nil => simp [cellsRise, cellsAbove]
  | cons c l ih =>
    obtain ⟨b, y⟩ := c
    simp only [cellsRise, Bool.and_eq_true, decide_eq_true_eq]
    rw [ih]
    constructor
    · rintro ⟨h, hb, hr⟩
      exact ⟨fun c hc => by
        rcases List.mem_cons.1 hc with rfl | hc
        · exact h
        · exact lt_trans h (hb c hc), hb, hr⟩
    · rintro ⟨ha, hb, hr⟩
      exact ⟨ha _ List.mem_cons_self, hb, hr⟩

theorem cellFind_above (a : Nat) (l : List Host.Cell) (h : cellsAbove a l) : cellFind l a = none := by
  cases l with
  | nil => rfl
  | cons c l =>
    obtain ⟨b, y⟩ := c
    have hb : a < b := h (b, y) List.mem_cons_self
    simp [cellFind, hb, Nat.ne_of_lt hb]

theorem cellPut_mem (a : Nat) (x : Byte) (l : List Host.Cell) (c : Host.Cell) (h : c ∈ cellPut a x l) : c = (a, x) ∨ c ∈ l := by
  induction l with
  | nil => simp [cellPut] at h; exact .inl h
  | cons d l ih =>
    obtain ⟨b, y⟩ := d
    simp only [cellPut] at h
    split at h
    · rcases List.mem_cons.1 h with h | h
      · exact .inl h
      · exact .inr h
    · split at h
      · rcases List.mem_cons.1 h with h | h
        · exact .inl h
        · exact .inr (List.mem_cons_of_mem _ h)
      · rcases List.mem_cons.1 h with h | h
        · exact .inr (h ▸ List.mem_cons_self)
        · rcases ih h with h | h
          · exact .inl h
          · exact .inr (List.mem_cons_of_mem _ h)

theorem cellDel_mem (a : Nat) (l : List Host.Cell) (c : Host.Cell) (h : c ∈ cellDel a l) : c ∈ l := by
  induction l with
  | nil => simp [cellDel] at h
  | cons d l ih =>
    obtain ⟨b, y⟩ := d
    simp only [cellDel] at h
    split at h
    · exact h
    · split at h
      · exact List.mem_cons_of_mem _ h
      · rcases List.mem_cons.1 h with h | h
        · exact h ▸ List.mem_cons_self
        · exact List.mem_cons_of_mem _ (ih h)

theorem cellsRise_put (a : Nat) (x : Byte) (l : List Host.Cell) (h : cellsRise l = true) : cellsRise (cellPut a x l) = true := by
  induction l with
  | nil => rfl
  | cons d l ih =>
    obtain ⟨b, y⟩ := d
    obtain ⟨hb, hr⟩ := (cellsRise_cons b y l).1 h
    simp only [cellPut]
    split
    · next hab => exact (cellsRise_cons a x _).2 ⟨fun c hc => by
        rcases List.mem_cons.1 hc with rfl | hc
        · exact hab
        · exact lt_trans hab (hb c hc), h⟩
    · split
      · next hab => subst hab; exact (cellsRise_cons a x l).2 ⟨hb, hr⟩
      · next h1 h2 => exact (cellsRise_cons b y _).2 ⟨fun c hc => by
          rcases cellPut_mem a x l c hc with rfl | hc
          · simp; omega
          · exact hb c hc, ih hr⟩

theorem cellsRise_del (a : Nat) (l : List Host.Cell) (h : cellsRise l = true) : cellsRise (cellDel a l) = true := by
  induction l with
  | nil => rfl
  | cons d l ih =>
    obtain ⟨b, y⟩ := d
    obtain ⟨hb, hr⟩ := (cellsRise_cons b y l).1 h
    simp only [cellDel]
    split
    · exact h
    · split
      · exact hr
      · exact (cellsRise_cons b y _).2 ⟨fun c hc => hb c (cellDel_mem a l c hc), ih hr⟩

theorem cellFind_put_same (a : Nat) (x : Byte) (l : List Host.Cell) : cellFind (cellPut a x l) a = some x := by
  induction l with
  | nil => simp [cellPut, cellFind]
  | cons d l ih =>
    obtain ⟨b, y⟩ := d
    simp only [cellPut]
    split
    · simp [cellFind]
    · split
      · simp [cellFind]
      · next h1 h2 => simp only [cellFind]; rw [if_neg h2, if_neg h1]; exact ih

theorem cellFind_put_other (a b : Nat) (x : Byte) (l : List Host.Cell) (h : cellsRise l = true) (hn : b ≠ a) :
    cellFind (cellPut a x l) b = cellFind l b := by
  induction l with
  | nil => simp [cellPut, cellFind, hn]
  | cons d l ih =>
    obtain ⟨e, y⟩ := d
    obtain ⟨he, hr⟩ := (cellsRise_cons e y l).1 h
    simp only [cellPut]
    split
    · next hae =>
      by_cases hba : b < a
      · simp only [cellFind, hn, hba, if_true, if_false]
        rw [if_neg (by omega), if_pos (by omega)]
      · simp only [cellFind, hn, hba, if_false]
    · split
      · next hae =>
        subst hae
        simp only [cellFind, hn, if_false]
      · simp only [cellFind, ih hr]

theorem cellFind_del_same (a : Nat) (l : List Host.Cell) (h : cellsRise l = true) : cellFind (cellDel a l) a = none := by
  induction l with
  | nil => rfl
  | cons d l ih =>
    obtain ⟨e, y⟩ := d
    obtain ⟨he, hr⟩ := (cellsRise_cons e y l).1 h
    simp only [cellDel]
    split
    · next h1 => simp only [cellFind, h1, if_true]; rw [if_neg (by omega)]
    · split
      · next h1 h2 => subst h2; exact cellFind_above a l he
      · next h1 h2 => simp only [cellFind, h1, h2, if_false]; exact ih hr

theorem cellFind_del_other (a b : Nat) (l : List Host.Cell) (h : cellsRise l = true) (hn : b ≠ a) :
    cellFind (cellDel a l) b = cellFind l b := by
  induction l with
  | nil => rfl
  | cons d l ih =>
    obtain ⟨e, y⟩ := d
    obtain ⟨he, hr⟩ := (cellsRise_cons e y l).1 h
    simp only [cellDel]
    split
    · rfl
    · split
      · next h1 h2 =>
        subst h2
        by_cases hb : b < a
        · simp only [cellFind, hn, hb, if_true, if_false]
          exact cellFind_above b l fun c hc => lt_trans hb (he c hc)
        · simp only [cellFind, hn, hb, if_false]
      · simp only [cellFind, ih hr]

theorem cellSet0_rise (a : Nat) (x : Byte) (l : List Host.Cell) (h : cellsRise l = true) : cellsRise (cellSet0 a x l) = true := by
  simp only [cellSet0]; split
  · exact cellsRise_del a l h
  · exact cellsRise_put a x l h

/-- A byte of a memory whose unlisted bytes read zero: the byte just written, every other one as before. -/
theorem cellSet0_read (a b : Nat) (x : Byte) (l : List Host.Cell) (h : cellsRise l = true) :
    (cellFind (cellSet0 a x l) b).getD 0 = if b = a then x else (cellFind l b).getD 0 := by
  simp only [cellSet0]
  by_cases hb : b = a
  · subst hb; split
    · next h0 => rw [cellFind_del_same b l h, if_pos rfl, h0]; rfl
    · rw [cellFind_put_same, if_pos rfl]; rfl
  · rw [if_neg hb]; split
    · rw [cellFind_del_other a b l h hb]
    · rw [cellFind_put_other a b x l h hb]

theorem cellSet0_zero (a : Nat) (x : Byte) (l : List Host.Cell) (h : cellsZero l = true) : cellsZero (cellSet0 a x l) = true := by
  simp only [cellsZero, Bool.and_eq_true, List.all_eq_true] at h ⊢
  refine ⟨cellSet0_rise a x l h.1, fun c hc => ?_⟩
  simp only [cellSet0] at hc
  split at hc
  · exact h.2 c (cellDel_mem a l c hc)
  · next hx =>
    rcases cellPut_mem a x l c hc with rfl | hc
    · simpa using hx
    · exact h.2 c hc

theorem putBytes_keeps (P : List Host.Cell → Prop) (put : Nat → Byte → List Host.Cell → List Host.Cell)
    (hp : ∀ a x l, P l → P (put a x l)) (a : Nat) (xs : List Byte) (l : List Host.Cell) (h : P l) : P (putBytes put a xs l) := by
  induction xs generalizing a l with
  | nil => exact h
  | cons x xs ih => exact ih (a + 1) _ (hp a x l h)

/-- Bytes put at consecutive addresses read back, and every other byte reads as before. -/
theorem putBytes_read (a b : Nat) (xs : List Byte) (l : List Host.Cell) (h : cellsRise l = true) :
    (cellFind (putBytes cellSet0 a xs l) b).getD 0 =
      if a ≤ b ∧ b < a + xs.length then xs.getD (b - a) 0 else (cellFind l b).getD 0 := by
  induction xs generalizing a l with
  | nil => simp [putBytes]
  | cons x xs ih =>
    simp only [putBytes]
    rw [ih (a + 1) _ (cellSet0_rise a x l h), cellSet0_read a b x l h]
    by_cases hba : b = a
    · subst hba; simp
    · by_cases hin : a + 1 ≤ b ∧ b < a + 1 + xs.length
      · rw [if_pos hin, if_pos (by simp; omega)]
        obtain ⟨k, rfl⟩ : ∃ k, b = a + 1 + k := ⟨b - (a + 1), by omega⟩
        have h1 : a + 1 + k - (a + 1) = k := by omega
        have h2 : a + 1 + k - a = k + 1 := by omega
        rw [h1, h2]; rfl
      · rw [if_neg hin, if_neg hba, if_neg (by simp; omega)]

/-! The memories keep their canonical form. -/

theorem Memory.wf_iff (m : Memory) : m.wf = true ↔ cellsZero m.dram = true ∧ cellsRise m.hostw = true := by
  simp [Memory.wf]

theorem Memory.wf_dramWrite (m : Memory) (pa : Nat) (data : List Byte) (h : m.wf = true) : (m.dramWrite pa data).wf = true := by
  rw [Memory.wf_iff] at h ⊢
  exact ⟨putBytes_keeps _ _ cellSet0_zero pa data m.dram h.1, h.2⟩

theorem Memory.wf_fill (m : Memory) (a ways : Nat) (h : m.wf = true) : (m.fill a ways).wf = true := by
  unfold Memory.fill; split
  · exact h
  · exact h

theorem Memory.wf_writeback (m : Memory) (b : Nat) (keep : Bool) (h : m.wf = true) : (m.writeback b keep).wf = true := by
  unfold Memory.writeback; split
  · exact h
  · next x _ =>
    rw [Memory.wf_iff] at h ⊢
    by_cases hd : x.dirty = true
    · simp only [hd, if_true]
      exact ⟨putBytes_keeps _ _ cellSet0_zero x.base x.data m.dram h.1, h.2⟩
    · simp only [hd, Bool.false_eq_true, if_false]
      exact h

theorem Memory.wf_foldl (α : Type) (f : Memory → α → Memory) (hf : ∀ m x, m.wf = true → (f m x).wf = true) (l : List α) (m : Memory)
    (h : m.wf = true) : (l.foldl f m).wf = true := by
  induction l generalizing m with
  | nil => exact h
  | cons x l ih => exact ih _ (hf m x h)

theorem Memory.wf_perform (m : Memory) (pa : Nat) (data : List Byte) (bypass : Bool) (ways : Nat) (h : m.wf = true) :
    (m.perform pa data bypass ways).wf = true := by
  unfold Memory.perform; split
  · rw [Memory.wf_iff] at h ⊢
    exact ⟨h.1, putBytes_keeps (fun l => cellsRise l = true) _ cellsRise_put pa data m.hostw h.2⟩
  · refine Memory.wf_foldl _ _ (fun m b hm => ?_) _ _ ?_
    · simp only
      split
      · exact Memory.wf_writeback _ _ _ hm
      · exact hm
    · split
      · exact h
      · exact Memory.wf_foldl _ _ (fun m b hm => Memory.wf_fill m b _ hm) _ _ h

theorem Memory.wf_reset : State.reset.mem.wf = true := by decide

/-- A write past the L2 reads back byte by byte, and leaves every other DRAM byte alone. -/
theorem Memory.dramWrite_read (m : Memory) (pa b : Nat) (data : List Byte) (h : m.wf = true) :
    (m.dramWrite pa data).dramByte b = if pa ≤ b ∧ b < pa + data.length then data.getD (b - pa) 0 else m.dramByte b := by
  have hr : cellsRise m.dram = true := by
    have := ((Memory.wf_iff m).1 h).1
    simp only [cellsZero, Bool.and_eq_true] at this; exact this.1
  exact putBytes_read pa b data m.dram hr

end Sys2Proof.Machine
end

