-- ==== Sys2Proof/Laws/Form.lean ====
section
/-! SUPPORT. The memory operations keep the L2's sectors whole and aligned. -/

namespace Sys2Proof.Machine

/-- One sector is 32 aligned bytes. -/
theorem Memory.l2Ok_iff (m : Memory) : m.l2Ok = true ↔ ∀ x ∈ m.l2, x.data.length = 32 ∧ x.base % 32 = 0 := by
  simp [Memory.l2Ok, List.all_eq_true]

theorem Memory.visBytes_length (m : Memory) (a n : Nat) : (m.visBytes a n).length = n := by simp [Memory.visBytes]
theorem Memory.dramBytes_length (m : Memory) (a n : Nat) : (m.dramBytes a n).length = n := by simp [Memory.dramBytes]
theorem mergeSector_length (b : Nat) (old : List Byte) (pa : Nat) (d : List Byte) : (mergeSector b old pa d).length = 32 := by
  simp [mergeSector]

theorem sectorsOf_aligned {pa n b : Nat} (h : b ∈ sectorsOf pa n) : b % 32 = 0 := by
  unfold sectorsOf at h
  split at h
  · simp at h
  · obtain ⟨i, -, rfl⟩ := List.mem_map.mp h
    omega

theorem putSector_mem {x y : Sector} {l : List Sector} (h : y ∈ putSector x l) : y = x ∨ y ∈ l := by
  unfold putSector at h
  split at h
  · obtain ⟨z, hz, rfl⟩ := List.mem_map.mp h
    split
    · exact .inl rfl
    · exact .inr hz
  · simpa using h

theorem Memory.sector_mem {m : Memory} {a : Nat} {x : Sector} (h : m.sector? a = some x) : x ∈ m.l2 :=
  List.mem_of_find?_eq_some h

theorem Memory.l2Ok_fill {m : Memory} (a ways : Nat) (h : m.l2Ok = true) : (m.fill a ways).l2Ok = true := by
  unfold Memory.fill
  split
  · exact h
  · rw [Memory.l2Ok_iff] at h ⊢
    intro x hx
    rcases List.mem_cons.mp hx with rfl | hx
    · exact ⟨Memory.dramBytes_length _ _ _, by simp⟩
    · exact h x hx

theorem Memory.l2Ok_fills {m : Memory} (ways : Nat) (l : List Nat) (h : m.l2Ok = true) :
    (l.foldl (fun m b => m.fill b (m.waysOf b ways)) m).l2Ok = true := by
  induction l generalizing m with
  | nil => exact h
  | cons b l ih => exact ih (Memory.l2Ok_fill b _ h)

theorem Memory.l2Ok_writeback {m : Memory} (b : Nat) (keep : Bool) (h : m.l2Ok = true) : (m.writeback b keep).l2Ok = true := by
  unfold Memory.writeback
  split
  · exact h
  · rename_i x hx
    rw [Memory.l2Ok_iff] at h ⊢
    have hs := h x (Memory.sector_mem hx)
    intro y hy
    cases keep with
    | true =>
      have hy' : y ∈ putSector { x with dirty := false } m.l2 := by
        by_cases hd : x.dirty <;> simpa [hd] using hy
      rcases putSector_mem hy' with rfl | hy'
      · exact hs
      · exact h y hy'
    | false =>
      have hy' : y ∈ m.l2 := by
        by_cases hd : x.dirty <;> simp [hd] at hy <;> exact hy.1
      exact h y hy'

theorem Memory.l2Ok_dramWrite {m : Memory} (pa : Nat) (d : List Byte) (h : m.l2Ok = true) : (m.dramWrite pa d).l2Ok = true := h

/-- A write performed at its point of visibility keeps the sectors whole. -/
theorem Memory.l2Ok_perform {m : Memory} (pa : Nat) (d : List Byte) (bypass : Bool) (ways : Nat) (h : m.l2Ok = true) :
    (m.perform pa d bypass ways).l2Ok = true := by
  unfold Memory.perform
  split
  · exact h
  · have key : ∀ l : List Nat, (∀ b ∈ l, b % 32 = 0) → ∀ m : Memory, m.l2Ok = true →
        (l.foldl (fun m b =>
          let old := m.visBytes b 32
          let m := { m with l2 := putSector ⟨b, mergeSector b old pa d, true, m.waysOf b ways⟩ m.l2 }
          if bypass then m.writeback b false else m) m).l2Ok = true := by
      intro l
      induction l with
      | nil => exact fun _ m hm => hm
      | cons b l ih =>
        intro hl m hm
        have hput : ({ m with l2 := putSector ⟨b, mergeSector b (m.visBytes b 32) pa d, true, m.waysOf b ways⟩ m.l2 } : Memory).l2Ok = true := by
          rw [Memory.l2Ok_iff] at hm ⊢
          intro x hx
          rcases putSector_mem hx with rfl | hx
          · exact ⟨mergeSector_length _ _ _ _, hl b (by simp)⟩
          · exact hm x hx
        refine ih (fun x hx => hl x (by simp [hx])) _ ?_
        split
        · exact Memory.l2Ok_writeback _ _ hput
        · exact hput
    refine key _ (fun b hb => sectorsOf_aligned hb) _ ?_
    split
    · exact h
    · exact Memory.l2Ok_fills _ _ h

/-! The whole state's form. -/

theorem State.formOk_iff (s : State) :
    s.formOk = true ↔ s.mem.wf = true ∧ s.mem.l2Ok = true ∧ ∀ k ∈ s.cores, cellsRise k.spad = true := by
  simp [State.formOk, List.all_eq_true, and_assoc]

/-- The form is a matter of the DRAM, the host memory, the L2 and the cores. -/
theorem State.formOk_bytes {s t : State} (hd : t.mem.dram = s.mem.dram) (hh : t.mem.hostw = s.mem.hostw) (hl : t.mem.l2 = s.mem.l2)
    (hc : t.cores = s.cores) (h : s.formOk = true) : t.formOk = true := by
  simpa only [State.formOk, Memory.wf, Memory.l2Ok, hd, hh, hl, hc] using h

/-- A state with the memories and cores of one in form is in form. -/
theorem State.formOk_of {s t : State} (hm : t.mem = s.mem) (hc : t.cores = s.cores) (h : s.formOk = true) : t.formOk = true := by
  simpa only [State.formOk, hm, hc] using h

theorem State.coreAt_rise {s : State} (c : Nat) (h : s.formOk = true) : cellsRise (s.coreAt c).spad = true := by
  unfold State.coreAt
  cases hf : s.cores.find? fun k => k.id == c with
  | none => rfl
  | some k => exact ((State.formOk_iff s).1 h).2.2 k (List.mem_of_find?_eq_some hf)

theorem listSet_mem {α : Type} {p : α → Bool} {x y : α} {l : List α} (h : y ∈ listSet p x l) : y = x ∨ y ∈ l := by
  unfold listSet at h
  split at h
  · obtain ⟨z, hz, rfl⟩ := List.mem_map.mp h
    split
    · exact .inl rfl
    · exact .inr hz
  · rcases List.mem_append.mp h with h | h
    · exact .inr h
    · exact .inl (by simpa using h)

/-- A change of one core that keeps its scratchpad in form keeps the state in form. -/
theorem State.formOk_updCore {s : State} (c : Nat) (f : Core → Core) (hf : ∀ k, cellsRise k.spad = true → cellsRise (f k).spad = true)
    (h : s.formOk = true) : (s.updCore c f).formOk = true := by
  have hs := (State.formOk_iff s).1 h
  rw [State.formOk_iff]
  refine ⟨hs.1, hs.2.1, fun k hk => ?_⟩
  rcases listSet_mem hk with rfl | hk
  · exact hf _ (State.coreAt_rise c h)
  · exact hs.2.2 k hk

theorem State.formOk_setSpad {s : State} (c off : Nat) (d : List Byte) (h : s.formOk = true) : (s.setSpad c off d).formOk = true :=
  State.formOk_updCore c _ (fun k hk => putBytes_keeps (fun l => cellsRise l = true) _ cellsRise_put off d k.spad hk) h

theorem State.formOk_pokeWindow {s : State} (pa : Nat) (d : List Byte) (h : s.formOk = true) : (s.pokeWindow pa d).formOk = true := by
  unfold State.pokeWindow
  split
  · split
    · exact State.formOk_of rfl rfl h
    · exact h
  · exact State.formOk_setSpad _ _ d h
  · exact h

theorem State.testWrite_mem (s : State) (pa : Nat) : (s.testWrite pa).mem = s.mem := by
  simp only [State.testWrite]
  split
  · split <;> rfl
  · rfl

theorem State.testWrite_cores (s : State) (pa : Nat) : (s.testWrite pa).cores = s.cores := by
  simp only [State.testWrite]
  split
  · split <;> rfl
  · rfl

theorem State.formOk_writeback {s : State} (b : Nat) (keep : Bool) (h : s.formOk = true) : (s.writeback b keep).formOk = true := by
  have hs := (State.formOk_iff s).1 h
  unfold State.writeback
  split
  · exact h
  · rename_i x _
    rw [State.formOk_iff]
    simp only
    split
    · rw [State.testWrite_mem, State.testWrite_cores]
      exact ⟨Memory.wf_writeback _ _ _ hs.1, Memory.l2Ok_writeback _ _ hs.2.1, hs.2.2⟩
    · exact ⟨Memory.wf_writeback _ _ _ hs.1, Memory.l2Ok_writeback _ _ hs.2.1, hs.2.2⟩

/-- Room made for a line keeps the form. -/
theorem State.formOk_l2Room {s : State} (pa : Nat) (h : s.formOk = true) : ((s.l2Room pa).getD s).formOk = true := by
  have go : ∀ (l : List Nat) (s : State), s.formOk = true → (l.foldl (fun s b => s.writeback b false) s).formOk = true := by
    intro l
    induction l with
    | nil => exact fun _ h => h
    | cons b l ih => exact fun s h => ih _ (State.formOk_writeback b false h)
  simp only [State.l2Room]
  split
  · exact h
  · cases s.pick _ _ with
    | none => exact h
    | some l => exact go _ s h

/-- Room made for the lines of a range keeps the form. -/
theorem State.formOk_l2RoomAll {s : State} (pa n : Nat) (h : s.formOk = true) : (s.l2RoomAll pa n).formOk = true := by
  have go : ∀ (l : List Nat) (s : State), s.formOk = true → (l.foldl (fun s b => (s.l2Room b).getD s) s).formOk = true := by
    intro l
    induction l with
    | nil => exact fun _ h => h
    | cons b l ih => exact fun s h => ih _ (State.formOk_l2Room b h)
  exact go _ s h

theorem State.testWrites_same (l : List Nat) (s : State) :
    (l.foldl (fun s b => s.testWrite b) s).mem = s.mem ∧ (l.foldl (fun s b => s.testWrite b) s).cores = s.cores := by
  induction l generalizing s with
  | nil => exact ⟨rfl, rfl⟩
  | cons b l ih =>
    exact ⟨(ih _).1.trans (State.testWrite_mem s b), (ih _).2.trans (State.testWrite_cores s b)⟩

/-- What follows a write in the migrations and the monitors touches no byte. -/
theorem State.after_same (s : State) (pa n : Nat) : ((s.markDirty pa n).wake pa n).mem = s.mem ∧ ((s.markDirty pa n).wake pa n).cores = s.cores :=
  ⟨rfl, rfl⟩

/-- A write performed at its point of visibility, wherever that is, keeps the form. -/
theorem State.formOk_perform {s : State} (pa : Nat) (d : List Byte) (bypass : Bool) (h : s.formOk = true) :
    (s.perform pa d bypass).formOk = true := by
  unfold State.perform
  split
  · exact State.formOk_pokeWindow pa d h
  · have key : ∀ s : State, s.formOk = true → ∀ w, ({ s with mem := s.mem.perform pa d bypass w } : State).formOk = true := by
      intro s h w
      have hs := (State.formOk_iff s).1 h
      rw [State.formOk_iff]
      exact ⟨Memory.wf_perform s.mem pa d bypass w hs.1, Memory.l2Ok_perform pa d bypass w hs.2.1, hs.2.2⟩
    cases bypass with
    | false => exact State.formOk_bytes rfl rfl rfl rfl (key _ (State.formOk_l2RoomAll pa d.length h) _)
    | true =>
      refine State.formOk_bytes ?_ ?_ ?_ ?_ (key s h (s.partitionOf pa)) <;>
        simp only [(State.after_same _ _ _).1, (State.after_same _ _ _).2, if_true, (State.testWrites_same _ _).1, (State.testWrites_same _ _).2]

end Sys2Proof.Machine
end

