-- ==== Sys2Proof/Laws/Issue.lean ====
section
/-! SUPPORT. What an issued native instruction comes to: the skeleton every meaning shares, reduced once for one thread, for
a gathered set and for a gang, so that a statement about an instruction never unfolds it. -/

set_option linter.unusedVariables false

namespace Sys2Proof.Machine

theorem native_next (c : Ctl) (i : Instr) (s : State) (f : State → TRef → Lane) : ∃ t, native c i s f = .next t := ⟨_, rfl⟩

theorem nativeAll_next (c : Ctl) (i : Instr) (s : State) (f : State → List TRef → State) : ∃ t, nativeAll c i s f = .next t :=
  ⟨_, rfl⟩

/-- One thread's issue past every check is its lane, settled. -/
theorem native_solo {c : Ctl} {i : Instr} {s s1 : State} {t : TRef} (f : State → TRef → Lane) (h : Runs c i s t s1) :
    native c i s f = .next (s1.endsWith t (f s1 t)) := by
  obtain ⟨h, rfl⟩ := h
  simp only [solo, Bool.and_eq_true, beq_iff_eq] at h
  obtain ⟨⟨⟨⟨hm, hg⟩, he⟩, hgd⟩, hp⟩ := h
  cases t with
  | callee i => simp [TRef.group] at hg
  | thr g i =>
    have he' := Option.isNone_iff_eq_none.mp he
    simp only [native, hm, List.foldl_cons, List.foldl_nil, he', hgd, State.endsWith]
    cases hpi : isPrivileged ‹Instr› <;> simp_all

/-- A thread of a group is no callee (R350), and is the whole gang. -/
theorem runs_callee {c : Ctl} {i : Instr} {s s1 : State} {t : TRef} (h : Runs c i s t s1) : (s1.ctx t).callee = false := by
  obtain ⟨h, rfl⟩ := h
  cases t with
  | thr g n => rfl
  | callee k => simp [solo, TRef.group] at h

theorem runs_one {c : Ctl} {i : Instr} {s s1 : State} {t : TRef} (h : Runs c i s t s1) : s.oneCrowd t c = false := by
  obtain ⟨h, rfl⟩ := h
  simp only [solo, Bool.and_eq_true, beq_iff_eq] at h
  simp only [State.oneCrowd, h.1.1.1.1, decide_eq_false_iff_not, Nat.not_lt]
  exact List.countP_le_length

/-- Steps that each keep the gang keep it together. -/
theorem foldl_gang {α : Type} {f : State → α → State} (hf : ∀ s t, (f s t).gang = s.gang) (l : List α) (s : State) :
    (l.foldl f s).gang = s.gang := by
  induction l generalizing s with
  | nil => rfl
  | cons t l ih => exact (ih _).trans (hf s t)

theorem mark_gang (c : Ctl) (s : State) : (s.mark c).gang = s.gang := by
  simp only [State.mark]
  refine (foldl_gang (fun s gw => ?_) _ _).trans (foldl_gang (fun s t => ?_) _ _)
  · split <;> rfl
  · cases t <;> rfl

/-- A set that breaks no limit is handed to the meaning whole. -/
theorem nativeAll_team {c : Ctl} {i : Instr} {s s1 : State} {ms : List TRef} (f : State → List TRef → State)
    (h : RunsAll c i s ms s1) : nativeAll c i s f = .next (f s1 ms).tokenEnds := by
  obtain ⟨h, rfl⟩ := h
  simp only [team, Bool.and_eq_true, beq_iff_eq, List.all_eq_true] at h
  obtain ⟨hm, hall⟩ := h
  subst hm
  have : (s.gang.members.filterMap fun t => (s.encodingFault t c i).map fun k => (t, k)) = [] := by
    rw [List.filterMap_eq_nil_iff]
    intro t ht
    have := (hall t ht).2
    simp_all [Option.isNone_iff_eq_none]
  have hs : ∀ t ∈ s.gang.members, (s.mark c).spent t = false := by
    intro t ht
    have := (hall t ht).1
    cases t with
    | thr g n => rfl
    | callee k => simp [TRef.group] at this
  have h1 : s.gang.members.filter (s.mark c).spent = [] := by
    rw [List.filter_eq_nil_iff]; intro t ht; simp [hs t ht]
  have h2 : (s.gang.members.filter fun t => !(s.mark c).spent t) = s.gang.members := by
    rw [List.filter_eq_self]; intro t ht; simp [hs t ht]
  simp only [nativeAll, this, List.isEmpty_nil, if_true, mark_gang, h1, h2, List.foldl_nil]

/-- A thread whose guard is false goes to its next slot with nothing done (R30). -/
theorem native_off {c : Ctl} {i : Instr} {s : State} {g n : Nat} (f : State → TRef → Lane) (hm : s.gang.members = [.thr g n])
    (he : s.encodingFault (.thr g n) c i = none) (hg : (s.mark c).guard (.thr g n) c = false) :
    native c i s f = .next ((s.mark c).ends (.thr g n) (s.mark c)) := by
  simp [native, hm, he, hg, State.ends, State.endsWith]

/-- A privileged form at user level takes trap 2 and does nothing else (R44). -/
theorem native_user {c : Ctl} {i : Instr} {s : State} {g n : Nat} (f : State → TRef → Lane) (hm : s.gang.members = [.thr g n])
    (he : s.encodingFault (.thr g n) c i = none) (hg : (s.mark c).guard (.thr g n) c = true) (hp : isPrivileged i = true)
    (hu : ((s.mark c).ctx (.thr g n)).priv = false) :
    native c i s f = .next ((s.mark c).trap (.thr g n) causePrivilege 0 false 0).tokenEnds := by
  simp [native, hm, he, hg, hp, hu]

/-- A form past a limit of the launch or the clause takes that limit's trap (R32, R39, R42, R123). -/
theorem native_limit {c : Ctl} {i : Instr} {s : State} {g n k : Nat} (f : State → TRef → Lane)
    (hm : s.gang.members = [.thr g n]) (he : s.encodingFault (.thr g n) c i = some k) :
    native c i s f = .next ((s.mark c).trap (.thr g n) k 0 false 0).tokenEnds := by
  simp [native, hm, he]

/-- Every native form is the skeleton over its own lane; the forms that act for a set as a whole, over the set. -/
theorem exec_native {i : Instr} {c : Ctl} (s : State) (h : ctlOf i = some c) (hw : actsWhole i = false) (hr : i ≠ .rret c) :
    ∃ f, exec i s = native c i s f := by
  cases i <;> simp only [ctlOf, actsWhole, Option.some.injEq, reduceCtorEq, Bool.true_eq_false] at h hw <;> subst h <;>
    first | exact ⟨_, rfl⟩ | exact absurd rfl hr
theorem exec_nativeAll {i : Instr} {c : Ctl} (s : State) (h : ctlOf i = some c) (hw : actsWhole i = true) :
    ∃ f, exec i s = nativeAll c i s f := by
  cases i <;> simp only [ctlOf, actsWhole, Option.some.injEq, reduceCtorEq, Bool.false_eq_true] at h hw <;> subst h <;>
    first
    | exact ⟨_, rfl⟩
    | (simp only [exec, execShfl, execVote, execMatchv, execWred, execWmaxi, execWscan, execElect, execTokLeave, collective]
       exact ⟨_, rfl⟩)

/-! Outcomes of a lane. -/

theorem settle_next {s0 s s' : State} {t : TRef} (h : s.advance t = .ok s') : s0.settleLane t (.next s) = s' := by
  simp [State.settleLane, h]
theorem settle_next_bad {s0 s : State} {t : TRef} {k : Nat} {va : W64} (h : s.advance t = .bad k va) :
    s0.settleLane t (.next s) = s0.trapTarget t k va := by
  simp [State.settleLane, h]
theorem settle_goto {s0 s s' : State} {t : TRef} {pc : W64} (h : s.enter t pc = .ok s') :
    s0.settleLane t (.goto s pc) = s' := by
  simp [State.settleLane, h]
@[simp] theorem settle_stay (s0 s : State) (t : TRef) : s0.settleLane t (.stay s) = s := rfl
@[simp] theorem settle_stop (s0 s : State) (t : TRef) : s0.settleLane t (.stop s) = s := rfl
@[simp] theorem settle_trap (s0 s : State) (t : TRef) (c : Nat) (a : W64) (w : Bool) :
    s0.settleLane t (.trap s c a w) = s.trap t c a w 0 := rfl

/-- Before the last slot a thread goes on to the next one (R27). -/
theorem advance_mid {s : State} {t : TRef} (h : (s.thread t).slot.toNat < s.gang.hdr.cnt) :
    s.advance t = .ok (s.updThread t fun x => { x with slot := x.slot + 1, stepOver := false }) := by
  simp [State.advance, h]

/-- A transfer to a word that is no header takes trap 8 (R27). -/
theorem enter_bad {s : State} {t : TRef} {va : W64} {k : Nat} (h : s.target t va = .bad k) : s.enter t va = .bad k va := by
  simp [State.enter, h]
theorem enter_header {s s' : State} {t : TRef} {va : W64} {w : W96} (h : s.target t va = .header w s') :
    s.enter t va = .ok (s'.moveTo t va) := by
  simp [State.enter, h]

/-! Parts of a gang. -/

theorem gangParts_nil : gangParts [] = [] := rfl
theorem gangParts_one (t : TRef) : gangParts [t] = [[t]] := by cases t <;> simp [gangParts]

/-! Traps. -/

theorem haltGroup_gang (s : State) (g : Nat) (w : HaltWhy) (d : Nat) : (s.haltGroup g w d).gang = s.gang := rfl

/-- A trap of a thread reaches nothing but the groups, and abandons the matrix operations its group has queued (R227,
R414). -/
theorem trap_restSame (s : State) (g i k : Nat) (a : W64) (w : Bool) (code : BitVec 16) :
    (s.abandon g).restSame (s.trap (.thr g i) k a w code) := by
  simp [State.restSame]

/-! Bank-group commands. -/

theorem bgGo_run {s : State} {r : BgRun} (h : bgGo s r = true) : s.bgRun = some r := by
  simp only [bgGo, Bool.and_eq_true, beq_iff_eq] at h
  exact h.1.1.1

/-- A command whose checks every engine of the run passes takes effect on all of them (R288, R290). -/
theorem bgCommand_done {s : State} {r : BgRun} {check : Engine → Option Nat} {reads : Engine → List Nat}
    {act : State → BgRun → Engine → State × Engine} {next : Engine → Nat} (h : bgGo s r = true)
    (hc : ∀ e ∈ r.set, check e = none) (hr : readsClean s r reads = true) :
    bgCommand s check reads act next = .next (s.bgDone r (next r.lead) act) := by
  have hrun := bgGo_run h
  simp only [bgGo, Bool.and_eq_true, decide_eq_true_eq, List.all_eq_true, Bool.not_eq_true'] at h
  simp only [readsClean, List.all_eq_true, Bool.not_eq_true'] at hr
  obtain ⟨⟨⟨-, hpc⟩, hcm⟩, hbad⟩ := h
  have hnil : s.bgFails r check reads = [] := by
    refine List.filterMap_eq_nil_iff.mpr fun e he => ?_
    simp only [hc e he, hbad e he, hr e he, Nat.not_le.mpr hpc, Nat.not_le.mpr hcm, if_false, Option.orElse_none]
    rfl
  simp only [bgCommand, hrun, hnil]
  rfl

end Sys2Proof.Machine
end

