-- ==== Sys2Proof/Safety.lean ====
section
/-! DEFINITION. What a safe run is: from a state, every number of steps taken so far has given a next state, and the
memories stand in their canonical form. -/

namespace Sys2Proof

/-- A state that `n` steps reach. -/
def Reaches (n : Nat) (s t : Machine.State) : Prop := Host.Core.run core n s = .next t

/-- The memories of a state stand in canonical form: listed addresses rise, and no listed byte is what an unlisted one reads as. -/
def MemoryOk (s : Machine.State) : Prop := s.mem.wf = true

/-- No step of the first `n` stops with a fault or a refusal. -/
def Safe (n : Nat) (s : Machine.State) : Prop := ∀ k, k ≤ n → ∃ t, Reaches k s t

end Sys2Proof
end

