-- ==== Sys2Proof/Tests/Slice0.lean ====
section
/-! SUPPORT. Tests: ill-formed terms that the check refuses, instruction words written out from the encodings of the manual,
single steps on small states, and for every statement with hypotheses a state and operands that meet them. -/

set_option linter.unusedVariables false
set_option Elab.async false

namespace Sys2Proof.Tests

open Sys2Proof Sys2Proof.Machine

/-! Small states. -/

/-- Guard pt, no stall, flag set A. -/
def wc : Ctl := ⟨7, false, 0, false, false, false⟩
/-- A guard that is false for every thread. -/
def wn : Ctl := ⟨7, true, 0, false, false, false⟩
/-- Guard p0. -/
def wp : Ctl := ⟨0, false, 0, false, false, false⟩

/-- A header of a clause of kind `k` with two slots and both flag sets valid. -/
def wHeader (k : Nat) : W96 := ((0x90004220 + 4 * BitVec.ofNat 96 k : W96) <<< 64)
def wRptHeader : W96 := wHeader 3
def wRejHeader : W96 := wHeader 1

/-- Registers of the tests: a mapped, writable address in v0:v1, small numbers, the entry clause in v6:v7, a mapped aligned
address in v8:v9, lane masks in v4. -/
def wRegs : List W32 :=
  [0x18000, 0, 0, 5, 1, 0x03020100, 0x10000, 0, 0x18080, 0, 0x100, 0, 1, 1, 0, 0x3F800000] ++ List.replicate 240 0

/-- Bytes put into the code page, at an offset from its start. -/
def wPut (off : Nat) (b : List Byte) (s : State) : State :=
  { s with mem := { s.mem with dram := putBytes cellSet0 (0x140000 + off) b s.mem.dram } }

/-- A state with one thread at slot 1 of a clause of two slots, the issue context set; its thread, launch and group changed. -/
def wMake (f : Thread → Thread) (l : Launch → Launch) (g : Group → Group) : State :=
  let s := State.reset.withFetchWord 96 0
  let s : State := { s with
    launches := s.launches.map fun L => l { L with rc := { L.rc with scratch := 1024, accrows := 64 } }
    groups := s.groups.map fun G => g { G with
      waves := G.waves.map fun w => { w with acclim := 64 }
      threads := G.threads.map fun x => f { x with slot := 1, v := wRegs } } }
  { s with gang := ⟨0, 0, 0x10000, 1, { headerOf placedHeader with cnt := 2 }, [.thr 1 0], false⟩ }

def w0 : State := wMake id id id
/-- Two threads of one wave, p0 set for the first. -/
def w2 : State :=
  let s := wMake id id fun G => { G with threads := G.threads.flatMap fun x => [{ x with p := 1, v := x.v.set 4 3 }, { x with tid := 1, lane := 1, v := x.v.set 4 3 }] }
  { s with gang := { s.gang with members := [.thr 1 0, .thr 1 1] } }
/-- At privileged level. -/
def wPriv : State :=
  let s := wMake id (fun L => { L with priv := true }) id
  { s with gang := { s.gang with priv := true } }
/-- In quantum mode. -/
def wQuant : State := wMake id (fun L => { L with rc := { L.rc with quant := true } }) id
def wRpt : State := wPut 0x100 (natToBytes 12 wRptHeader.toNat) w0
def wRej : State := wPut 0x100 (natToBytes 12 wRejHeader.toNat) w0
/-- With a token open at the rejoin clause. -/
def wTok : State := wPut 0x100 (natToBytes 12 wRejHeader.toNat) (wMake id id fun G =>
  { G with waves := G.waves.map fun w => { w with tokens := w.tokens.set 0 ⟨true, 0x10100, none, 2, 0⟩ } })
/-- At the last slot, of a clause of one slot and of fifteen. -/
def wEnd : State := { w0 with gang := { w0.gang with hdr := headerOf placedHeader } }
def wEnd15 : State :=
  let s := wMake (fun x => { x with slot := 15 }) id id
  { s with gang := { s.gang with slot := 15, hdr := { s.gang.hdr with cnt := 15 } } }
/-- At the last slot of a repeat body with two passes left. -/
def wRep : State :=
  let s := wMake (fun x => { x with slot := 2, rep := some ⟨2, 0x10000, 0x10000, 2, 0⟩ }) id id
  { s with gang := { s.gang with slot := 2 } }

/-- With the data page not resident. -/
def wAway : State :=
  let m : Memory := { w0.mem with dram := putBytes cellSet0 0x130008 (bytes8 0x1400EF) w0.mem.dram }
  { w0 with mem := m }
/-- With v14 at the last word of the scratchpad share. -/
def wSpadEnd : State := wMake (fun x => { x with v := x.v.set 14 16380 }) id id
/-- With %prog at its end. -/
def wProg : State := wMake (fun x => { x with prog := 64 }) id id

def wNoGroup : Group := ⟨0, 0, 0, 0, 0, 0, false, none, 0, 0, [], [], [], [], none, 0, none⟩
/-- The group of a state as an issue leaves it. -/
def wG (s : State) : Group := match (s.mark wc).groups with | G :: _ => G | [] => wNoGroup

/-- Scratchpad bytes of core 0. -/
def wSpad (b : List Byte) : State := w0.updCore 0 fun k => { k with spad := putBytes cellPut 0 b [] }
/-- A queue of two one-word entries at 0x100 with its control word at 0: empty, full. -/
def wQ : State := wSpad (bytes4 0x100 ++ bytes4 0x10001 ++ List.replicate 8 0)
def wQFull : State := wSpad (bytes4 0x100 ++ bytes4 0x10001 ++ [0, 0, 2, 0] ++ List.replicate 4 0)
/-- A barrier that expects one arrival, in phase 0. -/
def wBarr : State := wSpad ([1, 0, 1, 0] ++ List.replicate 12 0)

/-- A thread of a wave. -/
def wThread (tid wave : Nat) : Thread := { Thread.blank with tid := tid, wave := wave, v := wRegs, pc := 0x10000, slot := 1, p := 0 }
def wWave (idx core slot : Nat) (mb : W32) : Wave :=
  { Wave.blank with idx := idx, core := core, slot := slot, tokens := List.replicate 16 Token.blank, acclim := 64, mbind := mb }
def wW (s : State) : Wave := match (wG s).waves with | W :: _ => W | [] => Wave.blank
/-- Four waves on the four slices of one core, unbound, and bound as quartet 0. -/
def wFour : State := wMake id id fun G =>
  { G with waves := (List.range 4).map fun i => wWave i 0 (8 * i) 0, threads := (List.range 4).map fun i => wThread i i }
def wFourB : State := wMake id id fun G =>
  { G with waves := (List.range 4).map fun i => wWave i 0 (8 * i) (mbWord i 0 false false), threads := (List.range 4).map fun i => wThread i i }
/-- A pair group with a quartet on each of its two cores. -/
def wEight : State := wMake id (fun L => { L with rc := { L.rc with pair := true } }) fun G =>
  { G with
    pair := true
    waves := (List.range 8).map fun i => wWave i (i / 4) (8 * (i % 4)) (mbWord (i % 4) 0 true (4 ≤ i))
    threads := (List.range 8).map fun i => wThread i i }
def wMuOp : MuOp := ⟨7, 1, 0, 0, false, 0, 0, 16, 0, 0, [.v 2], [(false, 0, 0), (false, 1, 0), (false, 2, 0), (false, 3, 0)], [], [0], [(0, 0)], false, 0⟩
def wMu : State := w0.updCore 0 fun k => { k with mu := [wMuOp] }
def wG0 (s : State) : Group := match s.groups with | G :: _ => G | [] => wNoGroup
/-- A tensor record of one dimension of 64 BF16 elements at 0x18080. -/
def wTensor : State :=
  wPut 0x8080 (bytes8 0x18000 ++ bytes8 0 ++ bytes4 64 ++ bytes4 1 ++ bytes4 1 ++ bytes4 1 ++ bytes4 1 ++ List.replicate 20 0 ++ [63, 0, 0, 0, 0, 0x20, 4, 0]) w0
/-- A unicast route to this device. -/
def wRoute : State := wMake (fun x => { x with routes := [1 <<< 73, 0, 0, 0] }) id id
def wRouteQ : State := wMake (fun x => { x with routes := [1 <<< 73, 0, 0, 0] }) (fun L => { L with rc := { L.rc with quant := true } }) id
/-- With every ring of 16 entries in device memory. -/
def wRing : State := { w0 with cp := { w0.cp with queues := w0.cp.queues.map fun k => { k with base := 0x200000, size := 16 } } }
def wPlan : State := { w0 with fab := { w0.fab with plans := [⟨63, 0, 0x10, [], 0⟩] } }
/-- A callee about to return. -/
def wCallee : State :=
  let k : Call := ⟨8, 7, ⟨0, 0, 0, 1⟩, false, false, 0, 0x18000, 0x148000, true, false, 0x10000, 0x10, [], 1, 0, 0, .running, 0, false, false, 0, 0, [], false⟩
  let C : Callee := ⟨9, 8, 0, { Thread.blank with v := List.replicate 32 0, pc := 0x10000, slot := 1 }, 4095⟩
  { w0 with remote := { w0.remote with calls := [k], callees := [C] }, gang := { w0.gang with members := [.callee 9] } }
/-- A handler group, of group 2 of another launch. -/
def wHandled : Group := { wNoGroup with id := 2, launch := 5 }
def wHandler : State :=
  let s := wMake id (fun L => { L with priv := true }) fun G => { G with handles := some 2 }
  { s with groups := s.groups ++ [wHandled], gang := { s.gang with priv := true } }


/-! Bank-group engines. -/

/-- A run of engine 0 of a launch whose descriptor has four emit slots an engine, with bank 0 of the engine open at a row the
launch writes and bank 1 at the block-table row; the program holds a loop. -/
def wBg : State :=
  let s := (State.reset.withFetchWord 32 0x34000001)
  let s := s.setEngine { s.engine 0 with
    rows := [some 5, some 65535, none, none]
    store := ((s.engine 0).store.set 1 0x38000000)
    loops := [(3, 2)], x := [0, 0, 7, 0, 0, 0, 0, 0xFFFFFF] }
  { s with bank := { s.bank with
    launches := s.bank.launches.map fun l => { l with body := List.replicate 104 0 ++ [4] ++ List.replicate 23 0 }
    rot := [⟨0, 5, 5, 3, 15, .write, true, 0, 0⟩] } }
def wRunOf (s : State) : BgRun := match s.bgRun with
  | some r => r
  | none => ⟨⟨0, false, 0, 0, 0, 0, 0, [], true, .queued, [], [], [], none, 0, false, none, none⟩, 0, ⟨[], false, 0, false, false, [], 0, [], none, none⟩, Engine.reset 0, []⟩
/-- With one loop left to end, and with none. -/
def wBgLast : State := wBg.setEngine { wBg.engine 0 with loops := [(3, 1)] }
def wBgFlat : State := wBg.setEngine { wBg.engine 0 with loops := [] }

/-! Work in flight. -/

def wOp (k : OpKind) : Op := ⟨7, .thr 1 0, 0, some 0, k, none, [], [], [], [], [], [], 0⟩
def wWith (k : OpKind) : State := { w0 with ops := [wOp k], nextId := 8 }
def wPart : Part := ⟨.spad 0 0, 4, false, none, none⟩
def wRmw : Rmw := ⟨.add, .b32, 0x148000, 1, 0, false⟩
def wAtomic : State := wWith (.atomic 3 wRmw (some 4))
def wAcall : State := wWith (.acall 3 0x148000 0x18000 0x10000 0x10 [1] 4 1 false)
/-- A store of one byte on its way. -/
def wStored : QWrite := ⟨7, .ls, 0, 0x148000, [1], false, some (.thr 1 0), [], [], [], .own, 7, [], none⟩
def wWq : State := { w0 with mem := { w0.mem with wq := [wStored] } }
def wSleep : State := wMake (fun x => { x with sleep := some 0 }) id id

/-- A request body of a kind with fields at byte offsets. -/
def wBody (kind : Nat) (fs : List (Nat × List Byte)) : List Byte :=
  fs.foldl (fun b f => overlay 0 b f.1 f.2) (natToBytes 8 kind ++ List.replicate 56 0)
def wReq (body : List Byte) : Req :=
  ⟨7, 6, 0, 0, 0, 1, 0x10, .spad 0 64, body, none, false, [], none, 0, 0, none, none, none, false⟩
/-- A linear copy and a fill within device memory, tensor, gather, scatter-add and layout requests, a signal of a barrier. -/
def wLinear : Req := wReq (wBody 0 [(24, bytes8 0x18000), (32, bytes8 0x18200), (40, [8])])
def wFill : Req := wReq (wBody 5 [(24, bytes8 0x18200), (32, [8]), (40, [1, 2, 3, 4])])
def wTile : Req := wReq (wBody 1 [(24, bytes8 0x18080), (32, natToBytes 8 (2 ^ 63)), (60, [1])])
def wRows (k : Nat) : Req := wReq (wBody k [(24, bytes8 0x18000), (32, bytes8 0x18400), (40, bytes8 0x18300), (48, [1]), (52, [4]), (56, [1])])
def wLay : Req := wReq (wBody 4 [(24, bytes8 0x18080), (32, bytes8 0x18080)])
def wSignal : Req := { wReq (wBody 10 [(16, [0, 0, 0, 0, 1]), (24, [1])]) with bar := some (0, 0) }
/-- Remote requests to this device's own rank. -/
def wRem (k : Nat) : Req := wReq (wBody k [(24, bytes8 0x18000), (32, bytes8 0x18200), (40, [8])])
def wHasReq (r : Req) : State := { wTensor with reqs := [r], nextId := 8, fab := { wTensor.fab with root := 0x100001 } }
def wPiece : Piece := ⟨.nowhere, [1, 2, 3, 4], 0, .spad 0 0, 0, 32, none, false, false, 0, 0⟩
def wLands : Req := { wLinear with began := true, pieces := [wPiece], total := 4 }
def wGone : Req := { wLands with pieces := [{ wPiece with dst := .mem 0xFFFFFFFFFFFFC, dva := 0x18000 }] }
theorem wGone_span : (wHasReq wGone).landSpan wGone.pieces 0 = [(0, 0, 32)] := by
  simp [State.landSpan, wGone, wLands, wPiece, Place.wordBit, Place.spot, Nat.mod_one, spanBack, spanOn]
def wVoid : Req := { wLinear with body := 9 :: List.replicate 63 0 }
def wDone : Req := { wLinear with began := true, total := 8, landed := 8 }
def wInc : CtrInc := ⟨7, 0x148000, none, [], false, none⟩
def wKick : Kick := ⟨64, 0, some (.thr 1 0), 1⟩
/-- A kick held by the request engine of core 0, of a chain of one linear copy. -/
def wKicked : State := (wSpad (List.replicate 64 0 ++ wBody 0x40 [(24, bytes8 0x18000), (32, bytes8 0x18200), (40, [8])])).updCore 0 fun k => { k with kicks := [wKick] }

/-! Rings, bank launches, migrations, calls and the fabric. -/

/-- A ring of 16 entries that holds one entry, pushed by the host, in the context of the table at 0x100000. -/
def wEntry (q : Nat) (b : List Byte) : State :=
  let s := wPut 0x8080 (List.replicate 112 0 ++ bytes8 0x18008 ++ List.replicate 8 0) w0
  { s with mem := { s.mem with dram := putBytes cellSet0 0x200000 b s.mem.dram }
           cp := { s.cp with queues := s.cp.queues.set q ⟨0x200000, 16, 1, 0, 0x100001, [], []⟩ } }
def wBankRing : State := wEntry 6 (bytes8 0x18080 ++ bytes8 0)
def wLaunchB (load : Bool) (body : List Byte) : BankLaunch :=
  ⟨7, load, 0x18080, 0x10, 0xFFFF, 0, 0, body, true, .queued, [], [], [], none, 0, false, none, none⟩
def wStoreLoad : BankLaunch := wLaunchB true (bytes8 0x18000 ++ bytes4 0x10000 ++ bytes4 0x1FF ++ List.replicate 16 0)
/-- A descriptor of one engine with no ranges and its completion word at 0x18008. -/
def wAdmitB : BankLaunch := wLaunchB false (List.replicate 9 0 ++ [1] ++ List.replicate 102 0 ++ bytes8 0x18008 ++ List.replicate 8 0)
def wBankOf (L : BankLaunch) : State := { w0 with bank := { w0.bank with launches := [L] } }
def wInstB : Inst := ⟨[0], true, 0, false, true, [], 5, [], none, none⟩
def wRexB : BankLaunch := { wAdmitB with phase := .running, insts := [wInstB] }
def wRexLast : BankLaunch := { wRexB with insts := [{ wInstB with rex := 3 }] }
def wMergeB : BankLaunch := { wAdmitB with body := List.replicate 1 0 ++ [0x10] ++ List.replicate 7 0 ++ [1] ++ List.replicate 118 0, phase := .running, insts := [{ wInstB with status := some 0 }] }
def wDoneB : BankLaunch := { wRexB with comp := some (0x148008, false), insts := [{ wInstB with status := some 0 }] }
def wDirty : Sector := ⟨0x148000, List.replicate 32 1, true, 0⟩
def wL2 : State := { w0 with mem := { w0.mem with l2 := [wDirty] } }

def wMig : Mig := ⟨8, 7, 0x10000, 0x10, 0, 0, 0, 0x20, .waiting, 0, []⟩
def wMigOf (m : Mig) : State := { w0 with xlat := { w0.xlat with migs := [m] } }
def wCopying : Mig := { wMig with leafPa := 0x130008, old := 0x14, phase := .copying }
def wFinal : Mig := { wCopying with phase := .final, passes := 1, dirty := [5] }
def wStub : Stub := ⟨9, 0x10000, 0x10, 0, 0x14, 0, 0x20, 0, [], []⟩
/-- A store that waits at a stub, with hops behind it. -/
def wAtStub (hops : List (Nat × Nat)) : State := { wWq with xlat := { wWq.xlat with stubs := [wStub], hops := hops } }
def wWaiting (s : State) (id : Nat) : AtStub := (s.waitsAt id).getD ⟨wStub, 0⟩
def wRedir : Redir := ⟨7, 0, 0x10, 0x14, some 0x20⟩
def wStubs (b : Stub) : State := { w0 with xlat := { w0.xlat with stubs := [b] } }
def wPr : PrRecord := ⟨1, 2, none⟩
def wPrRing : State := { w0 with xlat := { w0.xlat with prBase := 0x200000, prSize := 8, prHeld := [wPr] } }

def wCall (p : CallPhase) : Call :=
  ⟨8, 7, ⟨0, 0, 0, 1⟩, false, false, 0, 0x18000, 0x148000, true, false, 0x10000, 0x10, [], 1, 4, 0, p, 0, false, false, 0, 0, [5], false⟩
def wCalling (k : Call) : State := { wWith (.rcall 8 4 1) with nextId := 9, remote := { w0.remote with calls := [k] } }
def wLate (k : Call) : State := { wCalling k with clk := 100000 }
def wDedup : Dedup := ⟨7, 0, ⟨0, 0, 0, 1⟩, 8, some 0, 0, 0, []⟩
def wDedups : State := { w0 with clk := 1300000, remote := { w0.remote with dedup := [wDedup] } }

/-- The fabric on, two ranks, every port up. -/
def wFab : State :=
  { w0 with fab := { w0.fab with id := 0x10000, ctl := 3, root := 0x100001, lanes := List.replicate 18 4 } }
def wXfer (o : XferOf) (p : Packet) : Xfer := ⟨7, 1, o, p, some 0, 0, some 0⟩
def wSent (o : XferOf) (p : Packet) (rs : List Req) : State := { wFab with clk := 10000000, reqs := rs, fab := { wFab.fab with xfers := [wXfer o p] } }
def wOut : Req := { wRem 7 with began := true, total := 8, xfer := some 1 }
def wFrame : State := { wFab with fab := { wFab.fab with slotNext := some none } }
def wRate : State := { wFab with gtsc0 := 4000, fab := { wFab.fab with rate := [(1, 4)] } }
/-- A reduction control block of one slot of 64 bytes, FP32, at 0x18100, its buffer at 0x18200 and its output at 0x18300. -/
def wRed : RedLand := ⟨7, 1, 0x18100, 0x18300, 0, List.replicate 64 0, 18⟩
def wRcb : State :=
  let s := wPut 0x8100 (bytes8 0 ++ bytes8 0x18200 ++ bytes8 0x18300 ++ bytes4 64 ++ [1, 0, 1, 0]) wFab
  { s with fab := { s.fab with waiting := [wRed] } }
/-- An instance of a collective of no elements. -/
def wInst : CollInst := ⟨7, 0, 0, List.replicate 128 0, 0x10, 0, none, false, [], [], 0, false, false⟩
def wColl (i : CollInst) : State := { wFab with fab := { wFab.fab with insts := [i] } }
/-- An instance of one element of one rank, its source read. -/
def wChunk : CollInst :=
  { wInst with
    desc := overlay 0 (List.replicate 128 0) 0 (bytes8 (BitVec.ofNat 64 (4 * 2 ^ 52)) ++ [1, 0, 1, 0, 1, 0, 1, 0] ++ (List.range 4).flatMap (fun _ => bytes4 1) ++
      List.replicate 16 0 ++ bytes8 0x18200)
    begun := true, contrib := [(0, [1, 0, 0, 0])] }

/-! Launches, partitions and the host. -/

/-- A launch record of one group of one thread for partition 0: entry 0x10000, completion word at 0x18008. -/
def wRecord : List Byte :=
  [(0, bytes8 0x10000), (44, bytes4 1), (48, bytes8 1000), (72, bytes8 0x18008), (112, bytes4 1)].foldl (fun b f => overlay 0 b f.1 f.2) (List.replicate 128 0)
/-- A partition of one cluster, in the context of the table at 0x100000, with shares. -/
def wPartOf (s : State) : State :=
  { s with cp := { s.cp with parts := s.cp.parts.set 0 { Part_.reset with rect := 0x4000, root := 0x100001, shares := 100 } } }
def wSubmit (e : List Byte) : State :=
  let s := wPartOf (wEntry 0 (e ++ List.replicate (32 - e.length) 0))
  { s with mem := { s.mem with dram := putBytes cellSet0 0x148080 wRecord s.mem.dram } }
def wRc : LaunchRec := launchOfBytes 0x18080 wRecord
def wNew : Launch := { Launch.blank with id := 7, rc := { wRc with ngrp := 1 }, root := 0x10, count := 0, upto := 1 }
def wHeads (L : Launch) : State :=
  let s := wPartOf State.reset
  { s with mem := w0.mem, launches := [L], nextId := 8, cp := { s.cp with heads := [(0, .range 7)] } }
def wPlace : Launch := { wNew with rc := wRc, count := 1 }
def wBodyE : List Byte := wBody 0x40 [(24, bytes8 0x18000), (32, bytes8 0x18200), (40, [8])]
def wCopyRing : State := wEntry 4 wBodyE
def wExited : State := wMake (fun x => { x with exited := true }) id id
def wEnded : State := { wHeads { wPlace with upto := 1, count := 0, ended := 1 } with cp := w0.cp }
def wDl : State := wMake id (fun L => { L with dl := some 0 }) id
def wHalted (w : HaltWhy) : State := wMake id id fun G => { G with halt := some ⟨w, 0, false, none, 0⟩ }
def wResv (p : Part_) : State := { w0 with cp := { w0.cp with parts := w0.cp.parts.set 0 p } }
def wPartH (r : Resv) : Part_ := { Part_.reset with rect := 0x4000, root := 0x100001, shares := 100, handler := 0x18080, reserved := r }
def wUnread : State :=
  let s := wResv (wPartH .unread)
  { s with groups := [], mem := { s.mem with dram := putBytes cellSet0 0x148080 wRecord s.mem.dram } }
def wPending : State := { wResv (wPartH (.pending wRc)) with groups := [] }
def wHeld : State := wResv { wPartH (.held wRc 3 [0] 0 0) with quietQ := [1] }
def wDraining : State := { wResv { Part_.reset with preempt := .halting } with groups := [] }
def wSaving : State := wResv { Part_.reset with rect := 0x4000, save := 0x200003 }
def wCommit : State := wMake (fun x => { x with qended := true }) (fun L => { L with rc := { L.rc with quant := true }, upto := 1 }) id
def wCommitting : State := wMake (fun x => { x with qended := true }) (fun L => { L with rc := { L.rc with quant := true }, upto := 1, committing := true }) id
def wErr : ErrRec := ⟨0, 0, 1, 0, 0, 0⟩
def wErrRing : State := { w0 with cp := { w0.cp with erBase := 0x200000, erSize := 16, erHeld := [wErr] } }
def wDebug : State := { w0 with boot := { w0.boot with dbg := 1 } }
def wL (s : State) : Launch := match s.launches with | L :: _ => L | [] => Launch.blank
theorem some_of_isSome {α : Type} {o : Option α} (h : o.isSome = true) : o = some (o.get h) := (Option.some_get h).symm
/-- The states and records of the checks that the tests make. -/
def wTaken (e : List Byte) : State := (((wSubmit e).ringTake 0).map fun x => x.2.2).getD (wSubmit e)
def wCk0 : RecCheck := (wTaken (bytes8 0x18080)).checkRecord ((wTaken (bytes8 0x18080)).entryRoot 0 none) (bitsOf (natAt (bytes8 0x18080 ++ List.replicate 24 0) 0 8) 56 4 * 16) (fun rc => (0, rc.ngrp + 1)) false
def wCk1 : RecCheck := wUnread.checkRecord (wUnread.partRoot 0) ((wPartH .unread).handler.toNat % 2 ^ 57) (fun rc => (0, rc.ngrp + 1)) false
theorem wCk0_ok : wCk0.okRc.isSome = true := by decide +kernel
theorem wCk1_ok : wCk1.okRc.isSome = true := by decide +kernel
def wNoPart : State := { wSubmit (bytes8 0x18080) with cp := (wEntry 0 []).cp }
def wTakenB : State := ((wNoPart.ringTake 0).map fun x => x.2.2).getD wNoPart
def wCkB : RecCheck := wTakenB.checkRecord (wTakenB.entryRoot 0 none) (bitsOf (natAt (bytes8 0x18080 ++ List.replicate 24 0) 0 8) 56 4 * 16) (fun rc => (0, rc.ngrp + 1)) false
theorem wCkB_ok : wCkB.badRc.isSome = true := by decide +kernel
theorem pair_of_isSome {α β : Type} {o : Option (α × β)} (h : o.isSome = true) : o = some ((o.get h).1, (o.get h).2) := (Option.some_get h).symm
def wTaken1 : State := wTaken (bytes8 0x18081)
def wCk2 : RecCheck := wTaken1.checkRecord (wTaken1.entryRoot 0 none) (bitsOf (natAt (bytes8 0x18081 ++ List.replicate 24 0) 0 8) 56 4 * 16)
  (fun _ => (natAt (bytes8 0x18081 ++ List.replicate 24 0) 24 8 / 2 ^ 24, natAt (bytes8 0x18081 ++ List.replicate 24 0) 24 8 % 2 ^ 24 + 1))
  (match wTaken1.entryRoot 0 none with | some f => wTaken1.cp.accepted.contains (bitsOf (natAt (bytes8 0x18081 ++ List.replicate 24 0) 0 8) 56 4 * 16, f) | none => false)
theorem wCk2_ok : wCk2.okRc.isSome = true := by decide +kernel
/-- With only eight registers a thread, with no valid flag set, and in a repeat body. -/
def wRegs8 : State := wMake id (fun L => { L with rc := { L.rc with regs := 0 } }) id
def wNoFlag : State := { w0 with gang := { w0.gang with hdr := { w0.gang.hdr with sav := false } } }
def wInRpt : State := { w0 with gang := { w0.gang with hdr := { w0.gang.hdr with kind := 3 } } }
/-- The placed nop of a booted module, and a word of no instruction. -/
def wNop : W96 := 0x0007C00C00C00C0000000000
def wStep : State := State.reset.withFetchWord 96 wNop.toNat
def wStepBad : State := State.reset.withFetchWord 96 (wNop + 1).toNat
def wCandOf (s : State) : Cand := match (s.slicePrepared 0 0).cands 0 0 with | c :: _ => c | [] => ⟨0, 0, 0, Header.reset, 0, false, []⟩
def wCand : Cand := wCandOf wStep
def wCandBad : Cand := wCandOf wStepBad
/-- A callee whose turn it is, at a nop. -/
def wStepCallee : State :=
  let s := wPut 0 (natToBytes 12 (wHeader 0).toNat ++ natToBytes 12 wNop.toNat) wCallee
  { s with turns := [.callee 9], boot := { s.boot with stat := 0xD } }

/-- The same entry, pushed by a thread of a launch. -/
def wPush : Push := ⟨0, [], none, 0, none, some 7⟩
def wPushed (b : List Byte) : State :=
  { wSubmit b with cp := { (wSubmit b).cp with queues := (wSubmit b).cp.queues.modify 0 fun k => { k with entries := [(0, wPush)] } } }
/-! Ill-formed terms (R42): every operand left out, then one term a check. -/

theorem test_wf_no_operands_0 : [Instr.brx wc false 0 .none,
    .call wc false .none 0,
    .callx wc false .none .none,
    .ret wc false 0 .none,
    .rpt wc .none 0,
    .setp wc .b32 .eq .set .none .none .none .none,
    .fsetp wc .b32 .eq .set .none .none .none .none,
    .pbool wc .and .none .none .none,
    .pmovSave wc .none,
    .pmovLoad wc .none 0,
    .getsr wc .b32 0 .none 0,
    .setsr wc .b32 0 0 .none,
    .mov wc .b32 false .none .none,
    .movi wc .b32 false .none 0,
    .add wc .b32 false .none .none .none,
    .sub wc .b32 false .none .none .none,
    .mul wc .b32 false .none .none .none,
    .mulhi wc .b32 .none .none .none,
    .mad wc .b32 false .none .none .none .none,
    .addc wc 0 0 .none .none .none,
    .subb wc 0 0 .none .none .none,
    .abs wc .b32 false .none .none,
    .min wc .b32 .none .none .none,
    .max wc .b32 .none .none .none].all (fun i => !Instr.wf i) = true := by decide

theorem test_wf_no_operands_1 : [Instr.and wc .b32 .none .none .none,
    .or wc .b32 .none .none .none,
    .xor wc .b32 .none .none .none,
    .not wc .b32 .none .none,
    .shl wc .b32 .none .none .none,
    .shr wc .b32 .none .none .none,
    .sra wc .b32 .none .none .none,
    .rot wc .b32 .none .none .none,
    .bfe wc .b32 .none .none .none,
    .bfi wc .none .none .none .none,
    .popc wc .b32 .none .none,
    .clz wc .b32 .none .none,
    .brev wc .b32 .none .none,
    .prmt wc .none .none .none .none,
    .sel wc .b32 .none .none .none .none,
    .lea wc .b32 0 .none .none .none,
    .dp4 wc .b32 false false .none .none .none .none,
    .mix32 wc .none .none .none,
    .fadd wc .b32 .rne .none .none .none,
    .fsub wc .b32 .rne .none .none .none,
    .fmul wc .b32 .rne .none .none .none,
    .ffma wc .b32 .rne .none .none .none .none,
    .fmin wc .b32 .none .none .none,
    .fmax wc .b32 .none .none .none].all (fun i => !Instr.wf i) = true := by decide

theorem test_wf_no_operands_2 : [Instr.fclamp wc .b32 .none .none .none .none,
    .frnd wc .b32 .rne .none .none,
    .fclass wc .b32 .none .none,
    .lg2 wc .none .none,
    .ex2 wc .none .none,
    .rcp wc .none .none,
    .rsq wc .none .none,
    .sqrt wc .none .none,
    .hadd2 wc .none .none .none,
    .hmul2 wc .none .none .none,
    .hfma2 wc .none .none .none .none,
    .hmax2 wc .none .none .none,
    .cvt wc .b32 .rne false 0 false .none .none .none,
    .pack wc .rne false 0 false .none .none .none .none,
    .unpk wc .b32 0 0 .none .none,
    .qswap wc .b32 0 .none .none,
    .qbcast wc .b32 0 .none .none,
    .shfl wc .b32 .abs 0 0 .none .none .none .none,
    .vote wc .any .none .none .none,
    .matchv wc .b32 .none .none .none,
    .wred wc .b32 .rne .add .none .none .none,
    .wmaxi wc .b32 .none .none .none .none,
    .wscan wc .b32 .rne .add false .none .none .none,
    .elect wc .none .none].all (fun i => !Instr.wf i) = true := by decide

theorem test_wf_no_operands_3 : [Instr.ld wc .b32 false .device false false 0 .none .none .none 0,
    .st wc .b32 false .device 0 .none .none 0,
    .lds wc .b32 0 .none .none 0,
    .sts wc .b32 0 .none .none 0,
    .ldk wc .b32 false false 0 .none .none 0,
    .gather wc .b32 false false 0 .none .none .none 0,
    .ldblk wc false false 0 .none .none 0,
    .prefetch wc false .none 0,
    .discard wc false .none 0,
    .satom wc .b32 .add .none .none .none .none 0,
    .mwait wc .b32 false .device .none .none .none 0,
    .qinit wc .none .none 0,
    .qpush wc false .none .none .none 0,
    .qpop wc false .none .none .none 0,
    .barrInit wc .none .none 0,
    .barrArrive wc false .none .none 0,
    .barrExpect wc .none .none 0,
    .barrWait wc .none .none .none 0,
    .barrQuery wc .none .none 0,
    .atom wc .b32 .add .none .device .none .none .none .none 0,
    .red wc .b32 .add .none .device .none .none 0,
    .acall wc 0 0 0 .none .none .none 0,
    .mma wc .none .none .none .none,
    .mmp wc .none .none .none .none].all (fun i => !Instr.wf i) = true := by decide

theorem test_wf_no_operands_4 : [Instr.mld wc .a .none .none .none .none,
    .aalloc wc false .none .none,
    .awin wc .none .none .none,
    .afree wc .none,
    .azero wc 0 .none,
    .ald wc 0 0 .none .none,
    .ast wc 0 0 .none .none,
    .mret wc 0 false .none .none .none,
    .mretRoute wc 0 0 .none .none .none,
    .epcfg wc .none .none .none,
    .ckick wc .none 0,
    .cpoll wc .none .none 0,
    .cntw wc .none .none .none 0,
    .cnta wc .none .none 0,
    .trec wc .none .none,
    .bgload wc .none .none 0,
    .bgx wc .none 0,
    .bgwait wc .none .none 0,
    .bgstatEng wc .none .none,
    .bgstatRmap wc .none .none,
    .pgreq wc false .none .none 0,
    .pgmig wc .none .none .none,
    .tlbinvPage wc .none .none,
    .pocinvPage wc .none .none].all (fun i => !Instr.wf i) = true := by decide

theorem test_wf_no_operands_5 : [Instr.rcall wc false false 0 0 .none .none .none .none,
    .rwait wc .none,
    .rstat wc false .none .none,
    .cplan wc .none .none 0,
    .cgo wc .none,
    .cwait wc .none .none,
    .netslot wc .none .none 0,
    .netslotOff wc .none,
    .spawn wc 0 .none,
    .jwait wc .none .none 0,
    .sleep wc .none,
    .dlset wc .none,
    .pwrq wc .none,
    .crd wc .b32 .none .none,
    .cwr wc .b32 .none .none].all (fun i => !Instr.wf i) = true := by decide

theorem test_wf_flag_set_0 : [Instr.nop ⟨7, false, 0, true, false, false⟩,
    .bra ⟨7, false, 0, true, false, false⟩ false 1 1,
    .exit ⟨7, false, 0, true, false, false⟩,
    .tokOpen ⟨7, false, 0, true, false, false⟩ 1,
    .tokLeave ⟨7, false, 0, true, false, false⟩ 1,
    .yield ⟨7, false, 0, true, false, false⟩,
    .brk ⟨7, false, 0, true, false, false⟩,
    .trap ⟨7, false, 0, true, false, false⟩ 1,
    .l1inv ⟨7, false, 0, true, false, false⟩,
    .fence ⟨7, false, 0, true, false, false⟩ .rel .device,
    .xfence ⟨7, false, 0, true, false, false⟩ 1 1 .device,
    .rret ⟨7, false, 0, true, false, false⟩,
    .rfe ⟨7, false, 0, true, false, false⟩,
    .halt ⟨7, false, 0, true, false, false⟩ 1,
    .qend ⟨7, false, 0, true, false, false⟩].all (fun i => !Instr.wf i) = true := by decide

theorem test_wf_checks_0 : [Instr.add ⟨7, false, 0, true, false, false⟩ .i32 false (.v 0) (.v 1) (.v 2),
    .brx wc false 0 (.v 1),
    .add wc .i64 false (.v 1) (.v 2) (.v 4),
    .tokOpen wp 0,
    .tokLeave wc 0,
    .brk wp,
    .brk ⟨7, false, 1, false, false, false⟩,
    .setp wc .b32 .lt .set (.p 0) (.v 0) (.v 1) .none,
    .setp wc .f32 .eq .set (.p 0) (.v 0) (.v 1) .none,
    .setp wc .i32 .eq .dual (.p 0) (.v 0) (.v 1) (.p 0),
    .setp wc .i32 .eq .andin (.p 0) (.v 0) (.imm 1) .none,
    .setp wc .i32 .eq .set (.p 0) (.imm 0) (.imm 1) .none,
    .getsr wc .b32 0 (.v 0) 0x00B,
    .setsr wc .b32 0 0x000 (.v 0),
    .mov wc .b32 true (.v 0) (.v 1),
    .mov wc .b32 false (.k 0) (.v 1),
    .movi wc .n32 false (.v 0) 1,
    .add wc .b32 false (.v 0) (.v 1) (.v 2),
    .mulhi wc .i16 (.v 0) (.v 1) (.v 2),
    .mad wc .i32 false (.v 0) (.v 1) (.imm 2) (.v 3),
    .abs wc .n32 false (.v 0) (.v 1),
    .and wc .i32 (.v 0) (.v 1) (.v 2),
    .bfe wc .b32 (.v 0) (.v 1) (.v 2),
    .lea wc .b32 0 (.v 0) (.v 2) (.v 4)].all (fun i => !Instr.wf i) = true := by decide

theorem test_wf_checks_1 : [Instr.dp4 wc .i32 false false (.v 0) (.v 1) (.v 2) (.v 3),
    .fadd wc .bf16 .rne (.v 0) (.v 1) (.v 2),
    .sel wc .b32 (.v 0) (.v 1) (.v 2) (.v 3),
    .prmt wc (.v 0) (.v 1) (.imm 2) (.v 3),
    .cvt wc .b32 .rne false 2 false (.v 0) (.v 1) .none,
    .cvt wc .f32 .rne false 15 false (.v 0) (.v 1) .none,
    .cvt wc .f16 .rne false 10 true (.v 0) (.v 1) .none,
    .cvt wc .f32 .rne true 14 false (.v 0) (.v 1) .none,
    .cvt wc .i32 .rtz false 2 false (.v 0) (.v 1) .none,
    .pack wc .rne false 2 false (.v 0) (.v 1) (.v 2) .none,
    .pack wc .rtz false 5 false (.v 0) (.v 1) (.v 2) .none,
    .pack wc .rne false 0 false (.v 0) (.v 1) (.v 2) (.v 3),
    .unpk wc .f32 0 2 (.v 0) (.v 1),
    .qswap wc .b32 3 (.v 0) (.v 1),
    .qbcast wp .b32 0 (.v 0) (.v 1),
    .shfl wc .b32 .abs 6 0 (.v 0) (.v 1) (.v 2) .none,
    .vote wc .ballot (.p 0) (.p 1) (.v 2),
    .wred wc .f32 .rne .and (.v 0) (.v 1) (.v 2),
    .ld wc .b32 false .device false false 0 (.v 0) (.v 2) .none 0,
    .ld wc .b64 false .wave false false 2 (.v 0) (.v 4) .none 0,
    .ld wc .b32 false .wave false false 1 (.v 1) (.v 2) .none 0,
    .ld wc .b32 false .wave false true 0 (.v 0) (.v 2) .none 0,
    .st wc .b32 false .cell 0 (.v 0) (.v 2) 0,
    .xfence wc 0 1 .device].all (fun i => !Instr.wf i) = true := by decide

theorem test_wf_checks_2 : [Instr.xfence wc 0x10 1 .device,
    .satom wc .f32 .cas (.v 0) (.v 1) (.v 2) (.v 3) 0,
    .atom wc .n32 .add .none .device (.v 0) (.v 2) (.v 4) .none 0,
    .red wc .n32 .exch .none .wave (.v 2) (.v 4) 0,
    .red wc .n32 .add .acq .device (.v 2) (.v 4) 0,
    .acall wc 0 0 5 (.v 0) (.v 2) (.v 4) 0,
    .mma wp (.acc 0) (.v 1) (.v 4) (.v 2),
    .mma wc (.acc 0) (.v 1) (.v 5) (.v 2),
    .mld wc .b .none (.v 2) (.v 4) .none,
    .ald wc 8 8 (.v 0) (.acc 1),
    .ast wc 15 1 (.acc 1) (.v 0),
    .rcall wc false false 0 17 (.v 0) (.v 20) (.v 22) (.v 24),
    .rcall wc false false 15 1 (.v 0) (.v 20) (.v 22) (.v 250),
    .gather wc .i32 false false 0 (.v 0) (.v 2) (.v 4) 0,
    .ldblk wc false false 7 (.v 252) (.v 2) 0,
    .crd wc .i32 (.v 0) (.v 2),
    .unassignedOpcode 0,
    .unassignedOpcode ((0xFFF : W96) <<< 84),
    .unassignedCommandCode 0].all (fun i => !Instr.wf i) = true := by decide

theorem test_wf_bfence : Instr.wf (.bfence wc (.imm 0)) = false := by decide

/-! Words of the manual's examples, and words written field by field. -/

theorem test_decode_ffma : decode 0x103A00A00B00C00D0001A240 = some (.ffma ⟨2, true, 2, false, true, false⟩ .f32 .rtz (.v 10) (.v 11) (.v 12) (.v 13)) := by decide +kernel

theorem test_decode_add_imm : decode 0x0827005005842000003E8100 = some (.add ⟨7, false, 1, false, false, false⟩ .i32 true (.v 5) (.v 5) (.imm 0x3E8)) := by decide +kernel

theorem test_decode_bra : decode 0x0011C00800C0010000007000 = some (.bra ⟨1, false, 0, false, false, false⟩ false 1 7) := by decide +kernel

theorem test_decode_wmaxi : decode 0x186701000600760A0000A000 = some (.wmaxi wc .f32 (.v 16) (.v 6) (.v 7) (.sr 10)) := by decide +kernel

theorem test_decode_ldblk : decode 0x2067010002C000000E008000 = some (.ldblk wc false false 7 (.v 16) (.v 2) 0) := by decide +kernel

theorem test_decode_mma : decode 0x3007A0800201000700000000 = some (.mma wc (.acc 8) (.v 2) (.v 16) (.v 7)) := by decide +kernel

theorem test_decode_ckick : decode 0x3807C00004C0000000000000 = some (.ckick wc (.v 4) 0) := by decide +kernel

theorem test_decode_atom : decode 0x280700400200601000006000 = some (.atom wc .n32 .add .none .wave (.v 4) (.v 2) (.v 6) .none 16) := by decide +kernel

theorem test_decode_bgx : decode 0x4017C00004C0000000000000 = some (.bgx wc (.v 4) 0) := by decide +kernel

theorem test_decode_pgmig : decode 0x4817004006008C0000000000 = some (.pgmig wc (.v 4) (.v 6) (.v 8)) := by decide +kernel

theorem test_decode_rcall : decode 0x500700A00200400602000000 = some (.rcall wc false false 0 1 (.v 10) (.v 2) (.v 4) (.v 6)) := by decide +kernel

theorem test_decode_cgo : decode 0x5817C00003C00C0000000000 = some (.cgo wc (.v 3)) := by decide +kernel

theorem test_decode_spawn : decode 0x6007C00004C00C0000080000 = some (.spawn wc 1 (.v 4)) := by decide +kernel

theorem test_decode_header : decode 0x9004CAE00000000000000000 = none := by decide +kernel
theorem test_decode_nop : decode wNop = some (.nop wc) := by decide +kernel
theorem test_decode_reserved : decode (wNop + 1) = none := by decide +kernel
theorem test_decode_unassigned : decode ((0x013 : W96) <<< 84) = some (.unassignedOpcode ((0x013 : W96) <<< 84)) := by decide +kernel
/-- `mov.b32 k0, v1` without `.one`: the uniform destination is the word's only fault (R32, R42). -/
theorem test_uniform_fault : decode 0x0807200001C00C0000008000 = none ∧ uniformFault 0x0807200001C00C0000008000 = true := by decide +kernel
/-- OPEN with every bank, x7 and 0x64; LDX x3, 5; a command with a reserved bit; code 0x17. -/
theorem test_decode_open : decodeBg 0x07F80064 = some (.bgOpen 15 7 0x64) := by decide +kernel
theorem test_decode_ldx : decodeBg 0x2D800005 = some (.bgLdx 3 5) := by decide +kernel
theorem test_decode_bg_reserved : decodeBg 0x38000001 = none := by decide +kernel
theorem test_decode_bg_code : decodeBg 0x5C000000 = some (.unassignedCommandCode 0x5C000000) := by decide +kernel
theorem test_table_word : decodeTableWord 96 wNop.toNat = some (.nop wc) ∧ decodeTableWord 32 0 = some .bgEnd := by decide +kernel

/-! Values of the manual's examples (Example 1 after R149; R154; R153). -/

/-- Sources v0, v1 and v2. -/
def wRd (a b c : W32) : Reader := fun _ o => ((if o == .v 0 then a else if o == .v 1 then b else c).zeroExtend 64)
def wVal (a b c : W32) (i : Instr) : Option W32 := match aluWrites (wRd a b c) i with | some [.v _ x] => some x | _ => none

theorem test_add_i8 : wVal 0x7F 1 0 (.add wc .i8 false (.v 8) (.v 0) (.v 1)) = some 0xFFFFFF80 := by decide +kernel
theorem test_add_sat_i8 : wVal 0x7F 1 0 (.add wc .i8 true (.v 8) (.v 0) (.v 1)) = some 0x7F := by decide +kernel
theorem test_add_n16 : wVal 0x1FFFF 1 0 (.add wc .n16 false (.v 8) (.v 0) (.v 1)) = some 0 := by decide +kernel
theorem test_abs : wVal 0x80000000 0 0 (.abs wc .i32 false (.v 8) (.v 0)) = some 0x80000000 ∧
    wVal 0x80000000 0 0 (.abs wc .i32 true (.v 8) (.v 0)) = some 0x7FFFFFFF := by decide +kernel
theorem test_mulhi : wVal 0xFFFFFFFF 0xFFFFFFFF 0 (.mulhi wc .n32 (.v 8) (.v 0) (.v 1)) = some 0xFFFFFFFE := by decide +kernel
theorem test_rot : wVal 0x80000001 33 0 (.rot wc .b32 (.v 8) (.v 0) (.v 1)) = some 3 := by decide +kernel
theorem test_shr : wVal 0xFFFFFFFF 32 0 (.shr wc .b32 (.v 8) (.v 0) (.v 1)) = some 0 := by decide +kernel
theorem test_bfe_i32 : wVal 0xF000 0x40C 0 (.bfe wc .i32 (.v 8) (.v 0) (.v 1)) = some 0xFFFFFFFF := by decide +kernel
theorem test_bfe_n32 : wVal 0x80000000 0x81C 0 (.bfe wc .n32 (.v 8) (.v 0) (.v 1)) = some 8 := by decide +kernel
theorem test_prmt : wVal 0x88442211 0x80503 0 (.prmt wc (.v 8) (.v 0) (.v 1) .none) = some 0x0022FF88 := by decide +kernel
theorem test_rcp_zero : wVal 0x80000000 0 0 (.rcp wc (.v 8) (.v 0)) = some 0xFF800000 := by decide +kernel
theorem test_lg2_one : wVal 0x3F800000 0 0 (.lg2 wc (.v 8) (.v 0)) = some 0 := by decide +kernel
theorem test_sqrt_negative : wVal 0xBF800000 0 0 (.sqrt wc (.v 8) (.v 0)) = some 0x7FC00000 := by decide +kernel
theorem test_frnd_rup : wVal 0xBE800000 0 0 (.frnd wc .f32 .rup (.v 8) (.v 0)) = some 0x80000000 := by decide +kernel

/-! Single steps. -/

def wAfter (o : Host.Outcome State Fault Refusal) : State := match o with | .next s => s | _ => State.reset
/-- A nop ends its clause of one slot: the thread enters the next clause. -/
theorem test_step_nop : ((wAfter (step wStep)).thread (.thr 1 0)).pc = 0x10020 := by decide +kernel
/-- A word with a reserved bit set takes the illegal-instruction trap at slot 1. -/
theorem test_step_illegal : ((wAfter (step wStepBad)).thread (.thr 1 0)).trapcode = 0x101 := by decide +kernel
/-- `add.n32 v9, v3, v4` at cycle 0: 5 + 1 is due at cycle 4. -/
theorem test_exec_add : ((wAfter (exec (.add wc .n32 false (.v 9) (.v 3) (.v 4)) w0)).thread (.thr 1 0)).pend = [⟨4, .v 9 6⟩] := by decide +kernel
/-- A software trap holds its code and stands at the next slot (R124). -/
theorem test_exec_trap : ((wAfter (exec (.trap wc 0xABCD) w0)).thread (.thr 1 0)).trapcode = 0xABCD010D ∧
    ((wAfter (exec (.trap wc 0xABCD) w0)).thread (.thr 1 0)).slot = 2 := by decide +kernel
/-- `rfe` at user level takes the privilege trap. -/
theorem test_exec_rfe_user : ((wAfter (exec (.rfe wc) w0)).thread (.thr 1 0)).trapcode = 0x102 := by decide +kernel
/-- A store is forwarded to its own core before anyone else sees it (R81). -/
theorem test_exec_st : (wAfter (exec (.st wc .b32 false .wave 0 (.v 0) (.v 3) 0) w0)).mem.read (coreReader .ls 0) 0x148000 4 = [5, 0, 0, 0] ∧
    (wAfter (exec (.st wc .b32 false .wave 0 (.v 0) (.v 3) 0) w0)).mem.visBytes 0x148000 4 = [0, 0, 0, 0] := by decide +kernel
theorem test_step_bank : ((wAfter (step (State.reset.withFetchWord 32 0x2D800005))).engine 0).x.getD 3 0 = 5 := by decide +kernel

/-! For every statement with hypotheses, a state and operands that meet them. -/

theorem wit_ControlCompletes :
    (∃ (c : Ctl) (s s1 : State) (t : TRef),
      Runs c (.nop c) s t s1)
    ∧ (∃ (c : Ctl) (s s1 : State) (t : TRef),
      Runs c (.yield c) s t s1)
    ∧ (∃ (c : Ctl) (s s1 : State) (t : TRef),
      Runs c (.exit c) s t s1)
    ∧ (∃ (c : Ctl) (s s1 : State) (t : TRef),
      Runs c (.brk c) s t s1)
    ∧ (∃ (c : Ctl) (code : BitVec 16) (s s1 : State) (t : TRef),
      Runs c (.trap c code) s t s1 ∧
      ((s1.trap t causeSoftware 0 false code).advance t).isOk = true)
    ∧ (∃ (c : Ctl) (a : Operand) (disp : BitVec 28) (s s1 : State) (t : TRef),
      Runs c (.rpt c a disp) s t s1 ∧
      s1.src32 t a = 0)
    ∧ (∃ (c : Ctl) (a : Operand) (disp : BitVec 28) (s s1 : State) (t : TRef) (w : W96),
      Runs c (.rpt c a disp) s t s1 ∧
      s1.src32 t a ≠ 0 ∧
      (s1.target t (immTarget (s1.thread t).pc disp)).word = some w ∧
      (headerOf w).kind = 3)
    ∧ (∃ (c : Ctl) (n : BitVec 4) (s s1 : State) (t : TRef),
      RunsAll c (.tokLeave c n) s [t] s1 ∧
      s1.guard t c = true ∧
      n.toNat ≤ (s1.thread t).depth) :=
  ⟨⟨wc, w0, w0.mark wc, (.thr 1 0), ⟨by decide +kernel, rfl⟩⟩,
   ⟨wc, w0, w0.mark wc, (.thr 1 0), ⟨by decide +kernel, rfl⟩⟩,
   ⟨wc, w0, w0.mark wc, (.thr 1 0), ⟨by decide +kernel, rfl⟩⟩,
   ⟨wc, w0, w0.mark wc, (.thr 1 0), ⟨by decide +kernel, rfl⟩⟩,
   ⟨wc, 0xFFFF, w0, w0.mark wc, (.thr 1 0), ⟨by decide +kernel, rfl⟩, by decide +kernel⟩,
   ⟨wc, (.v 2), 0, w0, w0.mark wc, (.thr 1 0), ⟨by decide +kernel, rfl⟩, by decide +kernel⟩,
   ⟨wc, (.v 3), 0x10, wRpt, wRpt.mark wc, (.thr 1 0), wRptHeader, ⟨by decide +kernel, rfl⟩, by decide +kernel⟩,
   ⟨wc, 0, w0, w0.mark wc, (.thr 1 0), ⟨by decide +kernel, rfl⟩, by decide +kernel⟩⟩

theorem wit_TransfersComplete :
    (∃ (c : Ctl) (u : Bool) (n : BitVec 4) (disp : BitVec 28) (s s1 : State) (t : TRef),
      RunsAll c (.bra c u n disp) s [t] s1 ∧
      s1.guard t c = true ∧
      n.toNat ≤ (s1.thread t).depth ∧
      (s1.target t (immTarget (s1.thread t).pc disp)).word.isSome = true)
    ∧ (∃ (c : Ctl) (u : Bool) (n : BitVec 4) (a : Operand) (s s1 : State) (t : TRef),
      RunsAll c (.brx c u n a) s [t] s1 ∧
      s1.guard t c = true ∧
      n.toNat ≤ (s1.thread t).depth ∧
      (s1.target t (s1.src64 t a)).word.isSome = true)
    ∧ (∃ (c : Ctl) (u : Bool) (n : BitVec 4) (a : Operand) (s s1 : State) (t : TRef),
      RunsAll c (.ret c u n a) s [t] s1 ∧
      s1.guard t c = true ∧
      n.toNat ≤ (s1.thread t).depth ∧
      (s1.target t (s1.src64 t a)).word.isSome = true)
    ∧ (∃ (c : Ctl) (u : Bool) (d : Operand) (disp : BitVec 28) (s s1 : State) (t : TRef),
      RunsAll c (.call c u d disp) s [t] s1 ∧
      s1.guard t c = true ∧
      (s1.target t (immTarget (s1.thread t).pc disp)).word.isSome = true)
    ∧ (∃ (c : Ctl) (u : Bool) (d a : Operand) (s s1 : State) (t : TRef),
      RunsAll c (.callx c u d a) s [t] s1 ∧
      s1.guard t c = true ∧
      (s1.target t (s1.src64 t a)).word.isSome = true)
    ∧ (∃ (c : Ctl) (u : Bool) (n : BitVec 4) (disp : BitVec 28) (d a : Operand) (s s1 : State) (t : TRef) (i : Instr),
      i ∈ [Instr.bra c u n disp, .brx c u n a, .ret c u n a, .call c u d disp, .callx c u d a] ∧
      RunsAll c i s [t] s1 ∧ s1.guard t c = false) :=
  ⟨⟨wc, false, 0, 0, w0, w0.mark wc, (.thr 1 0), ⟨by decide +kernel, rfl⟩, by decide +kernel⟩,
   ⟨wc, false, 0, (.v 6), w0, w0.mark wc, (.thr 1 0), ⟨by decide +kernel, rfl⟩, by decide +kernel⟩,
   ⟨wc, false, 0, (.v 6), w0, w0.mark wc, (.thr 1 0), ⟨by decide +kernel, rfl⟩, by decide +kernel⟩,
   ⟨wc, false, (.v 254), 0, w0, w0.mark wc, (.thr 1 0), ⟨by decide +kernel, rfl⟩, by decide +kernel⟩,
   ⟨wc, false, (.v 254), (.v 6), w0, w0.mark wc, (.thr 1 0), ⟨by decide +kernel, rfl⟩, by decide +kernel⟩,
   ⟨wn, false, 0, 0, (.v 2), (.v 0), w0, w0.mark wn, (.thr 1 0), .callx wn false (.v 2) (.v 0), by simp, ⟨by decide +kernel, rfl⟩, by decide +kernel⟩⟩

theorem wit_TransferChecks :
    (∃ (c : Ctl) (u : Bool) (n : BitVec 4) (disp : BitVec 28) (s : State) (ms : List TRef) (s1 : State) (g : Nat) (t0 t : TRef) (rest : List TRef),
      RunsAll c (.bra c u n disp) s ms s1 ∧ ms = t0 :: rest ∧ (ms.all fun x => x.group == some g) = true ∧ u = true ∧
      ms.find? (fun x => s1.guard x c != s1.guard t0 c || (s1.guard x c && immTarget (s1.thread x).pc disp != immTarget (s1.thread t0).pc disp)) = some t)
    ∧ (∃ (c : Ctl) (n : BitVec 4) (disp : BitVec 28) (s : State) (ms : List TRef) (s1 : State) (g : Nat) (t : TRef),
      RunsAll c (.bra c false n disp) s ms s1 ∧ ms ≠ [] ∧ (ms.all fun x => x.group == some g) = true ∧
      ms.find? (fun x => s1.guard x c && (s1.thread x).depth < n.toNat) = some t)
    ∧ (∃ (c : Ctl) (disp : BitVec 28) (s : State) (t : TRef) (s1 : State) (k : Nat),
      RunsAll c (.bra c false 0 disp) s [t] s1 ∧ s1.guard t c = true ∧ (s1.target t (immTarget (s1.thread t).pc disp)).cause = some k) :=
  ⟨⟨wp, true, 0, 0, w2, [.thr 1 0, .thr 1 1], w2.mark wp, 1, .thr 1 0, .thr 1 1, [.thr 1 1], ⟨by decide +kernel, rfl⟩, rfl, by decide +kernel, rfl, by decide +kernel⟩,
   ⟨wc, 1, 0, w2, [.thr 1 0, .thr 1 1], w2.mark wc, 1, .thr 1 0, ⟨by decide +kernel, rfl⟩, by decide, by decide +kernel⟩,
   ⟨wc, 1, w0, .thr 1 0, w0.mark wc, causeTarget, ⟨by decide +kernel, rfl⟩, by decide +kernel⟩⟩

theorem wit_TokenOpens :
    (∃ (c : Ctl) (disp : BitVec 28) (s s1 : State) (ms : List TRef) (t0 : TRef) (rest : List TRef) (g : Nat) (w : W96) (e : Nat),
      RunsAll c (.tokOpen c disp) s ms s1 ∧
      ms = t0 :: rest ∧
      t0.group = some g ∧
      ((ms.foldl (fun s t => s.updThread t fun x => { x with park := .no }) s1).target t0 (immTarget ((ms.foldl (fun s t => s.updThread t fun x => { x with park := .no }) s1).thread t0).pc disp)).word = some w ∧
      (headerOf w).kind = 1 ∧
      (ms.all fun t => ((ms.foldl (fun s t => s.updThread t fun x => { x with park := .no }) s1).thread t).depth != 15) = true ∧
      ((ms.foldl (fun s t => s.updThread t fun x => { x with park := .no }) s1).thread t0).slot.toNat < s1.gang.hdr.cnt ∧
      (List.range 16).find? (fun i => (((ms.foldl (fun s t => s.updThread t fun x => { x with park := .no }) s1).waveOf t0).token i).valid && (((ms.foldl (fun s t => s.updThread t fun x => { x with park := .no }) s1).waveOf t0).token i).rejoin == immTarget ((ms.foldl (fun s t => s.updThread t fun x => { x with park := .no }) s1).thread t0).pc disp && (((ms.foldl (fun s t => s.updThread t fun x => { x with park := .no }) s1).waveOf t0).token i).parent == (if ((ms.foldl (fun s t => s.updThread t fun x => { x with park := .no }) s1).thread t0).depth = 0 then none else some ((ms.foldl (fun s t => s.updThread t fun x => { x with park := .no }) s1).thread t0).innermost)) = some e)
    ∧ (∃ (c : Ctl) (disp : BitVec 28) (s s1 : State) (ms : List TRef) (t0 : TRef) (rest : List TRef) (g : Nat) (w : W96) (e : Nat),
      RunsAll c (.tokOpen c disp) s ms s1 ∧
      ms = t0 :: rest ∧
      t0.group = some g ∧
      ((ms.foldl (fun s t => s.updThread t fun x => { x with park := .no }) s1).target t0 (immTarget ((ms.foldl (fun s t => s.updThread t fun x => { x with park := .no }) s1).thread t0).pc disp)).word = some w ∧
      (headerOf w).kind = 1 ∧
      (ms.all fun t => ((ms.foldl (fun s t => s.updThread t fun x => { x with park := .no }) s1).thread t).depth != 15) = true ∧
      ((ms.foldl (fun s t => s.updThread t fun x => { x with park := .no }) s1).thread t0).slot.toNat < s1.gang.hdr.cnt ∧
      (List.range 16).find? (fun i => (((ms.foldl (fun s t => s.updThread t fun x => { x with park := .no }) s1).waveOf t0).token i).valid && (((ms.foldl (fun s t => s.updThread t fun x => { x with park := .no }) s1).waveOf t0).token i).rejoin == immTarget ((ms.foldl (fun s t => s.updThread t fun x => { x with park := .no }) s1).thread t0).pc disp && (((ms.foldl (fun s t => s.updThread t fun x => { x with park := .no }) s1).waveOf t0).token i).parent == (if ((ms.foldl (fun s t => s.updThread t fun x => { x with park := .no }) s1).thread t0).depth = 0 then none else some ((ms.foldl (fun s t => s.updThread t fun x => { x with park := .no }) s1).thread t0).innermost)) = none ∧
      (List.range 16).find? (fun i => !(((ms.foldl (fun s t => s.updThread t fun x => { x with park := .no }) s1).waveOf t0).token i).valid) = some e) :=
  ⟨⟨wc, 0x10, wTok, wTok.mark wc, [.thr 1 0], (.thr 1 0), [], 1, wRejHeader, 0, ⟨by decide +kernel, rfl⟩, rfl, rfl, by decide +kernel⟩,
   ⟨wc, 0x10, wRej, wRej.mark wc, [.thr 1 0], (.thr 1 0), [], 1, wRejHeader, 0, ⟨by decide +kernel, rfl⟩, rfl, rfl, by decide +kernel⟩⟩

theorem wit_NextSlot :
    (∃ (s1 s2 : State) (t : TRef), (s2.thread t).slot.toNat < s2.gang.hdr.cnt)
    ∧ (∃ (s1 s2 : State) (t : TRef), (s2.thread t).slot.toNat = s2.gang.hdr.cnt ∧ (s2.thread t).rep = none ∧
      (s2.target t (fallAddr (s2.thread t).pc s2.gang.hdr.cnt)).word.isSome = true)
    ∧ (∃ (s1 s2 : State) (t : TRef) (k : Nat), (s2.thread t).slot.toNat = s2.gang.hdr.cnt ∧ (s2.thread t).rep = none ∧
      (s2.target t (fallAddr (s2.thread t).pc s2.gang.hdr.cnt)).cause = some k)
    ∧ (∃ (s1 s2 : State) (t : TRef) (r : Rep), (s2.thread t).slot.toNat = s2.gang.hdr.cnt ∧ (s2.thread t).rep = some r ∧ r.body = (s2.thread t).pc ∧
      1 < r.remaining.toNat) :=
  ⟨⟨w0, w0, .thr 1 0, by decide +kernel⟩,
   ⟨wEnd, wEnd, .thr 1 0, by decide +kernel⟩,
   ⟨wEnd15, wEnd15, .thr 1 0, causeTarget, by decide +kernel⟩,
   ⟨wRep, wRep, .thr 1 0, ⟨2, 0x10000, 0x10000, 2, 0⟩, by decide +kernel, by decide +kernel, by decide +kernel, by decide⟩⟩

theorem wit_SpecialRegistersComplete :
    (∃ (c : Ctl) (ty : Ty) (w : BitVec 2) (d : Operand) (sr : BitVec 9) (s s1 : State) (t : TRef),
      Runs c (.getsr c ty w d sr) s t s1 ∧
      s1.destLocked t d (tyRegs ty) = false)
    ∧ (∃ (c : Ctl) (ty : Ty) (w : BitVec 2) (sr : BitVec 9) (a : Operand) (s s1 : State) (t : TRef),
      Runs c (.setsr c ty w sr a) s t s1) :=
  ⟨⟨wc, .b32, 0, (.v 255), 0x032, w0, w0.mark wc, (.thr 1 0), ⟨by decide +kernel, rfl⟩, by decide +kernel⟩,
   ⟨wc, .b64, 0, 0x103, (.v 0), wPriv, wPriv.mark wc, (.thr 1 0), ⟨by decide +kernel, rfl⟩⟩⟩

theorem wit_AluCompletes :
    ∃ (c : Ctl) (i : Instr) (lat : Nat) (s : State), fixedLatency i = some (c, lat) ∧ gangOk c i s = true ∧ s.noMatrix = true :=
  ⟨wc, .ffma wc .f32 .rdn (.v 255) (.v 0) (.imm 0xFFFFFFFF) (.v 2), 6, w2, rfl, by decide +kernel⟩

theorem wit_UniformMoveCompletes :
    (∃ (c : Ctl) (ty : Ty) (one : Bool) (d a : Operand) (s s1 : State) (t : TRef),
      Runs c (.mov c ty one d a) s t s1 ∧
      s1.noMatrix = true)
    ∧ (∃ (c : Ctl) (ty : Ty) (one : Bool) (d : Operand) (x : BitVec 32) (s s1 : State) (t : TRef),
      Runs c (.movi c ty one d x) s t s1 ∧
      s1.noMatrix = true) :=
  ⟨⟨wc, .b32, true, (.k 63), (.v 0), w0, w0.mark wc, (.thr 1 0), ⟨by decide +kernel, rfl⟩, by decide +kernel⟩,
   ⟨wc, .b32, true, (.k 63), 0xFFFFFFFF, w0, w0.mark wc, (.thr 1 0), ⟨by decide +kernel, rfl⟩, by decide +kernel⟩⟩

theorem wit_SpecialAndQuadFunctionsComplete :
    (∃ (c : Ctl) (d a : Operand) (i : Instr) (s s1 : State) (t : TRef), i ∈ [Instr.lg2 c d a, .ex2 c d a, .rcp c d a, .rsq c d a, .sqrt c d a] ∧
      Runs c i s t s1 ∧ s1.flagFull t c = false ∧ s1.noMatrix = true)
    ∧ (∃ (c : Ctl) (ty : Ty) (pat : BitVec 2) (d a : Operand) (s s1 : State) (t : TRef),
      Runs c (.qswap c ty pat d a) s t s1 ∧
      s1.destLocked t d (tyRegs ty) = false)
    ∧ (∃ (c : Ctl) (ty : Ty) (pos : BitVec 2) (d a : Operand) (s s1 : State) (t : TRef),
      Runs c (.qbcast c ty pos d a) s t s1 ∧
      s1.destLocked t d (tyRegs ty) = false) :=
  ⟨⟨wc, (.v 255), (.v 0), .rsq wc (.v 255) (.v 0), w0, w0.mark wc, .thr 1 0, by simp, ⟨by decide +kernel, rfl⟩, by decide +kernel⟩,
   ⟨wc, .b32, 2, (.v 255), (.v 0), w0, w0.mark wc, (.thr 1 0), ⟨by decide +kernel, rfl⟩, by decide +kernel⟩,
   ⟨wc, .b32, 3, (.v 255), (.v 0), w0, w0.mark wc, (.thr 1 0), ⟨by decide +kernel, rfl⟩, by decide +kernel⟩⟩

theorem wit_CollectivesComplete :
    (∃ (c : Ctl) (ty : Ty) (mode : ShflMode) (seg : BitVec 3) (koff : BitVec 6) (d a b e : Operand) (s s1 : State) (ms : List TRef),
      RunsAll c (.shfl c ty mode seg koff d a b e) s ms s1 ∧
      (ms.all fun t => (s1.parkMask t b).getLsbD (s1.thread t).lane) = true ∧
      (ms.any fun t => s1.flagFull t c || s1.destLocked t d (tyRegs ty) || (s1.advance t).isWait) = false)
    ∧ (∃ (c : Ctl) (mode : VoteMode) (d a b : Operand) (s s1 : State) (ms : List TRef),
      RunsAll c (.vote c mode d a b) s ms s1 ∧
      (ms.all fun t => (s1.parkMask t b).getLsbD (s1.thread t).lane) = true ∧
      (ms.any fun t => s1.flagFull t c || s1.destLocked t d 1 || (s1.advance t).isWait) = false)
    ∧ (∃ (c : Ctl) (ty : Ty) (d a b : Operand) (s s1 : State) (ms : List TRef),
      RunsAll c (.matchv c ty d a b) s ms s1 ∧
      (ms.all fun t => (s1.parkMask t b).getLsbD (s1.thread t).lane) = true ∧
      (ms.any fun t => s1.flagFull t c || s1.destLocked t d 1 || (s1.advance t).isWait) = false)
    ∧ (∃ (c : Ctl) (ty : Ty) (rnd : Rnd) (op : RedOp) (d a b : Operand) (s s1 : State) (ms : List TRef),
      RunsAll c (.wred c ty rnd op d a b) s ms s1 ∧
      (ms.all fun t => (s1.parkMask t b).getLsbD (s1.thread t).lane) = true ∧
      (ms.any fun t => s1.flagFull t c || s1.destLocked t d 1 || (s1.advance t).isWait) = false)
    ∧ (∃ (c : Ctl) (ty : Ty) (d a b e : Operand) (s s1 : State) (ms : List TRef),
      RunsAll c (.wmaxi c ty d a b e) s ms s1 ∧
      (ms.all fun t => (s1.parkMask t e).getLsbD (s1.thread t).lane) = true ∧
      (ms.any fun t => s1.flagFull t c || s1.destLocked t d 2 || (s1.advance t).isWait) = false)
    ∧ (∃ (c : Ctl) (ty : Ty) (rnd : Rnd) (op : RedOp) (excl : Bool) (d a b : Operand) (s s1 : State) (ms : List TRef),
      RunsAll c (.wscan c ty rnd op excl d a b) s ms s1 ∧
      (ms.all fun t => (s1.parkMask t b).getLsbD (s1.thread t).lane) = true ∧
      (ms.any fun t => s1.flagFull t c || s1.destLocked t d 1 || (s1.advance t).isWait) = false)
    ∧ (∃ (c : Ctl) (d a : Operand) (s s1 : State) (ms : List TRef),
      RunsAll c (.elect c d a) s ms s1 ∧
      (ms.all fun t => (s1.parkMask t a).getLsbD (s1.thread t).lane) = true ∧
      (ms.any fun t => s1.flagFull t c || s1.destLocked t d 1 || (s1.advance t).isWait) = false) :=
  ⟨⟨wc, .b32, .abs, 0, 0, (.v 254), (.v 0), (.v 4), .none, w2, w2.mark wc, [.thr 1 0, .thr 1 1], ⟨by decide +kernel, rfl⟩, by decide +kernel⟩,
   ⟨wc, .any, (.p 6), (.v 0), (.v 4), w2, w2.mark wc, [.thr 1 0, .thr 1 1], ⟨by decide +kernel, rfl⟩, by decide +kernel⟩,
   ⟨wc, .b32, (.v 254), (.v 0), (.v 4), w2, w2.mark wc, [.thr 1 0, .thr 1 1], ⟨by decide +kernel, rfl⟩, by decide +kernel⟩,
   ⟨wc, .b32, .rne, .add, (.v 254), (.v 0), (.v 4), w2, w2.mark wc, [.thr 1 0, .thr 1 1], ⟨by decide +kernel, rfl⟩, by decide +kernel⟩,
   ⟨wc, .b32, (.v 254), (.v 0), (.v 0), (.v 4), w2, w2.mark wc, [.thr 1 0, .thr 1 1], ⟨by decide +kernel, rfl⟩, by decide +kernel⟩,
   ⟨wc, .b32, .rne, .add, false, (.v 254), (.v 0), (.v 4), w2, w2.mark wc, [.thr 1 0, .thr 1 1], ⟨by decide +kernel, rfl⟩, by decide +kernel⟩,
   ⟨wc, (.p 6), (.v 4), w2, w2.mark wc, [.thr 1 0, .thr 1 1], ⟨by decide +kernel, rfl⟩, by decide +kernel⟩⟩

theorem wit_LoadsComplete :
    (∃ (c : Ctl) (ty : Ty) (acq : Bool) (scope : Scope) (fresh nf : Bool) (vec : BitVec 2) (d a b : Operand) (off : BitVec 12) (s s1 : State) (t : TRef),
      Runs c (.ld c ty acq scope fresh nf vec d a b off) s t s1 ∧
      (acq && s1.loadHeld t c d (vecRegs ty vec) || s1.ldHeld t c d (vecRegs ty vec)) = false ∧
      (s1.access t (s1.addr t a off) (vecCount vec * tyWidth ty / 8) false nf [(s1.addr t a off).toNat]).isOk = true ∧
      (s1.access t (s1.addr t a off) (vecCount vec * tyWidth ty / 8) false nf [(s1.addr t a off).toNat]).st.quantHeld t (memParts (s1.access t (s1.addr t a off) (vecCount vec * tyWidth ty / 8) false nf [(s1.addr t a off).toNat]).rs) = false)
    ∧ (∃ (c : Ctl) (ty : Ty) (acq : Bool) (scope : Scope) (fresh nf : Bool) (vec : BitVec 2) (d a b : Operand) (off : BitVec 12) (s s1 : State) (t : TRef),
      Runs c (.ld c ty acq scope fresh nf vec d a b off) s t s1 ∧
      (acq && s1.loadHeld t c d (vecRegs ty vec) || s1.ldHeld t c d (vecRegs ty vec)) = false ∧
      (s1.access t (s1.addr t a off) (vecCount vec * tyWidth ty / 8) false nf [(s1.addr t a off).toNat]).away.isSome = true)
    ∧ (∃ (c : Ctl) (ty : Ty) (vec : BitVec 2) (d a : Operand) (off : BitVec 12) (s s1 : State) (t : TRef) (core o : Nat),
      Runs c (.lds c ty vec d a off) s t s1 ∧
      s1.loadHeld t c d (vecRegs ty vec) = false ∧
      (s1.spadPlace t (s1.spadAddr t a off) (vecCount vec * tyWidth ty / 8)).map (·.2) = some (core, o) ∧
      s1.spadReadHeld t core o (vecCount vec * tyWidth ty / 8) = false)
    ∧ (∃ (c : Ctl) (ty : Ty) (one sp : Bool) (vec : BitVec 2) (d a : Operand) (off : BitVec 12) (s s1 : State) (t : TRef) (core o : Nat),
      Runs c (.ldk c ty one sp vec d a off) s t s1 ∧
      sp = true ∧
      s1.loadHeld t c d (vecRegs ty vec) = false ∧
      (s1.spadPlace t (s1.spadAddr t a off) (vecCount vec * tyWidth ty / 8)).map (·.2) = some (core, o) ∧
      s1.spadReadHeld t core o (vecCount vec * tyWidth ty / 8) = false)
    ∧ (∃ (c : Ctl) (ty : Ty) (one sp : Bool) (vec : BitVec 2) (d a : Operand) (off : BitVec 12) (s s1 : State) (t : TRef),
      Runs c (.ldk c ty one sp vec d a off) s t s1 ∧
      sp = false ∧
      s1.loadHeld t c d (vecRegs ty vec) = false ∧
      (s1.access t (s1.addr t a off) (vecCount vec * tyWidth ty / 8) false false [(s1.addr t a off).toNat]).isOk = true ∧
      (s1.access t (s1.addr t a off) (vecCount vec * tyWidth ty / 8) false false [(s1.addr t a off).toNat]).st.quantHeld t (memParts (s1.access t (s1.addr t a off) (vecCount vec * tyWidth ty / 8) false false [(s1.addr t a off).toNat]).rs) = false) :=
  ⟨⟨wc, .b32, true, .device, false, false, 2, (.v 252), (.v 0), .none, 0x7F0, w0, w0.mark wc, (.thr 1 0), ⟨by decide +kernel, rfl⟩, by decide +kernel⟩,
   ⟨wc, .b32, false, .device, false, true, 0, (.v 255), (.v 0), (.p 6), 0, wAway, wAway.mark wc, (.thr 1 0), ⟨by decide +kernel, rfl⟩, by decide +kernel⟩,
   ⟨wc, .b32, 0, (.v 255), (.v 14), 0, wSpadEnd, wSpadEnd.mark wc, (.thr 1 0), 0, 16380, ⟨by decide +kernel, rfl⟩, by decide +kernel⟩,
   ⟨wc, .b32, true, true, 0, (.k 63), (.v 2), 0, w0, w0.mark wc, (.thr 1 0), 0, 0, ⟨by decide +kernel, rfl⟩, by decide +kernel⟩,
   ⟨wc, .b32, true, false, 0, (.k 63), (.v 0), 0, w0, w0.mark wc, (.thr 1 0), ⟨by decide +kernel, rfl⟩, by decide +kernel⟩⟩

theorem wit_LongLoadsComplete :
    (∃ (c : Ctl) (ty : Ty) (fresh bs : Bool) (cnt : BitVec 6) (d a b : Operand) (off : BitVec 12) (s s1 : State) (t : TRef),
      Runs c (.gather c ty fresh bs cnt d a b off) s t s1 ∧
      s1.ldHeld t c d ((cnt.toNat + 1) * tyRegs ty) = false ∧
      cnt.toNat + 1 ≤ (s1.thread t).prog.toNat)
    ∧ (∃ (c : Ctl) (ty : Ty) (fresh bs : Bool) (cnt : BitVec 6) (d a b : Operand) (off : BitVec 12) (s s1 : State) (t : TRef),
      Runs c (.gather c ty fresh bs cnt d a b off) s t s1 ∧
      s1.ldHeld t c d ((cnt.toNat + 1) * tyRegs ty) = false ∧
      (s1.thread t).prog.toNat < cnt.toNat + 1 ∧
      (State.elemScan (fun s' j => match s'.access t (s1.addr t a off + (s1.vreg t (opNum b + j)).zeroExtend 64 * BitVec.ofNat 64 (if bs then 1 else tyWidth ty / 8)) (tyWidth ty / 8) false false [(s1.addr t a off + (s1.vreg t (opNum b + j)).zeroExtend 64 * BitVec.ofNat 64 (if bs then 1 else tyWidth ty / 8)).toNat] with
          | .wait => (Elem.wait, s')
          | .fault k f s' => (Elem.bad k f, s')
          | .nonres f => (Elem.bad causePage f, s')
          | .ok rs s'' => (Elem.ok (memParts rs), s'')) (cnt.toNat + 1 - (s1.thread t).prog.toNat) (s1.thread t).prog.toNat s1 []).2.2 = none ∧
      (State.elemScan (fun s' j => match s'.access t (s1.addr t a off + (s1.vreg t (opNum b + j)).zeroExtend 64 * BitVec.ofNat 64 (if bs then 1 else tyWidth ty / 8)) (tyWidth ty / 8) false false [(s1.addr t a off + (s1.vreg t (opNum b + j)).zeroExtend 64 * BitVec.ofNat 64 (if bs then 1 else tyWidth ty / 8)).toNat] with
          | .wait => (Elem.wait, s')
          | .fault k f s' => (Elem.bad k f, s')
          | .nonres f => (Elem.bad causePage f, s')
          | .ok rs s'' => (Elem.ok (memParts rs), s'')) (cnt.toNat + 1 - (s1.thread t).prog.toNat) (s1.thread t).prog.toNat s1 []).1.quantHeld t (State.elemScan (fun s' j => match s'.access t (s1.addr t a off + (s1.vreg t (opNum b + j)).zeroExtend 64 * BitVec.ofNat 64 (if bs then 1 else tyWidth ty / 8)) (tyWidth ty / 8) false false [(s1.addr t a off + (s1.vreg t (opNum b + j)).zeroExtend 64 * BitVec.ofNat 64 (if bs then 1 else tyWidth ty / 8)).toNat] with
          | .wait => (Elem.wait, s')
          | .fault k f s' => (Elem.bad k f, s')
          | .nonres f => (Elem.bad causePage f, s')
          | .ok rs s'' => (Elem.ok (memParts rs), s'')) (cnt.toNat + 1 - (s1.thread t).prog.toNat) (s1.thread t).prog.toNat s1 []).2.1.flatten = false ∧
      ((State.elemScan (fun s' j => match s'.access t (s1.addr t a off + (s1.vreg t (opNum b + j)).zeroExtend 64 * BitVec.ofNat 64 (if bs then 1 else tyWidth ty / 8)) (tyWidth ty / 8) false false [(s1.addr t a off + (s1.vreg t (opNum b + j)).zeroExtend 64 * BitVec.ofNat 64 (if bs then 1 else tyWidth ty / 8)).toNat] with
          | .wait => (Elem.wait, s')
          | .fault k f s' => (Elem.bad k f, s')
          | .nonres f => (Elem.bad causePage f, s')
          | .ok rs s'' => (Elem.ok (memParts rs), s'')) (cnt.toNat + 1 - (s1.thread t).prog.toNat) (s1.thread t).prog.toNat s1 []).2.1.any fun ps => ps.any fun x => match x.at_ with | .spad core o => s1.spadReadHeld t core o x.len | _ => false) = false)
    ∧ (∃ (c : Ctl) (sp fresh : Bool) (cnt : BitVec 6) (d a : Operand) (off : BitVec 12) (s s1 : State) (t : TRef),
      Runs c (.ldblk c sp fresh cnt d a off) s t s1 ∧
      (if sp then s1.loadHeld t c d (cnt.toNat + 1) else s1.ldHeld t c d (cnt.toNat + 1)) = false ∧
      cnt.toNat + 1 ≤ (s1.thread t).prog.toNat)
    ∧ (∃ (c : Ctl) (sp fresh : Bool) (cnt : BitVec 6) (d a : Operand) (off : BitVec 12) (s s1 : State) (t : TRef),
      Runs c (.ldblk c sp fresh cnt d a off) s t s1 ∧
      (if sp then s1.loadHeld t c d (cnt.toNat + 1) else s1.ldHeld t c d (cnt.toNat + 1)) = false ∧
      (s1.thread t).prog.toNat < cnt.toNat + 1 ∧
      (State.elemScan (fun s' j => if sp then (match s'.spadPlace t (s1.spadAddr t a off + BitVec.ofNat 32 (4 * j)) 4 with
            | none => (Elem.bad causeProtection ((s1.spadAddr t a off + BitVec.ofNat 32 (4 * j)).zeroExtend 64), s')
            | some (_, core, o) => (Elem.ok (spadParts core o 4), s'))
          else match s'.access t (s1.addr t a off + BitVec.ofNat 64 (4 * j)) 4 false false [(s1.addr t a off + BitVec.ofNat 64 (4 * j)).toNat] with
            | .wait => (Elem.wait, s')
            | .fault k f s' => (Elem.bad k f, s')
            | .nonres f => (Elem.bad causePage f, s')
            | .ok rs s'' => (Elem.ok (memParts rs), s'')) (cnt.toNat + 1 - (s1.thread t).prog.toNat) (s1.thread t).prog.toNat s1 []).2.2 = none ∧
      (State.elemScan (fun s' j => if sp then (match s'.spadPlace t (s1.spadAddr t a off + BitVec.ofNat 32 (4 * j)) 4 with
            | none => (Elem.bad causeProtection ((s1.spadAddr t a off + BitVec.ofNat 32 (4 * j)).zeroExtend 64), s')
            | some (_, core, o) => (Elem.ok (spadParts core o 4), s'))
          else match s'.access t (s1.addr t a off + BitVec.ofNat 64 (4 * j)) 4 false false [(s1.addr t a off + BitVec.ofNat 64 (4 * j)).toNat] with
            | .wait => (Elem.wait, s')
            | .fault k f s' => (Elem.bad k f, s')
            | .nonres f => (Elem.bad causePage f, s')
            | .ok rs s'' => (Elem.ok (memParts rs), s'')) (cnt.toNat + 1 - (s1.thread t).prog.toNat) (s1.thread t).prog.toNat s1 []).1.quantHeld t (State.elemScan (fun s' j => if sp then (match s'.spadPlace t (s1.spadAddr t a off + BitVec.ofNat 32 (4 * j)) 4 with
            | none => (Elem.bad causeProtection ((s1.spadAddr t a off + BitVec.ofNat 32 (4 * j)).zeroExtend 64), s')
            | some (_, core, o) => (Elem.ok (spadParts core o 4), s'))
          else match s'.access t (s1.addr t a off + BitVec.ofNat 64 (4 * j)) 4 false false [(s1.addr t a off + BitVec.ofNat 64 (4 * j)).toNat] with
            | .wait => (Elem.wait, s')
            | .fault k f s' => (Elem.bad k f, s')
            | .nonres f => (Elem.bad causePage f, s')
            | .ok rs s'' => (Elem.ok (memParts rs), s'')) (cnt.toNat + 1 - (s1.thread t).prog.toNat) (s1.thread t).prog.toNat s1 []).2.1.flatten = false ∧
      ((State.elemScan (fun s' j => if sp then (match s'.spadPlace t (s1.spadAddr t a off + BitVec.ofNat 32 (4 * j)) 4 with
            | none => (Elem.bad causeProtection ((s1.spadAddr t a off + BitVec.ofNat 32 (4 * j)).zeroExtend 64), s')
            | some (_, core, o) => (Elem.ok (spadParts core o 4), s'))
          else match s'.access t (s1.addr t a off + BitVec.ofNat 64 (4 * j)) 4 false false [(s1.addr t a off + BitVec.ofNat 64 (4 * j)).toNat] with
            | .wait => (Elem.wait, s')
            | .fault k f s' => (Elem.bad k f, s')
            | .nonres f => (Elem.bad causePage f, s')
            | .ok rs s'' => (Elem.ok (memParts rs), s'')) (cnt.toNat + 1 - (s1.thread t).prog.toNat) (s1.thread t).prog.toNat s1 []).2.1.any fun ps => ps.any fun x => match x.at_ with | .spad core o => s1.spadReadHeld t core o x.len | _ => false) = false) :=
  ⟨⟨wc, .b32, false, false, 63, (.v 192), (.v 0), (.v 10), 0, wProg, wProg.mark wc, (.thr 1 0), ⟨by decide +kernel, rfl⟩, by decide +kernel⟩,
   ⟨wc, .b32, false, false, 3, (.v 192), (.v 0), (.v 10), 0, w0, w0.mark wc, (.thr 1 0), ⟨by decide +kernel, rfl⟩, by decide +kernel⟩,
   ⟨wc, false, false, 63, (.v 192), (.v 0), 0, wProg, wProg.mark wc, (.thr 1 0), ⟨by decide +kernel, rfl⟩, by decide +kernel⟩,
   ⟨wc, false, false, 3, (.v 192), (.v 0), 0, w0, w0.mark wc, (.thr 1 0), ⟨by decide +kernel, rfl⟩, by decide +kernel⟩⟩

theorem wit_StoresComplete :
    (∃ (c : Ctl) (ty : Ty) (rel : Bool) (scope : Scope) (vec : BitVec 2) (a b : Operand) (off : BitVec 12) (s s1 : State) (t : TRef),
      Runs c (.st c ty rel scope vec a b off) s t s1 ∧
      s1.acqOpenLoad t = false ∧
      (s1.ctx t).quant = false ∧
      (s1.access t (s1.addr t a off) (vecCount vec * tyWidth ty / 8) true false [(s1.addr t a off).toNat]).isOk = true)
    ∧ (∃ (c : Ctl) (ty : Ty) (rel : Bool) (scope : Scope) (vec : BitVec 2) (a b : Operand) (off : BitVec 12) (s s1 : State) (t : TRef),
      Runs c (.st c ty rel scope vec a b off) s t s1 ∧
      s1.acqOpenLoad t = false ∧
      (s1.ctx t).quant = true ∧
      (s1.access t (s1.addr t a off) (vecCount vec * tyWidth ty / 8) true false [(s1.addr t a off).toNat]).isOk = true ∧
      quantumFull (s1.thread t) (((s1.access t (s1.addr t a off) (vecCount vec * tyWidth ty / 8) true false [(s1.addr t a off).toNat]).rs.foldl (fun (p : List QItem × Nat) r => (p.1 ++ [QItem.store r.pa (sliceB (storeData ty (vecCount vec) (s1.dataWords t ty b (vecRegs ty vec))) p.2 r.len) r.bypass], p.2 + r.len)) ([], 0)).1) = false)
    ∧ (∃ (c : Ctl) (ty : Ty) (vec : BitVec 2) (a b : Operand) (off : BitVec 12) (s s1 : State) (t : TRef) (core o : Nat),
      Runs c (.sts c ty vec a b off) s t s1 ∧
      s1.spadAcqHeld t = false ∧
      (s1.spadPlace t (s1.spadAddr t a off) (vecCount vec * tyWidth ty / 8)).map (·.2) = some (core, o) ∧
      s1.relHeld t = false ∧
      (s1.relFlush t).spadWriteHeld t core o (vecCount vec * tyWidth ty / 8) = false ∧
      ((s1.relFlush t).ctx t).quant = false)
    ∧ (∃ (c : Ctl) (ty : Ty) (vec : BitVec 2) (a b : Operand) (off : BitVec 12) (s s1 : State) (t : TRef) (core o : Nat),
      Runs c (.sts c ty vec a b off) s t s1 ∧
      s1.spadAcqHeld t = false ∧
      (s1.spadPlace t (s1.spadAddr t a off) (vecCount vec * tyWidth ty / 8)).map (·.2) = some (core, o) ∧
      s1.relHeld t = false ∧
      (s1.relFlush t).spadWriteHeld t core o (vecCount vec * tyWidth ty / 8) = false ∧
      ((s1.relFlush t).ctx t).quant = true ∧
      quantumFull ((s1.relFlush t).thread t) [.spad core o (storeData ty (vecCount vec) (s1.dataWords t ty b (vecRegs ty vec)))] = false) :=
  ⟨⟨wc, .b32, true, .device, 0, (.v 0), (.v 3), 0x7FF, w0, w0.mark wc, (.thr 1 0), ⟨by decide +kernel, rfl⟩, by decide +kernel⟩,
   ⟨wc, .b32, false, .device, 0, (.v 0), (.v 3), 0, wQuant, wQuant.mark wc, (.thr 1 0), ⟨by decide +kernel, rfl⟩, by decide +kernel⟩,
   ⟨wc, .b32, 0, (.v 2), (.v 3), 0, w0, w0.mark wc, (.thr 1 0), 0, 0, ⟨by decide +kernel, rfl⟩, by decide +kernel⟩,
   ⟨wc, .b32, 0, (.v 2), (.v 3), 0, wQuant, wQuant.mark wc, (.thr 1 0), 0, 0, ⟨by decide +kernel, rfl⟩, by decide +kernel⟩⟩

theorem wit_CacheAndFenceComplete :
    (∃ (c : Ctl) (l1 : Bool) (a : Operand) (off : BitVec 12) (s s1 : State) (t : TRef),
      Runs c (.prefetch c l1 a off) s t s1 ∧
      (s1.access t (BitVec.ofNat 64 ((s1.addr t a off).toNat / 128 * 128)) 1 false false [(s1.addr t a off).toNat / 128 * 128]).isOk = false)
    ∧ (∃ (c : Ctl) (l1 : Bool) (a : Operand) (off : BitVec 12) (s s1 : State) (t : TRef) (r : Range),
      Runs c (.prefetch c l1 a off) s t s1 ∧
      (s1.access t (BitVec.ofNat 64 ((s1.addr t a off).toNat / 128 * 128)) 1 false false [(s1.addr t a off).toNat / 128 * 128]).isOk = true ∧
      (s1.access t (BitVec.ofNat 64 ((s1.addr t a off).toNat / 128 * 128)) 1 false false [(s1.addr t a off).toNat / 128 * 128]).rs = [r] ∧
      ((s1.ctx t).quant || !(s1.access t (BitVec.ofNat 64 ((s1.addr t a off).toNat / 128 * 128)) 1 false false [(s1.addr t a off).toNat / 128 * 128]).st.memReady r.pa 128 r.bypass || paHome r.pa == 8) = false)
    ∧ (∃ (c : Ctl) (line : Bool) (a : Operand) (off : BitVec 12) (s s1 : State) (t : TRef),
      Runs c (.discard c line a off) s t s1 ∧
      s1.acqOpenLoad t = false ∧
      (s1.access t (s1.addr t a off) (1) true true [(s1.addr t a off).toNat]).away.isSome = true)
    ∧ (∃ (c : Ctl) (line : Bool) (a : Operand) (off : BitVec 12) (s s1 : State) (t : TRef) (r : Range),
      Runs c (.discard c line a off) s t s1 ∧
      s1.acqOpenLoad t = false ∧
      (s1.access t (s1.addr t a off) (1) true true [(s1.addr t a off).toNat]).isOk = true ∧
      (s1.access t (s1.addr t a off) (1) true true [(s1.addr t a off).toNat]).rs = [r] ∧
      (s1.ctx t).quant = false)
    ∧ (∃ (c : Ctl) (line : Bool) (a : Operand) (off : BitVec 12) (s s1 : State) (t : TRef) (r : Range),
      Runs c (.discard c line a off) s t s1 ∧
      s1.acqOpenLoad t = false ∧
      (s1.access t (s1.addr t a off) (1) true true [(s1.addr t a off).toNat]).isOk = true ∧
      (s1.access t (s1.addr t a off) (1) true true [(s1.addr t a off).toNat]).rs = [r] ∧
      (s1.ctx t).quant = true)
    ∧ (∃ (c : Ctl) (s s1 : State) (t : TRef),
      Runs c (.l1inv c) s t s1)
    ∧ (∃ (c : Ctl) (kind : FenceKind) (scope : Scope) (s s1 : State) (t : TRef),
      Runs c (.fence c kind scope) s t s1 ∧
      (s1.ctx t).quant = true)
    ∧ (∃ (c : Ctl) (kind : FenceKind) (scope : Scope) (s s1 : State) (t : TRef),
      Runs c (.fence c kind scope) s t s1 ∧
      kind = .rel ∧
      (s1.ctx t).quant = false)
    ∧ (∃ (c : Ctl) (kind : FenceKind) (scope : Scope) (s s1 : State) (t : TRef),
      Runs c (.fence c kind scope) s t s1 ∧
      kind = .acq ∧
      (s1.ctx t).quant = false)
    ∧ (∃ (c : Ctl) (kind : FenceKind) (scope : Scope) (s s1 : State) (t : TRef),
      Runs c (.fence c kind scope) s t s1 ∧
      kind = .ar ∧
      (s1.ctx t).quant = false ∧
      s1.flushable t scope lsAt = true)
    ∧ (∃ (c : Ctl) (p q : BitVec 7) (scope : Scope) (s s1 : State) (t : TRef),
      Runs c (.xfence c p q scope) s t s1 ∧
      (s1.ctx t).quant = true)
    ∧ (∃ (c : Ctl) (p q : BitVec 7) (scope : Scope) (s s1 : State) (t : TRef),
      Runs c (.xfence c p q scope) s t s1 ∧
      (s1.ctx t).quant = false ∧
      s1.flushable t scope (pathIn p) = true ∧
      (pathIn p .at && s1.atomicsOpen t) = false) :=
  ⟨⟨wc, false, (.v 3), 0, w0, w0.mark wc, (.thr 1 0), ⟨by decide +kernel, rfl⟩, by decide +kernel⟩,
   ⟨wc, true, (.v 0), 0, w0, w0.mark wc, (.thr 1 0), ⟨0x148000, 1, false⟩, ⟨by decide +kernel, rfl⟩, by decide +kernel⟩,
   ⟨wc, false, (.v 0), 0, wAway, wAway.mark wc, (.thr 1 0), ⟨by decide +kernel, rfl⟩, by decide +kernel⟩,
   ⟨wc, true, (.v 0), 0, w0, w0.mark wc, (.thr 1 0), ⟨0x148000, 1, false⟩, ⟨by decide +kernel, rfl⟩, by decide +kernel⟩,
   ⟨wc, true, (.v 0), 0, wQuant, wQuant.mark wc, (.thr 1 0), ⟨0x148000, 1, false⟩, ⟨by decide +kernel, rfl⟩, by decide +kernel⟩,
   ⟨wc, w0, w0.mark wc, (.thr 1 0), ⟨by decide +kernel, rfl⟩⟩,
   ⟨wc, .rel, .device, wQuant, wQuant.mark wc, (.thr 1 0), ⟨by decide +kernel, rfl⟩, by decide +kernel⟩,
   ⟨wc, .rel, .system, w0, w0.mark wc, (.thr 1 0), ⟨by decide +kernel, rfl⟩, by decide +kernel⟩,
   ⟨wc, .acq, .system, w0, w0.mark wc, (.thr 1 0), ⟨by decide +kernel, rfl⟩, by decide +kernel⟩,
   ⟨wc, .ar, .system, w0, w0.mark wc, (.thr 1 0), ⟨by decide +kernel, rfl⟩, by decide +kernel⟩,
   ⟨wc, 0, 0, .device, wQuant, wQuant.mark wc, (.thr 1 0), ⟨by decide +kernel, rfl⟩, by decide +kernel⟩,
   ⟨wc, 0x7F, 0x7F, .device, w0, w0.mark wc, (.thr 1 0), ⟨by decide +kernel, rfl⟩, by decide +kernel⟩⟩

theorem wit_ScratchpadAtomicsComplete :
    (∃ (c : Ctl) (ty : Ty) (op : AtomOp) (d a b e : Operand) (off : BitVec 12) (s s1 : State) (t : TRef) (core o : Nat),
      Runs c (.satom c ty op d a b e off) s t s1 ∧
      (s1.spadAcqHeld t || s1.coreFull (s1.ctx t).core || s1.flagFull t c || s1.destLocked t d (tyRegs ty)) = false ∧
      (s1.spadAddr t a (if op == .cas then 0 else off)).toNat % atomBytes ty = 0 ∧
      (s1.spadPlace t (s1.spadAddr t a (if op == .cas then 0 else off)) (atomBytes ty)).map (·.2) = some (core, o) ∧
      s1.relHeld t = false ∧
      (s1.relFlush t).spadWriteHeld t core o (atomBytes ty) = false ∧
      ((s1.relFlush t).ctx t).quant = false)
    ∧ (∃ (c : Ctl) (ty : Ty) (op : AtomOp) (d a b e : Operand) (off : BitVec 12) (s s1 : State) (t : TRef) (core o : Nat),
      Runs c (.satom c ty op d a b e off) s t s1 ∧
      (s1.spadAcqHeld t || s1.coreFull (s1.ctx t).core || s1.flagFull t c || s1.destLocked t d (tyRegs ty)) = false ∧
      (s1.spadAddr t a (if op == .cas then 0 else off)).toNat % atomBytes ty = 0 ∧
      (s1.spadPlace t (s1.spadAddr t a (if op == .cas then 0 else off)) (atomBytes ty)).map (·.2) = some (core, o) ∧
      s1.relHeld t = false ∧
      (s1.relFlush t).spadWriteHeld t core o (atomBytes ty) = false ∧
      ((s1.relFlush t).ctx t).quant = true)
    ∧ (∃ (c : Ctl) (a b : Operand) (off : BitVec 12) (s s1 : State) (t : TRef) (G : Group) (core o : Nat),
      Runs c (.qinit c a b off) s t s1 ∧
      s1.acqOpen t = false ∧
      (s1.spadAddr t a off).toNat % 16 = 0 ∧
      s1.spadPlace t (s1.spadAddr t a off) 16 = some (G, core, o) ∧
      qctlReserved (s1.vreg t (opNum b + 1)) = true ∧
      s1.relHeld t = false ∧
      ((s1.relFlush t).queueRegion t G (qctlOf (bytes4 (s1.vreg t (opNum b)) ++ bytes4 (s1.vreg t (opNum b + 1) ||| 0x10000) ++ List.replicate 8 0))).isSome = true ∧
      (s1.relFlush t).spadWriteHeld t core o 16 = false ∧
      ((s1.relFlush t).ctx t).quant = false)
    ∧ (∃ (c : Ctl) (once : Bool) (d a b : Operand) (off : BitVec 12) (s s1 : State) (t : TRef) (G : Group) (core o rc ro : Nat),
      Runs c (.qpush c once d a b off) s t s1 ∧
      (s1.ctx t).quant = false ∧
      (s1.accessHeld t || s1.flagFull t c) = false ∧
      (s1.spadAddr t a off).toNat % 16 = 0 ∧
      s1.spadPlace t (s1.spadAddr t a off) 16 = some (G, core, o) ∧
      s1.relHeld t = false ∧
      ((s1.relFlush t).settleLoads t (.spad core o) 16).queueRegion t G (qctlOf (((s1.relFlush t).settleLoads t (.spad core o) 16).spadBytes core o 16)) = some (rc, ro) ∧
      (!(qctlOf (((s1.relFlush t).settleLoads t (.spad core o) 16).spadBytes core o 16)).valid || !qctlReserved (toW32 (sliceB (((s1.relFlush t).settleLoads t (.spad core o) 16).spadBytes core o 16) 4 4)) || (s1.ctx t).regs < opNum b + ((qctlOf (((s1.relFlush t).settleLoads t (.spad core o) 16).spadBytes core o 16)).esize + 1)) = false ∧
      ((s1.relFlush t).settleLoads t (.spad core o) 16).spadWriteHeld t core o 16 = false ∧
      ((qctlOf (((s1.relFlush t).settleLoads t (.spad core o) 16).spadBytes core o 16)).tail + 2 ^ 16 - (qctlOf (((s1.relFlush t).settleLoads t (.spad core o) 16).spadBytes core o 16)).head) % 2 ^ 16 < 2 ^ (qctlOf (((s1.relFlush t).settleLoads t (.spad core o) 16).spadBytes core o 16)).ldepth ∧
      ((s1.relFlush t).settleLoads t (.spad core o) 16).spadWriteHeld t rc (ro + (qctlOf (((s1.relFlush t).settleLoads t (.spad core o) 16).spadBytes core o 16)).tail % 2 ^ (qctlOf (((s1.relFlush t).settleLoads t (.spad core o) 16).spadBytes core o 16)).ldepth * ((qctlOf (((s1.relFlush t).settleLoads t (.spad core o) 16).spadBytes core o 16)).esize + 1) * 4) (4 * ((qctlOf (((s1.relFlush t).settleLoads t (.spad core o) 16).spadBytes core o 16)).esize + 1)) = false ∧
      ((s1.relFlush t).settleLoads t (.spad core o) 16).releaseHeld t .cell = false)
    ∧ (∃ (c : Ctl) (once : Bool) (d a b : Operand) (off : BitVec 12) (s s1 : State) (t : TRef) (G : Group) (core o rc ro : Nat),
      Runs c (.qpush c once d a b off) s t s1 ∧
      (s1.ctx t).quant = false ∧
      (s1.accessHeld t || s1.flagFull t c) = false ∧
      (s1.spadAddr t a off).toNat % 16 = 0 ∧
      s1.spadPlace t (s1.spadAddr t a off) 16 = some (G, core, o) ∧
      s1.relHeld t = false ∧
      ((s1.relFlush t).settleLoads t (.spad core o) 16).queueRegion t G (qctlOf (((s1.relFlush t).settleLoads t (.spad core o) 16).spadBytes core o 16)) = some (rc, ro) ∧
      (!(qctlOf (((s1.relFlush t).settleLoads t (.spad core o) 16).spadBytes core o 16)).valid || !qctlReserved (toW32 (sliceB (((s1.relFlush t).settleLoads t (.spad core o) 16).spadBytes core o 16) 4 4)) || (s1.ctx t).regs < opNum b + ((qctlOf (((s1.relFlush t).settleLoads t (.spad core o) 16).spadBytes core o 16)).esize + 1)) = false ∧
      ((s1.relFlush t).settleLoads t (.spad core o) 16).spadWriteHeld t core o 16 = false ∧
      2 ^ (qctlOf (((s1.relFlush t).settleLoads t (.spad core o) 16).spadBytes core o 16)).ldepth ≤ ((qctlOf (((s1.relFlush t).settleLoads t (.spad core o) 16).spadBytes core o 16)).tail + 2 ^ 16 - (qctlOf (((s1.relFlush t).settleLoads t (.spad core o) 16).spadBytes core o 16)).head) % 2 ^ 16 ∧
      once = true)
    ∧ (∃ (c : Ctl) (once : Bool) (d a b : Operand) (off : BitVec 12) (s s1 : State) (t : TRef) (G : Group) (core o rc ro : Nat),
      Runs c (.qpop c once d a b off) s t s1 ∧
      (s1.ctx t).quant = false ∧
      (s1.accessHeld t || s1.flagFull t c) = false ∧
      (s1.spadAddr t a off).toNat % 16 = 0 ∧
      s1.spadPlace t (s1.spadAddr t a off) 16 = some (G, core, o) ∧
      s1.relHeld t = false ∧
      ((s1.relFlush t).settleLoads t (.spad core o) 16).queueRegion t G (qctlOf (((s1.relFlush t).settleLoads t (.spad core o) 16).spadBytes core o 16)) = some (rc, ro) ∧
      (!(qctlOf (((s1.relFlush t).settleLoads t (.spad core o) 16).spadBytes core o 16)).valid || !qctlReserved (toW32 (sliceB (((s1.relFlush t).settleLoads t (.spad core o) 16).spadBytes core o 16) 4 4)) || (s1.ctx t).regs < opNum d + ((qctlOf (((s1.relFlush t).settleLoads t (.spad core o) 16).spadBytes core o 16)).esize + 1)) = false ∧
      ((s1.relFlush t).settleLoads t (.spad core o) 16).destLocked t d ((qctlOf (((s1.relFlush t).settleLoads t (.spad core o) 16).spadBytes core o 16)).esize + 1) = false ∧
      ((s1.relFlush t).settleLoads t (.spad core o) 16).spadWriteHeld t core o 16 = false ∧
      ((qctlOf (((s1.relFlush t).settleLoads t (.spad core o) 16).spadBytes core o 16)).tail + 2 ^ 16 - (qctlOf (((s1.relFlush t).settleLoads t (.spad core o) 16).spadBytes core o 16)).head) % 2 ^ 16 ≠ 0 ∧
      ((s1.relFlush t).settleLoads t (.spad core o) 16).spadWriteHeld t rc (ro + (qctlOf (((s1.relFlush t).settleLoads t (.spad core o) 16).spadBytes core o 16)).head % 2 ^ (qctlOf (((s1.relFlush t).settleLoads t (.spad core o) 16).spadBytes core o 16)).ldepth * ((qctlOf (((s1.relFlush t).settleLoads t (.spad core o) 16).spadBytes core o 16)).esize + 1) * 4) (4 * ((qctlOf (((s1.relFlush t).settleLoads t (.spad core o) 16).spadBytes core o 16)).esize + 1)) = false)
    ∧ (∃ (c : Ctl) (once : Bool) (d a b : Operand) (off : BitVec 12) (s s1 : State) (t : TRef) (G : Group) (core o rc ro : Nat),
      Runs c (.qpop c once d a b off) s t s1 ∧
      (s1.ctx t).quant = false ∧
      (s1.accessHeld t || s1.flagFull t c) = false ∧
      (s1.spadAddr t a off).toNat % 16 = 0 ∧
      s1.spadPlace t (s1.spadAddr t a off) 16 = some (G, core, o) ∧
      s1.relHeld t = false ∧
      ((s1.relFlush t).settleLoads t (.spad core o) 16).queueRegion t G (qctlOf (((s1.relFlush t).settleLoads t (.spad core o) 16).spadBytes core o 16)) = some (rc, ro) ∧
      (!(qctlOf (((s1.relFlush t).settleLoads t (.spad core o) 16).spadBytes core o 16)).valid || !qctlReserved (toW32 (sliceB (((s1.relFlush t).settleLoads t (.spad core o) 16).spadBytes core o 16) 4 4)) || (s1.ctx t).regs < opNum d + ((qctlOf (((s1.relFlush t).settleLoads t (.spad core o) 16).spadBytes core o 16)).esize + 1)) = false ∧
      ((s1.relFlush t).settleLoads t (.spad core o) 16).destLocked t d ((qctlOf (((s1.relFlush t).settleLoads t (.spad core o) 16).spadBytes core o 16)).esize + 1) = false ∧
      ((s1.relFlush t).settleLoads t (.spad core o) 16).spadWriteHeld t core o 16 = false ∧
      ((qctlOf (((s1.relFlush t).settleLoads t (.spad core o) 16).spadBytes core o 16)).tail + 2 ^ 16 - (qctlOf (((s1.relFlush t).settleLoads t (.spad core o) 16).spadBytes core o 16)).head) % 2 ^ 16 = 0 ∧
      once = true) :=
  ⟨⟨wc, .n32, .add, (.v 255), (.v 2), (.v 3), .none, 0, w0, w0.mark wc, (.thr 1 0), 0, 0, ⟨by decide +kernel, rfl⟩, by decide +kernel⟩,
   ⟨wc, .n32, .add, (.v 255), (.v 2), (.v 3), .none, 0, wQuant, wQuant.mark wc, (.thr 1 0), 0, 0, ⟨by decide +kernel, rfl⟩, by decide +kernel⟩,
   ⟨wc, (.v 2), (.v 10), 0, w0, w0.mark wc, (.thr 1 0), (wG w0), 0, 0, ⟨by decide +kernel, rfl⟩, by decide +kernel⟩,
   ⟨wc, true, (.p 6), (.v 2), (.v 3), 0, wQ, wQ.mark wc, (.thr 1 0), (wG wQ), 0, 0, 0, 256, ⟨by decide +kernel, rfl⟩, by decide +kernel⟩,
   ⟨wc, true, (.p 6), (.v 2), (.v 3), 0, wQFull, wQFull.mark wc, (.thr 1 0), (wG wQFull), 0, 0, 0, 256, ⟨by decide +kernel, rfl⟩, by decide +kernel⟩,
   ⟨wc, true, (.v 255), (.v 2), (.p 6), 0, wQFull, wQFull.mark wc, (.thr 1 0), (wG wQFull), 0, 0, 0, 256, ⟨by decide +kernel, rfl⟩, by decide +kernel⟩,
   ⟨wc, true, (.v 255), (.v 2), (.p 6), 0, wQ, wQ.mark wc, (.thr 1 0), (wG wQ), 0, 0, 0, 256, ⟨by decide +kernel, rfl⟩, by decide +kernel⟩⟩

theorem wit_BarriersComplete :
    (∃ (c : Ctl) (a b : Operand) (off : BitVec 12) (s s1 : State) (t : TRef) (core o : Nat),
      Runs c (.barrInit c a b off) s t s1 ∧
      s1.acqOpen t = false ∧
      (s1.spadAddr t a off).toNat % 16 = 0 ∧
      (s1.spadPlace t (s1.spadAddr t a off) (16)).map (·.2) = some (core, o) ∧
      s1.relHeld t = false ∧
      (s1.relFlush t).spadWriteHeld t core o 16 = false ∧
      (((s1.relFlush t).settleLoads t (.spad core o) 16).ctx t).quant = false ∧
      ((s1.src32 t b).toNat % 2 ^ 16) ≠ 0)
    ∧ (∃ (c : Ctl) (a b : Operand) (off : BitVec 12) (s s1 : State) (t : TRef) (core o : Nat),
      Runs c (.barrInit c a b off) s t s1 ∧
      s1.acqOpen t = false ∧
      (s1.spadAddr t a off).toNat % 16 = 0 ∧
      (s1.spadPlace t (s1.spadAddr t a off) (16)).map (·.2) = some (core, o) ∧
      s1.relHeld t = false ∧
      (s1.relFlush t).spadWriteHeld t core o 16 = false ∧
      (((s1.relFlush t).settleLoads t (.spad core o) 16).ctx t).quant = true ∧
      ((s1.src32 t b).toNat % 2 ^ 16) ≠ 0)
    ∧ (∃ (c : Ctl) (chk : Bool) (a b : Operand) (off : BitVec 12) (s s1 : State) (t : TRef) (core o : Nat),
      Runs c (.barrArrive c chk a b off) s t s1 ∧
      s1.acqOpen t = false ∧
      (s1.spadAddr t a off).toNat % 16 = 0 ∧
      (s1.spadPlace t (s1.spadAddr t a off) (16)).map (·.2) = some (core, o) ∧
      s1.relHeld t = false ∧
      (s1.relFlush t).spadWriteHeld t core o 16 = false ∧
      (((s1.relFlush t).settleLoads t (.spad core o) 16).ctx t).quant = false ∧
      ((s1.relFlush t).settleLoads t (.spad core o) 16).releaseHeld t .cell = false ∧
      ((barrArriveN (((s1.relFlush t).settleLoads t (.spad core o) 16).releaseStep t .cell).gtsc (if b == .none then 1 else (s1.src32 t b).toNat) ((((s1.relFlush t).settleLoads t (.spad core o) 16).releaseStep t .cell).barrAt core o)).2 && chk) = false)
    ∧ (∃ (c : Ctl) (chk : Bool) (a b : Operand) (off : BitVec 12) (s s1 : State) (t : TRef) (core o : Nat),
      Runs c (.barrArrive c chk a b off) s t s1 ∧
      s1.acqOpen t = false ∧
      (s1.spadAddr t a off).toNat % 16 = 0 ∧
      (s1.spadPlace t (s1.spadAddr t a off) (16)).map (·.2) = some (core, o) ∧
      s1.relHeld t = false ∧
      (s1.relFlush t).spadWriteHeld t core o 16 = false ∧
      (((s1.relFlush t).settleLoads t (.spad core o) 16).ctx t).quant = true)
    ∧ (∃ (c : Ctl) (a b : Operand) (off : BitVec 12) (s s1 : State) (t : TRef) (core o : Nat),
      Runs c (.barrExpect c a b off) s t s1 ∧
      s1.acqOpen t = false ∧
      (s1.spadAddr t a off).toNat % 16 = 0 ∧
      (s1.spadPlace t (s1.spadAddr t a off) (16)).map (·.2) = some (core, o) ∧
      s1.relHeld t = false ∧
      (s1.relFlush t).spadWriteHeld t core o 16 = false ∧
      (((s1.relFlush t).settleLoads t (.spad core o) 16).ctx t).quant = false)
    ∧ (∃ (c : Ctl) (a b : Operand) (off : BitVec 12) (s s1 : State) (t : TRef) (core o : Nat),
      Runs c (.barrExpect c a b off) s t s1 ∧
      s1.acqOpen t = false ∧
      (s1.spadAddr t a off).toNat % 16 = 0 ∧
      (s1.spadPlace t (s1.spadAddr t a off) (16)).map (·.2) = some (core, o) ∧
      s1.relHeld t = false ∧
      (s1.relFlush t).spadWriteHeld t core o 16 = false ∧
      (((s1.relFlush t).settleLoads t (.spad core o) 16).ctx t).quant = true)
    ∧ (∃ (c : Ctl) (d a b : Operand) (off : BitVec 12) (s s1 : State) (t : TRef) (core o : Nat),
      Runs c (.barrWait c d a b off) s t s1 ∧
      (s1.ctx t).quant = false ∧
      (s1.accessHeld t || s1.flagFull t c) = false ∧
      (s1.spadAddr t a off).toNat % 16 = 0 ∧
      (s1.spadPlace t (s1.spadAddr t a off) (16)).map (·.2) = some (core, o) ∧
      s1.spadReadHeld t core o 16 = false ∧
      ((s1.settleLoads t (.spad core o) 16).ctx t).quant = false ∧
      ((s1.settleLoads t (.spad core o) 16).barrAt core o).ph ≠ ((s1.vreg t (opNum b)).toNat % 16))
    ∧ (∃ (c : Ctl) (d a b : Operand) (off : BitVec 12) (s s1 : State) (t : TRef) (core o : Nat),
      Runs c (.barrWait c d a b off) s t s1 ∧
      (s1.ctx t).quant = false ∧
      (s1.accessHeld t || s1.flagFull t c) = false ∧
      (s1.spadAddr t a off).toNat % 16 = 0 ∧
      (s1.spadPlace t (s1.spadAddr t a off) (16)).map (·.2) = some (core, o) ∧
      s1.spadReadHeld t core o 16 = false ∧
      ((s1.settleLoads t (.spad core o) 16).ctx t).quant = false ∧
      ((s1.settleLoads t (.spad core o) 16).barrAt core o).ph = ((s1.vreg t (opNum b)).toNat % 16))
    ∧ (∃ (c : Ctl) (d a : Operand) (off : BitVec 12) (s s1 : State) (t : TRef) (core o : Nat),
      Runs c (.barrQuery c d a off) s t s1 ∧
      s1.loadHeld t c d 4 = false ∧
      (s1.spadAddr t a off).toNat % 16 = 0 ∧
      (s1.spadPlace t (s1.spadAddr t a off) (16)).map (·.2) = some (core, o) ∧
      s1.spadReadHeld t core o 16 = false) :=
  ⟨⟨wc, (.v 2), (.v 3), 0, w0, w0.mark wc, (.thr 1 0), 0, 0, ⟨by decide +kernel, rfl⟩, by decide +kernel⟩,
   ⟨wc, (.v 2), (.v 3), 0, wQuant, wQuant.mark wc, (.thr 1 0), 0, 0, ⟨by decide +kernel, rfl⟩, by decide +kernel⟩,
   ⟨wc, false, (.v 2), .none, 0, wBarr, wBarr.mark wc, (.thr 1 0), 0, 0, ⟨by decide +kernel, rfl⟩, by decide +kernel⟩,
   ⟨wc, false, (.v 2), .none, 0, wQuant, wQuant.mark wc, (.thr 1 0), 0, 0, ⟨by decide +kernel, rfl⟩, by decide +kernel⟩,
   ⟨wc, (.v 2), (.v 3), 0, wBarr, wBarr.mark wc, (.thr 1 0), 0, 0, ⟨by decide +kernel, rfl⟩, by decide +kernel⟩,
   ⟨wc, (.v 2), (.v 3), 0, wQuant, wQuant.mark wc, (.thr 1 0), 0, 0, ⟨by decide +kernel, rfl⟩, by decide +kernel⟩,
   ⟨wc, (.p 6), (.v 2), (.v 12), 0, wBarr, wBarr.mark wc, (.thr 1 0), 0, 0, ⟨by decide +kernel, rfl⟩, by decide +kernel⟩,
   ⟨wc, (.p 6), (.v 2), (.v 10), 0, wBarr, wBarr.mark wc, (.thr 1 0), 0, 0, ⟨by decide +kernel, rfl⟩, by decide +kernel⟩,
   ⟨wc, (.v 252), (.v 2), 0, wBarr, wBarr.mark wc, (.thr 1 0), 0, 0, ⟨by decide +kernel, rfl⟩, by decide +kernel⟩⟩

theorem wit_WaitsAndAtomicsComplete :
    (∃ (c : Ctl) (ty : Ty) (acq : Bool) (scope : Scope) (d a b : Operand) (off : BitVec 12) (s s1 : State) (t : TRef) (r : Range),
      Runs c (.mwait c ty acq scope d a b off) s t s1 ∧
      (s1.ctx t).quant = false ∧
      s1.loadHeld t c d (tyRegs ty) = false ∧
      (s1.addr t a off).toNat % (atomBytes ty) = 0 ∧
      (s1.access t (s1.addr t a off) ((atomBytes ty)) false false [(s1.addr t a off).toNat]).isOk = true ∧
      (s1.access t (s1.addr t a off) ((atomBytes ty)) false false [(s1.addr t a off).toNat]).rs = [r] ∧
      paDevice r.pa = true)
    ∧ (∃ (c : Ctl) (ty : Ty) (op : AtomOp) (order : AtomOrder) (scope : Scope) (d a b e : Operand) (off : BitVec 12) (s s1 : State) (t : TRef) (r : Range),
      Runs c (.atom c ty op order scope d a b e off) s t s1 ∧
      (s1.acqOpenLoad t || s1.coreFull (s1.ctx t).core || (s1.flagFull t c || s1.destLocked t d (tyRegs ty))) = false ∧
      (s1.addr t a (if op == .cas then 0 else off)).toNat % (atomBytes ty) = 0 ∧
      (s1.access t (s1.addr t a (if op == .cas then 0 else off)) ((atomBytes ty)) true false [(s1.addr t a (if op == .cas then 0 else off)).toNat]).isOk = true ∧
      (s1.access t (s1.addr t a (if op == .cas then 0 else off)) ((atomBytes ty)) true false [(s1.addr t a (if op == .cas then 0 else off)).toNat]).rs = [r] ∧
      paDevice r.pa = true)
    ∧ (∃ (c : Ctl) (ty : Ty) (op : AtomOp) (order : AtomOrder) (scope : Scope) (a b : Operand) (off : BitVec 12) (s s1 : State) (t : TRef) (r : Range),
      Runs c (.red c ty op order scope a b off) s t s1 ∧
      (s1.acqOpenLoad t || s1.coreFull (s1.ctx t).core) = false ∧
      (s1.addr t a (if op == .cas then 0 else off)).toNat % (atomBytes ty) = 0 ∧
      (s1.access t (s1.addr t a (if op == .cas then 0 else off)) ((atomBytes ty)) true false [(s1.addr t a (if op == .cas then 0 else off)).toNat]).isOk = true ∧
      (s1.access t (s1.addr t a (if op == .cas then 0 else off)) ((atomBytes ty)) true false [(s1.addr t a (if op == .cas then 0 else off)).toNat]).rs = [r] ∧
      paDevice r.pa = true)
    ∧ (∃ (c : Ctl) (routine : BitVec 2) (args res : BitVec 3) (d a b : Operand) (off : BitVec 12) (s s1 : State) (t : TRef) (r : Range),
      Runs c (.acall c routine args res d a b off) s t s1 ∧
      (s1.accessHeld t || s1.flagFull t c || s1.destLocked t d (res.toNat + 1)) = false ∧
      (s1.addr t a off).toNat % 4 = 0 ∧
      (s1.access t (s1.addr t a off) (4) true false [(s1.addr t a off).toNat]).isOk = true ∧
      (s1.access t (s1.addr t a off) (4) true false [(s1.addr t a off).toNat]).rs = [r] ∧
      paDevice r.pa = true) :=
  ⟨⟨wc, .b32, true, .device, (.v 255), (.v 0), (.v 3), 0, w0, w0.mark wc, (.thr 1 0), ⟨0x148000, 4, false⟩, ⟨by decide +kernel, rfl⟩, by decide +kernel⟩,
   ⟨wc, .n64, .add, .none, .device, (.v 254), (.v 0), (.v 2), .none, 0, w0, w0.mark wc, (.thr 1 0), ⟨0x148000, 8, false⟩, ⟨by decide +kernel, rfl⟩, by decide +kernel⟩,
   ⟨wc, .n32, .add, .none, .device, (.v 0), (.v 3), 0, w0, w0.mark wc, (.thr 1 0), ⟨0x148000, 4, false⟩, ⟨by decide +kernel, rfl⟩, by decide +kernel⟩,
   ⟨wc, 3, 7, 7, (.v 248), (.v 0), (.v 2), 0, w0, w0.mark wc, (.thr 1 0), ⟨0x148000, 4, false⟩, ⟨by decide +kernel, rfl⟩, by decide +kernel⟩⟩

theorem wit_MatrixRegistersComplete :
    (∃ (c : Ctl) (pair : Bool) (d a : Operand) (s s1 : State) (t : TRef) (G : Group) (q : Nat),
      Runs c (.aalloc c pair d a) s t s1 ∧
      s1.groupOf t = some G ∧
      s1.destLocked t d 1 = false ∧
      (List.range 8).find? (fun q => !G.quartetTaken q) = some q ∧
      (((aallocNames pair (s1.src32 t a) (if pair then (s1.src64 t a).extractLsb' 32 32 else 0)).all fun n => G.bindable pair n) && ((aallocNames pair (s1.src32 t a) (if pair then (s1.src64 t a).extractLsb' 32 32 else 0)).map (·.1)).eraseDups.length == (aallocNames pair (s1.src32 t a) (if pair then (s1.src64 t a).extractLsb' 32 32 else 0)).length && (pair || ((aallocNames pair (s1.src32 t a) (if pair then (s1.src64 t a).extractLsb' 32 32 else 0)).map fun n => ((G.waves.find? fun w => w.idx == n.1).map (·.core))).eraseDups.length == 1)) = true)
    ∧ (∃ (c : Ctl) (pair : Bool) (d a : Operand) (s s1 : State) (t : TRef) (G : Group),
      Runs c (.aalloc c pair d a) s t s1 ∧
      s1.groupOf t = some G ∧
      s1.destLocked t d 1 = false ∧
      (((List.range 8).find? (fun q => !G.quartetTaken q)).isNone = true ∨ (((aallocNames pair (s1.src32 t a) (if pair then (s1.src64 t a).extractLsb' 32 32 else 0)).all fun n => G.bindable pair n) && ((aallocNames pair (s1.src32 t a) (if pair then (s1.src64 t a).extractLsb' 32 32 else 0)).map (·.1)).eraseDups.length == (aallocNames pair (s1.src32 t a) (if pair then (s1.src64 t a).extractLsb' 32 32 else 0)).length && (pair || ((aallocNames pair (s1.src32 t a) (if pair then (s1.src64 t a).extractLsb' 32 32 else 0)).map fun n => ((G.waves.find? fun w => w.idx == n.1).map (·.core))).eraseDups.length == 1)) = false))
    ∧ (∃ (c : Ctl) (a b e : Operand) (s s1 : State) (t : TRef) (G : Group) (W : Wave),
      Runs c (.awin c a b e) s t s1 ∧
      s1.groupOf t = some G ∧
      G.waves.find? (fun x => x.idx == (s1.src32 t a).toNat) = some W ∧
      (s1.thread t).tid = 0 ∧
      G.live (s1.src32 t a).toNat ≠ 0 ∧
      ¬ s1.src32 t e < s1.src32 t b ∧
      (s1.src32 t e).toNat ≤ ((s1.launch? G.launch).getD Launch.blank).rc.accrows ∧
      (G.waves.any fun x => x.idx != (s1.src32 t a).toNat && x.core == W.core && s1.src32 t b < s1.src32 t e && x.accbase < x.acclim && s1.src32 t b < x.acclim && x.accbase < s1.src32 t e) = false ∧
      (mbBound W.mbind && s1.quartetBusy G.id (mbNum W.mbind)) = false)
    ∧ (∃ (c : Ctl) (a : Operand) (s s1 : State) (t : TRef) (g : Nat),
      Runs c (.afree c a) s t s1 ∧
      t.group = some g ∧
      s1.quartetBusy g (s1.src32 t a).toNat = false)
    ∧ (∃ (c : Ctl) (rows : BitVec 4) (d : Operand) (s s1 : State) (t : TRef) (G : Group),
      Runs c (.azero c rows d) s t s1 ∧
      s1.groupOf t = some G ∧
      winHolds (s1.winOf t (s1.waveOf t)) (s1.vreg t (opNum d)).toNat (rows.toNat + 1) = true ∧
      s1.rowsUnder t (s1.waveOf t).core (G.accOrg + (s1.winOf t (s1.waveOf t)).1.toNat + (s1.vreg t (opNum d)).toNat) (rows.toNat + 1) = false)
    ∧ (∃ (c : Ctl) (first cnt : BitVec 4) (d a : Operand) (s s1 : State) (t : TRef) (G : Group),
      Runs c (.ald c first cnt d a) s t s1 ∧
      s1.flagFull t c = false ∧
      s1.destLocked t d (cnt.toNat + 1) = false ∧
      s1.groupOf t = some G ∧
      winHolds (s1.winOf t (s1.waveOf t)) (s1.vreg t (opNum a)).toNat 1 = true ∧
      s1.rowsUnder t (s1.waveOf t).core (G.accOrg + (s1.winOf t (s1.waveOf t)).1.toNat + (s1.vreg t (opNum a)).toNat) 1 = false)
    ∧ (∃ (c : Ctl) (first cnt : BitVec 4) (d a : Operand) (s s1 : State) (t : TRef) (G : Group),
      Runs c (.ast c first cnt d a) s t s1 ∧
      s1.flagFull t c = false ∧
      s1.groupOf t = some G ∧
      winHolds (s1.winOf t (s1.waveOf t)) (s1.vreg t (opNum d)).toNat 1 = true ∧
      s1.rowsUnder t (s1.waveOf t).core (G.accOrg + (s1.winOf t (s1.waveOf t)).1.toNat + (s1.vreg t (opNum d)).toNat) 1 = false)
    ∧ (∃ (c : Ctl) (a b e : Operand) (s s1 : State) (t : TRef) (g : Nat),
      Runs c (.epcfg c a b e) s t s1 ∧
      t.group = some g ∧
      s1.guard t c = true ∧
      s1.gang.members = [t]) :=
  ⟨⟨wc, false, (.v 255), (.v 5), wFour, wFour.mark wc, (.thr 1 0), (wG wFour), 0, ⟨by decide +kernel, rfl⟩, by decide +kernel⟩,
   ⟨wc, false, (.v 255), (.v 2), w0, w0.mark wc, (.thr 1 0), (wG w0), ⟨by decide +kernel, rfl⟩, by decide +kernel⟩,
   ⟨wc, (.v 2), (.v 2), (.imm 64), w0, w0.mark wc, (.thr 1 0), (wG w0), (wW w0), ⟨by decide +kernel, rfl⟩, by decide +kernel⟩,
   ⟨wc, (.imm 7), w0, w0.mark wc, (.thr 1 0), 1, ⟨by decide +kernel, rfl⟩, by decide +kernel⟩,
   ⟨wc, 15, (.acc 2), w0, w0.mark wc, (.thr 1 0), (wG w0), ⟨by decide +kernel, rfl⟩, by decide +kernel⟩,
   ⟨wc, 0, 15, (.v 240), (.acc 2), w0, w0.mark wc, (.thr 1 0), (wG w0), ⟨by decide +kernel, rfl⟩, by decide +kernel⟩,
   ⟨wc, 0, 15, (.acc 2), (.v 240), w0, w0.mark wc, (.thr 1 0), (wG w0), ⟨by decide +kernel, rfl⟩, by decide +kernel⟩,
   ⟨wc, (.v 2), (.v 15), (.imm 64), w0, w0.mark wc, (.thr 1 0), 1, ⟨by decide +kernel, rfl⟩, by decide +kernel⟩⟩

theorem wit_MatrixStepsComplete :
    (∃ (c : Ctl) (d a b e : Operand) (s s1 : State) (ms : List TRef) (t0 : TRef) (rest : List TRef) (G : Group) (el : TRef),
      RunsAll c (.mma c d a b e) s ms s1 ∧
      ms = t0 :: rest ∧
      s1.groupOf t0 = some G ∧
      (s1.narrow t0 && (opNum b % 8 != 0 || (s1.ctx t0).regs < opNum b + 8)) = false ∧
      mbBound (s1.waveOf t0).mbind = true ∧
      s1.elected G (mbNum (s1.waveOf t0).mbind) ms = some el ∧
      s1.dissent G ms e (s1.src32 el e) = none ∧
      (fmtWord (s1.src32 el e)).stepOk = true ∧
      (((List.range 4).map fun p => (false, p, G.member (mbNum (s1.waveOf t0).mbind) p false)).any fun w => match w.2.2 with | some w => G.live w.idx == 0 | none => true) = false ∧
      ((((List.range 4).map fun p => (false, p, G.member (mbNum (s1.waveOf t0).mbind) p false))).any fun w => match w.2.2 with | some w => !winHolds (s1.winOf (((G.threads.find? fun x => x.wave == w.idx && !x.exited).map fun x => TRef.thr G.id x.tid).getD el) w) (s1.vreg el (opNum d)).toNat 4 | none => true) = false ∧
      (s1.src32 el a).toNat % 16 = 0 ∧
      (match s1.spadOf G (s1.waveOf el).core (s1.src32 el a) (fmtRegion (s1.src32 el e)) with | some r => r.1.id == G.id | none => false) = true ∧
      (s1.muQueue (s1.waveOf el).core).length < 8 ∧
      (ms.any fun t => s1.flagFull t c || (s1.advance t).isWait) = false ∧
      (ms.any fun t => (s1.advance t).isBad) = false)
    ∧ (∃ (c : Ctl) (d a b e : Operand) (s s1 : State) (ms : List TRef) (t0 : TRef) (rest : List TRef) (G : Group) (el : TRef),
      RunsAll c (.mmp c d a b e) s ms s1 ∧
      ms = t0 :: rest ∧
      s1.groupOf t0 = some G ∧
      (s1.narrow t0 && (opNum b % 8 != 0 || (s1.ctx t0).regs < opNum b + 8)) = false ∧
      mbBound (s1.waveOf t0).mbind = true ∧
      s1.elected G (mbNum (s1.waveOf t0).mbind) ms = some el ∧
      s1.dissent G ms e (s1.src32 el e) = none ∧
      (fmtWord (s1.src32 el e)).stepOk = true ∧
      (mbPair (s1.waveOf t0).mbind && !mbFoll (s1.waveOf t0).mbind) = true ∧
      (((List.range 4).map fun p => (false, p, G.member (mbNum (s1.waveOf t0).mbind) p false)).any fun w => match w.2.2 with | some w => G.live w.idx == 0 | none => true) = false ∧
      ((((List.range 4).map fun p => (false, p, G.member (mbNum (s1.waveOf t0).mbind) p false)) ++ ((List.range 4).map fun p => (true, p, G.member (mbNum (s1.waveOf t0).mbind) p true))).any fun w => match w.2.2 with | some w => !winHolds (s1.winOf (((G.threads.find? fun x => x.wave == w.idx && !x.exited).map fun x => TRef.thr G.id x.tid).getD el) w) (s1.vreg el (opNum d)).toNat 4 | none => true) = false ∧
      (s1.src32 el a).toNat % 16 = 0 ∧
      (match s1.spadOf G (s1.waveOf el).core (s1.src32 el a) (fmtRegion (s1.src32 el e)) with | some r => r.1.id == G.id | none => false) = true ∧
      (match s1.spadOf G ((s1.waveOf el).core + 1) (s1.src32 el a) (fmtRegion (s1.src32 el e)) with | some r => r.1.id == G.id | none => false) = true ∧
      (s1.muQueue (s1.waveOf el).core).length < 8 ∧
      (s1.muQueue ((s1.waveOf el).core + 1)).length < 8 ∧
      (ms.any fun t => s1.flagFull t c || (s1.advance t).isWait) = false ∧
      (ms.any fun t => (s1.advance t).isBad) = false)
    ∧ (∃ (op : Nat) (s : State) (m : MuOp) (G : Group),
      (s.cores.map (·.mu)).flatten.find? (fun m => m.id == op) = some m ∧
      s.group? m.group = some G ∧
      m.due ≤ s.clk ∧
      m.abandoned = false ∧
      ((s.muQueue m.core).all fun x => m.id ≤ x.id) = true ∧
      (m.pair && !((s.muQueue (m.core + 1)).all fun x => m.id ≤ x.id)) = false ∧
      s.muWaits G m = false) :=
  ⟨⟨wc, (.acc 2), (.v 2), (.v 16), (.v 2), wFourB, wFourB.mark wc, [.thr 1 0], (.thr 1 0), [], (wG wFourB), (.thr 1 0), ⟨by decide +kernel, rfl⟩, by decide +kernel⟩,
   ⟨wc, (.acc 2), (.v 2), (.v 16), (.v 2), wEight, wEight.mark wc, [.thr 1 0], (.thr 1 0), [], (wG wEight), (.thr 1 0), ⟨by decide +kernel, rfl⟩, by decide +kernel⟩,
   ⟨7, wMu, wMuOp, (wG0 wMu), by decide +kernel⟩⟩

theorem wit_MatrixMovesComplete :
    (∃ (c : Ctl) (form : MldForm) (d a b e : Operand) (s s1 : State) (t : TRef),
      Runs c (.mld c form d a b e) s t s1 ∧
      (s1.flagFull t c || s1.acqOpen t || (form == .b && s1.destLocked t d (if s1.narrow t then 8 else 4))) = false ∧
      (form == .b && s1.narrow t && (opNum d % 8 != 0 || (s1.ctx t).regs < opNum d + 8)) = false ∧
      (s1.ctx t).quant = true)
    ∧ (∃ (c : Ctl) (form : MldForm) (d a b e : Operand) (s s1 : State) (t : TRef),
      Runs c (.mld c form d a b e) s t s1 ∧
      form = .b ∧
      (s1.flagFull t c || s1.acqOpen t || (form == .b && s1.destLocked t d (if s1.narrow t then 8 else 4))) = false ∧
      (form == .b && s1.narrow t && (opNum d % 8 != 0 || (s1.ctx t).regs < opNum d + 8)) = false ∧
      (s1.ctx t).quant = false ∧
      (s1.accessVia t (.walk (coreCluster (s1.ctx t).core)) (s1.src64 t a) 64 false false [(s1.src64 t a).toNat]).isOk = true ∧
      ((s1.accessVia t (.walk (coreCluster (s1.ctx t).core)) (s1.src64 t a) 64 false false [(s1.src64 t a).toNat]).rs.all fun r => s1.memReady r.pa r.len r.bypass && s1.mxTurn t s1.nextId (.mem r.pa) r.len false) = true ∧
      (s1.src64 t a).toNat % 64 = 0 ∧
      (tensorOf ((s1.accessVia t (.walk (coreCluster (s1.ctx t).core)) (s1.src64 t a) 64 false false [(s1.src64 t a).toNat]).st.readRanges (coreReader .mx (s1.ctx t).core) (s1.accessVia t (.walk (coreCluster (s1.ctx t).core)) (s1.src64 t a) 64 false false [(s1.src64 t a).toNat]).rs).1).ok = true ∧
      (tensorOf ((s1.accessVia t (.walk (coreCluster (s1.ctx t).core)) (s1.src64 t a) 64 false false [(s1.src64 t a).toNat]).st.readRanges (coreReader .mx (s1.ctx t).core) (s1.accessVia t (.walk (coreCluster (s1.ctx t).core)) (s1.src64 t a) 64 false false [(s1.src64 t a).toNat]).rs).1).rank ≤ (((List.range 5).filter fun i => opNum b + i < (s1.ctx t).regs).map fun i => (s1.vreg t (opNum b + i)).toNat).length ∧
      (tensorOf ((s1.accessVia t (.walk (coreCluster (s1.ctx t).core)) (s1.src64 t a) 64 false false [(s1.src64 t a).toNat]).st.readRanges (coreReader .mx (s1.ctx t).core) (s1.accessVia t (.walk (coreCluster (s1.ctx t).core)) (s1.src64 t a) 64 false false [(s1.src64 t a).toNat]).rs).1).boxAt 0 * (tensorOf ((s1.accessVia t (.walk (coreCluster (s1.ctx t).core)) (s1.src64 t a) 64 false false [(s1.src64 t a).toNat]).st.readRanges (coreReader .mx (s1.ctx t).core) (s1.accessVia t (.walk (coreCluster (s1.ctx t).core)) (s1.src64 t a) 64 false false [(s1.src64 t a).toNat]).rs).1).w ≤ 1024 ∧
      ((form == .scA || form == .scB) && (!(fmtArray (tensorOf ((s1.accessVia t (.walk (coreCluster (s1.ctx t).core)) (s1.src64 t a) 64 false false [(s1.src64 t a).toNat]).st.readRanges (coreReader .mx (s1.ctx t).core) (s1.accessVia t (.walk (coreCluster (s1.ctx t).core)) (s1.src64 t a) 64 false false [(s1.src64 t a).toNat]).rs).1).fmt || (tensorOf ((s1.accessVia t (.walk (coreCluster (s1.ctx t).core)) (s1.src64 t a) 64 false false [(s1.src64 t a).toNat]).st.readRanges (coreReader .mx (s1.ctx t).core) (s1.accessVia t (.walk (coreCluster (s1.ctx t).core)) (s1.src64 t a) 64 false false [(s1.src64 t a).toNat]).rs).1).fmt == 14) || crd (((List.range 5).filter fun i => opNum b + i < (s1.ctx t).regs).map fun i => (s1.vreg t (opNum b + i)).toNat) 0 % (if (tensorOf ((s1.accessVia t (.walk (coreCluster (s1.ctx t).core)) (s1.src64 t a) 64 false false [(s1.src64 t a).toNat]).st.readRanges (coreReader .mx (s1.ctx t).core) (s1.accessVia t (.walk (coreCluster (s1.ctx t).core)) (s1.src64 t a) 64 false false [(s1.src64 t a).toNat]).rs).1).fmt == 14 then 256 else 32) != 0)) = false ∧
      (State.mldXlat t (.walk (coreCluster (s1.ctx t).core)) (if (tensorOf ((s1.accessVia t (.walk (coreCluster (s1.ctx t).core)) (s1.src64 t a) 64 false false [(s1.src64 t a).toNat]).st.readRanges (coreReader .mx (s1.ctx t).core) (s1.accessVia t (.walk (coreCluster (s1.ctx t).core)) (s1.src64 t a) 64 false false [(s1.src64 t a).toNat]).rs).1).fmt == 14 && (form == .scA || form == .scB) then List.replicate 8 0 else if (form == .scA || form == .scB) then [BitVec.ofNat 8 (tensorOf ((s1.accessVia t (.walk (coreCluster (s1.ctx t).core)) (s1.src64 t a) 64 false false [(s1.src64 t a).toNat]).st.readRanges (coreReader .mx (s1.ctx t).core) (s1.accessVia t (.walk (coreCluster (s1.ctx t).core)) (s1.src64 t a) 64 false false [(s1.src64 t a).toNat]).rs).1).fill] else (tensorOf ((s1.accessVia t (.walk (coreCluster (s1.ctx t).core)) (s1.src64 t a) 64 false false [(s1.src64 t a).toNat]).st.readRanges (coreReader .mx (s1.ctx t).core) (s1.accessVia t (.walk (coreCluster (s1.ctx t).core)) (s1.src64 t a) 64 false false [(s1.src64 t a).toNat]).rs).1).fillBytes) (joinRuns (mldRuns (tensorOf ((s1.accessVia t (.walk (coreCluster (s1.ctx t).core)) (s1.src64 t a) 64 false false [(s1.src64 t a).toNat]).st.readRanges (coreReader .mx (s1.ctx t).core) (s1.accessVia t (.walk (coreCluster (s1.ctx t).core)) (s1.src64 t a) 64 false false [(s1.src64 t a).toNat]).rs).1) form ((tensorOf ((s1.accessVia t (.walk (coreCluster (s1.ctx t).core)) (s1.src64 t a) 64 false false [(s1.src64 t a).toNat]).st.readRanges (coreReader .mx (s1.ctx t).core) (s1.accessVia t (.walk (coreCluster (s1.ctx t).core)) (s1.src64 t a) 64 false false [(s1.src64 t a).toNat]).rs).1).coords (((List.range 5).filter fun i => opNum b + i < (s1.ctx t).regs).map fun i => (s1.vreg t (opNum b + i)).toNat)) ((s1.waveOf t).slot / 8) (s1.thread t).lane (s1.narrow t)) []) ((s1.accessVia t (.walk (coreCluster (s1.ctx t).core)) (s1.src64 t a) 64 false false [(s1.src64 t a).toNat]).st.readRanges (coreReader .mx (s1.ctx t).core) (s1.accessVia t (.walk (coreCluster (s1.ctx t).core)) (s1.src64 t a) 64 false false [(s1.src64 t a).toNat]).rs).2 []).1.isSome = true)
    ∧ (∃ (c : Ctl) (form : MldForm) (d a b e : Operand) (s s1 : State) (t : TRef) (G : Group) (core o : Nat),
      Runs c (.mld c form d a b e) s t s1 ∧
      form ≠ .b ∧
      (s1.flagFull t c || s1.acqOpen t || (form == .b && s1.destLocked t d (if s1.narrow t then 8 else 4))) = false ∧
      (form == .b && s1.narrow t && (opNum d % 8 != 0 || (s1.ctx t).regs < opNum d + 8)) = false ∧
      (s1.ctx t).quant = false ∧
      (s1.accessVia t (.walk (coreCluster (s1.ctx t).core)) (s1.src64 t a) 64 false false [(s1.src64 t a).toNat]).isOk = true ∧
      ((s1.accessVia t (.walk (coreCluster (s1.ctx t).core)) (s1.src64 t a) 64 false false [(s1.src64 t a).toNat]).rs.all fun r => s1.memReady r.pa r.len r.bypass && s1.mxTurn t s1.nextId (.mem r.pa) r.len false) = true ∧
      (s1.src64 t a).toNat % 64 = 0 ∧
      (tensorOf ((s1.accessVia t (.walk (coreCluster (s1.ctx t).core)) (s1.src64 t a) 64 false false [(s1.src64 t a).toNat]).st.readRanges (coreReader .mx (s1.ctx t).core) (s1.accessVia t (.walk (coreCluster (s1.ctx t).core)) (s1.src64 t a) 64 false false [(s1.src64 t a).toNat]).rs).1).ok = true ∧
      (tensorOf ((s1.accessVia t (.walk (coreCluster (s1.ctx t).core)) (s1.src64 t a) 64 false false [(s1.src64 t a).toNat]).st.readRanges (coreReader .mx (s1.ctx t).core) (s1.accessVia t (.walk (coreCluster (s1.ctx t).core)) (s1.src64 t a) 64 false false [(s1.src64 t a).toNat]).rs).1).rank ≤ (((List.range 5).filter fun i => opNum b + i < (s1.ctx t).regs).map fun i => (s1.vreg t (opNum b + i)).toNat).length ∧
      (tensorOf ((s1.accessVia t (.walk (coreCluster (s1.ctx t).core)) (s1.src64 t a) 64 false false [(s1.src64 t a).toNat]).st.readRanges (coreReader .mx (s1.ctx t).core) (s1.accessVia t (.walk (coreCluster (s1.ctx t).core)) (s1.src64 t a) 64 false false [(s1.src64 t a).toNat]).rs).1).boxAt 0 * (tensorOf ((s1.accessVia t (.walk (coreCluster (s1.ctx t).core)) (s1.src64 t a) 64 false false [(s1.src64 t a).toNat]).st.readRanges (coreReader .mx (s1.ctx t).core) (s1.accessVia t (.walk (coreCluster (s1.ctx t).core)) (s1.src64 t a) 64 false false [(s1.src64 t a).toNat]).rs).1).w ≤ 1024 ∧
      ((form == .scA || form == .scB) && (!(fmtArray (tensorOf ((s1.accessVia t (.walk (coreCluster (s1.ctx t).core)) (s1.src64 t a) 64 false false [(s1.src64 t a).toNat]).st.readRanges (coreReader .mx (s1.ctx t).core) (s1.accessVia t (.walk (coreCluster (s1.ctx t).core)) (s1.src64 t a) 64 false false [(s1.src64 t a).toNat]).rs).1).fmt || (tensorOf ((s1.accessVia t (.walk (coreCluster (s1.ctx t).core)) (s1.src64 t a) 64 false false [(s1.src64 t a).toNat]).st.readRanges (coreReader .mx (s1.ctx t).core) (s1.accessVia t (.walk (coreCluster (s1.ctx t).core)) (s1.src64 t a) 64 false false [(s1.src64 t a).toNat]).rs).1).fmt == 14) || crd (((List.range 5).filter fun i => opNum b + i < (s1.ctx t).regs).map fun i => (s1.vreg t (opNum b + i)).toNat) 0 % (if (tensorOf ((s1.accessVia t (.walk (coreCluster (s1.ctx t).core)) (s1.src64 t a) 64 false false [(s1.src64 t a).toNat]).st.readRanges (coreReader .mx (s1.ctx t).core) (s1.accessVia t (.walk (coreCluster (s1.ctx t).core)) (s1.src64 t a) 64 false false [(s1.src64 t a).toNat]).rs).1).fmt == 14 then 256 else 32) != 0)) = false ∧
      (State.mldXlat t (.walk (coreCluster (s1.ctx t).core)) (if (tensorOf ((s1.accessVia t (.walk (coreCluster (s1.ctx t).core)) (s1.src64 t a) 64 false false [(s1.src64 t a).toNat]).st.readRanges (coreReader .mx (s1.ctx t).core) (s1.accessVia t (.walk (coreCluster (s1.ctx t).core)) (s1.src64 t a) 64 false false [(s1.src64 t a).toNat]).rs).1).fmt == 14 && (form == .scA || form == .scB) then List.replicate 8 0 else if (form == .scA || form == .scB) then [BitVec.ofNat 8 (tensorOf ((s1.accessVia t (.walk (coreCluster (s1.ctx t).core)) (s1.src64 t a) 64 false false [(s1.src64 t a).toNat]).st.readRanges (coreReader .mx (s1.ctx t).core) (s1.accessVia t (.walk (coreCluster (s1.ctx t).core)) (s1.src64 t a) 64 false false [(s1.src64 t a).toNat]).rs).1).fill] else (tensorOf ((s1.accessVia t (.walk (coreCluster (s1.ctx t).core)) (s1.src64 t a) 64 false false [(s1.src64 t a).toNat]).st.readRanges (coreReader .mx (s1.ctx t).core) (s1.accessVia t (.walk (coreCluster (s1.ctx t).core)) (s1.src64 t a) 64 false false [(s1.src64 t a).toNat]).rs).1).fillBytes) (joinRuns (mldRuns (tensorOf ((s1.accessVia t (.walk (coreCluster (s1.ctx t).core)) (s1.src64 t a) 64 false false [(s1.src64 t a).toNat]).st.readRanges (coreReader .mx (s1.ctx t).core) (s1.accessVia t (.walk (coreCluster (s1.ctx t).core)) (s1.src64 t a) 64 false false [(s1.src64 t a).toNat]).rs).1) form ((tensorOf ((s1.accessVia t (.walk (coreCluster (s1.ctx t).core)) (s1.src64 t a) 64 false false [(s1.src64 t a).toNat]).st.readRanges (coreReader .mx (s1.ctx t).core) (s1.accessVia t (.walk (coreCluster (s1.ctx t).core)) (s1.src64 t a) 64 false false [(s1.src64 t a).toNat]).rs).1).coords (((List.range 5).filter fun i => opNum b + i < (s1.ctx t).regs).map fun i => (s1.vreg t (opNum b + i)).toNat)) ((s1.waveOf t).slot / 8) (s1.thread t).lane (s1.narrow t)) []) ((s1.accessVia t (.walk (coreCluster (s1.ctx t).core)) (s1.src64 t a) 64 false false [(s1.src64 t a).toNat]).st.readRanges (coreReader .mx (s1.ctx t).core) (s1.accessVia t (.walk (coreCluster (s1.ctx t).core)) (s1.src64 t a) 64 false false [(s1.src64 t a).toNat]).rs).2 []).1.isSome = true ∧
      s1.spadPlace t (s1.src32 t e) (if (form == .scA || form == .scB) then 128 else 2048) = some (G, core, o) ∧
      (s1.src32 t e).toNat % 16 = 0 ∧
      some G.id = t.group ∧
      s1.spadWriteHeld t core o (if (form == .scA || form == .scB) then 128 else 2048) = false)
    ∧ (∃ (c : Ctl) (rows : BitVec 4) (sp : Bool) (a b e : Operand) (s s1 : State) (t : TRef) (G : Group),
      Runs c (.mret c rows sp a b e) s t s1 ∧
      s1.flagFull t c = false ∧
      s1.acqOpen t = false ∧
      (fmtWord (s1.src32 t e)).retireOk = true ∧
      s1.groupOf t = some G ∧
      winHolds (s1.winOf t (s1.waveOf t)) (s1.vreg t (opNum b)).toNat (rows.toNat + 1) = true ∧
      (s1.ops.any fun o => o.thr == t && match o.kind with | .accWrite k r _ _ => k == (s1.waveOf t).core && (G.accOrg + (s1.winOf t (s1.waveOf t)).1.toNat + (s1.vreg t (opNum b)).toNat) ≤ r && r < (G.accOrg + (s1.winOf t (s1.waveOf t)).1.toNat + (s1.vreg t (opNum b)).toNat) + (rows.toNat + 1) | _ => false) = false ∧
      s1.rowsUnder t (s1.waveOf t).core (G.accOrg + (s1.winOf t (s1.waveOf t)).1.toNat + (s1.vreg t (opNum b)).toNat) (rows.toNat + 1) = false ∧
      ((match s1.spadPlace t (s1.waveOf t).bias 64 with | some x => !s1.spadReadHeld t x.2.1 x.2.2 64 | none => false) || !(fmtWord (s1.src32 t e)).ebias) = true ∧
      (State.retirePlaces t sp ((s1.epilogueRows (fmtWord (s1.src32 t e)) (s1.waveOf t) (if (fmtWord (s1.src32 t e)).ebias then (match s1.spadPlace t (s1.waveOf t).bias 64 with | some x => (List.range 16).map fun i => toW32 (s1.spadBytes x.2.1 (x.2.2 + 4 * i) 4) | none => []) else []) (G.accOrg + (s1.winOf t (s1.waveOf t)).1.toNat + (s1.vreg t (opNum b)).toNat) (rows.toNat + 1)).zipIdx.map fun r => ((if sp then (s1.src32 t a).zeroExtend 64 else s1.src64 t a) + BitVec.ofNat 64 (r.2 * (s1.waveOf t).stride.toNat), r.1)) s1 []).1.isSome = true)
    ∧ (∃ (c : Ctl) (rows : BitVec 4) (route : BitVec 2) (a b e : Operand) (s s1 : State) (t : TRef) (G : Group),
      Runs c (.mretRoute c rows route a b e) s t s1 ∧
      s1.flagFull t c = false ∧
      s1.acqOpen t = false ∧
      (fmtWord (s1.src32 t e)).retireOk = true ∧
      s1.groupOf t = some G ∧
      winHolds (s1.winOf t (s1.waveOf t)) (s1.vreg t (opNum b)).toNat (rows.toNat + 1) = true ∧
      (s1.ops.any fun o => o.thr == t && match o.kind with | .accWrite k r _ _ => k == (s1.waveOf t).core && (G.accOrg + (s1.winOf t (s1.waveOf t)).1.toNat + (s1.vreg t (opNum b)).toNat) ≤ r && r < (G.accOrg + (s1.winOf t (s1.waveOf t)).1.toNat + (s1.vreg t (opNum b)).toNat) + (rows.toNat + 1) | _ => false) = false ∧
      s1.rowsUnder t (s1.waveOf t).core (G.accOrg + (s1.winOf t (s1.waveOf t)).1.toNat + (s1.vreg t (opNum b)).toNat) (rows.toNat + 1) = false ∧
      ((match s1.spadPlace t (s1.waveOf t).bias 64 with | some x => !s1.spadReadHeld t x.2.1 x.2.2 64 | none => false) || !(fmtWord (s1.src32 t e)).ebias) = true ∧
      rtValid ((s1.thread t).routes.getD route.toNat 0) = true ∧
      rtMode ((s1.thread t).routes.getD route.toNat 0) < 2 ∧
      rtDev ((s1.thread t).routes.getD route.toNat 0) < s1.nranks ∧
      (rtMode ((s1.thread t).routes.getD route.toNat 0) == 1 && ((fmtWord (s1.src32 t e)).efmt != 0 || (fmtWord (s1.src32 t e)).eact != 0 || (fmtWord (s1.src32 t e)).ebias)) = false ∧
      (s1.ctx t).quant = true)
    ∧ (∃ (c : Ctl) (rows : BitVec 4) (route : BitVec 2) (a b e : Operand) (s s1 : State) (t : TRef) (G : Group),
      Runs c (.mretRoute c rows route a b e) s t s1 ∧
      s1.flagFull t c = false ∧
      s1.acqOpen t = false ∧
      (fmtWord (s1.src32 t e)).retireOk = true ∧
      s1.groupOf t = some G ∧
      winHolds (s1.winOf t (s1.waveOf t)) (s1.vreg t (opNum b)).toNat (rows.toNat + 1) = true ∧
      (s1.ops.any fun o => o.thr == t && match o.kind with | .accWrite k r _ _ => k == (s1.waveOf t).core && (G.accOrg + (s1.winOf t (s1.waveOf t)).1.toNat + (s1.vreg t (opNum b)).toNat) ≤ r && r < (G.accOrg + (s1.winOf t (s1.waveOf t)).1.toNat + (s1.vreg t (opNum b)).toNat) + (rows.toNat + 1) | _ => false) = false ∧
      s1.rowsUnder t (s1.waveOf t).core (G.accOrg + (s1.winOf t (s1.waveOf t)).1.toNat + (s1.vreg t (opNum b)).toNat) (rows.toNat + 1) = false ∧
      ((match s1.spadPlace t (s1.waveOf t).bias 64 with | some x => !s1.spadReadHeld t x.2.1 x.2.2 64 | none => false) || !(fmtWord (s1.src32 t e)).ebias) = true ∧
      rtValid ((s1.thread t).routes.getD route.toNat 0) = true ∧
      rtMode ((s1.thread t).routes.getD route.toNat 0) < 2 ∧
      rtDev ((s1.thread t).routes.getD route.toNat 0) < s1.nranks ∧
      (rtMode ((s1.thread t).routes.getD route.toNat 0) == 1 && ((fmtWord (s1.src32 t e)).efmt != 0 || (fmtWord (s1.src32 t e)).eact != 0 || (fmtWord (s1.src32 t e)).ebias)) = false ∧
      (s1.ctx t).quant = false ∧
      ((s1.begin_ t c (.mroute ((s1.thread t).routes.getD route.toNat 0) ((s1.epilogueRows (fmtWord (s1.src32 t e)) (s1.waveOf t) (if (fmtWord (s1.src32 t e)).ebias then (match s1.spadPlace t (s1.waveOf t).bias 64 with | some x => (List.range 16).map fun i => toW32 (s1.spadBytes x.2.1 (x.2.2 + 4 * i) 4) | none => []) else []) (G.accOrg + (s1.winOf t (s1.waveOf t)).1.toNat + (s1.vreg t (opNum b)).toNat) (rows.toNat + 1)).zipIdx.map fun r => (BitVec.ofNat 64 ((((rtBase ((s1.thread t).routes.getD route.toNat 0) + (s1.src64 t a).toNat) % 2 ^ 57) + r.2 * (s1.waveOf t).stride.toNat) % 2 ^ 57), r.1))) none).mrouteGo s1.nextId).isSome = true) :=
  ⟨⟨wc, .b, (.v 252), (.v 8), (.v 13), .none, wQuant, wQuant.mark wc, (.thr 1 0), ⟨by decide +kernel, rfl⟩, by decide +kernel⟩,
   ⟨wc, .b, (.v 252), (.v 8), (.v 13), .none, wTensor, wTensor.mark wc, (.thr 1 0), ⟨by decide +kernel, rfl⟩, by decide +kernel⟩,
   ⟨wc, .a, .none, (.v 8), (.v 13), (.v 2), wTensor, wTensor.mark wc, (.thr 1 0), (wG wTensor), 0, 0, ⟨by decide +kernel, rfl⟩, by decide +kernel⟩,
   ⟨wc, 3, false, (.v 0), (.acc 2), (.v 2), w0, w0.mark wc, (.thr 1 0), (wG w0), ⟨by decide +kernel, rfl⟩, by decide +kernel⟩,
   ⟨wc, 0, 0, (.v 0), (.acc 2), (.v 2), wRouteQ, wRouteQ.mark wc, (.thr 1 0), (wG wRouteQ), ⟨by decide +kernel, rfl⟩, by decide +kernel⟩,
   ⟨wc, 0, 0, (.v 0), (.acc 2), (.v 2), wRoute, wRoute.mark wc, (.thr 1 0), (wG wRoute), ⟨by decide +kernel, rfl⟩, by decide +kernel⟩⟩

theorem wit_CopyInstructionsComplete :
    (∃ (c : Ctl) (a : Operand) (off : BitVec 12) (s s1 : State) (t : TRef) (core o : Nat),
      Runs c (.ckick c a off) s t s1 ∧
      (s1.spadPlace t (s1.spadAddr t a off) 64).map (·.2) = some (core, o) ∧
      (s1.spadAddr t a off).toNat % 64 = 0 ∧
      (s1.spadAddr t a off).getLsbD 21 = false ∧
      (s1.ctx t).quant = true)
    ∧ (∃ (c : Ctl) (a : Operand) (off : BitVec 12) (s s1 : State) (t : TRef) (core o : Nat),
      Runs c (.ckick c a off) s t s1 ∧
      (s1.spadPlace t (s1.spadAddr t a off) 64).map (·.2) = some (core, o) ∧
      (s1.spadAddr t a off).toNat % 64 = 0 ∧
      (s1.spadAddr t a off).getLsbD 21 = false ∧
      (s1.ctx t).quant = false ∧
      s1.kickFull core = false)
    ∧ (∃ (c : Ctl) (d a : Operand) (off : BitVec 12) (s s1 : State) (t : TRef) (core o : Nat),
      Runs c (.cpoll c d a off) s t s1 ∧
      (s1.ctx t).quant = false ∧
      s1.loadHeld t c d 2 = false ∧
      (s1.spadAddr t a off).toNat % 64 = 0 ∧
      (s1.spadPlace t (s1.spadAddr t a off) (16)).map (·.2) = some (core, o) ∧
      s1.spadReadHeld t core (o + 8) 8 = false)
    ∧ (∃ (c : Ctl) (d a b : Operand) (off : BitVec 12) (s s1 : State) (t : TRef) (r : Range),
      Runs c (.cntw c d a b off) s t s1 ∧
      (s1.ctx t).quant = false ∧
      s1.loadHeld t c d 2 = false ∧
      (s1.addr t a off).toNat % 8 = 0 ∧
      (s1.access t (s1.addr t a off) (8) false false [(s1.addr t a off).toNat]).isOk = true ∧
      (s1.access t (s1.addr t a off) (8) false false [(s1.addr t a off).toNat]).rs = [r] ∧
      paDevice r.pa = true)
    ∧ (∃ (c : Ctl) (a b : Operand) (off : BitVec 12) (s s1 : State) (t : TRef) (r : Range),
      Runs c (.cnta c a b off) s t s1 ∧
      s1.accessHeld t = false ∧
      (s1.addr t a off).toNat % 8 = 0 ∧
      (s1.access t (s1.addr t a off) (8) true false [(s1.addr t a off).toNat]).isOk = true ∧
      (s1.access t (s1.addr t a off) (8) true false [(s1.addr t a off).toNat]).rs = [r] ∧
      paDevice r.pa = true)
    ∧ (∃ (c : Ctl) (a b : Operand) (s s1 : State) (t : TRef),
      Runs c (.trec c a b) s t s1 ∧
      opNum b + 5 ≤ (s1.ctx t).regs ∧
      ((s1.ctx t).quant || (s1.src64 t a).toNat % 64 != 0 || (2 ^ 57 : Nat) ≤ (s1.src64 t a).toNat) = true)
    ∧ (∃ (c : Ctl) (a b : Operand) (s s1 : State) (t : TRef),
      Runs c (.trec c a b) s t s1 ∧
      opNum b + 5 ≤ (s1.ctx t).regs ∧
      (s1.ctx t).quant = false ∧
      (s1.src64 t a).toNat % 64 = 0 ∧
      (s1.src64 t a).toNat < 2 ^ 57 ∧
      (s1.engineXlat (.walk (coreCluster (s1.ctx t).core)) (s1.ctx t).die (s1.ctx t).root (s1.src64 t a).toNat 64 false false [(s1.src64 t a).toNat]).isOk = true ∧
      ((s1.engineXlat (.walk (coreCluster (s1.ctx t).core)) (s1.ctx t).die (s1.ctx t).root (s1.src64 t a).toNat 64 false false [(s1.src64 t a).toNat]).rs.all fun r => (s1.engineXlat (.walk (coreCluster (s1.ctx t).core)) (s1.ctx t).die (s1.ctx t).root (s1.src64 t a).toNat 64 false false [(s1.src64 t a).toNat]).st.memReady r.pa r.len r.bypass) = true ∧
      (tensorOf ((s1.engineXlat (.walk (coreCluster (s1.ctx t).core)) (s1.ctx t).die (s1.ctx t).root (s1.src64 t a).toNat 64 false false [(s1.src64 t a).toNat]).st.readRanges (clusterReader (s1.ctx t).core) (s1.engineXlat (.walk (coreCluster (s1.ctx t).core)) (s1.ctx t).die (s1.ctx t).root (s1.src64 t a).toNat 64 false false [(s1.src64 t a).toNat]).rs).1).ok = true ∧
      (((((tensorOf ((s1.engineXlat (.walk (coreCluster (s1.ctx t).core)) (s1.ctx t).die (s1.ctx t).root (s1.src64 t a).toNat 64 false false [(s1.src64 t a).toNat]).st.readRanges (clusterReader (s1.ctx t).core) (s1.engineXlat (.walk (coreCluster (s1.ctx t).core)) (s1.ctx t).die (s1.ctx t).root (s1.src64 t a).toNat 64 false false [(s1.src64 t a).toNat]).rs).1).tilePages ((tensorOf ((s1.engineXlat (.walk (coreCluster (s1.ctx t).core)) (s1.ctx t).die (s1.ctx t).root (s1.src64 t a).toNat 64 false false [(s1.src64 t a).toNat]).st.readRanges (clusterReader (s1.ctx t).core) (s1.engineXlat (.walk (coreCluster (s1.ctx t).core)) (s1.ctx t).die (s1.ctx t).root (s1.src64 t a).toNat 64 false false [(s1.src64 t a).toNat]).rs).1).coords ((List.range 5).map fun i => (s1.vreg t (opNum b + i)).toNat))).foldlM (fun s p => s.fillPage (coreCluster (s1.ctx t).core) (s1.ctx t).root p) ((s1.engineXlat (.walk (coreCluster (s1.ctx t).core)) (s1.ctx t).die (s1.ctx t).root (s1.src64 t a).toNat 64 false false [(s1.src64 t a).toNat]).st.readRanges (clusterReader (s1.ctx t).core) (s1.engineXlat (.walk (coreCluster (s1.ctx t).core)) (s1.ctx t).die (s1.ctx t).root (s1.src64 t a).toNat 64 false false [(s1.src64 t a).toNat]).rs).2)) : Option State).isSome = true)
    ∧ (∃ (c : Ctl) (a b : Operand) (s s1 : State) (t : TRef),
      Runs c (.trec c a b) s t s1 ∧
      opNum b + 5 ≤ (s1.ctx t).regs ∧
      (s1.ctx t).quant = false ∧
      (s1.src64 t a).toNat % 64 = 0 ∧
      (s1.src64 t a).toNat < 2 ^ 57 ∧
      ((s1.engineXlat (.walk (coreCluster (s1.ctx t).core)) (s1.ctx t).die (s1.ctx t).root (s1.src64 t a).toNat 64 false false [(s1.src64 t a).toNat]).isOk && ((s1.engineXlat (.walk (coreCluster (s1.ctx t).core)) (s1.ctx t).die (s1.ctx t).root (s1.src64 t a).toNat 64 false false [(s1.src64 t a).toNat]).rs.all fun r => (s1.engineXlat (.walk (coreCluster (s1.ctx t).core)) (s1.ctx t).die (s1.ctx t).root (s1.src64 t a).toNat 64 false false [(s1.src64 t a).toNat]).st.memReady r.pa r.len r.bypass) && (tensorOf ((s1.engineXlat (.walk (coreCluster (s1.ctx t).core)) (s1.ctx t).die (s1.ctx t).root (s1.src64 t a).toNat 64 false false [(s1.src64 t a).toNat]).st.readRanges (clusterReader (s1.ctx t).core) (s1.engineXlat (.walk (coreCluster (s1.ctx t).core)) (s1.ctx t).die (s1.ctx t).root (s1.src64 t a).toNat 64 false false [(s1.src64 t a).toNat]).rs).1).ok && (((((tensorOf ((s1.engineXlat (.walk (coreCluster (s1.ctx t).core)) (s1.ctx t).die (s1.ctx t).root (s1.src64 t a).toNat 64 false false [(s1.src64 t a).toNat]).st.readRanges (clusterReader (s1.ctx t).core) (s1.engineXlat (.walk (coreCluster (s1.ctx t).core)) (s1.ctx t).die (s1.ctx t).root (s1.src64 t a).toNat 64 false false [(s1.src64 t a).toNat]).rs).1).tilePages ((tensorOf ((s1.engineXlat (.walk (coreCluster (s1.ctx t).core)) (s1.ctx t).die (s1.ctx t).root (s1.src64 t a).toNat 64 false false [(s1.src64 t a).toNat]).st.readRanges (clusterReader (s1.ctx t).core) (s1.engineXlat (.walk (coreCluster (s1.ctx t).core)) (s1.ctx t).die (s1.ctx t).root (s1.src64 t a).toNat 64 false false [(s1.src64 t a).toNat]).rs).1).coords ((List.range 5).map fun i => (s1.vreg t (opNum b + i)).toNat))).foldlM (fun s p => s.fillPage (coreCluster (s1.ctx t).core) (s1.ctx t).root p) ((s1.engineXlat (.walk (coreCluster (s1.ctx t).core)) (s1.ctx t).die (s1.ctx t).root (s1.src64 t a).toNat 64 false false [(s1.src64 t a).toNat]).st.readRanges (clusterReader (s1.ctx t).core) (s1.engineXlat (.walk (coreCluster (s1.ctx t).core)) (s1.ctx t).die (s1.ctx t).root (s1.src64 t a).toNat 64 false false [(s1.src64 t a).toNat]).rs).2)) : Option State).isSome) = false) :=
  ⟨⟨wc, (.imm 16320), 0, wQuant, wQuant.mark wc, (.thr 1 0), 0, 16320, ⟨by decide +kernel, rfl⟩, by decide +kernel⟩,
   ⟨wc, (.v 2), 0, w0, w0.mark wc, (.thr 1 0), 0, 0, ⟨by decide +kernel, rfl⟩, by decide +kernel⟩,
   ⟨wc, (.v 254), (.v 2), 0, w0, w0.mark wc, (.thr 1 0), 0, 0, ⟨by decide +kernel, rfl⟩, by decide +kernel⟩,
   ⟨wc, (.v 254), (.v 0), (.v 10), 0, w0, w0.mark wc, (.thr 1 0), ⟨0x148000, 8, false⟩, ⟨by decide +kernel, rfl⟩, by decide +kernel⟩,
   ⟨wc, (.v 0), (.v 3), 0, w0, w0.mark wc, (.thr 1 0), ⟨0x148000, 8, false⟩, ⟨by decide +kernel, rfl⟩, by decide +kernel⟩,
   ⟨wc, (.v 8), (.v 251), wQuant, wQuant.mark wc, (.thr 1 0), ⟨by decide +kernel, rfl⟩, by decide +kernel⟩,
   ⟨wc, (.v 8), (.v 20), wTensor, wTensor.mark wc, (.thr 1 0), ⟨by decide +kernel, rfl⟩, by decide +kernel⟩,
   ⟨wc, (.v 8), (.v 251), w0, w0.mark wc, (.thr 1 0), ⟨by decide +kernel, rfl⟩, by decide +kernel⟩⟩

theorem wit_BankInstructionsComplete :
    (∃ (c : Ctl) (d a : Operand) (off : BitVec 12) (s s1 : State) (t : TRef),
      Runs c (.bgload c d a off) s t s1 ∧
      s1.loadHeld t c d 1 = false ∧
      (s1.addr t a off).toNat % 32 = 0 ∧
      (s1.access t (s1.addr t a off) (32) false false [(s1.addr t a off).toNat]).isOk = true ∧
      (s1.ctx t).quant = true)
    ∧ (∃ (c : Ctl) (d a : Operand) (off : BitVec 12) (s s1 : State) (t : TRef),
      Runs c (.bgload c d a off) s t s1 ∧
      s1.loadHeld t c d 1 = false ∧
      (s1.addr t a off).toNat % 32 = 0 ∧
      (s1.access t (s1.addr t a off) (32) false false [(s1.addr t a off).toNat]).isOk = true ∧
      (s1.ctx t).quant = false ∧
      (((s1.access t (s1.addr t a off) (32) false false [(s1.addr t a off).toNat]).st.begin_ t c (.bgload (s1.addr t a off) (opNum d)) none).post t true (s1.addr t a off) (some (s1.access t (s1.addr t a off) (32) false false [(s1.addr t a off).toNat]).st.nextId)).isSome = true)
    ∧ (∃ (c : Ctl) (a : Operand) (off : BitVec 12) (s s1 : State) (t : TRef),
      Runs c (.bgx c a off) s t s1 ∧
      s1.acqOpen t = false ∧
      (s1.addr t a off).toNat % 128 = 0 ∧
      (s1.access t (s1.addr t a off) (128) false false [(s1.addr t a off).toNat]).isOk = true ∧
      (s1.ctx t).quant = true)
    ∧ (∃ (c : Ctl) (a : Operand) (off : BitVec 12) (s s1 : State) (t : TRef),
      Runs c (.bgx c a off) s t s1 ∧
      s1.acqOpen t = false ∧
      (s1.addr t a off).toNat % 128 = 0 ∧
      (s1.access t (s1.addr t a off) (128) false false [(s1.addr t a off).toNat]).isOk = true ∧
      (s1.ctx t).quant = false ∧
      ((s1.access t (s1.addr t a off) (128) false false [(s1.addr t a off).toNat]).st.post t false (s1.addr t a off) none).isSome = true)
    ∧ (∃ (c : Ctl) (a : Operand) (s s1 : State) (t : TRef),
      Runs c (.bfence c a) s t s1 ∧
      (a != .none && (s1.src64 t a).extractLsb' 40 24 != 0) = false ∧
      (s1.acqOpen t || s1.flagFull t c) = false)
    ∧ (∃ (c : Ctl) (d a : Operand) (off : BitVec 12) (s s1 : State) (t : TRef) (r : Range),
      Runs c (.bgwait c d a off) s t s1 ∧
      (s1.ctx t).quant = false ∧
      s1.loadHeld t c d 2 = false ∧
      (s1.addr t a off).toNat % 8 = 0 ∧
      (s1.access t (s1.addr t a off) (8) false false [(s1.addr t a off).toNat]).isOk = true ∧
      (s1.access t (s1.addr t a off) (8) false false [(s1.addr t a off).toNat]).rs = [r] ∧
      paDevice r.pa = true)
    ∧ (∃ (c : Ctl) (d a : Operand) (s s1 : State) (t : TRef),
      Runs c (.bgstatEng c d a) s t s1 ∧
      (s1.src32 t a).toNat < 2048 ∧
      (s1.flagFull t c || s1.destLocked t d 1) = false)
    ∧ (∃ (c : Ctl) (d a : Operand) (s s1 : State) (t : TRef),
      Runs c (.bgstatRmap c d a) s t s1 ∧
      (s1.flagFull t c || s1.destLocked t d 1) = false ∧
      (s1.src64 t a).toNat < 2 ^ 57 ∧
      ((s1.pages (s1.ctx t).die (s1.ctx t).root (s1.src64 t a).toNat 1 false [(s1.src64 t a).toNat]).any fun p => p.2.2.wait) = false ∧
      firstFault false false false (s1.pages (s1.ctx t).die (s1.ctx t).root (s1.src64 t a).toNat 1 false [(s1.src64 t a).toNat]) = none) :=
  ⟨⟨wc, (.v 255), (.v 8), 0, wQuant, wQuant.mark wc, (.thr 1 0), ⟨by decide +kernel, rfl⟩, by decide +kernel⟩,
   ⟨wc, (.v 255), (.v 8), 0, wRing, wRing.mark wc, (.thr 1 0), ⟨by decide +kernel, rfl⟩, by decide +kernel⟩,
   ⟨wc, (.v 8), 0, wQuant, wQuant.mark wc, (.thr 1 0), ⟨by decide +kernel, rfl⟩, by decide +kernel⟩,
   ⟨wc, (.v 8), 0, wRing, wRing.mark wc, (.thr 1 0), ⟨by decide +kernel, rfl⟩, by decide +kernel⟩,
   ⟨wc, (.v 0), w0, w0.mark wc, (.thr 1 0), ⟨by decide +kernel, rfl⟩, by decide +kernel⟩,
   ⟨wc, (.v 254), (.v 0), 0, w0, w0.mark wc, (.thr 1 0), ⟨0x148000, 8, false⟩, ⟨by decide +kernel, rfl⟩, by decide +kernel⟩,
   ⟨wc, (.v 255), (.imm 2047), w0, w0.mark wc, (.thr 1 0), ⟨by decide +kernel, rfl⟩, by decide +kernel⟩,
   ⟨wc, (.v 255), (.v 0), w0, w0.mark wc, (.thr 1 0), ⟨by decide +kernel, rfl⟩, by decide +kernel⟩⟩

theorem wit_PagingInstructionsComplete :
    (∃ (c : Ctl) (w : Bool) (d a : Operand) (off : BitVec 12) (s s1 : State) (t : TRef),
      Runs c (.pgreq c w d a off) s t s1 ∧
      s1.loadHeld t c d 1 = false ∧
      (s1.addr t a off).toNat < 2 ^ 57 ∧
      (s1.ctx t).quant = true)
    ∧ (∃ (c : Ctl) (w : Bool) (d a : Operand) (off : BitVec 12) (s s1 : State) (t : TRef),
      Runs c (.pgreq c w d a off) s t s1 ∧
      s1.loadHeld t c d 1 = false ∧
      (s1.addr t a off).toNat < 2 ^ 57 ∧
      (s1.ctx t).quant = false ∧
      s1.walkHeld (s1.ctx t).root (s1.addr t a off).toNat = false)
    ∧ (∃ (c : Ctl) (d a b : Operand) (s s1 : State) (t : TRef),
      Runs c (.pgmig c d a b) s t s1 ∧
      (s1.flagFull t c || s1.destLocked t d 1) = false)
    ∧ (∃ (c : Ctl) (a b : Operand) (s s1 : State) (t : TRef),
      Runs c (.tlbinvPage c a b) s t s1 ∧
      s1.flagFull t c = false)
    ∧ (∃ (c : Ctl) (s s1 : State) (t : TRef),
      Runs c (.tlbinvAll c) s t s1 ∧
      s1.flagFull t c = false)
    ∧ (∃ (c : Ctl) (a b : Operand) (s s1 : State) (t : TRef),
      Runs c (.pocinvPage c a b) s t s1 ∧
      s1.flagFull t c = false)
    ∧ (∃ (c : Ctl) (s s1 : State) (t : TRef),
      Runs c (.pocinvAll c) s t s1 ∧
      s1.flagFull t c = false) :=
  ⟨⟨wc, false, (.v 255), (.v 0), 0, wQuant, wQuant.mark wc, (.thr 1 0), ⟨by decide +kernel, rfl⟩, by decide +kernel⟩,
   ⟨wc, false, (.v 255), (.v 0), 0, w0, w0.mark wc, (.thr 1 0), ⟨by decide +kernel, rfl⟩, by decide +kernel⟩,
   ⟨wc, (.v 255), (.v 0), (.v 0), wPriv, wPriv.mark wc, (.thr 1 0), ⟨by decide +kernel, rfl⟩, by decide +kernel⟩,
   ⟨wc, (.v 0), (.imm 65536), wPriv, wPriv.mark wc, (.thr 1 0), ⟨by decide +kernel, rfl⟩, by decide +kernel⟩,
   ⟨wc, wPriv, wPriv.mark wc, (.thr 1 0), ⟨by decide +kernel, rfl⟩, by decide +kernel⟩,
   ⟨wc, (.v 0), (.v 2), wPriv, wPriv.mark wc, (.thr 1 0), ⟨by decide +kernel, rfl⟩, by decide +kernel⟩,
   ⟨wc, wPriv, wPriv.mark wc, (.thr 1 0), ⟨by decide +kernel, rfl⟩, by decide +kernel⟩⟩

theorem wit_RemoteInstructionsComplete :
    (∃ (c : Ctl) (l2 again : Bool) (cnt : BitVec 4) (m : BitVec 5) (d a b e : Operand) (s s1 : State) (t : TRef),
      Runs c (.rcall c l2 again cnt m d a b e) s t s1 ∧
      (s1.ctx t).quant = true ∧
      (s1.ops.any fun o => o.thr == t && match o.kind with | .rcall _ _ _ => true | _ => false) = false ∧
      (s1.flagFull t c || s1.destLocked t d m.toNat) = false)
    ∧ (∃ (c : Ctl) (l2 again : Bool) (cnt : BitVec 4) (m : BitVec 5) (d a b e : Operand) (s s1 : State) (t : TRef),
      Runs c (.rcall c l2 again cnt m d a b e) s t s1 ∧
      (s1.ctx t).quant = false ∧
      (s1.ops.any fun o => o.thr == t && match o.kind with | .rcall _ _ _ => true | _ => false) = false ∧
      (s1.flagFull t c || s1.destLocked t d m.toNat) = false ∧
      s1.postHeld t (fun p => p == Path.ls || p == Path.at) = false ∧
      ((({ ((if (s1.ctx t).quant then s1 else s1.flush t .device (fun p => p == Path.ls || p == Path.at)).updThread t fun y => { y with rcseq := if again then (s1.thread t).rcseq else (s1.thread t).rcseq + 1 }) with nextId := ((if (s1.ctx t).quant then s1 else s1.flush t .device (fun p => p == Path.ls || p == Path.at)).updThread t fun y => { y with rcseq := if again then (s1.thread t).rcseq else (s1.thread t).rcseq + 1 }).nextId + 1, remote := { ((if (s1.ctx t).quant then s1 else s1.flush t .device (fun p => p == Path.ls || p == Path.at)).updThread t fun y => { y with rcseq := if again then (s1.thread t).rcseq else (s1.thread t).rcseq + 1 }).remote with calls := ((if (s1.ctx t).quant then s1 else s1.flush t .device (fun p => p == Path.ls || p == Path.at)).updThread t fun y => { y with rcseq := if again then (s1.thread t).rcseq else (s1.thread t).rcseq + 1 }).remote.calls ++ [({ id := ((if (s1.ctx t).quant then s1 else s1.flush t .device (fun p => p == Path.ls || p == Path.at)).updThread t fun y => { y with rcseq := if again then (s1.thread t).rcseq else (s1.thread t).rcseq + 1 }).nextId, op := ((if (s1.ctx t).quant then s1 else s1.flush t .device (fun p => p == Path.ls || p == Path.at)).updThread t fun y => { y with rcseq := if again then (s1.thread t).rcseq else (s1.thread t).rcseq + 1 }).nextId + 1, key := ⟨(s1.ctx t).core, (((if (s1.ctx t).quant then s1 else s1.flush t .device (fun p => p == Path.ls || p == Path.at)).updThread t fun y => { y with rcseq := if again then (s1.thread t).rcseq else (s1.thread t).rcseq + 1 }).waveOf t).slot, (s1.thread t).lane, (if again then (s1.thread t).rcseq else (s1.thread t).rcseq + 1).toNat⟩, again := again, l2 := l2, exec := execNone, va := s1.src64 t a, pa := 0, leafW := false, bypass := false, entry := s1.src64 t b, root := (s1.ctx t).root, args := (List.range (cnt.toNat + 1)).map fun i => s1.vreg t (opNum e + i), m := m.toNat, dst := opNum d, sentAt := s1.gtsc, phase := .queued, hops := 0, fwd := false, cached := false, code := 0, faultVa := 0, reply := [], lost := false } : Call)] } } : State).begin_ t c (.rcall ((if (s1.ctx t).quant then s1 else s1.flush t .device (fun p => p == Path.ls || p == Path.at)).updThread t fun y => { y with rcseq := if again then (s1.thread t).rcseq else (s1.thread t).rcseq + 1 }).nextId (opNum d) m.toNat) (some .device)).rcallGo ((if (s1.ctx t).quant then s1 else s1.flush t .device (fun p => p == Path.ls || p == Path.at)).updThread t fun y => { y with rcseq := if again then (s1.thread t).rcseq else (s1.thread t).rcseq + 1 }).nextId).isSome = true)
    ∧ (∃ (c : Ctl) (d : Operand) (s s1 : State) (t : TRef),
      Runs c (.rwait c d) s t s1 ∧
      (s1.ctx t).quant = false ∧
      (s1.flagFull t c || s1.destLocked t d 1) = false ∧
      s1.callsOpen t s1.nextId = false)
    ∧ (∃ (c : Ctl) (l2 : Bool) (d a : Operand) (s s1 : State) (t : TRef) (k : Nat),
      Runs c (.rstat c l2 d a) s t s1 ∧
      (s1.flagFull t c || s1.destLocked t d 1) = false ∧
      (s1.callXlat t l2 (s1.src64 t a) none).refused = some k)
    ∧ (∃ (c : Ctl) (l2 : Bool) (d a : Operand) (s s1 : State) (t : TRef) (x : Nat),
      Runs c (.rstat c l2 d a) s t s1 ∧
      (s1.flagFull t c || s1.destLocked t d 1) = false ∧
      (s1.callXlat t l2 (s1.src64 t a) none).exec = some x)
    ∧ (∃ (c : Ctl) (s : State) (id : Nat), s.gang.members = [.callee id] ∧ (s.encodingFault (.callee id) c (.rret c)).isNone = true ∧ (s.mark c).guard (.callee id) c = true ∧
      (((s.mark c).callee? id).map (·.count)).getD 0 ≤ 4096 ∧ ((s.mark c).ops.any fun o => o.thr == .callee id) = false) :=
  ⟨⟨wc, false, false, 15, 16, (.v 2), (.v 0), (.v 6), (.v 2), wQuant, wQuant.mark wc, (.thr 1 0), ⟨by decide +kernel, rfl⟩, by decide +kernel⟩,
   ⟨wc, false, false, 15, 16, (.v 2), (.v 0), (.v 6), (.v 2), w0, w0.mark wc, (.thr 1 0), ⟨by decide +kernel, rfl⟩, by decide +kernel⟩,
   ⟨wc, (.v 255), w0, w0.mark wc, (.thr 1 0), ⟨by decide +kernel, rfl⟩, by decide +kernel⟩,
   ⟨wc, false, (.v 255), (.v 2), w0, w0.mark wc, (.thr 1 0), 1, ⟨by decide +kernel, rfl⟩, by decide +kernel⟩,
   ⟨wc, false, (.v 255), (.v 0), w0, w0.mark wc, (.thr 1 0), 5, ⟨by decide +kernel, rfl⟩, by decide +kernel⟩,
   ⟨wc, wCallee, 9, by decide +kernel⟩⟩

theorem wit_CollectiveInstructionsComplete :
    (∃ (c : Ctl) (d a : Operand) (off : BitVec 12) (s s1 : State) (t : TRef),
      Runs c (.cplan c d a off) s t s1 ∧
      s1.loadHeld t c d 2 = false ∧
      (s1.addr t a off).toNat % 128 = 0 ∧
      (s1.addr t a off).toNat < 2 ^ 57 ∧
      (s1.ctx t).quant = true)
    ∧ (∃ (c : Ctl) (d a : Operand) (off : BitVec 12) (s s1 : State) (t : TRef),
      Runs c (.cplan c d a off) s t s1 ∧
      s1.loadHeld t c d 2 = false ∧
      (s1.addr t a off).toNat % 128 = 0 ∧
      (s1.addr t a off).toNat < 2 ^ 57 ∧
      (s1.ctx t).quant = false ∧
      ((s1.begin_ t c (.cplan (s1.addr t a off) (opNum d)) none).cplanGo s1.nextId).isSome = true)
    ∧ (∃ (c : Ctl) (a : Operand) (s s1 : State) (t : TRef),
      Runs c (.cgo c a) s t s1 ∧
      (s1.ctx t).quant = true)
    ∧ (∃ (c : Ctl) (a : Operand) (s s1 : State) (t : TRef),
      Runs c (.cgo c a) s t s1 ∧
      (s1.ctx t).quant = false ∧
      s1.postHeld t lsAt = false)
    ∧ (∃ (c : Ctl) (d a : Operand) (s s1 : State) (t : TRef),
      Runs c (.cwait c d a) s t s1 ∧
      (s1.ctx t).quant = false ∧
      s1.loadHeld t c d 1 = false ∧
      (s1.planOf (s1.launchOf t).id (s1.src32 t a).toNat).isNone = true)
    ∧ (∃ (c : Ctl) (d a : Operand) (s s1 : State) (t : TRef),
      Runs c (.cwait c d a) s t s1 ∧
      (s1.ctx t).quant = false ∧
      s1.loadHeld t c d 1 = false ∧
      (s1.planOf (s1.launchOf t).id (s1.src32 t a).toNat).isSome = true)
    ∧ (∃ (c : Ctl) (d a : Operand) (off : BitVec 12) (s s1 : State) (t : TRef) (x : List Byte),
      Runs c (.netslot c d a off) s t s1 ∧
      s1.loadHeld t c d 1 = false ∧
      (s1.addr t a off).toNat % 8 = 0 ∧
      (s1.addr t a off).toNat < 2 ^ 57 ∧
      (s1.slotRead t (s1.addr t a off) 144).got = some x)
    ∧ (∃ (c : Ctl) (d a : Operand) (off : BitVec 12) (s s1 : State) (t : TRef),
      Runs c (.netslot c d a off) s t s1 ∧
      s1.loadHeld t c d 1 = false ∧
      (s1.addr t a off).toNat % 8 = 0 ∧
      (s1.addr t a off).toNat < 2 ^ 57 ∧
      (s1.slotRead t (s1.addr t a off) 144).failed = true)
    ∧ (∃ (c : Ctl) (d : Operand) (s s1 : State) (t : TRef),
      Runs c (.netslotOff c d) s t s1 ∧
      (s1.flagFull t c || s1.destLocked t d 1) = false) :=
  ⟨⟨wc, (.v 254), (.v 8), 0, wQuant, wQuant.mark wc, (.thr 1 0), ⟨by decide +kernel, rfl⟩, by decide +kernel⟩,
   ⟨wc, (.v 254), (.v 8), 0, w0, w0.mark wc, (.thr 1 0), ⟨by decide +kernel, rfl⟩, by decide +kernel⟩,
   ⟨wc, (.imm 63), wQuant, wQuant.mark wc, (.thr 1 0), ⟨by decide +kernel, rfl⟩, by decide +kernel⟩,
   ⟨wc, (.imm 63), w0, w0.mark wc, (.thr 1 0), ⟨by decide +kernel, rfl⟩, by decide +kernel⟩,
   ⟨wc, (.v 255), (.imm 63), w0, w0.mark wc, (.thr 1 0), ⟨by decide +kernel, rfl⟩, by decide +kernel⟩,
   ⟨wc, (.v 255), (.imm 63), wPlan, wPlan.mark wc, (.thr 1 0), ⟨by decide +kernel, rfl⟩, by decide +kernel⟩,
   ⟨wc, (.v 255), (.v 0), 0, wPriv, wPriv.mark wc, (.thr 1 0), (List.replicate 144 0), ⟨by decide +kernel, rfl⟩, by decide +kernel⟩,
   ⟨wc, (.v 255), (.v 2), 0, wPriv, wPriv.mark wc, (.thr 1 0), ⟨by decide +kernel, rfl⟩, by decide +kernel⟩,
   ⟨wc, (.v 255), wPriv, wPriv.mark wc, (.thr 1 0), ⟨by decide +kernel, rfl⟩, by decide +kernel⟩⟩

theorem wit_SchedulingInstructionsComplete :
    (∃ (c : Ctl) (q : BitVec 2) (a : Operand) (s s1 : State) (t : TRef),
      Runs c (.spawn c q a) s t s1 ∧
      (s1.src64 t a).toNat % 32 = 0 ∧
      (s1.access t (s1.src64 t a) 32 false false [(s1.src64 t a).toNat]).isOk = true ∧
      paDevice ((s1.access t (s1.src64 t a) 32 false false [(s1.src64 t a).toNat]).rs.headD ⟨0, 32, false⟩).pa = true ∧
      (s1.ctx t).quant = true)
    ∧ (∃ (c : Ctl) (q : BitVec 2) (a : Operand) (s s1 : State) (t : TRef),
      Runs c (.spawn c q a) s t s1 ∧
      (s1.src64 t a).toNat % 32 = 0 ∧
      (s1.access t (s1.src64 t a) 32 false false [(s1.src64 t a).toNat]).isOk = true ∧
      paDevice ((s1.access t (s1.src64 t a) 32 false false [(s1.src64 t a).toNat]).rs.headD ⟨0, 32, false⟩).pa = true ∧
      (s1.ctx t).quant = false ∧
      ((s1.access t (s1.src64 t a) 32 false false [(s1.src64 t a).toNat]).st.postHeld t fun _ => true) = false ∧
      ((((s1.access t (s1.src64 t a) 32 false false [(s1.src64 t a).toNat]).st.flush t .device fun _ => true).releaseK t).spawnGo t q.toNat ((s1.access t (s1.src64 t a) 32 false false [(s1.src64 t a).toNat]).rs.headD ⟨0, 32, false⟩)).isSome = true)
    ∧ (∃ (c : Ctl) (d a : Operand) (off : BitVec 12) (s s1 : State) (t : TRef) (r : Range),
      Runs c (.jwait c d a off) s t s1 ∧
      (s1.ctx t).quant = false ∧
      s1.loadHeld t c d 2 = false ∧
      (s1.addr t a off).toNat % 16 = 0 ∧
      (s1.access t (s1.addr t a off) (16) false false [(s1.addr t a off).toNat]).isOk = true ∧
      (s1.access t (s1.addr t a off) (16) false false [(s1.addr t a off).toNat]).rs = [r] ∧
      paDevice r.pa = true)
    ∧ (∃ (c : Ctl) (a : Operand) (s s1 : State) (t : TRef),
      Runs c (.sleep c a) s t s1)
    ∧ (∃ (c : Ctl) (s s1 : State) (t : TRef),
      Runs c (.qend c) s t s1)
    ∧ (∃ (c : Ctl) (s s1 : State) (t : TRef),
      Runs c (.qsync c) s t s1 ∧
      s1.flagFull t c = false)
    ∧ (∃ (c : Ctl) (d : Operand) (s s1 : State) (t : TRef),
      Runs c (.pwrq c d) s t s1 ∧
      (s1.flagFull t c || s1.destLocked t d 1) = false)
    ∧ (∃ (c : Ctl) (ty : Ty) (d a : Operand) (s s1 : State) (t : TRef),
      Runs c (.crd c ty d a) s t s1 ∧
      ctlBad ty (s1.src32 t a).toNat = false ∧
      (s1.flagFull t c || s1.destLocked t d (tyRegs ty) || s1.ctlHeld t) = false)
    ∧ (∃ (c : Ctl) (ty : Ty) (a b : Operand) (s s1 : State) (t : TRef),
      Runs c (.cwr c ty a b) s t s1 ∧
      ctlBad ty (s1.src32 t a).toNat = false ∧
      s1.ctlHeld t = false)
    ∧ (∃ (c : Ctl) (a : Operand) (s s1 : State) (t : TRef) (G : Group),
      Runs c (.dlset c a) s t s1 ∧
      ((s1.groupOf t).bind (·.handles)).bind s1.group? = some G)
    ∧ (∃ (c : Ctl) (s s1 : State) (t : TRef) (h g : Nat),
      Runs c (.rfe c) s t s1 ∧
      (s1.thread t).exited = false ∧
      t.group = some h ∧
      (s1.launchOf t).priv = true ∧
      (s1.groupOf t).bind (·.handles) = some g)
    ∧ (∃ (c : Ctl) (code : BitVec 16) (s s1 : State) (t : TRef) (h g : Nat),
      Runs c (.halt c code) s t s1 ∧
      (s1.thread t).exited = false ∧
      t.group = some h ∧
      (s1.launchOf t).priv = true ∧
      (s1.groupOf t).bind (·.handles) = some g) :=
  ⟨⟨wc, 3, (.v 8), wQuant, wQuant.mark wc, (.thr 1 0), ⟨by decide +kernel, rfl⟩, by decide +kernel⟩,
   ⟨wc, 3, (.v 8), wRing, wRing.mark wc, (.thr 1 0), ⟨by decide +kernel, rfl⟩, by decide +kernel⟩,
   ⟨wc, (.v 254), (.v 0), 0, w0, w0.mark wc, (.thr 1 0), ⟨0x148000, 16, false⟩, ⟨by decide +kernel, rfl⟩, by decide +kernel⟩,
   ⟨wc, (.v 3), w0, w0.mark wc, (.thr 1 0), ⟨by decide +kernel, rfl⟩⟩,
   ⟨wc, w0, w0.mark wc, (.thr 1 0), ⟨by decide +kernel, rfl⟩⟩,
   ⟨wc, w0, w0.mark wc, (.thr 1 0), ⟨by decide +kernel, rfl⟩, by decide +kernel⟩,
   ⟨wc, (.v 255), w0, w0.mark wc, (.thr 1 0), ⟨by decide +kernel, rfl⟩, by decide +kernel⟩,
   ⟨wc, .b32, (.v 255), (.imm 0x3FFFFFC), wPriv, wPriv.mark wc, (.thr 1 0), ⟨by decide +kernel, rfl⟩, by decide +kernel⟩,
   ⟨wc, .b32, (.imm 0x3FFFFFC), (.v 3), wPriv, wPriv.mark wc, (.thr 1 0), ⟨by decide +kernel, rfl⟩, by decide +kernel⟩,
   ⟨wc, (.v 0), wHandler, wHandler.mark wc, (.thr 1 0), wHandled, ⟨by decide +kernel, rfl⟩, by decide +kernel⟩,
   ⟨wc, wHandler, wHandler.mark wc, (.thr 1 0), 1, 2, ⟨by decide +kernel, rfl⟩, by decide +kernel⟩,
   ⟨wc, 0xFFFF, wHandler, wHandler.mark wc, (.thr 1 0), 1, 2, ⟨by decide +kernel, rfl⟩, by decide +kernel⟩⟩

theorem wit_BankArithmeticCompletes :
    (∃ (bm : BitVec 4) (as : BitVec 2) (f : Bool) (s : State) (r : BgRun),
      bgGo s r = true)
    ∧ (∃ (bm : BitVec 4) (x : BitVec 3) (as : BitVec 2) (f : Bool) (i : BitVec 16) (s : State) (r : BgRun),
      bgGo s r = true ∧
      (r.set.all fun e => (readCheck s r.l.id bm e).isNone) = true ∧
      readsClean s r (readRows bm) = true)
    ∧ (∃ (bm : BitVec 4) (as : BitVec 2) (i : BitVec 16) (s : State) (r : BgRun),
      bgGo s r = true)
    ∧ (∃ (x : BitVec 3) (i : BitVec 16) (s : State) (r : BgRun),
      bgGo s r = true)
    ∧ (∃ (bm : BitVec 4) (as : BitVec 2) (s : State) (r : BgRun),
      bgGo s r = true) :=
  ⟨⟨15, 3, false, wBg, (wRunOf wBg), by decide +kernel⟩,
   ⟨2, 0, 3, true, 0, wBg, (wRunOf wBg), by decide +kernel⟩,
   ⟨15, 3, 0, wBg, (wRunOf wBg), by decide +kernel⟩,
   ⟨7, 0xFFFF, wBg, (wRunOf wBg), by decide +kernel⟩,
   ⟨15, 3, wBg, (wRunOf wBg), by decide +kernel⟩⟩

theorem wit_BankRowCommandsComplete :
    (∃ (bm : BitVec 4) (x : BitVec 3) (i : BitVec 16) (s : State) (r : BgRun),
      bgGo s r = true ∧
      (r.set.all fun e => (if bm = 0 then none else openCheck s r.l.id e ((xAt e x + i.toNat) % 65536)).isNone) = true)
    ∧ (∃ (bm : BitVec 4) (s : State) (r : BgRun),
      bgGo s r = true)
    ∧ (∃ (bm : BitVec 4) (x : BitVec 3) (i : BitVec 16) (s : State) (r : BgRun),
      bgGo s r = true ∧
      (r.set.all fun e => (readCheck s r.l.id bm e).isNone) = true ∧
      readsClean s r (readRows bm) = true)
    ∧ (∃ (bm : BitVec 4) (x : BitVec 3) (as : BitVec 2) (f : Bool) (i : BitVec 16) (s : State) (r : BgRun),
      bgGo s r = true ∧
      f = false ∧
      (r.set.all fun e => (writeCheck s r.l.id bm e).isNone) = true)
    ∧ (∃ (bm : BitVec 4) (x : BitVec 3) (as : BitVec 2) (f : Bool) (i : BitVec 16) (s : State) (r : BgRun),
      bgGo s r = true ∧
      f = true ∧
      (r.set.all fun e => (writeCheck s r.l.id bm e).isNone) = true)
    ∧ (∃ (bm : BitVec 4) (x : BitVec 3) (i : BitVec 16) (s : State) (r : BgRun),
      bgGo s r = true ∧
      (r.set.all fun e => (if (banksOf bm).any fun b => (e.rows.getD b none).isNone then some bsRowclosed else none).isNone) = true)
    ∧ (∃ (d src : BitVec 3) (o : BitVec 8) (s : State) (r : BgRun),
      bgGo s r = true ∧
      (r.set.all fun e => e.rows.getD (((xAt e src + o.toNat) % 1024) / 8 % 4) none == some 65535 && !((s.rowKinds r.l.id e.id 65535).any (· != .read)) && decide (s.blockWord e.id ((xAt e src + o.toNat) % 1024) < 65536)) = true ∧
      readsClean s r (fun e => [engAddr e.id 65535 0 0]) = true)
    ∧ (∃ (d src : BitVec 3) (o : BitVec 8) (s : State) (r : BgRun),
      bgGo s r = true ∧
      (r.set.all fun e => decide ((natAt e.vin (4 * ((xAt e src + o.toNat) % 256)) 4) < 2 ^ 24)) = true)
    ∧ (∃ (x : BitVec 3) (as : BitVec 2) (f : Bool) (i : BitVec 16) (s : State) (r : BgRun),
      bgGo s r = true ∧
      (r.set.all fun e => decide (((xAt e x + i.toNat) % 65536) + (if f then 1 else 0) < bdEnum r.l.body)) = true)
    ∧ (∃ (x : BitVec 3) (as : BitVec 2) (i : BitVec 16) (s : State) (r : BgRun),
      bgGo s r = true ∧
      (r.set.all fun e => (attnCheck s r.l.id x e).isNone) = true ∧
      readsClean s r (fun e => if xAt e x = 0 then [] else engAddr e.id 65535 0 0 :: (s.attnRows e.id (xAt e x)).map fun row => engAddr e.id row 0 0) = true) :=
  ⟨⟨0, 0, 0, wBg, (wRunOf wBg), by decide +kernel⟩,
   ⟨15, wBg, (wRunOf wBg), by decide +kernel⟩,
   ⟨2, 0, 31, wBg, (wRunOf wBg), by decide +kernel⟩,
   ⟨1, 0, 0, false, 31, wBg, (wRunOf wBg), by decide +kernel, rfl, by decide +kernel⟩,
   ⟨1, 0, 0, true, 31, wBg, (wRunOf wBg), by decide +kernel⟩,
   ⟨3, 0, 31, wBg, (wRunOf wBg), by decide +kernel⟩,
   ⟨0, 2, 1, wBg, (wRunOf wBg), by decide +kernel⟩,
   ⟨0, 0, 255, wBg, (wRunOf wBg), by decide +kernel⟩,
   ⟨0, 3, true, 2, wBg, (wRunOf wBg), by decide +kernel⟩,
   ⟨0, 3, 0, wBg, (wRunOf wBg), by decide +kernel⟩⟩

theorem wit_BankControlCompletes :
    (∃ (x : BitVec 3) (i : BitVec 23) (s : State) (r : BgRun),
      bgGo s r = true)
    ∧ (∃ (x : BitVec 3) (i : BitVec 23) (s : State) (r : BgRun),
      bgGo s r = true ∧
      loopCount r.lead x i ≠ 0 ∧
      (r.set.all fun e => decide (e.loops.length < 4)) = true)
    ∧ (∃ (x : BitVec 3) (i : BitVec 23) (s : State) (r : BgRun) (a : Nat),
      bgGo s r = true ∧
      loopCount r.lead x i = 0 ∧
      (r.set.all fun e => decide (e.loops.length < 4)) = true ∧
      matchNext r.lead.store 256 (r.lead.pc + 1) 1 = some a)
    ∧ (∃ (s : State) (r : BgRun) (a n : Nat) (l : List (Nat × Nat)),
      bgGo s r = true ∧
      r.lead.loops = (a, n) :: l ∧
      1 < n ∧
      (r.set.all fun e => !e.loops.isEmpty) = true)
    ∧ (∃ (s : State) (r : BgRun) (a n : Nat) (l : List (Nat × Nat)),
      bgGo s r = true ∧
      r.lead.loops = (a, n) :: l ∧
      n ≤ 1 ∧
      (r.set.all fun e => !e.loops.isEmpty) = true)
    ∧ (∃ (x : BitVec 3) (t : BitVec 8) (s : State) (r : BgRun),
      bgGo s r = true)
    ∧ (∃ (s : State) (r : BgRun),
      bgGo s r = true)
    ∧ (∃ (w : W32) (s : State) (r : BgRun),
      s.bgRun = some r) :=
  ⟨⟨7, 0x7FFFFF, wBg, (wRunOf wBg), by decide +kernel⟩,
   ⟨2, 1, wBg, (wRunOf wBg), by decide +kernel⟩,
   ⟨0, 0, wBg, (wRunOf wBg), 1, by decide +kernel⟩,
   ⟨wBg, (wRunOf wBg), 3, 2, [], by decide +kernel⟩,
   ⟨wBgLast, (wRunOf wBgLast), 3, 1, [], by decide +kernel⟩,
   ⟨2, 255, wBg, (wRunOf wBg), by decide +kernel⟩,
   ⟨wBg, (wRunOf wBg), by decide +kernel⟩,
   ⟨0x84000000, wBg, (wRunOf wBg), by decide +kernel⟩⟩

theorem wit_OperationEventsComplete :
    (∃ (op : Nat) (s : State) (o : Op) (ws : List Wr),
      s.op? op = some o ∧
      s.deferred o = false ∧
      o.kind = .result ws ∧
      (s.thread o.thr).wait ≠ some o.id)
    ∧ (∃ (op : Nat) (s : State) (o : Op) (l1 : Bool) (parts : List Part) (u : Bool) (first : Nat) (ty : Ty) (n : Nat) (more : List Wr),
      s.op? op = some o ∧
      s.deferred o = false ∧
      o.kind = .load l1 parts (.regs u first ty n) more ∧
      (parts.all fun p => p.got.isSome) = true ∧
      s.opsOpen o.under = false ∧
      (s.thread o.thr).wait ≠ some o.id)
    ∧ (∃ (op : Nat) (s : State) (o : Op) (l1 : Bool) (parts : List Part) (fin : Fin) (more : List Wr),
      s.op? op = some o ∧
      s.deferred o = false ∧
      o.kind = .load l1 parts fin more ∧
      (parts.all fun p => p.got.isSome) = false ∧
      (s.loadStep o parts).isSome = true)
    ∧ (∃ (entry : Nat) (s : State),
      (s.mem.wq.find? fun e => e.id == entry).isSome = true ∧
      State.canForce s.forceFuel s .all entry = true)
    ∧ (∃ (op : Nat) (s : State) (o : Op) (run : Nat) (m : Rmw) (dst : Option Nat),
      s.op? op = some o ∧
      o.kind = .atomic run m dst ∧
      (s.sliceRun o).isEmpty = false ∧
      ((s.sliceRun o).any fun x => s.deferred x || !s.sliceEnabled x) = false)
    ∧ (∃ (op : Nat) (s : State) (o : Op) (run pa : Nat) (va en : W64) (root : Nat) (args : List W32) (dst res : Nat) (by_ : Bool),
      s.op? op = some o ∧
      o.kind = .acall run pa va en root args dst res by_ ∧
      (s.sliceRun o).isEmpty = false ∧
      ((s.sliceRun o).any fun x => s.deferred x || !s.sliceEnabled x) = false)
    ∧ (∃ (op : Nat) (s : State) (o : Op) (core off seen lim dst : Nat),
      s.op? op = some o ∧
      o.kind = .barrWait core off seen (some lim) dst none ∧
      lim ≤ s.clk)
    ∧ (∃ (op : Nat) (s : State) (o : Op) (pa : Nat) (ty : Ty) (val : W64) (dst : Nat),
      s.op? op = some o ∧
      o.kind = .mwait pa ty val dst false none ∧
      s.waitReady o pa (atomBytes ty) = true ∧
      (toW64 (s.mem.visBytes pa (atomBytes ty))) ≠ val)
    ∧ (∃ (op : Nat) (s : State) (o : Op) (pa : Nat) (ty : Ty) (val : W64) (dst : Nat),
      s.op? op = some o ∧
      o.kind = .mwait pa ty val dst false none ∧
      s.waitReady o pa (atomBytes ty) = true ∧
      (toW64 (s.mem.visBytes pa (atomBytes ty))) = val ∧
      s.monitors pa < 64)
    ∧ (∃ (grp tid : Nat) (s : State) (n : Nat),
      (s.thread (.thr grp tid)).sleep = some n ∧
      n ≤ s.clk) :=
  ⟨⟨7, (wWith (.result [.v 4 1])), (wOp (.result [.v 4 1])), [.v 4 1], by decide +kernel⟩,
   ⟨7, (wWith (.load false [{ wPart with got := some [1, 0, 0, 0] }] (.regs false 4 .b32 1) [])), (wOp (.load false [{ wPart with got := some [1, 0, 0, 0] }] (.regs false 4 .b32 1) [])), false, [{ wPart with got := some [1, 0, 0, 0] }], false, 4, .b32, 1, [], by decide +kernel⟩,
   ⟨7, (wWith (.load false [wPart] (.regs false 4 .b32 1) [])), (wOp (.load false [wPart] (.regs false 4 .b32 1) [])), false, [wPart], (.regs false 4 .b32 1), [], by decide +kernel⟩,
   ⟨7, wWq, by decide +kernel⟩,
   ⟨7, wAtomic, (wOp (.atomic 3 wRmw (some 4))), 3, wRmw, (some 4), by decide +kernel⟩,
   ⟨7, wAcall, (wOp (.acall 3 0x148000 0x18000 0x10000 0x10 [1] 4 1 false)), 3, 0x148000, 0x18000, 0x10000, 0x10, [1], 4, 1, false, by decide +kernel⟩,
   ⟨7, (wWith (.barrWait 0 0 0 (some 0) 0 none)), (wOp (.barrWait 0 0 0 (some 0) 0 none)), 0, 0, 0, 0, 0, by decide +kernel⟩,
   ⟨7, (wWith (.mwait 0x148000 .b32 1 4 false none)), (wOp (.mwait 0x148000 .b32 1 4 false none)), 0x148000, .b32, 1, 4, by decide +kernel⟩,
   ⟨7, (wWith (.mwait 0x148000 .b32 0 4 false none)), (wOp (.mwait 0x148000 .b32 0 4 false none)), 0x148000, .b32, 0, 4, by decide +kernel⟩,
   ⟨1, 0, wSleep, 0, by decide +kernel⟩⟩

theorem wit_CopyEventsComplete :
    (∃ (core : Nat) (s : State) (q : Kick) (qs : List Kick) (s1 : State),
      (s.coreAt core).chain = none ∧
      (s.coreAt core).kicks = q :: qs ∧
      s.chainCut core q q.head = false ∧
      ({ s.pruneReqs with nextId := s.nextId + 1 } : State).copyLoad (coreCluster core) < 64 ∧
      (({ s.pruneReqs with nextId := s.nextId + 1 } : State).fetchReq core q q.head s.nextId 0).getLeft? = some s1 ∧
      (match ((s1.reqs.getLast?).bind (·.sbr)).map (·.1) with | some c => decide (32 ≤ ({ s.pruneReqs with nextId := s.nextId + 1 } : State).boardLoad c) | none => false) = false)
    ∧ (∃ (req : Nat) (s : State) (r : Req) (ps : List Piece) (n : Nat),
      s.req? req = some r ∧
      r.kind = 0 ∧
      s.canBegin r = true ∧
      (s.planLinear r).goes = some (ps, n) ∧
      (match (s.planLinear r).st.boardOf r with | some x => r.sbr.isNone && decide (32 ≤ (s.planLinear r).st.boardLoad x.1) | none => false) = false)
    ∧ (∃ (req : Nat) (s : State) (r : Req) (ps : List Piece) (n : Nat),
      s.req? req = some r ∧
      r.kind = 1 ∧
      s.canBegin r = true ∧
      (s.planTensor r).goes = some (ps, n) ∧
      (match (s.planTensor r).st.boardOf r with | some x => r.sbr.isNone && decide (32 ≤ (s.planTensor r).st.boardLoad x.1) | none => false) = false)
    ∧ (∃ (req : Nat) (s : State) (r : Req) (ps : List Piece) (n : Nat),
      s.req? req = some r ∧
      r.kind = 2 ∧
      s.canBegin r = true ∧
      (s.planGather r false).goes = some (ps, n) ∧
      (match (s.planGather r false).st.boardOf r with | some x => r.sbr.isNone && decide (32 ≤ (s.planGather r false).st.boardLoad x.1) | none => false) = false)
    ∧ (∃ (req : Nat) (s : State) (r : Req) (ps : List Piece) (n : Nat),
      s.req? req = some r ∧
      r.kind = 3 ∧
      s.canBegin r = true ∧
      (s.planGather r true).goes = some (ps, n) ∧
      (match (s.planGather r true).st.boardOf r with | some x => r.sbr.isNone && decide (32 ≤ (s.planGather r true).st.boardLoad x.1) | none => false) = false)
    ∧ (∃ (req : Nat) (s : State) (r : Req) (ps : List Piece) (n : Nat),
      s.req? req = some r ∧
      r.kind = 4 ∧
      s.canBegin r = true ∧
      (s.planLayout r).goes = some (ps, n) ∧
      (match (s.planLayout r).st.boardOf r with | some x => r.sbr.isNone && decide (32 ≤ (s.planLayout r).st.boardLoad x.1) | none => false) = false)
    ∧ (∃ (req : Nat) (s : State) (r : Req) (ps : List Piece) (n : Nat),
      s.req? req = some r ∧
      r.kind = 5 ∧
      s.canBegin r = true ∧
      (s.planFill r).goes = some (ps, n) ∧
      (match (s.planFill r).st.boardOf r with | some x => r.sbr.isNone && decide (32 ≤ (s.planFill r).st.boardLoad x.1) | none => false) = false)
    ∧ (∃ (req : Nat) (s : State) (r : Req),
      s.req? req = some r ∧
      r.kind = 6 ∧
      s.canBegin r = true ∧
      (s.remBegin r 6 false).getLeft?.isSome = true)
    ∧ (∃ (req : Nat) (s : State) (r : Req),
      s.req? req = some r ∧
      r.kind = 7 ∧
      s.canBegin r = true ∧
      (s.remBegin r 7 false).getLeft?.isSome = true)
    ∧ (∃ (req : Nat) (s : State) (r : Req),
      s.req? req = some r ∧
      r.kind = 8 ∧
      s.canBegin r = true ∧
      (s.remBegin r 8 false).getLeft?.isSome = true)
    ∧ (∃ (req : Nat) (s : State) (r : Req),
      s.req? req = some r ∧
      r.kind = 10 ∧
      s.canBegin r = true ∧
      bodyBv r.body = true ∧
      0 < natAt r.body 24 2)
    ∧ (∃ (req piece : Nat) (s : State) (r : Req),
      s.req? req = some r ∧
      r.retired = false ∧
      s.reqQuant r = false ∧
      (r.kind == 6 && r.xfer.isSome) = false ∧
      ((s.landSpan r.pieces piece).filterMap fun x => (r.pieces[x.1]?).map fun p => p.part x.2.1 x.2.2).isEmpty = false ∧
      (((s.landSpan r.pieces piece).filterMap fun x => (r.pieces[x.1]?).map fun p => p.part x.2.1 x.2.2).any (·.add.isSome) && (r.pieces.take (((s.landSpan r.pieces piece).head?.map (·.1)).getD piece)).any fun q => ((s.landSpan r.pieces piece).filterMap fun x => (r.pieces[x.1]?).map fun p => p.part x.2.1 x.2.2).any fun p => q.meets p) = false ∧
      ((s.landSpan r.pieces piece).filterMap fun x => (r.pieces[x.1]?).map fun p => p.part x.2.1 x.2.2).findSome? s.pieceGone = none ∧
      ((s.landSpan r.pieces piece).filterMap fun x => (r.pieces[x.1]?).map fun p => p.part x.2.1 x.2.2).all s.pieceOk = true)
    ∧ (∃ (req piece : Nat) (s : State) (r : Req) (x : Nat × Nat),
      s.req? req = some r ∧
      r.retired = false ∧
      s.reqQuant r = false ∧
      (r.kind == 6 && r.xfer.isSome) = false ∧
      ((s.landSpan r.pieces piece).filterMap fun x => (r.pieces[x.1]?).map fun p => p.part x.2.1 x.2.2).isEmpty = false ∧
      (((s.landSpan r.pieces piece).filterMap fun x => (r.pieces[x.1]?).map fun p => p.part x.2.1 x.2.2).any (·.add.isSome) && (r.pieces.take (((s.landSpan r.pieces piece).head?.map (·.1)).getD piece)).any fun q => ((s.landSpan r.pieces piece).filterMap fun x => (r.pieces[x.1]?).map fun p => p.part x.2.1 x.2.2).any fun p => q.meets p) = false ∧
      ((s.landSpan r.pieces piece).filterMap fun x => (r.pieces[x.1]?).map fun p => p.part x.2.1 x.2.2).findSome? s.pieceGone = some x)
    ∧ (∃ (id : Nat) (s : State) (x : CtrInc),
      (s.incs.find? fun x => x.id == id) = some x ∧
      (match x.req.bind s.req? with | some r => !r.pieces.isEmpty || r.xfer.isSome | none => false) = false ∧
      (x.far.isNone && !s.sliceReady x.pa 8 x.bypass) = false ∧
      s.canForceAll (s.incWrites x) .all = true)
    ∧ (∃ (req : Nat) (s : State) (r : Req),
      s.req? req = some r ∧
      r.retired = false ∧
      (r.began || r.code.isSome) = true ∧
      r.pieces = [] ∧
      r.xfer = none ∧
      (match r.addr with | .mem pa => s.sliceReady pa 64 false | _ => true) = true ∧
      (s.incs.any fun x => x.req == some req) = false)
    ∧ (∃ (req : Nat) (s : State) (r : Req),
      s.req? req = some r ∧
      r.retired = false ∧
      (decide (11 ≤ r.kind) || r.kind == 9) = true ∧
      s.canBegin r = true ∧
      r.pieces = [] ∧
      r.xfer = none ∧
      (match r.addr with | .mem pa => s.sliceReady pa 64 false | _ => true) = true ∧
      (s.incs.any fun x => x.req == some req) = false) :=
  ⟨⟨0, wKicked, wKick, [], (((fun (s : State) (core : Nat) (q : Kick) => (({ s.pruneReqs with nextId := s.nextId + 1 } : State).fetchReq core q q.head s.nextId 0)) wKicked 0 wKick).getLeft?.getD w0), by decide +kernel⟩,
   ⟨7, (wHasReq wLinear), wLinear, (((fun (s : State) (r : Req) => (s.planLinear r).goes) (wHasReq wLinear) wLinear).getD ([], 0)).1, (((fun (s : State) (r : Req) => (s.planLinear r).goes) (wHasReq wLinear) wLinear).getD ([], 0)).2, by decide +kernel⟩,
   ⟨7, (wHasReq wTile), wTile, (((fun (s : State) (r : Req) => (s.planTensor r).goes) (wHasReq wTile) wTile).getD ([], 0)).1, (((fun (s : State) (r : Req) => (s.planTensor r).goes) (wHasReq wTile) wTile).getD ([], 0)).2, by decide +kernel⟩,
   ⟨7, (wHasReq (wRows 2)), (wRows 2), (((fun (s : State) (r : Req) => (s.planGather r false).goes) (wHasReq (wRows 2)) (wRows 2)).getD ([], 0)).1, (((fun (s : State) (r : Req) => (s.planGather r false).goes) (wHasReq (wRows 2)) (wRows 2)).getD ([], 0)).2, by decide +kernel⟩,
   ⟨7, (wHasReq (wRows 3)), (wRows 3), (((fun (s : State) (r : Req) => (s.planGather r true).goes) (wHasReq (wRows 3)) (wRows 3)).getD ([], 0)).1, (((fun (s : State) (r : Req) => (s.planGather r true).goes) (wHasReq (wRows 3)) (wRows 3)).getD ([], 0)).2, by decide +kernel⟩,
   ⟨7, (wHasReq wLay), wLay, (((fun (s : State) (r : Req) => (s.planLayout r).goes) (wHasReq wLay) wLay).getD ([], 0)).1, (((fun (s : State) (r : Req) => (s.planLayout r).goes) (wHasReq wLay) wLay).getD ([], 0)).2, by decide +kernel⟩,
   ⟨7, (wHasReq wFill), wFill, (((fun (s : State) (r : Req) => (s.planFill r).goes) (wHasReq wFill) wFill).getD ([], 0)).1, (((fun (s : State) (r : Req) => (s.planFill r).goes) (wHasReq wFill) wFill).getD ([], 0)).2, by decide +kernel⟩,
   ⟨7, (wHasReq (wRem 6)), (wRem 6), by decide +kernel⟩,
   ⟨7, (wHasReq (wRem 7)), (wRem 7), by decide +kernel⟩,
   ⟨7, (wHasReq (wRem 8)), (wRem 8), by decide +kernel⟩,
   ⟨7, (wHasReq wSignal), wSignal, by decide +kernel⟩,
   ⟨7, 0, (wHasReq wLands), wLands, by decide +kernel⟩,
   ⟨7, 0, (wHasReq wGone), wGone, (0x18000, 0xFFFFFFFFFFFFC), by decide +kernel, by decide +kernel, by decide +kernel, by decide +kernel, by decide +kernel, by decide +kernel, by rw [wGone_span]; decide +kernel⟩,
   ⟨7, ({ w0 with incs := [wInc] } : State), wInc, by decide +kernel⟩,
   ⟨7, (wHasReq wDone), wDone, by decide +kernel⟩,
   ⟨7, (wHasReq wVoid), wVoid, by decide +kernel⟩⟩

theorem wit_BankEventsComplete :
    (∃ (q : Nat) (s : State) (b : List Byte) (push : Option Push) (body : List Byte),
      q < 4 ∧
      (s.ringTake (6 + q)).map (fun x => (x.1, x.2.1)) = some (b, push) ∧
      (natAt b 0 8) % 2 ^ 57 % (if bitAt (natAt b 0 8) 63 then 32 else 128) = 0 ∧
      ((((s.ringTake (6 + q)).map fun x => x.2.2).getD s).cpRead 0 (s.entryRoot (6 + q) push) ((natAt b 0 8) % 2 ^ 57) (if bitAt (natAt b 0 8) 63 then 32 else 128) cpReader).bytes = some body)
    ∧ (∃ (l : Nat) (s : State) (L : BankLaunch) (b : List Byte),
      s.bankLaunch? l = some L ∧
      L.load = true ∧
      L.phase = .queued ∧
      s.bankHead L = true ∧
      loadBad L.body = false ∧
      (s.cpRead (L.stack / 2) (some L.root) (natAt L.body 0 8 % 2 ^ 57) (4 * bitsOf (natAt L.body 12 4) 16 8) (dieReader .rc (L.stack / 2))).bytes = some b ∧
      ((loadEngines L).any fun e => s.engineBusy e) = false)
    ∧ (∃ (l : Nat) (s : State) (L : BankLaunch) (comp : Range) (a : Admit),
      s.bankLaunch? l = some L ∧
      L.load = false ∧
      L.phase = .queued ∧
      s.bankHead L = true ∧
      (s.cpWord (L.stack / 2) (some L.root) (natAt L.body 112 8 % 2 ^ 57)).got = some comp ∧
      bdBad L.body (s.cp.paBank.extractLsb' 0 14).toNat = false ∧
      ((s.cpWord (L.stack / 2) (some L.root) (natAt L.body 112 8 % 2 ^ 57)).st.admitXlat L).got = some a ∧
      (a.reads.any fun r => (a.writes ++ a.emits).contains r) = false ∧
      (((entriesOf .read (!bitAt (natAt L.body 0 8) 11) l a.reads ++ entriesOf .write true l a.writes ++ entriesOf .emit true l a.emits).map (·.chan)).eraseDups.any fun ch => 64 < (entriesOf .read (!bitAt (natAt L.body 0 8) 11) l a.reads ++ entriesOf .write true l a.writes ++ entriesOf .emit true l a.emits).countP fun e => e.chan == ch) = false ∧
      (a.writes.any fun r => r.row == 65535) = false ∧
      (bitAt (natAt L.body 0 8) 11 && a.overlaps) = false ∧
      ((s.cpWord (L.stack / 2) (some L.root) (natAt L.body 112 8 % 2 ^ 57)).st.admitXlat L).st.admitOk L a (entriesOf .read (!bitAt (natAt L.body 0 8) 11) l a.reads ++ entriesOf .write true l a.writes ++ entriesOf .emit true l a.emits) = true ∧
      (a.vins.all fun v => v.2.all fun p => ((s.cpWord (L.stack / 2) (some L.root) (natAt L.body 112 8 % 2 ^ 57)).st.admitXlat L).st.bankReady p.pa) = true)
    ∧ (∃ (l inst : Nat) (s : State) (L : BankLaunch) (i : Inst),
      s.bankLaunch? l = some L ∧
      L.insts[inst]? = some i ∧
      L.phase = .running ∧
      i.status = none ∧
      i.conflict = true ∧
      (i.engines.any fun e => (s.engine e).run.isSome) = false)
    ∧ (∃ (l : Nat) (s : State) (L : BankLaunch),
      s.bankLaunch? l = some L ∧
      L.phase = .running ∧
      bitAt (natAt L.body 0 8) 12 = true ∧
      L.merged = false ∧
      (L.insts.any fun i => i.status != some 0) = false)
    ∧ (∃ (l : Nat) (s : State) (L : BankLaunch) (pa : Nat) (by_ : Bool),
      s.bankLaunch? l = some L ∧
      L.comp = some (pa, by_) ∧
      ((L.phase = .ended ∨ L.phase = .running ∧ (L.insts.all fun i => i.status.isSome) = true ∧ ((bitAt (natAt L.body 0 8) 12 && L.insts.all fun i => i.status == some 0) = false ∨ L.merged = true))) ∧
      s.bankReady pa = true ∧
      s.pageOpen pa = true ∧
      s.settled pa 8 = true ∧
      (s.l2Room pa).isSome = true)
    ∧ (∃ (sector : Nat) (s : State) (x : Sector),
      s.mem.sector? sector = some x ∧
      x.dirty = true ∧
      s.writebackOk x.base = true) :=
  ⟨⟨0, wBankRing, (bytes8 0x18080 ++ bytes8 0), none, (List.replicate 112 0 ++ bytes8 0x18008 ++ List.replicate 8 0), by decide +kernel⟩,
   ⟨7, (wBankOf wStoreLoad), wStoreLoad, [0, 0, 0, 0], by decide +kernel⟩,
   ⟨7, (wBankOf wAdmitB), wAdmitB, ⟨0x148008, 8, false⟩, ⟨[], [], [], [], [(0, [])]⟩, by decide +kernel⟩,
   ⟨7, 0, (wBankOf wRexB), wRexB, wInstB, by decide +kernel⟩,
   ⟨7, (wBankOf wMergeB), wMergeB, by decide +kernel⟩,
   ⟨7, (wBankOf wDoneB), wDoneB, 0x148008, false, by decide +kernel⟩,
   ⟨0x148000, wL2, wDirty, by decide +kernel⟩⟩

theorem wit_PagingEventsComplete :
    (∃ (m : Nat) (s : State) (M : Mig) (leafPa : Nat) (leaf : W64),
      s.mig? m = some M ∧
      M.phase = .waiting ∧
      s.migWaits m = false ∧
      s.walkHeld M.root (M.va.toNat % 2 ^ 57) = false ∧
      s.migPage M = some (leafPa, leaf) ∧
      s.migDestBad M leaf = false ∧
      s.stubLoad (paDie (lfFrame leaf * 2 ^ 16)) < 4096 ∧
      s.rowsOwned (lfFrame leaf) = false ∧
      s.sliceReady leafPa 8 false = true ∧
      M.rank = s.rank)
    ∧ (∃ (m : Nat) (s : State) (M : Mig) (leafPa : Nat) (leaf : W64),
      s.mig? m = some M ∧
      M.phase = .waiting ∧
      s.migWaits m = false ∧
      s.walkHeld M.root (M.va.toNat % 2 ^ 57) = false ∧
      s.migPage M = some (leafPa, leaf) ∧
      s.migDestBad M leaf = false ∧
      s.stubLoad (paDie (lfFrame leaf * 2 ^ 16)) < 4096 ∧
      s.rowsOwned (lfFrame leaf) = false ∧
      s.sliceReady leafPa 8 false = true ∧
      M.rank ≠ s.rank ∧
      M.passes = 0)
    ∧ (∃ (m : Nat) (s : State) (M : Mig),
      s.mig? m = some M ∧
      M.phase = .copying ∧
      s.migWaits m = false ∧
      s.migReady M (if M.passes = 0 then List.range 256 else M.dirty) = true ∧
      M.dirty.length ≤ 64)
    ∧ (∃ (m : Nat) (s : State) (M : Mig),
      s.mig? m = some M ∧
      M.phase = .final ∧
      s.migWaits m = false ∧
      s.migReady M M.dirty = true ∧
      s.sliceReady M.leafPa 8 false = true ∧
      M.rank = s.rank)
    ∧ (∃ (op : Nat) (s : State) (w : AtStub),
      s.waitsAt op = some w ∧
      s.hopsOf op < 2 ∧
      s.stubOld w.b = false ∧
      w.b.rank = s.rank)
    ∧ (∃ (id : Nat) (s : State) (r : Redir),
      (s.xlat.redirs.find? fun r => r.id == id) = some r)
    ∧ (∃ (op : Nat) (s : State) (w : AtStub) (f : Nat),
      s.waitsAt op = some w ∧
      ((2 ≤ s.hopsOf op ∨ s.stubOld w.b = true)) ∧
      s.walkHeld w.b.root (w.b.va.toNat % 2 ^ 57) = false ∧
      (((s.updXlat fun x => { x with hops := x.hops.filter (fun h => h.1 != op), tlb := x.tlb.filter fun e => !(e.die == w.die && tlbSpan e.leaf == 1 && lfFrame e.leaf == w.b.old) }).walk w.b.root (w.b.va.toNat % 2 ^ 57)).bind fun x => if lfThere x.2 then some (lfFrame x.2) else none) = some f)
    ∧ (∃ (stub die : Nat) (s : State) (b : Stub),
      (s.xlat.stubs.find? fun b => b.id == stub) = some b ∧
      b.queries.contains die = true)
    ∧ (∃ (stub : Nat) (s : State) (b : Stub) (d : Nat),
      (s.xlat.stubs.find? fun b => b.id == stub) = some b ∧
      (b.waiting.find? fun d => !(s.pendingIn s.nextId (some d) fun f => f == b.old) && !s.xlat.redirs.any fun r => r.die == d && r.old == b.old) = some d ∧
      (b.queries.isEmpty && (b.waiting.filter (· != d)).isEmpty) = true)
    ∧ (∃ (stub : Nat) (s : State) (b : Stub) (d : Nat),
      (s.xlat.stubs.find? fun b => b.id == stub) = some b ∧
      (b.waiting.find? fun d => !(s.pendingIn s.nextId (some d) fun f => f == b.old) && !s.xlat.redirs.any fun r => r.die == d && r.old == b.old) = some d ∧
      (b.queries.isEmpty && (b.waiting.filter (· != d)).isEmpty) = false)
    ∧ (∃ (s : State) (r : PrRecord) (rest : List PrRecord),
      s.xlat.prHeld = r :: rest ∧
      prOn s = true ∧
      (s.xlat.prTail - s.xlat.prHead).toNat < prSlots s ∧
      paDevice ((s.xlat.prBase.extractLsb' 4 48).toNat * 16 + s.xlat.prTail.toNat % prSlots s * 16) = true ∧
      s.movedAway ((s.xlat.prBase.extractLsb' 4 48).toNat * 16 + s.xlat.prTail.toNat % prSlots s * 16) = false ∧
      s.sliceReady (s.resolve ((s.xlat.prBase.extractLsb' 4 48).toNat * 16 + s.xlat.prTail.toNat % prSlots s * 16)) 16 false = true)
    ∧ (∃ (addr : Nat) (s : State),
      s.boot.atsWait.contains (atsPage addr) = true) :=
  ⟨⟨8, (wMigOf wMig), wMig, 0x130008, 0x14006F, by decide +kernel⟩,
   ⟨8, ({ wFab with xlat := { w0.xlat with migs := [{ wMig with rank := 1 }] } } : State), { wMig with rank := 1 }, 0x130008, 0x14006F, by decide +kernel⟩,
   ⟨8, (wMigOf wCopying), wCopying, by decide +kernel⟩,
   ⟨8, (wMigOf wFinal), wFinal, by decide +kernel⟩,
   ⟨7, (wAtStub []), (wWaiting (wAtStub []) 7), by decide +kernel⟩,
   ⟨7, ({ w0 with xlat := { w0.xlat with redirs := [wRedir] } } : State), wRedir, by decide +kernel⟩,
   ⟨7, (wAtStub [(7, 2)]), (wWaiting (wAtStub [(7, 2)]) 7), 0x14, by decide +kernel⟩,
   ⟨9, 3, (wStubs { wStub with queries := [3] }), { wStub with queries := [3] }, by decide +kernel⟩,
   ⟨9, (wStubs { wStub with waiting := [3] }), { wStub with waiting := [3] }, 3, by decide +kernel⟩,
   ⟨9, (wStubs { wStub with waiting := [3, 2] }), { wStub with waiting := [3, 2] }, 3, by decide +kernel⟩,
   ⟨wPrRing, wPr, [], by decide +kernel⟩,
   ⟨0x1000, ({ w0 with boot := { w0.boot with atsWait := [atsPage 0x1000] } } : State), by decide +kernel⟩⟩

theorem wit_RemoteCallEventsComplete :
    (∃ (call : Nat) (s : State) (k : Call),
      s.call? call = some k ∧
      k.phase = .sent ∧
      k.exec ≠ execNone ∧
      (s.callRoute k).stays = true ∧
      (k.again && (s.dedupOf k).isSome) = false ∧
      s.callQueue k.exec < (if k.exec < 32 then 1024 else 512))
    ∧ (∃ (call : Nat) (s : State) (k : Call),
      s.call? call = some k ∧
      k.phase = .queued ∧
      k.exec ≠ execNone ∧
      (s.callRoute k).stays = true ∧
      s.gtsc - k.sentAt ≤ s.rcTimeout ∧
      (k.again && (s.dedupOf k).isSome) = false ∧
      (s.remote.callees.countP fun x => x.exec == k.exec) < (if k.exec < 32 then 480 else 24) ∧
      (((s.dedupOf k).isSome = true ∨ (s.remote.dedup.countP fun d => d.exec == k.exec) < (if k.exec < 32 then 16384 else 8192))) ∧
      (s.entryStatus k ((((s.op? k.op).bind fun o => s.groupOf o.thr).map (·.fetchStamp)).getD s.stamp)).isSome = true)
    ∧ (∃ (call : Nat) (s : State) (k : Call),
      s.call? call = some k ∧
      k.phase = .replied ∧
      (k.lost || !s.callLate k) = true)
    ∧ (∃ (call : Nat) (s : State) (k : Call) (o : Op),
      s.call? call = some k ∧
      s.op? k.op = some o ∧
      s.deferred o = false ∧
      k.lost = false ∧
      s.callLate k = true)
    ∧ (∃ (entry : Nat) (s : State) (d : Dedup) (n : Nat),
      (s.remote.dedup.find? fun d => d.id == entry) = some d ∧
      d.done = some n ∧
      n + 1300000 ≤ s.clk) :=
  ⟨⟨8, (wCalling (wCall .sent)), (wCall .sent), by decide +kernel⟩,
   ⟨8, (wCalling (wCall .queued)), (wCall .queued), by decide +kernel⟩,
   ⟨8, (wCalling (wCall .replied)), (wCall .replied), by decide +kernel⟩,
   ⟨8, (wLate (wCall .running)), (wCall .running), (wOp (.rcall 8 4 1)), by decide +kernel⟩,
   ⟨7, wDedups, wDedup, 0, by decide +kernel⟩⟩

theorem wit_FabricEventsComplete :
    (∃ (rank : Nat) (s : State),
      s.rateOf rank < 63 ∧
      timeOf s.fab.rateSeen rank + 2000 ≤ s.gtsc)
    ∧ (∃ (rank : Nat) (s : State),
      s.fab.ctl.getLsbD 0 = true ∧
      s.fab.ctl.getLsbD 1 = true ∧
      rank < s.nranks)
    ∧ (∃ (port lanes : Nat) (s : State),
      s.fab.ctl.getLsbD 0 = true ∧
      port < 18 ∧
      lanes ≤ 4)
    ∧ (∃ (s : State) (table : Option (List Byte)),
      s.gtsc % 4000 = 0 ∧
      s.fab.slotNext = some table)
    ∧ (∃ (xfer : Nat) (s : State) (x : Xfer) (t r : Nat),
      (s.fab.xfers.find? fun x => x.id == xfer) = some x ∧
      x.sentAt = some t ∧
      t + s.fabTimeout < s.gtsc ∧
      x.of = .req r ∧
      (match x.pkt with | .read _ _ _ => true | _ => false) = false)
    ∧ (∃ (xfer : Nat) (s : State) (x : Xfer) (t r n : Nat) (va : W64) (len : Nat),
      (s.fab.xfers.find? fun x => x.id == xfer) = some x ∧
      x.sentAt = some t ∧
      t + s.fabTimeout < s.gtsc ∧
      x.of = .req r ∧
      x.pkt = .read n va len)
    ∧ (∃ (xfer : Nat) (s : State) (x : Xfer) (t i : Nat),
      (s.fab.xfers.find? fun x => x.id == xfer) = some x ∧
      x.sentAt = some t ∧
      t + s.fabTimeout < s.gtsc ∧
      x.of = .coll i)
    ∧ (∃ (xfer : Nat) (s : State) (x : Xfer) (t : Nat),
      (s.fab.xfers.find? fun x => x.id == xfer) = some x ∧
      x.sentAt = some t ∧
      t + s.fabTimeout < s.gtsc ∧
      x.of = .cast)
    ∧ (∃ (xfer : Nat) (s : State) (x : Xfer) (t m : Nat),
      (s.fab.xfers.find? fun x => x.id == xfer) = some x ∧
      x.sentAt = some t ∧
      t + s.fabTimeout < s.gtsc ∧
      x.of = .page m)
    ∧ (∃ (xfer : Nat) (s : State) (x : Xfer) (t : Nat),
      (s.fab.xfers.find? fun x => x.id == xfer) = some x ∧
      x.sentAt = some t ∧
      t + s.fabTimeout < s.gtsc ∧
      (match x.of with | .route _ _ _ _ _ | .routeCtr _ _ _ => true | _ => false) = true ∧
      ((s.fabCount 2).ackRoute x 6).isSome = true) :=
  ⟨⟨1, wRate, by decide +kernel⟩,
   ⟨1, wFab, by decide +kernel⟩,
   ⟨17, 4, wFab, by decide +kernel⟩,
   ⟨wFrame, none, by decide +kernel⟩,
   ⟨7, (wSent (.req 7) (.write 7 0x18200 [0]) [wOut]), (wXfer (.req 7) (.write 7 0x18200 [0])), 0, 7, by decide +kernel⟩,
   ⟨7, (wSent (.req 7) (.read 7 0x18200 4) [wOut]), (wXfer (.req 7) (.read 7 0x18200 4)), 0, 7, 7, 0x18200, 4, by decide +kernel⟩,
   ⟨7, (wSent (.coll 7) (.collective 0 0 0 []) []), (wXfer (.coll 7) (.collective 0 0 0 [])), 0, 7, by decide +kernel⟩,
   ⟨7, (wSent .cast (.multicast 7 0x10000 [0] 0x18000) []), (wXfer .cast (.multicast 7 0x10000 [0] 0x18000)), 0, by decide +kernel⟩,
   ⟨7, (wSent (.page 7) (.pageCopy 7 0x10000 0x14 false [] false) []), (wXfer (.page 7) (.pageCopy 7 0x10000 0x14 false [] false)), 0, 7, by decide +kernel⟩,
   ⟨7, (wSent (.routeCtr 0 0 0) (.counter 7 0x18000) []), (wXfer (.routeCtr 0 0 0) (.counter 7 0x18000)), 0, by decide +kernel⟩⟩

theorem wit_FabricArrivalsComplete :
    (∃ (src plane n : Nat) (va : W64) (d : List Byte) (s : State),
      s.fab.ctl.getLsbD 0 = true ∧
      plane < 18 ∧
      src < s.nranks ∧
      src ≠ s.rank ∧
      s.fab.lanes.getD plane 0 = 4 ∧
      (s.fab.waiting.any fun x => x.src == src && x.plane == plane) = false ∧
      ((s.updFab fun f => { f with retries := f.retries.modify plane fun n => Nat.min 0xFFFF (n + Config.choose s.tick [0xC40] % 2 ^ 16) }).peerAccess src (portDie plane) (.write n va d)).isSome = true)
    ∧ (∃ (src plane n : Nat) (ty : BitVec 2) (va : W64) (d : List Byte) (s : State),
      s.fab.ctl.getLsbD 0 = true ∧
      plane < 18 ∧
      src < s.nranks ∧
      src ≠ s.rank ∧
      s.fab.lanes.getD plane 0 = 4 ∧
      (s.fab.waiting.any fun x => x.src == src && x.plane == plane) = false ∧
      ((s.updFab fun f => { f with retries := f.retries.modify plane fun n => Nat.min 0xFFFF (n + Config.choose s.tick [0xC40] % 2 ^ 16) }).peerAccess src (portDie plane) (.reduce n ty va d)).isSome = true)
    ∧ (∃ (src plane n : Nat) (va : W64) (len : Nat) (s : State),
      s.fab.ctl.getLsbD 0 = true ∧
      plane < 18 ∧
      src < s.nranks ∧
      src ≠ s.rank ∧
      s.fab.lanes.getD plane 0 = 4 ∧
      (s.fab.waiting.any fun x => x.src == src && x.plane == plane) = false ∧
      ((s.updFab fun f => { f with retries := f.retries.modify plane fun n => Nat.min 0xFFFF (n + Config.choose s.tick [0xC40] % 2 ^ 16) }).peerAccess src (portDie plane) (.read n va len)).isSome = true)
    ∧ (∃ (src plane n : Nat) (va : W64) (s : State),
      s.fab.ctl.getLsbD 0 = true ∧
      plane < 18 ∧
      src < s.nranks ∧
      src ≠ s.rank ∧
      s.fab.lanes.getD plane 0 = 4 ∧
      (s.fab.waiting.any fun x => x.src == src && x.plane == plane) = false ∧
      ((s.updFab fun f => { f with retries := f.retries.modify plane fun n => Nat.min 0xFFFF (n + Config.choose s.tick [0xC40] % 2 ^ 16) }).peerAccess src (portDie plane) (.counter n va)).isSome = true)
    ∧ (∃ (src plane n : Nat) (va : W64) (frame : Nat) (bs : Bool) (d : List Byte) (last : Bool) (s : State),
      s.fab.ctl.getLsbD 0 = true ∧
      plane < 18 ∧
      src < s.nranks ∧
      src ≠ s.rank ∧
      s.fab.lanes.getD plane 0 = 4 ∧
      (s.fab.waiting.any fun x => x.src == src && x.plane == plane) = false ∧
      ((s.updFab fun f => { f with retries := f.retries.modify plane fun n => Nat.min 0xFFFF (n + Config.choose s.tick [0xC40] % 2 ^ 16) }).peerAccess src (portDie plane) (.pageCopy n va frame bs d last)).isSome = true)
    ∧ (∃ (src plane n : Nat) (rcb base : W64) (off : Nat) (data : List Byte) (s : State),
      s.fab.ctl.getLsbD 0 = true ∧
      plane < 18 ∧
      src < s.nranks ∧
      src ≠ s.rank ∧
      s.fab.lanes.getD plane 0 = 4)
    ∧ (∃ (src plane tag n digest : Nat) (data : List Byte) (s : State),
      s.fab.ctl.getLsbD 0 = true ∧
      plane < 18 ∧
      src < s.nranks ∧
      src ≠ s.rank ∧
      s.fab.lanes.getD plane 0 = 4)
    ∧ (∃ (src plane tag n status : Nat) (s : State),
      s.fab.ctl.getLsbD 0 = true ∧
      plane < 18 ∧
      src < s.nranks ∧
      src ≠ s.rank ∧
      s.fab.lanes.getD plane 0 = 4)
    ∧ (∃ (src plane dev : Nat) (va : W64) (own : Nat) (s : State),
      s.fab.ctl.getLsbD 0 = true ∧
      plane < 18 ∧
      src < s.nranks ∧
      src ≠ s.rank ∧
      s.fab.lanes.getD plane 0 = 4) :=
  ⟨⟨1, 17, 7, 0x18200, [1, 2], wFab, by decide +kernel⟩,
   ⟨1, 17, 7, 0, 0x18200, [1, 2, 3, 4], wFab, by decide +kernel⟩,
   ⟨1, 17, 7, 0x18200, 4, wFab, by decide +kernel⟩,
   ⟨1, 17, 7, 0x18200, wFab, by decide +kernel⟩,
   ⟨1, 17, 7, 0x18200, 0x14, false, [], false, wFab, by decide +kernel⟩,
   ⟨1, 17, 7, 0x18100, 0x18300, 0, [1], wFab, by decide +kernel⟩,
   ⟨1, 17, 0, 0, 0, [1], wFab, by decide +kernel⟩,
   ⟨1, 17, 0, 0, 6, wFab, by decide +kernel⟩,
   ⟨1, 17, 0, 0x10000, 1, wFab, by decide +kernel⟩⟩

theorem wit_RoundsAndCollectivesComplete :
    (∃ (id : Nat) (s : State) (L : RedLand),
      (s.fab.waiting.find? fun x => x.id == id) = some L ∧
      s.landingAfter L = false ∧
      L.rcb.toNat % 64 ≠ 0)
    ∧ (∃ (id : Nat) (s : State) (L : RedLand) (rcb : Range) (buf out : List (Nat × Range)),
      (s.fab.waiting.find? fun x => x.id == id) = some L ∧
      s.landingAfter L = false ∧
      L.rcb.toNat % 64 = 0 ∧
      (s.fabAt 0 L.rcb.toNat 64 true false [0xC23, L.rcb.toNat]).isOk = true ∧
      (s.fabAt 0 L.rcb.toNat 64 true false [0xC23, L.rcb.toNat]).rs.headD ⟨0, 0, false⟩ = rcb ∧
      paDevice rcb.pa = true ∧
      (s.fabAt 0 L.rcb.toNat 64 true false [0xC23, L.rcb.toNat]).st.memReady rcb.pa 64 rcb.bypass = true ∧
      (s.fabAt 0 L.rcb.toNat 64 true false [0xC23, L.rcb.toNat]).st.sliceReady rcb.pa 8 rcb.bypass = true ∧
      (rcbOf ((s.fabAt 0 L.rcb.toNat 64 true false [0xC23, L.rcb.toNat]).st.mem.visBytes rcb.pa 64)).ok = true ∧
      (rcbOf ((s.fabAt 0 L.rcb.toNat 64 true false [0xC23, L.rcb.toNat]).st.mem.visBytes rcb.pa 64)).first ≤ L.src ∧
      L.src < (rcbOf ((s.fabAt 0 L.rcb.toNat 64 true false [0xC23, L.rcb.toNat]).st.mem.visBytes rcb.pa 64)).first + (rcbOf ((s.fabAt 0 L.rcb.toNat 64 true false [0xC23, L.rcb.toNat]).st.mem.visBytes rcb.pa 64)).count ∧
      L.off + L.data.length ≤ (rcbOf ((s.fabAt 0 L.rcb.toNat 64 true false [0xC23, L.rcb.toNat]).st.mem.visBytes rcb.pa 64)).len ∧
      L.base.toNat = (rcbOf ((s.fabAt 0 L.rcb.toNat 64 true false [0xC23, L.rcb.toNat]).st.mem.visBytes rcb.pa 64)).out ∧
      (State.fabSpans 0 true true 0xC21 (pageParts 0 (rcbOf ((s.fabAt 0 L.rcb.toNat 64 true false [0xC23, L.rcb.toNat]).st.mem.visBytes rcb.pa 64)).buf ((rcbOf ((s.fabAt 0 L.rcb.toNat 64 true false [0xC23, L.rcb.toNat]).st.mem.visBytes rcb.pa 64)).count * (rcbOf ((s.fabAt 0 L.rcb.toNat 64 true false [0xC23, L.rcb.toNat]).st.mem.visBytes rcb.pa 64)).len)) (s.fabAt 0 L.rcb.toNat 64 true false [0xC23, L.rcb.toNat]).st []).got = some buf ∧
      (State.fabSpans 0 true true 0xC22 (pageParts 0 (rcbOf ((s.fabAt 0 L.rcb.toNat 64 true false [0xC23, L.rcb.toNat]).st.mem.visBytes rcb.pa 64)).out ((rcbOf ((s.fabAt 0 L.rcb.toNat 64 true false [0xC23, L.rcb.toNat]).st.mem.visBytes rcb.pa 64)).len / 4 * (rcbOf ((s.fabAt 0 L.rcb.toNat 64 true false [0xC23, L.rcb.toNat]).st.mem.visBytes rcb.pa 64)).size)) (State.fabSpans 0 true true 0xC21 (pageParts 0 (rcbOf ((s.fabAt 0 L.rcb.toNat 64 true false [0xC23, L.rcb.toNat]).st.mem.visBytes rcb.pa 64)).buf ((rcbOf ((s.fabAt 0 L.rcb.toNat 64 true false [0xC23, L.rcb.toNat]).st.mem.visBytes rcb.pa 64)).count * (rcbOf ((s.fabAt 0 L.rcb.toNat 64 true false [0xC23, L.rcb.toNat]).st.mem.visBytes rcb.pa 64)).len)) (s.fabAt 0 L.rcb.toNat 64 true false [0xC23, L.rcb.toNat]).st []).st []).got = some out ∧
      ((((State.fabSpans 0 true true 0xC22 (pageParts 0 (rcbOf ((s.fabAt 0 L.rcb.toNat 64 true false [0xC23, L.rcb.toNat]).st.mem.visBytes rcb.pa 64)).out ((rcbOf ((s.fabAt 0 L.rcb.toNat 64 true false [0xC23, L.rcb.toNat]).st.mem.visBytes rcb.pa 64)).len / 4 * (rcbOf ((s.fabAt 0 L.rcb.toNat 64 true false [0xC23, L.rcb.toNat]).st.mem.visBytes rcb.pa 64)).size)) (State.fabSpans 0 true true 0xC21 (pageParts 0 (rcbOf ((s.fabAt 0 L.rcb.toNat 64 true false [0xC23, L.rcb.toNat]).st.mem.visBytes rcb.pa 64)).buf ((rcbOf ((s.fabAt 0 L.rcb.toNat 64 true false [0xC23, L.rcb.toNat]).st.mem.visBytes rcb.pa 64)).count * (rcbOf ((s.fabAt 0 L.rcb.toNat 64 true false [0xC23, L.rcb.toNat]).st.mem.visBytes rcb.pa 64)).len)) (s.fabAt 0 L.rcb.toNat 64 true false [0xC23, L.rcb.toNat]).st []).st []).st.fab.rounds.any fun x => x.rcb == L.rcb) = true ∨ ((State.fabSpans 0 true true 0xC22 (pageParts 0 (rcbOf ((s.fabAt 0 L.rcb.toNat 64 true false [0xC23, L.rcb.toNat]).st.mem.visBytes rcb.pa 64)).out ((rcbOf ((s.fabAt 0 L.rcb.toNat 64 true false [0xC23, L.rcb.toNat]).st.mem.visBytes rcb.pa 64)).len / 4 * (rcbOf ((s.fabAt 0 L.rcb.toNat 64 true false [0xC23, L.rcb.toNat]).st.mem.visBytes rcb.pa 64)).size)) (State.fabSpans 0 true true 0xC21 (pageParts 0 (rcbOf ((s.fabAt 0 L.rcb.toNat 64 true false [0xC23, L.rcb.toNat]).st.mem.visBytes rcb.pa 64)).buf ((rcbOf ((s.fabAt 0 L.rcb.toNat 64 true false [0xC23, L.rcb.toNat]).st.mem.visBytes rcb.pa 64)).count * (rcbOf ((s.fabAt 0 L.rcb.toNat 64 true false [0xC23, L.rcb.toNat]).st.mem.visBytes rcb.pa 64)).len)) (s.fabAt 0 L.rcb.toNat 64 true false [0xC23, L.rcb.toNat]).st []).st []).st.fab.rounds.countP fun x => x.die == paDie rcb.pa) < 256)) ∧
      ((((((State.fabSpans 0 true true 0xC22 (pageParts 0 (rcbOf ((s.fabAt 0 L.rcb.toNat 64 true false [0xC23, L.rcb.toNat]).st.mem.visBytes rcb.pa 64)).out ((rcbOf ((s.fabAt 0 L.rcb.toNat 64 true false [0xC23, L.rcb.toNat]).st.mem.visBytes rcb.pa 64)).len / 4 * (rcbOf ((s.fabAt 0 L.rcb.toNat 64 true false [0xC23, L.rcb.toNat]).st.mem.visBytes rcb.pa 64)).size)) (State.fabSpans 0 true true 0xC21 (pageParts 0 (rcbOf ((s.fabAt 0 L.rcb.toNat 64 true false [0xC23, L.rcb.toNat]).st.mem.visBytes rcb.pa 64)).buf ((rcbOf ((s.fabAt 0 L.rcb.toNat 64 true false [0xC23, L.rcb.toNat]).st.mem.visBytes rcb.pa 64)).count * (rcbOf ((s.fabAt 0 L.rcb.toNat 64 true false [0xC23, L.rcb.toNat]).st.mem.visBytes rcb.pa 64)).len)) (s.fabAt 0 L.rcb.toNat 64 true false [0xC23, L.rcb.toNat]).st []).st []).st.fab.rounds.find? fun x => x.rcb == L.rcb).getD ⟨L.rcb, paDie rcb.pa, [], [], false⟩).landed.find? fun x => x.1 == (L.src - (rcbOf ((s.fabAt 0 L.rcb.toNat 64 true false [0xC23, L.rcb.toNat]).st.mem.visBytes rcb.pa 64)).first)).map (·.2)).getD 0) < (rcbOf ((s.fabAt 0 L.rcb.toNat 64 true false [0xC23, L.rcb.toNat]).st.mem.visBytes rcb.pa 64)).len ∧
      (State.fabSpans 0 true true 0xC22 (pageParts 0 (rcbOf ((s.fabAt 0 L.rcb.toNat 64 true false [0xC23, L.rcb.toNat]).st.mem.visBytes rcb.pa 64)).out ((rcbOf ((s.fabAt 0 L.rcb.toNat 64 true false [0xC23, L.rcb.toNat]).st.mem.visBytes rcb.pa 64)).len / 4 * (rcbOf ((s.fabAt 0 L.rcb.toNat 64 true false [0xC23, L.rcb.toNat]).st.mem.visBytes rcb.pa 64)).size)) (State.fabSpans 0 true true 0xC21 (pageParts 0 (rcbOf ((s.fabAt 0 L.rcb.toNat 64 true false [0xC23, L.rcb.toNat]).st.mem.visBytes rcb.pa 64)).buf ((rcbOf ((s.fabAt 0 L.rcb.toNat 64 true false [0xC23, L.rcb.toNat]).st.mem.visBytes rcb.pa 64)).count * (rcbOf ((s.fabAt 0 L.rcb.toNat 64 true false [0xC23, L.rcb.toNat]).st.mem.visBytes rcb.pa 64)).len)) (s.fabAt 0 L.rcb.toNat 64 true false [0xC23, L.rcb.toNat]).st []).st []).st.landReady buf = true ∧
      (State.fabSpans 0 true true 0xC22 (pageParts 0 (rcbOf ((s.fabAt 0 L.rcb.toNat 64 true false [0xC23, L.rcb.toNat]).st.mem.visBytes rcb.pa 64)).out ((rcbOf ((s.fabAt 0 L.rcb.toNat 64 true false [0xC23, L.rcb.toNat]).st.mem.visBytes rcb.pa 64)).len / 4 * (rcbOf ((s.fabAt 0 L.rcb.toNat 64 true false [0xC23, L.rcb.toNat]).st.mem.visBytes rcb.pa 64)).size)) (State.fabSpans 0 true true 0xC21 (pageParts 0 (rcbOf ((s.fabAt 0 L.rcb.toNat 64 true false [0xC23, L.rcb.toNat]).st.mem.visBytes rcb.pa 64)).buf ((rcbOf ((s.fabAt 0 L.rcb.toNat 64 true false [0xC23, L.rcb.toNat]).st.mem.visBytes rcb.pa 64)).count * (rcbOf ((s.fabAt 0 L.rcb.toNat 64 true false [0xC23, L.rcb.toNat]).st.mem.visBytes rcb.pa 64)).len)) (s.fabAt 0 L.rcb.toNat 64 true false [0xC23, L.rcb.toNat]).st []).st []).st.landReady out = true)
    ∧ (∃ (inst : Nat) (s : State) (i : CollInst),
      (s.fab.insts.find? fun i => i.id == inst) = some i ∧
      i.done = false ∧
      i.begun = false ∧
      (s.fab.insts.any fun x => x.launch == i.launch && x.plan == i.plan && x.n < i.n && !x.done) = false ∧
      (s.collBegin i).isSome = true)
    ∧ (∃ (inst : Nat) (s : State) (i : CollInst),
      (s.fab.insts.find? fun i => i.id == inst) = some i ∧
      i.done = false ∧
      i.begun = true ∧
      i.bad = false ∧
      (s.fab.insts.any fun x => x.launch == i.launch && x.plan == i.plan && x.n < i.n && !x.done) = false ∧
      (s.collChunk i).isSome = true)
    ∧ (∃ (inst : Nat) (s : State) (i : CollInst),
      (s.fab.insts.find? fun i => i.id == inst) = some i ∧
      i.done = false ∧
      i.begun = true ∧
      (s.fab.xfers.any fun x => x.of == .coll inst) = false ∧
      i.bad = false ∧
      ((List.range (collOf i.desc).chunks).all fun j => i.chunks.contains j) = true ∧
      (s.collLoose i (collOf i.desc).buf (collOf i.desc).need).isSome = true) :=
  ⟨⟨7, ({ wFab with fab := { wFab.fab with waiting := [{ wRed with rcb := 1 }] } } : State), { wRed with rcb := 1 }, by decide +kernel⟩,
   ⟨7, wRcb, wRed, ⟨0x148100, 64, false⟩, [(0, ⟨0x148200, 64, false⟩)], [(0, ⟨0x148300, 64, false⟩)], by decide +kernel⟩,
   ⟨7, (wColl wInst), wInst, by decide +kernel⟩,
   ⟨7, (wColl wChunk), wChunk, by decide +kernel⟩,
   ⟨7, (wColl { wInst with begun := true }), { wInst with begun := true }, by decide +kernel⟩⟩

theorem wit_LaunchEventsComplete :
    (∃ (q : Nat) (s : State) (b : List Byte) (push : Option Push) (rc : LaunchRec),
      q < 4 ∧
      (s.headAt q).isNone = true ∧
      (s.ringTake q).map (fun x => (x.1, x.2.1)) = some (b, push) ∧
      natAt b 0 4 % 16 = 0 ∧
      ((((s.ringTake q).map fun x => x.2.2).getD s).checkRecord ((((s.ringTake q).map fun x => x.2.2).getD s).entryRoot q push) (bitsOf (natAt b 0 8) 56 4 * 16) (fun rc => (0, rc.ngrp + 1)) false).okRc = some rc)
    ∧ (∃ (q : Nat) (s : State) (b : List Byte) (push : Option Push) (rc : LaunchRec) (code : Nat),
      q < 4 ∧
      (s.headAt q).isNone = true ∧
      (s.ringTake q).map (fun x => (x.1, x.2.1)) = some (b, push) ∧
      natAt b 0 4 % 16 = 0 ∧
      ((((s.ringTake q).map fun x => x.2.2).getD s).checkRecord ((((s.ringTake q).map fun x => x.2.2).getD s).entryRoot q push) (bitsOf (natAt b 0 8) 56 4 * 16) (fun rc => (0, rc.ngrp + 1)) false).badRc = some (rc, code) ∧
      (((((s.ringTake q).map fun x => x.2.2).getD s).checkRecord ((((s.ringTake q).map fun x => x.2.2).getD s).entryRoot q push) (bitsOf (natAt b 0 8) 56 4 * 16) (fun rc => (0, rc.ngrp + 1)) false).st.writeComp ((((s.ringTake q).map fun x => x.2.2).getD s).entryRoot q push) rc (pushPart push) code 0).isSome = true)
    ∧ (∃ (q : Nat) (s : State) (b : List Byte) (push : Option Push),
      q < 4 ∧
      (s.headAt q).isNone = true ∧
      (s.ringTake q).map (fun x => (x.1, x.2.1)) = some (b, push) ∧
      3 ≤ natAt b 0 4 % 16)
    ∧ (∃ (q : Nat) (s : State) (l : Nat) (L : Launch),
      q < 4 ∧
      s.headAt q = some (.range l) ∧
      s.launch? l = some L ∧
      L.count = 0 ∧
      L.upto < L.total)
    ∧ (∃ (q : Nat) (s : State) (b : List Byte) (push : Option Push) (rc : LaunchRec),
      q < 4 ∧
      (s.headAt q).isNone = true ∧
      (s.ringTake q).map (fun x => (x.1, x.2.1)) = some (b, push) ∧
      natAt b 0 4 % 16 = 1 ∧
      ((((s.ringTake q).map fun x => x.2.2).getD s).checkRecord ((((s.ringTake q).map fun x => x.2.2).getD s).entryRoot q push) (bitsOf (natAt b 0 8) 56 4 * 16) (fun _ => (natAt b 24 8 / 2 ^ 24, (natAt b 24 8 % 2 ^ 24 + 1))) (match ((((s.ringTake q).map fun x => x.2.2).getD s).entryRoot q push) with | some f => (((s.ringTake q).map fun x => x.2.2).getD s).cp.accepted.contains ((bitsOf (natAt b 0 8) 56 4 * 16), f) | none => false)).okRc = some rc)
    ∧ (∃ (q : Nat) (s : State) (b : List Byte) (push : Option Push),
      q < 4 ∧
      (s.headAt q).isNone = true ∧
      (s.ringTake q).map (fun x => (x.1, x.2.1)) = some (b, push) ∧
      natAt b 0 4 % 16 = 2 ∧
      (push.any fun p => p.launch.isSome) = true)
    ∧ (∃ (q : Nat) (s : State) (b : List Byte) (push : Option Push),
      q < 4 ∧
      (s.headAt q).isNone = true ∧
      (s.ringTake q).map (fun x => (x.1, x.2.1)) = some (b, push) ∧
      natAt b 0 4 % 16 = 2 ∧
      (push.any fun p => p.launch.isSome) = false)
    ∧ (∃ (q : Nat) (s : State) (b : List Byte) (push : Option Push) (die : Nat),
      ((q = 4 ∨ q = 5)) ∧
      s.sliceReady ((s.queueAt q).entryPa q (s.queueAt q).head.toNat) 64 false = true ∧
      (s.ringTake q).map (fun x => (x.1, x.2.1)) = some (b, push) ∧
      (((((s.ringTake q).map fun x => x.2.2).getD s).pruneReqs).dstDie ((rootOf (((((s.ringTake q).map fun x => x.2.2).getD s).pruneReqs).queueAt q).root).getD 0) b) = some die ∧
      ((((s.ringTake q).map fun x => x.2.2).getD s).pruneReqs).copyLoad (die * 64 + (Config.choose ((((s.ringTake q).map fun x => x.2.2).getD s).pruneReqs).tick [0xE22] % 40)) < 64)
    ∧ (∃ (part : Nat) (s : State),
      s.placing part = true ∧
      (s.placeFrom part).isSome = true)
    ∧ (∃ (grp : Nat) (s : State) (G : Group) (L : Launch),
      s.group? grp = some G ∧
      ((s.freeWaves.group? grp).map fun G => G.waves.all fun w => w.freed) = some true ∧
      (G.threads.any fun x => !x.quantum.isEmpty) = false ∧
      s.freeWaves.groupWork grp = false ∧
      s.freeWaves.launch? G.launch = some L ∧
      L.outcome = none ∧
      L.committing = false ∧
      L.join = 0 ∧
      G.handles = none)
    ∧ (∃ (l : Nat) (s : State) (L : Launch),
      s.launch? l = some L ∧
      L.outcome = none ∧
      L.upto = L.total ∧
      L.count = 0 ∧
      L.ended = L.total ∧
      s.launchGroups l = [] ∧
      s.launchDrained l = true ∧
      s.canForceAll (s.launchWrites l) .all = true ∧
      ((s.forceAll (s.launchWrites l) .all).writeComp (some L.root) L.rc (L.parts.head?.getD 0xFFFF) 0 0).isSome = true)
    ∧ (∃ (l : Nat) (s : State) (L : Launch),
      s.launch? l = some L ∧
      L.dl = some 0 ∧
      L.outcome = none ∧
      (s.launchGroups l).isEmpty = false) :=
  ⟨⟨0, (wSubmit (bytes8 0x18080)), (bytes8 0x18080 ++ List.replicate 24 0), none, (wCk0.okRc.get wCk0_ok), by decide +kernel, by decide +kernel, by decide +kernel, by decide +kernel, some_of_isSome wCk0_ok⟩,
   ⟨0, wNoPart, (bytes8 0x18080 ++ List.replicate 24 0), none, (wCkB.badRc.get wCkB_ok).1, (wCkB.badRc.get wCkB_ok).2, by decide +kernel, by decide +kernel, by decide +kernel, by decide +kernel, pair_of_isSome wCkB_ok, by decide +kernel⟩,
   ⟨0, (wSubmit (bytes8 0x1808F)), (bytes8 0x1808F ++ List.replicate 24 0), none, by decide +kernel⟩,
   ⟨0, (wHeads wNew), 7, wNew, by decide +kernel⟩,
   ⟨0, (wSubmit (bytes8 0x18081)), (bytes8 0x18081 ++ List.replicate 24 0), none, (wCk2.okRc.get wCk2_ok), by decide +kernel, by decide +kernel, by decide +kernel, by decide +kernel, some_of_isSome wCk2_ok⟩,
   ⟨0, (wPushed (bytes8 0x200002)), (bytes8 0x200002 ++ List.replicate 24 0), (some wPush), by decide +kernel⟩,
   ⟨0, (wSubmit (bytes8 0x200002)), (bytes8 0x200002 ++ List.replicate 24 0), none, by decide +kernel⟩,
   ⟨4, wCopyRing, wBodyE, none, 0, by decide +kernel⟩,
   ⟨0, (wHeads wPlace), by decide +kernel⟩,
   ⟨1, wExited, (wG0 wExited), (wL wExited), by decide +kernel⟩,
   ⟨7, wEnded, (wL wEnded), by decide +kernel⟩,
   ⟨0, wDl, (wL wDl), by decide +kernel⟩⟩

theorem wit_TrapEventsComplete :
    (∃ (grp : Nat) (s : State) (G : Group) (h : Halt),
      s.group? grp = some G ∧
      G.halt = some h ∧
      h.quiet = false ∧
      s.quietOk G = true ∧
      h.why.isTrap = false)
    ∧ (∃ (grp : Nat) (s : State) (G : Group) (h : Halt) (k : Nat),
      s.group? grp = some G ∧
      G.halt = some h ∧
      h.quiet = false ∧
      s.quietOk G = true ∧
      h.why = .trap k ∧
      (((((G.threads.foldl (fun s x => s.cancelHeld (.thr grp x.tid)) s).pgreqBack grp).abandon grp).updGroup grp fun G => { G with halt := some { h with quiet := true } }).writeTrapImage grp).isSome = true)
    ∧ (∃ (part : Nat) (s : State) (p : Part_) (v : W64),
      part < 16 ∧
      (s.handlerGroup part).isNone = true ∧
      s.partAt part = p ∧
      p.handlerNext = some v)
    ∧ (∃ (part : Nat) (s : State) (p : Part_) (rc : LaunchRec),
      part < 16 ∧
      (s.handlerGroup part).isNone = true ∧
      s.partAt part = p ∧
      p.handlerNext = none ∧
      p.reserved = .unread ∧
      p.rect.getLsbD 14 = true ∧
      (s.checkRecord (s.partRoot part) (p.handler.toNat % 2 ^ 57) (fun rc => (0, rc.ngrp + 1)) false).okRc = some rc)
    ∧ (∃ (part : Nat) (s : State) (p : Part_) (rc : LaunchRec),
      part < 16 ∧
      (s.handlerGroup part).isNone = true ∧
      s.partAt part = p ∧
      p.handlerNext = none ∧
      p.reserved = .pending rc ∧
      p.rect.getLsbD 14 = true ∧
      s.paGrant part + rc.power ≤ (p.shares.extractLsb' 0 14).toNat ∧
      (s.placeAt rc [s.roomAt (State.rectTop p)] 0).isSome = true)
    ∧ (∃ (part : Nat) (s : State) (p : Part_) (rc : LaunchRec) (core : Nat) (slots : List Nat) (spad row g : Nat) (rest : List Nat) (G : Group) (tbl : Option (List Byte)),
      part < 16 ∧
      (s.handlerGroup part).isNone = true ∧
      s.partAt part = p ∧
      p.preempt = .none ∧
      p.handlerNext = none ∧
      p.reserved = .held rc core slots spad row ∧
      p.quietQ = g :: rest ∧
      s.group? g = some G ∧
      s.tablesOk ({ Launch.blank with id := s.nextId, rc := rc, root := (s.partRoot part).getD 0, upto := 1, placed := 1, args := rc.args, join := rc.join, priv := true, stamp := s.stamp } : Launch) part = some tbl)
    ∧ (∃ (part : Nat) (s : State) (p : Part_),
      part < 16 ∧
      s.partAt part = p ∧
      p.preempt = .halting ∧
      (s.groups.filter fun G => G.part == part).all s.savable = true ∧
      (((s.launches.filter fun L => (s.groups.filter fun G => G.part == part).any fun G => G.launch == L.id).mergeSort fun a b => a.order ≤ b.order).any fun L => L.outcome.isSome || L.committing) = false ∧
      ((((rectOf p.rect).w * (rectOf p.rect).h * ((s.launches.filter fun L => (s.groups.filter fun G => G.part == part).any fun G => G.launch == L.id).mergeSort fun a b => a.order ≤ b.order).length) = 0 ∨ (paDevice (saveBase p.save) && paDevice (saveBase p.save + ((rectOf p.rect).w * (rectOf p.rect).h * ((s.launches.filter fun L => (s.groups.filter fun G => G.part == part).any fun G => G.launch == L.id).mergeSort fun a b => a.order ≤ b.order).length) * 2 ^ 23 - 1) && (List.range (((rectOf p.rect).w * (rectOf p.rect).h * ((s.launches.filter fun L => (s.groups.filter fun G => G.part == part).any fun G => G.launch == L.id).mergeSort fun a b => a.order ≤ b.order).length) * 2048)).all fun i => s.sliceReady (saveBase p.save + 4096 * i) 4096 false) = true)))
    ∧ (∃ (n : Nat) (s : State) (p : Part_),
      n < 16 ∧
      s.partAt n = p ∧
      p.stopped = false ∧
      p.preempt = .none ∧
      p.save.getLsbD 0 = true ∧
      ((rectOf p.rect).w * (rectOf p.rect).h * (s.partLaunches n).length) ≤ saveSize p.save)
    ∧ (∃ (n : Nat) (s : State) (p : Part_),
      n < 16 ∧
      s.partAt n = p ∧
      p.stopped = false ∧
      p.preempt = .none ∧
      ((p.save.getLsbD 0 = false ∨ saveSize p.save < ((rectOf p.rect).w * (rectOf p.rect).h * (s.partLaunches n).length))))
    ∧ (∃ (n : Nat) (s : State),
      n < 16)
    ∧ (∃ (l : Nat) (s : State),
      s.commitDue l = true)
    ∧ (∃ (l : Nat) (s : State) (L : Launch),
      s.launch? l = some L ∧
      L.committing = true ∧
      L.outcome = none ∧
      s.commitDrained l = true)
    ∧ (∃ (part measured : Nat) (s : State),
      part < 16 ∧
      s.gtsc % 1000 = 0) :=
  ⟨⟨1, (wHalted .preempt), (wG0 (wHalted .preempt)), ⟨.preempt, 0, false, none, 0⟩, by decide +kernel⟩,
   ⟨1, (wHalted (.trap 3)), (wG0 (wHalted (.trap 3))), ⟨.trap 3, 0, false, none, 0⟩, 3, by decide +kernel⟩,
   ⟨0, (wResv { wPartH .none with handlerNext := some 0x18080 }), { wPartH .none with handlerNext := some 0x18080 }, 0x18080, by decide +kernel⟩,
   ⟨0, wUnread, (wPartH .unread), (wCk1.okRc.get wCk1_ok), by decide +kernel, by decide +kernel, by decide +kernel, by decide +kernel, by decide +kernel, by decide +kernel, some_of_isSome wCk1_ok⟩,
   ⟨0, wPending, (wPartH (.pending wRc)), wRc, by decide +kernel⟩,
   ⟨0, wHeld, { wPartH (.held wRc 3 [0] 0 0) with quietQ := [1] }, wRc, 3, [0], 0, 0, 1, [], (wG0 wHeld), none, by decide +kernel⟩,
   ⟨0, wDraining, { Part_.reset with preempt := .halting }, by decide +kernel⟩,
   ⟨0, wSaving, { Part_.reset with rect := 0x4000, save := 0x200003 }, by decide +kernel⟩,
   ⟨0, w0, Part_.reset, by decide +kernel⟩,
   ⟨15, w0, by decide +kernel⟩,
   ⟨0, wCommit, by decide +kernel⟩,
   ⟨0, wCommitting, (wL wCommitting), by decide +kernel⟩,
   ⟨15, 0, w0, by decide +kernel⟩⟩

theorem wit_HostEventsComplete :
    (∃ (v : W32) (s : State),
      v.getLsbD 0 = true ∧
      s.bootMode = bootRecovery)
    ∧ (∃ (v : W64) (s : State),
      s.boot.attStat.getLsbD 0 = false)
    ∧ (∃ (v : W32) (s : State),
      s.boot.debugOk = true)
    ∧ (∃ (write : Bool) (off len : Nat) (data : List Byte) (s : State) (rs : List Range),
      write = true ∧
      data ≠ [] ∧
      data.length ≤ 256 ∧
      off + data.length ≤ 2 ^ 39 ∧
      s.bootMode ≠ 0 ∧
      s.bootMode ≠ bootRecovery ∧
      s.hostPlaces (s.bar2Base + off) data.length = some rs ∧
      (rs.find? fun r => paHome r.pa == 8 && !s.boot.ats.contains (r.pa / 2 ^ 12)) = none ∧
      s.landReady (s.spansOf rs) = true)
    ∧ (∃ (write : Bool) (off len : Nat) (data : List Byte) (s : State) (rs : List Range),
      write = false ∧
      0 < len ∧
      len ≤ 256 ∧
      off + len ≤ 2 ^ 39 ∧
      s.bootMode ≠ 0 ∧
      s.bootMode ≠ bootRecovery ∧
      s.hostPlaces (s.bar2Base + off) len = some rs ∧
      (rs.find? fun r => paHome r.pa == 8 && !s.boot.ats.contains (r.pa / 2 ^ 12)) = none ∧
      s.spansReadable (s.spansOf rs) = true)
    ∧ (∃ (s : State) (r : ErrRec) (rest : List ErrRec),
      s.cp.erHeld = r :: rest ∧
      s.cp.erSize.getLsbD 4 = true ∧
      paDevice ((s.cp.erBase.extractLsb' 5 47).toNat * 32 + s.cp.erTail.toNat % erSlots s.cp.erSize * 32) = true ∧
      paDevice (((s.cp.erBase.extractLsb' 5 47).toNat * 32 + s.cp.erTail.toNat % erSlots s.cp.erSize * 32) + 31) = true ∧
      (s.cp.erTail - s.cp.erHead).toNat < erSlots s.cp.erSize ∧
      s.sliceReady ((s.cp.erBase.extractLsb' 5 47).toNat * 32 + s.cp.erTail.toNat % erSlots s.cp.erSize * 32) 32 false = true)
    ∧ (∃ (sensor : BitVec 6) (s : State),
      sensor &&& 7 ≠ 0)
    ∧ (∃ (sensor : BitVec 6) (s : State),
      sensor &&& 15 ≠ 0 ∧
      (if ((sensor &&& 15).zeroExtend 32 : W32) &&& 7 = 0 then s else s.raiseOne (((sensor &&& 15).zeroExtend 32 : W32) &&& 7)).boot.alarm.extractLsb' 0 2 ≠ 2)
    ∧ (∃ (obj : List Byte) (text data : W64) (s : State),
      (s.loadCheck obj).status ≠ loadOk)
    ∧ (∃ (obj : List Byte) (text data : W64) (s : State),
      (s.objPlaced (s.loadedObj obj text data)).isSome = true)
    ∧ (∃ (core : Nat) (v : W64) (s : State),
      core < 1024 ∧
      core % 256 < 160 ∧
      s.kickFull core = false ∧
      s.boot.dbg.getLsbD 0 = true)
    ∧ (∃ (n : Nat) (v : W32) (s : State),
      n < 16 ∧
      (s.cp.parts.zipIdx.any fun p => p.2 != n && rectsMeet (v &&& 0x7FFF) p.1.rect) = false)
    ∧ (∃ (n : Nat) (v : W64) (s : State),
      n < 16)
    ∧ (∃ (v : W32) (s : State),
      s.fabIdle = true ∧
      fabOk (v &&& 0x0FFF0FFF) s.fab.ctl = true)
    ∧ (∃ (v : W32) (s : State),
      s.fabIdle = true ∧
      fabOk s.fab.id (v &&& 3) = true)
    ∧ (∃ (v : W64) (s : State),
      s.fabIdle = true)
    ∧ (∃ (wide : Bool) (off : Nat) (v : W64) (s : State) (r : Reg),
      regAt off = some r ∧
      r.wide = wide)
    ∧ (∃ (wide : Bool) (off : Nat) (v : W64) (s : State),
      regAt off = none) :=
  ⟨⟨1, ({ w0 with boot := { w0.boot with stat := 2 } } : State), by decide +kernel⟩,
   ⟨0, w0, by decide +kernel⟩,
   ⟨0, ({ w0 with boot := { w0.boot with debugOk := true } } : State), by decide +kernel⟩,
   ⟨true, 0x148000, 0, [1, 2], w0, [⟨0x148000, 2, false⟩], by decide +kernel⟩,
   ⟨false, 0x148000, 256, [], w0, [⟨0x148000, 256, false⟩], by decide +kernel⟩,
   ⟨wErrRing, wErr, [], by decide +kernel⟩,
   ⟨4, w0, by decide +kernel⟩,
   ⟨8, w0, by decide +kernel⟩,
   ⟨[], 0, 0, w0, by decide +kernel⟩,
   ⟨[], 0, 0, w0, (by have h : (w0.loadedObj [] 0 0).sections = [] := (by decide +kernel); simp only [State.objPlaced, h, List.map_nil, List.flatten_nil, List.zipIdx_nil, State.mapPages]; split <;> rfl)⟩,
   ⟨0, 0, wDebug, by decide +kernel⟩,
   ⟨0, 0x4000, w0, by decide +kernel⟩,
   ⟨0, 0, w0, by decide +kernel⟩,
   ⟨0, State.reset, by decide +kernel⟩,
   ⟨1, State.reset, by decide +kernel⟩,
   ⟨0, State.reset, by decide +kernel⟩,
   ⟨true, 0x10, 0, w0, .bar2Base, by decide +kernel⟩,
   ⟨false, 0x3FFFFFC, 0, w0, by decide +kernel⟩⟩

theorem wit_IntegerArithmetic :
    ∃ ty : Ty, ty.isNum = true :=
  ⟨.i8, rfl⟩

theorem wit_ShiftsAndBitFields :
    (∃ ty : Ty, ty = .i32 ∨ ty = .n32)
    ∧ (∃ ty : Ty, ty.isB = true) :=
  ⟨⟨.n32, .inr rfl⟩,
   ⟨.b32, rfl⟩⟩

theorem wit_CarryChain :
    (∃ (rd : Reader) (ci : BitVec 3) (a b : Operand) (z : BitVec 33), z = (rd32 rd a).zeroExtend 33 + (rd32 rd b).zeroExtend 33 + (BitVec.ofBool (if ci = 7 then false else rdP rd (.p ci))).zeroExtend 33 ∧
      rd .n32 a = (rd32 rd a).zeroExtend 64 ∧ rd .n32 b = (rd32 rd b).zeroExtend 64)
    ∧ (∃ (rd : Reader) (ci : BitVec 3) (a b : Operand) (z : BitVec 33), z = (rd32 rd a).zeroExtend 33 - (rd32 rd b).zeroExtend 33 - (BitVec.ofBool (if ci = 7 then false else rdP rd (.p ci))).zeroExtend 33 ∧
      rd .n32 a = (rd32 rd a).zeroExtend 64 ∧ rd .n32 b = (rd32 rd b).zeroExtend 64) :=
  ⟨⟨fun _ _ => 1, 7, .v 0, .v 0, 2, by decide, by decide, by decide⟩,
   ⟨fun _ _ => 1, 0, .v 0, .v 0, 0x1FFFFFFFF, by decide, by decide, by decide⟩⟩

theorem wit_FloatSpecialCases :
    (∃ (rd : Reader) (c : Ctl) (ty : Ty) (rnd : Rnd) (d a b : Operand) (i : Instr), (ty = .f32 ∨ ty = .f16) ∧ ((rdF rd ty a).isNan || (rdF rd ty b).isNan) = true ∧
      i ∈ [Instr.fadd c ty rnd d a b, .fsub c ty rnd d a b, .fmul c ty rnd d a b])
    ∧ (∃ (rd : Reader) (ty : Ty) (a b : Operand) (n m : Bool) (k : Int), (ty = .f32 ∨ ty = .f16) ∧ rdF rd ty a = .fin n 0 k ∧ isInf m (rdF rd ty b) = true)
    ∧ (∃ (rd : Reader) (ty : Ty) (a b : Operand), (ty = .f32 ∨ ty = .f16) ∧ (rdF rd ty a).isNan = true)
    ∧ (∃ (rd : Reader) (ty : Ty) (a : Operand) (n : Bool) (m : Nat) (k : Int), (ty = .f32 ∨ ty = .f16) ∧ rdF rd ty a = .fin n m k) :=
  ⟨⟨fun _ _ => 0xFFFFFFFF, wc, .f32, .rne, .v 0, .v 0, .v 0, .fsub wc .f32 .rne (.v 0) (.v 0) (.v 0), .inl rfl, by decide, by simp⟩,
   ⟨fun _ o => if o == .v 0 then 0 else 0x7F800000, .f32, .v 0, .v 1, false, false, -149, .inl rfl, by decide, by decide⟩,
   ⟨fun _ _ => 0x7FFFFFFF, .f32, .v 0, .v 0, .inl rfl, by decide⟩,
   ⟨fun _ _ => 0x3F800000, .f32, .v 0, false, 8388608, -23, .inl rfl, by decide⟩⟩

theorem wit_ChecksInOrder :
    ((∃ (i : Instr) (c : Ctl) (s : State) (g n : Nat), ctlOf i = some c ∧ i ≠ .rret c ∧ s.gang.members = [.thr g n] ∧ regsOk (s.ctx (.thr g n)).regs i = false) ∧
      (∃ (i : Instr) (c : Ctl) (s : State) (g n : Nat), ctlOf i = some c ∧ i ≠ .rret c ∧ s.gang.members = [.thr g n] ∧ isLong i = true ∧ s.gang.hdr.flagOf c.fs = none) ∧
      (∃ (i : Instr) (c : Ctl) (s : State) (g n : Nat), ctlOf i = some c ∧ i ≠ .rret c ∧ s.gang.members = [.thr g n] ∧ s.gang.hdr.kind = 3 ∧ repeatForbids i = true))
    ∧ (∃ (i : Instr) (c : Ctl) (s : State) (g n : Nat), ctlOf i = some c ∧ actsWhole i = false ∧ i ≠ .rret c ∧ s.gang.members = [.thr g n] ∧ s.encodingFault (.thr g n) c i = none ∧
      (s.mark c).guard (.thr g n) c = false)
    ∧ (∃ (i : Instr) (c : Ctl) (s : State) (g n : Nat), ctlOf i = some c ∧ isPrivileged i = true ∧ s.gang.members = [.thr g n] ∧ s.encodingFault (.thr g n) c i = none ∧
      (s.mark c).guard (.thr g n) c = true ∧ ((s.mark c).ctx (.thr g n)).priv = false) :=
  ⟨⟨⟨.mov wn .b32 false (.v 0) (.v 8), wn, wRegs8, 1, 0, rfl, by decide, rfl, by decide +kernel⟩, ⟨.rwait wc (.v 0), wc, wNoFlag, 1, 0, rfl, by decide, rfl, rfl, by decide +kernel⟩,
   ⟨.exit wn, wn, wInRpt, 1, 0, rfl, by decide, rfl, by decide +kernel, rfl⟩⟩,
   ⟨.rfe wn, wn, w0, 1, 0, rfl, rfl, by decide, rfl, by decide +kernel⟩,
   ⟨.rfe wc, wc, w0, 1, 0, rfl, rfl, rfl, by decide +kernel⟩⟩

theorem wit_UnassignedOpcodes :
    ((∃ w : W96, w.msb = false ∧ (w.extractLsb' 84 11).toNat = 0x13) ∧
      (∃ w : W96, w.msb = false ∧ (w.extractLsb' 84 11).toNat = 0x7FF))
    ∧ (∃ (s : State) (g n : Nat), s.gang.members = [.thr g n]) :=
  ⟨⟨⟨(0x13 : W96) <<< 84, by decide, by decide⟩, ⟨(0x7FF : W96) <<< 84, by decide, by decide⟩⟩,
   ⟨w0, 1, 0, rfl⟩⟩

theorem wit_TrapEntry :
    (∃ (s : State) (g n k : Nat) (a : W64) (w : Bool) (code : BitVec 16) (x y : Thread), s.thread? (.thr g n) = some x ∧ y = (s.trap (.thr g n) k a w code).thread (.thr g n))
    ∧ (∃ (s : State) (g n k m : Nat) (a : W64) (w : Bool) (code : BitVec 16) (x y : Thread), m ≠ n ∧ s.thread? (.thr g m) = some x ∧ y = (s.trap (.thr g n) k a w code).thread (.thr g m))
    ∧ (∃ g h : Nat, h ≠ g) :=
  ⟨⟨w0, 1, 0, 6, 0x18000, true, 0, w0.thread (.thr 1 0), _, by decide +kernel, rfl⟩,
   ⟨w2, 1, 0, 6, 1, 0x18000, true, 0, w2.thread (.thr 1 1), _, by decide, by decide +kernel, rfl⟩,
   ⟨1, 2, by decide⟩⟩

theorem wit_FixedResultsLand :
    (∃ (s : State) (g n : Nat) (x : Thread), s.thread? (.thr g n) = some x)
    ∧ (∃ (x : Thread) (clk due r : Nat) (y : W32) (before after : List Pend), x.pend = before ++ [⟨due, .v r y⟩] ++ after ∧ due ≤ clk ∧ r < x.v.length ∧
      (∀ e ∈ after, e.due ≤ clk → ∀ z, e.w ≠ .v r z))
    ∧ (∃ (x : Thread) (clk r : Nat), ∀ e ∈ x.pend, e.due ≤ clk → ∀ z, e.w ≠ .v r z)
    ∧ (∃ (x : Thread) (clk r : Nat), ∀ e ∈ x.pend, e.due ≤ clk → ∀ z, e.w ≠ .p r z) :=
  ⟨⟨w0, 1, 0, w0.thread (.thr 1 0), by decide +kernel⟩,
   ⟨{ Thread.blank with v := wRegs, pend := [⟨3, .v 255 1⟩, ⟨4, .v 255 2⟩, ⟨5, .v 255 3⟩] }, 4, 4, 255, 2, [⟨3, .v 255 1⟩], [⟨5, .v 255 3⟩], rfl, by decide, by decide +kernel, by simp⟩,
   ⟨{ Thread.blank with pend := [⟨3, .v 1 1⟩] }, 2, 1, by simp⟩,
   ⟨{ Thread.blank with pend := [⟨3, .p 6 true⟩] }, 2, 6, by simp⟩⟩

theorem wit_RegisterFormsFrame :
    (∃ (c : Ctl) (i : Instr) (lat : Nat) (s : State), fixedLatency i = some (c, lat) ∧ gangOk c i s = true ∧ midClause s = true)
    ∧ (∃ (c : Ctl) (s : State) (i : Instr), i = .nop c ∧ gangOk c i s = true ∧ midClause s = true)
    ∧ (∃ (c : Ctl) (ty : Ty) (d a : Operand) (k w : BitVec 2) (r : BitVec 9) (i : Instr) (s s1 : State) (t0 : TRef), i ∈ [Instr.lg2 c d a, .ex2 c d a, .rcp c d a, .rsq c d a, .sqrt c d a, .qswap c ty k d a, .qbcast c ty k d a, .getsr c ty w d r, .yield c] ∧
      Runs c i s t0 s1 ∧ midClause s = true) :=
  ⟨⟨wc, .mad wc .i8 true (.v 255) (.v 0) (.v 2) (.v 3), 6, w2, rfl, by decide +kernel⟩,
   ⟨wc, w2, _, rfl, by decide +kernel⟩,
   ⟨wc, .b32, .v 255, .v 0, 0, 0, 0x10, .rcp wc (.v 255) (.v 0), w0, w0.mark wc, .thr 1 0, by simp, ⟨by decide +kernel, rfl⟩, by decide +kernel⟩⟩

theorem wit_MemoryReadsBack :
    (∃ (m : Memory) (pa : Nat) (data : List Byte), m.wf = true ∧ pa % 2 ^ 48 + data.length ≤ 2 ^ 48)
    ∧ (∃ m : Memory, m.wf = true)
    ∧ (∃ m : Memory, m.wf = true ∧ m.l2Ok = true) :=
  ⟨⟨Memory.reset, 2 ^ 48 - 1, [1], rfl, by decide +kernel⟩,
   ⟨Memory.reset, rfl⟩,
   ⟨wL2.mem, by decide +kernel⟩⟩

theorem wit_ScratchpadStoresFrame :
    (∃ (c : Ctl) (ty : Ty) (vec : BitVec 2) (a b : Operand) (off : BitVec 12) (s s1 : State) (t0 : TRef) (core o : Nat) (data : List Byte),
      Runs c (.sts c ty vec a b off) s t0 s1 ∧
      midClause s = true ∧
      s1.spadAcqHeld t0 = false ∧
      s1.relHeld t0 = false ∧
      ((s1.relFlush t0).ctx t0).quant = false ∧
      data = storeData ty (vecCount vec) (s1.dataWords t0 ty b (vecRegs ty vec)) ∧
      (s1.spadPlace t0 (s1.spadAddr t0 a off) (vecCount vec * tyWidth ty / 8)).map (·.2) = some (core, o) ∧
      (s1.relFlush t0).spadWriteHeld t0 core o (vecCount vec * tyWidth ty / 8) = false ∧
      s.formOk = true)
    ∧ (∃ (c : Ctl) (ty : Ty) (vec : BitVec 2) (a b : Operand) (off : BitVec 12) (s s1 : State) (t0 : TRef) (core o : Nat) (data : List Byte),
      Runs c (.sts c ty vec a b off) s t0 s1 ∧
      midClause s = true ∧
      s1.spadAcqHeld t0 = false ∧
      s1.relHeld t0 = false ∧
      ((s1.relFlush t0).ctx t0).quant = false ∧
      data = storeData ty (vecCount vec) (s1.dataWords t0 ty b (vecRegs ty vec)) ∧
      (s1.spadPlace t0 (s1.spadAddr t0 a off) (vecCount vec * tyWidth ty / 8)).map (·.2) = some (core, o) ∧
      (s1.relFlush t0).spadWriteHeld t0 core o (vecCount vec * tyWidth ty / 8) = false ∧
      s.formOk = true ∧
      (s1.thread t0).rel = []) :=
  ⟨⟨wc, .b32, 0, .v 14, .v 3, 0, wSpadEnd, wSpadEnd.mark wc, .thr 1 0, 0, 16380, _, ⟨by decide +kernel, rfl⟩, by decide +kernel, by decide +kernel, by decide +kernel, by decide +kernel, rfl, by decide +kernel⟩,
   ⟨wc, .b32, 0, .v 14, .v 3, 0, wSpadEnd, wSpadEnd.mark wc, .thr 1 0, 0, 16380, _, ⟨by decide +kernel, rfl⟩, by decide +kernel, by decide +kernel, by decide +kernel, by decide +kernel, rfl, by decide +kernel⟩⟩

theorem wit_StoresFrame :
    ∃ (c : Ctl) (ty : Ty) (scope : Scope) (vec : BitVec 2) (a b : Operand) (off : BitVec 12) (s s1 : State) (t0 : TRef),
      Runs c (.st c ty false scope vec a b off) s t0 s1 ∧
      midClause s = true ∧
      s1.acqOpenLoad t0 = false ∧
      (s1.ctx t0).quant = false ∧
      (s1.access t0 (s1.addr t0 a off) (vecCount vec * tyWidth ty / 8) true false [(s1.addr t0 a off).toNat]).isOk = true ∧ s.formOk = true :=
  ⟨wc, .b32, .wave, 0, .v 0, .v 3, 0, w0, w0.mark wc, .thr 1 0, ⟨by decide +kernel, rfl⟩, by decide +kernel⟩

theorem wit_BankFrame :
    ∃ (bm : BitVec 4) (as : BitVec 2) (f : Bool) (x : BitVec 3) (i16 : BitVec 16) (i23 : BitVec 23) (i : Instr) (s : State) (r : BgRun), i ∈ [Instr.bgMac bm as f, .bgAdd bm as, .bgMax bm as, .bgScale bm as i16, .bgScaleScl x i16, .bgZero bm as, .bgLdx x i23, .bgAddx x i23, .bgNopc, .bgSync, .bgClose bm] ∧ bgGo s r = true :=
  ⟨15, 3, false, 0, 0, 0, .bgNopc, wBg, (wRunOf wBg), by simp, by decide +kernel⟩

theorem wit_StepRunsDecoded :
    (∃ (s : State) (core slice : Nat) (rest : List Turn) (cd : Cand) (st : Option TRef) (i : Instr), s.bootMode ≠ 0 ∧
      s.turns = .gang core slice :: rest ∧
      (s.coreAt core).issued.contains slice = false ∧
      (({ s with tick := s.tick + 1, turns := rest } : State).slicePrepared core slice).choice core slice = some (cd, st) ∧ decode cd.word = some i)
    ∧ (∃ (s : State) (core slice : Nat) (rest : List Turn) (cd : Cand) (st : Option TRef), s.bootMode ≠ 0 ∧
      s.turns = .gang core slice :: rest ∧
      (s.coreAt core).issued.contains slice = false ∧
      (({ s with tick := s.tick + 1, turns := rest } : State).slicePrepared core slice).choice core slice = some (cd, st) ∧ decode cd.word = none)
    ∧ (∃ (s : State) (core slice : Nat) (t : TRef) (cd : Cand), s.readyCand core slice t = some cd)
    ∧ (∃ (s : State) (rest : List Turn) (e : Nat) (i : Instr), s.bootMode ≠ 0 ∧ s.turns = .engine e :: rest ∧ (s.engine e).pc < 256 ∧ decodeBg ((s.engine e).store.getD (s.engine e).pc 0) = some i)
    ∧ (∃ (s : State) (rest : List Turn) (i : Instr), s.bootMode ≠ 0 ∧ s.turns = .event i :: rest ∧ isEvent i = true)
    ∧ (∃ (s : State) (rest : List Turn) (id : Nat) (h w : W96) (i : Instr), s.bootMode ≠ 0 ∧
      s.turns = .callee id :: rest ∧
      (({ s with tick := s.tick + 1, turns := rest } : State).callee? id).isSome = true ∧
      (({ s with tick := s.tick + 1, turns := rest } : State).thread (.callee id)).timeUp s.clk = true ∧
      (({ s with tick := s.tick + 1, turns := rest } : State).thread (.callee id)).slot ≠ 0 ∧
      (({ s with tick := s.tick + 1, turns := rest } : State).fetch (.callee id) (({ s with tick := s.tick + 1, turns := rest } : State).thread (.callee id)).pc).got = some h ∧
      (({ s with tick := s.tick + 1, turns := rest } : State).fetch (.callee id) (slotAddr (({ s with tick := s.tick + 1, turns := rest } : State).thread (.callee id)).pc (({ s with tick := s.tick + 1, turns := rest } : State).thread (.callee id)).slot)).got = some w ∧
      (({ s with tick := s.tick + 1, turns := rest } : State).fetch (.callee id) (slotAddr (({ s with tick := s.tick + 1, turns := rest } : State).thread (.callee id)).pc (({ s with tick := s.tick + 1, turns := rest } : State).thread (.callee id)).slot)).st.wouldIssue (({ s with tick := s.tick + 1, turns := rest } : State).ctx (.callee id)).core 0 (headerOf h) w [.callee id] = true ∧
      decode w = some i) :=
  ⟨⟨wStep, 0, 0, [], wCand, none, .nop wc, by decide +kernel, rfl, by decide +kernel⟩,
   ⟨wStepBad, 0, 0, [], wCandBad, none, by decide +kernel, rfl, by decide +kernel⟩,
   ⟨wStep.slicePrepared 0 0, 0, 0, .thr 1 0, wCand, by decide +kernel⟩,
   ⟨State.reset.withFetchWord 32 0, [], 0, .bgEnd, by decide +kernel⟩,
   ⟨{ w0 with turns := [.event .moduleReset] }, [], .moduleReset, by decide +kernel, rfl, by decide +kernel⟩,
   ⟨wStepCallee, [], 9, wHeader 0, wNop, .nop wc, by decide +kernel, rfl, by decide +kernel⟩⟩

theorem wit_NativeRoundTrip :
    (∃ (i : Instr) (w : W96), i.wf = true ∧ encode i = some w)
    ∧ (∃ (i : Instr) (w : W96), decode w = some i) :=
  ⟨⟨.nop wc, _, rfl, rfl⟩,
   ⟨.nop wc, 0x0007C00C00C00C0000000000, by decide +kernel⟩⟩

theorem wit_CommandRoundTrip :
    (∃ (i : Instr) (w : W32), i.wf = true ∧ encodeBg i = some w)
    ∧ (∃ (i : Instr) (w : W32), decodeBg w = some i)
    ∧ (∃ w : W32, 0x17 ≤ (w.extractLsb' 26 6).toNat) :=
  ⟨⟨.bgNopc, _, rfl, rfl⟩,
   ⟨.bgEnd, 0, by decide +kernel⟩,
   ⟨0x5C000000, by decide⟩⟩

theorem wit_MemoryFormKept :
    ∃ s t : State, s.formOk = true ∧ step s = .next t :=
  ⟨State.reset, _, rfl, rfl⟩

end Sys2Proof.Tests
end

section
/-! SUPPORT. The writes that a home performs leave the host block alone: what its registers, its rings and its list of code
objects hold is not memory. -/

namespace Sys2Proof.Machine

/-- Steps that each keep the host block keep it together. -/
theorem foldl_boot {α : Type} {f : State → α → State} (hf : ∀ s x, (f s x).boot = s.boot) (l : List α) (s : State) :
    (l.foldl f s).boot = s.boot :=
  List.foldlRecOn l f (motive := fun t => t.boot = s.boot) rfl fun t ht x _ => (hf t x).trans ht

@[simp] theorem State.testWrite_boot (s : State) (pa : Nat) : (s.testWrite pa).boot = s.boot := by
  simp only [State.testWrite]
  split
  · split <;> rfl
  · rfl

@[simp] theorem State.writeback_boot (s : State) (base : Nat) (keep : Bool) : (s.writeback base keep).boot = s.boot := by
  simp only [State.writeback]
  cases s.mem.sector? base with
  | none => rfl
  | some x =>
    simp only
    split
    · exact s.testWrite_boot x.base
    · rfl

/-- Room for a line is made by writing sectors back. -/
theorem State.l2Room_boot {s t : State} {pa : Nat} (h : s.l2Room pa = some t) : t.boot = s.boot := by
  simp only [State.l2Room] at h
  split at h
  · cases h; rfl
  · obtain ⟨l, -, rfl⟩ := Option.map_eq_some_iff.mp h
    exact foldl_boot (fun s b => s.writeback_boot b false) _ s

@[simp] theorem State.l2RoomAll_boot (s : State) (pa n : Nat) : (s.l2RoomAll pa n).boot = s.boot := by
  refine foldl_boot (fun s b => ?_) _ s
  cases h : s.l2Room b with
  | none => rfl
  | some t => exact State.l2Room_boot h

@[simp] theorem State.pokeWindow_boot (s : State) (pa : Nat) (data : List Byte) : (s.pokeWindow pa data).boot = s.boot := by
  simp only [State.pokeWindow]
  split
  · split <;> rfl
  · rfl
  · rfl

@[simp] theorem State.wake_boot (s : State) (pa n : Nat) : (s.wake pa n).boot = s.boot := rfl

@[simp] theorem State.markDirty_boot (s : State) (pa n : Nat) : (s.markDirty pa n).boot = s.boot := rfl

@[simp] theorem State.perform_boot (s : State) (pa : Nat) (data : List Byte) (bypass : Bool) :
    (s.perform pa data bypass).boot = s.boot := by
  simp only [State.perform]
  split
  · exact s.pokeWindow_boot pa data
  · cases bypass with
    | false => simp
    | true => simp [foldl_boot State.testWrite_boot]

@[simp] theorem State.passAhead_boot (s : State) (l : List (Nat × Scope)) : (s.passAhead l).boot = s.boot := by
  simp only [State.passAhead]
  split <;> rfl

@[simp] theorem State.l1Drop_boot (s : State) (core pa len : Nat) : (s.l1Drop core pa len).boot = s.boot := rfl

@[simp] theorem State.performQueued_boot (s : State) (e : QWrite) : (s.performQueued e).boot = s.boot := by
  simp only [State.performQueued]
  split
  · cases e.issuer <;> simp
  · split <;> simp

/-- Making a queued write visible performs queued writes or raises them in the queue, whatever must come before it. -/
theorem State.force_boot (n : Nat) (r : Reach) (s : State) (id : Nat) : (State.force n r s id).boot = s.boot := by
  induction n generalizing r s id with
  | zero => rfl
  | succ n ih =>
    simp only [State.force]
    split
    · rfl
    · split
      · rfl
      · split
        · split <;> simp [foldl_boot, ih]
        · simp [foldl_boot, ih]

@[simp] theorem State.settle_boot (s : State) (pa len : Nat) : (s.settle pa len).boot = s.boot :=
  foldl_boot (fun s id => State.force_boot _ _ s id) _ s

/-- The pages of a loaded object are writes: the loader's list of objects is as before (R457). -/
theorem State.mapPages_boot {root : Nat} {l : List ((Nat × List Byte × Bool × Bool) × Nat)} {s t : State}
    (h : s.mapPages root l = some t) : t.boot = s.boot := by
  induction l generalizing s with
  | nil => cases h; rfl
  | cons x l ih =>
    simp only [State.mapPages] at h
    split at h
    · exact ih h
    · split at h
      · cases h
      · split at h
        · simpa using ih h
        · split at h
          · cases h
          · simpa using ih h

end Sys2Proof.Machine
end

section
/-! SUPPORT. What the host's events answer where they act: resets, BAR2, alarms, soft errors, the loader and the registers. -/

namespace Sys2Proof.Machine

/-- The bytes staged in recovery, from offset 0 to the last one written, the gaps zero (R451). -/
def State.stagedImage (s : State) : List Byte :=
  (List.range ((s.boot.staged.map (·.1 + 1)).max?.getD 0)).map fun a => (cellFind s.boot.staged a).getD 0

theorem execBootCmd_recovery {v : W32} {s : State} (hv : v.getLsbD 0 = true) (hm : s.bootMode = bootRecovery) :
    execBootCmd v s = .next (s.bootRun s.stagedImage) := by
  simp [execBootCmd, hv, hm, State.stagedImage]

theorem execAttCmd_idle {v : W64} {s : State} (h : s.boot.attStat.getLsbD 0 = false) :
    execAttCmd v s = .next
      ({ s with boot := { s.boot with attStat := 1, att := some ((v.extractLsb' 6 51).toNat * 64) } } : State).attGo := by
  simp only [execAttCmd, h, Bool.false_eq_true, if_false]

theorem execDbgCtl_permitted {v : W32} {s : State} (h : s.boot.debugOk = true) :
    execDbgCtl v s = .next { s with boot := { s.boot with dbg := v &&& 1 } } := by
  simp only [execDbgCtl, h, if_true]

/-- A host access of a length within R447 in a ready device, to places that exist and are translated, comes down to the
landing or the reading of its spans. -/
theorem execBar2Access_placed {write : Bool} {off len n : Nat} {data : List Byte} {s : State} {rs : List Range}
    (hn : (if write then data.length else len) = n) (hpos : 0 < n) (hmax : n ≤ 256) (hoff : off + n ≤ 2 ^ 39)
    (hboot : s.bootMode ≠ 0) (hrec : s.bootMode ≠ bootRecovery) (hp : s.hostPlaces (s.bar2Base + off) n = some rs)
    (hats : (rs.find? fun r => paHome r.pa == 8 && !s.boot.ats.contains (r.pa / 2 ^ 12)) = none) :
    execBar2Access write off len data s =
      if write then
        if !s.landReady (s.spansOf rs) then .next s
        else .next ((s.landFrom .host 0 s.nextId (s.spansOf rs) data).setReply (some []))
      else if !s.spansReadable (s.spansOf rs) then .next s
      else .next ((s.readSpans (dieReader .host 0) (s.spansOf rs) off n).2.setReply
        (some (s.readSpans (dieReader .host 0) (s.spansOf rs) off n).1)) := by
  have hlen : (n = 0 || 256 < n || 2 ^ 39 < off + n : Bool) = false := by
    simp only [Bool.or_eq_false_iff, decide_eq_false_iff_not]
    omega
  simp only [execBar2Access, hn, hlen, hboot, hrec, hp, hats, if_false, Bool.false_eq_true]

/-- Where the oldest record goes: the slot of the ring that ER_TAIL names (R412). -/
def State.errSlot (s : State) : Nat :=
  (s.cp.erBase.extractLsb' 5 47).toNat * 32 + s.cp.erTail.toNat % erSlots s.cp.erSize * 32

/-- The state once a record stands in its slot. -/
def State.errStored (s : State) (r : ErrRec) : State :=
  (s.settle s.errSlot 32).perform s.errSlot (r.bytes s.cp.erLoss) false

theorem execErrorRecordWrite_free {s : State} {r : ErrRec} {rest : List ErrRec} (hheld : s.cp.erHeld = r :: rest)
    (hon : s.cp.erSize.getLsbD 4 = true) (hfirst : paDevice s.errSlot = true) (hlast : paDevice (s.errSlot + 31) = true)
    (hroom : (s.cp.erTail - s.cp.erHead).toNat < erSlots s.cp.erSize) (hready : s.sliceReady s.errSlot 32 false = true) :
    execErrorRecordWrite s = .next { s.errStored r with
      cp := { (s.errStored r).cp with erHeld := rest, erTail := (s.errStored r).cp.erTail + 1, erLoss := false }
      boot := { (s.errStored r).boot with msix := (s.errStored r).boot.msix.modify 0 (· + 1) } } := by
  have hgo : (!s.cp.erSize.getLsbD 4 || !paDevice s.errSlot || !paDevice (s.errSlot + 31) ||
      erSlots s.cp.erSize ≤ (s.cp.erTail - s.cp.erHead).toNat || !s.sliceReady s.errSlot 32 false : Bool) = false := by
    simp only [hon, hfirst, hlast, hready, decide_eq_false (Nat.not_le.mpr hroom), Bool.not_true, Bool.or_false]
  unfold State.errSlot at hgo
  simp only [execErrorRecordWrite, hheld, hgo, Bool.false_eq_true, if_false]
  rfl

/-- Sensor bits widened to a word are none only where there are none. -/
theorem sensor_word_ne_zero {x : BitVec 6} (h : x ≠ 0) : (x.zeroExtend 32 : W32) ≠ 0 := by
  bv_omega

@[simp] theorem State.pushErr_mem (s : State) (kind part : Nat) (src : W16) (addr detail : W64) :
    (s.pushErr kind part src addr detail).mem = s.mem := by
  simp only [State.pushErr]
  split <;> rfl

@[simp] theorem State.pushErr_groups (s : State) (kind part : Nat) (src : W16) (addr detail : W64) :
    (s.pushErr kind part src addr detail).groups = s.groups := by
  simp only [State.pushErr]
  split <;> rfl

theorem execAlarmLevel1_raises {sensor : BitVec 6} {s : State} (h : sensor &&& 7 ≠ 0) :
    execAlarmLevel1 sensor s = .next (s.raiseOne ((sensor &&& 7).zeroExtend 32)) := by
  simp only [execAlarmLevel1, sensor_word_ne_zero h, if_false]

/-- Before level 2, the level-1 alarm of the same sensors, where they have one (R453). -/
def State.levelOneFirst (s : State) (x : W32) : State := if x &&& 7 = 0 then s else s.raiseOne (x &&& 7)

theorem execAlarmLevel2_erases {sensor : BitVec 6} {s : State} {x : W32} (hx : x = (sensor &&& 15).zeroExtend 32)
    (h : sensor &&& 15 ≠ 0) (hfirst : (s.levelOneFirst x).boot.alarm.extractLsb' 0 2 ≠ 2) :
    execAlarmLevel2 sensor s = .next (({ (s.levelOneFirst x).setAlarm 2 x with
      boot := { ((s.levelOneFirst x).setAlarm 2 x).boot with activation := none, keysErased := true } } : State).pushErr
        19 0xFFFF srcSec 0 0) := by
  subst hx
  have htwo : ((s.levelOneFirst ((sensor &&& 15).zeroExtend 32)).boot.alarm.extractLsb' 0 2 == 2) = false :=
    beq_eq_false_iff_ne.mpr hfirst
  unfold State.levelOneFirst at htwo
  simp only [execAlarmLevel2, sensor_word_ne_zero h, htwo, if_false, Bool.false_eq_true]
  rfl

/-- A corrected error marks at most the status of a core. -/
theorem execSoftErrorCorrected_records (src : BitVec 16) (cls : BitVec 8) (pa : W64) (s : State) :
    ∃ t, execSoftErrorCorrected src cls pa s = .next t ∧
      t.cp = (s.pushErr 16 0xFFFF src 0 ((pa <<< 8) ||| cls.zeroExtend 64)).cp ∧ t.mem = s.mem ∧ t.groups = s.groups := by
  refine ⟨_, rfl, ?_⟩
  split <;> simp

/-- An uncorrectable error marks rows or an engine bad, or loses a call: the record apart, neither the command processor
nor memory nor a group takes part. -/
theorem execUncorrectableError_records (src : BitVec 16) (cls : BitVec 8) (pa : W64) (s : State) :
    ∃ t, execUncorrectableError src cls pa s = .next t ∧
      t.cp = (s.pushErr 17 0xFFFF src 0 0).cp ∧ t.mem = s.mem ∧ t.groups = s.groups := by
  simp only [execUncorrectableError]
  split
  · exact ⟨_, rfl, by simp⟩
  · exact ⟨_, rfl, by simp⟩
  · split
    · exact ⟨_, rfl, by split <;> simp⟩
    · exact ⟨_, rfl, by simp⟩
  · exact ⟨_, rfl, by split <;> simp⟩

theorem State.loadedObj_failed {obj : List Byte} {s : State} (text data : W64) (h : (s.loadCheck obj).status ≠ loadOk) :
    s.loadedObj obj text data = ⟨(s.loadCheck obj).status, [], []⟩ := by
  simp only [State.loadedObj, h, if_false]

theorem State.loadedObj_ok {obj d : List Byte} {s : State} {text data tva dva : W64} (h : (s.loadCheck obj).status = loadOk)
    (hd : d = sliceB obj (objOf obj).data (objOf obj).dlen) (htva : tva = sectionVa text)
    (hdva : dva = dataVa text data (s.loadCheck obj).text d) :
    s.loadedObj obj text data =
      ⟨loadOk, relocated (objOf obj) obj (s.loadCheck obj).gw tva dva, objSections obj (s.loadCheck obj).text d tva dva⟩ := by
  simp only [State.loadedObj, h, if_true, hdva, htva, hd]

/-- An object that fails a check of R443 has no sections, and so no page to map. -/
theorem execCodeObjectLoad_failed {obj : List Byte} {text data : W64} {s : State} (h : (s.loadCheck obj).status ≠ loadOk) :
    execCodeObjectLoad obj text data s = .next
      { s with boot := { s.boot with objects := s.boot.objects ++ [⟨(s.loadCheck obj).status, [], []⟩] } } := by
  have hplaced : s.objPlaced ⟨(s.loadCheck obj).status, [], []⟩ =
      some { s with boot := { s.boot with objects := s.boot.objects ++ [⟨(s.loadCheck obj).status, [], []⟩] } } := by
    simp only [State.objPlaced]
    split <;> rfl
  simp only [execCodeObjectLoad, State.loadedObj_failed text data h, hplaced]

/-- An object whose pages can be written is entered last in the loader's list. -/
theorem State.objPlaced_objects {s t : State} {out : LoadedObj} (h : s.objPlaced out = some t) :
    t.boot.objects = s.boot.objects ++ [out] := by
  simp only [State.objPlaced] at h
  split at h
  · cases h; rfl
  · rw [State.mapPages_boot h]

theorem execCodeObjectLoad_placed {obj : List Byte} {text data : W64} {s : State}
    (h : (s.objPlaced (s.loadedObj obj text data)).isSome = true) :
    ∃ t, execCodeObjectLoad obj text data s = .next t ∧ t.boot.objects = s.boot.objects ++ [s.loadedObj obj text data] := by
  obtain ⟨t, ht⟩ := Option.isSome_iff_exists.mp h
  exact ⟨t, by simp only [execCodeObjectLoad, ht], State.objPlaced_objects ht⟩

theorem execCoreKick_room {core : Nat} {v : W64} {s : State} (hcore : core < 1024) (hunit : core % 256 < 160)
    (hroom : s.kickFull core = false) (hdbg : s.boot.dbg.getLsbD 0 = true) :
    execCoreKick core v s = .next (s.kickHead core v none) := by
  simp only [execCoreKick, hroom, hdbg, decide_eq_false (Nat.not_le.mpr hcore), decide_eq_false (Nat.not_le.mpr hunit),
    Bool.or_false, Bool.not_true, Bool.false_eq_true, if_false]

theorem execPartRect_apart {n : Nat} {v : W32} {s : State} (hn : n < 16)
    (hclash : (s.cp.parts.zipIdx.any fun p => p.2 != n && rectsMeet (v &&& 0x7FFF) p.1.rect) = false) :
    execPartRect n v s = .next (s.updPart n fun p =>
      { p with rect := v &&& 0x7FFF, stopped := false, reserved := if p.handler = 0 then .none else .unread }) := by
  simp only [execPartRect, hclash, decide_eq_false (Nat.not_le.mpr hn), Bool.or_false, Bool.false_eq_true, if_false]

/-- PART_HANDLERn waits for the handler group that runs, and else takes hold (R418). -/
theorem execPartHandler_valid {n : Nat} {v : W64} {s : State} (hn : n < 16) :
    execPartHandler n v s = .next (if (s.handlerGroup n).isSome then
      s.updPart n fun p => { p with handlerNext := some (v &&& 0x1FFFFFFFFFFFFFF) }
      else s.setHandler n (v &&& 0x1FFFFFFFFFFFFFF)) := by
  simp only [execPartHandler, Nat.not_le.mpr hn, if_false]
  split <;> rfl

theorem execFabId_idle {v : W32} {s : State} (hidle : s.fabIdle = true) (hok : fabOk (v &&& 0x0FFF0FFF) s.fab.ctl = true) :
    execFabId v s = .next (s.updFab fun f => { f with id := v &&& 0x0FFF0FFF }) := by
  simp only [execFabId, hidle, hok, Bool.and_self, if_true]

theorem execFabCtl_idle {v : W32} {s : State} (hidle : s.fabIdle = true) (hok : fabOk s.fab.id (v &&& 3) = true) :
    execFabCtl v s = .next (s.updFab fun f =>
      { f with ctl := v &&& 3, lanes := if (v &&& 3).getLsbD 0 then f.lanes else List.replicate 18 0 }) := by
  simp only [execFabCtl, hidle, hok, Bool.and_self, if_true]

theorem execFabRoot_idle {v : W64} {s : State} (hidle : s.fabIdle = true) :
    execFabRoot v s = .next (s.updFab fun f => { f with root := v &&& 0x000FFFFFFFFF0001 }) := by
  simp only [execFabRoot, hidle, if_true]

theorem execRegisterWrite_at {wide : Bool} {off : Nat} {v : W64} {s : State} {r : Reg} (hr : regAt off = some r)
    (hw : r.wide = wide) : execRegisterWrite wide off v s = .next (s.regWrite r v) := by
  simp only [execRegisterWrite, State.ctlPut, hr, hw, beq_self_eq_true, if_true]

theorem execRegisterWrite_nowhere {wide : Bool} {off : Nat} {v : W64} {s : State} (hr : regAt off = none) :
    execRegisterWrite wide off v s = .next s := by
  simp only [execRegisterWrite, State.ctlPut, hr]

/-- Settles O40: every event answers by its own meaning, on the branch that the hypotheses select; the resets, CP_PUSH,
the power shares and PA_TABLEID have no other branch. -/
theorem hostEventsComplete : Obligations.HostEventsComplete := by
  unfold Obligations.HostEventsComplete
  refine ⟨?moduleReset, ?pcieReset, ?bootCmd, ?attCmd, ?dbgCtl, ?bar2Write, ?bar2Read, ?errorRecord, ?alarm1, ?alarm2,
    ?softError, ?uncorrectable, ?loadFailed, ?loadPlaced, ?coreKick, ?cpPush, ?partRect, ?partHandler, ?paShares, ?paBank,
    ?paTableid, ?fabId, ?fabCtl, ?fabRoot, ?regAt, ?regNowhere⟩
  case moduleReset => exact fun s => rfl
  case pcieReset => exact fun s => rfl
  case bootCmd => exact fun v s => execBootCmd_recovery
  case attCmd => exact fun v s => execAttCmd_idle
  case dbgCtl => exact fun v s => execDbgCtl_permitted
  case bar2Write =>
    intro write off len data s rs hw hdata hmax hoff hboot hrec hp hats hready
    subst hw
    have hpos : 0 < data.length := List.length_pos_iff.mpr hdata
    refine (execBar2Access_placed (write := true) (len := len) rfl hpos hmax hoff hboot hrec hp hats).trans ?_
    simp only [hready, if_true, Bool.not_true, Bool.false_eq_true, if_false]
  case bar2Read =>
    intro write off len data s rs hw hpos hmax hoff hboot hrec hp hats hready
    subst hw
    refine (execBar2Access_placed (write := false) (data := data) rfl hpos hmax hoff hboot hrec hp hats).trans ?_
    simp only [hready, Bool.not_true, Bool.false_eq_true, if_false]
  case errorRecord =>
    intro s r rest hheld hon hfirst hlast hroom hready
    exact execErrorRecordWrite_free hheld hon hfirst hlast hroom hready
  case alarm1 => exact fun sensor s => execAlarmLevel1_raises
  case alarm2 => exact fun sensor s h hfirst => execAlarmLevel2_erases rfl h hfirst
  case softError => exact execSoftErrorCorrected_records
  case uncorrectable => exact execUncorrectableError_records
  case loadFailed => exact fun obj text data s => execCodeObjectLoad_failed
  case loadPlaced =>
    intro obj text data s h
    obtain ⟨t, ht, hobjects⟩ := execCodeObjectLoad_placed h
    refine ⟨t, ht, hobjects.trans ?_⟩
    split
    case isTrue hok => rw [State.loadedObj_ok hok rfl rfl rfl]
    case isFalse hbad => rw [State.loadedObj_failed text data hbad]
  case coreKick => exact fun core v s => execCoreKick_room
  case cpPush => exact fun q v s => rfl
  case partRect => exact fun n v s => execPartRect_apart
  case partHandler => exact fun n v s => execPartHandler_valid
  case paShares => exact fun n v s => rfl
  case paBank => exact fun v s => rfl
  case paTableid => exact fun v s => rfl
  case fabId => exact fun v s => execFabId_idle
  case fabCtl => exact fun v s => execFabCtl_idle
  case fabRoot => exact fun v s => execFabRoot_idle
  case regAt => exact fun wide off v s r => execRegisterWrite_at
  case regNowhere => exact fun wide off v s => execRegisterWrite_nowhere

end Sys2Proof.Machine
end

section
/-! SUPPORT. Modifier bits, operand fields and whole words read back (R29 to R34). -/

namespace Sys2Proof

/-! Modifiers (R31). -/

theorem getLsbD_mAt {w : Nat} (i j : Nat) (x : BitVec w) (h : i + w ≤ 20) :
    (mAt i x).getLsbD j = (decide (i ≤ j) && x.getLsbD (j - i)) := by
  simp only [mAt, BitVec.getLsbD_shiftLeft, BitVec.zeroExtend, BitVec.getLsbD_setWidth]
  by_cases hj : i ≤ j
  · by_cases hw : j - i < w
    · simp [hj, show j < 20 by omega, show j - i < 20 by omega]
    · simp [BitVec.getLsbD_of_ge x (j - i) (by omega)]
  · simp [hj, show j < i by omega]

theorem getLsbD_mBit (i j : Nat) (b : Bool) (h : i < 20) : (mBit i b).getLsbD j = (decide (j = i) && b) := by
  cases b
  · simp [mBit]
  · have h1 : mBit i true = mAt i (1#1) := rfl
    rw [h1, getLsbD_mAt i j _ (by omega), BitVec.getLsbD_one]
    grind

@[simp] theorem mAt_field {w : Nat} (i : Nat) (x : BitVec w) (h : i + w ≤ 20) : (mAt i x).extractLsb' i w = x := by
  ext j hj
  simp [getLsbD_mAt _ _ _ h, BitVec.getLsbD_eq_getElem hj]

@[simp] theorem mAt_field_apart {w : Nat} (i k n : Nat) (x : BitVec w) (hi : i + w ≤ 20) (h : i + w ≤ k ∨ k + n ≤ i) :
    (mAt i x).extractLsb' k n = 0 := by
  ext j hj
  simp only [BitVec.getElem_extractLsb', getLsbD_mAt _ _ _ hi, BitVec.ofNat_eq_ofNat, BitVec.getElem_zero, Bool.and_eq_false_imp,
    decide_eq_true_eq]
  exact fun _ => BitVec.getLsbD_of_ge _ _ (by omega)

@[simp] theorem mBit_field_apart (i k n : Nat) (b : Bool) (hi : i < 20) (h : i < k ∨ k + n ≤ i) :
    (mBit i b).extractLsb' k n = 0 := by
  ext j hj
  simp only [BitVec.getElem_extractLsb', getLsbD_mBit _ _ _ hi, BitVec.ofNat_eq_ofNat, BitVec.getElem_zero, Bool.and_eq_false_imp,
    decide_eq_true_eq]
  omega

@[simp] theorem mAt_bit_apart {w : Nat} (i j : Nat) (x : BitVec w) (hj : j < 20) (hi : i + w ≤ 20) (h : i + w ≤ j ∨ j < i) :
    (mAt i x)[j] = false := by
  simp only [← BitVec.getLsbD_eq_getElem hj, getLsbD_mAt _ _ _ hi, Bool.and_eq_false_imp, decide_eq_true_eq]
  exact fun _ => BitVec.getLsbD_of_ge _ _ (by omega)

@[simp] theorem mBit_bit (i : Nat) (b : Bool) (h : i < 20) : (mBit i b)[i] = b := by
  simp [← BitVec.getLsbD_eq_getElem h, getLsbD_mBit _ _ _ h]

@[simp] theorem mBit_bit_apart (i j : Nat) (b : Bool) (hj : j < 20) (hi : i < 20) (h : j ≠ i) : (mBit i b)[j] = false := by
  simp [← BitVec.getLsbD_eq_getElem hj, getLsbD_mBit _ _ _ hi, h]

@[simp] theorem mAt_zero (i w : Nat) : mAt i (0#w) = 0 := by simp [mAt]

@[simp] theorem mTy_eq (t : Ty) : mTy t = mAt 0 t.code := rfl
@[simp] theorem mRnd_eq (r : Rnd) : mRnd r = mAt 4 r.code := rfl

@[simp] theorem Fields.bit_eq (f : Fields) (j : Nat) : f.bit j = f.m.getLsbD j := rfl
@[simp] theorem Fields.ty_eq (f : Fields) : f.ty = Ty.ofCode (f.m.extractLsb' 0 4) := rfl
@[simp] theorem Fields.rnd_eq (f : Fields) : f.rnd = Rnd.ofCode (f.m.extractLsb' 4 2) := rfl
@[simp] theorem Operand.srNo_sr (n : BitVec 9) : (Operand.sr n).srNo = some n := rfl

@[simp] theorem Ty.ofCode_code (t : Ty) : Ty.ofCode t.code = some t := by cases t <;> rfl
@[simp] theorem Rnd.ofCode_code (r : Rnd) : Rnd.ofCode r.code = r := by cases r <;> rfl
@[simp] theorem Scope.ofCode_code (s : Scope) : Scope.ofCode s.code = some s := by cases s <;> rfl
@[simp] theorem Cmp.ofCode_code (x : Cmp) : Cmp.ofCode x.code = x := by cases x <;> rfl
@[simp] theorem Merge.ofCode_code (x : Merge) : Merge.ofCode x.code = x := by cases x <;> rfl
@[simp] theorem PBool.ofCode_code (x : PBool) : PBool.ofCode x.code = x := by cases x <;> rfl
@[simp] theorem AtomOp.ofCode_code (x : AtomOp) : AtomOp.ofCode x.code = some x := by cases x <;> rfl
@[simp] theorem RedOp.ofCode_code (x : RedOp) : RedOp.ofCode x.code = some x := by cases x <;> rfl
@[simp] theorem ShflMode.ofCode_code (x : ShflMode) : ShflMode.ofCode x.code = x := by cases x <;> rfl
@[simp] theorem VoteMode.ofCode_code (x : VoteMode) : VoteMode.ofCode x.code = x := by cases x <;> rfl
@[simp] theorem FenceKind.ofCode_code (x : FenceKind) : FenceKind.ofCode x.code = some x := by cases x <;> rfl
@[simp] theorem AtomOrder.ofCode_code (x : AtomOrder) : AtomOrder.ofCode x.code = x := by cases x <;> rfl
@[simp] theorem MldForm.ofCode_code (x : MldForm) : MldForm.ofCode x.code = x := by cases x <;> rfl

/-! Operand fields (R32, R33). -/

theorem Operand.eq_none_of_isNone {o : Operand} (h : o.isNone = true) : o = .none := by
  cases o with
  | none => rfl
  | _ => cases h

/-- An operand is no immediate where it would have to be of another kind (R32, R134). -/
theorem Operand.isImm_eq_false {o : Operand}
    (h : o.isV = false ∧ o.isP = false ∧ o.isNone = false ∧ o.isAcc = false ∧ o.evenV = false ∧ o.quadV = false ∧
      o.isVK = false ∧
      o.evenVK = false ∧ (∀ n, o.spanV n = false) ∧ (∀ t, o.dst t = false) ∧ (∀ t, o.srcR t = false) ∧
      (∀ t, o.data t = false) ∧ (∀ b t, destOne b t o = false) ∧ (∀ t v, o.dstVec t v = false) ∧
      (∀ t v, o.dstVecK t v = false) ∧
      (∀ t v, o.dataVec t v = false) ∧ o.srNo = Option.none ∧ (∀ t n a b, gatherOk t n o a b = false) ∧
      (∀ t n d a, gatherOk t n d a o = false) ∧ (∀ s n a, ldblkOk s n o a = false) → False) : o.isImm = false := by
  cases o with
  | imm x =>
    refine (h ⟨rfl, rfl, rfl, rfl, rfl, rfl, rfl, rfl, fun _ => rfl, fun t => ?_, fun _ => rfl, fun _ => rfl, fun _ _ => rfl,
      fun _ _ => rfl, fun _ _ => rfl, fun _ _ => rfl, rfl, fun _ _ _ _ => rfl, fun _ _ d _ => ?_, fun _ _ _ => rfl⟩).elim
    · unfold Operand.dst
      split <;> rfl
    · cases d <;> rfl
  | _ => rfl

theorem append_kind (k : BitVec 3) (n : BitVec 9) : (k ++ n).extractLsb' 9 3 = k := BitVec.extractLsb'_append_eq_left
theorem append_number (k : BitVec 3) (n : BitVec 9) : (k ++ n).extractLsb' 0 9 = n := BitVec.extractLsb'_append_eq_right

theorem opField_kind_imm (m : BitVec 20) (o : Operand) : (opField m o).extractLsb' 9 3 = 4#3 ↔ o.isImm = true := by
  cases o <;> simp [opField, append_kind, Operand.isImm]

theorem readOp_opField_plain {m : BitVec 20} {o : Operand} {x : BitVec 32} (h : o.isImm = false) :
    readOp (opField m o) x = some o := by
  rw [readOp_opField]
  cases o <;> simp_all [Operand.isImm]

/-- An immediate's own field holds M[8:0], the whole of M where M[19:9] is 0 (R33). -/
theorem zeroExtend_low {m : BitVec 20} (h : m.extractLsb' 9 11 = 0) : (m.extractLsb' 0 9).zeroExtend 20 = m := by
  ext i hi
  simp only [BitVec.zeroExtend, BitVec.getElem_setWidth, BitVec.getLsbD_extractLsb', Nat.zero_add]
  by_cases h9 : i < 9
  · simp [h9, BitVec.getLsbD_eq_getElem hi]
  · have := congrArg (·.getLsbD (i - 9)) h
    simp only [BitVec.getLsbD_extractLsb', BitVec.ofNat_eq_ofNat, BitVec.getLsbD_zero, show i - 9 < 11 by omega, decide_true,
      Bool.true_and, show 9 + (i - 9) = i by omega, BitVec.getLsbD_eq_getElem hi] at this
    simp [h9, this]

theorem setWidth_opField_imm {m : BitVec 20} {o : Operand} (ho : o.isImm = true) (h : m.extractLsb' 9 11 = 0) :
    ((opField m o).extractLsb' 0 9).setWidth 20 = m := by
  cases o with
  | imm x => rw [opField, append_number]; exact zeroExtend_low h
  | _ => cases ho

theorem Operand.eq_imm_of_isImm {o : Operand} (h : o.isImm = true) : ∃ x, o = .imm x := by
  cases o with
  | imm x => exact ⟨x, rfl⟩
  | _ => cases h

/-- Where neither source is an immediate EXT holds source C and M. -/
theorem extOf_plain {a b : Operand} (ha : a.isImm = false) (hb : b.isImm = false) (y : BitVec 12) (m : BitVec 20) :
    extOf a b y m = y ++ m := by
  unfold extOf
  split
  · cases ha
  · cases hb
  · rfl

theorem extOf_imm_right {a : Operand} (ha : a.isImm = false) (x : BitVec 32) (y : BitVec 12) (m : BitVec 20) :
    extOf a (.imm x) y m = x := by
  cases a with
  | imm y => cases ha
  | _ => rfl

/-! Immediates (R33, R171). -/

/-- The low bits of an immediate hold the number it extends. -/
@[simp] theorem extractLsb'_setWidth_self {n k : Nat} (x : BitVec n) (h : n ≤ k) : (x.setWidth k).extractLsb' 0 n = x := by
  ext i hi
  simp [show i < k by omega, BitVec.getLsbD_eq_getElem hi]

theorem xfenceImm_fields (p q : BitVec 7) (s : Scope) : (xfenceImm p q s).extractLsb' 0 7 = p ∧
    (xfenceImm p q s).extractLsb' 8 7 = q ∧ (xfenceImm p q s).extractLsb' 16 3 = s.code := by
  refine ⟨?_, ?_, ?_⟩ <;> ext i hi <;> simp [xfenceImm] <;> grind

/-! Words (R29). -/

theorem append_c (y : BitVec 12) (m : BitVec 20) : (y ++ m).extractLsb' 20 12 = y := BitVec.extractLsb'_append_eq_left
theorem append_m (y : BitVec 12) (m : BitVec 20) : (y ++ m).extractLsb' 0 20 = m := BitVec.extractLsb'_append_eq_right

theorem packWord_m (c : Ctl) (opc : BitVec 11) (d a b : BitVec 12) (ext : BitVec 32) :
    (packWord c opc d a b ext).extractLsb' 12 20 = ext.extractLsb' 0 20 := by
  conv_rhs => rw [← packWord_ext c opc d a b ext]
  ext i hi
  simp [show i < 32 by omega]

theorem packWord_c (c : Ctl) (opc : BitVec 11) (d a b : BitVec 12) (ext : BitVec 32) :
    (packWord c opc d a b ext).extractLsb' 32 12 = ext.extractLsb' 20 12 := by
  conv_rhs => rw [← packWord_ext c opc d a b ext]
  ext i hi
  simp [show 20 + i < 32 by omega, ← Nat.add_assoc]

/-- A word's own DST field put back in its place leaves the word. -/
theorem dst_put_back (w : W96) :
    (w &&& ~~~((0xFFF : W96) <<< 68)) ||| ((w.extractLsb' 68 12).zeroExtend 96 <<< 68) = w := by
  have hmask (i : Nat) (hi : i < 96) : (4095#96)[i] = decide (i < 12) := by
    rw [← BitVec.getLsbD_eq_getElem, show 4095#96 = (BitVec.allOnes 12).zeroExtend 96 from rfl]
    simp only [BitVec.zeroExtend, BitVec.getLsbD_setWidth, BitVec.getLsbD_allOnes, hi, decide_true, Bool.true_and]
  ext i hi
  simp only [BitVec.getElem_or, BitVec.getElem_and, BitVec.getElem_not, BitVec.getElem_shiftLeft, BitVec.zeroExtend]
  by_cases h : i < 68
  · simp [h]
  · by_cases h12 : i - 68 < 12
    · simp [h, h12, hmask, ← BitVec.getLsbD_eq_getElem hi, show 68 + (i - 68) = i by omega]
    · simp [h, h12, hmask]

/-- What the decoder accepts from a word with an assigned opcode: what its fields build, well formed, with that word. -/
theorem decode_eq_some_iff {w : W96} {i : Instr} (hm : w.msb = false) (ho : opcAssigned (wordOpc w) = true) :
    decode w = some i ↔ i.wf = true ∧ encode i = some w ∧
      ∃ f, wordFields w (w.extractLsb' 68 12) = some f ∧ build (wordOpc w) (wordCtl w) f = some i := by
  simp only [decode, hm, ho, readWith, dst_put_back, Bool.false_eq_true, if_false, Bool.not_true]
  constructor
  · intro h
    split at h
    · cases h
    · rename_i f hf
      split at h
      · cases h
      · rename_i j hj
        split at h
        · rename_i hc
          cases h
          simp only [Bool.and_eq_true, decide_eq_true_eq] at hc
          exact ⟨hc.1, hc.2, f, hf, hj⟩
        · cases h
  · rintro ⟨hwf, he, f, hf, hb⟩
    simp [hf, hb, hwf, he]

section
variable {i : Instr} {w : W96} {c : Ctl} {opc : BitVec 11} {d a b e : Operand} {m : BitVec 20} {off : BitVec 12}

/-- A packed word is decoded to an instruction that it encodes and that its fields build. -/
theorem decode_packWord {f : Fields} {d a b : BitVec 12} {ext : BitVec 32} (hwf : i.wf = true)
    (henc : encode i = some (packWord c opc d a b ext)) (hopc : opcAssigned opc.toNat = true)
    (hf : wordFields (packWord c opc d a b ext) d = some f) (hb : build opc.toNat c f = some i) :
    decode (packWord c opc d a b ext) = some i := by
  have ho := wordOpc_packWord c opc d a b ext
  refine (decode_eq_some_iff (packWord_msb c opc d a b ext) (by rw [ho, hopc])).mpr ⟨hwf, henc, f, ?_, ?_⟩
  · rw [packWord_dst, hf]
  · rw [ho, wordCtl_packWord, hb]

/-- A word with no immediate is decoded to what it encodes. -/
theorem decode_plain (hwf : i.wf = true) (h : encode i = some w) (henc : encode i = some (encWord c opc d a b e m))
    (hopc : opcAssigned opc.toNat = true) (hd : d.isImm = false) (ha : a.isImm = false) (hb' : b.isImm = false)
    (he : e.isImm = false) (hb : ∀ x off, build opc.toNat c ⟨d, a, b, e, m, x, off⟩ = some i) : decode w = some i := by
  obtain rfl := Option.some.inj (h.symm.trans henc)
  refine decode_packWord hwf henc hopc (f := ⟨d, a, b, e, m, opField m e ++ m, opField m e⟩) ?_ (hb _ _)
  simp [wordFields, packWord_a, packWord_b, packWord_ext, packWord_m, packWord_c, opField_kind_imm, ha, hb', extOf_plain, append_c,
    append_m, readOp_opField_plain, hd, he]

/-- A word whose one immediate source is given is decoded to what it encodes (R33). -/
theorem decode_immediate {x : BitVec 32} (hwf : i.wf = true) (h : encode i = some w)
    (henc : encode i = some (encWord c opc d a b .none m)) (hopc : opcAssigned opc.toNat = true) (hd : d.isImm = false)
    (hx : a = .imm x ∧ b.isImm = false ∨ a.isImm = false ∧ b = .imm x) (hm : m.extractLsb' 9 11 = 0)
    (hb : ∀ off, build opc.toNat c ⟨d, a, b, .none, m, x, off⟩ = some i) : decode w = some i := by
  obtain rfl := Option.some.inj (h.symm.trans henc)
  refine decode_packWord hwf henc hopc (f := ⟨d, a, b, .none, m, x, x.extractLsb' 20 12⟩) ?_ (hb _)
  simp only [wordFields, packWord_a, packWord_b, packWord_ext, packWord_m, packWord_c, BitVec.ofNat_eq_ofNat, opField_kind_imm,
    readOp_opField_plain hd, BitVec.zeroExtend]
  rcases hx with ⟨rfl, hb'⟩ | ⟨ha, rfl⟩
  · have hi : (Operand.imm x).isImm = true := rfl
    simp [hi, readOp_opField, readOp_opField_plain hb', setWidth_opField_imm hi hm, extOf]
  · have hi : (Operand.imm x).isImm = true := rfl
    simp [hi, ha, readOp_opField, readOp_opField_plain ha, setWidth_opField_imm hi hm, extOf_imm_right ha]

/-- A word without a source C, with at most one immediate source, is decoded to what it encodes. -/
theorem decode_sources (hwf : i.wf = true) (h : encode i = some w) (henc : encode i = some (encWord c opc d a b .none m))
    (hopc : opcAssigned opc.toNat = true) (hd : d.isImm = false) (hab : a.isImm = false ∨ b.isImm = false)
    (hm : (a.isImm || b.isImm) = true → m.extractLsb' 9 11 = 0)
    (hb : ∀ x off, build opc.toNat c ⟨d, a, b, .none, m, x, off⟩ = some i) : decode w = some i := by
  cases ha : a.isImm with
  | true =>
    obtain ⟨x, rfl⟩ := a.eq_imm_of_isImm ha
    have hb' : b.isImm = false := by simpa [ha] using hab
    exact decode_immediate hwf h henc hopc hd (.inl ⟨rfl, hb'⟩) (hm (by simp [ha])) (hb x)
  | false =>
    cases hb' : b.isImm with
    | true =>
      obtain ⟨x, rfl⟩ := b.eq_imm_of_isImm hb'
      exact decode_immediate hwf h henc hopc hd (.inr ⟨ha, rfl⟩) (hm (by simp [hb'])) (hb x)
    | false => exact decode_plain hwf h henc hopc hd ha hb' rfl hb

/-- A word with a memory offset is decoded to what it encodes (R34). -/
theorem decode_memory (hwf : i.wf = true) (h : encode i = some w) (henc : encode i = some (encMem c opc d a b off m))
    (hopc : opcAssigned opc.toNat = true) (hd : d.isImm = false) (ha : a.isImm = false) (hb' : b.isImm = false)
    (hb : ∀ e x, build opc.toNat c ⟨d, a, b, e, m, x, off⟩ = some i) : decode w = some i := by
  obtain rfl := Option.some.inj (h.symm.trans henc)
  refine decode_packWord (f := ⟨d, a, b, (readOp off 0).getD .none, m, off ++ m, off⟩) hwf henc hopc ?_ (hb _ _)
  simp [wordFields, packWord_a, packWord_b, packWord_ext, packWord_m, packWord_c, opField_kind_imm, ha, hb', append_c, append_m,
    readOp_opField_plain, hd]
end

end Sys2Proof
end

section
/-! SUPPORT. Every well-formed native form comes back from its word, family by family of what EXT holds. -/

namespace Sys2Proof

/-- What the word of a native form holds in EXT (R29, R33, R34). -/
inductive ExtUse
  /-- Modifiers, and no source C. -/
  | modifiers
  /-- Modifiers and a source C. -/
  | sourceC
  /-- Modifiers, or the immediate that one source may be. -/
  | anySource
  /-- An immediate, always. -/
  | immediate
  /-- Modifiers and a memory offset. -/
  | offset
  /-- Modifiers and a source C, or an immediate where there is no source C. -/
  | sourceCOrImmediate
  /-- Modifiers and, for a compare-and-swap, a source C, else a memory offset. -/
  | sourceCOrOffset
  /-- Whatever the word of an unassigned opcode holds. -/
  | unassigned
  deriving DecidableEq

def Instr.extUse (i : Instr) : ExtUse :=
  match i with
  | .bra .. | .call .. | .tokOpen .. | .rpt .. | .trap .. | .pmovLoad .. | .movi .. | .xfence .. | .halt .. => .immediate
  | .setsr .. | .add .. | .sub .. | .mul .. | .mulhi .. | .min .. | .max .. | .and .. | .or .. | .xor .. | .shl .. | .shr .. |
    .sra .. | .rot .. | .bfe .. | .lea .. | .mix32 .. | .fadd .. | .fsub .. | .fmul .. | .fmin .. | .fmax .. | .hadd2 .. |
    .hmul2 .. | .hmax2 .. | .vote .. | .matchv .. | .elect .. | .sleep .. => .anySource
  | .setp .. | .fsetp .. | .prmt .. => .sourceCOrImmediate
  | .mad .. | .bfi .. | .sel .. | .dp4 .. | .ffma .. | .fclamp .. | .hfma2 .. | .pack .. | .shfl .. | .wmaxi .. | .mma .. |
    .mmp .. | .mld .. | .awin .. | .mret .. | .mretRoute .. | .epcfg .. | .rcall .. => .sourceC
  | .satom .. | .atom .. => .sourceCOrOffset
  | .ld .. | .st .. | .lds .. | .sts .. | .ldk .. | .gather .. | .ldblk .. | .prefetch .. | .discard .. | .mwait .. | .qinit ..
    | .qpush .. | .qpop .. | .barrInit .. | .barrArrive .. | .barrExpect .. | .barrWait .. | .barrQuery .. | .red .. | .acall ..
    | .ckick .. | .cpoll .. | .cntw .. | .cnta .. | .bgload .. | .bgx .. | .bgwait .. | .pgreq .. | .cplan .. | .netslot .. |
    .jwait .. => .offset
  | .unassignedOpcode .. => .unassigned
  | _ => .modifiers

/-- Past the other families stand the forms without a source C, and the steps that are no native form. -/
theorem decode_encode_modifiers {i : Instr} {w : W96} (hx : i.extUse = .modifiers)
    (hwf : i.wf = true) (h : encode i = some w) : decode w = some i := by
  cases i with
  | nop | brx | callx | ret | exit | tokLeave | yield | brk | pbool | addc | subb | lg2 | ex2 | rcp | rsq | sqrt | l1inv |
    aalloc | afree | azero | ald | ast | trec | bfence | pgmig | rwait | rret | rstat | cgo | cwait | spawn | rfe | dlset | qend
    | qsync | pwrq =>
    refine decode_plain hwf h rfl rfl ?_ ?_ ?_ rfl fun x off => (rfl : _ = some _).trans (by simp [BitVec.extractLsb'_or])
    all_goals exact Operand.isImm_eq_false fun hk => by simp_all [Instr.wf, Operand.isNone]
  | mov | abs | not | popc | clz | brev | frnd | fclass | cvt | unpk | qswap | qbcast | crd | cwr =>
    refine decode_plain hwf h rfl rfl ?_ ?_ ?_ rfl fun x off => (rfl : _ = Option.map _ _).trans (by simp [BitVec.extractLsb'_or])
    all_goals exact Operand.isImm_eq_false fun hk => by simp_all [Instr.wf, Operand.isNone]
  | getsr | wred | wscan | fence =>
    refine decode_plain hwf h rfl rfl ?_ ?_ ?_ rfl fun x off => (rfl : _ = Option.bind _ _).trans (by simp [BitVec.extractLsb'_or])
    all_goals exact Operand.isImm_eq_false fun hk => by simp_all [Instr.wf, Operand.isNone]
  | pmovSave | bgstatEng | bgstatRmap | tlbinvPage | tlbinvAll | pocinvPage | pocinvAll | netslotOff =>
    refine decode_plain hwf h rfl rfl ?_ ?_ ?_ rfl fun x off => (rfl : _ = ite _ _ _).trans (by simp)
    all_goals exact Operand.isImm_eq_false fun hk => by simp_all [Instr.wf, Operand.isNone]
  | _ => cases hx <;> cases h

/-- A source C stands beside the modifiers. -/
theorem decode_encode_sourceC {i : Instr} {w : W96} (hx : i.extUse = .sourceC)
    (hwf : i.wf = true) (h : encode i = some w) : decode w = some i := by
  cases i with
  | bfi | hfma2 | pack | mma | mmp | mld | awin | epcfg | rcall =>
    refine decode_plain hwf h rfl rfl ?_ ?_ ?_ ?_ fun x off => (rfl : _ = some _).trans (by simp [BitVec.extractLsb'_or])
    all_goals exact Operand.isImm_eq_false fun hk => by simp_all [Instr.wf, Operand.isNone]
  | mad | sel | dp4 | ffma | fclamp | shfl | wmaxi =>
    refine decode_plain hwf h rfl rfl ?_ ?_ ?_ ?_ fun x off => (rfl : _ = Option.map _ _).trans (by simp [BitVec.extractLsb'_or])
    all_goals exact Operand.isImm_eq_false fun hk => by simp_all [Instr.wf, Operand.isNone]
  | mret | mretRoute =>
    refine decode_plain hwf h rfl rfl ?_ ?_ ?_ ?_ fun x off => (rfl : _ = ite _ _ _).trans (by simp [BitVec.extractLsb'_or])
    all_goals exact Operand.isImm_eq_false fun hk => by simp_all [Instr.wf, Operand.isNone]
  | _ => cases hx

/-- One source may be an immediate; M[19:9] is 0 in every such form. -/
theorem decode_encode_anySource {i : Instr} {w : W96} (hx : i.extUse = .anySource)
    (hwf : i.wf = true) (h : encode i = some w) : decode w = some i := by
  cases i with
  | mix32 | hadd2 | hmul2 | hmax2 | vote =>
    refine decode_sources hwf h rfl rfl ?_ (.inl ?_) (fun _ => by simp) fun x off =>
      (rfl : _ = some _).trans (by simp)
    all_goals exact Operand.isImm_eq_false fun hk => by simp_all [Instr.wf]
  | elect | sleep =>
    refine decode_sources hwf h rfl rfl ?_ (.inr rfl) (fun _ => by simp) fun x off =>
      (rfl : _ = some _).trans (by simp)
    all_goals exact Operand.isImm_eq_false fun hk => by simp_all [Instr.wf, Operand.isNone]
  | add | sub | mul | mulhi | min | max | and | or | xor | shl | shr | sra | rot | bfe | lea | fadd | fsub | fmul | fmin | fmax
    | matchv =>
    refine decode_sources hwf h rfl rfl ?_ (.inl ?_) (fun _ => by simp [BitVec.extractLsb'_or]) fun x off =>
      (rfl : _ = Option.map _ _).trans (by simp [BitVec.extractLsb'_or])
    all_goals exact Operand.isImm_eq_false fun hk => by simp_all [Instr.wf]
  | setsr =>
    refine decode_sources hwf h rfl rfl ?_ (.inr rfl) (fun _ => by simp [BitVec.extractLsb'_or]) fun x off =>
      (rfl : _ = Option.bind _ _).trans (by simp [BitVec.extractLsb'_or])
    all_goals exact Operand.isImm_eq_false fun hk => by simp_all [Instr.wf, Operand.isNone]
  | _ => cases hx

/-- One source is an immediate. -/
theorem decode_encode_immediate {i : Instr} {w : W96} (hx : i.extUse = .immediate)
    (hwf : i.wf = true) (h : encode i = some w) : decode w = some i := by
  cases i with
  | bra c u n disp =>
    refine decode_immediate hwf h rfl rfl rfl (.inl ⟨rfl, rfl⟩) (by simp) fun off => (rfl : _ = some _).trans ?_
    have hn : (n ++ disp).extractLsb' 28 4 = n := BitVec.extractLsb'_append_eq_left
    have hdisp : (n ++ disp).extractLsb' 0 28 = disp := BitVec.extractLsb'_append_eq_right
    simp only [Fields.bit_eq, hn, hdisp]
    simp
  | call | tokOpen | trap | halt =>
    refine decode_immediate hwf h rfl rfl ?_ (.inl ⟨rfl, ?_⟩) (by simp) fun off =>
      (rfl : _ = some _).trans (by simp)
    all_goals exact Operand.isImm_eq_false fun hk => by simp_all [Instr.wf, Operand.isNone]
  | rpt =>
    refine decode_immediate hwf h rfl rfl ?_ (.inr ⟨?_, rfl⟩) (by simp) fun off =>
      (rfl : _ = some _).trans (by simp)
    all_goals exact Operand.isImm_eq_false fun hk => by simp_all [Instr.wf, Operand.isNone]
  | movi =>
    refine decode_immediate hwf h rfl rfl ?_ (.inl ⟨rfl, ?_⟩) (by simp [BitVec.extractLsb'_or]) fun off =>
      (rfl : _ = Option.map _ _).trans (by simp [BitVec.extractLsb'_or])
    all_goals exact Operand.isImm_eq_false fun hk => by simp_all [Instr.wf, Operand.isNone]
  | pmovLoad =>
    refine decode_immediate hwf h rfl rfl ?_ (.inr ⟨?_, rfl⟩) (by simp) fun off =>
      (rfl : _ = ite _ _ _).trans (by simp)
    all_goals exact Operand.isImm_eq_false fun hk => by simp_all [Instr.wf, Operand.isNone]
  | xfence c p q scope =>
    obtain ⟨hp, hq, hscope⟩ := xfenceImm_fields p q scope
    exact decode_immediate hwf h rfl rfl rfl (.inl ⟨rfl, rfl⟩) (by simp) fun off =>
      (rfl : _ = Option.map _ _).trans (by simp [hp, hq, hscope])
  | _ => cases hx

/-- A memory offset stands where source C would (R34). -/
theorem decode_encode_offset {i : Instr} {w : W96} (hx : i.extUse = .offset)
    (hwf : i.wf = true) (h : encode i = some w) : decode w = some i := by
  cases i with
  | ldblk | prefetch | discard | qinit | qpush | qpop | barrInit | barrArrive | barrExpect | barrWait | barrQuery | acall |
    ckick | cpoll | cntw | cnta | bgload | bgx | bgwait | pgreq | cplan | jwait =>
    refine decode_memory hwf h rfl rfl ?_ ?_ ?_ fun e x => (rfl : _ = some _).trans (by simp [BitVec.extractLsb'_or])
    all_goals exact Operand.isImm_eq_false fun hk => by simp_all [Instr.wf, Operand.isNone]
  | lds | sts | ldk | gather =>
    refine decode_memory hwf h rfl rfl ?_ ?_ ?_ fun e x => (rfl : _ = Option.map _ _).trans (by simp [BitVec.extractLsb'_or])
    all_goals exact Operand.isImm_eq_false fun hk => by simp_all [Instr.wf, Operand.isNone]
  | ld | st | mwait | red =>
    refine decode_memory hwf h rfl rfl ?_ ?_ ?_ fun e x => (rfl : _ = Option.bind _ _).trans (by simp [BitVec.extractLsb'_or])
    all_goals exact Operand.isImm_eq_false fun hk => by simp_all [Instr.wf, Operand.isNone]
  | netslot =>
    refine decode_memory hwf h rfl rfl ?_ ?_ ?_ fun e x => (rfl : _ = ite _ _ _).trans (by simp)
    all_goals exact Operand.isImm_eq_false fun hk => by simp_all [Instr.wf, Operand.isNone]
  | _ => cases hx

/-- With an immediate there is no source C, and a compare merges by .set (R125, R134). -/
theorem decode_encode_sourceCOrImmediate {i : Instr} {w : W96} (hx : i.extUse = .sourceCOrImmediate)
    (hwf : i.wf = true) (h : encode i = some w) : decode w = some i := by
  cases i with
  | setp c ty cmp mrg d a b e | fsetp c ty cmp mrg d a b e =>
    have hd : d.isImm = false := Operand.isImm_eq_false fun hk => by simp_all [Instr.wf]
    cases hab : a.isImm || b.isImm with
    | true =>
      obtain rfl : mrg = .set := by by_contra hne; simp_all [Instr.wf]
      obtain rfl : e = .none := Operand.eq_none_of_isNone (by simp_all [Instr.wf, dualOk])
      refine decode_sources hwf h rfl rfl hd ?_ (fun _ => by simp [Merge.code, BitVec.extractLsb'_or]) fun x off =>
        (rfl : _ = Option.map _ _).trans (by simp [BitVec.extractLsb'_or])
      simp_all [Instr.wf, oneImm]
    | false =>
      simp only [Bool.or_eq_false_iff] at hab
      refine decode_plain hwf h rfl rfl hd hab.1 hab.2 ?_ fun x off =>
        (rfl : _ = Option.map _ _).trans (by simp [BitVec.extractLsb'_or])
      exact Operand.isImm_eq_false fun hk => by simp_all [Instr.wf, dualOk]
  | prmt c d a b e =>
    have hd : d.isImm = false := Operand.isImm_eq_false fun hk => by simp_all [Instr.wf]
    have ha : a.isImm = false := Operand.isImm_eq_false fun hk => by simp_all [Instr.wf]
    cases hb : b.isImm with
    | true =>
      obtain rfl : e = .none := Operand.eq_none_of_isNone (by simp_all [Instr.wf])
      exact decode_sources hwf h rfl rfl hd (.inl ha) (fun _ => by simp) fun x off => rfl
    | false =>
      have he : e.isImm = false := Operand.isImm_eq_false fun hk => by simp_all [Instr.wf]
      exact decode_plain hwf h rfl rfl hd ha hb he fun x off => rfl
  | _ => cases hx

/-- A compare-and-swap has a source C and offset 0 (R34). -/
theorem decode_encode_sourceCOrOffset {i : Instr} {w : W96} (hx : i.extUse = .sourceCOrOffset)
    (hwf : i.wf = true) (h : encode i = some w) : decode w = some i := by
  cases i with
  | satom c ty op d a b e off =>
    have hd : d.isImm = false := Operand.isImm_eq_false fun hk => by simp_all [Instr.wf]
    have ha : a.isImm = false := Operand.isImm_eq_false fun hk => by simp_all [Instr.wf]
    have hb : b.isImm = false := Operand.isImm_eq_false fun hk => by simp_all [Instr.wf]
    by_cases hop : op = .cas
    · subst hop
      have he : e.isImm = false := Operand.isImm_eq_false fun hk => by simp_all [Instr.wf, casOk]
      obtain rfl : off = 0 := by simp_all [Instr.wf, casOk]
      exact decode_plain hwf h rfl rfl hd ha hb he fun x off =>
        (rfl : _ = Option.bind _ _).trans (by simp [BitVec.extractLsb'_or])
    · obtain rfl : e = .none := Operand.eq_none_of_isNone (by simp_all [Instr.wf, casOk])
      exact decode_memory hwf h (if_neg (by simpa using hop)) rfl hd ha hb fun e x =>
        (rfl : _ = Option.bind _ _).trans (by simp [BitVec.extractLsb'_or, hop])
  | atom c ty op order scope d a b e off =>
    have hd : d.isImm = false := Operand.isImm_eq_false fun hk => by simp_all [Instr.wf]
    have ha : a.isImm = false := Operand.isImm_eq_false fun hk => by simp_all [Instr.wf]
    have hb : b.isImm = false := Operand.isImm_eq_false fun hk => by simp_all [Instr.wf]
    by_cases hop : op = .cas
    · subst hop
      have he : e.isImm = false := Operand.isImm_eq_false fun hk => by simp_all [Instr.wf, casOk]
      obtain rfl : off = 0 := by simp_all [Instr.wf, casOk]
      exact decode_plain hwf h rfl rfl hd ha hb he fun x off =>
        (rfl : _ = Option.bind _ _).trans (by simp [BitVec.extractLsb'_or])
    · obtain rfl : e = .none := Operand.eq_none_of_isNone (by simp_all [Instr.wf, casOk])
      exact decode_memory hwf h (if_neg (by simpa using hop)) rfl hd ha hb fun e x =>
        (rfl : _ = Option.bind _ _).trans (by simp [BitVec.extractLsb'_or, hop])
  | _ => cases hx

/-- Every well-formed native form comes back from its word. -/
theorem decode_encode {i : Instr} {w : W96} (hwf : i.wf = true) (h : encode i = some w) : decode w = some i := by
  cases hx : i.extUse with
  | modifiers => exact decode_encode_modifiers hx hwf h
  | sourceC => exact decode_encode_sourceC hx hwf h
  | anySource => exact decode_encode_anySource hx hwf h
  | immediate => exact decode_encode_immediate hx hwf h
  | offset => exact decode_encode_offset hx hwf h
  | sourceCOrImmediate => exact decode_encode_sourceCOrImmediate hx hwf h
  | sourceCOrOffset => exact decode_encode_sourceCOrOffset hx hwf h
  | unassigned =>
    cases i with
    | unassignedOpcode v =>
      cases h
      simp only [Instr.wf, Bool.and_eq_true, Bool.not_eq_true'] at hwf
      simp [decode, hwf]
    | _ => cases hx

/-- The decoder accepts well-formed forms only, each from the one word that encodes it. -/
theorem wf_encode_of_decode {i : Instr} {w : W96} (h : decode w = some i) : i.wf = true ∧ encode i = some w := by
  cases hm : w.msb with
  | true => simp [decode, hm] at h
  | false =>
    cases ho : opcAssigned (wordOpc w) with
    | true =>
      obtain ⟨hwf, henc, -⟩ := (decode_eq_some_iff hm ho).mp h
      exact ⟨hwf, henc⟩
    | false =>
      simp only [decode, hm, ho, Bool.false_eq_true, if_false, Bool.not_false, if_true, Option.some.injEq] at h
      subst h
      exact ⟨by simp [Instr.wf, hm, ho], rfl⟩

/-- Settles O57: family by family of what EXT holds, the fields of an encoded word are read back as they were written; the
converse is the decoder's own last check. -/
theorem nativeRoundTrip : Obligations.NativeRoundTrip :=
  ⟨fun _ _ => decode_encode, fun _ _ => wf_encode_of_decode⟩

end Sys2Proof
end

section
/-! SUPPORT. The checks before an effect (R30, R32, R39, R42, R44, R123) and the opcodes that are not listed (R42, R43). -/

namespace Sys2Proof.Machine

/-- The limits that do not depend on a callee: too high a register, no valid flag set, a transfer in a repeat body. -/
theorem encodingFault_illegal {s : State} {t : TRef} {c : Ctl} {i : Instr}
    (h : regsOk (s.ctx t).regs i = false ∨ (isLong i = true ∧ s.gang.hdr.flagOf c.fs = none) ∨
      (s.gang.hdr.kind = 3 ∧ repeatForbids i = true)) : s.encodingFault t c i = some causeIllegal := by
  rcases h with hr | ⟨hl, hf⟩ | ⟨hk, hr⟩
  · simp [State.encodingFault, hr]
  · simp [State.encodingFault, hl, hf]
  · simp [State.encodingFault, hk, hr]

/-- A set of one thread past a limit takes that limit's trap, as one thread does. -/
theorem nativeAll_limit {c : Ctl} {i : Instr} {s : State} {t : TRef} {k : Nat} (f : State → List TRef → State)
    (hm : s.gang.members = [t]) (he : s.encodingFault t c i = some k) :
    nativeAll c i s f = .next ((s.mark c).trap t k 0 false 0).tokenEnds := by
  simp [nativeAll, hm, he]

/-- A form past a limit takes that limit's trap, whether it acts for a thread or for a set. -/
theorem exec_limit {i : Instr} {c : Ctl} {s : State} {g n k : Nat} (hc : ctlOf i = some c) (hr : i ≠ .rret c)
    (hm : s.gang.members = [.thr g n]) (he : s.encodingFault (.thr g n) c i = some k) :
    exec i s = .next ((s.mark c).trap (.thr g n) k 0 false 0).tokenEnds := by
  cases hw : actsWhole i with
  | false =>
    obtain ⟨f, hf⟩ := exec_native s hc hw hr
    rw [hf, native_limit f hm he]
  | true =>
    obtain ⟨f, hf⟩ := exec_nativeAll s hc hw
    rw [hf, nativeAll_limit f hm he]

/-- No form that acts for a set as a whole is privileged. -/
theorem actsWhole_of_isPrivileged {i : Instr} (h : isPrivileged i = true) : actsWhole i = false := by
  cases i <;> simp_all [isPrivileged, actsWhole]

/-- Settles O46: each check answers through the skeleton that every form shares, in its order. -/
theorem checksInOrder : Obligations.ChecksInOrder := by
  refine ⟨fun i c s g n hc hr hm h => exec_limit hc hr hm (encodingFault_illegal h), ?_, ?_, ?_⟩
  · intro i c s g n hc hw hr hm he hg
    obtain ⟨f, hf⟩ := exec_native s hc hw hr
    rw [hf, native_off f hm he hg]
  · intro i c s g n hc hp hm he hg hu
    have hr : i ≠ .rret c := by rintro rfl; exact absurd hp Bool.false_ne_true
    obtain ⟨f, hf⟩ := exec_native s hc (actsWhole_of_isPrivileged hp) hr
    rw [hf, native_user f hm he hg hp hu]
  · intro c ty w d a b e r cnt
    exact ⟨rfl, rfl, rfl, rfl, rfl, rfl, rfl, rfl, rfl, rfl, rfl, rfl⟩

/-- The opcodes that R43 leaves unlisted. -/
theorem opcAssigned_unlisted {n : Nat} (h : (0x13 ≤ n ∧ n ≤ 0x7F) ∨ (0x9E ≤ n ∧ n ≤ 0xFF) ∨ (0x115 ≤ n ∧ n ≤ 0x17F) ∨
    (0x189 ≤ n ∧ n ≤ 0x1FF) ∨ (0x216 ≤ n ∧ n ≤ 0x27F) ∨ (0x283 ≤ n ∧ n ≤ 0x2FF) ∨ (0x30B ≤ n ∧ n ≤ 0x37F) ∨
    (0x385 ≤ n ∧ n ≤ 0x3FF) ∨ (0x405 ≤ n ∧ n ≤ 0x47F) ∨ (0x484 ≤ n ∧ n ≤ 0x4FF) ∨ (0x504 ≤ n ∧ n ≤ 0x57F) ∨
    (0x584 ≤ n ∧ n ≤ 0x5FF) ∨ (0x60B ≤ n ∧ n ≤ 0x7FF)) : opcAssigned n = false := by
  rw [← Bool.not_eq_true]
  simp only [opcAssigned, Bool.or_eq_true, Bool.and_eq_true, decide_eq_true_eq]
  omega

/-- Settles O47: the decoder asks for the opcode first, and the step is one trap. -/
theorem unassignedOpcodes : Obligations.UnassignedOpcodes := by
  refine ⟨fun w n hw hn h => ?_, fun w s g n hm => ?_⟩
  · have ho : opcAssigned (wordOpc w) = false := by
      simpa only [wordOpc, ← hn] using opcAssigned_unlisted h
    simp [decode, hw, ho]
  · show execUnassignedOpcode w s = _
    simp [execUnassignedOpcode, hm]

end Sys2Proof.Machine
end

section
/-! SUPPORT. Fixed-latency results that land (R32, R36, R43). -/

namespace Sys2Proof.Machine

/-- The results of a list that are due, landed in its order. -/
def Thread.landDue (clk : Nat) (l : List Pend) (x : Thread) : Thread :=
  l.foldl (fun y e => if e.due ≤ clk then y.put e.w else y) x

theorem Thread.settle_eq (clk : Nat) (x : Thread) :
    Thread.settle clk x = { Thread.landDue clk x.pend x with pend := Thread.settle.keep clk x.pend } := rfl

/-- What every landing keeps, all of them keep. -/
theorem Thread.landDue_keeps {α : Type} {q : Thread → α} {clk : Nat} {l : List Pend}
    (h : ∀ e ∈ l, e.due ≤ clk → ∀ y : Thread, q (y.put e.w) = q y) (x : Thread) :
    q (Thread.landDue clk l x) = q x := by
  induction l generalizing x with
  | nil => rfl
  | cons e l ih =>
    simp only [List.forall_mem_cons] at h
    obtain ⟨he, hl⟩ := h
    rw [Thread.landDue, List.foldl_cons]
    refine (ih hl _).trans ?_
    split
    · exact he ‹_› x
    · rfl

theorem Thread.landDue_append (clk : Nat) (l m : List Pend) (x : Thread) :
    Thread.landDue clk (l ++ m) x = Thread.landDue clk m (Thread.landDue clk l x) := List.foldl_append

/-- A landing leaves what is no register of it. -/
theorem Thread.put_frame (y : Thread) (w : Wr) : ((y.put w).pc, (y.put w).slot, (y.put w).sp, (y.put w).routes,
    (y.put w).flags, (y.put w).v.length) = (y.pc, y.slot, y.sp, y.routes, y.flags, y.v.length) := by
  cases w with
  | v n z => simp [Thread.put, Thread.setV]
  | p n b => simp only [Thread.put, Thread.setP]; split <;> rfl
  | k n z => rfl

/-- A vector register changes only by a write to it. -/
theorem Thread.put_v_ne {w : Wr} {r : Nat} (h : ∀ z, w ≠ .v r z) (y : Thread) : (y.put w).v.getD r 0 = y.v.getD r 0 := by
  cases w with
  | v n z =>
    have hn : n ≠ r := fun hr => h z (by rw [hr])
    simp [Thread.put, Thread.setV, List.getElem?_set_ne hn]
  | p n b => simp only [Thread.put, Thread.setP]; split <;> rfl
  | k n z => rfl

theorem Thread.put_v_same {r : Nat} (z : W32) {y : Thread} (h : r < y.v.length) : (y.put (.v r z)).v.getD r 0 = z := by
  simp [Thread.put, Thread.setV, h]

/-- Setting a predicate leaves the bits of the others, and pt. -/
theorem Thread.setP_pred_ne {n r : Nat} (h : n ≠ r) (y : Thread) (b : Bool) : (y.setP n b).pred r = y.pred r := by
  have hbit : ((1 : BitVec 7) <<< n).getLsbD r = false := by
    simp only [BitVec.getLsbD_shiftLeft]
    simp; omega
  unfold Thread.setP
  split
  · rfl
  · cases b
    · simp only [Thread.pred, Bool.false_eq_true, if_false, BitVec.getLsbD_and, BitVec.getLsbD_not, hbit]
      by_cases hr : r < 7
      · simp [hr]
      · simp [BitVec.getLsbD_of_ge y.p r (by omega)]
    · simp only [Thread.pred, if_true, BitVec.getLsbD_or, hbit, Bool.or_false]

theorem Thread.put_pred_ne {w : Wr} {r : Nat} (h : ∀ z, w ≠ .p r z) (y : Thread) : (y.put w).pred r = y.pred r := by
  cases w with
  | v n z => rfl
  | p n b => exact Thread.setP_pred_ne (fun hr => h b (by rw [hr])) y b
  | k n z => rfl

/-- Where the thread with an identity is after a change of it, in the list it is found in. -/
theorem find?_listUpd_same {α : Type} {p : α → Bool} {f : α → α} (hf : ∀ x, p x = true → p (f x) = true) (l : List α) :
    (listUpd p f l).find? p = (l.find? p).map f := by
  induction l with
  | nil => rfl
  | cons a l ih =>
    cases ha : p a with
    | true => simp [listUpd, ha, hf a ha]
    | false => simpa [listUpd, ha] using ih

theorem State.thread?_updThread_same {s : State} {g n : Nat} {x : Thread} {f : Thread → Thread}
    (hf : ∀ y, (f y).tid = y.tid) (h : s.thread? (.thr g n) = some x) :
    (s.updThread (.thr g n) f).thread? (.thr g n) = some (f x) := by
  simp only [State.thread?, State.group?, Option.bind_eq_some_iff] at h
  obtain ⟨G, hG, hx⟩ := h
  simp only [State.thread?, State.updThread, State.updGroup, State.group?]
  rw [find?_listUpd_same (fun _ hG => by exact hG), hG]
  simp only [Option.map_some, Option.bind_some]
  rw [find?_listUpd_same (fun y hy => by simpa [hf] using hy), hx, Option.map_some]

/-- Settles O49, by what a landing changes and the order in which the due results land. -/
theorem fixedResultsLand : Obligations.FixedResultsLand := by
  refine ⟨?_, ?_, ?_, ?_, ?_⟩
  · intro s g n lat r y x hx
    have h : (s.later (.thr g n) lat (.v r y)).thread? (.thr g n) =
        some { x with pend := x.pend ++ [⟨s.clk + lat, .v r y⟩] } :=
      State.thread?_updThread_same (f := fun x => { x with pend := x.pend ++ [⟨s.clk + lat, .v r y⟩] }) (fun _ => rfl) hx
    simp [State.thread, h]
  · intro x clk due r y before after hp hdue hr hafter
    have hlen : (Thread.landDue clk before x).v.length = x.v.length :=
      Thread.landDue_keeps (q := fun x => x.v.length) (fun e _ _ y => by simpa using congrArg (·.2.2.2.2.2) (y.put_frame e.w)) x
    rw [Thread.settle_eq, hp, Thread.landDue_append, Thread.landDue_append]
    refine (Thread.landDue_keeps (q := fun x => x.v.getD r 0) (fun e he hd y => ?_) _).trans ?_
    · exact Thread.put_v_ne (hafter e he hd) y
    · simp only [Thread.landDue, List.foldl_cons, List.foldl_nil, hdue, if_true]
      exact Thread.put_v_same y (hlen ▸ hr)
  · intro x clk r h
    exact Thread.landDue_keeps (q := fun x => x.v.getD r 0) (fun e he hd y => Thread.put_v_ne (h e he hd) y) x
  · intro x clk r h
    exact Thread.landDue_keeps (q := fun x => x.pred r) (fun e he hd y => Thread.put_pred_ne (h e he hd) y) x
  · intro x clk
    have h := Thread.landDue_keeps (clk := clk) (l := x.pend)
      (q := fun x => (x.pc, x.slot, x.sp, x.routes, x.flags, x.v.length)) (fun e _ _ y => y.put_frame e.w) x
    simp only [Prod.mk.injEq] at h
    obtain ⟨hpc, hslot, hsp, hroutes, hflags, hlen⟩ := h
    exact ⟨hpc, hslot, hsp, hroutes, hflags, hlen, rfl⟩

end Sys2Proof.Machine
end

section
/-! SUPPORT. The frame of the register forms, and the form that breaks it (R35, R36, R136). -/

namespace Sys2Proof.Machine

/-! A form whose destination is a uniform register. -/

/-- One group of one thread before the last slot of a clause of one slot; its uniform register 0 is 0. -/
def uniformState : State :=
  { State.reset with
    gang := { State.reset.gang with hdr := { State.reset.gang.hdr with cnt := 1 }, members := [.thr 1 0] }
    groups := [⟨1, 0, 0, 0, 0, 0, false, none, 0, 0, [0], [], [Wave.blank], [Thread.blank], none, 0, none⟩] }

/-- A `movi` without `.one` to the uniform register 0: no encoding gives it, and nothing in the statement excludes it. -/
def uniformMovi : Instr := .movi ⟨7, false, 0, false, false, false⟩ .b32 false (.k 0) 1

/-- The registers after it hold 1 in the uniform register, in the issue cycle. -/
theorem exec_uniformMovi : ∃ t, exec uniformMovi uniformState = .next t ∧ t.groups.map (·.k) = [[1]] := by
  obtain ⟨t, ht⟩ := native_next ⟨7, false, 0, false, false, false⟩ uniformMovi uniformState _
  exact ⟨t, ht, by have := (Host.Outcome.next.inj ht).symm; subst this; decide +kernel⟩

/-- Refutes O50: `fixedLatency` also lists ill-formed forms, and a uniform destination changes its register at the issue
(`State.setK`), where a vector register or predicate only pends. -/
theorem not_registerFormsFrame : ¬ Obligations.RegisterFormsFrame := by
  intro h
  obtain ⟨hfixed, -, -⟩ := h
  obtain ⟨t, ht, hregs, -⟩ := hfixed ⟨7, false, 0, false, false, false⟩ uniformMovi 4 uniformState rfl
    (by decide +kernel) (by decide +kernel)
  obtain ⟨t', ht', hk⟩ := exec_uniformMovi
  obtain rfl : t' = t := Host.Outcome.next.inj (ht'.symm.trans ht)
  have hkeep : t'.groups.map (·.k) = uniformState.groups.map (·.k) := by
    simpa [State.regs, Function.comp_def] using congrArg (List.map fun x => x.2.1) hregs
  rw [hk] at hkeep
  exact absurd hkeep (by decide)

end Sys2Proof.Machine
end

section
/-! SUPPORT. No matrix operation is queued (R218): what keeps it so through an issue (R27, R320 to R322, R414). -/

namespace Sys2Proof.Machine

/-- Steps that each keep the cores keep them together. -/
theorem foldl_cores {α : Type} {f : State → α → State} (hf : ∀ s x, (f s x).cores = s.cores) (l : List α) (s : State) :
    (l.foldl f s).cores = s.cores :=
  List.foldlRecOn (motive := fun t : State => t.cores = s.cores) l f rfl fun t ht x _ => (hf t x).trans ht

theorem foldl_noMatrix {α : Type} {f : State → α → State} (hf : ∀ s x, s.noMatrix = true → (f s x).noMatrix = true) (l : List α)
    {s : State} (h : s.noMatrix = true) : (l.foldl f s).noMatrix = true :=
  List.foldlRecOn (motive := fun t : State => t.noMatrix = true) l f h fun t ht x _ => hf t x ht

theorem noMatrix_of_cores {s t : State} (h : t.cores = s.cores) (hs : s.noMatrix = true) : t.noMatrix = true := by
  simpa only [State.noMatrix, h] using hs

/-- With none queued in the list, none is queued in the core of any number. -/
theorem coreAt_mu {s : State} (h : s.noMatrix = true) (c : Nat) : (s.coreAt c).mu = [] := by
  simp only [State.noMatrix, List.all_eq_true, List.isEmpty_iff] at h
  unfold State.coreAt
  cases hc : s.cores.find? fun k => k.id == c with
  | none => rfl
  | some k => exact h k (List.mem_of_find?_eq_some hc)

theorem noMatrix_updCore {s : State} {c : Nat} {f : Core → Core} (hf : ∀ k, (f k).mu = k.mu) (h : s.noMatrix = true) :
    (s.updCore c f).noMatrix = true := by
  have hnew : (f (s.coreAt c)).mu.isEmpty = true := by rw [hf, coreAt_mu h, List.isEmpty_nil]
  simp only [State.noMatrix, State.updCore, State.setCore, listSet] at h ⊢
  split
  · simp only [List.all_map, List.all_eq_true, Function.comp_apply]
    intro k hk
    split
    · exact hnew
    · exact List.all_eq_true.1 h k hk
  · simp only [List.all_append, h, List.all_cons, hnew, List.all_nil, Bool.and_self]

theorem noMatrix_abandon {s : State} (g : Nat) (h : s.noMatrix = true) : (s.abandon g).noMatrix = true := by
  simpa [State.noMatrix, State.abandon] using h

theorem noMatrix_trap {s : State} (g n k : Nat) (a : W64) (w : Bool) (code : BitVec 16) (h : s.noMatrix = true) :
    (s.trap (.thr g n) k a w code).noMatrix = true :=
  noMatrix_of_cores (State.trap_cores s g n k a w code) (noMatrix_abandon g h)

/-! Writes at their point of visibility. -/

theorem noMatrix_pokeWindow {s : State} (pa : Nat) (d : List Byte) (h : s.noMatrix = true) :
    (s.pokeWindow pa d).noMatrix = true := by
  unfold State.pokeWindow
  split
  · split <;> exact h
  · exact noMatrix_updCore (fun _ => rfl) h
  · exact h

theorem writeback_cores (s : State) (b : Nat) (keep : Bool) : (s.writeback b keep).cores = s.cores := by
  simp only [State.writeback]
  split
  · rfl
  · split
    · exact State.testWrite_cores _ _
    · rfl

theorem l2Room_cores (s : State) (pa : Nat) : ((s.l2Room pa).getD s).cores = s.cores := by
  simp only [State.l2Room]
  split
  · rfl
  · cases s.pick _ _ with
    | none => rfl
    | some l => exact foldl_cores (fun s b => writeback_cores s b false) _ s

theorem l2RoomAll_cores (s : State) (pa n : Nat) : (s.l2RoomAll pa n).cores = s.cores :=
  foldl_cores l2Room_cores _ s

theorem noMatrix_perform {s : State} (pa : Nat) (d : List Byte) (bypass : Bool) (h : s.noMatrix = true) :
    (s.perform pa d bypass).noMatrix = true := by
  unfold State.perform
  split
  · exact noMatrix_pokeWindow pa d h
  · refine noMatrix_of_cores ((State.after_same _ _ _).2.trans ?_) h
    cases bypass with
    | false => exact l2RoomAll_cores s pa d.length
    | true => exact (State.testWrites_same _ _).2

/-! Translations filled, a fetch, a transfer. -/

theorem noMatrix_fillTlb {s : State} (u : TlbUser) (die root va : Nat) (l : Look) (setD : Bool) (h : s.noMatrix = true) :
    (s.fillTlb u die root va l setD).noMatrix = true := by
  unfold State.fillTlb
  split
  · have hbits (p : Bool) (x : List Byte) : (if p then s else s.perform l.leafPa x false).noMatrix = true := by
      split
      · exact h
      · exact noMatrix_perform _ _ _ h
    exact noMatrix_of_cores rfl (hbits _ _)
  · exact h

theorem askRange_cores (s : State) (pa n : Nat) : (s.askRange pa n).cores = s.cores := by
  unfold State.askRange
  split
  · refine foldl_cores (fun s i => ?_) _ s
    unfold State.askAts
    split <;> rfl
  · rfl

theorem noMatrix_fillPages {s : State} (u : TlbUser) (die root : Nat) (ps : List (Nat × Nat × Look)) (setD : Bool)
    (h : s.noMatrix = true) : (s.fillPages u die root ps setD).noMatrix = true :=
  foldl_noMatrix (fun _ _ hs => noMatrix_of_cores (askRange_cores _ _ _) (noMatrix_fillTlb _ _ _ _ _ _ hs)) _ h

theorem redirectTo_cores (s : State) (die pa : Nat) : (s.redirectTo die pa).cores = s.cores := by
  unfold State.redirectTo
  split
  · rfl
  · split <;> rfl

theorem noMatrix_fetchIn {s s' : State} {u : TlbUser} {die root stamp : Nat} {priv : Bool} {va : W64} {w : W96}
    (h : s.noMatrix = true) (hf : s.fetchIn u die root priv stamp va = .word w s') : s'.noMatrix = true := by
  simp only [State.fetchIn] at hf
  split at hf
  · cases hf
  · split at hf
    · cases hf
    · split at hf
      · cases hf
      · split at hf
        · cases hf
        · cases hf
          exact noMatrix_of_cores (foldl_cores (fun s r => redirectTo_cores s _ _) _ _) (noMatrix_fillPages _ _ _ _ _ h)

theorem noMatrix_target {s s' : State} {t : TRef} {va : W64} {w : W96} (h : s.noMatrix = true) (ht : s.target t va = .header w s') :
    s'.noMatrix = true := by
  unfold State.target at ht
  split at ht
  · cases ht
  · split at ht
    · cases ht
    · cases ht
    · rename_i hf
      split at ht
      · cases ht
        exact noMatrix_fetchIn h hf
      · cases ht

theorem noMatrix_updThread {s : State} {t : TRef} {f : Thread → Thread} (h : s.noMatrix = true) :
    (s.updThread t f).noMatrix = true :=
  noMatrix_of_cores (State.updThread_cores s t f) h

theorem noMatrix_moveTo {s : State} (t : TRef) (va : W64) (h : s.noMatrix = true) : (s.moveTo t va).noMatrix = true := by
  have hpark (s : State) (h : s.noMatrix = true) : (s.rejoinPark t).noMatrix = true := by
    simp only [State.rejoinPark]
    split
    · exact noMatrix_updThread h
    · exact h
  exact hpark _ (noMatrix_updThread h)

theorem noMatrix_enter {s s' : State} {t : TRef} {va : W64} (h : s.noMatrix = true) (he : s.enter t va = .ok s') :
    s'.noMatrix = true := by
  unfold State.enter at he
  split at he
  · cases he
  · cases he
  · rename_i ht
    cases he
    exact noMatrix_moveTo t va (noMatrix_target h ht)

theorem noMatrix_advance {s s' : State} {t : TRef} (h : s.noMatrix = true) (ha : s.advance t = .ok s') : s'.noMatrix = true := by
  simp only [State.advance] at ha
  split at ha
  · cases ha
    exact noMatrix_updThread h
  · split at ha
    · split at ha
      · split at ha
        · cases ha
          exact noMatrix_updThread h
        · split at ha
          · exact noMatrix_enter (noMatrix_updThread h) ha
          · cases ha
            exact noMatrix_updThread (noMatrix_updThread h)
      · exact noMatrix_enter h ha
    · exact noMatrix_enter h ha

/-! A fetch refused, and a lane settled. -/

theorem noMatrix_markRefused {s : State} (ps : List (Nat × Nat × Look)) (va : Nat) (h : s.noMatrix = true) :
    (s.markRefused ps va).noMatrix = true := by
  unfold State.markRefused
  split
  · split
    · unfold State.refuseWindow
      split
      · exact noMatrix_updCore (fun _ => rfl) h
      · exact h
    · exact h
  · exact h

theorem noMatrix_refuseFetch {s : State} (t : TRef) (va : W64) (h : s.noMatrix = true) : (s.refuseFetch t va).noMatrix = true := by
  simp only [State.refuseFetch]
  split
  · exact h
  · split
    · split
      · exact noMatrix_markRefused _ _ h
      · exact h
    · exact h

/-- A thread of a group that goes on, wherever it comes to. -/
theorem noMatrix_settle_next {s0 s : State} (g n : Nat) (h0 : s0.noMatrix = true) (h : s.noMatrix = true) :
    (s0.settleLane (.thr g n) (.next s)).noMatrix = true := by
  simp only [State.settleLane]
  split
  · exact noMatrix_advance h ‹_›
  · exact noMatrix_trap _ _ _ _ _ _ (noMatrix_refuseFetch _ _ h0)
  · exact h0

theorem mark_cores (s : State) (c : Ctl) : (s.mark c).cores = s.cores := by
  simp only [State.mark]
  refine (foldl_cores (fun s gw => ?_) _ _).trans (foldl_cores (fun s t => ?_) _ _)
  · split <;> rfl
  · cases t <;> rfl

/-! Writes that only pend. -/

theorem later_cores (s : State) (t : TRef) (lat : Nat) (w : Wr) : (s.later t lat w).cores = s.cores := by
  cases w with
  | v n y => exact State.updThread_cores s t _
  | p n b => exact State.updThread_cores s t _
  | k n y => cases t <;> rfl

theorem noMatrix_laters {s : State} (t : TRef) (lat : Wr → Nat) (ws : List Wr) (h : s.noMatrix = true) :
    (ws.foldl (fun s w => s.later t (lat w) w) s).noMatrix = true :=
  foldl_noMatrix (fun s w hs => noMatrix_of_cores (later_cores s t _ w) hs) ws h

/-- With no matrix operation queued no register is locked (R218). -/
theorem wrLocked_of_noMatrix {s : State} (h : s.noMatrix = true) (t : TRef) (w : Wr) : s.wrLocked t w = false := by
  simp only [State.noMatrix, List.all_eq_true, List.isEmpty_iff] at h
  have hany : ∀ p : MuOp → Bool, (s.cores.any fun k => k.mu.any p) = false := by
    intro p
    rw [List.any_eq_false]
    intro k hk
    simp [h k hk]
  cases w with
  | v n y =>
    cases t with
    | thr g i => exact hany _
    | callee c => rfl
  | k n y => exact hany _
  | p n b => rfl

theorem any_wrLocked_of_noMatrix {s : State} (h : s.noMatrix = true) (t : TRef) (ws : List Wr) :
    (ws.any fun w => s.wrLocked t w) = false := by
  simp [wrLocked_of_noMatrix h]

end Sys2Proof.Machine
end

section
/-! SUPPORT. The vector unit's fixed-latency forms, for a gang (R30, R36, R43, R136). -/

namespace Sys2Proof.Machine

/-! The vector unit's forms over one lane (R36, R136). -/

/-- What every form of the vector unit does for a thread: the writes made from the sources, each pending for its latency; a
locked destination holds the thread. -/
def aluLane (i : Instr) (lat : Wr → Nat) (s : State) (t : TRef) : Lane :=
  if ((aluWrites (s.src t) i).getD []).any fun w => s.wrLocked t w then .stay s
  else .next (((aluWrites (s.src t) i).getD []).foldl (fun s w => s.later t (lat w) w) s)

theorem fixedAlu_eq (c : Ctl) (lat : Nat) (i : Instr) (s : State) : fixedAlu c lat i s = native c i s (aluLane i fun _ => lat) := by
  unfold fixedAlu
  congr 1
  funext s t
  unfold aluLane
  cases aluWrites (s.src t) i <;> rfl

theorem moveOne_eq (c : Ctl) (i : Instr) (s : State) : moveOne c false i s = native c i s (aluLane i fun _ => 4) := by
  unfold moveOne
  congr 1
  funext s t
  unfold aluLane
  cases aluWrites (s.src t) i <;> rfl

theorem execCvt_eq (c : Ctl) (dty : Ty) (rnd : Rnd) (sat : Bool) (sty : BitVec 4) (f19 : Bool) (d a b : Operand) (s : State) :
    execCvt c dty rnd sat sty f19 d a b s = native c (.cvt c dty rnd sat sty f19 d a b) s
      (aluLane (.cvt c dty rnd sat sty f19 d a b) (formLatency (.cvt c dty rnd sat sty f19 d a b) 6)) := by
  have hlat : formLatency (.cvt c dty rnd sat sty f19 d a b) 6 = fun w => match w with | .p _ _ => 4 | _ => 6 :=
    funext fun w => by cases w <;> rfl
  unfold execCvt
  congr 1
  funext s t
  rw [hlat]
  unfold aluLane
  cases aluWrites (s.src t) _ <;> rfl

/-- A form of fixed latency is one lane of the vector unit, its latency the opcode table's. -/
theorem exec_fixedLatency {c : Ctl} {i : Instr} {lat : Nat} (s : State) (h : fixedLatency i = some (c, lat)) :
    exec i s = native c i s (aluLane i (formLatency i lat)) := by
  cases i with
  | mov c ty one d a =>
    cases one <;>
      simp only [fixedLatency, if_true, Bool.false_eq_true, if_false, Option.some.injEq, Prod.mk.injEq, reduceCtorEq] at h
    obtain ⟨rfl, rfl⟩ := h
    exact moveOne_eq _ _ s
  | movi c ty one d x =>
    cases one <;>
      simp only [fixedLatency, if_true, Bool.false_eq_true, if_false, Option.some.injEq, Prod.mk.injEq, reduceCtorEq] at h
    obtain ⟨rfl, rfl⟩ := h
    exact moveOne_eq _ _ s
  | cvt c dty rnd sat sty f19 d a b =>
    simp only [fixedLatency, Option.some.injEq, Prod.mk.injEq] at h
    obtain ⟨rfl, rfl⟩ := h
    exact execCvt_eq _ dty rnd sat sty f19 d a b s
  | _ =>
    simp only [fixedLatency, Option.some.injEq, Prod.mk.injEq, reduceCtorEq] at h <;>
      (obtain ⟨rfl, rfl⟩ := h; exact fixedAlu_eq _ _ _ s)

theorem fixedLatency_user {c : Ctl} {i : Instr} {lat : Nat} (h : fixedLatency i = some (c, lat)) : isPrivileged i = false := by
  cases i <;> simp_all [fixedLatency, isPrivileged]

/-- Two step functions that agree where an invariant holds, one of them keeping it, come to the same. -/
theorem foldl_congr_of_invariant {P : State → Prop} {f e : State → TRef → State} {l : List TRef} {s : State} (hs : P s)
    (h : ∀ t ∈ l, ∀ s, P s → f s t = e s t ∧ P (e s t)) : l.foldl f s = l.foldl e s := by
  induction l generalizing s with
  | nil => rfl
  | cons t l ih =>
    obtain ⟨ht, hl⟩ := List.forall_mem_cons.1 h
    obtain ⟨heq, hP⟩ := ht s hs
    rw [List.foldl_cons, List.foldl_cons, heq]
    exact ih hP hl

/-- A gang of threads of groups past every limit, with no matrix operation queued: where the meaning goes on for each thread,
the gang does (R105). -/
theorem native_gang {c : Ctl} {i : Instr} {s : State} {f : State → TRef → Lane} {e : State → TRef → State}
    (hok : gangOk c i s = true) (hp : isPrivileged i = false) (hs : s.noMatrix = true)
    (hf : ∀ s t, s.noMatrix = true → f s t = .next (e s t)) (he : ∀ s t, s.noMatrix = true → (e s t).noMatrix = true) :
    native c i s f = .next (s.gangEnds c e) := by
  refine congrArg (fun s : State => Host.Outcome.next s.tokenEnds) ?_
  refine foldl_congr_of_invariant (P := fun s => s.noMatrix = true) (noMatrix_of_cores (mark_cores s c) hs) fun t ht s' h => ?_
  have hlimit := List.all_eq_true.1 hok t ht
  simp only [Bool.and_eq_true, Option.isNone_iff_eq_none] at hlimit
  obtain ⟨hgroup, hfault⟩ := hlimit
  cases t with
  | callee k => simp [TRef.group] at hgroup
  | thr g n =>
    cases hguard : s'.guard (.thr g n) c with
    | false => simpa [hfault, hguard] using noMatrix_settle_next g n h h
    | true => simpa [hfault, hguard, hp, hf _ _ h] using noMatrix_settle_next g n h (he _ _ h)

/-- Settles O7: every such form is the vector unit's lane, which nothing holds while no matrix operation is queued. -/
theorem aluCompletes : Obligations.AluCompletes := by
  intro c i lat s hi hok hs
  rw [exec_fixedLatency s hi]
  refine native_gang hok (fixedLatency_user hi) hs (fun s t h => ?_) (fun s t h => noMatrix_laters t _ _ h)
  rw [aluLane, any_wrLocked_of_noMatrix h, if_neg Bool.false_ne_true]

end Sys2Proof.Machine
end

section
/-! SUPPORT. Special registers, uniform moves, special functions and quads for one thread (R35, R129, R130, R138, R154, R160). -/

namespace Sys2Proof.Machine

/-- Settles O6, by the lane of each of the two forms and the table of registers. -/
theorem specialRegistersComplete : Obligations.SpecialRegistersComplete := by
  refine ⟨?_, ?_, ?_, ?_⟩
  · intro c ty w d sr s s1 t hr hl
    refine (native_solo _ hr).trans ?_
    rw [if_neg (by simp [hl]), State.ends]
  · intro c ty w sr a s s1 t hr
    exact native_solo _ hr
  · intro s t
    exact ⟨rfl, rfl, rfl, rfl, rfl, rfl⟩
  · intro s t w y
    exact ⟨rfl, rfl⟩

/-- A move of one thread that no lock holds writes its register, `.one` or not. -/
theorem moveOne_solo {c : Ctl} {one : Bool} {i : Instr} {s s1 : State} {t : TRef} (hr : Runs c i s t s1) (hs : s1.noMatrix = true) :
    moveOne c one i s = .next (s1.ends t (s1.laterAll t 4 ((aluWrites (s1.src t) i).getD []))) := by
  refine (native_solo _ hr).trans ?_
  rw [runs_one hr, Bool.and_false, if_neg Bool.false_ne_true]
  cases aluWrites (s1.src t) i with
  | none => rfl
  | some ws => simp only [any_wrLocked_of_noMatrix hs, Bool.false_eq_true, if_false, Option.getD_some, State.ends]

/-- Settles O8. -/
theorem uniformMoveCompletes : Obligations.UniformMoveCompletes :=
  ⟨fun _ _ _ _ _ _ _ _ hr hs => moveOne_solo hr hs, fun _ _ _ _ _ _ _ _ hr hs => moveOne_solo hr hs⟩

/-- A special function of one thread, its flag below 7 and no register locked, is a pending result (R154). -/
theorem specialFn_solo {c : Ctl} {i : Instr} {s s1 : State} {t : TRef} (hr : Runs c i s t s1) (hf : s1.flagFull t c = false)
    (hs : s1.noMatrix = true) (hw : (aluWrites (s1.src t) i).isSome = true) :
    specialFn c i s = .next (s1.ends t (s1.result t c ((aluWrites (s1.src t) i).getD []))) := by
  refine (native_solo _ hr).trans ?_
  obtain ⟨ws, hws⟩ := Option.isSome_iff_exists.1 hw
  simp only [hws, hf, any_wrLocked_of_noMatrix hs, Bool.or_false, Bool.false_eq_true, if_false, Option.getD_some, State.ends]

theorem quadOp_solo {c : Ctl} {i : Instr} {ty : Ty} {d a : Operand} {pos : Nat → Nat} {s s1 : State} {t : TRef}
    (hr : Runs c i s t s1) (hl : s1.destLocked t d (tyRegs ty) = false) :
    quadOp c i ty d a pos s =
      .next (s1.ends t (s1.laterAll t 6 (wrTy ty d (s.quadSrc t ty a (pos ((s.thread t).lane % 4)))))) := by
  refine (native_solo _ hr).trans ?_
  rw [if_neg (by simp [hl]), State.ends]

/-- Settles O9. -/
theorem specialAndQuadFunctionsComplete : Obligations.SpecialAndQuadFunctionsComplete := by
  refine ⟨?_, ?_, ?_⟩
  · intro c d a i s s1 t hi hr hf hs
    simp only [List.mem_cons, List.not_mem_nil, or_false] at hi
    obtain rfl | rfl | rfl | rfl | rfl := hi <;> exact specialFn_solo hr hf hs rfl
  · intro c ty pat d a s s1 t hr hl
    exact quadOp_solo (pos := fun q => Nat.xor q (pat.toNat + 1)) hr hl
  · intro c ty pos d a s s1 t hr hl
    exact quadOp_solo (pos := fun _ => pos.toNat) hr hl

end Sys2Proof.Machine
end

section
/-! SUPPORT. Where a thread goes: the next slot, a transfer, the control instructions (R27, R109, R110, R118 to R124). -/

namespace Sys2Proof.Machine

/-! The check of a target, as its answers name it. -/

theorem target_of_word {r : Target} {w : W96} (h : r.word = some w) : r = .header w r.st := by
  cases r with
  | header w' s' => cases h; rfl
  | bad k => cases h
  | wait => cases h

theorem target_of_cause {r : Target} {k : Nat} (h : r.cause = some k) : r = .bad k := by
  cases r with
  | header w' s' => cases h
  | bad k' => cases h; rfl
  | wait => cases h

theorem adv_of_isOk {a : Adv} (h : a.isOk = true) : a = .ok a.st := by
  cases a with
  | ok s => rfl
  | bad k va => cases h
  | wait => cases h

/-! The next slot (R27, R123). -/

/-- At the last slot of a clause outside a repeat a thread falls through. -/
theorem advance_fall {s : State} {t : TRef} (hslot : (s.thread t).slot.toNat = s.gang.hdr.cnt) (hrep : (s.thread t).rep = none) :
    s.advance t = s.enter t (fallAddr (s.thread t).pc s.gang.hdr.cnt) := by
  simp [State.advance, hslot, hrep]

/-- At the last slot of a repeat body with passes left it begins the body again. -/
theorem advance_repeat {s : State} {t : TRef} {r : Rep} (hslot : (s.thread t).slot.toNat = s.gang.hdr.cnt)
    (hrep : (s.thread t).rep = some r) (hbody : r.body = (s.thread t).pc) (hmore : 1 < r.remaining.toNat) :
    s.advance t = .ok (s.updThread t fun x => { x with slot := 0, stepOver := false, rep := some { r with
      remaining := r.remaining - 1, iteration := r.iteration + 1 } }) := by
  simp [State.advance, hslot, hrep, hbody, hmore]

/-- Settles O5, one case of the advance each. -/
theorem nextSlot : Obligations.NextSlot := by
  refine ⟨?_, ?_, ?_, ?_⟩
  · intro s1 s2 t h
    rw [State.ends, State.endsWith, settle_next (advance_mid h)]
  · intro s1 s2 t hslot hrep ht
    obtain ⟨w, hw⟩ := Option.isSome_iff_exists.1 ht
    rw [State.ends, State.endsWith, settle_next ((advance_fall hslot hrep).trans (enter_header (target_of_word hw)))]
  · intro s1 s2 t k hslot hrep hk
    rw [State.ends, State.endsWith, settle_next_bad ((advance_fall hslot hrep).trans (enter_bad (target_of_cause hk)))]
  · intro s1 s2 t r hslot hrep hbody hmore
    rw [State.ends, State.endsWith, settle_next (advance_repeat hslot hrep hbody hmore)]

/-! Transfers of one thread (R118 to R120). -/

theorem transfer_one (c : Ctl) (u : Bool) (n : Nat) (target : State → TRef → W64) (link : State → TRef → State) (s : State)
    (t : TRef) : s.transfer c u n target link [t] = State.transferPart c u n target link s [t] := by
  rw [State.transfer, gangParts_one, List.foldl_cons, List.foldl_nil]

/-- A part of one thread cannot disagree with itself. -/
theorem transferPart_off {c : Ctl} {u : Bool} {n : Nat} {target : State → TRef → W64} {link : State → TRef → State} {s : State}
    {t : TRef} (hg : s.guard t c = false) :
    State.transferPart c u n target link s [t] = s.settleLane t (.next s) := by
  cases u <;> simp [State.transferPart, hg]

theorem transferPart_taken {c : Ctl} {u : Bool} {n : Nat} {target : State → TRef → W64} {link : State → TRef → State} {s : State}
    {t : TRef} (hg : s.guard t c = true) (hd : n ≤ (s.thread t).depth) (ht : (s.target t (target s t)).word.isSome = true) :
    State.transferPart c u n target link s [t] =
      s.settleLane t (.goto (link (State.leaveTokens n s t) t) (target s t)) := by
  obtain ⟨w, s', hh⟩ : ∃ w s', s.target t (target s t) = .header w s' :=
    (Option.isSome_iff_exists.1 ht).imp fun w hw => ⟨_, target_of_word hw⟩
  cases u <;> simp [State.transferPart, hg, hd, hh, Target.isWait]

/-- A transfer that a gang of one thread takes. -/
theorem transfer_taken {c : Ctl} {u : Bool} {n : Nat} {i : Instr} {target : State → TRef → W64} {link : State → TRef → State}
    {s s1 : State} {t : TRef} (hr : RunsAll c i s [t] s1) (hg : s1.guard t c = true) (hd : n ≤ (s1.thread t).depth)
    (ht : (s1.target t (target s1 t)).word.isSome = true) :
    (nativeAll c i s fun s ms => s.transfer c u n target link ms) =
      .next (s1.endsWith t (.goto (link (State.leaveTokens n s1 t) t) (target s1 t))) := by
  rw [nativeAll_team _ hr, transfer_one, transferPart_taken hg hd ht, State.endsWith]

theorem transfer_off {c : Ctl} {u : Bool} {n : Nat} {i : Instr} {target : State → TRef → W64} {link : State → TRef → State}
    {s s1 : State} {t : TRef} (hr : RunsAll c i s [t] s1) (hg : s1.guard t c = false) :
    (nativeAll c i s fun s ms => s.transfer c u n target link ms) = .next (s1.ends t s1) := by
  rw [nativeAll_team _ hr, transfer_one, transferPart_off hg, State.ends, State.endsWith]

/-- Settles O2: a gang of one thread is one part, and each of the five is that part's transfer. -/
theorem transfersComplete : Obligations.TransfersComplete := by
  refine ⟨?_, ?_, ?_, ?_, ?_, ?_⟩
  · exact fun c u n disp s s1 t hr hg hd ht => transfer_taken hr hg hd ht
  · exact fun c u n a s s1 t hr hg hd ht => transfer_taken hr hg hd ht
  · exact fun c u n a s s1 t hr hg hd ht => transfer_taken hr hg hd ht
  · exact fun c u d disp s s1 t hr hg ht => transfer_taken hr hg (Nat.zero_le _) ht
  · exact fun c u d a s s1 t hr hg ht => transfer_taken hr hg (Nat.zero_le _) ht
  · intro c u n disp d a s s1 t i hi hr hg
    simp only [List.mem_cons, List.not_mem_nil, or_false] at hi
    obtain rfl | rfl | rfl | rfl | rfl := hi <;> exact transfer_off hr hg

/-! The other control instructions. -/

/-- `tok.leave` of one thread whose depth is enough (R122). -/
theorem leavePart_one {c : Ctl} {n : Nat} {s : State} {t : TRef} (hg : s.guard t c = true) (hd : n ≤ (s.thread t).depth) :
    State.leavePart c n s [t] = s.settleLane t (.next (State.leaveTokens n s t)) := by
  simp [State.leavePart, hg, hd]

/-- Settles O1, each by its lane. -/
theorem controlCompletes : Obligations.ControlCompletes := by
  refine ⟨?_, ?_, ?_, ?_, ?_, ?_, ?_, ?_⟩
  · exact fun c s s1 t hr => native_solo _ hr
  · exact fun c s s1 t hr => native_solo _ hr
  · exact fun c s s1 t hr => native_solo _ hr
  · exact fun c s s1 t hr => native_solo _ hr
  · intro c code s s1 t hr hok
    refine (native_solo _ hr).trans ?_
    simp only [State.endsWith, State.settleLane]
    rw [adv_of_isOk hok]
    rfl
  · intro c a disp s s1 t hr hn
    refine (native_solo _ hr).trans ?_
    simp [State.startRepeat, hn, State.ends]
  · intro c a disp s s1 t w hr hn ht hk
    refine (native_solo _ hr).trans ?_
    simp only [State.startRepeat, if_neg hn]
    generalize s1.target t (immTarget (s1.thread t).pc disp) = r at ht ⊢
    rw [target_of_word ht]
    simp [hk, Target.st]
  · intro c n s s1 t hr hg hd
    show execTokLeave c n s = _
    rw [execTokLeave, nativeAll_team _ hr]
    simp only [gangParts_one, List.foldl_cons, List.foldl_nil, leavePart_one hg hd, State.ends, State.endsWith]

end Sys2Proof.Machine
end

section
/-! SUPPORT. Loads of one thread (R169 to R177). -/

namespace Sys2Proof.Machine

theorem access_of_isOk {r : Access} (h : r.isOk = true) : r = .ok r.rs r.st := by
  cases r with
  | ok rs s => rfl
  | fault k a s | nonres a | wait => cases h

theorem access_of_away {r : Access} (h : r.away.isSome = true) : ∃ a, r = .nonres a := by
  cases r with
  | nonres a => exact ⟨a, rfl⟩
  | ok rs s | fault k a s | wait => cases h

theorem doLd_ok {s : State} {t : TRef} {c : Ctl} {ty : Ty} {acq : Bool} {scope : Scope} {fresh nf : Bool} {vec : BitVec 2}
    {d a b : Operand} {off : BitVec 12} {rs : List Range} {s' : State}
    (hheld : (acq && s.loadHeld t c d (vecRegs ty vec) || s.ldHeld t c d (vecRegs ty vec)) = false)
    (hcallee : (s.ctx t).callee = false)
    (hok : s.access t (s.addr t a off) (vecCount vec * tyWidth ty / 8) false nf [(s.addr t a off).toNat] = .ok rs s')
    (hq : s'.quantHeld t (memParts rs) = false) :
    s.doLd t c ty acq scope fresh nf vec d a b off = .next (s'.beginLoad t c (!acq && !fresh && !(s.ctx t).quant) (memParts rs)
      (.regs false (opNum d) ty (vecCount vec)) (if nf then wrP b false else [])
      (if acq && !(s.ctx t).quant then some scope else none)) := by
  simp only [State.doLd, hheld, hok, hcallee, hq, Bool.false_and, Bool.false_eq_true, if_false]

theorem doLd_nonres {s : State} {t : TRef} {c : Ctl} {ty : Ty} {acq : Bool} {scope : Scope} {fresh nf : Bool} {vec : BitVec 2}
    {d a b : Operand} {off : BitVec 12} {va : W64}
    (hheld : (acq && s.loadHeld t c d (vecRegs ty vec) || s.ldHeld t c d (vecRegs ty vec)) = false)
    (haway : s.access t (s.addr t a off) (vecCount vec * tyWidth ty / 8) false nf [(s.addr t a off).toNat] = .nonres va) :
    s.doLd t c ty acq scope fresh nf vec d a b off =
      .next (s.result t c ((List.range (vecRegs ty vec)).map (fun i => Wr.v (opNum d + i) 0) ++ wrP b true)) := by
  simp only [State.doLd, hheld, haway, Bool.false_eq_true, if_false]

/-- A read of a scratchpad range that lies in the thread's own (R169). -/
theorem withSpad_read {s : State} {t : TRef} {a : Operand} {off : BitVec 12} {len core o : Nat} {f : State → Nat → Nat → Lane}
    (h : (s.spadPlace t (s.spadAddr t a off) len).map (·.2) = some (core, o)) :
    (s.withSpad t a off 1 len false fun s _ core o => f s core o) = f s core o := by
  obtain ⟨⟨G, core', o'⟩, hplace, heq⟩ := Option.map_eq_some_iff.1 h
  cases heq
  simp [State.withSpad, hplace, Nat.mod_one]

/-- Settles O11: each load's lane, its checks passed. -/
theorem loadsComplete : Obligations.LoadsComplete := by
  refine ⟨?_, ?_, ?_, ?_, ?_⟩
  · intro c ty acq scope fresh nf vec d a b off s s1 t hr hheld hok hq
    refine (native_solo _ hr).trans ?_
    rw [doLd_ok hheld (runs_callee hr) (access_of_isOk hok) hq, State.ends]
  · intro c ty acq scope fresh nf vec d a b off s s1 t hr hheld haway
    obtain ⟨va, hva⟩ := access_of_away haway
    refine (native_solo _ hr).trans ?_
    rw [doLd_nonres hheld hva, State.ends]
  · intro c ty vec d a off s s1 t core o hr hheld hplace hread
    refine (native_solo _ hr).trans ?_
    simp only [hheld, Bool.false_eq_true, if_false]
    rw [withSpad_read hplace]
    simp only [hread, Bool.false_eq_true, if_false, State.ends]
  · intro c ty one sp vec d a off s s1 t core o hr hsp hheld hplace hread
    refine (native_solo _ hr).trans ?_
    simp only [runs_one hr, hheld, hsp, if_true, Bool.false_eq_true, if_false]
    rw [withSpad_read hplace]
    simp only [hread, Bool.false_eq_true, if_false, State.ends]
  · intro c ty one sp vec d a off s s1 t hr hsp hheld hok hq
    refine (native_solo _ hr).trans ?_
    simp only [runs_one hr, hheld, hsp, Bool.false_eq_true, if_false]
    generalize s1.access t (s1.addr t a off) (vecCount vec * tyWidth ty / 8) false false [(s1.addr t a off).toNat] = r at hok hq ⊢
    rw [access_of_isOk hok]
    simp only [hq, Bool.false_eq_true, if_false, State.ends]
    rfl

end Sys2Proof.Machine
end

section
/-! SUPPORT. Work in flight that completes of its own accord (R36, R39, R81, R189, R197, R271, R431). -/

namespace Sys2Proof.Machine

/-- The operation of an identity, once it has been changed. -/
theorem op?_updOp_same {s : State} {op : Nat} {o : Op} {f : Op → Op} (hf : ∀ y, (f y).id = y.id) (h : s.op? op = some o) :
    (s.updOp op f).op? op = some (f o) := by
  simp only [State.op?, State.updOp] at h ⊢
  rw [find?_listUpd_same (fun y hy => by simpa [hf] using hy), h, Option.map_some]

theorem finish_landOp {s : State} {o : Op} {ws : List Wr} {acq : Bool} (h : (s.thread o.thr).wait ≠ some o.id) :
    s.finish o ws acq = s.landOp o ws acq := by
  simp only [State.finish, bne_iff_ne.2 h, if_true]

theorem execLongLatencyCompletion_of {s s' : State} {op : Nat} {o : Op} (h : s.op? op = some o) (hd : s.deferred o = false)
    (hc : s.complete o = some s') : execLongLatencyCompletion op s = .next s' := by
  simp only [execLongLatencyCompletion, h, hd, hc, Bool.false_eq_true, if_false]

/-- A load of registers all of whose parts have been read, under no acquire that is still open. -/
theorem complete_load {s : State} {o : Op} {l1 : Bool} {parts : List Part} {u : Bool} {first : Nat} {ty : Ty} {n : Nat}
    {more : List Wr} (hk : o.kind = .load l1 parts (.regs u first ty n) more) (hall : (parts.all fun p => p.got.isSome) = true)
    (hopen : s.opsOpen o.under = false) (hw : (s.thread o.thr).wait ≠ some o.id) :
    s.complete o =
      some (s.landOp o (finWrites (.regs u first ty n) (parts.map fun p => p.got.getD []).flatten ++ more) true) := by
  simp only [State.complete, hk, hall, hopen, Bool.and_false, Bool.false_eq_true, if_false, if_true, finish_landOp hw]

theorem complete_loadStep {s : State} {o : Op} {l1 : Bool} {parts : List Part} {fin : Fin} {more : List Wr}
    (hk : o.kind = .load l1 parts fin more) (hall : (parts.all fun p => p.got.isSome) = false) :
    s.complete o = s.loadStep o parts := by
  simp only [State.complete, hk, hall, Bool.false_and, Bool.false_eq_true, if_false]

/-- A run whose members may all be performed now (R272). -/
theorem sliceStep_of {s : State} {o : Op} (hne : (s.sliceRun o).isEmpty = false)
    (hall : ((s.sliceRun o).any fun x => s.deferred x || !s.sliceEnabled x) = false) :
    s.sliceStep o = some ((s.sliceRun o).foldl (fun s x => s.sliceNow x) ((s.sliceRun o).foldl (fun s x => s.sliceOwn x) s)) := by
  simp only [State.sliceStep, hne, hall, Bool.or_self, Bool.false_eq_true, if_false]

/-- A comparison that changes its wait is what the step does. -/
theorem execMwaitRecompare_of {s : State} {op : Nat} {o : Op} {f : Op → Op} (ho : s.op? op = some o)
    (hf : ∀ y, (f y).id = y.id) (hk : (f o).kind ≠ o.kind) (hc : s.compareArm op = s.updOp op f) :
    execMwaitRecompare op s = .next (s.updOp op f) := by
  simp only [execMwaitRecompare, hc, op?_updOp_same hf ho, ho, Option.map_some]
  rw [if_neg (by simpa using hk)]

/-- Settles O30, each event by what it does where its conditions hold. -/
theorem operationEventsComplete : Obligations.OperationEventsComplete := by
  refine ⟨?_, ?_, ?_, ?_, ?_, ?_, ?_, ?_, ?_, ?_⟩
  · intro op s o ws ho hd hk hw
    refine execLongLatencyCompletion_of ho hd ?_
    simp only [State.complete, hk, finish_landOp hw]
  · intro op s o l1 parts u first ty n more ho hd hk hall hopen hw
    exact execLongLatencyCompletion_of ho hd (complete_load hk hall hopen hw)
  · intro op s o l1 parts fin more ho hd hk hall hstep
    obtain ⟨s', hs'⟩ := Option.isSome_iff_exists.1 hstep
    rw [hs', Option.getD_some]
    exact execLongLatencyCompletion_of ho hd ((complete_loadStep hk hall).trans hs')
  · intro entry s he hforce
    obtain ⟨e, he⟩ := Option.isSome_iff_exists.1 he
    show execStoreReachesVisibility entry s = _
    simp only [execStoreReachesVisibility, he, hforce, Bool.not_true, Bool.false_eq_true, if_false]
  · intro op s o run m dst ho hk hne hall
    show execAtOperation op s = _
    simp only [execAtOperation, ho, hk, sliceStep_of hne hall]
  · intro op s o run pa va en root args dst res by_ ho hk hne hall
    show execAcallRoutine op s = _
    simp only [execAcallRoutine, ho, hk, sliceStep_of hne hall]
  · intro op s o core off seen lim dst ho hk hlim
    show execBarrWaitLimit op s = _
    simp only [execBarrWaitLimit, ho, hk, hlim, if_true]
  · intro op s o pa ty val dst ho hk hready hne
    refine execMwaitRecompare_of ho (fun _ => rfl) (by simp [hk]) ?_
    simp [State.compareArm, ho, hk, hready, hne]
  · intro op s o pa ty val dst ho hk hready heq hroom
    refine execMwaitRecompare_of ho (fun _ => rfl) (by simp [hk]) ?_
    simp [State.compareArm, ho, hk, hready, heq, hroom]
  · intro grp tid s n hn hdue
    show execSleepExpiry grp tid s = _
    simp only [execSleepExpiry, hn, hdue, if_true]

end Sys2Proof.Machine
end

section
/-! SUPPORT. A step is the turn at the head of the list, and a turn runs what its word decodes to (R27, R42, R103, R290, R349). -/

namespace Sys2Proof.Machine

theorem fetch_of_got {r : Fetch} {w : W96} (h : r.got = some w) : r = .word w r.st := by
  cases r with
  | word w' s => cases h; rfl
  | fault k va | wait => cases h

/-- A step once booted is its turn, made in the state that has been counted. -/
theorem step_turn {s : State} {t : Turn} {rest : List Turn} (hb : s.bootMode ≠ 0) (ht : s.turns = t :: rest) :
    step s = ({ s with tick := s.tick + 1, turns := rest } : State).turn t := by
  simp only [step, if_neg hb, ht]

theorem turn_gang {s : State} {core slice : Nat} (h : (s.coreAt core).issued.contains slice = false) :
    s.turn (.gang core slice) = s.issueSlice core slice := by
  simp only [State.turn, h, Bool.false_eq_true, if_false]

/-- Counting a step changes no core. -/
theorem step_gang {s : State} {core slice : Nat} {rest : List Turn} (hb : s.bootMode ≠ 0) (ht : s.turns = .gang core slice :: rest)
    (h : (s.coreAt core).issued.contains slice = false) :
    step s = ({ s with tick := s.tick + 1, turns := rest } : State).issueSlice core slice :=
  (step_turn hb ht).trans (turn_gang h)

theorem issueSlice_choice {s : State} {core slice : Nat} {cd : Cand} {st : Option TRef}
    (h : (s.slicePrepared core slice).choice core slice = some (cd, st)) :
    s.issueSlice core slice = onNext ((s.slicePrepared core slice).starveAfter core slice ((s.slicePrepared core slice).gangOf cd st))
      (((s.slicePrepared core slice).asGang core slice cd.hdr ((s.slicePrepared core slice).gangOf cd st)).issueWord cd.word) := by
  simp only [State.issueSlice, h]

theorem issueWord_decoded {s : State} {w : W96} {i : Instr} (h : decode w = some i) : s.issueWord w = exec i s := by
  simp only [State.issueWord, h]

theorem issueWord_bad {s : State} {w : W96} (h : decode w = none) : s.issueWord w = .next (s.badWord w) := by
  simp only [State.issueWord, h]

/-- A candidate of one ready thread stands where the thread stands, with the word and the header found there. -/
theorem readyCand_eq {s : State} {core slice : Nat} {t : TRef} {cd : Cand} (h : s.readyCand core slice t = some cd) :
    s.standing t = some (cd.hdr, cd.word) ∧ cd.pc = (s.thread t).pc ∧ cd.slot = (s.thread t).slot ∧ cd.members = [t] := by
  simp only [State.readyCand] at h
  split at h
  · cases h
  · obtain ⟨hw, hstand, hc⟩ := Option.bind_eq_some_iff.1 h
    split at hc
    · cases hc
      exact ⟨hstand, rfl, rfl, rfl⟩
    · cases hc

theorem issueEngine_decoded {s : State} {e : Nat} {i : Instr} (hpc : (s.engine e).pc < 256)
    (hd : decodeBg ((s.engine e).store.getD (s.engine e).pc 0) = some i) :
    s.issueEngine e = exec i { s with bank := { s.bank with cur := e } } := by
  have hengine : ({ s with bank := { s.bank with cur := e } } : State).engine e = s.engine e := rfl
  simp only [State.issueEngine, hengine, hd, if_neg (Nat.not_le.2 hpc)]

/-- A callee whose time has come, past its clause's header, with a word that is not held. -/
theorem issueCallee_decoded {s : State} {id : Nat} {h w : W96} {i : Instr} (hthere : (s.callee? id).isSome = true)
    (htime : (s.thread (.callee id)).timeUp s.clk = true) (hslot : (s.thread (.callee id)).slot ≠ 0)
    (hh : (s.fetch (.callee id) (s.thread (.callee id)).pc).got = some h)
    (hw : (s.fetch (.callee id) (slotAddr (s.thread (.callee id)).pc (s.thread (.callee id)).slot)).got = some w)
    (hissue : (s.fetch (.callee id) (slotAddr (s.thread (.callee id)).pc (s.thread (.callee id)).slot)).st.wouldIssue
      (s.ctx (.callee id)).core 0 (headerOf h) w [.callee id] = true)
    (hd : decode w = some i) :
    s.issueCallee id = exec i ((s.fetch (.callee id) (slotAddr (s.thread (.callee id)).pc (s.thread (.callee id)).slot)).st.asGang
      (s.ctx (.callee id)).core 0 (headerOf h) [.callee id]) := by
  have hnone : (s.callee? id).isNone = false := by rw [← Option.not_isSome, hthere, Bool.not_true]
  simp only [State.issueCallee, hnone, htime, Bool.not_true, Bool.or_self, Bool.false_eq_true, if_false, if_neg hslot]
  rw [fetch_of_got hh]
  generalize s.fetch (.callee id) (slotAddr (s.thread (.callee id)).pc (s.thread (.callee id)).slot) = r at hw hissue ⊢
  rw [fetch_of_got hw]
  simp only [hissue, if_true]
  exact issueWord_decoded hd

/-- Settles O55, turn by turn. -/
theorem stepRunsDecoded : Obligations.StepRunsDecoded := by
  refine ⟨?_, ?_, ?_, ?_, ?_, ?_⟩
  · intro s core slice rest cd st i hb ht hissued hc hd
    rw [step_gang hb ht hissued, issueSlice_choice hc, issueWord_decoded hd]
  · intro s core slice rest cd st hb ht hissued hc hd
    rw [step_gang hb ht hissued, issueSlice_choice hc, issueWord_bad hd]
    rfl
  · exact fun s core slice t cd h => readyCand_eq h
  · intro s rest e i hb ht hpc hd
    rw [step_turn hb ht]
    exact issueEngine_decoded hpc hd
  · intro s rest i hb ht hi
    rw [step_turn hb ht]
    simp only [State.turn, hi, if_true]
  · intro s rest id h w i hb ht hthere htime hslot hh hw hissue hd
    rw [step_turn hb ht]
    exact issueCallee_decoded hthere htime hslot hh hw hissue hd

end Sys2Proof.Machine
end

section
/-! SUPPORT. Stores of one thread, its prefetches, discards and fences (R78 to R91, R169 to R174, R181 to R184). -/

namespace Sys2Proof.Machine

/-- The entries that a quantum keeps of a store's bytes, one for each of its ranges (R90). -/
def storeItems (rs : List Range) (data : List Byte) : List QItem :=
  (rs.foldl (fun (p : List QItem × Nat) r => (p.1 ++ [QItem.store r.pa (sliceB data p.2 r.len) r.bypass], p.2 + r.len)) ([], 0)).1

theorem doSt_ok {s s' : State} {t : TRef} {ty : Ty} {rel : Bool} {scope : Scope} {vec : BitVec 2} {a b : Operand}
    {off : BitVec 12} {rs : List Range} (hopen : s.acqOpenLoad t = false) (hcallee : (s.ctx t).callee = false)
    (hquant : (s.ctx t).quant = false)
    (hok : s.access t (s.addr t a off) (vecCount vec * tyWidth ty / 8) true false [(s.addr t a off).toNat] = .ok rs s') :
    s.doSt t ty rel scope vec a b off = .next (s'.storeBytes t (if rel then some scope else none) rs
      (storeData ty (vecCount vec) (s.dataWords t ty b (vecRegs ty vec)))) := by
  simp only [State.doSt, hopen, hok, hcallee, hquant, Bool.false_eq_true, if_false]

theorem doSt_quantum {s s' : State} {t : TRef} {ty : Ty} {rel : Bool} {scope : Scope} {vec : BitVec 2} {a b : Operand}
    {off : BitVec 12} {rs : List Range} (hopen : s.acqOpenLoad t = false) (hcallee : (s.ctx t).callee = false)
    (hquant : (s.ctx t).quant = true)
    (hok : s.access t (s.addr t a off) (vecCount vec * tyWidth ty / 8) true false [(s.addr t a off).toNat] = .ok rs s')
    (hfits : quantumFull (s.thread t)
      (storeItems rs (storeData ty (vecCount vec) (s.dataWords t ty b (vecRegs ty vec)))) = false) :
    s.doSt t ty rel scope vec a b off = .next ((storeItems rs
      (storeData ty (vecCount vec) (s.dataWords t ty b (vecRegs ty vec)))).foldl (fun s i => s.buffer t i) s') := by
  rw [storeItems] at hfits ⊢
  simp only [State.doSt, hopen, hok, hcallee, hquant, hfits, Bool.false_eq_true, if_false, if_true]

/-- A write of a scratchpad range that lies in the thread's own, once what its releases put before it is done (R83, R169). -/
theorem withSpad_write {s : State} {t : TRef} {a : Operand} {off : BitVec 12} {len core o : Nat} {f : State → Nat → Nat → Lane}
    (hplace : (s.spadPlace t (s.spadAddr t a off) len).map (·.2) = some (core, o)) (hrel : s.relHeld t = false) :
    (s.withSpad t a off 1 len true fun s _ core o => f s core o) = f (s.relFlush t) core o := by
  obtain ⟨⟨G, core', o'⟩, hplace, heq⟩ := Option.map_eq_some_iff.1 hplace
  cases heq
  simp [State.withSpad, hplace, hrel, Nat.mod_one]

/-- Settles O13: each store's lane, its checks passed. -/
theorem storesComplete : Obligations.StoresComplete := by
  refine ⟨?_, ?_, ?_, ?_⟩
  · intro c ty rel scope vec a b off s s1 t hr hopen hquant hok
    refine (native_solo _ hr).trans ?_
    rw [doSt_ok hopen (runs_callee hr) hquant (access_of_isOk hok), State.ends]
  · intro c ty rel scope vec a b off s s1 t hr hopen hquant hok hfits
    refine (native_solo _ hr).trans ?_
    rw [doSt_quantum hopen (runs_callee hr) hquant (access_of_isOk hok) hfits, State.ends]
    rfl
  · intro c ty vec a b off s s1 t core o hr hacq hplace hrel hheld hquant
    refine (native_solo _ hr).trans ?_
    simp only [hacq, Bool.false_eq_true, if_false]
    rw [withSpad_write hplace hrel]
    simp only [hheld, hquant, Bool.false_eq_true, if_false, State.ends]
  · intro c ty vec a b off s s1 t core o hr hacq hplace hrel hheld hquant hfits
    refine (native_solo _ hr).trans ?_
    simp only [hacq, Bool.false_eq_true, if_false]
    rw [withSpad_write hplace hrel]
    simp only [hheld, hquant, hfits, Bool.false_eq_true, if_false, if_true, State.ends]

/-! Prefetch and discard (R181, R182). -/

/-- An access that passed over one range. -/
theorem access_of_one {x : Access} {r : Range} (hok : x.isOk = true) (hrs : x.rs = [r]) : ∃ s, x = .ok [r] s :=
  ⟨x.st, hrs ▸ access_of_isOk hok⟩

/-- A prefetch whose check does not pass goes on with nothing done (R181). -/
theorem exec_prefetch_notOk {c : Ctl} {l1 : Bool} {a : Operand} {off : BitVec 12} {s s1 : State} {t : TRef}
    (hr : Runs c (.prefetch c l1 a off) s t s1)
    (h : (s1.access t (BitVec.ofNat 64 ((s1.addr t a off).toNat / 128 * 128)) 1 false false
      [(s1.addr t a off).toNat / 128 * 128]).isOk = false) :
    exec (.prefetch c l1 a off) s = .next (s1.ends t s1) := by
  refine (native_solo _ hr).trans ?_
  simp only [State.ends]
  split
  · next hok =>
    rw [hok] at h
    cases h
  · rfl

/-- Settles O14: each form's lane, its checks passed. -/
theorem cacheAndFenceComplete : Obligations.CacheAndFenceComplete := by
  refine ⟨?_, ?_, ?_, ?_, ?_, ?_, ?_, ?_, ?_, ?_, ?_, ?_⟩
  · intro c l1 a off s s1 t hr hok
    exact exec_prefetch_notOk hr hok
  · intro c l1 a off s s1 t r hr hok hrs hgo
    obtain ⟨s', hs'⟩ := access_of_one hok hrs
    rw [hs'] at hgo
    refine (native_solo _ hr).trans ?_
    simp only [hs', Access.st] at hgo ⊢
    simp only [hgo, Bool.false_eq_true, if_false, State.ends]
  · intro c line a off s s1 t hr hopen haway
    obtain ⟨va, hva⟩ := access_of_away haway
    refine (native_solo _ hr).trans ?_
    simp only [hopen, hva, Bool.false_eq_true, if_false, State.ends]
  · intro c line a off s s1 t r hr hopen hok hrs hquant
    obtain ⟨s', hs'⟩ := access_of_one hok hrs
    refine (native_solo _ hr).trans ?_
    simp only [hopen, hquant, hs', Access.st, Bool.false_eq_true, if_false, State.ends]
    rfl
  · intro c line a off s s1 t r hr hopen hok hrs hquant
    obtain ⟨s', hs'⟩ := access_of_one hok hrs
    refine (native_solo _ hr).trans ?_
    simp only [hopen, hquant, hs', Access.st, Bool.false_eq_true, if_false, if_true, State.ends]
    rfl
  · intro c s s1 t hr
    refine (native_solo _ hr).trans ?_
    cases hquant : (s1.ctx t).quant <;> rfl
  · intro c kind scope s s1 t hr hquant
    refine (native_solo _ hr).trans ?_
    simp only [State.doFence, hquant, if_true, State.ends]
  · rintro c kind scope s s1 t hr rfl hquant
    refine (native_solo _ hr).trans ?_
    simp only [State.doFence, hquant, Bool.false_eq_true, if_false, State.ends]
  · rintro c kind scope s s1 t hr rfl hquant
    refine (native_solo _ hr).trans ?_
    simp only [State.doFence, hquant, Bool.false_eq_true, if_false, State.ends]
  · rintro c kind scope s s1 t hr rfl hquant hflush
    refine (native_solo _ hr).trans ?_
    simp only [State.doFence, hquant, hflush, Bool.not_true, Bool.false_eq_true, if_false, State.ends]
  · intro c p q scope s s1 t hr hquant
    refine (native_solo _ hr).trans ?_
    simp only [hquant, if_true, State.ends]
  · intro c p q scope s s1 t hr hquant hflush hopen
    refine (native_solo _ hr).trans ?_
    simp only [hquant, hflush, hopen, Bool.not_true, Bool.or_self, Bool.false_eq_true, if_false, State.ends]

end Sys2Proof.Machine
end

section
/-! SUPPORT. Halted groups, handlers, pre-emption and quanta, each event by what it does where it acts (R92, R95, R409 to
R420). -/

namespace Sys2Proof.Machine

/-- A halted group with nothing in flight once its held operations are cancelled, its request is taken back and its queued
matrix operations are abandoned (R180, R199, R227, R416). -/
def State.quieted (s : State) (grp : Nat) (G : Group) (h : Halt) : State :=
  (((G.threads.foldl (fun s x => s.cancelHeld (.thr grp x.tid)) s).pgreqBack grp).abandon grp).updGroup grp fun G =>
    { G with halt := some { h with quiet := true } }

theorem execGroupQuiet_halted {grp : Nat} {s : State} {G : Group} {h : Halt} (hG : s.group? grp = some G) (hh : G.halt = some h)
    (hq : h.quiet = false) (hok : s.quietOk G = true) (hw : h.why.isTrap = false) :
    execGroupQuiet grp s = .next (s.quieted grp G h) := by
  rw [State.quieted]
  cases hwhy : h.why with
  | trap k => simp [hwhy, HaltWhy.isTrap] at hw
  | _ => simp only [execGroupQuiet, hG, hh, hq, hok, hwhy, Bool.not_true, Bool.or_self, Bool.false_eq_true, if_false]

theorem execGroupQuiet_trapped {grp k : Nat} {s s' : State} {G : Group} {h : Halt} (hG : s.group? grp = some G)
    (hh : G.halt = some h) (hq : h.quiet = false) (hok : s.quietOk G = true) (hw : h.why = .trap k)
    (himg : (s.quieted grp G h).writeTrapImage grp = some s') : execGroupQuiet grp s = .next (s'.handleTrap grp k) := by
  simp only [State.quieted, hw] at himg
  simp only [execGroupQuiet, hG, hh, hq, hok, hw, himg, Bool.not_true, Bool.or_self, Bool.false_eq_true, if_false]

/-- The checks before a handler's reservation and its start (R418). -/
theorem handlerFree {part : Nat} {s : State} (hpart : part < 16) (hnone : (s.handlerGroup part).isNone = true) :
    (decide (16 ≤ part) || (s.handlerGroup part).isSome) = false := by
  simp [Option.isNone_iff_eq_none.1 hnone, hpart]

theorem execHandlerStart_held {part core spad row g : Nat} {s : State} {rc : LaunchRec} {slots rest : List Nat} {G : Group}
    {tbl : Option (List Byte)} (hpart : part < 16) (hnone : (s.handlerGroup part).isNone = true)
    (hpre : (s.partAt part).preempt = .none) (hnext : (s.partAt part).handlerNext = none)
    (hres : (s.partAt part).reserved = .held rc core slots spad row) (hquiet : (s.partAt part).quietQ = g :: rest)
    (hG : s.group? g = some G)
    (htbl : s.tablesOk ({ Launch.blank with id := s.nextId, rc := rc, root := (s.partRoot part).getD 0, upto := 1, placed := 1, args := rc.args, join := rc.join, priv := true, stamp := s.stamp } : Launch) part = some tbl) :
    execHandlerStart part s = .next (
      let L : Launch := { Launch.blank with id := s.nextId, rc := rc, root := (s.partRoot part).getD 0, upto := 1, placed := 1, args := rc.args, join := rc.join, priv := true, stamp := s.stamp }
      let off := BitVec.ofNat 64 (((G.halt.bind (·.image)).bind fun e => e.2.head?).getD 0 * 2 ^ 21)
      let s1 := ({ s with nextId := s.nextId + 1, launches := s.launches ++ [L] } : State).admitLaunch L part tbl
      let H0 := newGroup L s1.nextId part (core / 4) 0 (if rc.stksz = 0 then none else some 0) s.stamp
        ⟨core % 4, slots.map fun k => (core % 4, k), spad, row⟩
      let H : Group := { H0 with handles := some G.id, k := ((H0.k.set 2 (off.extractLsb' 0 32)).set 3 (off.extractLsb' 32 32)).set 4 (BitVec.ofNat 32 part) }
      ((({ s1 with nextId := s1.nextId + 1, groups := s1.groups ++ [H] } : State).takeRoom rc core spad row H.id).updPart part
        fun p => { p with quietQ := p.quietQ.erase G.id })) := by
  have hfind : ((g :: rest).find? fun g => (s.partAt part).preempt == .none ||
      ((s.group? g).bind fun G => s.launch? G.launch).any fun L => L.rc.quant) = some g := by
    simp [hpre]
  simp only [execHandlerStart, handlerFree hpart hnone, hnext, hres, hquiet, hfind, Option.bind_some, hG, htbl,
    Option.isSome_none, Bool.or_self, Bool.false_eq_true, if_false]

/-- Settles O39: each event, its conditions met. -/
theorem trapEventsComplete : Obligations.TrapEventsComplete := by
  refine ⟨?_, ?_, ?_, ?_, ?_, ?_, ?_, ?_, ?_, ?_, ?_, ?_, ?_, ?_, ?_⟩
  · intro grp s G h hG hh hq hok hw
    exact execGroupQuiet_halted hG hh hq hok hw
  · intro grp s G h k hG hh hq hok hw himg
    obtain ⟨s', hs'⟩ := Option.isSome_iff_exists.1 himg
    rw [hs', Option.getD_some]
    exact execGroupQuiet_trapped hG hh hq hok hw hs'
  · rintro part s p v hpart hnone rfl hv
    show execHandlerReservation part s = _
    simp only [execHandlerReservation, handlerFree hpart hnone, hv, Bool.false_eq_true, if_false]
  · rintro part s p rc hpart hnone rfl hnext hres hrect hrc
    show execHandlerReservation part s = _
    simp only [execHandlerReservation, handlerFree hpart hnone, hnext, hres, hrect, Bool.not_true, Bool.false_eq_true, if_false]
    cases hcheck : s.checkRecord (s.partRoot part) ((s.partAt part).handler.toNat % 2 ^ 57) (fun rc => (0, rc.ngrp + 1)) false with
    | ok rc' s' =>
      rw [hcheck] at hrc
      cases hrc
      simp only [RecCheck.st]
      split <;> rfl
    | bad _ _ _ | lost _ | wait _ =>
      rw [hcheck] at hrc
      cases hrc
  · rintro part s p rc hpart hnone rfl hnext hres hrect hpow hroom
    obtain ⟨⟨q, n⟩, hq⟩ := Option.isSome_iff_exists.1 hroom
    show execHandlerReservation part s = _
    simp only [execHandlerReservation, handlerFree hpart hnone, hnext, hres, hrect, hq, decide_eq_false (Nat.not_lt.2 hpow),
      Bool.not_true, Bool.or_self, Bool.false_eq_true, if_false, State.updPart]
  · rintro part s p rc core slots spad row g rest G tbl hpart hnone rfl hpre hnext hres hquiet hG htbl
    exact execHandlerStart_held hpart hnone hpre hnext hres hquiet hG htbl
  · rintro part s p hpart rfl hpre hsav hopen harea
    show execPreemptDrainComplete part s = _
    simp only [execPreemptDrainComplete, hpre, hsav, hopen, decide_eq_false (Nat.not_le.2 hpart), bne_self_eq_false, Bool.not_true,
      Bool.or_self, Bool.false_eq_true, if_false]
    refine if_neg ?_
    simpa [imp_iff_not_or] using harea
  · rintro n s p hn rfl hstop hpre hsave hsize
    show execPartCmdPreempt n s = _
    simp only [execPartCmdPreempt, hstop, hpre, hsave, decide_eq_false (Nat.not_le.2 hn), decide_eq_false (Nat.not_lt.2 hsize),
      bne_self_eq_false, Bool.not_true, Bool.or_self, Bool.false_eq_true, if_false]
  · rintro n s p hn rfl hstop hpre hbad
    show execPartCmdPreempt n s = _
    simp only [execPartCmdPreempt, hstop, hpre, decide_eq_false (Nat.not_le.2 hn), bne_self_eq_false, Bool.or_self,
      Bool.false_eq_true, if_false]
    rw [if_pos (by simpa using hbad)]
  · exact fun n s => rfl
  · exact fun n s => rfl
  · intro n s hn
    exact if_neg (Nat.not_le.2 hn)
  · intro l s hdue
    exact if_pos hdue
  · intro l s L hL hcom hout hdrain
    show execQuantumCommitComplete l s = _
    simp only [execQuantumCommitComplete, hL, hcom, hout, hdrain, Bool.not_true, Option.isSome_none, Bool.or_self,
      Bool.false_eq_true, if_false]
  · intro part measured s hpart htime
    show execGrantWindow part measured s = _
    simp only [execGrantWindow, htime, decide_eq_false (Nat.not_le.2 hpart), bne_self_eq_false, Bool.or_self,
      Bool.false_eq_true, if_false]

end Sys2Proof.Machine
end

section
/-! SUPPORT. A write at its point of visibility reads back and leaves every other byte (R81, R299, R319). -/

namespace Sys2Proof.Machine

/-! Bytes listed. -/

theorem cellFind_putBytes (a b : Nat) (xs : List Byte) (l : List Host.Cell) (h : cellsRise l = true) :
    cellFind (putBytes cellPut a xs l) b = if a ≤ b ∧ b < a + xs.length then some (xs.getD (b - a) 0) else cellFind l b := by
  induction xs generalizing a l with
  | nil => simp [putBytes]
  | cons x xs ih =>
    rw [putBytes, ih (a + 1) _ (cellsRise_put a x l h)]
    by_cases hba : b = a
    · subst hba
      simp [cellFind_put_same]
    · rw [cellFind_put_other a b x l h hba]
      by_cases hin : a + 1 ≤ b ∧ b < a + 1 + xs.length
      · obtain ⟨k, rfl⟩ := Nat.exists_eq_add_of_le hin.1
        rw [if_pos hin, if_pos (by simp; omega), Nat.add_sub_cancel_left, show a + 1 + k - a = k + 1 by omega]
        rfl
      · rw [if_neg hin, if_neg (by simp; omega)]

theorem Memory.wf_rise {m : Memory} (h : m.wf = true) : cellsRise m.dram = true := by
  have h := ((Memory.wf_iff m).1 h).1
  simp only [cellsZero, Bool.and_eq_true] at h
  exact h.1

/-! Sectors. -/

/-- The sector found at a base after one has been put: that one at its own base, the one before elsewhere. -/
theorem find?_putSector (x : Sector) (l : List Sector) (k : Nat) :
    (putSector x l).find? (fun y => y.base == k) = if x.base = k then some x else l.find? fun y => y.base == k := by
  unfold putSector
  split
  · next hany =>
    have hbase : (fun y : Sector => y.base == k) ∘ (fun y => if y.base == x.base then x else y) = fun y => y.base == k := by
      funext y
      by_cases hy : y.base = x.base <;> simp [hy]
    rw [List.find?_map, hbase]
    cases hf : l.find? fun y => y.base == k with
    | none =>
      obtain ⟨y, hy, hyx⟩ := List.any_eq_true.1 hany
      have := List.find?_eq_none.1 hf y hy
      rw [if_neg (by simp_all)]
      rfl
    | some y =>
      have hk : y.base = k := by simpa using List.find?_some hf
      rw [Option.map_some, hk]
      by_cases hx : x.base = k <;> simp [hx, Ne.symm]
  · by_cases hx : x.base = k <;> simp [hx]

theorem putSector_sector? (m : Memory) (x : Sector) (a : Nat) :
    ({ m with l2 := putSector x m.l2 } : Memory).sector? a = if x.base = a / 32 * 32 then some x else m.sector? a :=
  find?_putSector x m.l2 _

/-- The byte of a device address at its point of visibility (R299). -/
def Memory.devByte (m : Memory) (a : Nat) : Byte := ((m.sector? a).map fun x => x.data.getD (a % 32) 0).getD (m.dramByte a)

theorem Memory.visByte_host {m : Memory} {a : Nat} (h : paHome a = 8) : m.visByte a = (cellFind m.hostw a).getD (Config.hostByte a) := by
  simp only [Memory.visByte, h, if_true]

theorem Memory.visByte_dev {m : Memory} {a : Nat} (h : paHome a ≠ 8) : m.visByte a = m.devByte a := by
  simp only [Memory.visByte, h, if_false, Memory.devByte]
  cases m.sector? a <;> rfl

/-- Two memories that agree in the host's listed bytes and in every device byte show the same bytes. -/
theorem Memory.visByte_congr {m n : Memory} (hh : n.hostw = m.hostw) {a : Nat} (hd : n.devByte a = m.devByte a) :
    n.visByte a = m.visByte a := by
  by_cases h : paHome a = 8
  · rw [visByte_host h, visByte_host h, hh]
  · rw [visByte_dev h, visByte_dev h, hd]

theorem sector_mod {a b : Nat} (hb : b % 32 = 0) (h : a / 32 * 32 = b) : a = b + a % 32 := by omega

theorem getD_map_range (f : Nat → Byte) {n i : Nat} (h : i < n) : ((List.range n).map f).getD i 0 = f i := by
  simp [List.getD_eq_getElem?_getD, h]

/-- A clean copy holds what the DRAM holds (R299). -/
theorem Memory.fill_devByte (m : Memory) (b ways a : Nat) : (m.fill b ways).devByte a = m.devByte a := by
  unfold Memory.fill
  split
  · rfl
  · next hnone =>
    by_cases hab : b / 32 * 32 = a / 32 * 32
    · have hold : m.sector? a = none := by simpa only [Memory.sector?, hab] using hnone
      have hnew : ({ m with l2 := ⟨b / 32 * 32, m.dramBytes (b / 32 * 32) 32, false, ways⟩ :: m.l2 } : Memory).sector? a =
          some ⟨b / 32 * 32, m.dramBytes (b / 32 * 32) 32, false, ways⟩ := by
        simp [Memory.sector?, hab]
      simp only [Memory.devByte, hold, hnew, Option.map_some, Option.map_none, Option.getD_some, Option.getD_none]
      rw [Memory.dramBytes, getD_map_range _ (Nat.mod_lt a (by decide)), hab, Nat.div_add_mod' a 32]
    · simp [Memory.devByte, Memory.sector?, hab, Memory.dramByte]

theorem Memory.fill_hostw (m : Memory) (b ways : Nat) : (m.fill b ways).hostw = m.hostw := by
  unfold Memory.fill
  split <;> rfl

theorem Memory.fill_visByte (m : Memory) (b ways a : Nat) : (m.fill b ways).visByte a = m.visByte a :=
  visByte_congr (fill_hostw m b ways) (fill_devByte m b ways a)

theorem Memory.fills_visByte (ways a : Nat) (l : List Nat) (m : Memory) :
    (l.foldl (fun m b => m.fill b (m.waysOf b ways)) m).visByte a = m.visByte a :=
  List.foldlRecOn (motive := fun n : Memory => n.visByte a = m.visByte a) l _ rfl fun n hn b _ => (fill_visByte n b _ a).trans hn

/-- A sector found, of 32 aligned bytes, that is written back reads the same from the DRAM (R299). -/
theorem Memory.dramByte_writeback {m : Memory} {x : Sector} (hm : m.wf = true) (hx : x.data.length = 32) (hb : x.base % 32 = 0)
    (a : Nat) : (cellFind (putBytes cellSet0 x.base x.data m.dram) a).getD 0 =
      if x.base = a / 32 * 32 then x.data.getD (a % 32) 0 else m.dramByte a := by
  rw [putBytes_read x.base a x.data m.dram (wf_rise hm), hx]
  by_cases h : x.base = a / 32 * 32
  · rw [if_pos (by omega), if_pos h, show a - x.base = a % 32 by omega]
  · rw [if_neg (by omega), if_neg h]
    rfl

theorem Memory.sector?_base {m : Memory} {a : Nat} {x : Sector} (h : m.sector? a = some x) : x.base = a / 32 * 32 := by
  simpa using List.find?_some h

/-- A sector written back and kept changes no byte (R299). -/
theorem Memory.writeback_keep_devByte {m : Memory} (hm : m.wf = true) (hl : m.l2Ok = true) (b a : Nat) :
    (m.writeback b true).devByte a = m.devByte a := by
  unfold Memory.writeback
  split
  · rfl
  · next x hx =>
    obtain ⟨hlen, hbase⟩ := (Memory.l2Ok_iff m).1 hl x (Memory.sector_mem hx)
    by_cases hab : x.base = a / 32 * 32
    · have hold : m.sector? a = some x := by
        have := Memory.sector?_base hx
        simpa only [Memory.sector?, ← hab, this] using hx
      have hnew (n : Memory) (hn : n.l2 = putSector { x with dirty := false } m.l2) : n.sector? a = some { x with dirty := false } := by
        simp only [Memory.sector?, hn, find?_putSector, hab, if_true]
      simp only [Memory.devByte, hold, if_true, Option.map_some, Option.getD_some]
      rw [hnew _ (by split <;> rfl)]
      rfl
    · have hnew (n : Memory) (hn : n.l2 = putSector { x with dirty := false } m.l2) : n.sector? a = m.sector? a := by
        simp only [Memory.sector?, hn, find?_putSector, hab, if_false]
      simp only [Memory.devByte, if_true]
      rw [hnew _ (by split <;> rfl)]
      congr 1
      split
      · exact (dramByte_writeback hm hlen hbase a).trans (if_neg hab)
      · rfl

theorem Memory.writeback_hostw (m : Memory) (b : Nat) (keep : Bool) : (m.writeback b keep).hostw = m.hostw := by
  unfold Memory.writeback
  split
  · rfl
  · dsimp only
    split <;> rfl

/-- The sector found at a base once those of another base have been dropped. -/
theorem find?_dropSector (b : Nat) (l : List Sector) (k : Nat) :
    (l.filter fun y => y.base != b).find? (fun y => y.base == k) = if b = k then none else l.find? fun y => y.base == k := by
  rw [List.find?_filter]
  by_cases hbk : b = k
  · rw [if_pos hbk, List.find?_eq_none]
    intro y _
    simp [hbk]
  · rw [if_neg hbk]
    congr 1
    funext y
    by_cases hy : y.base = k <;> simp [hy, Ne.symm hbk]

/-- A dirty sector of 32 aligned bytes that is put and dropped stands in the DRAM (R299, R319). -/
theorem Memory.writeback_put_devByte {m : Memory} (hm : m.wf = true) {x : Sector} (hd : x.dirty = true) (hlen : x.data.length = 32)
    (hbase : x.base % 32 = 0) (a : Nat) : (({ m with l2 := putSector x m.l2 } : Memory).writeback x.base false).devByte a =
      if x.base = a / 32 * 32 then x.data.getD (a % 32) 0 else m.devByte a := by
  have hfind : ({ m with l2 := putSector x m.l2 } : Memory).sector? x.base = some x := by
    rw [putSector_sector?, if_pos (by omega)]
  simp only [Memory.writeback, hfind, hd, if_true, Bool.false_eq_true, if_false]
  simp only [Memory.devByte, Memory.sector?, Memory.dramByte]
  rw [dramByte_writeback hm hlen hbase a, find?_dropSector, find?_putSector]
  split
  · rfl
  · rfl

theorem Memory.wf_l2 {m : Memory} (l : List Sector) (h : m.wf = true) : ({ m with l2 := l } : Memory).wf = true := h

/-! A write, sector by sector. -/

/-- What a write does at one sector: its bytes merged in, and under bypass the sector not kept (R81, R319). -/
def Memory.performSector (pa : Nat) (data : List Byte) (bypass : Bool) (ways : Nat) (m : Memory) (b : Nat) : Memory :=
  let m' := { m with l2 := putSector ⟨b, mergeSector b (m.visBytes b 32) pa data, true, m.waysOf b ways⟩ m.l2 }
  if bypass then m'.writeback b false else m'

theorem Memory.perform_dev {m : Memory} {pa : Nat} (data : List Byte) (bypass : Bool) (ways : Nat) (h : paHome pa ≠ 8) :
    m.perform pa data bypass ways = (sectorsOf pa data.length).foldl (Memory.performSector pa data bypass ways)
      (if bypass then m else (m.storeFetches pa data.length).foldl (fun m b => m.fill b (m.waysOf b ways)) m) := by
  rw [Memory.perform, if_neg h]
  rfl

theorem Memory.wf_performSector {pa : Nat} {data : List Byte} {bypass : Bool} {ways b : Nat} {m : Memory} (h : m.wf = true) :
    (Memory.performSector pa data bypass ways m b).wf = true := by
  unfold Memory.performSector
  cases bypass with
  | false => exact wf_l2 _ h
  | true => exact wf_writeback _ _ _ (wf_l2 _ h)

theorem Memory.performSector_hostw (pa : Nat) (data : List Byte) (bypass : Bool) (ways b : Nat) (m : Memory) :
    (Memory.performSector pa data bypass ways m b).hostw = m.hostw := by
  unfold Memory.performSector
  cases bypass with
  | false => rfl
  | true => exact writeback_hostw _ _ _

/-- The byte at an address once a sector has been written: the written one where the sector and the write cover it. -/
theorem Memory.performSector_devByte {pa : Nat} {data : List Byte} {bypass : Bool} {ways b : Nat} {m : Memory} (h : m.wf = true)
    (hb : b % 32 = 0) (hhome : ∀ i < 32, paHome (b + i) ≠ 8) (a : Nat) :
    (Memory.performSector pa data bypass ways m b).devByte a =
      if b = a / 32 * 32 ∧ pa ≤ a ∧ a < pa + data.length then data.getD (a - pa) 0 else m.devByte a := by
  have hput : (Memory.performSector pa data bypass ways m b).devByte a =
      if b = a / 32 * 32 then (mergeSector b (m.visBytes b 32) pa data).getD (a % 32) 0 else m.devByte a := by
    unfold Memory.performSector
    cases bypass with
    | true => exact writeback_put_devByte h rfl (mergeSector_length _ _ _ _) hb a
    | false =>
      simp only [Bool.false_eq_true, if_false, Memory.devByte, putSector_sector?]
      split <;> rfl
  rw [hput]
  by_cases hab : b = a / 32 * 32
  · have ha : b + a % 32 = a := by omega
    have hlt : a % 32 < 32 := Nat.mod_lt a (by decide)
    rw [if_pos hab, mergeSector, getD_map_range _ hlt, ha]
    rw [Memory.visBytes, getD_map_range _ hlt, ha, visByte_dev (ha ▸ hhome _ hlt)]
    simp only [hab, true_and, Bool.and_eq_true, decide_eq_true_eq]
  · simp only [hab, false_and, if_false]

theorem Memory.performSectors_devByte {pa : Nat} {data : List Byte} {bypass : Bool} {ways : Nat} (a : Nat) (l : List Nat)
    (hl : ∀ b ∈ l, b % 32 = 0 ∧ ∀ i < 32, paHome (b + i) ≠ 8) {m : Memory} (h : m.wf = true) :
    (l.foldl (Memory.performSector pa data bypass ways) m).devByte a =
      if a / 32 * 32 ∈ l ∧ pa ≤ a ∧ a < pa + data.length then data.getD (a - pa) 0 else m.devByte a := by
  induction l generalizing m with
  | nil => simp
  | cons b l ih =>
    obtain ⟨hb, hhome⟩ := hl b List.mem_cons_self
    rw [List.foldl_cons, ih (fun c hc => hl c (List.mem_cons_of_mem _ hc)) (wf_performSector h), performSector_devByte h hb hhome]
    simp only [List.mem_cons]
    by_cases hin : a / 32 * 32 ∈ l <;> by_cases hr : pa ≤ a ∧ a < pa + data.length <;> simp [hin, hr, eq_comm]

theorem Memory.performSectors_hostw (pa : Nat) (data : List Byte) (bypass : Bool) (ways : Nat) (l : List Nat) (m : Memory) :
    (l.foldl (Memory.performSector pa data bypass ways) m).hostw = m.hostw :=
  List.foldlRecOn (motive := fun n : Memory => n.hostw = m.hostw) l _ rfl fun n hn b _ =>
    (performSector_hostw pa data bypass ways b n).trans hn

/-! Where the bytes of a range lie. -/

theorem mem_sectorsOf {pa n b : Nat} : b ∈ sectorsOf pa n ↔ n ≠ 0 ∧ b % 32 = 0 ∧ b < pa + n ∧ pa < b + 32 := by
  unfold sectorsOf
  split
  · simp [*]
  · simp only [List.mem_map, List.mem_range]
    constructor
    · rintro ⟨i, hi, rfl⟩
      omega
    · rintro ⟨-, hb, hlo, hhi⟩
      exact ⟨b / 32 - pa / 32, by omega, by omega⟩

/-- The sectors of a range within a home lie in that home. -/
theorem paHome_sector {pa n b i : Nat} (hin : pa % 2 ^ 48 + n ≤ 2 ^ 48) (hb : b ∈ sectorsOf pa n) (hi : i < 32) :
    paHome (b + i) = paHome pa := by
  obtain ⟨-, hmod, hlo, hhi⟩ := mem_sectorsOf.1 hb
  simp only [paHome]
  omega

theorem paHome_range {pa n a : Nat} (hin : pa % 2 ^ 48 + n ≤ 2 ^ 48) (hlo : pa ≤ a) (hhi : a < pa + n) : paHome a = paHome pa := by
  simp only [paHome]
  omega

/-- A write at its point of visibility reads back byte by byte, and leaves every other byte alone (R81, R299). -/
theorem Memory.perform_read {m : Memory} {pa : Nat} {data : List Byte} (bypass : Bool) (ways a : Nat) (hm : m.wf = true)
    (hin : pa % 2 ^ 48 + data.length ≤ 2 ^ 48) : (m.perform pa data bypass ways).visByte a =
      if pa ≤ a ∧ a < pa + data.length then data.getD (a - pa) 0 else m.visByte a := by
  by_cases hhome : paHome pa = 8
  · rw [Memory.perform, if_pos hhome]
    by_cases ha : paHome a = 8
    · rw [visByte_host ha, visByte_host ha, cellFind_putBytes pa a data m.hostw ((Memory.wf_iff m).1 hm).2]
      split <;> rfl
    · rw [if_neg fun h => ha ((paHome_range hin h.1 h.2).trans hhome), visByte_dev ha, visByte_dev ha]
      rfl
  · rw [perform_dev data bypass ways hhome]
    have hstart (P : Memory → Prop) (h0 : P m) (hfill : ∀ n b, P n → P (n.fill b (n.waysOf b ways))) :
        P (if bypass then m else (m.storeFetches pa data.length).foldl (fun m b => m.fill b (m.waysOf b ways)) m) := by
      split
      · exact h0
      · exact List.foldlRecOn _ _ h0 fun n hn b _ => hfill n b hn
    have hwf := hstart (·.wf = true) hm fun n b hn => wf_fill n b _ hn
    have hvis := hstart (·.visByte a = m.visByte a) rfl fun n b hn => (fill_visByte n b _ a).trans hn
    generalize (if bypass then m else _) = n at hwf hvis ⊢
    rw [← hvis]
    by_cases ha : paHome a = 8
    · rw [if_neg fun h => hhome ((paHome_range hin h.1 h.2).symm.trans ha), visByte_host ha, visByte_host ha, performSectors_hostw]
    · rw [visByte_dev ha, visByte_dev ha, performSectors_devByte a _ (fun b hb => ⟨(mem_sectorsOf.1 hb).2.1, fun i hi =>
        (paHome_sector hin hb hi).symm ▸ hhome⟩) hwf]
      have hcover : (a / 32 * 32 ∈ sectorsOf pa data.length ∧ pa ≤ a ∧ a < pa + data.length) ↔ pa ≤ a ∧ a < pa + data.length := by
        rw [mem_sectorsOf]
        omega
      simp only [hcover]

/-- Settles O51, sector by sector. -/
theorem memoryReadsBack : Obligations.MemoryReadsBack :=
  ⟨fun _ _ a _ bypass ways hm hin => Memory.perform_read bypass ways a hm hin,
    fun m pa a data hm => Memory.dramWrite_read m pa a data hm,
    fun m a b ways => Memory.fill_visByte m b ways a,
    fun m a b hm hl => Memory.visByte_congr (Memory.writeback_hostw m b true) (Memory.writeback_keep_devByte hm hl b a)⟩

end Sys2Proof.Machine
end

section
/-! SUPPORT. A store to the scratchpad where two operations in flight bear one identity (R80, R83, R169). -/

namespace Sys2Proof.Machine

/-- A load of the storing thread from the very scratchpad word that the store writes, still to be performed. -/
def twinLoad : Op :=
  { id := 5, thr := .thr 1 0, core := 0, flag := none, kind := .load false [⟨.spad 0 16380, 4, false, none, none⟩] .none [], acq := none,
    before := [], under := [], from_ := [], sees := [], after := [], clob := [], run := 0 }

/-- A load of memory that bears the same identity and stands before it. -/
def twinMemLoad : Op := { twinLoad with kind := .load false [⟨.mem 0x200000, 4, true, none, none⟩] .none [] }

/-- A queued write that the load of memory reads; its release orders `twinOrdered` before it. -/
def twinReleased : QWrite := ⟨10, .ls, 0, 0x200000, [1, 1, 1, 1], true, none, [], [(11, .system)], [], .own, 0, [], none⟩
def twinOrdered : QWrite := ⟨11, .ls, 0, 0x300000, [1], true, none, [], [], [], .own, 0, [], none⟩

/-- The state that refutes the frame: the thread's own load of the word is settled by its identity, which finds the load of
memory, and that load makes `twinOrdered` visible. -/
def twinState : State :=
  let s := Tests.wSpadEnd
  { s with ops := [twinMemLoad, twinLoad], mem := { s.mem with wq := [twinOrdered, twinReleased] } }

/-- The store of v3 at v14, in `twinState`. -/
def twinStore : Instr := .sts Tests.wc .b32 0 (.v 14) (.v 3) 0

theorem twinState_runs : Runs Tests.wc twinStore twinState (.thr 1 0) (twinState.mark Tests.wc) := ⟨by decide +kernel, rfl⟩

theorem twinState_place : (((twinState.mark Tests.wc).spadPlace (.thr 1 0) ((twinState.mark Tests.wc).spadAddr (.thr 1 0) (.v 14) 0)
    (vecCount 0 * tyWidth .b32 / 8)).map (·.2)) = some (0, 16380) := by decide +kernel

theorem twinState_visByte : twinState.mem.visByte 0x300000 = 0 := by decide +kernel

/-- The store makes the write at 0x300000 visible. -/
theorem twinStore_visByte : (outState twinState (exec twinStore twinState)).mem.visByte 0x300000 = 1 := by decide +kernel

/-- Refutes O52: an earlier load of the stored word is found by its identity, and where another operation bears it too, that
one is performed in its place and makes a queued write visible. -/
theorem not_scratchpadStoresFrame : ¬ Obligations.ScratchpadStoresFrame := by
  rintro ⟨-, h⟩
  obtain ⟨t, ht, -, hvis, -⟩ := h Tests.wc .b32 0 (.v 14) (.v 3) 0 twinState (twinState.mark Tests.wc) (.thr 1 0) 0 16380 _
    twinState_runs (by decide +kernel) (by decide +kernel) (by decide +kernel) (by decide +kernel) rfl twinState_place
    (by decide +kernel) (by decide +kernel) (by decide +kernel)
  have hstore : t.mem.visByte 0x300000 = 1 := by
    have := twinStore_visByte
    rwa [show exec twinStore twinState = .next t from ht] at this
  rw [hvis, twinState_visByte] at hstore
  exact absurd hstore (by decide)

end Sys2Proof.Machine
end

section
/-! SUPPORT. A store whose walk sets A and D where the L2 has no room for the line of its leaf (R8, R299, R320). -/

namespace Sys2Proof.Machine

/-! Words over bytes. -/

theorem bytesToNat_natToBytes (n x : Nat) : bytesToNat (natToBytes n x) = x % 256 ^ n := by
  induction n generalizing x with
  | zero => simp [natToBytes, bytesToNat, Nat.mod_one]
  | succ n ih =>
    rw [natToBytes, bytesToNat, ih, BitVec.toNat_ofNat]
    exact (Nat.mod_mul.symm : x % 256 + 256 * (x / 256 % 256 ^ n) = x % (256 * 256 ^ n)).trans
      (congrArg (x % ·) (Nat.pow_succ' (m := 256) (n := n)).symm)

theorem toW64_bytes8 (x : W64) : toW64 (bytes8 x) = x := by
  rw [toW64, bytes8, bytesToNat_natToBytes, Nat.mod_eq_of_lt (by simpa using x.isLt), BitVec.ofNat_toNat, BitVec.setWidth_eq]

theorem natToBytes_length (n x : Nat) : (natToBytes n x).length = n := by
  induction n generalizing x with
  | zero => rfl
  | succ n ih => simp [natToBytes, ih]

/-- A free choice among several is one of them. -/
theorem State.pick_mem {α : Type} (s : State) (keys : List Nat) {l : List α} (h : l ≠ []) : ∃ x ∈ l, s.pick keys l = some x := by
  match l, h with
  | [x], _ => exact ⟨x, by simp, rfl⟩
  | x :: y :: l, _ =>
    refine ⟨_, ?_, rfl⟩
    have hlt : Config.choose s.tick keys % (l.length + 2) < (x :: y :: l).length := Nat.mod_lt _ (by simp)
    rw [List.getD_eq_getElem?_getD, List.getElem?_eq_getElem hlt, Option.getD_some]
    exact List.getElem_mem hlt

/-! The state. -/

/-- Frames five apart begin lines of one slice (R8). -/
def staleBase (j : Nat) : Nat := 327680 * j

/-- A leaf that is valid, writable and of user level, and that stands as a table pointer too: at entry 0 of its own frame it
maps the first page to that frame. -/
def selfEntry (j : Nat) : W64 := (0 : BitVec 12) ++ BitVec.ofNat 36 (5 * j) ++ (0xB : BitVec 16)

/-- A clean copy, of ones, of a sector whose DRAM bytes are zero (R303), in the partition of the leaf's page. -/
def staleSector (j0 j : Nat) : Sector := ⟨staleBase j, List.replicate 32 1, false, Config.choose 0 [0x408, 5 * j0] % 8⟩

/-- The page table stands in the DRAM, and the L2 holds two stale clean sectors. -/
def staleMem (j0 j1 j2 : Nat) : Memory :=
  { Memory.reset.dramWrite (staleBase j0) (bytes8 (selfEntry j0)) with l2 := [staleSector j0 j1, staleSector j0 j2] }

def staleState (j0 j1 j2 : Nat) : State := { Tests.wMake id (fun L => { L with root := 5 * j0 }) id with mem := staleMem j0 j1 j2 }

/-- The store of v3 at address 0. -/
def staleStore : Instr := .st Tests.wc .b32 false .wave 0 (.v 16) (.v 3) 0

theorem staleState_runs (j0 j1 j2 : Nat) :
    Runs Tests.wc staleStore (staleState j0 j1 j2) (.thr 1 0) ((staleState j0 j1 j2).mark Tests.wc) := ⟨rfl, rfl⟩

theorem staleState_mark (j0 j1 j2 : Nat) : ((staleState j0 j1 j2).mark Tests.wc).mem = staleMem j0 j1 j2 ∧
    ((staleState j0 j1 j2).mark Tests.wc).tick = 0 ∧ ((staleState j0 j1 j2).mark Tests.wc).xlat = State.reset.xlat ∧
    ((staleState j0 j1 j2).mark Tests.wc).bank = State.reset.bank := ⟨rfl, rfl, rfl, rfl⟩

theorem staleStore_addr (j0 j1 j2 : Nat) : ((staleState j0 j1 j2).mark Tests.wc).addr (.thr 1 0) (.v 16) 0 = 0 := by
  have hlo : ((staleState j0 j1 j2).mark Tests.wc).vreg (.thr 1 0) (16 : BitVec 8).toNat = 0 := rfl
  have hhi : ((staleState j0 j1 j2).mark Tests.wc).vreg (.thr 1 0) ((16 : BitVec 8).toNat + 1) = 0 := rfl
  simp only [State.addr, State.src64, State.src, hlo, hhi]
  decide

/-! The walk finds the entry at every level (R317, R318). -/

theorem selfEntry_low (j i : Nat) (h : i < 16) : (selfEntry j).getLsbD i = (0xB : BitVec 16).getLsbD i := by
  rw [selfEntry, BitVec.getLsbD_append, if_pos h]

theorem selfEntry_high (j i : Nat) (h : 52 ≤ i) : (selfEntry j).getLsbD i = false := by
  rw [selfEntry, BitVec.getLsbD_append, if_neg (by omega), BitVec.getLsbD_append, if_neg (by omega), BitVec.ofNat_eq_ofNat,
    BitVec.getLsbD_zero]

theorem selfEntry_frame {j : Nat} (h : j < 1025) : lfFrame (selfEntry j) = 5 * j := by
  have : (selfEntry j).extractLsb' 16 36 = BitVec.ofNat 36 (5 * j) := by
    ext i hi
    rw [BitVec.getElem_extractLsb', selfEntry, BitVec.getLsbD_append, if_neg (by omega), BitVec.getLsbD_append, if_pos (by omega),
      ← BitVec.getLsbD_eq_getElem]
    congr 1
    omega
  rw [lfFrame, this, BitVec.toNat_ofNat]
  omega

theorem selfEntry_size (j : Nat) : lfSize (selfEntry j) = 0 := by
  have : (selfEntry j).extractLsb' 52 2 = 0 := by
    ext i hi
    rw [BitVec.getElem_extractLsb', selfEntry_high j _ (by omega)]
    simp
  rw [lfSize, this]
  rfl

theorem selfEntry_V (j : Nat) : lfV (selfEntry j) = true := selfEntry_low j 0 (by decide)
theorem selfEntry_W (j : Nat) : lfW (selfEntry j) = true := selfEntry_low j 1 (by decide)
theorem selfEntry_U (j : Nat) : lfU (selfEntry j) = true := selfEntry_low j 3 (by decide)
theorem selfEntry_N (j : Nat) : lfN (selfEntry j) = false := selfEntry_low j 7 (by decide)

theorem staleMem_wf (j0 j1 j2 : Nat) : (staleMem j0 j1 j2).wf = true :=
  Memory.wf_l2 _ (Memory.wf_dramWrite _ _ _ Memory.wf_reset)

theorem staleMem_formOk (j0 j1 j2 : Nat) : (staleState j0 j1 j2).formOk = true := by
  refine (State.formOk_iff _).2 ⟨staleMem_wf j0 j1 j2, ?_, ?_⟩
  · refine (Memory.l2Ok_iff _).2 fun x hx => ?_
    have hx : x = staleSector j0 j1 ∨ x = staleSector j0 j2 := by simpa [staleState, staleMem] using hx
    rcases hx with rfl | rfl <;> exact ⟨by simp [staleSector], by simp [staleSector, staleBase]; omega⟩
  · exact List.all_eq_true.1 (rfl : ((staleState j0 j1 j2).cores.all fun k => cellsRise k.spad) = true)

theorem staleMem_dramByte (j0 j1 j2 a : Nat) : (staleMem j0 j1 j2).dramByte a =
    if staleBase j0 ≤ a ∧ a < staleBase j0 + 8 then (bytes8 (selfEntry j0)).getD (a - staleBase j0) 0 else 0 := by
  have := Memory.dramWrite_read Memory.reset (staleBase j0) a (bytes8 (selfEntry j0)) Memory.wf_reset
  rwa [bytes8, natToBytes_length] at this

theorem find?_cons_sector (x : Sector) (l : List Sector) (k : Nat) :
    (x :: l).find? (fun y => y.base == k) = if x.base = k then some x else l.find? fun y => y.base == k := by
  by_cases h : x.base = k <;> simp [h]

theorem staleMem_sector? (j0 j1 j2 a : Nat) : (staleMem j0 j1 j2).sector? a =
    if staleBase j1 = a / 32 * 32 then some (staleSector j0 j1) else if staleBase j2 = a / 32 * 32 then some (staleSector j0 j2) else none := by
  simp only [Memory.sector?, staleMem, find?_cons_sector, List.find?_nil, staleSector]

theorem visByte_of_sector {m : Memory} {a : Nat} (h : m.sector? a = none) (hh : paHome a ≠ 8) : m.visByte a = m.dramByte a := by
  rw [Memory.visByte_dev hh, Memory.devByte, h]
  rfl

section
variable {j0 j1 j2 : Nat} (h0 : j0 < 1025) (h1 : j1 < 1025) (h2 : j2 < 1025) (h01 : j0 ≠ j1) (h02 : j0 ≠ j2) (h12 : j1 ≠ j2)
include h0 h01 h02

theorem staleMem_entry : toW64 ((staleMem j0 j1 j2).visBytes (staleBase j0) 8) = selfEntry j0 := by
  have : (staleMem j0 j1 j2).visBytes (staleBase j0) 8 = bytes8 (selfEntry j0) := by
    refine List.ext_getElem (by simp [Memory.visBytes, bytes8, natToBytes_length]) fun i hi _ => ?_
    have hi : i < 8 := by simpa [Memory.visBytes] using hi
    simp only [Memory.visBytes, List.getElem_map, List.getElem_range]
    rw [visByte_of_sector, staleMem_dramByte, if_pos (by omega), Nat.add_sub_cancel_left]
    · simp [List.getD_eq_getElem?_getD, bytes8, natToBytes_length, hi]
    · rw [staleMem_sector?, if_neg (by simp only [staleBase]; omega), if_neg (by simp only [staleBase]; omega)]
    · simp only [paHome, staleBase]
      omega
  rw [this, toW64_bytes8]

/-- What the walk reads of a state: its memory, with no translation cached, no stub, no migration, no row held and no word in
error. -/
def StaleAt (j0 j1 j2 : Nat) (s : State) : Prop :=
  s.mem = staleMem j0 j1 j2 ∧ s.tick = 0 ∧ s.xlat = State.reset.xlat ∧ s.bank = State.reset.bank

omit h01 h02 in
theorem staleBase_lt : staleBase j0 < 2 ^ 29 := by
  rw [staleBase]
  omega

omit h01 h02 in
theorem staleBase_exists : paExists (staleBase j0) = true ∧ paHome (staleBase j0) = 0 := by
  have hlt := staleBase_lt h0
  have hhome : paHome (staleBase j0) = 0 := Nat.div_eq_of_lt (by omega)
  have hoff : paOff (staleBase j0) = staleBase j0 := Nat.mod_eq_of_lt (by omega)
  exact ⟨by simp [paExists, hhome, hoff]; omega, hhome⟩

theorem stale_tableEntry {s : State} (hs : StaleAt j0 j1 j2 s) : s.tableEntry (5 * j0) 0 = (staleBase j0, selfEntry j0) := by
  obtain ⟨hmem, -, -, hbank⟩ := hs
  have hpa : 5 * j0 * 2 ^ 16 + 0 * 8 = staleBase j0 := by
    rw [staleBase]
    omega
  obtain ⟨hex, hhome⟩ := staleBase_exists h0
  simp only [State.tableEntry, hpa, hex, hhome, hbank, hmem]
  rw [show State.reset.bank.bad = [] from rfl, List.contains_nil, if_pos (by decide), staleMem_entry h0 h01 h02]

theorem stale_walk {s : State} (hs : StaleAt j0 j1 j2 s) : s.walk (5 * j0) 0 = some (staleBase j0, selfEntry j0) := by
  have hbits : ∀ hi lo, bitsOf 0 hi lo = 0 := fun hi lo => by simp [bitsOf]
  simp [State.walk, hbits, stale_tableEntry h0 h01 h02 hs, selfEntry_V, selfEntry_size, selfEntry_frame h0]

omit h0 h01 h02 in
theorem stale_walkHeld {s : State} (hs : StaleAt j0 j1 j2 s) : s.walkHeld (5 * j0) 0 = false := by
  have hmigs : s.xlat.migs = [] := by rw [hs.2.2.1]; rfl
  have hopen : ∀ a, s.pageOpen a = true := fun a => by simp [State.pageOpen, hmigs]
  have hread : ∀ a, s.coreReadOk a = true := fun a => by
    have hrot : s.rotAt a = none := by
      simp only [State.rotAt, hs.2.2.2]
      split <;> rfl
    simp [State.coreReadOk, State.dramReadOk, hrot]
  simp [State.walkHeld, hopen, hread]

/-- The walk's answer: a leaf read from the table. -/
def staleLook (j0 : Nat) : Look := ⟨some (selfEntry j0), staleBase j0, true, false⟩

theorem stale_lookup {s : State} (hs : StaleAt j0 j1 j2 s) (die : Nat) (w : Bool) (keys : List Nat) :
    s.lookup die (5 * j0) 0 w keys = staleLook j0 := by
  have htlb : s.xlat.tlb = [] := by rw [hs.2.2.1]; rfl
  simp [State.lookup, stale_walk h0 h01 h02 hs, stale_walkHeld hs, htlb, State.pick, staleLook]

theorem stale_pages {s : State} (hs : StaleAt j0 j1 j2 s) (die : Nat) (keys : List Nat) :
    s.pages die (5 * j0) 0 4 true keys = [(0, 4, staleLook j0)] := by
  have hsplit : splitPages 0 4 = [(0, 4)] := by decide
  simp [State.pages, hsplit, stale_lookup h0 h01 h02 hs]

omit h01 h02 in
theorem selfEntry_pageFault : pageFault false true false (some (selfEntry j0)) = none := by
  obtain ⟨hex, hhome⟩ := staleBase_exists h0
  have hpa : 5 * j0 * 65536 = staleBase j0 := by
    rw [staleBase]
    omega
  simp [pageFault, selfEntry_V, selfEntry_N, selfEntry_U, selfEntry_W, selfEntry_frame h0, hpa, hex, hhome]

theorem stale_access {s : State} (hs : StaleAt j0 j1 j2 s) {g n : Nat} (hroot : (s.ctx (.thr g n)).root = 5 * j0)
    (hpriv : (s.ctx (.thr g n)).priv = false) (keys : List Nat) : s.access (.thr g n) 0 4 true false keys =
      .ok [pageRange (0, 4, staleLook j0)] (s.fillPages (.core (s.ctx (.thr g n)).core) (s.ctx (.thr g n)).die (5 * j0) [(0, 4, staleLook j0)] true) := by
  have hstub : s.xlat.stubs = [] := by rw [hs.2.2.1]; rfl
  simp [State.access, State.accessVia, hroot, hpriv, stale_pages h0 h01 h02 hs, staleLook, firstFault, selfEntry_pageFault h0,
    selfEntry_N, State.redirHeld, hstub]

/-! The L2 makes room for the line of the leaf (R8, R318). -/

omit h01 h02 in
theorem staleBase_slice : sliceOf (staleBase j0) = (0, 0) := by
  have hlt := staleBase_lt h0
  have hbits : bitsOf (staleBase j0) 47 7 = 2560 * j0 := by
    rw [bitsOf, Nat.mod_eq_of_lt (by omega), staleBase]
    omega
  rw [sliceOf, paDie, (staleBase_exists h0).2, hbits, show 2560 * j0 % 80 = 0 by omega]

omit h0 h01 h02 in
theorem staleBase_line (j : Nat) : staleBase j / 128 = 2560 * j := by
  rw [staleBase]
  omega

include h1 h2 h12 in
/-- One of the two stale lines leaves the L2, where the three lines share a set. -/
theorem stale_l2Room {s : State} (hs : StaleAt j0 j1 j2 s)
    (hset1 : Config.l2Set (2560 * j1) % 512 = Config.l2Set (2560 * j0) % 512)
    (hset2 : Config.l2Set (2560 * j2) % 512 = Config.l2Set (2560 * j0) % 512) :
    ∃ j, (j = j1 ∨ j = j2) ∧ s.l2Room (staleBase j0) =
      some ((sectorsOf (128 * (2560 * j)) 128).foldl (fun s b => s.writeback b false) s) := by
  obtain ⟨hmem, htick, hxlat, -⟩ := hs
  have hhome := (staleBase_exists h0).2
  have hl2 : s.mem.l2 = [staleSector j0 j1, staleSector j0 j2] := by rw [hmem]; rfl
  have hways : s.partitionOf (staleBase j0) = Config.choose 0 [0x408, 5 * j0] % 8 := by
    have htlb : s.xlat.tlb = [] := by rw [hxlat]; rfl
    have hpage : staleBase j0 / 2 ^ 16 = 5 * j0 := by
      rw [staleBase]
      omega
    simp only [State.partitionOf, htlb, htick, hpage, List.find?_nil]
  have hnear : (s.mem.l2.filter fun x => sliceOf x.base == sliceOf (staleBase j0)) = [staleSector j0 j1, staleSector j0 j2] := by
    simp [hl2, staleSector, staleBase_slice h0, staleBase_slice h1, staleBase_slice h2]
  have hout : (s.mem.l2.any fun x => x.base / 128 == staleBase j0 / 128) = false := by
    simp only [hl2, staleSector, staleBase_line, List.any_cons, List.any_nil, Bool.or_false, Bool.or_eq_false_iff, beq_eq_false_iff_ne]
    omega
  have hset : ∀ j, (Config.l2Set (2560 * j) % sliceSets == Config.l2Set (2560 * j0) % sliceSets) =
      decide (Config.l2Set (2560 * j) % 512 = Config.l2Set (2560 * j0) % 512) := fun j => rfl
  have hlines : ((([staleSector j0 j1, staleSector j0 j2].filter fun x => x.ways == s.partitionOf (staleBase j0) &&
      Config.l2Set (x.base / 128) % sliceSets == Config.l2Set (staleBase j0 / 128) % sliceSets).map fun x => x.base / 128).eraseDups) =
      [2560 * j1, 2560 * j2] := by
    have hne : (2560 * j2 == 2560 * j1) = false := by
      rw [beq_eq_false_iff_ne]
      omega
    simp [hways, staleSector, staleBase_line, hset, hset1, hset2, List.eraseDups_cons, hne]
  have hclean : ∀ b, s.writebackOk b = true := fun b => by
    simp only [State.writebackOk, hmem, staleMem_sector?]
    split
    · rfl
    · next x hx =>
      split at hx
      · cases hx; rfl
      · split at hx
        · cases hx; rfl
        · cases hx
  obtain ⟨l, hl, hpick⟩ := s.pick_mem [0x406, staleBase j0 / 128] (l := [2560 * j1, 2560 * j2]) (by simp)
  have hroom : s.l2Room (staleBase j0) = some ((sectorsOf (128 * l) 128).foldl (fun s b => s.writeback b false) s) := by
    simp only [State.l2Room, hnear, hlines, hhome, hout]
    rw [if_neg (by simp)]
    rw [List.filter_eq_self.2 fun l _ => List.all_eq_true.2 fun b _ => hclean b, hpick, Option.map_some]
  rcases List.mem_cons.1 hl with rfl | hl
  · exact ⟨j1, .inl rfl, hroom⟩
  · exact ⟨j2, .inr rfl, by simpa [List.mem_singleton.1 hl] using hroom⟩

end

/-! What a line that leaves the L2 clean leaves behind (R299). -/

/-- Every sector of the L2 is clean. -/
def Memory.allClean (m : Memory) : Prop := ∀ x ∈ m.l2, x.dirty = false

theorem Memory.sector?_none {m : Memory} {a : Nat} (h : ∀ x ∈ m.l2, x.base ≠ a / 32 * 32) : m.sector? a = none := by
  refine List.find?_eq_none.2 fun x hx => ?_
  simpa using h x hx

/-- A sector that is dropped clean leaves the DRAM, and the L2 without it. -/
theorem State.writeback_clean {s : State} (hc : s.mem.allClean) (b : Nat) : (s.writeback b false).mem.dram = s.mem.dram ∧
    ∀ y ∈ (s.writeback b false).mem.l2, y ∈ s.mem.l2 ∧ y.base ≠ b / 32 * 32 := by
  unfold State.writeback
  cases hx : s.mem.sector? b with
  | none =>
    refine ⟨rfl, fun y hy => ⟨hy, ?_⟩⟩
    simpa using List.find?_eq_none.1 hx y hy
  | some x =>
    have hd := hc x (Memory.sector_mem hx)
    have hbase := Memory.sector?_base hx
    have hsame : s.mem.sector? x.base = some x := by
      rw [← hx, Memory.sector?, Memory.sector?, hbase, Nat.mul_div_cancel _ (by decide)]
    simp only [hd, Memory.writeback, hsame, Bool.false_eq_true, if_false, List.mem_filter, bne_iff_ne, ← hbase]
    exact ⟨trivial, fun y hy => hy⟩

theorem State.writebacks_clean (l : List Nat) {s : State} (hc : s.mem.allClean) :
    (l.foldl (fun s b => s.writeback b false) s).mem.dram = s.mem.dram ∧
    ∀ y ∈ (l.foldl (fun s b => s.writeback b false) s).mem.l2, y ∈ s.mem.l2 ∧ ∀ b ∈ l, y.base ≠ b / 32 * 32 := by
  induction l generalizing s with
  | nil => exact ⟨rfl, fun y hy => ⟨hy, by simp⟩⟩
  | cons b l ih =>
    obtain ⟨hdram, hl2⟩ := State.writeback_clean hc b
    obtain ⟨hdram', hl2'⟩ := ih fun x hx => hc x (hl2 x hx).1
    refine ⟨hdram'.trans hdram, fun y hy => ?_⟩
    obtain ⟨hy1, hy2⟩ := hl2' y hy
    obtain ⟨hy3, hy4⟩ := hl2 y hy1
    exact ⟨hy3, by simpa using ⟨hy4, hy2⟩⟩

/-- Once a clean line has left the L2, its bytes read as the DRAM holds them. -/
theorem State.writebacks_visByte {l : List Nat} {s : State} (hc : s.mem.allClean) {a : Nat} (ha : a / 32 * 32 ∈ l)
    (hh : paHome a ≠ 8) : (l.foldl (fun s b => s.writeback b false) s).mem.visByte a = s.mem.dramByte a := by
  obtain ⟨hdram, hl2⟩ := State.writebacks_clean l hc
  rw [visByte_of_sector (Memory.sector?_none fun x hx => ?_) hh, Memory.dramByte, hdram, Memory.dramByte]
  have := (hl2 x hx).2 _ ha
  rwa [Nat.mul_div_cancel _ (by decide)] at this

/-! What the store leaves as it was. -/

theorem Memory.visByte_parts {m n : Memory} (hd : n.dram = m.dram) (hh : n.hostw = m.hostw) (hl : n.l2 = m.l2) (a : Nat) :
    n.visByte a = m.visByte a := by
  simp only [Memory.visByte, Memory.sector?, Memory.dramByte, hd, hh, hl]

/-- A part of the state that every step of a fold leaves, the fold leaves. -/
theorem foldl_leaves {α β : Type} (p : State → β) {f : State → α → State} (hf : ∀ s x, p (f s x) = p s) (l : List α) (s : State) :
    p (l.foldl f s) = p s :=
  List.foldlRecOn (motive := fun t : State => p t = p s) l f rfl fun t ht x _ => (hf t x).trans ht

theorem tokenEnd_mem (n : Nat) (s : State) (g w : Nat) : (State.tokenEnd n s g w).mem = s.mem := by
  have hround (s : State) : (s.tokenRound g w).1.mem = s.mem := by
    unfold State.tokenRound
    split
    · rfl
    · split <;> rfl
  induction n generalizing s with
  | zero => rfl
  | succ n ih =>
    simp only [State.tokenEnd]
    split
    · exact (ih _).trans (hround s)
    · exact hround s

theorem tokenEnds_mem (s : State) : s.tokenEnds.mem = s.mem := by
  refine foldl_leaves State.mem (fun s gw => ?_) _ s
  split
  · rfl
  · exact tokenEnd_mem _ _ _ _

/-- A thread that goes on in the middle of its clause changes no memory. -/
theorem ends_mem {s1 s : State} {t : TRef} (h : (s.thread t).slot.toNat < s.gang.hdr.cnt) : (s1.ends t s).mem = s.mem := by
  rw [State.ends, State.endsWith, settle_next (advance_mid h), tokenEnds_mem]
  cases t <;> rfl

/-- What decides where a thread of a group stands in its clause. -/
def State.place (s : State) : List Group × Gang := (s.groups, s.gang)

theorem thread_of_place {s t : State} (h : t.place = s.place) (g n : Nat) : t.thread (.thr g n) = s.thread (.thr g n) := by
  simp only [State.thread, State.thread?, State.group?, show t.groups = s.groups from (Prod.ext_iff.1 h).1]

theorem testWrite_place (s : State) (pa : Nat) : (s.testWrite pa).place = s.place := by
  simp only [State.testWrite]
  split
  · split <;> rfl
  · rfl

theorem writeback_place (s : State) (b : Nat) (keep : Bool) : (s.writeback b keep).place = s.place := by
  unfold State.writeback
  split
  · rfl
  · dsimp only
    split
    · exact testWrite_place s _
    · rfl

theorem l2RoomAll_place (s : State) (pa n : Nat) : (s.l2RoomAll pa n).place = s.place := by
  refine foldl_leaves State.place (fun s b => ?_) _ s
  simp only [State.l2Room]
  split
  · rfl
  · cases s.pick _ _ with
    | none => rfl
    | some l => exact foldl_leaves State.place (fun s b => writeback_place s b false) _ s

theorem perform_place {s : State} {pa : Nat} (h : paHome pa ≠ 15) (d : List Byte) : (s.perform pa d false).place = s.place := by
  rw [State.perform, if_neg h]
  exact l2RoomAll_place s pa d.length

theorem askAts_same (s : State) (pa : Nat) : (s.askAts pa).place = s.place ∧ (s.askAts pa).mem = s.mem := by
  unfold State.askAts
  split <;> exact ⟨rfl, rfl⟩

theorem askRange_same (s : State) (pa n : Nat) : (s.askRange pa n).place = s.place ∧ (s.askRange pa n).mem = s.mem := by
  unfold State.askRange
  split
  · exact ⟨foldl_leaves State.place (fun s i => (askAts_same s _).1) _ s, foldl_leaves State.mem (fun s i => (askAts_same s _).2) _ s⟩
  · exact ⟨rfl, rfl⟩

/-- The bytes of memory and where threads stand are no matter of a word that enters the store queue. -/
theorem storeWord_same (s : State) (t : TRef) (rel : Option Scope) (pa : Nat) (d : List Byte) (by_ : Bool) (l m : List (Nat × Scope)) :
    (s.storeWord t rel pa d by_ l m).place = s.place ∧ (s.storeWord t rel pa d by_ l m).mem.dram = s.mem.dram ∧
    (s.storeWord t rel pa d by_ l m).mem.hostw = s.mem.hostw ∧ (s.storeWord t rel pa d by_ l m).mem.l2 = s.mem.l2 := by
  have h := askAts_same s pa
  exact ⟨h.1, (congrArg Memory.dram h.2 :), (congrArg Memory.hostw h.2 :), (congrArg Memory.l2 h.2 :)⟩

theorem storeBytes_same (s : State) (t : TRef) (rs : List Range) (d : List Byte) : (s.storeBytes t none rs d).place = s.place ∧
    ∀ a, (s.storeBytes t none rs d).mem.visByte a = s.mem.visByte a := by
  have key : ∀ (f : State × Nat → Nat × Nat × Bool → State × Nat),
      (∀ p w, (f p w).1.place = p.1.place ∧ ∀ a, (f p w).1.mem.visByte a = p.1.mem.visByte a) →
      ∀ (l : List (Nat × Nat × Bool)) (p : State × Nat), (l.foldl f p).1.place = p.1.place ∧
        ∀ a, (l.foldl f p).1.mem.visByte a = p.1.mem.visByte a := by
    intro f hf l p
    refine List.foldlRecOn (motive := fun q : State × Nat => q.1.place = p.1.place ∧ ∀ a, q.1.mem.visByte a = p.1.mem.visByte a)
      l f ⟨rfl, fun _ => rfl⟩ fun q hq w _ => ⟨(hf q w).1.trans hq.1, fun a => ((hf q w).2 a).trans (hq.2 a)⟩
  refine key _ (fun p w => ?_) _ (s, 0)
  obtain ⟨hplace, hd, hh, hl⟩ := storeWord_same p.1 t none w.1 (sliceB d p.2 w.2.1) w.2.2 (s.carried t ++ []).eraseDups (s.carriedOps t ++ []).eraseDups
  exact ⟨hplace, Memory.visByte_parts hd hh hl⟩

/-! The store evicts. -/

/-- A walk that sets A and D writes its leaf at the leaf's home (R320). -/
theorem fillTlb_sets {s : State} {u : TlbUser} {die root va : Nat} {leaf : W64} {pa : Nat} {w : Bool}
    (h : (toW64 (s.mem.visBytes pa 8) &&& 0x60 == 0x60) = false) :
    (s.fillTlb u die root va ⟨some leaf, pa, true, w⟩ true).mem =
      (s.perform pa (bytes8 (toW64 (s.mem.visBytes pa 8) ||| 0x60)) false).mem ∧
    (s.fillTlb u die root va ⟨some leaf, pa, true, w⟩ true).place =
      (s.perform pa (bytes8 (toW64 (s.mem.visBytes pa 8) ||| 0x60)) false).place := by
  simp only [State.fillTlb, if_true, h, Bool.false_eq_true, if_false]
  exact ⟨rfl, rfl⟩

theorem linesOf_line {pa n : Nat} (hpa : pa % 128 = 0) (hn : n ≤ 32) (h0 : n ≠ 0) : linesOf pa n = [pa] := by
  have hone : (pa % 32 + n + 31) / 32 = 1 := by omega
  have hline : pa / 32 * 32 / 128 * 128 = pa := by omega
  simp [linesOf, sectorsOf, h0, hone, hline, List.eraseDups_cons]

section
variable {j0 j1 j2 : Nat} (h0 : j0 < 1025) (h1 : j1 < 1025) (h2 : j2 < 1025) (h01 : j0 ≠ j1) (h02 : j0 ≠ j2) (h12 : j1 ≠ j2)
    (hset1 : Config.l2Set (2560 * j1) % 512 = Config.l2Set (2560 * j0) % 512)
    (hset2 : Config.l2Set (2560 * j2) % 512 = Config.l2Set (2560 * j0) % 512)

include h01 h02 in
theorem staleMem_visByte {j : Nat} (hj : j = j1 ∨ j = j2) (hlt : j < 1025) : (staleMem j0 j1 j2).visByte (staleBase j) = 1 := by
  have hhome : paHome (staleBase j) ≠ 8 := by simp [(staleBase_exists hlt).2]
  have hbase : staleBase j / 32 * 32 = staleBase j ∧ staleBase j % 32 = 0 := by
    simp only [staleBase]
    omega
  rw [Memory.visByte_dev hhome, Memory.devByte, staleMem_sector?, hbase.1, hbase.2]
  rcases hj with rfl | rfl
  · rw [if_pos rfl]
    rfl
  · split
    · rfl
    · rw [if_pos rfl]
      rfl

theorem staleMem_clean : (staleMem j0 j1 j2).allClean := by
  intro x hx
  have hx : x = staleSector j0 j1 ∨ x = staleSector j0 j2 := by simpa [staleMem] using hx
  rcases hx with rfl | rfl <;> rfl

include h0 h1 h2 h01 h02 h12 hset1 hset2

/-- The write of the leaf's bits makes one of the stale sectors leave the L2, and its bytes read as the DRAM's zeros. -/
theorem stale_perform {s : State} (hs : StaleAt j0 j1 j2 s) (hform : s.formOk = true) {d : List Byte} (hd : d.length = 8) :
    ∃ j, (j = j1 ∨ j = j2) ∧ (s.perform (staleBase j0) d false).mem.visByte (staleBase j) = 0 := by
  obtain ⟨j, hj, hroom⟩ := stale_l2Room h0 h1 h2 h01 h02 h12 hs hset1 hset2
  have hlt : j < 1025 := by
    rcases hj with rfl | rfl <;> assumption
  have hne : j0 ≠ j := by
    rcases hj with rfl | rfl <;> assumption
  refine ⟨j, hj, ?_⟩
  have hall : s.l2RoomAll (staleBase j0) d.length = (sectorsOf (128 * (2560 * j)) 128).foldl (fun s b => s.writeback b false) s := by
    rw [State.l2RoomAll, linesOf_line (by simp only [staleBase]; omega) (by omega) (by omega)]
    simp only [List.foldl_cons, List.foldl_nil, hroom, Option.getD_some]
  have hform' := State.formOk_l2RoomAll (staleBase j0) d.length hform
  have hin : ¬(staleBase j0 ≤ staleBase j ∧ staleBase j < staleBase j0 + d.length) := by
    simp only [staleBase]
    omega
  have hhome := staleBase_exists hlt
  have hlow := staleBase_lt h0
  have hmem : (s.perform (staleBase j0) d false).mem.visByte (staleBase j) =
      ((s.l2RoomAll (staleBase j0) d.length).mem.perform (staleBase j0) d false
        ((s.l2RoomAll (staleBase j0) d.length).partitionOf (staleBase j0))).visByte (staleBase j) := by
    rw [State.perform, if_neg (by simp [(staleBase_exists h0).2])]
    exact Memory.visByte_parts rfl rfl rfl _
  rw [hmem, Memory.perform_read _ _ _ ((State.formOk_iff _).1 hform').1 (by rw [hd, Nat.mod_eq_of_lt] <;> omega), if_neg hin, hall,
    State.writebacks_visByte (hs.1 ▸ staleMem_clean) ?_ (by simp [hhome.2]), hs.1, staleMem_dramByte, if_neg]
  · simp only [staleBase]
    omega
  · simp only [mem_sectorsOf, staleBase]
    omega

theorem stale_fillPages {s : State} (hs : StaleAt j0 j1 j2 s) (hform : s.formOk = true) (u : TlbUser) (die : Nat) :
    (s.fillPages u die (5 * j0) [(0, 4, staleLook j0)] true).place = s.place ∧
    ∃ j, (j = j1 ∨ j = j2) ∧ (s.fillPages u die (5 * j0) [(0, 4, staleLook j0)] true).mem.visByte (staleBase j) = 0 := by
  have hnow : toW64 (s.mem.visBytes (staleBase j0) 8) = selfEntry j0 := by rw [hs.1, staleMem_entry h0 h01 h02]
  have hunset : (toW64 (s.mem.visBytes (staleBase j0) 8) &&& 0x60 == 0x60) = false := by
    rw [hnow, beq_eq_false_iff_ne]
    intro h
    have := congrArg (BitVec.getLsbD · 5) h
    rw [BitVec.getLsbD_and, selfEntry_low j0 5 (by decide)] at this
    exact absurd this (by decide)
  obtain ⟨hmem, hplace⟩ := fillTlb_sets (u := u) (die := die) (root := 5 * j0) (va := 0) (leaf := selfEntry j0) (w := false) hunset
  obtain ⟨j, hj, hzero⟩ := stale_perform h0 h1 h2 h01 h02 h12 hset1 hset2 hs hform (d := bytes8 (toW64 (s.mem.visBytes (staleBase j0) 8) ||| 0x60))
    (natToBytes_length _ _)
  have hask := askRange_same (s.fillTlb u die (5 * j0) 0 (staleLook j0) true) (pageRange (0, 4, staleLook j0)).pa
    (pageRange (0, 4, staleLook j0)).len
  refine ⟨hask.1.trans (hplace.trans (perform_place (by simp [(staleBase_exists h0).2]) _)), j, hj, ?_⟩
  rw [← hzero, ← hmem]
  exact congrArg (Memory.visByte · (staleBase j)) hask.2

/-- Where three lines share a set of the L2, the walk's write of A and D makes a stale clean copy leave. -/
theorem not_storesFrame_of_set : ¬ Obligations.StoresFrame := by
  intro h
  have hs : StaleAt j0 j1 j2 ((staleState j0 j1 j2).mark Tests.wc) := ⟨rfl, rfl, rfl, rfl⟩
  have hform : ((staleState j0 j1 j2).mark Tests.wc).formOk = true := State.formOk_of rfl rfl (staleMem_formOk j0 j1 j2)
  have hrun := staleState_runs j0 j1 j2
  have hopen : ((staleState j0 j1 j2).mark Tests.wc).acqOpenLoad (.thr 1 0) = false := rfl
  have hquant : (((staleState j0 j1 j2).mark Tests.wc).ctx (.thr 1 0)).quant = false := rfl
  have hslot : ((((staleState j0 j1 j2).mark Tests.wc).thread (.thr 1 0)).slot.toNat <
    ((staleState j0 j1 j2).mark Tests.wc).gang.hdr.cnt) := Nat.lt_succ_self 1
  have hroot : (((staleState j0 j1 j2).mark Tests.wc).ctx (.thr 1 0)).root = 5 * j0 := rfl
  have hpriv : (((staleState j0 j1 j2).mark Tests.wc).ctx (.thr 1 0)).priv = false := rfl
  have haddr := staleStore_addr j0 j1 j2
  generalize (staleState j0 j1 j2).mark Tests.wc = s1 at *
  have hpages : s1.pages (s1.ctx (.thr 1 0)).die (s1.ctx (.thr 1 0)).root (s1.addr (.thr 1 0) (.v 16) 0).toNat
      (vecCount 0 * tyWidth .b32 / 8) true [(s1.addr (.thr 1 0) (.v 16) 0).toNat] = [(0, 4, staleLook j0)] := by
    rw [haddr, hroot]
    exact stale_pages h0 h01 h02 hs _ [0]
  have hacc : s1.access (.thr 1 0) (s1.addr (.thr 1 0) (.v 16) 0) (vecCount 0 * tyWidth .b32 / 8) true false
      [(s1.addr (.thr 1 0) (.v 16) 0).toNat] = .ok [pageRange (0, 4, staleLook j0)]
        (s1.fillPages (.core (s1.ctx (.thr 1 0)).core) (s1.ctx (.thr 1 0)).die (5 * j0) [(0, 4, staleLook j0)] true) := by
    rw [haddr]
    exact stale_access h0 h01 h02 hs hroot hpriv [0]
  have hok := congrArg Access.isOk hacc
  obtain ⟨t, ht, -, hvis, -⟩ := h Tests.wc .b32 .wave 0 (.v 16) (.v 3) 0 (staleState j0 j1 j2) s1 (.thr 1 0) hrun rfl
    hopen hquant hok (staleMem_formOk j0 j1 j2)
  rw [storesComplete.1 Tests.wc .b32 false .wave 0 (.v 16) (.v 3) 0 _ s1 (.thr 1 0) hrun hopen hquant hok, hacc] at ht
  obtain rfl := Host.Outcome.next.inj ht
  obtain ⟨hplace, j, hj, hzero⟩ := stale_fillPages h0 h1 h2 h01 h02 h12 hset1 hset2 hs hform (.core (s1.ctx (.thr 1 0)).core)
    (s1.ctx (.thr 1 0)).die
  have hlt : j < 1025 := by
    rcases hj with rfl | rfl <;> assumption
  have hone := hvis (staleBase j) fun p hp => by
    rw [hpages, List.mem_singleton] at hp
    subst hp
    simp only [staleLook, staleBase]
    omega
  have hstore := storeBytes_same (s1.fillPages (.core (s1.ctx (.thr 1 0)).core) (s1.ctx (.thr 1 0)).die (5 * j0) [(0, 4, staleLook j0)] true)
    (.thr 1 0) [pageRange (0, 4, staleLook j0)] (storeData .b32 (vecCount 0) (s1.dataWords (.thr 1 0) .b32 (.v 3) (vecRegs .b32 0)))
  have hwhere := hstore.1.trans hplace
  rw [ends_mem (by
    rw [Access.st, Access.rs, if_neg Bool.false_ne_true, thread_of_place hwhere, show State.gang _ = s1.gang from congrArg Prod.snd hwhere]
    exact hslot)] at hone
  rw [show (staleState j0 j1 j2).mem = staleMem j0 j1 j2 from rfl, staleMem_visByte h01 h02 hj hlt] at hone
  exact absurd (hone.symm.trans ((hstore.2 _).trans hzero)) (by decide)

end

/-- Refutes O53: of 1,025 lines three share one of the 512 sets of the L2, and there the write of a leaf's A and D bits makes
a clean copy leave that differs from the DRAM. -/
theorem not_storesFrame : ¬ Obligations.StoresFrame := by
  have hcard : ((Finset.range 512).card * 2 < (Finset.range 1025).card) := by simp
  obtain ⟨y, -, hy⟩ := Finset.exists_lt_card_fiber_of_mul_lt_card_of_maps_to
    (f := fun j => Config.l2Set (2560 * j) % 512) (s := Finset.range 1025) (t := Finset.range 512)
    (fun j _ => Finset.mem_range.2 (Nat.mod_lt _ (by decide))) hcard
  obtain ⟨j0, j1, j2, h0, h1, h2, h01, h02, h12⟩ := Finset.two_lt_card_iff.1 hy
  simp only [Finset.mem_filter, Finset.mem_range] at h0 h1 h2
  exact not_storesFrame_of_set h0.1 h1.1 h2.1 h01 h02 h12 (h1.2.trans h0.2.symm) (h2.2.trans h0.2.symm)

end Sys2Proof.Machine
end

section
/-! SUPPORT. What a state in form is, for every kind of answer that carries states, and the steps by which the form is kept
through records, folds and answers taken apart (R78, R81, R299). -/

namespace Sys2Proof.Machine

/-- The memories stand in their canonical form. -/
def State.Formed (s : State) : Prop := s.formOk = true

variable {s t : State}

theorem State.Formed.spads (h : s.Formed) : ∀ k ∈ s.cores, cellsRise k.spad = true := ((State.formOk_iff s).1 h).2.2

/-- A change that reaches neither a memory's bytes nor a core. -/
theorem State.Formed.same (h : s.Formed) {clk gtsc0 tick nextId stamp gang turns launches groups ops reqs incs xlat bank remote fab cp boot}
    {wq undo heads} :
    State.Formed { s with
      clk, gtsc0, tick, nextId, stamp, gang, turns, launches, groups, ops, reqs, incs, xlat, bank, remote, fab, cp, boot
      mem := { s.mem with wq, undo, heads } } :=
  State.formOk_bytes rfl rfl rfl rfl h

/-- The memories' own form: host memory and DRAM by rising addresses, every L2 sector 32 aligned bytes. -/
def Memory.Formed (m : Memory) : Prop := m.wf = true ∧ m.l2Ok = true

theorem Memory.Formed.fill {m : Memory} (h : m.Formed) {a ways : Nat} : (m.fill a ways).Formed :=
  ⟨Memory.wf_fill m a ways h.1, Memory.l2Ok_fill a ways h.2⟩
theorem Memory.Formed.writeback {m : Memory} (h : m.Formed) {b : Nat} {keep : Bool} : (m.writeback b keep).Formed :=
  ⟨Memory.wf_writeback m b keep h.1, Memory.l2Ok_writeback b keep h.2⟩
theorem Memory.Formed.dramWrite {m : Memory} (h : m.Formed) {pa : Nat} {d : List Byte} : (m.dramWrite pa d).Formed :=
  ⟨Memory.wf_dramWrite m pa d h.1, Memory.l2Ok_dramWrite pa d h.2⟩
theorem Memory.Formed.headPut {m : Memory} (h : m.Formed) {pa len : Nat} {t : TRef} {rmw : Bool} : (m.headPut pa len t rmw).Formed := h
/-- Sectors that leave the L2. -/
theorem Memory.Formed.l2Filter {m : Memory} (h : m.Formed) {p : Sector → Bool} : Memory.Formed { m with l2 := m.l2.filter p } :=
  ⟨h.1, (Memory.l2Ok_iff _).2 fun x hx => (Memory.l2Ok_iff m).1 h.2 x (List.mem_filter.1 hx).1⟩
/-- Every memory but the host's at its reset. -/
theorem Memory.Formed.resetKeeping {m : Memory} (h : m.Formed) : Memory.Formed { Memory.reset with hostw := m.hostw } :=
  ⟨(Memory.wf_iff _).2 ⟨rfl, ((Memory.wf_iff m).1 h.1).2⟩, rfl⟩

theorem State.Formed.memory (h : s.Formed) : s.mem.Formed := ⟨((State.formOk_iff s).1 h).1, ((State.formOk_iff s).1 h).2.1⟩

/-- A change that reaches the memories and no core. -/
theorem State.Formed.setMem (h : s.Formed)
    {clk gtsc0 tick nextId stamp gang turns launches groups ops reqs incs xlat bank remote fab cp boot} {m : Memory} (hm : m.Formed) :
    State.Formed { s with
      clk, gtsc0, tick, nextId, stamp, gang, turns, launches, groups, ops, reqs, incs, xlat, bank, remote, fab, cp, boot, mem := m } :=
  (State.formOk_iff _).2 ⟨hm.1, hm.2, h.spads⟩

/-- Memories in form beside cores at their reset. -/
theorem State.Formed.noCores (hm : t.mem.Formed) (hc : t.cores = []) : t.Formed :=
  (State.formOk_iff _).2 ⟨hm.1, hm.2, hc ▸ fun _ hk => (List.not_mem_nil hk).elim⟩

theorem cellsRise_filter {p : Host.Cell → Bool} {l : List Host.Cell} (h : cellsRise l = true) : cellsRise (l.filter p) = true := by
  induction l with
  | nil => rfl
  | cons c l ih =>
    obtain ⟨a, x⟩ := c
    obtain ⟨ha, hl⟩ := (cellsRise_cons a x l).1 h
    rw [List.filter_cons]
    split
    · exact (cellsRise_cons a x _).2 ⟨fun d hd => ha d (List.mem_filter.1 hd).1, ih hl⟩
    · exact ih hl

/-- Scratchpad bytes that a placement leaves unspecified go, the others stay (R406). -/
theorem State.Formed.taken (h : s.Formed) {c spad len row rows key : Nat} : (s.updCore c fun k => k.taken spad len row rows key).Formed :=
  State.formOk_updCore c _ (fun k hk => by
    dsimp only [Core.taken]
    split
    · exact hk
    · exact cellsRise_filter hk) h

/-- A change of one core that leaves its scratchpad. -/
theorem State.Formed.updCore (h : s.Formed) {c : Nat} {f : Core → Core} (hf : ∀ k, (f k).spad = k.spad) : (s.updCore c f).Formed :=
  State.formOk_updCore c f (fun k hk => (hf k).symm ▸ hk) h

/-- A change of every core that leaves their scratchpads, with whatever else beside the memories' bytes. -/
theorem State.Formed.coresMap (h : s.Formed) {f : Core → Core} (hf : ∀ k, (f k).spad = k.spad)
    {clk gtsc0 tick nextId stamp gang turns launches groups ops reqs incs xlat bank remote fab cp boot wq undo heads} :
    State.Formed { s with
      clk, gtsc0, tick, nextId, stamp, gang, turns, launches, groups, ops, reqs, incs, xlat, bank, remote, fab, cp, boot
      mem := { s.mem with wq, undo, heads }
      cores := s.cores.map f } := by
  have hs := (State.formOk_iff s).1 h
  refine (State.formOk_iff _).2 ⟨hs.1, hs.2.1, fun k hk => ?_⟩
  obtain ⟨k0, hk0, rfl⟩ := List.mem_map.1 hk
  exact (hf k0).symm ▸ hs.2.2 k0 hk0

theorem State.Formed.setSpad (h : s.Formed) {c off : Nat} {d : List Byte} : (s.setSpad c off d).Formed := State.formOk_setSpad c off d h
theorem State.Formed.pokeWindow (h : s.Formed) {pa : Nat} {d : List Byte} : (s.pokeWindow pa d).Formed := State.formOk_pokeWindow pa d h
theorem State.Formed.writeback (h : s.Formed) {b : Nat} {keep : Bool} : (s.writeback b keep).Formed := State.formOk_writeback b keep h
theorem State.Formed.l2RoomAll (h : s.Formed) {pa n : Nat} : (s.l2RoomAll pa n).Formed := State.formOk_l2RoomAll pa n h
theorem State.Formed.perform (h : s.Formed) {pa : Nat} {d : List Byte} {bypass : Bool} : (s.perform pa d bypass).Formed :=
  State.formOk_perform pa d bypass h
theorem State.Formed.testWrite (h : s.Formed) {pa : Nat} : (s.testWrite pa).Formed :=
  State.formOk_of (State.testWrite_mem s pa) (State.testWrite_cores s pa) h

/-! Choices, folds and answers. -/

/-- What holds of both branches of a choice holds of the choice. -/
theorem of_ite {α : Type} {P : α → Prop} {c : Prop} [Decidable c] {x y : α} (hx : P x) (hy : P y) : P (if c then x else y) := by
  split
  · exact hx
  · exact hy

theorem State.Formed.ite {c : Prop} [Decidable c] (hs : s.Formed) (ht : t.Formed) : (if c then s else t).Formed :=
  of_ite (P := State.Formed) hs ht

theorem State.Formed.foldl {α : Type} {f : State → α → State} {l : List α} (h : s.Formed) (hf : ∀ {s x}, s.Formed → (f s x).Formed) :
    (l.foldl f s).Formed :=
  List.foldlRecOn (motive := State.Formed) l f h fun _ hs _ _ => hf hs

theorem State.Formed.foldr {α : Type} {f : α → State → State} {l : List α} (h : s.Formed) (hf : ∀ {s x}, s.Formed → (f x s).Formed) :
    (l.foldr f s).Formed :=
  List.foldrRecOn (motive := State.Formed) l f h fun _ hs _ _ => hf hs

/-- A fold whose state is the first of a pair, or the second. -/
theorem State.Formed.foldl_fst {α β : Type} {f : State × β → α → State × β} {l : List α} {p : State × β} (h : p.1.Formed)
    (hf : ∀ {p x}, p.1.Formed → (f p x).1.Formed) : (l.foldl f p).1.Formed :=
  List.foldlRecOn (motive := fun p : State × β => p.1.Formed) l f h fun _ hp _ _ => hf hp
theorem State.Formed.foldl_snd {α β : Type} {f : β × State → α → β × State} {l : List α} {p : β × State} (h : p.2.Formed)
    (hf : ∀ {p x}, p.2.Formed → (f p x).2.Formed) : (l.foldl f p).2.Formed :=
  List.foldlRecOn (motive := fun p : β × State => p.2.Formed) l f h fun _ hp _ _ => hf hp

theorem State.Formed.foldl_snd_snd {α β γ : Type} {f : β × γ × State → α → β × γ × State} {l : List α} {p : β × γ × State}
    (h : p.2.2.Formed) (hf : ∀ {p x}, p.2.2.Formed → (f p x).2.2.Formed) : (l.foldl f p).2.2.Formed :=
  List.foldlRecOn (motive := fun p : β × γ × State => p.2.2.Formed) l f h fun _ hp _ _ => hf hp

/-- What holds of an answer holds of what it is found to be. -/
theorem of_eq {α : Type} {P : α → Prop} {x y : α} (e : x = y) (h : P x) : P y := e ▸ h

theorem fst_of_eq {α : Type} {p : State × α} {a : α} (e : p = (s, a)) (h : p.1.Formed) : s.Formed := by
  subst e
  exact h
theorem snd_of_eq {α : Type} {p : α × State} {a : α} (e : p = (a, s)) (h : p.2.Formed) : s.Formed := by
  subst e
  exact h

/-- A state that may be there is in form where it is. -/
def OptFormed (a : Option State) : Prop :=
  (match a with
    | some s => s.formOk
    | none => true) = true

theorem OptFormed.ite {c : Prop} [Decidable c] {x y : Option State} (hx : OptFormed x) (hy : OptFormed y) :
    OptFormed (if c then x else y) := of_ite (P := OptFormed) hx hy

theorem OptFormed.getD {o : Option State} (ho : OptFormed o) (h : s.Formed) : (o.getD s).Formed := by
  cases o with
  | none => exact h
  | some t => exact ho

theorem OptFormed.map {α : Type} {f : α → State} {o : Option α} (hf : ∀ {x}, (f x).Formed) : OptFormed (o.map f) := by
  cases o with
  | none => rfl
  | some x => exact hf

theorem OptFormed.bindAny {α : Type} {f : α → Option State} {o : Option α} (hf : ∀ {x}, OptFormed (f x)) : OptFormed (o.bind f) := by
  cases o with
  | none => rfl
  | some x => exact hf

/-- A step on a state that may be there. -/
theorem OptFormed.bind {f : State → Option State} {o : Option State} (ho : OptFormed o) (hf : ∀ {s}, s.Formed → OptFormed (f s)) :
    OptFormed (o.bind f) := by
  cases o with
  | none => rfl
  | some s => exact hf ho
theorem OptFormed.mapState {f : State → State} {o : Option State} (ho : OptFormed o) (hf : ∀ {s}, s.Formed → (f s).Formed) :
    OptFormed (o.map f) := by
  cases o with
  | none => rfl
  | some s => exact hf ho

theorem OptFormed.foldlM {α : Type} {f : State → α → Option State} {l : List α} (h : s.Formed)
    (hf : ∀ {s x}, s.Formed → OptFormed (f s x)) : OptFormed (l.foldlM f s) := by
  induction l generalizing s with
  | nil => exact h
  | cons x l ih =>
    rw [List.foldlM_cons]
    cases e : f s x with
    | none => rfl
    | some t => exact ih (e ▸ hf h : OptFormed (some t))

/-- The same of a state beside something else. -/
def OptSnd {α : Type} (a : Option (α × State)) : Prop :=
  (match a with
    | some p => p.2.formOk
    | none => true) = true

theorem OptSnd.map {α β : Type} {f : α → β × State} {o : Option α} (hf : ∀ {x}, (f x).2.Formed) : OptSnd (o.map f) := by
  cases o with
  | none => rfl
  | some x => exact hf

/-- Both answers of a choice. -/
def SumFormed (a : State ⊕ State) : Prop :=
  (match a with
    | .inl s => s.formOk
    | .inr s => s.formOk) = true
def InrFormed {α : Type} (a : α ⊕ State) : Prop :=
  (match a with
    | .inr s => s.formOk
    | .inl _ => true) = true
def InlSnd {α β : Type} (a : (α × State) ⊕ β) : Prop :=
  (match a with
    | .inl p => p.2.formOk
    | .inr _ => true) = true

/-- A state beside a result, or one beside a failure's code and address. -/
def XlatFormed {α β γ : Type} (a : Option (α × State) × Option (β × γ × State)) : Prop :=
  (match a with
    | (some p, _) => p.2.formOk
    | (none, some p) => p.2.2.formOk
    | (none, none) => true) = true

/-- A state behind two other results. -/
def OptSndSnd {α β : Type} (a : Option (α × β × State)) : Prop :=
  (match a with
    | some p => p.2.2.formOk
    | none => true) = true

/-- The next state of an outcome. -/
def OutFormed (a : Host.Outcome State Fault Refusal) : Prop :=
  (match a with
    | .next s => s.formOk
    | _ => true) = true

theorem OutFormed.ite {c : Prop} [Decidable c] {x y : Host.Outcome State Fault Refusal} (hx : OutFormed x) (hy : OutFormed y) :
    OutFormed (if c then x else y) := of_ite (P := OutFormed) hx hy

/-! The answers that carry states: what each one carries is in form. -/

def Access.Formed (a : Access) : Prop :=
  (match a with
    | .ok _ s | .fault _ _ s => s.formOk
    | _ => true) = true
def Fetch.Formed (a : Fetch) : Prop :=
  (match a with
    | .word _ s => s.formOk
    | _ => true) = true
def Target.Formed (a : Target) : Prop :=
  (match a with
    | .header _ s => s.formOk
    | _ => true) = true
def Adv.Formed (a : Adv) : Prop :=
  (match a with
    | .ok s => s.formOk
    | _ => true) = true
def Lane.Formed (a : Lane) : Prop :=
  (match a with
    | .next s | .goto s _ | .stay s | .stop s | .trap s _ _ _ | .trapNext s _ _ => s.formOk) = true

theorem Lane.Formed.ite {c : Prop} [Decidable c] {x y : Lane} (hx : x.Formed) (hy : y.Formed) : (if c then x else y : Lane).Formed :=
  of_ite (P := Lane.Formed) hx hy

def Xl.Formed (a : Xl) : Prop :=
  (match a with
    | .ok _ s | .bad _ _ s => s.formOk
    | _ => true) = true
def MldPlan.Formed (a : MldPlan) : Prop :=
  (match a with
    | .go _ s | .trap _ _ _ s | .wait s => s.formOk) = true
def Adr.Formed (a : Adr) : Prop :=
  (match a with
    | .ok _ s | .bad _ _ s => s.formOk
    | _ => true) = true
def Plan_.Formed (a : Plan_) : Prop :=
  (match a with
    | .go _ _ s | .fail _ _ _ _ s | .wait s => s.formOk) = true
def Moved.Formed (a : Moved) : Prop :=
  (match a with
    | .ok _ s | .bad _ _ s => s.formOk
    | _ => true) = true
def Rec_.Formed (a : Rec_) : Prop :=
  (match a with
    | .ok _ s | .bad _ _ s | .wait s => s.formOk) = true
def CpRead.Formed (a : CpRead) : Prop :=
  (match a with
    | .ok _ s | .bad _ s | .wait s => s.formOk) = true
def CpWord.Formed (a : CpWord) : Prop :=
  (match a with
    | .ok _ s | .bad _ s => s.formOk
    | _ => true) = true
def Admits.Formed {α : Type} (a : Admits α) : Prop :=
  (match a with
    | .ok _ s | .bad _ s => s.formOk
    | _ => true) = true
def CallXlat.Formed (a : CallXlat) : Prop :=
  (match a with
    | .send _ _ _ _ s | .refuse _ _ s => s.formOk
    | _ => true) = true
def FabAt.Formed (a : FabAt) : Prop :=
  (match a with
    | .ok _ s | .bad _ _ s => s.formOk
    | _ => true) = true
def Spans.Formed (a : Spans) : Prop :=
  (match a with
    | .ok _ s | .bad _ _ s => s.formOk
    | _ => true) = true
def CtrAt.Formed (a : CtrAt) : Prop :=
  (match a with
    | .here _ s | .bad _ s => s.formOk
    | _ => true) = true
def RemPlan.Formed (a : RemPlan) : Prop :=
  (match a with
    | .go _ _ s | .bad _ _ s | .wait s => s.formOk) = true
def SlotRead.Formed (a : SlotRead) : Prop :=
  (match a with
    | .ok _ s | .bad s => s.formOk
    | _ => true) = true
def RecCheck.Formed (a : RecCheck) : Prop :=
  (match a with
    | .ok _ s | .bad _ _ s | .lost s | .wait s => s.formOk) = true
def SlotTable.Formed (a : SlotTable) : Prop :=
  (match a with
    | .ok _ s | .bad s | .wait s => s.formOk
    | _ => true) = true
def Entry.Formed (a : Entry) : Prop :=
  (match a with
    | .applied s | .moved s | .faulted s | .waits s => s.formOk) = true

end Sys2Proof.Machine
end

section
/-! SUPPORT. The form of the memories is kept: what changes no byte of a memory, and the store queue performed
    (Sys2Proof/Machine/Ops.lean). -/

namespace Sys2Proof.Machine

variable {s : State}

theorem State.Formed.updGroup (h : s.Formed) {g : Nat} {f : Group → Group} : (s.updGroup g f).Formed := h.same
theorem State.Formed.updLaunch (h : s.Formed) {l : Nat} {f : Launch → Launch} : (s.updLaunch l f).Formed := h.same
theorem State.Formed.updOp (h : s.Formed) {o : Nat} {f : Op → Op} : (s.updOp o f).Formed := h.same
theorem State.Formed.dropOp (h : s.Formed) {o : Nat} : (s.dropOp o).Formed := h.same
theorem State.Formed.updReq (h : s.Formed) {r : Nat} {f : Req → Req} : (s.updReq r f).Formed := h.same
theorem State.Formed.updCall (h : s.Formed) {c : Nat} {f : Call → Call} : (s.updCall c f).Formed := h.same
theorem State.Formed.updCallee (h : s.Formed) {c : Nat} {f : Callee → Callee} : (s.updCallee c f).Formed := h.same
theorem State.Formed.setEngine (h : s.Formed) {e : Engine} : (s.setEngine e).Formed := h.same
theorem State.Formed.updBank (h : s.Formed) {l : Nat} {f : BankLaunch → BankLaunch} : (s.updBank l f).Formed := h.same
theorem State.Formed.updPart (h : s.Formed) {n : Nat} {f : Part_ → Part_} : (s.updPart n f).Formed := h.same
theorem State.Formed.updQueue (h : s.Formed) {q : Nat} {f : Queue → Queue} : (s.updQueue q f).Formed := h.same

theorem State.Formed.updThread (h : s.Formed) {t : TRef} {f : Thread → Thread} : (s.updThread t f).Formed := by
  unfold State.updThread
  split
  · exact h.updGroup
  · exact h.updCallee

theorem State.Formed.updWave (h : s.Formed) {g w : Nat} {f : Wave → Wave} : (s.updWave g w f).Formed := h.updGroup

theorem State.Formed.pushErr (h : s.Formed) {kind part : Nat} {src : W16} {addr detail : W64} :
    (s.pushErr kind part src addr detail).Formed := .ite h.same h.same

theorem State.Formed.l2Room (h : s.Formed) {pa : Nat} : OptFormed (s.l2Room pa) := by
  unfold State.l2Room
  exact .ite h (.map (h.foldl fun h => h.writeback))

theorem State.Formed.wake (h : s.Formed) {pa len : Nat} : (s.wake pa len).Formed := h.same
theorem State.Formed.updMigs (h : s.Formed) {f : Mig → Mig} : (s.updMigs f).Formed := h.same
theorem State.Formed.markDirty (h : s.Formed) {pa len : Nat} : (s.markDirty pa len).Formed := h.updMigs
theorem State.Formed.l1Drop (h : s.Formed) {core pa len : Nat} : (s.l1Drop core pa len).Formed := h.updCore fun _ => by rfl
theorem State.Formed.l1Clear (h : s.Formed) {core : Nat} : (s.l1Clear core).Formed := h.updCore fun _ => by rfl
theorem State.Formed.updWq (h : s.Formed) {f : QWrite → QWrite} : (s.updWq f).Formed := h.same
theorem State.Formed.passAhead (h : s.Formed) {l : List (Nat × Scope)} : (s.passAhead l).Formed := .ite h h.same

theorem State.Formed.performQueued (h : s.Formed) {e : QWrite} : (s.performQueued e).Formed := by
  unfold State.performQueued
  dsimp only
  split
  · refine .l1Drop (.perform ?_)
    split
    · exact h.same.passAhead.same
    · exact h.same.passAhead
  · exact .ite h.same.passAhead.perform h.same.passAhead

theorem State.Formed.force (h : s.Formed) {n : Nat} {r : Reach} {id : Nat} : (State.force n r s id).Formed := by
  induction n generalizing s r id with
  | zero => exact h
  | succ n ih =>
    rw [State.force]
    split
    · exact h
    · next e _ =>
      have h1 := h.foldl (f := fun s (a : Nat × Scope) => State.force n (s.reachOf e.issuer a.2) s a.1) (l := e.after) fun h => ih h
      exact .ite h (.ite (.ite (h1.foldl fun h => ih h).performQueued (h1.foldl fun h => ih h)) (h1.foldl fun h => ih h).same)

theorem State.Formed.forceAll (h : s.Formed) {ids : List Nat} {r : Reach} : (s.forceAll ids r).Formed := h.foldl (fun h1 => h1.force)
theorem State.Formed.enqueue (h : s.Formed) {e : QWrite} : (s.enqueue e).Formed := h.same
theorem State.Formed.observe (h : s.Formed) {t : TRef} {p : QWrite → Bool} : (s.observe t p).Formed := h.updWq
theorem State.Formed.observeBy (h : s.Formed) {o : Nat} {t : TRef} {es : List Nat} : (s.observeBy o t es).Formed :=
  h.observe.updWq.same.updThread
theorem State.Formed.seeDone (h : s.Formed) {t : TRef} {p : QWrite → Bool} : (s.seeDone t p).Formed := h.forceAll.observe

theorem State.Formed.releaseK (h : s.Formed) {t : TRef} : (s.releaseK t).Formed := by
  unfold State.releaseK
  split
  · exact h.updGroup
  · exact h

theorem State.Formed.acquireK (h : s.Formed) {t : TRef} : (s.acquireK t).Formed := by
  unfold State.acquireK
  split
  · exact h.updGroup
  · exact h

theorem State.Formed.release (h : s.Formed) {t : TRef} {sc : Scope} : (s.release t sc).Formed := .ite h.updThread h.updThread.releaseK
theorem State.Formed.acquireNow (h : s.Formed) {t : TRef} {sc : Scope} : (s.acquireNow t sc).Formed :=
  .ite (.ite h.l1Clear h) (.acquireK (.ite h.l1Clear h))
theorem State.Formed.acquire (h : s.Formed) {t : TRef} {sc : Scope} : (s.acquire t sc).Formed := h.updThread.acquireNow
theorem State.Formed.flush (h : s.Formed) {t : TRef} {sc : Scope} {paths : Path → Bool} : (s.flush t sc paths).Formed := h.forceAll
theorem State.Formed.forceOwed (h : s.Formed) {t : TRef} {l : List (Nat × Scope)} : (s.forceOwed t l).Formed := h.foldl (fun h1 => h1.force)
theorem State.Formed.relFlush (h : s.Formed) {t : TRef} : (s.relFlush t).Formed := h.forceOwed
theorem State.Formed.settle (h : s.Formed) {pa len : Nat} : (s.settle pa len).Formed := h.forceAll

theorem State.Formed.flagDown (h : s.Formed) {t : TRef} {f : Option Nat} : (s.flagDown t f).Formed := by
  unfold State.flagDown
  split
  · exact h.updThread
  · exact h

theorem State.Formed.abandon (h : s.Formed) {g : Nat} : (s.abandon g).Formed := h.coresMap fun _ => by rfl
theorem State.Formed.haltGroup (h : s.Formed) {g : Nat} {why : HaltWhy} {decider : Nat} : (s.haltGroup g why decider).Formed :=
  h.abandon.updGroup

theorem State.Formed.endCallee (h : s.Formed) {id code : Nat} {va : W64} : (s.endCallee id code va).Formed := by
  unfold State.endCallee
  split
  · exact h
  · exact h.updCall.same

theorem State.Formed.trap (h : s.Formed) {t : TRef} {cause : Nat} {addr : W64} {write : Bool} {code : BitVec 16} :
    (s.trap t cause addr write code).Formed := by
  unfold State.trap
  split
  · exact h.endCallee
  · exact h.haltGroup.updThread.updGroup

end Sys2Proof.Machine
end

section
/-! SUPPORT. The form of the memories is kept: register writes, at once and late (Sys2Proof/Machine/Operands.lean). -/

namespace Sys2Proof.Machine

variable {s : State}

theorem State.Formed.setK (h : s.Formed) {t : TRef} {n : Nat} {y : W32} {due : Nat} : (s.setK t n y due).Formed := by
  unfold State.setK
  split
  · exact h.updGroup
  · exact h

theorem State.Formed.write (h : s.Formed) {t : TRef} {w : Wr} : (s.write t w).Formed := by
  unfold State.write
  split
  · exact h.updThread
  · exact h.updThread
  · exact h.setK

theorem State.Formed.later (h : s.Formed) {t : TRef} {lat : Nat} {w : Wr} : (s.later t lat w).Formed := by
  unfold State.later
  refine .same ?_
  split
  · exact h.setK
  · exact h.updThread

theorem State.Formed.laterAll (h : s.Formed) {t : TRef} {lat : Nat} {ws : List Wr} : (s.laterAll t lat ws).Formed :=
  h.foldl (fun h1 => h1.later)
theorem State.Formed.land (h : s.Formed) {t : TRef} {clob : List Nat} {w : Wr} : (s.land t clob w).Formed := .ite h h.updThread.write
theorem State.Formed.landAll (h : s.Formed) {t : TRef} {clob : List Nat} {ws : List Wr} : (s.landAll t clob ws).Formed :=
  h.foldl (fun h1 => h1.land)

end Sys2Proof.Machine
end

section
/-! SUPPORT. The form of the memories is kept: translations and what a walk writes (Sys2Proof/Machine/Translate.lean). -/

namespace Sys2Proof.Machine

variable {s : State}

theorem State.Formed.tlbPut (h : s.Formed) {u : TlbUser} {e : TlbEnt} : (s.tlbPut u e).Formed := h.same

theorem State.Formed.fillTlb (h : s.Formed) {u : TlbUser} {die root va : Nat} {l : Look} {setD : Bool} :
    (s.fillTlb u die root va l setD).Formed := by
  unfold State.fillTlb
  split
  · exact .tlbPut (.same (.ite h h.perform))
  · exact h

theorem State.Formed.redirectTo (h : s.Formed) {die pa : Nat} : (s.redirectTo die pa).Formed := by
  unfold State.redirectTo
  split
  · exact h
  · exact .ite h h.same

theorem State.Formed.askAts (h : s.Formed) {pa : Nat} : (s.askAts pa).Formed := .ite h.same h
theorem State.Formed.askRange (h : s.Formed) {pa len : Nat} : (s.askRange pa len).Formed := .ite (h.foldl (fun h1 => h1.askAts)) h

theorem State.Formed.fillPages (h : s.Formed) {u : TlbUser} {die root : Nat} {ps : List (Nat × Nat × Look)} {setD : Bool} :
    (s.fillPages u die root ps setD).Formed := h.foldl (fun h1 => h1.fillTlb.askRange)

theorem State.Formed.setStat (h : s.Formed) {core bit : Nat} : (s.setStat core bit).Formed := h.updCore fun _ => by rfl
theorem State.Formed.refuseWindow (h : s.Formed) {pa : Nat} : (s.refuseWindow pa).Formed := .ite h.setStat h

theorem State.Formed.markRefused (h : s.Formed) {ps : List (Nat × Nat × Look)} {va : Nat} : (s.markRefused ps va).Formed := by
  unfold State.markRefused
  split
  · exact .ite h.refuseWindow h
  · exact h

theorem State.Formed.calleeAccess (h : s.Formed) {c va len : Nat} {write : Bool} : (s.calleeAccess c va len write).Formed := by
  unfold State.calleeAccess
  split
  · exact h
  · exact of_ite (P := Access.Formed) h h

theorem State.Formed.accessVia (h : s.Formed) {t : TRef} {u : TlbUser} {va : W64} {len : Nat} {write nf : Bool} {keys : List Nat} :
    (s.accessVia t u va len write nf keys).Formed := by
  unfold State.accessVia
  split
  · exact h.calleeAccess
  · refine of_ite (P := Access.Formed) h (of_ite (P := Access.Formed) rfl ?_)
    split
    · exact State.Formed.ite h.markRefused h
    · refine of_ite (P := Access.Formed) h ?_
      split
      · exact rfl
      · exact of_ite (P := Access.Formed) rfl h.fillPages

theorem State.Formed.access (h : s.Formed) {t : TRef} {va : W64} {len : Nat} {write nf : Bool} {keys : List Nat} :
    (s.access t va len write nf keys).Formed := h.accessVia

theorem State.Formed.setAccRow (h : s.Formed) {core row : Nat} {ws : List W32} : (s.setAccRow core row ws).Formed :=
  h.updCore fun _ => by rfl

end Sys2Proof.Machine
end

section
/-! SUPPORT. The form of the memories is kept: targets, tokens and the end of an instruction (Sys2Proof/Machine/Issue.lean). -/

namespace Sys2Proof.Machine

variable {s : State}

theorem State.Formed.fetchIn (h : s.Formed) {u : TlbUser} {die root : Nat} {priv : Bool} {stamp : Nat} {va : W64} :
    (s.fetchIn u die root priv stamp va).Formed := by
  unfold State.fetchIn
  refine of_ite (P := Fetch.Formed) rfl (of_ite (P := Fetch.Formed) rfl ?_)
  split
  · exact rfl
  · exact of_ite (P := Fetch.Formed) rfl (h.fillPages.foldl (fun h1 => h1.redirectTo))

theorem State.Formed.refuseFetch (h : s.Formed) {t : TRef} {va : W64} : (s.refuseFetch t va).Formed := by
  unfold State.refuseFetch
  refine .ite h ?_
  dsimp only
  split
  · exact .ite h.markRefused h
  · exact h

theorem State.Formed.fetch (h : s.Formed) {t : TRef} {va : W64} : (s.fetch t va).Formed := h.fetchIn
theorem State.Formed.trapTarget (h : s.Formed) {t : TRef} {cause : Nat} {va : W64} : (s.trapTarget t cause va).Formed := h.refuseFetch.trap
theorem State.Formed.holdAll (h : s.Formed) {ts : List TRef} : (s.holdAll ts).Formed := h.foldl (fun h1 => h1.updThread)

theorem State.Formed.target (h : s.Formed) {t : TRef} {va : W64} : (s.target t va).Formed := by
  unfold State.target
  refine of_ite (P := Target.Formed) rfl ?_
  split
  · exact rfl
  · exact rfl
  · next s1 e =>
      have h1 : s1.Formed := of_eq (P := Fetch.Formed) e h.fetch
      exact of_ite (P := Target.Formed) h1 rfl

theorem State.Formed.leaveTokens (h : s.Formed) {n : Nat} {t : TRef} : (State.leaveTokens n s t).Formed := by
  induction n generalizing s with
  | zero => exact h
  | succ n ih =>
    unfold State.leaveTokens
    split
    · exact h
    · exact .ite h (ih h.updWave.updThread)

theorem State.Formed.rejoinPark (h : s.Formed) {t : TRef} : (s.rejoinPark t).Formed := .ite h.updThread h
theorem State.Formed.moveTo (h : s.Formed) {t : TRef} {va : W64} : (s.moveTo t va).Formed := h.updThread.rejoinPark

theorem State.Formed.tokenRound (h : s.Formed) {g w : Nat} : (s.tokenRound g w).1.Formed := by
  unfold State.tokenRound
  dsimp only
  split
  · exact h
  · split
    · exact h
    · exact h.updGroup

theorem State.Formed.tokenEnd (h : s.Formed) {n g w : Nat} : (State.tokenEnd n s g w).Formed := by
  induction n generalizing s with
  | zero => exact h
  | succ n ih => exact .ite (ih h.tokenRound) h.tokenRound

theorem State.Formed.enter (h : s.Formed) {t : TRef} {va : W64} : (s.enter t va).Formed := by
  unfold State.enter
  split
  · exact rfl
  · exact rfl
  · next s1 e =>
      have h1 : s1.Formed := of_eq (P := Target.Formed) e h.target
      exact h1.moveTo

theorem State.Formed.advance (h : s.Formed) {t : TRef} : (s.advance t).Formed := by
  unfold State.advance
  refine of_ite (P := Adv.Formed) h.updThread ?_
  split
  · exact of_ite (P := Adv.Formed) (of_ite (P := Adv.Formed) h.updThread
      (of_ite (P := Adv.Formed) h.updThread.enter h.updThread.updThread)) h.enter
  · exact h.enter

theorem State.Formed.settleLane (h : s.Formed) {t : TRef} {l : Lane} (hl : l.Formed) : (s.settleLane t l).Formed := by
  unfold State.settleLane
  split
  · split
    · next s2 e =>
        have h2 : s2.Formed := of_eq (P := Adv.Formed) e (State.Formed.advance hl)
        exact h2
    · exact h.trapTarget
    · exact h
  · split
    · next s2 e =>
        have h2 : s2.Formed := of_eq (P := Adv.Formed) e (State.Formed.enter hl)
        exact h2
    · exact h.trapTarget
    · exact h
  · exact hl
  · exact hl
  · exact .trap hl
  · dsimp only
    split
    · next s2 e =>
        have h2 : s2.Formed := of_eq (P := Adv.Formed) e (State.Formed.advance (.trap hl))
        exact h2
    · exact h.trapTarget
    · exact h

theorem State.Formed.mark (h : s.Formed) {c : Ctl} : (s.mark c).Formed := by
  unfold State.mark
  refine (h.foldl (fun h1 => ?_)).foldl (fun h1 => ?_)
  · split
    · exact h1.updThread.updCallee
    · exact h1.updThread
  · split
    · exact h1
    · exact h1.updGroup

theorem State.Formed.tokenEnds (h : s.Formed) : s.tokenEnds.Formed := h.foldl (fun h1 => .ite h1 h1.tokenEnd)

theorem State.Formed.native (h : s.Formed) {c : Ctl} {i : Instr} {f : State → TRef → Lane}
    (hf : ∀ {s1 : State} {x2 : TRef}, s1.Formed → (f s1 x2).Formed) :
    OutFormed (native c i s f) := by
  unfold Machine.native
  refine (h.mark.foldl (fun h1 => ?_)).tokenEnds
  split
  · exact h1.trap
  · split
    · exact .ite h1.endCallee (.ite (h1.settleLane (hf h1)) (h1.settleLane h1))
    · exact .ite (h1.settleLane h1) (.ite h1.trap (h1.settleLane (hf h1)))

theorem State.Formed.endSpent (h : s.Formed) {t : TRef} : (s.endSpent t).Formed := by
  unfold State.endSpent
  split
  · exact h.endCallee
  · exact h

theorem State.Formed.nativeAll (h : s.Formed) {c : Ctl} {i : Instr} {f : State → List TRef → State}
    (hf : ∀ {s1 : State} {x2 : List TRef}, s1.Formed → (f s1 x2).Formed) :
    OutFormed (nativeAll c i s f) := State.Formed.tokenEnds (.ite (hf (h.mark.foldl (fun h1 => h1.endSpent)))
        (h.mark.foldl (fun h1 => h1.trap)))

end Sys2Proof.Machine
end

section
/-! SUPPORT. The form of the memories is kept: operations begun and their results (Sys2Proof/Machine/Flags.lean). -/

namespace Sys2Proof.Machine

variable {s : State}

theorem State.Formed.begin_ (h : s.Formed) {t : TRef} {c : Ctl} {kind : OpKind} {acq : Option Scope} : (s.begin_ t c kind acq).Formed :=
  h.updThread.same
theorem State.Formed.beginQuiet (h : s.Formed) {t : TRef} {kind : OpKind} : (s.beginQuiet t kind).Formed := h.same
theorem State.Formed.result (h : s.Formed) {t : TRef} {c : Ctl} {ws : List Wr} : (s.result t c ws).Formed := h.begin_

end Sys2Proof.Machine
end

section
/-! SUPPORT. The form of the memories is kept: control instructions (Sys2Proof/Machine/Control.lean). -/

namespace Sys2Proof.Machine

variable {s : State}

theorem State.Formed.fixedAlu (h : s.Formed) {c : Ctl} {lat : Nat} {i : Instr} : OutFormed (fixedAlu c lat i s) := by
  unfold Machine.fixedAlu
  refine h.native (fun h1 => ?_)
  split
  · exact Lane.Formed.ite h1 h1.laterAll
  · exact h1

theorem State.Formed.transferPart (h : s.Formed) {c : Ctl} {u : Bool} {leave : Nat} {target : State → TRef → W64}
    {link : State → TRef → State} {part : List TRef} (hlink : ∀ {s1 : State} {x2 : TRef}, s1.Formed → (link s1 x2).Formed) :
    (State.transferPart c u leave target link s part).Formed := by
  unfold State.transferPart
  refine .ite h ?_
  split
  · exact h.holdAll.trap
  · split
    · exact h.holdAll.trap
    · split
      · exact h.holdAll.trapTarget
      · refine h.foldl (fun h1 => ?_)
        split
        · exact h1.settleLane (hlink h1.leaveTokens)
        · exact h1.settleLane h1

theorem State.Formed.transfer (h : s.Formed) {c : Ctl} {u : Bool} {leave : Nat} {target : State → TRef → W64} {link : State → TRef → State}
    {members : List TRef} (hlink : ∀ {s1 : State} {x2 : TRef}, s1.Formed → (link s1 x2).Formed) :
    (State.transfer c u leave target link s members).Formed := h.foldl (fun h1 => h1.transferPart (fun h2 => hlink h2))

theorem State.Formed.linkTo (h : s.Formed) {d : Operand} {t : TRef} : (State.linkTo d s t).Formed := h.laterAll
theorem State.Formed.execNop (h : s.Formed) {c : Ctl} : OutFormed (execNop c s) := h.native (fun h1 => h1)
theorem State.Formed.execBra (h : s.Formed) {c : Ctl} {u : Bool} {n : BitVec 4} {disp : BitVec 28} : OutFormed (execBra c u n disp s) :=
  h.nativeAll (fun h1 => h1.transfer (fun h2 => h2))
theorem State.Formed.execBrx (h : s.Formed) {c : Ctl} {u : Bool} {n : BitVec 4} {a : Operand} : OutFormed (execBrx c u n a s) :=
  h.nativeAll (fun h1 => h1.transfer (fun h2 => h2))
theorem State.Formed.execCall (h : s.Formed) {c : Ctl} {u : Bool} {d : Operand} {disp : BitVec 28} : OutFormed (execCall c u d disp s) :=
  h.nativeAll (fun h1 => h1.transfer (fun h2 => h2.linkTo))
theorem State.Formed.execCallx (h : s.Formed) {c : Ctl} {u : Bool} {d a : Operand} : OutFormed (execCallx c u d a s) :=
  h.nativeAll (fun h1 => h1.transfer (fun h2 => h2.linkTo))
theorem State.Formed.execRet (h : s.Formed) {c : Ctl} {u : Bool} {n : BitVec 4} {a : Operand} : OutFormed (execRet c u n a s) :=
  h.nativeAll (fun h1 => h1.transfer (fun h2 => h2))
theorem State.Formed.exitThread (h : s.Formed) {t : TRef} : (s.exitThread t).Formed := h.leaveTokens.updThread
theorem State.Formed.execExit (h : s.Formed) {c : Ctl} : OutFormed (execExit c s) := h.native (fun h1 => h1.exitThread)

theorem State.Formed.openToken (h : s.Formed) {disp : BitVec 28} {ms : List TRef} : (State.openToken disp s ms).Formed := by
  unfold State.openToken
  split
  · exact h
  · refine .ite h ?_
    split
    · exact h
    · exact (h.foldl (fun h1 => h1.updThread)).foldl (fun h1 => h1.trapTarget)
    · next s1 e =>
        have h1 : s1.Formed := of_eq (P := Target.Formed) e ((h.foldl (fun h1 => h1.updThread)).target)
        refine .ite ((h.foldl (fun h2 => h2.updThread)).foldl (fun h2 => h2.trapTarget)) (.ite (h1.holdAll.foldl (fun h2 => h2.trap)) ?_)
        dsimp only
        split
        · exact (h.foldl (fun h2 => h2.updThread)).foldl (fun h2 => h2.trap)
        · exact (h.foldl (fun h2 => h2.updThread)).foldl (fun h2 => h2.trapTarget)
        · refine .foldl ?_ (fun h2 => h2.updThread.settleLane h2.updThread)
          split
          · exact h1.updWave
          · exact h1

theorem State.Formed.execTokOpen (h : s.Formed) {c : Ctl} {disp : BitVec 28} : OutFormed (execTokOpen c disp s) :=
  h.nativeAll (fun h1 => h1.openToken)

theorem State.Formed.leavePart (h : s.Formed) {c : Ctl} {n : Nat} {part : List TRef} : (State.leavePart c n s part).Formed := by
  unfold State.leavePart
  split
  · exact h.holdAll.trap
  · exact h.foldl (fun h1 => h1.settleLane (State.Formed.ite h1.leaveTokens h1))

theorem State.Formed.execTokLeave (h : s.Formed) {c : Ctl} {n : BitVec 4} : OutFormed (execTokLeave c n s) :=
  h.nativeAll (fun h1 => h1.foldl (fun h2 => h2.leavePart))

theorem State.Formed.startRepeat (h : s.Formed) {a : Operand} {disp : BitVec 28} {t : TRef} : (State.startRepeat a disp s t).Formed := by
  unfold State.startRepeat
  refine Lane.Formed.ite h ?_
  split
  · exact h
  · exact h.refuseFetch
  · next s1 e =>
      have h1 : s1.Formed := of_eq (P := Target.Formed) e h.target
      exact Lane.Formed.ite h h1.updThread

theorem State.Formed.execRpt (h : s.Formed) {c : Ctl} {a : Operand} {disp : BitVec 28} : OutFormed (execRpt c a disp s) :=
  h.native (fun h1 => h1.startRepeat)
theorem State.Formed.execYield (h : s.Formed) {c : Ctl} : OutFormed (execYield c s) := h.native (fun h1 => h1.updThread)
theorem State.Formed.execBrk (h : s.Formed) {c : Ctl} : OutFormed (execBrk c s) := h.native (fun h1 => h1)
theorem State.Formed.execTrap (h : s.Formed) {c : Ctl} {code : BitVec 16} : OutFormed (execTrap c code s) := h.native (fun h1 => h1)

theorem State.Formed.execSetp (h : s.Formed) {c : Ctl} {ty : Ty} {cmp : Cmp} {mrg : Merge} {d a b e : Operand} :
    OutFormed (execSetp c ty cmp mrg d a b e s) := h.fixedAlu

theorem State.Formed.execFsetp (h : s.Formed) {c : Ctl} {ty : Ty} {cmp : Cmp} {mrg : Merge} {d a b e : Operand} :
    OutFormed (execFsetp c ty cmp mrg d a b e s) := h.fixedAlu

theorem State.Formed.execPbool (h : s.Formed) {c : Ctl} {op : PBool} {d a b : Operand} : OutFormed (execPbool c op d a b s) := h.fixedAlu
theorem State.Formed.execPmovSave (h : s.Formed) {c : Ctl} {d : Operand} : OutFormed (execPmovSave c d s) := h.fixedAlu
theorem State.Formed.execPmovLoad (h : s.Formed) {c : Ctl} {a : Operand} {mask : BitVec 7} : OutFormed (execPmovLoad c a mask s) :=
  h.fixedAlu

theorem State.Formed.execGetsr (h : s.Formed) {c : Ctl} {ty : Ty} {w : BitVec 2} {d : Operand} {sr : BitVec 9} :
    OutFormed (execGetsr c ty w d sr s) := h.native (fun h1 => Lane.Formed.ite h1 h1.laterAll)

theorem State.Formed.setSr (h : s.Formed) {t : TRef} {ty : Ty} {w : BitVec 2} {sr : Nat} {y : W64} : (s.setSr t ty w sr y).Formed := by
  unfold State.setSr
  dsimp only
  split
  · exact h.updThread
  · exact h.updThread
  · exact h.updThread
  · exact h.updThread
  · exact h.updThread
  · exact h.updCore fun _ => by rfl
  · exact h.updCore fun _ => by rfl
  · exact h.updCore fun _ => by rfl
  · exact h.updCore fun _ => by rfl
  · exact h.updCore fun _ => by rfl
  · exact h.updCore fun _ => by rfl
  · exact h.updCore fun _ => by rfl
  · exact h.updCore fun _ => by rfl
  · exact h

theorem State.Formed.execSetsr (h : s.Formed) {c : Ctl} {ty : Ty} {w : BitVec 2} {sr : BitVec 9} {a : Operand} :
    OutFormed (execSetsr c ty w sr a s) := h.native (fun h1 => h1.setSr)

end Sys2Proof.Machine
end

section
/-! SUPPORT. The form of the memories is kept: vector instructions (Sys2Proof/Machine/Vector.lean). -/

namespace Sys2Proof.Machine

variable {s : State}

theorem State.Formed.moveOne (h : s.Formed) {c : Ctl} {one : Bool} {i : Instr} : OutFormed (moveOne c one i s) := by
  unfold Machine.moveOne
  refine h.native (fun h1 => ?_)
  refine Lane.Formed.ite h1 ?_
  split
  · exact Lane.Formed.ite h1 h1.laterAll
  · exact h1

theorem State.Formed.specialFn (h : s.Formed) {c : Ctl} {i : Instr} : OutFormed (specialFn c i s) := by
  unfold Machine.specialFn
  refine h.native (fun h1 => ?_)
  split
  · exact Lane.Formed.ite h1 h1.result
  · exact h1

theorem State.Formed.execMov (h : s.Formed) {c : Ctl} {ty : Ty} {one : Bool} {d a : Operand} : OutFormed (execMov c ty one d a s) :=
  h.moveOne

theorem State.Formed.execMovi (h : s.Formed) {c : Ctl} {ty : Ty} {one : Bool} {d : Operand} {x : BitVec 32} :
    OutFormed (execMovi c ty one d x s) := h.moveOne

theorem State.Formed.execAdd (h : s.Formed) {c : Ctl} {ty : Ty} {sat : Bool} {d a b : Operand} : OutFormed (execAdd c ty sat d a b s) :=
  h.fixedAlu
theorem State.Formed.execSub (h : s.Formed) {c : Ctl} {ty : Ty} {sat : Bool} {d a b : Operand} : OutFormed (execSub c ty sat d a b s) :=
  h.fixedAlu
theorem State.Formed.execMul (h : s.Formed) {c : Ctl} {ty : Ty} {sat : Bool} {d a b : Operand} : OutFormed (execMul c ty sat d a b s) :=
  h.fixedAlu
theorem State.Formed.execMulhi (h : s.Formed) {c : Ctl} {ty : Ty} {d a b : Operand} : OutFormed (execMulhi c ty d a b s) := h.fixedAlu

theorem State.Formed.execMad (h : s.Formed) {c : Ctl} {ty : Ty} {sat : Bool} {d a b e : Operand} :
    OutFormed (execMad c ty sat d a b e s) := h.fixedAlu

theorem State.Formed.execAddc (h : s.Formed) {c : Ctl} {ci co : BitVec 3} {d a b : Operand} : OutFormed (execAddc c ci co d a b s) :=
  h.fixedAlu
theorem State.Formed.execSubb (h : s.Formed) {c : Ctl} {ci co : BitVec 3} {d a b : Operand} : OutFormed (execSubb c ci co d a b s) :=
  h.fixedAlu
theorem State.Formed.execAbs (h : s.Formed) {c : Ctl} {ty : Ty} {sat : Bool} {d a : Operand} : OutFormed (execAbs c ty sat d a s) :=
  h.fixedAlu
theorem State.Formed.execMin (h : s.Formed) {c : Ctl} {ty : Ty} {d a b : Operand} : OutFormed (execMin c ty d a b s) := h.fixedAlu
theorem State.Formed.execMax (h : s.Formed) {c : Ctl} {ty : Ty} {d a b : Operand} : OutFormed (execMax c ty d a b s) := h.fixedAlu
theorem State.Formed.execAnd (h : s.Formed) {c : Ctl} {ty : Ty} {d a b : Operand} : OutFormed (execAnd c ty d a b s) := h.fixedAlu
theorem State.Formed.execOr (h : s.Formed) {c : Ctl} {ty : Ty} {d a b : Operand} : OutFormed (execOr c ty d a b s) := h.fixedAlu
theorem State.Formed.execXor (h : s.Formed) {c : Ctl} {ty : Ty} {d a b : Operand} : OutFormed (execXor c ty d a b s) := h.fixedAlu
theorem State.Formed.execNot (h : s.Formed) {c : Ctl} {ty : Ty} {d a : Operand} : OutFormed (execNot c ty d a s) := h.fixedAlu
theorem State.Formed.execShl (h : s.Formed) {c : Ctl} {ty : Ty} {d a b : Operand} : OutFormed (execShl c ty d a b s) := h.fixedAlu
theorem State.Formed.execShr (h : s.Formed) {c : Ctl} {ty : Ty} {d a b : Operand} : OutFormed (execShr c ty d a b s) := h.fixedAlu
theorem State.Formed.execSra (h : s.Formed) {c : Ctl} {ty : Ty} {d a b : Operand} : OutFormed (execSra c ty d a b s) := h.fixedAlu
theorem State.Formed.execRot (h : s.Formed) {c : Ctl} {ty : Ty} {d a b : Operand} : OutFormed (execRot c ty d a b s) := h.fixedAlu
theorem State.Formed.execBfe (h : s.Formed) {c : Ctl} {ty : Ty} {d a b : Operand} : OutFormed (execBfe c ty d a b s) := h.fixedAlu
theorem State.Formed.execBfi (h : s.Formed) {c : Ctl} {d a b e : Operand} : OutFormed (execBfi c d a b e s) := h.fixedAlu
theorem State.Formed.execPopc (h : s.Formed) {c : Ctl} {ty : Ty} {d a : Operand} : OutFormed (execPopc c ty d a s) := h.fixedAlu
theorem State.Formed.execClz (h : s.Formed) {c : Ctl} {ty : Ty} {d a : Operand} : OutFormed (execClz c ty d a s) := h.fixedAlu
theorem State.Formed.execBrev (h : s.Formed) {c : Ctl} {ty : Ty} {d a : Operand} : OutFormed (execBrev c ty d a s) := h.fixedAlu
theorem State.Formed.execPrmt (h : s.Formed) {c : Ctl} {d a b e : Operand} : OutFormed (execPrmt c d a b e s) := h.fixedAlu
theorem State.Formed.execSel (h : s.Formed) {c : Ctl} {ty : Ty} {d a b e : Operand} : OutFormed (execSel c ty d a b e s) := h.fixedAlu

theorem State.Formed.execLea (h : s.Formed) {c : Ctl} {ty : Ty} {sh : BitVec 2} {d a b : Operand} :
    OutFormed (execLea c ty sh d a b s) := h.fixedAlu

theorem State.Formed.execDp4 (h : s.Formed) {c : Ctl} {ty : Ty} {sat xb : Bool} {d a b e : Operand} :
    OutFormed (execDp4 c ty sat xb d a b e s) := h.fixedAlu

theorem State.Formed.execMix32 (h : s.Formed) {c : Ctl} {d a b : Operand} : OutFormed (execMix32 c d a b s) := h.fixedAlu
theorem State.Formed.execFadd (h : s.Formed) {c : Ctl} {ty : Ty} {rnd : Rnd} {d a b : Operand} : OutFormed (execFadd c ty rnd d a b s) :=
  h.fixedAlu
theorem State.Formed.execFsub (h : s.Formed) {c : Ctl} {ty : Ty} {rnd : Rnd} {d a b : Operand} : OutFormed (execFsub c ty rnd d a b s) :=
  h.fixedAlu
theorem State.Formed.execFmul (h : s.Formed) {c : Ctl} {ty : Ty} {rnd : Rnd} {d a b : Operand} : OutFormed (execFmul c ty rnd d a b s) :=
  h.fixedAlu

theorem State.Formed.execFfma (h : s.Formed) {c : Ctl} {ty : Ty} {rnd : Rnd} {d a b e : Operand} :
    OutFormed (execFfma c ty rnd d a b e s) := h.fixedAlu

theorem State.Formed.execFmin (h : s.Formed) {c : Ctl} {ty : Ty} {d a b : Operand} : OutFormed (execFmin c ty d a b s) := h.fixedAlu
theorem State.Formed.execFmax (h : s.Formed) {c : Ctl} {ty : Ty} {d a b : Operand} : OutFormed (execFmax c ty d a b s) := h.fixedAlu
theorem State.Formed.execFclamp (h : s.Formed) {c : Ctl} {ty : Ty} {d a b e : Operand} : OutFormed (execFclamp c ty d a b e s) := h.fixedAlu
theorem State.Formed.execFrnd (h : s.Formed) {c : Ctl} {ty : Ty} {rnd : Rnd} {d a : Operand} : OutFormed (execFrnd c ty rnd d a s) :=
  h.fixedAlu
theorem State.Formed.execFclass (h : s.Formed) {c : Ctl} {ty : Ty} {d a : Operand} : OutFormed (execFclass c ty d a s) := h.fixedAlu
theorem State.Formed.execLg2 (h : s.Formed) {c : Ctl} {d a : Operand} : OutFormed (execLg2 c d a s) := h.specialFn
theorem State.Formed.execEx2 (h : s.Formed) {c : Ctl} {d a : Operand} : OutFormed (execEx2 c d a s) := h.specialFn
theorem State.Formed.execRcp (h : s.Formed) {c : Ctl} {d a : Operand} : OutFormed (execRcp c d a s) := h.specialFn
theorem State.Formed.execRsq (h : s.Formed) {c : Ctl} {d a : Operand} : OutFormed (execRsq c d a s) := h.specialFn
theorem State.Formed.execSqrt (h : s.Formed) {c : Ctl} {d a : Operand} : OutFormed (execSqrt c d a s) := h.specialFn
theorem State.Formed.execHadd2 (h : s.Formed) {c : Ctl} {d a b : Operand} : OutFormed (execHadd2 c d a b s) := h.fixedAlu
theorem State.Formed.execHmul2 (h : s.Formed) {c : Ctl} {d a b : Operand} : OutFormed (execHmul2 c d a b s) := h.fixedAlu
theorem State.Formed.execHfma2 (h : s.Formed) {c : Ctl} {d a b e : Operand} : OutFormed (execHfma2 c d a b e s) := h.fixedAlu
theorem State.Formed.execHmax2 (h : s.Formed) {c : Ctl} {d a b : Operand} : OutFormed (execHmax2 c d a b s) := h.fixedAlu

theorem State.Formed.execCvt (h : s.Formed) {c : Ctl} {dty : Ty} {rnd : Rnd} {sat : Bool} {sty : BitVec 4} {f191 : Bool} {d a b : Operand} :
    OutFormed (execCvt c dty rnd sat sty f191 d a b s) := by
  unfold Machine.execCvt
  refine h.native (fun h1 => ?_)
  split
  · exact Lane.Formed.ite h1 (h1.foldl (fun h2 => h2.later))
  · exact h1

theorem State.Formed.execPack (h : s.Formed) {c : Ctl} {rnd : Rnd} {sat : Bool} {fmt : BitVec 4} {hi : Bool} {d a b e : Operand} :
    OutFormed (execPack c rnd sat fmt hi d a b e s) := h.fixedAlu

theorem State.Formed.execUnpk (h : s.Formed) {c : Ctl} {ty : Ty} {fmt : BitVec 4} {el : BitVec 3} {d a : Operand} :
    OutFormed (execUnpk c ty fmt el d a s) := h.fixedAlu

theorem State.Formed.quadOp (h : s.Formed) {c : Ctl} {i : Instr} {ty : Ty} {d a : Operand} {pos : Nat → Nat} :
    OutFormed (quadOp c i ty d a pos s) := h.native (fun h1 => Lane.Formed.ite h1 h1.laterAll)

theorem State.Formed.execQswap (h : s.Formed) {c : Ctl} {ty : Ty} {pat : BitVec 2} {d a : Operand} :
    OutFormed (execQswap c ty pat d a s) := h.quadOp

theorem State.Formed.execQbcast (h : s.Formed) {c : Ctl} {ty : Ty} {pos : BitVec 2} {d a : Operand} :
    OutFormed (execQbcast c ty pos d a s) := h.quadOp

theorem State.Formed.collective (h : s.Formed) {c : Ctl} {i : Instr} {mask d : Operand} {n : Nat}
    {out : State → List TRef → TRef → List Wr} :
    OutFormed (collective c i mask d n out s) := h.nativeAll (fun h1 => .ite h1
        ((h1.foldl (fun h2 => h2.trap)).foldl (fun h2 => h2.updThread.settleLane h2.updThread.result)))

theorem State.Formed.execShfl (h : s.Formed) {c : Ctl} {ty : Ty} {mode : ShflMode} {seg : BitVec 3} {koff : BitVec 6} {d a b e : Operand} :
    OutFormed (execShfl c ty mode seg koff d a b e s) := h.collective

theorem State.Formed.execVote (h : s.Formed) {c : Ctl} {mode : VoteMode} {d a b : Operand} : OutFormed (execVote c mode d a b s) :=
  h.collective
theorem State.Formed.execMatchv (h : s.Formed) {c : Ctl} {ty : Ty} {d a b : Operand} : OutFormed (execMatchv c ty d a b s) := h.collective

theorem State.Formed.execWred (h : s.Formed) {c : Ctl} {ty : Ty} {rnd : Rnd} {op : RedOp} {d a b : Operand} :
    OutFormed (execWred c ty rnd op d a b s) := h.collective

theorem State.Formed.execWmaxi (h : s.Formed) {c : Ctl} {ty : Ty} {d a b e : Operand} : OutFormed (execWmaxi c ty d a b e s) := h.collective

theorem State.Formed.execWscan (h : s.Formed) {c : Ctl} {ty : Ty} {rnd : Rnd} {op : RedOp} {excl : Bool} {d a b : Operand} :
    OutFormed (execWscan c ty rnd op excl d a b s) := h.collective

theorem State.Formed.execElect (h : s.Formed) {c : Ctl} {d a : Operand} : OutFormed (execElect c d a s) := h.collective

end Sys2Proof.Machine
end

section
/-! SUPPORT. The form of the memories is kept: accesses by element, gathers and blocks (Sys2Proof/Machine/Access.lean). -/

namespace Sys2Proof.Machine

variable {s : State}

theorem State.Formed.fillL2 (h : s.Formed) {pa len : Nat} {bypass : Bool} : (s.fillL2 pa len bypass).Formed := by
  refine .ite (h.foldl fun h => ?_) h
  split
  · next s1 e =>
    have h1 : s1.Formed := of_eq (P := OptFormed) e h.l2Room
    exact h1.setMem h1.memory.fill
  · exact h

theorem State.Formed.evict (h : s.Formed) {pa len : Nat} : (s.evict pa len).Formed := by
  refine h.foldl fun h => ?_
  split
  · exact .ite (h.setMem h.memory.writeback) h
  · exact h

theorem State.Formed.l1Put (h : s.Formed) {core line : Nat} {data : List Byte} : (s.l1Put core line data).Formed :=
  h.updCore fun _ => by rfl

theorem State.Formed.readMem (h : s.Formed) {t : TRef} {op : Option Nat} {r : Reader_} {l1 : Bool} {pa len : Nat} {bypass : Bool} :
    (s.readMem t op r l1 pa len bypass).2.Formed := by
  unfold State.readMem
  refine .ite (.l1Put (.fillL2 (.ite ?_ (.fillL2 ?_)))) (.ite ?_ (.fillL2 ?_))
  · split
    · exact ((h.evict.foldl (fun h1 => .ite h1 (h1.foldl (fun h2 => h2.force)))).observeBy).updOp
    · exact (h.evict.foldl (fun h1 => .ite h1 (h1.foldl (fun h2 => h2.force)))).observe
  · split
    · exact ((h.evict.foldl (fun h1 => .ite h1 (h1.foldl (fun h2 => h2.force)))).observeBy).updOp
    · exact (h.evict.foldl (fun h1 => .ite h1 (h1.foldl (fun h2 => h2.force)))).observe
  · split
    · exact ((h.evict.foldl (fun h1 => .ite h1 (h1.foldl (fun h2 => h2.force)))).observeBy).updOp
    · exact (h.evict.foldl (fun h1 => .ite h1 (h1.foldl (fun h2 => h2.force)))).observe
  · split
    · exact ((h.evict.foldl (fun h1 => .ite h1 (h1.foldl (fun h2 => h2.force)))).observeBy).updOp
    · exact (h.evict.foldl (fun h1 => .ite h1 (h1.foldl (fun h2 => h2.force)))).observe

theorem State.Formed.readPlace (h : s.Formed) {t : TRef} {op : Option Nat} {l1 : Bool} {p : Part} : (s.readPlace t op l1 p).2.Formed := by
  unfold State.readPlace
  split
  · exact h.readMem
  · dsimp only
    split
    · exact h.updOp
    · exact h
  · exact h

theorem State.Formed.readPart (h : s.Formed) {o i : Nat} : (s.readPart o i).Formed := by
  unfold State.readPart
  split
  · split
    · split
      · refine .ite h ?_
        split
        · exact h.updOp
        · exact h.readPlace.updOp
      · exact h
    · exact h
  · exact h

theorem State.Formed.readAll (h : s.Formed) {o : Nat} : (s.readAll o).Formed := by
  unfold State.readAll
  split
  · split
    · exact h.foldl (fun h1 => h1.readPart)
    · exact h
  · exact h

theorem State.Formed.settleLoads (h : s.Formed) {t : TRef} {q : Place} {len : Nat} : (s.settleLoads t q len).Formed := by
  unfold State.settleLoads
  refine h.foldl (fun h1 => ?_)
  split
  · exact h1.foldl (fun h2 => h2.readPart)
  · exact h1

theorem State.Formed.forceLoads (h : s.Formed) {t : TRef} : (s.forceLoads t).Formed := h.foldl (fun h1 => h1.readAll)

theorem State.Formed.storeWord (h : s.Formed) {t : TRef} {rel : Option Scope} {pa : Nat} {data : List Byte} {bypass : Bool}
    {after afterOps : List (Nat × Scope)} :
    (s.storeWord t rel pa data bypass after afterOps).Formed := h.askAts.l1Drop.enqueue

theorem State.Formed.storeBytes (h : s.Formed) {t : TRef} {rel : Option Scope} {rs : List Range} {data : List Byte} :
    (s.storeBytes t rel rs data).Formed := by
  unfold State.storeBytes
  refine .foldl_fst ?_ (fun h1 => ?_)
  · dsimp only
    split
    · exact .ite h h.releaseK
    · exact h
  · dsimp only
    exact h1.storeWord

theorem State.Formed.buffer (h : s.Formed) {t : TRef} {q : QItem} : (s.buffer t q).Formed := h.updThread

theorem State.Formed.deferAt (h : s.Formed) {t : TRef} {at_ : Option (W64 × Nat)} : (s.deferAt t at_).Formed := by
  unfold State.deferAt
  split
  · exact h.buffer
  · exact h

theorem State.Formed.defer (h : s.Formed) {t : TRef} : (s.defer t).Formed := h.deferAt
theorem State.Formed.scLine (h : s.Formed) {pa len : Nat} : (s.scLine pa len).Formed := h.foldl (fun h1 => h1.writeback)

end Sys2Proof.Machine
end

section
/-! SUPPORT. The form of the memories is kept: loads, stores, fences, queues and barriers (Sys2Proof/Machine/LoadStore.lean). -/

namespace Sys2Proof.Machine

variable {s : State}

theorem State.Formed.waitFor (h : s.Formed) {t : TRef} {o : Nat} : (s.waitFor t o).Formed := h.updThread
theorem State.Formed.acqBy (h : s.Formed) {t : TRef} {o : Nat} {sc : Scope} : (s.acqBy t o sc).Formed := h.updThread

theorem State.Formed.beginLoad (h : s.Formed) {t : TRef} {c : Ctl} {l1 : Bool} {parts : List Part} {fin : Fin} {extra : List Wr}
    {acq : Option Scope} :
    (s.beginLoad t c l1 parts fin extra acq).Formed := by
  unfold State.beginLoad
  refine .ite (.readAll ?_) ?_
  · split
    · exact h.begin_.updOp.acqBy
    · exact h.begin_.updOp
  · split
    · exact h.begin_.updOp.acqBy
    · exact h.begin_.updOp

theorem State.Formed.calleeLoad (h : s.Formed) {t : TRef} {r : Range} : (s.calleeLoad t r).2.Formed := by
  unfold State.calleeLoad
  dsimp only
  split
  · exact h.redirectTo
  · exact .ite h.redirectTo.settle.scLine h.redirectTo.settle

theorem State.Formed.doLd (h : s.Formed) {t : TRef} {c : Ctl} {ty : Ty} {acq : Bool} {scope : Scope} {fresh nf : Bool} {vec : BitVec 2}
    {d a b : Operand} {off : BitVec 12} :
    (s.doLd t c ty acq scope fresh nf vec d a b off).Formed := by
  unfold State.doLd
  refine Lane.Formed.ite h ?_
  dsimp only
  split
  · exact h
  · next s1 e =>
      have h1 : s1.Formed := of_eq (P := Access.Formed) e h.access
      exact h1
  · exact h.result
  · next s1 e =>
      have h1 : s1.Formed := of_eq (P := Access.Formed) e h.access
      refine Lane.Formed.ite h (Lane.Formed.ite ?_ (Lane.Formed.ite h1 h1.beginLoad))
      refine (h1.foldl_snd (fun h2 => ?_)).result
      exact h2.calleeLoad

theorem State.Formed.execLd (h : s.Formed) {c : Ctl} {ty : Ty} {acq : Bool} {scope : Scope} {fresh nf : Bool} {vec : BitVec 2}
    {d a b : Operand} {off : BitVec 12} :
    OutFormed (execLd c ty acq scope fresh nf vec d a b off s) := h.native (fun h1 => h1.doLd)

theorem State.Formed.calleeStore (h : s.Formed) {t : TRef} {r : Range} {data : List Byte} : (s.calleeStore t r data).Formed :=
  .ite h.redirectTo (.ite h.redirectTo.settle.scLine.perform h.redirectTo.settle.perform)

theorem State.Formed.doSt (h : s.Formed) {t : TRef} {ty : Ty} {rel : Bool} {scope : Scope} {vec : BitVec 2} {a b : Operand}
    {off : BitVec 12} :
    (s.doSt t ty rel scope vec a b off).Formed := by
  unfold State.doSt
  refine Lane.Formed.ite h ?_
  dsimp only
  split
  · exact h
  · next s1 e =>
      have h1 : s1.Formed := of_eq (P := Access.Formed) e h.access
      exact h1
  · exact h
  · next s1 e =>
      have h1 : s1.Formed := of_eq (P := Access.Formed) e h.access
      exact Lane.Formed.ite (Lane.Formed.ite (h1.foldl_fst (fun h2 => h2.calleeStore)) h)
          (Lane.Formed.ite (Lane.Formed.ite h.updThread (h1.foldl (fun h2 => h2.buffer))) h1.storeBytes)

theorem State.Formed.execSt (h : s.Formed) {c : Ctl} {ty : Ty} {rel : Bool} {scope : Scope} {vec : BitVec 2} {a b : Operand}
    {off : BitVec 12} :
    OutFormed (execSt c ty rel scope vec a b off s) := h.native (fun h1 => h1.doSt)

theorem State.Formed.withSpad (h : s.Formed) {t : TRef} {a : Operand} {off : BitVec 12} {align len : Nat} {write : Bool}
    {f : State → Group → Nat → Nat → Lane} (hf : ∀ {s1 : State} {x2 : Group} {x3 x4 : Nat}, s1.Formed → (f s1 x2 x3 x4).Formed) :
    (s.withSpad t a off align len write f).Formed := by
  unfold State.withSpad
  refine Lane.Formed.ite h ?_
  split
  · exact h
  · exact Lane.Formed.ite h (hf (.ite h.relFlush h))

theorem State.Formed.execLds (h : s.Formed) {c : Ctl} {ty : Ty} {vec : BitVec 2} {d a : Operand} {off : BitVec 12} :
    OutFormed (execLds c ty vec d a off s) := h.native (fun h1 => Lane.Formed.ite h1
        (h1.withSpad (fun h2 => Lane.Formed.ite h2 h2.beginLoad)))

theorem State.Formed.storeSpad (h : s.Formed) {t : TRef} {core off : Nat} {data : List Byte} {rmw : Bool} :
    (s.storeSpad t core off data rmw).Formed :=
  h.settleLoads.passAhead.setSpad.setMem h.settleLoads.passAhead.setSpad.memory.headPut

theorem State.Formed.execSts (h : s.Formed) {c : Ctl} {ty : Ty} {vec : BitVec 2} {a b : Operand} {off : BitVec 12} :
    OutFormed (execSts c ty vec a b off s) := h.native (fun h1 => Lane.Formed.ite h1
        (h1.withSpad (fun h2 => Lane.Formed.ite h2 (Lane.Formed.ite (Lane.Formed.ite h2.updThread h2.buffer) h2.storeSpad))))

theorem State.Formed.execLdk (h : s.Formed) {c : Ctl} {ty : Ty} {one sp : Bool} {vec : BitVec 2} {d a : Operand} {off : BitVec 12} :
    OutFormed (execLdk c ty one sp vec d a off s) := by
  unfold Machine.execLdk
  refine h.native (fun h1 => ?_)
  refine Lane.Formed.ite h1 (Lane.Formed.ite h1 (Lane.Formed.ite (h1.withSpad (fun h2 => Lane.Formed.ite h2 h2.beginLoad)) ?_))
  dsimp only
  split
  · exact h1
  · next s2 e =>
      have h2 : s2.Formed := of_eq (P := Access.Formed) e h1.access
      exact h2
  · exact h1
  · next s2 e =>
      have h2 : s2.Formed := of_eq (P := Access.Formed) e h1.access
      exact Lane.Formed.ite h2 h2.beginLoad

theorem State.Formed.elemScan (h : s.Formed) {look : State → Nat → Elem × State} {n j : Nat} {acc : List (List Part)}
    (hlook : ∀ {s j}, s.Formed → (look s j).2.Formed) : (State.elemScan look n j s acc).1.Formed := by
  induction n generalizing s j acc with
  | zero => exact h
  | succ n ih =>
    unfold State.elemScan
    split
    · next e => exact ih (snd_of_eq e (hlook h))
    · next e => exact snd_of_eq e (hlook h)
    · next e => exact snd_of_eq e (hlook h)

theorem State.Formed.elemsNow (h : s.Formed) {t : TRef} {size dst : Nat} {parts : List (List Part)} :
    (s.elemsNow t size dst parts).Formed := by
  unfold State.elemsNow
  refine h.foldl_fst (fun h1 => ?_)
  refine (h1.foldl_snd (fun h2 => ?_)).landAll
  exact h2.readPlace

theorem State.Formed.doElems (h : s.Formed) {t : TRef} {c : Ctl} {l1 : Bool} {n size dst : Nat} {look : State → Nat → Elem × State}
    (hlook : ∀ {s1 : State} {x2 : Nat}, s1.Formed → (look s1 x2).2.Formed) :
    (s.doElems t c l1 n size dst look).Formed := by
  unfold State.doElems
  refine Lane.Formed.ite h.updThread ?_
  dsimp only
  split
  · exact h
  · exact ((h.elemScan (fun h1 => hlook h1)).elemsNow).updThread
  · exact Lane.Formed.ite h (Lane.Formed.ite (((h.elemScan (fun h1 => hlook h1)).beginLoad).waitFor)
      (((h.elemScan (fun h1 => hlook h1)).beginLoad).updThread))

theorem State.Formed.execGather (h : s.Formed) {c : Ctl} {ty : Ty} {fresh bs : Bool} {cnt : BitVec 6} {d a b : Operand} {off : BitVec 12} :
    OutFormed (execGather c ty fresh bs cnt d a b off s) := by
  unfold Machine.execGather
  refine h.native (fun h1 => ?_)
  refine Lane.Formed.ite h1 (h1.doElems (fun h2 => ?_))
  dsimp only
  split
  · exact h2
  · next s3 e =>
      have h3 : s3.Formed := of_eq (P := Access.Formed) e h2.access
      exact h3
  · exact h2
  · next s3 e =>
      have h3 : s3.Formed := of_eq (P := Access.Formed) e h2.access
      exact h3

theorem State.Formed.execLdblk (h : s.Formed) {c : Ctl} {sp fresh : Bool} {cnt : BitVec 6} {d a : Operand} {off : BitVec 12} :
    OutFormed (execLdblk c sp fresh cnt d a off s) := by
  unfold Machine.execLdblk
  refine h.native (fun h1 => ?_)
  refine Lane.Formed.ite h1 (h1.doElems (fun h2 => ?_))
  dsimp only
  split
  · split
    · exact h2
    · exact h2
  · split
    · exact h2
    · next s3 e =>
        have h3 : s3.Formed := of_eq (P := Access.Formed) e h2.access
        exact h3
    · exact h2
    · next s3 e =>
        have h3 : s3.Formed := of_eq (P := Access.Formed) e h2.access
        exact h3

theorem State.Formed.execPrefetch (h : s.Formed) {c : Ctl} {l1 : Bool} {a : Operand} {off : BitVec 12} :
    OutFormed (execPrefetch c l1 a off s) := by
  unfold Machine.execPrefetch
  refine h.native (fun h1 => ?_)
  dsimp only
  split
  · next s2 e =>
      have h2 : s2.Formed := of_eq (P := Access.Formed) e h1.access
      exact Lane.Formed.ite h1 (State.Formed.ite h2.fillL2.l1Put h2.fillL2)
  · exact h1

theorem State.Formed.execDiscard (h : s.Formed) {c : Ctl} {line : Bool} {a : Operand} {off : BitVec 12} :
    OutFormed (execDiscard c line a off s) := by
  unfold Machine.execDiscard
  refine h.native (fun h1 => ?_)
  refine Lane.Formed.ite h1 ?_
  split
  · exact h1
  · next s2 e =>
      have h2 : s2.Formed := of_eq (P := Access.Formed) e h1.access
      exact h2
  · exact h1
  · next s2 e =>
      have h2 : s2.Formed := of_eq (P := Access.Formed) e h1.access
      exact Lane.Formed.ite h2.beginQuiet.defer (h2.foldl (fun h3 => h3.storeWord))

theorem State.Formed.execL1inv (h : s.Formed) {c : Ctl} : OutFormed (execL1inv c s) := h.native (fun h1 => Lane.Formed.ite h1 h1.l1Clear)
theorem State.Formed.arBy (h : s.Formed) {t : TRef} {sc : Scope} : (s.arBy t sc).Formed := .ite h h.updThread

theorem State.Formed.doFence (h : s.Formed) {t : TRef} {kind : FenceKind} {sc : Scope} : (s.doFence t kind sc).Formed := by
  unfold State.doFence
  refine Lane.Formed.ite h ?_
  split
  · exact h.release
  · exact h.acquire
  · exact Lane.Formed.ite h h.flush.release.acquire.arBy

theorem State.Formed.execFence (h : s.Formed) {c : Ctl} {kind : FenceKind} {sc : Scope} : OutFormed (execFence c kind sc s) :=
  h.native (fun h1 => h1.doFence)
theorem State.Formed.execXfence (h : s.Formed) {c : Ctl} {p q : BitVec 7} {sc : Scope} : OutFormed (execXfence c p q sc s) :=
  h.native (fun h1 => Lane.Formed.ite h1 (Lane.Formed.ite h1 (State.Formed.ite h1.flush.l1Clear h1.flush)))

theorem State.Formed.execSatom (h : s.Formed) {c : Ctl} {ty : Ty} {op : AtomOp} {d a b e : Operand} {off : BitVec 12} :
    OutFormed (execSatom c ty op d a b e off s) := h.native (fun h1 => Lane.Formed.ite h1
        (h1.withSpad (fun h2 => Lane.Formed.ite h2 (Lane.Formed.ite h2.begin_.defer.updThread h2.storeSpad.result))))

theorem State.Formed.compareArm (h : s.Formed) {o : Nat} : (s.compareArm o).Formed := by
  unfold State.compareArm
  split
  · exact h
  · dsimp only
    split
    · exact .ite h (.ite h.updOp (.ite h.updOp h))
    · exact .ite h (.ite h.updOp (.ite h.updOp h))
    · exact .ite h (.ite h.updOp (.ite h.updOp h))
    · exact .ite h (.ite h.updOp (.ite h.updOp h))
    · exact h

theorem State.Formed.queueWait (h : s.Formed) {t : TRef} {step1 : Lane} (hstep1 : step1.Formed) : (s.queueWait t step1).Formed :=
  Lane.Formed.ite h.updThread hstep1
theorem State.Formed.hold (h : s.Formed) {t : TRef} {id : Nat} : (s.hold t id).Formed := h.waitFor

theorem State.Formed.beginWait (h : s.Formed) {t : TRef} {c : Ctl} {kind : OpKind} {acq : Option Scope} :
    (s.beginWait t c kind acq).Formed := by
  unfold State.beginWait
  refine Lane.Formed.ite (Lane.Formed.ite ?_ h) (State.Formed.hold (.ite ?_ (.compareArm ?_)))
  · refine State.Formed.compareArm ?_
    split
    · exact h.begin_.acqBy
    · exact h.begin_
  · split
    · exact h.begin_.acqBy
    · exact h.begin_
  · split
    · exact h.begin_.acqBy
    · exact h.begin_

theorem State.Formed.withRange (h : s.Formed) {t : TRef} {a : Operand} {off : BitVec 12} {n : Nat} {write : Bool}
    {f : Range → State → Lane} (hf : ∀ {x1 : Range} {s2 : State}, s2.Formed → (f x1 s2).Formed) :
    (s.withRange t a off n write f).Formed := by
  unfold State.withRange
  refine Lane.Formed.ite h ?_
  split
  · exact h
  · next s1 e =>
      have h1 : s1.Formed := of_eq (P := Access.Formed) e h.access
      exact h1
  · exact h
  · next s1 e =>
      have h1 : s1.Formed := of_eq (P := Access.Formed) e h.access
      split
      · exact Lane.Formed.ite (hf h1) h
      · exact h

theorem State.Formed.withWord (h : s.Formed) {t : TRef} {a : Operand} {off : BitVec 12} {n : Nat} {write : Bool} {f : Nat → State → Lane}
    (hf : ∀ {x1 : Nat} {s2 : State}, s2.Formed → (f x1 s2).Formed) :
    (s.withWord t a off n write f).Formed := h.withRange (fun h1 => hf h1)

theorem State.Formed.execMwait (h : s.Formed) {c : Ctl} {ty : Ty} {acq : Bool} {scope : Scope} {d a b : Operand} {off : BitVec 12} :
    OutFormed (execMwait c ty acq scope d a b off s) := h.native (fun h1 => h1.queueWait
        (Lane.Formed.ite h1 (h1.withWord (fun h2 => h2.beginWait))))

theorem State.Formed.execQinit (h : s.Formed) {c : Ctl} {a b : Operand} {off : BitVec 12} : OutFormed (execQinit c a b off s) :=
  h.native (fun h1 => Lane.Formed.ite h1 (h1.withSpad (fun h2 => Lane.Formed.ite h2
  (Lane.Formed.ite h2 (Lane.Formed.ite (Lane.Formed.ite h2.updThread h2.buffer) h2.storeSpad)))))

theorem State.Formed.releaseStep (h : s.Formed) {t : TRef} {sc : Scope} : (s.releaseStep t sc).Formed := h.forceLoads.flush.releaseK

theorem State.Formed.queueStep (h : s.Formed) {t : TRef} {c : Ctl} {once push : Bool} {d a b : Operand} {off : BitVec 12} :
    (s.queueStep t c once push d a b off).Formed := by
  unfold State.queueStep
  refine Lane.Formed.ite h (h.withSpad (fun h1 => ?_))
  dsimp only
  split
  · exact h1.settleLoads
  · exact Lane.Formed.ite h1.settleLoads (Lane.Formed.ite h1.settleLoads
      (Lane.Formed.ite h1.settleLoads (Lane.Formed.ite (Lane.Formed.ite h1.settleLoads.result h1.settleLoads)
      (Lane.Formed.ite h1.settleLoads (Lane.Formed.ite h1.settleLoads.releaseStep.storeSpad.storeSpad.result
      h1.settleLoads.settleLoads.storeSpad.result.acquireNow)))))

theorem State.Formed.execQpush (h : s.Formed) {c : Ctl} {once : Bool} {d a b : Operand} {off : BitVec 12} :
    OutFormed (execQpush c once d a b off s) := h.native (fun h1 => h1.queueWait h1.queueStep)

theorem State.Formed.execQpop (h : s.Formed) {c : Ctl} {once : Bool} {d a b : Operand} {off : BitVec 12} :
    OutFormed (execQpop c once d a b off s) := h.native (fun h1 => h1.queueWait h1.queueStep)

theorem State.Formed.setBarr (h : s.Formed) {core off : Nat} {o : Barr} : (s.setBarr core off o).Formed := h.setSpad.same

theorem State.Formed.withBarr (h : s.Formed) {t : TRef} {a : Operand} {off : BitVec 12} {f : State → Nat → Nat → Lane}
    (hf : ∀ {s1 : State} {x2 x3 : Nat}, s1.Formed → (f s1 x2 x3).Formed) :
    (s.withBarr t a off f).Formed := Lane.Formed.ite h (h.withSpad (fun h1 => Lane.Formed.ite h1 (hf h1.settleLoads)))

theorem State.Formed.barrUpdate (h : s.Formed) {t : TRef} {core o : Nat} {u : BarrUp} : (s.barrUpdate t core o u).Formed :=
  h.beginQuiet.defer
theorem State.Formed.execBarrInit (h : s.Formed) {c : Ctl} {a b : Operand} {off : BitVec 12} : OutFormed (execBarrInit c a b off s) :=
  h.native (fun h1 => h1.withBarr (fun h2 => Lane.Formed.ite h2 (Lane.Formed.ite h2.barrUpdate h2.setBarr)))

theorem State.Formed.execBarrArrive (h : s.Formed) {c : Ctl} {chk : Bool} {a b : Operand} {off : BitVec 12} :
    OutFormed (execBarrArrive c chk a b off s) := h.native (fun h1 => h1.withBarr
        (fun h2 => Lane.Formed.ite h2.barrUpdate (Lane.Formed.ite h2 (Lane.Formed.ite
        (State.Formed.ite h2.releaseStep h2.releaseStep.setBarr) (State.Formed.ite h2.releaseStep h2.releaseStep.setBarr)))))

theorem State.Formed.execBarrExpect (h : s.Formed) {c : Ctl} {a b : Operand} {off : BitVec 12} :
    OutFormed (execBarrExpect c a b off s) := h.native (fun h1 => h1.withBarr (fun h2 => Lane.Formed.ite h2.barrUpdate h2.setBarr))

theorem State.Formed.execBarrWait (h : s.Formed) {c : Ctl} {d a b : Operand} {off : BitVec 12} :
    OutFormed (execBarrWait c d a b off s) := h.native (fun h1 => h1.queueWait
        (Lane.Formed.ite h1 (h1.withSpad (fun h2 => Lane.Formed.ite h2 (Lane.Formed.ite h2.settleLoads
        (Lane.Formed.ite h2.settleLoads.begin_.acqBy h2.settleLoads.begin_.acqBy.hold))))))

theorem State.Formed.execBarrQuery (h : s.Formed) {c : Ctl} {d a : Operand} {off : BitVec 12} : OutFormed (execBarrQuery c d a off s) :=
  h.native (fun h1 => Lane.Formed.ite h1 (h1.withSpad (fun h2 => Lane.Formed.ite h2 h2.settleLoads.result.updOp)))

end Sys2Proof.Machine
end

section
/-! SUPPORT. The form of the memories is kept: atomics (Sys2Proof/Machine/Atomic.lean). -/

namespace Sys2Proof.Machine

variable {s : State}

theorem State.Formed.sendAtomic (h : s.Formed) {t : TRef} {c : Ctl} {va : W64} {n : Nat} {kind : OpKind} {order : AtomOrder} {sc : Scope}
    {ret : Bool} : (s.sendAtomic t c va n kind order sc ret).Formed := by
  unfold State.sendAtomic
  extract_lets q rel acq id under after before s1 s2 s3 s4 s5
  have h1 : s1.Formed := State.Formed.ite h.releaseK h
  have h2 : s2.Formed := State.Formed.ite h1.begin_ h1.beginQuiet
  have h3 : s3.Formed := h2.updOp
  have h4 : s4.Formed := State.Formed.ite h3.acqBy h3
  have h5 : s5.Formed := h4.deferAt
  exact .ite (.ite h5.updThread h5) h4

theorem State.Formed.calleeAtom (h : s.Formed) {t : TRef} {c : Ctl} {m : Rmw} {dst : Nat} : (s.calleeAtom t c m dst).Formed :=
  Lane.Formed.ite h.redirectTo.result (Lane.Formed.ite h.redirectTo (State.Formed.result
  (.perform (.ite h.redirectTo.settle.scLine h.redirectTo.settle))))

theorem State.Formed.doAtom (h : s.Formed) {t : TRef} {c : Ctl} {ty : Ty} {op : AtomOp} {order : AtomOrder} {sc : Scope}
    {d : Option Operand} {a b e : Operand} {off : BitVec 12} :
    (s.doAtom t c ty op order sc d a b e off).Formed := Lane.Formed.ite h
        (h.withRange (fun h1 => Lane.Formed.ite h1.calleeAtom h1.sendAtomic))

theorem State.Formed.execAtom (h : s.Formed) {c : Ctl} {ty : Ty} {op : AtomOp} {order : AtomOrder} {sc : Scope} {d a b e : Operand}
    {off : BitVec 12} :
    OutFormed (execAtom c ty op order sc d a b e off s) := h.native (fun h1 => h1.doAtom)

theorem State.Formed.execRed (h : s.Formed) {c : Ctl} {ty : Ty} {op : AtomOp} {order : AtomOrder} {sc : Scope} {a b : Operand}
    {off : BitVec 12} :
    OutFormed (execRed c ty op order sc a b off s) := h.native (fun h1 => h1.doAtom)

theorem State.Formed.execAcall (h : s.Formed) {c : Ctl} {routine : BitVec 2} {args res : BitVec 3} {d a b : Operand} {off : BitVec 12} :
    OutFormed (execAcall c routine args res d a b off s) := h.native (fun h1 => Lane.Formed.ite h1 (h1.withRange (fun h2 => h2.sendAtomic)))

theorem State.Formed.sliceDone (h : s.Formed) {o : Op} {ws : List Wr} : (s.sliceDone o ws).Formed := by
  unfold State.sliceDone
  split
  · exact h.updOp
  · exact h.dropOp

theorem State.Formed.sliceBefore (h : s.Formed) {o : Op} {pa n : Nat} : (s.sliceBefore o pa n).Formed := h.forceOwed.forceAll.settle
theorem State.Formed.atomicNow (h : s.Formed) {o : Op} {m : Rmw} {dst : Option Nat} : (s.atomicNow o m dst).Formed :=
  h.sliceBefore.passAhead.evict.updOp.same.perform.l1Drop.sliceDone

theorem State.Formed.routFetch (h : s.Formed) {c : RoutCtx} {va : W64} : InlSnd (s.routFetch c va) := by
  unfold State.routFetch
  split
  · next s1 e =>
      have h1 : s1.Formed := of_eq (P := Fetch.Formed) e h.fetchIn
      exact h1
  · exact rfl
  · exact rfl

theorem State.Formed.routHeader (h : s.Formed) {c : RoutCtx} {va : W64} : InlSnd (s.routHeader c va) := by
  unfold State.routHeader
  refine of_ite (P := InlSnd) rfl ?_
  split
  · next e => exact of_ite (P := InlSnd) (of_eq (P := InlSnd) e h.routFetch) rfl
  · exact rfl

theorem State.Formed.routSlot (h : s.Formed) {c : RoutCtx} {r : Routine} {w : W96} : (s.routSlot c r w).2.Formed := by
  unfold State.routSlot
  extract_lets x ctl step onward goto inLine place
  have hgoto {x : Thread} {f : W64} : (goto x f).2.Formed := by
    unfold goto
    split
    · next s1 e =>
      have h1 : s1.Formed := of_eq (P := InlSnd) e h.routHeader
      exact h1
    · exact h
  have honward {x : Thread} {held : List (Nat × List Byte)} : (onward x held s).2.Formed := by
    unfold onward
    split
    · exact h
    · extract_lets f
      split
      · next s1 e =>
        have h1 : s1.Formed := of_eq (P := InlSnd) e h.routHeader
        exact h1
      · exact h
  clear_value goto onward
  have hite {P : Prop} [Decidable P] {y : (Routine ⊕ Nat) × State} (hy : y.2.Formed) : (if P then (.inr 2, s) else y).2.Formed :=
    of_ite (P := fun p : (Routine ⊕ Nat) × State => p.2.Formed) h hy
  split
  · exact h
  · refine hite (hite ?_)
    split
    · exact honward
    · split
      · exact h
      · exact honward
      · exact hgoto
      · exact hgoto
      · exact hite honward
      · exact hite honward
      · split
        · exact honward
        · exact honward

/-- The slot a routine stands at, behind the clause header it enters. -/
theorem State.Formed.routEntered (h : s.Formed) {c : RoutCtx} {r : Routine} : InlSnd (if r.th.slot = 0 then
    match s.routHeader c r.th.pc with
    | .inl x => if headerOk x.1 then (.inl ({ r with hdr := headerOf x.1, th := { r.th with slot := 1 } }, x.2) : Routine × State ⊕ Nat)
      else .inr 2
    | .inr k => .inr k
    else .inl (r, s)) := by
  refine of_ite (P := InlSnd) ?_ h
  split
  · next e =>
    have h1 := of_eq (P := InlSnd) e h.routHeader
    exact of_ite (P := InlSnd) h1 rfl
  · exact rfl

theorem State.Formed.routRun (h : s.Formed) {n : Nat} {c : RoutCtx} {r : Routine} : (State.routRun n s c r).2.Formed := by
  induction n generalizing s r with
  | zero => exact h
  | succ n ih =>
    unfold State.routRun
    dsimp only
    split
    · exact h
    · split
      · exact h
      · next s1 e =>
        have h1 : s1.Formed := of_eq (P := InlSnd) e h.routEntered
        split
        · exact h1
        · next s2 e =>
          have h2 : s2.Formed := of_eq (P := InlSnd) e h1.routFetch
          split
          · next e => exact ih (snd_of_eq e h2.routSlot)
          · next e => exact snd_of_eq e h2.routSlot
          · next e => exact snd_of_eq e h2.routSlot

theorem State.Formed.routStores (h : s.Formed) {t : TRef} {held : List (Nat × List Byte)} {bypass : Bool} :
    (s.routStores t held bypass).Formed := by
  unfold State.routStores
  split
  · exact h
  · next x l =>
    have hm := List.foldlRecOn (motive := Memory.Formed) (x :: l) (fun m y => m.headPut y.1 y.2.length t true) h.memory
      fun _ hm _ _ => hm
    exact (h.setMem hm).perform

theorem State.Formed.acallNow (h : s.Formed) {o : Op} {pa : Nat} {va entry : W64} {root : Nat} {args : List W32} {dst res : Nat}
    {bypass : Bool} :
    (s.acallNow o pa va entry root args dst res bypass).Formed := by
  unfold State.acallNow
  refine .ite h (.sliceDone (.l1Drop (.routStores ?_)))
  dsimp only
  split
  · exact h.sliceBefore.evict
  · exact h.sliceBefore.evict.routRun

theorem State.Formed.sliceNow (h : s.Formed) {o : Op} : (s.sliceNow o).Formed := by
  unfold State.sliceNow
  split
  · exact h.atomicNow
  · exact h.acallNow
  · exact h

theorem State.Formed.sliceOwn (h : s.Formed) {x : Op} : (s.sliceOwn x).Formed := by
  unfold State.sliceOwn
  split
  · exact .ite h.sliceBefore h.sliceBefore
  · exact h

theorem State.Formed.sliceStep (h : s.Formed) {o : Op} : OptFormed (s.sliceStep o) :=
  OptFormed.ite rfl ((h.foldl (fun h1 => h1.sliceOwn)).foldl (fun h1 => h1.sliceNow))

theorem State.Formed.execAtOperation (h : s.Formed) {op : Nat} : OutFormed (execAtOperation op s) := by
  unfold Machine.execAtOperation
  split
  · split
    · split
      · next s1 e =>
          have h1 : s1.Formed := of_eq (P := OptFormed) e h.sliceStep
          exact h1
      · exact h
    · exact h
  · exact h

theorem State.Formed.execAcallRoutine (h : s.Formed) {op : Nat} : OutFormed (execAcallRoutine op s) := by
  unfold Machine.execAcallRoutine
  split
  · split
    · split
      · next s1 e =>
          have h1 : s1.Formed := of_eq (P := OptFormed) e h.sliceStep
          exact h1
      · exact h
    · exact h
  · exact h

end Sys2Proof.Machine
end

section
/-! SUPPORT. The form of the memories is kept: copy windows (Sys2Proof/Machine/Window.lean). -/

namespace Sys2Proof.Machine

variable {s : State}

theorem State.Formed.kickHead (h : s.Formed) {core : Nat} {v : W64} {by_ : Option TRef} : (s.kickHead core v by_).Formed := by
  unfold State.kickHead
  dsimp only
  split
  · exact h.setStat
  · exact .ite h.setStat (h.updCore fun _ => by rfl)

theorem State.Formed.engineRead (h : s.Formed) {r : Reader_} {p : Place} {len : Nat} {bypass : Bool} :
    (s.engineRead r p len bypass).2.Formed := by
  unfold State.engineRead
  dsimp only
  split
  · split
    · exact h
    · exact h.evict.fillL2
  · exact h
  · exact h

theorem State.Formed.setAccBytes (h : s.Formed) {core off : Nat} {data : List Byte} : (s.setAccBytes core off data).Formed :=
  h.foldl (fun h1 => h1.setAccRow)
theorem State.Formed.ctlWrite (h : s.Formed) {core off : Nat} {data : List Byte} : (s.ctlWrite core off data).Formed :=
  .ite (.updCore (.ite h.kickHead h) (fun _ => by rfl)) (.ite h.kickHead h)

theorem State.Formed.engineWrite (h : s.Formed) {path : Path} {core tag : Nat} {p : Place} {data : List Byte} {bypass : Bool} :
    (s.engineWrite path core tag p data bypass).Formed := by
  unfold State.engineWrite
  dsimp only
  split
  · refine .ite ?_ h.settle.perform
    split
    · exact h.foldl_fst (fun h1 => h1.enqueue)
    · exact h.setSpad
    · exact h.setAccBytes
    · exact h.ctlWrite
    · exact h
  · exact h.setSpad
  · exact h

theorem State.Formed.engineXlat (h : s.Formed) {u : TlbUser} {die root va len : Nat} {write win : Bool} {keys : List Nat} :
    (s.engineXlat u die root va len write win keys).Formed := by
  unfold State.engineXlat
  refine of_ite (P := Xl.Formed) rfl ?_
  split
  · exact State.Formed.ite h.markRefused h
  · refine of_ite (P := Xl.Formed) h ?_
    dsimp only
    split
    · exact h.refuseWindow
    · exact of_ite (P := Xl.Formed) rfl h.fillPages

theorem State.Formed.pieceBits (h : s.Formed) {r : Reader_} {p : Piece} {o n : Nat} : (s.pieceBits r p o n).2.Formed := by
  unfold State.pieceBits
  dsimp only
  split
  · exact h
  · exact h.engineRead

theorem State.Formed.addWords (h : s.Formed) {ty pa len x : Nat} {bypass : Bool} : (s.addWords ty pa len x bypass).Formed :=
  h.foldl (fun h1 => h1.evict.settle.perform)

theorem State.Formed.landBits (h : s.Formed) {r : Reader_} {path : Path} {core tag : Nat} {ps : List Piece} :
    (s.landBits r path core tag ps).Formed := by
  unfold State.landBits
  split
  · exact h
  · dsimp only
    split
    · exact (h.foldl_snd_snd (fun h1 => h1.pieceBits)).addWords
    · exact .ite ((h.foldl_snd_snd (fun h1 => h1.pieceBits)).engineWrite)
        (((h.foldl_snd_snd (fun h1 => h1.pieceBits)).engineRead).engineWrite)

end Sys2Proof.Machine
end

section
/-! SUPPORT. The form of the memories is kept: matrix instructions and moves (Sys2Proof/Machine/Matrix.lean). -/

namespace Sys2Proof.Machine

variable {s : State}

theorem State.Formed.doAalloc (h : s.Formed) {t : TRef} {pair : Bool} {d a : Operand} : (s.doAalloc t pair d a).Formed := by
  unfold State.doAalloc
  split
  · exact h
  · refine Lane.Formed.ite h ?_
    split
    · exact (h.updGroup.foldl (fun h1 => h1.updWave)).laterAll
    · exact h.laterAll

theorem State.Formed.execAalloc (h : s.Formed) {c : Ctl} {pair : Bool} {d a : Operand} : OutFormed (execAalloc c pair d a s) :=
  h.native (fun h1 => h1.doAalloc)

theorem State.Formed.doAwin (h : s.Formed) {t : TRef} {a b e : Operand} : (s.doAwin t a b e).Formed := by
  unfold State.doAwin
  split
  · exact h
  · dsimp only
    split
    · exact h
    · exact Lane.Formed.ite h (Lane.Formed.ite h h.updWave.updGroup)

theorem State.Formed.execAwin (h : s.Formed) {c : Ctl} {a b e : Operand} : OutFormed (execAwin c a b e s) := h.native (fun h1 => h1.doAwin)

theorem State.Formed.execAfree (h : s.Formed) {c : Ctl} {a : Operand} : OutFormed (execAfree c a s) := by
  unfold Machine.execAfree
  refine h.native (fun h1 => ?_)
  dsimp only
  split
  · exact h1
  · exact Lane.Formed.ite h1 h1.updGroup

theorem State.Formed.trapSet (h : s.Formed) {ms : List TRef} {t : TRef} {cause : Nat} {addr : W64} :
    (s.trapSet ms t cause addr).Formed := (h.foldl (fun h1 => h1.updThread)).trap

theorem State.Formed.matrixIssue (h : s.Formed) {pair : Bool} {c : Ctl} {d a b e : Operand} {ms : List TRef} :
    (State.matrixIssue pair c d a b e s ms).Formed := by
  unfold State.matrixIssue
  split
  · exact h
  · split
    · exact h
    · refine .ite (h.trapSet.foldl fun h => h.trap) (.ite h.trapSet ?_)
      extract_lets
      split
      · exact h.trapSet
      · extract_lets
        split
        · exact h.trapSet.foldl fun h => h.updWave
        · refine .ite (h.trapSet.foldl fun h => h.updWave) (.ite h.trapSet (.ite h.trapSet (.ite h.trapSet (.ite h (.ite ?_ ?_)))))
          · refine (h.foldl fun h => h.updThread).foldl fun h => ?_
            exact h.settleLane h
          · refine (h.same.updCore fun _ => by rfl).foldl fun h => ?_
            exact h.updThread.settleLane h.updThread

theorem State.Formed.reissueOne (h : s.Formed) {g : Nat} : (s.reissueOne g).Formed := by
  unfold State.reissueOne
  split
  · exact h
  · exact .ite (h.updCore fun _ => by rfl).same h

theorem State.Formed.reissueAll (h : s.Formed) : s.reissueAll.Formed := h.foldl (fun h1 => .ite h1 (h1.foldl (fun h2 => h2.reissueOne)))
theorem State.Formed.execMma (h : s.Formed) {c : Ctl} {d a b e : Operand} : OutFormed (execMma c d a b e s) :=
  h.nativeAll (fun h1 => h1.matrixIssue)
theorem State.Formed.execMmp (h : s.Formed) {c : Ctl} {d a b e : Operand} : OutFormed (execMmp c d a b e s) :=
  h.nativeAll (fun h1 => h1.matrixIssue)
theorem State.Formed.setShadow (h : s.Formed) {core : Nat} {rs : List (Nat × List W32)} : (s.setShadow core rs).Formed :=
  h.updCore fun _ => by rfl

theorem State.Formed.takeShadow (h : s.Formed) {core : Nat} {rows : List Nat} : (s.takeShadow core rows).Formed := by
  unfold State.takeShadow
  refine h.foldl (fun h1 => ?_)
  split
  · exact h1.setAccRow
  · exact h1.setAccRow

theorem State.Formed.matrixCommit (h : s.Formed) {G : Group} {m : MuOp} : (s.matrixCommit G m).Formed :=
  (h.setShadow.takeShadow.setShadow.takeShadow.foldl (fun h1 => h1.flagDown)).updCore fun _ => by rfl

theorem State.Formed.execMatrixOpCommit (h : s.Formed) {op : Nat} : OutFormed (execMatrixOpCommit op s) := by
  unfold Machine.execMatrixOpCommit
  split
  · exact h
  · split
    · exact h
    · exact OutFormed.ite h h.matrixCommit

theorem State.Formed.withRow (h : s.Formed) {t : TRef} {r : Operand} {n : Nat} {f : Nat → Nat → Lane}
    (hf : ∀ {x1 x2 : Nat}, (f x1 x2).Formed) :
    (s.withRow t r n f).Formed := by
  unfold State.withRow
  split
  · exact h
  · exact Lane.Formed.ite hf h

theorem State.Formed.setBefore (h : s.Formed) {id : Nat} {l : List Nat} : (s.setBefore id l).Formed := h.updOp
theorem State.Formed.execAzero (h : s.Formed) {c : Ctl} {rows : BitVec 4} {d : Operand} : OutFormed (execAzero c rows d s) :=
  h.native (fun h1 => h1.withRow (Lane.Formed.ite h1 (h1.foldl (fun h2 => h2.beginQuiet.setBefore))))
theorem State.Formed.execAld (h : s.Formed) {c : Ctl} {first cnt : BitVec 4} {d a : Operand} : OutFormed (execAld c first cnt d a s) :=
  h.native (fun h1 => Lane.Formed.ite h1 (h1.withRow (Lane.Formed.ite h1 h1.begin_.setBefore)))
theorem State.Formed.execAst (h : s.Formed) {c : Ctl} {first cnt : BitVec 4} {d a : Operand} : OutFormed (execAst c first cnt d a s) :=
  h.native (fun h1 => Lane.Formed.ite h1 (h1.withRow (Lane.Formed.ite h1 h1.begin_.setBefore)))

/-- The definition is written out before its arguments stand in it: of a page's one byte the kernel would run the walk. -/
theorem State.Formed.fillPage (h : s.Formed) {cluster root page : Nat} : OptFormed (s.fillPage cluster root page) := by
  generalize hf : State.fillPage = f
  delta State.fillPage at hf
  subst hf
  beta_reduce
  split
  · next s1 e =>
      have h1 : s1.Formed := of_eq (P := Xl.Formed) e h.engineXlat
      exact h1
  · exact rfl

theorem State.Formed.walkAhead (h : s.Formed) {cluster root : Nat} {T : Tensor} {c : List Nat} : (s.walkAhead cluster root T c).Formed :=
  h.foldl (fun h1 => h1.fillPage.getD h1)

theorem State.Formed.mldXlat (h : s.Formed) {t : TRef} {u : TlbUser} {fill : List Byte} {l : List Run} {acc : List Piece} :
    XlatFormed (State.mldXlat t u fill l s acc) := by
  induction l generalizing s acc with
  | nil => exact h
  | cons r l ih =>
    unfold State.mldXlat
    split
    · exact ih h
    · split
      · rfl
      · next s1 e =>
        have h1 : s1.Formed := of_eq (P := Access.Formed) e h.accessVia
        exact h1
      · exact h
      · next s1 e =>
        have h1 : s1.Formed := of_eq (P := Access.Formed) e h.accessVia
        exact ih h1

/-- The bytes of ranges read on the way of an engine, one after the other. -/
theorem State.Formed.engineReads (h : s.Formed) {r : Reader_} {l : List Range} {b : List Byte} :
    (l.foldl (fun (p : List Byte × State) x => (p.1 ++ (p.2.engineRead r (.mem x.pa) x.len x.bypass).1,
      (p.2.engineRead r (.mem x.pa) x.len x.bypass).2)) (b, s)).2.Formed := by
  refine State.Formed.foldl_snd (p := (b, s)) h fun h => ?_
  exact h.engineRead

theorem State.Formed.mldPlan (h : s.Formed) {t : TRef} {id : Nat} {form : MldForm} {va : W64} {coords : List Nat} {A : W32} {reg : Nat} :
    (s.mldPlan t id form va coords A reg).Formed := by
  unfold State.mldPlan
  dsimp only
  split
  · exact h
  · next s1 e =>
    have h1 : s1.Formed := of_eq (P := Access.Formed) e h.accessVia
    exact h1
  · exact h
  · next s1 e =>
    have h1 : s1.Formed := of_eq (P := Access.Formed) e h.accessVia
    refine of_ite (P := MldPlan.Formed) h1 (of_ite (P := MldPlan.Formed) h (of_ite (P := MldPlan.Formed) h
      (of_ite (P := MldPlan.Formed) h ?_)))
    split
    · next s2 e =>
      have h2 : s2.Formed := of_eq (P := XlatFormed) e h1.engineReads.mldXlat
      exact h2
    · exact h1
    · next s2 _ e =>
      have h2 : s2.Formed := of_eq (P := XlatFormed) e h1.engineReads.mldXlat
      refine of_ite (P := MldPlan.Formed) h2.walkAhead ?_
      split
      · exact h
      · exact of_ite (P := MldPlan.Formed) h (of_ite (P := MldPlan.Formed) h1 h2.walkAhead)

theorem State.Formed.doMld (h : s.Formed) {t : TRef} {c : Ctl} {form : MldForm} {d a b e : Operand} :
    (s.doMld t c form d a b e).Formed := by
  unfold State.doMld
  refine Lane.Formed.ite h (Lane.Formed.ite h (Lane.Formed.ite h.begin_.defer ?_))
  split
  · next s1 e1 =>
      have h1 : s1.Formed := of_eq (P := MldPlan.Formed) e1 h.mldPlan
      exact h1
  · next s1 e1 =>
      have h1 : s1.Formed := of_eq (P := MldPlan.Formed) e1 h.mldPlan
      exact h1
  · next s1 e1 =>
      have h1 : s1.Formed := of_eq (P := MldPlan.Formed) e1 h.mldPlan
      exact h1.begin_

theorem State.Formed.execMld (h : s.Formed) {c : Ctl} {form : MldForm} {d a b e : Operand} : OutFormed (execMld c form d a b e s) :=
  h.native (fun h1 => h1.doMld)

theorem State.Formed.mldStep (h : s.Formed) {o : Op} {all : Bool} : (s.mldStep o all).Formed := by
  unfold State.mldStep
  split
  · refine (h.foldl_snd_snd (fun h1 => ?_)).updOp
    dsimp only
    split
    · split
      · exact h1.pieceBits
      · exact h1
    · split
      · exact h1.pieceBits
      · exact h1
  · exact h

theorem State.Formed.execEpcfg (h : s.Formed) {c : Ctl} {a b e : Operand} : OutFormed (execEpcfg c a b e s) := by
  unfold Machine.execEpcfg
  refine h.native (fun h1 => ?_)
  dsimp only
  split
  · exact Lane.Formed.ite h1.updWave h1
  · exact h1

theorem State.Formed.retire (h : s.Formed) {t : TRef} {c : Ctl} {b e : Operand} {n : Nat} {go : List (List Byte) → Wave → Lane}
    (hgo : ∀ {x1 : List (List Byte)} {x2 : Wave}, (go x1 x2).Formed) :
    (s.retire t c b e n go).Formed := by
  unfold State.retire
  refine Lane.Formed.ite h (Lane.Formed.ite ?_ (h.withRow ?_))
  · show State.Formed _
    split
    · exact h.updWave
    · exact h
  · intro x x1
    refine Lane.Formed.ite h (Lane.Formed.ite ?_ hgo)
    split
    · exact h
    · exact Lane.Formed.ite h hgo

theorem State.Formed.retirePlaces (h : s.Formed) {t : TRef} {sp : Bool} {l : List (W64 × List Byte)}
    {acc : List (Place × Bool × List Byte)} : XlatFormed (State.retirePlaces t sp l s acc) := by
  induction l generalizing s acc with
  | nil => exact h
  | cons x l ih =>
    unfold State.retirePlaces
    refine of_ite (P := XlatFormed) ?_ ?_
    · split
      · exact h
      · exact ih h
    · split
      · rfl
      · next s1 e =>
        have h1 : s1.Formed := of_eq (P := Access.Formed) e h.accessVia
        exact h1
      · exact h
      · next s1 e =>
        have h1 : s1.Formed := of_eq (P := Access.Formed) e h.accessVia
        exact ih h1

theorem State.Formed.execMret (h : s.Formed) {c : Ctl} {rows : BitVec 4} {sp : Bool} {a b e : Operand} :
    OutFormed (execMret c rows sp a b e s) := by
  refine h.native fun {s t} h => h.retire fun {out W} => ?_
  dsimp only
  generalize e : State.retirePlaces t sp _ s [] = r
  have hr : XlatFormed r := of_eq (P := XlatFormed) e h.retirePlaces
  obtain ⟨_ | p, _ | q⟩ := r
  · exact h
  · exact hr
  · exact State.Formed.ite (State.Formed.begin_ hr).defer (State.Formed.begin_ hr)
  · exact State.Formed.ite (State.Formed.begin_ hr).defer (State.Formed.begin_ hr)

theorem State.Formed.mxWrite (h : s.Formed) {core tag pa : Nat} {data : List Byte} {bypass : Bool} :
    (s.mxWrite core tag pa data bypass).Formed := h.askAts.enqueue

theorem State.Formed.mretStep (h : s.Formed) {o : Op} {all : Bool} : (s.mretStep o all).Formed := by
  unfold State.mretStep
  split
  · refine (h.foldl_snd (fun h1 => ?_)).updOp
    split
    · split
      · split
        · exact h1.mxWrite
        · exact h1
      · exact h1
    · split
      · split
        · exact h1.mxWrite
        · exact h1
      · exact h1
  · exact h

end Sys2Proof.Machine
end

section
/-! SUPPORT. The form of the memories is kept: copy requests (Sys2Proof/Machine/Copy.lean). -/

namespace Sys2Proof.Machine

variable {s : State}

theorem State.Formed.execCkick (h : s.Formed) {c : Ctl} {a : Operand} {off : BitVec 12} : OutFormed (execCkick c a off s) := by
  unfold Machine.execCkick
  refine h.native (fun h1 => ?_)
  dsimp only
  split
  · exact h1
  · exact Lane.Formed.ite h1 (Lane.Formed.ite h1.beginQuiet.defer (Lane.Formed.ite h1 h1.kickHead))

theorem State.Formed.execCpoll (h : s.Formed) {c : Ctl} {d a : Operand} {off : BitVec 12} : OutFormed (execCpoll c d a off s) :=
  h.native (fun h1 => h1.queueWait (Lane.Formed.ite h1 (h1.withSpad (fun h2 => Lane.Formed.ite h2 h2.result.updOp))))
theorem State.Formed.execCntw (h : s.Formed) {c : Ctl} {d a b : Operand} {off : BitVec 12} : OutFormed (execCntw c d a b off s) :=
  h.native (fun h1 => h1.queueWait (Lane.Formed.ite h1 (h1.withWord (fun h2 => h2.beginWait))))
theorem State.Formed.execCnta (h : s.Formed) {c : Ctl} {a b : Operand} {off : BitVec 12} : OutFormed (execCnta c a b off s) :=
  h.native (fun h1 => Lane.Formed.ite h1 (h1.withRange (fun h2 => h2.sendAtomic)))

theorem State.Formed.execTrec (h : s.Formed) {c : Ctl} {a b : Operand} : OutFormed (execTrec c a b s) := by
  refine h.native fun h => Lane.Formed.ite h (Lane.Formed.ite h ?_)
  split
  · exact h
  · exact h
  · next s1 e =>
    have h1 : s1.Formed := of_eq (P := Xl.Formed) e h.engineXlat
    refine Lane.Formed.ite h (Lane.Formed.ite h ?_)
    dsimp only
    split
    · next s2 e =>
      have h2 : s2.Formed := of_eq (P := OptFormed) e (.foldlM h1.engineReads fun h => h.fillPage)
      exact h2.walkAhead
    · exact h

theorem State.Formed.adr (h : s.Formed) {r : Req} {w len : Nat} {write win : Bool} : (s.adr r w len write win).Formed := by
  unfold State.adr
  refine of_ite (P := Adr.Formed) ?_ (of_ite (P := Adr.Formed) h ?_)
  · split
    · exact h
    · exact h
  · split
    · next s1 e =>
        have h1 : s1.Formed := of_eq (P := Xl.Formed) e h.engineXlat
        exact h1
    · next s1 e =>
        have h1 : s1.Formed := of_eq (P := Xl.Formed) e h.engineXlat
        exact h1
    · exact rfl

theorem State.Formed.readPlaces (h : s.Formed) {r : Req} {ps : List Spot} : (s.readPlaces r ps).2.Formed :=
  h.foldl_snd (fun h1 => h1.engineRead)

theorem State.Formed.adrSegs (h : s.Formed) {r : Req} {w bit bits : Nat} {write win : Bool} {go : List Seg → State → Moved}
    (hgo : ∀ {x1 : List Seg} {s2 : State}, s2.Formed → (go x1 s2).Formed) :
    (s.adrSegs r w bit bits write win go).Formed := by
  unfold State.adrSegs
  split
  · next s1 e =>
      have h1 : s1.Formed := of_eq (P := Adr.Formed) e h.adr
      exact hgo h1
  · next s1 e =>
      have h1 : s1.Formed := of_eq (P := Adr.Formed) e h.adr
      exact h1
  · exact rfl

theorem State.Formed.adrBoth (h : s.Formed) {r : Req} {src sbit dst dbit bits : Nat} {win : Bool} {go : List Piece → State → Moved}
    (hgo : ∀ {x1 : List Piece} {s2 : State}, s2.Formed → (go x1 s2).Formed) :
    (s.adrBoth r src sbit dst dbit bits win go).Formed := by
  unfold State.adrBoth
  split
  · exact rfl
  · next s1 e =>
      have h1 : s1.Formed := of_eq (P := Moved.Formed) e (h.adrSegs (fun h1 => h1))
      split
      · exact rfl
      · next s2 e1 =>
          have h2 : s2.Formed := of_eq (P := Moved.Formed) e1 (h1.adrSegs (fun h2 => h2))
          exact of_ite (P := Moved.Formed) h2 h1
      · exact h1
  · exact h.adrSegs (fun h2 => h2.adrSegs (fun h3 => hgo h3))

theorem State.Formed.moveBytes (h : s.Formed) {r : Req} {src dst len : Nat} {win : Bool} : (s.moveBytes r src dst len win).Formed := by
  unfold State.moveBytes
  split
  · exact h
  · next s1 e =>
      have h1 : s1.Formed := of_eq (P := Moved.Formed) e (h.adrBoth (fun h1 => h1))
      exact h1
  · next s1 e =>
      have h1 : s1.Formed := of_eq (P := Moved.Formed) e (h.adrBoth (fun h1 => h1))
      exact h1

theorem State.Formed.planLinear (h : s.Formed) {r : Req} : (s.planLinear r).Formed := of_ite (P := Plan_.Formed) h
    (of_ite (P := Plan_.Formed) h h.moveBytes)

theorem State.Formed.planFill (h : s.Formed) {r : Req} : (s.planFill r).Formed := by
  unfold State.planFill
  refine of_ite (P := Plan_.Formed) h ?_
  split
  · exact h
  · next s1 e =>
      have h1 : s1.Formed := of_eq (P := Adr.Formed) e h.adr
      exact h1
  · next s1 e =>
      have h1 : s1.Formed := of_eq (P := Adr.Formed) e h.adr
      exact h1

theorem State.Formed.record (h : s.Formed) {r : Req} {w : Nat} : (s.record r w).Formed := by
  unfold State.record
  split
  · exact h
  · next s1 e =>
      have h1 : s1.Formed := of_eq (P := Adr.Formed) e h.adr
      exact h1
  · next s1 e =>
      have h1 : s1.Formed := of_eq (P := Adr.Formed) e h.adr
      exact of_ite (P := Rec_.Formed) h1 (of_ite (P := Rec_.Formed) h1.readPlaces h1.readPlaces)

theorem State.Formed.planMoves (h : s.Formed) {r : Req} {src dst : Nat} {win : Bool} {l : List Move} {acc : List Piece} :
    (State.planMoves r src dst win l s acc).Formed := by
  induction l generalizing s acc with
  | nil => exact h
  | cons m l ih =>
    unfold State.planMoves
    split
    · exact h.adrSegs fun h => ih h
    · exact h.adrBoth fun h => ih h

theorem State.Formed.planTensor (h : s.Formed) {r : Req} : (s.planTensor r).Formed := by
  unfold State.planTensor
  dsimp only
  split
  · next s1 e =>
      have h1 : s1.Formed := of_eq (P := Rec_.Formed) e h.record
      exact h1
  · next s1 e =>
      have h1 : s1.Formed := of_eq (P := Rec_.Formed) e h.record
      exact h1
  · next s1 e =>
      have h1 : s1.Formed := of_eq (P := Rec_.Formed) e h.record
      refine of_ite (P := Plan_.Formed) h1 (of_ite (P := Plan_.Formed) ?_ ?_)
      · split
        · exact h1
        · next s2 e1 =>
            have h2 : s2.Formed := of_eq (P := Moved.Formed) e1 h1.planMoves
            exact h2
        · next s2 e1 =>
            have h2 : s2.Formed := of_eq (P := Moved.Formed) e1 h1.planMoves
            exact of_ite (P := Plan_.Formed) h2 h2.walkAhead
      · split
        · exact h1
        · next s2 e1 =>
            have h2 : s2.Formed := of_eq (P := Moved.Formed) e1 h1.planMoves
            exact h2
        · next s2 e1 =>
            have h2 : s2.Formed := of_eq (P := Moved.Formed) e1 h1.planMoves
            exact h2.walkAhead

theorem State.Formed.planRows (h : s.Formed) {r : Req} {g : Gath} {scatter : Bool} {l : List (Nat × Nat)} {acc : List Piece} :
    (State.planRows r g scatter l s acc).Formed := by
  induction l generalizing s acc with
  | nil => exact h
  | cons x l ih =>
    unfold State.planRows
    refine of_ite (P := Moved.Formed) (ih h) (of_ite (P := Moved.Formed) (h.adrSegs fun h => ih h) (of_ite (P := Moved.Formed) h
      (of_ite (P := Moved.Formed) (h.adrBoth fun h => ?_) (h.adrBoth fun h => ih h))))
    split
    · exact h
    · exact ih h

theorem State.Formed.planGather (h : s.Formed) {r : Req} {scatter : Bool} : (s.planGather r scatter).Formed := by
  unfold State.planGather
  refine of_ite (P := Plan_.Formed) h ?_
  split
  · exact h
  · next s1 e =>
      have h1 : s1.Formed := of_eq (P := Adr.Formed) e h.adr
      exact h1
  · next s1 e =>
      have h1 : s1.Formed := of_eq (P := Adr.Formed) e h.adr
      refine of_ite (P := Plan_.Formed) h1 ?_
      dsimp only
      split
      · next s2 e1 =>
          have h2 : s2.Formed := of_eq (P := Moved.Formed) e1 h1.readPlaces.planRows
          exact h2
      · next s2 e1 =>
          have h2 : s2.Formed := of_eq (P := Moved.Formed) e1 h1.readPlaces.planRows
          exact h2
      · exact h1

theorem State.Formed.planLayout (h : s.Formed) {r : Req} : (s.planLayout r).Formed := by
  unfold State.planLayout
  dsimp only
  split
  · next s1 e =>
      have h1 : s1.Formed := of_eq (P := Rec_.Formed) e h.record
      exact h1
  · next s1 e =>
      have h1 : s1.Formed := of_eq (P := Rec_.Formed) e h.record
      exact h1
  · next s1 e =>
      have h1 : s1.Formed := of_eq (P := Rec_.Formed) e h.record
      split
      · next s2 e1 =>
          have h2 : s2.Formed := of_eq (P := Rec_.Formed) e1 h1.record
          exact h2
      · next s2 e1 =>
          have h2 : s2.Formed := of_eq (P := Rec_.Formed) e1 h1.record
          exact h2
      · next s2 e1 =>
          have h2 : s2.Formed := of_eq (P := Rec_.Formed) e1 h1.record
          refine of_ite (P := Plan_.Formed) h2 ?_
          split
          · exact h2
          · next s3 e2 =>
              have h3 : s3.Formed := of_eq (P := Moved.Formed) e2 h2.planMoves
              exact h3
          · next s3 e2 =>
              have h3 : s3.Formed := of_eq (P := Moved.Formed) e2 h2.planMoves
              exact of_ite (P := Plan_.Formed) h3 h3.walkAhead.walkAhead

theorem State.Formed.sbRange (h : s.Formed) {group core root : Nat} {r : Req} : InrFormed (s.sbRange group core root r) := by
  unfold State.sbRange
  dsimp only
  split
  · exact rfl
  · split
    · exact rfl
    · split
      · exact rfl
      · exact rfl
      · next s1 e =>
          have h1 : s1.Formed := of_eq (P := Rec_.Formed) e h.record
          exact h1
  · exact rfl
  · exact rfl
  · exact rfl
  · exact rfl

theorem State.Formed.orAsk (h : s.Formed) {s' : State} (hs' : s'.Formed) : OutFormed (s.orAsk s') := h.same
theorem State.Formed.pruneReqs (h : s.Formed) : s.pruneReqs.Formed := h.same

theorem State.Formed.fetchReq (h : s.Formed) {core : Nat} {k : Kick} {off chain pos : Nat} :
    SumFormed (s.fetchReq core k off chain pos) := by
  unfold State.fetchReq
  dsimp only
  split
  · exact h.setSpad.same
  · next e => exact of_eq (P := InrFormed) e (of_ite (P := InrFormed) rfl h.setSpad.sbRange)

theorem State.Formed.chainNext (h : s.Formed) {core : Nat} {k : Kick} {body : List Byte} : (s.chainNext core k body).2.Formed := by
  unfold State.chainNext
  dsimp only
  split
  · exact h
  · split
    · split
      · exact h
      · exact h.setStat
    · exact h.setStat

theorem State.Formed.execRequestEngineFetch (h : s.Formed) {core : Nat} : OutFormed (execRequestEngineFetch core s) := by
  unfold Machine.execRequestEngineFetch
  dsimp only
  split
  · exact h
  · refine OutFormed.ite (h.updCore fun _ => by rfl) ?_
    split
    · next s1 e =>
        have h1 : s1.Formed := of_eq (P := SumFormed) e (State.Formed.fetchReq (.ite h.pruneReqs h.pruneReqs.same))
        exact h.orAsk h1
    · next s1 e =>
        have h1 : s1.Formed := of_eq (P := SumFormed) e (State.Formed.fetchReq (.ite h.pruneReqs h.pruneReqs.same))
        exact OutFormed.ite h (h1.chainNext.updCore fun _ => by rfl)

theorem State.Formed.landCount (h : s.Formed) {r k : Nat} : (s.landCount r k).Formed := by
  unfold State.landCount
  split
  · exact h
  · dsimp only
    split
    · exact .ite h.updReq h.updReq.setBarr
    · exact h.updReq

theorem State.Formed.landRest (h : s.Formed) {r : Nat} : (s.landRest r).Formed := by
  unfold State.landRest
  split
  · exact .ite h.landCount h
  · exact h

theorem State.Formed.begun (h : s.Formed) {r : Req} {p : Plan_} (hp : p.Formed) : SumFormed (s.begun r p) := by
  unfold State.begun
  split
  · exact hp
  · dsimp only
    split
    · split
      · exact hp
      · exact State.Formed.landRest (.updReq hp)
    · split
      · exact hp
      · exact State.Formed.landRest (.updReq hp)
  · exact State.Formed.landCount (.updReq hp)

theorem State.Formed.beginReq (h : s.Formed) {kind req : Nat} {plan : Req → Plan_} (hplan : ∀ {x1 : Req}, (plan x1).Formed) :
    OutFormed (beginReq kind req s plan) := by
  unfold Machine.beginReq
  split
  · exact h
  · refine OutFormed.ite h ?_
    split
    · next s1 e =>
        have h1 : s1.Formed := of_eq (P := SumFormed) e (h.begun hplan)
        exact h1
    · next s1 e =>
        have h1 : s1.Formed := of_eq (P := SumFormed) e (h.begun hplan)
        exact h.orAsk h1

theorem State.Formed.execLinearCopy (h : s.Formed) {req : Nat} : OutFormed (execLinearCopy req s) := h.beginReq h.planLinear
theorem State.Formed.execTensorCopy (h : s.Formed) {req : Nat} : OutFormed (execTensorCopy req s) := h.beginReq h.planTensor
theorem State.Formed.execGatherRequest (h : s.Formed) {req : Nat} : OutFormed (execGatherRequest req s) := h.beginReq h.planGather
theorem State.Formed.execScatterAdd (h : s.Formed) {req : Nat} : OutFormed (execScatterAdd req s) := h.beginReq h.planGather
theorem State.Formed.execLayoutTransform (h : s.Formed) {req : Nat} : OutFormed (execLayoutTransform req s) := h.beginReq h.planLayout
theorem State.Formed.execFill (h : s.Formed) {req : Nat} : OutFormed (execFill req s) := h.beginReq h.planFill
theorem State.Formed.execBarrierSignal (h : s.Formed) {req : Nat} : OutFormed (execBarrierSignal req s) := h.beginReq
    (of_ite (P := Plan_.Formed) h h)
theorem State.Formed.reqStop (h : s.Formed) {r : Req} {code addr : Nat} : (s.reqStop r code addr).Formed := h.same.updReq.landCount

theorem State.Formed.landPiece (h : s.Formed) {r : Req} {i : Nat} : OptFormed (s.landPiece r i) := by
  unfold State.landPiece
  refine OptFormed.ite rfl ?_
  split
  · exact h.refuseWindow.reqStop
  · exact OptFormed.ite rfl h.landBits.updReq.landCount.landRest

theorem State.Formed.execCopyLanding (h : s.Formed) {req piece : Nat} : OutFormed (execCopyLanding req piece s) := by
  unfold Machine.execCopyLanding
  split
  · exact h
  · refine OutFormed.ite h ?_
    split
    · next s1 e =>
        have h1 : s1.Formed := of_eq (P := OptFormed) e h.landPiece
        exact h1
    · exact h

theorem State.Formed.injectOne (h : s.Formed) {id : Nat} : (s.injectOne id).Formed := by
  unfold State.injectOne
  split
  · exact h
  · exact h.same

theorem State.Formed.injectAll (h : s.Formed) : s.injectAll.Formed := h.foldl (fun h1 => h1.injectOne)
theorem State.Formed.sendXfer (h : s.Formed) {die dev : Nat} {of : XferOf} {pkt : Packet} : (s.sendXfer die dev of pkt).Formed :=
  h.same.injectAll
theorem State.Formed.countUp (h : s.Formed) {pa : Nat} {bypass : Bool} : (s.countUp pa bypass).Formed := h.settle.perform

theorem State.Formed.increase (h : s.Formed) {c : CtrInc} : (s.increase c).Formed := by
  unfold State.increase
  refine .same ?_
  split
  · refine .sendXfer ?_
    split
    · exact h.forceAll.updReq
    · exact h.forceAll
  · exact h.forceAll.countUp

theorem State.Formed.execCounterIncrease (h : s.Formed) {id : Nat} : OutFormed (execCounterIncrease id s) := by
  unfold Machine.execCounterIncrease
  split
  · exact h
  · exact OutFormed.ite h h.increase

theorem State.Formed.retireReq (h : s.Formed) {r : Req} : (s.retireReq r).Formed := by
  unfold State.retireReq
  dsimp only
  split
  · refine .ite ?_ (.setBarr ?_)
    · split
      · exact h.updReq.setSpad
      · exact h.updReq.perform
      · exact h.updReq
    · split
      · exact h.updReq.setSpad
      · exact h.updReq.perform
      · exact h.updReq
  · split
    · exact h.updReq.setSpad
    · exact h.updReq.perform
    · exact h.updReq

theorem State.Formed.execCopyRetire (h : s.Formed) {req : Nat} : OutFormed (execCopyRetire req s) := by
  unfold Machine.execCopyRetire
  split
  · exact h
  · exact OutFormed.ite h h.same.retireReq

end Sys2Proof.Machine
end

section
/-! SUPPORT. The form of the memories is kept: commands of the bank-group engines (Sys2Proof/Machine/BankEngine.lean). -/

namespace Sys2Proof.Machine

variable {s : State}

theorem State.Formed.updInst (h : s.Formed) {l k : Nat} {f : Inst → Inst} : (s.updInst l k f).Formed := h.updBank

theorem State.Formed.bgStop (h : s.Formed) {r : BgRun} {bad : List (Nat × Nat)} : (s.bgStop r bad).Formed := by
  unfold State.bgStop
  split
  · exact h
  · have hw {t : State} (ht : t.Formed) : (r.i.wrote.foldl (fun (m : Memory) (w : Nat × Nat) =>
        m.dramWrite w.1 ((List.range w.2).map fun i => Config.freeByte t.tick [0x900, w.1, i])) t.mem).Formed :=
      List.foldlRecOn (motive := Memory.Formed) _ _ ht.memory fun _ hm _ _ => hm.dramWrite
    refine (State.Formed.setMem (h.foldl fun h => h.setEngine) (hw ?_)).updInst
    exact h.foldl fun h => h.setEngine

theorem State.Formed.bgCommand (h : s.Formed) {check : Engine → Option Nat} {reads : Engine → List Nat}
    {act : State → BgRun → Engine → State × Engine} {next : Engine → Nat}
    (hact : ∀ {s1 : State} {x2 : BgRun} {x3 : Engine}, s1.Formed → (act s1 x2 x3).1.Formed) :
    OutFormed (bgCommand s check reads act next) := by
  unfold Machine.bgCommand
  split
  · exact h
  · exact OutFormed.ite h.bgStop ((h.foldl (fun h1 => (hact h1).setEngine)).updInst)

theorem State.Formed.execBgNopc (h : s.Formed) : OutFormed (execBgNopc s) := h.bgCommand (fun h1 => h1)
theorem State.Formed.execBgSync (h : s.Formed) : OutFormed (execBgSync s) := h.bgCommand (fun h1 => h1)
theorem State.Formed.sigOpen (h : s.Formed) {r : BgRun} {id row : Nat} : (s.sigOpen r id row).Formed := .ite h h.updInst
theorem State.Formed.execBgOpen (h : s.Formed) {bm : BitVec 4} {x : BitVec 3} {i : BitVec 16} : OutFormed (execBgOpen bm x i s) :=
  h.bgCommand (fun h1 => .ite h1 h1.sigOpen)
theorem State.Formed.execBgClose (h : s.Formed) {bm : BitVec 4} : OutFormed (execBgClose bm s) := h.bgCommand (fun h1 => h1)
theorem State.Formed.execBgRd (h : s.Formed) {bm : BitVec 4} {x : BitVec 3} {i : BitVec 16} : OutFormed (execBgRd bm x i s) :=
  h.bgCommand (fun h1 => h1)
theorem State.Formed.execBgMac (h : s.Formed) {bm : BitVec 4} {as : BitVec 2} {f : Bool} : OutFormed (execBgMac bm as f s) :=
  h.bgCommand (fun h1 => h1)

theorem State.Formed.execBgRmac (h : s.Formed) {bm : BitVec 4} {x : BitVec 3} {as : BitVec 2} {f : Bool} {i : BitVec 16} :
    OutFormed (execBgRmac bm x as f i s) := h.bgCommand (fun h1 => h1)

theorem State.Formed.execBgAdd (h : s.Formed) {bm : BitVec 4} {as : BitVec 2} : OutFormed (execBgAdd bm as s) := h.bgCommand (fun h1 => h1)
theorem State.Formed.execBgMax (h : s.Formed) {bm : BitVec 4} {as : BitVec 2} : OutFormed (execBgMax bm as s) := h.bgCommand (fun h1 => h1)
theorem State.Formed.execBgScale (h : s.Formed) {bm : BitVec 4} {as : BitVec 2} {i : BitVec 16} : OutFormed (execBgScale bm as i s) :=
  h.bgCommand (fun h1 => h1)
theorem State.Formed.execBgScaleScl (h : s.Formed) {x : BitVec 3} {i : BitVec 16} : OutFormed (execBgScaleScl x i s) :=
  h.bgCommand (fun h1 => h1)

theorem State.Formed.bgWrite (h : s.Formed) {r : BgRun} {pa : Nat} {data : List Byte} : (s.bgWrite r pa data).Formed :=
  (h.setMem h.memory.dramWrite).markDirty.updInst

theorem State.Formed.execBgWr (h : s.Formed) {bm : BitVec 4} {x : BitVec 3} {as : BitVec 2} {f : Bool} {i : BitVec 16} :
    OutFormed (execBgWr bm x as f i s) := h.bgCommand (fun h1 => h1.foldl (fun h2 => .ite h2.bgWrite.bgWrite h2.bgWrite))

theorem State.Formed.execBgZero (h : s.Formed) {bm : BitVec 4} {as : BitVec 2} : OutFormed (execBgZero bm as s) :=
  h.bgCommand (fun h1 => h1)
theorem State.Formed.execBgLdx (h : s.Formed) {x : BitVec 3} {i : BitVec 23} : OutFormed (execBgLdx x i s) := h.bgCommand (fun h1 => h1)
theorem State.Formed.execBgAddx (h : s.Formed) {x : BitVec 3} {i : BitVec 23} : OutFormed (execBgAddx x i s) := h.bgCommand (fun h1 => h1)

theorem State.Formed.execBgLoop (h : s.Formed) {x : BitVec 3} {i : BitVec 23} : OutFormed (execBgLoop x i s) := by
  unfold Machine.execBgLoop
  exact h.bgCommand (fun h1 => h1)

theorem State.Formed.execBgNext (h : s.Formed) : OutFormed (execBgNext s) := by
  unfold Machine.execBgNext
  exact h.bgCommand (fun h1 => h1)

theorem State.Formed.execBgBnz (h : s.Formed) {x : BitVec 3} {t : BitVec 8} : OutFormed (execBgBnz x t s) := h.bgCommand (fun h1 => h1)
theorem State.Formed.execBgVld (h : s.Formed) {bm : BitVec 4} {x : BitVec 3} {i : BitVec 16} : OutFormed (execBgVld bm x i s) :=
  h.bgCommand (fun h1 => h1)
theorem State.Formed.execBgBtl (h : s.Formed) {d src : BitVec 3} {o : BitVec 8} : OutFormed (execBgBtl d src o s) :=
  h.bgCommand (fun h1 => h1)
theorem State.Formed.execBgIdx (h : s.Formed) {d src : BitVec 3} {o : BitVec 8} : OutFormed (execBgIdx d src o s) :=
  h.bgCommand (fun h1 => h1)

theorem State.Formed.execBgEmit (h : s.Formed) {x : BitVec 3} {as : BitVec 2} {f : Bool} {i : BitVec 16} :
    OutFormed (execBgEmit x as f i s) := h.bgCommand (fun h1 => .ite h1.bgWrite.bgWrite h1.bgWrite)

theorem State.Formed.execBgAttn (h : s.Formed) {x : BitVec 3} {as : BitVec 2} {i : BitVec 16} : OutFormed (execBgAttn x as i s) :=
  h.bgCommand (fun h1 => .ite h1 (h1.foldl (fun h2 => h2.sigOpen)))
theorem State.Formed.bgFinish (h : s.Formed) {r : BgRun} : (s.bgFinish r).Formed :=
  .updInst (.ite ((h.foldl (fun h1 => h1.setEngine)).same) (h.foldl (fun h1 => h1.setEngine)))

theorem State.Formed.execBgEnd (h : s.Formed) : OutFormed (execBgEnd s) := by
  unfold Machine.execBgEnd
  split
  · exact h
  · exact State.Formed.ite h.bgFinish h.bgStop

theorem State.Formed.bgIllegal (h : s.Formed) : OutFormed s.bgIllegal := by
  unfold State.bgIllegal
  split
  · exact h
  · exact h.bgStop

theorem State.Formed.execUnassignedCommandCode (h : s.Formed) {w : W32} : OutFormed (execUnassignedCommandCode w s) := h.bgIllegal

end Sys2Proof.Machine
end

section
/-! SUPPORT. The form of the memories is kept: queues of the command processor (Sys2Proof/Machine/Queue.lean). -/

namespace Sys2Proof.Machine

variable {s : State}

theorem State.Formed.pushQ (h : s.Formed) {p : Push} : OptFormed (s.pushQ p) := OptFormed.ite rfl h.perform.updQueue

theorem State.Formed.pushHeld (h : s.Formed) : s.pushHeld.Formed := by
  unfold State.pushHeld
  refine (h.foldl_snd (fun h1 => ?_)).same
  split
  · exact h1
  · split
    · next s1 e =>
        have h11 : s1.Formed := of_eq (P := OptFormed) e h1.pushQ
        exact h11
    · exact h1

theorem State.Formed.pushCp (h : s.Formed) {p : Push} : (s.pushCp p).Formed := h.same.pushHeld

theorem State.Formed.ringTake (h : s.Formed) {q : Nat} : OptSndSnd (s.ringTake q) :=
  of_ite (P := OptSndSnd) rfl h.engineRead.updQueue.pushHeld

theorem State.Formed.cpRead (h : s.Formed) {die : Nat} {root : Option Nat} {va len : Nat} {r : Reader_} :
    (s.cpRead die root va len r).Formed := by
  unfold State.cpRead
  split
  · exact h
  · split
    · exact h
    · next s1 e =>
        have h1 : s1.Formed := of_eq (P := Xl.Formed) e h.engineXlat
        exact h1
    · next s1 e =>
        have h1 : s1.Formed := of_eq (P := Xl.Formed) e h.engineXlat
        exact of_ite (P := CpRead.Formed) h1 (h1.foldl_snd (fun h2 => h2.engineRead))

theorem State.Formed.cpWord (h : s.Formed) {die : Nat} {root : Option Nat} {va : Nat} : (s.cpWord die root va).Formed := by
  unfold State.cpWord
  split
  · exact h
  · refine of_ite (P := CpWord.Formed) h ?_
    split
    · exact rfl
    · next s1 e =>
        have h1 : s1.Formed := of_eq (P := Xl.Formed) e h.engineXlat
        exact h1
    · next s1 e =>
        have h1 : s1.Formed := of_eq (P := Xl.Formed) e h.engineXlat
        split
        · exact of_ite (P := CpWord.Formed) h1 h1
        · exact h1

end Sys2Proof.Machine
end

section
/-! SUPPORT. The form of the memories is kept: launches of the bank-group engines (Sys2Proof/Machine/Bank.lean). -/

namespace Sys2Proof.Machine

variable {s : State}

theorem State.Formed.post (h : s.Formed) {t : TRef} {load : Bool} {va : W64} {op : Option Nat} : OptFormed (s.post t load va op) :=
  OptFormed.ite rfl h.flush.releaseK.pushQ

theorem State.Formed.withDesc (h : s.Formed) {t : TRef} {a : Operand} {off : BitVec 12} {n : Nat} {f : W64 → State → Lane}
    (hf : ∀ {x1 : W64} {s2 : State}, s2.Formed → (f x1 s2).Formed) :
    (s.withDesc t a off n f).Formed := by
  unfold State.withDesc
  refine Lane.Formed.ite h ?_
  split
  · exact h
  · next s1 e =>
      have h1 : s1.Formed := of_eq (P := Access.Formed) e h.access
      exact h1
  · exact h
  · next s1 e =>
      have h1 : s1.Formed := of_eq (P := Access.Formed) e h.access
      exact hf h1

theorem State.Formed.execBgload (h : s.Formed) {c : Ctl} {d a : Operand} {off : BitVec 12} : OutFormed (execBgload c d a off s) := by
  unfold Machine.execBgload
  refine h.native (fun h1 => ?_)
  refine Lane.Formed.ite h1 (h1.withDesc (fun h2 => ?_))
  refine Lane.Formed.ite h2.begin_.defer ?_
  split
  · next s3 e =>
      have h3 : s3.Formed := of_eq (P := OptFormed) e h2.begin_.post
      exact h3
  · exact h1

theorem State.Formed.execBgx (h : s.Formed) {c : Ctl} {a : Operand} {off : BitVec 12} : OutFormed (execBgx c a off s) := by
  unfold Machine.execBgx
  refine h.native (fun h1 => ?_)
  refine Lane.Formed.ite h1 (h1.withDesc (fun h2 => ?_))
  refine Lane.Formed.ite h2.beginQuiet.defer ?_
  split
  · next s3 e =>
      have h3 : s3.Formed := of_eq (P := OptFormed) e h2.post
      exact h3
  · exact h1

theorem State.Formed.fenceArm (h : s.Formed) {t : TRef} {op : Nat} : (s.fenceArm t op).Formed := h.updOp
theorem State.Formed.execBfence (h : s.Formed) {c : Ctl} {a : Operand} : OutFormed (execBfence c a s) :=
  h.native (fun h1 => Lane.Formed.ite h1 (Lane.Formed.ite h1 (State.Formed.ite h1.begin_.defer h1.begin_.acqBy.fenceArm)))

theorem State.Formed.fenceStep (h : s.Formed) {o : Op} : OptFormed (s.fenceStep o) := by
  unfold State.fenceStep
  split
  · exact OptFormed.ite rfl (OptFormed.ite rfl (OptFormed.ite (h.forceAll.foldl (fun h1 => h1.writeback))
      ((((h.forceAll.foldl (fun h1 => h1.writeback)).same).l1Clear).updOp)))
  · exact rfl

theorem State.Formed.execBgwait (h : s.Formed) {c : Ctl} {d a : Operand} {off : BitVec 12} : OutFormed (execBgwait c d a off s) :=
  h.native (fun h1 => h1.queueWait (Lane.Formed.ite h1 (h1.withWord (fun h2 => h2.beginWait))))
theorem State.Formed.execBgstatEng (h : s.Formed) {c : Ctl} {d a : Operand} : OutFormed (execBgstatEng c d a s) :=
  h.native (fun h1 => Lane.Formed.ite h1 (Lane.Formed.ite h1 (Lane.Formed.ite h1.begin_.defer h1.result)))

theorem State.Formed.execBgstatRmap (h : s.Formed) {c : Ctl} {d a : Operand} : OutFormed (execBgstatRmap c d a s) := by
  unfold Machine.execBgstatRmap
  refine h.native (fun h1 => ?_)
  refine Lane.Formed.ite h1 (Lane.Formed.ite h1 (Lane.Formed.ite h1 ?_))
  split
  · exact State.Formed.ite h1.markRefused h1
  · exact h1.fillPages.result

theorem State.Formed.bankRecord (h : s.Formed) {part stack first : Nat} {va : W64} {code : Nat} :
    (s.bankRecord part stack first va code).Formed := h.pushErr

theorem State.Formed.bgxOver (h : s.Formed) {op : Option Nat} : (s.bgxOver op).Formed := h.same

theorem State.Formed.loadStatus (h : s.Formed) {op : Option Nat} {code : Nat} : (s.loadStatus op code).Formed := by
  unfold State.loadStatus
  split
  · exact h.updOp.bgxOver
  · exact h

theorem State.Formed.execBankQueueTake (h : s.Formed) {q : Nat} : OutFormed (execBankQueueTake q s) := by
  refine OutFormed.ite h ?_
  split
  · exact h
  · next s1 e =>
    have h1 : s1.Formed := of_eq (P := OptSndSnd) e h.ringTake
    refine OutFormed.ite h1.bankRecord.loadStatus ?_
    split
    · next s2 e =>
      have h2 : s2.Formed := of_eq (P := CpRead.Formed) e h1.cpRead
      exact h.orAsk h2
    · next s2 e =>
      have h2 : s2.Formed := of_eq (P := CpRead.Formed) e h1.cpRead
      exact h2.bankRecord.loadStatus
    · next s2 e =>
      have h2 : s2.Formed := of_eq (P := CpRead.Formed) e h1.cpRead
      exact h2.same

theorem State.Formed.dropBank (h : s.Formed) {l : Nat} : (s.dropBank l).Formed := h.bgxOver.same

theorem State.Formed.execStoreLoadDispatch (h : s.Formed) {l : Nat} : OutFormed (execStoreLoadDispatch l s) := by
  unfold Machine.execStoreLoadDispatch
  dsimp only
  split
  · exact h
  · refine OutFormed.ite h (OutFormed.ite h.loadStatus.dropBank ?_)
    split
    · next s1 e =>
        have h1 : s1.Formed := of_eq (P := CpRead.Formed) e h.cpRead
        exact h.orAsk h1
    · next s1 e =>
        have h1 : s1.Formed := of_eq (P := CpRead.Formed) e h.cpRead
        exact h1.loadStatus.dropBank
    · next s1 e =>
        have h1 : s1.Formed := of_eq (P := CpRead.Formed) e h.cpRead
        exact OutFormed.ite h (((h1.foldl (fun h2 => h2.setEngine)).loadStatus).dropBank)

theorem State.Formed.bankXlat (h : s.Formed) {die root : Nat} {write : Bool} {test : BankPart → Bool} {l : List (Nat × Nat)}
    {acc : List BankPart} : (State.bankXlat die root write test l s acc).Formed := by
  induction l generalizing s acc with
  | nil => exact h
  | cons x l ih =>
    unfold State.bankXlat
    refine of_ite (P := Admits.Formed) h (of_ite (P := Admits.Formed) rfl ?_)
    split
    · exact of_ite (P := Admits.Formed) (ih h.fillPages) h
    · exact State.Formed.ite h.markRefused h

/-- Parts translated one after the other, each as far as the one before it came. -/
theorem Admits.Formed.foldl {α β : Type} {f : Admits α → β → Admits α} {l : List β} {a : Admits α} (h : a.Formed)
    (hf : ∀ {a x}, a.Formed → (f a x).Formed) : (l.foldl f a).Formed :=
  List.foldlRecOn (motive := Admits.Formed) l f h fun _ h _ _ => hf h

theorem State.Formed.admitXlat (h : s.Formed) {L : BankLaunch} : (s.admitXlat L).Formed := by
  unfold State.admitXlat
  dsimp only
  split
  · next s1 e =>
    have h1 : s1.Formed := of_eq (P := Admits.Formed) e h.bankXlat
    exact h1
  · rfl
  · next s1 e =>
    have h1 : s1.Formed := of_eq (P := Admits.Formed) e h.bankXlat
    split
    · next s2 e =>
      have h2 : s2.Formed := of_eq (P := Admits.Formed) e h1.bankXlat
      exact h2
    · rfl
    · next s2 e =>
      have h2 : s2.Formed := of_eq (P := Admits.Formed) e h1.bankXlat
      split
      · next s3 e =>
        have h3 : s3.Formed := of_eq (P := Admits.Formed) e h2.bankXlat
        exact h3
      · rfl
      · next s3 e =>
        have h3 : s3.Formed := of_eq (P := Admits.Formed) e h2.bankXlat
        generalize e : List.foldl _ (Admits.ok [] s3) _ = x
        have hx : x.Formed := by
          subst e
          refine Admits.Formed.foldl h3 fun {a i} h => ?_
          cases a with
          | ok v s =>
            dsimp only
            split
            · next s4 e =>
              have h4 : s4.Formed := of_eq (P := Admits.Formed) e (State.Formed.bankXlat h)
              exact h4
            · rfl
            · next s4 e =>
              have h4 : s4.Formed := of_eq (P := Admits.Formed) e (State.Formed.bankXlat h)
              exact h4
          | bad c s => exact h
          | wait => rfl
        cases x with
        | ok v s => exact hx
        | bad c s => exact hx
        | wait => rfl

theorem State.Formed.startRun (h : s.Formed) {L : BankLaunch} {k : Nat} {engines : List Nat} : (s.startRun L k engines).Formed :=
  h.foldl (fun h1 => h1.setEngine)
theorem State.Formed.admitFail (h : s.Formed) {L : BankLaunch} {comp : Nat × Bool} {code : Nat} : (s.admitFail L comp code).Formed :=
  h.updBank

theorem State.Formed.admitGo (h : s.Formed) {L : BankLaunch} {a : Admit} {es : List RotEnt} {comp : Nat × Bool} :
    (s.admitGo L a es comp).Formed := by
  refine State.Formed.foldl (State.Formed.updBank (h.foldl_snd fun h => ?_)).same fun h => h.startRun
  exact State.Formed.foldl_snd (p := ([], _)) h fun h => h.engineRead

theorem State.Formed.execBankLaunchAdmission (h : s.Formed) {l : Nat} : OutFormed (execBankLaunchAdmission l s) := by
  unfold Machine.execBankLaunchAdmission
  dsimp only
  split
  · exact h
  · refine OutFormed.ite h ?_
    split
    · exact h
    · next s1 e =>
        have h1 : s1.Formed := of_eq (P := CpWord.Formed) e h.cpWord
        exact h1.bankRecord.dropBank
    · next s1 e =>
        have h1 : s1.Formed := of_eq (P := CpWord.Formed) e h.cpWord
        refine OutFormed.ite h1.admitFail ?_
        split
        · exact h
        · next s2 e1 =>
            have h2 : s2.Formed := of_eq (P := Admits.Formed) e1 h1.admitXlat
            exact h2.admitFail
        · next s2 e1 =>
            have h2 : s2.Formed := of_eq (P := Admits.Formed) e1 h1.admitXlat
            exact OutFormed.ite h2.admitFail (OutFormed.ite h2.admitFail (OutFormed.ite (h.orAsk h2) h2.admitGo))

theorem State.Formed.execBankReexecution (h : s.Formed) {l inst : Nat} : OutFormed (execBankReexecution l inst s) := by
  unfold Machine.execBankReexecution
  dsimp only
  split
  · exact h
  · split
    · exact h
    · exact OutFormed.ite h h.updInst.startRun

theorem State.Formed.mergeSlots (h : s.Formed) {L : BankLaunch} : (s.mergeSlots L).Formed :=
  (h.setMem h.memory.dramWrite.dramWrite).markDirty.markDirty

theorem State.Formed.execAttentionMerge (h : s.Formed) {l : Nat} : OutFormed (execAttentionMerge l s) := by
  unfold Machine.execAttentionMerge
  split
  · exact h
  · exact OutFormed.ite h h.mergeSlots.updBank

theorem State.Formed.execBankCompletion (h : s.Formed) {l : Nat} : OutFormed (execBankCompletion l s) := by
  unfold Machine.execBankCompletion
  dsimp only
  split
  · exact h
  · refine OutFormed.ite h ?_
    split
    · exact h.same.dropBank
    · exact OutFormed.ite h h.settle.perform.same.dropBank

theorem State.Formed.execCoreAccessArrives (h : s.Formed) {sector : Nat} : OutFormed (execCoreAccessArrives sector s) := by
  unfold Machine.execCoreAccessArrives
  split
  · exact OutFormed.ite h.writeback h
  · exact h

end Sys2Proof.Machine
end

section
/-! SUPPORT. The form of the memories is kept: page moves, stubs and rings (Sys2Proof/Machine/Paging.lean). -/

namespace Sys2Proof.Machine

variable {s : State}

theorem State.Formed.updXlat (h : s.Formed) {f : Xlat → Xlat} : (s.updXlat f).Formed := h.same
theorem State.Formed.prHold (h : s.Formed) {lo hi : Nat} {tag : Option Nat} : (s.prHold lo hi tag).Formed := h.updXlat

theorem State.Formed.execPageRequestRingWrite (h : s.Formed) : OutFormed (execPageRequestRingWrite s) := by
  unfold Machine.execPageRequestRingWrite
  dsimp only
  split
  · exact h
  · exact OutFormed.ite h (State.Formed.same (.updXlat (.ite h h.settle.perform)))

theorem State.Formed.prAnswer (h : s.Formed) {tag code : Nat} : (s.prAnswer tag code).Formed := h.same.updXlat
theorem State.Formed.execPrDone (h : s.Formed) {v : W32} : OutFormed (execPrDone v s) := h.prAnswer

theorem State.Formed.setPrSize (h : s.Formed) {v : W32} : (s.setPrSize v).Formed := by
  unfold State.setPrSize
  refine .ite ((h.updXlat.foldl (fun h1 => ?_)).updXlat) h.updXlat
  split
  · exact h1.prAnswer
  · exact h1

theorem State.Formed.execPrSize (h : s.Formed) {v : W32} : OutFormed (execPrSize v s) := h.setPrSize

theorem State.Formed.enterReq (h : s.Formed) {o : Nat} {va : W64} {dst : Nat} {w : Bool} {root page die : Nat} :
    (s.enterReq o va dst w root page die).Formed := h.prHold.updXlat.updOp

theorem State.Formed.pgreqGo (h : s.Formed) {o : Nat} : (s.pgreqGo o).Formed := by
  unfold State.pgreqGo
  split
  · exact h
  · split
    · dsimp only
      split
      · exact h.updOp
      · refine .ite h.updOp (.ite h.updOp (.ite h.updOp ?_))
        split
        · exact .ite h.enterReq h.updOp
        · exact h.enterReq
    · exact h

theorem State.Formed.execPgreq (h : s.Formed) {c : Ctl} {w : Bool} {d a : Operand} {off : BitVec 12} :
    OutFormed (execPgreq c w d a off s) := h.native (fun h1 => Lane.Formed.ite h1
        (Lane.Formed.ite h1 (Lane.Formed.ite h1 (Lane.Formed.ite h1.begin_.defer
        (Lane.Formed.ite h1.begin_.pgreqGo.hold h1.begin_.pgreqGo)))))

theorem State.Formed.dropTlb (h : s.Formed) {p : TlbEnt → Bool} : (s.dropTlb p).2.Formed := h.updXlat
theorem State.Formed.inval (h : s.Formed) {t : TRef} {c : Ctl} {p : TlbEnt → Bool} : (s.inval t c p).Formed :=
  Lane.Formed.ite h h.dropTlb.begin_
theorem State.Formed.execTlbinvPage (h : s.Formed) {c : Ctl} {a b : Operand} : OutFormed (execTlbinvPage c a b s) :=
  h.native (fun h1 => h1.inval)
theorem State.Formed.execTlbinvAll (h : s.Formed) {c : Ctl} : OutFormed (execTlbinvAll c s) := h.native (fun h1 => h1.inval)
theorem State.Formed.execPocinvPage (h : s.Formed) {c : Ctl} {a b : Operand} : OutFormed (execPocinvPage c a b s) :=
  h.native (fun h1 => Lane.Formed.ite h1 h1.updXlat.result)
theorem State.Formed.execPocinvAll (h : s.Formed) {c : Ctl} : OutFormed (execPocinvAll c s) :=
  h.native (fun h1 => Lane.Formed.ite h1 h1.updXlat.result)
theorem State.Formed.setMig (h : s.Formed) {m : Mig} : (s.setMig m).Formed := h.updMigs
theorem State.Formed.dropMig (h : s.Formed) {m : Nat} : (s.dropMig m).Formed := h.updXlat
theorem State.Formed.execPgmig (h : s.Formed) {c : Ctl} {d a b : Operand} : OutFormed (execPgmig c d a b s) :=
  h.native (fun h1 => Lane.Formed.ite h1 h1.same.begin_.updXlat)
theorem State.Formed.migEnd (h : s.Formed) {m : Mig} {code : Nat} {begun : Bool} : (s.migEnd m code begun).Formed :=
  .ite h.updOp.dropMig.same.prHold h.updOp.dropMig.same
theorem State.Formed.clearM (h : s.Formed) {m : Mig} : (s.clearM m).Formed := h.perform

theorem State.Formed.execMigrationStart (h : s.Formed) {m : Nat} : OutFormed (execMigrationStart m s) := by
  unfold Machine.execMigrationStart
  dsimp only
  split
  · exact h
  · refine OutFormed.ite h ?_
    split
    · exact h.migEnd
    · exact OutFormed.ite h.migEnd (OutFormed.ite h.migEnd (OutFormed.ite h (OutFormed.ite h.setMig.sendXfer h.settle.perform.setMig)))

theorem State.Formed.migCopy (h : s.Formed) {M : Mig} {sectors : List Nat} : (s.migCopy M sectors).Formed :=
  .ite (h.foldl (fun h1 => h1.perform)) (h.foldl (fun h1 => h1.sendXfer))

theorem State.Formed.execMigrationPassEnd (h : s.Formed) {m : Nat} : OutFormed (execMigrationPassEnd m s) := by
  unfold Machine.execMigrationPassEnd
  split
  · exact h
  · exact OutFormed.ite h (OutFormed.ite h.settle.migCopy.setMig (OutFormed.ite (OutFormed.ite h.settle.migCopy.settle.clearM.migEnd h)
      h.settle.migCopy.setMig))

theorem State.Formed.opGone (h : s.Formed) {o : Op} {old : Nat} : (s.opGone o old).Formed := by
  unfold State.opGone
  dsimp only
  split
  · exact h.updOp
  · exact h.updOp
  · exact h.updOp
  · exact h.updOp
  · exact h.updOp
  · split
    · exact h.updOp
    · exact h.dropOp
  · exact h.updOp
  · exact h.updOp
  · exact h.updOp
  · exact h

theorem State.Formed.relocate (h : s.Formed) {id old new : Nat} : (s.relocate id old new).Formed := h.updOp.updWq.updReq.updBank.same

theorem State.Formed.away (h : s.Formed) {id old : Nat} : (s.away id old).Formed := by
  unfold State.away
  refine .updReq (.updBank (.same ?_))
  split
  · exact h.opGone
  · exact h

theorem State.Formed.execStubForward (h : s.Formed) {op : Nat} : OutFormed (execStubForward op s) := by
  unfold Machine.execStubForward
  split
  · exact h
  · exact OutFormed.ite h (((h.foldl (fun h1 => .ite h1.away h1.relocate)).same).updXlat)

theorem State.Formed.execRedirect (h : s.Formed) {id : Nat} : OutFormed (execRedirect id s) := by
  unfold Machine.execRedirect
  split
  · exact h
  · exact h.updXlat

theorem State.Formed.execChase (h : s.Formed) {op : Nat} : OutFormed (execChase op s) := by
  unfold Machine.execChase
  split
  · exact h
  · refine OutFormed.ite h ?_
    dsimp only
    split
    · exact OutFormed.ite h.updXlat.relocate (OutFormed.ite h.updXlat.away h.updXlat)
    · exact h.updXlat

theorem State.Formed.moveMonitor (h : s.Formed) {o : Op} {old new : Nat} : (s.moveMonitor o old new).Formed := by
  unfold State.moveMonitor
  dsimp only
  split
  · exact .ite h.updOp h
  · exact .ite h.updOp h
  · exact .ite h.updOp h
  · exact .ite h.updOp h
  · exact h

theorem State.Formed.farMonitor (h : s.Formed) {o : Op} {old : Nat} : (s.farMonitor o old).Formed := by
  unfold State.farMonitor
  dsimp only
  split
  · exact .ite h.updOp h
  · exact .ite h.updOp h
  · exact .ite h.updOp h
  · exact .ite h.updOp h
  · exact h

theorem State.Formed.moveBuffered (h : s.Formed) {old new : Nat} : (s.moveBuffered old new).Formed := h.same

theorem State.Formed.execMigrationSwitch (h : s.Formed) {m : Nat} : OutFormed (execMigrationSwitch m s) := by
  unfold Machine.execMigrationSwitch
  split
  · exact h
  · refine OutFormed.ite h (OutFormed.ite h.migCopy.setMig (OutFormed.ite h.setMig.sendXfer ?_))
    have hm {s : State} {p : Sector → Bool} (h : s.Formed) : State.Formed { s with mem := { s.mem with l2 := s.mem.l2.filter p } } :=
      h.setMem h.memory.l2Filter
    refine State.Formed.migEnd (.ite ?_ (.moveBuffered ?_))
    all_goals exact (hm h.migCopy.perform).same.updXlat.foldl fun h => .ite h.farMonitor h.moveMonitor

theorem State.Formed.execStubReclaimQuery (h : s.Formed) {stub die : Nat} : OutFormed (execStubReclaimQuery stub die s) := by
  unfold Machine.execStubReclaimQuery
  split
  · exact h
  · exact OutFormed.ite h h.updXlat

theorem State.Formed.execStubReclaimReply (h : s.Formed) {stub : Nat} : OutFormed (execStubReclaimReply stub s) := by
  unfold Machine.execStubReclaimReply
  split
  · exact h
  · split
    · exact h
    · exact OutFormed.ite h.updXlat.prHold h.updXlat

end Sys2Proof.Machine
end

section
/-! SUPPORT. The form of the memories is kept: remote calls (Sys2Proof/Machine/Remote.lean). -/

namespace Sys2Proof.Machine

variable {s : State}

theorem State.Formed.callXlat (h : s.Formed) {t : TRef} {l2 : Bool} {va : W64} {entry : Option W64} :
    (s.callXlat t l2 va entry).Formed := by
  unfold State.callXlat
  refine of_ite (P := CallXlat.Formed) rfl (of_ite (P := CallXlat.Formed) h (of_ite (P := CallXlat.Formed) h.refuseWindow ?_))
  split
  · exact h
  · refine of_ite (P := CallXlat.Formed) h ?_
    split
    · exact h
    · refine of_ite (P := CallXlat.Formed) rfl ?_
      show State.Formed _
      split
      · exact h.fillTlb.fillTlb
      · exact h.fillTlb

theorem State.Formed.dropCall (h : s.Formed) {id : Nat} : (s.dropCall id).Formed := h.same

theorem State.Formed.rcallGo (h : s.Formed) {id : Nat} : OptFormed (s.rcallGo id) := by
  unfold State.rcallGo
  split
  · exact h
  · split
    · exact h.dropCall
    · split
      · exact rfl
      · next s1 e =>
          have h1 : s1.Formed := of_eq (P := CallXlat.Formed) e h.callXlat
          exact h1.updCall
      · next s1 e =>
          have h1 : s1.Formed := of_eq (P := CallXlat.Formed) e h.callXlat
          exact h1.updCall

theorem State.Formed.execRcall (h : s.Formed) {c : Ctl} {l2 again : Bool} {cnt : BitVec 4} {m : BitVec 5} {d a b e : Operand} :
    OutFormed (execRcall c l2 again cnt m d a b e s) := by
  unfold Machine.execRcall
  refine h.native (fun h1 => ?_)
  refine Lane.Formed.ite h1 (Lane.Formed.ite (State.Formed.defer (.begin_ (.same (.updThread (.ite h1 h1.flush))))) ?_)
  dsimp only
  split
  · next s2 e1 =>
      have h2 : s2.Formed := of_eq (P := OptFormed) e1 (State.Formed.rcallGo (.begin_ (.same (.updThread (.ite h1 h1.flush)))))
      exact h2
  · exact h1

theorem State.Formed.callDone (h : s.Formed) {k : Call} {code : Nat} : (s.callDone k code).Formed := by
  unfold State.callDone
  split
  · exact h
  · split
    · exact h.landAll.updThread.acquireNow.flagDown.dropOp
    · exact h

theorem State.Formed.execRcallReply (h : s.Formed) {call : Nat} : OutFormed (execRcallReply call s) := by
  unfold Machine.execRcallReply
  split
  · exact h
  · exact OutFormed.ite h (State.Formed.dropCall (.ite h h.callDone))

theorem State.Formed.execRcallTimeout (h : s.Formed) {call : Nat} : OutFormed (execRcallTimeout call s) := by
  unfold Machine.execRcallTimeout
  split
  · exact h
  · exact OutFormed.ite h (State.Formed.ite h.callDone.same.dropCall h.callDone.same.updCall)

theorem State.Formed.callOnward (h : s.Formed) {k : Call} {b : Stub} : (s.callOnward k b).Formed := h.same.updXlat.updCall
theorem State.Formed.callChased (h : s.Formed) {k : Call} {b : Stub} : OptFormed (s.callChased k b) := h.updXlat.rcallGo
theorem State.Formed.cachedReply (h : s.Formed) {k : Call} {d : Dedup} : (s.cachedReply k d).Formed := h.updCall.same

theorem State.Formed.execRcallArrival (h : s.Formed) {call : Nat} : OutFormed (execRcallArrival call s) := by
  unfold Machine.execRcallArrival
  dsimp only
  split
  · exact h
  · refine OutFormed.ite h ?_
    split
    · exact h
    · exact h.callOnward
    · split
      · next s1 e =>
          have h1 : s1.Formed := of_eq (P := OptFormed) e h.callChased
          exact h1
      · exact h
    · split
      · exact OutFormed.ite h.cachedReply h
      · exact OutFormed.ite h h.updCall

theorem State.Formed.entryStatus (h : s.Formed) {k : Call} {stamp : Nat} : OptSnd (s.entryStatus k stamp) := by
  unfold State.entryStatus
  refine of_ite (P := OptSnd) h ?_
  split
  · exact rfl
  · exact h
  · next s1 e =>
      have h1 : s1.Formed := of_eq (P := Fetch.Formed) e h.fetchIn
      show State.Formed _
      split
      · exact h1
      · exact h1

theorem State.Formed.execCalleeStart (h : s.Formed) {call : Nat} : OutFormed (execCalleeStart call s) := by
  unfold Machine.execCalleeStart
  split
  · exact h
  · refine OutFormed.ite h ?_
    split
    · exact h
    · exact h.callOnward
    · split
      · next e => exact of_eq (P := OptFormed) e h.callChased
      · exact h
    · refine OutFormed.ite (State.Formed.ite h.dropCall h.updCall) (OutFormed.ite ?_ (OutFormed.ite h ?_))
      · split
        · exact OutFormed.ite h.cachedReply h
        · exact h
      · extract_lets
        split
        · exact h
        · next st e =>
          have h1 : st.2.Formed := of_eq (P := OptSnd) e h.entryStatus
          exact State.Formed.ite h1.same.updCall h1.same.updCall.endCallee

theorem State.Formed.execDedupEntryExpiry (h : s.Formed) {entry : Nat} : OutFormed (execDedupEntryExpiry entry s) := by
  unfold Machine.execDedupEntryExpiry
  split
  · exact h
  · split
    · exact OutFormed.ite h.same h
    · exact h

theorem State.Formed.execRret (h : s.Formed) {c : Ctl} : OutFormed (execRret c s) := by
  unfold Machine.execRret
  refine h.native (fun h1 => ?_)
  split
  · exact h1
  · exact Lane.Formed.ite h1 h1.endCallee

theorem State.Formed.execRwait (h : s.Formed) {c : Ctl} {d : Operand} : OutFormed (execRwait c d s) :=
  h.native (fun h1 => h1.queueWait (Lane.Formed.ite h1 (Lane.Formed.ite h1.begin_ (Lane.Formed.ite h1 h1.begin_.hold))))

theorem State.Formed.execRstat (h : s.Formed) {c : Ctl} {l2 : Bool} {d a : Operand} : OutFormed (execRstat c l2 d a s) := by
  unfold Machine.execRstat
  refine h.native (fun h1 => ?_)
  refine Lane.Formed.ite h1 ?_
  split
  · exact h1
  · exact h1.result
  · exact h1.result
  · next s2 e =>
      have h2 : s2.Formed := of_eq (P := CallXlat.Formed) e h1.callXlat
      exact h2.result

end Sys2Proof.Machine
end

section
/-! SUPPORT. The form of the memories is kept: the fabric (Sys2Proof/Machine/Fabric.lean). -/

namespace Sys2Proof.Machine

variable {s : State}

theorem State.Formed.updFab (h : s.Formed) {f : Fabric → Fabric} : (s.updFab f).Formed := h.same
theorem State.Formed.fabCount (h : s.Formed) {i : Nat} : (s.fabCount i).Formed := .ite h h.updFab

theorem State.Formed.fabAt (h : s.Formed) {die va len : Nat} {write win : Bool} {keys : List Nat} :
    (s.fabAt die va len write win keys).Formed := by
  unfold State.fabAt
  split
  · exact h
  · split
    · exact rfl
    · next s1 e =>
        have h1 : s1.Formed := of_eq (P := Xl.Formed) e h.engineXlat
        split
        · exact of_ite (P := FabAt.Formed) rfl h1
        · exact h1
    · next s1 e =>
        have h1 : s1.Formed := of_eq (P := Xl.Formed) e h.engineXlat
        split
        · exact rfl
        · exact h1

theorem State.Formed.setOwner (h : s.Formed) {die dev va own : Nat} : (s.setOwner die dev va own).Formed := h.updXlat

theorem State.Formed.fabSpans (h : s.Formed) {die : Nat} {write win : Bool} {key : Nat} {l : List (Nat × Nat × Nat)}
    {acc : List (Nat × Range)} : (State.fabSpans die write win key l s acc).Formed := by
  induction l generalizing s acc with
  | nil => exact h
  | cons x l ih =>
    unfold State.fabSpans
    split
    · next s1 e =>
      have h1 : s1.Formed := of_eq (P := FabAt.Formed) e h.fabAt
      exact ih h1
    · next s1 e =>
      have h1 : s1.Formed := of_eq (P := FabAt.Formed) e h.fabAt
      exact h1
    · exact ih h
    · rfl

theorem State.Formed.landFrom (h : s.Formed) {path : Path} {core tag : Nat} {l : List (Nat × Range)} {data : List Byte} :
    (s.landFrom path core tag l data).Formed := h.foldl (fun h1 => h1.engineWrite)

theorem State.Formed.landAt (h : s.Formed) {die tag : Nat} {l : List (Nat × Range)} {data : List Byte} :
    (s.landAt die tag l data).Formed := h.landFrom

theorem State.Formed.landNow (h : s.Formed) {die tag : Nat} {l : List (Nat × Range)} {data : List Byte} :
    (s.landNow die tag l data).Formed := h.landAt.forceAll

theorem State.Formed.readSpans (h : s.Formed) {r : Reader_} {l : List (Nat × Range)} {key len : Nat} :
    (s.readSpans r l key len).2.Formed := h.foldl_snd (fun h1 => h1.engineRead)

theorem State.Formed.ctrAt (h : s.Formed) {die dev cnt : Nat} : (s.ctrAt die dev cnt).Formed := by
  unfold State.ctrAt
  refine of_ite (P := CtrAt.Formed) rfl ?_
  split
  · exact rfl
  · exact rfl
  · next s1 e =>
      have h1 : s1.Formed := of_eq (P := FabAt.Formed) e h.fabAt
      exact h1
  · next s1 e =>
      have h1 : s1.Formed := of_eq (P := FabAt.Formed) e h.fabAt
      split
      · exact of_ite (P := CtrAt.Formed) h1 h1
      · exact h1

theorem State.Formed.addInc (h : s.Formed) {pa req : Nat} {bypass : Bool} {far : Option (Nat × XferOf)} :
    (s.addInc pa req bypass far).Formed := h.same

theorem State.Formed.send (h : s.Formed) {die dev : Nat} {of : XferOf} {p : Packet} : (s.send die dev of p).Formed := h.sendXfer

theorem State.Formed.remPages (h : s.Formed) {r : Req} {kind : Nat} {m : Rem} {l : List (Nat × Nat × Nat)} {ps : List Piece}
    {out : List (Nat × Packet)} : (State.remPages r kind m l s ps out).Formed := by
  induction l generalizing s ps out with
  | nil => exact h
  | cons x l ih =>
    unfold State.remPages
    extract_lets blocks away own
    have ha {dev : Nat} {s : State} (h : s.Formed) : (away dev s).Formed := by
      dsimp only [away]
      split
      · exact h
      · next s1 e =>
        have h1 : s1.Formed := of_eq (P := Adr.Formed) e h.adr
        exact h1
      · next s1 e =>
        have h1 : s1.Formed := of_eq (P := Adr.Formed) e h.adr
        exact of_ite (P := RemPlan.Formed) (ih h1) (of_ite (P := RemPlan.Formed) h1 (ih h1.readPlaces))
    refine of_ite (P := RemPlan.Formed) h (of_ite (P := RemPlan.Formed) (ha h) ?_)
    split
    · exact h
    · next s1 e =>
      have h1 : s1.Formed := of_eq (P := FabAt.Formed) e h.fabAt
      exact h1
    · exact ha h.setOwner
    · next s1 e =>
      have h1 : s1.Formed := of_eq (P := FabAt.Formed) e h.fabAt
      refine of_ite (P := RemPlan.Formed) h1 ?_
      split
      · exact h1
      · next s2 e =>
        have h2 : s2.Formed := of_eq (P := Adr.Formed) e h1.adr
        exact h2
      · next s2 e =>
        have h2 : s2.Formed := of_eq (P := Adr.Formed) e h1.adr
        exact ih h2

theorem State.Formed.reqFail (h : s.Formed) {id code addr : Nat} : (s.reqFail id code addr).Formed := h.updReq.same
theorem State.Formed.reqSend (h : s.Formed) {r : Req} {out : List (Nat × Packet)} : (s.reqSend r out).Formed := h.foldl (fun h1 => h1.send)

theorem State.Formed.remBegin (h : s.Formed) {r : Req} {kind : Nat} {again : Bool} : SumFormed (s.remBegin r kind again) := by
  unfold State.remBegin
  refine of_ite (P := SumFormed) (h.begun h) ?_
  extract_lets ctr s1 pages
  have hc {a : CtrAt} (e : ctr = some a) : a.Formed := by
    obtain ⟨_, e⟩ := Option.ite_none_right_eq_some.1 e
    exact of_eq (P := CtrAt.Formed) (Option.some.inj e) h.ctrAt
  have h1 : s1.Formed := by
    unfold s1
    clear_value ctr
    split
    · exact hc rfl
    · exact hc rfl
    · exact h
  clear_value s1 ctr
  split
  · exact h1
  · next s2 _ =>
    have h2 : s2.Formed := hc rfl
    exact h2.begun h2
  · split
    · next s2 e => exact of_eq (P := RemPlan.Formed) e h1.remPages
    · next s2 e =>
      have h2 : s2.Formed := of_eq (P := RemPlan.Formed) e h1.remPages
      exact h2.begun h2
    · next s2 e =>
      have h2 : s2.Formed := of_eq (P := RemPlan.Formed) e h1.remPages
      refine of_ite (P := SumFormed) h2.updReq.reqSend ?_
      extract_lets n s3 s4
      have h3 : s3.Formed := h2.updReq.reqSend
      clear_value s3
      refine State.Formed.landRest ?_
      unfold s4
      split
      · exact h3.addInc
      · exact h3.addInc
      · exact h3.reqFail
      · exact h3

theorem State.Formed.remEvent (h : s.Formed) {kind req : Nat} : OutFormed (remEvent kind req s) := by
  unfold Machine.remEvent
  split
  · exact h
  · refine OutFormed.ite h ?_
    split
    · next s1 e =>
        have h1 : s1.Formed := of_eq (P := SumFormed) e h.remBegin
        exact h1
    · next s1 e =>
        have h1 : s1.Formed := of_eq (P := SumFormed) e h.remBegin
        exact h.orAsk h1

theorem State.Formed.execRemoteRead (h : s.Formed) {req : Nat} : OutFormed (execRemoteRead req s) := h.remEvent
theorem State.Formed.execRemoteWrite (h : s.Formed) {req : Nat} : OutFormed (execRemoteWrite req s) := h.remEvent
theorem State.Formed.execRemoteReduce (h : s.Formed) {req : Nat} : OutFormed (execRemoteReduce req s) := h.remEvent
theorem State.Formed.reqLess (h : s.Formed) {id : Nat} {check : Bool} : (s.reqLess id check).Formed := h.updReq.landRest
theorem State.Formed.looseRead (h : s.Formed) {id code : Nat} : (s.looseRead id code).Formed := h.updReq

theorem State.Formed.ackReq (h : s.Formed) {r : Req} {x : Xfer} {status : Nat} {addr : W64} {data : List Byte} :
    OptFormed (s.ackReq r x status addr data) := by
  unfold State.ackReq
  dsimp only
  split
  · exact State.Formed.reqLess (.ite h h.reqFail)
  · exact State.Formed.reqLess (.ite h h.reqFail)
  · refine OptFormed.ite h.reqFail.looseRead.reqLess ?_
    split
    · exact rfl
    · next s1 e =>
        have h1 : s1.Formed := of_eq (P := Adr.Formed) e h.adr
        exact h1.reqFail.looseRead.reqLess
    · next s1 e =>
        have h1 : s1.Formed := of_eq (P := Adr.Formed) e h.adr
        exact h1.updReq.reqLess
  · exact State.Formed.reqLess (.ite h.landCount h.reqFail)
  · exact State.Formed.reqLess (.ite h.landCount h.reqFail)
  · exact h.reqLess

theorem State.Formed.routeFail (h : s.Formed) {core part dest code dev : Nat} : (s.routeFail core part dest code dev).Formed := h.pushErr

theorem State.Formed.mrouteGo (h : s.Formed) {id : Nat} : OptFormed (s.mrouteGo id) := by
  unfold State.mrouteGo
  split
  · exact h
  · split
    · refine OptFormed.ite (OptFormed.ite h.same.updFab.updOp ((h.foldl (fun h1 => h1.send)).updOp)) (OptFormed.ite rfl ?_)
      split
      · exact rfl
      · next s1 e =>
          have h1 : s1.Formed := of_eq (P := Spans.Formed) e h.fabSpans
          exact OptFormed.ite rfl (((h1.foldl (fun h2 => h2.mxWrite)).routeFail).updOp)
      · next s1 e =>
          have h1 : s1.Formed := of_eq (P := Spans.Formed) e h.fabSpans
          split
          · exact rfl
          · next s2 e1 =>
              have h2 : s2.Formed := of_eq (P := CtrAt.Formed) e1 h1.ctrAt
              exact OptFormed.ite rfl (((h2.foldl (fun h3 => h3.mxWrite)).routeFail).updOp)
          · refine OptFormed.ite rfl (OptFormed.ite ?_ ?_)
            · refine State.Formed.updOp (.foldl (.foldl ?_ (fun h2 => h2.mxWrite)) (fun h2 => h2.send))
              split
              · next s2 e1 =>
                  have h2 : s2.Formed := of_eq (P := CtrAt.Formed) e1 h1.ctrAt
                  exact h2
              · exact h1
            · split
              · refine State.Formed.updOp (.addInc (.foldl (.foldl ?_ (fun h3 => h3.mxWrite)) (fun h3 => h3.send)))
                split
                · next s3 e2 =>
                    have h3 : s3.Formed := of_eq (P := CtrAt.Formed) e2 h1.ctrAt
                    exact h3
                · exact h1
              · refine State.Formed.updOp (.addInc (.foldl (.foldl ?_ (fun h2 => h2.mxWrite)) (fun h2 => h2.send)))
                split
                · next s2 e1 =>
                    have h2 : s2.Formed := of_eq (P := CtrAt.Formed) e1 h1.ctrAt
                    exact h2
                · exact h1
              · refine State.Formed.updOp (.foldl (.foldl ?_ (fun h2 => h2.mxWrite)) (fun h2 => h2.send))
                split
                · next s2 e1 =>
                    have h2 : s2.Formed := of_eq (P := CtrAt.Formed) e1 h1.ctrAt
                    exact h2
                · exact h1
    · exact h

theorem State.Formed.execMretRoute (h : s.Formed) {c : Ctl} {rows : BitVec 4} {route : BitVec 2} {a b e : Operand} :
    OutFormed (execMretRoute c rows route a b e s) := by
  unfold Machine.execMretRoute
  refine h.native (fun h1 => ?_)
  refine h1.retire ?_
  intro x1 x2
  refine Lane.Formed.ite h1 (Lane.Formed.ite ?_ (Lane.Formed.ite h1.begin_.defer ?_))
  · show State.Formed _
    split
    · exact h1.updWave
    · exact h1
  · split
    · next s2 e1 =>
        have h2 : s2.Formed := of_eq (P := OptFormed) e1 h1.begin_.mrouteGo
        exact h2
    · exact h1

theorem State.Formed.ackRoute (h : s.Formed) {x : Xfer} {status : Nat} : OptFormed (s.ackRoute x status) := by
  unfold State.ackRoute
  dsimp only
  split
  · refine OptFormed.ite h.routeFail.updFab ?_
    split
    · exact h.updFab
    · refine OptFormed.ite h.updFab ?_
      split
      · next s1 e =>
          have h1 : s1.Formed := of_eq (P := CtrAt.Formed) e h.updFab.ctrAt
          exact h1.addInc
      · exact h.updFab.addInc
      · next s1 e =>
          have h1 : s1.Formed := of_eq (P := CtrAt.Formed) e h.updFab.ctrAt
          exact h1.routeFail
      · exact rfl
  · exact State.Formed.updFab (.ite h h.routeFail)
  · exact h

theorem State.Formed.dropLanding (h : s.Formed) {L : RedLand} {die : Nat} : (s.dropLanding L die).Formed := h.fabCount.pushErr.updFab
theorem State.Formed.freeSpans (h : s.Formed) {die key : Nat} {l : List (Nat × Range)} : (s.freeSpans die key l).Formed := h.landNow

theorem State.Formed.closeRound (h : s.Formed) {die : Nat} {r : Rcb} {rcb : Range} {bufRs outRs : List (Nat × Range)} {R : Round} :
    (s.closeRound die r rcb bufRs outRs R).Formed := .updFab (.ite h.freeSpans.landNow.countUp
        (.ite h.freeSpans.landNow.countUp.send h.freeSpans.landNow.countUp.fabCount))

theorem State.Formed.execReductionLanding (h : s.Formed) {id : Nat} : OutFormed (execReductionLanding id s) := by
  unfold Machine.execReductionLanding
  dsimp only
  split
  · exact h
  · refine OutFormed.ite h (OutFormed.ite h.dropLanding ?_)
    split
    · exact h
    · next s1 e =>
        have h1 : s1.Formed := of_eq (P := FabAt.Formed) e h.fabAt
        exact h1.dropLanding
    · exact h.updFab
    · next s1 e =>
        have h1 : s1.Formed := of_eq (P := FabAt.Formed) e h.fabAt
        refine OutFormed.ite h1.dropLanding (OutFormed.ite h (OutFormed.ite h1.dropLanding ?_))
        split
        · exact h
        · next s2 e1 =>
            have h2 : s2.Formed := of_eq (P := Spans.Formed) e1 h1.fabSpans
            exact h2.dropLanding
        · next s2 e1 =>
            have h2 : s2.Formed := of_eq (P := Spans.Formed) e1 h1.fabSpans
            split
            · exact h
            · next s3 e2 =>
                have h3 : s3.Formed := of_eq (P := Spans.Formed) e2 h2.fabSpans
                exact h3.dropLanding
            · next s3 e2 =>
                have h3 : s3.Formed := of_eq (P := Spans.Formed) e2 h2.fabSpans
                exact OutFormed.ite h (State.Formed.ite h3.freeSpans.updFab.closeRound h3.freeSpans.updFab)

theorem State.Formed.slotRead (h : s.Formed) {t : TRef} {va : W64} {len : Nat} : (s.slotRead t va len).Formed := by
  unfold State.slotRead
  split
  · exact rfl
  · next s1 e =>
      have h1 : s1.Formed := of_eq (P := Access.Formed) e h.access
      exact h1
  · exact h
  · next s1 e =>
      have h1 : s1.Formed := of_eq (P := Access.Formed) e h.access
      exact of_ite (P := SlotRead.Formed) rfl (h1.foldl_snd (fun h2 => h2.readPlace))

theorem State.Formed.execNetslot (h : s.Formed) {c : Ctl} {d a : Operand} {off : BitVec 12} : OutFormed (execNetslot c d a off s) := by
  unfold Machine.execNetslot
  refine h.native (fun h1 => ?_)
  refine Lane.Formed.ite h1 (Lane.Formed.ite h1 ?_)
  split
  · exact h1
  · next s2 e =>
      have h2 : s2.Formed := of_eq (P := SlotRead.Formed) e h1.slotRead
      exact h2.result
  · next s2 e =>
      have h2 : s2.Formed := of_eq (P := SlotRead.Formed) e h1.slotRead
      exact Lane.Formed.ite h2.result h2.updFab.result

theorem State.Formed.execNetslotOff (h : s.Formed) {c : Ctl} {d : Operand} : OutFormed (execNetslotOff c d s) :=
  h.native (fun h1 => Lane.Formed.ite h1 h1.updFab.result)
theorem State.Formed.execNetworkFrameBoundary (h : s.Formed) : OutFormed (execNetworkFrameBoundary s) := OutFormed.ite h h.updFab.injectAll
theorem State.Formed.execCongestionNotice (h : s.Formed) {rank : Nat} : OutFormed (execCongestionNotice rank s) := OutFormed.ite h h.updFab
theorem State.Formed.execRateTableRecovery (h : s.Formed) {rank : Nat} : OutFormed (execRateTableRecovery rank s) :=
  OutFormed.ite h h.updFab
theorem State.Formed.execPortTraining (h : s.Formed) {port lanes : Nat} : OutFormed (execPortTraining port lanes s) :=
  OutFormed.ite h h.updFab.injectAll

theorem State.Formed.pageFail (h : s.Formed) {m code : Nat} : (s.pageFail m code).Formed := by
  unfold State.pageFail
  split
  · exact h
  · exact .ite h.migEnd h.clearM.migEnd

theorem State.Formed.collFail (h : s.Formed) {inst code : Nat} : (s.collFail inst code).Formed := h.updFab
theorem State.Formed.collTell (h : s.Formed) {i : CollInst} {code : Nat} {ranks : List Nat} : (s.collTell i code ranks).Formed :=
  h.foldl (fun h1 => .ite h1 h1.send)

theorem State.Formed.collFailHere (h : s.Formed) {inst code : Nat} : (s.collFailHere inst code).Formed := by
  unfold State.collFailHere
  split
  · exact h
  · exact .ite h h.collFail.collTell

theorem State.Formed.execFabricTransferTimeout (h : s.Formed) {xfer : Nat} : OutFormed (execFabricTransferTimeout xfer s) := by
  unfold Machine.execFabricTransferTimeout
  split
  · exact h
  · split
    · exact h
    · refine OutFormed.ite h ?_
      dsimp only
      split
      · split
        · exact h.fabCount.updFab.reqFail.looseRead.reqLess
        · exact h.fabCount.updFab.reqFail.reqLess
      · exact h.fabCount.ackRoute.getD h.fabCount
      · exact h.fabCount.ackRoute.getD h.fabCount
      · exact h.fabCount.updFab.collFailHere
      · exact h.fabCount.updFab.pageFail
      · exact h.fabCount.updFab

theorem State.Formed.peerAt (h : s.Formed) {die va len : Nat} {write win : Bool} {go : List (Nat × Range) → State → Option State}
    (hgo : ∀ {x1 : List (Nat × Range)} {s2 : State}, s2.Formed → OptFormed (go x1 s2)) :
    OptFormed (s.peerAt die va len write win go) := by
  unfold State.peerAt
  split
  · exact rfl
  · next s1 e =>
      have h1 : s1.Formed := of_eq (P := Spans.Formed) e h.fabSpans
      exact h1
  · next s1 e =>
      have h1 : s1.Formed := of_eq (P := Spans.Formed) e h.fabSpans
      exact hgo h1

theorem State.Formed.reduceAt (h : s.Formed) {ty : Nat} {x : Nat × Range} {data : List Byte} : (s.reduceAt ty x data).Formed := h.addWords

theorem State.Formed.peerAccess (h : s.Formed) {src die : Nat} {pkt : Packet} : OptFormed (s.peerAccess src die pkt) := by
  unfold State.peerAccess
  split
  · exact OptFormed.ite h (h.peerAt (fun h1 => OptFormed.ite rfl h1.landAt))
  · exact OptFormed.ite h (h.peerAt (fun h1 => OptFormed.ite h1 (OptFormed.ite rfl (h1.foldl (fun h2 => h2.reduceAt)))))
  · exact OptFormed.ite h (h.peerAt (fun h1 => OptFormed.ite (h1.foldl (fun h2 => h2.fillL2)) rfl))
  · refine h.peerAt (fun h1 => ?_)
    split
    · exact OptFormed.ite h1 (OptFormed.ite rfl h1.forceAll.countUp)
    · exact h1
  · split
    · exact h
    · exact OptFormed.ite h (OptFormed.ite rfl (State.Formed.ite (.perform (.settle (.ite h h.settle.perform))) (.ite h h.settle.perform)))
  · exact h

theorem State.Formed.collPacket (h : s.Formed) {src tag n digest : Nat} {data : List Byte} {status : Nat} {digestOf : List Byte → Nat} :
    (s.collPacket src tag n digest data status digestOf).Formed := by
  unfold State.collPacket
  split
  · exact .ite h h.updFab
  · exact .ite h.collFail (.ite h.collFail.collTell h.updFab)

theorem State.Formed.ackPacket (h : s.Formed) {x : Xfer} {status : Nat} {addr : W64} {data : List Byte} :
    OptFormed (s.ackPacket x status addr data) := by
  unfold State.ackPacket
  dsimp only
  split
  · split
    · exact h.updFab.ackReq
    · exact h.updFab
  · exact h.ackRoute
  · exact h.ackRoute
  · exact State.Formed.ite h.updFab h.updFab.collFailHere
  · exact State.Formed.ite h.updFab h.updFab.pageFail
  · exact h.updFab

theorem State.Formed.execFabricPacketArrival (h : s.Formed) {src plane : Nat} {pkt : Packet} :
    OutFormed (execFabricPacketArrival src plane pkt s) := by
  unfold Machine.execFabricPacketArrival
  extract_lets no more s1 die behind
  refine OutFormed.ite h ?_
  have h1 : s1.Formed := h.updFab
  clear_value s1
  have ha := h1.peerAccess (src := src) (die := die) (pkt := pkt)
  generalize s1.peerAccess src die pkt = access at ha ⊢
  cases pkt with
  | write | reduce | read | counter | check | pageCopy =>
    refine OutFormed.ite h ?_
    cases access with
    | none => exact h
    | some => exact ha
  | reduction => exact h1.same.updFab
  | multicast _ va data ctr =>
    refine OutFormed.ite h (OutFormed.ite h1 ?_)
    extract_lets failed
    -- of the counter's eight bytes the kernel would cut the pages: the parts get a name
    obtain ⟨parts, hparts⟩ : ∃ l, l = pageParts 0 ctr.toNat 8 := ⟨_, rfl⟩
    rw [← hparts]
    split
    · exact h
    · next s2 e =>
      have h2 : s2.Formed := of_eq (P := Spans.Formed) e h1.fabSpans
      exact h2.fabCount.pushErr
    · next s2 e =>
      have h2 : s2.Formed := of_eq (P := Spans.Formed) e h1.fabSpans
      split
      · exact h
      · next s3 e =>
        have h3 : s3.Formed := of_eq (P := Spans.Formed) e h2.fabSpans
        exact h3.fabCount.pushErr
      · next s3 e =>
        have h3 : s3.Formed := of_eq (P := Spans.Formed) e h2.fabSpans
        exact OutFormed.ite h3.fabCount.pushErr (OutFormed.ite h (h3.landNow.foldl fun h => h.countUp))
  | collective => exact h1.collPacket
  | collectiveFail => exact h1.collPacket
  | ack =>
    dsimp only
    split
    · refine OutFormed.ite h ?_
      split
      · next e => exact of_eq (P := OptFormed) e h1.ackPacket
      · exact h
    · exact h1
  | redirect => exact h1.setOwner
  | chase => exact h1.updXlat.updFab.injectAll

end Sys2Proof.Machine
end

section
/-! SUPPORT. The form of the memories is kept: collectives (Sys2Proof/Machine/Collective.lean). -/

namespace Sys2Proof.Machine

variable {s : State}

theorem State.Formed.cplanGo (h : s.Formed) {id : Nat} : OptFormed (s.cplanGo id) := by
  unfold State.cplanGo
  split
  · exact h
  · split
    · dsimp only
      split
      · exact rfl
      · next s1 e =>
          have h1 : s1.Formed := of_eq (P := Access.Formed) e h.access
          exact h1.updOp
      · exact h.updOp
      · next s1 e =>
          have h1 : s1.Formed := of_eq (P := Access.Formed) e h.access
          refine OptFormed.ite rfl (OptFormed.ite ?_ (OptFormed.ite ?_ ?_))
          · refine (h1.foldl_snd (fun h2 => ?_)).updOp
            exact h2.readPlace
          · refine (h1.foldl_snd (fun h2 => ?_)).updOp
            exact h2.readPlace
          · split
            · refine (h1.foldl_snd (fun h2 => ?_)).updOp
              exact h2.readPlace
            · refine ((h1.foldl_snd (fun h2 => ?_)).updFab).updOp
              exact h2.readPlace
    · exact h

theorem State.Formed.execCplan (h : s.Formed) {c : Ctl} {d a : Operand} {off : BitVec 12} : OutFormed (execCplan c d a off s) := by
  unfold Machine.execCplan
  refine h.native (fun h1 => ?_)
  refine Lane.Formed.ite h1 (Lane.Formed.ite h1 (Lane.Formed.ite h1.begin_.defer ?_))
  split
  · next s2 e =>
      have h2 : s2.Formed := of_eq (P := OptFormed) e h1.begin_.cplanGo
      exact h2
  · exact h1

theorem State.Formed.cgoGo (h : s.Formed) {t : TRef} {launch h' : Nat} : (s.cgoGo t launch h').Formed := by
  unfold State.cgoGo
  split
  · exact h.same.updFab
  · exact h.same.updFab

theorem State.Formed.execCgo (h : s.Formed) {c : Ctl} {a : Operand} : OutFormed (execCgo c a s) :=
  h.native (fun h1 => Lane.Formed.ite h1.beginQuiet.defer (Lane.Formed.ite h1 h1.flush.releaseK.cgoGo))

theorem State.Formed.execCwait (h : s.Formed) {c : Ctl} {d a : Operand} : OutFormed (execCwait c d a s) :=
  h.native (fun h1 => h1.queueWait (Lane.Formed.ite h1 (Lane.Formed.ite h1.begin_.acqBy
  (Lane.Formed.ite h1.begin_.acqBy (Lane.Formed.ite h1 h1.begin_.acqBy.hold)))))

theorem State.Formed.collRange (h : s.Formed) {i : CollInst} {va len : Nat} {write : Bool} : (s.collRange i va len write).Formed := by
  unfold State.collRange
  split
  · exact rfl
  · next s1 e =>
      have h1 : s1.Formed := of_eq (P := Xl.Formed) e h.engineXlat
      exact h1
  · next s1 e =>
      have h1 : s1.Formed := of_eq (P := Xl.Formed) e h.engineXlat
      exact h1

theorem State.Formed.collOpt (h : s.Formed) {i : CollInst} {va len : Nat} : (s.collOpt i va len).Formed := of_ite (P := Spans.Formed) h
    h.collRange

theorem State.Formed.collCtrs (h : s.Formed) {i : CollInst} {j n : Nat} : (s.collCtrs i j n).Formed := by
  unfold State.collCtrs
  exact of_ite (P := Spans.Formed) h (of_ite (P := Spans.Formed) h h.collOpt)

theorem State.Formed.collCheck (h : s.Formed) {i : CollInst} : (s.collCheck i).Formed := by
  unfold State.collCheck
  dsimp only
  split
  · next s1 e =>
      have h1 : s1.Formed := of_eq (P := Spans.Formed) e h.collRange
      split
      · next s2 e1 =>
          have h2 : s2.Formed := of_eq (P := Spans.Formed) e1 h1.collRange
          split
          · next s3 e2 =>
              have h3 : s3.Formed := of_eq (P := Spans.Formed) e2 h2.collOpt
              split
              · next s4 e3 =>
                  have h4 : s4.Formed := of_eq (P := Spans.Formed) e3 h3.collCtrs
                  exact h4
              · exact h3.collCtrs
          · exact h2.collOpt
      · exact h1.collRange
  · exact h.collRange

theorem State.Formed.setInst (h : s.Formed) {i : CollInst} : (s.setInst i).Formed := h.updFab
theorem State.Formed.takeEarly (h : s.Formed) {i : CollInst} : (s.takeEarly i).Formed := h.updFab.foldl (fun h1 => h1.collPacket)

theorem State.Formed.collBegin (h : s.Formed) {i : CollInst} : OptFormed (s.collBegin i) := by
  unfold State.collBegin
  dsimp only
  split
  · exact rfl
  · next s1 e =>
      have h1 : s1.Formed := of_eq (P := Spans.Formed) e h.collCheck
      exact h1.setInst.collFailHere.takeEarly
  · next s1 e =>
      have h1 : s1.Formed := of_eq (P := Spans.Formed) e h.collCheck
      exact OptFormed.ite rfl (h1.readSpans.setInst.takeEarly.foldl (fun h2 => h2.send))

theorem State.Formed.collChunk (h : s.Formed) {i : CollInst} : OptFormed (s.collChunk i) := by
  unfold State.collChunk
  dsimp only
  split
  · exact rfl
  · split
    · exact rfl
    · next s1 e =>
        have h1 : s1.Formed := of_eq (P := Spans.Formed) e h.collRange
        exact h1.collFailHere
    · next s1 e =>
        have h1 : s1.Formed := of_eq (P := Spans.Formed) e h.collRange
        split
        · exact rfl
        · next s2 e1 =>
            have h2 : s2.Formed := of_eq (P := Spans.Formed) e1 h1.collCtrs
            exact h2.collFailHere
        · next s2 e1 =>
            have h2 : s2.Formed := of_eq (P := Spans.Formed) e1 h1.collCtrs
            exact OptFormed.ite h2.collFailHere (OptFormed.ite rfl ((h2.landNow.foldl (fun h3 => h3.countUp)).setInst))

theorem State.Formed.execCollectiveStep (h : s.Formed) {inst : Nat} : OutFormed (execCollectiveStep inst s) := by
  unfold Machine.execCollectiveStep
  dsimp only
  split
  · exact h
  · refine OutFormed.ite h ?_
    split
    · next s1 e =>
        have h1 : s1.Formed := of_eq (P := OptFormed) e (OptFormed.ite h.collChunk h.collBegin)
        exact h1
    · exact h

theorem State.Formed.collLoose (h : s.Formed) {i : CollInst} {va len : Nat} : OptFormed (s.collLoose i va len) := by
  unfold State.collLoose
  refine OptFormed.ite h ?_
  split
  · exact rfl
  · exact h
  · next s1 e =>
      have h1 : s1.Formed := of_eq (P := Spans.Formed) e h.collRange
      exact OptFormed.ite h1.freeSpans rfl

theorem State.Formed.execCollectiveInstanceComplete (h : s.Formed) {inst : Nat} : OutFormed (execCollectiveInstanceComplete inst s) := by
  unfold Machine.execCollectiveInstanceComplete
  dsimp only
  split
  · exact h
  · refine OutFormed.ite h ?_
    split
    · exact h
    · next s1 e =>
        have h1 : s1.Formed := of_eq (P := OptFormed) e (OptFormed.bind
            (OptFormed.ite (h.collLoose.bind (fun h1 => OptFormed.ite h1 h1.collLoose)) h) (fun h1 => h1.collLoose))
        exact h1.updFab

end Sys2Proof.Machine
end

section
/-! SUPPORT. The form of the memories is kept: launches and groups (Sys2Proof/Machine/Schedule.lean). -/

namespace Sys2Proof.Machine

variable {s : State}

theorem State.Formed.slotTableOf (h : s.Formed) {root : Nat} {rc : LaunchRec} : (s.slotTableOf root rc).Formed := by
  unfold State.slotTableOf
  refine of_ite (P := SlotTable.Formed) rfl ?_
  split
  · next s1 e =>
      have h1 : s1.Formed := of_eq (P := CpRead.Formed) e h.cpRead
      exact h1
  · next s1 e =>
      have h1 : s1.Formed := of_eq (P := CpRead.Formed) e h.cpRead
      exact h1
  · next s1 e =>
      have h1 : s1.Formed := of_eq (P := CpRead.Formed) e h.cpRead
      exact h1

/-- The answers are taken apart while the root is a variable: of a known root the kernel would run the walk of the pages. -/
theorem State.Formed.checkRecord (h : s.Formed) {root : Option Nat} {va : Nat} {groups : LaunchRec → Nat × Nat} {checked : Bool} :
    (s.checkRecord root va groups checked).Formed := by
  unfold State.checkRecord
  have h1 := h.cpRead (die := 0) (root := root) (va := va) (len := 128) (r := cpReader)
  generalize s.cpRead 0 root va 128 cpReader = r at h1 ⊢
  cases r with
  | wait s1 => cases root with
    | none => exact h
    | some => exact h1
  | bad c s1 => cases root with
    | none => exact h
    | some => exact h1
  | ok b s1 =>
    replace h1 : s1.Formed := h1
    dsimp only
    have h2 := h1.cpWord (die := 0) (root := root) (va := (launchOfBytes (BitVec.ofNat 64 va) b).comp.toNat)
    generalize s1.cpWord 0 root _ = w at h2 ⊢
    cases root with
    | none => exact h
    | some =>
      refine of_ite (P := RecCheck.Formed) h1 ?_
      cases w with
      | wait => exact h1
      | bad => exact h2
      | ok _ s2 =>
        replace h2 : s2.Formed := h2
        refine of_ite (P := RecCheck.Formed) h2 (of_ite (P := RecCheck.Formed) h2 ?_)
        split
        · next s3 e => exact of_eq (P := SlotTable.Formed) e h2.slotTableOf
        · next s3 e => exact of_eq (P := SlotTable.Formed) e h2.slotTableOf
        · exact of_ite (P := RecCheck.Formed) h2 h2
        · exact of_ite (P := RecCheck.Formed) h2 h2

theorem State.Formed.putAt (h : s.Formed) {die : Nat} {r : Range} {data : List Byte} : OptFormed (s.putAt die r data) :=
  OptFormed.ite h.redirectTo (OptFormed.ite h.redirectTo.settle.perform rfl)

theorem State.Formed.writeComp (h : s.Formed) {root : Option Nat} {rc : LaunchRec} {part code info : Nat} :
    OptFormed (s.writeComp root rc part code info) := by
  unfold State.writeComp
  split
  · exact rfl
  · next s1 e =>
      have h1 : s1.Formed := of_eq (P := CpWord.Formed) e h.cpWord
      exact h1.pushErr
  · next s1 e =>
      have h1 : s1.Formed := of_eq (P := CpWord.Formed) e h.cpWord
      exact h1.putAt

theorem State.Formed.setHead (h : s.Formed) {q : Nat} {h' : QHead} : (s.setHead q h').Formed := h.same
theorem State.Formed.dropHead (h : s.Formed) {q : Nat} : (s.dropHead q).Formed := h.same

theorem State.Formed.newLaunch (h : s.Formed) {q : Nat} {rc : LaunchRec} {root stamp first count : Nat} {args join : W64} :
    (s.newLaunch q rc root stamp first count args join).Formed := h.same.setHead

theorem State.Formed.execLaunchRecordCheck (h : s.Formed) {q : Nat} : OutFormed (execLaunchRecordCheck q s) := by
  unfold Machine.execLaunchRecordCheck
  refine OutFormed.ite h ?_
  split
  · exact h
  · next s1 e =>
      have h1 : s1.Formed := of_eq (P := OptSndSnd) e h.ringTake
      refine OutFormed.ite h (OutFormed.ite h1.pushErr ?_)
      dsimp only
      split
      · next s2 e1 =>
          have h2 : s2.Formed := of_eq (P := RecCheck.Formed) e1 h1.checkRecord
          exact h.orAsk h2
      · next s2 e1 =>
          have h2 : s2.Formed := of_eq (P := RecCheck.Formed) e1 h1.checkRecord
          exact h2.pushErr
      · next s2 e1 =>
          have h2 : s2.Formed := of_eq (P := RecCheck.Formed) e1 h1.checkRecord
          split
          · next s3 e2 =>
              have h3 : s3.Formed := of_eq (P := OptFormed) e2 h2.writeComp
              exact h3
          · exact h
      · next s2 e1 =>
          have h2 : s2.Formed := of_eq (P := RecCheck.Formed) e1 h1.checkRecord
          exact h2.same.newLaunch

theorem State.Formed.execGroupRange (h : s.Formed) {q : Nat} : OutFormed (execGroupRange q s) := by
  unfold Machine.execGroupRange
  refine OutFormed.ite h ?_
  split
  · split
    · exact h
    · exact OutFormed.ite h h.updLaunch
  · exact h
  · split
    · exact h
    · next s1 e =>
        have h1 : s1.Formed := of_eq (P := OptSndSnd) e h.ringTake
        refine OutFormed.ite h ?_
        dsimp only
        split
        · next s2 e1 =>
            have h2 : s2.Formed := of_eq (P := RecCheck.Formed) e1 h1.checkRecord
            exact h.orAsk h2
        · next s2 e1 =>
            have h2 : s2.Formed := of_eq (P := RecCheck.Formed) e1 h1.checkRecord
            exact h2.pushErr
        · next s2 e1 =>
            have h2 : s2.Formed := of_eq (P := RecCheck.Formed) e1 h1.checkRecord
            split
            · next s3 e2 =>
                have h3 : s3.Formed := of_eq (P := OptFormed) e2 h2.writeComp
                exact h3
            · exact h
        · next s2 e1 =>
            have h2 : s2.Formed := of_eq (P := RecCheck.Formed) e1 h1.checkRecord
            exact h2.newLaunch

theorem State.Formed.execCopyQueueRequest (h : s.Formed) {q : Nat} : OutFormed (execCopyQueueRequest q s) := by
  unfold Machine.execCopyQueueRequest
  refine OutFormed.ite h ?_
  split
  · exact h
  · next s1 e =>
      have h1 : s1.Formed := of_eq (P := OptSndSnd) e h.ringTake
      dsimp only
      split
      · exact h
      · exact OutFormed.ite h h1.pruneReqs.settle.perform.same

theorem State.Formed.takeRoom (h : s.Formed) {rc : LaunchRec} {lead spad row key : Nat} : (s.takeRoom rc lead spad row key).Formed :=
  .ite h.taken.taken h.taken

theorem State.Formed.admitLaunch (h : s.Formed) {L : Launch} {n : Nat} {slots : Option (List Byte)} : (s.admitLaunch L n slots).Formed := by
  unfold State.admitLaunch
  refine .same (.updLaunch ?_)
  split
  · exact .injectAll (.updFab (.ite h.updPart h))
  · exact .ite h.updPart h

theorem State.Formed.placeIn (h : s.Formed) {L : Launch} {n : Nat} : OptFormed (s.placeIn L n) :=
  OptFormed.ite rfl (OptFormed.bindAny (OptFormed.bindAny (OptFormed.map ((h.admitLaunch.foldl (fun h1 => h1.same.takeRoom)).updLaunch))))

theorem State.Formed.placeFrom (h : s.Formed) {n : Nat} : OptFormed (s.placeFrom n) := by
  unfold State.placeFrom
  refine OptFormed.bindAny ?_
  intro x
  split
  · refine OptFormed.bindAny ?_
    intro x1
    refine OptFormed.ite rfl (h.placeIn.mapState (fun h1 => ?_))
    split
    · exact .ite h1.dropHead h1
    · exact h1
  · exact rfl

theorem State.Formed.slotAsks (h : s.Formed) : s.slotAsks.Formed := by
  unfold State.slotAsks
  refine h.foldl (fun h1 => ?_)
  refine .ite h1 ?_
  split
  · exact h1.same
  · exact h1

theorem State.Formed.execCellPlacement (h : s.Formed) {part : Nat} : OutFormed (execCellPlacement part s) := by
  unfold Machine.execCellPlacement
  refine OutFormed.ite h ?_
  split
  · next s1 e =>
      have h1 : s1.Formed := of_eq (P := OptFormed) e h.placeFrom
      exact h1
  · exact h.orAsk h.slotAsks

theorem State.Formed.decrement (h : s.Formed) {root part : Nat} {join : W64} : SumFormed (s.decrement root part join) := by
  unfold State.decrement
  extract_lets va bad
  refine of_ite (P := SumFormed) h.pushErr ?_
  split
  · exact h
  · next s1 e =>
    have h1 : s1.Formed := of_eq (P := Xl.Formed) e h.engineXlat
    exact h1.pushErr
  · next s1 e =>
    have h1 : s1.Formed := of_eq (P := Xl.Formed) e h.engineXlat
    split
    · extract_lets s2 away pa put b n f s3 next
      have h2 : s2.Formed := h1.redirectTo
      have hput {a : Nat} {d : List Byte} : (put a d).Formed := State.Formed.ite h2 h2.settle.perform
      refine of_ite (P := SumFormed) h2.pushErr (of_ite (P := SumFormed) h2 (of_ite (P := SumFormed) hput.pushErr
        (of_ite (P := SumFormed) hput (of_ite (P := SumFormed) hput.pushErr ?_))))
      split
      · next s4 e =>
        have h4 : s4.Formed := of_eq (P := CpRead.Formed) e hput.cpRead
        exact h4
      · next s4 e =>
        have h4 : s4.Formed := of_eq (P := CpRead.Formed) e hput.cpRead
        exact h4.pushErr
      · next s4 e =>
        have h4 : s4.Formed := of_eq (P := CpRead.Formed) e hput.cpRead
        exact h4.pushCp
    · exact h1.pushErr

theorem State.Formed.freeWaves (h : s.Formed) : s.freeWaves.Formed := h.same

theorem State.Formed.endLaunch (h : s.Formed) {l code info : Nat} : (s.endLaunch l code info).Formed := by
  unfold State.endLaunch
  split
  · exact h
  · exact .ite h (h.updLaunch.same.foldl (fun h1 => h1.haltGroup))

theorem State.Formed.dropGroup (h : s.Formed) {g : Nat} : (s.dropGroup g).Formed := h.coresMap fun _ => by rfl
theorem State.Formed.freePlans (h : s.Formed) {l : Nat} : (s.freePlans l).Formed := .ite h.updFab h

theorem State.Formed.execGroupEnd (h : s.Formed) {grp : Nat} : OutFormed (execGroupEnd grp s) := by
  unfold Machine.execGroupEnd
  dsimp only
  split
  · exact h
  · refine OutFormed.ite h ?_
    split
    · next s1 e =>
        have h1 : s1.Formed := of_eq (P := SumFormed) e (of_ite (P := SumFormed) h.freeWaves.forceAll h.freeWaves.forceAll.decrement)
        exact h.freeWaves.orAsk h1
    · next s1 e =>
        have h1 : s1.Formed := of_eq (P := SumFormed) e (of_ite (P := SumFormed) h.freeWaves.forceAll h.freeWaves.forceAll.decrement)
        show State.Formed _
        split
        · exact h1.dropGroup.updLaunch.freePlans.endLaunch
        · exact h1.dropGroup.updLaunch.freePlans

end Sys2Proof.Machine
end

section
/-! SUPPORT. The form of the memories is kept: sets of a quantum (Sys2Proof/Machine/Sets.lean). -/

namespace Sys2Proof.Machine

variable {s : State}

theorem State.Formed.openSets (h : s.Formed) {order : List TRef} : (s.openSets order).Formed := by
  unfold State.openSets
  refine h.foldl (fun h1 => ?_)
  split
  · exact h1.updThread
  · exact h1

theorem State.Formed.gatherAgain (h : s.Formed) {t : TRef} : (s.gatherAgain t).Formed := h.updThread

end Sys2Proof.Machine
end

section
/-! SUPPORT. The form of the memories is kept: images (Sys2Proof/Machine/Image.lean). -/

namespace Sys2Proof.Machine

variable {s : State}

theorem State.Formed.putBlocks (h : s.Formed) {pa : Nat} {bs : List (Nat × List Byte)} : (s.putBlocks pa bs).Formed :=
  h.foldl (fun h1 => h1.settle.perform)

theorem State.Formed.putSlot (h : s.Formed) {pa slotOff : Nat} {bs : List (Nat × List Byte)} {old : List Byte} :
    (s.putSlot pa slotOff bs old).Formed := h.putBlocks

theorem State.Formed.writeTrapImage (h : s.Formed) {g : Nat} : OptFormed (s.writeTrapImage g) := by
  unfold State.writeTrapImage
  split
  · exact h
  · dsimp only
    split
    · exact OptFormed.ite rfl ((h.foldl (fun h1 => h1.putSlot)).updGroup)
    · exact h

theorem State.Formed.cancelHeld (h : s.Formed) {t : TRef} : (s.cancelHeld t).Formed := by
  unfold State.cancelHeld
  split
  · exact h.updThread
  · refine .updThread (.dropOp (.flagDown ?_))
    split
    · exact h.landAll.updThread
    · exact h

theorem State.Formed.pgreqBack (h : s.Formed) {g : Nat} : (s.pgreqBack g).Formed := h.foldr (fun h1 => h1.updOp.updThread)

theorem State.Formed.handleTrap (h : s.Formed) {g cause : Nat} : (s.handleTrap g cause).Formed := by
  unfold State.handleTrap
  split
  · exact h
  · refine .ite h (.ite (.updGroup ?_) (.ite h.updPart (.ite h h.endLaunch.pushErr)))
    split
    · exact h.endLaunch.endLaunch
    · exact h.endLaunch

theorem State.Formed.flushQuiet (h : s.Formed) {n : Nat} : (s.flushQuiet n).Formed := by
  unfold State.flushQuiet
  refine h.updPart.foldl (fun h1 => ?_)
  split
  · exact h1.handleTrap
  · exact h1

theorem State.Formed.execGroupQuiet (h : s.Formed) {grp : Nat} : OutFormed (execGroupQuiet grp s) := by
  unfold Machine.execGroupQuiet
  dsimp only
  split
  · exact h
  · split
    · exact h
    · refine OutFormed.ite h ?_
      split
      · split
        · next s1 e =>
            have h1 : s1.Formed := of_eq (P := OptFormed) e (((((h.foldl
                (fun h1 => h1.cancelHeld)).pgreqBack).abandon).updGroup).writeTrapImage)
            exact h1.handleTrap
        · exact h
      · exact (((h.foldl (fun h1 => h1.cancelHeld)).pgreqBack).abandon).updGroup

theorem State.Formed.unhalt (h : s.Formed) {g : Nat} {mark : Bool} : (s.unhalt g mark).Formed := by
  unfold State.unhalt
  refine .ite h ?_
  dsimp only
  split
  · exact .ite h.updGroup.haltGroup h.updGroup
  · exact h.updGroup

theorem State.Formed.movedThread (h : s.Formed) {t : TRef} : (s.movedThread t).Formed := by
  unfold State.movedThread
  dsimp only
  split
  · exact .trap (.updThread (.ite h.leaveTokens h))
  · exact .rejoinPark (.updThread (.ite h.leaveTokens h))
  · next s1 e =>
      have h1 : s1.Formed := of_eq (P := Target.Formed) e (State.Formed.target (.updThread (.ite h.leaveTokens h)))
      exact .ite h1.trap h1.rejoinPark

theorem State.Formed.resumeGroup (h : s.Formed) {g : Nat} : (s.resumeGroup g).Formed := by
  unfold State.resumeGroup
  refine .ite h ?_
  split
  · exact h
  · dsimp only
    split
    · exact .ite (h.updGroup.unhalt.foldl (fun h1 => h1.movedThread)) ((h.updGroup.unhalt.foldl (fun h1 => h1.movedThread)).foldl
        (fun h1 => h1.tokenEnd))
    · exact h.unhalt

theorem State.Formed.setHandler (h : s.Formed) {n : Nat} {v : W64} : (s.setHandler n v).Formed := .ite h.updPart.flushQuiet h.updPart

theorem State.Formed.execHandlerReservation (h : s.Formed) {part : Nat} : OutFormed (execHandlerReservation part s) := by
  unfold Machine.execHandlerReservation
  refine OutFormed.ite h ?_
  split
  · exact h.setHandler
  · split
    · refine OutFormed.ite h ?_
      split
      · next s1 e =>
          have h1 : s1.Formed := of_eq (P := RecCheck.Formed) e h.checkRecord
          exact h.orAsk h1
      · next s1 e =>
          have h1 : s1.Formed := of_eq (P := RecCheck.Formed) e h.checkRecord
          exact State.Formed.ite h1.updPart.flushQuiet h1.updPart
      · next s1 e =>
          have h1 : s1.Formed := of_eq (P := RecCheck.Formed) e h.checkRecord
          exact State.Formed.ite h1.updPart.flushQuiet h1.updPart
      · next s1 e =>
          have h1 : s1.Formed := of_eq (P := RecCheck.Formed) e h.checkRecord
          exact State.Formed.ite h1.updPart.flushQuiet h1.updPart
    · refine OutFormed.ite h ?_
      split
      · exact h.updPart
      · exact h
    · exact h

theorem State.Formed.execHandlerStart (h : s.Formed) {part : Nat} : OutFormed (execHandlerStart part s) := by
  unfold Machine.execHandlerStart
  refine OutFormed.ite h ?_
  split
  · dsimp only
    split
    · refine h.orAsk ?_
      split
      · next s1 e =>
          have h1 : s1.Formed := of_eq (P := SlotTable.Formed) e h.slotTableOf
          exact h1
      · exact h
    · exact h.same.admitLaunch.same.takeRoom.updPart
  · exact h

theorem State.Formed.endHandler (h : s.Formed) {h' : Nat} : (s.endHandler h').Formed := by
  unfold State.endHandler
  split
  · exact h
  · exact (h.foldl (fun h1 => h1.exitThread)).updGroup

theorem State.Formed.execDeadlineExpiry (h : s.Formed) {l : Nat} : OutFormed (execDeadlineExpiry l s) := by
  unfold Machine.execDeadlineExpiry
  dsimp only
  split
  · exact h
  · exact OutFormed.ite h (h.updLaunch.same.foldl (fun h1 => h1.haltGroup))

theorem State.Formed.clearRoutines (h : s.Formed) : s.clearRoutines.Formed := h.same
theorem State.Formed.dropLaunch (h : s.Formed) {l : Nat} : (s.dropLaunch l).Formed :=
  .clearRoutines (.ite ((((h.foldl (fun h1 => h1.dropGroup)).same).updFab).injectAll) ((h.foldl (fun h1 => h1.dropGroup)).same))

theorem State.Formed.deadlineImages (h : s.Formed) {l : List Nat} : OptFormed (s.deadlineImages l) := by
  induction l generalizing s with
  | nil => exact h
  | cons g l ih => exact OptFormed.bind (OptFormed.ite h h.writeTrapImage) fun h => ih h

theorem State.Formed.resumeOthers (h : s.Formed) {parts : List Nat} : (s.resumeOthers parts).Formed := h.foldl (fun h1 => h1.unhalt)

theorem State.Formed.execLaunchCompletion (h : s.Formed) {l : Nat} : OutFormed (execLaunchCompletion l s) := by
  unfold Machine.execLaunchCompletion
  dsimp only
  split
  · exact h
  · refine OutFormed.ite h ?_
    split
    · exact h
    · next s1 e =>
        have h1 : s1.Formed := of_eq (P := OptFormed) e (OptFormed.bind
            (OptFormed.ite (h.forceAll.deadlineImages.mapState (fun h1 => h1.pushErr)) h.forceAll) (fun h1 => h1.writeComp))
        refine State.Formed.ite ((h1.dropLaunch.foldl (fun h2 => ?_)).resumeOthers) (h1.dropLaunch.foldl (fun h2 => ?_))
        · split
          · exact h2.endLaunch
          · exact h2
        · split
          · exact h2.endLaunch
          · exact h2

theorem State.Formed.execPartCmdResume (h : s.Formed) {n : Nat} : OutFormed (execPartCmdResume n s) := h.foldl (fun h1 => h1.resumeGroup)
theorem State.Formed.execPartCmdAbort (h : s.Formed) {n : Nat} : OutFormed (execPartCmdAbort n s) := h.foldl (fun h1 => h1.endLaunch)
theorem State.Formed.execPartCmdPreempt (h : s.Formed) {n : Nat} : OutFormed (execPartCmdPreempt n s) :=
  OutFormed.ite h (OutFormed.ite h.updPart (h.updPart.foldl (fun h1 => h1.haltGroup)))
theorem State.Formed.execPartCmdResumePlacing (h : s.Formed) {n : Nat} : OutFormed (execPartCmdResumePlacing n s) :=
  OutFormed.ite h h.updPart

theorem State.Formed.writeSetSlot (h : s.Formed) {L : Launch} {r : Rect} {base slot : Nat} {gs : List Group} :
    (s.writeSetSlot L r base slot gs).Formed := by
  unfold State.writeSetSlot
  exact h.putSlot

theorem State.Formed.saveLaunch (h : s.Formed) {n base : Nat} {L : Launch} : (s.saveLaunch n base L).2.Formed :=
  ((((h.foldl (fun h1 => h1.writeSetSlot)).same).foldl (fun h1 => h1.dropGroup)).updLaunch).pushCp
theorem State.Formed.execPreemptDrainComplete (h : s.Formed) {part : Nat} : OutFormed (execPreemptDrainComplete part s) :=
  OutFormed.ite h (OutFormed.ite h ((((h.foldl (fun h1 => h1.forceAll)).foldl_snd (fun h1 => h1.saveLaunch)).clearRoutines).updPart))

theorem State.Formed.loadRanges (h : s.Formed) {rc : LaunchRec} {e : SecIn} {nw nt spad row key : Nat} :
    (s.loadRanges rc e nw nt spad row key).Formed := h.taken.setSpad.foldl fun h => h.setAccRow

theorem State.Formed.restoreGroup (h : s.Formed) {L : Launch} {part : Nat} {lead : SecIn} {foll : Option SecIn} :
    (s.restoreGroup L part lead foll).Formed :=
  (((OptFormed.map h.same.loadRanges.loadRanges).getD h.same.loadRanges).foldl fun h => (h.updCore fun _ => by rfl)).updLaunch

theorem State.Formed.restoredTrap (h : s.Formed) {g : Nat} : OptFormed (s.restoredTrap g) := by
  unfold State.restoredTrap
  split
  · exact h
  · exact OptFormed.ite h (h.writeTrapImage.mapState (fun h1 => .ite h1.updPart h1))

theorem State.Formed.setFails (h : s.Formed) {set : Nat} : SumFormed (s.setFails set) := by
  unfold State.setFails
  refine of_ite (P := SumFormed) h.pushErr ?_
  split
  · exact h.pushErr.endLaunch
  · split
    · next s1 e =>
        have h1 : s1.Formed := of_eq (P := CpRead.Formed) e h.cpRead
        exact h1
    · next s1 e =>
        have h1 : s1.Formed := of_eq (P := CpRead.Formed) e h.cpRead
        exact h1.pushErr.pushErr
    · next s1 e =>
        have h1 : s1.Formed := of_eq (P := CpRead.Formed) e h.cpRead
        dsimp only
        split
        · next s2 e1 =>
            have h2 : s2.Formed := of_eq (P := OptFormed) e1 h1.pushErr.writeComp
            exact h2
        · exact h

theorem State.Formed.restoreCounts (h : s.Formed) {L : Launch} {set : Nat} : (s.restoreCounts L set).Formed := .ite h.updLaunch h

theorem State.Formed.restoreSet (h : s.Formed) {L : Launch} {n set : Nat} {old new : Rect} :
    OptFormed (s.restoreSet L n set old new) := by
  unfold State.restoreSet
  extract_lets secs sec leads foll first s1 back parked _ s2 s3
  have h1 : s1.Formed := h.restoreCounts.foldl fun h => h.restoreGroup
  have h2 : s2.Formed := h1.same
  have h3 : s3.Formed := State.Formed.ite (h2.foldl fun h => h.gatherAgain).openSets (h2.foldl fun h => h.updThread)
  clear_value s3
  exact List.foldlRecOn (motive := OptFormed) _ _ h3 fun _ ho _ _ => OptFormed.bind ho fun h => h.restoredTrap

theorem State.Formed.execResumptionRecord (h : s.Formed) {q : Nat} : OutFormed (execResumptionRecord q s) := by
  unfold Machine.execResumptionRecord
  refine OutFormed.ite h ?_
  split
  · split
    · exact h
    · next s1 e =>
        have h1 : s1.Formed := of_eq (P := OptSndSnd) e h.ringTake
        exact OutFormed.ite h (OutFormed.ite h1.pushErr h1.setHead)
  · exact h
  · refine OutFormed.ite h.pushErr.dropHead (OutFormed.ite h.same.dropHead (OutFormed.ite ?_ ?_))
    · split
      · next s1 e =>
          have h1 : s1.Formed := of_eq (P := SumFormed) e h.setFails
          exact h1.dropHead
      · next s1 e =>
          have h1 : s1.Formed := of_eq (P := SumFormed) e h.setFails
          exact h.orAsk h1
    · split
      · exact h
      · refine OutFormed.ite h.dropHead ?_
        dsimp only
        split
        · exact h
        · refine OutFormed.ite h ?_
          split
          · exact h.orAsk h.slotAsks
          · split
            · next s1 e =>
                have h1 : s1.Formed := of_eq (P := OptFormed) e h.admitLaunch.restoreSet
                exact h1.dropHead
            · exact h

end Sys2Proof.Machine
end

section
/-! SUPPORT. The form of the memories is kept: boot and attach (Sys2Proof/Machine/Attach.lean). -/

namespace Sys2Proof.Machine

variable {s : State}

theorem State.Formed.bootRun (h : s.Formed) {image : List Byte} : (s.bootRun image).Formed :=
  .ite h.same (.ite h.same (.ite h.same (.noCores h.memory.resetKeeping rfl)))

theorem State.Formed.registersReset (h : s.Formed) : s.registersReset.Formed := .noCores h.memory.resetKeeping rfl
theorem State.Formed.execModuleReset (h : s.Formed) : OutFormed (execModuleReset s) := h.registersReset.bootRun
theorem State.Formed.execPcieFundamentalReset (h : s.Formed) : OutFormed (execPcieFundamentalReset s) := h.registersReset.bootRun
theorem State.Formed.execBootCmd (h : s.Formed) {v : W32} : OutFormed (execBootCmd v s) := OutFormed.ite h h.bootRun
theorem State.Formed.setReply (h : s.Formed) {r : Option (List Byte)} : (s.setReply r).Formed := h.same
theorem State.Formed.hostRefused (h : s.Formed) {pa : Nat} : (s.hostRefused pa).Formed := h.refuseWindow.setReply

theorem State.Formed.stagingAccess (h : s.Formed) {write : Bool} {off len : Nat} {data : List Byte} :
    (s.stagingAccess write off len data).Formed := .ite h.setReply (.ite h.same h.setReply)

theorem State.Formed.execBar2Access (h : s.Formed) {write : Bool} {off len : Nat} {data : List Byte} :
    OutFormed (execBar2Access write off len data s) := by
  unfold Machine.execBar2Access
  refine OutFormed.ite h (OutFormed.ite h.setReply (OutFormed.ite h.stagingAccess ?_))
  split
  · exact h.hostRefused
  · split
    · exact h.askAts
    · exact OutFormed.ite (OutFormed.ite h h.landFrom.setReply) (OutFormed.ite h h.readSpans.setReply)

theorem State.Formed.execAtsInvalidation (h : s.Formed) {addr : Nat} : OutFormed (execAtsInvalidation addr s) := h.same
theorem State.Formed.attEnd (h : s.Formed) {code : Nat} : (s.attEnd code).Formed := h.same

theorem State.Formed.attGo (h : s.Formed) : s.attGo.Formed := by
  unfold State.attGo
  split
  · exact h
  · exact h.attEnd
  · exact .ite h.attEnd (.ite ((h.engineRead.foldl (fun h1 => h1.perform)).attEnd) (h.foldl (fun h1 => h1.askAts)))

theorem State.Formed.execAttCmd (h : s.Formed) {v : W64} : OutFormed (execAttCmd v s) := OutFormed.ite h h.same.attGo
theorem State.Formed.execAtsTranslationCompletion (h : s.Formed) {addr : Nat} : OutFormed (execAtsTranslationCompletion addr s) :=
  OutFormed.ite h (OutFormed.ite h h.same.attGo)

theorem State.Formed.execErrorRecordWrite (h : s.Formed) : OutFormed (execErrorRecordWrite s) := by
  unfold Machine.execErrorRecordWrite
  dsimp only
  split
  · exact h
  · exact OutFormed.ite h h.settle.perform.same

theorem State.Formed.setAlarm (h : s.Formed) {level : Nat} {sensor : W32} : (s.setAlarm level sensor).Formed := h.same
theorem State.Formed.raiseOne (h : s.Formed) {sensor : W32} : (s.raiseOne sensor).Formed :=
  .ite h.setAlarm (h.pushErr.setAlarm.same.foldl (fun h1 => h1.haltGroup))
theorem State.Formed.execAlarmLevel1 (h : s.Formed) {sensor : BitVec 6} : OutFormed (execAlarmLevel1 sensor s) := OutFormed.ite h h.raiseOne
theorem State.Formed.execAlarmLevel2 (h : s.Formed) {sensor : BitVec 6} : OutFormed (execAlarmLevel2 sensor s) :=
  OutFormed.ite h (OutFormed.ite (State.Formed.setAlarm (.ite h h.raiseOne)) (State.Formed.pushErr (.same (.setAlarm (.ite h h.raiseOne)))))

theorem State.Formed.execSoftErrorCorrected (h : s.Formed) {src : BitVec 16} {cls : BitVec 8} {pa : W64} :
    OutFormed (execSoftErrorCorrected src cls pa s) := State.Formed.ite h.pushErr.setStat h.pushErr

theorem State.Formed.execUncorrectableError (h : s.Formed) {src : BitVec 16} {cls : BitVec 8} {pa : W64} :
    OutFormed (execUncorrectableError src cls pa s) := by
  unfold Machine.execUncorrectableError
  dsimp only
  split
  · exact h.pushErr
  · exact h.pushErr.same
  · split
    · exact State.Formed.ite h.pushErr.dropCall h.pushErr.updCall
    · exact h.pushErr
  · exact State.Formed.ite h.pushErr.same h.pushErr

theorem State.Formed.mapPages (h : s.Formed) {root : Nat} {l : List ((Nat × List Byte × Bool × Bool) × Nat)} :
    OptFormed (s.mapPages root l) := by
  induction l generalizing s with
  | nil => exact h
  | cons x l ih =>
    unfold State.mapPages
    refine OptFormed.ite (ih h) (OptFormed.ite rfl ?_)
    extract_lets s1
    have h1 : s1.Formed := h.settle.perform
    split
    · exact ih h1
    · exact OptFormed.ite rfl (ih h1.settle.perform)

theorem State.Formed.objPlaced (h : s.Formed) {out : LoadedObj} : OptFormed (s.objPlaced out) := by
  unfold State.objPlaced
  dsimp only
  split
  · exact h.same
  · exact h.same.mapPages

theorem State.Formed.execCodeObjectLoad (h : s.Formed) {obj : List Byte} {text data : W64} :
    OutFormed (execCodeObjectLoad obj text data s) := by
  unfold Machine.execCodeObjectLoad
  split
  · next s1 e =>
      have h1 : s1.Formed := of_eq (P := OptFormed) e h.objPlaced
      exact h1
  · exact h

end Sys2Proof.Machine
end

section
/-! SUPPORT. The form of the memories is kept: register writes (Sys2Proof/Machine/Registers.lean). -/

namespace Sys2Proof.Machine

variable {s : State}

theorem State.Formed.outState (h : s.Formed) {a : Host.Outcome State Fault Refusal} (ha : OutFormed a) : (outState s a).Formed := by
  unfold Machine.outState
  split
  · exact ha
  · exact h

theorem State.Formed.setCp (h : s.Formed) {f : Cp → Cp} : (setCp s f).Formed := h.same
theorem State.Formed.execPartRect (h : s.Formed) {n : Nat} {v : W32} : OutFormed (execPartRect n v s) := OutFormed.ite h h.updPart
theorem State.Formed.execPartHandler (h : s.Formed) {n : Nat} {v : W64} : OutFormed (execPartHandler n v s) :=
  OutFormed.ite h (OutFormed.ite h.updPart h.setHandler)
theorem State.Formed.execPaShares (h : s.Formed) {n : Nat} {v : W32} : OutFormed (execPaShares n v s) := State.Formed.ite h h.updPart
theorem State.Formed.execPaBank (h : s.Formed) {v : W32} : OutFormed (execPaBank v s) := State.Formed.ite h h.setCp
theorem State.Formed.execPaTableid (h : s.Formed) {v : W64} : OutFormed (execPaTableid v s) := h.setCp
theorem State.Formed.execCpPush (h : s.Formed) {q : Nat} {v : W32} : OutFormed (execCpPush q v s) := h.updQueue.pushHeld
theorem State.Formed.execFabId (h : s.Formed) {v : W32} : OutFormed (execFabId v s) := State.Formed.ite h.updFab h
theorem State.Formed.execFabCtl (h : s.Formed) {v : W32} : OutFormed (execFabCtl v s) := State.Formed.ite h.updFab h
theorem State.Formed.execFabRoot (h : s.Formed) {v : W64} : OutFormed (execFabRoot v s) := State.Formed.ite h.updFab h
theorem State.Formed.execDbgCtl (h : s.Formed) {v : W32} : OutFormed (execDbgCtl v s) := State.Formed.ite h.same h

theorem State.Formed.partCmd (h : s.Formed) {n : Nat} {v : W64} : (s.partCmd n v).Formed := by
  unfold State.partCmd
  extract_lets s1 s2 s3
  have h1 : s1.Formed := State.Formed.ite (h.outState h.execPartCmdPreempt) h
  have h2 : s2.Formed := State.Formed.ite (h1.outState h1.execPartCmdResume) h1
  have h3 : s3.Formed := State.Formed.ite (h2.outState h2.execPartCmdAbort) h2
  exact .ite (h3.outState h3.execPartCmdResumePlacing) h3

theorem State.Formed.regWrite (h : s.Formed) {r : Reg} {v : W64} : (s.regWrite r v).Formed := by
  unfold State.regWrite
  dsimp only
  split
  · exact h.outState h.execBootCmd
  · exact h.same
  · exact h.outState h.execDbgCtl
  · exact h.outState h.execAttCmd
  · exact h.updQueue
  · exact h.updQueue.pushHeld
  · exact h.outState h.execCpPush
  · exact h.updQueue
  · exact h.outState h.execPartRect
  · exact h.updPart
  · exact h.outState h.execPartHandler
  · exact h.updPart
  · exact h.updPart
  · exact h.updPart
  · exact h.outState h.execPaShares
  · exact h.partCmd
  · exact h.setCp
  · exact h.setCp
  · exact h.setCp
  · exact h.outState h.execPaBank
  · exact h.outState h.execPaTableid
  · exact h.updXlat
  · exact h.outState h.execPrSize
  · exact h.updXlat
  · exact h.outState h.execPrDone
  · exact h.same
  · exact h.same
  · exact h.same
  · exact h.outState h.execFabId
  · exact h.outState h.execFabCtl
  · exact h.outState h.execFabRoot
  · exact h.updFab
  · exact h.updFab
  · exact h.updFab
  · exact h.same
  · exact h.same
  · exact h
  · exact h
  · exact h
  · exact h
  · exact h
  · exact h
  · exact h
  · exact h
  · exact h
  · exact h
  · exact h
  · exact h
  · exact h
  · exact h
  · exact h
  · exact h
  · exact h

theorem State.Formed.ctlPut (h : s.Formed) {wide : Bool} {o : Nat} {v : W64} : (s.ctlPut wide o v).Formed := by
  unfold State.ctlPut
  split
  · exact .ite h.regWrite h
  · exact h

theorem State.Formed.execRegisterWrite (h : s.Formed) {wide : Bool} {off : Nat} {v : W64} : OutFormed (execRegisterWrite wide off v s) :=
  h.ctlPut
theorem State.Formed.execCoreKick (h : s.Formed) {core : Nat} {v : W64} : OutFormed (execCoreKick core v s) := OutFormed.ite h h.kickHead
theorem State.Formed.execGrantWindow (h : s.Formed) {part measured : Nat} : OutFormed (execGrantWindow part measured s) :=
  OutFormed.ite h h.updPart

end Sys2Proof.Machine
end

section
/-! SUPPORT. The form of the memories is kept: alarms and errors (Sys2Proof/Machine/System.lean). -/

namespace Sys2Proof.Machine

variable {s : State}

theorem State.Formed.spawnGo (h : s.Formed) {t : TRef} {q : Nat} {r : Range} : OptFormed (s.spawnGo t q r) :=
  OptFormed.ite rfl h.redirectTo.readSpans.pushQ

theorem State.Formed.execSpawn (h : s.Formed) {c : Ctl} {q : BitVec 2} {a : Operand} : OutFormed (execSpawn c q a s) := by
  unfold Machine.execSpawn
  refine h.native (fun h1 => ?_)
  refine Lane.Formed.ite h1 ?_
  split
  · exact h1
  · next s2 e =>
      have h2 : s2.Formed := of_eq (P := Access.Formed) e h1.access
      exact h2
  · exact h1
  · next s2 e =>
      have h2 : s2.Formed := of_eq (P := Access.Formed) e h1.access
      refine Lane.Formed.ite h1 (Lane.Formed.ite h2.beginQuiet.defer (Lane.Formed.ite h1 ?_))
      split
      · next s3 e1 =>
          have h3 : s3.Formed := of_eq (P := OptFormed) e1 h2.flush.releaseK.spawnGo
          exact h3
      · exact h1

theorem State.Formed.execJwait (h : s.Formed) {c : Ctl} {d a : Operand} {off : BitVec 12} : OutFormed (execJwait c d a off s) :=
  h.native (fun h1 => h1.queueWait (Lane.Formed.ite h1 (h1.withWord (fun h2 => h2.beginWait))))

theorem State.Formed.handlerAct (h : s.Formed) {t : TRef} {act : State → Nat → State}
    (hact : ∀ {s1 : State} {x2 : Nat}, s1.Formed → (act s1 x2).Formed) :
    (s.handlerAct t act).Formed := by
  unfold State.handlerAct
  refine Lane.Formed.ite h ?_
  split
  · refine State.Formed.endHandler ?_
    split
    · exact hact h
    · exact h
  · exact h

theorem State.Formed.execRfe (h : s.Formed) {c : Ctl} : OutFormed (execRfe c s) :=
  h.native (fun h1 => h1.handlerAct (fun h2 => h2.resumeGroup))

theorem State.Formed.execHalt (h : s.Formed) {c : Ctl} {code : BitVec 16} : OutFormed (execHalt c code s) := by
  unfold Machine.execHalt
  refine h.native (fun h1 => ?_)
  refine h1.handlerAct (fun h2 => ?_)
  split
  · exact h2.endLaunch
  · exact h2

theorem State.Formed.execDlset (h : s.Formed) {c : Ctl} {a : Operand} : OutFormed (execDlset c a s) := by
  unfold Machine.execDlset
  refine h.native (fun h1 => ?_)
  split
  · exact h1.updLaunch
  · exact h1

theorem State.Formed.execSleep (h : s.Formed) {c : Ctl} {a : Operand} : OutFormed (execSleep c a s) :=
  h.native (fun h1 => Lane.Formed.ite h1 h1.updThread)
theorem State.Formed.execQend (h : s.Formed) {c : Ctl} : OutFormed (execQend c s) := h.native (fun h1 => State.Formed.ite h1.updThread h1)
theorem State.Formed.execQsync (h : s.Formed) {c : Ctl} : OutFormed (execQsync c s) :=
  h.native (fun h1 => Lane.Formed.ite h1 (Lane.Formed.ite h1.begin_.updThread h1.result))
theorem State.Formed.execPwrq (h : s.Formed) {c : Ctl} {d : Operand} : OutFormed (execPwrq c d s) :=
  h.native (fun h1 => Lane.Formed.ite h1 h1.result)
theorem State.Formed.execCrd (h : s.Formed) {c : Ctl} {ty : Ty} {d a : Operand} : OutFormed (execCrd c ty d a s) :=
  h.native (fun h1 => Lane.Formed.ite h1 (Lane.Formed.ite h1 h1.result))
theorem State.Formed.execCwr (h : s.Formed) {c : Ctl} {ty : Ty} {a b : Operand} : OutFormed (execCwr c ty a b s) :=
  h.native (fun h1 => Lane.Formed.ite h1 (Lane.Formed.ite h1 h1.ctlPut))

end Sys2Proof.Machine
end

section
/-! SUPPORT. The form of the memories is kept: fetch and refusal (Sys2Proof/Machine/Pick.lean). -/

namespace Sys2Proof.Machine

variable {s : State}

theorem State.Formed.asGang (h : s.Formed) {core slice : Nat} {h' : Header} {ms : List TRef} : (s.asGang core slice h' ms).Formed := h.same
theorem State.Formed.parkAt (h : s.Formed) {t : TRef} {i : Instr} : (s.parkAt t i).Formed := .ite h.trap h.updThread

theorem State.Formed.arriveSlot (h : s.Formed) {t : TRef} {h' : Header} : (s.arriveSlot t h').Formed := by
  unfold State.arriveSlot
  refine .ite h.trap ?_
  split
  · exact h.refuseFetch.trap
  · exact h
  · next s1 e =>
      have h1 : s1.Formed := of_eq (P := Fetch.Formed) e h.fetch
      split
      · exact .ite h1.parkAt h1
      · exact h1

theorem State.Formed.arrive (h : s.Formed) {t : TRef} : (s.arrive t).Formed := by
  unfold State.arrive
  refine .ite (.ite h.trap ?_) ?_
  · split
    · exact h.refuseFetch.trap
    · exact h
    · next s1 e =>
        have h1 : s1.Formed := of_eq (P := Fetch.Formed) e h.fetch
        exact .ite h1.trap (.ite h1.trap (.ite h1.updThread.arriveSlot h1))
  · split
    · exact h.refuseFetch.trap
    · exact h
    · next s1 e =>
        have h1 : s1.Formed := of_eq (P := Fetch.Formed) e h.fetch
        exact .ite h1.trap h1.arriveSlot

theorem State.Formed.prepare (h : s.Formed) {core slice : Nat} : (s.prepare core slice).Formed := h.foldl (fun h1 => .ite h1.arrive h1)
theorem State.Formed.badWord (h : s.Formed) {w : W96} : (s.badWord w).Formed := h.mark.foldl (fun h1 => h1.trap)
theorem State.Formed.execUnassignedOpcode (h : s.Formed) {w : W96} : OutFormed (execUnassignedOpcode w s) :=
  h.mark.foldl (fun h1 => h1.trap)

end Sys2Proof.Machine
end

section
/-! SUPPORT. The form of the memories is kept: quantum commits (Sys2Proof/Machine/Commit.lean). -/

namespace Sys2Proof.Machine

variable {s : State}

theorem State.Formed.entryTrap (h : s.Formed) {t : TRef} {slot : BitVec 4} {cause : Nat} {addr : W64} {write : Bool} :
    (s.entryTrap t slot cause addr write).Formed := h.trap.updThread

theorem State.Formed.setKind (h : s.Formed) {o : Nat} {k : OpKind} : (s.setKind o k).Formed := h.updOp

theorem State.Formed.entryStore (h : s.Formed) {t : TRef} {pa : Nat} {data : List Byte} {bypass : Bool} :
    (s.entryStore t pa data bypass).Formed := of_ite (P := Entry.Formed) h.redirectTo
        (of_ite (P := Entry.Formed) h.redirectTo.settle.perform h.redirectTo.askAts)

theorem State.Formed.mldEnd (h : s.Formed) {o : Op} : (s.mldEnd o).Formed := by
  unfold State.mldEnd
  split
  · refine .dropOp (.flagDown ?_)
    split
    · exact h.landAll
    · exact h.setSpad
  · exact h

theorem State.Formed.entryBarr (h : s.Formed) {t : TRef} {slot : BitVec 4} {id core off : Nat} {u : BarrUp} :
    (s.entryBarr t slot id core off u).Formed := by
  unfold State.entryBarr
  dsimp only
  split
  · exact h.setBarr.dropOp
  · exact h.setBarr.dropOp
  · exact .ite (.entryTrap (.ite h.dropOp h.setBarr.dropOp)) (.ite h.dropOp h.setBarr.dropOp)

theorem State.Formed.entryMld (h : s.Formed) {id : Nat} : (s.entryMld id).Formed := by
  unfold State.entryMld
  dsimp only
  split
  · split
    · refine of_ite (P := Entry.Formed) h ?_
      refine State.Formed.mldEnd ?_
      split
      · exact h.mldStep
      · exact h
    · exact h
  · exact h

theorem State.Formed.entryOp (h : s.Formed) {t : TRef} {slot : BitVec 4} {o : Op} : (s.entryOp t slot o).Formed := by
  unfold State.entryOp
  extract_lets L after drop
  have hafter {x : Option State} (hx : OptFormed x) : (after x).Formed := by
    unfold after
    split
    · exact hx
    · exact h
  clear_value after
  split
  · refine of_ite (P := Entry.Formed) h ?_
    split
    · exact h
    · exact h.sliceNow
  · refine of_ite (P := Entry.Formed) h ?_
    split
    · exact h
    · exact h.sliceNow
  · exact of_ite (P := Entry.Formed) h h.kickHead.dropOp
  · exact hafter (h.pushQ.mapState (fun h1 => h1.dropOp))
  · exact hafter h.pushQ
  · split
    · next s1 e =>
        have h1 : s1.Formed := of_eq (P := OptFormed) e (OptFormed.bindAny h.fenceArm.fenceStep)
        split
        · exact h1
        · exact h1
    · exact h
  · exact of_ite (P := Entry.Formed) (h.dropOp.foldl (fun h1 => h1.settle.perform)) h
  · exact h.setKind
  · exact h.cgoGo.dropOp
  · exact hafter h.cplanGo
  · split
    · exact h
    · next s1 e =>
        have h1 : s1.Formed := of_eq (P := Access.Formed) e h.access
        exact h1.entryTrap
    · exact h.entryTrap
    · next s1 e =>
        have h1 : s1.Formed := of_eq (P := Access.Formed) e h.access
        exact hafter (h1.spawnGo.mapState (fun h => h.dropOp))
  · exact of_ite (P := Entry.Formed) h h.pgreqGo
  · exact hafter h.updCall.rcallGo
  · exact hafter h.mrouteGo
  · exact of_ite (P := Entry.Formed) h h.mretStep.forceAll.setKind
  · exact h.entryMld
  · split
    · next s1 e =>
        have h1 : s1.Formed := of_eq (P := MldPlan.Formed) e h.mldPlan
        exact h1
    · next s1 e =>
        have h1 : s1.Formed := of_eq (P := MldPlan.Formed) e h.mldPlan
        exact h1.entryTrap
    · next s1 e =>
        have h1 : s1.Formed := of_eq (P := MldPlan.Formed) e h.mldPlan
        exact h1.setKind.entryMld
  · exact of_ite (P := Entry.Formed) h h.setSpad.setKind
  · exact of_ite (P := Entry.Formed) h h.entryBarr
  · exact h

theorem State.Formed.entry (h : s.Formed) {t : TRef} {q : QItem} : (s.entry t q).Formed := by
  unfold State.entry
  split
  · exact h.entryStore
  · exact of_ite (P := Entry.Formed) h h.setSpad
  · split
    · exact h
    · exact h.entryOp
    · split
      · exact h
      · next s1 e =>
          have h1 : s1.Formed := of_eq (P := Access.Formed) e h.access
          exact h1.entryTrap
      · exact h.entryTrap
      · next s1 e =>
          have h1 : s1.Formed := of_eq (P := Access.Formed) e h.access
          split
          · exact of_ite (P := Entry.Formed) h1.setKind.entryOp h.entryTrap
          · exact h.entryTrap

theorem State.Formed.entryAsks (h : s.Formed) {q : QItem} : (s.entryAsks q).Formed := by
  unfold State.entryAsks
  split
  · exact h.askAts
  · exact h
  · split
    · exact h.foldl (fun h1 => h1.askAts)
    · exact h

theorem State.Formed.commitRun (h : s.Formed) {l n : Nat} {moved : Bool} : (State.commitRun l n s moved).1.Formed := by
  induction n generalizing s moved with
  | zero => exact h
  | succ n ih =>
    unfold State.commitRun
    split
    · exact h
    · split
      · exact h
      · split
        · exact h
        · split
          · next s1 e => exact of_eq (P := Entry.Formed) e h.entry
          · next s1 e =>
            have h1 : s1.Formed := of_eq (P := Entry.Formed) e h.entry
            exact ih h1.updThread
          · next s1 e => exact of_eq (P := Entry.Formed) e h.entry
          · exact h.same.entryAsks

theorem State.Formed.execQuantumCommitStart (h : s.Formed) {l : Nat} : OutFormed (execQuantumCommitStart l s) :=
  OutFormed.ite ((h.updLaunch.foldl (fun h1 => h1.l1Clear)).commitRun) (OutFormed.ite (OutFormed.ite h.commitRun h) h)

theorem State.Formed.execWaiting (h : s.Formed) {i : Instr} : OptFormed (execWaiting i s) := by
  unfold Machine.execWaiting
  split
  · exact h.outState h.execBarrWait
  · exact h.outState h.execMwait
  · exact h.outState h.execQpush
  · exact h.outState h.execQpop
  · exact h.outState h.execJwait
  · exact h.outState h.execCntw
  · exact h.outState h.execCwait
  · exact h.outState h.execRwait
  · exact h.outState h.execBgwait
  · exact h.outState h.execCpoll
  · exact rfl

theorem State.Formed.lookAgain (h : s.Formed) {t : TRef} : (s.lookAgain t).Formed := by
  unfold State.lookAgain
  refine .ite h ?_
  split
  · exact h
  · split
    · exact h
    · dsimp only
      split
      · exact h
      · next s1 e =>
          have h1 : s1.Formed := of_eq (P := OptFormed) e h.updThread.asGang.execWaiting
          exact .ite h.updThread.updThread h1.updThread

theorem State.Formed.openQuantum (h : s.Formed) {l : Nat} : (s.openQuantum l).Formed :=
  ((((((h.updLaunch.foldl (fun h1 => h1.updGroup)).same).foldl (fun h1 => h1.foldl (fun h2 => h2.tokenEnd))).openSets).foldl
  (fun h1 => h1.lookAgain)).updLaunch).foldl (fun h1 => .ite h1.haltGroup h1)

theorem State.Formed.execQuantumCommitComplete (h : s.Formed) {l : Nat} : OutFormed (execQuantumCommitComplete l s) := by
  unfold Machine.execQuantumCommitComplete
  split
  · exact h
  · exact OutFormed.ite h h.openQuantum

end Sys2Proof.Machine
end

section
/-! SUPPORT. The form of the memories is kept: completions (Sys2Proof/Machine/Complete.lean). -/

namespace Sys2Proof.Machine

variable {s : State}

theorem State.Formed.goOn (h : s.Formed) {t : TRef} : (s.goOn t).Formed := by
  unfold State.goOn
  split
  · exact rfl
  · exact rfl
  · next s1 e =>
      have h1 : s1.Formed := of_eq (P := Fetch.Formed) e h.fetch
      exact h1.asGang.advance

theorem State.Formed.reread (h : s.Formed) {o : Op} : (s.reread o).Formed := h.same

theorem State.Formed.landOp (h : s.Formed) {o : Op} {ws : List Wr} {acq : Bool} : (s.landOp o ws acq).Formed := by
  unfold State.landOp
  refine .dropOp (.flagDown (.reread (.ite (.l1Clear ?_) ?_)))
  · split
    · exact h.landAll.seeDone.acquireNow
    · exact h.landAll.seeDone
  · split
    · exact h.landAll.seeDone.acquireNow
    · exact h.landAll.seeDone

theorem State.Formed.finish (h : s.Formed) {o : Op} {ws : List Wr} {acq : Bool} : (s.finish o ws acq).Formed := by
  unfold State.finish
  refine .ite h.landOp ?_
  dsimp only
  split
  · exact h
  · exact h.updThread.flagDown.dropOp.trap
  · next s1 e =>
      have h1 : s1.Formed := of_eq (P := Adv.Formed) e h.updThread.goOn
      split
      · exact .ite h1.landOp h1.landOp.tokenEnd
      · exact h1.landOp

theorem State.Formed.finishElems (h : s.Formed) {o : Op} {ws : List Wr} : (s.finishElems o ws).Formed := .ite h.landOp h.updThread.finish
theorem State.Formed.loadStep (h : s.Formed) {o : Op} {parts : List Part} : OptFormed (s.loadStep o parts) :=
  OptFormed.map ((h.foldl (fun h1 => h1.foldl (fun h2 => h2.readPart))).readPart)

theorem State.Formed.complete (h : s.Formed) {o : Op} : OptFormed (s.complete o) := by
  unfold State.complete
  split
  · exact h.finish
  · refine OptFormed.ite rfl (OptFormed.ite ?_ h.loadStep)
    dsimp only
    split
    · exact h.finishElems
    · exact h.finish
  · exact h.finish
  · exact h.finish
  · exact h.finish
  · exact h.finish
  · exact h.finish
  · exact OptFormed.ite h.finish rfl
  · exact OptFormed.ite h.setAccRow.finish rfl
  · exact OptFormed.ite h.mldEnd (OptFormed.ite h.mldStep rfl)
  · exact OptFormed.ite (OptFormed.ite rfl h.finish) (OptFormed.ite h.mretStep rfl)
  · exact h.fenceStep
  · exact OptFormed.ite h.finish rfl
  · exact OptFormed.ite rfl h.finish
  · exact OptFormed.ite h.finish rfl
  · exact rfl

theorem State.Formed.execLongLatencyCompletion (h : s.Formed) {op : Nat} : OutFormed (execLongLatencyCompletion op s) := by
  unfold Machine.execLongLatencyCompletion
  split
  · exact h
  · refine OutFormed.ite h ?_
    split
    · next s1 e =>
        have h1 : s1.Formed := of_eq (P := OptFormed) e h.complete
        exact h1
    · exact h

theorem State.Formed.execStoreReachesVisibility (h : s.Formed) {entry : Nat} : OutFormed (execStoreReachesVisibility entry s) := by
  unfold Machine.execStoreReachesVisibility
  split
  · exact h
  · exact OutFormed.ite h h.force

theorem State.Formed.execBarrWaitLimit (h : s.Formed) {op : Nat} : OutFormed (execBarrWaitLimit op s) := by
  unfold Machine.execBarrWaitLimit
  split
  · exact h
  · split
    · exact OutFormed.ite h.setKind h
    · exact h

theorem State.Formed.execMwaitRecompare (h : s.Formed) {op : Nat} : OutFormed (execMwaitRecompare op s) := OutFormed.ite h h.compareArm

theorem State.Formed.execSleepExpiry (h : s.Formed) {grp tid : Nat} : OutFormed (execSleepExpiry grp tid s) := by
  unfold Machine.execSleepExpiry
  split
  · exact OutFormed.ite h.updThread h
  · exact h

end Sys2Proof.Machine
end

section
/-! SUPPORT. The form of the memories is kept: every instruction and event (Sys2Proof/Machine/Dispatch.lean). -/

namespace Sys2Proof.Machine

variable {s : State}

theorem State.Formed.exec (h : s.Formed) {i : Instr} : OutFormed (exec i s) := by
  cases i with
  | nop => exact h.execNop
  | bra => exact h.execBra
  | brx => exact h.execBrx
  | call => exact h.execCall
  | callx => exact h.execCallx
  | ret => exact h.execRet
  | exit => exact h.execExit
  | tokOpen => exact h.execTokOpen
  | tokLeave => exact h.execTokLeave
  | rpt => exact h.execRpt
  | yield => exact h.execYield
  | brk => exact h.execBrk
  | trap => exact h.execTrap
  | setp => exact h.execSetp
  | fsetp => exact h.execFsetp
  | pbool => exact h.execPbool
  | pmovSave => exact h.execPmovSave
  | pmovLoad => exact h.execPmovLoad
  | getsr => exact h.execGetsr
  | setsr => exact h.execSetsr
  | mov => exact h.execMov
  | movi => exact h.execMovi
  | add => exact h.execAdd
  | sub => exact h.execSub
  | mul => exact h.execMul
  | mulhi => exact h.execMulhi
  | mad => exact h.execMad
  | addc => exact h.execAddc
  | subb => exact h.execSubb
  | abs => exact h.execAbs
  | min => exact h.execMin
  | max => exact h.execMax
  | and => exact h.execAnd
  | or => exact h.execOr
  | xor => exact h.execXor
  | not => exact h.execNot
  | shl => exact h.execShl
  | shr => exact h.execShr
  | sra => exact h.execSra
  | rot => exact h.execRot
  | bfe => exact h.execBfe
  | bfi => exact h.execBfi
  | popc => exact h.execPopc
  | clz => exact h.execClz
  | brev => exact h.execBrev
  | prmt => exact h.execPrmt
  | sel => exact h.execSel
  | lea => exact h.execLea
  | dp4 => exact h.execDp4
  | mix32 => exact h.execMix32
  | fadd => exact h.execFadd
  | fsub => exact h.execFsub
  | fmul => exact h.execFmul
  | ffma => exact h.execFfma
  | fmin => exact h.execFmin
  | fmax => exact h.execFmax
  | fclamp => exact h.execFclamp
  | frnd => exact h.execFrnd
  | fclass => exact h.execFclass
  | lg2 => exact h.execLg2
  | ex2 => exact h.execEx2
  | rcp => exact h.execRcp
  | rsq => exact h.execRsq
  | sqrt => exact h.execSqrt
  | hadd2 => exact h.execHadd2
  | hmul2 => exact h.execHmul2
  | hfma2 => exact h.execHfma2
  | hmax2 => exact h.execHmax2
  | cvt => exact h.execCvt
  | pack => exact h.execPack
  | unpk => exact h.execUnpk
  | qswap => exact h.execQswap
  | qbcast => exact h.execQbcast
  | shfl => exact h.execShfl
  | vote => exact h.execVote
  | matchv => exact h.execMatchv
  | wred => exact h.execWred
  | wmaxi => exact h.execWmaxi
  | wscan => exact h.execWscan
  | elect => exact h.execElect
  | ld => exact h.execLd
  | st => exact h.execSt
  | lds => exact h.execLds
  | sts => exact h.execSts
  | ldk => exact h.execLdk
  | gather => exact h.execGather
  | ldblk => exact h.execLdblk
  | prefetch => exact h.execPrefetch
  | discard => exact h.execDiscard
  | l1inv => exact h.execL1inv
  | fence => exact h.execFence
  | xfence => exact h.execXfence
  | satom => exact h.execSatom
  | mwait => exact h.execMwait
  | qinit => exact h.execQinit
  | qpush => exact h.execQpush
  | qpop => exact h.execQpop
  | barrInit => exact h.execBarrInit
  | barrArrive => exact h.execBarrArrive
  | barrExpect => exact h.execBarrExpect
  | barrWait => exact h.execBarrWait
  | barrQuery => exact h.execBarrQuery
  | atom => exact h.execAtom
  | red => exact h.execRed
  | acall => exact h.execAcall
  | mma => exact h.execMma
  | mmp => exact h.execMmp
  | mld => exact h.execMld
  | aalloc => exact h.execAalloc
  | awin => exact h.execAwin
  | afree => exact h.execAfree
  | azero => exact h.execAzero
  | ald => exact h.execAld
  | ast => exact h.execAst
  | mret => exact h.execMret
  | mretRoute => exact h.execMretRoute
  | epcfg => exact h.execEpcfg
  | ckick => exact h.execCkick
  | cpoll => exact h.execCpoll
  | cntw => exact h.execCntw
  | cnta => exact h.execCnta
  | trec => exact h.execTrec
  | bgload => exact h.execBgload
  | bgx => exact h.execBgx
  | bfence => exact h.execBfence
  | bgwait => exact h.execBgwait
  | bgstatEng => exact h.execBgstatEng
  | bgstatRmap => exact h.execBgstatRmap
  | pgreq => exact h.execPgreq
  | pgmig => exact h.execPgmig
  | tlbinvPage => exact h.execTlbinvPage
  | tlbinvAll => exact h.execTlbinvAll
  | pocinvPage => exact h.execPocinvPage
  | pocinvAll => exact h.execPocinvAll
  | rcall => exact h.execRcall
  | rwait => exact h.execRwait
  | rret => exact h.execRret
  | rstat => exact h.execRstat
  | cplan => exact h.execCplan
  | cgo => exact h.execCgo
  | cwait => exact h.execCwait
  | netslot => exact h.execNetslot
  | netslotOff => exact h.execNetslotOff
  | spawn => exact h.execSpawn
  | jwait => exact h.execJwait
  | rfe => exact h.execRfe
  | halt => exact h.execHalt
  | sleep => exact h.execSleep
  | dlset => exact h.execDlset
  | qend => exact h.execQend
  | qsync => exact h.execQsync
  | pwrq => exact h.execPwrq
  | crd => exact h.execCrd
  | cwr => exact h.execCwr
  | bgEnd => exact h.execBgEnd
  | bgOpen => exact h.execBgOpen
  | bgClose => exact h.execBgClose
  | bgRd => exact h.execBgRd
  | bgMac => exact h.execBgMac
  | bgRmac => exact h.execBgRmac
  | bgAdd => exact h.execBgAdd
  | bgMax => exact h.execBgMax
  | bgScale => exact h.execBgScale
  | bgScaleScl => exact h.execBgScaleScl
  | bgWr => exact h.execBgWr
  | bgZero => exact h.execBgZero
  | bgLdx => exact h.execBgLdx
  | bgAddx => exact h.execBgAddx
  | bgLoop => exact h.execBgLoop
  | bgNext => exact h.execBgNext
  | bgBnz => exact h.execBgBnz
  | bgVld => exact h.execBgVld
  | bgSync => exact h.execBgSync
  | bgBtl => exact h.execBgBtl
  | bgAttn => exact h.execBgAttn
  | bgEmit => exact h.execBgEmit
  | bgIdx => exact h.execBgIdx
  | bgNopc => exact h.execBgNopc
  | unassignedOpcode => exact h.execUnassignedOpcode
  | unassignedCommandCode w => exact h.execUnassignedCommandCode (w := w)
  | longLatencyCompletion => exact h.execLongLatencyCompletion
  | storeReachesVisibility => exact h.execStoreReachesVisibility
  | matrixOpCommit => exact h.execMatrixOpCommit
  | requestEngineFetch => exact h.execRequestEngineFetch
  | linearCopy => exact h.execLinearCopy
  | tensorCopy => exact h.execTensorCopy
  | gatherRequest => exact h.execGatherRequest
  | scatterAdd => exact h.execScatterAdd
  | layoutTransform => exact h.execLayoutTransform
  | fill => exact h.execFill
  | remoteRead => exact h.execRemoteRead
  | remoteWrite => exact h.execRemoteWrite
  | remoteReduce => exact h.execRemoteReduce
  | collectiveStep => exact h.execCollectiveStep
  | barrierSignal => exact h.execBarrierSignal
  | copyLanding => exact h.execCopyLanding
  | counterIncrease => exact h.execCounterIncrease
  | copyRetire => exact h.execCopyRetire
  | atOperation => exact h.execAtOperation
  | acallRoutine => exact h.execAcallRoutine
  | bankQueueTake => exact h.execBankQueueTake
  | bankLaunchAdmission => exact h.execBankLaunchAdmission
  | storeLoadDispatch => exact h.execStoreLoadDispatch
  | bankReexecution => exact h.execBankReexecution
  | attentionMerge => exact h.execAttentionMerge
  | bankCompletion => exact h.execBankCompletion
  | coreAccessArrives => exact h.execCoreAccessArrives
  | migrationStart => exact h.execMigrationStart
  | migrationPassEnd => exact h.execMigrationPassEnd
  | migrationSwitch => exact h.execMigrationSwitch
  | stubForward => exact h.execStubForward
  | redirect => exact h.execRedirect
  | chase => exact h.execChase
  | stubReclaimQuery => exact h.execStubReclaimQuery
  | stubReclaimReply => exact h.execStubReclaimReply
  | rcallArrival => exact h.execRcallArrival
  | calleeStart => exact h.execCalleeStart
  | rcallReply => exact h.execRcallReply
  | rcallTimeout => exact h.execRcallTimeout
  | dedupEntryExpiry => exact h.execDedupEntryExpiry
  | fabricTransferTimeout => exact h.execFabricTransferTimeout
  | rateTableRecovery => exact h.execRateTableRecovery
  | reductionLanding => exact h.execReductionLanding
  | collectiveInstanceComplete => exact h.execCollectiveInstanceComplete
  | networkFrameBoundary => exact h.execNetworkFrameBoundary
  | launchRecordCheck => exact h.execLaunchRecordCheck
  | groupRange => exact h.execGroupRange
  | resumptionRecord => exact h.execResumptionRecord
  | copyQueueRequest => exact h.execCopyQueueRequest
  | cellPlacement => exact h.execCellPlacement
  | groupEnd => exact h.execGroupEnd
  | launchCompletion => exact h.execLaunchCompletion
  | deadlineExpiry => exact h.execDeadlineExpiry
  | groupQuiet => exact h.execGroupQuiet
  | handlerStart => exact h.execHandlerStart
  | handlerReservation => exact h.execHandlerReservation
  | preemptDrainComplete => exact h.execPreemptDrainComplete
  | quantumCommitStart => exact h.execQuantumCommitStart
  | quantumCommitComplete => exact h.execQuantumCommitComplete
  | barrWaitLimit => exact h.execBarrWaitLimit
  | mwaitRecompare => exact h.execMwaitRecompare
  | sleepExpiry => exact h.execSleepExpiry
  | atsTranslationCompletion => exact h.execAtsTranslationCompletion
  | grantWindow => exact h.execGrantWindow
  | pageRequestRingWrite => exact h.execPageRequestRingWrite
  | errorRecordWrite => exact h.execErrorRecordWrite
  | congestionNotice => exact h.execCongestionNotice
  | fabricPacketArrival => exact h.execFabricPacketArrival
  | portTraining => exact h.execPortTraining
  | moduleReset => exact h.execModuleReset
  | pcieFundamentalReset => exact h.execPcieFundamentalReset
  | bar2Access => exact h.execBar2Access
  | atsInvalidation => exact h.execAtsInvalidation
  | alarmLevel1 => exact h.execAlarmLevel1
  | alarmLevel2 => exact h.execAlarmLevel2
  | softErrorCorrected => exact h.execSoftErrorCorrected
  | uncorrectableError => exact h.execUncorrectableError
  | codeObjectLoad => exact h.execCodeObjectLoad
  | coreKick => exact h.execCoreKick
  | cpPush => exact h.execCpPush
  | prDone => exact h.execPrDone
  | prSize => exact h.execPrSize
  | partCmdPreempt => exact h.execPartCmdPreempt
  | partCmdResume => exact h.execPartCmdResume
  | partCmdAbort => exact h.execPartCmdAbort
  | partCmdResumePlacing => exact h.execPartCmdResumePlacing
  | partRect => exact h.execPartRect
  | partHandler => exact h.execPartHandler
  | paShares => exact h.execPaShares
  | paBank => exact h.execPaBank
  | paTableid => exact h.execPaTableid
  | fabId => exact h.execFabId
  | fabCtl => exact h.execFabCtl
  | fabRoot => exact h.execFabRoot
  | dbgCtl => exact h.execDbgCtl
  | bootCmd => exact h.execBootCmd
  | attCmd => exact h.execAttCmd
  | registerWrite => exact h.execRegisterWrite

end Sys2Proof.Machine
end

section
/-! SUPPORT. The form of the memories is kept: issue (Sys2Proof/Machine/Picker.lean). -/

namespace Sys2Proof.Machine

variable {s : State}

theorem State.Formed.issueWord (h : s.Formed) {w : W96} : OutFormed (s.issueWord w) := by
  unfold State.issueWord
  split
  · exact h.exec
  · exact h.badWord

theorem State.Formed.starveAfter {s0 : State} (h : s.Formed) {core slice : Nat} {gang : List TRef} :
    (s0.starveAfter core slice gang s).Formed :=
  h.foldl fun h => .ite h (.ite h.updThread (.ite h h.updThread))

theorem OutFormed.onNext {f : State → State} {o : Host.Outcome State Fault Refusal} (ho : OutFormed o)
    (hf : ∀ {s}, s.Formed → (f s).Formed) : OutFormed (onNext f o) := by
  cases o with
  | next s => exact hf ho
  | fault r => rfl
  | refused r => rfl

theorem State.Formed.slicePrepared (h : s.Formed) {core slice : Nat} : (s.slicePrepared core slice).Formed :=
  h.prepare.updCore fun _ => by rfl

theorem State.Formed.issueSlice (h : s.Formed) {core slice : Nat} : OutFormed (s.issueSlice core slice) := by
  unfold State.issueSlice
  extract_lets s1
  have h1 : s1.Formed := h.slicePrepared
  split
  · exact h1.starveAfter
  · exact OutFormed.onNext h1.asGang.issueWord fun h => h.starveAfter

theorem State.Formed.issueEngine (h : s.Formed) {e : Nat} : OutFormed (s.issueEngine e) := by
  unfold State.issueEngine
  refine OutFormed.ite h.same.bgIllegal ?_
  split
  · exact h.same.exec
  · exact h.same.bgIllegal

theorem State.Formed.issueCallee (h : s.Formed) {id : Nat} : OutFormed (s.issueCallee id) := by
  unfold State.issueCallee
  refine OutFormed.ite h (OutFormed.ite (OutFormed.ite h.arrive h) ?_)
  split
  · exact h
  · exact h.arrive
  · split
    · exact h
    · exact h.arrive
    · next s2 e1 =>
        have h2 : s2.Formed := of_eq (P := Fetch.Formed) e1 h.fetch
        exact OutFormed.ite h2.asGang.issueWord h

theorem Core.bpEnd_spad (k : Core) : k.bpEnd.spad = k.spad := by
  unfold Core.bpEnd
  split
  · rfl
  · rfl

end Sys2Proof.Machine
end

section
/-! SUPPORT. The form of the memories is kept: turns and cycles (Sys2Proof/Machine/Turns.lean). -/

namespace Sys2Proof.Machine

variable {s : State}

theorem State.Formed.nextCycle (h : s.Formed) : s.nextCycle.Formed :=
  (h.coresMap (f := fun k => { k.bpEnd with issued := [] }) (hf := fun k => Core.bpEnd_spad k)).freeWaves.reissueAll.injectAll

theorem State.Formed.turn (h : s.Formed) {t : Turn} : OutFormed (s.turn t) := by
  unfold State.turn
  split
  · exact OutFormed.ite h h.issueSlice
  · exact h.issueEngine
  · exact h.issueCallee
  · exact OutFormed.ite h.exec h
  · exact OutFormed.ite h.nextCycle h

end Sys2Proof.Machine
end

section
/-! SUPPORT. The form of the memories is kept: a step (Sys2Proof/Machine/Step.lean). -/

namespace Sys2Proof.Machine

variable {s : State}

theorem State.Formed.step (h : s.Formed) : OutFormed (step s) := by
  unfold Machine.step
  refine OutFormed.ite h.same.bootRun ?_
  split
  · exact h.same.same.turn
  · exact h.same.turn

end Sys2Proof.Machine
end

section
/-! The obligation O60. -/

namespace Sys2Proof.Machine

/-- Settles O60, by the functions of the model in the order they call each other: each leaves the memories in form. -/
theorem memoryFormKept : Obligations.MemoryFormKept := by
  unfold Obligations.MemoryFormKept
  intro s t hs ht
  have hform : State.Formed s := hs
  exact of_eq (P := OutFormed) ht hform.step

end Sys2Proof.Machine
end

section
/-! SUPPORT. The predicate block: its operations, the predicates as one word, and what a run of predicate writes leaves (R127,
R128). -/

namespace Sys2Proof.Machine

theorem pbool_xor (x y : Bool) : pbool .xor x y = Bool.xor x y := congrFun (congrFun Bool.bne_eq_xor x) y

theorem getLsbD_or_one_shiftLeft {j : Nat} (hj : j < 32) (x : W32) (i : Nat) :
    (x ||| (1 : W32) <<< j).getLsbD i = (x.getLsbD i || decide (i = j)) := by
  have hone : (1 : W32) <<< j = BitVec.twoPow 32 j := (BitVec.twoPow_eq 32 j).symm
  rw [BitVec.getLsbD_or, hone, BitVec.getLsbD_twoPow]
  grind

/-- A bit of a word in which a list of places has been set, each under its own condition. -/
theorem getLsbD_foldl_setBit (f : Nat → Bool) {l : List Nat} (hl : ∀ j ∈ l, j < 32) (acc : W32) (i : Nat) :
    (l.foldl (fun acc j => if f j then acc ||| (1 : W32) <<< j else acc) acc).getLsbD i =
      (acc.getLsbD i || (decide (i ∈ l) && f i)) := by
  induction l generalizing acc with
  | nil => simp
  | cons j l ih =>
    obtain ⟨hj, hl⟩ := List.forall_mem_cons.1 hl
    rw [List.foldl_cons, ih hl]
    cases hf : f j with
    | false =>
      have hne : i = j → f i = false := fun h => h ▸ hf
      grind
    | true =>
      rw [if_pos rfl, getLsbD_or_one_shiftLeft hj]
      grind

/-- The word of the predicates holds p6 to p0 in bits 6 to 0, and nothing above. -/
theorem predWord_getLsbD (rd : Reader) (i : Nat) :
    (predWord rd).getLsbD i = (decide (i < 7) && rdP rd (.p (BitVec.ofNat 3 i))) := by
  have hl : ∀ j ∈ List.range 7, j < 32 := fun j hj => (List.mem_range.1 hj).trans (by decide)
  rw [predWord, getLsbD_foldl_setBit (fun j => rdP rd (.p (BitVec.ofNat 3 j))) hl]
  simp

theorem Thread.put_pred_same {r : Nat} (h : r < 7) (y : Thread) (b : Bool) : (y.put (.p r b)).pred r = b := by
  cases b <;> simp [Thread.put, Thread.setP, Thread.pred, Nat.not_le.2 h, Nat.ne_of_lt h, h]

/-- After writes of the predicates that a list and a mask select, each of those has its new value, and every other keeps the
old. -/
theorem foldl_put_pred (mask src : Nat → Bool) {l : List Nat} (x : Thread) {i : Nat} (hi : i < 7) :
    ((l.filterMap fun j => if mask j then some (Wr.p j (src j)) else none).foldl Thread.put x).pred i =
      if i ∈ l ∧ mask i = true then src i else x.pred i := by
  induction l generalizing x with
  | nil => simp
  | cons j l ih =>
    cases hj : mask j with
    | false =>
      have hne : i = j → mask i = false := fun h => h ▸ hj
      rw [List.filterMap_cons_none (by simp [hj]), ih]
      grind
    | true =>
      rw [List.filterMap_cons_some (b := .p j (src j)) (by simp [hj]), List.foldl_cons, ih]
      by_cases h : i = j
      · subst h
        simp [hj, Thread.put_pred_same hi]
      · have hw : ∀ b, Wr.p j (src j) ≠ .p i b := fun b hb => h (Wr.p.inj hb).1.symm
        simp [h, Thread.put_pred_ne hw]

/-- Settles O44, by the operations' table, the bits of the predicates' word, and the predicates after a run of writes. -/
theorem predicateForms : Obligations.PredicateForms := by
  refine ⟨?_, ?_, ?_⟩
  · intro rd c op d a b
    cases op with
    | and | or | andn => rfl
    | xor => exact congrArg (fun r => some (wrP d r)) (pbool_xor _ _)
  · intro rd c d
    exact ⟨predWord rd, rfl, predWord_getLsbD rd⟩
  · intro rd c a mask
    refine ⟨_, rfl, fun x i hi => ?_⟩
    rw [foldl_put_pred mask.getLsbD (rd32 rd a).getLsbD x hi]
    simp [hi]

end Sys2Proof.Machine
end

section
/-! SUPPORT. A token opened for a gathered set: the checks passed, and the entry written (R106, R108, R109, R122). -/

namespace Sys2Proof.Machine

/-- The members of a gathered set leave their park (R106). -/
def State.unpark (s : State) (ms : List TRef) : State := ms.foldl (fun s t => s.updThread t fun x => { x with park := .no }) s

theorem State.unpark_gang (s : State) (ms : List TRef) : (s.unpark ms).gang = s.gang :=
  foldl_gang (fun s t => State.updThread_gang s t _) ms s

/-- The parent of a token that a thread opens: its innermost token, if it has one (R108). -/
def Thread.parent (x : Thread) : Option Nat := if x.depth = 0 then none else some x.innermost

/-- The entry of a thread's wave that a `tok.open` to a rejoin clause joins (R109), and the one it takes when none is there. -/
def State.tokenMatch (s : State) (t : TRef) (rejoin : W64) : Option Nat :=
  (List.range 16).find? fun i => ((s.waveOf t).token i).valid && ((s.waveOf t).token i).rejoin == rejoin &&
    ((s.waveOf t).token i).parent == (s.thread t).parent
def State.tokenFree (s : State) (t : TRef) : Option Nat := (List.range 16).find? fun i => !((s.waveOf t).token i).valid

/-- The lanes of a set. -/
def State.lanes (s : State) (ms : List TRef) : W32 := ms.foldl (fun m t => m ||| laneBit (s.thread t).lane) 0

/-- What that entry comes to hold: the set added to the lanes it expects, or a new token with nobody arrived. -/
def State.tokenOpened (s : State) (t : TRef) (ms : List TRef) (rejoin : W64) (e : Nat) : Token :=
  if (s.tokenMatch t rejoin).isSome then
    { (s.waveOf t).token e with expected := ((s.waveOf t).token e).expected ||| s.lanes ms }
  else ⟨true, rejoin, (s.thread t).parent, s.lanes ms, 0⟩

theorem tokenOpened_match {s : State} {t : TRef} {ms : List TRef} {rejoin : W64} {e : Nat} (h : s.tokenMatch t rejoin = some e) :
    s.tokenOpened t ms rejoin e =
      { (s.waveOf t).token e with expected := ((s.waveOf t).token e).expected ||| s.lanes ms } :=
  if_pos (Option.isSome_of_eq_some h)
theorem tokenOpened_free {s : State} {t : TRef} {ms : List TRef} {rejoin : W64} {e : Nat} (h : s.tokenMatch t rejoin = none) :
    s.tokenOpened t ms rejoin e = ⟨true, rejoin, (s.thread t).parent, s.lanes ms, 0⟩ :=
  if_neg (by simp [h])

/-- A member one token deeper, that entry its innermost, at its next slot. -/
def State.deepen (e : Nat) (s : State) (t : TRef) : State :=
  (s.updThread t fun x => { x with depth := x.depth + 1, innermost := e }).settleLane t
    (.next (s.updThread t fun x => { x with depth := x.depth + 1, innermost := e }))

/-- A set whose checks pass writes the entry it joins, or a free one, and every member goes one deeper. -/
theorem openToken_entry {disp : BitVec 28} {s1 s : State} {t0 : TRef} {rest : List TRef} {g e : Nat} {w : W96} {tgt : W64}
    (hs : s = s1.unpark (t0 :: rest)) (htgt : tgt = immTarget (s.thread t0).pc disp) (hg : t0.group = some g)
    (hw : (s.target t0 tgt).word = some w) (hk : (headerOf w).kind = 1)
    (hd : ((t0 :: rest).all fun t => (s.thread t).depth != 15) = true) (hslot : (s.thread t0).slot.toNat < s1.gang.hdr.cnt)
    (he : ((s.tokenMatch t0 tgt).orElse fun _ => s.tokenFree t0) = some e) :
    s1.openToken disp (t0 :: rest) =
      (t0 :: rest).foldl (State.deepen e) ((s.target t0 tgt).st.updWave g (s.thread t0).wave fun w =>
        { w with tokens := w.tokens.set e (s.tokenOpened t0 (t0 :: rest) tgt e) }) := by
  have hgang : s.gang = s1.gang := hs ▸ s1.unpark_gang _
  have hdeep : ((t0 :: rest).filter fun t => (s.thread t).depth == 15) = [] :=
    List.filter_eq_nil_iff.2 fun t ht => by simpa using List.all_eq_true.1 hd t ht
  obtain ⟨s', hheader⟩ : ∃ s', s.target t0 tgt = .header w s' := ⟨_, target_of_word hw⟩
  have hlast : s.slotLast t0 = false := by simp [State.slotLast, hgang, hslot]
  subst htgt
  have hunpark : (t0 :: rest).foldl (fun s t => s.updThread t fun x => { x with park := .no }) s1 = s := hs.symm
  simp only [State.tokenOpened, State.tokenMatch, State.tokenFree, Thread.parent] at he ⊢
  simp only [State.openToken, hunpark, hheader, Target.isWait, hlast, hgang, hk, hdeep, hslot, he, hg]
  rfl

theorem tokOpen_team {c : Ctl} {disp : BitVec 28} {s s1 : State} {ms : List TRef} (hr : RunsAll c (.tokOpen c disp) s ms s1) :
    exec (.tokOpen c disp) s = .next (s1.openToken disp ms).tokenEnds := nativeAll_team _ hr

/-- Settles O4: an entry that matches is joined, and where none does a free one is made. -/
theorem tokenOpens : Obligations.TokenOpens := by
  refine ⟨?_, ?_⟩
  · intro c disp s s1 ms t0 rest g w e hr hms hg hw hk hd hslot hmatch
    subst hms
    have hfound : (s1.unpark (t0 :: rest)).tokenMatch t0 (immTarget ((s1.unpark (t0 :: rest)).thread t0).pc disp) = some e :=
      hmatch
    rw [tokOpen_team hr, openToken_entry rfl rfl hg hw hk hd hslot (by rw [hfound, Option.orElse_some]),
      tokenOpened_match hfound]
    rfl
  · intro c disp s s1 ms t0 rest g w e hr hms hg hw hk hd hslot hmatch hfree
    subst hms
    have hnone : (s1.unpark (t0 :: rest)).tokenMatch t0 (immTarget ((s1.unpark (t0 :: rest)).thread t0).pc disp) = none :=
      hmatch
    have hfree : (s1.unpark (t0 :: rest)).tokenFree t0 = some e := hfree
    rw [tokOpen_team hr, openToken_entry rfl rfl hg hw hk hd hslot (by rw [hnone, Option.orElse_none, hfree]),
      tokenOpened_free hnone]
    rfl

end Sys2Proof.Machine
end

section
/-! SUPPORT. Integer results: the exact value reduced or saturated once, and the carry chain (R60, R135, R139, R140). -/

namespace Sys2Proof.Machine

theorem tyWidth_pos (t : Ty) : 0 < tyWidth t := by cases t <;> decide
theorem tyWidth_le (t : Ty) : tyWidth t ≤ 64 := by cases t <;> decide

/-- Half of a type's values, and no more of them than a pair of registers holds. -/
theorem two_pow_tyWidth (t : Ty) : 2 ^ tyWidth t = 2 * 2 ^ (tyWidth t - 1) ∧ 2 ^ tyWidth t ≤ 2 ^ 64 :=
  ⟨(Nat.two_pow_pred_mul_two (tyWidth_pos t)).symm.trans (Nat.mul_comm _ _), Nat.pow_le_pow_right (by decide) (tyWidth_le t)⟩

/-- An exact integer modulo a type's width, as the value in the type's range. -/
def tyWrap (t : Ty) (z : Int) : Int := if tySigned t then z.bmod (2 ^ tyWidth t) else z % 2 ^ tyWidth t

/-- The integer that a written value is, read as the type. -/
def tyRead (t : Ty) (y : W64) : Int := if tySigned t then y.toInt else (y.toNat : Int)

def InRange (t : Ty) (z : Int) : Prop := tyMin t ≤ z ∧ z ≤ tyMax t

theorem inRange_iff (t : Ty) (z : Int) :
    InRange t z ↔ if tySigned t then -((2 ^ (tyWidth t - 1) : Nat) : Int) ≤ z ∧ z < (2 ^ (tyWidth t - 1) : Nat)
      else 0 ≤ z ∧ z < (2 ^ tyWidth t : Nat) := by
  cases h : tySigned t <;> simp [InRange, tyMin, tyMax, h]

theorem tyWrap_inRange (t : Ty) (z : Int) : InRange t (tyWrap t z) := by
  obtain ⟨hhalf, -⟩ := two_pow_tyWidth t
  have hpos : 0 < 2 ^ tyWidth t := Nat.two_pow_pos _
  rw [inRange_iff]
  cases h : tySigned t with
  | true =>
    have hlo := Int.le_bmod (x := z) hpos
    have hhi := Int.bmod_lt (x := z) hpos
    simp only [tyWrap, h, if_true]
    omega
  | false =>
    simp only [tyWrap, h, Bool.false_eq_true, if_false]
    exact ⟨Int.emod_nonneg _ (by positivity), mod_cast Int.emod_lt_of_pos z (mod_cast hpos)⟩

theorem tyWrap_of_inRange {t : Ty} {z : Int} (hz : InRange t z) : tyWrap t z = z := by
  obtain ⟨hhalf, -⟩ := two_pow_tyWidth t
  rw [inRange_iff] at hz
  cases h : tySigned t with
  | true =>
    simp only [h, if_true] at hz
    simp only [tyWrap, h, if_true]
    exact Int.bmod_eq_of_le (by omega) (by omega)
  | false =>
    simp only [h, Bool.false_eq_true, if_false] at hz
    simp only [tyWrap, h, Bool.false_eq_true, if_false]
    exact Int.emod_eq_of_lt hz.1 (mod_cast hz.2)

theorem tyRead_ofInt {t : Ty} {z : Int} (hz : InRange t z) : tyRead t (BitVec.ofInt 64 z) = z := by
  obtain ⟨hhalf, hle⟩ := two_pow_tyWidth t
  rw [inRange_iff] at hz
  cases h : tySigned t with
  | true =>
    simp only [h, if_true] at hz
    simp only [tyRead, h, if_true, BitVec.toInt_ofInt]
    exact Int.bmod_eq_of_le (by omega) (by omega)
  | false =>
    simp only [h, Bool.false_eq_true, if_false] at hz
    simp only [tyRead, h, Bool.false_eq_true, if_false, BitVec.toNat_ofInt]
    omega

/-- A source read at a type is the value of its low bits in the type's range (R135). -/
theorem intAt_ofInt (t : Ty) (z : Int) : intAt t (BitVec.ofInt 64 z) = tyWrap t z := by
  obtain ⟨hhalf, -⟩ := two_pow_tyWidth t
  have hlow : (((BitVec.ofInt 64 z).toNat % 2 ^ tyWidth t : Nat) : Int) = z % (2 ^ tyWidth t : Nat) := by
    rw [Int.natCast_emod, BitVec.toNat_ofInt, Int.toNat_of_nonneg (Int.emod_nonneg _ (by decide))]
    exact Int.emod_emod_of_dvd z (mod_cast Nat.pow_dvd_pow 2 (tyWidth_le t))
  have hcast : (2 : Int) ^ tyWidth t = (2 ^ tyWidth t : Nat) := by simp
  simp only [intAt, tyWrap, Int.bmod_def, hcast, ← hlow]
  cases tySigned t with
  | false => rfl
  | true =>
    simp only [Bool.true_and, decide_eq_true_eq, if_true]
    split <;> split <;> omega

theorem clampInt_eq {lo hi : Int} (h : lo ≤ hi) (z : Int) : clampInt lo hi z = max lo (min hi z) := by
  grind [clampInt]

theorem tyMin_le_tyMax (t : Ty) : tyMin t ≤ tyMax t := (tyWrap_inRange t 0).1.trans (tyWrap_inRange t 0).2

/-- An integer result, read as its type: the exact value, saturated or reduced once. -/
theorem tyRead_intRes (t : Ty) (sat : Bool) (z : Int) :
    tyRead t (intRes t sat z) = if sat then max (tyMin t) (min (tyMax t) z) else tyWrap t z := by
  rw [intRes, intAt_ofInt, tyRead_ofInt (tyWrap_inRange t _)]
  cases sat with
  | false => rfl
  | true =>
    have hle := tyMin_le_tyMax t
    rw [if_pos rfl, if_pos rfl, clampInt_eq hle]
    exact tyWrap_of_inRange ⟨le_max_left _ _, max_le hle (min_le_left _ _)⟩

/-- Settles O41: each of the five writes one integer result of its exact value. -/
theorem integerArithmetic : Obligations.IntegerArithmetic := by
  refine ⟨?_, ?_, ?_, ?_, ?_⟩
  · intro rd c ty sat d a b _ _
    exact ⟨_, rfl, tyRead_intRes ty sat _⟩
  · intro rd c ty sat d a b _ _
    exact ⟨_, rfl, tyRead_intRes ty sat _⟩
  · intro rd c ty sat d a b _ _
    exact ⟨_, rfl, tyRead_intRes ty sat _⟩
  · intro rd c ty sat d a b e _
    exact ⟨_, rfl, tyRead_intRes ty sat _⟩
  · intro rd c ty d a b _
    exact ⟨_, rfl, tyRead_intRes ty false _⟩

/-! The carry chain (R140). -/

theorem wrTy_narrow {t : Ty} (ht : tyWide t = false) (d : Operand) (x : W64) : wrTy t d x = wrReg d (x.extractLsb' 0 32) := by
  cases d <;> simp [wrTy, wrReg, ht]

theorem extractLsb'_ofInt {v w : Nat} (h : v ≤ w) (z : Int) : (BitVec.ofInt w z).extractLsb' 0 v = BitVec.ofInt v z := by
  have hdvd : ((2 ^ v : Nat) : Int) ∣ (2 ^ w : Nat) := mod_cast Nat.pow_dvd_pow 2 h
  refine BitVec.eq_of_toInt_eq ?_
  rw [← BitVec.setWidth_eq_extractLsb' h, BitVec.toInt_setWidth, BitVec.toNat_ofInt, BitVec.toInt_ofInt,
    Int.toNat_of_nonneg (Int.emod_nonneg _ (by positivity)), ← Int.emod_bmod, Int.emod_emod_of_dvd _ hdvd, Int.emod_bmod]

/-- A 32-bit result is the low word of the exact value. -/
theorem wrTy_intRes_n32 (d : Operand) (z : Int) : wrTy .n32 d (intRes .n32 false z) = wrReg d (BitVec.ofInt 32 z) := by
  have hwrap : BitVec.ofInt 32 (tyWrap .n32 z) = BitVec.ofInt 32 z :=
    BitVec.eq_of_toInt_eq (by rw [BitVec.toInt_ofInt, BitVec.toInt_ofInt]; exact Int.emod_bmod z (2 ^ 32))
  rw [wrTy_narrow rfl, intRes, intAt_ofInt, extractLsb'_ofInt (by decide), if_neg Bool.false_ne_true, hwrap]

/-- What a carry field names: 7 is a carry-in of 0. -/
def carryIn (rd : Reader) (ci : BitVec 3) : Bool := if ci = 7 then false else rdP rd (.p ci)

theorem carry_eq (rd : Reader) (ci : BitVec 3) : carry rd ci = (carryIn rd ci).toInt := by
  unfold carry carryIn
  split
  · rfl
  · cases rdP rd (.p ci) <;> rfl

theorem intAt_n32_zeroExtend (x : W32) : intAt .n32 (x.zeroExtend 64) = x.toNat := by
  have := x.isLt
  simp [intAt, tySigned, tyWidth]
  omega

theorem rdInt_n32 {rd : Reader} {a : Operand} (ha : rd .n32 a = (rd32 rd a).zeroExtend 64) :
    rdInt rd .n32 a = (rd32 rd a).toNat := by
  rw [rdInt, ha, intAt_n32_zeroExtend]

/-- The 33 bits of a sum with its carry: the word that is written, and whether it reaches 2^32. -/
theorem ofInt_sum (a b : W32) (k : Bool) :
    BitVec.ofInt 33 (a.toNat + b.toNat + k.toInt) = a.zeroExtend 33 + b.zeroExtend 33 + (BitVec.ofBool k).zeroExtend 33 := by
  cases k <;> simp [BitVec.ofInt_add, BitVec.ofInt_natCast]

theorem msb_ofInt_sum (a b : W32) (k : Bool) :
    (BitVec.ofInt 33 (a.toNat + b.toNat + k.toInt)).msb = decide (2 ^ 32 ≤ (a.toNat + b.toNat + k.toInt : Int)) := by
  have ha := a.isLt
  have hb := b.isLt
  have hk : 0 ≤ k.toInt ∧ k.toInt ≤ 1 := by cases k <;> decide
  rw [BitVec.msb_eq_decide, BitVec.toNat_ofInt]
  congr 1
  rw [eq_iff_iff]
  omega

/-- The 33 bits of a difference with its borrow: the word that is written, and whether it falls below 0. -/
theorem ofInt_difference (a b : W32) (k : Bool) :
    BitVec.ofInt 33 (a.toNat - b.toNat - k.toInt) = a.zeroExtend 33 - b.zeroExtend 33 - (BitVec.ofBool k).zeroExtend 33 := by
  cases k <;> simp [Int.sub_eq_add_neg, BitVec.sub_eq_add_neg, BitVec.ofInt_add, BitVec.ofInt_natCast, BitVec.ofInt_neg]

theorem msb_ofInt_difference (a b : W32) (k : Bool) :
    (BitVec.ofInt 33 (a.toNat - b.toNat - k.toInt)).msb = decide ((a.toNat - b.toNat - k.toInt : Int) < 0) := by
  have ha := a.isLt
  have hb := b.isLt
  have hk : 0 ≤ k.toInt ∧ k.toInt ≤ 1 := by cases k <;> decide
  rw [BitVec.msb_eq_toInt, BitVec.toInt_ofInt, Int.bmod_eq_of_le (by omega) (by omega)]

/-- Settles O43: the exact value's 33 bits hold both the word and the carry or borrow. -/
theorem carryChain : Obligations.CarryChain := by
  refine ⟨?_, ?_⟩
  · intro rd c ci co d a b z hz ha hb
    have hz : z = BitVec.ofInt 33 ((rd32 rd a).toNat + (rd32 rd b).toNat + (carryIn rd ci).toInt) :=
      hz.trans (ofInt_sum _ _ _).symm
    rw [aluWrites, rdInt_n32 ha, rdInt_n32 hb, carry_eq, hz, extractLsb'_ofInt (by decide), msb_ofInt_sum]
    simp only [wrTy_intRes_n32]
  · intro rd c ci co d a b z hz ha hb
    have hz : z = BitVec.ofInt 33 ((rd32 rd a).toNat - (rd32 rd b).toNat - (carryIn rd ci).toInt) :=
      hz.trans (ofInt_difference _ _ _).symm
    rw [aluWrites, rdInt_n32 ha, rdInt_n32 hb, carry_eq, hz, extractLsb'_ofInt (by decide), msb_ofInt_difference]
    simp only [wrTy_intRes_n32]

end Sys2Proof.Machine
end

section
/-! SUPPORT. Shifts, bit fields and bit counts (R143 to R145). -/

namespace Sys2Proof.Machine

/-! Shifts: each by the width of its type (R143). -/

theorem shlAt_eq (t : Ty) (x : BitVec (tyWidth t)) (n : Nat) : shlAt t x.toNat n = (x <<< n).toNat := by
  unfold shlAt
  split
  next => rw [BitVec.toNat_shiftLeft, Nat.shiftLeft_eq]
  next h => rw [BitVec.shiftLeft_eq_zero (Nat.not_lt.1 h)]; rfl

theorem shrAt_eq (t : Ty) (x : BitVec (tyWidth t)) (n : Nat) : shrAt t x.toNat n = (x >>> n).toNat := by
  unfold shrAt
  split
  next => rw [BitVec.toNat_ushiftRight, Nat.shiftRight_eq_div_pow]
  next h => rw [BitVec.ushiftRight_eq_zero (Nat.not_lt.1 h)]; rfl

/-- The sign bits that a shift of a negative value to the right brings in. -/
theorem not_div_not {w n x : Nat} (hn : n ≤ w) (hx : x < 2 ^ w) :
    2 ^ w - 1 - (2 ^ w - 1 - x) / 2 ^ n = x / 2 ^ n + (2 ^ w - 2 ^ (w - n)) := by
  have hw : 2 ^ n * 2 ^ (w - n) = 2 ^ w := by rw [← Nat.pow_add, Nat.add_sub_cancel' hn]
  have hq : x / 2 ^ n < 2 ^ (w - n) := Nat.div_lt_of_lt_mul (hw ▸ hx)
  have hle : 2 ^ (w - n) ≤ 2 ^ w := Nat.pow_le_pow_right (by decide) (Nat.sub_le _ _)
  have hdiv : (2 ^ w - (x + 1)) / 2 ^ n = 2 ^ (w - n) - (x / 2 ^ n + 1) := by
    rw [← hw, Nat.mul_sub_div _ _ _ (hw ▸ hx)]
  have hle' : 2 ^ (w - n) - (x / 2 ^ n + 1) + (x / 2 ^ n + 1) = 2 ^ (w - n) := Nat.sub_add_cancel hq
  rw [Nat.sub_sub (2 ^ w) 1 x, Nat.add_comm 1 x, hdiv]
  generalize x / 2 ^ n = q at *
  omega

theorem sraAt_eq (t : Ty) (x : BitVec (tyWidth t)) (n : Nat) : sraAt t x.toNat n = (x.sshiftRight n).toNat := by
  have hlt := x.isLt
  rw [BitVec.toNat_sshiftRight, BitVec.msb_eq_decide, sraAt, Nat.shiftRight_eq_div_pow, Nat.shiftRight_eq_div_pow]
  by_cases hneg : x.toNat < 2 ^ (tyWidth t - 1)
  · have hmsb : ¬ 2 ^ (tyWidth t - 1) ≤ x.toNat := Nat.not_le.2 hneg
    simp only [hneg, hmsb, if_true, decide_false, Bool.false_eq_true, if_false]
    split
    next => rfl
    next h => rw [Nat.div_eq_of_lt (hlt.trans_le (Nat.pow_le_pow_right (by decide) (Nat.not_lt.1 h)))]
  · have hmsb : 2 ^ (tyWidth t - 1) ≤ x.toNat := Nat.not_lt.1 hneg
    simp only [hneg, hmsb, if_false, decide_true, if_true]
    split
    next h => rw [not_div_not h.le hlt]
    next h =>
      have hpow : 2 ^ tyWidth t ≤ 2 ^ n := Nat.pow_le_pow_right (by decide) (Nat.not_lt.1 h)
      rw [Nat.div_eq_of_lt (by omega), Nat.sub_zero]

theorem rotAt_eq (t : Ty) (x : BitVec (tyWidth t)) (n : Nat) : rotAt t x.toNat n = (x.rotateLeft n).toNat := by
  have hr : n % tyWidth t ≤ tyWidth t := (Nat.mod_lt n (tyWidth_pos t)).le
  have hpow : 2 ^ (tyWidth t - n % tyWidth t) * 2 ^ (n % tyWidth t) = 2 ^ tyWidth t := by
    rw [← Nat.pow_add, Nat.sub_add_cancel hr]
  have hlow : x.toNat / 2 ^ (tyWidth t - n % tyWidth t) < 2 ^ (n % tyWidth t) :=
    Nat.div_lt_of_lt_mul (hpow.symm ▸ x.isLt)
  have hhigh : x.toNat * 2 ^ (n % tyWidth t) % 2 ^ tyWidth t =
      (x.toNat % 2 ^ (tyWidth t - n % tyWidth t)) <<< (n % tyWidth t) := by
    rw [Nat.shiftLeft_eq, ← hpow, Nat.mul_mod_mul_right]
  rw [BitVec.toNat_rotateLeft, Nat.shiftLeft_eq, Nat.shiftRight_eq_div_pow, hhigh, ← Nat.shiftLeft_add_eq_or_of_lt hlow,
    ← hhigh]
  rfl

/-- A shift or rotation that is one of the type's width, as what it writes. -/
theorem opSh_b32 {rd : Reader} {d a b : Operand} {f : Ty → Nat → Nat → Nat} {g : W32 → Nat → W32}
    (hf : ∀ (x : W32) n, f .b32 x.toNat n = (g x n).toNat) :
    opSh rd .b32 d a b f = wrTy .b32 d (BitVec.zeroExtend 64 (g ((rd .b32 a).extractLsb' 0 32) (rd32 rd b).toNat)) := by
  have hx : (rd .b32 a).toNat % 2 ^ 32 = ((rd .b32 a).extractLsb' 0 32).toNat := by
    rw [BitVec.extractLsb'_toNat, Nat.shiftRight_zero]
  rw [opSh, show tyWidth .b32 = 32 from rfl, hx, hf, BitVec.ofNat_toNat]

theorem opSh_b64 {rd : Reader} {d a b : Operand} {f : Ty → Nat → Nat → Nat} {g : W64 → Nat → W64}
    (hf : ∀ (x : W64) n, f .b64 x.toNat n = (g x n).toNat) :
    opSh rd .b64 d a b f = wrTy .b64 d (g (rd .b64 a) (rd32 rd b).toNat) := by
  rw [opSh, show tyWidth .b64 = 64 from rfl, Nat.mod_eq_of_lt (rd .b64 a).isLt, hf, BitVec.ofNat_toNat, BitVec.setWidth_eq]

/-! Bit fields (R144). -/

theorem fieldPos_eq (ctl : W32) : fieldPos ctl = ctl.toNat % 256 := by
  rw [fieldPos, BitVec.extractLsb'_toNat, Nat.shiftRight_zero]

theorem fieldLen_eq (ctl : W32) : fieldLen ctl = min (ctl.toNat / 256 % 256) 32 := by
  rw [fieldLen, BitVec.extractLsb'_toNat, Nat.shiftRight_eq_div_pow]

/-- Bits of an insertion: the field's bits come from the source, the others stay. -/
theorem bfiVal_getLsbD (a ctl c : W32) {i : Nat} (hi : i < 32) :
    (bfiVal a ctl c).getLsbD i =
      if fieldPos ctl ≤ i ∧ i < fieldPos ctl + fieldLen ctl then a.getLsbD (i - fieldPos ctl) else c.getLsbD i := by
  have hmask : (BitVec.ofNat 32 ((2 ^ fieldLen ctl - 1) * 2 ^ fieldPos ctl)).getLsbD i =
      decide (fieldPos ctl ≤ i ∧ i < fieldPos ctl + fieldLen ctl) := by
    rw [BitVec.getLsbD_ofNat, Nat.testBit_mul_two_pow, Nat.testBit_two_pow_sub_one]
    grind
  simp only [bfiVal, BitVec.getLsbD_or, BitVec.getLsbD_and, BitVec.getLsbD_not, BitVec.getLsbD_shiftLeft, hmask, hi]
  grind

/-- The source of an extraction, extended past every bit that a position and a length can name. -/
def bfeWide (signed : Bool) (a : W32) : BitVec 320 := if signed then a.signExtend 320 else a.zeroExtend 320

theorem bfeWide_getLsbD (signed : Bool) (a : W32) {i : Nat} (hi : i < 320) :
    (bfeWide signed a).getLsbD i = if i < 32 then a.getLsbD i else signed && a.getLsbD 31 := by
  cases signed with
  | true => rw [bfeWide, if_pos rfl, BitVec.getLsbD_signExtend, BitVec.msb_eq_getLsbD_last, decide_eq_true hi]; rfl
  | false =>
    have hout : 32 ≤ i → a.getLsbD i = false := BitVec.getLsbD_of_ge a i
    rw [bfeWide, if_neg Bool.false_ne_true, BitVec.getLsbD_setWidth, decide_eq_true hi]
    grind

/-- Bit `i` of the field that a control word names. -/
def bfeBit (signed : Bool) (a ctl : W32) (i : Nat) : Bool :=
  if fieldPos ctl + i < 32 then a.getLsbD (fieldPos ctl + i) else signed && a.getLsbD 31

/-- The field itself. -/
def bfeField (signed : Bool) (a ctl : W32) : BitVec (fieldLen ctl) :=
  (bfeWide signed a >>> fieldPos ctl).setWidth (fieldLen ctl)

theorem fieldLen_le (ctl : W32) : fieldLen ctl ≤ 32 := Nat.min_le_right _ _

theorem bfeField_getLsbD (signed : Bool) (a ctl : W32) {i : Nat} (hi : i < fieldLen ctl) :
    (bfeField signed a ctl).getLsbD i = bfeBit signed a ctl i := by
  have hlen := fieldLen_le ctl
  have hpos : fieldPos ctl < 256 := (ctl.extractLsb' 0 8).isLt
  rw [bfeField, BitVec.getLsbD_setWidth, BitVec.getLsbD_ushiftRight, bfeWide_getLsbD signed a (by omega), bfeBit,
    decide_eq_true hi, Bool.true_and]

theorem signExtend_eq_ofNat {v w : Nat} (h : v ≤ w) (x : BitVec v) :
    x.signExtend w = BitVec.ofNat w (if 2 ^ (v - 1) ≤ x.toNat then x.toNat + (2 ^ w - 2 ^ v) else x.toNat) := by
  have hlt := x.isLt
  have hpow : 2 ^ v ≤ 2 ^ w := Nat.pow_le_pow_right (by decide) h
  refine BitVec.eq_of_toNat_eq ?_
  rw [BitVec.toNat_signExtend, BitVec.toNat_setWidth_of_le h, BitVec.msb_eq_decide, BitVec.toNat_ofNat, Nat.mod_eq_of_lt]
  · simp only [decide_eq_true_eq]
    split <;> rfl
  · split <;> omega

/-- A field of some length comes out extended to the register's width. -/
theorem bfeVal_eq (signed : Bool) {a ctl : W32} (hlen : fieldLen ctl ≠ 0) :
    bfeVal signed a ctl =
      if signed then (bfeField signed a ctl).signExtend 32 else (bfeField signed a ctl).zeroExtend 32 := by
  have hval : bfeVal signed a ctl = BitVec.ofNat 32
      (if signed && 2 ^ (fieldLen ctl - 1) ≤ (bfeField signed a ctl).toNat then
        (bfeField signed a ctl).toNat + (2 ^ 32 - 2 ^ fieldLen ctl)
      else (bfeField signed a ctl).toNat) := by
    rw [bfeVal, if_neg hlen, bfeField, BitVec.toNat_setWidth]
    rfl
  rw [hval]
  cases signed with
  | true => simp only [Bool.true_and, decide_eq_true_eq, if_true, signExtend_eq_ofNat (fieldLen_le ctl)]
  | false => exact BitVec.ofNat_toNat 32 _

theorem bfeVal_getLsbD (signed : Bool) (a ctl : W32) {i : Nat} (hi : i < 32) :
    (bfeVal signed a ctl).getLsbD i =
      if fieldLen ctl = 0 then false
      else if i < fieldLen ctl then bfeBit signed a ctl i
      else signed && bfeBit signed a ctl (fieldLen ctl - 1) := by
  split
  next h => simp [bfeVal, h]
  next h =>
    have hlast : (bfeField signed a ctl).msb = bfeBit signed a ctl (fieldLen ctl - 1) := by
      rw [BitVec.msb_eq_getLsbD_last, bfeField_getLsbD signed a ctl (by omega)]
    rw [bfeVal_eq signed h]
    cases signed with
    | true =>
      rw [if_pos rfl, BitVec.getLsbD_signExtend, decide_eq_true hi, hlast]
      split
      next hlt => rw [bfeField_getLsbD _ a ctl hlt, Bool.true_and]
      next => rfl
    | false =>
      rw [if_neg Bool.false_ne_true, BitVec.getLsbD_setWidth, decide_eq_true hi]
      split
      next hlt => rw [bfeField_getLsbD _ a ctl hlt, Bool.true_and]
      next hge => rw [BitVec.getLsbD_of_ge _ _ (Nat.not_lt.1 hge)]; rfl

/-! Counts of bits, and their reversal (R145). -/

theorem getLsbD_eq_testBit_mod {w i : Nat} (hi : i < w) (x : W64) : x.getLsbD i = (x.toNat % 2 ^ w).testBit i := by
  rw [Nat.testBit_mod_two_pow, decide_eq_true hi]
  rfl

/-- The bits above the highest 1 bit of a value are counted, and are 0. -/
theorem clzAt_spec {w : Nat} (x : W64) :
    clzAt w x ≤ w ∧ (∀ i, w ≤ i + clzAt w x → i < w → x.getLsbD i = false) ∧
      (clzAt w x < w → x.getLsbD (w - 1 - clzAt w x) = true) := by
  unfold clzAt
  by_cases hn : x.toNat % 2 ^ w = 0
  · simp only [hn, if_true]
    refine ⟨le_rfl, fun i _ hi => ?_, fun h => absurd h (lt_irrefl _)⟩
    rw [getLsbD_eq_testBit_mod hi, hn, Nat.zero_testBit]
  · simp only [hn, if_false]
    have hlog : (x.toNat % 2 ^ w).log2 < w := (Nat.log2_lt hn).2 (Nat.mod_lt _ (Nat.two_pow_pos w))
    refine ⟨by omega, fun i hi hiw => ?_, fun h => ?_⟩
    · rw [getLsbD_eq_testBit_mod hiw]
      exact Nat.testBit_lt_two_pow ((Nat.log2_lt hn).1 (by omega))
    · rw [show w - 1 - (w - 1 - (x.toNat % 2 ^ w).log2) = (x.toNat % 2 ^ w).log2 by omega, getLsbD_eq_testBit_mod hlog]
      exact Nat.testBit_log2 hn

/-- Bits set one by one from the lowest, each under its own condition. -/
theorem getLsbD_foldl_range {w : Nat} (f : Nat → Bool) {n : Nat} (hn : n ≤ w) (i : Nat) :
    ((List.range n).foldl (fun acc j => if f j then acc ||| (1 : BitVec w) <<< j else acc) 0).getLsbD i =
      (decide (i < n) && f i) := by
  induction n with
  | zero => simp
  | succ n ih =>
    have hone : (1 : BitVec w) <<< n = BitVec.twoPow w n := (BitVec.twoPow_eq w n).symm
    rw [List.range_succ, List.foldl_append, List.foldl_cons, List.foldl_nil]
    cases hf : f n with
    | true =>
      rw [if_pos rfl, BitVec.getLsbD_or, ih (by omega), hone, BitVec.getLsbD_twoPow, decide_eq_true (show n < w from hn)]
      grind
    | false =>
      rw [if_neg Bool.false_ne_true, ih (by omega)]
      grind

theorem brevAt_getLsbD {w : Nat} (hw : w ≤ 64) (x : W64) {i : Nat} (hi : i < w) :
    (brevAt w x).getLsbD i = x.getLsbD (w - 1 - i) := by
  rw [brevAt, getLsbD_foldl_range (fun i => x.getLsbD (w - 1 - i)) hw, decide_eq_true hi, Bool.true_and]

/-- Settles O42, by the bits of what each form writes. -/
theorem shiftsAndBitFields : Obligations.ShiftsAndBitFields := by
  refine ⟨?_, ?_, ?_, ?_, ?_, ?_, ?_, ?_, ?_, ?_, ?_, ?_, ?_⟩
  · exact fun rd c d a b => congrArg some (opSh_b32 (shlAt_eq .b32))
  · exact fun rd c d a b => congrArg some (opSh_b64 (shlAt_eq .b64))
  · exact fun rd c d a b => congrArg some (opSh_b32 (shrAt_eq .b32))
  · exact fun rd c d a b => congrArg some (opSh_b64 (shrAt_eq .b64))
  · exact fun rd c d a b => congrArg some (opSh_b32 (g := fun x n => x.sshiftRight n) (sraAt_eq .b32))
  · exact fun rd c d a b => congrArg some (opSh_b64 (g := fun x n => x.sshiftRight n) (sraAt_eq .b64))
  · exact fun rd c d a b => congrArg some (opSh_b32 (g := fun x n => x.rotateLeft n) (rotAt_eq .b32))
  · exact fun rd c d a b => congrArg some (opSh_b64 (g := fun x n => x.rotateLeft n) (rotAt_eq .b64))
  · intro rd c d a b e
    refine ⟨_, rfl, fun i hi => ?_⟩
    rw [bfiVal_getLsbD _ _ _ hi, fieldPos_eq, fieldLen_eq]
  · intro rd c ty d a b _
    refine ⟨_, bfeBit (ty == .i32) (rd32 rd a) (rd32 rd b), rfl, fun i => ?_, fun i hi => ?_⟩
    · rw [bfeBit, fieldPos_eq]
    · rw [bfeVal_getLsbD _ _ _ hi, fieldLen_eq]
  · intro rd c ty d a _
    rw [aluWrites, popcount, List.countP_eq_length_filter]
  · intro rd c ty d a _
    obtain ⟨hle, hzeros, hone⟩ := clzAt_spec (w := tyWidth ty) (rd ty a)
    exact ⟨_, hle, rfl, hzeros, hone⟩
  · intro rd c ty d a _
    exact ⟨_, rfl, fun i hi => brevAt_getLsbD (tyWidth_le ty) _ hi⟩

end Sys2Proof.Machine
end

section
/-! SUPPORT. A wave collective of a gathered set that waits for nothing (R161 to R166). -/

namespace Sys2Proof.Machine

/-- A gathered set each of whose members names its own lane and waits for nothing goes on whole, its results made from all. -/
theorem collective_team {c : Ctl} {i : Instr} {mask d : Operand} {n : Nat} {s s1 : State} {ms : List TRef}
    (out : State → List TRef → TRef → List Wr) (hr : RunsAll c i s ms s1)
    (hmask : (ms.all fun t => (s1.parkMask t mask).getLsbD (s1.thread t).lane) = true)
    (hready : (ms.any fun t => s1.flagFull t c || s1.destLocked t d n || (s1.advance t).isWait) = false) :
    collective c i mask d n out s = .next (s1.endsAll c ms (out s1 ms)) := by
  have hodd : (ms.filter fun t => !(s1.parkMask t mask).getLsbD (s1.thread t).lane) = [] :=
    List.filter_eq_nil_iff.2 fun t ht => by simpa using List.all_eq_true.1 hmask t ht
  have hall : (ms.filter fun t => (s1.parkMask t mask).getLsbD (s1.thread t).lane) = ms :=
    List.filter_eq_self.2 fun t ht => List.all_eq_true.1 hmask t ht
  refine (nativeAll_team _ hr).trans ?_
  simp only [hready, Bool.false_eq_true, if_false, hodd, hall, List.foldl_nil, State.endsAll]

/-- Settles O10: the seven are collectives, each with its own table of results. -/
theorem collectivesComplete : Obligations.CollectivesComplete := by
  refine ⟨?_, ?_, ?_, ?_, ?_, ?_, ?_⟩
  · intro c ty mode seg koff d a b e s s1 ms hr hmask hready
    show execShfl c ty mode seg koff d a b e s = _
    rw [execShfl]
    exact collective_team _ hr hmask hready
  · intro c mode d a b s s1 ms hr hmask hready
    show execVote c mode d a b s = _
    rw [execVote]
    exact collective_team _ hr hmask hready
  · intro c ty d a b s s1 ms hr hmask hready
    show execMatchv c ty d a b s = _
    rw [execMatchv]
    exact collective_team _ hr hmask hready
  · intro c ty rnd op d a b s s1 ms hr hmask hready
    show execWred c ty rnd op d a b s = _
    rw [execWred]
    exact collective_team _ hr hmask hready
  · intro c ty d a b e s s1 ms hr hmask hready
    show execWmaxi c ty d a b e s = _
    rw [execWmaxi]
    exact collective_team _ hr hmask hready
  · intro c ty rnd op excl d a b s s1 ms hr hmask hready
    show execWscan c ty rnd op excl d a b s = _
    rw [execWscan]
    exact collective_team _ hr hmask hready
  · intro c d a s s1 ms hr hmask hready
    show execElect c d a s = _
    rw [execElect]
    exact collective_team _ hr hmask hready

end Sys2Proof.Machine
end

section
/-! SUPPORT. One thread's issue by what its lane comes to, and loads of many elements (R178 to R180). -/

namespace Sys2Proof.Machine

/-- One thread's issue past every check, by what its lane comes to. -/
theorem native_lane {c : Ctl} {i : Instr} {s s1 : State} {t : TRef} {f : State → TRef → Lane} {l : Lane}
    (hr : Runs c i s t s1) (h : f s1 t = l) : native c i s f = .next (s1.endsWith t l) := h ▸ native_solo f hr

theorem native_done {c : Ctl} {i : Instr} {s s1 s2 : State} {t : TRef} {f : State → TRef → Lane}
    (hr : Runs c i s t s1) (h : f s1 t = .next s2) : native c i s f = .next (s1.ends t s2) := native_lane hr h

/-- An element still to load reads a scratchpad range that something in flight holds. -/
def State.elemsHeld (s : State) (t : TRef) (elems : List (List Part)) : Bool :=
  elems.any fun ps => ps.any fun x => match x.at_ with | .spad core o => s.spadReadHeld t core o x.len | _ => false

section
variable {s : State} {t : TRef} {c : Ctl} {l1 : Bool} {n size dst : Nat} {look : State → Nat → Elem × State}

/-- Once `%prog` has reached the element count the instruction is over. -/
theorem doElems_over (h : n ≤ (s.thread t).prog.toNat) :
    s.doElems t c l1 n size dst look = .next (s.updThread t fun x => { x with prog := 0 }) := if_pos h

/-- With elements left, none of which faults or is held, they are begun as one read, whose thread waits for it or goes on. -/
theorem doElems_begin {s' s2 : State} {parts : List (List Part)} (h : (s.thread t).prog.toNat < n)
    (hscan : State.elemScan look (n - (s.thread t).prog.toNat) (s.thread t).prog.toNat s [] = (s', parts, none))
    (hquant : s'.quantHeld t parts.flatten = false) (hspad : s.elemsHeld t parts = false)
    (hs2 : s'.beginLoad t c l1 parts.flatten (.elems (dst + (s.thread t).prog.toNat * (size / 4))
      (if size == 8 then .b64 else .b32) (n - (s.thread t).prog.toNat)) [] none = s2) :
    s.doElems t c l1 n size dst look =
      if !(s.ctx t).quant && s.flip [0x403] then .stay (s2.waitFor t s'.nextId)
      else .next (s2.updThread t fun x => { x with prog := 0 }) := by
  have hgo : ¬ (s'.quantHeld t parts.flatten || s.elemsHeld t parts) = true := by simp only [hquant, hspad]; decide
  simp only [State.doElems, hscan, hs2]
  exact (if_neg (Nat.not_le.2 h)).trans (if_neg hgo)

end

/-- A scan that met no fault, as its three parts. -/
theorem elemScan_clean {r : State × List (List Part) × Option (Nat × Nat × W64)} (h : r.2.2 = none) :
    r = (r.1, r.2.1, none) := by
  rw [← h]

/-- Settles O12: both are loads by element, each with the addresses of its own elements. -/
theorem longLoadsComplete : Obligations.LongLoadsComplete := by
  refine ⟨?_, ?_, ?_, ?_⟩
  · intro c ty fresh bs cnt d a b off s s1 t hr hheld hover
    refine native_done hr ?_
    simp only [hheld, Bool.false_eq_true, if_false]
    exact doElems_over hover
  · intro c ty fresh bs cnt d a b off s s1 t hr hheld hleft hclean hquant hspad
    refine native_lane hr ?_
    simp only [hheld, Bool.false_eq_true, if_false]
    exact doElems_begin hleft (elemScan_clean hclean) hquant hspad rfl
  · intro c sp fresh cnt d a off s s1 t hr hheld hover
    refine native_done hr ?_
    simp only [hheld, Bool.false_eq_true, if_false]
    exact doElems_over hover
  · intro c sp fresh cnt d a off s s1 t hr hheld hleft hclean hquant hspad
    refine native_lane hr ?_
    simp only [hheld, Bool.false_eq_true, if_false]
    exact doElems_begin hleft (elemScan_clean hclean) hquant hspad rfl

end Sys2Proof.Machine
end

section
/-! SUPPORT. Waits and atomics of one thread (R189, R271 to R275). -/

namespace Sys2Proof.Machine

theorem access_of_range {x : Access} {r : Range} (hok : x.isOk = true) (hrs : x.rs = [r]) : x = .ok [r] x.st :=
  (access_of_isOk hok).trans (by rw [hrs])

section
variable {s s' : State} {t : TRef} {c : Ctl} {ty : Ty} {op : AtomOp} {order : AtomOrder} {sc : Scope} {a b e : Operand}
  {off : BitVec 12} {n : Nat} {write : Bool} {r : Range}

/-- An aligned word whose access passes over one range, in homes 0x0 to 0x7, is handed on (R189, R271). -/
theorem withRange_device {f : Range → State → Lane} (halign : (s.addr t a off).toNat % n = 0)
    (hpass : s.access t (s.addr t a off) n write false [(s.addr t a off).toNat] = .ok [r] s') (hdev : paDevice r.pa = true) :
    s.withRange t a off n write f = f r s' := by
  simp only [State.withRange, halign, hpass, hdev, bne_self_eq_false, Bool.false_eq_true, if_false, if_true]

/-- Outside quantum mode a waiting instruction is looked at as it issues (R90). -/
theorem queueWait_plain {l : Lane} (h : (s.ctx t).quant = false) : s.queueWait t l = l := by
  simp only [State.queueWait, h, Bool.false_and, Bool.false_eq_true, if_false]

/-- `atom` with its destination, and `red` without one, past what may hold them: the operation is sent. -/
theorem doAtom_sends {d : Option Operand} (hopen : (s.acqOpenLoad t || s.coreFull (s.ctx t).core) = false)
    (hdst : (d.any fun d => s.flagFull t c || s.destLocked t d (tyRegs ty)) = false) (hcallee : (s.ctx t).callee = false)
    (halign : (s.addr t a (if op == .cas then 0 else off)).toNat % atomBytes ty = 0)
    (hpass : s.access t (s.addr t a (if op == .cas then 0 else off)) (atomBytes ty) true false
      [(s.addr t a (if op == .cas then 0 else off)).toNat] = .ok [r] s') (hdev : paDevice r.pa = true) :
    s.doAtom t c ty op order sc d a b e off =
      .next (s'.sendAtomic t c (s.addr t a (if op == .cas then 0 else off)) (atomBytes ty)
        (.atomic s.tick ⟨op, ty, r.pa, s.src t ty b, s.src t ty e, r.bypass⟩ (d.map opNum)) order sc d.isSome) := by
  have hgo : (s.acqOpenLoad t || s.coreFull (s.ctx t).core || d.any fun d => s.flagFull t c || s.destLocked t d (tyRegs ty))
      = false := by rw [hopen, hdst, Bool.or_false]
  unfold State.doAtom
  rw [withRange_device halign hpass hdev]
  simp only [hcallee, Bool.false_eq_true, if_false]
  cases d with
  | none => exact if_neg (Bool.eq_false_iff.1 hgo)
  | some d => exact if_neg (Bool.eq_false_iff.1 hgo)

end

/-- Settles O17: each of the four hands its word on to the wait or the operation that it begins. -/
theorem waitsAndAtomicsComplete : Obligations.WaitsAndAtomicsComplete := by
  refine ⟨?_, ?_, ?_, ?_⟩
  · intro c ty acq scope d a b off s s1 t r hr hquant hheld halign hok hrs hdev
    refine native_lane hr ?_
    simp only [queueWait_plain hquant, hheld, Bool.false_eq_true, if_false, State.withWord,
      withRange_device halign (access_of_range hok hrs) hdev, hquant, Bool.not_false, Bool.and_true]
  · intro c ty op order scope d a b e off s s1 t r hr hheld halign hok hrs hdev
    obtain ⟨hopen, hdst⟩ := Bool.or_eq_false_iff.1 hheld
    exact native_done hr (doAtom_sends hopen hdst (runs_callee hr) halign (access_of_range hok hrs) hdev)
  · intro c ty op order scope a b off s s1 t r hr hopen halign hok hrs hdev
    exact native_done hr (doAtom_sends hopen rfl (runs_callee hr) halign (access_of_range hok hrs) hdev)
  · intro c routine args res d a b off s s1 t r hr hheld halign hok hrs hdev
    refine native_done hr ?_
    simp only [hheld, Bool.false_eq_true, if_false, withRange_device halign (access_of_range hok hrs) hdev]

end Sys2Proof.Machine
end

section
/-! SUPPORT. Scratchpad atomics and queues of one thread (R185, R188, R191 to R194). -/

namespace Sys2Proof.Machine

/-- An aligned object that lies in the thread's scratchpad: what may write it waits for the releases before it (R83, R185). -/
theorem withSpad_placed {s : State} {t : TRef} {a : Operand} {off : BitVec 12} {align len : Nat} {write : Bool} {G : Group}
    {core o : Nat} {f : State → Group → Nat → Nat → Lane} (halign : (s.spadAddr t a off).toNat % align = 0)
    (hplace : s.spadPlace t (s.spadAddr t a off) len = some (G, core, o)) (hrel : write = true → s.relHeld t = false) :
    s.withSpad t a off align len write f = f (if write then s.relFlush t else s) G core o := by
  have hgo : (write && s.relHeld t) = false := by
    cases write with
    | false => rfl
    | true => exact hrel rfl
  simp only [State.withSpad, halign, hplace, hgo, bne_self_eq_false, Bool.false_eq_true, if_false]

section
variable {s : State} {t : TRef} {a : Operand} {off : BitVec 12} {align len core o : Nat} {f : State → Nat → Nat → Lane}
  (halign : (s.spadAddr t a off).toNat % align = 0)
  (hplace : (s.spadPlace t (s.spadAddr t a off) len).map (·.2) = some (core, o))
include halign hplace

theorem withSpad_toRead : (s.withSpad t a off align len false fun s _ core o => f s core o) = f s core o := by
  obtain ⟨⟨G, core', o'⟩, hplace, heq⟩ := Option.map_eq_some_iff.1 hplace
  cases heq
  exact withSpad_placed halign hplace nofun

theorem withSpad_toWrite (hrel : s.relHeld t = false) :
    (s.withSpad t a off align len true fun s _ core o => f s core o) = f (s.relFlush t) core o := by
  obtain ⟨⟨G, core', o'⟩, hplace, heq⟩ := Option.map_eq_some_iff.1 hplace
  cases heq
  exact withSpad_placed halign hplace fun _ => hrel

end

/-- How many elements stand in a queue, and where in its region the element of an index does (R193). -/
def QCtl.count (q : QCtl) : Nat := (q.tail + 2 ^ 16 - q.head) % 2 ^ 16
def QCtl.slot (q : QCtl) (i : Nat) : Nat := i % 2 ^ q.ldepth * (q.esize + 1) * 4

/-- A control word that no queue has, or whose elements go past the thread's registers (R192). -/
def QCtl.unfit (q : QCtl) (word : List Byte) (regs first : Nat) : Bool :=
  !q.valid || !qctlReserved (toW32 (sliceB word 4 4)) || regs < first + (q.esize + 1)

/-! A queue instruction finds its control word `q` in the state `s'`: the releases before it visible, the thread's own loads of
it performed (R80, R83). -/

section
variable {s s' : State} {t : TRef} {c : Ctl} {once : Bool} {d a b : Operand} {off : BitVec 12} {G : Group}
  {core o rc ro : Nat} {q : QCtl} (hheld : (s.accessHeld t || s.flagFull t c) = false)
  (halign : (s.spadAddr t a off).toNat % 16 = 0) (hplace : s.spadPlace t (s.spadAddr t a off) 16 = some (G, core, o))
  (hrel : s.relHeld t = false) (hs' : (s.relFlush t).settleLoads t (.spad core o) 16 = s')
  (hq : qctlOf (s'.spadBytes core o 16) = q) (hregion : s'.queueRegion t G q = some (rc, ro))
  (hword : s'.spadWriteHeld t core o 16 = false)
include hheld halign hplace hrel hs' hq hregion hword

theorem queueStep_push (hfit : q.unfit (s'.spadBytes core o 16) (s.ctx t).regs (opNum b) = false)
    (hroom : q.count < 2 ^ q.ldepth) (hslot : s'.spadWriteHeld t rc (ro + q.slot q.tail) (4 * (q.esize + 1)) = false)
    (hflush : s'.releaseHeld t .cell = false) :
    s.queueStep t c once true d a b off = .next ((((s'.releaseStep t .cell).storeSpad t rc (ro + q.slot q.tail)
      (((s'.releaseStep t .cell).dataWords t .b32 b (q.esize + 1)).map bytes4).flatten false).storeSpad t core (o + 10)
      (natToBytes 2 (q.tail + 1)) false).result t c (if once then wrP d true else [])) := by
  have hfull : ¬ 2 ^ q.ldepth ≤ (q.tail + 2 ^ 16 - q.head) % 2 ^ 16 := Nat.not_le.2 hroom
  simp only [QCtl.unfit, QCtl.slot] at hfit hslot ⊢
  simp only [State.queueStep, hheld, withSpad_placed halign hplace (fun _ => hrel), hs', hq, hregion, hfit, hword, hfull, hslot,
    hflush, Bool.not_true, Bool.false_and, Bool.true_and, Bool.or_false, Bool.false_eq_true, if_false, if_true]

theorem queueStep_push_full (hfit : q.unfit (s'.spadBytes core o 16) (s.ctx t).regs (opNum b) = false)
    (hfull : 2 ^ q.ldepth ≤ q.count) : s.queueStep t c true true d a b off = .next (s'.result t c (wrP d false)) := by
  simp only [QCtl.unfit, QCtl.count] at hfit hfull ⊢
  simp only [State.queueStep, hheld, withSpad_placed halign hplace (fun _ => hrel), hs', hq, hregion, hfit, hword, hfull,
    Bool.not_true, Bool.false_and, Bool.false_eq_true, if_false, if_true]

theorem queueStep_pop (hfit : q.unfit (s'.spadBytes core o 16) (s.ctx t).regs (opNum d) = false)
    (hdst : s'.destLocked t d (q.esize + 1) = false) (hsome : q.count ≠ 0)
    (hslot : s'.spadWriteHeld t rc (ro + q.slot q.head) (4 * (q.esize + 1)) = false) {s2 : State}
    (hs2 : s'.settleLoads t (.spad rc (ro + q.slot q.head)) (4 * (q.esize + 1)) = s2) :
    s.queueStep t c once false d a b off = .next (((s2.storeSpad t core (o + 8) (natToBytes 2 (q.head + 1)) false).result t c
      (((List.range (q.esize + 1)).map fun i => Wr.v (opNum d + i) (toW32 (s2.spadBytes rc (ro + q.slot q.head + 4 * i) 4))) ++
        if once then wrP b true else [])).acquireNow t .cell) := by
  have hempty : ((q.tail + 2 ^ 16 - q.head) % 2 ^ 16 == 0) = false := beq_false_of_ne hsome
  simp only [QCtl.unfit, QCtl.slot] at hfit hslot hs2 ⊢
  simp only [State.queueStep, hheld, withSpad_placed halign hplace (fun _ => hrel), hs', hq, hregion, hfit, hdst, hword, hempty,
    hslot, hs2, Bool.not_false, Bool.true_and, Bool.false_and, Bool.or_false, Bool.false_eq_true, if_false, if_true]

theorem queueStep_pop_empty (hfit : q.unfit (s'.spadBytes core o 16) (s.ctx t).regs (opNum d) = false)
    (hdst : s'.destLocked t d (q.esize + 1) = false) (hempty : q.count = 0) :
    s.queueStep t c true false d a b off = .next (s'.result t c (wrP b false)) := by
  simp only [QCtl.unfit, QCtl.count] at hfit hempty ⊢
  simp only [State.queueStep, hheld, withSpad_placed halign hplace (fun _ => hrel), hs', hq, hregion, hfit, hdst, hword, hempty,
    Bool.not_false, Bool.true_and, Bool.false_eq_true, if_false, if_true, beq_self_eq_true]

end

/-- Settles O15: each of the four at its place, its checks passed. -/
theorem scratchpadAtomicsComplete : Obligations.ScratchpadAtomicsComplete := by
  refine ⟨?_, ?_, ?_, ?_, ?_, ?_, ?_⟩
  · intro c ty op d a b e off s s1 t core o hr hheld halign hplace hrel hword hquant
    refine native_done hr ?_
    simp only [hheld, Bool.false_eq_true, if_false]
    rw [withSpad_toWrite halign hplace hrel]
    simp only [hword, hquant, Bool.false_eq_true, if_false]
  · intro c ty op d a b e off s s1 t core o hr hheld halign hplace hrel hword hquant
    refine native_done hr ?_
    simp only [hheld, Bool.false_eq_true, if_false]
    rw [withSpad_toWrite halign hplace hrel]
    simp only [hword, hquant, Bool.false_eq_true, if_false, if_true]
  · intro c a b off s s1 t G core o hr hopen halign hplace hfit hrel hregion hword hquant
    refine native_done hr ?_
    simp only [hopen, withSpad_placed halign hplace (fun _ => hrel), hfit, Option.isNone_eq_false_iff.2 hregion, hword, hquant,
      Bool.not_true, Bool.or_false, Bool.false_eq_true, if_false, if_true]
  · intro c once d a b off s s1 t G core o rc ro hr hquant hheld halign hplace hrel hregion hfit hword hroom hslot hflush
    refine native_done hr ((queueWait_plain hquant).trans ?_)
    exact queueStep_push hheld halign hplace hrel rfl rfl hregion hword hfit hroom hslot hflush
  · rintro c once d a b off s s1 t G core o rc ro hr hquant hheld halign hplace hrel hregion hfit hword hfull rfl
    refine native_done hr ((queueWait_plain hquant).trans ?_)
    exact queueStep_push_full hheld halign hplace hrel rfl rfl hregion hword hfit hfull
  · intro c once d a b off s s1 t G core o rc ro hr hquant hheld halign hplace hrel hregion hfit hdst hword hsome hslot
    refine native_done hr ((queueWait_plain hquant).trans ?_)
    exact queueStep_pop hheld halign hplace hrel rfl rfl hregion hword hfit hdst hsome hslot rfl
  · rintro c once d a b off s s1 t G core o rc ro hr hquant hheld halign hplace hrel hregion hfit hdst hword hempty rfl
    refine native_done hr ((queueWait_plain hquant).trans ?_)
    exact queueStep_pop_empty hheld halign hplace hrel rfl rfl hregion hword hfit hdst hempty

end Sys2Proof.Machine
end

section
/-! SUPPORT. Barrier instructions of one thread (R195 to R200). -/

namespace Sys2Proof.Machine

/-- The object of a barrier instruction that nothing holds, the releases before it visible and the thread's own loads of it
performed (R80, R83, R195). -/
theorem withBarr_free {s : State} {t : TRef} {a : Operand} {off : BitVec 12} {core o : Nat} {f : State → Nat → Nat → Lane}
    (hopen : s.acqOpen t = false) (halign : (s.spadAddr t a off).toNat % 16 = 0)
    (hplace : (s.spadPlace t (s.spadAddr t a off) 16).map (·.2) = some (core, o)) (hrel : s.relHeld t = false)
    (hfree : (s.relFlush t).spadWriteHeld t core o 16 = false) :
    s.withBarr t a off f = f ((s.relFlush t).settleLoads t (.spad core o) 16) core o := by
  simp only [State.withBarr, hopen, Bool.false_eq_true, if_false]
  rw [withSpad_toWrite halign hplace hrel]
  simp only [hfree, Bool.false_eq_true, if_false]

/-- Settles O16: each of the five at its object, its checks passed. -/
theorem barriersComplete : Obligations.BarriersComplete := by
  refine ⟨?_, ?_, ?_, ?_, ?_, ?_, ?_, ?_, ?_⟩
  · intro c a b off s s1 t core o hr hopen halign hplace hrel hfree hquant hcount
    refine native_done hr ((withBarr_free hopen halign hplace hrel hfree).trans ?_)
    simp only [hcount, hquant, Bool.false_eq_true, if_false]
  · intro c a b off s s1 t core o hr hopen halign hplace hrel hfree hquant hcount
    refine native_done hr ((withBarr_free hopen halign hplace hrel hfree).trans ?_)
    simp only [hcount, hquant, if_false, if_true]
  · intro c chk a b off s s1 t core o hr hopen halign hplace hrel hfree hquant hflush hover
    refine native_done hr ((withBarr_free hopen halign hplace hrel hfree).trans ?_)
    simp only [hquant, hflush, hover, Bool.false_eq_true, if_false]
  · intro c chk a b off s s1 t core o hr hopen halign hplace hrel hfree hquant
    refine native_done hr ((withBarr_free hopen halign hplace hrel hfree).trans ?_)
    simp only [hquant, if_true]
  · intro c a b off s s1 t core o hr hopen halign hplace hrel hfree hquant
    refine native_done hr ((withBarr_free hopen halign hplace hrel hfree).trans ?_)
    simp only [hquant, Bool.false_eq_true, if_false]
  · intro c a b off s s1 t core o hr hopen halign hplace hrel hfree hquant
    refine native_done hr ((withBarr_free hopen halign hplace hrel hfree).trans ?_)
    simp only [hquant, if_true]
  · intro c d a b off s s1 t core o hr hquant hheld halign hplace hfree hquant' hpassed
    refine native_done hr ((queueWait_plain hquant).trans ?_)
    simp only [hheld, Bool.false_eq_true, if_false]
    rw [withSpad_toRead halign hplace]
    simp [hfree, hquant', hpassed]
  · intro c d a b off s s1 t core o hr hquant hheld halign hplace hfree hquant' hstill
    refine native_lane hr ((queueWait_plain hquant).trans ?_)
    simp only [hheld, Bool.false_eq_true, if_false]
    rw [withSpad_toRead halign hplace]
    simp [hfree, hquant', hstill]
  · intro c d a off s s1 t core o hr hheld halign hplace hfree
    refine native_done hr ?_
    simp only [hheld, Bool.false_eq_true, if_false]
    rw [withSpad_toRead halign hplace]
    simp only [hfree, Bool.false_eq_true, if_false]

end Sys2Proof.Machine
end

section
/-! SUPPORT. Taking a trap: what it leaves of the thread that takes it, of the other threads of its group and of the other
groups (R227, R414 to R416). -/

namespace Sys2Proof.Machine

/-- A change of what a search does not find leaves what it finds. -/
theorem find?_listUpd_other {α : Type} {p q : α → Bool} {f : α → α} (hf : ∀ x, p x = true → q x = false ∧ q (f x) = false)
    (l : List α) : (listUpd p f l).find? q = l.find? q := by
  induction l with
  | nil => rfl
  | cons a l ih =>
    cases ha : p a with
    | true =>
      obtain ⟨hq, hqf⟩ := hf a ha
      simpa [listUpd, ha, hq, hqf] using ih
    | false => cases hq : q a <;> simp_all [listUpd]

section
variable {s : State} {g : Nat} {f : Group → Group} (hid : ∀ G, (f G).id = G.id)
include hid

theorem State.group?_updGroup_same : (s.updGroup g f).group? g = (s.group? g).map f :=
  find?_listUpd_same (fun G hG => by simpa [hid] using hG) _

theorem State.group?_updGroup_ne {h : Nat} (hne : h ≠ g) : (s.updGroup g f).group? h = s.group? h :=
  find?_listUpd_other (fun G hG => by simp_all [Ne.symm hne]) _

end

theorem State.group?_updThread_same (s : State) (g n : Nat) (f : Thread → Thread) : (s.updThread (.thr g n) f).group? g =
    (s.group? g).map fun G => { G with threads := listUpd (fun x => x.tid == n) f G.threads } :=
  State.group?_updGroup_same fun _ => rfl

theorem State.group?_updThread_ne {s : State} {g n h : Nat} {f : Thread → Thread} (hne : h ≠ g) :
    (s.updThread (.thr g n) f).group? h = s.group? h :=
  State.group?_updGroup_ne (fun _ => by rfl) hne

theorem State.thread?_updThread_ne {s : State} {g n m : Nat} {f : Thread → Thread} (hf : ∀ y, (f y).tid = y.tid) (hne : m ≠ n) :
    (s.updThread (.thr g n) f).thread? (.thr g m) = s.thread? (.thr g m) := by
  simp only [State.thread?]
  rw [State.group?_updThread_same, Option.bind_map]
  refine congrArg _ (funext fun G => find?_listUpd_other (fun x hx => ?_) _)
  simp_all [Ne.symm hne]

/-- What a halt changes of each thread of its group, where the group was not halted before (R416). -/
def Thread.haltMarks (x : Thread) : Thread := { x with skid := 0, trapcode := 0, trapaddr := 0, sleep := none }

/-- What a trap changes of the thread that takes it (R414, R415). -/
def Thread.trapMarks (k : Nat) (a : W64) (w : Bool) (code : BitVec 16) (x : Thread) : Thread :=
  { x with stopped := true, park := .no, trapcode := trapWord k x.slot w code, trapaddr := a }

/-- What a halt makes of its group (R416). -/
def Group.haltFor (why : HaltWhy) (decider clk : Nat) (G : Group) : Group :=
  match G.halt with
  | some _ => G
  | none => { G with
      halt := some ⟨why, decider, false, none, clk⟩
      waves := G.waves.map fun w => { w with skid := 0 }
      threads := G.threads.map Thread.haltMarks }

/-- The choice of the thread that decides among the traps of one cycle (R417). -/
def Group.decideTrap (k i clk : Nat) (G : Group) : Group :=
  match G.halt with
  | some ⟨.trap _, d, q, m, n⟩ =>
    if n == clk && G.trapRank i < G.trapRank d then { G with halt := some (Halt.mk (.trap k) i q m n) } else G
  | _ => G

theorem State.haltGroup_eq (s : State) (g : Nat) (why : HaltWhy) (d : Nat) :
    s.haltGroup g why d = (s.abandon g).updGroup g (Group.haltFor why d s.clk) := rfl

theorem State.trap_eq (s : State) (g n k : Nat) (a : W64) (w : Bool) (code : BitVec 16) :
    s.trap (.thr g n) k a w code =
      ((s.haltGroup g (.trap k) n).updThread (.thr g n) (Thread.trapMarks k a w code)).updGroup g (Group.decideTrap k n s.clk) := rfl

theorem Group.haltFor_id (why : HaltWhy) (d clk : Nat) (G : Group) : (G.haltFor why d clk).id = G.id := by
  unfold Group.haltFor; split <;> rfl

theorem Group.haltFor_halt (why : HaltWhy) (d clk : Nat) (G : Group) : (G.haltFor why d clk).halt.isSome = true := by
  unfold Group.haltFor
  split
  · simp [*]
  · rfl

theorem Group.haltFor_threads (why : HaltWhy) (d clk : Nat) (G : Group) :
    (G.haltFor why d clk).threads = G.threads ∨ (G.haltFor why d clk).threads = G.threads.map Thread.haltMarks := by
  unfold Group.haltFor
  split
  · exact .inl rfl
  · exact .inr rfl

/-- The decision touches the halt alone, and keeps one. -/
theorem Group.decideTrap_frame (k i clk : Nat) (G : Group) : (G.decideTrap k i clk).id = G.id ∧
    (G.decideTrap k i clk).threads = G.threads ∧ (G.decideTrap k i clk).halt.isSome = G.halt.isSome := by
  unfold Group.decideTrap
  split
  · split <;> simp [*]
  · exact ⟨rfl, rfl, rfl⟩

/-- A halt leaves a thread as it was, but for the marks of a halt. -/
theorem State.thread?_haltGroup {s : State} {g m : Nat} {why : HaltWhy} {d : Nat} {x : Thread} (h : s.thread? (.thr g m) = some x) :
    ∃ x', (x' = x ∨ x' = x.haltMarks) ∧ (s.haltGroup g why d).thread? (.thr g m) = some x' := by
  obtain ⟨G, hG, hx⟩ := Option.bind_eq_some_iff.1 h
  have hgroup : (s.haltGroup g why d).group? g = some (G.haltFor why d s.clk) := by
    rw [State.haltGroup_eq, State.group?_updGroup_same (Group.haltFor_id why d s.clk)]
    exact congrArg (Option.map _) hG
  simp only [State.thread?, hgroup, Option.bind_some]
  obtain hthreads | hthreads := G.haltFor_threads why d s.clk <;> rw [hthreads]
  · exact ⟨x, .inl rfl, hx⟩
  · exact ⟨x.haltMarks, .inr rfl, List.find?_map .. |>.trans (congrArg (Option.map _) hx)⟩

theorem State.thread?_decideTrap (s : State) (g k i clk m : Nat) :
    (s.updGroup g (Group.decideTrap k i clk)).thread? (.thr g m) = s.thread? (.thr g m) := by
  simp only [State.thread?]
  rw [State.group?_updGroup_same (fun G => (G.decideTrap_frame k i clk).1), Option.bind_map]
  exact congrArg _ (funext fun G => congrArg _ (G.decideTrap_frame k i clk).2.1)

section
variable {s : State} {g n k : Nat} {a : W64} {w : Bool} {code : BitVec 16} {x : Thread}

/-- The thread that takes a trap, after it. -/
theorem State.thread?_trap_same (h : s.thread? (.thr g n) = some x) : ∃ x', (x' = x ∨ x' = x.haltMarks) ∧
    (s.trap (.thr g n) k a w code).thread? (.thr g n) = some (x'.trapMarks k a w code) := by
  obtain ⟨x', hx', h'⟩ := State.thread?_haltGroup (why := .trap k) (d := n) h
  refine ⟨x', hx', ?_⟩
  rw [State.trap_eq, State.thread?_decideTrap]
  exact State.thread?_updThread_same (fun _ => rfl) h'

/-- Another thread of its group, after it. -/
theorem State.thread?_trap_ne {m : Nat} (hne : m ≠ n) (h : s.thread? (.thr g m) = some x) : ∃ x', (x' = x ∨ x' = x.haltMarks) ∧
    (s.trap (.thr g n) k a w code).thread? (.thr g m) = some x' := by
  obtain ⟨x', hx', h'⟩ := State.thread?_haltGroup (why := .trap k) (d := n) h
  refine ⟨x', hx', ?_⟩
  rw [State.trap_eq, State.thread?_decideTrap, State.thread?_updThread_ne (f := Thread.trapMarks k a w code) (fun _ => rfl) hne, h']

/-- A trap halts the group of its thread (R414). -/
theorem State.trap_halts (h : s.thread? (.thr g n) = some x) :
    (((s.trap (.thr g n) k a w code).group? g).bind (·.halt)).isSome = true := by
  obtain ⟨G, hG, -⟩ := Option.bind_eq_some_iff.1 h
  have hgroup : (s.abandon g).group? g = some G := hG
  rw [State.trap_eq, State.haltGroup_eq, State.group?_updGroup_same (fun G => (G.decideTrap_frame k n s.clk).1),
    State.group?_updThread_same, State.group?_updGroup_same (Group.haltFor_id _ n s.clk), hgroup]
  exact (Group.decideTrap_frame k n s.clk _).2.2.trans (Group.haltFor_halt _ n s.clk G)

/-- The other groups know nothing of it. -/
theorem State.group?_trap_ne {h : Nat} (hne : h ≠ g) : (s.trap (.thr g n) k a w code).group? h = s.group? h := by
  rw [State.trap_eq, State.haltGroup_eq, State.group?_updGroup_ne (fun G => (G.decideTrap_frame k n s.clk).1) hne,
    State.group?_updThread_ne hne, State.group?_updGroup_ne (Group.haltFor_id _ n s.clk) hne]
  rfl

end

/-- Settles O48: the thread bears the marks of the halt and of the trap, the others of its group those of the halt alone. -/
theorem trapEntry : Obligations.TrapEntry := by
  refine ⟨?_, ?_, ?_⟩
  · intro s g n k a w code x y hx hy
    obtain ⟨x', hx', h⟩ := State.thread?_trap_same (k := k) (a := a) (w := w) (code := code) hx
    obtain rfl : y = x'.trapMarks k a w code := hy.trans (by rw [State.thread, h, Option.getD_some])
    have hhalt := State.trap_halts (k := k) (a := a) (w := w) (code := code) hx
    obtain rfl | rfl := hx' <;> exact ⟨rfl, rfl, rfl, rfl, rfl, rfl, rfl, rfl, rfl, rfl, rfl, rfl, rfl, rfl, hhalt⟩
  · intro s g n k m a w code x y hne hx hy
    obtain ⟨x', hx', h⟩ := State.thread?_trap_ne (k := k) (a := a) (w := w) (code := code) hne hx
    obtain rfl : y = x' := hy.trans (by rw [State.thread, h, Option.getD_some])
    obtain rfl | rfl := hx' <;> exact ⟨rfl, rfl, rfl, rfl, rfl, rfl, rfl, rfl, rfl, rfl, rfl, rfl⟩
  · intro s g n k h a w code hne
    exact ⟨State.group?_trap_ne hne, trap_restSame s g n k a w code, State.trap_ops s g n k a w code⟩

end Sys2Proof.Machine
end

section
/-! SUPPORT. Quartets, windows and row accesses of one thread (R203 to R208, R220, R222). -/

namespace Sys2Proof.Machine

/-- A row operand whose rows lie in the window of the thread's wave (R203). -/
theorem withRow_inside {s : State} {t : TRef} {r : Operand} {n : Nat} {f : Nat → Nat → Lane} {G : Group} (hG : s.groupOf t = some G)
    (hrows : winHolds (s.winOf t (s.waveOf t)) (s.vreg t (opNum r)).toNat n = true) :
    s.withRow t r n f =
      f (s.waveOf t).core (G.accOrg + (s.winOf t (s.waveOf t)).1.toNat + (s.vreg t (opNum r)).toNat) := by
  simp only [State.withRow, hG, hrows, if_true]

/-- Settles O18: each form past the checks that its hypotheses pass. -/
theorem matrixRegistersComplete : Obligations.MatrixRegistersComplete := by
  refine ⟨?_, ?_, ?_, ?_, ?_, ?_, ?_, ?_⟩
  · intro c pair d a s s1 t G q hr hG hfree hq hok
    refine native_done hr ?_
    simp only [State.doAalloc, hG, hfree, hq, hok, Bool.false_eq_true, if_false]
  · intro c pair d a s s1 t G hr hG hfree hno
    refine native_done hr ?_
    simp only [State.doAalloc, hG, hfree, Bool.false_eq_true, if_false]
    obtain hq | hok := hno
    · simp only [Option.isNone_iff_eq_none.1 hq]
    · simp only [hok]
      cases (List.range 8).find? fun q => !G.quartetTaken q <;> rfl
  · intro c a b e s s1 t G W hr hG hW htid hlive hle hrows hclash hbusy
    refine native_done hr ?_
    simp only [State.doAwin, hG, hW, htid, hlive, hle, Nat.not_lt.2 hrows, hclash, hbusy, bne_self_eq_false, decide_false,
      Bool.or_false, Bool.false_eq_true, if_false]
    rfl
  · intro c a s s1 t g hr hg hbusy
    refine native_done hr ?_
    simp only [hg, hbusy, Bool.false_eq_true, if_false]
  · intro c rows d s s1 t G hr hG hrows hunder
    refine native_done hr ((withRow_inside hG hrows).trans ?_)
    simp only [hunder, Bool.false_eq_true, if_false]
  · intro c first cnt d a s s1 t G hr hflag hdst hG hrows hunder
    refine native_done hr ?_
    simp only [hflag, hdst, Bool.or_false, Bool.false_eq_true, if_false, withRow_inside hG hrows, hunder]
  · intro c first cnt d a s s1 t G hr hflag hG hrows hunder
    refine native_done hr ?_
    simp only [hflag, Bool.false_eq_true, if_false, withRow_inside hG hrows, hunder]
  · intro c a b e s s1 t g hr hg hguard hgang
    refine native_done hr ?_
    simp only [hg, hgang, List.find?_cons, hguard, beq_self_eq_true, Bool.and_self, if_true]

end Sys2Proof.Machine
end

section
/-! SUPPORT. Matrix steps: a set that enters the queue, and the oldest operation that commits (R204, R209 to R219). -/

namespace Sys2Proof.Machine

/-- The leader waves of a quartet by position, with the follower waves for an `mmp` (R204). -/
def Group.stepWaves (G : Group) (pair : Bool) (num : Nat) : List (Bool × Nat × Option Wave) :=
  ((List.range 4).map fun p => (false, p, G.member num p false)) ++
    if pair then (List.range 4).map fun p => (true, p, G.member num p true) else []

/-- A position of a quartet with no live wave. -/
def Group.dead (G : Group) (w : Bool × Nat × Option Wave) : Bool :=
  match w.2.2 with
  | some w => G.live w.idx == 0
  | none => true

/-- The window of a wave as a live thread of it sees it (R203). -/
def State.stepWin (s : State) (G : Group) (el : TRef) (w : Wave) : W32 × W32 :=
  s.winOf (((G.threads.find? fun x => x.wave == w.idx && !x.exited).map fun x => TRef.thr G.id x.tid).getD el) w

/-- A position of a quartet whose window does not hold the four rows from `row` on (R203). -/
def State.outside (s : State) (G : Group) (el : TRef) (row : Nat) (w : Bool × Nat × Option Wave) : Bool :=
  match w.2.2 with
  | some w => !winHolds (s.stepWin G el w) row 4
  | none => true

/-- The operand region of a format word lies in the group's own part of a core's scratchpad (R211). -/
def State.regionOwn (s : State) (G : Group) (core : Nat) (addr word : W32) : Bool :=
  match s.spadOf G core addr (fmtRegion word) with
  | some r => r.1.id == G.id
  | none => false

/-- The operation that a gathered set enters in the queue (R214 to R218). -/
def State.stepOp (s : State) (pair : Bool) (c : Ctl) (d a b e : Operand) (ms : List TRef) (t0 el : TRef) (G : Group) : MuOp :=
  let num := mbNum (s.waveOf t0).mbind
  let row := (s.vreg el (opNum d)).toNat
  let tids := ms.map fun t => (s.thread t).tid
  ⟨s.nextId, G.id, (s.waveOf el).core, num, pair, row, s.src32 el a, opNum b, s.src32 el e, (s.thread el).tid, [d, a, e],
    (G.stepWaves pair num).filterMap fun w => w.2.2.map fun x => (w.1, w.2.1, (s.stepWin G el x).1.toNat + row),
    G.bRegs num (opNum b) (if s.narrow t0 then 8 else 4), tids, tids.map fun i => (i, s.flagFor c), G.halt.isSome,
    s.muDue (s.waveOf el).core pair (s.src32 el e)⟩

/-- An operation in the queue of its core, the members of its set gone on with their flag raised (R132, R214, R215). -/
def State.enterStep (s : State) (c : Ctl) (ms : List TRef) (m : MuOp) : State :=
  ms.foldl (fun s' t =>
      let s' := s'.updThread t fun x => ({ x with park := .no }).flagUp (s.flagFor c)
      s'.settleLane t (.next s'))
    (({ s with nextId := s.nextId + 1 } : State).updCore m.core fun k => { k with mu := k.mu ++ [m] })

/-- A set that passes every check of R210, R214 and R215 enters the queue; `mmp` asks for its follower waves and their core too. -/
theorem matrixIssue_enters {pair : Bool} {c : Ctl} {d a b e : Operand} {s : State} {t0 el : TRef} {rest : List TRef} {G : Group}
    (hG : s.groupOf t0 = some G) (hregs : (s.narrow t0 && (opNum b % 8 != 0 || (s.ctx t0).regs < opNum b + 8)) = false)
    (hbound : mbBound (s.waveOf t0).mbind = true) (hel : s.elected G (mbNum (s.waveOf t0).mbind) (t0 :: rest) = some el)
    (hagree : s.dissent G (t0 :: rest) e (s.src32 el e) = none) (hfmt : (fmtWord (s.src32 el e)).stepOk = true)
    (hlead : pair = true → (mbPair (s.waveOf t0).mbind && !mbFoll (s.waveOf t0).mbind) = true)
    (hlive : (G.stepWaves false (mbNum (s.waveOf t0).mbind)).any G.dead = false)
    (hrows : (G.stepWaves pair (mbNum (s.waveOf t0).mbind)).any (s.outside G el (s.vreg el (opNum d)).toNat) = false)
    (halign : (s.src32 el a).toNat % 16 = 0) (hown : s.regionOwn G (s.waveOf el).core (s.src32 el a) (s.src32 el e) = true)
    (hown' : pair = true → s.regionOwn G ((s.waveOf el).core + 1) (s.src32 el a) (s.src32 el e) = true)
    (hroom : (s.muQueue (s.waveOf el).core).length < 8) (hroom' : pair = true → (s.muQueue ((s.waveOf el).core + 1)).length < 8)
    (hgo : ((t0 :: rest).any fun t => s.flagFull t c || (s.advance t).isWait) = false)
    (hnext : ((t0 :: rest).any fun t => (s.advance t).isBad) = false) :
    s.matrixIssue pair c d a b e (t0 :: rest) = s.enterStep c (t0 :: rest) (s.stepOp pair c d a b e (t0 :: rest) t0 el G) := by
  have hwindow : ((pair && (!mbPair (s.waveOf t0).mbind || mbFoll (s.waveOf t0).mbind)) ||
      ((List.range 4).map fun p => (false, p, G.member (mbNum (s.waveOf t0).mbind) p false)).any G.dead) = false := by
    rw [Group.stepWaves, if_neg Bool.false_ne_true, List.append_nil] at hlive
    cases pair with
    | false => simp [hlive]
    | true => simpa [hlive] using hlead rfl
  have hplace : ((s.src32 el a).toNat % 16 != 0 || !s.regionOwn G (s.waveOf el).core (s.src32 el a) (s.src32 el e) ||
      (pair && !s.regionOwn G ((s.waveOf el).core + 1) (s.src32 el a) (s.src32 el e))) = false := by
    cases pair with
    | false => simp [halign, hown]
    | true => simp [halign, hown, hown' rfl]
  have hqueue : (!decide ((s.muQueue (s.waveOf el).core).length < 8) ||
      (pair && !decide ((s.muQueue ((s.waveOf el).core + 1)).length < 8)) ||
      (t0 :: rest).any fun t => s.flagFull t c || (s.advance t).isWait) = false := by
    rw [hgo]
    cases pair with
    | false => simp [hroom]
    | true => simp [hroom, hroom' rfl]
  simp only [State.matrixIssue, hG, hel, hagree, hfmt, hbound, Bool.not_true, Bool.false_eq_true, if_false]
  refine (if_neg (ne_true_of_eq_false hregs)).trans ?_
  refine (if_neg (ne_true_of_eq_false hwindow)).trans ?_
  refine (if_neg (ne_true_of_eq_false hrows)).trans ?_
  refine (if_neg (ne_true_of_eq_false hplace)).trans ?_
  refine (if_neg (ne_true_of_eq_false hqueue)).trans ?_
  exact if_neg (ne_true_of_eq_false hnext)

/-- A set's issue past every check, by the state that the meaning comes to. -/
theorem nativeAll_done {c : Ctl} {i : Instr} {s s1 s2 : State} {ms : List TRef} {f : State → List TRef → State}
    (hr : RunsAll c i s ms s1) (h : f s1 ms = s2) : nativeAll c i s f = .next s2.tokenEnds := h ▸ nativeAll_team f hr

/-- Settles O19: `mma` and `mmp` are one issue, and a commit waits for what its hypotheses exclude. -/
theorem matrixStepsComplete : Obligations.MatrixStepsComplete := by
  refine ⟨?_, ?_, ?_⟩
  · rintro c d a b e s s1 ms t0 rest G el hr rfl hG hregs hbound hel hagree hfmt hlive hrows halign hown hroom hgo hnext
    exact nativeAll_done hr (matrixIssue_enters (pair := false) hG hregs
      hbound hel hagree hfmt nofun hlive hrows halign hown nofun hroom nofun hgo hnext)
  · rintro c d a b e s s1 ms t0 rest G el hr rfl hG hregs hbound hel hagree hfmt hlead hlive hrows halign hown hown' hroom hroom' hgo
      hnext
    exact nativeAll_done hr (matrixIssue_enters (pair := true) hG hregs
      hbound hel hagree hfmt (fun _ => hlead) hlive hrows halign hown (fun _ => hown') hroom (fun _ => hroom') hgo hnext)
  · intro op s m G hm hG hdue hkept hfirst hpair hwaits
    show execMatrixOpCommit op s = _
    simp only [execMatrixOpCommit, hm, hG, Nat.not_lt.2 hdue, hkept, hfirst, hpair, hwaits, decide_false, Bool.not_true,
      Bool.or_false, Bool.false_eq_true, if_false]

end Sys2Proof.Machine
end

section
/-! SUPPORT. Tile moves of one thread: `mld`, `mret` and the routed `mret` (R203, R221 to R226). -/

namespace Sys2Proof.Machine

/-- A result that carries a value, as its two parts. -/
theorem eq_of_fst_isSome {α β : Type} {r : Option α × β} (x : α) (h : r.1.isSome = true) : r = (some (r.1.getD x), r.2) := by
  obtain ⟨_ | y, b⟩ := r
  · cases h
  · rfl

/-- The coordinates that an `mld` reads (R221). -/
def State.mldCoords (s : State) (t : TRef) (b : Operand) : List Nat :=
  ((List.range 5).filter fun i => opNum b + i < (s.ctx t).regs).map fun i => (s.vreg t (opNum b + i)).toNat

/-- What stands where a tile goes past its tensor, by its form (R221). -/
def Tensor.mldFill (T : Tensor) (form : MldForm) : List Byte :=
  if T.fmt == 14 && (form == .scA || form == .scB) then List.replicate 8 0
  else if form == .scA || form == .scB then [BitVec.ofNat 8 T.fill] else T.fillBytes

/-- The runs of a thread's tile translated, from the state in which its record has been read (R221). -/
def State.mldTile (s : State) (t : TRef) (form : MldForm) (coords : List Nat) (T : Tensor) (s' : State) :
    Option (List Piece × State) × Option (Nat × W64 × State) :=
  State.mldXlat t (.walk (coreCluster (s.ctx t).core)) (T.mldFill form)
    (joinRuns (mldRuns T form (T.coords coords) ((s.waveOf t).slot / 8) (s.thread t).lane (s.narrow t)) []) s' []

/-- What an `mld` comes to with its tile translated: the check of its destination (R221). -/
def State.mldInto (s : State) (t : TRef) (form : MldForm) (A : W32) (reg : Nat) (ps : List Piece) (s' s2 : State) : MldPlan :=
  let scaled := form == .scA || form == .scB
  let n := if scaled then 128 else 2048
  if form == .b then .go (.mld ps 0 0 (some reg) (List.replicate (4 * (if s.narrow t then 8 else 4)) 0)) s2
  else match s.spadPlace t A n with
    | none => .trap causeProtection (A.zeroExtend 64) true s
    | some (G, core, off) =>
      if A.toNat % 16 != 0 || some G.id != t.group then .trap causeProtection (A.zeroExtend 64) true s
      else if s.spadWriteHeld t core off n then .wait s'
      else .go (.mld ps core off none (if scaled then s.freeBytes t [0x600, off] 128 else List.replicate 2048 0)) s2

section
variable {s s' s2 : State} {t : TRef} {id reg : Nat} {form : MldForm} {va : W64} {coords : List Nat} {A : W32} {rs : List Range}
  {got : List Byte × State} {ps : List Piece} {bad : Option (Nat × W64 × State)}
  (hpass : s.accessVia t (.walk (coreCluster (s.ctx t).core)) va 64 false false [va.toNat] = .ok rs s')
  (hready : (rs.all fun r => s.memReady r.pa r.len r.bypass && s.mxTurn t id (.mem r.pa) r.len false) = true)
  (halign : va.toNat % 64 = 0) (hgot : s'.readRanges (coreReader .mx (s.ctx t).core) rs = got)
  (hvalid : (tensorOf got.1).ok = true) (hrank : (tensorOf got.1).rank ≤ coords.length)
  (hbox : (tensorOf got.1).boxAt 0 * (tensorOf got.1).w ≤ 1024)
  (hscale : ((form == .scA || form == .scB) && (!(fmtArray (tensorOf got.1).fmt || (tensorOf got.1).fmt == 14) ||
    crd coords 0 % (if (tensorOf got.1).fmt == 14 then 256 else 32) != 0)) = false)
  (htile : s.mldTile t form coords (tensorOf got.1) got.2 = (some (ps, s2), bad))
include hpass hready halign hgot hvalid hrank hbox hscale htile

/-- An `mld` whose record is valid and whose tile is translated has come to the check of its destination. -/
theorem mldPlan_translated : s.mldPlan t id form va coords A reg = s.mldInto t form A reg ps s'
    (s2.walkAhead (coreCluster (s.ctx t).core) (s.ctx t).root (tensorOf got.1) ((tensorOf got.1).coords coords)) := by
  simp only [State.readRanges] at hgot
  simp only [State.mldTile, Tensor.mldFill] at htile
  simp only [State.mldPlan, hpass, hready, hgot, halign, hvalid, Nat.not_lt.2 hrank, Nat.not_lt.2 hbox, hscale, htile, Bool.not_true,
    Bool.or_false, bne_self_eq_false, decide_false, Bool.false_eq_true, if_false]
  rfl

end

section
variable {s s' s2 : State} {t : TRef} {form : MldForm} {A : W32} {reg : Nat} {ps : List Piece}

/-- The B form begins its reads toward the thread's registers. -/
theorem mldInto_registers (hform : form = .b) : s.mldInto t form A reg ps s' s2 =
    .go (.mld ps 0 0 (some reg) (List.replicate (4 * (if s.narrow t then 8 else 4)) 0)) s2 :=
  if_pos (beq_iff_eq.2 hform)

/-- The other forms begin theirs toward an aligned tile in the scratchpad of the thread's group. -/
theorem mldInto_scratchpad {G : Group} {core o : Nat} (hform : form ≠ .b)
    (hplace : s.spadPlace t A (if form == .scA || form == .scB then 128 else 2048) = some (G, core, o)) (hA : A.toNat % 16 = 0)
    (hown : some G.id = t.group) (hfree : s.spadWriteHeld t core o (if form == .scA || form == .scB then 128 else 2048) = false) :
    s.mldInto t form A reg ps s' s2 =
      .go (.mld ps core o none (if form == .scA || form == .scB then s.freeBytes t [0x600, o] 128 else List.replicate 2048 0)) s2 := by
  simp only [State.mldInto, beq_false_of_ne hform, hplace, hA, hown, hfree, bne_self_eq_false, Bool.or_false, Bool.false_eq_true,
    if_false]

end

/-- An `mld` that nothing holds begins what its plan has come to (R221). -/
theorem doMld_begins {s s' : State} {t : TRef} {c : Ctl} {form : MldForm} {d a b e : Operand} {kind : OpKind}
    (hheld : (s.flagFull t c || s.acqOpen t || (form == .b && s.destLocked t d (if s.narrow t then 8 else 4))) = false)
    (hregs : (form == .b && s.narrow t && (opNum d % 8 != 0 || (s.ctx t).regs < opNum d + 8)) = false)
    (hquant : (s.ctx t).quant = false)
    (hplan : s.mldPlan t s.nextId form (s.src64 t a) (s.mldCoords t b) (s.src32 t e) (opNum d) = .go kind s') :
    s.doMld t c form d a b e = .next (s'.begin_ t c kind none) := by
  rw [State.mldCoords] at hplan
  simp only [State.doMld, hheld, hregs, hquant, hplan, Bool.false_eq_true, if_false]

/-- The bias row of a wave's epilogue (R222, R223). -/
def State.biasRow (s : State) (t : TRef) : List W32 :=
  match s.spadPlace t (s.waveOf t).bias 64 with
  | some x => (List.range 16).map fun i => toW32 (s.spadBytes x.2.1 (x.2.2 + 4 * i) 4)
  | none => []

/-- The bias row of a wave's epilogue can be read (R185, R223). -/
def State.biasReady (s : State) (t : TRef) : Bool :=
  match s.spadPlace t (s.waveOf t).bias 64 with
  | some x => !s.spadReadHeld t x.2.1 x.2.2 64
  | none => false

/-- A row write of the thread's own is still to be performed on some of the rows (R220). -/
def State.rowWriteOpen (s : State) (t : TRef) (core row n : Nat) : Bool :=
  s.ops.any fun o => o.thr == t && match o.kind with
    | .accWrite k r _ _ => k == core && row ≤ r && r < row + n
    | _ => false

/-- A bias row that can be read stands at a place that nothing holds. -/
theorem biasReady_place {s : State} {t : TRef} (h : s.biasReady t = true) : ∃ G core o,
    s.spadPlace t (s.waveOf t).bias 64 = some (G, core, o) ∧ s.spadReadHeld t core o 64 = false := by
  unfold State.biasReady at h
  split at h
  · exact ⟨_, _, _, ‹_›, by simpa using h⟩
  · cases h

/-- An `mret` that nothing holds retires its rows through the epilogue and goes on with their bytes (R203, R222, R223). -/
theorem retire_goes {s : State} {t : TRef} {c : Ctl} {b e : Operand} {n row : Nat} {go : List (List Byte) → Wave → Lane} {G : Group}
    (hflag : s.flagFull t c = false) (hacq : s.acqOpen t = false) (hfmt : (fmtWord (s.src32 t e)).retireOk = true)
    (hG : s.groupOf t = some G) (hrows : winHolds (s.winOf t (s.waveOf t)) (s.vreg t (opNum b)).toNat n = true)
    (hrow : G.accOrg + (s.winOf t (s.waveOf t)).1.toNat + (s.vreg t (opNum b)).toNat = row)
    (hown : s.rowWriteOpen t (s.waveOf t).core row n = false) (hunder : s.rowsUnder t (s.waveOf t).core row n = false)
    (hbias : (s.biasReady t || !(fmtWord (s.src32 t e)).ebias) = true) :
    s.retire t c b e n go = go (s.epilogueRows (fmtWord (s.src32 t e)) (s.waveOf t)
      (if (fmtWord (s.src32 t e)).ebias then s.biasRow t else []) row n) (s.waveOf t) := by
  have hgo : (s.rowWriteOpen t (s.waveOf t).core row n || s.rowsUnder t (s.waveOf t).core row n) = false := by rw [hown, hunder]; rfl
  simp only [State.retire, hflag, hacq, hfmt, Bool.not_true, Bool.or_false, Bool.false_eq_true, if_false, withRow_inside hG hrows, hrow]
  refine (if_neg (ne_true_of_eq_false hgo)).trans ?_
  cases hon : (fmtWord (s.src32 t e)).ebias with
  | false => simp only [Bool.false_eq_true, if_false]
  | true =>
    obtain ⟨G', core, o, hplace, hfree⟩ := biasReady_place (t := t) (s := s) (by simpa [hon] using hbias)
    simp only [if_true, State.biasRow, hplace, hfree, Bool.false_eq_true, if_false]

/-- What an `mret` comes to with its destinations looked up (R224). -/
def State.mretLane (s : State) (t : TRef) (c : Ctl) :
    Option (List (Place × Bool × List Byte) × State) × Option (Nat × W64 × State) → Lane
  | (none, some (k, f, s)) => .trap s k f true
  | (none, none) => .stay s
  | (some (ps, s'), _) =>
    let s2 := s'.begin_ t c (.mret ps) none
    .next (if (s.ctx t).quant then s2.defer t else s2)

/-- What a routed `mret` comes to with its rows handed to the copy engines, or kept back (R225). -/
def State.mrouteLane (s : State) : Option State → Lane
  | some s2 => .next s2
  | none => .stay s

theorem mrouteLane_sent {s s' : State} {r : Option State} (h : r.isSome = true) : s.mrouteLane r = .next (r.getD s') := by
  obtain ⟨s2, rfl⟩ := Option.isSome_iff_exists.1 h
  rfl

/-- A valid unicast or scatter-add route to a rank that exists passes the check of R226. -/
theorem route_usable {s : State} {R : W128} (hvalid : rtValid R = true) (hmode : rtMode R < 2) (hdev : rtDev R < s.nranks) :
    (!rtValid R || 2 ≤ rtMode R || s.nranks ≤ rtDev R) = false := by
  simp [hvalid, hmode, hdev]

/-- Settles O20: each move past the checks that its hypotheses pass. -/
theorem matrixMovesComplete : Obligations.MatrixMovesComplete := by
  refine ⟨?_, ?_, ?_, ?_, ?_, ?_⟩
  · intro c form d a b e s s1 t hr hheld hregs hquant
    refine native_done hr ?_
    simp only [State.doMld, hheld, hregs, hquant, Bool.false_eq_true, if_false, if_true]
  · intro c form d a b e s s1 t hr hform hheld hregs hquant hok hready halign hvalid hrank hbox hscale htile
    exact native_done hr (doMld_begins hheld hregs hquant ((mldPlan_translated (access_of_isOk hok) hready halign rfl hvalid hrank
      hbox hscale (eq_of_fst_isSome ([], s1) htile)).trans (mldInto_registers hform)))
  · intro c form d a b e s s1 t G core o hr hform hheld hregs hquant hok hready halign hvalid hrank hbox hscale htile hplace hA hown
      hfree
    exact native_done hr (doMld_begins hheld hregs hquant ((mldPlan_translated (access_of_isOk hok) hready halign rfl hvalid hrank
      hbox hscale (eq_of_fst_isSome ([], s1) htile)).trans (mldInto_scratchpad hform hplace hA hown hfree)))
  · intro c rows sp a b e s s1 t G hr hflag hacq hfmt hG hrows hown hunder hbias hplaces
    refine native_done hr ((retire_goes hflag hacq hfmt hG hrows rfl hown hunder hbias).trans ?_)
    exact congrArg (s1.mretLane t c) (eq_of_fst_isSome ([], s1) hplaces)
  · intro c rows route a b e s s1 t G hr hflag hacq hfmt hG hrows hown hunder hbias hvalid hmode hdev hplain hquant
    refine native_done hr ((retire_goes hflag hacq hfmt hG hrows rfl hown hunder hbias).trans ?_)
    refine (if_neg (ne_true_of_eq_false (route_usable hvalid hmode hdev))).trans ?_
    exact (if_neg (ne_true_of_eq_false hplain)).trans (if_pos hquant)
  · intro c rows route a b e s s1 t G hr hflag hacq hfmt hG hrows hown hunder hbias hvalid hmode hdev hplain hquant hsent
    refine native_done hr ((retire_goes hflag hacq hfmt hG hrows rfl hown hunder hbias).trans ?_)
    refine (if_neg (ne_true_of_eq_false (route_usable hvalid hmode hdev))).trans ?_
    refine (if_neg (ne_true_of_eq_false hplain)).trans ((if_neg (ne_true_of_eq_false hquant)).trans ?_)
    exact mrouteLane_sent hsent

end Sys2Proof.Machine
end

section
/-! SUPPORT. Copy-engine instructions of one thread (R257 to R264). -/

namespace Sys2Proof.Machine

/-- The head of a chain as a request engine is handed it: its offset, the wave's slot above that (R257). -/
def State.kickWord (s : State) (t : TRef) (o : Nat) : W64 := BitVec.ofNat 64 (o + (s.waveOf t).slot * 2 ^ 19)

/-- What a `ckick` comes to with its head placed (R258, R264). -/
def State.kickLane (s : State) (t : TRef) (core o : Nat) : Lane :=
  if (s.ctx t).quant then .next ((s.beginQuiet t (.ckick core (s.kickWord t o))).defer t)
  else if s.kickFull core then .stay s
  else .next (s.kickHead core (s.kickWord t o) (some t))

/-- A `ckick` whose head is an aligned request in the scratchpad of its group (R258). -/
theorem exec_ckick {c : Ctl} {a : Operand} {off : BitVec 12} {s s1 : State} {t : TRef} {core o : Nat}
    (hr : Runs c (.ckick c a off) s t s1) (hplace : (s1.spadPlace t (s1.spadAddr t a off) 64).map (·.2) = some (core, o))
    (halign : (s1.spadAddr t a off).toNat % 64 = 0) (hown : (s1.spadAddr t a off).getLsbD 21 = false) {l : Lane}
    (hl : s1.kickLane t core o = l) : exec (.ckick c a off) s = .next (s1.endsWith t l) := by
  obtain ⟨⟨G, core', o'⟩, hplace, heq⟩ := Option.map_eq_some_iff.1 hplace
  cases heq
  refine native_lane hr (Eq.trans ?_ hl)
  simp only [hplace, halign, hown, bne_self_eq_false, Bool.or_self, Bool.false_eq_true, if_false]
  rfl

/-- The translation of a tensor record through the TLB of a thread's cluster (R250, R262). -/
def State.trecXlat (s : State) (t : TRef) (va : W64) : Xl :=
  s.engineXlat (.walk (coreCluster (s.ctx t).core)) (s.ctx t).die (s.ctx t).root va.toNat 64 false false [va.toNat]

/-- The bytes of the record that a translation has found, as the thread's cluster reads them, and the state after. -/
def State.trecRead (s : State) (t : TRef) (x : Xl) : List Byte × State := x.st.readRanges (clusterReader (s.ctx t).core) x.rs

/-- The tile that five of a thread's registers name in a tensor (R262). -/
def State.trecCoords (s : State) (t : TRef) (b : Operand) (T : Tensor) : List Nat :=
  T.coords ((List.range 5).map fun i => (s.vreg t (opNum b + i)).toNat)

/-- The translations of a tile's pages brought in one by one; none where a page does not translate (R262). -/
def State.trecFill (s : State) (t : TRef) (b : Operand) (T : Tensor) (s' : State) : Option State :=
  (T.tilePages (s.trecCoords t b T)).foldlM (fun s' p => s'.fillPage (coreCluster (s.ctx t).core) (s.ctx t).root p) s'

/-- What a `trec` makes of the state by what the translation of its record has come to: the tile's translations brought in and
those ahead of it walked, or nothing (R262). -/
def State.trecGo (s : State) (t : TRef) (b : Operand) (x : Xl) : State :=
  let got := s.trecRead t x
  let T := tensorOf got.1
  let filled := s.trecFill t b T got.2
  if x.isOk && (x.rs.all fun r => x.st.memReady r.pa r.len r.bypass) && T.ok && filled.isSome then
    (filled.getD s).walkAhead (coreCluster (s.ctx t).core) (s.ctx t).root T (s.trecCoords t b T)
  else s

section
variable {c : Ctl} {a b : Operand} {s s1 : State} {t : TRef}

/-- A `trec` outside quantum mode, at an aligned address below 2^57, acts by what its record comes to (R262). -/
theorem exec_trec (hr : Runs c (.trec c a b) s t s1) (hregs : opNum b + 5 ≤ (s1.ctx t).regs) (hquant : (s1.ctx t).quant = false)
    (halign : (s1.src64 t a).toNat % 64 = 0) (hlow : (s1.src64 t a).toNat < 2 ^ 57) {s2 : State}
    (hs2 : s1.trecGo t b (s1.trecXlat t (s1.src64 t a)) = s2) : exec (.trec c a b) s = .next (s1.ends t s2) := by
  have hgo : ((s1.ctx t).quant || (s1.src64 t a).toNat % 64 != 0 || 2 ^ 57 ≤ (s1.src64 t a).toNat) = false := by
    rw [hquant, halign, decide_eq_false (Nat.not_le.2 hlow)]
    rfl
  refine native_done hr ((if_neg (Nat.not_lt.2 hregs)).trans ((if_neg (ne_true_of_eq_false hgo)).trans ?_))
  rw [← hs2, State.trecXlat]
  cases s1.engineXlat (.walk (coreCluster (s1.ctx t).core)) (s1.ctx t).die (s1.ctx t).root (s1.src64 t a).toNat 64 false false
      [(s1.src64 t a).toNat] with
  | bad | wait => rfl
  | ok rs s' =>
    cases hready : rs.all fun r => s'.memReady r.pa r.len r.bypass with
    | false => simp [State.trecGo, Xl.rs, Xl.st, hready]
    | true =>
      simp only [State.trecGo, State.trecRead, State.readRanges, State.trecFill, State.trecCoords, Xl.isOk, Xl.rs, Xl.st, hready]
      generalize rs.foldl _ ([], s') = got
      cases (tensorOf got.1).ok with
      | false => rfl
      | true =>
        simp only [Bool.not_true, Bool.false_eq_true, if_false, Bool.true_and]
        generalize (List.foldlM _ got.2 _ : Option State) = filled
        cases filled with
        | none => rfl
        | some s2 => rfl

/-- In quantum mode, or at an address no record has, a `trec` does nothing (R262, R264). -/
theorem exec_trec_unusable (hr : Runs c (.trec c a b) s t s1) (hregs : opNum b + 5 ≤ (s1.ctx t).regs)
    (hbad : ((s1.ctx t).quant || (s1.src64 t a).toNat % 64 != 0 || 2 ^ 57 ≤ (s1.src64 t a).toNat) = true) :
    exec (.trec c a b) s = .next (s1.ends t s1) :=
  native_done hr ((if_neg (Nat.not_lt.2 hregs)).trans (if_pos hbad))

end

/-- Settles O21: each of the five past the checks that its hypotheses pass. -/
theorem copyInstructionsComplete : Obligations.CopyInstructionsComplete := by
  refine ⟨?_, ?_, ?_, ?_, ?_, ?_, ?_, ?_⟩
  · intro c a off s s1 t core o hr hplace halign hown hquant
    exact exec_ckick hr hplace halign hown (if_pos hquant)
  · intro c a off s s1 t core o hr hplace halign hown hquant hroom
    exact exec_ckick hr hplace halign hown
      ((if_neg (ne_true_of_eq_false hquant)).trans (if_neg (ne_true_of_eq_false hroom)))
  · intro c d a off s s1 t core o hr hquant hheld halign hplace hfree
    refine native_done hr ((queueWait_plain hquant).trans ?_)
    simp only [hheld, Bool.false_eq_true, if_false]
    rw [withSpad_toRead halign hplace]
    simp only [hfree, Bool.false_eq_true, if_false]
  · intro c d a b off s s1 t r hr hquant hheld halign hok hrs hdev
    refine native_lane hr ((queueWait_plain hquant).trans ?_)
    simp only [hheld, State.withWord, withRange_device halign (access_of_range hok hrs) hdev, hquant, Bool.false_eq_true, if_false]
  · intro c a b off s s1 t r hr hheld halign hok hrs hdev
    refine native_done hr ?_
    simp only [hheld, withRange_device halign (access_of_range hok hrs) hdev, Bool.false_eq_true, if_false]
  · intro c a b s s1 t hr hregs hbad
    exact exec_trec_unusable hr hregs hbad
  · intro c a b s s1 t hr hregs hquant halign hlow hok hready hT hfilled
    refine exec_trec hr hregs hquant halign hlow (if_pos ?_)
    exact Bool.and_eq_true_iff.2 ⟨Bool.and_eq_true_iff.2 ⟨Bool.and_eq_true_iff.2 ⟨hok, hready⟩, hT⟩, hfilled⟩
  · intro c a b s s1 t hr hregs hquant halign hlow hno
    exact exec_trec hr hregs hquant halign hlow (if_neg (ne_true_of_eq_false hno))

end Sys2Proof.Machine
end

section
/-! SUPPORT. What request engines and copy engines do of their own accord: a request fetched, begun, landed and retired
(R231 to R245, R254). -/

namespace Sys2Proof.Machine

/-! The fetch (R231, R232). -/

/-- The scoreboard that the last request would write is full (R185, R232); `s` is the state before its fetch. -/
def State.lastFull (s s1 : State) : Bool :=
  match ((s1.reqs.getLast?).bind (·.sbr)).map (·.1) with
  | some c => decide (32 ≤ s.boardLoad c)
  | none => false

/-- A kick becomes a chain by the fetch of its first request, where the copy engine and the scoreboard have room. -/
theorem execRequestEngineFetch_first {core : Nat} {s s0 s1 : State} {q : Kick} {qs : List Kick}
    (hidle : (s.coreAt core).chain = none) (hkicks : (s.coreAt core).kicks = q :: qs)
    (hgoes : s.chainCut core q q.head = false) (hs0 : ({ s.pruneReqs with nextId := s.nextId + 1 } : State) = s0)
    (hload : s0.copyLoad (coreCluster core) < 64) (hfetch : s0.fetchReq core q q.head s.nextId 0 = .inl s1)
    (hboard : s0.lastFull s1 = false) :
    execRequestEngineFetch core s = .next ((s1.chainNext core q (s0.spadBytes core q.head 64)).2.updCore core fun x =>
      { x with
        kicks := qs
        chain := (s1.chainNext core q (s0.spadBytes core q.head 64)).1.map fun o => (q, o, s.nextId, 1) }) := by
  have hroom : (decide (64 ≤ s0.copyLoad (coreCluster core)) || s0.lastFull s1) = false := by
    rw [hboard, decide_eq_false (Nat.not_le.2 hload), Bool.or_self]
  simp only [execRequestEngineFetch, hidle, hkicks, List.head?_cons, Option.map_some, hgoes, Option.isSome_none, Bool.false_eq_true,
    if_false, show s.pruneReqs.nextId = s.nextId from rfl, hs0, hfetch]
  exact if_neg (ne_true_of_eq_false hroom)

/-! A request begins (R232, R237, R244). -/

/-- The scoreboard has room for a request that names its scratchpad only now (R185, R231). -/
def State.BoardRoom (s : State) (r : Req) : Prop :=
  ∀ x, s.boardOf r = some x → (r.sbr.isNone && decide (32 ≤ s.boardLoad x.1)) = false

/-- Only a tensor copy names its scratchpad after its fetch. -/
theorem boardRoom_of_kind {s : State} {r : Req} (h : r.kind ≠ 1) : s.BoardRoom r := by
  intro x hx
  rw [State.boardOf, if_pos (bne_iff_ne.2 h)] at hx
  simp only [hx, Option.isNone_some, Bool.false_and]

theorem begun_goes {s : State} {r : Req} {p : Plan_} {ps : List Piece} {n : Nat} (hgoes : p.goes = some (ps, n))
    (hroom : p.st.BoardRoom r) : s.begun r p = .inl (p.st.underWay r.id ps n) := by
  cases p with
  | fail | wait => cases hgoes
  | go ps' n' s' =>
    cases hgoes
    simp only [State.begun, Plan_.st]
    cases hboard : s'.boardOf r with
    | none => rfl
    | some x => exact if_neg (ne_true_of_eq_false (hroom x hboard))

section
variable {s : State} {req kind : Nat} {r : Req} (hreq : s.req? req = some r) (hkind : r.kind = kind) (hturn : s.canBegin r = true)
include hreq hkind hturn

theorem beginReq_goes {plan : Req → Plan_} {p : Plan_} {ps : List Piece} {n : Nat} (hplan : plan r = p)
    (hgoes : p.goes = some (ps, n)) (hroom : p.st.BoardRoom r) :
    beginReq kind req s plan = .next (p.st.underWay r.id ps n) := by
  simp only [beginReq, hreq, hkind, hturn, hplan, begun_goes hgoes hroom, bne_self_eq_false, Bool.not_true, Bool.or_self,
    Bool.false_eq_true, if_false]

/-- A remote request whose turn it is begins for the first time. -/
theorem remEvent_begins (hbegins : (s.remBegin r kind false).getLeft?.isSome = true) :
    remEvent kind req s = .next ((s.remBegin r kind false).getLeft?.getD s) := by
  have hfirst : r.began = false := by
    simp only [State.canBegin, Bool.and_eq_true, Bool.not_eq_true'] at hturn
    obtain ⟨⟨⟨hfirst, -⟩, -⟩, -⟩ := hturn
    exact hfirst
  obtain ⟨s', hs'⟩ := Option.isSome_iff_exists.1 hbegins
  simp only [remEvent, hreq, hkind, hturn, hfirst, Sum.getLeft?_eq_some_iff.1 hs', bne_self_eq_false, Bool.false_and, Bool.false_or,
    Bool.not_true, Bool.or_self, Bool.false_eq_true, if_false, Sum.getLeft?_inl, Option.getD_some]

end

/-! A landing (R238, R241, R254). -/

/-- The parts of a request's pieces that land together from its piece `i` on. -/
def State.landParts (s : State) (r : Req) (i : Nat) : List Piece :=
  (s.landSpan r.pieces i).filterMap fun x => (r.pieces[x.1]?).map fun p => p.part x.2.1 x.2.2

/-- An add among the parts to land has an earlier piece of its request at the same bytes before it (R241). -/
def State.landBehind (s : State) (r : Req) (i : Nat) : Bool :=
  (s.landParts r i).any (·.add.isSome) &&
    (r.pieces.take (((s.landSpan r.pieces i).head?.map (·.1)).getD i)).any fun q => (s.landParts r i).any fun p => q.meets p

/-- The bytes that parts of a request count when they land, at most what is left of its total (R254). -/
def State.landBytes (s : State) (r : Req) (i : Nat) : Nat :=
  Nat.min (((s.landParts r i).map (·.bits)).foldl (· + ·) 0 / 8) (r.total - r.landed)

theorem execCopyLanding_of {s s' : State} {r : Req} {req i : Nat} (hreq : s.req? req = some r) (hopen : r.retired = false)
    (hlands : s.landPiece r i = some s') : execCopyLanding req i s = .next s' := by
  simp only [execCopyLanding, hreq, hopen, hlands, Bool.false_eq_true, if_false]

section
variable {s : State} {r : Req} {i : Nat} (hquant : s.reqQuant r = false) (hwhole : (r.kind == 6 && r.xfer.isSome) = false)
  (hsome : (s.landParts r i).isEmpty = false) (horder : s.landBehind r i = false)
include hquant hwhole hsome horder

/-- A part at a window register that is gone by now ends its request (R20, R237). -/
theorem landPiece_gone {x : Nat × Nat} (hgone : (s.landParts r i).findSome? s.pieceGone = some x) :
    s.landPiece r i = some ((s.refuseWindow x.2).reqStop r 1 x.1) := by
  simp only [State.landBehind, State.landParts] at hsome horder hgone
  simp only [State.landPiece, hquant, hwhole, hsome, horder, hgone, Bool.false_and, Bool.or_self, Bool.false_eq_true, if_false]

theorem landPiece_lands (hthere : (s.landParts r i).findSome? s.pieceGone = none) (hfree : (s.landParts r i).all s.pieceOk = true) :
    s.landPiece r i = some ((((s.landBits r.reader .cp r.core r.id (s.landParts r i)).updReq r.id fun q =>
      { q with pieces := s.landLeft r.reader r.pieces (s.landSpan r.pieces i) }).landCount r.id (s.landBytes r i)).landRest r.id) := by
  simp only [State.landBehind, State.landBytes, State.landParts] at hsome horder hthere hfree ⊢
  simp only [State.landPiece, hquant, hwhole, hsome, horder, hthere, hfree, Bool.false_and, Bool.or_self, Bool.not_true,
    Bool.false_eq_true, if_false]

end

/-! Retirement (R232, R234, R236, R254). -/

/-- A request of a reserved kind whose turn it is to begin (R236). -/
def State.reqVoid (s : State) (r : Req) : Bool := (11 ≤ r.kind || r.kind == 9) && s.canBegin r

/-- The control block of a request can take its status word (R234). -/
def State.statusReady (s : State) (r : Req) : Bool :=
  match r.addr with
  | .mem pa => s.sliceReady pa 64 false
  | _ => true

/-- A request that retires is no longer one that a copy queue runs. -/
def State.offQueue (s : State) (req : Nat) : State :=
  { s with cp := { s.cp with copyRun := s.cp.copyRun.filter fun x => x.1 != req } }

/-- A request that has begun, or met a status before that, is not one whose turn is still to come. -/
theorem canBegin_of_started {s : State} {r : Req} (h : (r.began || r.code.isSome) = true) : s.canBegin r = false := by
  obtain hbegan | hcode := Bool.or_eq_true_iff.1 h
  · simp [State.canBegin, hbegan]
  · simp [State.canBegin, Option.isNone_eq_false_iff.2 hcode]

/-- A request with nothing left to land retires, one of a reserved kind with ILLEGAL. -/
theorem execCopyRetire_of {s : State} {req : Nat} {r : Req} (hreq : s.req? req = some r) (hopen : r.retired = false)
    (hran : (r.began || r.code.isSome || s.reqVoid r) = true) (hlanded : r.pieces = []) (hsent : r.xfer = none)
    (hready : s.statusReady r = true) (hincs : (s.incs.any fun x => x.req == some req) = false) :
    execCopyRetire req s =
      .next ((s.offQueue req).retireReq (if s.reqVoid r then { r with code := some (3, 0) } else r)) := by
  have hfree : (match r.addr with | .mem pa => !s.sliceReady pa 64 false | _ => false) = false := by
    revert hready
    unfold State.statusReady
    cases r.addr with
    | mem pa => exact fun h => congrArg (!·) h
    | _ => exact fun _ => rfl
  have hturn : (!r.began && r.code.isNone && !s.reqVoid r) = false := by
    rw [← Option.not_isSome, ← Bool.not_or, ← Bool.not_or, hran, Bool.not_true]
  simp only [State.reqVoid] at hturn ⊢
  simp only [execCopyRetire, hreq, hopen, hturn, hlanded, hsent, hincs, List.isEmpty_nil, Option.isSome_none, Bool.not_true,
    Bool.or_false, Bool.false_or]
  exact if_neg (ne_true_of_eq_false hfree)

/-- Settles O31: each event past what could hold it; the six plans of local copies and the signal begin alike. -/
theorem copyEventsComplete : Obligations.CopyEventsComplete := by
  refine ⟨?_, ?_, ?_, ?_, ?_, ?_, ?_, ?_, ?_, ?_, ?_, ?_, ?_, ?_, ?_, ?_⟩
  · intro core s q qs s1 hidle hkicks hgoes hload hfetch hboard
    exact execRequestEngineFetch_first hidle hkicks hgoes rfl hload (Sum.getLeft?_eq_some_iff.1 hfetch) hboard
  · intro req s r ps n hreq hkind hturn hgoes hroom
    exact beginReq_goes hreq hkind hturn rfl hgoes fun x hx => by rw [hx] at hroom; exact hroom
  · intro req s r ps n hreq hkind hturn hgoes hroom
    exact beginReq_goes hreq hkind hturn rfl hgoes fun x hx => by rw [hx] at hroom; exact hroom
  · intro req s r ps n hreq hkind hturn hgoes hroom
    exact beginReq_goes hreq hkind hturn rfl hgoes fun x hx => by rw [hx] at hroom; exact hroom
  · intro req s r ps n hreq hkind hturn hgoes hroom
    exact beginReq_goes hreq hkind hturn rfl hgoes fun x hx => by rw [hx] at hroom; exact hroom
  · intro req s r ps n hreq hkind hturn hgoes hroom
    exact beginReq_goes hreq hkind hturn rfl hgoes fun x hx => by rw [hx] at hroom; exact hroom
  · intro req s r ps n hreq hkind hturn hgoes hroom
    exact beginReq_goes hreq hkind hturn rfl hgoes fun x hx => by rw [hx] at hroom; exact hroom
  · intro req s r hreq hkind hturn hbegins
    exact remEvent_begins hreq hkind hturn hbegins
  · intro req s r hreq hkind hturn hbegins
    exact remEvent_begins hreq hkind hturn hbegins
  · intro req s r hreq hkind hturn hbegins
    exact remEvent_begins hreq hkind hturn hbegins
  · intro req s r hreq hkind hturn hbar hcount
    have hplan : (if !bodyBv r.body || natAt r.body 24 2 = 0 then Plan_.fail 3 0 [] 0 s else .go [] 0 s) = .go [] 0 s := by
      simp only [hbar, hcount.ne', Bool.not_true, decide_false, Bool.or_self, Bool.false_eq_true, if_false]
    exact beginReq_goes (p := .go [] 0 s) hreq hkind hturn hplan rfl (boardRoom_of_kind (by rw [hkind]; decide))
  · intro req piece s r hreq hopen hquant hwhole hsome horder hthere hfree
    exact execCopyLanding_of hreq hopen (landPiece_lands hquant hwhole hsome horder hthere hfree)
  · intro req piece s r x hreq hopen hquant hwhole hsome horder hgone
    exact execCopyLanding_of hreq hopen (landPiece_gone hquant hwhole hsome horder hgone)
  · intro id s x hinc hearly hhome hforce
    show execCounterIncrease id s = _
    simp only [execCounterIncrease, hinc, hhome, hforce, Bool.not_true, Bool.or_false]
    exact if_neg (ne_true_of_eq_false hearly)
  · intro req s r hreq hopen hstarted hlanded hsent hready hincs
    have hvoid : s.reqVoid r = false := by rw [State.reqVoid, canBegin_of_started hstarted, Bool.and_false]
    have h := execCopyRetire_of hreq hopen (by rw [hstarted, Bool.true_or]) hlanded hsent hready hincs
    rw [hvoid] at h
    exact h
  · intro req s r hreq hopen hkind hturn hlanded hsent hready hincs
    have hvoid : s.reqVoid r = true := by rw [State.reqVoid, hkind, hturn, Bool.and_self]
    have h := execCopyRetire_of hreq hopen (by rw [hvoid, Bool.or_true]) hlanded hsent hready hincs
    rw [hvoid] at h
    exact h

end Sys2Proof.Machine
end

section
/-! SUPPORT. The words of bank-group commands: every field reads back as it was packed (R283, R284, R288). -/

namespace Sys2Proof

/-! Fields of the five forms (R283). -/

section
open BitVec

variable (code : BitVec 6) (bm : BitVec 4) (x d src : BitVec 3) (as : BitVec 2) (f : Bool) (i : BitVec 16) (j : BitVec 23)
  (t o : BitVec 8)

@[simp] theorem bgB_code : (bgB code bm x as f i).extractLsb' 26 6 = code := by
  simp (disch := decide) only [bgB, extractLsb'_append_eq_of_le]
  exact extractLsb'_eq_self

@[simp] theorem bgB_mask : (bgB code bm x as f i).extractLsb' 22 4 = bm := by
  simp (disch := decide) only [bgB, extractLsb'_append_eq_of_le]
  exact extractLsb'_append_eq_right

@[simp] theorem bgB_index : (bgB code bm x as f i).extractLsb' 19 3 = x := by
  simp (disch := decide) only [bgB, extractLsb'_append_eq_of_le]
  exact extractLsb'_append_eq_right

@[simp] theorem bgB_set : (bgB code bm x as f i).extractLsb' 17 2 = as := by
  simp (disch := decide) only [bgB, extractLsb'_append_eq_of_le]
  exact extractLsb'_append_eq_right

@[simp] theorem bgB_immediate : (bgB code bm x as f i).extractLsb' 0 16 = i := extractLsb'_append_eq_right

@[simp] theorem bgB_format : (bgB code bm x as f i).getLsbD 16 = f := by
  simp only [bgB, getLsbD_append]
  simp

@[simp] theorem bgX_code : (bgX code x j).extractLsb' 26 6 = code := by
  simp (disch := decide) only [bgX, extractLsb'_append_eq_of_le]
  exact extractLsb'_eq_self

@[simp] theorem bgX_index : (bgX code x j).extractLsb' 23 3 = x := by
  simp (disch := decide) only [bgX, extractLsb'_append_eq_of_le]
  exact extractLsb'_append_eq_right

@[simp] theorem bgX_immediate : (bgX code x j).extractLsb' 0 23 = j := extractLsb'_append_eq_right

@[simp] theorem bgX_target : (bgX code x (t.zeroExtend 23)).extractLsb' 0 8 = t := by
  rw [bgX, extractLsb'_append_eq_of_add_le (by decide)]
  exact extractLsb'_setWidth_self t (by decide)

@[simp] theorem bgI_code : (bgI code d src o).extractLsb' 26 6 = code := by
  simp (disch := decide) only [bgI, extractLsb'_append_eq_of_le]
  exact extractLsb'_eq_self

@[simp] theorem bgI_dest : (bgI code d src o).extractLsb' 23 3 = d := by
  simp (disch := decide) only [bgI, extractLsb'_append_eq_of_le]
  exact extractLsb'_append_eq_right

@[simp] theorem bgI_source : (bgI code d src o).extractLsb' 20 3 = src := by
  simp (disch := decide) only [bgI, extractLsb'_append_eq_of_le]
  exact extractLsb'_append_eq_right

@[simp] theorem bgI_offset : (bgI code d src o).extractLsb' 0 8 = o := extractLsb'_append_eq_right

end

/-! Commands and words (R284, R288). -/

/-- The word of a command holds its code, below the unassigned ones, and fields that build the command again. -/
theorem buildBg_encodeBg {i : Instr} {w : W32} (h : encodeBg i = some w) (hi : i ≠ .unassignedCommandCode w) :
    (w.extractLsb' 26 6).toNat < 0x17 ∧ buildBg w = some i := by
  cases i with
  | bgEnd | bgOpen | bgClose | bgRd | bgMac | bgRmac | bgAdd | bgMax | bgScale | bgScaleScl | bgWr | bgZero | bgNext | bgVld
  | bgSync | bgAttn | bgEmit | bgNopc =>
    cases h
    simp only [buildBg, bgB_code, bgB_mask, bgB_index, bgB_set, bgB_format, bgB_immediate]
    exact ⟨by decide, rfl⟩
  | bgLdx | bgAddx | bgLoop | bgBnz =>
    cases h
    simp only [buildBg, bgX_code, bgX_index, bgX_immediate, bgX_target]
    exact ⟨by decide, rfl⟩
  | bgBtl | bgIdx =>
    cases h
    simp only [buildBg, bgI_code, bgI_dest, bgI_source, bgI_offset]
    exact ⟨by decide, rfl⟩
  | unassignedCommandCode v =>
    cases h
    exact absurd rfl hi
  | _ => cases h

theorem wf_of_buildBg {i : Instr} {w : W32} (h : buildBg w = some i) : i.wf = true := by
  simp only [buildBg] at h
  split at h
  case h_9 => split at h <;> cases h <;> rfl
  all_goals cases h <;> rfl

/-- Up to the last code the decoder accepts the command that a word's fields build, where it encodes to the word. -/
theorem decodeBg_of_assigned {w : W32} (h : (w.extractLsb' 26 6).toNat < 0x17) :
    decodeBg w = (buildBg w).filter (encodeBg · = some w) := by
  rw [decodeBg, if_neg (Nat.not_le.2 h)]
  cases buildBg w with
  | none => rfl
  | some i => simp only [Option.filter_some, decide_eq_true_eq]

/-- An unassigned code is the step of its word. -/
theorem decodeBg_of_unassigned {w : W32} (h : 0x17 ≤ (w.extractLsb' 26 6).toNat) : decodeBg w = some (.unassignedCommandCode w) :=
  if_pos h

/-- The code of a word is its number's top six bits. -/
theorem wf_unassignedCommandCode {w : W32} :
    (Instr.unassignedCommandCode w).wf = true ↔ 0x17 ≤ (w.extractLsb' 26 6).toNat := by
  have : (w.extractLsb' 26 6).toNat = w.toNat / 2 ^ 26 := by
    rw [BitVec.extractLsb'_toNat, Nat.shiftRight_eq_div_pow, Nat.mod_eq_of_lt (by omega)]
  rw [this, Instr.wf, decide_eq_true_iff]

theorem decodeBg_encodeBg {i : Instr} {w : W32} (hwf : i.wf = true) (h : encodeBg i = some w) : decodeBg w = some i := by
  by_cases hi : i = .unassignedCommandCode w
  · subst hi
    exact decodeBg_of_unassigned (wf_unassignedCommandCode.1 hwf)
  · obtain ⟨hcode, hbuild⟩ := buildBg_encodeBg h hi
    rw [decodeBg_of_assigned hcode, hbuild, Option.filter_some, if_pos (decide_eq_true h)]

theorem wf_encodeBg_of_decodeBg {i : Instr} {w : W32} (h : decodeBg w = some i) : i.wf = true ∧ encodeBg i = some w := by
  rcases Nat.lt_or_ge (w.extractLsb' 26 6).toNat 0x17 with hcode | hcode
  · obtain ⟨hbuild, hback⟩ := Option.filter_eq_some_iff.1 (decodeBg_of_assigned hcode ▸ h)
    exact ⟨wf_of_buildBg hbuild, of_decide_eq_true hback⟩
  · cases (decodeBg_of_unassigned hcode).symm.trans h
    exact ⟨wf_unassignedCommandCode.2 hcode, rfl⟩

/-- Settles O58: the five forms' fields are read back as they were packed; the converse is the decoder's own last check. -/
theorem commandRoundTrip : Obligations.CommandRoundTrip :=
  ⟨fun _ _ => decodeBg_encodeBg, fun _ _ => wf_encodeBg_of_decodeBg, fun _ => decodeBg_of_unassigned⟩

end Sys2Proof
end

section
/-! SUPPORT. Commands of a bank-group run that no engine of it fails (R284 to R291). -/

namespace Sys2Proof.Machine

section
variable {s : State} {r : BgRun} {check : Engine → Option Nat} {act : State → BgRun → Engine → State × Engine}
  {next : Engine → Nat} {pc : Nat} (hgo : bgGo s r = true)
include hgo

/-- The leader of the run is the engine whose turn it is (R290). -/
theorem lead_of_bgGo : s.engine s.bank.cur = r.lead := by
  have hrun := bgGo_run hgo
  simp only [State.bgRun, Option.bind_eq_some_iff] at hrun
  obtain ⟨x, -, l, -, i, -, hr⟩ := hrun
  split at hr
  · cases hr
  · cases hr
    rfl

/-- The checks of a command ask for the row-sets of the run's launch (R288, R298). -/
theorem cmdLaunch_of_bgGo : cmdLaunch s = r.l.id := by
  rw [cmdLaunch, bgGo_run hgo]
  rfl

/-- A command that reads no row. -/
theorem bgCommand_noReads (hcheck : ∀ e ∈ r.set, check e = none) (hpc : next r.lead = pc) :
    bgCommand s check noReads act next = .next (s.bgDone r pc act) :=
  hpc ▸ bgCommand_done hgo hcheck (List.all_eq_true.2 fun _ _ => rfl)

/-- A command with nothing to check, which changes the engines alone. -/
theorem bgCommand_each {f : Engine → Engine} (hpc : next r.lead = pc) :
    bgCommand s noCheck noReads (fun s _ e => (s, f e)) next = .next (s.bgEach r pc f) :=
  bgCommand_noReads hgo (fun _ _ => rfl) hpc

/-- An engine of a run that may issue fails nothing where its command has no checks of its own (R288). -/
theorem bgFails_unchecked : s.bgFails r noCheck noReads = [] := by
  simp only [bgGo, Bool.and_eq_true, decide_eq_true_eq, List.all_eq_true, Bool.not_eq_true'] at hgo
  obtain ⟨⟨⟨-, hpc⟩, hcmds⟩, hclean⟩ := hgo
  refine List.filterMap_eq_nil_iff.2 fun e he => ?_
  simp only [noCheck, noReads, hclean e he, Nat.not_le.2 hpc, Nat.not_le.2 hcmds, Option.orElse_none]
  rfl

end

/-- A check that an engine passes answers no status (R288). -/
theorem passes_of_all {l : List Engine} {check : Engine → Option Nat} (h : (l.all fun e => (check e).isNone) = true) :
    ∀ e ∈ l, check e = none :=
  fun e he => Option.isNone_iff_eq_none.1 (List.all_eq_true.1 h e he)

/-- Settles O27: of the seven `rmac` alone has checks, and they pass. -/
theorem bankArithmeticCompletes : Obligations.BankArithmeticCompletes := by
  refine ⟨?_, ?_, ?_, ?_, ?_, ?_, ?_⟩
  · intro bm as f s r hgo
    exact bgCommand_each hgo rfl
  · intro bm x as f i s r hgo hcheck hreads
    rw [← cmdLaunch_of_bgGo hgo] at hcheck
    exact bgCommand_done hgo (passes_of_all hcheck) hreads
  · intro bm as s r hgo
    exact bgCommand_each hgo rfl
  · intro bm as s r hgo
    exact bgCommand_each hgo rfl
  · intro bm as i s r hgo
    exact bgCommand_each hgo rfl
  · intro x i s r hgo
    exact bgCommand_each hgo rfl
  · intro bm as s r hgo
    exact bgCommand_each hgo rfl

/-- Settles O29: the leader's register, loop stack and store decide the next word, and every engine has room in its loop stack or a
loop to end. -/
theorem bankControlCompletes : Obligations.BankControlCompletes := by
  refine ⟨?_, ?_, ?_, ?_, ?_, ?_, ?_, ?_, ?_, ?_, ?_⟩
  · intro s r hgo
    exact bgCommand_each hgo rfl
  · intro s r hgo
    exact bgCommand_each hgo rfl
  · intro x i s r hgo
    exact bgCommand_each hgo rfl
  · intro x i s r hgo
    exact bgCommand_each hgo rfl
  · intro x i s r hgo hcount hroom
    show execBgLoop x i s = _
    simp only [execBgLoop, lead_of_bgGo hgo, hcount, if_false, decide_false, Bool.false_and, Bool.or_false]
    refine bgCommand_noReads hgo (fun e he => if_neg ?_) rfl
    simpa using List.all_eq_true.1 hroom e he
  · intro x i s r a hgo hcount hroom hmatch
    show execBgLoop x i s = _
    simp only [execBgLoop, lead_of_bgGo hgo, hcount, hmatch, if_true]
    refine bgCommand_noReads hgo (fun e he => if_neg ?_) rfl
    simpa using List.all_eq_true.1 hroom e he
  · intro s r a n l hgo hloops hmore hopen
    show execBgNext s = _
    simp only [execBgNext, lead_of_bgGo hgo, hloops, hmore, decide_true, if_true]
    refine bgCommand_noReads hgo (fun e he => if_neg ?_) ?_
    · simpa using List.all_eq_true.1 hopen e he
    · simp only [hloops]
  · intro s r a n l hgo hloops hlast hopen
    show execBgNext s = _
    have hdone : decide (1 < n) = false := by simpa using hlast
    simp only [execBgNext, lead_of_bgGo hgo, hloops, hdone, Bool.false_eq_true, if_false]
    refine (bgCommand_noReads hgo (fun e he => if_neg ?_) ?_).trans
      (congrArg (fun f => Host.Outcome.next (s.bgEach r (r.lead.pc + 1) f)) (funext fun e => ?_))
    · simpa using List.all_eq_true.1 hopen e he
    · simp only [hloops]
    · obtain ⟨id, store, pc, x, loops, _⟩ := e
      cases loops <;> rfl
  · intro x t s r hgo
    show execBgBnz x t s = _
    refine bgCommand_each hgo ?_
    simp only [bne_iff_ne]
  · intro s r hgo
    show execBgEnd s = _
    simp only [execBgEnd, bgGo_run hgo, bgFails_unchecked hgo]
    rfl
  · intro w s r hrun
    show s.bgIllegal = _
    rw [State.bgIllegal, hrun]

/-- Settles O28: the checks of each command are those of the launch whose run has the turn, and every engine passes them. -/
theorem bankRowCommandsComplete : Obligations.BankRowCommandsComplete := by
  refine ⟨?_, ?_, ?_, ?_, ?_, ?_, ?_, ?_, ?_, ?_⟩
  · intro bm x i s r hgo hcheck
    show execBgOpen bm x i s = _
    simp only [execBgOpen, bgGo_run hgo, Option.map_some, Option.getD_some]
    exact bgCommand_noReads hgo (passes_of_all hcheck) rfl
  · intro bm s r hgo
    exact bgCommand_each hgo rfl
  · intro bm x i s r hgo hcheck hreads
    rw [← cmdLaunch_of_bgGo hgo] at hcheck
    exact bgCommand_done hgo (passes_of_all hcheck) hreads
  · rintro bm x as _ i s r hgo rfl hcheck
    rw [← cmdLaunch_of_bgGo hgo] at hcheck
    exact bgCommand_noReads hgo (passes_of_all hcheck) rfl
  · rintro bm x as _ i s r hgo rfl hcheck
    rw [← cmdLaunch_of_bgGo hgo] at hcheck
    exact bgCommand_noReads hgo (passes_of_all hcheck) rfl
  · intro bm x i s r hgo hcheck
    exact bgCommand_noReads hgo (passes_of_all hcheck) rfl
  · intro d src o s r hgo hword hreads
    rw [← cmdLaunch_of_bgGo hgo] at hword
    refine bgCommand_done hgo (fun e he => ?_) hreads
    have h := List.all_eq_true.1 hword e he
    simp only [Bool.and_eq_true, beq_iff_eq, Bool.not_eq_true', decide_eq_true_eq] at h
    obtain ⟨⟨hopen, hkind⟩, hlow⟩ := h
    simp only [hopen, hkind, Nat.not_le.2 hlow, bne_self_eq_false, Bool.false_eq_true, if_false]
  · intro d src o s r hgo hword
    exact bgCommand_noReads hgo (fun e he => if_neg (Nat.not_le.2 (of_decide_eq_true (List.all_eq_true.1 hword e he)))) rfl
  · intro x as f i s r hgo hslot
    show execBgEmit x as f i s = _
    simp only [execBgEmit, bgGo_run hgo, Option.map_some, Option.getD_some]
    exact bgCommand_noReads hgo (fun e he => if_neg (Nat.not_le.2 (of_decide_eq_true (List.all_eq_true.1 hslot e he)))) rfl
  · intro x as i s r hgo hcheck hreads
    rw [← cmdLaunch_of_bgGo hgo] at hcheck
    exact bgCommand_done hgo (passes_of_all hcheck) hreads

end Sys2Proof.Machine
end

section
/-! SUPPORT. Bank-group instructions of one thread (R305, R309 to R313). -/

namespace Sys2Proof.Machine

/-- A descriptor operand that is aligned and readable is handed on (R308 to R310). -/
theorem withDesc_passes {s : State} {t : TRef} {a : Operand} {off : BitVec 12} {n : Nat} {f : W64 → State → Lane}
    (halign : (s.addr t a off).toNat % n = 0)
    (hok : (s.access t (s.addr t a off) n false false [(s.addr t a off).toNat]).isOk = true) :
    s.withDesc t a off n f = f (s.addr t a off) (s.access t (s.addr t a off) n false false [(s.addr t a off).toNat]).st := by
  rw [State.withDesc, access_of_isOk hok]
  simp only [halign, bne_self_eq_false, Bool.false_eq_true, if_false, Access.st]

/-- Settles O22: each lane past its checks. -/
theorem bankInstructionsComplete : Obligations.BankInstructionsComplete := by
  refine ⟨?_, ?_, ?_, ?_, ?_, ?_, ?_, ?_⟩
  · intro c d a off s s1 t hr hheld halign hok hquant
    refine native_done hr ?_
    simp only [hheld, withDesc_passes halign hok, hquant, Bool.false_eq_true, if_false, if_true]
  · intro c d a off s s1 t hr hheld halign hok hquant hposts
    obtain ⟨s2, hpost⟩ := Option.isSome_iff_exists.1 hposts
    refine native_done hr ?_
    simp only [hheld, withDesc_passes halign hok, hquant, hpost, Bool.false_eq_true, if_false, Option.getD_some]
  · intro c a off s s1 t hr hopen halign hok hquant
    refine native_done hr ?_
    simp only [hopen, withDesc_passes halign hok, hquant, Bool.false_eq_true, if_false, if_true]
  · intro c a off s s1 t hr hopen halign hok hquant hposts
    obtain ⟨s2, hpost⟩ := Option.isSome_iff_exists.1 hposts
    refine native_done hr ?_
    simp only [hopen, withDesc_passes halign hok, hquant, hpost, Bool.false_eq_true, if_false, Option.getD_some]
  · intro c a s s1 t hr hmask hheld
    refine native_done hr ?_
    simp only [hmask, hheld, Bool.false_eq_true, if_false]
  · intro c d a off s s1 t r hr hquant hheld halign hok hrs hdev
    refine native_lane hr ((queueWait_plain hquant).trans ?_)
    simp only [hheld, State.withWord, withRange_device halign (access_of_range hok hrs) hdev, Bool.false_eq_true, if_false]
  · intro c d a s s1 t hr hengine hheld
    refine native_done hr ?_
    simp only [Nat.not_le.2 hengine, hheld, Bool.false_eq_true, if_false]
    split <;> rfl
  · intro c d a s s1 t hr hheld hlow hwait hfault
    refine native_done hr ?_
    simp only [hheld, Nat.not_le.2 hlow, hwait, hfault, Bool.false_eq_true, if_false]

end Sys2Proof.Machine
end

section
/-! SUPPORT. Bank launches and store loads: taken from their queue, dispatched, admitted, run again, merged and completed (R292 to
R302, R309). -/

namespace Sys2Proof.Machine

theorem cpRead_of_bytes {x : CpRead} {b : List Byte} (h : x.bytes = some b) : x = .ok b x.st := by
  cases x with
  | ok b' s =>
    cases h
    rfl
  | _ => cases h

theorem cpWord_of_got {x : CpWord} {r : Range} (h : x.got = some r) : x = .ok r x.st := by
  cases x with
  | ok r' s =>
    cases h
    rfl
  | _ => cases h

theorem admits_of_got {α : Type} {x : Admits α} {y : α} (h : x.got = some y) : x = .ok y x.st := by
  cases x with
  | ok y' s =>
    cases h
    rfl
  | _ => cases h

/-- The launch or store load that an entry of bank queue q stands for, its descriptor read (R293, R309). -/
def BankLaunch.taken (id q w root : Nat) (push : Option Push) (body : List Byte) : BankLaunch :=
  { id := id, load := bitAt w 63, va := BitVec.ofNat 64 (w % 2 ^ 57), root := root, part := (push.map (·.part)).getD 0xFFFF,
    prio := q, stack := if bitAt w 63 then natAt body 8 4 % 8 else bitsOf (natAt body 0 8) 18 16, body := body, readable := true,
    phase := .queued, insts := [], vins := [], emitPa := [], comp := none, status := 0, merged := false, op := push.bind (·.op),
    launch := push.bind (·.launch) }

/-- A launch or store load queued behind those there are (R293). -/
def State.queueBank (s : State) (l : BankLaunch) : State :=
  { s with nextId := s.nextId + 1, bank := { s.bank with launches := s.bank.launches ++ [l] } }

theorem execBankQueueTake_queues {q : Nat} {s s1 s2 : State} {b body : List Byte} {push : Option Push} (hq : q < 4)
    (htake : s.ringTake (6 + q) = some (b, push, s1))
    (halign : natAt b 0 8 % 2 ^ 57 % (if bitAt (natAt b 0 8) 63 then 32 else 128) = 0)
    (hread : s1.cpRead 0 (s.entryRoot (6 + q) push) (natAt b 0 8 % 2 ^ 57) (if bitAt (natAt b 0 8) 63 then 32 else 128) cpReader =
      .ok body s2) :
    execBankQueueTake q s =
      .next (s2.queueBank (.taken s2.nextId q (natAt b 0 8) ((s.entryRoot (6 + q) push).getD 0) push body)) := by
  rw [execBankQueueTake, if_neg (Nat.not_le.2 hq), htake]
  simp only [halign, hread, bne_self_eq_false, Bool.false_eq_true, if_false]
  rfl

/-- A launch at the head of its queue that passes every check of admission starts its runs (R296). -/
theorem execBankLaunchAdmission_goes {l : Nat} {s s1 s2 : State} {L : BankLaunch} {comp : Range} {a : Admit} {es : List RotEnt}
    (hl : s.bankLaunch? l = some L) (hload : L.load = false) (hphase : L.phase = .queued) (hhead : s.bankHead L = true)
    (hcomp : s.cpWord (L.stack / 2) (some L.root) (natAt L.body 112 8 % 2 ^ 57) = .ok comp s1)
    (hgood : bdBad L.body (s.cp.paBank.extractLsb' 0 14).toNat = false) (hxlat : s1.admitXlat L = .ok a s2)
    (hes : entriesOf .read (!bitAt (natAt L.body 0 8) 11) l a.reads ++ entriesOf .write true l a.writes ++
      entriesOf .emit true l a.emits = es)
    (hboth : (a.reads.any fun r => (a.writes ++ a.emits).contains r) = false)
    (hmany : ((es.map (·.chan)).eraseDups.any fun ch => 64 < es.countP fun e => e.chan == ch) = false)
    (hrow : (a.writes.any fun r => r.row == 65535) = false) (hover : (bitAt (natAt L.body 0 8) 11 && a.overlaps) = false)
    (hok : s2.admitOk L a es = true) (hvins : (a.vins.all fun v => v.2.all fun p => s2.bankReady p.pa) = true) :
    execBankLaunchAdmission l s = .next (s2.admitGo L a es (comp.pa, comp.bypass)) := by
  simp only [execBankLaunchAdmission, hl, hload, hphase, hhead, hcomp, hgood, hxlat, hes, hboth, hmany, hrow, hover, hok, hvins,
    bne_self_eq_false, Bool.not_true, Bool.or_self, Bool.false_eq_true, if_false]

/-- Settles O32: each event past what could hold it. -/
theorem bankEventsComplete : Obligations.BankEventsComplete := by
  refine ⟨?_, ?_, ?_, ?_, ?_, ?_, ?_⟩
  · intro q s b push body hq htake halign hread
    obtain ⟨⟨b', push', s1⟩, htaken, heq⟩ := Option.map_eq_some_iff.1 htake
    cases heq
    simp only [htaken, Option.map_some, Option.getD_some] at hread ⊢
    exact execBankQueueTake_queues hq htaken halign (cpRead_of_bytes hread)
  · intro l s L b hl hload hphase hhead hgood hread hidle
    show execStoreLoadDispatch l s = _
    simp only [execStoreLoadDispatch, hl, hload, hphase, hhead, hgood, bne_self_eq_false, Bool.not_true, Bool.or_self,
      Bool.false_eq_true, if_false]
    rw [cpRead_of_bytes hread]
    exact if_neg (ne_true_of_eq_false hidle)
  · intro l s L comp a hl hload hphase hhead hcomp hgood hxlat hboth hmany hrow hover hok hvins
    exact execBankLaunchAdmission_goes hl hload hphase hhead (cpWord_of_got hcomp) hgood (admits_of_got hxlat) rfl hboth hmany hrow
      hover hok hvins
  · intro l inst s L i hl hi hphase hopen hconflict hended
    show execBankReexecution l inst s = _
    simp only [execBankReexecution, hl, hi, hphase, hopen, hconflict, hended, bne_self_eq_false, Bool.not_true, Bool.or_self,
      Bool.false_eq_true, if_false, Option.isSome_none]
  · intro l s L hl hphase hmerge hfirst hall
    show execAttentionMerge l s = _
    simp only [execAttentionMerge, hl, hphase, hmerge, hfirst, hall, bne_self_eq_false, Bool.not_true, Bool.or_self,
      Bool.false_eq_true, if_false]
  · intro l s L pa by_ hl hcomp hdone hready hpage hsettled hroom
    show execBankCompletion l s = _
    have hends : (L.phase == .ended || (L.phase == .running && (L.insts.all fun i => i.status.isSome) &&
        (!(bitAt (natAt L.body 0 8) 12 && L.insts.all fun i => i.status == some 0) || L.merged))) = true := by
      obtain hended | ⟨hrun, hall, hmerged⟩ := hdone
      · rw [hended]
        rfl
      · rw [hrun, hall]
        obtain hmerged | hmerged := hmerged <;> simp [hmerged]
    simp only [execBankCompletion, hl, hends, hcomp, hready, hpage, hsettled, Option.isNone_eq_false_iff.2 hroom, Bool.not_true,
      Bool.or_self, Bool.false_eq_true, if_false]
  · intro sector s x hx hdirty hok
    show execCoreAccessArrives sector s = _
    simp only [execCoreAccessArrives, hx, hdirty, hok, Bool.and_self, if_true]

end Sys2Proof.Machine
end

section
/-! SUPPORT. Paging instructions of one thread (R321, R337 to R340). -/

namespace Sys2Proof.Machine

/-- An invalidation whose flag has room drops its entries at once and waits for the accesses that used them (R339). -/
theorem inval_begins {s : State} {t : TRef} {c : Ctl} {p : TlbEnt → Bool} (hflag : s.flagFull t c = false) :
    s.inval t c p = .next ((s.dropTlb p).2.begin_ t c (.inval (s.dropTlb p).1) none) :=
  if_neg (ne_true_of_eq_false hflag)

/-- Settles O23: each lane past its checks. -/
theorem pagingInstructionsComplete : Obligations.PagingInstructionsComplete := by
  refine ⟨?_, ?_, ?_, ?_, ?_, ?_, ?_⟩
  · intro c w d a off s s1 t hr hheld hlow hquant
    refine native_done hr ?_
    simp only [hheld, Nat.not_le.2 hlow, hquant, Bool.not_true, Bool.false_and, Bool.false_eq_true, if_false, if_true]
  · intro c w d a off s s1 t hr hheld hlow hquant hwalk
    refine native_lane hr ?_
    have hhold : ¬ (!(s1.ctx t).quant && s1.walkHeld (s1.ctx t).root (s1.addr t a off).toNat) = true := by
      rw [hwalk, Bool.and_false]
      exact Bool.false_ne_true
    exact (if_neg (ne_true_of_eq_false hheld)).trans ((if_neg (Nat.not_le.2 hlow)).trans
      ((if_neg hhold).trans (if_neg (ne_true_of_eq_false hquant))))
  · intro c d a b s s1 t hr hheld
    exact native_done hr (if_neg (ne_true_of_eq_false hheld))
  · intro c a b s s1 t hr hflag
    exact native_done hr (inval_begins hflag)
  · intro c s s1 t hr hflag
    exact native_done hr (inval_begins hflag)
  · intro c a b s s1 t hr hflag
    exact native_done hr (if_neg (ne_true_of_eq_false hflag))
  · intro c s s1 t hr hflag
    exact native_done hr (if_neg (ne_true_of_eq_false hflag))

end Sys2Proof.Machine
end

section
/-! SUPPORT. Migrations, stubs, the page-request ring and host translations, each event by what it does where it acts (R324 to R333,
R338, R448). -/

namespace Sys2Proof.Machine

section
variable {m leafPa : Nat} {s : State} {M : Mig} {leaf : W64}

/-- The packet that asks another rank to check a page names the page itself (R327). -/
theorem pagePacket_page {d : List Byte} {last : Bool} :
    s.pagePacket M leaf 0 d last =
      .pageCopy s.nextId (BitVec.ofNat 64 (M.va.toNat / 2 ^ 16 * 2 ^ 16)) M.new (lfBS leaf) d last := by
  rw [State.pagePacket, Nat.add_zero]

/-- A waiting migration whose page can be moved goes past every check of its beginning (R326, R338): toward another rank it first
sends that rank its leaf to check, and else it sets bit M and copies. -/
theorem execMigrationStart_goes (hm : s.mig? m = some M) (hphase : M.phase = .waiting) (hwaits : s.migWaits m = false)
    (hwalk : s.walkHeld M.root (M.va.toNat % 2 ^ 57) = false) (hpage : s.migPage M = some (leafPa, leaf))
    (hdest : s.migDestBad M leaf = false) (hstubs : s.stubLoad (paDie (lfFrame leaf * 2 ^ 16)) < 4096)
    (hrows : s.rowsOwned (lfFrame leaf) = false) (hslice : s.sliceReady leafPa 8 false = true) :
    execMigrationStart m s =
      if M.rank != s.rank && M.passes = 0 then
        .next ((s.setMig { M with leafPa := leafPa, old := lfFrame leaf, passes := 1 }).sendXfer (paDie (lfFrame leaf * 2 ^ 16))
          M.rank (.page m) (s.pagePacket M leaf 0 [] false))
      else
        .next (((s.settle leafPa 8).perform leafPa (bytes8 (leaf ||| 0x8000)) false).setMig
          { M with leafPa := leafPa, old := lfFrame leaf, phase := .copying, passes := 0 }) := by
  simp only [execMigrationStart, hm, hphase, hwaits, hwalk, hpage, hdest, hrows, hslice, Nat.not_le.2 hstubs, bne_self_eq_false,
    Bool.not_true, Bool.or_self, Bool.false_eq_true, if_false]

/-- At most 64 sectors written during a pass leave at most 64 that were copied before their write (R326). -/
theorem execMigrationPassEnd_final (hm : s.mig? m = some M) (hphase : M.phase = .copying) (hwaits : s.migWaits m = false)
    (hready : s.migReady M (if M.passes = 0 then List.range 256 else M.dirty) = true) (hdirty : M.dirty.length ≤ 64) :
    execMigrationPassEnd m s =
      .next (((s.settle (M.old * 2 ^ 16) (2 ^ 16)).migCopy M (if M.passes = 0 then List.range 256 else M.dirty)).setMig
        { M with phase := .final, passes := M.passes + 1, dirty := [] }) := by
  have hlate : (M.dirty.filter fun k => s.flip [0xA00, k]).length ≤ 64 := (List.length_filter_le _ _).trans hdirty
  simp only [execMigrationPassEnd, hm, hphase, hwaits, hready, hlate, bne_self_eq_false, Bool.not_true, Bool.or_self,
    Bool.false_eq_true, if_false, if_true]

end

/-- Settles O33: each event past what could hold it. -/
theorem pagingEventsComplete : Obligations.PagingEventsComplete := by
  refine ⟨?_, ?_, ?_, ?_, ?_, ?_, ?_, ?_, ?_, ?_, ?_, ?_, ?_, ?_, ?_⟩
  · intro m s M leafPa leaf hm hphase hwaits hwalk hpage hdest hstubs hrows hslice hrank
    refine (execMigrationStart_goes hm hphase hwaits hwalk hpage hdest hstubs hrows hslice).trans (if_neg ?_)
    simp only [hrank, bne_self_eq_false, Bool.false_and, Bool.false_eq_true, not_false_eq_true]
  · intro m s M leafPa leaf hm hphase hwaits hwalk hpage hdest hstubs hrows hslice hrank hpasses
    rw [← pagePacket_page]
    refine (execMigrationStart_goes hm hphase hwaits hwalk hpage hdest hstubs hrows hslice).trans (if_pos ?_)
    simp only [bne_iff_ne.2 hrank, hpasses, decide_true, Bool.and_self]
  · intro m s M hm hphase hwaits hready hdirty
    exact execMigrationPassEnd_final hm hphase hwaits hready hdirty
  · intro m s M hm hphase hwaits hready hslice hrank
    show execMigrationSwitch m s = _
    simp only [execMigrationSwitch, hm, hphase, hwaits, hready, hslice, hrank, bne_self_eq_false, Bool.not_true, Bool.or_self,
      Bool.false_and, Bool.false_eq_true, if_false]
  · intro op s w hw hhops hyoung hrank
    show execStubForward op s = _
    simp only [execStubForward, hw, hyoung, hrank, Nat.not_le.2 hhops, decide_false, bne_self_eq_false, Bool.or_self,
      Bool.false_eq_true, if_false]
  · intro id s r hr
    show execRedirect id s = _
    cases hnew : r.new <;> simp only [execRedirect, hr, hnew]
  · intro op s w f hw hdue hwalk hleaf
    show execChase op s = _
    obtain ⟨⟨pa, l⟩, hfound, hframe⟩ := Option.bind_eq_some_iff.1 hleaf
    obtain ⟨hthere, hframe⟩ : lfThere l = true ∧ some (lfFrame l) = some f := Option.ite_none_right_eq_some.1 hframe
    cases hframe
    have hchase : (decide (2 ≤ s.hopsOf op) || s.stubOld w.b) = true := by rwa [Bool.or_eq_true, decide_eq_true_iff]
    simp only [execChase, hw, hwalk, hchase, hfound, hthere, Bool.not_true, Bool.or_self, Bool.false_eq_true, if_false,
      if_true]
  · intro stub die s b hb hasked
    show execStubReclaimQuery stub die s = _
    simp only [execStubReclaimQuery, hb, hasked, Bool.not_true, Bool.false_eq_true, if_false]
  · intro stub s b d hb hreplies hlast
    show execStubReclaimReply stub s = _
    simp only [execStubReclaimReply, hb, hreplies, hlast, if_true]
  · intro stub s b d hb hreplies hmore
    show execStubReclaimReply stub s = _
    simp only [execStubReclaimReply, hb, hreplies, hmore, Bool.false_eq_true, if_false]
  · intro s r rest hheld hon hroom hdevice hhere hready
    show execPageRequestRingWrite s = _
    simp only [execPageRequestRingWrite, hheld, hon, hdevice, hhere, hready, Nat.not_le.2 hroom, decide_false, Bool.not_true,
      Bool.not_false, Bool.and_false, Bool.or_self, Bool.false_eq_true, if_false]
  · intro v s
    rfl
  · intro v s
    rfl
  · intro addr s hasked
    show execAtsTranslationCompletion addr s = _
    simp only [execAtsTranslationCompletion, hasked, Bool.not_true, Bool.false_eq_true, if_false]
    cases Config.atsAllows (atsPage addr) <;> rfl
  · intro addr s
    rfl

end Sys2Proof.Machine
end

section
/-! SUPPORT. Remote-call instructions of one thread, and a callee that returns (R347 to R354). -/

namespace Sys2Proof.Machine

theorem callXlat_of_refused {x : CallXlat} {k : Nat} (h : x.refused = some k) : ∃ va s, x = .refuse k va s := by
  cases x with
  | refuse k' va s =>
    cases h
    exact ⟨va, s, rfl⟩
  | _ => cases h

theorem callXlat_of_exec {x : CallXlat} {e : Nat} (h : x.exec = some e) : ∃ pa w b, x = .send pa e w b x.st := by
  cases x with
  | send pa e' w b s =>
    cases h
    exact ⟨pa, w, b, rfl⟩
  | _ => cases h

/-- A callee within its instruction count, past the limits and with a true guard, settles its lane (R30, R348, R350). -/
theorem native_callee {c : Ctl} {i : Instr} {s : State} {f : State → TRef → Lane} {id : Nat} {l : Lane}
    (hgang : s.gang.members = [.callee id]) (hfault : (s.encodingFault (.callee id) c i).isNone = true)
    (hguard : (s.mark c).guard (.callee id) c = true) (hcount : (((s.mark c).callee? id).map (·.count)).getD 0 ≤ 4096)
    (hlane : f (s.mark c) (.callee id) = l) : native c i s f = .next ((s.mark c).endsWith (.callee id) l) := by
  simp only [native, hgang, List.foldl_cons, List.foldl_nil, Option.isNone_iff_eq_none.1 hfault, hguard, Nat.not_lt.2 hcount, hlane,
    if_false, if_true, State.endsWith]

/-- Settles O24: each lane past its checks; a callee's `rret` is no form of a launch's own code. -/
theorem remoteInstructionsComplete : Obligations.RemoteInstructionsComplete := by
  refine ⟨?_, ?_, ?_, ?_, ?_, ?_⟩
  · intro c l2 again cnt m d a b e s s1 t hr hquant hopen hheld
    refine native_done hr ?_
    obtain ⟨hflag, hlock⟩ := Bool.or_eq_false_iff.1 hheld
    simp only [hopen, hflag, hlock, hquant, Bool.not_true, Bool.false_and, Bool.or_self, Bool.false_eq_true, if_false, if_true]
  · intro c l2 again cnt m d a b e s s1 t hr hquant hopen hheld hpost hsent
    refine native_done hr ?_
    obtain ⟨hflag, hlock⟩ := Bool.or_eq_false_iff.1 hheld
    obtain ⟨s2, hgo⟩ := Option.isSome_iff_exists.1 hsent
    rw [hgo, Option.getD_some]
    simp only [hquant, Bool.false_eq_true, if_false] at hgo
    simp only [hopen, hflag, hlock, hquant, hpost, hgo, Bool.not_false, Bool.and_false, Bool.or_self, Bool.false_eq_true, if_false]
  · intro c d s s1 t hr hquant hheld hnone
    refine native_lane hr ((queueWait_plain hquant).trans ?_)
    simp only [hheld, hnone, Bool.false_eq_true, if_false, if_true]
  · intro c l2 d a s s1 t k hr hheld hrefused
    obtain ⟨va, s2, hxlat⟩ := callXlat_of_refused hrefused
    refine native_done hr ?_
    simp only [hheld, hxlat, Bool.false_eq_true, if_false]
    by_cases hk : k = 2
    · rw [hk]
      rfl
    · simp only [hk, if_false]
  · intro c l2 d a s s1 t x hr hheld hexec
    obtain ⟨pa, w, b, hxlat⟩ := callXlat_of_exec hexec
    refine native_done hr ?_
    rw [hxlat]
    simp only [hheld, Bool.false_eq_true, if_false]
    rfl
  · intro c s id hgang hfault hguard hcount hidle
    show execRret c s = _
    have hown : (s.gang.members.any fun t => t.group.isSome) = false := by
      rw [hgang]
      rfl
    rw [execRret, hown]
    exact native_callee (l := .stop ((s.mark c).endCallee id 0 0)) hgang hfault hguard hcount (if_neg (ne_true_of_eq_false hidle))

end Sys2Proof.Machine
end

section
/-! SUPPORT. Remote calls at their executors and at their callers: arrival, start, reply, timeout and expiry (R344 to R358). -/

namespace Sys2Proof.Machine

theorem callRoute_of_stays {r : CallRoute} (h : r.stays = true) : r = .here := by
  cases r with
  | here => rfl
  | _ => cases h

/-- Settles O34: each event past what could hold it. -/
theorem remoteCallEventsComplete : Obligations.RemoteCallEventsComplete := by
  refine ⟨?_, ?_, ?_, ?_, ?_⟩
  · intro call s k hk hphase hexec hroute hnew hroom
    show execRcallArrival call s = _
    have hentry : (if k.again then s.dedupOf k else none) = none := by
      cases hagain : k.again with
      | false => rfl
      | true =>
        rw [hagain, Bool.true_and] at hnew
        exact Option.not_isSome_iff_eq_none.1 (ne_true_of_eq_false hnew)
    simp only [execRcallArrival, hk, hphase, beq_eq_false_iff_ne.2 hexec, callRoute_of_stays hroute, hentry, Nat.not_le.2 hroom,
      bne_self_eq_false, Bool.or_self, Bool.false_eq_true, if_false]
  · intro call s k hk hphase hexec hroute hyoung hnew hlane hkept hstatus
    show execCalleeStart call s = _
    have hroom : ((if k.exec < 32 then 480 else 24) ≤ s.remote.callees.countP (fun x => x.exec == k.exec) ||
        ((s.dedupOf k).isNone && (if k.exec < 32 then 16384 else 8192) ≤ s.remote.dedup.countP (fun d => d.exec == k.exec))) =
          false := by
      rw [decide_eq_false (Nat.not_le.2 hlane), Bool.false_or]
      obtain hold | hkept := hkept
      · rw [Option.isNone_eq_false_iff.2 hold, Bool.false_and]
      · rw [decide_eq_false (Nat.not_le.2 hkept), Bool.and_false]
    obtain ⟨st, hst⟩ := Option.isSome_iff_exists.1 hstatus
    simp only [execCalleeStart, hk, hphase, beq_eq_false_iff_ne.2 hexec, callRoute_of_stays hroute, Nat.not_lt.2 hyoung, hnew,
      hroom, hst, Option.getD_some, bne_self_eq_false, Bool.or_self, Bool.false_eq_true, if_false]
  · intro call s k hk hphase hgo
    show execRcallReply call s = _
    have hheld : (!k.lost && s.callLate k) = false := by
      rw [← Bool.not_eq_true', Bool.not_and, Bool.not_not]
      exact hgo
    simp only [execRcallReply, hk, hphase, hheld, bne_self_eq_false, Bool.or_self, Bool.false_eq_true, if_false]
  · intro call s k o hk ho hsent hlost hlate
    show execRcallTimeout call s = _
    simp only [execRcallTimeout, hk, ho, hsent, hlost, hlate, Bool.not_true, Bool.or_self, Bool.false_eq_true, if_false, beq_iff_eq]
  · intro entry s d n hd hdone hold
    show execDedupEntryExpiry entry s = _
    simp only [execDedupEntryExpiry, hd, hdone, hold, if_true]

end Sys2Proof.Machine
end

section
/-! SUPPORT. Collective and network-slot instructions of one thread (R389 to R393, R396). -/

namespace Sys2Proof.Machine

theorem slotRead_of_got {x : SlotRead} {b : List Byte} (h : x.got = some b) : ∃ s, x = .ok b s := by
  cases x with
  | ok b' s =>
    cases h
    exact ⟨s, rfl⟩
  | bad s | wait => cases h

theorem slotRead_of_failed {x : SlotRead} (h : x.failed = true) : ∃ s, x = .bad s := by
  cases x with
  | bad s => exact ⟨s, rfl⟩
  | ok b s | wait => cases h

/-- Settles O25: each of the four past what could hold it, `netslot` by what its read of the table gives. -/
theorem collectiveInstructionsComplete : Obligations.CollectiveInstructionsComplete := by
  refine ⟨?_, ?_, ?_, ?_, ?_, ?_, ?_, ?_, ?_⟩
  · intro c d a off s s1 t hr hheld halign hlow hquant
    refine native_done hr ?_
    simp only [hheld, halign, Nat.not_le.2 hlow, hquant, decide_false, bne_self_eq_false, Bool.or_self, Bool.false_eq_true, if_false,
      if_true]
  · intro c d a off s s1 t hr hheld halign hlow hquant hgoes
    obtain ⟨s2, hgo⟩ := Option.isSome_iff_exists.1 hgoes
    refine native_done hr ?_
    simp only [hheld, halign, Nat.not_le.2 hlow, hquant, hgo, decide_false, bne_self_eq_false, Bool.or_self, Bool.false_eq_true,
      if_false, Option.getD_some]
  · intro c a s s1 t hr hquant
    exact native_done hr (if_pos hquant)
  · intro c a s s1 t hr hquant hpost
    refine native_done hr ?_
    simp only [hquant, hpost, Bool.false_eq_true, if_false]
  · intro c d a s s1 t hr hquant hheld hnone
    refine native_done hr ((queueWait_plain hquant).trans ?_)
    simp only [hheld, hnone, Bool.false_eq_true, if_false, if_true]
  · intro c d a s s1 t hr hquant hheld hplan
    refine native_lane hr ((queueWait_plain hquant).trans ?_)
    simp only [hheld, Option.isNone_eq_false_iff.2 hplan, hquant, Bool.false_eq_true, if_false]
  · intro c d a off s s1 t x hr hheld halign hlow hread
    obtain ⟨s2, hread⟩ := slotRead_of_got hread
    refine native_done hr ?_
    simp only [hheld, halign, Nat.not_le.2 hlow, hread, decide_false, bne_self_eq_false, Bool.or_self, Bool.false_eq_true,
      if_false, SlotRead.st]
    exact (apply_ite Lane.next _ _ _).symm
  · intro c d a off s s1 t hr hheld halign hlow hfailed
    obtain ⟨s2, hread⟩ := slotRead_of_failed hfailed
    refine native_done hr ?_
    simp only [hheld, halign, Nat.not_le.2 hlow, hread, decide_false, bne_self_eq_false, Bool.or_self, Bool.false_eq_true,
      if_false, SlotRead.st]
  · intro c d s s1 t hr hheld
    exact native_done hr (if_neg (ne_true_of_eq_false hheld))

end Sys2Proof.Machine
end

section
/-! SUPPORT. The fabric's rate table, ports, frames and transfer timeouts (R362 to R364, R372, R373, R393). -/

namespace Sys2Proof.Machine

/-- A transfer past FAB_TIMEOUT is no longer outstanding, and counted (R364). -/
def State.lost (s : State) (xfer : Nat) : State :=
  (s.fabCount 2).updFab fun f => { f with xfers := f.xfers.filter fun y => y.id != xfer }

/-- A packet that asks a peer for bytes (R369), and a transfer of a routed `mret` or of its counter (R226). -/
def isPeerRead : Packet → Bool
  | .read _ _ _ => true
  | _ => false
def ofRoute : XferOf → Bool
  | .route _ _ _ _ _ | .routeCtr _ _ _ => true
  | _ => false

section
variable {xfer t : Nat} {s : State} {x : Xfer} (hx : (s.fab.xfers.find? fun x => x.id == xfer) = some x) (hsent : x.sentAt = some t)
  (hlate : t + s.fabTimeout < s.gtsc)
include hx hsent hlate

theorem execFabricTransferTimeout_req {r : Nat} (hof : x.of = .req r) (hpkt : isPeerRead x.pkt = false) :
    execFabricTransferTimeout xfer s = .next (((s.lost xfer).reqFail r 6 0).reqLess r false) := by
  simp only [execFabricTransferTimeout, hx, hsent, hof, Nat.not_le.2 hlate, if_false]
  split
  case h_1 heq =>
    rw [heq] at hpkt
    cases hpkt
  case h_2 => rfl

theorem execFabricTransferTimeout_read {r n len : Nat} {va : W64} (hof : x.of = .req r) (hpkt : x.pkt = .read n va len) :
    execFabricTransferTimeout xfer s = .next ((((s.lost xfer).reqFail r 6 0).looseRead r 6).reqLess r false) := by
  simp only [execFabricTransferTimeout, hx, hsent, hof, hpkt, Nat.not_le.2 hlate, if_false, State.lost]

theorem execFabricTransferTimeout_coll {i : Nat} (hof : x.of = .coll i) :
    execFabricTransferTimeout xfer s = .next ((s.lost xfer).collFailHere i 6) := by
  simp only [execFabricTransferTimeout, hx, hsent, hof, Nat.not_le.2 hlate, if_false, State.lost]

theorem execFabricTransferTimeout_cast (hof : x.of = .cast) : execFabricTransferTimeout xfer s = .next (s.lost xfer) := by
  simp only [execFabricTransferTimeout, hx, hsent, hof, Nat.not_le.2 hlate, if_false, State.lost]

theorem execFabricTransferTimeout_page {m : Nat} (hof : x.of = .page m) :
    execFabricTransferTimeout xfer s = .next ((s.lost xfer).pageFail m 5) := by
  simp only [execFabricTransferTimeout, hx, hsent, hof, Nat.not_le.2 hlate, if_false, State.lost]

theorem execFabricTransferTimeout_route (hof : ofRoute x.of = true) :
    execFabricTransferTimeout xfer s = .next (((s.fabCount 2).ackRoute x 6).getD (s.fabCount 2)) := by
  simp only [execFabricTransferTimeout, hx, hsent, Nat.not_le.2 hlate, if_false]
  cases h : x.of with
  | route g core part dest cnt | routeCtr core part dest => rfl
  | req r | coll i | page m | cast =>
    rw [h] at hof
    cases hof

end

/-- Settles O35: each event past what could hold it, a timeout by what its transfer stands for. -/
theorem fabricEventsComplete : Obligations.FabricEventsComplete := by
  refine ⟨?_, ?_, ?_, ?_, ?_, ?_, ?_, ?_, ?_, ?_⟩
  · intro rank s hrate hquiet
    show execRateTableRecovery rank s = _
    simp only [execRateTableRecovery, Nat.not_le.2 hrate, Nat.not_lt.2 hquiet, decide_false, Bool.or_self, Bool.false_eq_true,
      if_false]
  · intro rank s hon hnotices hknown
    show execCongestionNotice rank s = _
    simp only [execCongestionNotice, hon, hnotices, Nat.not_le.2 hknown, decide_false, Bool.not_true, Bool.or_self,
      Bool.false_eq_true, if_false]
  · intro port lanes s hon hport hlanes
    show execPortTraining port lanes s = _
    simp only [execPortTraining, hon, Nat.not_le.2 hport, Nat.not_lt.2 hlanes, decide_false, Bool.not_true, Bool.or_self,
      Bool.false_eq_true, if_false]
  · intro s table hframe hnext
    show execNetworkFrameBoundary s = _
    simp only [execNetworkFrameBoundary, State.frameDue, hframe, hnext, beq_self_eq_true, Option.isSome_some, Bool.and_self,
      Bool.not_true, Bool.false_eq_true, if_false, State.updFab, Option.getD_some]
  · intro xfer s x t r hx hsent hlate hof hpkt
    exact execFabricTransferTimeout_req hx hsent hlate hof hpkt
  · intro xfer s x t r n va len hx hsent hlate hof hpkt
    exact execFabricTransferTimeout_read hx hsent hlate hof hpkt
  · intro xfer s x t i hx hsent hlate hof
    exact execFabricTransferTimeout_coll hx hsent hlate hof
  · intro xfer s x t hx hsent hlate hof
    exact execFabricTransferTimeout_cast hx hsent hlate hof
  · intro xfer s x t m hx hsent hlate hof
    exact execFabricTransferTimeout_page hx hsent hlate hof
  · intro xfer s x t hx hsent hlate hof hroute
    obtain ⟨s2, hroute⟩ := Option.isSome_iff_exists.1 hroute
    refine (execFabricTransferTimeout_route hx hsent hlate hof).trans ?_
    rw [hroute, Option.getD_some, Option.getD_some]

end Sys2Proof.Machine
end

section
/-! SUPPORT. Packets of peers where they arrive (R363, R368 to R371, R379, R390). -/

namespace Sys2Proof.Machine

/-- The retries of a port, as a packet over its plane counts them (R372). -/
def State.countRetries (s : State) (plane : Nat) : State :=
  s.updFab fun f => { f with retries := f.retries.modify plane fun n => Nat.min 0xFFFF (n + Config.choose s.tick [0xC40] % 2 ^ 16) }

/-- A packet that a peer's access to this device's pages carries (R368 to R371). -/
def isPeerAccess : Packet → Bool
  | .write _ _ _ | .reduce _ _ _ _ | .read _ _ _ | .counter _ _ | .check _ _ _ _ | .pageCopy _ _ _ _ _ _ => true
  | _ => false

/-- A packet of a known peer on a port whose four lanes are up is let in (R363, R372). -/
theorem packet_enters {src plane : Nat} {s : State} (hon : s.fab.ctl.getLsbD 0 = true) (hplane : plane < 18)
    (hknown : src < s.nranks) (hpeer : src ≠ s.rank) (hlanes : s.fab.lanes.getD plane 0 = 4) :
    ¬ (!s.fab.ctl.getLsbD 0 || 18 ≤ plane || s.nranks ≤ src || src == s.rank || s.fab.lanes.getD plane 0 != 4) = true := by
  simp only [hon, Nat.not_le.2 hplane, Nat.not_le.2 hknown, beq_eq_false_iff_ne.2 hpeer, hlanes, decide_false, bne_self_eq_false,
    Bool.not_true, Bool.or_self, Bool.false_eq_true, not_false_eq_true]

/-- A peer's access that no earlier reduction landing of its peer and plane holds, and that its place lets in, is performed (R368). -/
theorem execFabricPacketArrival_access {src plane : Nat} {pkt : Packet} {s : State} (haccess : isPeerAccess pkt = true)
    (hon : s.fab.ctl.getLsbD 0 = true) (hplane : plane < 18) (hknown : src < s.nranks) (hpeer : src ≠ s.rank)
    (hlanes : s.fab.lanes.getD plane 0 = 4) (hfirst : (s.fab.waiting.any fun x => x.src == src && x.plane == plane) = false)
    (hgoes : ((s.countRetries plane).peerAccess src (portDie plane) pkt).isSome = true) :
    execFabricPacketArrival src plane pkt s = .next (((s.countRetries plane).peerAccess src (portDie plane) pkt).getD s) := by
  obtain ⟨s2, hgo⟩ := Option.isSome_iff_exists.1 hgoes
  rw [hgo]
  refine (if_neg (packet_enters hon hplane hknown hpeer hlanes)).trans ?_
  cases pkt with
  | write _ _ _ | reduce _ _ _ _ | read _ _ _ | counter _ _ | check _ _ _ _ | pageCopy _ _ _ _ _ _ =>
    refine (if_neg (ne_true_of_eq_false hfirst)).trans ?_
    rw [State.countRetries] at hgo
    rw [hgo]
    rfl
  | _ => cases haccess

/-- Settles O36: a packet is let in, and is then an access, or joins what it is for. -/
theorem fabricArrivalsComplete : Obligations.FabricArrivalsComplete := by
  refine ⟨?_, ?_, ?_, ?_, ?_, ?_, ?_, ?_, ?_⟩
  · intro src plane n va d s
    exact execFabricPacketArrival_access rfl
  · intro src plane n ty va d s
    exact execFabricPacketArrival_access rfl
  · intro src plane n va len s
    exact execFabricPacketArrival_access rfl
  · intro src plane n va s
    exact execFabricPacketArrival_access rfl
  · intro src plane n va frame bs d last s
    exact execFabricPacketArrival_access rfl
  · intro src plane n rcb base off data s hon hplane hknown hpeer hlanes
    exact if_neg (packet_enters hon hplane hknown hpeer hlanes)
  · intro src plane tag n digest data s hon hplane hknown hpeer hlanes
    exact if_neg (packet_enters hon hplane hknown hpeer hlanes)
  · intro src plane tag n status s hon hplane hknown hpeer hlanes
    exact if_neg (packet_enters hon hplane hknown hpeer hlanes)
  · intro src plane dev va own s hon hplane hknown hpeer hlanes
    exact if_neg (packet_enters hon hplane hknown hpeer hlanes)

end Sys2Proof.Machine
end

section
/-! SUPPORT. Reduction landings, and the steps and the end of collectives under way (R376 to R379, R385, R390, R391). -/

namespace Sys2Proof.Machine

theorem fabAt_of_isOk {x : FabAt} (h : x.isOk = true) : x = .ok x.rs x.st := by
  cases x with
  | ok rs s => rfl
  | bad k a s | away k | wait => cases h

theorem spans_of_got {x : Spans} {l : List (Nat × Range)} (h : x.got = some l) : x = .ok l x.st := by
  cases x with
  | ok l' s =>
    cases h
    rfl
  | bad k a s | wait => cases h

/-- The round of a control block: the one that stands open, else a new one (R378). -/
def State.roundOf (s : State) (L : RedLand) (die : Nat) : Round :=
  (s.fab.rounds.find? fun x => x.rcb == L.rcb).getD ⟨L.rcb, die, [], [], false⟩

/-- The bytes that have landed in a slot, and the landings that they came by (R378). -/
def Round.landedIn (R : Round) (j : Nat) : Nat := ((R.landed.find? fun x => x.1 == j).map (·.2)).getD 0
def Round.slot (R : Round) (j : Nat) : List (Nat × List Byte) := ((R.slots.find? fun x => x.1 == j).map (·.2)).getD []

/-- A round with one more landing in a slot (R378). -/
def Round.land (R : Round) (L : RedLand) (j : Nat) : Round :=
  { R with landed := listSet (fun x => x.1 == j) (j, R.landedIn j + L.data.length) R.landed
           slots := listSet (fun x => x.1 == j) (j, R.slot j ++ [(L.off, L.data)]) R.slots
           doubled := R.doubled || (R.slot j).any fun w => overlapsAt w.1 w.2.length L.off L.data.length }

/-- The landing performed in its slot, and the round closed where every slot is full (R378). -/
def State.landIn (s : State) (L : RedLand) (id : Nat) (r : Rcb) (rcb : Range) (buf out : List (Nat × Range)) : State :=
  let j := L.src - r.first
  let R := (s.roundOf L (paDie rcb.pa)).land L j
  let s3 := (s.freeSpans (paDie rcb.pa) (r.buf + j) (cutSpans buf (j * r.len + L.off) L.data.length)).updFab fun f =>
    { f with waiting := f.waiting.filter (fun x => x.id != id), rounds := listSet (fun x => x.rcb == L.rcb) R f.rounds }
  if (List.range r.count).all fun k => r.len ≤ R.landedIn k then s3.closeRound (paDie rcb.pa) r rcb buf out R else s3

section
variable {id : Nat} {s : State} {L : RedLand} (hL : (s.fab.waiting.find? fun x => x.id == id) = some L)
  (hfirst : s.landingAfter L = false)
include hL hfirst

/-- The control block of a landing is aligned (R376). -/
theorem execReductionLanding_misaligned (halign : L.rcb.toNat % 64 ≠ 0) :
    execReductionLanding id s = .next (s.dropLanding L 0) := by
  simp only [execReductionLanding, hL, hfirst, bne_iff_ne.2 halign, Bool.false_eq_true, if_false, if_true]

/-- A landing past every check of its control block, its member, its buffer and its output (R377 to R379). -/
theorem execReductionLanding_lands {s1 s2 s3 : State} {rcbs : List Range} {rcb : Range} {r : Rcb} {buf out : List (Nat × Range)}
    (halign : L.rcb.toNat % 64 = 0) (hrcbs : s.fabAt 0 L.rcb.toNat 64 true false [0xC23, L.rcb.toNat] = .ok rcbs s1)
    (hrcb : rcbs.headD ⟨0, 0, false⟩ = rcb) (hdev : paDevice rcb.pa = true) (hread : s1.memReady rcb.pa 64 rcb.bypass = true)
    (hcount : s1.sliceReady rcb.pa 8 rcb.bypass = true) (hr : rcbOf (s1.mem.visBytes rcb.pa 64) = r) (hok : r.ok = true)
    (hlow : r.first ≤ L.src) (hhigh : L.src < r.first + r.count) (hfits : L.off + L.data.length ≤ r.len)
    (hbase : L.base.toNat = r.out) (hbuf : State.fabSpans 0 true true 0xC21 (pageParts 0 r.buf (r.count * r.len)) s1 [] = .ok buf s2)
    (hout : State.fabSpans 0 true true 0xC22 (pageParts 0 r.out (r.len / 4 * r.size)) s2 [] = .ok out s3)
    (hroom : (s3.fab.rounds.any fun x => x.rcb == L.rcb) = true ∨ (s3.fab.rounds.countP fun x => x.die == paDie rcb.pa) < 256)
    (hopen : (s3.roundOf L (paDie rcb.pa)).landedIn (L.src - r.first) < r.len) (hbufReady : s3.landReady buf = true)
    (houtReady : s3.landReady out = true) :
    execReductionLanding id s = .next (s3.landIn L id r rcb buf out) := by
  have hplace : (!(s3.fab.rounds.any fun x => x.rcb == L.rcb) &&
      256 ≤ s3.fab.rounds.countP fun x => x.die == paDie rcb.pa) = false := by
    obtain hstands | hfew := hroom
    · rw [hstands, Bool.not_true, Bool.false_and]
    · rw [decide_eq_false (Nat.not_le.2 hfew), Bool.and_false]
  simp only [State.roundOf, Round.landedIn] at hopen
  simp only [execReductionLanding, hL, hfirst, halign, hrcbs, hrcb, hdev, hread, hcount, hr, hok, Nat.not_lt.2 hlow,
    Nat.not_le.2 hhigh, Nat.not_lt.2 hfits, hbase, hbuf, hout, hplace, Nat.not_le.2 hopen, hbufReady, houtReady, decide_false,
    bne_self_eq_false, Bool.not_true, Bool.or_self, Bool.false_eq_true, if_false]
  rfl

end

/-- Settles O37: a landing past every check, and a collective by where it stands. -/
theorem roundsAndCollectivesComplete : Obligations.RoundsAndCollectivesComplete := by
  refine ⟨?_, ?_, ?_, ?_, ?_⟩
  · intro id s L hL hfirst halign
    exact execReductionLanding_misaligned hL hfirst halign
  · intro id s L rcb buf out hL hfirst halign hat hrcb hdev hread hcount hok hlow hhigh hfits hbase hbuf hout hroom hopen hbufReady
      houtReady
    exact execReductionLanding_lands hL hfirst halign (fabAt_of_isOk hat) hrcb hdev hread hcount rfl hok hlow hhigh hfits hbase
      (spans_of_got hbuf) (spans_of_got hout) hroom hopen hbufReady houtReady
  · intro inst s i hi hdone hbegun hfirst hbegins
    obtain ⟨s2, hbegin⟩ := Option.isSome_iff_exists.1 hbegins
    show execCollectiveStep inst s = _
    simp only [execCollectiveStep, hi, hdone, hbegun, hfirst, hbegin, Bool.and_false, Bool.or_self, Bool.false_eq_true, if_false,
      Option.getD_some]
  · intro inst s i hi hdone hbegun hgood hfirst hlands
    obtain ⟨s2, hland⟩ := Option.isSome_iff_exists.1 hlands
    show execCollectiveStep inst s = _
    simp only [execCollectiveStep, hi, hdone, hbegun, hgood, hfirst, hland, Bool.false_and, Bool.or_self, Bool.false_eq_true,
      if_false, if_true, Option.getD_some]
  · intro inst s i hi hdone hbegun hsent hgood hlanded hloose
    obtain ⟨s2, hloose⟩ := Option.isSome_iff_exists.1 hloose
    show execCollectiveInstanceComplete inst s = _
    simp only [execCollectiveInstanceComplete, hi, hdone, hbegun, hsent, hgood, hlanded, hloose, Bool.not_true, Bool.and_false,
      Bool.or_self, Bool.false_eq_true, if_false, Option.bind_some, Option.getD_some]

end Sys2Proof.Machine
end

section
/-! SUPPORT. Scheduling instructions of one thread (R428 to R435). -/

namespace Sys2Proof.Machine

theorem access_passes {x : Access} (h : x.isOk = true) : ∃ rs s, x = .ok rs s := ⟨_, _, access_of_isOk h⟩

section
variable {s : State} {t : TRef} {act : State → Nat → State} {h g : Nat}

/-- A thread of a handler group acts on the group that its own handles, and its group then ends (R430). -/
theorem handlerAct_acts (hlive : (s.thread t).exited = false) (hgroup : t.group = some h) (hpriv : (s.launchOf t).priv = true)
    (hhandles : (s.groupOf t).bind (·.handles) = some g) : s.handlerAct t act = .stop ((act s g).endHandler h) := by
  simp only [State.handlerAct, hlive, hgroup, hpriv, hhandles, Bool.false_eq_true, if_false]

end

/-- Settles O26: each lane past its checks; `rfe` and `halt` are one act of a handler. -/
theorem schedulingInstructionsComplete : Obligations.SchedulingInstructionsComplete := by
  refine ⟨?_, ?_, ?_, ?_, ?_, ?_, ?_, ?_, ?_, ?_, ?_, ?_⟩
  · intro c q a s s1 t hr halign hok hdev hquant
    obtain ⟨rs, s2, hpass⟩ := access_passes hok
    simp only [hpass, Access.rs, Access.st] at hdev ⊢
    refine native_done hr ?_
    simp only [halign, hpass, hdev, hquant, bne_self_eq_false, Bool.not_true, Bool.false_eq_true, if_false, if_true]
  · intro c q a s s1 t hr halign hok hdev hquant hpost hgoes
    obtain ⟨rs, s2, hpass⟩ := access_passes hok
    simp only [hpass, Access.rs, Access.st] at hdev hpost hgoes ⊢
    obtain ⟨s3, hgo⟩ := Option.isSome_iff_exists.1 hgoes
    refine native_done hr ?_
    simp only [halign, hpass, hdev, hquant, hpost, hgo, bne_self_eq_false, Bool.not_true, Bool.false_eq_true, if_false, Option.getD_some]
  · intro c d a off s s1 t r hr hquant hheld halign hok hrs hdev
    refine native_lane hr ((queueWait_plain hquant).trans ?_)
    simp only [hheld, State.withWord, withRange_device halign (access_of_range hok hrs) hdev, hquant, Bool.false_eq_true, if_false]
  · intro c a s s1 t hr
    exact native_done hr (apply_ite Lane.next _ _ _).symm
  · intro c s s1 t hr
    exact native_done hr rfl
  · intro c s s1 t hr hflag
    exact native_done hr ((if_neg (ne_true_of_eq_false hflag)).trans (apply_ite Lane.next _ _ _).symm)
  · intro c d s s1 t hr hheld
    exact native_done hr (if_neg (ne_true_of_eq_false hheld))
  · intro c ty d a s s1 t hr hgood hheld
    exact native_done hr ((if_neg (ne_true_of_eq_false hgood)).trans (if_neg (ne_true_of_eq_false hheld)))
  · intro c ty a b s s1 t hr hgood hheld
    exact native_done hr ((if_neg (ne_true_of_eq_false hgood)).trans (if_neg (ne_true_of_eq_false hheld)))
  · intro c a s s1 t G hr hgroup
    refine native_done hr ?_
    simp only [hgroup]
  · intro c s s1 t h g hr hlive hgroup hpriv hhandles
    exact native_lane hr (handlerAct_acts hlive hgroup hpriv hhandles)
  · intro c code s s1 t h g hr hlive hgroup hpriv hhandles
    exact native_lane hr (handlerAct_acts hlive hgroup hpriv hhandles)

end Sys2Proof.Machine
end

section
/-! SUPPORT. Launch records, ranges, copy-queue requests, placements, and the ends of groups and launches (R398 to R407, R413, R424). -/

namespace Sys2Proof.Machine

theorem recCheck_of_okRc {x : RecCheck} {rc : LaunchRec} (h : x.okRc = some rc) : x = .ok rc x.st := by
  cases x with
  | ok rc' s =>
    cases h
    rfl
  | bad rc' k s | lost s | wait s => cases h

theorem recCheck_of_badRc {x : RecCheck} {rc : LaunchRec} {code : Nat} (h : x.badRc = some (rc, code)) : x = .bad rc code x.st := by
  cases x with
  | bad rc' k s =>
    cases h
    rfl
  | ok rc' s | lost s | wait s => cases h

/-- The entry at the head of a ring, with the state after its read. -/
theorem ringTake_of_entry {q : Nat} {s : State} {b : List Byte} {push : Option Push}
    (h : (s.ringTake q).map (fun x => (x.1, x.2.1)) = some (b, push)) :
    s.ringTake q = some (b, push, ((s.ringTake q).map fun x => x.2.2).getD s) := by
  obtain ⟨⟨b', push', s1⟩, htake, heq⟩ := Option.map_eq_some_iff.1 h
  cases heq
  rw [htake, Option.map_some, Option.getD_some]

/-- The address of the record that a reference names (R398). -/
def refVa (b : List Byte) : Nat := bitsOf (natAt b 0 8) 56 4 * 16

/-- A reference remembered as accepted (R403). -/
def State.accept (s : State) (va frame : Nat) : State := { s with cp := { s.cp with accepted := (va, frame) :: s.cp.accepted } }

section
variable {q : Nat} {s s1 s2 s3 : State} {b : List Byte} {push : Option Push} {rc : LaunchRec} {code : Nat} (hq : q < 4)
  (hfree : (s.headAt q).isNone = true) (htake : s.ringTake q = some (b, push, s1))
include hq hfree htake

/-- A record of no kind (R398). -/
theorem execLaunchRecordCheck_reserved (hkind : 3 ≤ natAt b 0 4 % 16) :
    execLaunchRecordCheck q s = .next (s1.pushErr 5 (pushPart push) srcCp (BitVec.ofNat 64 (refVa b)) 0) := by
  have h1 : natAt b 0 4 % 16 ≠ 1 := by omega
  have h2 : natAt b 0 4 % 16 ≠ 2 := by omega
  simp only [execLaunchRecordCheck, Option.isNone_iff_eq_none.1 hfree, Nat.not_le.2 hq, htake, h1, h2, hkind, Option.isSome_none,
    decide_false, Bool.or_self, Bool.false_eq_true, if_false, if_true]
  rfl

theorem execLaunchRecordCheck_accepts (hkind : natAt b 0 4 % 16 = 0)
    (hcheck : s1.checkRecord (s1.entryRoot q push) (refVa b) (fun rc => (0, rc.ngrp + 1)) false = .ok rc s2) :
    execLaunchRecordCheck q s = .next ((s2.accept (refVa b) ((s1.entryRoot q push).getD 0)).newLaunch q rc
      ((s1.entryRoot q push).getD 0) (s.headStamp q) 0 (Nat.min (2 ^ 24) (rc.ngrp + 1)) rc.args rc.join) := by
  rw [refVa] at hcheck
  simp only [execLaunchRecordCheck, Option.isNone_iff_eq_none.1 hfree, Nat.not_le.2 hq, htake, hkind, hcheck, Option.isSome_none,
    decide_false, Bool.or_self, Bool.false_eq_true, if_false, Nat.reduceEqDiff, Nat.reduceLeDiff]
  rfl

theorem execLaunchRecordCheck_rejects (hkind : natAt b 0 4 % 16 = 0)
    (hcheck : s1.checkRecord (s1.entryRoot q push) (refVa b) (fun rc => (0, rc.ngrp + 1)) false = .bad rc code s2)
    (hword : s2.writeComp (s1.entryRoot q push) rc (pushPart push) code 0 = some s3) : execLaunchRecordCheck q s = .next s3 := by
  rw [refVa] at hcheck
  simp only [execLaunchRecordCheck, Option.isNone_iff_eq_none.1 hfree, Nat.not_le.2 hq, htake, hkind, hcheck, hword,
    Option.isSome_none, decide_false, Bool.or_self, Bool.false_eq_true, if_false, Nat.reduceEqDiff, Nat.reduceLeDiff]

/-- A kind-1 record passes its check, where `known` says that its record has been accepted before, and makes a launch of its range
(R403). -/
theorem execGroupRange_launches {n : Nat} {known : Bool} (hkind : natAt b 0 4 % 16 = 1) (hn : natAt b 24 8 % 2 ^ 24 + 1 = n)
    (hnone : s1.entryRoot q push = none → known = false)
    (hsome : ∀ f, s1.entryRoot q push = some f → known = s1.cp.accepted.contains (refVa b, f))
    (hcheck : s1.checkRecord (s1.entryRoot q push) (refVa b) (fun _ => (natAt b 24 8 / 2 ^ 24, n)) known = .ok rc s2) :
    execGroupRange q s = .next (s2.newLaunch q { rc with ngrp := n - 1 } ((s1.entryRoot q push).getD 0)
      (s.headStamp q) (natAt b 24 8 / 2 ^ 24) n (BitVec.ofNat 64 (natAt b 8 8)) (BitVec.ofNat 64 (natAt b 16 8))) := by
  simp only [execGroupRange, Option.isNone_iff_eq_none.1 hfree, Nat.not_le.2 hq, htake, hkind, hn, bne_self_eq_false,
    Bool.false_eq_true, if_false]
  rw [refVa] at hcheck hsome
  cases hroot : s1.entryRoot q push with
  | none =>
    rw [hroot, hnone hroot] at hcheck
    simp only [hcheck]
  | some f =>
    -- `known` stands for the search of the accepted records, which the kernel would else unfold with the record's address.
    rw [hroot] at hcheck
    simp only [← hsome f hroot, hcheck]

theorem execResumptionRecord_spawned (hkind : natAt b 0 4 % 16 = 2) (hpush : (push.any fun p => p.launch.isSome) = true) :
    execResumptionRecord q s = .next (s1.pushErr 5 (pushPart push) srcCp (BitVec.ofNat 64 (refVa b)) 0) := by
  simp only [execResumptionRecord, Option.isNone_iff_eq_none.1 hfree, Nat.not_le.2 hq, htake, hkind, hpush, bne_self_eq_false,
    Bool.false_eq_true, if_false, if_true, refVa]

theorem execResumptionRecord_heads (hkind : natAt b 0 4 % 16 = 2) (hpush : (push.any fun p => p.launch.isSome) = false) :
    execResumptionRecord q s = .next (s1.setHead q (.resume (refVa b) (BitVec.ofNat 64 (natAt b 8 8)))) := by
  simp only [execResumptionRecord, Option.isNone_iff_eq_none.1 hfree, Nat.not_le.2 hq, htake, hkind, hpush, bne_self_eq_false,
    Bool.false_eq_true, if_false, refVa]

end

/-- A launch at the head of a queue whose range is placed takes its next range (R403). -/
theorem execGroupRange_continues {q l : Nat} {s : State} {L : Launch} (hq : q < 4) (hhead : s.headAt q = some (.range l))
    (hl : s.launch? l = some L) (hplaced : L.count = 0) (hmore : L.upto < L.total) :
    execGroupRange q s = .next (s.updLaunch l fun x =>
      { x with count := Nat.min (2 ^ 24) (L.total - L.upto), upto := x.upto + Nat.min (2 ^ 24) (L.total - L.upto) }) := by
  simp only [execGroupRange, Nat.not_le.2 hq, hhead, hl, hplaced, Nat.not_le.2 hmore, decide_false, bne_self_eq_false, Bool.or_self,
    Bool.false_eq_true, if_false]

/-- A copy-queue entry becomes a request on the die of its destination, where a copy engine has room (R398). -/
theorem execCopyQueueRequest_queues {q die pa cl : Nat} {s s1 s2 : State} {b : List Byte} {push : Option Push} (hq : q = 4 ∨ q = 5)
    (hpa : (s.queueAt q).entryPa q (s.queueAt q).head.toNat = pa) (hready : s.sliceReady pa 64 false = true)
    (htake : s.ringTake q = some (b, push, s1)) (hdie : s1.pruneReqs.dstDie ((rootOf (s1.pruneReqs.queueAt q).root).getD 0) b = some die)
    (hcl : Config.choose s1.pruneReqs.tick [0xE22] % 40 = cl) (hroom : s1.pruneReqs.copyLoad (die * 64 + cl) < 64)
    (hs2 : (s1.pruneReqs.settle (pa + 8) 8).perform (pa + 8) (natToBytes 8 1) false = s2) :
    execCopyQueueRequest q s = .next
      { s2 with
        nextId := s2.nextId + 1
        reqs := s2.reqs ++ [{ queueReq s1.pruneReqs.nextId ((rootOf (s1.pruneReqs.queueAt q).root).getD 0) die cl pa b with
          code := if (rootOf (s1.pruneReqs.queueAt q).root).isNone then some (1, 0)
            else if !bodyEnd b || bodyBv b || bodyArv b || (bodyAdrs b).any (fun w => bitAt w 63) || 11 ≤ natAt b 0 8 % 64 ||
              natAt b 0 8 % 64 == 9 then some (3, 0) else none }]
        cp := { s2.cp with copyRun := (s1.pruneReqs.nextId, q, pa) :: s2.cp.copyRun } } := by
  have hqueue : (q != 4 && q != 5) = false := by
    obtain rfl | rfl := hq
    · rfl
    · rfl
  simp only [execCopyQueueRequest, hqueue, hpa, hready, htake, hdie, hcl, Nat.not_le.2 hroom, hs2, Bool.not_true, Bool.or_self,
    Bool.false_eq_true, if_false]
  rfl

/-- A group of a launch with no join object, its wave slots free and its work over, that handles no other group, ends (R407). -/
theorem execGroupEnd_ends {grp : Nat} {s : State} {G : Group} {L : Launch} (hG : s.group? grp = some G)
    (hfreed : ((s.freeWaves.group? grp).map fun G => G.waves.all fun w => w.freed) = some true)
    (hbuffered : (G.threads.any fun x => !x.quantum.isEmpty) = false) (hwork : s.freeWaves.groupWork grp = false)
    (hL : s.freeWaves.launch? G.launch = some L) (hruns : L.outcome = none) (hcommit : L.committing = false) (hjoin : L.join = 0)
    (hhandles : G.handles = none) :
    execGroupEnd grp s = .next ((((s.freeWaves.forceAll ((s.freeWaves.mem.wq.filter fun e =>
      (s.freeWaves.groupWrites grp).contains e.id && paHome e.pa == 15).map (·.id)) .all).dropGroup grp).updLaunch L.id fun x =>
        { x with ended := x.ended + 1 }).freePlans L.id) := by
  simp only [execGroupEnd, hG, hfreed, hbuffered, hwork, hL, hruns, hcommit, hjoin, hhandles, Option.getD_some, Option.isSome_none,
    Option.bind_none, bne_self_eq_false, Bool.not_true, Bool.false_and, Bool.or_self, Bool.false_eq_true, if_false, if_true]

/-- A launch whose groups have all ended writes its completion word and leaves (R402, R407). -/
theorem execLaunchCompletion_leaves {l : Nat} {s s2 : State} {L : Launch} (hl : s.launch? l = some L) (hruns : L.outcome = none)
    (hupto : L.upto = L.total) (hcount : L.count = 0) (hended : L.ended = L.total) (hnone : s.launchGroups l = [])
    (hdrained : s.launchDrained l = true) (hforce : s.canForceAll (s.launchWrites l) .all = true)
    (hword : (s.forceAll (s.launchWrites l) .all).writeComp (some L.root) L.rc (L.parts.head?.getD 0xFFFF) 0 0 = some s2) :
    execLaunchCompletion l s = .next (s2.dropLaunch l) := by
  simp [execLaunchCompletion, hl, hruns, hupto, hcount, hended, hnone, hdrained, hforce, hword]

/-- Settles O38: each record by its kind and its check, each end past what could hold it. -/
theorem launchEventsComplete : Obligations.LaunchEventsComplete := by
  refine ⟨?_, ?_, ?_, ?_, ?_, ?_, ?_, ?_, ?_, ?_, ?_, ?_⟩
  · intro q s b push rc hq hfree htake hkind hcheck
    exact execLaunchRecordCheck_accepts hq hfree (ringTake_of_entry htake) hkind (recCheck_of_okRc hcheck)
  · intro q s b push rc code hq hfree htake hkind hcheck hwrites
    obtain ⟨s3, hword⟩ := Option.isSome_iff_exists.1 hwrites
    rw [hword]
    exact execLaunchRecordCheck_rejects hq hfree (ringTake_of_entry htake) hkind (recCheck_of_badRc hcheck) hword
  · intro q s b push hq hfree htake hkind
    exact execLaunchRecordCheck_reserved hq hfree (ringTake_of_entry htake) hkind
  · intro q s l L hq hhead hl hplaced hmore
    exact execGroupRange_continues hq hhead hl hplaced hmore
  · intro q s b push rc hq hfree htake hkind hcheck
    exact execGroupRange_launches hq hfree (ringTake_of_entry htake) hkind rfl (fun h => by rw [h]) (fun f h => by rw [h]; rfl)
      (recCheck_of_okRc hcheck)
  · intro q s b push hq hfree htake hkind hpush
    exact execResumptionRecord_spawned hq hfree (ringTake_of_entry htake) hkind hpush
  · intro q s b push hq hfree htake hkind hpush
    exact execResumptionRecord_heads hq hfree (ringTake_of_entry htake) hkind hpush
  · intro q s b push die hq hready htake hdie hroom
    exact execCopyQueueRequest_queues hq rfl hready (ringTake_of_entry htake) hdie rfl hroom rfl
  · intro part s hplacing hplaces
    obtain ⟨s2, hplace⟩ := Option.isSome_iff_exists.1 hplaces
    show execCellPlacement part s = _
    simp only [execCellPlacement, hplacing, hplace, Bool.not_true, Bool.false_eq_true, if_false, Option.getD_some]
  · intro grp s G L hG hfreed hbuffered hwork hL hruns hcommit hjoin hhandles
    exact execGroupEnd_ends hG hfreed hbuffered hwork hL hruns hcommit hjoin hhandles
  · intro l s L hl hruns hupto hcount hended hnone hdrained hforce hwrites
    obtain ⟨s2, hword⟩ := Option.isSome_iff_exists.1 hwrites
    rw [hword]
    exact execLaunchCompletion_leaves hl hruns hupto hcount hended hnone hdrained hforce hword
  · intro l s L hl hdl hruns hgroups
    show execDeadlineExpiry l s = _
    simp only [execDeadlineExpiry, hl, hdl, hruns, hgroups, bne_self_eq_false, Option.isSome_none, Bool.or_self, Bool.false_eq_true,
      if_false]

end Sys2Proof.Machine
end
